-- ==== Sys2Proof/Word.lean ====
section
/-! DEFINITION. The word types of the Lansyn GX9 and their plainest arithmetic. -/

namespace Sys2Proof

/-- A register, an address or a memory word: 64 bits. -/
abbrev Word := BitVec 64

/-- A scalar instruction word (R189). -/
abbrev Word32 := BitVec 32

/-- A tile command word (R202). -/
abbrev Command := BitVec 256

/-- One byte of storage. -/
abbrev Byte := BitVec 8

/-- A register, predicate, lane-predicate or tile field of an instruction: 4 bits. -/
abbrev Field4 := BitVec 4

/-- The field of `n` bits whose least significant bit is bit `lo` (the manual writes it
`lo+n-1:lo`). -/
abbrev field {w : Nat} (x : BitVec w) (lo n : Nat) : BitVec n := x.extractLsb' lo n

end Sys2Proof
end

