-- ==== Sys2Proof/Syntax.lean ====
section
/-! DEFINITION. The steps of the Lansyn GX9: one constructor of `Instr` for each row of the opcode
table. Scalar instructions carry the fields of their 32-bit word (08, Tables 8-1 to 8-10), tile
commands those of their 256-bit word (08, Tables 8-12 and 8-13), and the hardware's own steps the
thing they act on and what the outside world brings them (file 95). -/

namespace Sys2Proof

/-- The guard of a scalar word (Table 8-2): `e` says guarded, `s` the sense, `p` the predicate. -/
structure Guard where
  e : Bool
  s : Bool
  p : Field4
  deriving DecidableEq, Repr

/-- No guard: E = S = G = 0 (R17). -/
def Guard.none : Guard := ⟨false, false, 0⟩

/-- The fields of a tile command word below its opcode (Table 8-12). -/
structure TileFields where
  e : Bool := false
  s : Bool := false
  k : Field4 := 0
  td : Field4 := 12
  ta : Field4 := 12
  tb : Field4 := 12
  tc : Field4 := 12
  ed : BitVec 5 := 0
  ea : BitVec 5 := 0
  eb : BitVec 5 := 0
  first : BitVec 4 := 0
  count : BitVec 5 := 0
  rnd : BitVec 3 := 0
  sat : Bool := false
  layout : BitVec 3 := 0
  zero : BitVec 3 := 0
  imm32 : BitVec 32 := 0
  addr : Word := 0
  flag : Word := 0
  len : BitVec 32 := 0
  deriving DecidableEq, Repr

/-- What module flash and the fuse map bring to the boot ROM and the Vestry (R436 to R439). DEDUCED, log 79. -/
structure BootInput where
  flashReadable : Bool
  selfTestOk : Bool
  wellFormed : Bool
  signed : List Byte
  /-- the public keys that come with the Vestry image -/
  rsaKey : List Byte
  slhKey : List Byte
  rsaSignature : List Byte
  slhSignature : List Byte
  fuseMapOk : Bool
  /-- node numbers of this chip that are harvested -/
  harvested : List Nat
  /-- route entries the Vestry writes for them: (node, bank index, entry); `routable` says whether
  a table that reaches every node exists -/
  routes : List (Nat × Nat × Word)
  routable : Bool
  deriving DecidableEq, Repr

/-- What a port meets when it trains (R415, R416): the peer's port, its highest version offered,
whether the secured session opened, and what its two sides exchanged. -/
structure TrainingInput where
  peerChip : Nat
  peerPort : Nat
  peerVersion : Nat
  sessionOk : Bool
  key : BitVec 256
  deriving DecidableEq, Repr

/-- A MEASUREMENTS request: the index asked for and the requester's nonce (R440). -/
structure MeasurementRequest where
  index : Nat
  nonce : List Byte
  deriving DecidableEq, Repr

/-- A cluster: a rectangle of nodes within one die (R84). -/
structure Cluster where
  chip : Nat
  die : Nat
  rowLo : Nat
  rowHi : Nat
  colLo : Nat
  colHi : Nat
  deriving DecidableEq, Repr

/-- What a scrubber finds in the words it reads (R87, R88). -/
inductive ScrubFinding where
  | clean
  | corrected (n : Nat)
  | uncorrectable (addr : Nat)
  deriving DecidableEq, Repr

/-- A hello frame (R404): the sender's chip and port, its slot index and rotation number. -/
structure Hello where
  chip : Nat
  port : Nat
  slot : Nat
  rotation : BitVec 16
  deriving DecidableEq, Repr

/-- What the Vestry writes when it arms a change of rotor tables (Table 17-5, step 1). -/
structure RotorChange where
  /-- port, configuration word, standby bank entries -/
  ports : List (Nat × Word × List Word)
  /-- chips the new reachability map holds -/
  reachable : List Nat
  /-- destination and intermediate of the relay table -/
  relays : List (Nat × Nat)
  /-- relay places that each intermediate grants this chip, at least 1 (R409) -/
  credits : List (Nat × Nat)
  deriving DecidableEq, Repr

/-- The steps of the machine: scalar words, tile commands and the hardware's own steps, each group in the
order of the opcode table, the steps that only the outside world brings about last. -/
inductive Instr where
  -- scalar: major 0x01, ALU (R249, R251)
  | add (g : Guard) (d a b : Field4)
  | sub (g : Guard) (d a b : Field4)
  | and (g : Guard) (d a b : Field4)
  | or (g : Guard) (d a b : Field4)
  | xor (g : Guard) (d a b : Field4)
  | shl (g : Guard) (d a b : Field4)
  | shr (g : Guard) (d a b : Field4)
  | shra (g : Guard) (d a b : Field4)
  | rotr (g : Guard) (d a b : Field4)
  | min (g : Guard) (d a b : Field4)
  | max (g : Guard) (d a b : Field4)
  | minu (g : Guard) (d a b : Field4)
  | maxu (g : Guard) (d a b : Field4)
  | mul (g : Guard) (d a b : Field4)
  | mulh (g : Guard) (d a b : Field4)
  | mulhu (g : Guard) (d a b : Field4)
  | div (g : Guard) (d a b : Field4)
  | divu (g : Guard) (d a b : Field4)
  | rem (g : Guard) (d a b : Field4)
  | remu (g : Guard) (d a b : Field4)
  | clz (g : Guard) (d a : Field4)
  | ctz (g : Guard) (d a : Field4)
  | popc (g : Guard) (d a : Field4)
  | sextB (g : Guard) (d a : Field4)
  | sextH (g : Guard) (d a : Field4)
  | sextW (g : Guard) (d a : Field4)
  | zextB (g : Guard) (d a : Field4)
  | zextH (g : Guard) (d a : Field4)
  | zextW (g : Guard) (d a : Field4)
  -- majors 0x02 to 0x0A (R250, R253)
  | addi (g : Guard) (d a : Field4) (imm : BitVec 12)
  | andi (g : Guard) (d a : Field4) (imm : BitVec 12)
  | ori (g : Guard) (d a : Field4) (imm : BitVec 12)
  | xori (g : Guard) (d a : Field4) (imm : BitVec 12)
  | shli (g : Guard) (d a : Field4) (n : BitVec 6)
  | shri (g : Guard) (d a : Field4) (n : BitVec 6)
  | shrai (g : Guard) (d a : Field4) (n : BitVec 6)
  | rotri (g : Guard) (d a : Field4) (n : BitVec 6)
  | movi (g : Guard) (d : Field4) (imm : BitVec 16)
  | movk16 (g : Guard) (d : Field4) (imm : BitVec 16)
  | movk32 (g : Guard) (d : Field4) (imm : BitVec 16)
  | movk48 (g : Guard) (d : Field4) (imm : BitVec 16)
  -- majors 0x0B to 0x0D (R254, R255)
  | cmp (g : Guard) (p a b : Field4) (cc : BitVec 8)
  | cmpi (g : Guard) (p a : Field4) (cc : BitVec 3) (imm : BitVec 9)
  | pand (g : Guard) (d a b : Field4)
  | por (g : Guard) (d a b : Field4)
  | pxor (g : Guard) (d a b : Field4)
  | pnot (g : Guard) (d a : Field4)
  | pmov (g : Guard) (d a : Field4)
  | movpFromPw (g : Guard) (d : Field4)
  | movpToPw (g : Guard) (a : Field4)
  -- majors 0x0E to 0x13 (R256 to R262, R247, R248)
  | br (g : Guard) (off : BitVec 20)
  | jal (g : Guard) (off : BitVec 20)
  | jalr (g : Guard) (d a : Field4) (imm : BitVec 12)
  | nop (g : Guard)
  | halt (g : Guard)
  | yield (g : Guard)
  | trap (g : Guard) (code : BitVec 8)
  | eret (g : Guard)
  | brk (g : Guard) (code : BitVec 8)
  | gets (g : Guard) (d : Field4) (n : BitVec 12)
  | sets (g : Guard) (a : Field4) (n : BitVec 12)
  -- majors 0x14 to 0x19 (R272 to R275)
  | ld (g : Guard) (t base : Field4) (size : BitVec 2) (sx : Bool) (order : BitVec 2) (off : BitVec 7)
  | st (g : Guard) (t base : Field4) (size : BitVec 2) (order : BitVec 2) (off : BitVec 7)
  | ldl (g : Guard) (t base : Field4) (size : BitVec 2) (sx : Bool) (off : BitVec 7)
  | stl (g : Guard) (t base : Field4) (size : BitVec 2) (off : BitVec 7)
  | ldh (g : Guard) (t base : Field4) (off : BitVec 7)
  | sth (g : Guard) (t base : Field4) (off : BitVec 7)
  -- majors 0x1A to 0x1C (R277 to R282)
  | amoAdd (g : Guard) (d a b : Field4) (ty : BitVec 2) (scope : BitVec 3)
  | amoMin (g : Guard) (d a b : Field4) (ty : BitVec 2) (scope : BitVec 3)
  | amoMax (g : Guard) (d a b : Field4) (ty : BitVec 2) (scope : BitVec 3)
  | amoAnd (g : Guard) (d a b : Field4) (ty : BitVec 2) (scope : BitVec 3)
  | amoOr (g : Guard) (d a b : Field4) (ty : BitVec 2) (scope : BitVec 3)
  | amoXor (g : Guard) (d a b : Field4) (ty : BitVec 2) (scope : BitVec 3)
  | amoXchg (g : Guard) (d a b : Field4) (ty : BitVec 2) (scope : BitVec 3)
  | cas (g : Guard) (d a b c : Field4) (double : Bool) (scope : BitVec 3)
  | cas2 (g : Guard) (d a b : Field4)
  | cas4 (g : Guard) (d a b : Field4)
  | enq (g : Guard) (d a b : Field4)
  | deq (g : Guard) (d a b : Field4)
  | chase (g : Guard) (d a b c : Field4)
  -- majors 0x1D to 0x1F (R283 to R286)
  | cwait (g : Guard) (d a : Field4) (imm : BitVec 9)
  | cwaitr (g : Guard) (d a : Field4) (imm : BitVec 9)
  | cadd (g : Guard) (d a : Field4) (imm : BitVec 9)
  | caddRel (g : Guard) (d a : Field4) (imm : BitVec 9)
  | cpeek (g : Guard) (d a : Field4) (imm : BitVec 9)
  | lempty (g : Guard) (a : Field4) (n : BitVec 4)
  | lfill (g : Guard) (a : Field4) (n : BitVec 4)
  | lstate (g : Guard) (d a : Field4)
  | wander (g : Guard) (a : Field4)
  | home (g : Guard)
  -- majors 0x20 to 0x23 (R288 to R294)
  | tx (g : Guard) (a : Field4) (imm : BitVec 12)
  | tq (g : Guard) (a : Field4) (imm : BitVec 12)
  | fork (g : Guard) (n a : Field4) (imm : BitVec 12)
  | rdv (g : Guard) (a : Field4) (imm : BitVec 12)
  -- majors 0x24 to 0x26 (R295 to R299)
  | tshape (g : Guard) (t : Field4) (elem : BitVec 5) (rows : BitVec 4) (cols : BitVec 6)
  | tshapeReg (g : Guard) (t a : Field4)
  | tget (g : Guard) (d t b : Field4)
  | tset (g : Guard) (d t b : Field4)
  | park (g : Guard) (a t c : Field4)
  | unpark (g : Guard) (d t c : Field4)
  | borrow (g : Guard)
  | returnLent (g : Guard)
  | xget (g : Guard) (d n : Field4)
  | xput (g : Guard) (n b : Field4)
  -- majors 0x27 to 0x29 (R300 to R304)
  | launch (g : Guard) (d a b : Field4)
  | trigger (g : Guard)
  | kvsub (g : Guard) (d a b t : Field4)
  | kvunsub (g : Guard) (a : Field4)
  | pass (g : Guard) (a : Field4)
  | post (g : Guard) (a b : Field4)
  -- majors 0x2A to 0x2C (R263 to R267)
  | fadd (g : Guard) (d a b : Field4) (dbl : Bool) (rm : BitVec 3)
  | fsub (g : Guard) (d a b : Field4) (dbl : Bool) (rm : BitVec 3)
  | fmul (g : Guard) (d a b : Field4) (dbl : Bool) (rm : BitVec 3)
  | fdiv (g : Guard) (d a b : Field4) (dbl : Bool) (rm : BitVec 3)
  | fsqrt (g : Guard) (d a : Field4) (dbl : Bool) (rm : BitVec 3)
  | fmin (g : Guard) (d a b : Field4) (dbl : Bool)
  | fmax (g : Guard) (d a b : Field4) (dbl : Bool)
  | fneg (g : Guard) (d a : Field4) (dbl : Bool)
  | fabs (g : Guard) (d a : Field4) (dbl : Bool)
  | fcvt (g : Guard) (d a : Field4) (conv : BitVec 4) (rm : BitVec 3)
  | fma (g : Guard) (d a b c : Field4) (dbl : Bool)
  | fms (g : Guard) (d a b c : Field4) (dbl : Bool)
  | fnma (g : Guard) (d a b c : Field4) (dbl : Bool)
  | fnms (g : Guard) (d a b c : Field4) (dbl : Bool)
  | fcmp (g : Guard) (p a b : Field4) (dbl : Bool) (cc : BitVec 3)
  -- majors 0x2D to 0x2F (R268 to R270, R276)
  | plc (g : Guard) (d a b : Field4)
  | ploc (g : Guard) (d a : Field4)
  | roll (g : Guard) (d a : Field4)
  | rollF (g : Guard) (d a : Field4)
  | stc (g : Guard) (a b c : Field4) (size : BitVec 2)
  -- tile commands: Loom (R316 to R320)
  | tmma (f : TileFields)
  | tmms (f : TileFields)
  | tmmb (f : TileFields)
  | tmmd (f : TileFields)
  -- Lane engine (R322 to R333)
  | radd (f : TileFields)
  | rsub (f : TileFields)
  | rmul (f : TileFields)
  | rfma (f : TileFields)
  | rmin (f : TileFields)
  | rmax (f : TileFields)
  | rabs (f : TileFields)
  | rneg (f : TileFields)
  | rrcp (f : TileFields)
  | rrsq (f : TileFields)
  | rexp2 (f : TileFields)
  | rlog2 (f : TileFields)
  | rcvt (f : TileFields)
  | rand (f : TileFields)
  | ror (f : TileFields)
  | rxor (f : TileFields)
  | rshl (f : TileFields)
  | rshr (f : TileFields)
  | rcmp (f : TileFields)
  | rsel (f : TileFields)
  | rbcast (f : TileFields)
  | rsumr (f : TileFields)
  | rmaxr (f : TileFields)
  | rscan (f : TileFields)
  | rsort (f : TileFields)
  | ridx (f : TileFields)
  | rperm (f : TileFields)
  | rroll (f : TileFields)
  | kand (f : TileFields)
  | kor (f : TileFields)
  | kxor (f : TileFields)
  | knot (f : TileFields)
  -- tile moves (R335 to R339)
  | tld (f : TileFields)
  | tst (f : TileFields)
  | tsta (f : TileFields)
  | tzero (f : TileFields)
  | tcopy (f : TileFields)
  | ttrn (f : TileFields)
  -- Carter, Gleaner, attention, spires (R345 to R360)
  | cpy (f : TileFields)
  | cpya (f : TileFields)
  | csched (f : TileFields)
  | cstage (f : TileFields)
  | gath (f : TileFields)
  | scat (f : TileFields)
  | atts (f : TileFields)
  | attp (f : TileFields)
  | gmrg (f : TileFields)
  | gtake (f : TileFields)
  | spire (f : TileFields)
  -- the hardware's own steps (file 95); Nat arguments name nodes, threads, packets, operations by number
  | retryTimeout (pk : Nat)
  | scrub (core : Nat) (found : ScrubFinding)
  | packetRoute (pk : Nat)
  | drainMarker (node port : Nat)
  | gatewayFrame (pk : Nat) (fecOk : Bool)
  | forkBufferSend (node pk : Nat)
  | reeveOperation (pk : Nat) (uncorrectable : Bool)
  | flagIncrement (pk : Nat)
  | waitRegistration (pk : Nat)
  | wakeNotice (pk : Nat)
  | replyLands (pk : Nat)
  | acknowledgement (pk : Nat)
  | busyNotice (pk : Nat)
  | homeReport (pk : Nat)
  | tableChange (chip chg : Nat)
  | tableChangeAcknowledge (chip chg : Nat)
  | movingExtentRecheck (thread : Nat)
  | nodeCacheFetch (node key : Nat)
  | codeCacheFill (thread : Nat)
  | copyScheduleEntry (task idx : Nat)
  | submission (sub : Nat)
  | admission (node : Nat)
  | dispatch (node : Nat)
  | dependantSubmission (node : Nat)
  | taskRetirement (task : Nat)
  | taskEndFailedPartial (task : Nat)
  | preEmption (node : Nat)
  | contextSave (thread : Nat)
  | saveRingRetry (thread : Nat)
  | resumption (node record : Nat)
  | longOpResult (thread : Nat)
  | yieldExpiry (thread : Nat)
  | engineCompletion (op : Nat)
  | wayfarerArrival (pk : Nat)
  | wayfarerStart (core : Nat)
  | tollArrival (node : Nat)
  | tollReturn (node : Nat)
  | subscriptionRegistration (sub : Nat)
  | passOpen (die roll : Nat)
  | pageWalk (die roll : Nat)
  | stagingDelivery (pk : Nat)
  | spireRound (round : Nat)
  | spirePackageSum (round : Nat)
  | ouvvalFrame (chip port : Nat) (ok : Bool)
  | negativeAcknowledgement (chip port : Nat)
  | entryEnqueue (entry : Nat)
  | entryAdmission (chip port cls position : Nat)
  | relayEntry (entry : Nat)
  | relayCredit (chip via : Nat)
  | parcelOffer (transit : Nat)
  | parcelAcceptance (transit : Nat)
  | parcelData (transit : Nat)
  | installationAcknowledgement (transit : Nat)
  | parcelTransitFailure (transit : Nat)
  | commandEntry (parish : Nat)
  | launchCommand (parish seq : Nat)
  | copyin (parish seq : Nat)
  | copyout (parish seq : Nat)
  | mark (parish seq : Nat)
  | commandCompletion (parish seq : Nat)
  | busyResend (pk : Nat)
  -- steps that only the outside world or the Vestry brings about
  | rotorRelock (chip port : Nat)
  | helloFrame (chip port : Nat) (h : Hello)
  | keyUpdate (chip port : Nat) (key : BitVec 256)
  | keyRotationTimer (chip port : Nat)
  | powerOnReset (chip : Nat)
  | bootRom (chip : Nat) (b : BootInput)
  | linkTraining (chip port : Nat) (b : TrainingInput)
  | clusterReset (c : Cluster)
  | clusterRelease (c : Cluster)
  | routeTableWrite (node bank idx : Nat) (entry : Word)
  | swapMarker (node : Nat)
  | channelScrub (chip channel : Nat) (found : ScrubFinding)
  | tollCountSet (die count : Nat)
  | tollHoldLimit (node : Nat)
  | slotStart (chip port since10ns : Nat)
  | rotorTableChange (chip : Nat) (c : RotorChange)
  | qtailWrite (parish : Nat) (v : Word)
  | jheadWrite (parish : Nat) (v : Word)
  | registerWrite (chip off : Nat) (v : Word)
  | measurements (chip : Nat) (r : MeasurementRequest)
  | dieOverTemperature (die : Nat)
  | moduleOverTemperature (chip : Nat)
  | darkPeriodMissed (chip port : Nat)
  | gatewayTraining (chip : Nat) (deadSeams : List Nat)
  | hostLinkTraining (chip speed width : Nat)
  | powerLoss (chip : Nat)
  | disposition (chip parish : Nat)
  | parishCreate (chip parish : Nat)
  | parishDestroy (chip parish : Nat)
  deriving DecidableEq, Repr

end Sys2Proof
end

