-- ==== Sys2Proof/WellFormed.lean ====
section
/-! DEFINITION. Which terms of `Instr` stand for an encoding: the checks of step 1 and step 4 of
Table 8-11 for a scalar word, and, for a tile command, the guard rule that the command word's own
checks (R207 step 3) share with it. A hardware step has no encoding and no check. -/

namespace Sys2Proof

/-- Step 1 of Table 8-11: E = 0 implies S = 0 and G = 0. -/
def Guard.ok (g : Guard) : Bool := g.e || (!g.s && g.p == 0)

/-- A tile field names a tile: 0 to 11 (step 4 of Table 8-11). -/
def tileOk (t : Field4) : Bool := decide (t.toNat < 12)

/-- Scope codes 5 to 7 are reserved wherever a scope is encoded (R197). -/
def scopeOk (k : BitVec 3) : Bool := decide (k.toNat ≤ 4)

/-- The minor values of step 4 of Table 8-11 that the fields of `i` can break. -/
def Instr.minorsOk : Instr → Bool
  | .cmp _ _ _ _ cc => decide (cc.toNat < 6)
  | .cmpi _ _ _ cc _ => decide (cc.toNat < 6)
  | .ld _ _ _ size sx order _ => (!sx || size != 3) && order != 2
  | .st _ _ _ _ order _ => order != 1
  | .ldl _ _ _ size sx _ => !sx || size != 3
  | .amoAdd _ _ _ _ _ scope => scopeOk scope
  | .amoMin _ _ _ _ ty scope | .amoMax _ _ _ _ ty scope | .amoAnd _ _ _ _ ty scope
  | .amoOr _ _ _ _ ty scope | .amoXor _ _ _ _ ty scope | .amoXchg _ _ _ _ ty scope =>
      ty != 3 && scopeOk scope
  | .cas _ _ _ _ _ _ scope => scopeOk scope
  | .tshape _ t _ _ _ => tileOk t
  | .tshapeReg _ t _ => tileOk t
  | .tget _ _ t _ => tileOk t
  | .tset _ _ t _ => tileOk t
  | .park _ _ t _ => tileOk t
  | .unpark _ _ t _ => tileOk t
  | .kvsub _ _ _ _ t => tileOk t
  | .fadd _ _ _ _ _ rm | .fsub _ _ _ _ _ rm | .fmul _ _ _ _ _ rm | .fdiv _ _ _ _ _ rm =>
      rm != 7
  | .fsqrt _ _ _ _ rm => rm != 7
  | .fcvt _ _ _ conv rm => decide (conv.toNat ≤ 9) && rm != 7
  | .fcmp _ _ _ _ _ cc => decide (cc.toNat ≤ 4)
  | _ => true

/-- The guard of a scalar instruction; `none` for a tile command or a hardware step. -/
def Instr.guard? : Instr → Option Guard
  | .add g .. | .sub g .. | .and g .. | .or g .. | .xor g .. | .shl g .. | .shr g .. | .shra g ..
  | .rotr g .. | .min g .. | .max g .. | .minu g .. | .maxu g .. | .mul g .. | .mulh g ..
  | .mulhu g .. | .div g .. | .divu g .. | .rem g .. | .remu g .. | .clz g .. | .ctz g ..
  | .popc g .. | .sextB g .. | .sextH g .. | .sextW g .. | .zextB g .. | .zextH g .. | .zextW g ..
  | .addi g .. | .andi g .. | .ori g .. | .xori g .. | .shli g .. | .shri g .. | .shrai g ..
  | .rotri g .. | .movi g .. | .movk16 g .. | .movk32 g .. | .movk48 g .. | .cmp g .. | .cmpi g ..
  | .pand g .. | .por g .. | .pxor g .. | .pnot g .. | .pmov g .. | .movpFromPw g ..
  | .movpToPw g .. | .br g .. | .jal g .. | .jalr g .. | .nop g | .halt g | .yield g | .trap g ..
  | .eret g | .brk g .. | .gets g .. | .sets g .. | .ld g .. | .st g .. | .ldl g .. | .stl g ..
  | .ldh g .. | .sth g .. | .amoAdd g .. | .amoMin g .. | .amoMax g .. | .amoAnd g .. | .amoOr g ..
  | .amoXor g .. | .amoXchg g .. | .cas g .. | .cas2 g .. | .cas4 g .. | .enq g .. | .deq g ..
  | .chase g .. | .cwait g .. | .cwaitr g .. | .cadd g .. | .caddRel g .. | .cpeek g ..
  | .lempty g .. | .lfill g .. | .lstate g .. | .wander g .. | .home g | .tx g .. | .tq g ..
  | .fork g .. | .rdv g .. | .tshape g .. | .tshapeReg g .. | .tget g .. | .tset g .. | .park g ..
  | .unpark g .. | .borrow g | .returnLent g | .xget g .. | .xput g .. | .launch g .. | .trigger g
  | .kvsub g .. | .kvunsub g .. | .pass g .. | .post g .. | .fadd g .. | .fsub g .. | .fmul g ..
  | .fdiv g .. | .fsqrt g .. | .fmin g .. | .fmax g .. | .fneg g .. | .fabs g .. | .fcvt g ..
  | .fma g .. | .fms g .. | .fnma g .. | .fnms g .. | .fcmp g .. | .plc g .. | .ploc g ..
  | .roll g .. | .rollF g .. | .stc g .. => some g
  | _ => none

/-- A term that some word encodes, and whose encoding passes steps 1 to 4 of Table 8-11. -/
def Instr.wellFormed (i : Instr) : Bool :=
  (match i.guard? with
   | some g => g.ok
   | none => true) && i.minorsOk

end Sys2Proof
end

