-- ==== Sys2Proof/Decode.lean ====
section
/-! DEFINITION. Decoding and encoding. `decodeWord` makes checks 1 to 4 of Table 8-11 on a scalar
word, `decodeCommand` checks 1 and 2 of Table 8-16 on a command word; each rejects by name. The
encoder writes the words from Tables 8-1 to 8-9 and 8-12. -/

namespace Sys2Proof

/-- Why a word is no instruction: `illegal` raises cause 0x01, `reserved` cause 0x02 (Tables 8-11
and 8-16). -/
inductive DecodeFail where
  | illegal
  | reserved
  deriving DecidableEq, Repr

/-- The guard fields of a scalar word (Table 8-2). -/
def decodeGuard (w : Word32) : Guard := ⟨w.getLsbD 31, w.getLsbD 30, field w 26 4⟩

/-- `x` when the fields that must be zero are zero (R191). -/
def whenOk (b : Bool) (x : Instr) : Option Instr := if b then some x else none

/-- Major 0x01 (Table 8-5). -/
def decodeAlu (w : Word32) (g : Guard) : Option Instr :=
  let d := field w 16 4
  let a := field w 12 4
  let b := field w 8 4
  let u := b == 0
  match (field w 0 8).toNat with
  | 0x00 => some (.add g d a b)
  | 0x01 => some (.sub g d a b)
  | 0x02 => some (.and g d a b)
  | 0x03 => some (.or g d a b)
  | 0x04 => some (.xor g d a b)
  | 0x05 => some (.shl g d a b)
  | 0x06 => some (.shr g d a b)
  | 0x07 => some (.shra g d a b)
  | 0x08 => some (.rotr g d a b)
  | 0x09 => some (.min g d a b)
  | 0x0A => some (.max g d a b)
  | 0x0B => some (.minu g d a b)
  | 0x0C => some (.maxu g d a b)
  | 0x10 => some (.mul g d a b)
  | 0x11 => some (.mulh g d a b)
  | 0x12 => some (.mulhu g d a b)
  | 0x14 => some (.div g d a b)
  | 0x15 => some (.divu g d a b)
  | 0x16 => some (.rem g d a b)
  | 0x17 => some (.remu g d a b)
  | 0x20 => whenOk u (.clz g d a)
  | 0x21 => whenOk u (.ctz g d a)
  | 0x22 => whenOk u (.popc g d a)
  | 0x24 => whenOk u (.sextB g d a)
  | 0x25 => whenOk u (.sextH g d a)
  | 0x26 => whenOk u (.sextW g d a)
  | 0x28 => whenOk u (.zextB g d a)
  | 0x29 => whenOk u (.zextH g d a)
  | 0x2A => whenOk u (.zextW g d a)
  | _ => none

/-- Major 0x06: the kind in bits 11:8, bits 7:6 zero (R192, R250). -/
def decodeShift (w : Word32) (g : Guard) : Option Instr :=
  let d := field w 16 4
  let a := field w 12 4
  let n := field w 0 6
  match (field w 6 6).toNat with
  | 0x00 => some (.shli g d a n)
  | 0x04 => some (.shri g d a n)
  | 0x08 => some (.shrai g d a n)
  | 0x0C => some (.rotri g d a n)
  | _ => none

/-- Major 0x0D (Table 8-7). -/
def decodePred (w : Word32) (g : Guard) : Option Instr :=
  let d := field w 16 4
  let a := field w 12 4
  let b := field w 8 4
  match (field w 0 8).toNat with
  | 0 => some (.pand g d a b)
  | 1 => some (.por g d a b)
  | 2 => some (.pxor g d a b)
  | 3 => whenOk (b == 0) (.pnot g d a)
  | 4 => whenOk (b == 0) (.pmov g d a)
  | 5 => whenOk (a == 0 && b == 0) (.movpFromPw g d)
  | 6 => whenOk (d == 0 && b == 0) (.movpToPw g a)
  | _ => none

/-- Major 0x11 (Table 8-7): d = a = 0, and the code is zero for every op but TRAP and BRK. -/
def decodeSys (w : Word32) (g : Guard) : Option Instr :=
  let code := field w 0 8
  if field w 12 8 == 0 then
    match (field w 8 4).toNat with
    | 0 => whenOk (code == 0) (.nop g)
    | 1 => whenOk (code == 0) (.halt g)
    | 2 => whenOk (code == 0) (.yield g)
    | 3 => some (.trap g code)
    | 4 => whenOk (code == 0) (.eret g)
    | 5 => some (.brk g code)
    | _ => none
  else none

/-- Major 0x1A: the operation in bits 7:5 (R197). -/
def decodeAmo (w : Word32) (g : Guard) : Option Instr :=
  let d := field w 16 4
  let a := field w 12 4
  let b := field w 8 4
  let ty := field w 3 2
  let sc := field w 0 3
  match (field w 5 3).toNat with
  | 0 => some (.amoAdd g d a b ty sc)
  | 1 => some (.amoMin g d a b ty sc)
  | 2 => some (.amoMax g d a b ty sc)
  | 3 => some (.amoAnd g d a b ty sc)
  | 4 => some (.amoOr g d a b ty sc)
  | 5 => some (.amoXor g d a b ty sc)
  | 6 => some (.amoXchg g d a b ty sc)
  | _ => none

/-- Major 0x1C (Table 8-9). -/
def decodeReeve (w : Word32) (g : Guard) : Option Instr :=
  let d := field w 16 4
  let a := field w 12 4
  let b := field w 8 4
  let c := field w 4 4
  match (field w 0 4).toNat with
  | 0 => whenOk (c == 0) (.cas2 g d a b)
  | 1 => whenOk (c == 0) (.cas4 g d a b)
  | 2 => whenOk (c == 0) (.enq g d a b)
  | 3 => whenOk (c == 0) (.deq g d a b)
  | 4 => some (.chase g d a b c)
  | _ => none

/-- Major 0x1D: the operation in bits 11:9 (Table 11-4). -/
def decodeFlag (w : Word32) (g : Guard) : Option Instr :=
  let d := field w 16 4
  let a := field w 12 4
  let i := field w 0 9
  match (field w 9 3).toNat with
  | 0 => some (.cwait g d a i)
  | 1 => some (.cwaitr g d a i)
  | 2 => some (.cadd g d a i)
  | 3 => some (.caddRel g d a i)
  | 4 => some (.cpeek g d a i)
  | _ => none

/-- Major 0x1E: the operation in bits 11:10, bits 5:0 zero (R285). -/
def decodeLine (w : Word32) (g : Guard) : Option Instr :=
  let d := field w 16 4
  let a := field w 12 4
  let n := field w 6 4
  if field w 0 6 == 0 then
    match (field w 10 2).toNat with
    | 0 => whenOk (d == 0) (.lempty g a n)
    | 1 => whenOk (d == 0) (.lfill g a n)
    | 2 => whenOk (n == 0) (.lstate g d a)
    | _ => none
  else none

/-- Major 0x26 (Table 8-9). -/
def decodeSpill (w : Word32) (g : Guard) : Option Instr :=
  let d := field w 16 4
  let a := field w 12 4
  let b := field w 8 4
  let c := field w 4 4
  match (field w 0 4).toNat with
  | 0 => whenOk (d == 0) (.park g a b c)
  | 1 => whenOk (a == 0) (.unpark g d b c)
  | 2 => whenOk (d == 0 && a == 0 && b == 0 && c == 0) (.borrow g)
  | 3 => whenOk (d == 0 && a == 0 && b == 0 && c == 0) (.returnLent g)
  | 4 => whenOk (b == 0 && c == 0) (.xget g d a)
  | 5 => whenOk (d == 0 && c == 0) (.xput g a b)
  | _ => none

/-- Major 0x2A: the operation in bits 7:4, P in bit 3 (Table 8-10). -/
def decodeFp (w : Word32) (g : Guard) : Option Instr :=
  let d := field w 16 4
  let a := field w 12 4
  let b := field w 8 4
  let p := w.getLsbD 3
  let r := field w 0 3
  match (field w 4 4).toNat with
  | 0 => some (.fadd g d a b p r)
  | 1 => some (.fsub g d a b p r)
  | 2 => some (.fmul g d a b p r)
  | 3 => some (.fdiv g d a b p r)
  | 4 => whenOk (b == 0) (.fsqrt g d a p r)
  | 5 => whenOk (r == 0) (.fmin g d a b p)
  | 6 => whenOk (r == 0) (.fmax g d a b p)
  | 7 => whenOk (r == 0 && b == 0) (.fneg g d a p)
  | 8 => whenOk (r == 0 && b == 0) (.fabs g d a p)
  | 9 => whenOk (!p) (.fcvt g d a b r)
  | _ => none

/-- Major 0x2B: the operation in bits 3:2, P in bit 1, bit 0 zero (Table 8-9). -/
def decodeFma (w : Word32) (g : Guard) : Option Instr :=
  let d := field w 16 4
  let a := field w 12 4
  let b := field w 8 4
  let c := field w 4 4
  let p := w.getLsbD 1
  if w.getLsbD 0 then none
  else
    match (field w 2 2).toNat with
    | 0 => some (.fma g d a b c p)
    | 1 => some (.fms g d a b c p)
    | 2 => some (.fnma g d a b c p)
    | _ => some (.fnms g d a b c p)

/-- The remaining fields of a word whose major is listed in Table 8-4: what instruction its minor
fields name (step 4 of Table 8-11, before the values `minorsOk` checks). -/
def decodeBody (w : Word32) (g : Guard) : Option Instr :=
  let d := field w 16 4
  let a := field w 12 4
  let b := field w 8 4
  let c := field w 4 4
  let imm := field w 0 12
  let size := field w 10 2
  let sx := w.getLsbD 9
  let order := field w 7 2
  let off := field w 0 7
  let fn := field w 0 8
  match (field w 20 6).toNat with
  | 0x01 => decodeAlu w g
  | 0x02 => some (.addi g d a imm)
  | 0x03 => some (.andi g d a imm)
  | 0x04 => some (.ori g d a imm)
  | 0x05 => some (.xori g d a imm)
  | 0x06 => decodeShift w g
  | 0x07 => some (.movi g d (field w 0 16))
  | 0x08 => some (.movk16 g d (field w 0 16))
  | 0x09 => some (.movk32 g d (field w 0 16))
  | 0x0A => some (.movk48 g d (field w 0 16))
  | 0x0B => some (.cmp g d a b fn)
  | 0x0C => some (.cmpi g d a (field w 9 3) (field w 0 9))
  | 0x0D => decodePred w g
  | 0x0E => some (.br g (field w 0 20))
  | 0x0F => some (.jal g (field w 0 20))
  | 0x10 => some (.jalr g d a imm)
  | 0x11 => decodeSys w g
  | 0x12 => whenOk (a == 0) (.gets g d imm)
  | 0x13 => whenOk (d == 0) (.sets g a imm)
  | 0x14 => some (.ld g d a size sx order off)
  | 0x15 => whenOk (!sx) (.st g d a size order off)
  | 0x16 => whenOk (order == 0) (.ldl g d a size sx off)
  | 0x17 => whenOk (!sx && order == 0) (.stl g d a size off)
  | 0x18 => whenOk (size == 3 && !sx && order == 0) (.ldh g d a off)
  | 0x19 => whenOk (size == 3 && !sx && order == 0) (.sth g d a off)
  | 0x1A => decodeAmo w g
  | 0x1B => some (.cas g d a b c (w.getLsbD 3) (field w 0 3))
  | 0x1C => decodeReeve w g
  | 0x1D => decodeFlag w g
  | 0x1E => decodeLine w g
  | 0x1F =>
      if imm == 0 then whenOk (d == 0) (.wander g a)
      else if imm == 1 then whenOk (d == 0 && a == 0) (.home g)
      else none
  | 0x20 => whenOk (d == 0) (.tx g a imm)
  | 0x21 => whenOk (d == 0) (.tq g a imm)
  | 0x22 => some (.fork g d a imm)
  | 0x23 => whenOk (d == 0) (.rdv g a imm)
  | 0x24 =>
      if w.getLsbD 0 then whenOk (field w 1 11 == 0) (.tshapeReg g d a)
      else some (.tshape g d (field w 11 5) (field w 7 4) (field w 1 6))
  | 0x25 =>
      if fn == 0 then some (.tget g d a b) else if fn == 1 then some (.tset g d a b) else none
  | 0x26 => decodeSpill w g
  | 0x27 =>
      if fn == 0 then some (.launch g d a b)
      else if fn == 1 then whenOk (d == 0 && a == 0 && b == 0) (.trigger g)
      else none
  | 0x28 =>
      if field w 0 4 == 0 then some (.kvsub g d a b c)
      else if fn == 1 then whenOk (d == 0 && b == 0) (.kvunsub g a)
      else if fn == 2 then whenOk (d == 0 && b == 0) (.pass g a)
      else none
  | 0x29 => whenOk (d == 0 && fn == 0) (.post g a b)
  | 0x2A => decodeFp w g
  | 0x2B => decodeFma w g
  | 0x2C => whenOk (field w 3 4 == 0) (.fcmp g d a b (w.getLsbD 7) (field w 0 3))
  | 0x2D =>
      if fn == 0 then some (.plc g d a b) else if fn == 1 then whenOk (b == 0) (.ploc g d a) else none
  | 0x2E =>
      if fn == 0 then whenOk (b == 0) (.roll g d a)
      else if fn == 1 then whenOk (b == 0) (.rollF g d a)
      else none
  | 0x2F => whenOk (d == 0 && field w 2 2 == 0) (.stc g a b c (field w 0 2))
  | _ => none

/-- Checks 1 to 4 of Table 8-11, in order. -/
def decodeWord (w : Word32) : Except DecodeFail Instr :=
  let g := decodeGuard w
  if !g.ok then .error .illegal
  else if field w 20 6 == 0 then .error .illegal
  else
    match decodeBody w g with
    | some i => if i.minorsOk then .ok i else .error .reserved
    | none => .error .reserved

/-! Tile command words -/

/-- The fields of a command word below its opcode (Table 8-12). -/
def commandFields (w : Command) : TileFields where
  e := w.getLsbD 247
  s := w.getLsbD 246
  k := field w 242 4
  td := field w 238 4
  ta := field w 234 4
  tb := field w 230 4
  tc := field w 226 4
  ed := field w 221 5
  ea := field w 216 5
  eb := field w 211 5
  first := field w 207 4
  count := field w 202 5
  rnd := field w 199 3
  sat := w.getLsbD 198
  layout := field w 195 3
  zero := field w 192 3
  imm32 := field w 160 32
  addr := field w 96 64
  flag := field w 32 64
  len := field w 0 32

/-- The command an opcode names (Table 8-15). -/
def commandOf (op : Nat) (f : TileFields) : Option Instr :=
  match op with
  | 0x01 => some (.tmma f)
  | 0x02 => some (.tmms f)
  | 0x03 => some (.tmmb f)
  | 0x04 => some (.tmmd f)
  | 0x10 => some (.radd f)
  | 0x11 => some (.rsub f)
  | 0x12 => some (.rmul f)
  | 0x13 => some (.rfma f)
  | 0x14 => some (.rmin f)
  | 0x15 => some (.rmax f)
  | 0x16 => some (.rabs f)
  | 0x17 => some (.rneg f)
  | 0x18 => some (.rrcp f)
  | 0x19 => some (.rrsq f)
  | 0x1A => some (.rexp2 f)
  | 0x1B => some (.rlog2 f)
  | 0x1C => some (.rcvt f)
  | 0x20 => some (.rand f)
  | 0x21 => some (.ror f)
  | 0x22 => some (.rxor f)
  | 0x23 => some (.rshl f)
  | 0x24 => some (.rshr f)
  | 0x28 => some (.rcmp f)
  | 0x29 => some (.rsel f)
  | 0x2A => some (.rbcast f)
  | 0x30 => some (.rsumr f)
  | 0x31 => some (.rmaxr f)
  | 0x32 => some (.rscan f)
  | 0x33 => some (.rsort f)
  | 0x34 => some (.ridx f)
  | 0x35 => some (.rperm f)
  | 0x36 => some (.rroll f)
  | 0x40 => some (.kand f)
  | 0x41 => some (.kor f)
  | 0x42 => some (.kxor f)
  | 0x43 => some (.knot f)
  | 0x60 => some (.tld f)
  | 0x61 => some (.tst f)
  | 0x62 => some (.tsta f)
  | 0x63 => some (.tzero f)
  | 0x64 => some (.tcopy f)
  | 0x65 => some (.ttrn f)
  | 0x70 => some (.cpy f)
  | 0x71 => some (.cpya f)
  | 0x72 => some (.csched f)
  | 0x73 => some (.cstage f)
  | 0x78 => some (.gath f)
  | 0x79 => some (.scat f)
  | 0x80 => some (.atts f)
  | 0x81 => some (.attp f)
  | 0x82 => some (.gmrg f)
  | 0x83 => some (.gtake f)
  | 0x90 => some (.spire f)
  | _ => none

/-- Checks 1 and 2 of Table 8-16. -/
def decodeCommand (w : Command) : Except DecodeFail Instr :=
  let op := field w 248 8
  if op == 0 then .error .illegal
  else
    match commandOf op.toNat (commandFields w) with
    | some i => .ok i
    | none => .error .reserved

/-- The opcode and fields of a tile command; `none` for any other instruction. -/
def Instr.command? : Instr → Option (BitVec 8 × TileFields)
  | .tmma f => some (0x01, f)
  | .tmms f => some (0x02, f)
  | .tmmb f => some (0x03, f)
  | .tmmd f => some (0x04, f)
  | .radd f => some (0x10, f)
  | .rsub f => some (0x11, f)
  | .rmul f => some (0x12, f)
  | .rfma f => some (0x13, f)
  | .rmin f => some (0x14, f)
  | .rmax f => some (0x15, f)
  | .rabs f => some (0x16, f)
  | .rneg f => some (0x17, f)
  | .rrcp f => some (0x18, f)
  | .rrsq f => some (0x19, f)
  | .rexp2 f => some (0x1A, f)
  | .rlog2 f => some (0x1B, f)
  | .rcvt f => some (0x1C, f)
  | .rand f => some (0x20, f)
  | .ror f => some (0x21, f)
  | .rxor f => some (0x22, f)
  | .rshl f => some (0x23, f)
  | .rshr f => some (0x24, f)
  | .rcmp f => some (0x28, f)
  | .rsel f => some (0x29, f)
  | .rbcast f => some (0x2A, f)
  | .rsumr f => some (0x30, f)
  | .rmaxr f => some (0x31, f)
  | .rscan f => some (0x32, f)
  | .rsort f => some (0x33, f)
  | .ridx f => some (0x34, f)
  | .rperm f => some (0x35, f)
  | .rroll f => some (0x36, f)
  | .kand f => some (0x40, f)
  | .kor f => some (0x41, f)
  | .kxor f => some (0x42, f)
  | .knot f => some (0x43, f)
  | .tld f => some (0x60, f)
  | .tst f => some (0x61, f)
  | .tsta f => some (0x62, f)
  | .tzero f => some (0x63, f)
  | .tcopy f => some (0x64, f)
  | .ttrn f => some (0x65, f)
  | .cpy f => some (0x70, f)
  | .cpya f => some (0x71, f)
  | .csched f => some (0x72, f)
  | .cstage f => some (0x73, f)
  | .gath f => some (0x78, f)
  | .scat f => some (0x79, f)
  | .atts f => some (0x80, f)
  | .attp f => some (0x81, f)
  | .gmrg f => some (0x82, f)
  | .gtake f => some (0x83, f)
  | .spire f => some (0x90, f)
  | _ => none

/-! Encoding -/

/-- Guard, major and the 20 format bits (Table 8-1). -/
def pack (g : Guard) (major : BitVec 6) (rest : BitVec 20) : Word32 :=
  BitVec.ofBool g.e ++ BitVec.ofBool g.s ++ g.p ++ major ++ rest

/-- Format R (Table 8-3). -/
def fmtR (d a b : Field4) (fn : BitVec 8) : BitVec 20 := d ++ a ++ b ++ fn

/-- Format I (Table 8-3). -/
def fmtI (d a : Field4) (imm : BitVec 12) : BitVec 20 := d ++ a ++ imm

/-- Format W (Table 8-3). -/
def fmtW (d : Field4) (imm : BitVec 16) : BitVec 20 := d ++ imm

/-- Format M (Table 8-3): size 11:10, sx 9, order 8:7, off7 6:0. -/
def fmtM (t base : Field4) (size : BitVec 2) (sx : Bool) (order : BitVec 2) (off : BitVec 7) :
    BitVec 20 := t ++ base ++ size ++ BitVec.ofBool sx ++ order ++ off

/-- Format F4 (Table 8-3). -/
def fmtF (d a b c op : Field4) : BitVec 20 := d ++ a ++ b ++ c ++ op

/-- The word of a scalar instruction; `none` for a tile command or a hardware step. -/
def encodeWord : Instr → Option Word32
  | .add g d a b => some (pack g 0x01 (fmtR d a b 0x00))
  | .sub g d a b => some (pack g 0x01 (fmtR d a b 0x01))
  | .and g d a b => some (pack g 0x01 (fmtR d a b 0x02))
  | .or g d a b => some (pack g 0x01 (fmtR d a b 0x03))
  | .xor g d a b => some (pack g 0x01 (fmtR d a b 0x04))
  | .shl g d a b => some (pack g 0x01 (fmtR d a b 0x05))
  | .shr g d a b => some (pack g 0x01 (fmtR d a b 0x06))
  | .shra g d a b => some (pack g 0x01 (fmtR d a b 0x07))
  | .rotr g d a b => some (pack g 0x01 (fmtR d a b 0x08))
  | .min g d a b => some (pack g 0x01 (fmtR d a b 0x09))
  | .max g d a b => some (pack g 0x01 (fmtR d a b 0x0A))
  | .minu g d a b => some (pack g 0x01 (fmtR d a b 0x0B))
  | .maxu g d a b => some (pack g 0x01 (fmtR d a b 0x0C))
  | .mul g d a b => some (pack g 0x01 (fmtR d a b 0x10))
  | .mulh g d a b => some (pack g 0x01 (fmtR d a b 0x11))
  | .mulhu g d a b => some (pack g 0x01 (fmtR d a b 0x12))
  | .div g d a b => some (pack g 0x01 (fmtR d a b 0x14))
  | .divu g d a b => some (pack g 0x01 (fmtR d a b 0x15))
  | .rem g d a b => some (pack g 0x01 (fmtR d a b 0x16))
  | .remu g d a b => some (pack g 0x01 (fmtR d a b 0x17))
  | .clz g d a => some (pack g 0x01 (fmtR d a 0 0x20))
  | .ctz g d a => some (pack g 0x01 (fmtR d a 0 0x21))
  | .popc g d a => some (pack g 0x01 (fmtR d a 0 0x22))
  | .sextB g d a => some (pack g 0x01 (fmtR d a 0 0x24))
  | .sextH g d a => some (pack g 0x01 (fmtR d a 0 0x25))
  | .sextW g d a => some (pack g 0x01 (fmtR d a 0 0x26))
  | .zextB g d a => some (pack g 0x01 (fmtR d a 0 0x28))
  | .zextH g d a => some (pack g 0x01 (fmtR d a 0 0x29))
  | .zextW g d a => some (pack g 0x01 (fmtR d a 0 0x2A))
  | .addi g d a imm => some (pack g 0x02 (fmtI d a imm))
  | .andi g d a imm => some (pack g 0x03 (fmtI d a imm))
  | .ori g d a imm => some (pack g 0x04 (fmtI d a imm))
  | .xori g d a imm => some (pack g 0x05 (fmtI d a imm))
  | .shli g d a n => some (pack g 0x06 (fmtI d a ((0x00 : BitVec 6) ++ n)))
  | .shri g d a n => some (pack g 0x06 (fmtI d a ((0x04 : BitVec 6) ++ n)))
  | .shrai g d a n => some (pack g 0x06 (fmtI d a ((0x08 : BitVec 6) ++ n)))
  | .rotri g d a n => some (pack g 0x06 (fmtI d a ((0x0C : BitVec 6) ++ n)))
  | .movi g d imm => some (pack g 0x07 (fmtW d imm))
  | .movk16 g d imm => some (pack g 0x08 (fmtW d imm))
  | .movk32 g d imm => some (pack g 0x09 (fmtW d imm))
  | .movk48 g d imm => some (pack g 0x0A (fmtW d imm))
  | .cmp g p a b cc => some (pack g 0x0B (fmtR p a b cc))
  | .cmpi g p a cc imm => some (pack g 0x0C (fmtI p a (cc ++ imm)))
  | .pand g d a b => some (pack g 0x0D (fmtR d a b 0))
  | .por g d a b => some (pack g 0x0D (fmtR d a b 1))
  | .pxor g d a b => some (pack g 0x0D (fmtR d a b 2))
  | .pnot g d a => some (pack g 0x0D (fmtR d a 0 3))
  | .pmov g d a => some (pack g 0x0D (fmtR d a 0 4))
  | .movpFromPw g d => some (pack g 0x0D (fmtR d 0 0 5))
  | .movpToPw g a => some (pack g 0x0D (fmtR 0 a 0 6))
  | .br g off => some (pack g 0x0E off)
  | .jal g off => some (pack g 0x0F off)
  | .jalr g d a imm => some (pack g 0x10 (fmtI d a imm))
  | .nop g => some (pack g 0x11 (fmtI 0 0 0x000))
  | .halt g => some (pack g 0x11 (fmtI 0 0 0x100))
  | .yield g => some (pack g 0x11 (fmtI 0 0 0x200))
  | .trap g code => some (pack g 0x11 (fmtI 0 0 ((3 : BitVec 4) ++ code)))
  | .eret g => some (pack g 0x11 (fmtI 0 0 0x400))
  | .brk g code => some (pack g 0x11 (fmtI 0 0 ((5 : BitVec 4) ++ code)))
  | .gets g d n => some (pack g 0x12 (fmtI d 0 n))
  | .sets g a n => some (pack g 0x13 (fmtI 0 a n))
  | .ld g t base size sx order off => some (pack g 0x14 (fmtM t base size sx order off))
  | .st g t base size order off => some (pack g 0x15 (fmtM t base size false order off))
  | .ldl g t base size sx off => some (pack g 0x16 (fmtM t base size sx 0 off))
  | .stl g t base size off => some (pack g 0x17 (fmtM t base size false 0 off))
  | .ldh g t base off => some (pack g 0x18 (fmtM t base 3 false 0 off))
  | .sth g t base off => some (pack g 0x19 (fmtM t base 3 false 0 off))
  | .amoAdd g d a b ty sc => some (pack g 0x1A (fmtR d a b ((0 : BitVec 3) ++ ty ++ sc)))
  | .amoMin g d a b ty sc => some (pack g 0x1A (fmtR d a b ((1 : BitVec 3) ++ ty ++ sc)))
  | .amoMax g d a b ty sc => some (pack g 0x1A (fmtR d a b ((2 : BitVec 3) ++ ty ++ sc)))
  | .amoAnd g d a b ty sc => some (pack g 0x1A (fmtR d a b ((3 : BitVec 3) ++ ty ++ sc)))
  | .amoOr g d a b ty sc => some (pack g 0x1A (fmtR d a b ((4 : BitVec 3) ++ ty ++ sc)))
  | .amoXor g d a b ty sc => some (pack g 0x1A (fmtR d a b ((5 : BitVec 3) ++ ty ++ sc)))
  | .amoXchg g d a b ty sc => some (pack g 0x1A (fmtR d a b ((6 : BitVec 3) ++ ty ++ sc)))
  | .cas g d a b c dbl sc => some (pack g 0x1B (fmtF d a b c (BitVec.ofBool dbl ++ sc)))
  | .cas2 g d a b => some (pack g 0x1C (fmtF d a b 0 0))
  | .cas4 g d a b => some (pack g 0x1C (fmtF d a b 0 1))
  | .enq g d a b => some (pack g 0x1C (fmtF d a b 0 2))
  | .deq g d a b => some (pack g 0x1C (fmtF d a b 0 3))
  | .chase g d a b c => some (pack g 0x1C (fmtF d a b c 4))
  | .cwait g d a imm => some (pack g 0x1D (fmtI d a ((0 : BitVec 3) ++ imm)))
  | .cwaitr g d a imm => some (pack g 0x1D (fmtI d a ((1 : BitVec 3) ++ imm)))
  | .cadd g d a imm => some (pack g 0x1D (fmtI d a ((2 : BitVec 3) ++ imm)))
  | .caddRel g d a imm => some (pack g 0x1D (fmtI d a ((3 : BitVec 3) ++ imm)))
  | .cpeek g d a imm => some (pack g 0x1D (fmtI d a ((4 : BitVec 3) ++ imm)))
  | .lempty g a n => some (pack g 0x1E (fmtI 0 a ((0 : BitVec 2) ++ n ++ (0 : BitVec 6))))
  | .lfill g a n => some (pack g 0x1E (fmtI 0 a ((1 : BitVec 2) ++ n ++ (0 : BitVec 6))))
  | .lstate g d a => some (pack g 0x1E (fmtI d a 0x800))
  | .wander g a => some (pack g 0x1F (fmtI 0 a 0))
  | .home g => some (pack g 0x1F (fmtI 0 0 1))
  | .tx g a imm => some (pack g 0x20 (fmtI 0 a imm))
  | .tq g a imm => some (pack g 0x21 (fmtI 0 a imm))
  | .fork g n a imm => some (pack g 0x22 (fmtI n a imm))
  | .rdv g a imm => some (pack g 0x23 (fmtI 0 a imm))
  | .tshape g t elem rows cols =>
      some (pack g 0x24 (t ++ elem ++ rows ++ cols ++ (0 : BitVec 1)))
  | .tshapeReg g t a => some (pack g 0x24 (fmtI t a 1))
  | .tget g d t b => some (pack g 0x25 (fmtR d t b 0))
  | .tset g d t b => some (pack g 0x25 (fmtR d t b 1))
  | .park g a t c => some (pack g 0x26 (fmtF 0 a t c 0))
  | .unpark g d t c => some (pack g 0x26 (fmtF d 0 t c 1))
  | .borrow g => some (pack g 0x26 (fmtF 0 0 0 0 2))
  | .returnLent g => some (pack g 0x26 (fmtF 0 0 0 0 3))
  | .xget g d n => some (pack g 0x26 (fmtF d n 0 0 4))
  | .xput g n b => some (pack g 0x26 (fmtF 0 n b 0 5))
  | .launch g d a b => some (pack g 0x27 (fmtR d a b 0))
  | .trigger g => some (pack g 0x27 (fmtR 0 0 0 1))
  | .kvsub g d a b t => some (pack g 0x28 (fmtF d a b t 0))
  | .kvunsub g a => some (pack g 0x28 (fmtR 0 a 0 1))
  | .pass g a => some (pack g 0x28 (fmtR 0 a 0 2))
  | .post g a b => some (pack g 0x29 (fmtR 0 a b 0))
  | .fadd g d a b p r => some (pack g 0x2A (fmtR d a b ((0 : BitVec 4) ++ BitVec.ofBool p ++ r)))
  | .fsub g d a b p r => some (pack g 0x2A (fmtR d a b ((1 : BitVec 4) ++ BitVec.ofBool p ++ r)))
  | .fmul g d a b p r => some (pack g 0x2A (fmtR d a b ((2 : BitVec 4) ++ BitVec.ofBool p ++ r)))
  | .fdiv g d a b p r => some (pack g 0x2A (fmtR d a b ((3 : BitVec 4) ++ BitVec.ofBool p ++ r)))
  | .fsqrt g d a p r => some (pack g 0x2A (fmtR d a 0 ((4 : BitVec 4) ++ BitVec.ofBool p ++ r)))
  | .fmin g d a b p =>
      some (pack g 0x2A (fmtR d a b ((5 : BitVec 4) ++ BitVec.ofBool p ++ (0 : BitVec 3))))
  | .fmax g d a b p =>
      some (pack g 0x2A (fmtR d a b ((6 : BitVec 4) ++ BitVec.ofBool p ++ (0 : BitVec 3))))
  | .fneg g d a p =>
      some (pack g 0x2A (fmtR d a 0 ((7 : BitVec 4) ++ BitVec.ofBool p ++ (0 : BitVec 3))))
  | .fabs g d a p =>
      some (pack g 0x2A (fmtR d a 0 ((8 : BitVec 4) ++ BitVec.ofBool p ++ (0 : BitVec 3))))
  | .fcvt g d a v r => some (pack g 0x2A (fmtR d a v ((9 : BitVec 4) ++ (0 : BitVec 1) ++ r)))
  | .fma g d a b c p => some (pack g 0x2B (fmtF d a b c ((0 : BitVec 2) ++ BitVec.ofBool p ++ (0 : BitVec 1))))
  | .fms g d a b c p => some (pack g 0x2B (fmtF d a b c ((1 : BitVec 2) ++ BitVec.ofBool p ++ (0 : BitVec 1))))
  | .fnma g d a b c p => some (pack g 0x2B (fmtF d a b c ((2 : BitVec 2) ++ BitVec.ofBool p ++ (0 : BitVec 1))))
  | .fnms g d a b c p => some (pack g 0x2B (fmtF d a b c ((3 : BitVec 2) ++ BitVec.ofBool p ++ (0 : BitVec 1))))
  | .fcmp g p a b dbl cc => some (pack g 0x2C (fmtR p a b (BitVec.ofBool dbl ++ (0 : BitVec 4) ++ cc)))
  | .plc g d a b => some (pack g 0x2D (fmtR d a b 0))
  | .ploc g d a => some (pack g 0x2D (fmtR d a 0 1))
  | .roll g d a => some (pack g 0x2E (fmtR d a 0 0))
  | .rollF g d a => some (pack g 0x2E (fmtR d a 0 1))
  | .stc g a b c size => some (pack g 0x2F (fmtF 0 a b c ((0 : BitVec 2) ++ size)))
  | _ => none

/-- The command word of an opcode and its fields (Table 8-12). -/
def packCommand (op : BitVec 8) (f : TileFields) : Command :=
  op ++ BitVec.ofBool f.e ++ BitVec.ofBool f.s ++ f.k ++ f.td ++ f.ta ++ f.tb ++ f.tc ++ f.ed ++
    f.ea ++ f.eb ++ f.first ++ f.count ++ f.rnd ++ BitVec.ofBool f.sat ++ f.layout ++ f.zero ++
    f.imm32 ++ f.addr ++ f.flag ++ f.len

/-- The word of a tile command; `none` for any other instruction. -/
def encodeCommand (i : Instr) : Option Command :=
  i.command?.map fun c => packCommand c.1 c.2

/-- The `n` least significant bytes of `w`, the least significant first (R16, R189). -/
def littleEndian {w : Nat} (x : BitVec w) : Nat → List Byte
  | 0 => []
  | n + 1 => x.extractLsb' 0 8 :: littleEndian (x >>> 8) n

/-- The bytes of an instruction as they lie in a code object or in scratchpad; empty for a step
that has no encoding. -/
def encode (i : Instr) : List Byte :=
  match encodeWord i, encodeCommand i with
  | some w, _ => littleEndian w 4
  | none, some c => littleEndian c 32
  | none, none => []

/-- The number a run of bytes stands for, the least significant byte first. -/
def ofLittleEndian : List Byte → Nat
  | [] => 0
  | b :: bs => b.toNat + 256 * ofLittleEndian bs

/-- Decodes the bytes of one instruction: four bytes are a scalar word, thirty-two a command word. -/
def decodeBytes (bs : List Byte) : Except DecodeFail Instr :=
  if bs.length = 4 then decodeWord (BitVec.ofNat 32 (ofLittleEndian bs))
  else if bs.length = 32 then decodeCommand (BitVec.ofNat 256 (ofLittleEndian bs))
  else .error .reserved

/-- What the decoder reads from an instruction of `nbits` bits whose bits are `w`, numbered as the
opcode table numbers them: 32 bits are a scalar word, 256 a command word. -/
def decodeTableWord (nbits w : Nat) : Option Instr :=
  let bytes := if nbits ≤ 32 then littleEndian (BitVec.ofNat 32 w) 4 else littleEndian (BitVec.ofNat 256 w) 32
  match decodeBytes bytes with
  | .ok i => some i
  | .error _ => none

end Sys2Proof
end

