-- ==== Sys2Proof/Config.lean ====
section
/-! DEFINITION. What an implementation or the outside world fixes and this manual leaves open. A
constant without a body is a free value: nothing can be proved of it beyond its type. -/

namespace Sys2Proof.Config

/-- Which of the two values R347 allows a destination byte of an overlapping copy receives: true for
the byte the copy itself wrote there (log 7). The argument numbers the choice. -/
opaque overlapChoice : Nat → Bool

/-- The hash that a module's fuses hold (R436): SHA-384 of the two public keys that verify its Vestry image (log 10). -/
opaque keyFuses : Nat → List Byte

/-- The RSA-3072 and the SLH-DSA public key that a Vestry image names for parish images (R436): the spec does not say where in
the image they stand (log 10). -/
opaque imageKeys : List Byte → List Byte × List Byte

/-- The private keys of a chip, RSA-3072 and SLH-DSA, that its measurements and its link sessions use (R440) (log 10). -/
opaque deviceKeys : Nat → List Byte × List Byte

/-- The hash of an SPDM transcript (R440): the requester's nonce, the index and the measurement (log 10). -/
opaque transcriptHash : List Byte → Nat → List Byte → List Byte

/-- An RSA-3072 and an SLH-DSA signature of a hash under a private key (R440) (log 10). -/
opaque rsaSign : List Byte → List Byte → List Byte
opaque slhSign : List Byte → List Byte → List Byte

/-- The bytes of a record of the capture object (R441), whose layout the spec does not give: the record's kind, its numbers and its
bytes (log 76). -/
opaque captureBytes : Nat → List Nat → List Byte → List Byte

/-- The secret of an SPDM session of two chips (R415, R440): the device keys of the requester and of the responder, and what the
two sides have exchanged (log 10). -/
opaque sessionSecret : List Byte × List Byte → List Byte × List Byte → BitVec 256 → BitVec 256

/-- Key of the bank of a port's direction, derived from the secret of the session of the port pair (R414, R415): the secret, then
the chip and the port that send (log 10). -/
opaque linkKey : BitVec 256 → Nat → Nat → BitVec 256

/-- The secret that a KEY_UPDATE of the session of a port pair brings (R415): the requester's chip and port, and how many it has
asked for (log 10). -/
opaque updatedKey : Nat → Nat → Nat → BitVec 256

/-- The measurement SPDM reports for an index (R440) from the measured bytes (log 10). -/
opaque measurement : Nat → List Byte → List Byte

/-- The number of times a request is sent again before its access ends with link lost (R82). -/
def retries : Nat := 8

/-- Entries of a Reeve's reply store (R83). -/
def replyStore : Nat := 512

/-- Entries of a node's watch table, and those reserved for its own slots (R94). -/
def watchEntries : Nat := 640
def watchReserved : Nat := 128

/-- Places of a slot's request window and write window (R113, R115). -/
def requestWindow : Nat := 8
def writeWindow : Nat := 32

/-- Entries of an engine queue (R291) and of a task board (R173). -/
def engineQueue : Nat := 64
def boardEntries : Nat := 64

/-- Core cycles in 64 µs: 4,096 cycles scrub one of 384 lines and a pass takes 393.216 µs (R87), so a
core runs 4,000 cycles in a microsecond. -/
def cycles64us : Nat := 256000

end Sys2Proof.Config
end

