-- ==== Sys2Proof/Machine/Base.lean ====
section
/-! DEFINITION. Finite maps as lists in one canonical form, and the numbers that name the parts of the
machine. -/

namespace Sys2Proof.Machine

/-- A finite map from numbers: keys strictly rising, no entry equal to what an unlisted key reads
as. -/
abbrev AMap (α : Type) := List (Nat × α)

/-- What key `k` reads as; `d` when it is not listed. -/
def AMap.get {α : Type} (d : α) (m : AMap α) (k : Nat) : α :=
  match m with
  | [] => d
  | (j, v) :: r => if j = k then v else AMap.get d r k

/-- Inserts `k` before the first larger key. -/
def AMap.place {α : Type} (m : AMap α) (k : Nat) (v : α) : AMap α :=
  match m with
  | [] => [(k, v)]
  | (j, u) :: r => if k < j then (k, v) :: (j, u) :: r else (j, u) :: AMap.place r k v

/-- Removes key `k`. -/
def AMap.drop {α : Type} (m : AMap α) (k : Nat) : AMap α :=
  match m with
  | [] => []
  | (j, v) :: r => if j = k then AMap.drop r k else (j, v) :: AMap.drop r k

/-- Writes `v` at `k`; a value equal to the default `d` removes the entry. -/
def AMap.set {α : Type} [DecidableEq α] (d : α) (m : AMap α) (k : Nat) (v : α) : AMap α :=
  if v = d then m.drop k else (m.drop k).place k v

/-- The canonical form. -/
def AMap.wf {α : Type} [DecidableEq α] (d : α) (m : AMap α) : Bool :=
  match m with
  | [] => true
  | (j, v) :: r =>
      decide (v ≠ d) && r.all (fun e => decide (j < e.1)) && AMap.wf d r

/-- The keys listed. -/
def AMap.keys {α : Type} (m : AMap α) : List Nat := m.map (·.1)

/-- Sets of numbers in one canonical form: strictly rising. -/
abbrev NSet := List Nat

def NSet.insert (m : NSet) (k : Nat) : NSet :=
  match m with
  | [] => [k]
  | j :: r => if k < j then k :: j :: r else if k = j then j :: r else j :: NSet.insert r k

def NSet.erase (m : NSet) (k : Nat) : NSet := m.filter (· ≠ k)

/-! ### Keys (02 R25, 10 R239)

A core is named by `(((chip·8 + die)·64 + row)·48 + col)·16 + core`, a node by that number over 16, a
die by `chip·8 + die`, and a thread slot by `core·8 + slot`. -/

def coreKey (chip die row col core : Nat) : Nat := (((chip * 8 + die) * 64 + row) * 48 + col) * 16 + core
def nodeKey (chip die row col : Nat) : Nat := ((chip * 8 + die) * 64 + row) * 48 + col
def nodeOfCore (c : Nat) : Nat := c / 16
def dieOfNode (n : Nat) : Nat := n / 3072
def chipOfNode (n : Nat) : Nat := n / 24576
def rowOfNode (n : Nat) : Nat := n / 48 % 64
def colOfNode (n : Nat) : Nat := n % 48
def dieInChip (n : Nat) : Nat := n / 3072 % 8
def chipOfCore (c : Nat) : Nat := chipOfNode (nodeOfCore c)
def coreOfThread (t : Nat) : Nat := t / 8
def slotOfThread (t : Nat) : Nat := t % 8
def nodeOfThread (t : Nat) : Nat := nodeOfCore (coreOfThread t)
def chipOfThread (t : Nat) : Nat := chipOfNode (nodeOfThread t)

/-- Package mesh coordinates (R25): X = col + 48·(die mod 2), Y = row + 64·(die div 2). -/
def meshX (n : Nat) : Nat := colOfNode n + 48 * (dieInChip n % 2)
def meshY (n : Nat) : Nat := rowOfNode n + 64 * (dieInChip n / 2)

/-- The node of a chip at mesh position (X, Y). -/
def nodeAt (chip x y : Nat) : Nat := nodeKey chip (x / 48 + 2 * (y / 64)) (y % 64) (x % 48)

/-- The coordinates of a core: chip, die, row, col, core. -/
def coordsOfCore (c : Nat) : Nat × Nat × Nat × Nat × Nat :=
  (chipOfCore c, dieInChip (nodeOfCore c), rowOfNode (nodeOfCore c), colOfNode (nodeOfCore c), c % 16)

/-- Identity word of a thread slot (R239, Table 10-2). -/
def identityOf (t : Nat) : Word :=
  let n := nodeOfThread t
  BitVec.ofNat 64 (chipOfNode n * 2 ^ 46 + dieInChip n * 2 ^ 43 + rowOfNode n * 2 ^ 37 +
    colOfNode n * 2 ^ 31 + coreOfThread t % 16 * 2 ^ 27 + slotOfThread t * 2 ^ 24)

/-- The thread slot an identity word names. -/
def threadOfIdentity (w : Word) : Nat :=
  coreKey (field w 46 18).toNat (field w 43 3).toNat (field w 37 6).toNat (field w 31 6).toNat
    (field w 27 4).toNat * 8 + (field w 24 3).toNat

/-- The place of byte `off` of core `c` (Table 2-1), with L = 0. -/
def placeOf (c off : Nat) : Word :=
  let n := nodeOfCore c
  BitVec.ofNat 64 (2 ^ 63 + chipOfNode n * 2 ^ 44 + dieInChip n * 2 ^ 41 + rowOfNode n * 2 ^ 35 +
    colOfNode n * 2 ^ 29 + c % 16 * 2 ^ 25 + off)

/-! ### Bytes of storage

Byte `off` of core `c` is byte `c·2^16 + off`; byte `h` of a chip's HBM is `2^60 + chip·2^40 + h`;
byte `a` of host memory is `2^64 + a`. -/

def hbmBase : Nat := 2 ^ 60
def hostBase : Nat := 2 ^ 64
def coreByte (c off : Nat) : Nat := c * 2 ^ 16 + off
def hbmByte (chip h : Nat) : Nat := hbmBase + chip * 2 ^ 40 + h
def lineOf (pa : Nat) : Nat := pa / 128

/-- The core whose storage byte `pa` is, if it is one. -/
def coreOfByte (pa : Nat) : Option Nat := if pa < hbmBase then some (pa / 2 ^ 16) else none

/-- The node whose Reeve, or whose channel Reeve (`true`), serves byte `pa` (R63 to R65, R109). -/
def homeOfByte (pa : Nat) : Nat × Bool :=
  if pa < hbmBase then (nodeOfCore (pa / 2 ^ 16), false)
  else
    let h := pa - hbmBase
    let chip := h / 2 ^ 40
    let o := h % 2 ^ 40
    let s := o / 2 ^ 21 % 16
    let k := o / 256 % 32
    if s < 8 then (nodeAt chip 0 (32 * s + k), true) else (nodeAt chip 95 (32 * (s - 8) + k), true)

/-- Object and extent keys of the replica of a parish's table on one chip (R36, R40). -/
def objKey (parish chip obj : Nat) : Nat := (parish * 2 ^ 18 + chip) * 2 ^ 23 + obj
def extKey (parish chip off : Nat) : Nat := (parish * 2 ^ 18 + chip) * 2 ^ 40 + off

/-- The smallest power of two from 128 that holds `n` bytes (R32). -/
def roundWindow (n : Nat) : Nat :=
  if n ≤ 128 then 128 else if n ≤ 256 then 256 else if n ≤ 512 then 512 else if n ≤ 1024 then 1024
  else if n ≤ 2048 then 2048 else if n ≤ 4096 then 4096 else if n ≤ 8192 then 8192
  else if n ≤ 16384 then 16384 else 32768

/-- Replaces entry `i` of a list. -/
def listSet {α : Type} (l : List α) (i : Nat) (v : α) : List α :=
  match l, i with
  | [], _ => []
  | _ :: r, 0 => v :: r
  | a :: r, i + 1 => a :: listSet r i v

end Sys2Proof.Machine
end

