-- ==== Sys2Proof/Machine/State.lean ====
section
/-! DEFINITION. The state of the machine as plain data: every register, memory, queue and transfer the
manual names, and the model's own fields of log entry 1. -/

namespace Sys2Proof.Machine

/-- Why the machine stops. -/
inductive Fault where
  /-- Raised by `step` when the module in focus has no power and nothing else is due: nothing runs (R444).
  Safe: the model stops where the hardware does nothing. -/
  | unpowered
  deriving DecidableEq, Repr

/-- Why an instruction has no meaning in the model. -/
inductive Refusal where
  /-- Raised by `exec` for a row whose meaning is not written. Safe: the model stops. -/
  | notModelled (mnemonic : String)
  deriving DecidableEq, Repr

/-! ### Threads -/

/-- One tile name's mapping (R162). -/
structure TileName where
  block : BitVec 4 := 0
  mapped : Bool := false
  shared : Bool := false
  deriving DecidableEq, Repr

/-- What a release, increment or fork carries for the race detector (R138). Writers are named by
thread key. -/
structure Stamp where
  writer : Nat := 0
  interval : Nat := 0
  table : List (Nat × Nat) := []
  valid : Bool := false
  /-- scope of the release (Table 5-8) -/
  scope : Nat := 4
  deriving DecidableEq, Repr

/-- The event a parked thread waits for (Table 7-2). -/
inductive Wait where
  /-- the reply or the completions of an access -/
  | reply (acc : Nat)
  /-- a line of the core's storage to fill -/
  | line (n : Nat)
  /-- a place of the request or write window -/
  | window
  /-- outw zero and no early read outstanding (R121) -/
  | release
  /-- a TX operation -/
  | command (op : Nat)
  /-- a sequence to complete (RDV, FORK) -/
  | join
  /-- a wake notice -/
  | wake
  /-- the result of DIV, FDIV, FSQRT and their kin -/
  | longOp
  | yieldUntil
  /-- an arrival place at the core it is to move to -/
  | arrival
  /-- the landing of the wayfarer packet the thread left in -/
  | away
  /-- a slot to lend -/
  | borrow
  /-- an entry of a full task board, or the board's answer -/
  | board (sub : Nat)
  /-- a code line (R449) -/
  | code
  /-- an entry of a full engine queue; the command has been checked -/
  | queue (op : Nat)
  /-- a free Granary slot -/
  | granary
  /-- the Carillon's record of a subscription, or its checks of a pass -/
  | carillon (sub : Nat)
  /-- an extent of an object, which is moving, to be rewritten -/
  | moving (obj : Nat)
  /-- writes to a sealed parcel to be delivered -/
  | seal
  /-- a store to the same bytes, the thread's own or a sibling's release, to be acknowledged (R124, R126) -/
  | store (acc : Nat)
  /-- the lines of a launch record or of a roll descriptor, and then the release of a LAUNCH (R300, R385, R387) -/
  | launch (sub : Nat)
  deriving DecidableEq, Repr

/-- Table 7-1. -/
inductive SlotState where
  | free
  | ready
  | parked (w : Wait)
  | held
  | lent
  /-- being saved, with the reason of Table 14-3 -/
  | saving (reason : Nat)
  deriving DecidableEq, Repr

/-- A wait registered at a flag's home (R94, Table 14-2 at 0x348). -/
structure RegWait where
  id : Nat
  flag : Word
  n : Word
  subtracts : Bool
  received : Bool
  /-- what a wake that came while its context was saved acquires (R128) -/
  stamps : List Stamp
  deriving DecidableEq, Repr

/-- A sequence entry of a slot (R292): what FORK captured, and the operation of the command it has
started. -/
structure SeqEntry where
  offset : Nat
  words : List Command
  /-- what each command reads at issue besides its word (R342, R349) -/
  data : List (List Word)
  /-- position of the command that runs or has faulted -/
  index : Nat
  op : Nat
  fm : Word
  sa : Word
  sb : Word
  seed : Word
  seedh : Word
  race : Word
  stamp : Stamp
  /-- accesses of the thread that come before its commands' (R129) -/
  fence : List Nat
  /-- the completion record has been written at a join (R376) -/
  joined : Bool
  /-- the round of each SPIRE among its commands, by its order of issue (R360) -/
  rounds : List Nat
  deriving DecidableEq, Repr

/-- One thread slot (R157) and the context it holds (R238, R241, Table 14-2). -/
structure Slot where
  state : SlotState := .free
  pc : Word := 0
  /-- x1 to x14 at their numbers; entry 0 is not used -/
  x : Vector Word 15 := Vector.replicate 15 0
  preds : BitVec 16 := 0
  /-- PL, PPL, IH and WF of status (R242) -/
  pl : Bool := false
  ppl : Bool := false
  ih : Bool := false
  wf : Bool := false
  cause : Word := 0
  epc : Word := 0
  tval : Word := 0
  tvec : Word := 0
  tscr : Word := 0
  issued : Word := 0
  fmode : Word := 0
  fflags : Word := 0
  wbase : Word := 0
  wsize : Word := 0
  /-- the task's spill mode is borrow (R165) -/
  borrowMode : Bool := false
  race : Word := 0
  seed : Word := 0
  seedh : Word := 0
  lvl : Vector Word 8 := Vector.replicate 8 0
  lvn : Vector Word 8 := Vector.replicate 8 0
  tiles : Vector TileName 12 := Vector.replicate 12 {}
  shapes : Vector Word 12 := Vector.replicate 12 0
  k : Vector (BitVec 64) 16 := Vector.replicate 16 0
  /-- the lent slot this thread holds (R165) -/
  lent : Option Nat := none
  /-- address of the first dropped posted write (R417) -/
  unreachable : Option Word := none
  /-- address of a posted write that ended in link lost (R82) -/
  linkLost : Option Word := none
  /-- cause and tval of a posted write that ended in another way at its home: an uncorrectable error (R88), or a race that its
  thread's check could not see (R138) -/
  writeError : Option (Nat × Word) := none
  /-- accesses whose stores this thread read early from a sibling (R121, R125) -/
  early : List Nat := []
  interval : Nat := 0
  /-- acquire table, least recently merged first (R138) -/
  acquired : List (Nat × Nat) := []
  evicted : Bool := false
  wait : Option RegWait := none
  seqs : List SeqEntry := []
  /-- what a FORK that waits for an entry has read (R288) -/
  fork : Option SeqEntry := none
  /-- TX operations not yet joined: of the TX it is parked in, and those that have faulted (R376) -/
  txs : List Nat := []
  /-- stamps of operations that are over and not yet joined, which their join acquires: of a sequence by its first-command
  offset, the latest alone, and of a TX (R138, log 98) -/
  completed : List (Option Nat × Stamp) := []
  task : Nat := 0
  member : Nat := 0
  parish : Nat := 0
  /-- home slot of a wayfarer (R180) -/
  home : Option Nat := none
  /-- address and stored value of the wander-order access that a wayfarer is to perform where it has landed (R273) -/
  carried : Option (Word × Word) := none
  /-- the word in issue, for an instruction that parked and is tried again (log 1) -/
  word : Word32 := 0
  /-- result of a long operation: destination, value, new fflags (R252) -/
  result : Option (Nat × Word × Word) := none
  /-- trap words of a supervisor-route trap (R369): cause, PC, tval -/
  trap : Option (Word × Word × Word) := none
  /-- it is to be saved, with this reason of Table 14-3, as soon as Table 11-10 lets it -/
  preempt : Option Nat := none
  /-- what a saved thread was parked in, when it does not issue again (Table 11-10) -/
  savedIn : Option Wait := none
  /-- its record has been disposed of with 1: it waits to resume (R183, R372) -/
  resuming : Bool := false
  /-- slot a saved thread was saved from -/
  savedFrom : Nat := 0
  /-- handle of its save record -/
  record : Word := 0
  deriving DecidableEq, Repr

/-! ### Cores -/

/-- The engines of a core (Table 13-2; 11 R291). -/
inductive Engine where
  | loom | lane | carter | gleaner | granary | spire
  deriving DecidableEq, Repr

/-- A wayfarer on its way or landed (Table 7-15). -/
structure Wayfarer where
  thread : Nat
  pc : Word
  x : Vector Word 15
  preds : BitVec 16
  pl : Bool
  ppl : Bool
  wbase : Word
  wsize : Word
  task : Nat
  member : Nat
  parish : Nat
  /-- the wander-order access it performs on arrival: its word, its address and what it stores, as the registers of its home
  gave them (R273) -/
  word : Word32
  access : Option (Word × Word)
  /-- the slot it left -/
  from' : Nat
  /-- it returns to its held slot (R180) -/
  homeward : Bool
  /-- race state that travels with its identity: interval and acquire table -/
  race : Stamp
  evicted : Bool
  deriving DecidableEq, Repr

/-- An arrival place of a core: reserved for a thread, landed, or running (R179, R180). -/
inductive Arrival where
  | reserved (thread : Nat)
  | landed (w : Wayfarer)
  | running (slot : Nat)
  deriving DecidableEq, Repr

/-- A store held in the store buffer (R125). -/
structure BufferedStore where
  acc : Nat
  thread : Nat
  /-- bytes at their places from the access's target -/
  bytes : List (Nat × Byte)
  release : Bool
  deriving DecidableEq, Repr

/-- Words 0 to 2 of an object-table entry (Table 2-6). -/
structure ObjEntry where
  w0 : Word := 0
  w1 : Word := 0
  w2 : Word := 0
  deriving DecidableEq, Repr

structure Core where
  cyc : Word := 0
  last : Nat := 7
  lastc : Vector Int 8 := Vector.replicate 8 (-4)
  buffer : List BufferedStore := []
  /-- operations queued on each engine, the running one first -/
  loom : List Nat := []
  lane : List Nat := []
  carter : List Nat := []
  gleaner : List Nat := []
  granary : List Nat := []
  spire : List Nat := []
  arrivals : List Arrival := []
  /-- scratchpad regions in use: base, bytes, task, member -/
  regions : List (Nat × Nat × Nat × Nat) := []
  /-- tile blocks in use: block, task, member, shared -/
  blocks : List (Nat × Nat × Nat × Bool) := []
  /-- object entries in the handle cache, by key (R45); the generation in word 0 tags each (R49) -/
  handles : List (Nat × ObjEntry) := []
  scrubLine : Nat := 0
  corrected : Nat := 0
  deriving DecidableEq, Repr

/-! ### Nodes -/

/-- An entry of a watch table (R94). -/
structure Watch where
  index : Nat
  /-- the flag's byte and its place as named -/
  flag : Nat
  place : Word
  n : Word
  subtracts : Bool
  thread : Nat
  /-- the access that registered it -/
  acc : Nat
  deriving DecidableEq, Repr

/-- The state of a Granary slot (Table 15-3). -/
inductive GranaryState where
  | free | joining | opened | full | failed
  deriving DecidableEq, Repr

/-- A partial: row maxima, row sums and accumulator, f32 patterns. -/
structure Partial where
  m : List (BitVec 32) := []
  l : List (BitVec 32) := []
  acc : List (List (BitVec 32)) := []
  deriving DecidableEq, Repr

structure Granary where
  state : GranaryState := .free
  owner : Nat := 0
  roll : Nat := 0
  die : Nat := 0
  first : Nat := 0
  count : Nat := 0
  rows : Nat := 0
  cols : Nat := 0
  next : Nat := 0
  have' : Bool := false
  merged : Partial := {}
  /-- reorder entries in use: page and partial -/
  reorder : List (Nat × Partial) := []
  /-- the GTAKE that waits in a port -/
  take : Option Nat := none
  /-- cause and address that failed the slot's pass (R390) -/
  failure : Nat × Word := (0, 0)
  /-- the subscription that registered the slot -/
  sub : Nat := 0
  /-- its check bits show an error: 1 one that can be corrected, 2 one that cannot (R87) -/
  check : Nat := 0
  deriving DecidableEq, Repr

/-- A node's toll (R185). -/
structure Toll where
  held : Bool := false
  /-- cycle at which it was taken, and at which the Loom was last busy, on the node's clock -/
  since : Nat := 0
  idleFrom : Nat := 0
  /-- time of the die from which the node waits for one (R185) -/
  waits : Option Nat := none
  deriving DecidableEq, Repr

/-- An entry of a node's cache: an object's words or an extent's descriptor, by its key (R45). -/
inductive Cached where
  | object (key : Nat) (e : ObjEntry)
  | extent (key : Nat) (d : Word)
  deriving DecidableEq, Repr

structure Node where
  watches : List Watch := []
  /-- reply store of the node's Reeve and of its channel Reeve: source node, sequence number, access -/
  replies : List (Nat × Nat × Nat) := []
  channelReplies : List (Nat × Nat × Nat) := []
  /-- route banks: entry 64·bank + i (Table 3-7) -/
  banks : AMap Word := []
  epoch : Nat := 0
  /-- a swap is under way: ports whose drain marker has come, and whether it has reported -/
  swapping : Bool := false
  drained : NSet := []
  reported : Bool := false
  /-- residual copies in the fork buffer (R80) -/
  forks : List Nat := []
  granary : AMap Granary := []
  /-- tasks with a share on this board, in order of acceptance (R173) -/
  board : List Nat := []
  /-- dependants waiting in this board (R178) -/
  dependants : List Nat := []
  /-- code cache lines: object key, line number, bytes (R449) -/
  codeCache : List (Nat × Nat × List Byte) := []
  /-- the node's cache, and the table entries being fetched: of an object an even number, of an extent an odd one (R45) -/
  cache : List Cached := []
  fetching : NSet := []
  toll : Toll := {}
  inReset : Bool := false
  /-- next line of the channel that its channel Reeve scrubs (R87) -/
  scrubLine : Nat := 0
  /-- the fuse map names it (R27) -/
  harvested : Bool := false
  /-- sequence numbers issued toward each destination (R82) -/
  seqs : AMap Nat := []
  deriving DecidableEq, Repr

/-! ### Carillons and dies -/

/-- What a line read of an engine or of the Carillon has brought: its place in the transfer, and its bytes or what it
met instead. -/
structure LineRead where
  at' : Nat
  bytes : List Byte
  trap : Option (Nat × Word)
  deriving DecidableEq, Repr

/-- The snapshot a PASS hands to the Carillon (R387). -/
structure PassSnapshot where
  parish : Nat
  elem : Nat
  hd : Nat
  tokens : Nat
  npages : Nat
  kbase : Word
  vbase : Word
  stride : Nat
  sflag : Nat
  stage : Nat
  stamp : Stamp
  thread : Nat
  /-- the PASS was executed at user privilege -/
  user : Bool
  /-- accesses of the thread that come before its page reads (R303, R398) -/
  fence : List Nat
  deriving DecidableEq, Repr

/-- A running pass (R388): the next page to be passed, and a hold. -/
structure Pass where
  snap : PassSnapshot
  page : Nat
  heldRecord : Bool
  /-- rows of the page that have been read -/
  reads : List LineRead := []
  deriving DecidableEq, Repr

structure Roll where
  running : Option Pass := none
  waiting : Option PassSnapshot := none
  parish : Option Nat := none
  deriving DecidableEq, Repr

/-- What a subscription is waiting for or has reached. -/
inductive SubState where
  | requested | joined | nextPass
  deriving DecidableEq, Repr

/-- A subscription (R385). -/
structure Subscription where
  thread : Nat := 0
  core : Nat := 0
  wbase : Nat := 0
  span : Nat := 0
  node : Nat := 0
  slot : Nat := 0
  task : Nat := 0
  rollWord : Word := 0
  range : Word := 0
  tile : Nat := 0
  dest : Nat := 0
  die : Nat := 0
  roll : Nat := 0
  first : Nat := 0
  count : Nat := 0
  rows : Nat := 0
  cols : Nat := 0
  shape : Word := 0
  /-- pages and head dimension of the descriptor that KVSUB has read (R385) -/
  npages : Nat := 0
  hd : Nat := 0
  state : SubState := .requested
  live : Bool := false
  deriving DecidableEq, Repr

structure Die where
  tollCount : Nat := 0
  /-- time of the die at which the count was set -/
  countFrom : Nat := 0
  /-- free tolls on the ring: the position at which each was put, and the die's time then (R184, R185) -/
  free : List (Nat × Nat) := []
  demand : Bool := false
  rolls : AMap Roll := []
  deriving DecidableEq, Repr

/-! ### Ouvval ports and chips -/

/-- Classes of send queues and of mesh packets (Tables 3-6; R405). -/
inductive Class where
  | request | response | multicast | wayfarer | control | relay
  deriving DecidableEq, Repr

/-- A frame sent and not yet acknowledged (R411). -/
structure Frame where
  number : Nat
  entry : Nat
  /-- chip and port to which it goes -/
  peer : Nat × Nat
  /-- the seal of its first transmission: the generation, the bank's key and the counter of its nonce (R414) -/
  generation : Nat
  key : BitVec 256
  nonce : Nat
  failures : Nat
  /-- it is on the fibre now; the receiver has taken it, and its acknowledgement has not come -/
  flying : Bool
  received : Bool
  deriving DecidableEq, Repr

structure Port where
  /-- port configuration word (Table 17-1) -/
  cfg : Word := 0
  /-- slot-table entries: 64·bank + k (Table 17-2) -/
  table : AMap Word := []
  trained : Bool := false
  version : Nat := 0
  failed : Bool := false
  locked : Bool := false
  missed : Nat := 0
  goodDarks : Nat := 0
  /-- the slot now lit, the rotation, and the next free frame position -/
  slot : Nat := 0
  rotation : Nat := 0
  position : Nat := 0
  lit : Bool := false
  /-- the next free control position (R407) -/
  control : Nat := 7
  /-- queues refused in this slot (R407) -/
  closed : List (Nat × Class) := []
  /-- send queues in order: destination chip, class, entry -/
  queue : List (Nat × Class × Nat) := []
  frames : List Frame := []
  nextFrame : Nat := 0
  /-- key of each bank, frames sealed since it was loaded, generation in use (R414) -/
  key0 : BitVec 256 := 0
  key1 : BitVec 256 := 0
  sealed0 : Nat := 0
  sealed1 : Nat := 0
  generation : Nat := 0
  /-- a key rotation has been asked for (R415), and the key that waits for its bank -/
  switching : Bool := false
  nextKey : Option (BitVec 256) := none
  /-- the hello that has come on the receive fibre before the slot started here, and a slot that has started and waits for its
  hello (R404) -/
  fibre : Option Hello := none
  listening : Bool := false
  /-- the drain marker of an armed change has been sent, the old tables have ended, and the peer's marker has come
  (Table 17-5) -/
  marked : Bool := false
  drainSent : Bool := false
  drainSeen : Bool := false
  /-- configuration that an armed change brings in at the relock -/
  nextCfg : Word := 0
  deriving DecidableEq, Repr

/-- A machine-check record at the Vestry (R381): node or port, storage class, address. DESIGN CHOICE, log 41. -/
structure MachineCheck where
  node : Nat
  storage : Nat
  addr : Word
  deriving DecidableEq, Repr

/-- One direction of a gateway or of a Belfry gateway (R75 to R78), numbered by its sending node and port: the packets in
its sending queue, frames sent, the class whose turn is next, and the flits of the frame that is being sent again. -/
structure Gateway where
  queue : List Nat := []
  frame : Nat := 0
  turn : Nat := 0
  held : List Nat := []
  failures : Nat := 0
  failed : Bool := false
  deriving DecidableEq, Repr

structure Chip where
  /-- the module has no power (R443, R444) -/
  off : Bool := false
  /-- bits 7:0 stage, 15:8 failure code (Tables 21-11, 21-12) -/
  stage : Nat := 0
  failure : Nat := 0
  pimg : Word := 0
  reachable : NSet := []
  /-- the reachability map and relay table that a change of rotor tables brings in (Table 17-5) -/
  nextReach : Option (NSet × List (Nat × Nat)) := none
  relays : List (Nat × Nat) := []
  /-- relay credits held toward each intermediate, and relay places in use here -/
  credits : AMap Nat := []
  relayPlaces : List Nat := []
  ports : AMap Port := []
  gateways : AMap Gateway := []
  checks : List MachineCheck := []
  /-- reports of ports to the Vestry (R404, R416, R423) -/
  portReports : List Nat := []
  msix : List Nat := []
  /-- PCIe speed in GT/s and width; 0 while down (R430) -/
  linkSpeed : Nat := 0
  linkWidth : Nat := 0
  /-- measured bytes of the Vestry image, and of the fuse map -/
  vestryImage : List Byte := []
  fuseMap : List Byte := []
  /-- table changes to be applied, in the order issued (R46) -/
  changes : List Nat := []
  /-- frames of HBM the Vestry has reserved so far (R438) -/
  framesReserved : Nat := 0
  /-- responses to MEASUREMENTS: index, measurement, signatures -/
  responses : List (Nat × List Byte × List Byte × List Byte) := []
  deriving DecidableEq, Repr

/-! ### Parishes, objects, tasks -/

/-- A command of the queue (R432) with its progress (R433, R447). -/
structure HostCommand where
  seq : Nat
  tag : BitVec 48
  version : BitVec 8
  opcode : BitVec 8
  arg0 : Word
  arg1 : Word
  arg2 : Word
  /-- bytes moved by a copy, those of the line on its way, and what has come back; a fault that waits for the supervisor -/
  moved : Nat
  line : List Byte := []
  reads : List LineRead := []
  waiting : Bool
  /-- status and detail once decided -/
  outcome : Option (Nat × Word)
  complete : Bool
  deriving DecidableEq, Repr

/-- What replay capture has recorded (R441). DESIGN CHOICE, log 76. -/
inductive Captured where
  | command (seq : Nat) (bytes : List Byte)
  | copied (seq : Nat) (bytes : List Byte)
  | seeds (seed seedh race : Word)
  | accepted (node : Nat) (record : Word)
  deriving DecidableEq, Repr

structure Parish where
  present : Bool := false
  /-- chip whose host port created it -/
  hostChip : Nat := 0
  firstChip : Nat := 0
  chips : Nat := 0
  /-- registers of Table 21-1 -/
  qbase : Word := 0
  qsize : Word := 0
  qtail : Word := 0
  qhead : Word := 0
  jhead : Word := 0
  jtail : Word := 1
  cbase : Word := 0
  launchCode : Nat := 0
  createCode : Nat := 0
  commands : List HostCommand := []
  /-- service cores (R373), in chip order -/
  service : List Nat := []
  /-- chip groups the supervisor has set (R170) -/
  groups : List (List Nat) := []
  /-- objects the Vestry created: roll table, journal, capture (Table 14-8) -/
  rollTable : Nat := 0
  journal : Nat := 0
  journalCap : Nat := 0
  captureOn : Bool := false
  captured : List Captured := []
  /-- the capture object, and the bytes it holds; in a replay, the boards and the records that they have still to accept, in the
  recorded order (R441) -/
  captureObj : Nat := 0
  captureAt : Nat := 0
  replay : List (Nat × Word) := []
  /-- window image of each code object (log 4) -/
  images : List (Nat × List Byte) := []
  rolls : List Nat := []
  image : List Byte := []
  deriving DecidableEq, Repr

/-- A level of a launch record (Table 7-11). -/
structure Level where
  extent : Nat
  scope : Nat
  kind : Nat
  deriving DecidableEq, Repr

/-- The state of a member. -/
inductive MemberState where
  | waiting
  /-- its share is admitted: it holds a slot, a window and blocks, and has not started -/
  | admitted
  | running | halted | ended
  deriving DecidableEq, Repr

structure Member where
  node : Nat
  core : Nat
  /-- the slot a slot level names (R170) -/
  slot : Option Nat
  index : List Nat
  state : MemberState
  triggered : Bool
  wbase : Nat
  blocks : List (Nat × Nat × Bool)
  /-- the thread slot it runs in -/
  thread : Nat
  deriving DecidableEq, Repr

/-- The states of Table 7-14. -/
inductive ShareState where
  | queued | admitted | running | retired
  deriving DecidableEq, Repr

/-- A task's share on one node. -/
structure Share where
  node : Nat
  state : ShareState
  /-- acceptance: order on that board, and the node's clock -/
  order : Nat
  accepted : Nat
  passedOver : Bool
  deriving DecidableEq, Repr

/-- A copy-schedule entry (Table 7-12) in its task. -/
structure SchedEntry where
  source : Word
  dest : Word
  flag : Word
  length : Nat
  stage : Nat
  released : Bool
  /-- delivered, or dropped unreleased (R105) -/
  done : Bool
  op : Nat
  /-- it stands in the launch record, and not in a CSCHED -/
  fromRecord : Bool
  /-- the slot its reads are charged to, and its core -/
  thread : Nat
  core : Nat
  stamp : Stamp
  race : Word
  deriving DecidableEq, Repr

structure Task where
  live : Bool := false
  parish : Nat := 0
  record : Word := 0
  home : Word := 0
  homeNode : Nat := 0
  supervisor : Bool := false
  version : Nat := 0
  prio : Nat := 0
  loom : Bool := false
  borrow : Bool := false
  nlev : Nat := 0
  wsize : Nat := 0
  tiles : Nat := 0
  shared : Nat := 0
  entry : Word := 0
  fm : Word := 0
  sa : Word := 0
  sb : Word := 0
  flag : Word := 0
  levels : List Level := []
  inputs : List (Nat × Nat) := []
  results : List (Nat × Nat) := []
  dependants : List (Word × Bool) := []
  triggered : Bool := false
  schedule : List SchedEntry := []
  stage : Nat := 0
  members : List Member := []
  shares : List Share := []
  /-- first cause that ended a member or operation (R382) -/
  firstCause : Nat := 0
  /-- SPIREs issued, by 8·member + level (R360) -/
  spires : AMap Nat := []
  /-- an engine operation no thread can join has ended (R379) -/
  opEnded : Bool := false
  /-- host command that completes with it: parish, seq -/
  command : Option (Nat × Nat) := none
  /-- stamp of the launch, and of triggers, acquired at dispatch (R132, R138) -/
  stamps : List Stamp := []
  /-- stamps of its members' HALTs, for its retirement (R132), and of their TRIGGERs, or HALTs where they never triggered,
  for its dependants at trigger (R131) -/
  releases : List Stamp := []
  triggers : List Stamp := []
  deriving DecidableEq, Repr

/-- A submission on its way to a board (R173): from LAUNCH, a host command, or a producer. -/
structure Submission where
  parish : Nat := 0
  record : Word := 0
  home : Word := 0
  /-- thread that waits for the code, and its destination -/
  thread : Option Nat := none
  dest : Nat := 0
  command : Option (Nat × Nat) := none
  /-- producer's record, for a dependant (R446) -/
  producer : Option Word := none
  producerNode : Nat := 0
  supervisor : Bool := false
  stamps : List Stamp := []
  /-- chip from which the record is read, and its words as read (R300) -/
  chip : Nat := 0
  words : List Word := []
  /-- lines that a LAUNCH, KVSUB or PASS has read -/
  reads : List LineRead := []
  waiting : Bool := false
  deriving DecidableEq, Repr

/-! ### Accesses, packets and engine operations -/

/-- What a request asks of a Reeve (Table 4-3), or of the storage it serves. -/
inductive Req where
  | load (size : Nat)
  | store (bytes : List (Nat × Byte))
  | amo (op ty : Nat) (v : Word)
  | cas (size : Nat) (expected new : Word)
  | casBlock (expected new : List Byte)
  | enq (v : Word)
  | deq
  /-- a chase: key, offsets, the node it stands at, and the hops left -/
  | chase (key : Word) (koff noff : Nat) (node : Word) (hops : Nat)
  | lines (op n : Nat)
  | lineState
  | flagAdd (v : Word)
  | waitFor (n : Word) (subtracts : Bool)
  | peek
  /-- element adds (TSTA, CPYA): element code, and each element's place from the target with its addend; whether the
  lines become full, as a Carter delivery makes them (R348) -/
  | adds (elem : Nat) (items : List (Nat × Word)) (fill : Bool)
  /-- Carter or Carillon delivery into one line: bytes at their places from the target -/
  | deliver (bytes : List (Nat × Byte))
  /-- a race-log record, a counted write whose flag is the log's count (R140) -/
  | logRecord (words : List Word)
  /-- a page for one subscription (R388) -/
  | page (sub page : Nat)
  /-- a table change for one chip (R46) -/
  | tableChange (change : Nat)
  deriving DecidableEq, Repr

/-- Who takes what an access reads: the thread parked on it, an engine operation, a pass, a thread whose fetch
missed, or a LAUNCH, KVSUB or PASS that reads line by line. -/
inductive Reader where
  | thread
  | op (id : Nat)
  | pass (die roll page : Nat)
  | fill (thread : Nat)
  | launch (sub : Nat)
  /-- a line of a COPYIN or COPYOUT (R447) -/
  | host (parish seq : Nat)
  deriving DecidableEq, Repr

/-- A packet's destination: a byte already resolved, or a forwarded handle byte at its owner
(R42). -/
inductive Target where
  | byte (pa : Nat)
  | forwarded (chip parish obj off : Nat)
  deriving DecidableEq, Repr

/-- The stamp, scope and atomicity an access carries for the race detector and for order. -/
structure AccessInfo where
  stamp : Stamp := {}
  acquire : Bool := false
  release : Bool := false
  scope : Nat := 4
  deriving DecidableEq, Repr

/-- What the source keeps of a request until it is acknowledged (R82): the access itself. -/
structure Access where
  req : Req
  target : Target
  /-- the address as issued -/
  addr : Word
  thread : Nat
  /-- engine operation it belongs to, or 0, its engine, and the task on whose behalf it goes -/
  op : Nat := 0
  engine : Option Engine := none
  task : Nat := 0
  parish : Nat
  src : Nat
  dst : Nat
  channel : Bool
  seq : Nat
  /-- counts in outw, or takes a reply place -/
  posted : Bool
  takesPlace : Bool := true
  /-- reply places it takes (R113, R353) -/
  places : Nat := 1
  reader : Reader := .thread
  /-- flag to be counted when the data is visible: place and its stamp -/
  flag : Option Word := none
  /-- homes that have still to report, for a write of several homes (R90): the group's leader -/
  group : Nat := 0
  resends : Nat := 0
  info : AccessInfo := {}
  /-- destination registers: xt, and a second one for DEQ; how the reply is extended -/
  dest : Nat := 0
  dest2 : Nat := 0
  size : Nat := 8
  sx : Bool := false
  /-- LDH of a parcel: the object, and its length when the access was admitted (R48, R52) -/
  parcel : Option (Nat × Nat) := none
  /-- operand block of CAS2 and CAS4, where the old bytes go: bytes' addresses -/
  block : List Nat := []
  /-- the outcome held by the destination: words returned, or a trap cause and value -/
  value : List Byte := []
  found : Bool := false
  /-- stamps read with the value, for an acquire (R138) -/
  stamps : List Stamp := []
  trap : Option (Nat × Word) := none
  performed : Bool := false
  /-- ends with link lost without further retries (R85) -/
  refused : Bool := false
  /-- adds combined into it, and the gateway that acknowledges them (R79) -/
  partners : List Nat := []
  gate : Nat := 0
  /-- its source has been reset: nothing waits for its outcome (R85) -/
  orphan : Bool := false
  /-- the race check that its home is to make, because the owner had no byte to check as it issued (R138): kind, atomicity,
  scope, and whether it writes -/
  unraced : Option (Nat × Bool × Nat × Bool) := none
  /-- the first access of the row of a SCAT that it belongs to, or 0: a row counts once in outw (R353) -/
  row : Nat := 0
  /-- record of the context to which it belongs while its thread is saved, or 0 (R142) -/
  saved : Nat := 0
  deriving DecidableEq, Repr

/-- A group of writes with several homes that counts one flag (R90). -/
structure Group where
  outstanding : Nat := 0
  sealed : Bool := false
  flag : Word := 0
  thread : Nat := 0
  op : Nat := 0
  parish : Nat := 0
  stamp : Stamp := {}
  failed : Bool := false
  /-- the issuing node, and the source-free flag of a copy, or 0: counted when no write can fail any more (R100) -/
  node : Nat := 0
  sourceFree : Word := 0
  /-- homes of its writes -/
  homes : List (Nat × Bool) := []
  deriving DecidableEq, Repr

/-- What a packet carries. -/
inductive Payload where
  | request (acc : Nat)
  | reply (acc : Nat)
  | ack (acc : Nat)
  /-- the source's acknowledgement, which frees the destination's reply store (R83) -/
  | freed (acc : Nat)
  | busy (acc : Nat)
  /-- report of one home (R90) -/
  | report (acc : Nat)
  /-- wake notice for the wait registered by an access, with the stamps it acquires -/
  | wake (thread : Nat) (acc : Nat) (overrun : Bool) (stamps : List Stamp)
  | wayfarer (w : Wayfarer)
  /-- one page for its subscribers (R388): the accesses that its delivery to each of them answers, the page, its bytes -/
  | page (accs : List Nat) (page : Nat) (bytes : List Byte)
  /-- a table change, with the accesses that its delivery to each chip answers (R46) -/
  | change (accs : List Nat) (change : Nat)
  /-- a router's report that its drain markers have come (Table 3-9) -/
  | drained (node : Nat)
  /-- a drain marker that a router passes to the one at a port of it (Table 3-9) -/
  | drainMark (node port : Nat)
  /-- a boundary router's answer to a request into a reset cluster (R85) -/
  | refused (acc : Nat)
  deriving DecidableEq, Repr

/-- Where a packet is. -/
inductive Loc where
  | router (n : Nat)
  /-- waiting to cross the seam from a node by a port -/
  | seam (n port : Nat)
  /-- at the Belfry of a chip, to be enqueued -/
  | belfry (chip : Nat)
  /-- in a send queue or on a port of a chip -/
  | port (chip port : Nat)
  /-- arrived at its destination -/
  | delivered
  /-- waiting at its home for a line to fill -/
  | waitingLine (n : Nat)
  /-- waiting for a moving extent -/
  | waitingExtent
  /-- waiting behind an older access of its thread to the same bytes (R124) -/
  | waitingTurn
  /-- waiting upstream of, or held in, a fork buffer -/
  | waitingFork (n : Nat)
  deriving DecidableEq, Repr

structure Packet where
  payload : Payload
  cls : Class
  parish : Nat
  epoch : Nat
  src : Nat
  dst : Nat
  channel : Bool
  loc : Loc
  /-- destinations of a multicast: node, and the access that it answers there -/
  dsts : List (Nat × Nat) := []
  /-- the router that a multicast came from, whose link's place it holds -/
  via : Option Nat := none
  /-- it goes to a Sexton core of its chip (R69) -/
  sexton : Bool := false
  /-- flits still to cross the gateway at which it stands (R75) -/
  left : Nat := 0
  deriving DecidableEq, Repr

/-- The state of an engine operation (Table 14-5, with `queued` before it starts). -/
inductive OpState where
  | queued | running | held | suspended | ended | complete
  deriving DecidableEq, Repr

/-- Who issued an operation, and so who joins it. -/
inductive Origin where
  | tx
  | tq
  | seq (offset : Nat)
  | schedule (task idx : Nat)
  deriving DecidableEq, Repr

/-- An engine operation (R288 to R294, R374 to R376). -/
structure EngOp where
  word : Command
  thread : Nat
  task : Nat
  parish : Nat
  core : Nat
  engine : Engine
  origin : Origin
  /-- window offset of the command, and its position in its sequence -/
  offset : Nat
  index : Nat
  fm : Word
  sa : Word
  sb : Word
  seed : Word
  seedh : Word
  race : Word
  stamp : Stamp
  tiles : Vector TileName 12
  shapes : Vector Word 12
  wbase : Nat
  span : Nat
  /-- operand block (R342); source of a schedule entry -/
  block : Word
  /-- words read at issue: the operand block, or the entries of a CSCHED (R342, R349) -/
  data : List Word
  state : OpState
  cause : Nat
  tval : Word
  resume : Nat
  /-- data writes not yet visible (R344, R345) -/
  outstanding : Nat
  /-- bytes or rows sent so far -/
  sent : Nat
  /-- pieces of a copy's destination that have been written beyond those sent in order (R102), by distance -/
  written : NSet
  /-- what a copy has written into bytes of its own source, by byte number (R347) -/
  overlap : List (Nat × Byte)
  /-- the effect has been given to the engine -/
  finished : Bool
  /-- a save record of reason 4 tells of it -/
  noticed : Bool
  /-- group of its writes with several homes (R90) -/
  group : Nat
  /-- its checks have been made (R291, R292) -/
  checked : Bool
  /-- accesses of the issuing thread that come before its own (R129) -/
  fence : List Nat
  /-- save record that holds its thread, or 0 -/
  saved : Nat
  /-- the race checks of its tiles have been made (R364) -/
  raced : Bool
  /-- lines read and not yet used (R102, R113) -/
  reads : List LineRead
  /-- lane predicates as they stood when it started (R314) -/
  preds : Option (Vector (BitVec 64) 16)
  /-- round of a SPIRE, by its order of issue (R360) -/
  round : Nat
  /-- what it writes, read from its source rows once (R312): distance and request -/
  out : Option (List (Nat × Req))
  deriving DecidableEq, Repr

/-- A contribution to a spire round (R360, R361). -/
structure Contribution where
  op : Nat
  member : Nat
  len : Nat
  elem : Nat
  bytes : List Byte
  failed : Bool
  deriving DecidableEq, Repr

/-- A spire round: the group, its round number, and what has arrived. -/
structure Round where
  task : Nat := 0
  level : Nat := 0
  group : List Nat := []
  number : Nat := 0
  contributions : List Contribution := []
  /-- packages whose partial has reached the lowest-numbered chip (R419) -/
  summed : NSet := []
  disagreed : Bool := false
  done : Bool := false
  /-- it has ended because a member's chip was lost (R365) -/
  lost : Bool := false
  /-- the rounded sum (R361) -/
  out : List Word := []
  deriving DecidableEq, Repr

/-- A table change (R46 to R49): the new object entry, or an extent's descriptor on each chip. -/
inductive Change where
  | entry (obj : Nat) (e : ObjEntry)
  | extent (obj idx : Nat) (desc : List (Nat × Word))
  /-- an object with its extents, backed by frames of one chip (R421) -/
  | install (obj : Nat) (e : ObjEntry) (owner : Nat) (frames : List (Option Nat))
  deriving DecidableEq, Repr

/-- A change under way: what it is, the chips that have applied and acknowledged it, and the accesses
each admitted before (R47). -/
structure ChangeState where
  parish : Nat := 0
  change : Change := .entry 0 {}
  chips : NSet := []
  applied : NSet := []
  acknowledged : NSet := []
  /-- accesses admitted under the old entry on the chips that have applied it -/
  waitFor : List Nat := []
  /-- threads admitted under the old entry that are parked on a moving extent of the object (R41, R47) -/
  held : List Nat := []
  /-- the transit it belongs to, or 0 -/
  transit : Nat := 0
  deriving DecidableEq, Repr

/-- Stages of a parcel in transit (R420 to R422): the seal is under way; offered; the receiver has reserved and accepted;
data moves; the receiver's table change is under way; the arrival is counted and its acknowledgement on the way. -/
inductive TransitStage where
  | sealing | offered | accepted | moving | installing | arrived
  deriving DecidableEq, Repr

structure Transit where
  stage : TransitStage := .sealing
  parish : Nat := 0
  chip : Nat := 0
  obj : Nat := 0
  length : Nat := 0
  rights : Nat := 0
  /-- descriptors of the sender -/
  extents : List Word := []
  arrival : Word := 0
  destChip : Nat := 0
  destCore : Nat := 0
  destParish : Nat := 0
  destObj : Nat := 0
  frames : List Nat := []
  /-- entries of 16 KiB delivered so far -/
  moved : Nat := 0
  /-- order of the offer's arrival at the receiver, and whether it has refused the parcel -/
  offer : Nat := 0
  refused : Bool := false
  thread : Nat := 0
  stamp : Stamp := {}
  deriving DecidableEq, Repr

/-- What travels in an Ouvval send queue (R405). -/
inductive EntryBody where
  | packet (pk : Nat)
  /-- writes of one engine operation (R428) -/
  | copy (pks : List Nat)
  | parcelOffer (tr : Nat)
  | parcelAccept (tr : Nat)
  | parcelData (tr : Nat)
  | parcelAck (tr : Nat)
  | spirePartial (round chip : Nat)
  /-- a part of a round's result, to a package (R419) -/
  | spireResult (round chip : Nat)
  /-- an acknowledgement, or a negative one, of a frame of a port (R411) -/
  | frameAck (chip port number : Nat) (good : Bool)
  /-- the last frame before a change of tables (R423) -/
  | drainMarker
  | relayCredit (via : Nat)
  deriving DecidableEq, Repr

structure Entry where
  body : EntryBody
  cls : Class
  src : Nat
  dst : Nat
  /-- chip to which it now goes (the destination, or an intermediate), and chip at which it stands -/
  hop : Nat
  at' : Nat
  frames : Nat
  relayed : Bool
  deriving DecidableEq, Repr

/-- A save record that waits for its ring (R369): a task report, refusal or engine notice. -/
inductive Notice where
  | engine (op : Nat)
  | report (record : Word) (halted ended cause node : Nat) (command : Option (Nat × Nat))
  | refused (record producer : Word) (code : Nat) (node : Nat)
  | page (die roll : Nat) (addr : Word)
  | command (parish seq : Nat) (addr : Word)
  deriving DecidableEq, Repr

/-! ### The machine -/

/-- A step that earlier steps have made due (log 1). -/
inductive Due where
  | event (i : Instr)
  | command (op : Nat)
  /-- a parked instruction is tried again -/
  | again (thread : Nat)
  | notice (n : Notice) (parish chip : Nat)
  /-- the end of a slot, when the dark guard begins (R402) -/
  | slotEnd (chip port slot rotation : Nat)
  /-- 600 s have passed since the keys of a port pair were loaded (R415) -/
  | rotate (chip port : Nat)
  /-- the Vestry is ready, once every port has trained or has been reported (R439) -/
  | ready (chip : Nat)
  deriving DecidableEq, Repr

/-- A choice the environment makes of the next step (log 1): a core issues, one of the due steps is
taken, or an input arrives. -/
inductive Choice where
  | issue (core : Nat)
  | pending (n : Nat)
  | input (i : Instr)
  /-- the parish supervisor issues a change of its object table (R46) -/
  | change (parish : Nat) (c : Change)
  /-- a soft error strikes the word at a byte: an uncorrectable one, or one that can be corrected (R87) -/
  | upset (pa : Nat) (uncorrectable : Bool)
  /-- the same in a Granary slot, in a node's task board, and in the router buffer where a packet stands -/
  | upsetGranary (node slot : Nat) (uncorrectable : Bool)
  | upsetBoard (node : Nat) (uncorrectable : Bool)
  | upsetPacket (pk : Nat) (uncorrectable : Bool)
  /-- the supervisor pre-empts a slot (R181), sets its chip groups (R170), or gives the window image of a code object -/
  | preempt (thread : Nat)
  | groups (parish : Nat) (l : List (List Nat))
  | image (parish obj : Nat) (bytes : List Byte)
  /-- the Vestry replays a captured run: boards, and the records that they accepted, in order (R441) -/
  | replay (parish : Nat) (order : List (Nat × Word))
  deriving DecidableEq, Repr

/-- Shadow state of a line or sector (R138): last writer, its interval, the scope of the write,
atomicity. -/
structure Shadow where
  valid : Bool := false
  writer : Nat := 0
  interval : Nat := 0
  scope : Nat := 0
  atomic : Bool := false
  deriving DecidableEq, Repr

structure State where
  /-- bytes that do not read zero (R57, log 2), by byte number of Base.lean -/
  mem : AMap Byte
  /-- lines that are empty (R58) -/
  empty : NSet
  shadow : AMap Shadow
  /-- words whose check bits show an error, by byte number over 8: 1 can be corrected, 2 cannot (R87, R88) -/
  errors : AMap Nat
  /-- release stamps carried by words, by the byte number of their first byte (R127, R138) -/
  stamps : AMap (List Stamp)
  slots : AMap Slot
  cores : AMap Core
  nodes : AMap Node
  dies : AMap Die
  chips : AMap Chip
  parishes : AMap Parish
  objs : AMap ObjEntry
  exts : AMap Word
  tasks : AMap Task
  submissions : AMap Submission
  subscriptions : AMap Subscription
  accesses : List (Nat × Access)
  groups : AMap Group
  packets : List (Nat × Packet)
  ops : List (Nat × EngOp)
  rounds : AMap Round
  changes : AMap ChangeState
  transits : AMap Transit
  entries : List (Nat × Entry)
  /-- what the core and board keep of a context whose record (by its first byte) has been written: sequences,
  operations, task and the wait registered (R98, R183) -/
  saved : AMap Slot
  /-- what each record of an engine notice, a report or a refusal tells of, by its first byte (R369) -/
  notices : List (Nat × Notice)
  /-- parish that owns a core, plus one; 0 for none (R29, log 5) -/
  owner : AMap Nat
  pending : List Due
  /-- steps due at a core's cycle: core, cycle, step -/
  timers : List (Nat × Nat × Due)
  order : List Choice
  cur : Nat
  curOp : Nat
  focus : Nat
  nextId : Nat
  freeCtr : Nat
  deriving DecidableEq, Repr

/-- The machine after power-on reset: storage zero, lines full, Granary free (R57), registers at the
values of their tables, and no parish (R436: boot has not begun). DESIGN CHOICE, log 6. -/
def State.reset : State where
  mem := []
  empty := []
  shadow := []
  errors := []
  stamps := []
  slots := []
  cores := []
  nodes := []
  dies := []
  chips := []
  parishes := []
  objs := []
  exts := []
  tasks := []
  submissions := []
  subscriptions := []
  accesses := []
  groups := []
  packets := []
  ops := []
  rounds := []
  changes := []
  transits := []
  entries := []
  saved := []
  notices := []
  owner := []
  pending := []
  timers := []
  order := []
  cur := 0
  curOp := 0
  focus := 0
  nextId := 1
  freeCtr := 0

end Sys2Proof.Machine
end

