-- ==== Sys2Proof/Machine/Ops.lean ====
section
/-! DEFINITION. The named operations over memory and registers, line states, traps, parking and waking.
Every meaning is written over these. -/

namespace Sys2Proof.Machine

abbrev Out := Host.Outcome State Fault Refusal

/-! ### Parts of the state -/

def State.slot (s : State) (t : Nat) : Slot := AMap.get {} s.slots t
def State.setSlot (s : State) (t : Nat) (v : Slot) : State := { s with slots := AMap.set {} s.slots t v }
def State.modSlot (s : State) (t : Nat) (f : Slot → Slot) : State := s.setSlot t (f (s.slot t))
def State.core (s : State) (c : Nat) : Core := AMap.get {} s.cores c
def State.setCore (s : State) (c : Nat) (v : Core) : State := { s with cores := AMap.set {} s.cores c v }
def State.modCore (s : State) (c : Nat) (f : Core → Core) : State := s.setCore c (f (s.core c))
def State.node (s : State) (n : Nat) : Node := AMap.get {} s.nodes n
def State.modNode (s : State) (n : Nat) (f : Node → Node) : State :=
  { s with nodes := AMap.set {} s.nodes n (f (s.node n)) }
def State.die (s : State) (d : Nat) : Die := AMap.get {} s.dies d
def State.modDie (s : State) (d : Nat) (f : Die → Die) : State :=
  { s with dies := AMap.set {} s.dies d (f (s.die d)) }
def State.chip (s : State) (c : Nat) : Chip := AMap.get {} s.chips c
def State.modChip (s : State) (c : Nat) (f : Chip → Chip) : State :=
  { s with chips := AMap.set {} s.chips c (f (s.chip c)) }
def State.parish (s : State) (p : Nat) : Parish := AMap.get {} s.parishes p
def State.modParish (s : State) (p : Nat) (f : Parish → Parish) : State :=
  { s with parishes := AMap.set {} s.parishes p (f (s.parish p)) }
def State.task (s : State) (t : Nat) : Task := AMap.get {} s.tasks t
def State.modTask (s : State) (t : Nat) (f : Task → Task) : State :=
  { s with tasks := AMap.set {} s.tasks t (f (s.task t)) }
def State.submission (s : State) (t : Nat) : Submission := AMap.get {} s.submissions t
def State.setSubmission (s : State) (t : Nat) (v : Submission) : State :=
  { s with submissions := AMap.set {} s.submissions t v }
def State.subscription (s : State) (t : Nat) : Subscription := AMap.get {} s.subscriptions t
def State.setSubscription (s : State) (t : Nat) (v : Subscription) : State :=
  { s with subscriptions := AMap.set {} s.subscriptions t v }
def State.roll (s : State) (d r : Nat) : Roll := AMap.get {} (s.die d).rolls r
def State.modRoll (s : State) (d r : Nat) (f : Roll → Roll) : State :=
  s.modDie d fun v => { v with rolls := AMap.set {} v.rolls r (f (AMap.get {} v.rolls r)) }
def State.granary (s : State) (n g : Nat) : Granary := AMap.get {} (s.node n).granary g
def State.modGranary (s : State) (n g : Nat) (f : Granary → Granary) : State :=
  s.modNode n fun v => { v with granary := AMap.set {} v.granary g (f (AMap.get {} v.granary g)) }
def State.port (s : State) (c p : Nat) : Port := AMap.get {} (s.chip c).ports p
def State.modPort (s : State) (c p : Nat) (f : Port → Port) : State :=
  s.modChip c fun v => { v with ports := AMap.set {} v.ports p (f (AMap.get {} v.ports p)) }

/-- The record with number `id` in a list of records. -/
def find? {α : Type} (l : List (Nat × α)) (id : Nat) : Option α := (l.find? (·.1 == id)).map (·.2)
def modRec {α : Type} (l : List (Nat × α)) (id : Nat) (f : α → α) : List (Nat × α) :=
  l.map fun e => if e.1 == id then (e.1, f e.2) else e
def dropRec {α : Type} (l : List (Nat × α)) (id : Nat) : List (Nat × α) := l.filter (·.1 != id)

def State.access? (s : State) (id : Nat) : Option Access := find? s.accesses id
def State.modAccess (s : State) (id : Nat) (f : Access → Access) : State :=
  { s with accesses := modRec s.accesses id f }
def State.packet? (s : State) (id : Nat) : Option Packet := find? s.packets id
def State.modPacket (s : State) (id : Nat) (f : Packet → Packet) : State :=
  { s with packets := modRec s.packets id f }
def State.dropPacket (s : State) (id : Nat) : State := { s with packets := dropRec s.packets id }
def State.op? (s : State) (id : Nat) : Option EngOp := find? s.ops id
def State.modOp (s : State) (id : Nat) (f : EngOp → EngOp) : State := { s with ops := modRec s.ops id f }

/-- Makes a step due. -/
def State.push (s : State) (d : Due) : State := { s with pending := s.pending ++ [d] }
/-- Makes a step due that is not due yet. -/
def State.pushOnce (s : State) (d : Due) : State := if s.pending.contains d then s else s.push d
def State.event (s : State) (i : Instr) : State := s.push (.event i)

/-- Sets a step due `n` cycles after the present cycle of a core. -/
def State.timer (s : State) (core n : Nat) (d : Due) : State :=
  { s with timers := s.timers ++ [(core, (s.core core).cyc.toNat + n, d)] }

/-! ### Memory -/

/-- What an unlisted byte reads as: zero (R57 for SRAM; log 2 for HBM and host memory). DESIGN CHOICE, log 2. -/
def unlistedByte : Byte := 0

/-- The canonical form of memory. -/
def Memory.wf (m : AMap Byte) : Bool := AMap.wf unlistedByte m

def State.byte (s : State) (pa : Nat) : Byte := AMap.get unlistedByte s.mem pa
def State.setByte (s : State) (pa : Nat) (b : Byte) : State :=
  { s with mem := AMap.set unlistedByte s.mem pa b }

/-- Writes a list of (address, byte). -/
def State.setBytes (s : State) (l : List (Nat × Byte)) : State :=
  { s with mem := l.foldl (fun m e => AMap.set unlistedByte m e.1 e.2) s.mem }

/-- The bytes at consecutive addresses. -/
def consecutive (pa n : Nat) : List Nat := (List.range n).map (pa + ·)

def State.bytes (s : State) (pas : List Nat) : List Byte := pas.map s.byte

/-- A value of up to 8 bytes, the least significant byte first (R272). -/
def wordOfBytes (bs : List Byte) : Word := BitVec.ofNat 64 (ofLittleEndian bs)

def State.loadLE (s : State) (pa n : Nat) : Word := wordOfBytes (s.bytes (consecutive pa n))

/-- The (address, byte) list that stores the low `n` bytes of `v` at `pa`. -/
def bytesAt (pa n : Nat) (v : Word) : List (Nat × Byte) := (consecutive pa n).zip (littleEndian v n)

def State.storeLE (s : State) (pa n : Nat) (v : Word) : State := s.setBytes (bytesAt pa n v)

/-- Extends an `n`-byte value in a 64-bit word (R272). -/
def extend (n : Nat) (sx : Bool) (v : Word) : Word :=
  if sx then
    match n with
    | 1 => (v.extractLsb' 0 8).signExtend 64
    | 2 => (v.extractLsb' 0 16).signExtend 64
    | 4 => (v.extractLsb' 0 32).signExtend 64
    | _ => v
  else v

/-- Machine checks to the Vestry (R88, R381). -/
def State.machineCheck (s : State) (node storage : Nat) (addr : Word) : State :=
  s.modChip (chipOfNode node) fun c => { c with checks := c.checks ++ [⟨node, storage, addr⟩] }

/-! ### Soft errors (R87, R88) -/

/-- The words of `n` bytes from byte `pa`. -/
def wordsIn (pa n : Nat) : List Nat := (List.range ((pa + n + 7) / 8 - pa / 8)).map (pa / 8 + ·)

/-- The worst error in `n` bytes from `pa`: 0 none, 1 correctable, 2 uncorrectable. -/
def State.errorIn (s : State) (pa n : Nat) : Nat :=
  if s.errors.isEmpty then 0 else (wordsIn pa n).foldl (fun m w => Nat.max m (AMap.get 0 s.errors w)) 0

/-- The core whose counter counts an error at byte `pa`: for HBM the first core of the channel's node (log 40). -/
def counterOf (pa : Nat) : Nat :=
  match coreOfByte pa with
  | some c => c
  | none => (homeOfByte pa).1 * 16

/-- Corrects what can be corrected in `n` bytes from `pa` and counts it. -/
def State.correct (s : State) (pa n : Nat) : State :=
  if s.errors.isEmpty then s
  else (wordsIn pa n).foldl (fun s w =>
    if AMap.get 0 s.errors w = 1 then
      { s with errors := AMap.set 0 s.errors w 0 }.modCore (counterOf pa) fun c => { c with corrected := c.corrected + 1 }
    else s) s

/-- Words written whole have fresh check bits. -/
def State.refresh (s : State) (pa n : Nat) : State :=
  if s.errors.isEmpty then s
  else { s with errors := s.errors.filter fun e => !(decide (pa ≤ 8 * e.1) && decide (8 * e.1 + 8 ≤ pa + n)) }

/-- An access finds an uncorrectable error in one of some bytes: it is reported and the access does not complete;
otherwise what can be corrected is. -/
def State.findError (s : State) (pas : List Nat) : State × Bool :=
  if s.errors.isEmpty then (s, false)
  else
    match pas.find? fun pa => s.errorIn pa 1 = 2 with
    | some pa => (s.machineCheck (counterOf pa / 16) (if pa < hbmBase then 0 else 1) (BitVec.ofNat 64 pa), true)
    | none => (pas.foldl (fun s pa => s.correct pa 1) s, false)

/-! ### Registers of the current thread -/

def State.here (s : State) : Slot := s.slot s.cur
def State.modHere (s : State) (f : Slot → Slot) : State := s.modSlot s.cur f

/-- Reads x register `n` of thread `t`: x0 reads 0, x15 the identity word (R238), and x11 to x14 of a
wayfarer away read 0 (R180). -/
def State.regOf (s : State) (t : Nat) (n : Field4) : Word :=
  if n = 0 then 0
  else if n = 15 then identityOf t
  else if (s.slot t).wf && decide (11 ≤ n.toNat) then 0
  else (s.slot t).x.toList.getD n.toNat 0

def State.reg (s : State) (n : Field4) : Word := s.regOf s.cur n

/-- Writes x register `n` of thread `t`; a write to x0 or x15 is discarded (R201). -/
def State.setRegOf (s : State) (t : Nat) (n : Field4) (v : Word) : State :=
  if n = 0 ∨ n = 15 then s else s.modSlot t fun c => { c with x := c.x.setIfInBounds n.toNat v }

def State.setReg (s : State) (n : Field4) (v : Word) : State := s.setRegOf s.cur n v

def State.pred (s : State) (p : Field4) : Bool := s.here.preds.getLsbD p.toNat

/-- The predicate word with bit `p` set to `v`. -/
def setPredBit (w : BitVec 16) (p : Field4) (v : Bool) : BitVec 16 :=
  let m : BitVec 16 := 1 <<< p.toNat
  if v then w ||| m else w &&& ~~~m

def State.setPred (s : State) (p : Field4) (v : Bool) : State :=
  s.modHere fun c => { c with preds := setPredBit c.preds p v }

/-- The guard of Table 8-2 on the predicates of the current thread (R190). -/
def guardHolds (g : Guard) (s : State) : Bool := !g.e || (s.pred g.p != g.s)

/-- The instruction has completed: the PC advances by 4 (R189) and the slot may issue. -/
def State.finishOf (s : State) (t : Nat) : State :=
  s.modSlot t fun c => { c with pc := c.pc + 4, state := .ready }

def State.finish (s : State) : State := s.finishOf s.cur

/-- Control goes to `pc`. -/
def State.jump (s : State) (pc : Word) : State := s.modHere fun c => { c with pc := pc, state := .ready }

/-- The thread parks; its PC still names the instruction. -/
def State.park (s : State) (w : Wait) : State := s.modHere fun c => { c with state := .parked w }

/-- x11 to x14 (R201, step 7 of Table 8-11). -/
def shadowReg (d : Field4) : Bool := decide (11 ≤ d.toNat ∧ d.toNat ≤ 14)

/-! ### Traps (R367, R368) -/

/-- Causes that always take the supervisor route (Table 14-1). -/
def supervisorCause (c : Nat) : Bool := c == 0x09 || c == 0x12 || c == 0x16

/-- Takes a trap with cause `c` and value `v` in thread `t`: to the thread's own handler, or to the
supervisor, whose record the spill engine writes (R368, R369). -/
def State.trapIn (s : State) (t c : Nat) (v : Word) : State :=
  let th := s.slot t
  if !supervisorCause c && th.tvec != 0 && !th.ih then
    s.setSlot t { th with cause := BitVec.ofNat 64 c, epc := th.pc, tval := v, ppl := th.pl, ih := true,
                          unreachable := none, pc := th.tvec, state := .ready }
  else
    let th' := if th.ih then th else { th with cause := BitVec.ofNat 64 c, epc := th.pc, tval := v }
    (s.setSlot t { th' with trap := some (BitVec.ofNat 64 c, th.pc, v),
                            state := .saving (if th.ih then 3 else 2) }).event (.contextSave t)

def State.trap (s : State) (c : Nat) (v : Word) : State := s.trapIn s.cur c v

/-- The value of a trap whose tval is the word, zero-extended. -/
def State.wordVal (s : State) : Word := s.here.word.setWidth 64

/-- Return from a trap handler (R262). -/
def State.eret (s : State) : State :=
  if s.here.ih then
    s.modHere fun c => { c with pc := c.epc, pl := c.ppl, ih := false, state := .ready }
  else s.trap 0x04 s.wordVal

/-! ### The shape of every scalar meaning (Table 8-11, steps 5 to 8) -/

/-- A false guard only advances the PC (R17). -/
def scalar (g : Guard) (s : State) (k : State → State) : Out :=
  .next (if guardHolds g s then k s else s.finish)

/-- Step 7: no destination among x11 to x14. -/
def withDest (d : Field4) (s : State) (k : State → State) : State :=
  if shadowReg d then s.trap 0x03 s.wordVal else k s

/-- A wayfarer away from home traps with cause 0x13 (R180, R287), before any operand of the instruction is checked: R180 and
R287 give the trap without a condition, while R274, R285, R297 and R298 name it after their other checks. DESIGN CHOICE,
log 106. -/
def atHome (s : State) (k : State → State) : State :=
  if s.here.wf then s.trap 0x13 s.wordVal else k s

/-- Changes the context to which an access belongs: a slot, or what is kept of it while it is saved under record `r`. -/
def State.modContext (s : State) (t r : Nat) (f : Slot → Slot) : State :=
  if r = 0 then s.modSlot t f
  else { s with saved := s.saved.map fun e => if e.1 = r then (e.1, f e.2) else e }

/-! ### Waking -/

/-- Ends the park of every thread for which `p` holds: its instruction is tried again. -/
def State.wakeIf (s : State) (p : Nat → Slot → Bool) : State :=
  s.slots.foldl (fun s e => if p e.1 e.2 then s.push (.again e.1) else s) s

def parkedOn (w : Wait) (c : Slot) : Bool := decide (c.state = .parked w)

/-- The object of the moving extent on which a thread is parked. -/
def SlotState.movingOn? : SlotState → Option Nat
  | .parked (.moving o) => some o
  | _ => none

/-- The end of the YIELD or of the long operation of slot `t` is due no more. -/
def State.dropTimers (s : State) (t : Nat) : State :=
  { s with timers := s.timers.filter fun e =>
      !(decide (e.2.2 = Due.event (.yieldExpiry t)) || decide (e.2.2 = Due.event (.longOpResult t))) }

/-- Slot `t` becomes free: what waits for a slot of its core or node looks again (R161, R174, R179, R183). -/
def State.freeSlot (s : State) (t : Nat) : State :=
  let s := (s.setSlot t {}).dropTimers t
  let s := s.wakeIf fun u c => parkedOn .borrow c && coreOfThread u == coreOfThread t
  (((s.event (.wayfarerStart (coreOfThread t))).event (.resumption (nodeOfThread t) 0)).event
    (.dispatch (nodeOfThread t))).event (.admission (nodeOfThread t))

/-- The task's end may have come (R132, R379): it is looked at once no member has still to halt. -/
def State.pokeTask (s : State) (t : Nat) : State :=
  let l := (s.task t).members
  if !l.isEmpty && l.all fun m => decide (m.state = .halted) || decide (m.state = .ended) then
    (s.pushOnce (.event (.taskRetirement t))).pushOnce (.event (.taskEndFailedPartial t))
  else s

/-! ### Windows (R32, R33) -/

/-- Bytes reserved for the window of thread `t`. -/
def Slot.span (c : Slot) : Nat := roundWindow c.wsize.toNat

/-- Byte of window offset `o` of a window at `wbase` with `span` bytes on core `c` (R33). -/
def windowByte (core wbase span o : Nat) : Nat := coreByte core (wbase + o % span)

/-- Byte of window offset `o` of thread `t`. -/
def State.local (s : State) (t : Nat) (o : Word) : Nat :=
  let c := s.slot t
  windowByte (coreOfThread t) c.wbase.toNat c.span (o.toNat % c.span)

/-- Bytes of an `n`-byte window range from offset `o`, wrapping byte by byte (R33). -/
def State.localRange (s : State) (t : Nat) (o n : Nat) : List Nat :=
  let c := s.slot t
  (List.range n).map fun i => windowByte (coreOfThread t) c.wbase.toNat c.span (o + i)

/-! ### Line states (R58 to R61) -/

/-- Line `l` is empty. Only lines of scratchpad and tile storage are ever listed (R28, R55). -/
def State.lineEmpty (s : State) (l : Nat) : Bool := s.empty.contains l

/-- Lines 0 to 383 of a core have states (R55). -/
def hasLineState (l : Nat) : Bool := decide (l * 128 < hbmBase) && decide (l % 512 < 384)

/-- A change of the line's state may change which tasks of its node's board are eligible (R174). -/
def State.pokeBoard (s : State) (l : Nat) : State :=
  let n := nodeOfCore (l / 512)
  if (s.node n).board.isEmpty then s else s.event (.dispatch n)

/-- Fills a line and wakes every access parked on it (R61). -/
def State.fillLine (s : State) (l : Nat) : State :=
  if s.lineEmpty l then
    let s := { s with empty := NSet.erase s.empty l }.pokeBoard l
    let s := s.wakeIf fun _ c => parkedOn (.line l) c
    let s := s.packets.foldl (fun s e =>
      if e.2.loc = .waitingLine l then s.event (.reeveOperation e.1 false) else s) s
    s.ops.foldl (fun s e => if e.2.state = .running && !e.2.finished then s.pushOnce (.command e.1) else s) s
  else s

/-- A page copy that waits in the node of line `l` for its buffer to be emptied looks again (R389). -/
def State.pokePages (s : State) (l : Nat) : State :=
  s.packets.foldl (fun s e =>
    match e.2.payload, e.2.loc with
    | .page .., .delivered => if e.2.dst = nodeOfCore (l / 512) then s.pushOnce (.event (.stagingDelivery e.1)) else s
    | _, _ => s) s

def State.emptyLine (s : State) (l : Nat) : State :=
  if hasLineState l && !s.lineEmpty l then ({ s with empty := NSet.insert s.empty l }.pokeBoard l).pokePages l else s

/-- The first empty line among those of a list of bytes. -/
def State.firstEmpty (s : State) (pas : List Nat) : Option Nat :=
  (pas.find? fun pa => s.lineEmpty (lineOf pa)).map lineOf

/-! ### Windows of requests (R113 to R115), releases (R121) -/

/-- The operation that an access serves: it writes for it, or reads a line for it; 0 for none. -/
def Access.opId (a : Access) : Nat :=
  if a.op ≠ 0 then a.op
  else match a.reader with
    | .op id => id
    | _ => 0

/-- Posted writes of thread `t` outstanding, as the context of record `r` has them, or for 0 as the slot has them: the writes of
a saved context are not those of the slot that it has left (R142), and a row of a SCAT counts as one (R353). -/
def State.outwOf (s : State) (t r : Nat) : Nat :=
  let l := s.accesses.filter fun a => a.2.posted && a.2.thread == t && a.2.saved == r
  (l.filter fun a => !(l.any fun b => a.2.row != 0 && b.2.row == a.2.row && decide (b.1 < a.1))).length

/-- Posted writes of thread `t` outstanding. -/
def State.outw (s : State) (t : Nat) : Nat := s.outwOf t 0

/-- Reply places of thread `t` in use (R113, R353). -/
def State.outr (s : State) (t : Nat) : Nat :=
  ((s.accesses.filter fun a => a.2.takesPlace && !a.2.posted && a.2.thread == t).map (·.2.places)).sum

/-- A release of thread `t` can take effect (R121). -/
def State.released (s : State) (t : Nat) : Bool := s.outw t == 0 && (s.slot t).early.isEmpty

/-- What a release of the current thread does before its own effect: it waits (R121), a marked slot then raises cause
0x17 (R417), and a lost posted write 0x12 (R82). A posted write that met an uncorrectable error brings 0x16 here too, and
one whose race only its home could see 0x11, at the next release, wait or HALT: the spec does not say when its thread takes
it. DESIGN CHOICE, log 87. -/
def withRelease (s : State) (k : State → State) : State :=
  if !s.released s.cur then s.park .release
  else
    match s.here.unreachable with
    | some a => s.trap 0x17 a
    | none =>
      match s.here.linkLost with
      | some a => (s.modHere fun c => { c with linkLost := none }).trap 0x12 a
      | none =>
        match s.here.writeError with
        | some e => (s.modHere fun c => { c with writeError := none }).trap e.1 e.2
        | none => k s

/-! ### Parish of a core, harvest, reach (R27, R29, R30) -/

/-- The parish that owns a core, if any: one the Vestry has named, or else the one whose chips hold it (log 5). DEDUCED, log 5. -/
def State.parishOf (s : State) (core : Nat) : Option Nat :=
  let p := AMap.get 0 s.owner core
  if p ≠ 0 then some (p - 1)
  else
    (s.parishes.find? fun e => e.2.present && decide (e.2.firstChip ≤ chipOfCore core) &&
      decide (chipOfCore core < e.2.firstChip + e.2.chips)).map (·.1)

/-- Chip `b` is reachable from chip `a` (R410); a chip reaches itself. -/
def State.reaches (s : State) (a b : Nat) : Bool := a == b || (s.chip a).reachable.contains b

/-! ### Fresh numbers and free values -/

def State.fresh (s : State) : Nat × State := (s.nextId, { s with nextId := s.nextId + 1 })

def State.free (s : State) : Bool × State :=
  (Config.overlapChoice s.freeCtr, { s with freeCtr := s.freeCtr + 1 })

/-! ### Clocks -/

/-- The largest cycle count among a node's cores stands for the node's time (log 13). -/
def State.nodeTime (s : State) (n : Nat) : Nat :=
  (List.range 16).foldl (fun m i => Nat.max m (s.core (n * 16 + i)).cyc.toNat) 0

/-- The core of a node whose cycle count is the node's time. -/
def State.leadCore (s : State) (n : Nat) : Nat :=
  (List.range 16).foldl (fun m i => if (s.core m).cyc < (s.core (n * 16 + i)).cyc then n * 16 + i else m) (n * 16)

/-- The largest cycle count among a die's cores stands for the die's time (log 13). -/
def State.dieTime (s : State) (d : Nat) : Nat :=
  s.cores.foldl (fun m e => if dieOfNode (nodeOfCore e.1) = d then Nat.max m e.2.cyc.toNat else m) 0

end Sys2Proof.Machine
end

