-- ==== Sys2Proof/Machine/Address.lean ====
section
/-! DEFINITION. Places and handles: the checks of R39 and Table 2-9, residency, and where a byte lies. -/

namespace Sys2Proof.Machine

/-- Bit 63 selects a place (R24). -/
def isPlace (a : Word) : Bool := a.getLsbD 63

/-- The offset field of a place (Table 2-1). -/
def placeOffset (a : Word) : Nat := (field a 0 16).toNat

/-- The chip a place names, seen from chip `here` (R25). -/
def placeChip (here : Nat) (a : Word) : Nat :=
  if a.getLsbD 62 then here else (field a 44 18).toNat

/-- The core a place names, seen from chip `here`; a column of 48 or more is caught by R27. -/
def placeCore (here : Nat) (a : Word) : Nat :=
  coreKey (placeChip here a) (field a 41 3).toNat (field a 35 6).toNat (field a 29 6).toNat
    (field a 25 4).toNat

/-- The byte a place names. -/
def placeByte (here : Nat) (a : Word) : Nat := coreByte (placeCore here a) (placeOffset a)

/-- The region of Table 2-3 an offset lies in: scratchpad, tile storage, flag page, reserved. -/
def regionOf (o : Nat) : Nat :=
  if o < 0x8000 then 0 else if o < 0xC000 then 1 else if o < 0xC100 then 2 else 3

/-- The checks of R27 that do not depend on harvesting, for `n` bytes. -/
def placeFormOk (a : Word) (n : Nat) : Bool :=
  (field a 16 9 == 0) && decide ((field a 29 6).toNat < 48) && regionOf (placeOffset a) != 3 &&
    regionOf (placeOffset a) == regionOf (placeOffset a + (n - 1))

/-- The check R27 makes of harvesting. DEDUCED, log 81. -/
def State.placeHarvested (s : State) (here : Nat) (a : Word) : Bool :=
  (s.node (nodeOfCore (placeCore here a))).harvested

/-- The outcome of the checks of one access. -/
inductive Check where
  | trap (cause : Nat) (tval : Word)
  /-- a posted write to a chip that is not reachable (R417) -/
  | drop
  /-- the extent is moving (R41) -/
  | moving
  | ok (target : Target)
  deriving DecidableEq, Repr

/-- R27, R30 and R29 in the order of R39 for `n` bytes at place `a`; `ownOnly` says whether R29
applies. -/
def State.checkPlace (s : State) (here parish : Nat) (a : Word) (n : Nat) (ownOnly : Bool) : Option Nat :=
  let chip := placeChip here a
  if !placeFormOk a n then some 0x06
  else if chip == here && s.placeHarvested here a then some 0x06
  else if !s.reaches here chip then some 0x17
  else if s.placeHarvested here a then some 0x06
  else if ownOnly && s.parishOf (placeCore here a) != some parish then some 0x08
  else none

/-! ### Handles -/

def handleObj (a : Word) : Nat := (field a 40 23).toNat
def handleOff (a : Word) : Nat := (field a 0 40).toNat

def State.obj (s : State) (chip parish obj : Nat) : ObjEntry := AMap.get {} s.objs (objKey parish chip obj)

def ObjEntry.state (e : ObjEntry) : Nat := (field e.w0 42 3).toNat
def ObjEntry.gen (e : ObjEntry) : Nat := (field e.w0 48 16).toNat
def ObjEntry.isParcel (e : ObjEntry) : Bool := e.w0.getLsbD 41
def ObjEntry.length (e : ObjEntry) : Nat := (field e.w0 0 41).toNat
def ObjEntry.xlist (e : ObjEntry) : Nat := (field e.w2 0 40).toNat

/-- Rights of Table 2-6: bit 0 R, 1 W, 2 A, 3 X, 4 P. -/
def ObjEntry.has (e : ObjEntry) (right : Nat) : Bool := e.w1.getLsbD right

def rR : Nat := 0
def rW : Nat := 1
def rA : Nat := 2
def rX : Nat := 3
def rP : Nat := 4

/-- Word 0 of an entry with a given generation, state, parcel bit and length. -/
def packObj (gen state : Nat) (parcel : Bool) (len : Nat) : Word :=
  BitVec.ofNat 64 (gen % 65536 * 2 ^ 48 + state * 2 ^ 42 + (if parcel then 2 ^ 41 else 0) + len)

/-- Steps 2 to 5 of Table 2-9 for `n` bytes at byte `off`; `user` is user privilege (R373). -/
def checkEntry (e : ObjEntry) (obj off n right : Nat) (user : Bool) : Option Nat :=
  if obj = 0 || e.state = 0 || decide (e.length < off + n) then some 0x07
  else if !e.has right || (obj = 1 && user) then some 0x08
  else if e.state = 2 || e.state = 3 then some 0x0A
  else if decide (4 < e.state) then some 0x16
  else none

/-- The descriptor of the extent that holds byte `off` (Table 2-10). DESIGN CHOICE, log 24. -/
def State.descriptor (s : State) (chip parish obj off : Nat) : Word :=
  AMap.get 0 s.exts (extKey parish chip ((s.obj chip parish obj).xlist + 8 * (off / 2 ^ 21)))

def descRes (d : Word) : Nat := (field d 62 2).toNat
def descOwner (d : Word) : Nat := (field d 44 18).toNat
def descFrame (d : Word) : Nat := (field d 21 19).toNat
def localDesc (frame : Nat) : Word := BitVec.ofNat 64 (2 ^ 62 + frame * 2 ^ 21)
def remoteDesc (owner : Nat) : Word := BitVec.ofNat 64 (2 * 2 ^ 62 + owner * 2 ^ 44)
def movingDesc : Word := BitVec.ofNat 64 (3 * 2 ^ 62)

/-- Counts a line-grain request of the chip to an extent (R43), saturating. -/
def State.countExtent (s : State) (chip parish obj off : Nat) : State :=
  let k := extKey parish chip ((s.obj chip parish obj).xlist + 8 * (off / 2 ^ 21))
  let d := AMap.get 0 s.exts k
  if (field d 0 16).toNat < 0xFFFF then { s with exts := AMap.set 0 s.exts k (d + 1) } else s

/-- Where byte `off` of an object is (Table 2-11). -/
inductive Residency where
  | unbacked
  | here (pa : Nat)
  | owned (chip : Nat)
  | moving
  deriving DecidableEq, Repr

def State.residency (s : State) (chip parish obj off : Nat) : Residency :=
  let d := s.descriptor chip parish obj off
  match descRes d with
  | 0 => .unbacked
  | 1 => .here (hbmByte chip (descFrame d * 2 ^ 21 + off % 2 ^ 21))
  | 2 => .owned (descOwner d)
  | _ => .moving

/-- Step 6 of Table 2-9, with the forwarding of R42. -/
def State.checkResidency (s : State) (chip parish obj off : Nat) (a : Word) (posted : Bool) : Check :=
  match s.residency chip parish obj off with
  | .unbacked => .trap 0x09 a
  | .here pa => .ok (.byte pa)
  | .moving => .moving
  | .owned c =>
      if s.reaches chip c then .ok (.forwarded c parish obj off)
      else if posted then .drop else .trap 0x17 a

/-- The checks of R39 for a scalar access of `n` bytes at `a` by thread `t`. `align` is the alignment
asked, `right` the right of Table 2-8. An access that was parked on a moving extent is checked again from step 6
(R41). -/
def State.checkScalar (s : State) (t : Nat) (a : Word) (n align right : Nat) (posted : Bool) : Check :=
  let here := chipOfThread t
  let c := s.slot t
  if a.toNat % align ≠ 0 then .trap 0x05 a
  else if isPlace a then
    if placeFormOk a n && regionOf (placeOffset a) == 2 && n != 8 then .trap 0x05 a
    else
      match s.checkPlace here c.parish a n true with
      | some 0x17 => if posted then .drop else .trap 0x17 a
      | some k => .trap k a
      | none => .ok (.byte (placeByte here a))
  else
    let entry := if c.state = .parked (.moving (handleObj a)) then none
      else checkEntry (s.obj here c.parish (handleObj a)) (handleObj a) (handleOff a) n right (!c.pl)
    match entry with
    | some k => .trap k a
    | none => s.checkResidency here c.parish (handleObj a) (handleOff a) a posted

/-- What a node's cache holds of fetch number `k`: of an object with its present generation (R49), or of an extent. -/
def State.inCache (s : State) (n k : Nat) : Bool :=
  (s.node n).cache.any fun c =>
    match c with
    | .object j e => k == 2 * j && (AMap.get {} s.objs j).gen == e.gen
    | .extent j _ => k == 2 * j + 1

/-- A miss of a node's cache starts a fetch of that table entry, or joins the one under way (R45). -/
def State.missed (s : State) (n k : Nat) : State :=
  if s.inCache n k || (s.node n).fetching.contains k then s
  else (s.modNode n fun v => { v with fetching := NSet.insert v.fetching k }).event (.nodeCacheFetch n k)

/-- A handle access finds its object in the handle cache of its core, under its present generation, or takes it from the
node's cache, and its descriptor there (R45, R49). The checks read the replica: a change empties the caches as it is applied,
so that they hold nothing else. DEDUCED, log 21. -/
def State.touch (s : State) (t : Nat) (a : Word) : State :=
  if isPlace a then s
  else
    let c := s.slot t
    let k := objKey c.parish (chipOfThread t) (handleObj a)
    let e := s.obj (chipOfThread t) c.parish (handleObj a)
    let core := coreOfThread t
    let n := nodeOfThread t
    let s := s.countExtent (chipOfThread t) c.parish (handleObj a) (handleOff a)
    let s := if (s.core core).handles.any fun h => h.1 == k && h.2.gen == e.gen then s
      else
        (s.modCore core fun v =>
          let l := v.handles.filter (·.1 != k) ++ [(k, e)]
          { v with handles := l.drop (l.length - 32) }).missed n (2 * k)
    s.missed n (2 * extKey c.parish (chipOfThread t) (e.xlist + 8 * (handleOff a / 2 ^ 21)) + 1)

/-- The byte, on whichever chip holds it now, that a target names: the owner's replica serves a
forwarded request (R42). -/
def State.targetByte (s : State) : Target → Option Nat
  | .byte pa => some pa
  | .forwarded chip parish obj off =>
      match s.residency chip parish obj off with
      | .here pa => some pa
      | _ => none

/-- The byte a handle or place names when every check has passed, for engines and the Vestry. -/
def State.resolve (s : State) (here parish : Nat) (a : Word) : Option Nat :=
  if isPlace a then some (placeByte here a)
  else
    match s.residency here parish (handleObj a) (handleOff a) with
    | .here pa => some pa
    | .owned c => s.targetByte (.forwarded c parish (handleObj a) (handleOff a))
    | _ => none

/-! ### Flags (R91, R198, R283) -/

/-- A flag operand as a place: a place as it stands, or the place of a window offset of the thread on
its core (R276, R283). -/
def State.flagPlace (s : State) (t : Nat) (f : Word) : Word :=
  if isPlace f then f
  else
    let c := s.slot t
    placeOf (coreOfThread t) (c.wbase.toNat + f.toNat % c.span)

/-- The checks of a flag's place: alignment, then R27, R30 and R29 (R39, R91). A flag lies in scratchpad or on a flag page;
the spec gives no result for a place in tile storage, which is counted like any other. DESIGN CHOICE, log 94. -/
def State.checkFlag (s : State) (here parish : Nat) (f : Word) (posted : Bool) : Check :=
  if f.toNat % 8 ≠ 0 then .trap 0x05 f
  else
    match s.checkPlace here parish f 8 true with
    | some 0x17 => if posted then .drop else .trap 0x17 f
    | some k => .trap k f
    | none => .ok (.byte (placeByte here f))

end Sys2Proof.Machine
end

