-- ==== Sys2Proof/Machine/Fabric.lean ====
section
/-! DEFINITION. Requests, packets and replies; the race detector and its stamps; the one operation that
changes a flag. -/

namespace Sys2Proof.Machine

/-! ### Packets -/

/-- Puts a packet into the router of its source node (R67). -/
def State.send (s : State) (pl : Payload) (cls : Class) (parish src dst : Nat) (channel : Bool) : State :=
  let (id, s) := s.fresh
  let p : Packet := { payload := pl, cls := cls, parish := parish, epoch := (s.node src).epoch,
                      src := src, dst := dst, channel := channel, loc := .router src }
  ({ s with packets := s.packets ++ [(id, p)] }).event (.packetRoute id)

/-- Puts a multicast into the router of its source node, with its destinations and the access that it answers at each
(R80). -/
def State.sendMulticast (s : State) (pl : Payload) (parish src : Nat) (dsts : List (Nat × Nat)) : State :=
  let (id, s) := s.fresh
  let p : Packet := { payload := pl, cls := .multicast, parish := parish, epoch := (s.node src).epoch, src := src, dst := src,
                      channel := false, loc := .router src, dsts := dsts }
  ({ s with packets := s.packets ++ [(id, p)] }).event (.packetRoute id)

/-- The step that a packet makes due where it arrives. -/
def arrivalEvent (s : State) (id : Nat) (p : Payload) : Instr :=
  match p with
  | .request acc =>
      match s.access? acc with
      | some a =>
          match a.req with
          | .flagAdd _ => .flagIncrement id
          | .waitFor _ _ => .waitRegistration id
          | _ => .reeveOperation id false
      | none => .reeveOperation id false
  | .reply _ => .replyLands id
  | .ack _ => .acknowledgement id
  | .freed _ => .acknowledgement id
  | .busy _ => .busyNotice id
  | .report _ => .homeReport id
  | .wake .. => .wakeNotice id
  | .wayfarer _ => .wayfarerArrival id
  | .page .. => .stagingDelivery id
  | .change _ c => .tableChange (((s.packet? id).map fun q => chipOfNode q.dst).getD 0) c
  | .drained n => .drainMarker n 0
  | .drainMark n p => .drainMarker n p
  | .refused _ => .acknowledgement id

/-- The node, and whether its channel Reeve, that a request goes to; for a forwarded request a node of
the owner, which finds the channel when it arrives. -/
def targetHome : Target → Nat × Bool
  | .byte pa => homeOfByte pa
  | .forwarded chip _ _ _ => (chip * 24576, true)

/-- Next sequence number from `src` to `dst` (R82). -/
def State.nextSeq (s : State) (src dst : Nat) : Nat × State :=
  let q := AMap.get 0 (s.node src).seqs dst + 1
  (q, s.modNode src fun v => { v with seqs := AMap.set 0 v.seqs dst q })

/-- Registers an access at its source and gives its number. -/
def State.addAccess (s : State) (a : Access) : Nat × State :=
  let (dst, ch) := targetHome a.target
  let (q, s) := s.nextSeq a.src dst
  let (id, s) := s.fresh
  (id, { s with accesses := s.accesses ++ [(id, { a with dst := dst, channel := ch, seq := q })] })

/-- Cycles of the retry timer: 4 µs (R82). -/
def retryCycles : Nat := 16000

/-- A port's rotation time in ns: its slots, each with its guard of 250 ns (R402, R403). -/
def Port.rotationTime (p : Port) : Nat := ((field p.cfg 58 6).toNat + 1) * ((field p.cfg 47 11).toNat * 10 + 250)

/-- The longest rotation time of a chip's ports. -/
def State.rotationTime (s : State) (chip : Nat) : Nat :=
  (s.chip chip).ports.foldl (fun m p => Nat.max m p.2.rotationTime) 0

/-- Cycles of the retry timer of an access between two nodes: 4 µs on the package, and across chips twice the longer rotation
time of the two chips' ports plus 10 µs (R82, R412). -/
def State.retryTime (s : State) (src dst : Nat) : Nat :=
  if chipOfNode dst = chipOfNode src then retryCycles
  else 4 * (2 * Nat.max (s.rotationTime (chipOfNode src)) (s.rotationTime (chipOfNode dst)) + 10000)

/-- Arms the retry timer of an access to a node `dst`, on the clock of its thread's core or of its source node's first
core. -/
def State.armRetry (s : State) (id : Nat) (a : Access) (dst : Nat) : State :=
  s.timer (if nodeOfThread a.thread = a.src then coreOfThread a.thread else a.src * 16) (s.retryTime a.src dst)
    (.event (.retryTimeout id))

/-- Stops the retry timer of an access. -/
def State.dropRetry (s : State) (id : Nat) : State :=
  { s with timers := s.timers.filter fun e => decide (e.2.2 ≠ Due.event (.retryTimeout id)) }

/-- Sends an access through the router as a request (R31), with its retry timer. -/
def State.request (s : State) (a : Access) : Nat × State :=
  let (id, s) := s.addAccess a
  let (dst, ch) := targetHome a.target
  (id, (s.send (.request id) .request a.parish a.src dst ch).armRetry id a dst)

/-- Hands an access straight to the Reeve of its node, with no router hop (R284). -/
def State.requestDirect (s : State) (a : Access) : Nat × State :=
  let (id, s) := s.addAccess a
  let (pk, s) := s.fresh
  let p : Packet := { payload := .request id, cls := .request, parish := a.parish, epoch := 0, src := a.src,
                      dst := a.src, channel := false, loc := .delivered }
  let s := { s with packets := s.packets ++ [(pk, p)] }
  (id, s.event (arrivalEvent s pk p.payload))

/-- Marks a slot whose posted write is dropped for an unreachable chip (R417). DEDUCED, log 18. -/
def State.markDropped (s : State) (t : Nat) (a : Word) : State :=
  s.modSlot t fun c => { c with unreachable := some (c.unreachable.getD a) }

/-! ### Port configuration (Tables 17-1, 17-2) -/

def Port.slots (p : Port) : Nat := (field p.cfg 58 6).toNat + 1
/-- Slot length in units of 10 ns. -/
def Port.slotLength (p : Port) : Nat := (field p.cfg 47 11).toNat
def Port.bank (p : Port) : Nat := (field p.cfg 46 1).toNat
def Port.switchAt (p : Port) : Nat := (field p.cfg 30 16).toNat
def Port.armed (p : Port) : Bool := p.cfg.getLsbD 29
/-- Highest link protocol version offered; the GX9 offers no version above 3 (R416). -/
def Port.offers (p : Port) : Nat := Nat.min 3 (field p.cfg 26 3).toNat

/-- A slot length outside 200 to 2,000, or a failure, keeps a port dark. -/
def Port.isDark (p : Port) : Bool := p.failed || !decide (200 ≤ p.slotLength ∧ p.slotLength ≤ 2000)

/-- Chip and port that a slot-table entry faces. -/
def peerOf (w : Word) : Option (Nat × Nat) :=
  if w.getLsbD 63 then some ((field w 45 18).toNat, (field w 39 6).toNat) else none

def Port.facing (p : Port) (bank slot : Nat) : Option (Nat × Nat) := peerOf (AMap.get 0 p.table (64 * bank + slot))

/-- The peer of the slot now lit. -/
def Port.peer (p : Port) : Option (Nat × Nat) := p.facing p.bank p.slot

/-- The slots of the active bank that face a chip. -/
def Port.slotsFacing (p : Port) (c : Nat) : List Nat :=
  (List.range p.slots).filter fun k => (p.facing p.bank k).map (·.1) == some c

/-- Frame positions of a slot, one every 8 ns (R402). -/
def Port.positions (p : Port) : Nat := p.slotLength * 10 / 8

/-- The slot now lit is the last before an armed change (Table 17-5). -/
def Port.lastSlot (p : Port) : Bool := p.armed && p.slot + 1 == p.slots && (p.rotation + 1) % 65536 == p.switchAt

/-! ### Entries and frames of the Ouvval fabric -/

def State.entry? (s : State) (id : Nat) : Option Entry := find? s.entries id
def State.modEntry (s : State) (id : Nat) (f : Entry → Entry) : State := { s with entries := modRec s.entries id f }
def State.dropEntryRec (s : State) (id : Nat) : State := { s with entries := dropRec s.entries id }

/-- Seals a frame of an entry to a chip and port under the generation in use, and puts it on the fibre (R411, R414). -/
def Port.seal (p : Port) (id : Nat) (peer : Nat × Nat) : Port :=
  let even := p.generation % 2 == 0
  let f : Frame :=
    { number := p.nextFrame, entry := id, peer := peer, generation := p.generation, key := if even then p.key0 else p.key1,
      nonce := if even then p.sealed0 else p.sealed1, failures := 0, flying := true, received := false }
  let p := { p with frames := p.frames ++ [f], nextFrame := p.nextFrame + 1 }
  if even then { p with sealed0 := p.sealed0 + 1 } else { p with sealed1 := p.sealed1 + 1 }

/-- Frames sealed under the generation in use. -/
def Port.used (p : Port) : Nat := if p.generation % 2 = 0 then p.sealed0 else p.sealed1

/-- Seals `n` frames of an entry, whose arrivals come due. -/
def State.sealFrames (s : State) (chip port id : Nat) (peer : Nat × Nat) (n : Nat) : State :=
  (List.range n).foldl (fun s _ => (s.modPort chip port fun p => p.seal id peer).event (.ouvvalFrame chip port true)) s

/-- A control entry of one frame that a port itself sends. -/
def controlEntry (b : EntryBody) (src dst : Nat) : Entry :=
  { body := b, cls := .control, src := src, dst := dst, hop := dst, at' := src, frames := 1, relayed := false }

/-- The drain marker, the last frame of the last slot before a change of tables (Table 17-5, step 2). -/
def State.sendMarker (s : State) (chip port : Nat) : State :=
  let p := s.port chip port
  if p.marked then s
  else
    let s := s.modPort chip port fun p => { p with marked := true }
    match p.peer with
    | some c =>
        let (id, s) := s.fresh
        ({ s with entries := s.entries ++ [(id, controlEntry .drainMarker chip c.1)] }).sealFrames chip port id c 1
    | none => s

/-! ### Keys of the Ouvval fabric (R414, R415) -/

/-- Whether no frame sealed under bank `b` waits for its acknowledgement (R414). -/
def Port.bankFree (p : Port) (b : Nat) : Bool := !(p.frames.any fun f => f.generation % 2 == b)

/-- A key that waits for its bank is loaded once it may be, and new frames take the new generation (R414, R415). At version 2
both banks switch once every frame is acknowledged (Table 17-4). -/
def Port.loadKey (p : Port) : Port :=
  match p.nextKey with
  | none => p
  | some k =>
      let b := (p.generation + 1) % 2
      if (if p.version = 2 then p.frames.isEmpty else p.bankFree b) then
        let p := if b = 0 then { p with key0 := k, sealed0 := 0 } else { p with key1 := k, sealed1 := 0 }
        { p with generation := p.generation + 1, nextKey := none, switching := false }
      else p

/-- Core cycles in 600 s, after which a key is to be rotated at the latest (R415). -/
def rotationCycles : Nat := 2400000000000

/-- The requester's time until the next rotation starts anew. -/
def State.armRotation (s : State) (chip port : Nat) : State :=
  let d : Due := .rotate chip port
  { s with timers := s.timers.filter fun e => decide (e.2.2 ≠ d) }.timer (chip * 24576 * 16) rotationCycles d

/-- A key waits for the idle bank of a port, and is loaded once it may be. -/
def State.takeKey (s : State) (chip port : Nat) (key : BitVec 256) : State :=
  s.modPort chip port fun v =>
    if v.trained ∧ v.nextKey = none then Port.loadKey { v with nextKey := some key, switching := true } else v

/-- KEY_UPDATE: both sides load a new key for each direction into their idle banks and switch new frames to it; a bank that still
has frames not acknowledged waits (R414, R415). -/
def State.updateKeys (s : State) (chip port c q : Nat) (key : BitVec 256) : State :=
  ((s.takeKey chip port (Config.linkKey key chip port)).takeKey c q (Config.linkKey key c q)).armRotation chip port

/-- The requester of a port pair, the chip with the lower number, sends KEY_UPDATE, once both ports have trained (R415). -/
def State.rotateKeys (s : State) (chip port : Nat) : State :=
  match (s.port chip port).peer with
  | some (c, q) =>
      if !(s.port chip port).trained || !(s.port c q).trained then s
      else if chip < c then s.updateKeys chip port c q (Config.updatedKey chip port (s.port chip port).generation)
      else s.updateKeys c q chip port (Config.updatedKey c q (s.port c q).generation)
  | none => s

/-! ### Race detector (R138 to R141) -/

def raceMode (r : Word) : Nat := (field r 0 2).toNat

/-- A wayfarer's identity is that of its home slot (R138). A context that has resumed in another slot goes by the slot in which
it now runs, as its x15 does: the spec gives no other identity to it. DESIGN CHOICE, log 104. -/
def State.raceId (s : State) (t : Nat) : Nat := (s.slot t).home.getD t

/-- What a release, increment or fork of thread `t` carries. -/
def State.stampOf (s : State) (t : Nat) : Stamp :=
  let c := s.slot t
  if raceMode c.race = 0 then {}
  else { writer := s.raceId t, interval := c.interval, table := c.acquired, valid := true }

/-- Merges one pair into an acquire table: the larger interval stays, and the least recently merged
entry of a full table is evicted. -/
def mergePair (tbl : List (Nat × Nat)) (e : Nat × Nat) : List (Nat × Nat) × Bool :=
  let old := (tbl.find? (·.1 == e.1)).map (·.2)
  let rest := tbl.filter (·.1 != e.1)
  let new := rest ++ [(e.1, Nat.max e.2 (old.getD 0))]
  if new.length ≤ 8 then (new, false) else (new.drop 1, true)

/-- Merges what a stamp carries: the entries of its table in their order, then its own pair, which is thus the most
recently merged. The spec gives no order. DESIGN CHOICE, log 88. -/
def mergeStamp (tbl : List (Nat × Nat)) (st : Stamp) : List (Nat × Nat) × Bool :=
  if st.valid then
    (st.table ++ [(st.writer, st.interval)]).foldl (fun acc e =>
      let (n, ev) := mergePair acc.1 e
      (n, acc.2 || ev)) (tbl, false)
  else (tbl, false)

/-- Both threads lie in the same core, node, die, package or system (Table 5-8). -/
def withinScope (sc a b : Nat) : Bool :=
  match sc with
  | 0 => coreOfThread a == coreOfThread b
  | 1 => nodeOfThread a == nodeOfThread b
  | 2 => dieOfNode (nodeOfThread a) == dieOfNode (nodeOfThread b)
  | 3 => chipOfThread a == chipOfThread b
  | _ => true

/-- Merges stamps read by thread identity `me` in an acquire of scope sys. A release whose scope does not hold `me`
does not synchronise with it (R136). -/
def mergeStamps (me : Nat) (tbl : List (Nat × Nat)) (sts : List Stamp) : List (Nat × Nat) × Bool :=
  (sts.filter fun st => withinScope st.scope me st.writer).foldl (fun acc st =>
    let (n, e) := mergeStamp acc.1 st
    (n, acc.2 || e)) (tbl, false)

/-- Thread `t` performs an acquire that reads the given stamps. -/
def State.acquire (s : State) (t : Nat) (sts : List Stamp) : State :=
  let c := s.slot t
  if raceMode c.race = 0 then s
  else
    let (tbl, ev) := mergeStamps (s.raceId t) c.acquired sts
    s.setSlot t { c with acquired := tbl, evicted := c.evicted || ev,
                         interval := Nat.min (c.interval + 1) (2 ^ 32 - 1) }

/-- What an access brings to the detector: who, with which table, under which race register. -/
structure Accessor where
  stamp : Stamp
  race : Word
  evicted : Bool
  parish : Nat
  chip : Nat
  thread : Nat
  user : Bool
  deriving DecidableEq, Repr

def State.accessor (s : State) (t : Nat) : Accessor :=
  let c := s.slot t
  { stamp := { writer := s.raceId t, interval := c.interval, table := c.acquired, valid := true },
    race := c.race, evicted := c.evicted, parish := c.parish, chip := chipOfThread t, thread := t, user := !c.pl }

/-- Kinds of Table 5-11. -/
def kLoad : Nat := 0
def kStore : Nat := 1
def kAtomic : Nat := 2
def kEngineRead : Nat := 3
def kEngineWrite : Nat := 4

/-- The shadow state conflicts with an access (R138). -/
def races (sh : Shadow) (who : Accessor) (atomic : Bool) (scope : Nat) : Bool :=
  sh.valid && sh.writer != who.stamp.writer &&
    !(atomic && sh.atomic && withinScope sh.scope who.stamp.writer sh.writer &&
      withinScope scope who.stamp.writer sh.writer) &&
    !(who.stamp.table.any fun e => e.1 == sh.writer && decide (sh.interval ≤ e.2))

/-- The record of Table 5-11. -/
def raceRecord (who : Accessor) (addr : Word) (sh : Shadow) (gen kind scope : Nat) : List Word :=
  [identityOf who.stamp.writer, addr, identityOf sh.writer,
   BitVec.ofNat 64 (sh.interval * 2 ^ 32 + gen * 2 ^ 16 + kind * 2 ^ 12 + sh.scope * 2 ^ 9 +
     scope * 2 ^ 6 + (if who.evicted then 32 else 0))]

/-! ### Stores, stamps and shadow -/

/-- Removes the stamps of written bytes: a plain write heads no release sequence (R127). -/
def State.dropStamps (s : State) (pas : List Nat) : State :=
  if s.stamps.isEmpty then s else { s with stamps := pas.foldl (fun m pa => AMap.set [] m pa []) s.stamps }

/-- The written bytes head the release sequence of `st`. -/
def State.headStamps (s : State) (pas : List Nat) (st : Stamp) : State :=
  if st.valid then { s with stamps := pas.foldl (fun m pa => AMap.set [] m pa [st]) s.stamps }
  else s.dropStamps pas

/-- A read-modify-write that is itself a release adds its stamp to the sequence (R127). -/
def State.addStamps (s : State) (pas : List Nat) (st : Stamp) : State :=
  if st.valid then
    { s with stamps := pas.foldl (fun m pa => AMap.set [] m pa (AMap.get [] m pa ++ [st])) s.stamps }
  else s

def State.stampsAt (s : State) (pa : Nat) : List Stamp := AMap.get [] s.stamps pa

/-- The stamps that a read of `n` bytes from `pa` takes in, each once. -/
def State.stampsIn (s : State) (pa n : Nat) : List Stamp :=
  if s.stamps.isEmpty then []
  else (consecutive pa n).foldl (fun l b => l ++ (s.stampsAt b).filter fun st => !l.contains st) []

/-- Words of which every byte is written have fresh check bits. -/
def State.refreshed (s : State) (l : List Nat) : State :=
  if s.errors.isEmpty then s
  else { s with errors := s.errors.filter fun e => !((List.range 8).all fun i => l.contains (8 * e.1 + i)) }

/-- An ordinary write of bytes at their home. -/
def State.write (s : State) (l : List (Nat × Byte)) : State :=
  ((s.setBytes l).dropStamps (l.map (·.1))).refreshed (l.map (·.1))

/-- The chip whose replica of the parish's table the Vestry uses. -/
def Parish.replica (p : Parish) : Nat :=
  if p.firstChip ≤ p.hostChip ∧ p.hostChip < p.firstChip + p.chips then p.hostChip else p.firstChip

def Captured.bytes (c : Captured) : List Byte :=
  match c with
  | .command seq bs => Config.captureBytes 0 [seq] bs
  | .copied seq bs => Config.captureBytes 1 [seq] bs
  | .seeds a b r => Config.captureBytes 2 [a.toNat, b.toNat, r.toNat] []
  | .accepted n r => Config.captureBytes 3 [n, r.toNat] []

/-- Bytes of a capture object. DESIGN CHOICE, log 76. -/
def captureSize : Nat := 2 ^ 21

/-- Replay capture records what has come to pass: after what its object holds, as far as that has room (R441). DESIGN CHOICE,
log 76. -/
def State.capture (s : State) (n : Nat) (c : Captured) : State :=
  let p := s.parish n
  if !p.captureOn then s
  else
    let bs := c.bytes.take (captureSize - p.captureAt)
    let places := (List.range bs.length).filterMap fun i =>
      s.resolve p.replica n (BitVec.ofNat 64 (p.captureObj * 2 ^ 40 + p.captureAt + i))
    (s.write (places.zip bs)).modParish n fun p =>
      { p with captured := p.captured ++ [c], captureAt := p.captureAt + bs.length }

/-- The lines or sectors of `n` bytes from `pa` have no writer: a window has been allocated there, or an object created or
freed (R138). -/
def State.clearShadow (s : State) (pa n : Nat) : State :=
  { s with shadow := s.shadow.filter fun e => !(decide (lineOf pa ≤ e.1) && decide (128 * e.1 < pa + n)) }

/-! ### Flags (R96) -/

/-- What becomes of one watch entry when the flag, which was `old` before the change, now holds
`cur`. -/
inductive WatchFate where
  | keep
  | satisfied
  | overrun
  deriving DecidableEq, Repr

def watchFate (w : Watch) (old cur : Word) : WatchFate :=
  if w.n = cur then .satisfied
  else if old < w.n ∧ w.n < cur then .overrun
  else .keep

/-- Examines the entries that watch the flag at `pa` in entry order: the value that results, and the
entries that end with whether they were overrun. -/
def examine (old : Word) (pa : Nat) : List Watch → Word → Word × List (Watch × Bool)
  | [], cur => (cur, [])
  | w :: ws, cur =>
      if w.flag = pa then
        match watchFate w old cur with
        | .keep => examine old pa ws cur
        | .overrun => let (v, l) := examine old pa ws cur; (v, (w, true) :: l)
        | .satisfied =>
            let (v, l) := examine old pa ws (if w.subtracts then cur - w.n else cur)
            (v, (w, false) :: l)
      else examine old pa ws cur

/-- Sends the wake notice of a wait on the control class (R97). -/
def State.wakeNoticeFor (s : State) (home : Nat) (thread acc : Nat) (overrun : Bool) (sts : List Stamp)
    (parish : Nat) : State :=
  s.send (.wake thread acc overrun sts) .control parish home (nodeOfThread thread) false

/-- The flag at byte `pa`, which was `old`, has become `new`: its home examines the waits on it (R96). -/
def State.examineFlag (s : State) (pa : Nat) (old new : Word) (parish : Nat) : State :=
  let home := (homeOfByte pa).1
  let (v, ended) := examine old pa (s.node home).watches new
  let sts := s.stampsIn pa 8
  let s := s.setBytes (bytesAt pa 8 v)
  let s := s.modNode home fun n =>
    { n with watches := n.watches.filter fun w => !(ended.any fun e => e.1.index == w.index) }
  ended.foldl (fun s e => s.wakeNoticeFor home e.1.thread e.1.acc e.2 sts parish) s

/-- Changes the flag at byte `pa` to `new` at one point of its Reeve's order (R96). -/
def State.changeFlag (s : State) (pa : Nat) (new : Word) (st : Stamp) (parish : Nat) : State :=
  (s.addStamps (consecutive pa 8) st).examineFlag pa (s.loadLE pa 8) new parish

/-- `s'` is `s` after a write of some bytes: each watched flag among them has changed, and is examined (R96, R144). -/
def State.examineWritten (s s' : State) (pas : List Nat) (parish : Nat) : State :=
  match pas with
  | [] => s'
  | b :: _ =>
      let flags := ((s.node (homeOfByte b).1).watches.filter fun w => pas.any fun pa => pa / 8 == w.flag / 8).foldl
        (fun l w => NSet.insert l w.flag) []
      flags.foldl (fun s' f => s'.examineFlag f (s.loadLE f 8) (s'.loadLE f 8) parish) s'

/-- The address of the record that a log whose count is `k` takes next (R140). -/
def logSlot (lbase : Word) (lsize k : Nat) : Word := lbase + BitVec.ofNat 64 (128 + 32 * (k % 2 ^ (lsize + 3)))

/-- Writes a race record to its log (R140): a counted write of the record in slot k mod N, where k is what the count at lbase
holds as the report is made, whose flag is that count. The record's home performs the write and then sends the increment
(R90). False when the write fails a check of Table 2-9 or R27. DEDUCED, log 89. -/
def State.logRace (s : State) (who : Accessor) (rec : List Word) : State × Bool :=
  let lbase := who.race &&& ~~~(0x7F : Word)
  let lsize := (field who.race 4 3).toNat
  let target (a : Word) (n : Nat) : Option Target :=
    if isPlace a then
      match s.checkPlace who.chip who.parish a n true with
      | none => some (.byte (placeByte who.chip a))
      | some _ => none
    else
      match checkEntry (s.obj who.chip who.parish (handleObj a)) (handleObj a) (handleOff a) n rW who.user with
      | some _ => none
      | none =>
        match s.checkResidency who.chip who.parish (handleObj a) (handleOff a) a false with
        | .ok t => some t
        | _ => none
  match s.resolve who.chip who.parish lbase with
  | some base =>
      let at' := logSlot lbase lsize (s.loadLE base 8).toNat
      match target lbase 8, target at' 32 with
      | some _, some t =>
          let s := if isPlace at' then s else s.countExtent who.chip who.parish (handleObj at') (handleOff at')
          ((s.request { req := .logRecord rec, target := t, addr := at', thread := who.thread, parish := who.parish,
                        src := nodeOfThread who.thread, dst := 0, channel := false, seq := 0, posted := false,
                        takesPlace := false, flag := some lbase, info := { stamp := who.stamp } }).2, true)
      | _, _ => (s, false)
  | none => (s, false)

/-- Checks one access to the line or sector of byte `pa`, reports a race (R140) and updates the shadow
state (R138). The second part is the tval of the trap, if the access traps. -/
def State.raceAccess (s : State) (who : Accessor) (pa : Nat) (addr : Word) (gen kind : Nat)
    (atomic : Bool) (scope : Nat) (writes : Bool) : State × Option Word :=
  let mode := raceMode who.race
  if mode = 0 then (s, none)
  else
    let l := lineOf pa
    let sh : Shadow := AMap.get {} s.shadow l
    let mark (s : State) : State :=
      if writes then
        let v : Shadow := { valid := true, writer := who.stamp.writer, interval := who.stamp.interval,
                            scope := scope, atomic := atomic }
        { s with shadow := AMap.set {} s.shadow l v }
      else s
    if races sh who atomic scope then
      let (s, logged) := if mode = 1 || mode = 3 then s.logRace who (raceRecord who addr sh gen kind scope)
                         else (s, true)
      if !logged then (s, some (who.race &&& ~~~(0x7F : Word)))
      else if mode = 1 then (mark s, none)
      else (s, some addr)
    else (mark s, none)

/-- Marks the line or sector of byte `pa` as written by thread `t`, for an operation that stores only as its home performs
it (R138). DEDUCED, log 91. -/
def State.raceMark (s : State) (t pa scope : Nat) : State :=
  if raceMode (s.slot t).race = 0 || (pa < hbmBase && !hasLineState (lineOf pa)) then s
  else
    let v : Shadow := { valid := true, writer := s.raceId t, interval := (s.slot t).interval, scope := scope, atomic := true }
    { s with shadow := AMap.set {} s.shadow (lineOf pa) v }

/-- The race check of a scalar access of the current thread at the resolved byte. An owner that has no byte for it yet has its
home make the check (`Access.unraced`). -/
def State.raceScalar (s : State) (t : Nat) (target : Target) (addr : Word) (kind : Nat) (atomic : Bool)
    (scope : Nat) (writes : Bool) : State × Option Word :=
  match s.targetByte target with
  | some pa =>
      let gen := if isPlace addr then 0 else (s.obj (chipOfThread t) (s.slot t).parish (handleObj addr)).gen
      if pa < hbmBase && !hasLineState (lineOf pa) then (s, none)
      else s.raceAccess (s.accessor t) pa addr gen kind atomic scope writes
  | none => (s, none)

/-- The race checks of a plain access of thread `t` at window offset `o` to some bytes of its own core, a line at a time. -/
def State.raceBytes (s : State) (t : Nat) (o : Word) (pas : List Nat) (kind : Nat) (writes : Bool) : State × Option Word :=
  let lines := pas.foldl (fun l pa => if l.contains (lineOf pa) then l else l ++ [lineOf pa]) []
  lines.foldl (fun acc l =>
    match acc.2 with
    | some _ => acc
    | none =>
        acc.1.raceAccess (acc.1.accessor t) (128 * l) o 0 kind false 4 writes)
    (s, none)

/-! ### The store buffer (R125) -/

/-- A buffered store with the bytes it is still to write; none once its home has performed it (R126). -/
def State.unperformed (s : State) (b : BufferedStore) : BufferedStore × List (Nat × Byte) :=
  (b, match s.access? b.acc with
    | some a =>
        if a.performed then []
        else
          match s.targetByte a.target with
          | some pa => b.bytes.map fun e => (pa + e.1, e.2)
          | none => []
    | none => [])

/-- The youngest of some buffered stores to byte `pa`. -/
def youngest (buf : List (BufferedStore × List (Nat × Byte))) (pa : Nat) : Option (Byte × BufferedStore) :=
  buf.foldl (fun acc b =>
    match b.2.find? (·.1 == pa) with
    | some e => some (e.2, b.1)
    | none => acc) none

/-- The store buffer of the core of thread `t`, oldest store first. -/
def State.bufferOf (s : State) (t : Nat) : List (BufferedStore × List (Nat × Byte)) :=
  (s.core (coreOfThread t)).buffer.map s.unperformed

/-- Bytes of a load that the store buffer supplies, by index, and the siblings' stores read early. A release of a sibling
is never read early (R126). DEDUCED, log 16. -/
def State.overlay (s : State) (t : Nat) (pas : List Nat) : List (Nat × Byte) × List Nat :=
  let buf := (s.bufferOf t).filter fun b => b.1.thread == t || !b.1.release
  if buf.isEmpty then ([], [])
  else
    pas.zipIdx.foldl (fun acc e =>
      match youngest buf e.1 with
      | some (b, st) =>
          (acc.1 ++ [(e.2, b)], if st.thread == t || acc.2.contains st.acc then acc.2 else acc.2 ++ [st.acc])
      | none => acc) ([], [])

def applyOverlay (bs : List Byte) (ov : List (Nat × Byte)) : List Byte :=
  ov.foldl (fun l e => listSet l e.1 e.2) bs

/-- Records the siblings' stores a thread has read early (R121). -/
def State.readEarly (s : State) (t : Nat) (accs : List Nat) : State :=
  if accs.isEmpty then s else s.modSlot t fun c => { c with early := c.early ++ accs }

/-! ### A thread's own accesses to the same bytes (R124) -/

/-- Bytes from its target that a request reads or writes at its home, for a thread's own accesses. -/
def Req.span : Req → Nat
  | .load n | .cas n _ _ => n
  | .store bs => bs.length
  | .amo _ ty _ => if ty = 0 ∨ ty = 2 then 4 else 8
  | .casBlock e _ => e.length
  | .enq _ | .deq => 32
  | .lines _ n => 128 * n
  | .lineState => 0
  | _ => 8

/-- The bytes of a request at byte `pa`: of a ring, its header and its entries. -/
def State.spanAt (s : State) (r : Req) (pa : Nat) : Nat :=
  match r with
  | .enq _ | .deq => 32 + 8 * Nat.min ((s.loadLE (pa + 16) 8).toNat + 1) 4096
  | r => r.span

/-- An access is its thread's own: it belongs to no operation, or to one that is past its completion point (R290). -/
def State.ofThread (s : State) (a : Access) : Bool := a.op == 0 || (s.op? a.op).isNone

/-- A posted access of a thread, not of its operations, that its home has not performed. -/
def State.open' (s : State) (a : Access) : Bool := a.posted && !a.performed && s.ofThread a

/-- A store of a thread itself, which its core's store buffer holds (R125); the writes of engines never enter it. -/
def Access.isStore (a : Access) : Bool :=
  a.op == 0 &&
    match a.req with
    | .store _ => true
    | _ => false

/-- Two runs of bytes meet. -/
def meet (p n q m : Nat) : Bool := decide (p < q + m) && decide (q < p + n)

/-- An access touches some of `n` bytes from `pa`. -/
def State.touches (s : State) (a : Access) (pa n : Nat) : Bool :=
  match s.targetByte a.target with
  | some q => meet q (s.spanAt a.req q) pa n
  | none => false

/-- An older access that a new one of thread `t` to `n` bytes from `pa` comes after: the thread's own, and for one that
writes also the stores of its core's buffer. A load finds buffered stores in the buffer; the writes of a TST or a TCOPY that
has completed are in none, and a load waits for them (R124, R126, R290). -/
def State.before (s : State) (a : Access) (t : Nat) (writes : Bool) (pa n : Nat) : Bool :=
  s.open' a && (if a.isStore then writes && coreOfThread a.thread == coreOfThread t else a.thread == t && a.saved == 0) &&
    s.touches a pa n

/-- The access that a local access of thread `t` waits for (R124), or that a load waits for because it is a sibling's
release to one of its bytes (R126). -/
def State.heldBack (s : State) (t : Nat) (writes : Bool) (pas : List Nat) : Option Nat :=
  if s.accesses.isEmpty then none
  else
    match s.accesses.find? fun e => pas.any fun pa => s.before e.2 t writes pa 1 with
    | some e => some e.1
    | none =>
        if writes then none
        else
          pas.findSome? fun pa =>
            match youngest (s.bufferOf t) pa with
            | some (_, b) => if b.release && b.thread != t then some b.acc else none
            | none => none

/-- The reads of a thread itself, and of its LAUNCH, which take bytes from the store buffer (R125). -/
def Reader.isThread : Reader → Bool
  | .thread | .launch _ => true
  | _ => false

/-- A request is one of its thread's own accesses, and not an increment or a record that the hardware sends for it. -/
def Access.isOwn (a : Access) : Bool :=
  a.op == 0 && a.reader.isThread &&
    match a.req with
    | .flagAdd _ => a.posted
    | .logRecord _ | .page .. | .tableChange _ | .deliver _ | .adds .. => false
    | _ => true

/-- Access `id` waits at its home for an older one of its thread to the same bytes. A chase, which may read any bytes,
waits for all of them. -/
def State.mustWait (s : State) (id : Nat) (a : Access) : Bool :=
  a.isOwn && s.accesses.any fun e => decide (e.1 < id) &&
    match a.req, s.targetByte a.target with
    | .chase .., _ => s.open' e.2 && e.2.thread == a.thread
    | .load n, some pa => s.before e.2 a.thread false pa n
    | .lineState, _ => false
    | r, some pa => s.before e.2 a.thread true pa (s.spanAt r pa)
    | _, none => false

/-- Access `id` has been performed, or is gone: what waited for it at its home goes on, and the thread that it held
back tries again. -/
def State.pokeTurns (s : State) (id : Nat) : State :=
  let s := s.packets.foldl (fun s e =>
    if e.2.loc = .waitingTurn then
      (s.modPacket e.1 fun p => { p with loc := .delivered }).event (arrivalEvent s e.1 e.2.payload)
    else s) s
  s.wakeIf fun _ c => parkedOn (.store id) c

/-- The commands that access `id` of thread `t` held up, or that waited for its window place, go on. -/
def State.resumeOps (s : State) (id t : Nat) : State :=
  let l : List (Nat × EngOp) := s.ops.map fun e => (e.1, { e.2 with fence := e.2.fence.filter (· != id) })
  l.foldl (fun s e =>
    if (e.2.thread == t || e.2.core == coreOfThread t) && decide (e.2.state = .running) && !e.2.finished then s.pushOnce (.command e.1) else s)
    { s with ops := l }

/-- Multicasts that wait for a place try again (R80). -/
def State.pokeForks (s : State) : State :=
  s.packets.foldl (fun s e =>
    match e.2.loc with
    | .waitingFork n => s.pushOnce (.event (.forkBufferSend n e.1))
    | .seam _ _ => if e.2.cls = .multicast then s.pushOnce (.event (.gatewayFrame e.1 true)) else s
    | _ => s) s

/-- The node of a chip at which multicasts enter and leave the Vestry: a Belfry gateway's node of die 0. DESIGN CHOICE, log 101. -/
def vestryNode (chip : Nat) : Nat := nodeKey chip 0 31 23

/-- The parish supervisor issues a table change: one ordered multicast to every chip of the parish (R46, R81), from the
Vestry of its first chip. DESIGN CHOICE, log 57. -/
def State.issueChange (s : State) (parish : Nat) (c : Change) (transit : Nat) : State :=
  let (id, s) := s.fresh
  let p := s.parish parish
  let chips := (List.range p.chips).map (p.firstChip + ·)
  let v : ChangeState := { parish := parish, change := c, chips := chips, transit := transit }
  let s := { s with changes := AMap.set {} s.changes id v }
  let n := vestryNode p.firstChip
  let s := chips.foldl (fun s k => s.modChip k fun c => { c with changes := c.changes ++ [id] }) s
  let (ds, s) := chips.foldl (fun (acc : List (Nat × Nat) × State) k =>
    let m := vestryNode k
    let a : Access :=
      { req := .tableChange id, target := .byte (coreByte (16 * m) 0), addr := placeOf (16 * m) 0, thread := 128 * n,
        parish := parish, src := n, dst := m, channel := false, seq := 0, posted := false, takesPlace := false }
    let (q, s) := acc.2.addAccess a
    (acc.1 ++ [(m, q)], s.armRetry q a m)) ([], s)
  s.sendMulticast (.change (ds.map (·.2)) id) parish n ds

/-- Changes whose acknowledgement access `id` held up are looked at again (R47). -/
def State.resumeChanges (s : State) (id : Nat) : State :=
  s.changes.foldl (fun s e =>
    if e.2.waitFor.contains id then
      let v : ChangeState := { e.2 with waitFor := e.2.waitFor.filter (· != id) }
      v.applied.foldl (fun s k => s.event (.tableChangeAcknowledge k e.1)) { s with changes := AMap.set {} s.changes e.1 v }
    else s) s

/-- The passes that access `id` held up go on (R398). -/
def State.resumePasses (s : State) (id : Nat) : State :=
  s.dies.foldl (fun s d => d.2.rolls.foldl (fun s r =>
    if r.2.running.any (fun p : Pass => p.snap.fence.contains id) then s.event (.pageWalk d.1 r.1) else s) s) s

/-- An access leaves the source: its window place frees, its store leaves the buffer, and threads that
waited for either, and commands it held up (R129), are tried again (R115, R121, R125). -/
def State.retireAccess (s : State) (id : Nat) : State :=
  match s.access? id with
  | none => s
  | some a =>
      let s : State := { s with accesses := dropRec s.accesses id }.dropRetry id
      let s := if (s.core (coreOfThread a.thread)).buffer.any (·.acc == id) then
          s.modCore (coreOfThread a.thread) fun c => { c with buffer := c.buffer.filter (·.acc != id) }
        else s
      let s := s.slots.foldl (fun s e =>
        if e.2.early.contains id then s.modSlot e.1 fun c => { c with early := c.early.filter (· != id) }
        else s) s
      let s := (((s.resumePasses id).resumeChanges id).pokeTask a.task).pokeTurns id
      let s := if parkedOn .code (s.slot a.thread) then s.event (.codeCacheFill a.thread) else s
      (s.resumeOps id a.thread).wakeIf fun t c =>
        (parkedOn .window c && t == a.thread) || (parkedOn .release c && s.released t) ||
          (match c.state with
           | .parked (.launch _) => coreOfThread t == coreOfThread a.thread
           | _ => false)

/-- A base access of thread `t` at address `a`. -/
def State.newAccess (s : State) (t : Nat) (req : Req) (target : Target) (addr : Word) (posted : Bool) : Access :=
  { req := req, target := target, addr := addr, thread := t, task := (s.slot t).task, parish := (s.slot t).parish, src := nodeOfThread t,
    dst := 0, channel := false, seq := 0, posted := posted }

/-- Sends an increment to the byte of its flag. -/
def State.increment (s : State) (from' : Nat) (thread parish : Nat) (t : Target) (flag : Word) (st : Stamp) : State :=
  (s.request { req := .flagAdd 1, target := t, addr := flag, thread := thread, parish := parish, src := from', dst := 0,
               channel := false, seq := 0, posted := false, takesPlace := false, info := { stamp := st, release := true } }).2

/-- Sends the increment of a counted write to its flag, from the home of its data or from the issuing
node (R90); an unreachable flag is never counted (R418). The count of a race log may lie in an object (R140), seen by the chip
of its thread. DEDUCED, log 23. DEDUCED, log 34. -/
def State.countFlag (s : State) (from' : Nat) (thread parish : Nat) (flag : Word) (st : Stamp) : State :=
  let here := chipOfNode from'
  if !isPlace flag then
    let c := chipOfThread thread
    match s.checkResidency c parish (handleObj flag) (handleOff flag) flag false with
    | .ok t => (s.countExtent c parish (handleObj flag) (handleOff flag)).increment from' thread parish t flag st
    | _ => s
  else
    let f := if flag.getLsbD 62 then placeOf (placeCore (chipOfThread thread) flag) (placeOffset flag) else flag
    if s.reaches here (placeChip here f) then s.increment from' thread parish (.byte (placeByte here f)) f st else s

end Sys2Proof.Machine
end

