-- ==== Sys2Proof/Machine/Round.lean ====
section
/-! DEFINITION. The round (R157 to R161), instruction fetch (R189, R258, R449), and which step comes
next (log 1). -/

namespace Sys2Proof.Machine

/-- The slot that issues on a core in its present cycle (R158), searching from the `i`-th slot after the
last. -/
def issuingSlotFrom (s : State) (core : Nat) : Nat → Option Nat
  | 0 => none
  | n + 1 =>
      let c := s.core core
      let i := (c.last + (8 - n)) % 8
      if (s.slot (core * 8 + i)).state = .ready ∧ (s.slot (core * 8 + i)).preempt = none ∧ (c.cyc.toNat : Int) - c.lastc.toList.getD i 0 ≥ 4 then some i
      else issuingSlotFrom s core n

def issuingSlot (s : State) (core : Nat) : Option Nat := issuingSlotFrom s core 8

/-- The channel of an edge node: 32·s + k (R63). -/
def channelOf (n : Nat) : Option Nat :=
  if meshX n = 0 then some (meshY n) else if meshX n = 95 then some (256 + meshY n) else none

/-- A scrubber reads `n` bytes from `pa`: what can be corrected is corrected and counted, and each uncorrectable error is
reported. -/
def State.scrubAt (s : State) (pa n : Nat) : State :=
  (wordsIn pa n).foldl (fun s w =>
    if AMap.get 0 s.errors w = 2 then s.machineCheck (counterOf pa / 16) (if pa < hbmBase then 0 else 1) (BitVec.ofNat 64 (8 * w))
    else s) (s.correct pa n)

/-- The first byte of line `j` of a channel: 512 lines of each of its stack's frames (R63, R64). -/
def channelLine (chip channel j : Nat) : Nat :=
  let i := j % 512
  hbmByte chip ((channel / 32 + 16 * (j / 512)) * 2 ^ 21 + 256 * (32 * (i / 2) + channel % 32) + 128 * (i % 2))

/-- The channel Reeve of node `n` scrubs the next line of its 2 GiB. -/
def State.scrubChannel (s : State) (n chip channel : Nat) : State :=
  (s.scrubAt (channelLine chip channel (s.node n).scrubLine) 128).modNode n fun v =>
    { v with scrubLine := (v.scrubLine + 1) % 2 ^ 24 }

/-- Core cycles in which a channel Reeve scrubs one of 2^24 lines in a pass of 64 s (R87). -/
def channelScrubCycles : Nat := 15258

/-- The scrubber of a core reads one line every 4,096 core cycles, and a channel Reeve goes through its channel in 64 s, by
the clock of its node's first core (R87). -/
def State.tick (s : State) (core : Nat) : State :=
  let cyc := (s.core core).cyc.toNat
  let s := if cyc % 4096 = 0 then s.event (.scrub core .clean) else s
  match (channelOf (nodeOfCore core)).filter fun _ => core % 16 == 0 && cyc % channelScrubCycles == 0 with
  | some c => s.scrubChannel (nodeOfCore core) (chipOfCore core) c
  | none => s

/-- A core cycle passes with no issue (R158, R245). -/
def State.idle (s : State) (core : Nat) : State := (s.modCore core fun c => { c with cyc := c.cyc + 1 }).tick core

/-- The cycle in which slot `i` of a core issues (R158). DEDUCED, log 13. -/
def State.takeCycle (s : State) (core i : Nat) : State :=
  (s.modCore core fun c =>
    { c with cyc := c.cyc + 1, last := i, lastc := c.lastc.setIfInBounds i (c.cyc.toNat : Int) }).tick core

/-- What a fetch brings. -/
inductive Fetched where
  | word (w : Word32)
  | trap (cause : Nat)
  | miss
  | moving
  deriving DecidableEq, Repr

/-- The bytes of line `l` of an object in a node's code cache (R449). -/
def cachedLine (n : Node) (key l : Nat) : Option (List Byte) :=
  (n.codeCache.find? fun e => e.1 == key && e.2.1 == l).map (·.2.2)

/-- The fetch at the PC of thread `t` (R189, R258): alignment, a handle, Table 2-9 with right X, then the
node's code cache. -/
def State.fetch (s : State) (t : Nat) : Fetched :=
  let c := s.slot t
  let chip := chipOfThread t
  if c.pc.toNat % 4 ≠ 0 then .trap 0x05
  else if isPlace c.pc then .trap 0x08
  else
    let o := handleObj c.pc
    let off := handleOff c.pc
    match checkEntry (s.obj chip c.parish o) o off 4 rX (!c.pl) with
    | some k => .trap k
    | none =>
      match cachedLine (s.node (nodeOfThread t)) (objKey c.parish chip o) (off / 128) with
      | some bs => .word (BitVec.ofNat 32 (ofLittleEndian ((bs.drop (off % 128)).take 4)))
      | none =>
        match s.residency chip c.parish o off with
        | .unbacked => .trap 0x09
        | .moving => .moving
        | _ => .miss

/-- The step that comes next: an instruction to run from a state, or a state already reached. -/
inductive Selected where
  | run (i : Instr) (s : State)
  | done (s : State)
  deriving DecidableEq, Repr

/-- The instruction `w` is in issue in the current thread: steps 1 to 4 of Table 8-11 trap with the word
as tval; otherwise it runs. -/
def State.decodeHere (s : State) (w : Word32) : Selected :=
  match decodeWord w with
  | .ok i => .run i s
  | .error .illegal => .done (s.trap 0x01 (w.setWidth 64))
  | .error .reserved => .done (s.trap 0x02 (w.setWidth 64))

/-- A core's cycle: the issue of the slot that R158 chooses, with its fetch. DEDUCED, log 20. -/
def State.issueOn (s : State) (core : Nat) : Selected :=
  if (s.chip (chipOfCore core)).off then .done s
  else match issuingSlot s core with
  | none => .done (s.idle core)
  | some i =>
    let t := core * 8 + i
    let s := { s with cur := t, focus := core }
    let pc := (s.slot t).pc
    match s.fetch t with
    | .trap k => .done ((s.takeCycle core i).trapIn t k pc)
    | .miss => .done (((s.takeCycle core i).park .code).event (.codeCacheFill t))
    | .moving => .done ((s.takeCycle core i).park .code)
    | .word w =>
      ((s.modHere fun c => { c with issued := c.issued + 1, word := w }).takeCycle core i).decodeHere w

/-- A parked thread whose instruction is tried again when its wait may have ended. -/
def retried (st : SlotState) : Bool :=
  match st with
  | .parked (.line _) | .parked .window | .parked .release | .parked .join | .parked .arrival
  | .parked .borrow | .parked (.store _) | .parked (.launch _) | .parked (.board _) | .parked (.queue _) | .parked .granary | .parked (.moving _) => true
  | _ => false

/-- A parked instruction that completes before its slot is saved (Table 11-10). -/
def midway (st : SlotState) : Bool :=
  match st with
  | .parked .release | .parked (.store _) | .parked (.launch _) => true
  | _ => false

/-- The end of a slot: the dark guard begins, in which nothing is admitted (R402, R429). The last slot before a change of tables
ends with the drain marker (R423). -/
def State.endSlot (s : State) (chip port slot rotation : Nat) : State :=
  let p := s.port chip port
  if p.lit && p.slot == slot && p.rotation == rotation then
    let s := if p.locked && p.lastSlot then s.sendMarker chip port else s
    s.modPort chip port fun p => { p with lit := false }
  else s

/-- A due step is taken. -/
def State.take (s : State) (d : Due) (notice : State → Notice → Nat → Nat → State) : Selected :=
  match d with
  | .event i => .run i s
  | .command op =>
      match s.op? op with
      | some o =>
          match decodeCommand o.word with
          | .ok i => .run i { s with curOp := op, cur := o.thread }
          | .error _ => .done s
      | none => .done s
  | .again t =>
      if retried (s.slot t).state && ((s.slot t).preempt.isNone || midway (s.slot t).state) then { s with cur := t }.decodeHere (s.slot t).word else .done s
  | .notice n p c => .done (notice s n p c)
  | .slotEnd c p k r => .done (s.endSlot c p k r)
  | .rotate c p => .done (s.rotateKeys c p)
  | .ready c => .done (s.modChip c fun v => if v.stage = 6 then { v with stage := 7 } else v)

/-- The first timer of a core that is due in its present cycle. -/
def dueTimer (s : State) (core : Nat) : Option (Nat × Nat × Due) :=
  s.timers.find? fun e => e.1 == core && decide (e.2.1 ≤ (s.core core).cyc.toNat)

/-- The supervisor pre-empts a slot (R181): its save gives reason 1. -/
def State.preemptSlot (s : State) (t : Nat) : State :=
  match (s.slot t).state with
  | .ready | .parked _ => (s.modSlot t fun c => { c with preempt := some 1 }).event (.contextSave t)
  | _ => s

/-- A soft error in a node's task board, which finds it as it next reads the word: corrected and counted, or reported
(R88). DESIGN CHOICE, log 103. -/
def State.boardUpset (s : State) (node : Nat) (u : Bool) : State :=
  if u then s.machineCheck node 0 0 else s.modCore (node * 16) fun c => { c with corrected := c.corrected + 1 }

/-- A soft error in a router buffer, a fork buffer or the queue of a gateway: the packet that stands there is corrected, or lost,
and R82 recovers it (R87, R88). DESIGN CHOICE, log 103. -/
def State.packetUpset (s : State) (pk : Nat) (u : Bool) : State :=
  match s.packet? pk with
  | some p =>
      match p.loc with
      | .router n | .waitingFork n | .seam n _ =>
          let s := s.boardUpset n u
          if u then ((s.dropPacket pk).modNode n fun v => { v with forks := v.forks.filter (· != pk) }).pokeForks else s
      | _ => s
  | none => s

/-- Removes the first element equal to `a`. -/
def dropOne {α : Type} [DecidableEq α] (l : List α) (a : α) : List α :=
  match l with
  | [] => []
  | b :: r => if b = a then r else b :: dropOne r a

/-- An input is one of the hardware's own steps. -/
def isHardwareStep (i : Instr) : Bool := i.guard?.isNone && i.command?.isNone

/-- A step that comes at a core's own cycle has come to it (R252, R259), and the chip that a hello, a matching or a setting of
the Vestry comes to has power (R444). -/
def State.inputDue (s : State) (i : Instr) : Bool :=
  match i with
  | .slotStart c _ _ | .helloFrame c _ _ | .darkPeriodMissed c _ | .rotorRelock c _ | .ouvvalFrame c _ _ | .channelScrub c _ _ |
    .keyRotationTimer c _ | .keyUpdate c _ _ | .rotorTableChange c _ => !(s.chip c).off
  | .clusterReset c | .clusterRelease c => !(s.chip c.chip).off
  | .routeTableWrite n _ _ _ | .swapMarker n | .tollHoldLimit n => !(s.chip (chipOfNode n)).off
  | .tollCountSet d _ | .dieOverTemperature d => !(s.chip (d / 8)).off
  | .longOpResult t | .yieldExpiry t =>
      s.timers.any fun e => decide (e.2.2 = .event i) && decide (e.2.1 ≤ (s.core (coreOfThread t)).cyc.toNat)
  | _ => true

/-- The next step: the environment's choice if there is one; otherwise a timer of the focus core, the
oldest due step, or a core cycle (log 1). DESIGN CHOICE, log 1. -/
def State.select (s : State) (notice : State → Notice → Nat → Nat → State) : Selected :=
  match s.order with
  | .issue c :: r =>
      match dueTimer s c with
      | some e => { s with timers := dropOne s.timers e }.take e.2.2 notice
      | none => { s with order := r }.issueOn c
  | .pending n :: r =>
      let s := { s with order := r }
      match s.pending[n]? with
      | some d => { s with pending := s.pending.eraseIdx n }.take d notice
      | none => .done s
  | .change p c :: r => .done (({ s with order := r }).issueChange p c 0)
  | .upset pa u :: r => .done { s with order := r, errors := AMap.set 0 s.errors (pa / 8) (if u then 2 else 1) }
  | .upsetGranary n g u :: r => .done (({ s with order := r }).modGranary n g fun v => { v with check := if u then 2 else 1 })
  | .upsetBoard n u :: r => .done (({ s with order := r }).boardUpset n u)
  | .upsetPacket k u :: r => .done (({ s with order := r }).packetUpset k u)
  | .preempt t :: r => .done (({ s with order := r }).preemptSlot t)
  | .groups p l :: r => .done (({ s with order := r }).modParish p fun v => { v with groups := l })
  | .image p o bs :: r =>
      .done (({ s with order := r }).modParish p fun v => { v with images := AMap.set [] v.images o bs })
  | .replay p l :: r => .done (({ s with order := r }).modParish p fun v => { v with replay := l })
  | .input i :: r => if isHardwareStep i && s.inputDue i then .run i { s with order := r } else .done { s with order := r }
  | [] =>
      match dueTimer s s.focus with
      | some e => { s with timers := dropOne s.timers e }.take e.2.2 notice
      | none =>
        match s.pending with
        | d :: r => { s with pending := r }.take d notice
        | [] => s.issueOn s.focus

/-- Nothing is due, and the module in focus has no power. -/
def State.isDead (s : State) : Bool := s.order.isEmpty && s.pending.isEmpty && (s.chip (chipOfCore s.focus)).off

/-! ### Placing an instruction where the next step fetches it -/

/-- The handle of the code object that `withFetchWord` uses: object 2, byte 0. -/
def fetchHandle : Word := BitVec.ofNat 64 (2 * 2 ^ 40)

/-- A machine in which the next step of the focus core fetches the word `w` in slot 0 of core 0 of
node 0: a parish, its code object of one extent, its bytes in HBM and in the node's code cache, and a
ready slot at its handle. It stands for the load of a program from outside (log 4). -/
def State.placeScalar (s : State) (w : Word32) : State :=
  let bs := littleEndian w 4
  let code := bs ++ List.replicate 124 0
  let s := { s with pending := [], timers := [], order := [], focus := 0 }
  let s := s.modParish 0 fun p => { p with present := true, firstChip := 0, chips := 1 }
  let s := { s with owner := AMap.set 0 s.owner 0 1 }
  let s := { s with objs := AMap.set {} s.objs (objKey 0 0 2) ⟨packObj 0 1 false 4096, 0x9, 0x1000⟩ }
  let s := { s with exts := AMap.set 0 s.exts (extKey 0 0 0x1000) (localDesc 1) }
  let s := s.setBytes ((consecutive (hbmByte 0 (2 ^ 21)) 4).zip bs)
  let s := s.modNode 0 fun n => { n with codeCache := [(objKey 0 0 2, 0, code)] }
  let s := s.modCore 0 fun c => { c with last := 7, lastc := Vector.replicate 8 (-4) }
  s.modSlot 0 fun c => { c with state := .ready, pc := fetchHandle, parish := 0 }

/-- The engine a tile command runs on (Tables 12-1 and 13-2). -/
def engineOf (op : Nat) : Engine :=
  if op < 0x10 || op == 0x80 || op == 0x81 then .loom
  else if op < 0x60 then .lane
  else if op < 0x78 then .carter
  else if op < 0x80 then .gleaner
  else if op < 0x90 then .granary
  else .spire

def Core.queue (c : Core) (e : Engine) : List Nat :=
  match e with
  | .loom => c.loom | .lane => c.lane | .carter => c.carter | .gleaner => c.gleaner
  | .granary => c.granary | .spire => c.spire

def Core.setQueue (c : Core) (e : Engine) (q : List Nat) : Core :=
  match e with
  | .loom => { c with loom := q } | .lane => { c with lane := q } | .carter => { c with carter := q }
  | .gleaner => { c with gleaner := q } | .granary => { c with granary := q } | .spire => { c with spire := q }

/-- The accesses of thread `t` that a fork orders before those of its operations (R129). -/
def State.fenceOf (s : State) (t : Nat) : List Nat :=
  (s.accesses.filter fun a => a.2.posted && a.2.thread == t && a.2.saved == 0 && s.ofThread a.2).map (·.1)

/-- A command of thread `t` that no FORK or TX joins, before it starts. -/
def State.newOp (s : State) (t : Nat) (w : Command) (origin : Origin) (offset : Nat) : EngOp :=
  let c := s.slot t
  { word := w, thread := t, task := c.task, parish := c.parish, core := coreOfThread t,
    engine := engineOf (field w 248 8).toNat, origin := origin, offset := offset, index := 0,
    fm := s.regOf t 12, sa := s.regOf t 13, sb := s.regOf t 14, seed := c.seed, seedh := c.seedh,
    race := c.race, stamp := s.stampOf t, tiles := c.tiles, shapes := c.shapes, wbase := c.wbase.toNat,
    span := c.span, block := 0, data := [], state := .queued, cause := 0, tval := 0, resume := 0,
    outstanding := 0, sent := 0, written := [], overlap := [], finished := false,
    noticed := false, group := 0, checked := false, fence := s.fenceOf t, saved := 0,
    raced := false, reads := [], preds := none, round := 0, out := none }

/-- A machine in which the next step runs the command word `w`: it is the running operation of its
engine in core 0, the one command of a sequence that slot 0 forked, at a node that holds a toll; it is
checked as it starts (R292). -/
def State.placeCommand (s : State) (w : Command) : State :=
  let s := s.placeScalar 0x01100000
  let (id, s) := s.fresh
  let o := { s.newOp 0 w (.seq 0) 0 with state := .running }
  let q : SeqEntry := { offset := 0, words := [w], data := [[]], index := 0, op := id, fm := o.fm, sa := o.sa,
                        sb := o.sb, seed := o.seed, seedh := o.seedh, race := o.race, stamp := o.stamp,
                        fence := [], joined := false, rounds := [0] }
  let s := s.modSlot 0 fun c => { c with seqs := [q] }
  let s := { s with ops := s.ops ++ [(id, o)] }
  let s := s.modCore 0 fun c => c.setQueue o.engine [id]
  let s := s.modNode 0 fun n => { n with toll := { n.toll with held := true } }
  { s with pending := [.command id] }

/-- The instruction of `nbits` bits numbered as the opcode table numbers them, where the next step
fetches it. -/
def State.placeWord (s : State) (nbits w : Nat) : State :=
  if nbits ≤ 32 then s.placeScalar (BitVec.ofNat 32 w) else s.placeCommand (BitVec.ofNat 256 w)

end Sys2Proof.Machine
end

