-- ==== Sys2Proof/Machine/Operands.lean ====
section
/-! DEFINITION. The operand forms of scalar instructions (08 R191 to R198). -/

namespace Sys2Proof.Machine

/-- imm12, imm9 and imm16, sign-extended (R191). -/
def imm12 (e : BitVec 12) : Word := e.signExtend 64
def imm9 (e : BitVec 9) : Word := e.signExtend 64
def imm16 (e : BitVec 16) : Word := e.signExtend 64

/-- The target of a J-format transfer at `pc`: pc + 4·off20 (R18). -/
def jTarget (pc : Word) (off : BitVec 20) : Word := pc + 4 * off.signExtend 64

/-- The number of bytes of a size code. -/
def sizeBytes (size : BitVec 2) : Nat := 2 ^ size.toNat

/-- The address of an M-format access: base + off7·2^size, modulo 2^64 (R272). -/
def mAddress (s : State) (base : Field4) (size : BitVec 2) (off : BitVec 7) : Word :=
  s.reg base + (off.signExtend 64 <<< size.toNat)

/-- The address of a FLAG instruction: xa + 8·imm9 (R283). -/
def flagAddress (s : State) (a : Field4) (e : BitVec 9) : Word := s.reg a + 8 * imm9 e

/-- The window offset of TX, TQ, FORK and RDV: xa + imm12 (R288). -/
def commandOffset (s : State) (a : Field4) (e : BitVec 12) : Word := s.reg a + imm12 e

/-- The lines of a LINE instruction: count − 1 in the field (R285). -/
def lineCount (n : BitVec 4) : Nat := n.toNat + 1

/-- Bits n+15:n of a word replaced by imm16 (R253). -/
def replace16 (w : Word) (n : Nat) (e : BitVec 16) : Word :=
  (w &&& ~~~((0xFFFF : Word) <<< n)) ||| (e.setWidth 64 <<< n)

/-- The tile a 4-bit tile code names, as the thread maps it. -/
def Slot.tile (c : Slot) (t : Field4) : TileName := c.tiles.toList.getD t.toNat {}

def Slot.shape (c : Slot) (t : Field4) : Word := c.shapes.toList.getD t.toNat 0

end Sys2Proof.Machine
end

