-- ==== Sys2Proof/Machine/Alu.lean ====
section
/-! DEFINITION. Integer arithmetic, constants, compares and predicates (10 R249 to R255). -/

namespace Sys2Proof.Machine

/-- A register form: xd receives `f xa xb` (R249). -/
def aluR (g : Guard) (d a b : Field4) (f : Word → Word → Word) (s : State) : Out :=
  scalar g s fun s => withDest d s fun s => (s.setReg d (f (s.reg a) (s.reg b))).finish

/-- A unary form or one with an immediate: xd receives `f xa`. -/
def aluU (g : Guard) (d a : Field4) (f : Word → Word) (s : State) : Out :=
  scalar g s fun s => withDest d s fun s => (s.setReg d (f (s.reg a))).finish

def execAdd (g : Guard) (d a b : Field4) (s : State) : Out := aluR g d a b (· + ·) s
def execSub (g : Guard) (d a b : Field4) (s : State) : Out := aluR g d a b (· - ·) s
def execAnd (g : Guard) (d a b : Field4) (s : State) : Out := aluR g d a b (· &&& ·) s
def execOr (g : Guard) (d a b : Field4) (s : State) : Out := aluR g d a b (· ||| ·) s
def execXor (g : Guard) (d a b : Field4) (s : State) : Out := aluR g d a b (· ^^^ ·) s

/-- Only bits 5:0 of the second operand count in a shift (Table 10-11). -/
def amount (b : Word) : Nat := (field b 0 6).toNat

def execShl (g : Guard) (d a b : Field4) (s : State) : Out := aluR g d a b (fun x y => x <<< amount y) s
def execShr (g : Guard) (d a b : Field4) (s : State) : Out := aluR g d a b (fun x y => x >>> amount y) s
def execShra (g : Guard) (d a b : Field4) (s : State) : Out :=
  aluR g d a b (fun x y => x.sshiftRight (amount y)) s
def execRotr (g : Guard) (d a b : Field4) (s : State) : Out :=
  aluR g d a b (fun x y => x.rotateRight (amount y)) s
def execMin (g : Guard) (d a b : Field4) (s : State) : Out :=
  aluR g d a b (fun x y => if x.toInt ≤ y.toInt then x else y) s
def execMax (g : Guard) (d a b : Field4) (s : State) : Out :=
  aluR g d a b (fun x y => if x.toInt ≤ y.toInt then y else x) s
def execMinu (g : Guard) (d a b : Field4) (s : State) : Out :=
  aluR g d a b (fun x y => if x.toNat ≤ y.toNat then x else y) s
def execMaxu (g : Guard) (d a b : Field4) (s : State) : Out :=
  aluR g d a b (fun x y => if x.toNat ≤ y.toNat then y else x) s
def execMul (g : Guard) (d a b : Field4) (s : State) : Out := aluR g d a b (· * ·) s
def execMulh (g : Guard) (d a b : Field4) (s : State) : Out :=
  aluR g d a b (fun x y => BitVec.ofInt 64 (x.toInt * y.toInt / 2 ^ 64)) s
def execMulhu (g : Guard) (d a b : Field4) (s : State) : Out :=
  aluR g d a b (fun x y => BitVec.ofNat 64 (x.toNat * y.toNat / 2 ^ 64)) s

/-- A result that is written `n` core cycles after the issue cycle (R252), so that the slot may issue in
the cycle after that. -/
def longOp (s : State) (n d : Nat) (v fl : Word) : State :=
  let s := s.modHere fun c => { c with result := some (d, v, fl) }
  (s.park .longOp).timer (coreOfThread s.cur) n (.event (.longOpResult s.cur))

/-- The four divisions: a zero divisor traps at issue (R251). -/
def division (g : Guard) (d a b : Field4) (f : Word → Word → Word) (s : State) : Out :=
  scalar g s fun s => withDest d s fun s =>
    if s.reg b = 0 then s.trap 0x10 0
    else longOp s 20 d.toNat (f (s.reg a) (s.reg b)) s.here.fflags

def execDiv (g : Guard) (d a b : Field4) (s : State) : Out :=
  division g d a b (fun x y => BitVec.ofInt 64 (x.toInt.tdiv y.toInt)) s
def execDivu (g : Guard) (d a b : Field4) (s : State) : Out := division g d a b (fun x y => x / y) s
def execRem (g : Guard) (d a b : Field4) (s : State) : Out :=
  division g d a b (fun x y => BitVec.ofInt 64 (x.toInt.tmod y.toInt)) s
def execRemu (g : Guard) (d a b : Field4) (s : State) : Out := division g d a b (fun x y => x % y) s

/-- Leading zeros of the low `n` bits. -/
def leadingZeros (w : Word) : Nat → Nat
  | 0 => 0
  | n + 1 => if w.getLsbD n then 0 else 1 + leadingZeros w n

/-- Trailing zeros, looking at `n` bits from bit 64 − n. -/
def trailingZeros (w : Word) : Nat → Nat
  | 0 => 0
  | n + 1 => if w.getLsbD (63 - n) then 0 else 1 + trailingZeros w n

/-- One bits among the low `n` bits. -/
def oneBits (w : Word) : Nat → Nat
  | 0 => 0
  | n + 1 => (if w.getLsbD n then 1 else 0) + oneBits w n

def execClz (g : Guard) (d a : Field4) (s : State) : Out :=
  aluU g d a (fun x => BitVec.ofNat 64 (leadingZeros x 64)) s
def execCtz (g : Guard) (d a : Field4) (s : State) : Out :=
  aluU g d a (fun x => BitVec.ofNat 64 (trailingZeros x 64)) s
def execPopc (g : Guard) (d a : Field4) (s : State) : Out :=
  aluU g d a (fun x => BitVec.ofNat 64 (oneBits x 64)) s
def execSextB (g : Guard) (d a : Field4) (s : State) : Out := aluU g d a (extend 1 true) s
def execSextH (g : Guard) (d a : Field4) (s : State) : Out := aluU g d a (extend 2 true) s
def execSextW (g : Guard) (d a : Field4) (s : State) : Out := aluU g d a (extend 4 true) s
def execZextB (g : Guard) (d a : Field4) (s : State) : Out := aluU g d a (fun x => (field x 0 8).setWidth 64) s
def execZextH (g : Guard) (d a : Field4) (s : State) : Out := aluU g d a (fun x => (field x 0 16).setWidth 64) s
def execZextW (g : Guard) (d a : Field4) (s : State) : Out := aluU g d a (fun x => (field x 0 32).setWidth 64) s

def execAddi (g : Guard) (d a : Field4) (imm : BitVec 12) (s : State) : Out := aluU g d a (· + imm12 imm) s
def execAndi (g : Guard) (d a : Field4) (imm : BitVec 12) (s : State) : Out := aluU g d a (· &&& imm12 imm) s
def execOri (g : Guard) (d a : Field4) (imm : BitVec 12) (s : State) : Out := aluU g d a (· ||| imm12 imm) s
def execXori (g : Guard) (d a : Field4) (imm : BitVec 12) (s : State) : Out := aluU g d a (· ^^^ imm12 imm) s
def execShli (g : Guard) (d a : Field4) (n : BitVec 6) (s : State) : Out := aluU g d a (· <<< n.toNat) s
def execShri (g : Guard) (d a : Field4) (n : BitVec 6) (s : State) : Out := aluU g d a (· >>> n.toNat) s
def execShrai (g : Guard) (d a : Field4) (n : BitVec 6) (s : State) : Out :=
  aluU g d a (·.sshiftRight n.toNat) s
def execRotri (g : Guard) (d a : Field4) (n : BitVec 6) (s : State) : Out :=
  aluU g d a (·.rotateRight n.toNat) s

def execMovi (g : Guard) (d : Field4) (imm : BitVec 16) (s : State) : Out := aluU g d d (fun _ => imm16 imm) s
def execMovk16 (g : Guard) (d : Field4) (imm : BitVec 16) (s : State) : Out :=
  aluU g d d (replace16 · 16 imm) s
def execMovk32 (g : Guard) (d : Field4) (imm : BitVec 16) (s : State) : Out :=
  aluU g d d (replace16 · 32 imm) s
def execMovk48 (g : Guard) (d : Field4) (imm : BitVec 16) (s : State) : Out :=
  aluU g d d (replace16 · 48 imm) s

/-- The condition codes of Table 8-6. -/
def condition (cc : Nat) (x y : Word) : Bool :=
  match cc with
  | 0 => x == y
  | 1 => x != y
  | 2 => decide (x.toInt < y.toInt)
  | 3 => decide (x.toNat < y.toNat)
  | 4 => decide (y.toInt ≤ x.toInt)
  | _ => decide (y.toNat ≤ x.toNat)

/-- A predicate receives a condition of the state. -/
def setsPred (g : Guard) (p : Field4) (f : State → Bool) (s : State) : Out :=
  scalar g s fun s => (s.setPred p (f s)).finish

def execCmp (g : Guard) (p a b : Field4) (cc : BitVec 8) (s : State) : Out :=
  setsPred g p (fun s => condition cc.toNat (s.reg a) (s.reg b)) s
def execCmpi (g : Guard) (p a : Field4) (cc : BitVec 3) (imm : BitVec 9) (s : State) : Out :=
  setsPred g p (fun s => condition cc.toNat (s.reg a) (imm9 imm)) s
def execPand (g : Guard) (d a b : Field4) (s : State) : Out := setsPred g d (fun s => s.pred a && s.pred b) s
def execPor (g : Guard) (d a b : Field4) (s : State) : Out := setsPred g d (fun s => s.pred a || s.pred b) s
def execPxor (g : Guard) (d a b : Field4) (s : State) : Out :=
  setsPred g d (fun s => Bool.xor (s.pred a) (s.pred b)) s
def execPnot (g : Guard) (d a : Field4) (s : State) : Out := setsPred g d (fun s => !s.pred a) s
def execPmov (g : Guard) (d a : Field4) (s : State) : Out := setsPred g d (fun s => s.pred a) s
def execMovpFromPw (g : Guard) (d : Field4) (s : State) : Out :=
  aluU g d d (fun _ => s.here.preds.setWidth 64) s
def execMovpToPw (g : Guard) (a : Field4) (s : State) : Out :=
  scalar g s fun s => (s.modHere fun c => { c with preds := field (s.reg a) 0 16 }).finish

/-- The result of a long operation is written, and the thread goes on (R252). -/
def execLongOpResult (thread : Nat) (s : State) : Out :=
  let c := s.slot thread
  .next (match c.state, c.result with
    | .parked .longOp, some (d, v, fl) =>
        ((s.setRegOf thread (BitVec.ofNat 4 d) v).modSlot thread fun c =>
          { c with fflags := fl, result := none }).finishOf thread
    | _, _ => s)

end Sys2Proof.Machine
end

