-- ==== Sys2Proof/Machine/Wayfarer.lean ====
section
/-! DEFINITION. Wayfarers: WANDER, HOME, departure and arrival (07 R179, R180; 10 R246; 11 R286). -/

namespace Sys2Proof.Machine

/-- The checks of a wander to the core of place `a`: R27, no other chip (R179), then R29. DEDUCED, log 25. -/
def State.checkWander (s : State) (t : Nat) (a : Word) (n : Nat) : Option Nat :=
  let here := chipOfThread t
  if !isPlace a then some 0x13
  else if !placeFormOk a n then some 0x06
  else if placeChip here a != here then some 0x13
  else if s.placeHarvested here a then some 0x06
  else if s.parishOf (placeCore here a) != some (s.slot t).parish then some 0x08
  else none

/-- The packet of the current thread (R179, step 3). -/
def State.pack (s : State) (pc : Word) (access : Option (Word × Word)) (homeward : Bool) : Wayfarer :=
  let c := s.here
  let h := c.home.getD s.cur
  { thread := h, pc := pc, x := c.x, preds := c.preds, pl := (s.slot h).pl, ppl := (s.slot h).ppl,
    wbase := c.wbase, wsize := c.wsize, task := c.task, member := c.member, parish := c.parish, word := c.word,
    access := access, from' := s.cur, homeward := homeward,
    race := { writer := h, interval := c.interval, table := c.acquired, valid := true }, evicted := c.evicted }

/-- The slot a thread leaves: its home slot becomes held, and the slot of a wayfarer stays its own until
it has arrived elsewhere (R179, R180). -/
def State.leaveSlot (s : State) : State :=
  s.modHere fun c => { c with state := if c.wf then .parked .away else .held }

/-- Steps 1 to 3 of Table 7-15 toward core `dest`; `access` is the wander-order access that is still to be performed there. -/
def depart (dest : Nat) (access : Option (Word × Word)) (s : State) : State :=
  withRelease s fun s =>
    if (s.core dest).arrivals.length < 4 then
      let s := s.modCore dest fun c => { c with arrivals := c.arrivals ++ [.reserved s.cur] }
      let w := s.pack (if access.isSome then s.here.pc else s.here.pc + 4) access false
      s.leaveSlot.send (.wayfarer w) .wayfarer w.parish (nodeOfThread s.cur) (nodeOfCore dest) false
    else s.park .arrival

/-- A wander-order access of the current thread is over unless it is to be tried again. -/
def State.uncarry (s : State) : State :=
  if retried s.here.state then s else s.modHere fun c => { c with carried := none }

/-- A wander-order access of `n` bytes at address `a0`, which stores `v0`: `k` performs it as a plain access once the thread runs
on the core that the address names (R273). What a landed wayfarer performs is the access that its home computed. -/
def wanderAccess (a0 v0 : Word) (n : Nat) (s : State) (k : Word → Word → State → State) : State :=
  let (a, v) := s.here.carried.getD (a0, v0)
  if isPlace a && a.toNat % n != 0 then s.trap 0x05 a
  else
    match s.checkWander s.cur a n with
    | some c => (s.trap c a).uncarry
    | none =>
        let dest := placeCore (chipOfThread s.cur) a
        if dest = coreOfThread s.cur then (withRelease s (k a v)).uncarry else depart dest (some (a, v)) s

/-- WANDER (R286): the place's offset field is ignored. -/
def execWander (g : Guard) (a : Field4) (s : State) : Out :=
  scalar g s fun s =>
    let p := s.reg a
    match s.checkWander s.cur (p &&& ~~~(0xFFFF : Word)) 1 with
    | some c => s.trap c p
    | none =>
        let dest := placeCore (chipOfThread s.cur) p
        if dest = coreOfThread s.cur then withRelease s State.finish else depart dest none s

/-- Frees the slot a wayfarer ran in and its arrival place. -/
def State.freeAway (s : State) (t : Nat) : State :=
  let s := s.modCore (coreOfThread t) fun c =>
    { c with arrivals := c.arrivals.filter fun a => decide (a ≠ .running (slotOfThread t)) }
  (s.wakeIf fun _ c => parkedOn .arrival c).freeSlot t

/-- HOME: a wayfarer returns to its held slot; at home it has no effect (R180, R286). -/
def execHome (g : Guard) (s : State) : Out :=
  scalar g s fun s =>
    match s.here.home with
    | none => s.finish
    | some h =>
        withRelease s fun s =>
          let w := s.pack (s.here.pc + 4) none true
          let t := s.cur
          (s.freeAway t).send (.wayfarer w) .wayfarer w.parish (nodeOfThread t) (nodeOfThread h) false

/-- A wayfarer packet lands in its arrival place, or in its held slot (Table 7-15, step 4; R180). -/
def execWayfarerArrival (pk : Nat) (s : State) : Out :=
  .next (match s.packet? pk with
    | none => s
    | some p =>
      match p.payload, p.loc with
      | .wayfarer w, .delivered =>
        let s := s.dropPacket pk
        if w.homeward then
          let s := s.modSlot w.thread fun c =>
            { c with pc := w.pc, x := (List.range 11).foldl (fun v i => v.setIfInBounds i (w.x.toList.getD i 0)) c.x,
                     preds := w.preds, state := .ready, interval := w.race.interval, acquired := w.race.table,
                     evicted := w.evicted }
          let s := s.acquire w.thread []
          if (s.slot w.thread).preempt.isSome then s.event (.contextSave w.thread) else s
        else
          match (List.range 16).find? fun i =>
            (s.core (p.dst * 16 + i)).arrivals.contains (.reserved w.from') with
          | none => s
          | some i =>
            let core := p.dst * 16 + i
            let s := s.modCore core fun c =>
              { c with arrivals := (c.arrivals.filter fun a => decide (a ≠ .reserved w.from')) ++ [.landed w] }
            let s := if w.from' = w.thread then s else s.freeAway w.from'
            s.event (.wayfarerStart core)
      | _, _ => s)

/-- The registers of the slot where a wayfarer runs, at its arrival (R246). DEDUCED, log 80. -/
def arrivedSlot (s : State) (w : Wayfarer) (cb : Nat → Word) : Slot :=
  { state := if w.access.isSome then .parked .window else .ready, pc := w.pc,
    x := (List.range 11).foldl (fun v i => v.setIfInBounds i (w.x.toList.getD i 0)) (Vector.replicate 15 0),
    preds := w.preds, pl := w.pl, ppl := w.ppl, wf := true, wbase := w.wbase, wsize := w.wsize,
    seed := cb 0x060 &&& 0xFFFFFFFF, seedh := cb 0x068 &&& 0xFFFFFFFF, race := cb 0x070 &&& ~~~(0xC : Word),
    interval := w.race.interval, acquired := w.race.table, evicted := w.evicted, task := w.task,
    member := w.member, parish := w.parish, home := some w.thread, word := w.word, carried := w.access,
    borrowMode := (s.slot w.thread).borrowMode }

/-- A word of the parish control block of a chip (Table 14-8), read where it lies. -/
def State.controlWord (s : State) (chip parish off : Nat) : Word :=
  match s.resolve chip parish (BitVec.ofNat 64 (2 ^ 40 + off)) with
  | some pa => s.loadLE pa 8
  | none => 0

/-- The first wayfarer in order of arrival runs in slot 6 or 7 when it is free (R179, step 4); a thread that waits to borrow
looks again at the slot that it leaves (R299). -/
def execWayfarerStart (core : Nat) (s : State) : Out :=
  .next (
    let first := (s.core core).arrivals.findSome? fun a =>
      match a with
      | .landed w => some w
      | _ => none
    let slot := [6, 7].find? fun i => decide ((s.slot (core * 8 + i)).state = .free)
    match first, slot with
    | some w, some i =>
        let t := core * 8 + i
        let s := s.setSlot t (arrivedSlot s w (s.controlWord (chipOfCore core) w.parish))
        let s := s.modCore core fun c =>
          { c with arrivals := c.arrivals.map fun a => if a = .landed w then .running i else a }
        let s := (s.acquire t []).wakeIf fun u c => parkedOn .borrow c && coreOfThread u == core
        if w.access.isSome then s.push (.again t) else s
    | _, _ => s)

end Sys2Proof.Machine
end

