-- ==== Sys2Proof/Machine/Memory.lean ====
section
/-! DEFINITION. Loads, stores, atomics and REEVE forms as they issue (11 R272 to R282). -/

namespace Sys2Proof.Machine

/-- Parks on an access just sent. -/
def parkOn (p : Nat × State) : State := p.2.park (.reply p.1)

/-- The changes that were held by thread `t`, parked on a moving extent, are held by its access `id` instead (R47). -/
def State.passHold (s : State) (t id : Nat) : State :=
  { s with changes := s.changes.map fun e =>
      if e.2.held.contains t then
        (e.1, { e.2 with held := e.2.held.filter (· != t), waitFor := e.2.waitFor ++ [id] })
      else e }

/-- The access `id` that thread `t` has just sent: its home makes the race check that no owner's byte allowed here (R138), and a
change that the thread held up waits for it now. -/
def State.noteSent (s : State) (t id : Nat) (check : Option (Nat × Bool × Nat × Bool)) (held : Bool) : State :=
  let s := if check.isNone then s else s.modAccess id fun x => { x with unraced := check }
  if held then s.passHold t id else s

/-- What an access through a place or handle does once its checks have passed: the outcomes of `c`, the
windows of R114 and R115, the race check, and then `k`. A dropped posted write marks its slot (R417). The race check, and
the shadow state of an access that certainly writes, are made here, as the access issues, and not as its home performs
it. DESIGN CHOICE, log 90. -/
def admitted (c : Check) (a : Word) (posted : Bool) (kind : Nat) (atomic : Bool) (scope : Nat) (writes : Bool)
    (s : State) (k : Target → State → State) : State :=
  match c with
  | .trap x v => s.trap x v
  | .moving => s.park (.moving (handleObj a))
  | .drop => (s.markDropped s.cur a).finish
  | .ok target =>
      if (posted && decide (Config.writeWindow ≤ s.outw s.cur)) ||
         (!posted && decide (Config.requestWindow ≤ s.outr s.cur)) then s.park .window
      else
        match s.raceScalar s.cur target a kind atomic scope writes with
        | (s, some v) => s.trap 0x11 v
        | (s, none) =>
          (k target (s.touch s.cur a)).noteSent s.cur s.nextId
            (if (s.targetByte target).isSome || raceMode s.here.race == 0 then none else some (kind, atomic, scope, writes))
            s.here.state.movingOn?.isSome

/-- The access that a load of `n` bytes with these checks waits for (R124, R126). -/
def loadHeld (s : State) (c : Check) (n : Nat) : Option Nat :=
  match c with
  | .ok target => (s.targetByte target).bind fun pa => s.heldBack s.cur false (consecutive pa n)
  | _ => none

/-- A load through a place or handle (R273): it parks until its reply lands. -/
def plainLoad (a : Word) (n : Nat) (sx : Bool) (d : Field4) (acq : Bool) (parcel : Option (Nat × Nat)) (s : State) :
    State :=
  let c := s.checkScalar s.cur a n n rR false
  match loadHeld s c n with
  | some id => s.park (.store id)
  | none =>
    admitted c a false kLoad false 4 false s fun target s =>
      parkOn (s.request { s.newAccess s.cur (.load n) target a false with
        dest := d.toNat, size := n, sx := sx, parcel := parcel, info := { acquire := acq } })

/-- A posted write of the low `n` bytes of `v` (R273): it enters the store buffer and counts in outw. -/
def plainStore (a : Word) (n : Nat) (v : Word) (release : Bool) (flag : Option Word) (s : State) : State :=
  admitted (s.checkScalar s.cur a n n rW true) a true kStore false 4 true s fun target s =>
    let bytes := (List.range n).zip (littleEndian v n)
    let info : AccessInfo := { stamp := if release || flag.isSome then s.stampOf s.cur else {}, release := release }
    let (id, s) := s.request { s.newAccess s.cur (.store bytes) target a true with flag := flag, info := info }
    let b : BufferedStore := { acc := id, thread := s.cur, bytes := bytes, release := release }
    (s.modCore (coreOfThread s.cur) fun c => { c with buffer := c.buffer ++ [b] }).finish

/-- LD (R272, R273). -/
def execLd (g : Guard) (t base : Field4) (size : BitVec 2) (sx : Bool) (order : BitVec 2) (off : BitVec 7)
    (s : State) : Out :=
  scalar g s fun s => withDest t s fun s =>
    let a := mAddress s base size off
    let n := sizeBytes size
    if order = 3 then wanderAccess a 0 n s fun a _ => plainLoad a n sx t false none
    else plainLoad a n sx t (order = 1) none s

/-- ST (R272, R273). -/
def execSt (g : Guard) (t base : Field4) (size : BitVec 2) (order : BitVec 2) (off : BitVec 7) (s : State) : Out :=
  scalar g s fun s =>
    let a := mAddress s base size off
    let n := sizeBytes size
    if order = 3 then wanderAccess a (s.reg t) n s fun a v => plainStore a n v false none
    else if order = 2 then
      match s.checkScalar s.cur a n n rW true with
      | .trap x v => s.trap x v
      | _ => withRelease s fun s => plainStore a n (s.reg t) true none s
    else plainStore a n (s.reg t) false none s

/-- A local access at window offset `o`: a wayfarer traps (R274), a misaligned offset traps (R33). -/
def localAccess (o : Word) (n : Nat) (s : State) (k : State → State) : State :=
  atHome s fun s => if o.toNat % n ≠ 0 then s.trap 0x05 o else k s

/-- A local load of `n` bytes at byte `pa` of the current core, by the address `addr`: it parks on an empty line (R59) or
on a store that it must follow (R124, R126), and otherwise gives the bytes of the youngest buffered store or of the
storage (R125) to `k`. -/
def localLoad (pa n : Nat) (addr : Word) (s : State) (k : Word → State → State) : State :=
  if s.lineEmpty (lineOf pa) then s.park (.line (lineOf pa))
  else
    match s.heldBack s.cur false (consecutive pa n) with
    | some id => s.park (.store id)
    | none =>
      match s.raceAccess (s.accessor s.cur) pa addr 0 kLoad false 4 false with
      | (s, some v) => s.trap 0x11 v
      | (s, none) =>
        match s.findError (consecutive pa n) with
        | (s, true) => s.trap 0x16 addr
        | (s, false) =>
          let (ov, early) := s.overlay s.cur (consecutive pa n)
          k (wordOfBytes (applyOverlay (s.bytes (consecutive pa n)) ov)) (s.readEarly s.cur early)

/-- A local write of the low `n` bytes of `v` at byte `pa` of the current core, by the address `addr`: performed as it
issues, after what it must follow (R124). A flag that is watched there has changed (R96). -/
def localStore (pa n : Nat) (addr v : Word) (s : State) : State :=
  match s.heldBack s.cur true (consecutive pa n) with
  | some id => s.park (.store id)
  | none =>
    match s.raceAccess (s.accessor s.cur) pa addr 0 kStore false 4 true with
    | (s, some v) => s.trap 0x11 v
    | (s, none) => (s.examineWritten (s.write (bytesAt pa n v)) (consecutive pa n) s.here.parish).finish

/-- LDL (R274). -/
def execLdl (g : Guard) (t base : Field4) (size : BitVec 2) (sx : Bool) (off : BitVec 7) (s : State) : Out :=
  scalar g s fun s => withDest t s fun s =>
    let o := mAddress s base size off
    let n := sizeBytes size
    localAccess o n s fun s =>
      localLoad (s.local s.cur o) n o s fun v s => (s.setReg t (extend n sx v)).finish

/-- STL (R274): performed at its home in its issue cycle. -/
def execStl (g : Guard) (t base : Field4) (size : BitVec 2) (off : BitVec 7) (s : State) : Out :=
  scalar g s fun s =>
    let o := mAddress s base size off
    let n := sizeBytes size
    localAccess o n s fun s => localStore (s.local s.cur o) n o (s.reg t) s

/-- The parcel an address lies in, if it is a handle of one. -/
def State.parcelAt (s : State) (t : Nat) (a : Word) : Option Nat :=
  if isPlace a then none
  else if (s.obj (chipOfThread t) (s.slot t).parish (handleObj a)).isParcel then some (handleObj a) else none

/-- The offset form of a parcel reference (R50). -/
def offsetForm (off : Nat) : Word := BitVec.ofNat 64 (0x7FFFFF * 2 ^ 40 + off)

/-- What STH stores of `v` in parcel `o` of length `len`; none is a parcel escape (R51). -/
def parcelStore (o len : Nat) (v : Word) : Option Word :=
  if v = 0 then some 0
  else if !isPlace v && handleObj v == o && decide (handleOff v < len) then some (offsetForm (handleOff v))
  else none

/-- What LDH returns of `w` from parcel `o` of length `len`; none is a parcel escape (R52). -/
def parcelLoad (o len : Nat) (w : Word) : Option Word :=
  if w = 0 then some 0
  else if !isPlace w && handleObj w == 0x7FFFFF && decide (handleOff w < len) then
    some (BitVec.ofNat 64 (o * 2 ^ 40 + handleOff w))
  else none

/-- LDH (R275): a load of 8 bytes that converts a parcel's word when its reply lands. -/
def execLdh (g : Guard) (t base : Field4) (off : BitVec 7) (s : State) : Out :=
  scalar g s fun s => withDest t s fun s =>
    let a := mAddress s base 3 off
    plainLoad a 8 false t false
      ((s.parcelAt s.cur a).map fun o => (o, (s.obj (chipOfThread s.cur) s.here.parish o).length)) s

/-- STH (R275): into a parcel it stores the offset form, or traps with the value (R51). -/
def execSth (g : Guard) (t base : Field4) (off : BitVec 7) (s : State) : Out :=
  scalar g s fun s =>
    let a := mAddress s base 3 off
    let v := s.reg t
    match s.parcelAt s.cur a with
    | none => plainStore a 8 v false none s
    | some o =>
        match s.checkScalar s.cur a 8 8 rW true with
        | .trap x w => s.trap x w
        | .moving => s.park (.moving (handleObj a))
        | _ =>
          match parcelStore o (s.obj (chipOfThread s.cur) s.here.parish o).length v with
          | some w => plainStore a 8 w false none s
          | none => s.trap 0x0B v

/-- STC (R276): the data address is checked before the flag (R445). -/
def execStc (g : Guard) (a b c : Field4) (size : BitVec 2) (s : State) : Out :=
  scalar g s fun s =>
    let addr := s.reg a
    let n := sizeBytes size
    let f := s.reg c
    match s.checkScalar s.cur addr n n rW true with
      | .trap x v => s.trap x v
      | _ =>
        if f = 0 then plainStore addr n (s.reg b) false none s
        else if !isPlace f ∧ s.here.wf then s.trap 0x13 s.wordVal
        else
          let fp := s.flagPlace s.cur f
          match s.checkFlag (chipOfThread s.cur) s.here.parish fp true with
          | .trap x v => s.trap x (if isPlace f then v else f)
          | _ => plainStore addr n (s.reg b) false (some fp) s

/-! ### Atomics -/

/-- Bytes of an AMO type: 4 for i32 and f32, 8 for i64 and f64 (R277). -/
def amoBytes (ty : Nat) : Nat := if ty = 0 ∨ ty = 2 then 4 else 8

/-- An AMO with d = 0 is posted; any other parks until its reply lands (R277, R278). -/
def atomic (g : Guard) (d a b : Field4) (op ty scope : Nat) (s : State) : Out :=
  scalar g s fun s => withDest d s fun s =>
    let addr := s.reg a
    let n := amoBytes ty
    let posted := d = 0
    admitted (s.checkScalar s.cur addr n n rA posted) addr posted kAtomic true scope true s fun target s =>
      let acc := { s.newAccess s.cur (.amo op ty (s.reg b)) target addr posted with
        dest := d.toNat, size := n, sx := ty = 0, info := { scope := scope } }
      if posted then (s.request acc).2.finish else parkOn (s.request acc)

def execAmoAdd (g : Guard) (d a b : Field4) (ty : BitVec 2) (scope : BitVec 3) (s : State) : Out :=
  atomic g d a b 0 ty.toNat scope.toNat s
def execAmoMin (g : Guard) (d a b : Field4) (ty : BitVec 2) (scope : BitVec 3) (s : State) : Out :=
  atomic g d a b 1 ty.toNat scope.toNat s
def execAmoMax (g : Guard) (d a b : Field4) (ty : BitVec 2) (scope : BitVec 3) (s : State) : Out :=
  atomic g d a b 2 ty.toNat scope.toNat s
def execAmoAnd (g : Guard) (d a b : Field4) (ty : BitVec 2) (scope : BitVec 3) (s : State) : Out :=
  atomic g d a b 3 ty.toNat scope.toNat s
def execAmoOr (g : Guard) (d a b : Field4) (ty : BitVec 2) (scope : BitVec 3) (s : State) : Out :=
  atomic g d a b 4 ty.toNat scope.toNat s
def execAmoXor (g : Guard) (d a b : Field4) (ty : BitVec 2) (scope : BitVec 3) (s : State) : Out :=
  atomic g d a b 5 ty.toNat scope.toNat s
def execAmoXchg (g : Guard) (d a b : Field4) (ty : BitVec 2) (scope : BitVec 3) (s : State) : Out :=
  atomic g d a b 6 ty.toNat scope.toNat s

/-- A Reeve operation that parks until its reply lands, checked for `n` bytes aligned to `align` with
right A (R279 to R282). Whether it stores is known only at its home: a CAS that fails, an ENQ that finds the ring full and
a DEQ that finds it empty leave the shadow state as it was (R138: if a writes). DEDUCED, log 91. -/
def reeveForm (addr : Word) (n align scope : Nat) (req : Req) (f : Access → Access) (s : State) : State :=
  admitted (s.checkScalar s.cur addr n align rA false) addr false kAtomic true scope false s fun target s =>
    parkOn (s.request (f (s.newAccess s.cur req target addr false)))

/-- The scope of the operations whose words have no scope field, CAS2, CAS4, ENQ, DEQ and CHASE: sys.
DESIGN CHOICE, log 92. -/
def unscoped : Nat := 4

/-- CAS (R279). -/
def execCas (g : Guard) (d a b c : Field4) (double : Bool) (scope : BitVec 3) (s : State) : Out :=
  scalar g s fun s => withDest d s fun s =>
    let n := if double then 8 else 4
    reeveForm (s.reg a) n n scope.toNat (.cas n (s.reg b) (s.reg c))
      (fun x => { x with dest := d.toNat, size := n, sx := !double, info := { scope := scope.toNat } }) s

/-- CAS2 and CAS4 over `m` bytes (R280): the block offset is checked before the address (R445). The block is read as the
operation issues, as local loads read. DEDUCED, log 19. -/
def casBlock (m : Nat) (g : Guard) (d a b : Field4) (s : State) : Out :=
  scalar g s fun s => withDest d s fun s => atHome s fun s =>
    let o := s.reg b
    let addr := s.reg a
    if o.toNat % 8 ≠ 0 then s.trap 0x05 o
    else
      let blk := s.localRange s.cur (o.toNat % s.here.span) (2 * m)
      match s.heldBack s.cur false blk with
      | some id => s.park (.store id)
      | none =>
        admitted (s.checkScalar s.cur addr m m rA false) addr false kAtomic true unscoped false s fun target s =>
          match s.raceBytes s.cur o blk kLoad false with
          | (s, some v) => s.trap 0x11 v
          | (s, none) =>
            match s.raceBytes s.cur o (blk.take m) kStore true with
            | (s, some v) => s.trap 0x11 v
            | (s, none) =>
            match s.findError blk with
            | (s, true) => s.trap 0x16 o
            | (s, false) =>
              let (ov, early) := s.overlay s.cur blk
              let bs := applyOverlay (s.bytes blk) ov
              parkOn ((s.readEarly s.cur early).request { s.newAccess s.cur (.casBlock (bs.take m) (bs.drop m)) target addr
                false with dest := d.toNat, size := m, block := blk.take m })

def execCas2 (g : Guard) (d a b : Field4) (s : State) : Out := casBlock 16 g d a b s
def execCas4 (g : Guard) (d a b : Field4) (s : State) : Out := casBlock 32 g d a b s

/-- ENQ (R281): the issue check covers the 32-byte header. -/
def execEnq (g : Guard) (d a b : Field4) (s : State) : Out :=
  scalar g s fun s => withDest d s fun s =>
    reeveForm (s.reg a) 32 32 unscoped (.enq (s.reg b)) (fun x => { x with dest := d.toNat }) s

/-- DEQ (R281): xb is a destination too. -/
def execDeq (g : Guard) (d a b : Field4) (s : State) : Out :=
  scalar g s fun s => withDest d s fun s => withDest b s fun s =>
    reeveForm (s.reg a) 32 32 unscoped .deq (fun x => { x with dest := d.toNat, dest2 := b.toNat }) s

/-- CHASE (R282): each node is checked as a load with right A; the first is checked at issue. The tval of an offset that is no
multiple of 8 is xc as it stands: the rule names none. DESIGN CHOICE, log 105. -/
def execChase (g : Guard) (d a b c : Field4) (s : State) : Out :=
  scalar g s fun s => withDest d s fun s =>
    let noff := (field (s.reg c) 0 8).toNat
    let koff := (field (s.reg c) 8 8).toNat
    if noff % 8 ≠ 0 ∨ koff % 8 ≠ 0 then s.trap 0x05 (s.reg c)
    else
      let p := s.reg a
      match s.checkScalar s.cur (p + BitVec.ofNat 64 koff) 8 8 rA false with
      | .trap x _ => s.trap x p
      | c => admitted c p false kAtomic true unscoped false s fun target s =>
          parkOn (s.request { s.newAccess s.cur (.chase (s.reg b) koff noff p 16) target p false with
            dest := d.toNat })

end Sys2Proof.Machine
end

