-- ==== Sys2Proof/Machine/FlagLine.lean ====
section
/-! DEFINITION. FLAG and LINE instructions as they issue (11 R283 to R285). -/

namespace Sys2Proof.Machine

/-- A FLAG instruction's flag: a place goes through the router, a window offset straight to the node's
Reeve; a wayfarer traps for the second form (R283, R284). `k` receives whether the form is direct. DEDUCED, log 26. -/
def withFlag (a : Field4) (e : BitVec 9) (posted : Bool) (s : State)
    (k : Bool → Word → Check → State → State) : State :=
  let f := flagAddress s a e
  if isPlace f then k false f (s.checkFlag (chipOfThread s.cur) s.here.parish f posted) s
  else atHome s fun s =>
    if f.toNat % 8 ≠ 0 then s.trap 0x05 f
    else k true (s.flagPlace s.cur f) (.ok (.byte (s.local s.cur f))) s

/-- Sends a flag request by its path. -/
def State.flagRequest (s : State) (direct : Bool) (a : Access) : Nat × State :=
  if direct then s.requestDirect a else s.request a

/-- CWAIT and CWAITR: a marked slot traps at issue (R417); otherwise the wait goes to the flag's home
and the thread parks (R95). -/
def waitFlag (subtracts : Bool) (g : Guard) (d a : Field4) (e : BitVec 9) (s : State) : Out :=
  scalar g s fun s =>
    withFlag a e false s fun direct f c s =>
      match c with
      | .trap x v => s.trap x v
      | .ok target =>
        match s.here.unreachable, s.here.linkLost, s.here.writeError with
        | some m, _, _ => s.trap 0x17 m
        | none, some m, _ => (s.modHere fun c => { c with linkLost := none }).trap 0x12 m
        | none, none, some m => (s.modHere fun c => { c with writeError := none }).trap m.1 m.2
        | none, none, none =>
          let n := s.reg d
          let (id, s) := s.flagRequest direct { s.newAccess s.cur (.waitFor n subtracts) target f false with
            takesPlace := false, info := { acquire := true } }
          s.modHere fun c =>
            { c with state := .parked .wake, wait := some ⟨id, f, n, subtracts, false, []⟩ }
      | _ => s.finish

def execCwait (g : Guard) (d a : Field4) (imm : BitVec 9) (s : State) : Out := waitFlag false g d a imm s
def execCwaitr (g : Guard) (d a : Field4) (imm : BitVec 9) (s : State) : Out := waitFlag true g d a imm s

/-- CADD: a posted addition at the flag's home, dropped toward a chip that is not reachable (R283,
R284). -/
def addFlag (release : Bool) (v : Word) (direct : Bool) (f : Word) (c : Check) (s : State) : State :=
  match c with
  | .trap x w => s.trap x w
  | .ok target =>
      if Config.writeWindow ≤ s.outw s.cur then s.park .window
      else
        (s.flagRequest direct { s.newAccess s.cur (.flagAdd v) target f true with
          info := { stamp := if release then s.stampOf s.cur else {}, release := release } }).2.finish
  | _ => (s.markDropped s.cur f).finish

def execCadd (g : Guard) (d a : Field4) (imm : BitVec 9) (s : State) : Out :=
  scalar g s fun s => withFlag a imm true s fun direct f c s => addFlag false (s.reg d) direct f c s

/-- CADD.rel waits as a release first (R121). -/
def execCaddRel (g : Guard) (d a : Field4) (imm : BitVec 9) (s : State) : Out :=
  scalar g s fun s => withFlag a imm true s fun direct f c s =>
    match c with
    | .trap x w => s.trap x w
    | c => withRelease s fun s => addFlag true (s.reg d) direct f c s

/-- CPEEK reads the flag at one point of its Reeve's order and parks (R283). -/
def execCpeek (g : Guard) (d a : Field4) (imm : BitVec 9) (s : State) : Out :=
  scalar g s fun s => withDest d s fun s => withFlag a imm false s fun direct f c s =>
    match c with
    | .trap x w => s.trap x w
    | .ok target =>
        if !direct && decide (Config.requestWindow ≤ s.outr s.cur) then s.park .window
        else parkOn (s.flagRequest direct { s.newAccess s.cur .peek target f false with
          dest := d.toNat, takesPlace := !direct })
    | _ => s.finish

/-! ### Lines (R285) -/

/-- Sets `n` consecutive lines empty or full, in ascending order, each as one event. -/
def State.setLines (s : State) (fill : Bool) (lines : List Nat) : State :=
  lines.foldl (fun s l => if fill then s.fillLine l else s.emptyLine l) s

/-- The lines of a window range of `n` lines from offset `o`, wrapping (R33). -/
def State.windowLines (s : State) (t : Nat) (o : Word) (n : Nat) : List Nat :=
  (List.range n).map fun i => lineOf (s.local t (o + BitVec.ofNat 64 (128 * i)))

/-- LEMPTY and LFILL: at once in the window, and through a place at the lines' Reeve. -/
def lineOp (op : Nat) (g : Guard) (a : Field4) (n : BitVec 4) (s : State) : Out :=
  scalar g s fun s =>
    let x := s.reg a
    let k := lineCount n
    if isPlace x then
      if x.toNat % 128 ≠ 0 then s.trap 0x05 x
      else
        match s.checkPlace (chipOfThread s.cur) s.here.parish x (128 * k) true with
        | some c => s.trap c x
        | none =>
          if Config.requestWindow ≤ s.outr s.cur then s.park .window
          else parkOn (s.request { s.newAccess s.cur (.lines op k)
            (.byte (placeByte (chipOfThread s.cur) x)) x false with dest := 0 })
    else atHome s fun s =>
      if x.toNat % 128 ≠ 0 then s.trap 0x05 x
      else (s.setLines (op = 1) (s.windowLines s.cur x k)).finish

def execLempty (g : Guard) (a : Field4) (n : BitVec 4) (s : State) : Out := lineOp 0 g a n s
def execLfill (g : Guard) (a : Field4) (n : BitVec 4) (s : State) : Out := lineOp 1 g a n s

/-- LSTATE: 1 full, 0 empty. -/
def execLstate (g : Guard) (d a : Field4) (s : State) : Out :=
  scalar g s fun s => withDest d s fun s =>
    let x := s.reg a
    if isPlace x then
      if x.toNat % 128 ≠ 0 then s.trap 0x05 x
      else
        match s.checkPlace (chipOfThread s.cur) s.here.parish x 128 true with
        | some c => s.trap c x
        | none =>
          if Config.requestWindow ≤ s.outr s.cur then s.park .window
          else parkOn (s.request { s.newAccess s.cur .lineState
            (.byte (placeByte (chipOfThread s.cur) x)) x false with dest := d.toNat })
    else atHome s fun s =>
      if x.toNat % 128 ≠ 0 then s.trap 0x05 x
      else (s.setReg d (if s.lineEmpty (lineOf (s.local s.cur x)) then 0 else 1)).finish

end Sys2Proof.Machine
end

