-- ==== Sys2Proof/Machine/Control.lean ====
section
/-! DEFINITION. Branches, jumps, SYS, places and ROLL (10 R256 to R262, R268 to R270). -/

namespace Sys2Proof.Machine

def execBr (g : Guard) (off : BitVec 20) (s : State) : Out :=
  scalar g s fun s => s.jump (jTarget s.here.pc off)

/-- JAL writes its own address plus 4 to x10 (R256). -/
def execJal (g : Guard) (off : BitVec 20) (s : State) : Out :=
  scalar g s fun s => (s.setReg 10 (s.here.pc + 4)).jump (jTarget s.here.pc off)

/-- JALR computes its target from the old xa (R257). -/
def execJalr (g : Guard) (d a : Field4) (imm : BitVec 12) (s : State) : Out :=
  scalar g s fun s => withDest d s fun s =>
    (s.setReg d (s.here.pc + 4)).jump (s.reg a + imm12 imm)

def execNop (g : Guard) (s : State) : Out := scalar g s fun s => s.finish

/-- YIELD parks until 32 core cycles after its issue cycle (R259). -/
def execYield (g : Guard) (s : State) : Out :=
  scalar g s fun s => (s.park .yieldUntil).timer (coreOfThread s.cur) 32 (.event (.yieldExpiry s.cur))

def execYieldExpiry (thread : Nat) (s : State) : Out :=
  .next (if (s.slot thread).state = .parked .yieldUntil then s.finishOf thread else s)

/-- TRAP and BRK take a precise trap with the code as tval (R261). -/
def execTrap (g : Guard) (code : BitVec 8) (s : State) : Out :=
  scalar g s fun s => s.trap 0x14 (code.setWidth 64)

def execBrk (g : Guard) (code : BitVec 8) (s : State) : Out :=
  scalar g s fun s => s.trap 0x15 (code.setWidth 64)

def execEret (g : Guard) (s : State) : Out := scalar g s fun s => s.eret

/-! ### Places (R268, R269) -/

/-- The place of a coordinate word and an offset, built on chip `here` (R268). -/
def buildPlace (here : Nat) (x o : Word) : Word :=
  let chip := field x 46 18
  (1 : BitVec 1) ++ (if chip.toNat = here then (1 : BitVec 1) else 0) ++ chip ++ field x 43 3 ++ field x 37 6 ++
    field x 31 6 ++ field x 27 4 ++ (0 : BitVec 9) ++ field o 0 16

/-- The coordinate word of a place, taken apart on chip `here` (R269). -/
def splitPlace (here : Nat) (p : Word) : Word :=
  BitVec.ofNat 18 (placeChip here p) ++ field p 41 3 ++ field p 35 6 ++ field p 29 6 ++ field p 25 4 ++
    (0 : BitVec 11) ++ field p 0 16

def execPlc (g : Guard) (d a b : Field4) (s : State) : Out :=
  scalar g s fun s => withDest d s fun s =>
    (s.setReg d (buildPlace (chipOfThread s.cur) (s.reg a) (s.reg b))).finish

def execPloc (g : Guard) (d a : Field4) (s : State) : Out :=
  scalar g s fun s => withDest d s fun s =>
    let p := s.reg a
    if !isPlace p || field p 16 9 != 0 then s.trap 0x06 p
    else (s.setReg d (splitPlace (chipOfThread s.cur) p)).finish

/-! ### ROLL (R237, R270) -/

/-- ROLL(seed, ctr), with the seed pair as its two halves. -/
def rollZ (seed seedh ctr : BitVec 32) : BitVec 32 :=
  let z := (seed ^^^ ctr) + seedh
  let z := z * 0x9E3779B1
  let z := z ^^^ (z >>> 15)
  let z := z * 0x85EBCA77
  z ^^^ (z >>> 13)

/-- The f32 pattern of u·2^−24 for u below 2^24, exact. -/
def uniformF32 (u : Nat) : BitVec 32 :=
  if u = 0 then 0
  else
    let e := Nat.log2 u
    BitVec.ofNat 32 ((e + 103) * 2 ^ 23 + (u * 2 ^ (23 - e) - 2 ^ 23))

def rollHere (s : State) (a : Field4) : BitVec 32 :=
  rollZ (field s.here.seed 0 32) (field s.here.seedh 0 32) (field (s.reg a) 0 32)

def execRoll (g : Guard) (d a : Field4) (s : State) : Out :=
  scalar g s fun s => withDest d s fun s => (s.setReg d ((rollHere s a).setWidth 64)).finish

def execRollF (g : Guard) (d a : Field4) (s : State) : Out :=
  scalar g s fun s => withDest d s fun s =>
    (s.setReg d ((uniformF32 ((rollHere s a).toNat / 256)).setWidth 64)).finish

end Sys2Proof.Machine
end

