-- ==== Sys2Proof/Machine/Number.lean ====
section
/-! DEFINITION. Number formats and exact arithmetic (09): every value is held exactly as a signed integer
times a power of two, and rounded once. -/

namespace Sys2Proof.Machine

/-- A value: NaN, an infinity, or (−1)^neg · m · 2^e, with a signed zero. -/
inductive Val where
  | nan
  | inf (neg : Bool)
  | fin (neg : Bool) (m : Nat) (e : Int)
  deriving DecidableEq, Repr

def Val.zero : Val := .fin false 0 0
def Val.one : Val := .fin false 1 0

/-- A floating-point format (Tables 9-2, R217): `prec` significand bits with the hidden one, least
normal exponent, largest finite magnitude m·2^e, and how it is encoded. -/
structure Fmt where
  bytes : Nat
  prec : Nat
  emin : Int
  maxM : Nat
  maxE : Int
  hasInf : Bool
  signed : Bool
  /-- exponent field width, for the formats with a sign bit at the top -/
  ebits : Nat
  /-- binary8: zero is unsigned and the corner codes are those of R217 -/
  binary8 : Bool
  deriving DecidableEq, Repr

def fmtF64 : Fmt := ⟨8, 53, -1022, 2 ^ 53 - 1, 971, true, true, 11, false⟩
def fmtF32 : Fmt := ⟨4, 24, -126, 2 ^ 24 - 1, 104, true, true, 8, false⟩
def fmtBf16 : Fmt := ⟨2, 8, -126, 2 ^ 8 - 1, 120, true, true, 8, false⟩
def fmtF16 : Fmt := ⟨2, 11, -14, 2 ^ 11 - 1, 5, true, true, 5, false⟩
def fmtE4m3 : Fmt := ⟨1, 4, -6, 14, 5, false, true, 4, false⟩
def fmtE5m2 : Fmt := ⟨1, 3, -14, 7, 13, true, true, 5, false⟩

/-- The largest finite code of a binary8 format (R218). -/
def b8MaxCode (signed ext : Bool) : Nat :=
  if signed then (if ext then 0x7E else 0x7F) else if ext then 0xFD else 0xFE

/-- A binary8 format of precision `p` (R217): bias 2^(7−p) signed, 2^(8−p) unsigned. -/
def fmtB8 (signed : Bool) (p : Nat) (ext : Bool) : Fmt :=
  let bias : Int := if signed then 2 ^ (7 - p) else 2 ^ (8 - p)
  let mx := b8MaxCode signed ext
  let E := mx / 2 ^ (p - 1)
  let T := mx % 2 ^ (p - 1)
  let m := if E = 0 then T else 2 ^ (p - 1) + T
  let e : Int := (if E = 0 then 1 else (E : Int)) - bias - ((p : Int) - 1)
  ⟨1, p, 1 - bias, m, e, ext, signed, if signed then 8 - p else 9 - p, true⟩

/-- What an element code names (Table 9-1). -/
inductive Elem where
  | float (f : Fmt)
  | int (bytes : Nat) (signed : Bool)
  deriving DecidableEq, Repr

/-- The element of a code, with the variant its extended bit gives it (R220). -/
def elemOf (code : Nat) (ext : Bool) : Option Elem :=
  match code with
  | 1 => some (.float fmtF64)
  | 2 => some (.float fmtF32)
  | 3 => some (.float fmtBf16)
  | 4 => some (.float fmtF16)
  | 5 => some (.int 8 true)
  | 6 => some (.int 4 true)
  | 7 => some (.int 2 true)
  | 8 => some (.int 1 true)
  | 9 => some (.int 4 false)
  | 10 => some (.int 2 false)
  | 11 => some (.int 1 false)
  | 12 => some (.int 8 false)
  | 13 => some (.float fmtE4m3)
  | 14 => some (.float fmtE5m2)
  | _ =>
      if 17 ≤ code ∧ code ≤ 23 then some (.float (fmtB8 true (code - 16) ext))
      else if 25 ≤ code ∧ code ≤ 31 then some (.float (fmtB8 false (code - 24) ext))
      else none

def Elem.bytes : Elem → Nat
  | .float f => f.bytes
  | .int b _ => b

def Elem.isFloat : Elem → Bool
  | .float _ => true
  | .int .. => false

/-! ### Decoding -/

/-- The value of a magnitude code: exponent field above `prec − 1` fraction bits. -/
def magnitude (f : Fmt) (code : Nat) : Nat × Int :=
  let fb := f.prec - 1
  let E := code / 2 ^ fb
  let T := code % 2 ^ fb
  let q := f.emin - fb
  if E = 0 then (T, q) else (2 ^ fb + T, q + ((E : Int) - 1))

def decodeFloat (f : Fmt) (x : Nat) : Val :=
  if f.binary8 then
    let signBit := if f.signed then 0x80 else 0x100
    if (f.signed && x == 0x80) || (!f.signed && x == 0xFF) then .nan
    else if f.hasInf && x == (if f.signed then 0x7F else 0xFE) then .inf false
    else if f.hasInf && f.signed && x == 0xFF then .inf true
    else
      let (m, e) := magnitude f (x % signBit)
      .fin (decide (signBit ≤ x)) m e
  else
    let w := 8 * f.bytes
    let neg := decide (2 ^ (w - 1) ≤ x)
    let c := x % 2 ^ (w - 1)
    let fb := f.prec - 1
    let E := c / 2 ^ fb
    let T := c % 2 ^ fb
    if f.hasInf then
      if E = 2 ^ f.ebits - 1 then (if T = 0 then .inf neg else .nan)
      else let (m, e) := magnitude f c; .fin neg m e
    else if c = 2 ^ (w - 1) - 1 then .nan
    else let (m, e) := magnitude f c; .fin neg m e

/-- The integer an `b`-byte pattern stands for. -/
def intOf (b : Nat) (signed : Bool) (x : Nat) : Int :=
  let w := 8 * b
  let y := x % 2 ^ w
  if signed && decide (2 ^ (w - 1) ≤ y) then (y : Int) - 2 ^ w else y

def valOfInt (i : Int) : Val := .fin (decide (i < 0)) i.natAbs 0

def decodeElem (el : Elem) (x : Nat) : Val :=
  match el with
  | .float f => decodeFloat f x
  | .int b sg => valOfInt (intOf b sg x)

/-! ### Rounding (R223, R224) -/

/-- The rounding in force: its code 0 to 5, and for code 5 the uniform draw times 2^24. -/
structure Rounding where
  code : Nat
  draw : Nat := 0
  deriving DecidableEq, Repr

def nearestEven : Rounding := ⟨0, 0⟩

/-- n + r/2^k, with 0 ≤ r < 2^k, rounds to n + 1 and not to n, which `odd` says is not the even one. -/
def roundUp (rm : Rounding) (neg odd : Bool) (r k : Nat) : Bool :=
  if r = 0 then false
  else
    match rm.code with
    | 0 => decide (2 ^ k < 2 * r) || (decide (2 * r = 2 ^ k) && odd)
    | 1 => false
    | 2 => neg
    | 3 => !neg
    | 4 => decide (2 ^ k ≤ 2 * r)
    | _ => decide (rm.draw * 2 ^ k < r * 2 ^ 24)

/-- m·2^e as a multiple of 2^q: the integer part, the rest, and how many bits the rest has. -/
def atQuantum (m : Nat) (e q : Int) : Nat × Nat × Nat :=
  if q ≤ e then (m * 2 ^ (e - q).toNat, 0, 0)
  else let k := (q - e).toNat; (m / 2 ^ k, m % 2 ^ k, k)

/-- Rounds m·2^e to a multiple of 2^q: the multiple, and whether it is inexact. -/
def roundAt (rm : Rounding) (neg : Bool) (m : Nat) (e q : Int) (odd : Nat → Bool) : Nat × Bool :=
  let (n, r, k) := atQuantum m e q
  (if roundUp rm neg (odd n) r k then n + 1 else n, r != 0)

def oddNat (n : Nat) : Bool := n % 2 == 1

/-- The encoding of the magnitude n·2^q of a format is odd, its exponent range taken as unbounded. With a precision of 1
every normal magnitude has n = 1, and its exponent decides. DEDUCED, log 12. -/
def oddCode (f : Fmt) (q : Int) (n : Nat) : Bool :=
  if f.prec = 1 then n != 0 && (q - f.emin + 1) % 2 == 1 else oddNat n

/-- The exponent of the leading bit of m·2^e. -/
def topExp (m : Nat) (e : Int) : Int := (Nat.log2 m : Int) + e

/-- m·2^e > m'·2^e'. -/
def magGt (m : Nat) (e : Int) (m' : Nat) (e' : Int) : Bool :=
  let q := min e e'
  decide (m' * 2 ^ (e' - q).toNat < m * 2 ^ (e - q).toNat)

/-- A rounded result with the events of Table 9-12. -/
structure Rounded where
  bits : Nat
  nv : Bool := false
  dz : Bool := false
  of' : Bool := false
  uf : Bool := false
  nx : Bool := false
  deriving DecidableEq, Repr

/-- Canonical NaN (R216). -/
def nanBits (f : Fmt) : Nat :=
  if f.binary8 then (if f.signed then 0x80 else 0xFF)
  else if f.hasInf then (2 ^ f.ebits - 1) * 2 ^ (f.prec - 1) + 2 ^ (f.prec - 2)
  else 0x7F

def signBits (f : Fmt) (neg : Bool) : Nat := if neg then 2 ^ (8 * f.bytes - 1) else 0

def infBits (f : Fmt) (neg : Bool) : Nat :=
  if f.binary8 then (if f.signed then (if neg then 0xFF else 0x7F) else if neg then 0xFF else 0xFE)
  else signBits f neg + (2 ^ f.ebits - 1) * 2 ^ (f.prec - 1)

/-- The code of a magnitude n·2^q of a format, in range and at its quantum. -/
def magnitudeCode (f : Fmt) (n : Nat) (q : Int) : Nat :=
  let fb := f.prec - 1
  let (n, q) := if n = 2 ^ f.prec then (2 ^ fb, q + 1) else (n, q)
  if n < 2 ^ fb then n
  else (q - (f.emin - fb) + 1).toNat * 2 ^ fb + (n - 2 ^ fb)

def finiteBits (f : Fmt) (neg : Bool) (n : Nat) (q : Int) : Nat :=
  let c := magnitudeCode f n q
  if f.binary8 && c == 0 then 0 else signBits f neg + c

def largestBits (f : Fmt) (neg : Bool) : Nat := finiteBits f neg f.maxM f.maxE

/-- An infinite result or operand (R226). -/
def infinite (f : Fmt) (sat neg : Bool) : Nat :=
  if !f.signed && neg then (if sat then 0 else nanBits f)
  else if sat then largestBits f neg
  else if f.hasInf then infBits f neg
  else nanBits f

/-- Table 9-7. -/
def overflow (f : Fmt) (rm : Rounding) (sat neg : Bool) : Nat :=
  if sat then largestBits f neg
  else if rm.code = 1 || (rm.code = 2 && !neg) || (rm.code = 3 && neg) then largestBits f neg
  else if f.hasInf then infBits f neg
  else nanBits f

/-- Rounds an exact value into a floating-point format (R223 to R227). DEDUCED, log 12. -/
def roundFloat (f : Fmt) (rm : Rounding) (sat : Bool) (v : Val) : Rounded :=
  match v with
  | .nan => { bits := nanBits f }
  | .inf neg => { bits := infinite f sat neg }
  | .fin neg m e =>
      if m = 0 then { bits := if f.binary8 then 0 else signBits f neg }
      else
        let fb : Int := f.prec - 1
        let q := max (topExp m e - fb) (f.emin - fb)
        let (n, nx) := roundAt rm neg m e q (oddCode f q)
        if !f.signed && neg then
          if n = 0 then { bits := 0, nx := nx }
          else { bits := if sat then 0 else nanBits f, nx := true }
        else if magGt n q f.maxM f.maxE then
          { bits := overflow f rm sat neg, of' := true, nx := true }
        else
          let (n', _) := roundAt rm neg m e (topExp m e - fb) (oddCode f (topExp m e - fb))
          let tiny := magGt 1 f.emin n' (topExp m e - fb)
          { bits := finiteBits f neg n q, uf := tiny && nx, nx := nx }

/-- Rounds a value to an integer of `b` bytes (R227, R266): a NaN gives 0, out of range the nearer
end. -/
def roundInt (b : Nat) (signed : Bool) (rm : Rounding) (v : Val) : Rounded :=
  let w := 8 * b
  let lo : Int := if signed then -(2 ^ (w - 1) : Int) else 0
  let hi : Int := if signed then 2 ^ (w - 1) - 1 else 2 ^ w - 1
  let pat (i : Int) : Nat := (i % 2 ^ w).toNat
  match v with
  | .nan => { bits := 0, nv := true }
  | .inf neg => { bits := pat (if neg then lo else hi), nv := true }
  | .fin neg m e =>
      let (n, nx) := roundAt rm neg m e 0 oddNat
      let i : Int := if neg then -(n : Int) else n
      if i < lo then { bits := pat lo, nv := true }
      else if hi < i then { bits := pat hi, nv := true }
      else { bits := pat i, nx := nx }

def roundElem (el : Elem) (rm : Rounding) (sat : Bool) (v : Val) : Rounded :=
  match el with
  | .float f => roundFloat f rm sat v
  | .int b sg => roundInt b sg rm v

/-! ### Exact arithmetic -/

def Val.isNan : Val → Bool
  | .nan => true
  | _ => false

def Val.neg : Val → Val
  | .nan => .nan
  | .inf s => .inf (!s)
  | .fin s m e => .fin (!s) m e

def Val.abs : Val → Val
  | .nan => .nan
  | .inf _ => .inf false
  | .fin _ m e => .fin false m e

def Val.isZero : Val → Bool
  | .fin _ 0 _ => true
  | _ => false

/-- The signed multiple of 2^q that a finite value is, for q at most its exponent. -/
def scaled (neg : Bool) (m : Nat) (e q : Int) : Int :=
  let n : Int := m * 2 ^ (e - q).toNat
  if neg then -n else n

/-- a + b exactly, and whether it is ∞ − ∞. An exact zero sum is +0, or −0 when rounding down, and x + x
keeps its sign (Table 10-14). -/
def addVal (down : Bool) (a b : Val) : Val × Bool :=
  match a, b with
  | .nan, _ => (.nan, false)
  | _, .nan => (.nan, false)
  | .inf s, .inf t => if s = t then (.inf s, false) else (.nan, true)
  | .inf s, _ => (.inf s, false)
  | _, .inf t => (.inf t, false)
  | .fin s m e, .fin t n f =>
      let q := min e f
      let i := scaled s m e q + scaled t n f q
      if i = 0 then (.fin (if s = t then s else down) 0 0, false) else (.fin (decide (i < 0)) i.natAbs q, false)

/-- a·b exactly, and whether it is 0·∞. -/
def mulVal (a b : Val) : Val × Bool :=
  match a, b with
  | .nan, _ => (.nan, false)
  | _, .nan => (.nan, false)
  | .inf s, .inf t => (.inf (s != t), false)
  | .inf s, .fin t m _ => if m = 0 then (.nan, true) else (.inf (s != t), false)
  | .fin s m _, .inf t => if m = 0 then (.nan, true) else (.inf (s != t), false)
  | .fin s m e, .fin t n f => (.fin (s != t) (m * n) (e + f), false)

/-- Bits kept below the leading bit of a quotient or root, before a final bit that says whether a rest
was dropped. -/
def guardBits : Nat := 140

/-- A magnitude with a final bit for the rest that was dropped; it rounds as the exact value does. -/
def withTail (m : Nat) (rest : Bool) : Nat := 2 * m + (if rest then 1 else 0)

/-- a / b (R264): the value to be rounded, invalid, and division by zero. -/
def divVal (a b : Val) : Val × Bool × Bool :=
  match a, b with
  | .nan, _ => (.nan, false, false)
  | _, .nan => (.nan, false, false)
  | .inf _, .inf _ => (.nan, true, false)
  | .inf s, .fin t _ _ => (.inf (s != t), false, false)
  | .fin s _ _, .inf t => (.fin (s != t) 0 0, false, false)
  | .fin s m e, .fin t n f =>
      if n = 0 then (if m = 0 then (.nan, true, false) else (.inf (s != t), false, true))
      else if m = 0 then (.fin (s != t) 0 0, false, false)
      else
        let k := guardBits + Nat.log2 n
        let x := m * 2 ^ k
        (.fin (s != t) (withTail (x / n) (x % n != 0)) (e - f - k - 1), false, false)

/-- Integer square root, one bit of the root at a time from bit `n` down. -/
def rootBits (x : Nat) : Nat → Nat → Nat
  | 0, r => r
  | n + 1, r => let c := r + 2 ^ n; rootBits x n (if c * c ≤ x then c else r)

def isqrt (x : Nat) : Nat := rootBits x (Nat.log2 x / 2 + 1) 0

/-- √a (R264). -/
def sqrtVal (a : Val) : Val × Bool :=
  match a with
  | .nan => (.nan, false)
  | .inf neg => if neg then (.nan, true) else (.inf false, false)
  | .fin neg m e =>
      if m = 0 then (.fin neg 0 0, false)
      else if neg then (.nan, true)
      else
        let e0 := e - 2 * (guardBits : Int)
        let (x, f) := if e0 % 2 = 0 then (m * 2 ^ (2 * guardBits), e0) else (m * 2 ^ (2 * guardBits + 1), e0 - 1)
        let r := isqrt x
        (.fin false (withTail r (r * r != x)) (f / 2 - 1), false)

/-- a < b, with −0 equal to +0; false when either is a NaN. -/
def ltVal (a b : Val) : Bool :=
  match a, b with
  | .nan, _ => false
  | _, .nan => false
  | .inf s, .inf t => s && !t
  | .inf s, _ => s
  | _, .inf t => !t
  | .fin s m e, .fin t n f =>
      let q := min e f
      decide (scaled s m e q < scaled t n f q)

def eqVal (a b : Val) : Bool := !a.isNan && !b.isNan && !ltVal a b && !ltVal b a

/-- The smaller value, −0 below +0; NaN when either is one (R110, R264). -/
def minVal (a b : Val) : Val :=
  if a.isNan || b.isNan then .nan
  else if ltVal a b then a
  else if ltVal b a then b
  else
    match a with
    | .fin true 0 _ => a
    | _ => b

def maxVal (a b : Val) : Val :=
  if a.isNan || b.isNan then .nan
  else if ltVal a b then b
  else if ltVal b a then a
  else
    match a with
    | .fin true 0 _ => b
    | _ => a

/-- Rounds to f32 by nearest-even, as a pattern and as a value. -/
def toF32 (v : Val) : BitVec 32 := BitVec.ofNat 32 (roundFloat fmtF32 nearestEven false v).bits
def f32Val (x : BitVec 32) : Val := decodeFloat fmtF32 x.toNat
def roundF32 (v : Val) : Val := f32Val (toF32 v)

/-! ### Reeve arithmetic (R110, R277) -/

/-- `op(old, v)` of an AMO: operations 0 add, 1 min, 2 max, 3 and, 4 or, 5 xor, 6 xchg; types 0 i32, 1
i64, 2 f32, 3 f64. -/
def amoResult (op ty : Nat) (old v : Word) : Word :=
  let o32 := field old 0 32
  let v32 := field v 0 32
  match op with
  | 0 =>
      match ty with
      | 0 => (o32 + v32).setWidth 64
      | 1 => old + v
      | 2 => (toF32 (addVal false (f32Val o32) (f32Val v32)).1).setWidth 64
      | _ => BitVec.ofNat 64 (roundFloat fmtF64 nearestEven false
               (addVal false (decodeFloat fmtF64 old.toNat) (decodeFloat fmtF64 v.toNat)).1).bits
  | 1 =>
      match ty with
      | 0 => (if o32.toInt ≤ v32.toInt then o32 else v32).setWidth 64
      | 2 => (toF32 (minVal (f32Val o32) (f32Val v32))).setWidth 64
      | _ => if old.toInt ≤ v.toInt then old else v
  | 2 =>
      match ty with
      | 0 => (if o32.toInt ≤ v32.toInt then v32 else o32).setWidth 64
      | 2 => (toF32 (maxVal (f32Val o32) (f32Val v32))).setWidth 64
      | _ => if old.toInt ≤ v.toInt then v else old
  | 3 => old &&& v
  | 4 => old ||| v
  | 5 => old ^^^ v
  | _ => v

/-- One element add of TSTA or CPYA (R110): codes f64, f32, i64, i32 and, for TSTA, the other element
codes of R338. -/
def addElem (el : Elem) (old v : Nat) : Nat :=
  match el with
  | .int b _ => (old + v) % 2 ^ (8 * b)
  | .float f => (roundFloat f nearestEven false (addVal false (decodeFloat f old) (decodeFloat f v)).1).bits

end Sys2Proof.Machine
end

