-- ==== Sys2Proof/Machine/Reeve.lean ====
section
/-! DEFINITION. The Reeves: how a request takes effect at its home (04 R109 to R112), flags and waits
(R94 to R98), and how replies and acknowledgements come home (R82, R83, R115, R116). -/

namespace Sys2Proof.Machine

/-- What a request leaves when it has taken effect, or that it waits. -/
inductive Performed where
  | done (s : State) (value : List Byte) (found : Bool) (trap : Option (Nat × Word))
  | waitLine (l : Nat)
  /-- a chase waits for a moving extent (R41) -/
  | waitExtent (s : State) (req : Req)
  /-- a chase goes on at another home with the rest of its hops (R112) -/
  | forward (s : State) (target : Target) (req : Req)
  deriving DecidableEq, Repr

/-! ### Errors met at a home (R88) -/

/-- Bytes of a write in words that it does not write whole, whose check bits it must read. -/
def partly (l : List Nat) : List Nat := l.filter fun pa => !((List.range 8).all fun i => l.contains (pa / 8 * 8 + i))

/-- Bytes whose check bits a request reads at byte `pa`. -/
def checkedBytes (r : Req) (pa : Nat) : List Nat :=
  match r with
  | .store bs | .deliver bs => partly (bs.map fun e => pa + e.1)
  | .adds elem items _ => items.flatMap fun e => consecutive (pa + e.1) (((elemOf elem false).map Elem.bytes).getD 1)
  | .lines .. | .lineState | .page .. | .tableChange _ | .chase .. | .logRecord _ => []
  | r => consecutive pa r.span

/-! ### Operations of Table 4-3 -/

/-- The race check at its home of a line or sector that a Reeve operation reaches beyond the one checked at issue. -/
def State.raceAt (s : State) (a : Access) (pa : Nat) (addr : Word) : State × Option Word :=
  s.raceScalar a.thread (.byte pa) addr kAtomic true a.info.scope false

/-- The header of a Reeve ring (Table 11-2) at `pa`; none when the ring is malformed or leaves the
Reeve's storage (R281). -/
def ringOf (s : State) (pa : Nat) : Option (Word × Word × Nat) :=
  let head := s.loadLE pa 8
  let tail := s.loadLE (pa + 8) 8
  let mask := (s.loadLE (pa + 16) 8).toNat
  let cap := mask + 1
  let last := pa + 32 + 8 * cap
  let within :=
    if pa < hbmBase then decide (pa / 2 ^ 16 = (last - 1) / 2 ^ 16) && decide ((last - 1) % 2 ^ 16 < 0xC100)
    else decide (pa / 256 = (last - 1) / 256)
  if (List.range 13).any (fun k => cap == 2 ^ k) && s.loadLE (pa + 24) 8 == 0 && within then some (head, tail, cap)
  else none

/-- The entry that an operation on a ring reads or writes: its line is checked when it is not the header's. -/
def ringEntry (s : State) (a : Access) (pa e : Nat) (k : State → Performed) : Performed :=
  if lineOf e = lineOf pa then k s
  else
    match s.raceAt a e (a.addr + BitVec.ofNat 64 (e - pa)) with
    | (s, some v) => .done s [] false (some (0x11, v))
    | (s, none) => k s

/-- ENQ on the ring at `pa`: found when appended. -/
def ringEnq (s : State) (a : Access) (pa : Nat) (v : Word) : Performed :=
  match ringOf s pa with
  | none => .done s [] false (some (0x05, a.addr))
  | some (head, tail, cap) =>
      if tail - head = BitVec.ofNat 64 cap then .done s [] false none
      else
        let e := pa + 32 + 8 * (tail.toNat % cap)
        ringEntry s a pa e fun s =>
          let t := (s.storeLE e 8 v).storeLE (pa + 8) 8 (tail + 1)
          let t := s.examineWritten t (consecutive (pa + 8) 8 ++ consecutive e 8) a.parish
          .done ((t.raceMark a.thread pa a.info.scope).raceMark a.thread e a.info.scope) [] true none

/-- DEQ on the ring at `pa`: the entry removed. -/
def ringDeq (s : State) (a : Access) (pa : Nat) : Performed :=
  match ringOf s pa with
  | none => .done s [] false (some (0x05, a.addr))
  | some (head, tail, cap) =>
      if head = tail then .done s (littleEndian (0 : Word) 8) false none
      else
        let e := pa + 32 + 8 * (head.toNat % cap)
        ringEntry s a pa e fun s =>
        match s.findError (consecutive e 8) with
        | (s, true) => .done s [] false (some (0x16, a.addr))
        | (s, false) =>
          .done ((s.examineWritten (s.storeLE pa 8 (head + 1)) (consecutive pa 8) a.parish).raceMark a.thread pa a.info.scope)
            (littleEndian (s.loadLE e 8) 8) true none

/-- The next pointer of a chase's node, whose key lies at byte `kpa`, or what the node ends the walk with. The line of the pointer
is checked when it is not the key's (R138). -/
def chaseNext (s : State) (a : Access) (home : Nat × Bool) (p : Word) (kpa : Nat) (nt : Check) (left : Nat)
    (k : State → Word → Performed) : Performed :=
  match nt with
  | .trap c _ => .done s [] false (some (c, p))
  | .ok t =>
      match s.targetByte t with
      | none => .done s [] false (some (0x09, p))
      | some npa =>
        if homeOfByte npa ≠ home then .done s [] false (some (0x05, p))
        else
          match if lineOf npa = lineOf kpa then (s, none) else s.raceAt a npa p with
          | (s, some v) => .done s [] false (some (0x11, v))
          | (s, none) =>
            match s.findError (consecutive npa 8) with
            | (s, true) => .done s [] false (some (0x16, p))
            | (s, false) =>
              let n := s.loadLE npa 8
              if n = 0 ∨ left = 0 then .done s (littleEndian p 8) true none else k s n
  | _ => .done s [] false (some (0x09, a.addr))

/-- The hops of a chase that stay within one Reeve's storage (R112, R282), from node `p` with `left` hops left, on a fuel
of 17 nodes. -/
def chaseSegment (s : State) (a : Access) (home : Nat × Bool) (key : Word) (koff noff : Nat) :
    Nat → Word → Nat → Performed
  | 0, p, _ => .done s (littleEndian p 8) true none
  | fuel + 1, p, left =>
      let here := Req.chase key koff noff p left
      let kc := s.checkScalar a.thread (p + BitVec.ofNat 64 koff) 8 8 rA false
      let nc := s.checkScalar a.thread (p + BitVec.ofNat 64 noff) 8 8 rA false
      match kc with
      | .trap c _ => .done s [] false (some (c, p))
      | .moving => .waitExtent s here
      | .drop => .done s [] false (some (0x17, p))
      | .ok kt =>
          match s.targetByte kt with
          | none => .forward s kt here
          | some kpa =>
            if homeOfByte kpa ≠ home then .forward s kt here
            else
              match if p = a.addr then (s, none) else s.raceAt a kpa p with
              | (s, some v) => .done s [] false (some (0x11, v))
              | (s, none) =>
                match s.findError (consecutive kpa 8) with
                | (s, true) => .done s [] false (some (0x16, p))
                | (s, false) =>
                  if s.loadLE kpa 8 = key then .done s (littleEndian p 8) true none
                  else if nc = .moving then .waitExtent s here
                  else chaseNext s a home p kpa nc left fun s n => chaseSegment s a home key koff noff fuel n (left - 1)

/-- Element adds at `pa`, each one Reeve operation (R110) and a read-modify-write (R127); `fill` marks their lines full
(R348). -/
def State.addElems (s : State) (elem pa : Nat) (items : List (Nat × Word)) (fill : Bool) : State :=
  match elemOf elem false with
  | some el =>
      let s := items.foldl (fun s e =>
        let old := (s.loadLE (pa + e.1) el.bytes).toNat
        s.setBytes (bytesAt (pa + e.1) el.bytes (BitVec.ofNat 64 (addElem el old e.2.toNat)))) s
      if fill then
        (items.foldl (fun l e => NSet.insert l (lineOf (pa + e.1))) []).foldl (fun s l => s.fillLine l) s
      else s
  | none => s

/-- A Carter or Carillon delivery lands: its lines become full (R60). -/
def State.deliverAt (s : State) (bs : List (Nat × Byte)) : State :=
  let ls := bs.foldl (fun l e => NSet.insert l (lineOf e.1)) []
  ls.foldl (fun s l => s.fillLine l) (s.write bs)

/-- The bytes that the store buffer supplies to a load of `n` bytes at byte `pa`, and the stores read early. -/
def State.loadOverlay (s : State) (a : Access) (pa n : Nat) : List (Nat × Byte) × List Nat :=
  if a.reader.isThread then s.overlay a.thread (consecutive pa n) else ([], [])

/-- The stamps that an access takes in as it is performed at byte `pa`: those of the bytes that it reads there (R127). -/
def State.stampsRead (s : State) (a : Access) (pa : Nat) : List Stamp :=
  match a.req with
  | .load n =>
      let ov := (s.loadOverlay a pa n).1
      if ov.isEmpty then s.stampsIn pa n
      else
        (List.range n).foldl (fun l i => if ov.any (·.1 == i) then l
          else l ++ (s.stampsAt (pa + i)).filter fun st => !l.contains st) []
  | _ => []

/-- Words change at byte `pa` by a read-modify-write: a flag among them is examined (R96). -/
def State.modifyAt (s : State) (a : Access) (pa n : Nat) (bs : List (Nat × Byte)) : State :=
  s.examineWritten (s.setBytes bs) (consecutive pa n) a.parish

/-- The request takes effect on the storage at byte `pa` (Table 4-3). A CAS marks the shadow state when it stores. -/
def performAt (s : State) (a : Access) (pa : Nat) : Performed :=
  match a.req with
  | .load n =>
      match s.firstEmpty (consecutive pa n) with
      | some l => .waitLine l
      | none =>
        let (ov, early) := s.loadOverlay a pa n
        .done (s.readEarly a.thread early) (applyOverlay (s.bytes (consecutive pa n)) ov) true none
  | .store bs =>
      let l := bs.map fun e => (pa + e.1, e.2)
      let ps := l.map (·.1)
      let s' := (s.setBytes l).refreshed ps
      let s' := if a.info.release then s'.headStamps ps a.info.stamp else s'.dropStamps ps
      .done (s.examineWritten s' ps a.parish) [] true none
  | .amo op ty v =>
      let n := amoBytes ty
      let old := s.loadLE pa n
      .done (s.modifyAt a pa n (bytesAt pa n (amoResult op ty old v))) (s.bytes (consecutive pa n)) true none
  | .cas n e v =>
      let old := s.bytes (consecutive pa n)
      let hit := old == littleEndian e n
      .done (if hit then (s.modifyAt a pa n (bytesAt pa n v)).raceMark a.thread pa a.info.scope else s) old hit none
  | .casBlock e v =>
      let old := s.bytes (consecutive pa e.length)
      let hit := old == e
      .done (if hit then
          (s.modifyAt a pa v.length ((consecutive pa v.length).zip v)).raceMark a.thread pa a.info.scope
        else s) old hit none
  | .enq v => ringEnq s a pa v
  | .deq => ringDeq s a pa
  | .chase key koff noff node left => chaseSegment s a (homeOfByte pa) key koff noff 17 node left
  | .lines op n =>
      .done (s.setLines (op = 1) ((List.range n).map fun i => lineOf pa + i)) [] true none
  | .lineState => .done s [] (!s.lineEmpty (lineOf pa)) none
  | .flagAdd v => .done (s.changeFlag pa (s.loadLE pa 8 + v) a.info.stamp a.parish) [] true none
  | .waitFor _ _ => .done s [] true none
  | .peek => .done s (s.bytes (consecutive pa 8)) true none
  | .adds elem items fill =>
      .done (s.examineWritten (s.addElems elem pa items fill) (items.flatMap fun e => consecutive (pa + e.1) 8) a.parish) [] true
        none
  | .deliver bs =>
      let l := bs.map fun e => (pa + e.1, e.2)
      .done (s.examineWritten (s.deliverAt l) (l.map (·.1)) a.parish) [] true none
  | .logRecord words =>
      let l := (consecutive pa (8 * words.length)).zip (words.flatMap fun w => littleEndian w 8)
      .done (s.examineWritten (s.write l) (l.map (·.1)) a.parish) [] true none
  | .page _ _ | .tableChange _ => .done s [] true none

/-- A posted request is acknowledged on the control class; any other is replied to. -/
def Access.isPosted (a : Access) : Bool := a.posted || a.group != 0 ||
  (match a.req with
   | .store _ | .flagAdd _ | .waitFor _ _ | .logRecord .. | .page .. | .tableChange _ => true
   | _ => false)

/-- Sends the reply, the acknowledgement or the home's report of a performed access (R82, R90). Nothing waits for that of a
source that has been reset (R85). -/
def State.respond (s : State) (id : Nat) (a : Access) (from' : Nat) : State :=
  if a.orphan then { s with accesses := dropRec s.accesses id }
  else if a.group ≠ 0 then s.send (.report id) .control a.parish from' a.src false
  else if a.isPosted then s.send (.ack id) .control a.parish from' a.src false
  else s.send (.reply id) .response a.parish from' a.src false

/-- The reply store of the Reeve that serves an access (R83). -/
def Node.store (n : Node) (channel : Bool) : List (Nat × Nat × Nat) := if channel then n.channelReplies else n.replies
def Node.setStore (n : Node) (channel : Bool) (l : List (Nat × Nat × Nat)) : Node :=
  if channel then { n with channelReplies := l } else { n with replies := l }

/-- The flags of a group whose writes have all been performed, none with an error: the Carter sends the source-free increment
no later than the delivered one, which the node `from'` sends (R90, R100). -/
def State.countGroup (s : State) (g : Group) (from' : Nat) : State :=
  let s := if g.sourceFree = 0 then s else s.countFlag g.node g.thread g.parish g.sourceFree g.stamp
  if g.flag = 0 then s else s.countFlag from' g.thread g.parish g.flag g.stamp

/-- A reply store has a place for an access with `n` partners: one for each of the adds that it stands for (R79, R83). -/
def Node.storeRoom (v : Node) (channel : Bool) (n : Nat) : Bool := decide ((v.store channel).length + n < Config.replyStore)

/-- A request finds the reply store full: it is dropped, and a busy notice goes to its source (R83). -/
def State.sendBusy (s : State) (pk id : Nat) (a : Access) (from' : Nat) : State :=
  (s.dropPacket pk).send (.busy id) .control a.parish from' a.src false

/-- Every write of a group has been performed: when all of its data lies at one home, that home sends the increment
(R90). -/
def State.groupSettled (s : State) (gid : Nat) : State :=
  let g : Group := AMap.get {} s.groups gid
  match g.homes with
  | [h] =>
      if g.sealed && !g.failed && !(s.accesses.any fun e => e.2.group == gid && !e.2.performed) then
        { s with groups := AMap.set {} s.groups gid { g with flag := 0, sourceFree := 0 } }.countGroup g h.1
      else s
  | _ => s

/-- A home has performed a write of a group. -/
def State.groupHome (s : State) (gid home : Nat) (ch failed : Bool) : State :=
  if gid = 0 then s
  else
    let g : Group := AMap.get {} s.groups gid
    let g : Group := { g with homes := if g.homes.contains (home, ch) then g.homes else g.homes ++ [(home, ch)],
                              failed := g.failed || failed }
    { s with groups := AMap.set {} s.groups gid g }.groupSettled gid

/-- The adds combined into an access have been performed with it (R79). -/
def State.concludePartners (s : State) (a : Access) (home : Nat) (ch : Bool) (trap : Option (Nat × Word)) : State :=
  a.partners.foldl (fun s k =>
    match s.access? k with
    | some b =>
        ((s.modAccess k fun x => { x with performed := true, trap := trap }).modNode home fun n =>
          n.setStore ch (n.store ch ++ [(b.src, b.seq, k)])).pokeTurns k
    | none => s) s

/-- The access has taken effect: it is recorded in the reply store, its flag is counted by this home
(R90), and its outcome goes back. -/
def State.concludeAt (s : State) (pk id : Nat) (a : Access) (home : Nat) (ch : Bool) (value : List Byte)
    (found : Bool) (trap : Option (Nat × Word)) (sts : List Stamp) : State :=
  let s := s.dropPacket pk
  let s := s.modAccess id fun x =>
    { x with performed := true, value := value, found := found, trap := trap, stamps := sts }
  let s := s.modNode home fun n => n.setStore ch (n.store ch ++ [(a.src, a.seq, id)])
  let s := match a.flag, trap with
    | some f, none => s.countFlag home a.thread a.parish f a.info.stamp
    | _, _ => s
  (((s.groupHome a.group home ch trap.isSome).concludePartners a home ch trap).respond id a home).pokeTurns id

/-- A forwarded request has come to its owner and goes on to the channel Reeve that serves its byte (R42, R65). -/
def State.redirect (s : State) (pk : Nat) (p : Packet) (id : Nat) (a : Access) : Option State :=
  match a.target with
  | .byte _ => none
  | .forwarded .. =>
      (s.targetByte a.target).bind fun pa =>
        let (n, ch) := homeOfByte pa
        if n = p.dst ∧ ch = p.channel then none
        else
          some (((s.dropPacket pk).modAccess id fun x => { x with dst := n, channel := ch }).send (.request id) .request
            a.parish p.dst n ch)

/-- A request that has arrived meets the protection of R83: a duplicate of one already performed gets
the held outcome again, one whose original is in progress is discarded, and a full reply store answers
busy. One that must follow an older access of its thread waits (R124). `k` performs a request that is new. -/
def State.protected (s : State) (pk : Nat) (k : State → Packet → Nat → Access → State) : State :=
  match s.packet? pk with
  | none => s
  | some p =>
    match p.payload with
    | .request id =>
      match s.access? id with
      | none => s.dropPacket pk
      | some a =>
        if decide (p.loc = .delivered) then
          match s.redirect pk p id a with
          | some s => s
          | none =>
          if a.performed then
            if ((s.node p.dst).store p.channel).any (·.2.2 == id) then (s.dropPacket pk).respond id a p.dst
            else s.dropPacket pk
          else if s.packets.any fun e => e.1 != pk && decide (e.2.payload = .request id) &&
              (match e.2.loc with
               | .waitingLine _ | .waitingExtent | .waitingTurn => true
               | _ => false) then s.dropPacket pk
          else if !(s.node p.dst).storeRoom p.channel a.partners.length then s.sendBusy pk id a p.dst
          else if s.mustWait id a then s.modPacket pk fun p => { p with loc := .waitingTurn }
          else k s p id a
        else s
    | _ => s

/-- A request ends at its home with a cause: it does not take effect, and no flag of it is counted (R93). -/
def State.endAt (s : State) (pk id : Nat) (a : Access) (p : Packet) (cause : Nat) (v : Word) : State :=
  s.concludeAt pk id { a with flag := none } p.dst p.channel [] false (some (cause, v)) []

/-- A request meets an uncorrectable error (R88). -/
def State.failAt (s : State) (pk id : Nat) (a : Access) (p : Packet) : State := s.endAt pk id a p 0x16 a.addr

/-- The race check that a home makes for an access whose issuer had no byte to check (R138). -/
def State.lateRace (s : State) (id : Nat) (a : Access) (pa : Nat) : State × Option Word :=
  match a.unraced with
  | none => (s, none)
  | some (kind, atomic, scope, writes) =>
      (s.modAccess id fun x => { x with unraced := none }).raceScalar a.thread (.byte pa) a.addr kind atomic scope writes

/-- A chase goes on at the home of its next node, and its chip counts the request there (R43, R112). -/
def State.forwardChase (s : State) (pk id : Nat) (a : Access) (p : Packet) (t : Target) (r : Req) : State :=
  let s := match r with
    | .chase _ _ _ node _ =>
        if isPlace node then s else s.countExtent (chipOfThread a.thread) a.parish (handleObj node) (handleOff node)
    | _ => s
  let s := (s.dropPacket pk).modAccess id fun x =>
    { x with target := t, req := r, dst := (targetHome t).1, channel := (targetHome t).2 }
  s.send (.request id) .request a.parish p.dst (targetHome t).1 (targetHome t).2

/-- A Reeve performs a request at one point of its order (R109). An uncorrectable error found by the
access raises a machine check, and the access does not complete (R88). A forwarded posted write whose owner has the
extent unbacked waits at the owner until the descriptor changes, with no fault: the spec does not say what becomes of it.
DESIGN CHOICE, log 93. -/
def execReeveOperation (pk : Nat) (uncorrectable : Bool) (s : State) : Out :=
  .next (
    let s := match s.packet? pk with
      | some p =>
          match p.loc with
          | .waitingLine l => if s.lineEmpty l then s else s.modPacket pk fun p => { p with loc := .delivered }
          | .waitingExtent => s.modPacket pk fun p => { p with loc := .delivered }
          | _ => s
      | none => s
    s.protected pk fun s p id a =>
      if uncorrectable then
        (s.machineCheck p.dst (if p.channel then 1 else 0) a.addr).failAt pk id a p
      else
        match s.targetByte a.target with
        | none =>
          match a.target with
          | .forwarded chip parish obj off =>
            match s.residency chip parish obj off with
            | .owned c =>
                let t := Target.forwarded c parish obj off
                let s := (s.dropPacket pk).modAccess id fun x => { x with target := t }
                s.send (.request id) .request a.parish p.dst (targetHome t).1 true
            | .unbacked =>
                if a.isPosted && decide (a.reader = .thread) then s.modPacket pk fun p => { p with loc := .waitingExtent }
                else s.concludeAt pk id a p.dst p.channel [] false (some (0x09, a.addr)) []
            | _ => s.modPacket pk fun p => { p with loc := .waitingExtent }
          | .byte _ => s
        | some pa =>
          match s.findError (checkedBytes a.req pa) with
          | (s, true) => s.failAt pk id a p
          | (s, false) =>
            match s.lateRace id a pa with
            | (s, some v) => s.endAt pk id a p 0x11 v
            | (s, none) =>
              match performAt s a pa with
              | .waitLine l => s.modPacket pk fun p => { p with loc := .waitingLine l }
              | .waitExtent s r =>
                  (s.modAccess id fun x => { x with req := r }).modPacket pk fun p => { p with loc := .waitingExtent }
              | .forward s t r => s.forwardChase pk id a p t r
              | .done s' v f t => s'.concludeAt pk id a p.dst p.channel v f t (s.stampsRead a pa))

/-- A flag increment or CADD takes its point in the flag's Reeve order (R96). -/
def execFlagIncrement (pk : Nat) (s : State) : Out :=
  .next (s.protected pk fun s p id a =>
    match a.req, s.targetByte a.target with
    | .flagAdd v, some pa =>
        match s.findError (consecutive pa 8) with
        | (s, true) => s.failAt pk id a p
        | (s, false) =>
          let s := s.changeFlag pa (s.loadLE pa 8 + v) a.info.stamp a.parish
          s.concludeAt pk id a p.dst p.channel [] true none []
    | _, _ => s)

/-- The entry a wait takes (R94): the one reserved for the waiter's slot when the flag is in its node
and no saved context still holds it, and otherwise the lowest free shared entry. -/
def watchIndex (n : Node) (home thread : Nat) : Option Nat :=
  let mine := 8 * (coreOfThread thread % 16) + slotOfThread thread
  if nodeOfThread thread = home ∧ !(n.watches.any (·.index == mine)) then some mine
  else
    ((List.range (Config.watchEntries - Config.watchReserved)).map (· + Config.watchReserved)).find? fun i =>
      !(n.watches.any (·.index == i))

/-- Inserts an entry in entry order. -/
def insertWatch (l : List Watch) (w : Watch) : List Watch :=
  match l with
  | [] => [w]
  | v :: r => if w.index < v.index then w :: v :: r else v :: insertWatch r w

/-- A wait arrives at its flag's home (R95). -/
def execWaitRegistration (pk : Nat) (s : State) : Out :=
  .next (s.protected pk fun s p id a =>
    match a.req, s.targetByte a.target with
    | .waitFor n sub, some pa =>
        match s.findError (consecutive pa 8) with
        | (s, true) => s.failAt pk id a p
        | (s, false) =>
        let f := s.loadLE pa 8
        let home := p.dst
        let done (s : State) : State := s.concludeAt pk id a home p.channel [] true none []
        if f = n then
          let sts := s.stampsIn pa 8
          let s := if sub then s.changeFlag pa (f - n) {} a.parish else s
          done (s.wakeNoticeFor home a.thread id false sts a.parish)
        else if n < f then done (s.wakeNoticeFor home a.thread id true [] a.parish)
        else
          match watchIndex (s.node home) home a.thread with
          | some i =>
              let w : Watch := { index := i, flag := pa, place := a.addr, n := n, subtracts := sub,
                                 thread := a.thread, acc := id }
              done (s.modNode home fun v => { v with watches := insertWatch v.watches w })
          | none => (s.dropPacket pk).send (.busy id) .control a.parish home a.src false
    | _, _ => s)

/-- A registered wait ends with a cause: its thread takes it, or, while its context is saved, its record holds it for the
resumption (R98). None when there is no such wait. -/
def State.failWait (s : State) (id cause : Nat) (v : RegWait → Word) : Option State :=
  let is (c : Slot) : Bool := c.wait.any fun w : RegWait => w.id == id
  match s.slots.find? fun e => is e.2 with
  | some (t, c) => some ((s.modSlot t fun c => { c with wait := none }).trapIn t cause ((c.wait.map v).getD 0))
  | none =>
    (s.saved.find? fun e => is e.2).map fun (r, c) =>
      let s := s.write (bytesAt (r + 0x358) 8 (s.loadLE (r + 0x358) 8 ||| 4))
      let s := (s.write (bytesAt (r + 0x3B0) 8 (BitVec.ofNat 64 cause))).write (bytesAt (r + 0x3C0) 8 ((c.wait.map v).getD 0))
      { s with saved := AMap.set {} s.saved r { c with wait := c.wait.map fun w => { w with received := true } } }

/-- A wake notice arrives (R97): the thread resumes after its instruction, or takes the overrun trap; a
saved context has the notice recorded in its record (R98). -/
def execWakeNotice (pk : Nat) (s : State) : Out :=
  .next (match s.packet? pk with
    | none => s
    | some p =>
      match p.payload, p.loc with
      | .wake _ acc overrun sts, .delivered =>
        let s := s.dropPacket pk
        if overrun then (s.failWait acc 0x0C (·.flag)).getD s
        else
          match s.slots.find? fun e => e.2.wait.any fun w : RegWait => w.id == acc with
          | some (t, _) => ((s.modSlot t fun c => { c with wait := none }).acquire t sts).finishOf t
          | none =>
            match s.saved.find? (fun e => e.2.wait.any (·.id == acc)) with
            | none => s
            | some (r, c) =>
              let s := s.write (bytesAt (r + 0x358) 8 (s.loadLE (r + 0x358) 8 ||| 4))
              let c : Slot := { c with wait := c.wait.map fun w => { w with received := true, stamps := sts } }
              { s with saved := AMap.set {} s.saved r c }
      | _, _ => s)

/-- Frees the destination's hold on an outcome once the source has acknowledged it (R83). -/
def State.sendFreed (s : State) (id : Nat) (a : Access) (from' : Nat) : State :=
  s.send (.freed id) .control a.parish a.src from' false

/-- An engine operation's access has come home: its write is visible, and the engine goes on (R102,
R115). -/
def State.opProgress (s : State) (op : Nat) : State :=
  if op = 0 then s
  else
    let s := s.modOp op fun o => { o with outstanding := o.outstanding - 1 }
    match s.op? op with
    | some o =>
        if o.finished && o.outstanding == 0 then s.event (.engineCompletion op) else s
    | none => s

/-- A posted access, or a wait, ended with a cause at its home (R88): the thread of a wait takes it at once, and that of a posted
access later (log 87). -/
def State.landError (s : State) (id : Nat) (a : Access) : State :=
  match a.trap with
  | none => s
  | some (c, v) =>
    match s.failWait id c fun _ => v with
    | some s => s
    | none =>
      if a.posted && s.ofThread a then
        s.modContext a.thread a.saved fun k => { k with writeError := some (k.writeError.getD (c, v)) }
      else s

/-- The registers a reply writes, and the trap it brings instead (R51, R272, R277 to R282). -/
def landReply (s : State) (a : Access) : State :=
  let t := a.thread
  let d : Field4 := BitVec.ofNat 4 a.dest
  match a.trap with
  | some (c, v) => s.trapIn t c v
  | none =>
    let flagBit : Word := if a.found then 1 else 0
    match a.req with
    | .load _ =>
        let w := extend a.size a.sx (wordOfBytes a.value)
        let s := if a.info.acquire then s.acquire t a.stamps else s
        match a.parcel with
        | none => (s.setRegOf t d w).finishOf t
        | some (o, len) =>
          match parcelLoad o len w with
          | some h => (s.setRegOf t d h).finishOf t
          | none => s.trapIn t 0x0B w
    | .amo .. | .cas .. => (s.setRegOf t d (extend a.size a.sx (wordOfBytes a.value))).finishOf t
    | .casBlock .. => ((s.setRegOf t d flagBit).write (a.block.zip a.value)).finishOf t
    | .enq _ => (s.setRegOf t d flagBit).finishOf t
    | .deq => ((s.setRegOf t d (wordOfBytes a.value)).setRegOf t (BitVec.ofNat 4 a.dest2) flagBit).finishOf t
    | .chase .. | .peek => (s.setRegOf t d (wordOfBytes a.value)).finishOf t
    | .lineState => (s.setRegOf t d flagBit).finishOf t
    | _ => s.finishOf t

/-- Line `l` of an object enters the code cache of a thread's node: 64 KiB of 128-byte lines. DESIGN CHOICE, log 11. -/
def State.keepLine (s : State) (thread key l : Nat) (bs : List Byte) : State :=
  s.modNode (nodeOfThread thread) fun v =>
    { v with codeCache := (v.codeCache ++ [(key, l, bs)]).drop (v.codeCache.length + 1 - 512) }

/-- A line that an engine operation, a pass, a fetch, a LAUNCH or a host's copy has read, or the copy has written, comes home. -/
def State.landLine (s : State) (a : Access) : State :=
  let r : LineRead := { at' := a.dest, bytes := a.value, trap := a.trap }
  match a.reader with
  | .thread => s
  | .op id => (s.modOp id fun o => { o with reads := o.reads ++ [r] }).pushOnce (.command id)
  | .pass die roll page =>
      (s.modRoll die roll fun v =>
        { v with running := v.running.map fun q => if q.page = page then { q with reads := q.reads ++ [r] } else q }).event
        (.pageWalk die roll)
  | .fill t =>
      match a.trap with
      | some (c, _) => if parkedOn .code (s.slot t) then s.trapIn t c (s.slot t).pc else s
      | none =>
          s.keepLine t (objKey a.parish (chipOfThread t) (handleObj a.addr)) (handleOff a.addr / 128) a.value
  | .launch sub =>
      let v := s.submission sub
      (s.setSubmission sub { v with reads := v.reads ++ [r] }).push (.again a.thread)
  | .host p seq =>
      let took (c : HostCommand) : HostCommand := if c.seq = seq then { c with reads := [r] } else c
      let s := s.modParish p fun v => { v with commands := v.commands.map took }
      if (s.parish p).commands.any fun c => c.seq == seq && c.opcode == 2 then s.event (.copyin p seq) else s.event (.copyout p seq)

/-- A reply lands in its reserved place (R113, R116): its thread goes on, or what read the line. -/
def execReplyLands (pk : Nat) (s : State) : Out :=
  .next (match s.packet? pk with
    | none => s
    | some p =>
      match p.payload, p.loc with
      | .reply id, .delivered =>
        let s := s.dropPacket pk
        match s.access? id with
        | some a =>
          let s := (s.retireAccess id).sendFreed id a p.src
          if (s.slot a.thread).state = .parked (.reply id) then landReply s a else s.landLine a
        | none => s
      | _, _ => s)

/-- The copy that a source keeps is sent again (R82). -/
def State.resend (s : State) (acc : Nat) (a : Access) : State :=
  match a.req with
  | .page _ q => s.sendMulticast (.page [acc] q a.value) a.parish a.src [(a.dst, acc)]
  | .tableChange c => s.sendMulticast (.change [acc] c) a.parish a.src [(a.dst, acc)]
  | _ => s.send (.request acc) .request a.parish a.src a.dst a.channel

/-- A busy notice makes the source send again after 1 µs, which counts as no retry; the retry timer stands still until then
(R83, R95). -/
def execBusyNotice (pk : Nat) (s : State) : Out :=
  .next (match s.packet? pk with
    | none => s
    | some p =>
      match p.payload, p.loc with
      | .busy id, .delivered =>
        let s := s.dropPacket pk
        match s.access? id with
        | some a => (s.dropRetry id).timer (coreOfThread a.thread) 4000 (.event (.busyResend id))
        | none => s
      | _, _ => s)

/-- The resend of a request that met a busy notice; the argument is the access's number. DEDUCED, log 78. -/
def execBusyResend (acc : Nat) (s : State) : Out :=
  .next (match s.access? acc with
    | some a =>
        if s.saved.any fun e => e.2.wait.any fun w : RegWait => w.id == acc then s
        else (s.resend acc a).armRetry acc a a.dst
    | none => s)

end Sys2Proof.Machine
end

