-- ==== Sys2Proof/Machine/Tile.lean ====
section
/-! DEFINITION. What every tile command shares: its operands, tiles and shapes, lane guards, rounding and
element codes, and the pieces of its checks (08 R202 to R207; 12 R307 to R311; 13 R342). -/

namespace Sys2Proof.Machine

/-! ### Address and flag fields (R204) -/

/-- An address operand: a window offset, or a place or handle. -/
inductive Operand where
  | here (o : Nat)
  | far (a : Word)
  deriving DecidableEq, Repr

def isMarker (a : Word) : Bool := field a 40 24 == 0x7FFFFF
def markerOk (a : Word) : Bool := !isMarker a || field a 15 25 == 0
def operandOf (a : Word) : Operand := if isMarker a then .here (field a 0 15).toNat else .far a

/-- The number whose low bits place a byte of the operand in its line. -/
def Operand.base : Operand → Nat
  | .here o => o
  | .far a => a.toNat

/-- Bits 240:226 of the word, opb (R342), and bit 241. -/
def opbOf (w : Command) : Nat := (field w 226 15).toNat
def opbReserved (w : Command) : Bool := w.getLsbD 241

/-! ### Tiles and shapes (Table 11-5) -/

structure Shape where
  elem : Nat
  rows : Nat
  cols : Nat
  layout : Nat
  deriving DecidableEq, Repr

def shapeOf (w : Word) : Shape :=
  ⟨(field w 0 5).toNat, (field w 5 5).toNat, (field w 10 7).toNat, (field w 17 3).toNat⟩

def EngOp.shape (o : EngOp) (t : Field4) : Shape := shapeOf (o.shapes.toList.getD t.toNat 0)
def EngOp.tile (o : EngOp) (t : Field4) : TileName := o.tiles.toList.getD t.toNat {}

/-- Bytes of an element of a code; 0 for a code that names no format. -/
def codeSize (code : Nat) : Nat := ((elemOf code false).map Elem.bytes).getD 0

/-- Byte `i` of row `r` of a tile block (R55, R297). -/
def blockByte (core block r i : Nat) : Nat := coreByte core (0x8000 + 0x400 * block + 64 * r + i)

def EngOp.tileByte (o : EngOp) (t : Field4) (r i : Nat) : Nat := blockByte o.core (o.tile t).block.toNat r i

/-- The bits of element (r, l) of a tile, read under a code of `size` bytes. -/
def State.elem (s : State) (o : EngOp) (t : Field4) (r l size : Nat) : Nat :=
  (s.loadLE (o.tileByte t r (l * size)) size).toNat

/-- The (address, byte) list that writes element (r, l). -/
def EngOp.elemBytes (o : EngOp) (t : Field4) (r l size bits : Nat) : List (Nat × Byte) :=
  bytesAt (o.tileByte t r (l * size)) size (BitVec.ofNat 64 bits)

/-! ### Formats, rounding, ranges, guards -/

/-- The code of an element field and the element it names, through fm (R222). -/
def resolveCode (fm : Word) (lo x : Nat) (f : BitVec 5) : Option (Nat × Elem) :=
  let c := if f = 15 then (field fm lo 5).toNat else f.toNat
  (elemOf c (fm.getLsbD x)).map fun e => (c, e)

def codeA (fm : Word) (f : BitVec 5) : Option (Nat × Elem) := resolveCode fm 0 5 f
def codeB (fm : Word) (f : BitVec 5) : Option (Nat × Elem) := resolveCode fm 6 11 f
def codeD (fm : Word) (f : BitVec 5) : Option (Nat × Elem) := resolveCode fm 12 17 f

/-- An element for a code already checked. -/
def elemOr (x : Option (Nat × Elem)) : Elem := (x.map (·.2)).getD (.int 1 false)

/-- Rounding code and saturation of a command (R310); none when fm.RND is 6 or 7. -/
def roundOf (fm : Word) (f : TileFields) : Option (Nat × Bool) :=
  if f.rnd = 6 then
    let r := (field fm 24 3).toNat
    if 6 ≤ r then none else some (r, f.sat || fm.getLsbD 27)
  else some (f.rnd.toNat, f.sat)

/-- ROLL (R237). -/
def commandRoll (seed seedh : Word) (ctr : BitVec 32) : BitVec 32 := 
  rollZ (seed.setWidth 32) (seedh.setWidth 32) ctr

/-- The rounding for destination element (r, l), with its draw (R224). -/
def EngOp.rounding (o : EngOp) (code r l : Nat) : Rounding :=
  if code = 5 then ⟨5, (commandRoll o.seed o.seedh (BitVec.ofNat 32 (64 * r + l)) >>> 8).toNat⟩ else ⟨code, 0⟩

/-- The rows of a command over a tile of `rows` rows (R308). -/
def rowRange (f : TileFields) (rows : Nat) : Option (List Nat) :=
  let n := if f.count = 0 then rows - f.first.toNat else f.count.toNat
  if n = 0 ∨ rows < f.first.toNat + n then none else some ((List.range n).map (f.first.toNat + ·))

/-- The row after the last of the range. -/
def rowEnd (f : TileFields) (rows : Nat) : Nat := if f.count = 0 then rows else f.first.toNat + f.count.toNat

/-- Numbers from which the contexts of halted threads are kept for the operations they left running (R260); save records
lie below. -/
def haltedBase : Nat := 2 ^ 66

/-- The context of an operation's thread: its slot, or what is kept of it while it is saved. -/
def State.opSlot (s : State) (o : EngOp) : Slot :=
  if o.saved = 0 then s.slot o.thread else AMap.get {} s.saved o.saved

/-- Changes that context. -/
def State.modOpSlot (s : State) (o : EngOp) (f : Slot → Slot) : State :=
  if o.saved = 0 then s.modSlot o.thread f
  else { s with saved := AMap.set {} s.saved o.saved (f (AMap.get {} s.saved o.saved)) }

/-- The lane predicate of an operation's thread as it stands: in its slot, or in its saved context (R314). -/
def State.lanePredNow (s : State) (o : EngOp) (k : Nat) : BitVec 64 :=
  if o.saved = 0 || decide (haltedBase ≤ o.saved) then (s.opSlot o).k.toList.getD k 0
  else s.loadLE (o.saved + 0x240 + 8 * k) 8

/-- The lane predicate that an operation reads: the one that stood when it started (R314). -/
def State.lanePred (s : State) (o : EngOp) (k : Nat) : BitVec 64 :=
  match o.preds with
  | some v => v.toList.getD k 0
  | none => s.lanePredNow o k

def State.setLanePred (s : State) (o : EngOp) (k : Nat) (v : BitVec 64) : State :=
  if o.saved = 0 || decide (haltedBase ≤ o.saved) then s.modOpSlot o fun c => { c with k := c.k.setIfInBounds k v }
  else s.write (bytesAt (o.saved + 0x240 + 8 * k) 8 v)

/-- R309. -/
def enabled (f : TileFields) (k : BitVec 64) (size l : Nat) : Bool := !f.e || (k.getLsbD (size * l) != f.s)

/-! ### Pieces of the checks (Table 8-16) -/

/-- A failed check: its cause and tval. -/
abbrev Fail := Nat × Word

def need (b : Bool) (c : Nat) (v : Word) : Option Fail := if b then none else some (c, v)

/-- The first failure of a list of checks, in order. -/
def firstFail (l : List (Option Fail)) : Option Fail := l.findSome? id

/-- The window offset of the command word, as a tval. -/
def EngOp.at' (o : EngOp) : Word := BitVec.ofNat 64 o.offset

/-- How a command uses a tile field: not at all, as a tile, or as a tile or 12. -/
inductive Use where
  | unused | tile | optional
  deriving DecidableEq, Repr

def Use.ok (u : Use) (t : Field4) : Bool :=
  match u with
  | .unused => true
  | .tile => decide (t.toNat < 12)
  | .optional => decide (t.toNat < 13)

/-- Fields a command uses (R205). -/
structure Uses where
  td : Use := .unused
  ta : Use := .unused
  tb : Use := .unused
  tc : Use := .unused
  rows : Bool := false
  rnd : Bool := false
  opb : Bool := false
  deriving DecidableEq, Repr

/-- Steps 3 and 4. -/
def checkFields (o : EngOp) (f : TileFields) (u : Uses) : Option Fail :=
  need (((f.e || (!f.s && f.k == 0)) && f.zero == 0) &&
    (u.td.ok f.td && u.ta.ok f.ta && u.tb.ok f.tb && u.tc.ok f.tc && (!u.rnd || f.rnd != 7) &&
      (!u.rows || (decide (f.count.toNat ≤ 16) && (f.count == 0 || decide (f.first.toNat + f.count.toNat ≤ 16)))) &&
      (!u.opb || !opbReserved o.word))) 0x01 o.at'

/-- R307 for one tile: mapped, and shaped with elements of `size` bytes (any size for 0). -/
def checkTile (o : EngOp) (t : Field4) (size : Nat) : Option Fail :=
  if !(o.tile t).mapped then some (0x0D, o.at')
  else need (o.shape t |> fun h => h.elem != 0 && (size == 0 || codeSize h.elem == size)) 0x0E o.at'

/-- The first byte past a region of Table 2-3. -/
def regionEnd (r : Nat) : Nat := if r = 0 then 0x8000 else if r = 1 then 0xC000 else 0xC100

/-- Runs of bytes of an engine range: distance from its address, and length, in ascending order. -/
abbrev Spans := List (Nat × Nat)

/-- Bytes from a range's address to its end. -/
def spansEnd (l : Spans) : Nat := l.foldl (fun m e => Nat.max m (e.1 + e.2)) 0

/-- The first distance at or past `lim` that a range covers. -/
def firstPast (l : Spans) (lim : Nat) : Nat :=
  (l.findSome? fun e => if lim < e.1 + e.2 then some (Nat.max e.1 lim) else none).getD lim

/-- Where a range at offset `off` of a core meets the flag page without beginning and ending on 8-byte boundaries
(R28): the distance of the word it covers in part. DESIGN CHOICE, log 83. -/
def flagPageSplit (off : Nat) (l : Spans) : Option Nat :=
  l.findSome? fun e =>
    if 0xC000 < off + e.1 + e.2 ∧ off + e.1 < 0xC100 then
      if (off + e.1) % 8 ≠ 0 then some e.1
      else if (off + e.1 + e.2) % 8 ≠ 0 then some (e.1 + e.2 / 8 * 8) else none
    else none

/-- The checks of R39 and Table 2-9, steps 1 to 5, for a range at address `a` that an engine or a Carillon of chip `here` is to
reach: the first failing address is the tval. -/
def State.farFail (s : State) (here parish : Nat) (user : Bool) (a : Word) (l : Spans) (right : Nat) : Option Fail :=
  let n := spansEnd l
  if isPlace a then
    match flagPageSplit (placeOffset a) l with
    | some d => some (0x05, a + BitVec.ofNat 64 d)
    | none =>
      match s.checkPlace here parish a n true with
      | none => none
      | some c =>
          if placeFormOk a 1 && !placeFormOk a n then
            some (0x06, a + BitVec.ofNat 64 (firstPast l (regionEnd (regionOf (placeOffset a)) - placeOffset a)))
          else some (c, a)
  else
    let e := s.obj here parish (handleObj a)
    match checkEntry e (handleObj a) (handleOff a) n right user with
    | none => none
    | some 0x07 =>
        if handleObj a ≠ 0 ∧ e.state ≠ 0 ∧ handleOff a ≤ e.length then
          some (0x07, a + BitVec.ofNat 64 (firstPast l (e.length - handleOff a)))
        else some (0x07, a)
    | some c => some (c, a)

/-- The checks of a whole engine range. -/
def State.spansFail (s : State) (o : EngOp) (x : Operand) (l : Spans) (right : Nat) : Option Fail :=
  match x with
  | .here _ => none
  | .far a => s.farFail (chipOfCore o.core) o.parish (!(s.opSlot o).pl) a l right

/-- The same for `n` bytes on end. -/
def State.rangeFail (s : State) (o : EngOp) (x : Operand) (n right : Nat) : Option Fail := s.spansFail o x [(0, n)] right

/-- A flag field (R91, R204). -/
def State.flagFail (s : State) (o : EngOp) (fl : Word) : Option Fail :=
  if fl = 0 then none
  else if isMarker fl then need ((field fl 0 3) == 0) 0x05 (BitVec.ofNat 64 (field fl 0 15).toNat)
  else if !isPlace fl then some (0x06, fl)
  else
    match s.checkFlag (chipOfCore o.core) o.parish fl false with
    | .trap c v => some (c, v)
    | _ => none

/-- The place of window offset `x` of an operation. -/
def EngOp.place (o : EngOp) (x : Nat) : Word := placeOf o.core (o.wbase + x % o.span)

/-- The flag of a flag field as a place; 0 for none. -/
def EngOp.flagPlace (o : EngOp) (fl : Word) : Word :=
  if fl = 0 then 0 else if isMarker fl then o.place (field fl 0 15).toNat else fl

/-- Counts the flag of a finished operation. -/
def State.countOp (s : State) (o : EngOp) (fl : Word) : State :=
  if fl = 0 then s else s.countFlag (nodeOfCore o.core) o.thread o.parish (o.flagPlace fl) o.stamp

/-! ### Bytes of operands -/

/-- The byte of a window range. -/
def EngOp.windowByte (o : EngOp) (x : Nat) : Nat := Machine.windowByte o.core o.wbase o.span x

/-- Where byte `i` of an operand lies, with step 6 of Table 2-9. -/
def State.operandByte (s : State) (o : EngOp) (x : Operand) (i : Nat) : Check :=
  match x with
  | .here b => .ok (.byte (o.windowByte (b + i)))
  | .far a =>
    let here := chipOfCore o.core
    let a := a + BitVec.ofNat 64 i
    if isPlace a then
      if s.reaches here (placeChip here a) then .ok (.byte (placeByte here a)) else .trap 0x17 a
    else s.checkResidency here o.parish (handleObj a) (handleOff a) a false

/-- Steps 2 to 5 of Table 2-9 for one line of a handle operand: an entry that has changed since its command was checked
holds for what the command has still to do (R48). -/
def State.entryFail (s : State) (o : EngOp) (x : Operand) (i n right : Nat) : Option Fail :=
  match x with
  | .here _ => none
  | .far a =>
    let a := a + BitVec.ofNat 64 i
    if isPlace a then none
    else
      (checkEntry (s.obj (chipOfCore o.core) o.parish (handleObj a)) (handleObj a) (handleOff a) n right
        (!(s.opSlot o).pl)).map fun c => (c, a)

/-- The address of byte `i` of an operand, for a tval. -/
def Operand.address (x : Operand) (i : Nat) : Word :=
  match x with
  | .here b => BitVec.ofNat 64 (b + i)
  | .far a => a + BitVec.ofNat 64 i

/-- The generation of the object an operand names (Table 5-11). -/
def State.operandGen (s : State) (o : EngOp) (x : Operand) : Nat :=
  match x with
  | .here _ => 0
  | .far a => if isPlace a then 0 else (s.obj (chipOfCore o.core) o.parish (handleObj a)).gen

/-- Counts a line request of an engine to a handle's extent (R43). -/
def State.countOperand (s : State) (o : EngOp) (x : Operand) (i : Nat) : State :=
  match x with
  | .here _ => s
  | .far a =>
    let a := a + BitVec.ofNat 64 i
    if isPlace a then s else s.countExtent (chipOfCore o.core) o.parish (handleObj a) (handleOff a)

/-- Pieces of an `n`-byte transfer, none of which crosses a line at either end: place within the
transfer and length. -/
def piecesFrom (a b n : Nat) : Nat → Nat → List (Nat × Nat)
  | 0, _ => []
  | fuel + 1, i =>
      if n ≤ i then []
      else
        let k := Nat.min (n - i) (Nat.min (128 - (a + i) % 128) (128 - (b + i) % 128))
        (i, k) :: piecesFrom a b n fuel (i + k)

/-- The pieces from byte `i` on, at most `m` of them. -/
def pieces (a b n i m : Nat) : List (Nat × Nat) := piecesFrom a b n m i

/-- The lines of `n` bytes of the window from offset `x`, with their offsets as addresses. -/
def EngOp.windowLines (o : EngOp) (x n : Nat) : List (Nat × Word) :=
  (pieces x x n 0 (n / 128 + 2)).map fun p => (o.windowByte (x + p.1), BitVec.ofNat 64 (x + p.1))

/-- Nothing is under way that could still write what a command reads of the storage as it is checked: the writes of its thread,
and its thread's commands before it, are ordered before its reads (R129), which a check at issue may precede. -/
def State.quiet (s : State) (o : EngOp) : Bool :=
  decide (o.state = .running) ||
    (o.fence.isEmpty && !(s.ops.any fun e => e.2.thread == o.thread && e.2.core == o.core &&
      (decide (e.2.state = .queued) || decide (e.2.state = .running)) && decide (e.2 ≠ o)))

/-! ### Race checks of engine accesses (R138, R140) -/

def State.opAccessor (s : State) (o : EngOp) : Accessor :=
  { stamp := { o.stamp with valid := true }, race := o.race, evicted := (s.opSlot o).evicted, parish := o.parish,
    chip := chipOfCore o.core, thread := o.thread, user := !(s.opSlot o).pl }

/-- Checks the lines of a list of (byte, address); the tval of the first that faults. -/
def State.raceLines (s : State) (o : EngOp) (l : List (Nat × Word)) (gen : Nat) (writes : Bool) :
    State × Option Word :=
  if raceMode o.race = 0 then (s, none)
  else
    l.foldl (fun (acc : State × Option Word) e =>
      match acc.2 with
      | some _ => acc
      | none => acc.1.raceAccess (acc.1.opAccessor o) e.1 e.2 gen (if writes then kEngineWrite else kEngineRead) false 4 writes)
      (s, none)

/-- The rows of a tile as (byte, address) pairs, for the race detector. -/
def EngOp.rowPlaces (o : EngOp) (t : Field4) (rows : List Nat) : List (Nat × Word) :=
  rows.map fun r => (o.tileByte t r 0, placeOf o.core (o.tileByte t r 0 % 2 ^ 16))

/-- Rows of a tile that hold bytes in an empty line (R59). -/
def State.rowsEmpty (s : State) (o : EngOp) (t : Field4) (rows : List Nat) : Bool :=
  rows.any fun r => s.lineEmpty (lineOf (o.tileByte t r 0))

end Sys2Proof.Machine
end

