-- ==== Sys2Proof/Machine/Check.lean ====
section
/-! DEFINITION. The checks of a command word when it issues, steps 3 to 6 of Table 8-16, for every command
(12, 13). Steps 1 and 2 are those of `decodeCommand`. -/

namespace Sys2Proof.Machine

/-- Steps 3 to 5 in order, then step 6. -/
def checkSteps (o : EngOp) (f : TileFields) (u : Uses) (codes : Bool) (six : List (Option Fail)) : Option Fail :=
  firstFail ([checkFields o f u, need (codes && (!u.rnd || (roundOf o.fm f).isSome)) 0x01 o.at'] ++ six)

/-! ### The Loom (R316 to R320) -/

/-- Class (true for floating) and size of a code that TMMA accepts for A and B (Table 12-3). -/
def loomClass (x : Option (Nat × Elem)) : Option (Bool × Nat) :=
  match x with
  | some (c, .float f) => if c = 1 then none else some (true, f.bytes)
  | some (_, .int 1 _) => some (false, 1)
  | _ => none

def codeIn (x : Option (Nat × Elem)) (l : List Nat) : Bool :=
  match x with
  | some (c, _) => l.contains c
  | none => false

/-- Codes of A, B and D agree as R317 asks. -/
def tmmaCodes (a b d : Option (Nat × Elem)) : Bool :=
  match loomClass a, loomClass b with
  | some x, some y => x == y && (if x.1 then codeIn d [2, 3, 4] else codeIn d [6])
  | _, _ => false

/-- fm.SP, fm.BMA and fm.BMB. -/
def fmSP (fm : Word) : Nat := (field fm 22 2).toNat
def fmBMA (fm : Word) : Nat := (field fm 18 2).toNat
def fmBMB (fm : Word) : Nat := (field fm 20 2).toNat

/-- Whether A and B are stored transposed (Table 12-2). -/
def loomLayout (o : EngOp) (f : TileFields) : Option (Bool × Bool) :=
  match f.layout.toNat with
  | 0 => some (false, false)
  | 1 => some (false, true)
  | 2 => some (true, false)
  | 3 => some (true, true)
  | 7 =>
      let la := (o.shape f.ta).layout
      let lb := (o.shape f.tb).layout
      if la < 2 ∧ lb < 2 then some (la = 1, lb = 1) else none
  | _ => none

/-- The inner dimension as A (TMMS: as stored) and as B hold it. -/
def innerA (o : EngOp) (f : TileFields) (t : Bool) : Nat := if t then (o.shape f.ta).rows else (o.shape f.ta).cols
def innerB (o : EngOp) (f : TileFields) (t : Bool) : Nat := if t then (o.shape f.tb).cols else (o.shape f.tb).rows

/-- The shapes agree as R317 asks; `kA` is the length of A along K. -/
def loomShapes (o : EngOp) (f : TileFields) (kOfB : Nat → Nat) : Bool :=
  match loomLayout o f with
  | none => false
  | some (ta, tb) =>
      let d := o.shape f.td
      let a := o.shape f.ta
      let b := o.shape f.tb
      (if ta then a.cols else a.rows) == d.rows && (if tb then b.rows else b.cols) == d.cols &&
        innerA o f ta == kOfB (innerB o f tb)

/-- Step 6 of a Loom command: tiles (with the mask tile's check `mask`), td no source, row range, then `more`. -/
def loomSix (o : EngOp) (f : TileFields) (a b d : Option (Nat × Elem)) (mask more : List (Option Fail)) :
    List (Option Fail) :=
  [checkTile o f.td (elemOr d).bytes, checkTile o f.ta (elemOr a).bytes, checkTile o f.tb (elemOr b).bytes] ++ mask ++
  [need (f.td != f.ta && f.td != f.tb) 0x0E o.at',
   need (rowRange f (o.shape f.td).rows).isSome 0x0E o.at'] ++ more

def loomUses : Uses := { td := .tile, ta := .tile, tb := .tile, rows := true, rnd := true }

def checkTmma (o : EngOp) (f : TileFields) : Option Fail :=
  let a := codeA o.fm f.ed
  let b := codeB o.fm f.eb
  let d := codeD o.fm f.ea
  checkSteps o f loomUses (tmmaCodes a b d && fmSP o.fm == 0 && fmBMA o.fm == 0 && fmBMB o.fm == 0)
    (loomSix o f a b d [] [need (loomShapes o f id) 0x0E o.at'])

/-- Non-zeros of a group of 24 (R233). -/
def sparseCount (fm : Word) : Nat := if fmSP fm = 1 then 12 else 8

/-- The mask of group `g` of row `i` of the mask tile. -/
def State.mask (s : State) (o : EngOp) (f : TileFields) (i g : Nat) : Nat :=
  (s.loadLE (o.tileByte f.tc i (3 * g)) 3).toNat

def popcount (n : Nat) : Nat := ((List.range 24).filter n.testBit).length

/-- Every mask of the range has N positions set (R233). -/
def State.masksOk (s : State) (o : EngOp) (f : TileFields) : Bool :=
  match loomLayout o f with
  | some (_, tb) =>
      ((rowRange f (o.shape f.td).rows).getD []).all fun i =>
        (List.range (innerB o f tb / 24)).all fun g => popcount (s.mask o f i g) == sparseCount o.fm
  | none => true

/-- The mask rows are in full lines and can be checked; masks that may still be written are checked as the command runs (R129).
DEDUCED, log 28. -/
def State.masksReady (s : State) (o : EngOp) (f : TileFields) : Bool :=
  !s.rowsEmpty o f.tc ((rowRange f (o.shape f.td).rows).getD [])

def checkTmms (s : State) (o : EngOp) (f : TileFields) : Option Fail :=
  let a := codeA o.fm f.ed
  let b := codeB o.fm f.eb
  let d := codeD o.fm f.ea
  let mask := o.shape f.tc
  let k := match loomLayout o f with
    | some (_, tb) => innerB o f tb
    | none => 0
  let wide := match loomClass a with
    | some (_, n) => n != 4
    | none => false
  checkSteps o f { loomUses with tc := .tile } (tmmaCodes a b d && wide && (fmSP o.fm == 1 || fmSP o.fm == 2))
    (loomSix o f a b d [checkTile o f.tc 0, need (mask.elem == 8 || mask.elem == 11) 0x0E o.at']
      [need (f.td != f.tc) 0x0E o.at',
       need (match loomLayout o f with
         | some (ta, _) => !ta
         | none => false) 0x0E o.at',
       need (k % 24 == 0 && loomShapes o f (fun k => k / 24 * sparseCount o.fm) &&
         mask.rows == (o.shape f.td).rows && decide (3 * (k / 24) ≤ mask.cols)) 0x0E o.at',
       need (!s.masksReady o f || !s.quiet o || s.masksOk o f) 0x0E o.at'])

/-- Window offset of the scale of a row's or column's block (R231). -/
def scaleOffset (base : Word) (mode nb i b : Nat) : Nat :=
  (field base 0 15).toNat + (i * nb + b) * (if mode = 2 then 2 else 1)

/-- The runs of scales that a TMMB reads: window offset and length, of the rows of its range and of all columns. -/
def scaleRuns (o : EngOp) (f : TileFields) : Spans :=
  let d := o.shape f.td
  let nb := (match loomLayout o f with
    | some (_, tb) => innerB o f tb
    | none => 0) / 32
  let run (base : Word) (mode first n : Nat) : Spans :=
    if mode = 0 then [] else [(scaleOffset base mode nb first 0, n * nb * (if mode = 2 then 2 else 1))]
  run o.sa (fmBMA o.fm) f.first.toNat ((rowRange f d.rows).getD []).length ++ run o.sb (fmBMB o.fm) 0 d.cols

/-- Codes of a block-scaled or unscaled operand (R230, R319). -/
def blockCode (mode : Nat) (x : Option (Nat × Elem)) : Bool :=
  match x with
  | some (c, e) =>
      e.bytes == 1 && (match mode with
        | 0 => e.isFloat || c == 8 || c == 11
        | 1 => e.isFloat || c == 8
        | 2 => c == 8 || c == 11
        | _ => false)
  | none => false

/-- The code names a floating format. -/
def isFloat (x : Option (Nat × Elem)) : Bool := x.any (·.2.isFloat)

def checkTmmb (o : EngOp) (f : TileFields) : Option Fail :=
  let a := codeA o.fm f.ed
  let b := codeB o.fm f.eb
  let d := codeD o.fm f.ea
  let ma := fmBMA o.fm
  let mb := fmBMB o.fm
  let k := match loomLayout o f with
    | some (_, tb) => innerB o f tb
    | none => 0
  checkSteps o f loomUses ((ma != 0 || mb != 0) && blockCode ma a && blockCode mb b && isFloat a == isFloat b &&
      codeIn d [2, 3, 4])
    (loomSix o f a b d [] [need (loomShapes o f id) 0x0E o.at', need (k % 32 == 0) 0x0E o.at'])

def checkTmmd (o : EngOp) (f : TileFields) : Option Fail :=
  let a := codeA o.fm f.ed
  let b := codeB o.fm f.eb
  let d := codeD o.fm f.ea
  checkSteps o f loomUses (codeIn a [1] && codeIn b [1] && codeIn d [1])
    (loomSix o f a b d [] [need (loomShapes o f id) 0x0E o.at'])

/-! ### The Lane engine (R322 to R333) -/

/-- The rows and lanes a source must have (R322). -/
def sourceOk (h : Shape) (rEnd cols : Nat) : Bool :=
  (h.rows == 1 || decide (rEnd ≤ h.rows)) && (h.cols == 1 || decide (cols ≤ h.cols))

/-- A source tile of a row command: R307, and R322 over the range and lanes of td (`lanes` false: its lanes
are the command's own). A field of 12 is imm32. -/
def checkSource (o : EngOp) (t : Field4) (e : Option (Nat × Elem)) : Option Fail :=
  if t.toNat = 12 then none else checkTile o t (elemOr e).bytes

def checkSourceShape (o : EngOp) (f : TileFields) (t : Field4) (lanes : Bool) : Option Fail :=
  let d := o.shape f.td
  if t.toNat = 12 then none
  else need (sourceOk (o.shape t) (rowEnd f d.rows) (if lanes then d.cols else 1)) 0x0E o.at'

def isF (x : Option (Nat × Elem)) : Option Bool := x.map (·.2.isFloat)
def sizeOf' (x : Option (Nat × Elem)) : Option Nat := x.map (·.2.bytes)

/-- A row command with td, ta and, when `two`, tb (12: imm32) and, when `three`, tc. -/
def checkRow (o : EngOp) (f : TileFields) (two three immOk : Bool) (rnd : Bool) (codes : Bool) (lanesA : Bool) :
    Option Fail :=
  let d := codeD o.fm f.ed
  let a := codeA o.fm f.ea
  let b := codeB o.fm f.eb
  let tbUse : Use := if two then (if immOk then .optional else .tile) else .unused
  checkSteps o f
    { td := .tile, ta := .tile, tb := tbUse, tc := if three then .tile else .unused, rows := true, rnd := rnd }
    codes
    [checkTile o f.td (elemOr d).bytes, checkSource o f.ta a,
     if two then checkSource o f.tb b else none, if three then checkSource o f.tc d else none,
     need (rowRange f (o.shape f.td).rows).isSome 0x0E o.at',
     checkSourceShape o f f.ta lanesA,
     if two then checkSourceShape o f f.tb true else none, if three then checkSourceShape o f f.tc true else none]

/-- R323: all floating or all integer. -/
def checkArith (o : EngOp) (f : TileFields) (two three : Bool) : Option Fail :=
  let d := isF (codeD o.fm f.ed)
  let a := isF (codeA o.fm f.ea)
  let b := isF (codeB o.fm f.eb)
  checkRow o f two three true true (d.isSome && a == d && (!two || b == d)) true

/-- R324: floating only. -/
def checkFunc (o : EngOp) (f : TileFields) : Option Fail :=
  checkRow o f false false false true
    (isF (codeD o.fm f.ed) == some true && isF (codeA o.fm f.ea) == some true) true

def checkRcvt (o : EngOp) (f : TileFields) : Option Fail :=
  checkRow o f false false false true ((codeD o.fm f.ed).isSome && (codeA o.fm f.ea).isSome) true

/-- R326: one element size. DEDUCED, log 45. -/
def checkBits (o : EngOp) (f : TileFields) : Option Fail :=
  let d := sizeOf' (codeD o.fm f.ed)
  checkRow o f true false true false (d.isSome && sizeOf' (codeA o.fm f.ea) == d && sizeOf' (codeB o.fm f.eb) == d) true

def checkShift (o : EngOp) (f : TileFields) : Option Fail :=
  let d := sizeOf' (codeD o.fm f.ed)
  checkRow o f true false true false (d.isSome && sizeOf' (codeA o.fm f.ea) == d && (codeB o.fm f.eb).isSome) true

def checkRsel (o : EngOp) (f : TileFields) : Option Fail :=
  checkRow o f true false false true
    ((codeD o.fm f.ed).isSome && (codeA o.fm f.ea).isSome && (codeB o.fm f.eb).isSome) true

/-- R328. DEDUCED, log 44. -/
def checkRcmp (o : EngOp) (f : TileFields) : Option Fail :=
  let a := codeA o.fm f.ea
  let b := codeB o.fm f.eb
  let h := o.shape f.ta
  checkSteps o f { ta := .tile, tb := .tile, rows := true } (isF a == isF b && a.isSome)
    [checkTile o f.ta (elemOr a).bytes, checkTile o f.tb (elemOr b).bytes,
     need (decide (f.count.toNat < 2)) 0x0E o.at', need (decide (f.first.toNat < h.rows)) 0x0E o.at',
     need (sourceOk (o.shape f.tb) (f.first.toNat + 1) h.cols) 0x0E o.at',
     need (f.layout != 7) 0x0E o.at']

/-- R327: ta a tile with an index, or 12 with a value. -/
def checkRbcast (o : EngOp) (f : TileFields) : Option Fail :=
  let d := codeD o.fm f.ed
  let a := codeA o.fm f.ea
  let h := o.shape f.ta
  checkSteps o f { td := .tile, ta := .optional, rows := true, rnd := true }
    (d.isSome && (f.ta.toNat == 12 || a.isSome))
    [checkTile o f.td (elemOr d).bytes, checkSource o f.ta a,
     need (rowRange f (o.shape f.td).rows).isSome 0x0E o.at',
     if f.ta.toNat = 12 then none else need (decide (f.imm32.toNat < h.rows * h.cols)) 0x0E o.at']

/-- R329, R330. DEDUCED, log 43. -/
def checkReduce (o : EngOp) (f : TileFields) : Option Fail :=
  let d := codeD o.fm f.ed
  let a := codeA o.fm f.ea
  checkRow o f false false false true (d.isSome && a.isSome) false

/-- R331. -/
def checkRsort (o : EngOp) (f : TileFields) : Option Fail :=
  let d := codeD o.fm f.ed
  let a := codeA o.fm f.ea
  let b := codeB o.fm f.eb
  let hd := o.shape f.td
  let ha := o.shape f.ta
  let hb := o.shape f.tb
  let kc := f.imm32.toNat
  let e := rowEnd f hd.rows
  checkSteps o f { td := .tile, ta := .tile, tb := .tile, rows := true, rnd := true }
    (d.isSome && a.isSome && isF b == some false)
    [checkTile o f.td (elemOr d).bytes, checkTile o f.ta (elemOr a).bytes, checkTile o f.tb (elemOr b).bytes,
     need (f.td != f.tb) 0x0E o.at', need (rowRange f hd.rows).isSome 0x0E o.at',
     need (decide (1 ≤ kc ∧ kc ≤ ha.cols ∧ kc ≤ hd.cols ∧ kc ≤ hb.cols)) 0x0E o.at',
     need (decide (e ≤ ha.rows ∧ e ≤ hb.rows)) 0x0E o.at']

def checkRidx (o : EngOp) (f : TileFields) : Option Fail :=
  let d := codeD o.fm f.ed
  checkSteps o f { td := .tile, rows := true, rnd := true } d.isSome
    [checkTile o f.td (elemOr d).bytes, need (rowRange f (o.shape f.td).rows).isSome 0x0E o.at']

def checkRperm (o : EngOp) (f : TileFields) : Option Fail :=
  checkRow o f true false false true
    ((codeD o.fm f.ed).isSome && (codeA o.fm f.ea).isSome && isF (codeB o.fm f.eb) == some false) false

/-! ### Tile moves (R335 to R339) -/

/-- The layout of a tile move: 0 or 1 (Table 12-2). -/
def moveLayout (f : TileFields) (h : Shape) : Option Nat :=
  let l := if f.layout = 7 then h.layout else f.layout.toNat
  if l < 2 then some l else none

/-- Memory rows of a tile move over `n` tile rows: how many, the bytes of each, and their stride. -/
def moveRows (f : TileFields) (h : Shape) (size n : Nat) : Nat × Nat × Nat :=
  let (m, b) := if moveLayout f h = some 1 then (h.cols, n * size) else (n, h.cols * size)
  (m, b, if f.len = 0 then b else f.len.toNat)

/-- The memory rows of a tile move as distances and lengths. -/
def moveSpans (f : TileFields) (h : Shape) (size n : Nat) : Spans :=
  let (m, b, stride) := moveRows f h size n
  (List.range m).map fun j => (j * stride, b)

/-- An operand at a byte distance. -/
def Operand.shift (x : Operand) (i : Nat) : Operand :=
  match x with
  | .here b => .here (b + i)
  | .far a => .far (a + BitVec.ofNat 64 i)

/-- The checks of the whole range of a tile move (R335). -/
def State.moveFail (s : State) (o : EngOp) (f : TileFields) (h : Shape) (size n right : Nat) : Option Fail :=
  s.spansFail o (operandOf f.addr) (moveSpans f h size n) right

def rangeLength (f : TileFields) (rows : Nat) : Nat := ((rowRange f rows).getD []).length

def checkMove (s : State) (o : EngOp) (f : TileFields) (t : Field4) (e : Option (Nat × Elem)) (u : Uses)
    (codes : Bool) (right : Nat) : Option Fail :=
  let h := o.shape t
  let size := (elemOr e).bytes
  checkSteps o f u (codes && e.isSome && markerOk f.addr && markerOk f.flag)
    [checkTile o t size, need (rowRange f h.rows).isSome 0x0E o.at', need (moveLayout f h).isSome 0x0E o.at',
     s.moveFail o f h size (rangeLength f h.rows) right, s.flagFail o f.flag]

def checkTld (s : State) (o : EngOp) (f : TileFields) : Option Fail :=
  checkMove s o f f.td (codeD o.fm f.ed) { td := .tile, rows := true } true rR

def checkTst (s : State) (o : EngOp) (f : TileFields) : Option Fail :=
  checkMove s o f f.ta (codeA o.fm f.ea) { ta := .tile, rows := true } true rW

/-- TSTA (R338). Table 4-3 gives the alignment of an element add, and the spec names no cause for an address or a stride that is
no multiple of the element size: the adds are performed where they lie. DESIGN CHOICE, log 108. -/
def checkTsta (s : State) (o : EngOp) (f : TileFields) : Option Fail :=
  let e := codeA o.fm f.ea
  checkMove s o f f.ta e { ta := .tile, rows := true } (codeIn e [1, 2, 5, 6]) rA

def checkTzero (o : EngOp) (f : TileFields) : Option Fail :=
  checkSteps o f { td := .tile, rows := true } true
    [checkTile o f.td 0, need (rowRange f (o.shape f.td).rows).isSome 0x0E o.at']

def checkTcopy (s : State) (o : EngOp) (f : TileFields) : Option Fail :=
  let d := o.shape f.td
  let a := o.shape f.ta
  if f.td.toNat = 12 then
    checkSteps o f { ta := .tile, rows := true } (markerOk f.addr && markerOk f.flag)
      [checkTile o f.ta 0, need (rowRange f a.rows).isSome 0x0E o.at',
       s.rangeFail o (operandOf f.addr) (64 * rangeLength f a.rows) rW, s.flagFail o f.flag]
  else
    checkSteps o f { td := .tile, ta := .tile, rows := true } true
      [checkTile o f.td 0, checkTile o f.ta 0, need (rowRange f d.rows).isSome 0x0E o.at',
       need (codeSize d.elem == codeSize a.elem && decide (d.cols ≤ a.cols ∧ rowEnd f d.rows ≤ a.rows)) 0x0E o.at']

def checkTtrn (o : EngOp) (f : TileFields) : Option Fail :=
  let d := o.shape f.td
  let a := o.shape f.ta
  checkSteps o f { td := .tile, ta := .tile, rows := true } true
    [checkTile o f.td 0, checkTile o f.ta 0, need (f.td != f.ta) 0x0E o.at',
     need (codeSize d.elem == codeSize a.elem && d.rows == a.cols && d.cols == a.rows) 0x0E o.at',
     need (rowRange f d.rows).isSome 0x0E o.at']

/-! ### Carter, Gleaner, attention and spires (R342 to R360) -/

/-- No source-free flag. -/
def noSf (f : TileFields) : Bool := f.imm32 == 0xFFFFFFFF

def sfFail (f : TileFields) : Option Fail :=
  need (noSf f || field f.imm32 0 3 == 0) 0x05 (f.imm32.setWidth 64)

def copyUses : Uses := { opb := true }

def opbFail (o : EngOp) : Option Fail := need (opbOf o.word % 8 == 0) 0x05 o.at'

/-- CPY (R345). A bad marker in the operand block's word fails with 0x01 after the block's alignment, inside step 6: the
spec puts markers at step 5 for the fields of the word alone. DESIGN CHOICE, log 86. -/
def checkCpy (s : State) (o : EngOp) (f : TileFields) : Option Fail :=
  let n := f.len.toNat
  checkSteps o f copyUses (markerOk f.addr && markerOk f.flag)
    [opbFail o, need (markerOk o.block) 0x01 o.at', s.rangeFail o (operandOf o.block) n rR,
     s.rangeFail o (operandOf f.addr) n rW, s.flagFail o f.flag, sfFail f]

def checkCpya (s : State) (o : EngOp) (f : TileFields) : Option Fail :=
  let e := codeD o.fm f.ed
  let n := f.len.toNat
  let size := (elemOr e).bytes
  checkSteps o f copyUses (codeIn e [1, 2, 5, 6] && markerOk f.addr && markerOk f.flag)
    [opbFail o, need (markerOk o.block) 0x01 o.at',
     need (n % size == 0 && (operandOf o.block).base % size == 0) 0x05 o.at', s.rangeFail o (operandOf o.block) n rR,
     need ((operandOf f.addr).base % size == 0) 0x05 o.at', s.rangeFail o (operandOf f.addr) n rA,
     s.flagFail o f.flag, sfFail f]

/-- Word `j` of entry `i` of a CSCHED, as read at issue. -/
def EngOp.entryWord (o : EngOp) (i j : Nat) : Word := o.data.getD (4 * i + j) 0

def entryLength (w : Word) : Nat := (field w 0 32).toNat
def entryStage (w : Word) : Nat := (field w 32 8).toNat
def entryReserved (w : Word) : Bool := field w 40 24 != 0

/-- CSCHED (R349). The spec names no cause for ents that is no marker or not a multiple of 32: 0x06 with the field and
0x05 with the command's offset; an entry's bad marker gives 0x01 in its place among the operands. DESIGN CHOICE, log 84. -/
def checkCsched (s : State) (o : EngOp) (f : TileFields) : Option Fail :=
  let n := f.len.toNat
  let marker (w : Word) : Option Fail := need (markerOk w) 0x01 o.at'
  let ents : Word := BitVec.ofNat 64 (field f.addr 0 15).toNat
  checkSteps o f {} (markerOk f.addr)
    ([need (isMarker f.addr) 0x06 f.addr, need (field f.addr 0 5 == 0) 0x05 o.at',
      need (decide (1 ≤ n ∧ n ≤ 32)) 0x07 ents] ++
     (List.range n).flatMap fun i =>
       [need (!entryReserved (o.entryWord i 3)) 0x07 ents,
        marker (o.entryWord i 0), s.rangeFail o (operandOf (o.entryWord i 0)) (entryLength (o.entryWord i 3)) rR,
        marker (o.entryWord i 1), s.rangeFail o (operandOf (o.entryWord i 1)) (entryLength (o.entryWord i 3)) rW,
        marker (o.entryWord i 2), s.flagFail o (o.entryWord i 2)])

def checkCstage (o : EngOp) (f : TileFields) : Option Fail := checkSteps o f {} true []

/-- The gather block (Table 13-4): list and data offsets. -/
def gatherList (b : Word) : Nat := (field b 0 15).toNat
def gatherData (b : Word) : Nat := (field b 16 15).toNat
def gatherOk (b : Word) : Bool :=
  field b 31 33 == 0 && !b.getLsbD 15 && gatherData b % 8 == 0 && gatherList b % 4 == 0

def gatherCount (f : TileFields) : Nat := (field f.len 16 16).toNat
def gatherSize (f : TileFields) : Nat := (field f.len 0 16).toNat

/-- Index `j` of the list. -/
def State.gatherIndex (s : State) (o : EngOp) (j : Nat) : Nat :=
  if 1 < o.data.length then (o.data.getD (j + 1) 0).toNat
  else ofLittleEndian (s.bytes ((List.range 4).map fun i => o.windowByte (gatherList o.block + 4 * j + i)))

/-- Core number `c` of a package in the order of R106, as (die, row, col, core), from a base core. -/
def linearCore (die row col core : Nat) : Nat := ((die * 64 + row) * 48 + col) * 16 + core

/-- The core and place of table row `i` (R106); none outside the package. Cores run through a node, then along
columns, then along rows within a die, then across dies. -/
def tableRow (chip : Nat) (f : TileFields) (i : Nat) : Option (Nat × Nat) :=
  let base := placeCore chip f.addr
  let n := base % (24576 * 16) + i / f.imm32.toNat
  if n < 24576 * 16 then
    some (chip * 24576 * 16 + n, placeOffset f.addr + i % f.imm32.toNat * gatherSize f)
  else none

/-- A row's place. -/
def rowPlace (r : Nat × Nat) : Word := placeOf r.1 r.2

/-- The check of one row (R352, R353). A row that falls outside the package has no place: its tval is the table base.
DESIGN CHOICE, log 107. -/
def State.rowFail (s : State) (o : EngOp) (f : TileFields) (i : Nat) : Option Fail :=
  let chip := chipOfCore o.core
  match tableRow chip f i with
  | none => some (0x06, f.addr)
  | some (c, off) =>
      let a := rowPlace (c, off % 65536)
      if (flagPageSplit off [(0, gatherSize f)]).isSome then some (0x05, a)
      else if decide (65536 ≤ off + gatherSize f) || !placeFormOk a (gatherSize f) || s.placeHarvested chip a then some (0x06, a)
      else need (s.parishOf c == some o.parish) 0x08 a

/-- The first byte and the place of the table row of list entry `j`. -/
def State.rowAt (s : State) (o : EngOp) (f : TileFields) (j : Nat) : Nat × Word :=
  match tableRow (chipOfCore o.core) f (s.gatherIndex o j) with
  | some (c, off) => (coreByte c off, rowPlace (c, off))
  | none => (0, f.addr)

/-- The owner of the row of list entry `j` (R106). -/
def State.ownerOf (s : State) (o : EngOp) (f : TileFields) (j : Nat) : Nat := (s.rowAt o f j).1 / 2 ^ 16

/-- The list positions from the resume position on in the order they are served, each with the number of its batch: 64
owners a batch, in order of first appearance in the list (R108). -/
def State.servedOrder (s : State) (o : EngOp) (f : TileFields) : List (Nat × Nat) :=
  let own := (List.range (gatherCount f)).map fun j => s.ownerOf o f j
  let firsts := own.foldl (fun l c => if l.contains c then l else l ++ [c]) []
  let batch (j : Nat) : Nat := (firsts.idxOf (own.getD j 0)) / 64
  (List.range (firsts.length / 64 + 1)).flatMap fun b =>
    ((List.range (gatherCount f)).filter fun j => batch j == b && decide (o.resume ≤ j)).map fun j => (b, j)

/-- The first position that has not been served when the `k`-th of the order faults. -/
def unserved (l : List (Nat × Nat)) (d : Nat) : Nat := l.foldl (fun m e => Nat.min m e.2) d

/-- The index list lies in full lines. -/
def State.listReady (s : State) (o : EngOp) (f : TileFields) : Bool :=
  (s.firstEmpty ((List.range (4 * gatherCount f)).map fun i => o.windowByte (gatherList o.block + i))).isNone

def State.rowsFail (s : State) (o : EngOp) (f : TileFields) : Option Fail :=
  firstFail ((List.range (gatherCount f)).map fun j => s.rowFail o f (s.gatherIndex o j))

/-- The table base of GATH and SCAT: a place with L = 1 (R352). A base on the flag page is as good as any: its rows are what
must lie on 8-byte boundaries there (R28). -/
def State.baseFail (s : State) (o : EngOp) (a : Word) : Option Fail :=
  if !(isPlace a && a.getLsbD 62) then some (0x06, a)
  else (s.checkPlace (chipOfCore o.core) o.parish a 1 true).map fun c => (c, a)

def checkGather (s : State) (o : EngOp) (f : TileFields) : Option Fail :=
  let n := gatherCount f
  let size := gatherSize f
  checkSteps o f copyUses (markerOk f.addr && markerOk f.flag)
    [opbFail o, need (gatherOk o.block) 0x05 (BitVec.ofNat 64 (opbOf o.word)),
     s.baseFail o f.addr,
     need (decide (1 ≤ n ∧ n ≤ 4096 ∧ 8 ≤ size ∧ size ≤ 1024 ∧ 1 ≤ f.imm32.toNat) && size % 8 == 0) 0x07
       (f.len.setWidth 64),
     s.flagFail o f.flag,
     if s.listReady o f && s.quiet o then s.rowsFail o f else none]

def checkAtts (o : EngOp) (f : TileFields) : Option Fail :=
  let d := codeD o.fm f.ed
  let q := codeA o.fm f.ea
  let k := codeB o.fm f.eb
  let hd := o.shape f.td
  let hq := o.shape f.ta
  let hk := o.shape f.tb
  checkSteps o f { td := .tile, ta := .tile, tb := .tile, rows := true }
    (!f.e && codeIn d [2] && (loomClass q).isSome && loomClass q == loomClass k)
    [checkTile o f.td (elemOr d).bytes, checkTile o f.ta (elemOr q).bytes, checkTile o f.tb (elemOr k).bytes,
     need (rowRange f hd.rows).isSome 0x0E o.at',
     need (hq.cols == hk.cols && hk.rows == hd.cols && decide (hk.rows ≤ 16 ∧ rowEnd f hd.rows ≤ hq.rows)) 0x0E o.at']

def checkAttp (o : EngOp) (f : TileFields) : Option Fail :=
  let d := codeD o.fm f.ed
  let a := codeA o.fm f.ea
  let v := codeB o.fm f.eb
  let hd := o.shape f.td
  let ha := o.shape f.ta
  let hv := o.shape f.tb
  let hs := o.shape f.tc
  let small := match loomClass v with
    | some (_, n) => decide (n < 4)
    | none => false
  checkSteps o f { td := .tile, ta := .tile, tb := .tile, tc := .tile, rows := true }
    (!f.e && codeIn d [2] && codeIn a [2] && small)
    [checkTile o f.td (elemOr d).bytes, checkTile o f.ta (elemOr a).bytes, checkTile o f.tb (elemOr v).bytes,
     checkTile o f.tc 4, need (hs.elem == 2) 0x0E o.at',
     need (rowRange f hd.rows).isSome 0x0E o.at',
     need (ha.cols == hv.rows && hd.cols == hv.cols && hs.cols == 2 &&
       decide (rowEnd f hd.rows ≤ ha.rows ∧ rowEnd f hd.rows ≤ hs.rows)) 0x0E o.at']

/-- The Granary slot a GMRG or GTAKE names, when its task holds it (R357, R359). -/
def State.heldSlot (s : State) (o : EngOp) (n : Nat) : Option Granary :=
  let g := s.granary (nodeOfCore o.core) n
  if n < 32 ∧ g.state ≠ .free ∧ g.owner = o.task then some g else none

/-- GMRG (R357). first and count meet no check but the one of step 6, 0x0E, after the tiles. DESIGN CHOICE, log 85. -/
def checkGmrg (s : State) (o : EngOp) (f : TileFields) : Option Fail :=
  let a := codeA o.fm f.ea
  let b := codeB o.fm f.eb
  let ha := o.shape f.ta
  let hb := o.shape f.tb
  let g := s.heldSlot o f.len.toNat
  checkSteps o f { ta := .tile, tb := .tile } (!f.e && codeIn a [2] && codeIn b [2] && markerOk f.flag)
    [checkTile o f.ta 4, checkTile o f.tb 4, need (f.first == 0 && f.count == 0) 0x0E o.at',
     need g.isSome 0x08 (f.len.setWidth 64),
     need (match g with
       | some g => ha.rows == g.rows && hb.rows == g.rows && ha.cols == g.cols && hb.cols == 2
       | none => false) 0x0E o.at',
     s.flagFail o f.flag]

/-- The status operand of GTAKE (R359). -/
def State.statusFail (s : State) (o : EngOp) (a : Word) : Option Fail :=
  if a = 0 then none
  else if !isMarker a && !isPlace a then some (0x06, a)
  else if (operandOf a).base % 8 ≠ 0 then some (0x05, BitVec.ofNat 64 (operandOf a).base)
  else s.rangeFail o (operandOf a) 8 rW

/-- GTAKE (R359), with first and count as in GMRG. DESIGN CHOICE, log 85. -/
def checkGtake (s : State) (o : EngOp) (f : TileFields) : Option Fail :=
  let d := codeD o.fm f.ed
  let hd := o.shape f.td
  let g := s.heldSlot o f.len.toNat
  checkSteps o f { td := .tile } (!f.e && codeIn d [2, 3, 4] && markerOk f.addr && markerOk f.flag)
    [checkTile o f.td (elemOr d).bytes, need (f.first == 0 && f.count == 0) 0x0E o.at', need g.isSome 0x08 o.at',
     need (match g with
       | some g => hd.rows == g.rows && hd.cols == g.cols
       | none => false) 0x0E o.at',
     s.statusFail o f.addr, s.flagFail o f.flag]

/-- Level of a SPIRE. -/
def spireLevel (f : TileFields) : Nat := (field f.imm32 0 3).toNat

/-- The members of a SPIRE's group, in member order (R360). -/
def State.spireGroup (s : State) (o : EngOp) (level : Nat) : List Nat :=
  let t := s.task o.task
  let mine := (t.members.getD (s.opSlot o).member ⟨0, 0, none, [], .waiting, false, 0, [], 0⟩).index
  ((List.range t.members.length).filter fun m =>
    match t.members[m]? with
    | some x => (List.range 8).all fun l => decide (l ≤ level) || x.index.getD l 0 == mine.getD l 0
    | none => false)

def checkSpire (s : State) (o : EngOp) (f : TileFields) : Option Fail :=
  let e := codeD o.fm f.ed
  let n := f.len.toNat
  let t := s.task o.task
  let chip := chipOfCore o.core
  let far := (s.spireGroup o (spireLevel f)).any fun m =>
    match t.members[m]? with
    | some x => !s.reaches chip (chipOfNode x.node)
    | none => false
  checkSteps o f copyUses (codeIn e [1, 2, 3, 4, 5, 6] && markerOk f.addr && markerOk f.flag)
    [opbFail o, need (markerOk o.block) 0x01 o.at',
     need (decide (64 ≤ n ∧ n ≤ 2 ^ 20) && n % 64 == 0) 0x07 o.at',
     need (decide (spireLevel f < t.nlev)) 0x07 o.at',
     s.rangeFail o (operandOf f.addr) n rR, s.rangeFail o (operandOf o.block) n rW, s.flagFail o f.flag,
     need (!far) 0x17 o.at']

/-! ### Every command -/

/-- Steps 3 to 6 of Table 8-16 for the command `i` of operation `o`. -/
def State.checkCommand (s : State) (o : EngOp) (i : Instr) : Option Fail :=
  match i with
  | .tmma f => checkTmma o f
  | .tmms f => checkTmms s o f
  | .tmmb f => checkTmmb o f
  | .tmmd f => checkTmmd o f
  | .radd f | .rsub f | .rmul f | .rmin f | .rmax f => checkArith o f true false
  | .rfma f => checkArith o f true true
  | .rabs f | .rneg f => checkArith o f false false
  | .rrcp f | .rrsq f | .rexp2 f | .rlog2 f => checkFunc o f
  | .rcvt f => checkRcvt o f
  | .rand f | .ror f | .rxor f => checkBits o f
  | .rshl f | .rshr f => checkShift o f
  | .rcmp f => checkRcmp o f
  | .rsel f => checkRsel o f
  | .rbcast f => checkRbcast o f
  | .rsumr f | .rmaxr f | .rscan f => checkReduce o f
  | .rsort f => checkRsort o f
  | .ridx f | .rroll f => checkRidx o f
  | .rperm f => checkRperm o f
  | .kand f | .kor f | .kxor f | .knot f => checkSteps o f {} true []
  | .tld f => checkTld s o f
  | .tst f => checkTst s o f
  | .tsta f => checkTsta s o f
  | .tzero f => checkTzero o f
  | .tcopy f => checkTcopy s o f
  | .ttrn f => checkTtrn o f
  | .cpy f => checkCpy s o f
  | .cpya f => checkCpya s o f
  | .csched f => checkCsched s o f
  | .cstage f => checkCstage o f
  | .gath f | .scat f => checkGather s o f
  | .atts f => checkAtts o f
  | .attp f => checkAttp o f
  | .gmrg f => checkGmrg s o f
  | .gtake f => checkGtake s o f
  | .spire f => checkSpire s o f
  | _ => none

end Sys2Proof.Machine
end

