-- ==== Sys2Proof/Machine/Engine.lean ====
section
/-! DEFINITION. Engine queues, TX, TQ, FORK and RDV, the start, completion and faults of engine operations
(11 R288 to R294; 14 R374 to R376), and how a Granary port chooses its command (13 R358). -/

namespace Sys2Proof.Machine

/-! ### What a command reads at issue (R288, R342, R349) -/

/-- The bytes of a command word at window offset `x`. -/
def Slot.windowBytes (core : Nat) (c : Slot) (x n : Nat) : List Nat :=
  (List.range n).map fun i => windowByte core c.wbase.toNat c.span (x + i)

/-- The bytes a command reads at issue besides its word. -/
def issueBytes (core : Nat) (c : Slot) (w : Command) : List Nat :=
  let op := (field w 248 8).toNat
  if op == 0x70 || op == 0x71 || op == 0x78 || op == 0x79 || op == 0x90 then c.windowBytes core (opbOf w) 8
  else if op == 0x72 && isMarker (field w 96 64) then
    c.windowBytes core (field w 96 15).toNat (32 * Nat.min (field w 0 32).toNat 32)
  else []

/-- Bytes as a thread reads them locally, with the store buffer's (R125). -/
def State.readLocal (s : State) (t : Nat) (pas : List Nat) : List Byte :=
  applyOverlay (s.bytes pas) (s.overlay t pas).1

/-- The thread has read bytes locally: a later release waits for the siblings' stores among them (R121). -/
def State.noteEarly (s : State) (t : Nat) (pas : List Nat) : State := s.readEarly t (s.overlay t pas).2

/-- 8-byte words of a list of bytes. -/
def wordsOf : Nat → List Byte → List Word
  | 0, _ => []
  | n + 1, l => wordOfBytes (l.take 8) :: wordsOf n (l.drop 8)

/-- The command word at window offset `x` of thread `t`. -/
def State.commandAt (s : State) (t x : Nat) : Command :=
  BitVec.ofNat 256 (ofLittleEndian (s.readLocal t ((s.slot t).windowBytes (coreOfThread t) x 32)))

/-- The words a command of thread `t` reads at issue besides its own. -/
def State.issueData (s : State) (t : Nat) (w : Command) : List Word :=
  let l := issueBytes (coreOfThread t) (s.slot t) w
  wordsOf (l.length / 8) (s.readLocal t l)

/-- A new operation of thread `t` with what its command reads at issue. -/
def State.issueOp (s : State) (t : Nat) (w : Command) (origin : Origin) (offset : Nat) : EngOp :=
  let d := s.issueData t w
  { s.newOp t w origin offset with data := d, block := d.getD 0 0 }

/-! ### Races of whole commands (R364) -/

/-- Tiles a command reads (false) and writes (true). -/
def raceTiles (i : Instr) : List (Bool × Field4) :=
  match i with
  | .tmma f | .tmmb f | .tmmd f => [(false, f.ta), (false, f.tb), (true, f.td)]
  | .tmms f => [(false, f.ta), (false, f.tb), (false, f.tc), (true, f.td)]
  | .radd f | .rsub f | .rmul f | .rmin f | .rmax f | .rand f | .ror f | .rxor f | .rshl f | .rshr f | .rsel f
  | .rperm f => [(false, f.ta), (false, f.tb), (true, f.td)]
  | .rfma f => [(false, f.ta), (false, f.tb), (false, f.tc), (true, f.td)]
  | .rabs f | .rneg f | .rrcp f | .rrsq f | .rexp2 f | .rlog2 f | .rcvt f | .rbcast f | .rsumr f | .rmaxr f
  | .rscan f | .ttrn f => [(false, f.ta), (true, f.td)]
  | .rcmp f => [(false, f.ta), (false, f.tb)]
  | .rsort f => [(false, f.ta), (true, f.td), (true, f.tb)]
  | .ridx f | .rroll f | .tld f | .tzero f | .gtake f => [(true, f.td)]
  | .tst f | .tsta f => [(false, f.ta)]
  | .tcopy f => if f.td.toNat = 12 then [(false, f.ta)] else [(false, f.ta), (true, f.td)]
  | .atts f => [(false, f.ta), (false, f.tb), (true, f.td)]
  | .attp f => [(false, f.ta), (false, f.tb), (true, f.tc), (true, f.td)]
  | .gmrg f => [(false, f.ta), (false, f.tb)]
  | _ => []

/-- The lines of an operand's range as (byte, address). -/
def State.rangeLines (s : State) (o : EngOp) (x : Operand) (n : Nat) : List (Nat × Word) :=
  (pieces x.base x.base n 0 (n / 128 + 2)).filterMap fun p =>
    match s.operandByte o x p.1 with
    | .ok t => (s.targetByte t).map fun pa => (pa, x.address p.1)
    | _ => none

/-- Race checks of the tiles of a command, of the scales of a TMMB and of the index list of a gather, and of the ranges of a SPIRE
and the status word of a GTAKE (R364). DEDUCED, log 29. -/
def State.raceCommand (s : State) (o : EngOp) (i : Instr) : State × Option Word :=
  if raceMode o.race = 0 then (s, none)
  else
    let step (acc : State × Option Word) (l : List (Nat × Word)) (g : Nat) (w : Bool) : State × Option Word :=
      match acc.2 with
      | some _ => acc
      | none => acc.1.raceLines o l g w
    let r := (raceTiles i).foldl (fun acc e =>
      if e.2.toNat < 12 then step acc (o.rowPlaces e.2 (List.range (o.shape e.2).rows)) 0 e.1 else acc) (s, none)
    match i with
    | .tmmb f => (scaleRuns o f).foldl (fun r e => step r (o.windowLines e.1 e.2) 0 false) r
    | .gath f | .scat f => step r (o.windowLines (gatherList o.block) (4 * gatherCount f)) 0 false
    | .gtake f =>
        let x := operandOf f.addr
        if f.addr = 0 then r else step r (s.rangeLines o x 8) (s.operandGen o x) true
    | .spire f =>
        let src := operandOf f.addr
        let dst := operandOf o.block
        let r := step r (s.rangeLines o src f.len.toNat) (s.operandGen o src) false
        step r (s.rangeLines o dst f.len.toNat) (s.operandGen o dst) true
    | _ => r

/-- Commands that make their race checks at step 6. -/
def raceAtIssue (i : Instr) : Bool :=
  match i with
  | .atts _ | .attp _ | .gmrg _ | .gtake _ | .spire _ => true
  | _ => false

/-- The accesses of an operation are checked for races one by one as it makes them; those of R364's commands never are. -/
def EngOp.racesInFlight (o : EngOp) : Bool :=
  match decodeCommand o.word with
  | .ok i => !raceAtIssue i
  | .error _ => true

/-- Every check of a command at issue, with the state that a race report leaves. -/
def State.checkIssue (s : State) (o : EngOp) (i : Instr) : State × Option Fail :=
  match s.checkCommand o i with
  | some x => (s, some x)
  | none =>
      if raceAtIssue i then
        match s.raceCommand o i with
        | (s, some v) => (s, some (0x11, v))
        | (s, none) => (s, none)
      else (s, none)

/-! ### The Granary port (R358) -/

/-- The page of a GMRG is one its slot can take or must fault (R394); false when it waits. -/
def gmrgReady (g : Granary) (page : Nat) : Bool :=
  match g.state with
  | .full => false
  | .opened =>
      decide (page < g.next) || decide (g.first + g.count ≤ page) || (g.reorder.any (·.1 == page)) || page == g.next ||
        decide (g.reorder.length < 8)
  | _ => true

/-- The first command of a Granary port's queue that may run: one that waits lets those for other slots pass, and of its own slot
the page that the slot needs next, and a GTAKE; a GTAKE that waits for pages lets all pass (R358). `held` are the slots for which
a GMRG waits ahead. -/
def State.portPick (s : State) : List (Nat × EngOp) → List Nat → Option (Nat × EngOp)
  | [], _ => none
  | x :: r, held =>
    match decodeCommand x.2.word with
    | .ok (.gmrg f) =>
        match s.heldSlot x.2 f.len.toNat with
        | none => some x
        | some g =>
            if gmrgReady g f.imm32.toNat && (!held.contains f.len.toNat || f.imm32.toNat == g.next) then some x
            else s.portPick r (held ++ [f.len.toNat])
    | .ok (.gtake f) =>
        match s.heldSlot x.2 f.len.toNat with
        | none => some x
        | some g => if g.state = .opened then s.portPick r held else some x
    | _ => some x

/-- A GTAKE that waits in a port stands in its slot (Table 15-3). -/
def State.markTake (s : State) (id : Nat) : State :=
  match s.op? id with
  | none => s
  | some o =>
    match decodeCommand o.word with
    | .ok (.gtake f) =>
        match s.heldSlot o f.len.toNat with
        | some g =>
            if g.state = .opened ∧ g.take = none then
              s.modGranary (nodeOfCore o.core) f.len.toNat fun g => { g with take := some id }
            else s
        | none => s
    | _ => s

/-! ### Queues (R102, R291) -/

/-- The node may start a Loom command: it holds a toll, and has not held it for 64 µs while demand is marked
(R185, R186). -/
def State.loomMayStart (s : State) (node : Nat) : Bool :=
  let t := (s.node node).toll
  t.held && !((s.die (dieOfNode node)).demand && decide (t.since + Config.cycles64us ≤ s.nodeTime node))

/-- The operation an engine of a core starts next: the head of its queue, or what the Granary port picks. -/
def State.nextOp (s : State) (core : Nat) (e : Engine) : Option (Nat × EngOp) :=
  let q := (s.core core).queue e
  let l := q.filterMap fun id => (s.op? id).map fun o => (id, o)
  if l.any fun x => decide (x.2.state = .running) then none
  else if e = .granary then s.portPick l []
  else l.head?

/-- Starts the next command of an engine. A Loom command with no toll marks demand and waits. -/
def State.kick (s : State) (core : Nat) (e : Engine) : State :=
  let s := if e = .granary then ((s.core core).queue e).foldl State.markTake s else s
  match s.nextOp core e with
  | none => s
  | some (id, _) =>
      let n := nodeOfCore core
      if e = .loom ∧ !s.loomMayStart n then
        let now := s.dieTime (dieOfNode n)
        ((s.modDie (dieOfNode n) fun d => { d with demand := true }).modNode n fun v =>
          { v with toll := { v.toll with waits := some (v.toll.waits.getD now) } }).event (.tollArrival n)
      else (s.modOp id fun o => { o with state := .running }).pushOnce (.command id)

/-- Starts what the Granary ports of a node may start, after a slot has changed. -/
def State.kickPorts (s : State) (node : Nat) : State :=
  (List.range 16).foldl (fun s i => s.kick (node * 16 + i) .granary) s

def State.queueFull (s : State) (core : Nat) (e : Engine) : Bool :=
  decide (Config.engineQueue ≤ ((s.core core).queue e).length)

/-- Places operation `id` in its engine's queue. -/
def State.enqueue (s : State) (id : Nat) : State :=
  match s.op? id with
  | none => s
  | some o =>
      (s.modCore o.core fun c => c.setQueue o.engine (c.queue o.engine ++ [id])).kick o.core o.engine

/-- Loom commands of a node that run or wait. -/
def State.loomBusy (s : State) (node : Nat) : Bool :=
  (List.range 16).any fun i => !(s.core (node * 16 + i)).loom.isEmpty

/-- The Loom of a core has come to rest: its node may return its toll 256 cycles from now (R185). -/
def State.loomIdle (s : State) (core : Nat) : State :=
  let n := nodeOfCore core
  (s.modNode n fun v =>
    { v with toll := { v.toll with idleFrom := s.nodeTime n, waits := if s.loomBusy n then v.toll.waits else none } }).timer
    (s.leadCore n) 256 (.event (.tollReturn n))

/-- An operation waits for an entry of its engine's queue that it takes by itself: a command of a sequence or schedule, or one
that resumes. The thread of a TX or TQ that has yet to enter the queue places it there as it is tried again. -/
def State.waitsEntry (s : State) (e : Nat × EngOp) : Bool :=
  decide (e.2.state = .queued) && !((s.core e.2.core).queue e.2.engine).contains e.1 &&
    match e.2.origin with
    | .seq _ | .schedule _ _ => true
    | _ => e.2.saved == 0 && !parkedOn (.queue e.1) (s.slot e.2.thread)

/-- Takes operation `id` out of its queue: an entry frees for the commands that wait for one, and the engine goes
on. -/
def State.leaveQueue (s : State) (id : Nat) (o : EngOp) : State :=
  let s := s.modCore o.core fun c => c.setQueue o.engine ((c.queue o.engine).filter (· != id))
  let s := if o.engine = .loom then s.loomIdle o.core else s
  let s := s.wakeIf fun t c => coreOfThread t == o.core &&
    (match c.state with
     | .parked (.queue _) => true
     | _ => false)
  let waiting := s.ops.find? fun e => e.2.core == o.core && decide (e.2.engine = o.engine) && s.waitsEntry e
  match waiting with
  | some (w, _) => s.enqueue w
  | none => s.kick o.core o.engine

/-- Gives an operation to its engine, or leaves it until an entry of the queue frees. -/
def State.place (s : State) (id : Nat) : State :=
  match s.op? id with
  | some o => if s.queueFull o.core o.engine then s else s.enqueue id
  | none => s

def State.dropOp (s : State) (id : Nat) : State := { s with ops := dropRec s.ops id }

def State.addOp (s : State) (o : EngOp) : Nat × State :=
  let (id, s) := s.fresh
  (id, { s with ops := s.ops ++ [(id, o)] })

/-! ### Completion records (Table 14-5) -/

def OpState.code : OpState → Nat
  | .queued => 0 | .running => 0 | .held => 1 | .suspended => 2 | .ended => 3 | .complete => 4

/-- Words 0 to 2 of an operation's completion record. -/
def EngOp.record (o : EngOp) : List Word :=
  [BitVec.ofNat 64 (o.state.code * 2 ^ 36 + o.index % 16 * 2 ^ 32 + o.offset % 2 ^ 15 * 2 ^ 17 +
     (field o.word 248 8).toNat * 2 ^ 8 + o.cause % 256), o.tval, BitVec.ofNat 64 o.resume]

/-- Writes words at a window offset of thread `t`. -/
def State.writeWindow (s : State) (t x : Nat) (ws : List Word) : State :=
  s.write (((s.slot t).windowBytes (coreOfThread t) x (8 * ws.length)).zip (ws.flatMap fun w => littleEndian w 8))

/-- The bytes of word 3 of the record at window offset `x`. -/
def State.dispBytes (s : State) (t x : Nat) : List Nat := (s.slot t).windowBytes (coreOfThread t) (x + 24) 8

/-- Word 3 of the record at window offset `x`: the disposition (R376). -/
def State.dispAt (s : State) (t x : Nat) : Nat :=
  let d := (field (wordOfBytes (s.readLocal t (s.dispBytes t x))) 0 2).toNat
  if d = 3 then 0 else d

/-- The record's place: O + 32·n (R374). -/
def recordAt (offset n : Nat) : Nat := offset + 32 * n

/-! ### Faults (R375) -/

/-- The causes that end an operation (R375). -/
def endsOp (cause : Nat) : Bool := cause == 0x12 || cause == 0x16 || cause == 0x17

def faultState (cause : Nat) (resumes : Bool) : OpState :=
  if cause = 0x09 then .held else if endsOp cause || !resumes then .ended else .suspended

/-- A thread can still join the operation (R294). -/
def State.joinable (s : State) (id : Nat) (o : EngOp) : Bool :=
  let c := s.opSlot o
  match o.origin with
  | .tx => decide (o.saved < haltedBase) && c.txs.contains id
  | .seq _ => decide (o.saved < haltedBase) && c.seqs.any (·.op == id)
  | _ => false

/-- A faulted operation of a parked TX surfaces: its record is written and the TX takes cause 0x0F (R289, R376). -/
def State.surfaceTx (s : State) (id : Nat) (o : EngOp) : State :=
  if o.saved = 0 && parkedOn (.command id) (s.slot o.thread) then
    (s.writeWindow o.thread (recordAt o.offset 1) (o.record ++ [0])).trapIn o.thread 0x0F (BitVec.ofNat 64 o.offset)
  else s

/-- What waits on the operation sees that it has faulted. -/
def State.surface (s : State) (id : Nat) : State :=
  match s.op? id with
  | none => s
  | some o =>
    match o.origin with
    | .tx => s.surfaceTx id o
    | .seq _ => s.wakeIf fun t c => t == o.thread && parkedOn .join c
    | _ => s

/-- The lines that an operation has asked for come home to nothing: it reads them again when it resumes (R103). -/
def State.detachReads (s : State) (id : Nat) : State :=
  { s with
    accesses := s.accesses.map fun e => if e.2.reader = .op id then (e.1, { e.2 with reader := .thread }) else e
    ops := modRec s.ops id fun o => { o with reads := [] } }

/-- Operation `id` faults at a resume offset; `resumes` says whether Table 13-6 or R207 gives one. A residency
fault, a machine check, and any fault of an operation that no thread can join, goes to the supervisor (R294, R369). DEDUCED, log 27. -/
def State.faultOp (s : State) (id cause : Nat) (tval : Word) (resume : Nat) (resumes : Bool) : State :=
  match s.op? id with
  | none => s
  | some o =>
      let s := (s.detachReads id).modOp id fun o =>
        { o with state := faultState cause resumes, cause := cause, tval := tval, resume := resume }
      let s := s.leaveQueue id o
      let joinable := s.joinable id o
      let s := if joinable && cause != 0x09 then s.surface id else s
      if cause = 0x09 || cause = 0x16 || !joinable then
        (s.modOp id fun o => { o with noticed := true }).push (.notice (.engine id) o.parish (chipOfCore o.core))
      else s

/-! ### Starting, running and completing -/

/-- Starts the command of a sequence entry that stands at its index (R292): it is checked now, against the tile
mapping and shapes of the moment, with what the FORK read. -/
def State.startSeq (s : State) (o0 : EngOp) (q : SeqEntry) (i : Nat) : State :=
  let c := s.opSlot o0
  match q.words[i]? with
  | none => s
  | some w =>
      let d := q.data.getD i []
      let o : EngOp := { o0 with
        word := w, engine := engineOf (field w 248 8).toNat, origin := .seq q.offset, offset := q.offset + 32 * i,
        index := i, fm := q.fm, sa := q.sa, sb := q.sb, seed := q.seed, seedh := q.seedh, race := q.race,
        stamp := q.stamp, tiles := c.tiles, shapes := c.shapes, block := d.getD 0 0, data := d, state := .queued,
        cause := 0, tval := 0, resume := 0, outstanding := 0, sent := 0, written := [], overlap := [], finished := false,
        noticed := false, group := 0, checked := true, raced := false, round := q.rounds.getD i 0,
        reads := [], preds := none, out := none,
        fence := (q.fence.filter fun a => s.accesses.any (·.1 == a)) ++
          (s.accesses.filter fun a => a.2.op == q.op && decide (q.op ≠ 0)).map (·.1) }
      let (id, s) := s.addOp o
      let s := s.modOpSlot o fun c =>
        { c with seqs := c.seqs.map fun e => if e.offset = q.offset ∧ e.op = q.op then { e with index := i, op := id } else e }
      match decodeCommand w with
      | .error .illegal => s.faultOp id 0x01 o.at' 0 true
      | .error .reserved => s.faultOp id 0x02 o.at' 0 true
      | .ok ins =>
          match s.checkIssue o ins with
          | (s, some (c, v)) => (s.modOp id fun o => { o with checked := false }).faultOp id c v 0 true
          | (s, none) => s.place id

/-- The remaining range of a resumed operation fails a check (R376). -/
def State.remainingFail (s : State) (o : EngOp) (i : Instr) : Option Fail :=
  match i with
  | .cpy f => firstFail [s.rangeFail o ((operandOf o.block).shift o.resume) (f.len.toNat - o.resume) rR,
      s.rangeFail o ((operandOf f.addr).shift o.resume) (f.len.toNat - o.resume) rW]
  | .cpya f => firstFail [s.rangeFail o ((operandOf o.block).shift o.resume) (f.len.toNat - o.resume) rR,
      s.rangeFail o ((operandOf f.addr).shift o.resume) (f.len.toNat - o.resume) rA]
  | .gath f | .scat f =>
      firstFail (((List.range (gatherCount f)).drop o.resume).map fun j => s.rowFail o f (s.gatherIndex o j))
  | _ => s.checkCommand o i

/-- An earlier command of the same engine still has accesses to be performed (R129). -/
def State.queueBusy (s : State) (id : Nat) (o : EngOp) : Bool :=
  s.accesses.any fun e => decide (e.2.engine = some o.engine) && nodeOfCore o.core == e.2.src &&
    coreOfThread e.2.thread == o.core && e.2.op != id && !e.2.performed

/-- The rows of its source tiles that a command reads (R312): a source of one row serves every row (R322). -/
def sourceRows (o : EngOp) (i : Instr) : List (Field4 × List Nat) :=
  let all (t : Field4) : Field4 × List Nat := (t, List.range (o.shape t).rows)
  let of (t : Field4) (rs : List Nat) : List (Field4 × List Nat) :=
    if t.toNat < 12 then [(t, if (o.shape t).rows = 1 then [0] else rs)] else []
  let rows (f : TileFields) (t : Field4) : List Nat := (rowRange f (o.shape t).rows).getD []
  let loom (f : TileFields) : List (Field4 × List Nat) :=
    (if (loomLayout o f).any (·.1) then all f.ta else (f.ta, rows f f.td)) :: all f.tb ::
      (if f.imm32.getLsbD 0 then [] else [(f.td, rows f f.td)])
  match i with
  | .tmma f | .tmmb f | .tmmd f => loom f
  | .tmms f => loom f ++ [(f.tc, rows f f.td)]
  | .radd f | .rsub f | .rmul f | .rmin f | .rmax f | .rand f | .ror f | .rxor f | .rshl f | .rshr f | .rsel f
  | .rperm f => of f.ta (rows f f.td) ++ of f.tb (rows f f.td)
  | .rfma f => of f.ta (rows f f.td) ++ of f.tb (rows f f.td) ++ of f.tc (rows f f.td)
  | .rabs f | .rneg f | .rrcp f | .rrsq f | .rexp2 f | .rlog2 f | .rcvt f | .rsumr f | .rmaxr f | .rscan f | .rsort f =>
      of f.ta (rows f f.td)
  | .rbcast f => if f.ta.toNat < 12 then [(f.ta, [f.imm32.toNat / (o.shape f.ta).cols])] else []
  | .rcmp f => [(f.ta, [f.first.toNat])] ++ of f.tb [f.first.toNat]
  | .ttrn f => [all f.ta]
  | .tst f | .tsta f => [(f.ta, rows f f.ta)]
  | .tcopy f => [(f.ta, rows f (if f.td.toNat = 12 then f.ta else f.td))]
  | .atts f | .attp f => [(f.ta, rows f f.td), all f.tb]
  | .gmrg f => [all f.ta, all f.tb]
  | _ => []

/-- The bytes of its core that a command reads as it runs, row by row and run by run, with their places. -/
def sourceRuns (o : EngOp) (i : Instr) : List (List Nat × Word) :=
  ((sourceRows o i).flatMap fun e => e.2.map fun r =>
    (consecutive (o.tileByte e.1 r 0) 64, placeOf o.core (o.tileByte e.1 r 0 % 2 ^ 16))) ++
  match i with
  | .tmmb f => (scaleRuns o f).map fun r => ((List.range r.2).map fun i => o.windowByte (r.1 + i), o.place r.1)
  | _ => []

/-- A row or scale that a command reads holds an uncorrectable error (R313). What it has read already, and what still waits for a
line to fill, is not looked at. -/
def State.sourceError (s : State) (o : EngOp) (i : Instr) : State × Option Word :=
  let runs := sourceRuns o i
  if s.errors.isEmpty || o.out.isSome || runs.any (fun r => (s.firstEmpty r.1).isSome) then (s, none)
  else
    runs.foldl (fun (acc : State × Option Word) r =>
      match acc.2 with
      | some _ => acc
      | none =>
          match acc.1.findError r.1 with
          | (s, true) => (s, some r.2)
          | (s, false) => (s, none)) (s, none)

/-- The command starts in its engine: it reads its thread's lane predicates (R314). -/
def State.startPreds (s : State) (id : Nat) (o : EngOp) : State :=
  if o.preds.isSome then s
  else s.modOp id fun x => { x with preds := some (Vector.ofFn fun k => s.lanePredNow o k.val) }

/-- The meaning of a command that its engine runs: it waits for the accesses that come before it (R129), is
checked if it has not been, and then takes its effect `k`. Without a running operation nothing takes place. DESIGN CHOICE, log 3. -/
def command (s : State) (k : State → Nat → EngOp → State) : Out :=
  .next (
    let id := s.curOp
    match s.op? id with
    | none => s
    | some o =>
        if o.state ≠ .running || o.finished || !o.fence.isEmpty || s.queueBusy id o then s
        else
          let s := s.startPreds id o
          let o := (s.op? id).getD o
          match decodeCommand o.word with
          | .error _ => s
          | .ok i =>
            let (s, bad) : State × Option Fail :=
              if o.checked then (s, none)
              else if o.resume ≠ 0 then (s, s.remainingFail o i)
              else s.checkIssue o i
            match bad with
            | some (c, v) => s.faultOp id c v o.resume true
            | none =>
              let s := if o.checked then s else s.modOp id fun o => { o with checked := true }
              match s.sourceError o i with
              | (s, some v) => s.faultOp id 0x16 v 0 false
              | (s, none) =>
                if raceAtIssue i || o.sent ≠ 0 || o.raced then k s id o
                else
                  match s.raceCommand o i with
                  | (s, some v) => s.faultOp id 0x11 v 0 true
                  | (s, none) =>
                      let s := if raceMode o.race = 0 then s else s.modOp id fun o => { o with raced := true }
                      k s id o)

/-- The engine has given the command its effect; it completes when its writes are visible. -/
def State.finishOp (s : State) (id : Nat) : State :=
  let s := s.modOp id fun o => { o with finished := true }
  match s.op? id with
  | some o => if o.outstanding = 0 then s.event (.engineCompletion id) else s
  | none => s

/-- The key under which the stamp of an operation's completion waits for its join. -/
def Origin.key : Origin → Option (Option Nat)
  | .tx => some none
  | .seq off => some (some off)
  | _ => none

/-- An operation is over: its completion carries the stamp of its fork (R138), which its join will acquire. Of a sequence the
latest stamp stands for those before it. DEDUCED, log 98. -/
def State.noteStamp (s : State) (o : EngOp) : State :=
  match o.origin.key with
  | some k =>
      if o.stamp.valid then
        s.modOpSlot o fun c => { c with completed := c.completed.filter (·.1 != k) ++ [(k, o.stamp)] }
      else s
  | none => s

/-- The return from TX, and an RDV, are acquires (Table 5-1): thread `t` takes in the stamps of what it has joined. -/
def State.joined (s : State) (t : Nat) (key : Option Nat) : State :=
  let c := s.slot t
  let l := c.completed.filter (·.1 == key)
  (if l.isEmpty then s else s.modSlot t fun c => { c with completed := c.completed.filter (·.1 != key) }).acquire t (l.map (·.2))

/-- A TX whose command is complete returns (R289). -/
def State.returnTx (s : State) (id : Nat) (o : EngOp) : State :=
  let s := (s.noteStamp o).modOpSlot o fun c => { c with txs := c.txs.filter (· != id) }
  if o.saved = 0 && parkedOn (.command id) (s.slot o.thread) then (s.joined o.thread none).finishOf o.thread else s

/-- A copy-schedule entry has been delivered (R105). -/
def State.entryDone (s : State) (task idx : Nat) : State :=
  s.modTask task fun t =>
    { t with schedule := match t.schedule[idx]? with
      | some e => listSet t.schedule idx { e with done := true }
      | none => t.schedule }

/-- An operation reaches its completion point: its queue goes on, and its TX, its sequence or its task
with it (R289, R292). -/
def execEngineCompletion (op : Nat) (s : State) : Out :=
  .next (match s.op? op with
    | none => s
    | some o =>
        if o.finished && o.outstanding == 0 && decide (o.state = .running) then
          let s := s.modOp op fun o => { o with state := .complete }
          let s := s.leaveQueue op o
          match o.origin with
          | .tx => ((s.returnTx op o).dropOp op).pokeTask o.task
          | .tq => (s.dropOp op).pokeTask o.task
          | .schedule t i => ((s.entryDone t i).dropOp op).pokeTask o.task
          | .seq off =>
              match (s.opSlot o).seqs.find? (fun q => q.offset == off && q.op == op) with
              | none => (s.dropOp op).pokeTask o.task
              | some q =>
                  if q.index + 1 < q.words.length then (s.startSeq o q (q.index + 1)).dropOp op
                  else
                    let s := (s.noteStamp o).modOpSlot o fun c => { c with seqs := c.seqs.filter fun e => e.op != op }
                    let s := s.wakeIf fun t c => t == o.thread && parkedOn .join c
                    (s.dropOp op).pokeTask o.task
        else s)

/-! ### Joins (R376) -/

/-- A suspended operation goes on from its resume offset, with the race register and seed pair its thread holds
now; a word that does not decode faults again. The entry has not been joined since (R376). DEDUCED, log 30. -/
def State.resumeOp (s : State) (id : Nat) : State :=
  match s.op? id with
  | none => s
  | some o =>
      let c := s.opSlot o
      let s := s.modOp id fun o =>
        { o with state := .queued, checked := false, raced := false, sent := 0, finished := false, cause := 0,
                 noticed := false, reads := [], written := [], race := c.race, seed := c.seed, seedh := c.seedh }
      let s := s.modOpSlot o fun c => { c with seqs := c.seqs.map fun e => if e.op = id then { e with joined := false } else e }
      match decodeCommand o.word with
      | .error .illegal => s.faultOp id 0x01 o.at' 0 true
      | .error .reserved => s.faultOp id 0x02 o.at' 0 true
      | .ok _ => s.place id

/-- The operation is gone: its entry frees. -/
def State.freeOp (s : State) (id : Nat) (o : EngOp) : State :=
  let s := (s.noteStamp o).modOpSlot o fun c =>
    { c with seqs := c.seqs.filter fun e => e.op != id, txs := c.txs.filter (· != id) }
  let s := s.wakeIf fun t c => t == o.thread && parkedOn .join c
  let s := if o.group = 0 then s else { s with groups := AMap.set {} s.groups o.group {} }
  (s.dropOp id).pokeTask o.task

def EngOp.faulted (o : EngOp) : Bool := decide (o.state = .suspended) || decide (o.state = .ended)

/-- What executing a join of a faulted operation again does: it is freed, it resumes, or 0x0F is raised. -/
inductive Joined where
  | freed (s : State)
  | resumed (s : State)
  | raise (s : State)

/-- The join of a faulted operation whose record stands at window offset `x` (R376). -/
def State.rejoin (s : State) (id : Nat) (o : EngOp) (x : Nat) : Joined :=
  if o.state = .ended then .freed (s.freeOp id o)
  else
    let d := s.dispAt o.thread x
    let s := s.noteEarly o.thread (s.dispBytes o.thread x)
    match d with
    | 1 => .resumed ((s.writeWindow o.thread (x + 24) [0]).resumeOp id)
    | 2 => .freed (s.freeOp id o)
    | _ => .raise s

/-- The sequence entry of an operation is marked as joined, and its record written. -/
def State.firstJoin (s : State) (id : Nat) (o : EngOp) (q : SeqEntry) : State :=
  (s.writeWindow o.thread (recordAt q.offset q.words.length) (o.record ++ [0])).modSlot o.thread fun c =>
    { c with seqs := c.seqs.map fun e => if e.op = id then { e with joined := true } else e }

/-- The join of every entry of the current thread with first-command offset `x` (R293). -/
def State.joinAt (s : State) (x : Nat) : Nat → State
  | 0 => s.park .join
  | fuel + 1 =>
      let held := s.here.seqs.filter (·.offset == x)
      let ops := held.filterMap fun q => (s.op? q.op).map fun o => (q, o)
      if ops.isEmpty then (s.joined s.cur (some x)).finish
      else if ops.any fun e => !e.2.faulted then s.park .join
      else
        match ops with
        | (q, o) :: _ =>
            if !q.joined then (s.firstJoin q.op o q).trap 0x0F (BitVec.ofNat 64 o.offset)
            else
              match s.rejoin q.op o (recordAt q.offset q.words.length) with
              | .freed s => s.joinAt x fuel
              | .resumed s => s.park .join
              | .raise s => s.trap 0x0F (BitVec.ofNat 64 o.offset)
        | [] => s.finish

/-- RDV (R293). DEDUCED, log 60. -/
def execRdv (g : Guard) (a : Field4) (imm : BitVec 12) (s : State) : Out :=
  scalar g s fun s => atHome s fun s =>
    let x := commandOffset s a imm
    if x.toNat % 32 ≠ 0 then s.trap 0x05 x else s.joinAt x.toNat 5

/-! ### TX, TQ and FORK -/

/-- The first empty line that the fetch of `n` command words at window offset `x`, and of what they read at issue,
meets. -/
def State.fetchEmpty (s : State) (t x n : Nat) : Option Nat :=
  let c := s.slot t
  let core := coreOfThread t
  match s.firstEmpty (c.windowBytes core x (32 * n)) with
  | some l => some l
  | none =>
      (List.range n).findSome? fun i => s.firstEmpty (issueBytes core c (s.commandAt t (x + 32 * i)))

/-- The bytes of `n` command words at window offset `x`, and of what they read at issue. -/
def State.fetchBytes (s : State) (t x n : Nat) : List Nat :=
  let c := s.slot t
  let core := coreOfThread t
  c.windowBytes core x (32 * n) ++ (List.range n).flatMap fun i => issueBytes core c (s.commandAt t (x + 32 * i))

/-- The fetch of `n` command words of the current thread at window offset `x`: it parks on an empty line, or on a store
that it must follow (R124), and takes cause 0x16 on an uncorrectable error. -/
def State.fetchCommands (s : State) (x n : Nat) (k : State → State) : State :=
  match s.fetchEmpty s.cur x n with
  | some l => s.park (.line l)
  | none =>
    let pas := s.fetchBytes s.cur x n
    match s.heldBack s.cur false pas with
    | some id => s.park (.store id)
    | none =>
      match s.findError pas with
      | (s, true) => s.trap 0x16 (BitVec.ofNat 64 x)
      | (s, false) => k (s.noteEarly s.cur pas)

/-- Checks a command of the current thread at window offset `x` and hands it to `k`; a failure traps (R207). -/
def State.issueCommand (s : State) (x : Nat) (origin : Origin) (k : State → Nat → EngOp → State) : State :=
  s.fetchCommands x 1 fun s =>
      let w := s.commandAt s.cur x
      match decodeCommand w with
      | .error .illegal => s.trap 0x01 (BitVec.ofNat 64 x)
      | .error .reserved => s.trap 0x02 (BitVec.ofNat 64 x)
      | .ok i =>
          let o := { s.issueOp s.cur w origin x with checked := true }
          match s.checkIssue o i with
          | (s, some (c, v)) => s.trap c v
          | (s, none) =>
              let (id, s) := s.addOp o
              k s id o

/-- The operation of a TQ or TX that waits for a queue entry. -/
def SlotState.queued? : SlotState → Option Nat
  | .parked (.queue op) => some op
  | _ => none

/-- The round that the next SPIRE of a member at a level joins: they are numbered in the order of their issue (R360). A FORK issues
its commands. DEDUCED, log 111. -/
def State.numberSpire (s : State) (task member : Nat) (w : Command) : Nat × State :=
  match decodeCommand w with
  | .ok (.spire f) =>
      let k := 8 * member + spireLevel f
      let n := AMap.get 0 (s.task task).spires k
      (n, s.modTask task fun t => { t with spires := AMap.set 0 t.spires k (n + 1) })
  | _ => (0, s)

/-- An operation of TX or TQ enters its engine's queue: it has issued. -/
def State.giveOp (s : State) (id : Nat) (o : EngOp) : State :=
  let (n, s) := s.numberSpire o.task (s.opSlot o).member o.word
  (s.modOp id fun o => { o with round := n }).enqueue id

/-- TQ (R291). -/
def execTq (g : Guard) (a : Field4) (imm : BitVec 12) (s : State) : Out :=
  scalar g s fun s => atHome s fun s =>
    let x := commandOffset s a imm
    let give (s : State) (id : Nat) (o : EngOp) : State :=
      if s.queueFull o.core o.engine then s.park (.queue id) else (s.giveOp id o).finish
    match s.here.state.queued? with
    | some id =>
        match s.op? id with
        | some o => give s id o
        | none => s.finish
    | none => if x.toNat % 32 ≠ 0 then s.trap 0x05 x else s.issueCommand x.toNat .tq give

/-- TX (R289): a TX whose offset names a faulted operation or entry acts as its join (R376). -/
def execTx (g : Guard) (a : Field4) (imm : BitVec 12) (s : State) : Out :=
  scalar g s fun s => atHome s fun s =>
    let x := commandOffset s a imm
    let off := x.toNat
    let give (s : State) (id : Nat) (o : EngOp) : State :=
      if s.queueFull o.core o.engine then s.park (.queue id) else (s.park (.command id)).giveOp id o
    match s.here.state.queued? with
    | some id =>
        match s.op? id with
        | some o => give s id o
        | none => s.finish
    | none =>
      if x.toNat % 32 ≠ 0 then s.trap 0x05 x
      else
        let held := s.here.txs.filterMap fun id => (s.op? id).map fun o => (id, o)
        match held.find? fun e => e.2.offset == off && e.2.faulted with
        | some (id, o) =>
            match s.rejoin id o (recordAt off 1) with
            | .freed s => (s.joined s.cur none).finish
            | .resumed s => s.park (.command id)
            | .raise s => s.trap 0x0F (BitVec.ofNat 64 off)
        | none =>
          let seqs := s.here.seqs.filterMap fun q => (s.op? q.op).map fun o => (q, o)
          if seqs.any fun e => e.1.offset == off && e.2.faulted then s.joinAt off 5
          else
            s.issueCommand off .tx fun s id o =>
              give (s.modHere fun c => { c with txs := c.txs ++ [id] }) id o

/-- What a FORK reads as it issues (R288, R427). -/
def State.forkEntry (s : State) (x n : Nat) : SeqEntry :=
  let t := s.cur
  let words := (List.range n).map fun i => s.commandAt t (x + 32 * i)
  let o0 := s.newOp t (words.getD 0 0) (.seq x) x
  { offset := x, words := words, data := words.map fun w => s.issueData t w, index := 0, op := 0,
    fm := o0.fm, sa := o0.sa, sb := o0.sb, seed := o0.seed, seedh := o0.seedh, race := o0.race,
    stamp := o0.stamp, fence := o0.fence, joined := false, rounds := [] }

/-- A FORK's own sequence: it takes an entry and starts its first command (R292, R427). DEDUCED, log 22. -/
def State.startFork (s : State) (q : SeqEntry) : State :=
  let (ns, s) := q.words.foldl (fun (acc : List Nat × State) w =>
    let (n, s) := acc.2.numberSpire s.here.task s.here.member w
    (acc.1 ++ [n], s)) ([], s)
  let q : SeqEntry := { q with rounds := ns }
  let o0 := s.newOp s.cur (q.words.getD 0 0) (.seq q.offset) q.offset
  ((s.modHere fun c => { c with seqs := c.seqs ++ [q], fork := none }).startSeq o0 q 0).finish

/-- A FORK that has read its commands takes an entry, or waits for one with what it has read (R288, R292, R376). -/
def State.takeEntry (s : State) (new : SeqEntry) : State :=
  let wait (s : State) : State := (s.modHere fun c => { c with fork := some new }).park .join
  if s.here.seqs.length < 4 then s.startFork new
  else
    let ops := s.here.seqs.filterMap fun q => (s.op? q.op).map fun o => (q, o)
    if ops.any fun e => !e.2.faulted then wait s
    else
      match ops with
      | (q, o) :: _ =>
          if !q.joined then (s.firstJoin q.op o q).trap 0x0F (BitVec.ofNat 64 q.offset)
          else
            match s.rejoin q.op o (recordAt q.offset q.words.length) with
            | .freed s => s.startFork new
            | .resumed s => wait s
            | .raise s => s.trap 0x0F (BitVec.ofNat 64 q.offset)
      | [] => s.startFork new

/-- FORK (R292). -/
def execFork (g : Guard) (n a : Field4) (imm : BitVec 12) (s : State) : Out :=
  scalar g s fun s => atHome s fun s =>
    let x := commandOffset s a imm
    let off := x.toNat
    let cnt := n.toNat + 1
    if x.toNat % 32 ≠ 0 then s.trap 0x05 x
    else
      match s.here.state, s.here.fork with
      | .parked .join, some q => s.takeEntry q
      | _, _ => s.fetchCommands off cnt fun s => s.takeEntry (s.forkEntry off cnt)

/-! ### Link lost (R82, R380) -/

/-- The resume offset of an operation of which access `a` has failed: the place of the first byte or row not yet written (R103,
Table 13-6). -/
def State.resumeAt (s : State) (id : Nat) (o : EngOp) (a : Access) : Nat :=
  let low := s.accesses.foldl (fun m e => if e.2.op = id ∧ !e.2.performed then Nat.min m e.2.dest else m) a.dest
  match decodeCommand o.word with
  | .ok (.gath f) | .ok (.scat f) => unserved ((s.servedOrder o f).drop o.sent) low
  | .ok (.spire _) | .ok (.gtake _) => 0
  | _ =>
    match o.out with
    | some l => Nat.min low ((((l.filter fun c => decide (o.resume ≤ c.1)).drop o.sent).head?.map (·.1)).getD low)
    | none => Nat.min low (Nat.max o.sent o.resume)

/-- A dropped posted write marks the context it belongs to: its slot, or the record and the kept context of a saved thread
(R417, Table 14-2). -/
def State.markLost (s : State) (t r : Nat) (a : Word) : State :=
  if r = 0 then s.markDropped t a
  else if haltedBase ≤ r || ((AMap.get {} s.saved r).unreachable).isSome then s
  else
    let s := (s.modContext t r fun c => { c with unreachable := some a }).write (bytesAt (r + 0x3D8) 8 a)
    s.write (bytesAt r 8 (s.loadLE r 8 ||| 0x100000000))

/-- A page is on its way to a subscription. -/
def Access.isPageOf (a : Access) (p : Nat → Bool) : Bool :=
  match a.req with
  | .page sub _ => p sub
  | _ => false

/-- Two accesses carry lines of one page for one subscriber. -/
def Access.samePage (a b : Access) : Bool := a.row == b.row && a.isPageOf fun x => b.isPageOf (· == x)

/-- A write of group `g` will not be performed: neither flag of it is counted (R93). -/
def State.failGroup (s : State) (g : Nat) : State :=
  if g = 0 then s
  else
    let v : Group := AMap.get {} s.groups g
    let v : Group := { v with outstanding := v.outstanding - 1, failed := true }
    { s with groups := AMap.set {} s.groups g (if v.sealed && v.outstanding == 0 then {} else v) }

/-- An access ends with cause 0x12 (link lost) or 0x17 (its chip has become unreachable, R417, R418): a parked thread takes
the cause, an engine operation faults, and any other posted write marks its slot, and the slots that have read it early, until
their next release, wait or HALT. A counted write's flag is never counted (R93). -/
def State.endAccess (s : State) (id : Nat) (a : Access) (cause : Nat) : State :=
  let packets : List (Nat × Packet) := s.packets.filter fun e => decide (e.2.payload ≠ Payload.request id)
  let s : State := { s with packets := packets }
  let s := if cause = 0x17 then
      s.slots.foldl (fun s e => if e.2.early.contains id then s.markDropped e.1 a.addr else s) s
    else s
  let s := (s.retireAccess id).failGroup a.group
  if a.reader ≠ .thread then s.landLine { a with trap := some (cause, a.addr) }
  else
  match a.req with
  | .page sub _ =>
      { s with accesses := s.accesses.map fun (e : Nat × Access) => if e.2.samePage a then (e.1, { e.2 with flag := none }) else e }.event
        (.pageWalk (s.subscription sub).die (s.subscription sub).roll)
  | _ =>
  if (s.slot a.thread).state = .parked (.reply id) then s.trapIn a.thread cause a.addr
  else
  match s.failWait id cause fun _ => a.addr with
  | some s => s
  | none =>
    match (s.op? a.op).filter fun o => decide (o.state = .running ∨ o.state = .held ∨ o.state = .suspended) with
    | some o =>
        (s.modOp a.op fun o => { o with outstanding := o.outstanding - 1 }).faultOp a.op cause a.addr
          (s.resumeAt a.op o a) true
    | none =>
        if !a.posted then s
        else if cause = 0x17 then s.markLost a.thread a.saved a.addr
        else s.modContext a.thread a.saved fun c => { c with linkLost := some (c.linkLost.getD a.addr) }

/-- An access ends with link lost (R82). -/
def State.loseAccess (s : State) (id : Nat) (a : Access) : State := s.endAccess id a 0x12

/-- A request waits at its home for a line, an extent or its turn, a multicast of it is in the mesh or waits for its buffer, or it
has been combined into one that is still to be performed. -/
def State.inProgress (s : State) (acc : Nat) : Bool :=
  (s.packets.any fun e =>
    match e.2.payload, e.2.loc with
    | .request k, .waitingLine _ | .request k, .waitingExtent | .request k, .waitingTurn => k == acc
    | .page accs _ _, _ | .change accs _, _ => accs.contains acc
    | _, _ => false) || s.accesses.any fun e => !e.2.performed && e.2.partners.contains acc

/-- No acknowledgement has come in time: the copy is sent again, up to 8 times (R82). While the request is in progress at
its home, its copies are discarded (R117) and count for nothing: an access may wait on an empty line for any time (R59).
DEDUCED, log 99. -/
def execRetryTimeout (acc : Nat) (s : State) : Out :=
  .next (match s.access? acc with
    | none => s
    | some a =>
        if s.inProgress acc then s.armRetry acc a a.dst
        else if a.refused || decide (Config.retries ≤ a.resends) then s.loseAccess acc a
        else
          ((s.modAccess acc fun x => { x with resends := x.resends + 1 }).resend acc a).armRetry acc a a.dst)

/-- An acknowledgement arrives: at the source it frees the write's window place and buffer entry (R115,
R125), at the destination the reply store's entry (R83). -/
def execAcknowledgement (pk : Nat) (s : State) : Out :=
  .next (match s.packet? pk with
    | none => s
    | some p =>
      match p.loc with
      | .delivered =>
        let s := s.dropPacket pk
        match p.payload with
        | .ack id =>
          match s.access? id with
          | some a =>
              let s := a.partners.foldl (fun s k =>
                match s.access? k with
                | some b => s.send (.ack k) .control b.parish p.dst b.src false
                | none => s) s
              let s := if a.reader = .thread then s else s.landLine a
              (((s.retireAccess id).sendFreed id a a.dst).landError id a).opProgress a.op
          | none => s
        | .freed id =>
            s.modNode p.dst fun n =>
              { n with replies := n.replies.filter (·.2.2 != id),
                       channelReplies := n.channelReplies.filter (·.2.2 != id) }
        | .refused id =>
          match s.access? id with
          | some a => s.loseAccess id a
          | none => s
        | _ => s
      | _ => s)

/-! ### Reports (R90) -/

/-- The reports of the homes of one write are counted, and the issuing node sends the single increment
after the last (R90). A home that met an uncorrectable error ends the operation (R364). -/
def execHomeReport (pk : Nat) (s : State) : Out :=
  .next (match s.packet? pk with
    | none => s
    | some p =>
      match p.payload, p.loc with
      | .report id, .delivered =>
        let s := s.dropPacket pk
        match s.access? id with
        | some a =>
          let s := (s.retireAccess id).sendFreed id a p.src
          let g : Group := AMap.get {} s.groups a.group
          let g : Group := { g with outstanding := g.outstanding - 1, failed := g.failed || a.trap.isSome }
          let s := { s with groups := AMap.set {} s.groups a.group g }
          let s := if g.sealed && g.outstanding == 0 then
              let s := { s with groups := AMap.set {} s.groups a.group {} }
              if g.failed then s else s.countGroup g a.src
            else s
          match a.trap, (s.op? a.op).filter fun o => decide (o.state = .running ∨ o.state = .held ∨ o.state = .suspended) with
          | some (c, v), some o =>
              (s.modOp a.op fun o => { o with outstanding := o.outstanding - 1 }).faultOp a.op c v (s.resumeAt a.op o a) true
          | _, _ => (s.landError id a).opProgress a.op
        | none => s
      | _, _ => s)

end Sys2Proof.Machine
end

