-- ==== Sys2Proof/Machine/Lane.lean ====
section
/-! DEFINITION. The Lane engine: row commands and lane-predicate commands (12 R322 to R333), with 2^x and log2
correctly rounded (R324). -/

namespace Sys2Proof.Machine

/-! ### Reciprocal square root, 2^x and log2 (R324) -/

/-- 1/x (Table 12-6). DEDUCED, log 82. -/
def rcpVal (x : Val) : Val := (divVal .one x).1

/-- 1/√x (Table 12-6). -/
def rsqVal (x : Val) : Val :=
  match x with
  | .nan => .nan
  | .inf neg => if neg then .nan else .zero
  | .fin neg m e =>
      if m = 0 then .inf neg
      else if neg then .nan
      else
        let (m, e) := if e % 2 = 0 then (m, e) else (2 * m, e - 1)
        let k := guardBits + Nat.log2 m
        let r := isqrt (2 ^ (2 * k) / m)
        .fin false (withTail r (r * r * m != 2 ^ (2 * k))) (-(k : Int) - e / 2 - 1)

/-- Fraction bits of the fixed-point numbers below. -/
def fixedBits : Nat := 448

/-- Σ z^(2i+1)/(2i+1), i below `n`, for z = `z`·2^−448 and `zz` its square: `p` is the running power. -/
def atanhSum (zz : Nat) : Nat → Nat → Nat → Nat
  | 0, _, _ => 0
  | n + 1, i, p => p / (2 * i + 1) + atanhSum zz n (i + 1) (p * zz / 2 ^ fixedBits)

/-- atanh of a fixed-point number of at most 1/3. -/
def atanhFixed (z : Nat) : Nat := atanhSum (z * z / 2 ^ fixedBits) 150 0 z

/-- ln 2 = 2·atanh(1/3). -/
def ln2Fixed : Nat := 2 * atanhFixed (2 ^ fixedBits / 3)

/-- Σ t^i/i! from i on. -/
def expSum (t : Nat) : Nat → Nat → Nat → Nat
  | 0, _, _ => 0
  | n + 1, i, p => p + expSum t n (i + 1) (p * t / 2 ^ fixedBits / (i + 1))

def squareN : Nat → Nat → Nat
  | 0, x => x
  | n + 1, x => squareN n (x * x / 2 ^ fixedBits)

/-- 2^f for a fixed-point f in [0, 1): the Taylor sum at f·ln 2 / 2^16, squared 16 times. -/
def exp2Fixed (f : Nat) : Nat :=
  squareN 16 (expSum (f * ln2Fixed / 2 ^ fixedBits / 2 ^ 16) 40 0 (2 ^ fixedBits))

/-- The exponent beyond which every format over- or underflows. -/
def exp2Limit : Nat := 20000

/-- 2^x (Table 12-6): exact for an integer x; otherwise irrational, so a truncated value with a rest rounds
as the exact one does. -/
def exp2Val (x : Val) : Val :=
  match x with
  | .nan => .nan
  | .inf neg => if neg then .zero else .inf false
  | .fin neg m e =>
      if m = 0 then .one
      else if 0 ≤ e ∨ m % 2 ^ (-e).toNat = 0 then
        let n := if 20 ≤ topExp m e then exp2Limit else (if 0 ≤ e then m * 2 ^ e.toNat else m / 2 ^ (-e).toNat)
        let n := Nat.min n exp2Limit
        .fin false 1 (if neg then -(n : Int) else n)
      else if 20 ≤ topExp m e then .fin false 1 (if neg then -(exp2Limit : Int) else exp2Limit)
      else if topExp m e < -200 then
        if neg then .fin false (withTail (2 ^ 301 - 1) true) (-302) else .fin false (withTail (2 ^ 300) true) (-301)
      else
        let v : Int := scaled neg m e (-(fixedBits : Int))
        let n := v / 2 ^ fixedBits
        let f := (v % 2 ^ fixedBits).toNat
        .fin false (withTail (exp2Fixed f) true) (n - fixedBits - 1)

/-- log2 x (Table 12-6): exact for a power of two; otherwise irrational. -/
def log2Val (x : Val) : Val :=
  match x with
  | .nan => .nan
  | .inf neg => if neg then .nan else .inf false
  | .fin neg m e =>
      if m = 0 then .inf true
      else if neg then .nan
      else
        let t := topExp m e
        let b := Nat.log2 m
        if m = 2 ^ b then .fin (decide (t < 0)) t.natAbs 0
        else
          let z := (m - 2 ^ b) * 2 ^ fixedBits / (m + 2 ^ b)
          let l := 2 * atanhFixed z * 2 ^ fixedBits / ln2Fixed
          let v : Int := t * 2 ^ fixedBits + l
          .fin (decide (v < 0)) (withTail v.natAbs true) (-(fixedBits : Int) - 1)

/-! ### Elements -/

/-- The integer a value is. -/
def intOfVal (v : Val) : Int :=
  match v with
  | .fin neg m e => let n : Int := m * 2 ^ e.toNat; if neg then -n else n
  | _ => 0

/-- An exact integer result wraps, or clamps when saturating (R227). -/
def wrapInt (b : Nat) (signed sat : Bool) (i : Int) : Nat :=
  let w := 8 * b
  let lo : Int := if signed then -(2 ^ (w - 1) : Int) else 0
  let hi : Int := if signed then 2 ^ (w - 1) - 1 else 2 ^ w - 1
  let i := if sat then max lo (min hi i) else i
  (i % 2 ^ w).toNat

/-- A result in td's code (R310, R311): integers that come from integers wrap or clamp; all else rounds
once. -/
def resultBits (d : Elem) (rm : Rounding) (sat fromInt : Bool) (v : Val) : Nat :=
  match d with
  | .int b sg => if fromInt then wrapInt b sg sat (intOfVal v) else (roundInt b sg rm v).bits
  | .float f => (roundFloat f rm sat v).bits

/-- imm32 as an operand (R322). -/
def immVal (f : TileFields) (e : Elem) : Val := if e.isFloat then f32Val f.imm32 else valOfInt f.imm32.toInt

/-- The raw bits of a source at (r, l): one row or one column serves every row or lane (R322). imm32 beside elements of 8 bytes
has zeros above it: the spec says only that its low bits are taken (R326). DESIGN CHOICE, log 109. -/
def State.srcBits (s : State) (o : EngOp) (f : TileFields) (t : Field4) (e : Elem) (r l : Nat) : Nat :=
  if t.toNat = 12 then f.imm32.toNat
  else
    let h := o.shape t
    s.elem o t (if h.rows = 1 then 0 else r) (if h.cols = 1 then 0 else l) e.bytes

def State.srcVal (s : State) (o : EngOp) (f : TileFields) (t : Field4) (e : Elem) (r l : Nat) : Val :=
  if t.toNat = 12 then immVal f e else decodeElem e (s.srcBits o f t e r l)

/-- A source tile waits on an empty line (R59). -/
def State.tileEmpty (s : State) (o : EngOp) (t : Field4) (rows : List Nat) : Bool :=
  t.toNat < 12 && s.rowsEmpty o t (if (o.shape t).rows = 1 then [0] else rows)

/-- What a row command knows: its rows, elements, rounding and guard. -/
structure RowCtx where
  rows : List Nat
  d : Elem
  a : Elem
  b : Elem
  rnd : Nat
  sat : Bool
  k : BitVec 64

def State.rowCtx (s : State) (o : EngOp) (f : TileFields) : RowCtx :=
  let (rnd, sat) := (roundOf o.fm f).getD (0, false)
  { rows := (rowRange f (o.shape f.td).rows).getD [], d := elemOr (codeD o.fm f.ed), a := elemOr (codeA o.fm f.ea),
    b := elemOr (codeB o.fm f.eb), rnd := rnd, sat := sat, k := s.lanePred o f.k.toNat }

/-- The shape of every row command: it waits for its sources, computes the elements of td that the guard enables
(or, when `all`, every element) from one reading of its sources, and writes them. -/
def rowCommand (f : TileFields) (sources : List Field4) (all : Bool) (s : State)
    (elem : State → EngOp → RowCtx → Nat → Nat → Nat) : Out :=
  command s fun s id o =>
    let c := s.rowCtx o f
    if sources.any fun t => s.tileEmpty o t c.rows then s
    else
      let n := c.d.bytes
      let w := c.rows.flatMap fun r => (List.range (o.shape f.td).cols).flatMap fun l =>
        if all || enabled f c.k n l then o.elemBytes f.td r l n (elem s o c r l) else []
      (s.write w).finishOp id

/-! ### Arithmetic (Table 12-5) -/

/-- A row command that rounds an exact value of its sources into td. -/
def arith (f : TileFields) (sources : List Field4) (s : State) (op : Bool → Val → Val → Val → Val) : Out :=
  rowCommand f sources false s fun s o c r l =>
    let x := s.srcVal o f f.ta c.a r l
    let y := s.srcVal o f f.tb c.b r l
    let z := s.srcVal o f f.tc c.d r l
    resultBits c.d (o.rounding c.rnd r l) c.sat (!c.a.isFloat) (op (c.rnd == 2) x y z)

def execRadd (f : TileFields) (s : State) : Out := arith f [f.ta, f.tb] s fun dn x y _ => (addVal dn x y).1
def execRsub (f : TileFields) (s : State) : Out := arith f [f.ta, f.tb] s fun dn x y _ => (addVal dn x y.neg).1
def execRmul (f : TileFields) (s : State) : Out := arith f [f.ta, f.tb] s fun _ x y _ => (mulVal x y).1
def execRfma (f : TileFields) (s : State) : Out :=
  arith f [f.ta, f.tb, f.tc] s fun dn x y z => (addVal dn (mulVal x y).1 z).1
def execRmin (f : TileFields) (s : State) : Out := arith f [f.ta, f.tb] s fun _ x y _ => minVal x y
def execRmax (f : TileFields) (s : State) : Out := arith f [f.ta, f.tb] s fun _ x y _ => maxVal x y
def execRabs (f : TileFields) (s : State) : Out := arith f [f.ta] s fun _ x _ _ => x.abs
def execRneg (f : TileFields) (s : State) : Out := arith f [f.ta] s fun _ x _ _ => x.neg

/-! ### Functions (R324), conversion (R325) -/

/-- A row command of one source. -/
def unary (f : TileFields) (s : State) (op : Val → Val) : Out :=
  rowCommand f [f.ta] false s fun s o c r l =>
    resultBits c.d (o.rounding c.rnd r l) c.sat (!c.a.isFloat) (op (s.srcVal o f f.ta c.a r l))

def execRrcp (f : TileFields) (s : State) : Out := unary f s rcpVal
def execRrsq (f : TileFields) (s : State) : Out := unary f s rsqVal
def execRexp2 (f : TileFields) (s : State) : Out := unary f s exp2Val
def execRlog2 (f : TileFields) (s : State) : Out := unary f s log2Val
def execRcvt (f : TileFields) (s : State) : Out := unary f s id

/-! ### Raw bits (R326) -/

def bitwise (f : TileFields) (s : State) (op : Nat → Nat → Nat) : Out :=
  rowCommand f [f.ta, f.tb] false s fun s o c r l =>
    op (s.srcBits o f f.ta c.a r l) (s.srcBits o f f.tb c.b r l) % 2 ^ (8 * c.d.bytes)

def execRand (f : TileFields) (s : State) : Out := bitwise f s fun x y => x &&& y
def execRor (f : TileFields) (s : State) : Out := bitwise f s fun x y => x ||| y
def execRxor (f : TileFields) (s : State) : Out := bitwise f s fun x y => x ^^^ y

/-- Shifts by an unsigned amount; at the width or more, zero or all sign bits. -/
def execRshl (f : TileFields) (s : State) : Out :=
  rowCommand f [f.ta, f.tb] false s fun s o c r l =>
    let w := 8 * c.d.bytes
    let a := s.srcBits o f f.tb c.b r l
    if w ≤ a then 0 else s.srcBits o f f.ta c.a r l * 2 ^ a % 2 ^ w

/-- Codes 5 to 8. -/
def Elem.isSigned : Elem → Bool
  | .int _ sg => sg
  | .float _ => false

def execRshr (f : TileFields) (s : State) : Out :=
  rowCommand f [f.ta, f.tb] false s fun s o c r l =>
    let w := 8 * c.d.bytes
    let a := Nat.min (s.srcBits o f f.tb c.b r l) w
    let x := s.srcBits o f f.ta c.a r l
    if c.d.isSigned then (intOf c.d.bytes true x / 2 ^ a % 2 ^ w).toNat else x / 2 ^ a

/-! ### Selection, broadcast, indices, permutation, draws (R327, R332) -/

def execRsel (f : TileFields) (s : State) : Out :=
  rowCommand f [f.ta, f.tb] true s fun s o c r l =>
    if enabled f c.k c.d.bytes l then
      resultBits c.d (o.rounding c.rnd r l) c.sat (!c.a.isFloat) (s.srcVal o f f.ta c.a r l)
    else resultBits c.d (o.rounding c.rnd r l) c.sat (!c.b.isFloat) (s.srcVal o f f.tb c.b r l)

def execRbcast (f : TileFields) (s : State) : Out :=
  command s fun s id o =>
    let c := s.rowCtx o f
    let cols := (o.shape f.ta).cols
    let r0 := f.imm32.toNat / cols
    if f.ta.toNat < 12 && s.rowsEmpty o f.ta [r0] then s
    else
      let (v, i) := if f.ta.toNat = 12 then (immVal f c.d, !c.d.isFloat)
        else (decodeElem c.a (s.elem o f.ta r0 (f.imm32.toNat % cols) c.a.bytes), !c.a.isFloat)
      let n := c.d.bytes
      let w := c.rows.flatMap fun r => (List.range (o.shape f.td).cols).flatMap fun l =>
        if enabled f c.k n l then o.elemBytes f.td r l n (resultBits c.d (o.rounding c.rnd r l) c.sat i v) else []
      (s.write w).finishOp id

def execRidx (f : TileFields) (s : State) : Out :=
  rowCommand f [] false s fun _ o c r l =>
    resultBits c.d (o.rounding c.rnd r l) c.sat true
      (valOfInt (f.imm32.toInt + ((o.shape f.td).cols * r + l : Nat)))

def execRperm (f : TileFields) (s : State) : Out :=
  rowCommand f [f.ta, f.tb] false s fun s o c r l =>
    let i := intOfVal (s.srcVal o f f.tb c.b r l)
    let h := o.shape f.ta
    if i < 0 ∨ (h.cols : Int) ≤ i then 0
    else
      resultBits c.d (o.rounding c.rnd r l) c.sat (!c.a.isFloat)
        (decodeElem c.a (s.elem o f.ta (if h.rows = 1 then 0 else r) i.toNat c.a.bytes))

def execRroll (f : TileFields) (s : State) : Out :=
  rowCommand f [] false s fun _ o c r l =>
    let z := commandRoll o.seed o.seedh (f.imm32 + BitVec.ofNat 32 (64 * r + l))
    if c.d.isFloat then
      resultBits c.d (o.rounding c.rnd r l) c.sat false (.fin false (z >>> 8).toNat (-24))
    else z.toNat % 2 ^ (8 * c.d.bytes)

/-! ### Comparison (R328) and lane predicates (R333) -/

/-- Table 12-7. -/
def laneCond (cc : Nat) (x y : Val) : Bool :=
  match cc with
  | 0 => eqVal x y
  | 1 => !eqVal x y
  | 2 => ltVal x y
  | 3 => ltVal x y || eqVal x y
  | 4 => ltVal y x
  | 5 => ltVal y x || eqVal x y
  | _ => x.isNan || y.isNan

/-- kd, ka and kb of imm32. -/
def immK (f : TileFields) (i : Nat) : Nat := (field f.imm32 (4 * i) 4).toNat

/-- A 64-bit word from its bits. -/
def wordOfBits (p : Nat → Bool) : BitVec 64 :=
  (List.range 64).foldl (fun w i => if p i then w ||| (1 <<< i) else w) 0

def execRcmp (f : TileFields) (s : State) : Out :=
  command s fun s id o =>
    let a := elemOr (codeA o.fm f.ea)
    let b := elemOr (codeB o.fm f.eb)
    let h := o.shape f.ta
    let r := f.first.toNat
    if s.tileEmpty o f.ta [r] || s.tileEmpty o f.tb [r] then s
    else
      let k := s.lanePred o f.k.toNat
      let old := s.lanePred o (immK f 0)
      let new := wordOfBits fun i =>
        let l := i / a.bytes
        if h.cols ≤ l then false
        else if enabled f k a.bytes l then
          laneCond f.layout.toNat (decodeElem a (s.elem o f.ta r l a.bytes)) (decodeElem b (s.srcBits o f f.tb b r l))
        else old.getLsbD i
      (s.setLanePred o (immK f 0) new).finishOp id

/-- A K command: the bits of kd whose guard bit is enabled take the result. -/
def laneOp (f : TileFields) (s : State) (op : BitVec 64 → BitVec 64 → BitVec 64) : Out :=
  command s fun s id o =>
    let k := s.lanePred o f.k.toNat
    let old := s.lanePred o (immK f 0)
    let r := op (s.lanePred o (immK f 1)) (s.lanePred o (immK f 2))
    let new := wordOfBits fun i => if enabled f k 1 i then r.getLsbD i else old.getLsbD i
    (s.setLanePred o (immK f 0) new).finishOp id

def execKand (f : TileFields) (s : State) : Out := laneOp f s fun a b => a &&& b
def execKor (f : TileFields) (s : State) : Out := laneOp f s fun a b => a ||| b
def execKxor (f : TileFields) (s : State) : Out := laneOp f s fun a b => a ^^^ b
def execKnot (f : TileFields) (s : State) : Out := laneOp f s fun a _ => ~~~a

/-! ### Reductions, scan and sort (R329 to R331) -/

/-- The enabled elements of row `r` of ta, with their lanes. -/
def State.rowValues (s : State) (o : EngOp) (f : TileFields) (c : RowCtx) (r : Nat) : List (Nat × Val) :=
  let h := o.shape f.ta
  ((List.range h.cols).filter fun l => enabled f c.k c.a.bytes l).map fun l =>
    (l, decodeElem c.a (s.elem o f.ta (if h.rows = 1 then 0 else r) l c.a.bytes))

/-- The smallest value of a format (R329). -/
def smallestBits (d : Elem) : Nat :=
  match d with
  | .int b sg => if sg then 2 ^ (8 * b - 1) else 0
  | .float f => if !f.signed then 0 else if f.hasInf then infBits f true else largestBits f true

/-- A reduction of each row into lane 0 of td. -/
def reduce (f : TileFields) (s : State) (op : RowCtx → List Val → Option Val) (empty : Elem → Nat) : Out :=
  command s fun s id o =>
    let c := s.rowCtx o f
    if s.tileEmpty o f.ta c.rows then s
    else
      let w := c.rows.flatMap fun r =>
        let bits := match op c ((s.rowValues o f c r).map (·.2)) with
          | some v => resultBits c.d (o.rounding c.rnd r 0) c.sat (!c.a.isFloat) v
          | none => empty c.d
        o.elemBytes f.td r 0 c.d.bytes bits
      (s.write w).finishOp id

/-- The exact sum of a list of values. -/
def sumVals (down : Bool) : List Val → Option Val
  | [] => none
  | x :: l => some (l.foldl (fun a b => (addVal down a b).1) x)

def maxVals : List Val → Option Val
  | [] => none
  | x :: l => some (l.foldl maxVal x)

def execRsumr (f : TileFields) (s : State) : Out := reduce f s (fun c l => sumVals (c.rnd == 2) l) (fun _ => 0)
def execRmaxr (f : TileFields) (s : State) : Out := reduce f s (fun _ l => maxVals l) smallestBits

/-- The inclusive prefix sums of one row, lane by lane: bits of each lane of td. -/
def State.scanRow (s : State) (o : EngOp) (f : TileFields) (c : RowCtx) (r : Nat) : List Nat :=
  let h := o.shape f.ta
  ((List.range (o.shape f.td).cols).foldl (fun (acc : List Nat × Option Nat) l =>
    let acc' : Option Nat :=
      if l < h.cols && enabled f c.k c.a.bytes l then
        let x := decodeElem c.a (s.elem o f.ta (if h.rows = 1 then 0 else r) l c.a.bytes)
        let v := match acc.2 with
          | none => x
          | some b => (addVal (c.rnd == 2) (decodeElem c.d b) x).1
        some (resultBits c.d (o.rounding c.rnd r l) c.sat (!c.a.isFloat) v)
      else acc.2
    (acc.1 ++ [acc'.getD 0], acc')) ([], none)).1

def execRscan (f : TileFields) (s : State) : Out :=
  command s fun s id o =>
    let c := s.rowCtx o f
    if s.tileEmpty o f.ta c.rows then s
    else
      let w := c.rows.flatMap fun r =>
        (s.scanRow o f c r).zipIdx.flatMap fun e => o.elemBytes f.td r e.2 c.d.bytes e.1
      (s.write w).finishOp id

/-- `a` stands before `b` in R331's order: by value, +0 before −0, NaN last. -/
def sortsBefore (a b : Val) : Bool :=
  if a.isNan then false
  else if b.isNan then true
  else if ltVal b a then true
  else if ltVal a b then false
  else
    match a, b with
    | .fin false 0 _, .fin true 0 _ => true
    | _, _ => false

/-- Inserts a later lane into a sorted list: after those of equal value. -/
def insertLane (l : List (Nat × Val)) (x : Nat × Val) : List (Nat × Val) :=
  match l with
  | [] => [x]
  | y :: r => if sortsBefore x.2 y.2 then x :: y :: r else y :: insertLane r x

def execRsort (f : TileFields) (s : State) : Out :=
  command s fun s id o =>
    let c := s.rowCtx o f
    if s.tileEmpty o f.ta c.rows then s
    else
      let w := c.rows.flatMap fun r =>
        (((s.rowValues o f c r).foldl insertLane []).take f.imm32.toNat).zipIdx.flatMap fun e =>
          o.elemBytes f.td r e.2 c.d.bytes (resultBits c.d (o.rounding c.rnd r e.2) c.sat (!c.a.isFloat) e.1.2) ++
            o.elemBytes f.tb r e.2 c.b.bytes (wrapInt c.b.bytes false false e.1.1)
      (s.write w).finishOp id

end Sys2Proof.Machine
end

