-- ==== Sys2Proof/Machine/Loom.lean ====
section
/-! DEFINITION. The Loom: TMMA, TMMS, TMMB and TMMD (12 R316 to R320), with the summation order of R235 and
the block scaling of R230 to R232. -/

namespace Sys2Proof.Machine

/-- What a Loom command knows: stored orders, lengths, elements, rounding and guard. -/
structure LoomCtx where
  ta : Bool
  tb : Bool
  rows : List Nat
  n : Nat
  k : Nat
  a : Elem
  b : Elem
  d : Elem
  rnd : Nat
  sat : Bool
  guard : BitVec 64

def State.loomCtx (s : State) (o : EngOp) (f : TileFields) : LoomCtx :=
  let (ta, tb) := (loomLayout o f).getD (false, false)
  let (rnd, sat) := (roundOf o.fm f).getD (0, false)
  { ta := ta, tb := tb, rows := (rowRange f (o.shape f.td).rows).getD [], n := (o.shape f.td).cols,
    k := innerB o f tb, a := elemOr (codeA o.fm f.ed), b := elemOr (codeB o.fm f.eb), d := elemOr (codeD o.fm f.ea),
    rnd := rnd, sat := sat, guard := s.lanePred o f.k.toNat }

/-- A(i, k) and B(k, j) as stored (Table 12-2). -/
def State.elemA (s : State) (o : EngOp) (f : TileFields) (c : LoomCtx) (i k : Nat) : Val :=
  decodeElem c.a (if c.ta then s.elem o f.ta k i c.a.bytes else s.elem o f.ta i k c.a.bytes)

def State.elemB (s : State) (o : EngOp) (f : TileFields) (c : LoomCtx) (k j : Nat) : Val :=
  decodeElem c.b (if c.tb then s.elem o f.tb j k c.b.bytes else s.elem o f.tb k j c.b.bytes)

/-- The exact sum of products of a group. -/
def groupSum (a b : Nat → Val) (ks : List Nat) : Val :=
  (sumVals false (ks.map fun k => (mulVal (a k) (b k)).1)).getD .zero

/-- The group length g (R235). -/
def groupLength (bytes : Nat) : Nat :=
  match bytes with
  | 1 => 16
  | 2 => 8
  | 4 => 4
  | _ => 1

/-- Indices of group `g` of a length-`k` sum cut into groups of `len`. -/
def groupOf (len k g : Nat) : List Nat := (List.range (Nat.min len (k - g * len))).map (g * len + ·)

/-- Rounds an exact value to a floating accumulator. -/
def toAcc (f : Fmt) (v : Val) : Val := decodeFloat f (roundFloat f nearestEven false v).bits

/-- acc plus the groups in ascending order, each group and each addition rounded once (R235). -/
def accumulate (f : Fmt) (acc : Val) (groups : List Val) : Val :=
  groups.foldl (fun acc s => toAcc f (addVal false acc (toAcc f s)).1) acc

/-- The dot product of two sequences of length `k` in groups of `len`, from `acc`. -/
def dotGroups (f : Fmt) (len k : Nat) (acc : Val) (a b : Nat → Val) : Val :=
  accumulate f acc ((List.range ((k + len - 1) / len)).map fun g => groupSum a b (groupOf len k g))

/-- The same for integers: exact groups, an i32 accumulator that wraps or clamps (R236). -/
def dotInts (sat : Bool) (len k : Nat) (acc : Int) (a b : Nat → Val) : Int :=
  (List.range ((k + len - 1) / len)).foldl (fun acc g =>
    intOf 4 true (wrapInt 4 true sat (acc + intOfVal (groupSum a b (groupOf len k g))))) acc

/-- imm32 bit 0, Z. -/
def startsZero (f : TileFields) : Bool := f.imm32.getLsbD 0

/-- The shape of every Loom command: it waits for the rows of its operands that it uses (R59), computes each enabled element of D from `A`, `B` and
the old D, and writes them. -/
def loomCommand (f : TileFields) (masks : List Field4) (wait : State → EngOp → LoomCtx → Bool) (s : State)
    (value : State → EngOp → LoomCtx → Nat → Nat → Val → Nat) : Out :=
  command s fun s id o =>
    let c := s.loomCtx o f
    let full (t : Field4) : List Nat := List.range (o.shape t).rows
    if s.rowsEmpty o f.ta (if c.ta then full f.ta else c.rows) || s.rowsEmpty o f.tb (full f.tb) ||
        (masks.any fun t => s.rowsEmpty o t c.rows) || (!startsZero f && s.rowsEmpty o f.td c.rows) ||
        wait s o c then s
    else
      let n := c.d.bytes
      let w := c.rows.flatMap fun i => (List.range c.n).flatMap fun j =>
        if enabled f c.guard n j then
          let old := if startsZero f then .zero else decodeElem c.d (s.elem o f.td i j n)
          o.elemBytes f.td i j n (value s o c i j old)
        else []
      (s.write w).finishOp id

/-- What is left in D of an accumulator of format `acc`: into D of the same format the conversion changes nothing (R235, R320).
DEDUCED, log 97. -/
def convertAcc (d : Elem) (rm : Rounding) (sat : Bool) (acc : Fmt) (v : Val) : Nat :=
  if d = .float acc then (roundFloat acc nearestEven false v).bits else resultBits d rm sat false v

/-- D(i, j) of a dense or expanded product. -/
def productBits (o : EngOp) (c : LoomCtx) (i j : Nat) (old : Val) (acc : Fmt) (a b : Nat → Val) : Nat :=
  let len := groupLength c.a.bytes
  if c.a.isFloat then convertAcc c.d (o.rounding c.rnd i j) c.sat acc (dotGroups acc len c.k old a b)
  else wrapInt 4 true c.sat (dotInts c.sat len c.k (intOfVal old) a b)

def noWait (_ : State) (_ : EngOp) (_ : LoomCtx) : Bool := false

/-- TMMA (R316). -/
def execTmma (f : TileFields) (s : State) : Out :=
  loomCommand f [] noWait s fun s o c i j old =>
    productBits o c i j old fmtF32 (s.elemA o f c i) fun k => s.elemB o f c k j

/-- The place of position `k` among the stored non-zeros of row `i`; none when it is masked out (R233). -/
def State.storedAt (s : State) (o : EngOp) (f : TileFields) (i k : Nat) : Option Nat :=
  let m := s.mask o f i (k / 24)
  if m.testBit (k % 24) then
    some (k / 24 * sparseCount o.fm + ((List.range (k % 24)).filter m.testBit).length)
  else none

/-- TMMS: the product of the expanded A (R234, R318). A mask that fails the count when the command runs ends it. -/
def execTmms (f : TileFields) (s : State) : Out :=
  match s.op? s.curOp with
  | some o =>
      if decide (o.state = .running) && o.checked && s.masksReady o f && !s.masksOk o f then
        .next (s.faultOp s.curOp 0x0E o.at' 0 false)
      else
        loomCommand f [f.tc] noWait s fun s o c i j old =>
          productBits o c i j old fmtF32
            (fun k => match s.storedAt o f i k with
              | some p => s.elemA o f c i p
              | none => .zero)
            fun k => s.elemB o f c k j
  | none => .next s

/-- TMMD: an f64 accumulator, one product a group (R320). -/
def execTmmd (f : TileFields) (s : State) : Out :=
  loomCommand f [] noWait s fun s o c i j old =>
    productBits o c i j old fmtF64 (s.elemA o f c i) fun k => s.elemB o f c k j

/-! ### Block scaling (R230 to R232) -/

/-- The scale and zero point of a block: value 2^(s − 127), NaN for an MX scale of 255, 1 and 0 when unscaled. -/
def State.blockScale (s : State) (o : EngOp) (base : Word) (mode nb i b : Nat) : Val × Int :=
  let off := scaleOffset base mode nb i b
  let x := (s.byte (o.windowByte off)).toNat
  match mode with
  | 0 => (.one, 0)
  | 1 => (if x = 255 then .nan else .fin false 1 ((x : Int) - 127), 0)
  | _ => (.fin false 1 ((x : Int) - 127), intOf 1 true (s.byte (o.windowByte (off + 1))).toNat)

/-- Some scale that a TMMB reads lies in an empty line. -/
def State.scalesEmpty (s : State) (o : EngOp) (f : TileFields) : Bool :=
  (scaleRuns o f).any fun r => (s.firstEmpty ((List.range r.2).map fun i => o.windowByte (r.1 + i))).isSome

/-- One block's scaled sum (R232), before its rounding: an affine element enters as q − z. Where the sum is zero its sign is that
of the sum of these products, which the spec does not give. DESIGN CHOICE, log 110. -/
def blockSum (a b : Nat → Val) (sa sb : Val × Int) (ks : List Nat) : Val :=
  let off (z : Int) (v : Val) : Val := if z = 0 then v else (addVal false v (valOfInt (-z))).1
  let sum := groupSum (fun k => off sa.2 (a k)) (fun k => off sb.2 (b k)) ks
  (mulVal (mulVal sum sa.1).1 sb.1).1

/-- TMMB (R319). -/
def execTmmb (f : TileFields) (s : State) : Out :=
  loomCommand f []
    (fun s o _ => s.scalesEmpty o f) s
    fun s o c i j old =>
      let nb := c.k / 32
      let groups := (List.range nb).map fun b =>
        blockSum (s.elemA o f c i) (fun k => s.elemB o f c k j) (s.blockScale o o.sa (fmBMA o.fm) nb i b)
          (s.blockScale o o.sb (fmBMB o.fm) nb j b) (groupOf 32 c.k b)
      convertAcc c.d (o.rounding c.rnd i j) c.sat fmtF32 (accumulate fmtF32 old groups)

end Sys2Proof.Machine
end

