-- ==== Sys2Proof/Machine/Move.lean ====
section
/-! DEFINITION. How engines read and write operands piece by piece, and the tile moves TLD, TST, TSTA, TZERO, TCOPY and
TTRN (12 R335 to R339; 11 R290). -/

namespace Sys2Proof.Machine

/-! ### Reading (R102, R113, R114) -/

/-- The byte a target names, or what its owner's replica says instead (R42). -/
def State.ownerByte (s : State) (a : Word) (t : Target) : Check :=
  match t with
  | .byte pa => .ok (.byte pa)
  | .forwarded chip parish obj off =>
      match s.residency chip parish obj off with
      | .here pa => .ok (.byte pa)
      | .unbacked => .trap 0x09 a
      | _ => .moving

/-- The command is looked at again after 1 µs. -/
def State.again (s : State) (o : EngOp) (id : Nat) : State :=
  if s.timers.any fun e => decide (e.2.2 = .command id) then s else s.timer o.core 4000 (.command id)

/-- A piece of an operand that an operation reads: its place in the transfer, its distance from the operand's address,
and its length, all in one line. -/
structure Piece where
  place : Nat
  dist : Nat
  len : Nat
  deriving DecidableEq, Repr

/-- What has come of a piece. -/
def landed (o : EngOp) (p : Piece) : Option LineRead := o.reads.find? (·.at' == p.place)

/-- A read of the piece is on its way. -/
def State.reading (s : State) (id : Nat) (p : Piece) : Bool :=
  s.accesses.any fun e => decide (e.2.reader = .op id) && e.2.dest == p.place

/-- A piece has been read, or is known to fail. -/
def State.landPiece (s : State) (id : Nat) (p : Piece) (bytes : List Byte) (trap : Option Fail) : State :=
  s.modOp id fun o => { o with reads := o.reads ++ [⟨p.place, bytes, trap⟩] }

/-- Starts the read of one piece: in the window it is read at once from full lines, and elsewhere a request goes to its
home when a reply place is free (R113, R114). The second part says whether the next piece may start. -/
def State.startPiece (s : State) (id : Nat) (o : EngOp) (x : Operand) (p : Piece) : State × Bool :=
  let a := x.address p.dist
  let fail (s : State) (c : Nat) (v : Word) : State × Bool := (s.landPiece id p [] (some (c, v)), false)
  match s.entryFail o x p.dist p.len rR with
  | some (c, v) => fail s c v
  | none =>
  match x, s.operandByte o x p.dist with
  | _, .trap c v => fail s c v
  | _, .drop => fail s 0x17 a
  | _, .moving => (s.again o id, false)
  | .here b, .ok _ =>
      let pas := (List.range p.len).map fun j => o.windowByte (b + p.dist + j)
      if (s.firstEmpty pas).isSome then (s, false)
      else
        match if o.racesInFlight then s.raceLines o [(o.windowByte (b + p.dist), a)] 0 false else (s, none) with
        | (s, some v) => fail s 0x11 v
        | (s, none) =>
          match s.findError pas with
          | (s, true) => fail s 0x16 a
          | (s, false) => (s.landPiece id p (s.bytes pas) none, true)
  | .far _, .ok t =>
      if Config.requestWindow ≤ s.outr o.thread then (s, false)
      else
        let (s, bad) := match (s.targetByte t).filter fun _ => o.racesInFlight with
          | some pa => s.raceLines o [(pa, a)] (s.operandGen o x) false
          | none => (s, none)
        match bad with
        | some v => fail s 0x11 v
        | none =>
            ((((s.countOperand o x p.dist).request
              { req := .load p.len, target := t, addr := a, thread := o.thread, task := o.task, parish := o.parish,
                src := nodeOfCore o.core, dst := 0, channel := false, seq := 0, posted := false, reader := .op id,
                saved := o.saved, dest := p.place, info := { stamp := o.stamp } }).2), true)

/-- Starts the pieces in order as far as it can. -/
def State.startPieces (s : State) (id : Nat) (x : Operand) : List Piece → State
  | [] => s
  | p :: r =>
    match s.op? id with
    | none => s
    | some o =>
        if (landed o p).isSome || s.reading id p then s.startPieces id x r
        else
          match s.startPiece id o x p with
          | (s, true) => s.startPieces id x r
          | (s, false) => s

/-- The pieces that have been read in order: their bytes with their places, and the failure that stands next, or that a
piece is still to come. -/
inductive Stream where
  | all (l : List (Nat × Byte))
  | wait (l : List (Nat × Byte))
  | fault (l : List (Nat × Byte)) (at' cause : Nat) (tval : Word)

/-- The bytes of one piece at their places in the stream. -/
def placed (p : Nat) (l : List Byte) : List (Nat × Byte) := (List.range l.length).map (p + ·) |>.zip l

def streamOf (o : EngOp) : List Piece → List (Nat × Byte) → Stream
  | [], acc => .all acc
  | p :: r, acc =>
      match landed o p with
      | none => .wait acc
      | some ⟨_, bs, none⟩ => streamOf o r (acc ++ placed p.place bs)
      | some ⟨_, _, some (c, v)⟩ => .fault acc p.place c v

/-- Reads the pieces of an operand: what can start is started, and what has come in order is given. A fault stands only
once everything before it has come. -/
def State.readStream (s : State) (id : Nat) (x : Operand) (ps : List Piece) : State × Stream :=
  let s := s.startPieces id x ps
  match s.op? id with
  | some o => (s, streamOf o ps [])
  | none => (s, .wait [])

/-! ### Writing -/

/-- What the writing of a list of chunks leads to. -/
inductive Sent where
  | all (s : State)
  /-- it goes on when a place of the write window frees, or a moving extent is rewritten -/
  | wait (s : State)
  | fault (s : State) (cause : Nat) (tval : Word) (at' : Nat)

/-- Looks again at a command that meets a moving extent, which no earlier step makes due. -/
def Sent.ofMoving (s : State) (o : EngOp) (id : Nat) : Sent := .wait (s.again o id)

/-- What counts the flag of an operation: no write of it has been sent yet. -/
def EngOp.newGroup (o : EngOp) (id : Nat) (flag : Word) : Group :=
  { flag := o.flagPlace flag, thread := o.thread, op := id, parish := o.parish, stamp := o.stamp, node := nodeOfCore o.core }

/-- The group of an operation's writes, made when the first is sent (R90). -/
def State.groupFor (s : State) (id : Nat) (o : EngOp) (flag : Word) : Nat × State :=
  if o.group ≠ 0 then (o.group, s)
  else
    let (g, s) := s.fresh
    (g, { s with groups := AMap.set {} s.groups g (o.newGroup id flag) }.modOp id fun o => { o with group := g })

/-- Sends one write of an engine to a target as a posted write of its slot (R115). `counts` says whether the operation
waits for it to be visible. -/
def State.sendChunk (s : State) (id : Nat) (o : EngOp) (flag : Word) (counts : Bool) (req : Req) (t : Target)
    (a : Word) (off : Nat) : State :=
  let (g, s) := s.groupFor id o flag
  let v : Group := AMap.get {} s.groups g
  let s := { s with groups := AMap.set {} s.groups g { v with outstanding := v.outstanding + 1 } }
  let acc : Access := { req := req, target := t, addr := a, thread := o.thread, op := id, engine := some o.engine, task := o.task,
                        parish := o.parish, src := nodeOfCore o.core, dst := 0, channel := false, seq := 0, posted := true,
                        group := g, dest := off, saved := o.saved, info := { stamp := o.stamp } }
  let s := (s.request acc).2
  s.modOp id fun o => { o with outstanding := o.outstanding + (if counts then 1 else 0) }

/-- After its last write: the group is sealed, and its flags counted when nothing of it is outstanding (R90); `sf` is the
source-free flag of a copy as a place, or 0 (R100). -/
def State.seal (s : State) (id : Nat) (flag : Word) (sf : Word := 0) : State :=
  match s.op? id with
  | none => s
  | some o =>
      let g : Group := { (if o.group = 0 then o.newGroup id flag else AMap.get {} s.groups o.group) with sourceFree := sf }
      if o.group = 0 then s.countGroup g g.node
      else if g.outstanding = 0 then
        let s := { s with groups := AMap.set {} s.groups o.group {} }
        if g.failed then s
        else
          s.countGroup g (match g.homes with
            | [h] => h.1
            | _ => g.node)
      else { s with groups := AMap.set {} s.groups o.group { g with sealed := true } }.groupSettled o.group

/-- A chunk of writes within one line: its distance from the operand, and the request for bytes or elements at places from
there. -/
abbrev Chunk := Nat × Req

/-- Performs a chunk at its home in the window (R337). -/
def State.writeLocal (s : State) (o : EngOp) (b : Nat) (c : Chunk) : State :=
  let at' (i : Nat) : Nat := o.windowByte (b + c.1 + i)
  let written (t : State) (is : List Nat) : State := s.examineWritten t (is.map at') o.parish
  match c.2 with
  | .store l => written (s.write (l.map fun e => (at' e.1, e.2))) (l.map (·.1))
  | .deliver l => written (s.deliverAt (l.map fun e => (at' e.1, e.2))) (l.map (·.1))
  | .adds e l fill =>
      written (l.foldl (fun s x => s.addElems e (at' x.1) [(0, x.2)] fill) s) (l.flatMap fun x => consecutive x.1 8)
  | _ => s

/-- Bytes whose check bits a chunk reads at its home in the window (R88). -/
def EngOp.checkedBytes (o : EngOp) (b : Nat) (c : Chunk) : List Nat :=
  let at' (i : Nat) : Nat := o.windowByte (b + c.1 + i)
  match c.2 with
  | .store l | .deliver l => partly (l.map fun e => at' e.1)
  | .adds e l _ => l.flatMap fun x => (List.range (codeSize e)).map fun j => at' (x.1 + j)
  | _ => []

/-- The right that a chunk needs (Table 2-8). -/
def writeRight : Req → Nat
  | .adds .. => rA
  | _ => rW

/-- Writes the chunks of an operand in order, from the operation's `sent`-th on. An extent that has lost its backing since
the first byte was written makes the writes of a command that had it checked before wait, as a moving one does (R290). -/
def State.writeChunks (s : State) (id : Nat) (x : Operand) (flag : Word) (counts : Bool) :
    List Chunk → Sent
  | [] => .all s
  | c :: r =>
    match s.op? id with
    | none => .wait s
    | some o =>
      match x with
      | .here b =>
          let pa := o.windowByte (b + c.1)
          match if o.racesInFlight then s.raceLines o [(pa, x.address c.1)] 0 true else (s, none) with
          | (s, some v) => .fault s 0x11 v c.1
          | (s, none) =>
            match s.findError (o.checkedBytes b c) with
            | (s, true) => .fault s 0x16 (x.address c.1) c.1
            | (s, false) =>
              ((s.writeLocal o b c).modOp id fun o => { o with sent := o.sent + 1 }).writeChunks id x flag counts r
      | .far _ =>
          if Config.writeWindow ≤ s.outwOf o.thread o.saved then .wait s
          else
            match s.entryFail o x c.1 1 (writeRight c.2) with
            | some (k, v) => .fault s k v c.1
            | none =>
            match s.operandByte o x c.1 with
            | .trap k v =>
                if !counts && k == 0x09 && o.sent != 0 then .ofMoving s o id else .fault s k v c.1
            | .drop => .fault s 0x17 (x.address c.1) c.1
            | .moving => .ofMoving s o id
            | .ok t =>
                let (s, bad) := match (s.targetByte t).filter fun _ => o.racesInFlight with
                  | some pa => s.raceLines o [(pa, x.address c.1)] (s.operandGen o x) true
                  | none => (s, none)
                match bad with
                | some v => .fault s 0x11 v c.1
                | none =>
                    let s := (s.countOperand o x c.1).sendChunk id o flag counts c.2 t (x.address c.1) c.1
                    (s.modOp id fun o => { o with sent := o.sent + 1 }).writeChunks id x flag counts r

/-- Joins bytes at rising distances into chunks of one line. -/
def chunkBytes (base : Nat) (mk : List (Nat × Byte) → Req) : List (Nat × Byte) → Option (Nat × List (Nat × Byte)) → List Chunk
  | [], none => []
  | [], some (i, l) => [(i, mk l.reverse)]
  | (j, b) :: r, none => chunkBytes base mk r (some (j, [(0, b)]))
  | (j, b) :: r, some (i, l) =>
      if i ≤ j ∧ (base + i) / 128 = (base + j) / 128 then chunkBytes base mk r (some (i, (j - i, b) :: l))
      else (i, mk l.reverse) :: chunkBytes base mk r (some (j, [(0, b)]))

/-! ### The layout of a tile move (R335) -/

structure MoveCtx where
  rows : List Nat
  cols : Nat
  size : Nat
  layout : Nat
  m : Nat
  rb : Nat
  stride : Nat

def moveCtx (o : EngOp) (f : TileFields) (t : Field4) (size : Nat) : MoveCtx :=
  let h := o.shape t
  let rows := (rowRange f h.rows).getD []
  let (m, rb, stride) := moveRows f h size rows.length
  { rows := rows, cols := h.cols, size := size, layout := (moveLayout f h).getD 0, m := m, rb := rb, stride := stride }

/-- The distance from the address of element (i, l) of the range. -/
def MoveCtx.dist (c : MoveCtx) (i l : Nat) : Nat :=
  if c.layout = 1 then l * c.stride + i * c.size else i * c.stride + l * c.size

/-- Elements of the range in memory order. -/
def MoveCtx.elems (c : MoveCtx) : List (Nat × Nat) :=
  if c.layout = 1 then (List.range c.cols).flatMap fun l => (List.range c.rows.length).map fun i => (i, l)
  else (List.range c.rows.length).flatMap fun i => (List.range c.cols).map fun l => (i, l)

/-! ### TLD (R336) -/

/-- A run of bytes joins the piece of its line, if there is one already. -/
def joinLine (base : Nat) (l : List (Nat × Nat)) (d n : Nat) : List (Nat × Nat) :=
  if l.any fun p => (base + p.1) / 128 == (base + d) / 128 then
    l.map fun p =>
      if (base + p.1) / 128 = (base + d) / 128 then (Nat.min p.1 d, Nat.max (p.1 + p.2) (d + n) - Nat.min p.1 d) else p
  else l ++ [(d, n)]

/-- The pieces of the memory rows at an address, one for each line that they cover: a line is read once, however many rows lie in
it (R42, R122). A place in the transfer is a distance from the address. -/
def MoveCtx.pieces (c : MoveCtx) (base : Nat) : List Piece :=
  let runs := (List.range c.m).flatMap fun j =>
    (Machine.pieces (base + j * c.stride) (base + j * c.stride) c.rb 0 (c.rb / 128 + 2)).map fun p => (j * c.stride + p.1, p.2)
  (runs.foldl (fun l e => joinLine base l e.1 e.2) []).map fun p => ⟨p.1, p.1, p.2⟩

/-- The bytes at distances p .. p + n − 1, if all have come. -/
def streamBytes (l : List (Nat × Byte)) (p n : Nat) : Option (List Byte) :=
  (List.range n).foldr (fun i acc =>
    match acc, l.find? (·.1 == p + i) with
    | some t, some e => some (e.2 :: t)
    | _, _ => none) (some [])

/-- The elements of td whose bytes have been read, written under the guard. -/
def loadedElems (o : EngOp) (f : TileFields) (c : MoveCtx) (k : BitVec 64) (l : List (Nat × Byte)) :
    List (Nat × Byte) :=
  c.elems.flatMap fun e =>
    if enabled f k c.size e.2 then
      match streamBytes l (c.dist e.1 e.2) c.size with
      | some b => (consecutive (o.tileByte f.td (c.rows.getD e.1 0) (e.2 * c.size)) c.size).zip b
      | none => []
    else []

/-- The distance of the first element from `from'` on that has not been read, when the piece at `p` fails. -/
def MoveCtx.unread (c : MoveCtx) (l : List (Nat × Byte)) (from' p : Nat) : Nat :=
  c.elems.foldl (fun m e =>
    let d := c.dist e.1 e.2
    if from' ≤ d ∧ (streamBytes l d c.size).isNone then Nat.min m d else m) p

/-- TLD (R336). Its resume offset, like that of TST and TSTA, is a distance from its address, also where rows do not follow each
other: the spec gives no offset for a stride. DESIGN CHOICE, log 112. -/
def execTld (f : TileFields) (s : State) : Out :=
  command s fun s id o =>
    let c := moveCtx o f f.td (elemOr (codeD o.fm f.ed)).bytes
    let x := operandOf f.addr
    let k := s.lanePred o f.k.toNat
    match s.readStream id x ((c.pieces x.base).filter fun p => decide (o.resume < p.place + p.len)) with
    | (s, .all l) =>
        let s := s.write (loadedElems o f c k l)
        (s.countOp o f.flag).finishOp id
    | (s, .fault l p v a) => (s.write (loadedElems o f c k l)).faultOp id v a (c.unread l o.resume p) true
    | (s, .wait _) => s

/-! ### TST, TSTA and TCOPY to an address (R290, R337 to R339) -/

/-- Step 6 of Table 2-9 for every extent of a destination range, and for its owner's replica, before any byte is written
(R290). The tval is the first address of the range in the extent. -/
def State.extentsFail (s : State) (o : EngOp) (x : Operand) (l : Spans) : Option Fail :=
  l.findSome? fun e => [e.1, e.1 + (e.2 - 1)].findSome? fun d =>
    let a := if d = e.1 then x.address d else x.address d &&& ~~~(0x1FFFFF : Word)
    match s.operandByte o x d with
    | .trap k _ => some (k, a)
    | .drop => some (0x17, a)
    | .moving => none
    | .ok t =>
        match s.ownerByte a t with
        | .trap k v => some (k, v)
        | _ => none

/-- Writes to an operand the chunks that a command has read from its source rows, once (R312): `l` is the whole range. The
command is complete when its source has been read out, and what it has sent are posted writes of its slot. -/
def storeOut (f : TileFields) (x : Operand) (l : Spans) (chunks : List Chunk) (s : State) (id : Nat) (o : EngOp) : State :=
  let (chunks, s) := match o.out with
    | some c => (c, s)
    | none => (chunks, s.modOp id fun o => { o with out := some chunks })
  let chunks := chunks.filter fun c => decide (o.resume ≤ c.1)
  match if o.sent = 0 then s.extentsFail o x l else none with
  | some (k, v) => s.faultOp id k v o.resume true
  | none =>
      match s.writeChunks id x f.flag false (chunks.drop o.sent) with
      | .all s => (s.seal id f.flag).finishOp id
      | .wait s => s
      | .fault s k v i => (s.modOp id fun o => { o with sent := 0 }).faultOp id k v i true

/-- Enabled bytes of ta in memory order. -/
def State.storeBytes (s : State) (o : EngOp) (f : TileFields) (c : MoveCtx) : List (Nat × Byte) :=
  let k := s.lanePred o f.k.toNat
  c.elems.flatMap fun e =>
    if enabled f k c.size e.2 then
      ((List.range c.size).map (c.dist e.1 e.2 + ·)).zip
        (s.bytes (consecutive (o.tileByte f.ta (c.rows.getD e.1 0) (e.2 * c.size)) c.size))
    else []

def execTst (f : TileFields) (s : State) : Out :=
  command s fun s id o =>
    let c := moveCtx o f f.ta (elemOr (codeA o.fm f.ea)).bytes
    let x := operandOf f.addr
    if o.out.isNone && s.rowsEmpty o f.ta c.rows then s
    else
      storeOut f x (moveSpans f (o.shape f.ta) c.size c.rows.length)
        (chunkBytes x.base .store (s.storeBytes o f c) none) s id o

/-- One Reeve operation for each enabled element (R338). -/
def execTsta (f : TileFields) (s : State) : Out :=
  command s fun s id o =>
    let e := codeA o.fm f.ea
    let c := moveCtx o f f.ta (elemOr e).bytes
    let code := (e.map (·.1)).getD 0
    let x := operandOf f.addr
    if o.out.isNone && s.rowsEmpty o f.ta c.rows then s
    else
      let k := s.lanePred o f.k.toNat
      let chunks : List Chunk := c.elems.flatMap fun e =>
        if enabled f k c.size e.2 then
          [(c.dist e.1 e.2,
            .adds code [(0, BitVec.ofNat 64 (s.elem o f.ta (c.rows.getD e.1 0) e.2 c.size))] false)]
        else []
      storeOut f x (moveSpans f (o.shape f.ta) c.size c.rows.length) chunks s id o

/-- TZERO: zero bytes under the guard, at the element size of td's shape (R339). -/
def execTzero (f : TileFields) (s : State) : Out :=
  command s fun s id o =>
    let h := o.shape f.td
    let n := codeSize h.elem
    let k := s.lanePred o f.k.toNat
    let w := ((rowRange f h.rows).getD []).flatMap fun r => (List.range h.cols).flatMap fun l =>
      if enabled f k n l then o.elemBytes f.td r l n 0 else []
    (s.write w).finishOp id

/-- TCOPY between tiles, and of whole rows to an address (R339). DEDUCED, log 33. -/
def execTcopy (f : TileFields) (s : State) : Out :=
  command s fun s id o =>
    let a := o.shape f.ta
    if f.td.toNat = 12 then
      let rows := (rowRange f a.rows).getD []
      let n := codeSize a.elem
      let k := s.lanePred o f.k.toNat
      let x := operandOf f.addr
      if o.out.isNone && s.rowsEmpty o f.ta rows then s
      else
        let l := rows.zipIdx.flatMap fun e => (List.range 64).flatMap fun i =>
          if enabled f k n (i / n) then [(64 * e.2 + i, s.byte (o.tileByte f.ta e.1 i))] else []
        storeOut f x [(0, 64 * rows.length)] (chunkBytes x.base .store l none) s id o
    else
      let d := o.shape f.td
      let rows := (rowRange f d.rows).getD []
      let n := codeSize d.elem
      let k := s.lanePred o f.k.toNat
      if s.rowsEmpty o f.ta rows then s
      else
        let w := rows.flatMap fun r => (List.range d.cols).flatMap fun l =>
          if enabled f k n l then o.elemBytes f.td r l n (s.elem o f.ta r l n) else []
        (s.write w).finishOp id

/-- TTRN: td[c][r] = ta[r][c] (R339). -/
def execTtrn (f : TileFields) (s : State) : Out :=
  command s fun s id o =>
    let d := o.shape f.td
    let n := codeSize d.elem
    let k := s.lanePred o f.k.toNat
    if s.rowsEmpty o f.ta (List.range (o.shape f.ta).rows) then s
    else
      let w := ((rowRange f d.rows).getD []).flatMap fun r => (List.range d.cols).flatMap fun l =>
        if enabled f k n l then o.elemBytes f.td r l n (s.elem o f.ta l r n) else []
      (s.write w).finishOp id

end Sys2Proof.Machine
end

