-- ==== Sys2Proof/Machine/Carter.lean ====
section
/-! DEFINITION. The Carter's copies and schedules: CPY, CPYA, CSCHED, CSTAGE and the replay of copy-schedule entries
(04 R100 to R105; 13 R345 to R350). -/

namespace Sys2Proof.Machine

/-! ### Copies -/

/-- Records what a copy writes at distance `i` of its destination into bytes of its own source (R347). -/
def State.noteOverlap (s : State) (id : Nat) (o : EngOp) (src dst : Operand) (n i : Nat) (l : List Byte) : State :=
  let byteOf (x : Operand) (d : Nat) : Option Nat :=
    match s.operandByte o x d with
    | .ok t => s.targetByte t
    | _ => none
  match byteOf dst i with
  | none => s
  | some q =>
      let hit := (pieces src.base src.base n 0 (n / 128 + 2)).filterMap fun p =>
        (byteOf src p.1).bind fun b => if meet b p.2 q l.length then some (b, p.2) else none
      let new := (l.zipIdx.filter fun e => hit.any fun (h : Nat × Nat) => decide (h.1 ≤ q + e.2 ∧ q + e.2 < h.1 + h.2)).map fun e => (q + e.2, e.1)
      if new.isEmpty then s
      else s.modOp id fun o => { o with overlap := new ++ o.overlap.filter fun e => !(new.any fun (x : Nat × Byte) => x.1 == e.1) }

/-- Bytes at distance `i` of a copy's source, which were read as `l`: where this copy has written another value into a source
byte, that value or the value read, a free choice (R347). The elements of a CPYA are those read with their lines. DESIGN CHOICE,
log 7. -/
def State.overlapBytes (s : State) (o : EngOp) (src : Operand) (i : Nat) (l : List Byte) : List Byte × State :=
  if o.overlap.isEmpty then (l, s)
  else
    l.zipIdx.foldl (fun (acc : List Byte × State) e =>
      let wrote := match s.operandByte o src (i + e.2) with
        | .ok t => (s.targetByte t).bind fun pa => o.overlap.find? fun (x : Nat × Byte) => x.1 == pa
        | _ => none
      match wrote with
      | some (_, b) =>
          if b ≠ e.1 then
            let (c, s') := acc.2.free
            (acc.1 ++ [if c then b else e.1], s')
          else (acc.1 ++ [e.1], acc.2)
      | none => (acc.1 ++ [e.1], acc.2)) ([], s)

/-- What one piece of a copy carries to its destination. -/
def copyReq (elem : Option Nat) (bs : List Byte) : Req :=
  match elem with
  | none => .deliver ((List.range bs.length).zip bs)
  | some e =>
      let n := codeSize e
      .adds e ((List.range (bs.length / n)).map fun i => (i * n, wordOfBytes ((bs.drop (i * n)).take n))) true

/-- The place from which an operation goes on. -/
def EngOp.from' (o : EngOp) : Nat := Nat.max o.sent o.resume

/-- What has been read of `n` bytes at distance `i` of a source. -/
inductive Gathered where
  | bytes (l : List Byte)
  | wait
  | fault (cause : Nat) (tval : Word)

def gathered (o : EngOp) (i n : Nat) : List Piece → List Byte → Gathered
  | [], acc => .bytes acc
  | p :: r, acc =>
      if p.place < i + n ∧ i < p.place + p.len then
        match landed o p with
        | none => .wait
        | some ⟨_, _, some (c, v)⟩ => .fault c v
        | some ⟨_, bs, none⟩ =>
            let lo := Nat.max i p.place
            gathered o i n r (acc ++ (bs.drop (lo - p.place)).take (Nat.min (i + n) (p.place + p.len) - lo))
      else gathered o i n r acc

/-- A piece of a copy's destination has been written: `first` is the first piece before it that has not. -/
def State.wrotePiece (s : State) (id i n : Nat) (first : Option Nat) : State :=
  s.modOp id fun o =>
    if first.isNone then { o with sent := i + n, written := o.written.filter (· != i) }
    else { o with written := NSet.insert o.written i }

/-- Writes the pieces of a copy's destination, each a line or the part of one that the copy covers, when all of its bytes have
been read (R60): those of a CPY as they come, in any order, and those of a CPYA in ascending order, so that a copy that resumes
adds no element twice (R102; DEDUCED, log 113). `first` is the first piece that is still to be written; a fault suspends the copy
there (R103). -/
def copyPieces (id len : Nat) (src dst : Operand) (ps : List Piece) (flag : Word) (elem : Option Nat) (s : State)
    (first : Option Nat) : List (Nat × Nat) → Sent
  | [] => if first.isSome then .wait s else .all s
  | (i, n) :: r =>
    match s.op? id with
    | none => .wait s
    | some o =>
      let room := match dst with
        | .here _ => true
        | .far _ => decide (s.outwOf o.thread o.saved < Config.writeWindow)
      if o.written.contains i then copyPieces id len src dst ps flag elem (s.wrotePiece id i n first) first r
      else
      match gathered o i n ps [] with
      | .fault c v => .fault s c v (first.getD i)
      | .wait => if elem.isSome then .wait s else copyPieces id len src dst ps flag elem s (some (first.getD i)) r
      | .bytes l =>
          if !room then .wait s
          else
            let (l, s) := s.overlapBytes o src i l
            let s := if elem.isSome then s else s.noteOverlap id o src dst len i l
            let sent := o.sent
            match (s.modOp id fun o => { o with sent := 0 }).writeChunks id dst flag true [(i, copyReq elem l)] with
            | .all s =>
                copyPieces id len src dst ps flag elem ((s.modOp id fun o => { o with sent := sent }).wrotePiece id i n first)
                  first r
            | .wait s => .wait (s.modOp id fun o => { o with sent := sent })
            | .fault s c v _ => .fault s c v (first.getD i)

/-- A line of a copy's source is still wanted: some piece that is not written yet takes bytes of it. -/
def wanted (o : EngOp) (ds : List (Nat × Nat)) (p : Piece) : Bool :=
  ds.any fun d => !o.written.contains d.1 && decide (d.1 < p.place + p.len) && decide (p.place < d.1 + d.2)

/-- A copy of `f.len` bytes (R345). Its source-free flag is counted when none of its writes can fail any more, no later than its
delivered flag: a copy that faults is suspended without that increment (R100, R103). -/
def runCopy (f : TileFields) (elem : EngOp → Option Nat) (s : State) : Out :=
  command s fun s id o =>
    let src := operandOf o.block
    let dst := operandOf f.addr
    let n := f.len.toNat
    let ps := (pieces src.base src.base n o.resume (n / 128 + 2)).map fun p => Piece.mk p.1 p.1 p.2
    let ds := pieces dst.base dst.base n o.from' (n / 128 + 2)
    let s := s.startPieces id src (ps.filter (wanted o ds))
    match copyPieces id n src dst ps f.flag (elem o) s none ds with
    | .wait s => s
    | .fault s c v i => (s.modOp id fun o => { o with sent := 0, written := [] }).faultOp id c v i true
    | .all s => (s.seal id f.flag (if noSf f then 0 else o.place f.imm32.toNat)).finishOp id

/-- CPY (R345). -/
def execCpy (f : TileFields) (s : State) : Out := runCopy f (fun _ => none) s

/-- CPYA (R348). -/
def execCpya (f : TileFields) (s : State) : Out := runCopy f (fun o => (codeD o.fm f.ed).map (·.1)) s

/-! ### Schedules (R104, R105, R349, R350) -/

/-- Entries that have joined a task's schedule and are not released. -/
def Task.unreleased (t : Task) : Nat := (t.schedule.filter fun e => !e.released && !e.done).length

/-- The window images of a task's members are in place (R12, R104). -/
def Task.placed (t : Task) : Bool := t.shares.all fun h => decide (h.state ≠ .queued)

/-- The command word of a schedule entry: a CPY with its delivered flag and no source-free flag (R104). -/
def entryWord (e : SchedEntry) : Command :=
  (0x70 : BitVec 8) ++ (0 : BitVec 56) ++ (0xFFFFFFFF : BitVec 32) ++ e.dest ++ e.flag ++ BitVec.ofNat 32 e.length

/-- The entries a counter of `v` covers that are not released, by stage and then index. -/
def Task.due (t : Task) (v : Nat) : List Nat :=
  let l := (List.range t.schedule.length).filter fun i =>
    match t.schedule[i]? with
    | some e => !e.released && !e.done && decide (e.stage ≤ v) && (!e.fromRecord || t.placed)
    | none => false
  let stageOf (i : Nat) : Nat := ((t.schedule[i]?).map (·.stage)).getD 0
  (List.range (v + 1)).flatMap fun st => l.filter fun i => stageOf i == st

/-- Releases what the counter covers: each entry is to join its Carter's queue. -/
def State.releaseEntries (s : State) (task : Nat) : State :=
  let t := s.task task
  (t.due t.stage).foldl (fun s i =>
    (s.modTask task fun t =>
      { t with schedule := match t.schedule[i]? with
        | some e => listSet t.schedule i { e with released := true }
        | none => t.schedule }).event (.copyScheduleEntry task i)) s

/-- A released entry stands before entry `idx` of stage `stage` and has not joined its Carter's queue. -/
def Task.behind (t : Task) (stage idx : Nat) : Bool :=
  t.schedule.zipIdx.any fun e => e.1.released && !e.1.done && e.1.op == 0 &&
    (decide (e.1.stage < stage) || (e.1.stage == stage && decide (e.2 < idx)))

/-- The slot to which an entry is charged: that of member 0 for an entry of the record (R113). -/
def Task.entryThread (t : Task) (e : SchedEntry) : Nat :=
  match t.members with
  | m :: _ =>
      if !e.fromRecord then e.thread
      else if m.state = .waiting ∨ m.state = .admitted then m.core * 8 + m.slot.getD 0 else m.thread
  | [] => e.thread

/-- A released entry joins its Carter's queue as a copy (R104), after those of a lower stage, and of its own stage with a
lower index. It is checked as a CPY when it starts. -/
def execCopyScheduleEntry (task idx : Nat) (s : State) : Out :=
  .next (match (s.task task).schedule[idx]? with
    | none => s
    | some e =>
        let t := s.task task
        if !e.released || e.done || e.op != 0 then s
        else if t.behind e.stage idx then s.event (.copyScheduleEntry task idx)
        else
          let th := t.entryThread e
          let m := if e.fromRecord then t.members.head?
            else t.members.find? fun m => m.core == e.core && (m.thread == e.thread || m.thread == 0)
          let base := (m.map (·.wbase)).getD (s.slot e.thread).wbase.toNat
          let o : EngOp := { s.newOp th (entryWord e) (.schedule task idx) 0 with
            core := e.core, task := task, parish := t.parish, block := e.source, data := [e.source], race := e.race,
            stamp := e.stamp, fence := [], wbase := base, span := roundWindow t.wsize }
          let (id, s) := s.addOp o
          let s := s.modTask task fun t => { t with schedule := listSet t.schedule idx { e with op := id } }
          s.place id)

/-- CSCHED: its entries join the task's schedule, at most 64 of which are unreleased; those that the counter covers are released
at once and wait for no room (R349). DEDUCED, log 31. -/
def execCsched (f : TileFields) (s : State) : Out :=
  command s fun s id o =>
    let t := s.task o.task
    let n := f.len.toNat
    let later := ((List.range n).filter fun i => decide (t.stage < entryStage (o.entryWord i 3))).length
    if later ≠ 0 ∧ 64 < t.unreleased + later then s
    else
      let es : List SchedEntry := (List.range n).map fun i =>
        { source := o.entryWord i 0, dest := o.entryWord i 1, flag := o.entryWord i 2,
          length := entryLength (o.entryWord i 3), stage := entryStage (o.entryWord i 3), released := false,
          done := false, op := 0, fromRecord := false, thread := o.thread, core := o.core, stamp := o.stamp, race := o.race }
      let s := s.modTask o.task fun t => { t with schedule := t.schedule ++ es }
      (s.releaseEntries o.task).finishOp id

/-- CSTAGE: the counter never decreases; a CSCHED that waits for room goes on (R350). -/
def execCstage (f : TileFields) (s : State) : Out :=
  command s fun s id o =>
    let v := (field f.imm32 0 8).toNat
    let s := s.modTask o.task fun t => { t with stage := Nat.max t.stage v }
    let s := s.releaseEntries o.task
    let s := s.ops.foldl (fun s e =>
      if e.2.task == o.task && decide (e.2.state = .running) && !e.2.finished && e.1 != id then s.pushOnce (.command e.1)
      else s) s
    s.finishOp id

end Sys2Proof.Machine
end

