-- ==== Sys2Proof/Machine/Gleaner.lean ====
section
/-! DEFINITION. The Gleaner's GATH and SCAT (04 R106 to R108; 13 R351 to R353), and SPIRE with the rounds of its groups
(13 R360 to R363; 17 R419). -/

namespace Sys2Proof.Machine

/-! ### Gather and scatter -/

/-- The bytes of row `j` of the data area. -/
def dataBytes (o : EngOp) (f : TileFields) (j : Nat) : List Nat :=
  (List.range (gatherSize f)).map fun i => o.windowByte (gatherData o.block + j * gatherSize f + i)

/-- Lines of a row, for the race detector. -/
def rowLines (pa n : Nat) (a : Word) : List (Nat × Word) :=
  (pieces pa pa n 0 (n / 128 + 2)).map fun p => (pa + p.1, a + BitVec.ofNat 64 p.1)

/-- What a row's read at distance `d` is known by: a row has at most 1,024 bytes. -/
def rowPiece (j d : Nat) : Nat := 1024 * j + d

/-- The parts of a row of `n` bytes at byte `pa`, one in each line (R67): distance and length. -/
def rowParts (pa n : Nat) : List (Nat × Nat) := pieces pa pa n 0 (n / 128 + 2)

/-- Asks the owners for the rows of one batch, as far as reply places are free: each row takes one for every 128 bytes
(R113, R353), and is asked for line by line (R67). -/
def State.askRows (s : State) (f : TileFields) (id batch : Nat) : List (Nat × Nat) → State
  | [] => s
  | (b, j) :: r =>
    match s.op? id with
    | none => s
    | some o =>
      let n := gatherSize f
      let (pa, a) := s.rowAt o f j
      let asked := (o.reads.any fun q => q.at' / 1024 == j) ||
        s.accesses.any fun e => decide (e.2.reader = .op id) && e.2.dest / 1024 == j
      if b ≠ batch then s
      else if asked then s.askRows f id batch r
      else
        match s.rowFail o f (s.gatherIndex o j) with
        | some x => s.landPiece id ⟨rowPiece j 0, 0, n⟩ [] (some x)
        | none =>
          if Config.requestWindow < s.outr o.thread + (n + 127) / 128 then s
          else
            match s.raceLines o (rowLines pa n a) 0 false with
            | (s, some v) => s.landPiece id ⟨rowPiece j 0, 0, n⟩ [] (some (0x11, v))
            | (s, none) =>
                ((rowParts pa n).zipIdx.foldl (fun (s : State) e =>
                  (s.request { req := .load e.1.2, target := .byte (pa + e.1.1), addr := a + BitVec.ofNat 64 e.1.1,
                               thread := o.thread, task := o.task, parish := o.parish, src := nodeOfCore o.core, dst := 0,
                               channel := false, seq := 0, posted := false,
                               places := if e.2 < (n + 127) / 128 then 1 else 0, reader := .op id, saved := o.saved,
                               dest := rowPiece j e.1.1, info := { stamp := o.stamp } }).2) s).askRows f id batch r

/-- Writes the rows that have come, in the order they were asked for, into the data area (R352). -/
def gatherRows (f : TileFields) (id : Nat) (s : State) : List (Nat × Nat) → Sent
  | [] => .all s
  | (b, j) :: r =>
    match s.op? id with
    | none => .wait s
    | some o =>
      let s := s.askRows f id b ((b, j) :: r)
      let parts := (rowParts (s.rowAt o f j).1 (gatherSize f)).map fun p => Piece.mk (rowPiece j p.1) p.1 p.2
      let come := match s.op? id with
        | some o => if o.reads.any fun q => q.at' == rowPiece j 0 && q.trap.isSome then streamOf o [⟨rowPiece j 0, 0, 0⟩] []
            else streamOf o parts []
        | none => .wait []
      match come with
      | .wait _ => .wait s
      | .fault _ _ c v => .fault s c v (unserved r j)
      | .all bs =>
          let dst := dataBytes o f j
          match s.raceLines o (o.windowLines (gatherData o.block + j * gatherSize f) (gatherSize f)) 0 true with
          | (s, some v) => .fault s 0x11 v (unserved r j)
          | (s, none) =>
              gatherRows f id ((s.examineWritten (s.write (dst.zip (bs.map (·.2)))) dst o.parish).modOp id fun o =>
                { o with sent := o.sent + 1, reads := o.reads.filter (·.at' / 1024 != j) }) r

/-- Sends a row of a SCAT, line by line (R67); it counts as one posted write (R353). -/
def State.sendRow (s : State) (id : Nat) (o : EngOp) (flag : Word) (pa : Nat) (a : Word) (j : Nat) (bs : List Byte) : State :=
  let parts := rowParts pa bs.length
  let t := parts.foldl (fun (t : State) p =>
    t.sendChunk id o flag true (.store ((List.range p.2).zip ((bs.drop p.1).take p.2))) (.byte (pa + p.1))
      (a + BitVec.ofNat 64 p.1) j) s
  let new (e : Nat × Access) : Bool := decide (s.nextId ≤ e.1) && e.2.op == id && e.2.dest == j
  match t.accesses.find? new with
  | some (lead, _) =>
      if parts.length ≤ 1 then t
      else { t with accesses := t.accesses.map fun e => if new e then (e.1, { e.2 with row := lead }) else e }
  | none => t

/-- SCAT in the order of its batches: a table row that is written twice is written in list order (R107), and a batch begins when
the one before is complete (R108). -/
def scatterRows (f : TileFields) (id : Nat) (s : State) (last : Nat) : List (Nat × Nat) → Sent
  | [] => .all s
  | (b, j) :: r =>
    match s.op? id with
    | none => .wait s
    | some o =>
      let (pa, a) := s.rowAt o f j
      let n := gatherSize f
      let src := dataBytes o f j
      if Config.writeWindow ≤ s.outwOf o.thread o.saved ||
          (s.accesses.any fun e => e.2.op == id && (s.touches e.2 pa n || b != last)) || (s.firstEmpty src).isSome then .wait s
      else
        match s.rowFail o f (s.gatherIndex o j) with
        | some (c, v) => .fault s c v (unserved r j)
        | none =>
          match s.raceLines o (o.windowLines (gatherData o.block + j * n) n) 0 false with
          | (s, some v) => .fault s 0x11 v (unserved r j)
          | (s, none) =>
          match s.raceLines o (rowLines pa n a) 0 true with
          | (s, some v) => .fault s 0x11 v (unserved r j)
          | (s, none) =>
            match s.findError src with
            | (s, true) => .fault s 0x16 (placeOf o.core ((src.headD 0) % 2 ^ 16)) (unserved r j)
            | (s, false) =>
              let s := s.sendRow id o f.flag pa a j (s.bytes src)
              scatterRows f id (s.modOp id fun o => { o with sent := o.sent + 1 }) b r

/-- The list of a gather is read once, as it starts. -/
def State.takeList (s : State) (id : Nat) (o : EngOp) (f : TileFields) : State :=
  if 1 < o.data.length then s
  else
    let l := (List.range (gatherCount f)).map fun j => BitVec.ofNat 64 (s.gatherIndex o j)
    s.modOp id fun o => { o with data := [o.block] ++ l }

/-- The shape of both: every index is checked before any request is sent, then the rows go owner by owner. -/
def runRows (f : TileFields) (s : State) (go : Nat → State → Nat → List (Nat × Nat) → Sent) : Out :=
  command s fun s id o =>
    if o.data.length ≤ 1 && !s.listReady o f then s
    else
      match s.findError ((List.range (4 * gatherCount f)).map fun i => o.windowByte (gatherList o.block + i)) with
      | (s, true) => s.faultOp id 0x16 (o.place (gatherList o.block)) o.resume false
      | (s, false) =>
        let s := s.takeList id o f
        let o := (s.op? id).getD o
        match if o.sent = 0 then s.rowsFail o f else none with
        | some (c, v) => s.faultOp id c v o.resume true
        | none =>
          let l := s.servedOrder o f
          let last := ((l.drop (o.sent - 1)).head?.map (·.1)).getD 0
          match go id s last (l.drop o.sent) with
          | .all s => (s.seal id f.flag).finishOp id
          | .wait s => s
          | .fault s c v j => (s.modOp id fun o => { o with sent := 0 }).faultOp id c v j true

def execGath (f : TileFields) (s : State) : Out := runRows f s fun id s _ l => gatherRows f id s l
def execScat (f : TileFields) (s : State) : Out := runRows f s fun id s last l => scatterRows f id s last l

/-! ### Spires -/

/-- Chips of the members of a round. -/
def State.roundChips (s : State) (r : Round) : NSet :=
  r.group.foldl (fun l m =>
    match (s.task r.task).members[m]? with
    | some x => NSet.insert l (chipOfNode x.node)
    | none => l) []

def State.chipOfMember (s : State) (r : Round) (m : Nat) : Nat :=
  match (s.task r.task).members[m]? with
  | some x => chipOfNode x.node
  | none => 0

/-- The round of a group that a member's SPIRE joins: the i-th SPIRE that each member has issued at a level joins round i
(R360). -/
def State.joinRound (s : State) (task level number : Nat) (group : List Nat) : Nat × State :=
  match s.rounds.find? fun e => e.2.task == task && e.2.level == level && e.2.group == group && e.2.number == number with
  | some e => (e.1, s)
  | none =>
      let (id, s) := s.fresh
      let r : Round := { task := task, level := level, group := group, number := number }
      (id, { s with rounds := AMap.set {} s.rounds id r })

/-- A member's chip cannot be reached from a chip (R365). -/
def State.roundBroken (s : State) (r : Round) (chip : Nat) : Bool := (s.roundChips r).any fun c => !s.reaches chip c

/-- The pieces of a whole operand. -/
def wholePieces (x : Operand) (n : Nat) : List Piece :=
  (pieces x.base x.base n 0 (n / 128 + 2)).map fun p => ⟨p.1, p.1, p.2⟩

/-- What follows a contribution: a package all of whose members have contributed sums them, and a group of one chip is
complete with its last contribution (R361, R419). -/
def State.pokeRound (s : State) (id : Nat) : State :=
  let r := AMap.get {} s.rounds id
  if (s.roundChips r).length ≤ 1 then
    if r.contributions.length = r.group.length then s.event (.spireRound id) else s
  else s.event (.spirePackageSum id)

/-- SPIRE (R360): the contribution is read and joins its round; when the round's result is there, it is written at this
member's destination. -/
def execSpire (f : TileFields) (s : State) : Out :=
  command s fun s id o =>
    if 1 < o.data.length then
      let dst := operandOf o.block
      let bytes := (o.data.drop 1).flatMap fun w => littleEndian w 8
      let chunks := chunkBytes dst.base .store ((List.range f.len.toNat).zip bytes) none
      match s.writeChunks id dst f.flag true (chunks.drop o.sent) with
      | .all s => (s.seal id f.flag).finishOp id
      | .wait s => s
      | .fault s c v _ => (s.modOp id fun o => { o with sent := 0 }).faultOp id c v 0 true
    else if o.sent ≠ 0 then s
    else
      match s.readStream id (operandOf f.addr) (wholePieces (operandOf f.addr) f.len.toNat) with
      | (s, .all l) =>
          let m := (s.opSlot o).member
          let lvl := spireLevel f
          let (rid, s) := s.joinRound o.task lvl o.round (s.spireGroup o lvl)
          let r : Round := AMap.get {} s.rounds rid
          if r.lost || s.roundBroken r (chipOfCore o.core) then s.faultOp id 0x17 f.addr 0 true
          else
          let e := ((codeD o.fm f.ed).map (·.1)).getD 0
          let bad : Bool := match r.contributions with
            | c :: _ => c.len != f.len.toNat || c.elem != e
            | [] => false
          let c : Contribution := { op := id, member := m, len := f.len.toNat, elem := e,
                                    bytes := if bad then [] else l.map (·.2), failed := bad }
          let r : Round := { r with contributions := r.contributions ++ [c], disagreed := r.disagreed || bad }
          let s := { s with rounds := AMap.set {} s.rounds rid r }
          let s := s.modOp id fun o => { o with sent := 1 }
          let s := if bad then s.faultOp id 0x0E (f.len.setWidth 64) 0 true else s
          s.pokeRound rid
      | (s, .fault _ _ c v) => s.faultOp id c v 0 true
      | (s, .wait _) => s

/-- The bits of element `i` of the sum of a round, rounded once (R361). -/
def sumElement (code i : Nat) (cs : List Contribution) : List Byte :=
  match elemOf code false with
  | some el =>
      let n := el.bytes
      let vs := cs.map fun c => decodeElem el (ofLittleEndian ((c.bytes.drop (i * n)).take n))
      let v := (sumVals false vs).getD .zero
      let bits := match el with
        | .float f => (roundFloat f nearestEven false v).bits
        | .int b sg => wrapInt b sg false (intOfVal v)
      littleEndian (BitVec.ofNat 64 bits) n
  | none => []

/-- The result of a round. -/
def roundSum (r : Round) : List Byte :=
  match r.contributions with
  | c :: _ => (List.range (c.len / codeSize c.elem)).flatMap fun i => sumElement c.elem i r.contributions
  | [] => []

/-- An entry to be put into a send queue (R405). -/
def State.newEntry (s : State) (body : EntryBody) (cls : Class) (src dst frames : Nat) : State :=
  let (id, s) := s.fresh
  let e : Entry := { body := body, cls := cls, src := src, dst := dst, hop := dst, at' := src, frames := frames, relayed := false }
  { s with entries := s.entries ++ [(id, e)] }.event (.entryEnqueue id)

/-- Bytes of an element in a spire partial's exact form (R419). -/
def partialBytes (code : Nat) : Nat :=
  match code with
  | 1 => 272
  | 2 | 3 | 4 => 40
  | c => codeSize c

/-- Frames of an entry of `n` bytes: a header flit and data flits of 64 bytes, in frames of 8 flits (R405). -/
def framesOf (n : Nat) : Nat := ((n + 63) / 64 + 1 + 7) / 8

/-- An entry holds at most 16 KiB (R405): the sizes of the entries that carry `n` bytes. -/
def entrySizes (n : Nat) : List Nat :=
  Nat.min 16384 n :: (List.range ((n - 1) / 16384)).map fun i => Nat.min 16384 (n - 16384 * (i + 1))

/-- Sends `n` bytes from chip to chip as entries of one body (R405, R419). -/
def State.sendBytes (s : State) (body : EntryBody) (src dst n : Nat) : State :=
  (entrySizes n).foldl (fun s k => s.newEntry body .request src dst (framesOf k)) s

/-- The entry of a body that has arrived is taken; true with the last of them. -/
def State.takeEntryOf (s : State) (id : Nat) (body : EntryBody) : State × Bool :=
  let s : State := { s with entries := dropRec s.entries id }
  (s, !(s.entries.any fun e => decide (e.2.body = body)))

/-- A package delivers the result of a round to its members over its spire trees, or, when one disagreed, cause 0x0E
(R361, R362, R419). -/
def State.deliverResult (s : State) (round chip : Nat) : State :=
  let r : Round := AMap.get {} s.rounds round
  r.contributions.foldl (fun s c =>
    if c.failed || s.chipOfMember r c.member != chip then s
    else if r.disagreed then s.faultOp c.op 0x0E (BitVec.ofNat 64 c.len) 0 true
    else (s.modOp c.op fun o => { o with data := o.data.take 1 ++ r.out, sent := 0 }).push (.command c.op)) s

/-- A round whose contributions are all present, and summed at their packages, is rounded once. The lowest-numbered chip
delivers the result to its own members and sends it to every other package (R361, R362, R419). DEDUCED, log 32. -/
def execSpireRound (round : Nat) (s : State) : Out :=
  .next (
    let r := AMap.get {} s.rounds round
    let chips := s.roundChips r
    if r.done || r.group.isEmpty || decide (r.contributions.length < r.group.length) ||
        (decide (1 < chips.length) && decide (r.summed.length < chips.length)) then s
    else
      let out := roundSum r
      let clear : Round := { r with done := true, out := wordsOf (out.length / 8) out,
                                    contributions := r.contributions.map fun c => { c with bytes := [] } }
      let s := { s with rounds := AMap.set {} s.rounds round clear }
      match chips with
      | [] => s
      | low :: others =>
        others.foldl (fun s c => s.sendBytes (.spireResult round c) low c out.length) (s.deliverResult round low))

/-- A package whose members have all contributed sends its partial to the lowest-numbered chip of the group, whose own
partial is there at once (R419). -/
def execSpirePackageSum (round : Nat) (s : State) : Out :=
  .next (
    let r := AMap.get {} s.rounds round
    let chips := s.roundChips r
    match chips with
    | [] => s
    | low :: _ =>
      let ready := chips.filter fun c => !r.summed.contains c &&
        (r.group.filter fun m => s.chipOfMember r m == c).all fun m => r.contributions.any (·.member == m)
      let s := ready.foldl (fun s c =>
        if c = low then
          let r : Round := AMap.get {} s.rounds round
          let r : Round := { r with summed := NSet.insert r.summed c }
          { s with rounds := AMap.set {} s.rounds round r }
        else if s.entries.any fun e => decide (e.2.body = .spirePartial round c) then s
        else
          let n := match r.contributions with
            | x :: _ => x.len / Nat.max 1 (codeSize x.elem) * partialBytes x.elem
            | [] => 0
          s.sendBytes (.spirePartial round c) c low n) s
      if (AMap.get {} s.rounds round).summed.length = chips.length then s.event (.spireRound round) else s)

end Sys2Proof.Machine
end

