-- ==== Sys2Proof/Machine/Attention.lean ====
section
/-! DEFINITION. Page-major attention: ATTS and ATTP (13 R354 to R356), the Granary with GMRG and GTAKE (13 R357 to R359;
15 R392 to R396), rolls, subscriptions and passes (11 R302, R303; 15 R383 to R391). -/

namespace Sys2Proof.Machine

/-! ### ATTS and ATTP -/

/-- Element (r, l) of a tile under element `e`. -/
def State.val (s : State) (o : EngOp) (t : Field4) (e : Elem) (r l : Nat) : Val := decodeElem e (s.elem o t r l e.bytes)

/-- Some row of the tiles named lies in an empty line. -/
def State.tilesEmpty (s : State) (o : EngOp) (ts : List Field4) : Bool :=
  ts.any fun t => s.rowsEmpty o t (List.range (o.shape t).rows)

/-- ATTS (R354). DEDUCED, log 46. -/
def execAtts (f : TileFields) (s : State) : Out :=
  command s fun s id o =>
    let rows := (rowRange f (o.shape f.td).rows).getD []
    if s.rowsEmpty o f.ta rows || s.tilesEmpty o [f.tb] then s
    else
      let q := elemOr (codeA o.fm f.ea)
      let k := elemOr (codeB o.fm f.eb)
      let hd := (o.shape f.tb).cols
      let c := f32Val f.imm32
      let w := rows.flatMap fun i =>
        (List.range (o.shape f.tb).rows).flatMap fun t =>
          let d := dotGroups fmtF32 (groupLength q.bytes) hd .zero (s.val o f.ta q i) (s.val o f.tb k t)
          o.elemBytes f.td i t 4 (toF32 (mulVal d c).1).toNat
      (s.write w).finishOp id

/-- The weight of a score beside its row's maximum, in V's code (R355). -/
def weight (v : Elem) (m x : Val) : Val :=
  let p := if m = .inf true then .zero
    else if eqVal x m then .one
    else roundF32 (exp2Val (roundF32 (addVal false x m.neg).1))
  decodeElem v (roundElem v nearestEven false p).bits

/-- One row's partial: maximum, sum, and accumulator (R355). -/
def attpRow (v : Elem) (scores : List Val) (hd : Nat) (value : Nat → Nat → Val) : BitVec 32 × BitVec 32 × List (BitVec 32) :=
  let m := (maxVals scores).getD .nan
  let p := scores.map (weight v m)
  let w (t : Nat) : Val := p.getD t .zero
  if m.isNan then
    let n := toF32 .nan
    (n, n, List.replicate hd n)
  else
    (toF32 m, toF32 ((sumVals false p).getD .zero),
      (List.range hd).map fun c =>
        toF32 (dotGroups fmtF32 (groupLength v.bytes) p.length .zero w fun t => value t c))

/-- ATTP (R355). -/
def execAttp (f : TileFields) (s : State) : Out :=
  command s fun s id o =>
    let rows := (rowRange f (o.shape f.td).rows).getD []
    if s.rowsEmpty o f.ta rows || s.tilesEmpty o [f.tb] then s
    else
      let v := elemOr (codeB o.fm f.eb)
      let n := (o.shape f.ta).cols
      let hd := (o.shape f.td).cols
      let w := rows.flatMap fun i =>
        let r := attpRow v ((List.range n).map fun t => s.val o f.ta (.float fmtF32) i t) hd (s.val o f.tb v)
        (r.2.2.zipIdx.flatMap fun e => o.elemBytes f.td i e.2 4 e.1.toNat) ++
          o.elemBytes f.tc i 0 4 r.1.toNat ++ o.elemBytes f.tc i 1 4 r.2.1.toNat
      (s.write w).finishOp id

/-! ### Merging (R394, R395) -/

/-- Merges two rows: the left one is the slot's (R395). -/
def mergeRow (m1 l1 : BitVec 32) (a1 : List (BitVec 32)) (m2 l2 : BitVec 32) (a2 : List (BitVec 32)) :
    BitVec 32 × BitVec 32 × List (BitVec 32) :=
  let m := maxVal (f32Val m1) (f32Val m2)
  let scale (mk : BitVec 32) : Val :=
    if m.isNan then .nan
    else if eqVal (f32Val mk) m then .one
    else roundF32 (exp2Val (roundF32 (addVal false (f32Val mk) m.neg).1))
  let s1 := scale m1
  let s2 := scale m2
  let join (x y : BitVec 32) : BitVec 32 :=
    toF32 (addVal false (roundF32 (mulVal (f32Val x) s1).1) (roundF32 (mulVal (f32Val y) s2).1)).1
  (toF32 m, join l1 l2, List.zipWith join a1 a2)

def mergePartial (p q : Partial) : Partial :=
  let rows := (List.range p.m.length).map fun i =>
    mergeRow (p.m.getD i 0) (p.l.getD i 0) (p.acc.getD i []) (q.m.getD i 0) (q.l.getD i 0) (q.acc.getD i [])
  { m := rows.map (·.1), l := rows.map (·.2.1), acc := rows.map (·.2.2) }

/-- merge(q) of a slot's next page. -/
def Granary.merge (g : Granary) (p : Partial) : Granary :=
  { g with merged := if g.have' then mergePartial g.merged p else p, have' := true, next := g.next + 1 }

/-- Merges the held pages that have become next. -/
def Granary.drain (g : Granary) : Nat → Granary
  | 0 => g
  | fuel + 1 =>
    match g.reorder.find? (·.1 == g.next) with
    | some (q, p) =>
        let g := g.merge p
        Granary.drain { g with reorder := g.reorder.filter (·.1 != q) } fuel
    | none => g

/-- What a slot does with a partial of page `q` (R357, R394). -/
inductive Taken where
  | fault
  | wait
  | slot (g : Granary)
  deriving DecidableEq, Repr

def Granary.take' (g : Granary) (q : Nat) (p : Partial) : Taken :=
  let full (g : Granary) : Taken := .slot (if g.next = g.first + g.count then { g with state := .full } else g)
  match g.state with
  | .full => .wait
  | .opened =>
      if q < g.next ∨ g.first + g.count ≤ q ∨ g.reorder.any (·.1 == q) then .fault
      else if q = g.next then full ((g.merge p).drain 8)
      else if g.reorder.length < 8 then full { g with reorder := g.reorder ++ [(q, p)] }
      else .wait
  | _ => .fault

/-- The partial that GMRG reads from ta and tb. -/
def State.readPartial (s : State) (o : EngOp) (f : TileFields) : Partial :=
  let h := o.shape f.ta
  let x (t : Field4) (r l : Nat) : BitVec 32 := BitVec.ofNat 32 (s.elem o t r l 4)
  { m := (List.range h.rows).map fun i => x f.tb i 0, l := (List.range h.rows).map fun i => x f.tb i 1,
    acc := (List.range h.rows).map fun i => (List.range h.cols).map fun c => x f.ta i c }

/-- A command of the port that has come to wait after all lets the others pass. -/
def State.backToPort (s : State) (id : Nat) (o : EngOp) : State :=
  (s.modOp id fun o => { o with state := .queued }).kick o.core .granary

/-- A command of the port finds the check bits of its slot: an error that can be corrected is, and is counted at the first
core of the node; another ends the command with nothing done, and is reported (R88, R364). DESIGN CHOICE, log 103. -/
def withSlot (s : State) (id node : Nat) (slot : BitVec 32) (g : Granary) (k : State → Granary → State) : State :=
  if g.check = 0 then k s g
  else if g.check = 1 then
    let s := s.modCore (node * 16) fun c => { c with corrected := c.corrected + 1 }
    k (s.modGranary node slot.toNat fun g => { g with check := 0 }) { g with check := 0 }
  else (s.machineCheck node 0 (slot.setWidth 64)).faultOp id 0x16 (slot.setWidth 64) 0 false

/-- GMRG (R357, R394). -/
def execGmrg (f : TileFields) (s : State) : Out :=
  command s fun s id o =>
    let n := nodeOfCore o.core
    let slot := f.len.toNat
    match s.heldSlot o slot with
    | none => s.faultOp id 0x08 (f.len.setWidth 64) 0 false
    | some g =>
      if s.tilesEmpty o [f.ta, f.tb] then s
      else
        withSlot s id n f.len g fun s g =>
          match g.take' f.imm32.toNat (s.readPartial o f) with
          | .fault => s.faultOp id 0x07 (f.imm32.setWidth 64) 0 false
          | .wait => s.backToPort id o
          | .slot g => ((s.modGranary n slot fun _ => g).countOp o f.flag |>.finishOp id).kickPorts n

/-- The output of a slot: acc over l, +0 where l is 0 (R359). -/
def granaryOut (e : Elem) (a l : BitVec 32) : Nat :=
  if (f32Val l).isZero then 0 else (roundElem e nearestEven false (divVal (f32Val a) (f32Val l)).1).bits

/-- A slot that has delivered takes the pages of the next pass (Table 15-4). -/
def Granary.reopen (g : Granary) : Granary :=
  { g with state := .opened, next := g.first, have' := false, merged := {}, reorder := [], take := none }

/-- The status word, then the flag, of a GTAKE whose output is written. -/
def takeStatus (f : TileFields) (s : State) (id : Nat) (v : Word) : State :=
  if f.addr = 0 then (s.seal id f.flag).finishOp id
  else
    match s.writeChunks id (operandOf f.addr) f.flag true [(0, .store ((List.range 8).zip (littleEndian v 8)))] with
    | .all s => (s.seal id f.flag).finishOp id
    | .wait s => s
    | .fault s c v _ => s.faultOp id c v 0 false

/-- GTAKE (R359, R390). -/
def execGtake (f : TileFields) (s : State) : Out :=
  command s fun s id o =>
    if o.sent = 1 then takeStatus f s id (o.data.getD 0 0)
    else
      let n := nodeOfCore o.core
      let slot := f.len.toNat
      match s.heldSlot o slot with
      | none => s.faultOp id 0x08 (f.len.setWidth 64) 0 false
      | some g =>
        withSlot s id n f.len g fun s g =>
          match g.state with
          | .failed =>
              (s.modGranary n slot fun g => { g with take := none }).faultOp id g.failure.1 g.failure.2 0 false
          | .joining => takeStatus f (s.modOp id fun o => { o with sent := 1, data := [1] }) id 1
          | .full =>
              let e := elemOr (codeD o.fm f.ed)
              let w := (List.range g.rows).flatMap fun i => (List.range g.cols).flatMap fun c =>
                o.elemBytes f.td i c e.bytes
                  (granaryOut e ((g.merged.acc.getD i []).getD c 0) (g.merged.l.getD i 0))
              let s := (s.write w).modGranary n slot fun g => g.reopen
              let s := s.modOp id fun o => { o with sent := 1, data := [0] }
              (takeStatus f s id 0).kickPorts n
          | _ => (s.modGranary n slot fun g => { g with take := some id }).backToPort id o

/-! ### Rolls (R383, R384, R302) -/

/-- The node of a die's Carillon (R383). -/
def carillonNode (die : Nat) : Nat := die * 3072 + 32 * 48 + 24

/-- The die that a roll word names, seen from a thread. -/
def rollDie (t : Nat) (w : Word) : Nat := chipOfThread t * 8 + (field w 8 3).toNat
def rollNumber (w : Word) : Nat := (field w 0 8).toNat

/-- The address of a roll's descriptor. -/
def State.descriptorAt (s : State) (parish : Nat) (w : Word) : Word :=
  BitVec.ofNat 64 ((s.parish parish).rollTable * 2 ^ 40 + 64 * (256 * (field w 8 3).toNat + rollNumber w))

/-- Table 15-1. -/
structure RollDesc where
  elem : Nat
  hd : Nat
  tokens : Nat
  npages : Nat
  kbase : Word
  vbase : Word
  stride : Nat
  sflag : Nat
  stage : Nat
  deriving DecidableEq, Repr

def rollElem (e : Nat) : Bool :=
  e == 3 || e == 4 || e == 13 || e == 14 || (decide (17 ≤ e ∧ e ≤ 23)) || (decide (25 ≤ e ∧ e ≤ 31))

/-- A valid descriptor (R384). -/
def rollDesc (ws : List Word) : Option RollDesc :=
  let w (i : Nat) : Word := ws.getD i 0
  let d : RollDesc :=
    { elem := (field (w 0) 26 5).toNat, hd := (field (w 0) 22 4).toNat + 1, tokens := (field (w 0) 18 4).toNat + 1,
      npages := (field (w 0) 0 16).toNat, kbase := w 1, vbase := w 2, stride := (field (w 3) 0 32).toNat,
      sflag := (field (w 4) 16 15).toNat, stage := (field (w 4) 0 15).toNat }
  let reserved := field (w 0) 32 32 == 0 && field (w 0) 16 2 == 0 && field (w 3) 32 32 == 0 && field (w 4) 31 33 == 0 &&
    !(w 4).getLsbD 15 && w 5 == 0 && w 6 == 0 && w 7 == 0
  if (w 0).getLsbD 31 && reserved && rollElem d.elem && decide (1 ≤ d.npages) && d.stride % 128 == 0 &&
      decide (64 * d.tokens ≤ d.stride) && d.sflag % 8 == 0 && d.stage % 128 == 0 then some d
  else none

/-! ### Reading line by line (R300, R385, R387) -/

/-- What a reading in lines or rows leads to. -/
inductive RowRead where
  | bytes (l : List Byte)
  | wait
  | fault (cause : Nat) (tval : Word)
  deriving DecidableEq, Repr

/-- The bytes of the pieces that have come, in order. A fault stands only once everything before it has come. -/
def takeReads (reads : List LineRead) : List Piece → List Byte → RowRead
  | [], acc => .bytes acc
  | p :: r, acc =>
      match reads.find? (·.at' == p.place) with
      | none => .wait
      | some ⟨_, bs, none⟩ => takeReads reads r (acc ++ bs)
      | some ⟨_, _, some (c, v)⟩ => .fault c v

/-- The pieces of `n` bytes at an address, one for each line. -/
def linePieces (a : Word) (n : Nat) : List Piece :=
  (pieces (a.toNat % 128) (a.toNat % 128) n 0 (n / 128 + 2)).map fun p => ⟨p.1, p.1, p.2⟩

/-- What is known at once of a line read of reading `sub`. -/
def State.landRead (s : State) (sub : Nat) (r : LineRead) : State :=
  let v := s.submission sub
  s.setSubmission sub { v with reads := v.reads ++ [r] }

/-- Starts one line read of the current thread, checked as a load as it starts (R48): the second part says whether the next
may start. -/
def State.startLine (s : State) (sub : Nat) (base : Word) (p : Piece) : State × Bool :=
  let a := base + BitVec.ofNat 64 p.dist
  let chip := chipOfThread s.cur
  let fail (s : State) (c : Nat) (v : Word) : State × Bool := (s.landRead sub ⟨p.place, [], some (c, v)⟩, false)
  let c : Check := if isPlace a then .ok (.byte (placeByte chip a))
    else
      match checkEntry (s.obj chip s.here.parish (handleObj a)) (handleObj a) (handleOff a) p.len rR (!s.here.pl) with
      | some k => .trap k a
      | none => s.checkResidency chip s.here.parish (handleObj a) (handleOff a) a false
  match c with
  | .trap c v => fail s c v
  | .drop => fail s 0x17 a
  | .moving => (s, false)
  | .ok t =>
      if (loadHeld s c p.len).isSome || decide (Config.requestWindow ≤ s.outr s.cur) then (s, false)
      else
        match s.raceScalar s.cur t a kLoad false 4 false with
        | (s, some v) => fail s 0x11 v
        | (s, none) =>
            (((s.touch s.cur a).request { s.newAccess s.cur (.load p.len) t a false with
              reader := .launch sub, dest := p.place }).2, true)

/-- Starts the line reads in order as far as it can. -/
def State.startLines (s : State) (sub : Nat) (base : Word) : List Piece → State
  | [] => s
  | p :: r =>
      if (s.submission sub).reads.any (·.at' == p.place) ||
          (s.accesses.any fun e => decide (e.2.reader = .launch sub) && e.2.dest == p.place) then s.startLines sub base r
      else
        match s.startLine sub base p with
        | (s, true) => s.startLines sub base r
        | (s, false) => s

/-- A reading has ended: what is still on its way comes home to nothing. -/
def State.endReads (s : State) (sub : Nat) : State :=
  { s.setSubmission sub {} with
    accesses := s.accesses.map fun e => if e.2.reader = .launch sub then (e.1, { e.2 with reader := .thread }) else e }

/-- Reads `n` bytes at an address for reading `sub` of the current thread, which parks until they have come: they go to
`k`, and a failure to `trap`. -/
def readHeld (a : Word) (n sub : Nat) (s : State) (trap : State → Nat → Word → State) (k : List Byte → State → State) :
    State :=
  let ps := linePieces a n
  let s := s.startLines sub a ps
  match takeReads (s.submission sub).reads ps [] with
  | .bytes l => k l s
  | .wait => s.park (.launch sub)
  | .fault c v => trap (s.endReads sub) c v

/-- The reading of a thread parked in one. -/
def SlotState.reading? : SlotState → Option Nat
  | .parked (.launch sub) => some sub
  | _ => none

/-- Reads a roll's descriptor as a load with right R (R384, R385, R387): `k` takes it, and `trap` a failure. The checks of
Table 2-9 are made once, as the load issues. -/
def withDescriptor (w : Word) (sub : Nat) (s : State) (trap : State → Nat → Word → State) (k : RollDesc → State → State) :
    State :=
  let a := s.descriptorAt s.here.parish w
  let bad : Option Nat := match s.here.state.reading? with
    | some _ => none
    | none => checkEntry (s.obj (chipOfThread s.cur) s.here.parish (handleObj a)) (handleObj a) (handleOff a) 64 rR (!s.here.pl)
  match bad with
  | some c => trap s c a
  | none =>
    readHeld a 64 sub s trap fun l s =>
      match rollDesc (wordsOf 8 l) with
      | some d => k d (s.endReads sub)
      | none => trap (s.endReads sub) 0x07 a

/-- The checks of a roll word by a thread: its reserved bits, then its parish (R302). -/
def State.rollFail (s : State) (t : Nat) (w : Word) : Option Fail :=
  if field w 11 53 ≠ 0 then some (0x07, w)
  else if (s.roll (rollDie t w) (rollNumber w)).parish ≠ some (s.slot t).parish then some (0x08, w)
  else none

/-! ### Subscribing (R303, R385, R396) -/

/-- The lowest-numbered Granary slot of a node that is free: R303 and R385 do not say which free slot KVSUB takes.
DESIGN CHOICE, log 114. -/
def freeGranary (n : Node) : Option Nat :=
  (List.range 32).find? fun i =>
    let g : Granary := AMap.get {} n.granary i
    decide (g.state = .free) && g.sub == 0

/-- Threads that wait for a Granary slot of a node try again. -/
def State.granaryFreed (s : State) (node : Nat) : State :=
  s.wakeIf fun t c => parkedOn .granary c && nodeOfThread t == node

/-- Subscriptions that a Carillon holds. -/
def State.subscribed (s : State) (die : Nat) : List (Nat × Subscription) :=
  s.subscriptions.filter fun e => e.2.live && e.2.die == die && decide (e.2.state ≠ .requested)

/-- A registration that had found no place is made again when one frees (R385). -/
def State.retryRegistrations (s : State) (die : Nat) : State :=
  s.subscriptions.foldl (fun s e =>
    if e.2.live && e.2.die == die && decide (e.2.state = .requested) then s.event (.subscriptionRegistration e.1) else s) s

/-- Forgets a subscription that is no longer live once none of its pages is on its way. -/
def State.forgetSub (s : State) (sub : Nat) : State :=
  if !(s.subscription sub).live && !(s.accesses.any fun e => !e.2.performed && e.2.isPageOf (· == sub)) then s.setSubscription sub {}
  else s

/-- Operation `o` is a GMRG or GTAKE of a slot of its node, which has still to act on it. -/
def EngOp.waitsSlot (o : EngOp) (node slot : Nat) : Bool :=
  o.engine == .granary && nodeOfCore o.core == node && o.sent == 0 &&
    (decide (o.state = .queued) || decide (o.state = .running)) &&
    match decodeCommand o.word with
    | .ok (.gmrg f) | .ok (.gtake f) => f.len.toNat == slot
    | _ => false

/-- What waits in a port for a slot that has been freed faults (R396). -/
def State.faultWaiting (s : State) (node slot task : Nat) : State :=
  s.ops.foldl (fun s e =>
    if e.2.task == task && e.2.waitsSlot node slot && ((s.core e.2.core).queue .granary).contains e.1 then
      s.faultOp e.1 0x08 (BitVec.ofNat 64 slot) 0 false
    else s) s

/-- Removes a subscription and frees its slot: what waits in a port for the slot faults (R396). -/
def State.unsubscribe (s : State) (node slot : Nat) : State :=
  let id := (s.granary node slot).sub
  let v := s.subscription id
  let task := (s.granary node slot).owner
  let s := (s.modGranary node slot fun _ => {}).faultWaiting node slot task
  let s := ((s.setSubscription id { v with live := false }).forgetSub id).retryRegistrations v.die
  (s.granaryFreed node).kickPorts node

/-- A registration fails: the slot is freed, nothing is recorded and the thread traps (R385). -/
def State.refuseSub (s : State) (sub : Nat) (v : Subscription) (cause : Nat) (tval : Word) : State :=
  let s := s.modGranary v.node v.slot fun _ => {}
  let s := s.setSubscription sub {}
  (s.granaryFreed v.node).trapIn v.thread cause tval

/-- A KVSUB that has its slot: what it will register, as far as it is known before the descriptor is read. -/
def State.newSubscription (s : State) (rw rg : Word) (t d : Field4) (i : Nat) : Subscription :=
  let c := s.here
  { thread := s.cur, core := coreOfThread s.cur, wbase := c.wbase.toNat, span := c.span, node := nodeOfThread s.cur,
    slot := i, task := c.task, rollWord := rw, range := rg, tile := t.toNat, dest := d.toNat, die := rollDie s.cur rw,
    roll := rollNumber rw, first := (field rg 0 32).toNat, count := (field rg 32 16).toNat, shape := c.shape t,
    state := .requested, live := true }

/-- KVSUB reads the descriptor and asks the Carillon to record the subscription (R385). -/
def subscribeWith (rw : Word) (sub : Nat) (s : State) : State :=
  withDescriptor rw sub s (fun s c v => s.refuseSub sub (s.subscription sub) c v) fun d s =>
    ((s.setSubscription sub { s.subscription sub with npages := d.npages, hd := d.hd }).park (.carillon sub)).event
      (.subscriptionRegistration sub)

/-- KVSUB (R303): it takes its Granary slot before it reads the descriptor (R385). DEDUCED, log 47. -/
def execKvsub (g : Guard) (d a b t : Field4) (s : State) : Out :=
  scalar g s fun s => withDest d s fun s => atHome s fun s =>
    let rw := s.reg a
    let rg := s.reg b
    match s.here.state.reading? with
    | some sub => subscribeWith rw sub s
    | none =>
      match s.rollFail s.cur rw with
      | some (c, v) => s.trap c v
      | none =>
        if field rg 48 16 ≠ 0 ∨ field rg 32 16 = 0 then s.trap 0x07 rg
        else if !(s.here.tile t).mapped then s.trap 0x0D (t.setWidth 64)
        else
          let n := nodeOfThread s.cur
          match freeGranary (s.node n) with
          | none => s.park .granary
          | some i =>
            let (id, s) := s.fresh
            let s := s.modGranary n i fun g => { g with owner := s.here.task, sub := id }
            subscribeWith rw id (s.setSubscription id (s.newSubscription rw rg t d i))

/-- The Carillon records a subscription, or refuses it (R385, R391). -/
def execSubscriptionRegistration (sub : Nat) (s : State) : Out :=
  .next (
    let v := s.subscription sub
    if !v.live || decide (v.state ≠ .requested) || !parkedOn (.carillon sub) (s.slot v.thread) then s
    else
      let h := shapeOf v.shape
      if v.npages < v.first + v.count then s.refuseSub sub v 0x07 v.range
      else if h.elem = 0 ∨ 16 < h.cols ∨ h.cols ≠ v.hd then s.refuseSub sub v 0x0E (BitVec.ofNat 64 v.tile)
      else if 8192 ≤ (s.subscribed v.die).length then s
      else
        let late := match (s.roll v.die v.roll).running with
          | some p => decide (v.first < p.page)
          | none => false
        let st : SubState := if late then .nextPass else .joined
        let s := s.setSubscription sub { v with rows := h.rows, cols := h.cols, state := st }
        let s := s.modGranary v.node v.slot fun g =>
          { g with state := if late then .joining else .opened, roll := v.roll, die := v.die, first := v.first,
                   count := v.count, rows := h.rows, cols := h.cols, next := v.first }
        (s.setRegOf v.thread (BitVec.ofNat 4 v.dest) (BitVec.ofNat 64 v.slot)).finishOf v.thread)

/-- KVUNSUB (R303). -/
def execKvunsub (g : Guard) (a : Field4) (s : State) : Out :=
  scalar g s fun s =>
    let x := s.reg a
    let n := nodeOfThread s.cur
    let v := s.granary n x.toNat
    if x.toNat < 32 ∧ v.state ≠ .free ∧ v.owner = s.here.task then (s.unsubscribe n x.toNat).finish
    else s.trap 0x08 x

/-! ### Passes (R387, R388, R390) -/

/-- Steps 2 to 5 of Table 2-9 with right R, or R28, R27, R30 and R29, for a range that a Carillon reads. -/
def State.carillonFail (s : State) (chip parish : Nat) (user : Bool) (a : Word) (n : Nat) : Option Fail :=
  s.farFail chip parish user a [(0, n)] rR

/-- The range of addresses a pass reads from one base (R387). -/
def RollDesc.range (d : RollDesc) : Nat := (d.npages - 1) * d.stride + 64 * d.tokens

/-- The live subscriptions of a roll. -/
def State.rollSubs (s : State) (die roll : Nat) : List (Nat × Subscription) :=
  (s.subscribed die).filter (·.2.roll == roll)

/-- The waiting pass of a roll opens: slots that waited to join open with it (R387, R391). One that no subscription belongs to
ends at once (R388). -/
def State.openPass (s : State) (die roll : Nat) : State :=
  match (s.roll die roll).waiting with
  | none => s
  | some snap =>
    if (s.rollSubs die roll).isEmpty then s.modRoll die roll fun r => { r with waiting := none }
    else
      let p : Pass := { snap := snap, page := 0, heldRecord := false }
      let s := s.modRoll die roll fun r => { r with running := some p, waiting := none }
      let s := (s.rollSubs die roll).foldl (fun s e =>
        if e.2.state = .nextPass then
          (s.setSubscription e.1 { e.2 with state := .joined }).modGranary e.2.node e.2.slot fun g =>
            if g.state = .joining then { g with state := .opened, next := g.first } else g
        else s) s
      s.event (.pageWalk die roll)

/-- The waiting pass opens when none of its roll runs. -/
def State.openNext (s : State) (die roll : Nat) : State :=
  if (s.roll die roll).running.isSome then s else s.openPass die roll

def execPassOpen (die roll : Nat) (s : State) : Out := .next (s.openNext die roll)

/-- PASS hands its snapshot to the Carillon (R387): the pass opens at once, or it waits for the running one to end; a
further PASS has no effect. -/
def passWith (rw : Word) (d : RollDesc) (s : State) : State :=
  let chip := chipOfThread s.cur
  let c := s.here
  match s.carillonFail chip c.parish (!c.pl) d.kbase d.range, s.carillonFail chip c.parish (!c.pl) d.vbase d.range with
  | some k, _ => s.trap k.1 d.kbase
  | none, some k => s.trap k.1 d.vbase
  | none, none =>
    let die := rollDie s.cur rw
    let n := rollNumber rw
    let snap : PassSnapshot :=
      { parish := c.parish, elem := d.elem, hd := d.hd, tokens := d.tokens, npages := d.npages, kbase := d.kbase,
        vbase := d.vbase, stride := d.stride, sflag := d.sflag, stage := d.stage, stamp := s.stampOf s.cur,
        thread := s.cur, user := !c.pl, fence := s.fenceOf s.cur }
    let s := s.openNext die n
    if (s.roll die n).waiting.isSome then s.finish
    else ((s.modRoll die n fun r => { r with waiting := some snap }).openNext die n).finish

/-- PASS (R303, R387). -/
def execPass (g : Guard) (a : Field4) (s : State) : Out :=
  scalar g s fun s => atHome s fun s =>
    let rw := s.reg a
    match s.here.state.reading? with
    | some sub => withDescriptor rw sub s State.trap (passWith rw)
    | none =>
      match s.rollFail s.cur rw with
      | some (c, v) => s.trap c v
      | none =>
        let (id, s) := s.fresh
        withDescriptor rw id s State.trap (passWith rw)

/-- A line of a page is known to fail. -/
def State.landRow (s : State) (die roll key : Nat) (c : Nat) (v : Word) : State :=
  s.modRoll die roll fun r =>
    { r with running := r.running.map fun p => { p with reads := p.reads ++ [⟨key, [], some (c, v)⟩] } }

/-- Starts one line read of a page, which is checked as it starts (R390); the second part says whether the next may start. -/
def State.startRow (s : State) (die roll : Nat) (p : Pass) (a : Word) (x : Piece) : State × Bool :=
  let n := carillonNode die
  let chip := chipOfNode n
  let q := p.snap
  let fail (s : State) (c : Nat) (v : Word) : State × Bool := (s.landRow die roll x.place c v, false)
  match s.carillonFail chip q.parish q.user a x.len with
  | some (c, v) => fail s c v
  | none =>
    let c : Check := if isPlace a then .ok (.byte (placeByte chip a))
      else s.checkResidency chip q.parish (handleObj a) (handleOff a) a false
    match c with
    | .trap c v => fail s c v
    | .drop => fail s 0x17 a
    | .moving => (s.timer (n * 16) 4000 (.event (.pageWalk die roll)), false)
    | .ok t =>
        let s := if isPlace a then s else s.countExtent chip q.parish (handleObj a) (handleOff a)
        ((s.request { req := .load x.len, target := t, addr := a, thread := q.thread, parish := q.parish, src := n, dst := 0,
                      channel := false, seq := 0, posted := false, takesPlace := false,
                      reader := .pass die roll p.page, dest := x.place, info := { stamp := q.stamp } }).2, true)

/-- Starts the line reads of a page in order as far as it can. -/
def State.startRows (s : State) (die roll : Nat) (p : Pass) : List (Word × Piece) → State
  | [] => s
  | (a, x) :: r =>
      if (p.reads.any (·.at' == x.place)) ||
          (s.accesses.any fun e => decide (e.2.reader = .pass die roll p.page) && e.2.dest == x.place) then
        s.startRows die roll p r
      else
        match s.startRow die roll p a x with
        | (s, true) => s.startRows die roll p r
        | (s, false) => s

/-- The line reads of a page's K rows, then of its V rows (R383, R42): each at its distance in the page, where V begins at
1,024. -/
def pageLines (p : PassSnapshot) (q : Nat) : List (Word × Piece) :=
  let part (base : Word) (k : Nat) : List (Word × Piece) :=
    let a := base + BitVec.ofNat 64 (q * p.stride)
    (linePieces a (64 * p.tokens)).map fun x => (a + BitVec.ofNat 64 x.dist, ⟨k + x.place, k + x.dist, x.len⟩)
  part p.kbase 0 ++ part p.vbase 1024

/-- The rows of a pass that are on their way come home to nothing. -/
def State.detachRows (s : State) (die roll : Nat) : State :=
  { s with accesses := s.accesses.map fun e =>
      match e.2.reader with
      | .pass d r _ => if d = die ∧ r = roll then (e.1, { e.2 with reader := .thread }) else e
      | _ => e }

/-- A pass ends at a page: the slots that take part become failed, and the next pass may open (R390). DEDUCED, log 48. -/
def State.failPass (s : State) (die roll cause : Nat) (a : Word) : State :=
  let s := (s.rollSubs die roll).foldl (fun s e =>
    if e.2.state = .joined then
      s.modGranary e.2.node e.2.slot fun g =>
        if g.state = .opened || g.state = .full then { g with state := .failed, failure := (cause, a) } else g
    else s) s
  let s := (s.rollSubs die roll).foldl (fun s e => s.kickPorts e.2.node) s
  ((s.detachRows die roll).modRoll die roll fun r => { r with running := none }).event (.passOpen die roll)

/-- The subscriptions of the running pass that take page `q` (R388). -/
def State.takers (s : State) (die roll q : Nat) : List (Nat × Subscription) :=
  (s.rollSubs die roll).filter fun e => decide (e.2.state = .joined) && decide (e.2.first ≤ q ∧ q < e.2.first + e.2.count)

/-- The lines of a buffer that a page of `tokens` rows writes: distance in the buffer and length (R389). -/
def bufferParts (tokens : Nat) : Spans :=
  let l := pieces 0 0 (64 * tokens) 0 (tokens / 2 + 2)
  l ++ l.map fun e => (1024 + e.1, e.2)

/-- Multicasts one line of a page to its subscribers, one copy for all of them. The source keeps what it sent until each
destination has acknowledged it (R82). -/
def State.sendPart (s : State) (die : Nat) (p : PassSnapshot) (q page : Nat) (takers : List (Nat × Subscription)) (dist : Nat)
    (l : List Byte) : State :=
  let n := carillonNode die
  let (accs, s) := takers.foldl (fun (acc : List Nat × State) e =>
    let v := e.2
    let a : Access :=
      { req := .page e.1 q, target := .byte (coreByte v.core v.wbase), addr := BitVec.ofNat 64 (p.stage + 2048 * (q % 2)),
        thread := p.thread, parish := p.parish, src := n, dst := 0, channel := false, seq := 0, posted := false,
        takesPlace := false, dest := dist, row := page, value := l,
        flag := some (placeOf v.core (v.wbase + p.sflag % v.span)), info := { stamp := p.stamp } }
    let (id, s) := acc.2.addAccess a
    (acc.1 ++ [id], s.armRetry id { a with dst := v.node } v.node)) ([], s)
  s.sendMulticast (.page accs q l) p.parish n (List.zipWith (fun id (e : Nat × Subscription) => (e.2.node, id)) accs takers)

/-- Multicasts a page to its subscribers from the Carillon's node, one packet for each line, K first (R67, R80, R388). -/
def State.sendPage (s : State) (die : Nat) (p : PassSnapshot) (q : Nat) (takers : List (Nat × Subscription)) (l : List Byte) :
    State :=
  let (page, s) := s.fresh
  (bufferParts p.tokens).foldl (fun s e =>
    let i := if e.1 < 1024 then e.1 else e.1 - 1024 + 64 * p.tokens
    s.sendPart die p q page takers e.1 ((l.drop i).take e.2)) s

/-- Pages of a roll are still on their way to subscribers. -/
def State.pagesOut (s : State) (die roll : Nat) : Bool :=
  s.accesses.any fun e => e.2.isPageOf fun sub =>
    (s.subscription sub).die == die && (s.subscription sub).roll == roll && !e.2.performed

/-- A page of a die's Carillon has still to be taken by its own router. -/
def State.injecting (s : State) (die : Nat) : Bool :=
  let n := carillonNode die
  s.packets.any fun e =>
    match e.2.payload with
    | .page .. => e.2.src == n && e.2.via == none && !(s.node n).forks.contains e.1 &&
        (decide (e.2.loc = .router n) || decide (e.2.loc = .waitingFork n))
    | _ => false

/-- The walk of a pass goes on: one page is skipped, or read once and multicast when the page before has been handed to the
mesh; after the last, the pass ends once it has been delivered everywhere (R388). DEDUCED, log 35. -/
def execPageWalk (die roll : Nat) (s : State) : Out :=
  .next (
    match (s.roll die roll).running with
    | none => s
    | some p =>
      if p.heldRecord || p.snap.fence.any (fun id => (s.access? id).isSome) then s
      else
        let next (s : State) : State :=
          (s.modRoll die roll fun r => { r with running := some { p with page := p.page + 1, reads := [] } }).event
            (.pageWalk die roll)
        if p.snap.npages ≤ p.page then
          if s.pagesOut die roll then s
          else (s.modRoll die roll fun r => { r with running := none }).event (.passOpen die roll)
        else
          let takers := s.takers die roll p.page
          if takers.isEmpty then next (s.detachRows die roll)
          else
            let lines := pageLines p.snap p.page
            let s := s.startRows die roll p lines
            let reads := match (s.roll die roll).running with
              | some p => p.reads
              | none => []
            match takeReads reads (lines.map (·.2)) [] with
            | .wait => s
            | .fault c a =>
                if c = 0x09 then
                  ((s.detachRows die roll).modRoll die roll fun r =>
                    { r with running := some { p with heldRecord := true, reads := [] } }).push
                    (.notice (.page die roll a) p.snap.parish (chipOfNode (carillonNode die)))
                else s.failPass die roll c a
            | .bytes l => if s.injecting die then s else next (s.sendPage die p.snap p.page takers l))

/-- The window bytes of a line of a page, at a distance of its buffer at window offset `b` (R389). -/
def stagingBytes (v : Subscription) (b dist n : Nat) : List Nat :=
  (List.range n).map fun i => windowByte v.core v.wbase v.span (b + dist + i)

/-- The 16 lines of a buffer. -/
def stagingLines (v : Subscription) (b : Nat) : List Nat :=
  (List.range 16).map fun i => lineOf (windowByte v.core v.wbase v.span (b + 128 * i))

/-- The first line of a page lands once all 16 lines of its buffer are empty, and the others after it; with the last of them the
staging flag is counted (R389). A line that has landed already is acknowledged again, and one that finds the reply store full
gets a busy notice (R83). -/
def execStagingDelivery (pk : Nat) (s : State) : Out :=
  .next (match s.packet? pk with
    | none => s
    | some k =>
      match k.payload, k.loc with
      | .page (id :: _) _ bytes, .delivered =>
        match s.access? id with
        | none => (s.dropPacket pk).pokeForks
        | some a =>
          match a.req with
          | .page sub _ =>
            let v := s.subscription sub
            let b := a.addr.toNat
            if a.performed then ((s.dropPacket pk).respond id a k.dst).pokeForks
            else if !(s.node k.dst).storeRoom false 0 then (s.sendBusy pk id a k.dst).pokeForks
            else if a.found || (stagingLines v b).all (fun l => s.lineEmpty l) then
              let dst := stagingBytes v b a.dest bytes.length
              let s := s.examineWritten (s.deliverAt (dst.zip bytes)) dst a.parish
              let more := s.accesses.any fun e => e.1 != id && e.2.samePage a && !e.2.performed
              let begun (e : Nat × Access) : Nat × Access := if e.2.samePage a then (e.1, { e.2 with found := true }) else e
              let s : State := { s with accesses := s.accesses.map begun }
              let a : Access := { a with flag := if more then none else a.flag }
              (((s.concludeAt pk id a k.dst false [] true none []).pokeForks.event (.pageWalk v.die v.roll)).forgetSub sub)
            else s
          | _ => s.dropPacket pk
      | _, _ => s)

end Sys2Proof.Machine
end

