-- ==== Sys2Proof/Machine/Flags.lean ====
section
/-! DEFINITION. fflags: what each event sets (Table 9-12), and how an instruction adds to it. -/

namespace Sys2Proof.Machine

/-- The fflags bits of a result: NV 4, DZ 3, OF 2, UF 1, NX 0 (Table 9-11). -/
def Rounded.flags (r : Rounded) : Word :=
  BitVec.ofNat 64 ((if r.nv then 16 else 0) + (if r.dz then 8 else 0) + (if r.of' then 4 else 0) +
    (if r.uf then 2 else 0) + (if r.nx then 1 else 0))

/-- The bits are sticky (R229). -/
def State.orFlags (s : State) (fl : Word) : State := s.modHere fun c => { c with fflags := c.fflags ||| fl }

end Sys2Proof.Machine
end

