-- ==== Sys2Proof/Machine/Float.lean ====
section
/-! DEFINITION. Scalar floating point (10 R263 to R267). -/

namespace Sys2Proof.Machine

/-- The format P selects: f64 or f32 (R240). -/
def fmtOf (dbl : Bool) : Fmt := if dbl then fmtF64 else fmtF32

/-- An operand: bits 31:0 for .s, the whole register for .d (R240). -/
def fpOperand (dbl : Bool) (w : Word) : Val :=
  if dbl then decodeFloat fmtF64 w.toNat else decodeFloat fmtF32 (field w 0 32).toNat

/-- The rounding in force: codes 0 to 5, or fmode.RND for code 6; code 5 draws with counter issued[31:0]
(R224, R263). -/
def scalarRounding (s : State) (rm : BitVec 3) : Rounding :=
  let c := s.here
  let code := if rm = 6 then (field c.fmode 0 3).toNat else rm.toNat
  ⟨code, (rollZ (field c.seed 0 32) (field c.seedh 0 32) (field c.issued 0 32)).toNat / 256⟩

/-- Writes a result and its flags. -/
def fpResult (d : Field4) (r : Rounded) (s : State) : State :=
  ((s.setReg d (BitVec.ofNat 64 r.bits)).orFlags r.flags).finish

/-- A two-operand form: `f` gives the exact value and whether it is invalid. -/
def fpOp (g : Guard) (d a b : Field4) (dbl : Bool) (rm : BitVec 3) (f : Bool → Val → Val → Val × Bool)
    (s : State) : Out :=
  scalar g s fun s => withDest d s fun s =>
    let r := scalarRounding s rm
    let (v, nv) := f (r.code = 2) (fpOperand dbl (s.reg a)) (fpOperand dbl (s.reg b))
    fpResult d { roundFloat (fmtOf dbl) r false v with nv := nv } s

def execFadd (g : Guard) (d a b : Field4) (dbl : Bool) (rm : BitVec 3) (s : State) : Out :=
  fpOp g d a b dbl rm addVal s
def execFsub (g : Guard) (d a b : Field4) (dbl : Bool) (rm : BitVec 3) (s : State) : Out :=
  fpOp g d a b dbl rm (fun dn x y => addVal dn x y.neg) s
def execFmul (g : Guard) (d a b : Field4) (dbl : Bool) (rm : BitVec 3) (s : State) : Out :=
  fpOp g d a b dbl rm (fun _ x y => mulVal x y) s

/-- A form that parks for its result (R252). -/
def fpLong (n : Nat) (d : Field4) (r : Rounded) (s : State) : State :=
  longOp s n d.toNat (BitVec.ofNat 64 r.bits) (s.here.fflags ||| r.flags)

def execFdiv (g : Guard) (d a b : Field4) (dbl : Bool) (rm : BitVec 3) (s : State) : Out :=
  scalar g s fun s => withDest d s fun s =>
    let (v, nv, dz) := divVal (fpOperand dbl (s.reg a)) (fpOperand dbl (s.reg b))
    fpLong (if dbl then 20 else 12) d
      { roundFloat (fmtOf dbl) (scalarRounding s rm) false v with nv := nv, dz := dz } s

def execFsqrt (g : Guard) (d a : Field4) (dbl : Bool) (rm : BitVec 3) (s : State) : Out :=
  scalar g s fun s => withDest d s fun s =>
    let (v, nv) := sqrtVal (fpOperand dbl (s.reg a))
    fpLong (if dbl then 24 else 12) d { roundFloat (fmtOf dbl) (scalarRounding s rm) false v with nv := nv } s

/-- FMIN, FMAX, FNEG and FABS are exact and set no flag (Table 10-14). -/
def fpExact (g : Guard) (d a b : Field4) (dbl : Bool) (f : Val → Val → Val) (s : State) : Out :=
  scalar g s fun s => withDest d s fun s =>
    let v := f (fpOperand dbl (s.reg a)) (fpOperand dbl (s.reg b))
    (s.setReg d (BitVec.ofNat 64 (roundFloat (fmtOf dbl) nearestEven false v).bits)).finish

def execFmin (g : Guard) (d a b : Field4) (dbl : Bool) (s : State) : Out := fpExact g d a b dbl minVal s
def execFmax (g : Guard) (d a b : Field4) (dbl : Bool) (s : State) : Out := fpExact g d a b dbl maxVal s
def execFneg (g : Guard) (d a : Field4) (dbl : Bool) (s : State) : Out :=
  fpExact g d a a dbl (fun x _ => x.neg) s
def execFabs (g : Guard) (d a : Field4) (dbl : Bool) (s : State) : Out :=
  fpExact g d a a dbl (fun x _ => x.abs) s

/-- a·b + c with the product and the addend negated as the form says, exactly (R265). -/
def fmaVal (down negProduct negAddend : Bool) (a b c : Val) : Val × Bool :=
  let (p, nv) := mulVal a b
  if nv then (.nan, true)
  else addVal down (if negProduct then p.neg else p) (if negAddend then c.neg else c)

/-- The FMA group rounds by fmode.RND. -/
def fused (negProduct negAddend : Bool) (g : Guard) (d a b c : Field4) (dbl : Bool) (s : State) : Out :=
  scalar g s fun s => withDest d s fun s =>
    let r := scalarRounding s 6
    let (v, nv) := fmaVal (r.code = 2) negProduct negAddend (fpOperand dbl (s.reg a)) (fpOperand dbl (s.reg b))
      (fpOperand dbl (s.reg c))
    fpResult d { roundFloat (fmtOf dbl) r false v with nv := nv } s

def execFma (g : Guard) (d a b c : Field4) (dbl : Bool) (s : State) : Out := fused false false g d a b c dbl s
def execFms (g : Guard) (d a b c : Field4) (dbl : Bool) (s : State) : Out := fused false true g d a b c dbl s
def execFnma (g : Guard) (d a b c : Field4) (dbl : Bool) (s : State) : Out := fused true false g d a b c dbl s
def execFnms (g : Guard) (d a b c : Field4) (dbl : Bool) (s : State) : Out := fused true true g d a b c dbl s

/-- The conversions of Table 10-15. -/
def convertScalar (conv : Nat) (r : Rounding) (x : Word) : Rounded :=
  match conv with
  | 0 => roundFloat fmtF32 r false (fpOperand true x)
  | 1 => roundFloat fmtF64 r false (fpOperand false x)
  | 2 => roundFloat fmtF32 r false (valOfInt x.toInt)
  | 3 => roundFloat fmtF64 r false (valOfInt x.toInt)
  | 4 => roundFloat fmtF32 r false (valOfInt x.toNat)
  | 5 => roundFloat fmtF64 r false (valOfInt x.toNat)
  | 6 => roundInt 8 true r (fpOperand false x)
  | 7 => roundInt 8 true r (fpOperand true x)
  | 8 => roundInt 8 false r (fpOperand false x)
  | _ => roundInt 8 false r (fpOperand true x)

def execFcvt (g : Guard) (d a : Field4) (conv : BitVec 4) (rm : BitVec 3) (s : State) : Out :=
  scalar g s fun s => withDest d s fun s =>
    fpResult d (convertScalar conv.toNat (scalarRounding s rm) (s.reg a)) s

/-- The conditions of FCMP (R267), and whether lt or le met a NaN. -/
def fpCondition (cc : Nat) (x y : Val) : Bool × Bool :=
  let un := x.isNan || y.isNan
  match cc with
  | 0 => (eqVal x y, false)
  | 1 => (!eqVal x y, false)
  | 2 => (ltVal x y, un)
  | 3 => (ltVal x y || eqVal x y, un)
  | _ => (un, false)

def execFcmp (g : Guard) (p a b : Field4) (dbl : Bool) (cc : BitVec 3) (s : State) : Out :=
  scalar g s fun s =>
    let (v, nv) := fpCondition cc.toNat (fpOperand dbl (s.reg a)) (fpOperand dbl (s.reg b))
    ((s.setPred p v).orFlags (if nv then 16 else 0)).finish

end Sys2Proof.Machine
end

