-- ==== Sys2Proof/Machine/Crypto.lean ====
section
/-! DEFINITION. The signature checks that every image must pass (21 R437): RSA-3072 RSASSA-PSS with SHA-384, MGF1 with
SHA-384 and a 48-byte salt, and SLH-DSA-SHA2-192s in the pure form with an empty context. R437 names both algorithms; what
they compute is taken from the standards that define them. PRESUMED, log 10. -/

namespace Sys2Proof.Machine.Crypto

/-! ### Bytes and numbers, most significant byte first -/

/-- The `n` low bytes of a number. -/
def toBytes (n v : Nat) : List Byte := (List.range n).map fun i => BitVec.ofNat 8 (v / 256 ^ (n - 1 - i))

def ofBytes (bs : List Byte) : Nat := bs.foldl (fun v b => 256 * v + b.toNat) 0

/-- `n` bytes from byte `i`. -/
def slice (bs : List Byte) (i n : Nat) : List Byte := (bs.drop i).take n

def zeros (n : Nat) : List Byte := List.replicate n 0

/-- The first `count` numbers of `b` bits of a byte string. -/
def digits (bs : List Byte) (b count : Nat) : List Nat :=
  let v := ofBytes bs
  (List.range count).map fun i => v / 2 ^ (8 * bs.length - b * (i + 1)) % 2 ^ b

/-! ### SHA-2 -/

/-- The greatest number from `r` on, below `r + 2^n`, whose `k`-th power is at most `x`. -/
def rootFloor (k x : Nat) : Nat → Nat → Nat
  | 0, r => r
  | n + 1, r => rootFloor k x n (if (r + 2 ^ n) ^ k ≤ x then r + 2 ^ n else r)

/-- The first 64 bits of the fraction of the `k`-th root of a number. -/
def rootFraction (k p : Nat) : Nat := rootFloor k (p * 2 ^ (64 * k)) 70 0 % 2 ^ 64

/-- The first 80 primes. -/
def primes : List Nat := (List.range 410).filter fun p => decide (2 ≤ p) && (List.range p).all fun d => d < 2 || p % d != 0

/-- A hash function of the SHA-2 family: bits of its words, rounds, the shifts of its four functions, initial words, and
bytes of its result. -/
structure Sha where
  bits : Nat
  rounds : Nat
  big0 : Nat × Nat × Nat
  big1 : Nat × Nat × Nat
  small0 : Nat × Nat × Nat
  small1 : Nat × Nat × Nat
  initial : List Nat
  size : Nat
  deriving DecidableEq, Repr

def roots (first : Nat) : List Nat := ((primes.drop first).take 8).map (rootFraction 2)

def sha256 : Sha :=
  { bits := 32, rounds := 64, big0 := (2, 13, 22), big1 := (6, 11, 25), small0 := (7, 18, 3), small1 := (17, 19, 10),
    initial := (roots 0).map (· / 2 ^ 32), size := 32 }

def sha512 : Sha :=
  { bits := 64, rounds := 80, big0 := (28, 34, 39), big1 := (14, 18, 41), small0 := (1, 8, 7), small1 := (19, 61, 6),
    initial := roots 0, size := 64 }

def sha384 : Sha := { sha512 with initial := roots 8, size := 48 }

def Sha.rotate (h : Sha) (x n : Nat) : Nat := (x / 2 ^ n ||| x * 2 ^ (h.bits - n)) % 2 ^ h.bits

def Sha.big (h : Sha) (r : Nat × Nat × Nat) (x : Nat) : Nat := h.rotate x r.1 ^^^ h.rotate x r.2.1 ^^^ h.rotate x r.2.2

def Sha.small (h : Sha) (r : Nat × Nat × Nat) (x : Nat) : Nat := h.rotate x r.1 ^^^ h.rotate x r.2.1 ^^^ x / 2 ^ r.2.2

/-- The words of a block's schedule, the last first. -/
def Sha.schedule (h : Sha) : Nat → List Nat → List Nat
  | 0, l => l
  | n + 1, l =>
      let w (i : Nat) : Nat := l.getD (i - 1) 0
      h.schedule n ((h.small h.small1 (w 2) + w 7 + h.small h.small0 (w 15) + w 16) % 2 ^ h.bits :: l)

/-- One round on the eight working words, with the sum of its schedule word and constant. -/
def Sha.round (h : Sha) (v : List Nat) (k : Nat) : List Nat :=
  match v with
  | [a, b, c, d, e, f, g, x] =>
      let m := 2 ^ h.bits
      let t1 := x + h.big h.big1 e + ((e &&& f) ^^^ ((m - 1 - e) &&& g)) + k
      let t2 := h.big h.big0 a + ((a &&& b) ^^^ (a &&& c) ^^^ (b &&& c))
      [(t1 + t2) % m, a, b, c, (d + t1) % m, e, f, g]
  | l => l

/-- One block. -/
def Sha.compress (h : Sha) (constants v : List Nat) (block : List Byte) : List Nat :=
  let ws := (h.schedule (h.rounds - 16) (digits block h.bits 16).reverse).reverse
  let out := (ws.zip constants).foldl (fun v k => h.round v (k.1 + k.2)) v
  (v.zip out).map fun x => (x.1 + x.2) % 2 ^ h.bits

/-- Applies blocks of a message in order. -/
def Sha.blocks (h : Sha) (constants : List Nat) : Nat → List Nat → List Byte → List Nat
  | 0, v, _ => v
  | n + 1, v, bs => h.blocks constants n (h.compress constants v (bs.take (2 * h.bits))) (bs.drop (2 * h.bits))

/-- The hash of a message, which is padded to whole blocks with a one bit, zeros and its length. -/
def Sha.hash (h : Sha) (msg : List Byte) : List Byte :=
  let block := 2 * h.bits
  let len := h.bits / 4
  let pad := (2 * block - 1 - len - msg.length % block) % block
  let bs := msg ++ [0x80] ++ zeros pad ++ toBytes len (8 * msg.length)
  let constants := (primes.take h.rounds).map fun p => rootFraction 3 p / 2 ^ (64 - h.bits)
  ((h.blocks constants (bs.length / block) h.initial bs).flatMap (toBytes (h.bits / 8))).take h.size

/-- MGF1: a mask of `n` bytes. -/
def Sha.mask (h : Sha) (seed : List Byte) (n : Nat) : List Byte :=
  ((List.range ((n + h.size - 1) / h.size)).flatMap fun i => h.hash (seed ++ toBytes 4 i)).take n

/-! ### RSASSA-PSS with a modulus of 3,072 bits -/

/-- `b^e mod m`, for an exponent below `2^n`. -/
def powMod (m b e : Nat) : Nat → Nat
  | 0 => 1 % m
  | n + 1 =>
      let r := powMod m b (e / 2) n
      r * r % m * (if e % 2 = 1 then b else 1) % m

/-- An RSA-3072 public key: the modulus in 384 bytes, then the exponent. -/
def rsaModulus (key : List Byte) : Nat := ofBytes (key.take 384)
def rsaExponent (key : List Byte) : Nat := ofBytes (key.drop 384)

/-- The encoded message of a signature, 384 bytes, is that of a message (RSASSA-PSS). -/
def pssMatches (msg em : List Byte) : Bool :=
  let masked := em.take 335
  let h := slice em 335 48
  let db := (masked.zip (sha384.mask h 335)).map fun x => x.1 ^^^ x.2
  let db := (db.take 1).map (· &&& 0x7F) ++ db.drop 1
  let salt := db.drop 287
  slice em 383 1 == [0xBC] && ofBytes (masked.take 1) < 0x80 && db.take 287 == zeros 286 ++ [1] &&
    sha384.hash (zeros 8 ++ sha384.hash msg ++ salt) == h

/-- Whether an RSA-3072 RSASSA-PSS signature of a message verifies under a key. -/
def rsaVerifies (key msg sig : List Byte) : Bool :=
  let m := rsaModulus key
  let e := rsaExponent key
  decide (2 ^ 3071 ≤ m) && sig.length == 384 && decide (ofBytes sig < m) &&
    pssMatches msg (toBytes 384 (powMod m (ofBytes sig) e (8 * key.length)))

/-! ### SLH-DSA-SHA2-192s -/

/-- Bytes of a node, nodes of a WOTS signature, height of a tree and layers of trees, height and number of FORS trees. -/
def nodeBytes : Nat := 24
def wotsLength : Nat := 51
def treeHeight : Nat := 9
def layers : Nat := 7
def forsHeight : Nat := 14
def forsTrees : Nat := 17

/-- A hash address: layer, tree, type, and the three words that depend on the type. -/
structure Adrs where
  layer : Nat
  tree : Nat
  type : Nat
  w1 : Nat
  w2 : Nat
  w3 : Nat
  deriving DecidableEq, Repr

/-- An address in its compressed form. -/
def Adrs.bytes (a : Adrs) : List Byte :=
  toBytes 1 a.layer ++ toBytes 8 a.tree ++ toBytes 1 a.type ++ toBytes 4 a.w1 ++ toBytes 4 a.w2 ++ toBytes 4 a.w3

/-- The function F, on one node. -/
def hashF (seed : List Byte) (a : Adrs) (x : List Byte) : List Byte :=
  (sha256.hash (seed ++ zeros (64 - nodeBytes) ++ a.bytes ++ x)).take nodeBytes

/-- The functions H and T, on several nodes. -/
def hashT (seed : List Byte) (a : Adrs) (x : List Byte) : List Byte :=
  (sha512.hash (seed ++ zeros (128 - nodeBytes) ++ a.bytes ++ x)).take nodeBytes

/-- `n` steps of a chain from step `i`. -/
def chain (seed : List Byte) (a : Adrs) : Nat → Nat → List Byte → List Byte
  | 0, _, x => x
  | n + 1, i, x => chain seed a n (i + 1) (hashF seed { a with w3 := i } x)

/-- The digits that a WOTS signature of a node signs: those of the node, then those of their checksum. -/
def wotsDigits (m : List Byte) : List Nat :=
  let ds := digits m 4 48
  ds ++ digits (toBytes 2 ((ds.map (15 - ·)).sum * 16)) 4 3

/-- The public key of a WOTS signature of a node. -/
def wotsKey (seed : List Byte) (a : Adrs) (m sig : List Byte) : List Byte :=
  let tops := (wotsDigits m).zipIdx.flatMap fun e =>
    chain seed { a with w2 := e.2 } (15 - e.1) e.1 (slice sig (nodeBytes * e.2) nodeBytes)
  hashT seed { a with type := 1, w2 := 0, w3 := 0 } tops

/-- The root that an authentication path gives from the node at `idx`; `k` is the height reached. -/
def climb (seed : List Byte) (a : Adrs) : Nat → Nat → Nat → List Byte → List Byte → List Byte
  | 0, _, _, x, _ => x
  | n + 1, k, idx, x, auth =>
      let y := auth.take nodeBytes
      let x := hashT seed { a with w2 := k + 1, w3 := idx / 2 } (if idx % 2 = 0 then x ++ y else y ++ x)
      climb seed a n (k + 1) (idx / 2) x (auth.drop nodeBytes)

/-- The root of the tree of an XMSS signature of a node by leaf `idx`. -/
def xmssRoot (seed : List Byte) (layer tree idx : Nat) (m sig : List Byte) : List Byte :=
  let leaf := wotsKey seed { layer := layer, tree := tree, type := 0, w1 := idx, w2 := 0, w3 := 0 } m sig
  climb seed { layer := layer, tree := tree, type := 2, w1 := 0, w2 := 0, w3 := 0 } treeHeight 0 idx leaf
    (sig.drop (nodeBytes * wotsLength))

/-- The root of the top tree that the signatures of `n` layers give, from layer `j`. -/
def hyperRoot (seed : List Byte) : Nat → Nat → Nat → Nat → List Byte → List Byte → List Byte
  | 0, _, _, _, m, _ => m
  | n + 1, j, tree, idx, m, sig =>
      hyperRoot seed n (j + 1) (tree / 2 ^ treeHeight) (tree % 2 ^ treeHeight) (xmssRoot seed j tree idx m sig)
        (sig.drop (nodeBytes * (wotsLength + treeHeight)))

/-- The public key of a FORS signature of a digest. -/
def forsKey (seed : List Byte) (tree leaf : Nat) (md sig : List Byte) : List Byte :=
  let a : Adrs := { layer := 0, tree := tree, type := 3, w1 := leaf, w2 := 0, w3 := 0 }
  let rootsOf := (digits md forsHeight forsTrees).zipIdx.flatMap fun e =>
    let part := sig.drop (nodeBytes * (forsHeight + 1) * e.2)
    let idx := e.2 * 2 ^ forsHeight + e.1
    climb seed a forsHeight 0 idx (hashF seed { a with w3 := idx } (part.take nodeBytes)) (part.drop nodeBytes)
  hashT seed { a with type := 4 } rootsOf

/-- Whether an SLH-DSA-SHA2-192s signature of a message, pure and with an empty context, verifies under a key of 48 bytes: its
seed, then its root. -/
def slhVerifies (key msg sig : List Byte) : Bool :=
  let seed := key.take nodeBytes
  let root := slice key nodeBytes nodeBytes
  let r := sig.take nodeBytes
  let d := sha512.mask (r ++ seed ++ sha512.hash (r ++ seed ++ root ++ [0, 0] ++ msg)) 39
  let tree := ofBytes (slice d 30 7) % 2 ^ 54
  let leaf := ofBytes (slice d 37 2) % 2 ^ 9
  let fors := nodeBytes * forsTrees * (forsHeight + 1)
  sig.length == 16224 && key.length == 48 &&
    hyperRoot seed layers 0 tree leaf (forsKey seed tree leaf (d.take 30) (slice sig nodeBytes fors)) (sig.drop (nodeBytes + fors)) ==
      root

end Sys2Proof.Machine.Crypto
end

