-- ==== Sys2Proof/Machine/System.lean ====
section
/-! DEFINITION. The system registers: reading, writing, GETS and SETS (10 R241 to R248). -/

namespace Sys2Proof.Machine

/-- status (Table 10-5). -/
def Slot.status (c : Slot) : Word :=
  BitVec.ofNat 64 ((if c.pl then 1 else 0) + (if c.ppl then 2 else 0) + (if c.ih then 4 else 0) +
    (if c.wf then 8 else 0))

/-- Free rows of a mapped name (R163): those from its shape's row count up. -/
def Slot.freeRows (c : Slot) (t : Nat) : Nat :=
  if (c.tiles.toList.getD t {}).mapped then 16 - (field (c.shapes.toList.getD t 0) 5 5).toNat else 0

/-- tfree (R164). A wayfarer away reads 0 (R180). -/
def Slot.tfree (c : Slot) : Word :=
  if c.wf then 0 else BitVec.ofNat 64 ((List.range 12).foldl (fun v n => v + c.freeRows n * 2 ^ (5 * n)) 0)

/-- spillm (R166). -/
def Slot.spillm (c : Slot) : Word :=
  if c.wf then 0
  else BitVec.ofNat 64 ((if c.borrowMode then 1 else 0) +
    match c.lent with
    | some n => 16 + 2 * n
    | none => 0)

/-- toll (R187). -/
def State.tollReg (s : State) (t : Nat) : Word :=
  let n := nodeOfThread t
  let d := s.die (dieOfNode n)
  let held := (s.node n).toll.held
  BitVec.ofNat 64 ((if held then 1 else 0) +
    (if !held && !(s.core (coreOfThread t)).loom.isEmpty then 2 else 0) + (if d.demand then 4 else 0) +
    d.tollCount % 4096 * 2 ^ 16)

/-- The value of system register `n` for thread `t` (Table 10-4); none for an unassigned number. -/
def State.sysReg (s : State) (t n : Nat) : Option Word :=
  let c := s.slot t
  match n with
  | 0x000 => some c.status
  | 0x001 => some c.cause
  | 0x002 => some c.epc
  | 0x003 => some c.tval
  | 0x004 => some c.tvec
  | 0x005 => some c.tscr
  | 0x010 => some ((s.core (coreOfThread t)).cyc - 1)
  | 0x011 => some c.issued
  | 0x020 => some c.fmode
  | 0x021 => some c.fflags
  | 0x030 => some c.wbase
  | 0x031 => some c.wsize
  | 0x040 => some c.tfree
  | 0x041 => some c.spillm
  | 0x050 => some c.race
  | 0x060 => some (BitVec.ofNat 64 (s.outw t))
  | 0x061 => some (BitVec.ofNat 64 (s.outr t))
  | 0x070 => some (s.tollReg t)
  | 0x080 => some c.seed
  | 0x081 => some c.seedh
  | _ =>
      if 0x100 ≤ n ∧ n ≤ 0x107 then some (if c.wf then 0 else c.lvl.toList.getD (n - 0x100) 0)
      else if 0x108 ≤ n ∧ n ≤ 0x10F then some (if c.wf then 0 else c.lvn.toList.getD (n - 0x108) 0)
      else none

/-- Who may write a register (Table 10-4). -/
inductive SetsRight where
  | any | supervisor | never | unassigned
  deriving DecidableEq, Repr

def setsRight (n : Nat) : SetsRight :=
  if n = 0 then .supervisor
  else if n = 1 ∨ n = 2 ∨ n = 3 ∨ n = 4 ∨ n = 5 ∨ n = 0x20 ∨ n = 0x21 ∨ n = 0x50 ∨ n = 0x80 ∨ n = 0x81 then .any
  else if n = 0x10 ∨ n = 0x11 ∨ n = 0x30 ∨ n = 0x31 ∨ n = 0x40 ∨ n = 0x41 ∨ n = 0x60 ∨ n = 0x61 ∨ n = 0x70 ∨
    (0x100 ≤ n ∧ n ≤ 0x10F) then .never
  else .unassigned

/-- What SETS stores, each register by its own rule for reserved bits (R139, R225, R228, R229, R242,
R243, R248). -/
def Slot.setSys (c : Slot) (n : Nat) (v : Word) : Slot :=
  match n with
  | 0x000 => { c with pl := v.getLsbD 0, ppl := v.getLsbD 1, ih := v.getLsbD 2 }
  | 0x001 => { c with cause := v &&& 0xFF }
  | 0x002 => { c with epc := v }
  | 0x003 => { c with tval := v }
  | 0x004 => { c with tvec := v &&& ~~~(3 : Word) }
  | 0x005 => { c with tscr := v }
  | 0x020 => { c with fmode := if v &&& 7 = 6 ∨ v &&& 7 = 7 then 0 else v &&& 7 }
  | 0x021 => { c with fflags := v &&& 0x1F }
  | 0x050 => { c with race := v &&& ~~~(0xC : Word) }
  | 0x080 => { c with seed := v &&& 0xFFFFFFFF }
  | 0x081 => { c with seedh := v &&& 0xFFFFFFFF }
  | _ => c

/-- GETS (R247): x11 to x14 as destination fail first (step 7), then an unassigned number (step 8). -/
def execGets (g : Guard) (d : Field4) (n : BitVec 12) (s : State) : Out :=
  scalar g s fun s => withDest d s fun s =>
    match s.sysReg s.cur n.toNat with
    | some v => (s.setReg d v).finish
    | none => s.trap 0x02 (n.setWidth 64)

/-- SETS (R248): privilege at step 6, an unassigned number at step 8 (R201, R241). -/
def execSets (g : Guard) (a : Field4) (n : BitVec 12) (s : State) : Out :=
  scalar g s fun s =>
    match setsRight n.toNat with
    | .unassigned => s.trap 0x02 (n.setWidth 64)
    | .never => s.trap 0x04 s.wordVal
    | .supervisor =>
        if s.here.pl then (s.modHere fun c => c.setSys n.toNat (s.reg a)).finish else s.trap 0x04 s.wordVal
    | .any => (s.modHere fun c => c.setSys n.toNat (s.reg a)).finish

end Sys2Proof.Machine
end

