-- ==== Sys2Proof/Machine/Tiles.lean ====
section
/-! DEFINITION. Shapes, tile elements and spilling: TSHAPE, TGET, TSET, PARK, UNPARK, BORROW, RETURN, XGET and XPUT
(11 R295 to R299; 07 R162 to R166). -/

namespace Sys2Proof.Machine

/-! ### Shapes (R296) -/

/-- A word obeys Table 11-6. -/
def shapeWordOk (w : Word) : Bool :=
  let h := shapeOf w
  let size := codeSize h.elem
  w == 0 || (field w 20 44 == 0 && size != 0 && decide (1 ≤ h.rows ∧ h.rows ≤ 16) && decide (1 ≤ h.cols ∧ h.cols ≤ 64 / size))

/-- Sets the shape word of tile `t`. -/
def setShape (t : Field4) (w : Word) (s : State) : State :=
  atHome s fun s =>
    if !(s.here.tile t).mapped then s.trap 0x0D (t.setWidth 64)
    else if !shapeWordOk w then s.trap 0x0E w
    else (s.modHere fun c => { c with shapes := c.shapes.setIfInBounds t.toNat w }).finish

def execTshape (g : Guard) (t : Field4) (elem : BitVec 5) (rows : BitVec 4) (cols : BitVec 6) (s : State) : Out :=
  scalar g s fun s =>
    setShape t (BitVec.ofNat 64 (elem.toNat + (rows.toNat + 1) * 2 ^ 5 + (cols.toNat + 1) * 2 ^ 10)) s

def execTshapeReg (g : Guard) (t a : Field4) (s : State) : Out := scalar g s fun s => setShape t (s.reg a) s

/-! ### Elements (R297) -/

/-- Byte `i` of row `r` of a tile of the current thread. -/
def State.tileByte (s : State) (t : Field4) (r i : Nat) : Nat :=
  blockByte (coreOfThread s.cur) (s.here.tile t).block.toNat r i

/-- Finds element `e` of tile `t`: its first byte and its format (a binary8 code under fm.XD). -/
def withElement (t : Field4) (e : Word) (s : State) (k : Nat → Elem → State → State) : State :=
  atHome s fun s =>
    let h := shapeOf (s.here.shape t)
    if !(s.here.tile t).mapped then s.trap 0x0D (t.setWidth 64)
    else
      match elemOf h.elem ((s.reg 12).getLsbD 17) with
      | none => s.trap 0x0E e
      | some el =>
          if h.rows * h.cols ≤ e.toNat then s.trap 0x0E e
          else k (s.tileByte t (e.toNat / h.cols) (el.bytes * (e.toNat % h.cols))) el s

/-- What TGET writes for the bits of an element. -/
def elementOut (el : Elem) (bits : Word) : Word :=
  match el with
  | .int n sg => extend n sg bits
  | .float f =>
      if f.bytes = 8 ∨ f.bytes = 4 then bits else (toF32 (decodeFloat f bits.toNat)).setWidth 64

/-- What TSET stores of a register. -/
def elementIn (el : Elem) (v : Word) : Word :=
  match el with
  | .int _ _ => v
  | .float f =>
      if f.bytes = 8 ∨ f.bytes = 4 then v
      else BitVec.ofNat 64 (roundFloat f nearestEven false (f32Val (v.setWidth 32))).bits

/-- A local read of `n` bytes at byte `pa` of the current core, whose value goes to register `d` through `f` (R59, R125). -/
def localRead (pa n : Nat) (d : Field4) (f : Word → Word) (s : State) : State :=
  localLoad pa n (placeOf (coreOfThread s.cur) (pa % 2 ^ 16)) s fun v s => (s.setReg d (f v)).finish

/-- A local write of the low `n` bytes of `v`, performed at issue. -/
def localWrite (pa n : Nat) (v : Word) (s : State) : State :=
  localStore pa n (placeOf (coreOfThread s.cur) (pa % 2 ^ 16)) v s

def execTget (g : Guard) (d t b : Field4) (s : State) : Out :=
  scalar g s fun s => withDest d s fun s => withElement t (s.reg b) s fun pa el s =>
    localRead pa el.bytes d (elementOut el) s

def execTset (g : Guard) (d t b : Field4) (s : State) : Out :=
  scalar g s fun s => withElement t (s.reg b) s fun pa el s =>
    localWrite pa el.bytes (elementIn el (s.reg d)) s

/-! ### PARK and UNPARK (R163, R298) -/

/-- Finds word `w` of the free rows of tile `t`. -/
def withFreeWord (t : Field4) (w : Word) (s : State) (k : Nat → State → State) : State :=
  atHome s fun s =>
    if 128 ≤ w.toNat ∨ (s.here.tile t).mapped ∧ w.toNat / 8 < (shapeOf (s.here.shape t)).rows then s.trap 0x0E w
    else if !(s.here.tile t).mapped then s.trap 0x0D (t.setWidth 64)
    else k (s.tileByte t (w.toNat / 8) (8 * (w.toNat % 8))) s

def execPark (g : Guard) (a t c : Field4) (s : State) : Out :=
  scalar g s fun s => withFreeWord t (s.reg c) s fun pa s => localWrite pa 8 (s.reg a) s

def execUnpark (g : Guard) (d t c : Field4) (s : State) : Out :=
  scalar g s fun s => withDest d s fun s => withFreeWord t (s.reg c) s fun pa s => localRead pa 8 d id s

/-! ### Lent slots (R165, R299) -/

/-- A landed wayfarer waits in the core's arrival places. -/
def Core.hasWaiting (c : Core) : Bool :=
  c.arrivals.any fun a =>
    match a with
    | .landed _ => true
    | _ => false

/-- Slots that admitted members of a core hold (R174): those that slot levels name, and how many others. DEDUCED, log 53. -/
def State.heldSlots (s : State) (core : Nat) : List Nat × Nat :=
  s.tasks.foldl (fun acc t => t.2.members.foldl (fun acc m =>
    if m.core == core && decide (m.state = .admitted) then
      match m.slot with
      | some i => (acc.1 ++ [i], acc.2)
      | none => (acc.1, acc.2 + 1)
    else acc) acc) ([], 0)

/-- Free slots of a core that no admitted member holds by name; 6 and 7 only when no wayfarer waits (R177). -/
def State.spareSlots (s : State) (core : Nat) : List Nat :=
  let named := (s.heldSlots core).1
  (List.range (if (s.core core).hasWaiting then 6 else 8)).filter fun i =>
    decide ((s.slot (core * 8 + i)).state = .free) && !named.contains i

/-- Spare slots of a core that may go to `n` others: those beyond what its admitted members hold (R174). -/
def State.looseSlots (s : State) (core n : Nat) : List Nat :=
  let l := s.spareSlots core
  if (s.heldSlots core).2 + n ≤ l.length then l else []

/-- The lowest slot of a core that BORROW may take (R177, R299). -/
def State.lowestFree (s : State) (core : Nat) : Option Nat := (s.looseSlots core 1).head?

def execBorrow (g : Guard) (s : State) : Out :=
  scalar g s fun s =>
    if !s.here.borrowMode then s.trap 0x04 s.wordVal
    else if s.here.wf then s.trap 0x13 s.wordVal
    else if s.here.lent.isSome then s.finish
    else
      let core := coreOfThread s.cur
      match s.lowestFree core with
      | none => s.park .borrow
      | some i =>
          let lent : Slot := { state := .lent }
          ((s.setSlot (core * 8 + i) lent).modHere fun c => { c with lent := some i }).finish

def execReturnLent (g : Guard) (s : State) : Out :=
  scalar g s fun s =>
    match s.here.lent with
    | none => s.finish
    | some i =>
        ((s.modHere fun c => { c with lent := none }).freeSlot (coreOfThread s.cur * 8 + i)).finish

/-- A register of the lent slot: a slot must be lent (step 6), then n is from 1 to 10 (step 8); `d` is the destination
of step 7. -/
def withLent (d n : Field4) (s : State) (k : Nat → State → State) : State :=
  match s.here.lent with
  | none => s.trap 0x04 s.wordVal
  | some i => withDest d s fun s =>
      if n = 0 ∨ 11 ≤ n.toNat then s.trap 0x02 s.wordVal else k (coreOfThread s.cur * 8 + i) s

def execXget (g : Guard) (d n : Field4) (s : State) : Out :=
  scalar g s fun s => withLent d n s fun t s => (s.setReg d (s.regOf t n)).finish

def execXput (g : Guard) (n b : Field4) (s : State) : Out :=
  scalar g s fun s => withLent 0 n s fun t s => (s.setRegOf t n (s.reg b)).finish

end Sys2Proof.Machine
end

