-- ==== Sys2Proof/Machine/Spill.lean ====
section
/-! DEFINITION. What the spill engine writes: rings of the parish control block, save records, notices, and the claim and
restoration of storage (14 R369 to R373; 07 R183). -/

namespace Sys2Proof.Machine

/-! ### Rings (R373) -/

def freeRecordRing : Nat := 0x010
def noticeRing : Nat := 0x018
def imageRing : Nat := 0x020
def resumeRing : Nat := 0x028
def freeObjectRing : Nat := 0x030
def freeFrameRing : Nat := 0x038

/-- The first byte of a ring that a chip's control block names. -/
def State.ringByte (s : State) (chip parish off : Nat) : Option Nat :=
  let w := s.controlWord chip parish off
  if isPlace w then some (placeByte chip w) else none

/-- DEQ from a ring of the control block: its entry, unless the ring refuses. -/
def State.deqRing (s : State) (chip parish off : Nat) : Option (Word × State) :=
  match s.ringByte chip parish off with
  | none => none
  | some pa =>
    match ringOf s pa with
    | some (head, tail, cap) =>
        if head = tail then none
        else some (s.loadLE (pa + 32 + 8 * (head.toNat % cap)) 8, s.write (bytesAt pa 8 (head + 1)))
    | none => none

/-- ENQ on a ring of the control block, unless the ring refuses. -/
def State.enqRing (s : State) (chip parish off : Nat) (v : Word) : Option State :=
  match s.ringByte chip parish off with
  | none => none
  | some pa =>
    match ringOf s pa with
    | some (head, tail, cap) =>
        if tail - head = BitVec.ofNat 64 cap then none
        else
          some ((s.write (bytesAt (pa + 32 + 8 * (tail.toNat % cap)) 8 v)).write (bytesAt (pa + 8) 8 (tail + 1)))
    | none => none

/-- A record, or another entry, goes back to its ring. DEDUCED, log 70. -/
def State.giveBack (s : State) (chip parish off : Nat) (v : Word) : State := (s.enqRing chip parish off v).getD s

/-- Takes a free record and appends it to the notice ring, unless either ring refuses (R369): its handle and first byte. DEDUCED, log 56. -/
def State.takeRecord (s : State) (chip parish : Nat) : Option (Word × Nat × State) :=
  match s.deqRing chip parish freeRecordRing with
  | none => none
  | some (h, s) =>
    match s.resolve chip parish h, s.enqRing chip parish noticeRing h with
    | some pa, some s => some (h, pa, s)
    | _, _ => none

/-! ### Records (Table 14-2) -/

/-- The 144 words of a record with the given words at their offsets, and zero elsewhere. -/
def recordWords (ws : List (Nat × Word)) : List Word :=
  (List.range 144).map fun i => ((ws.find? (·.1 == 8 * i)).map (·.2)).getD 0

def State.writeRecord (s : State) (pa : Nat) (ws : List (Nat × Word)) : State :=
  s.write ((consecutive pa 1152).zip ((recordWords ws).flatMap fun w => littleEndian w 8))

/-- The word at an offset of the record at `pa`. -/
def State.recWord (s : State) (pa off : Nat) : Word := s.loadLE (pa + off) 8

/-- Words at consecutive offsets from `off`. -/
def wordsAt (off : Nat) (ws : List Word) : List (Nat × Word) := ws.zipIdx.map fun e => (off + 8 * e.2, e.1)

/-- The header word (Table 14-3). -/
def headerWord (reason slot nops : Nat) (lent wf um : Bool) : Word :=
  BitVec.ofNat 64 (1 + reason * 2 ^ 16 + slot * 2 ^ 24 + (if lent then 2 ^ 27 else 0) + (if wf then 2 ^ 28 else 0) +
    nops * 2 ^ 29 + (if um then 2 ^ 32 else 0))

/-- A tile name's word. -/
def TileName.word (t : TileName) : Word :=
  BitVec.ofNat 64 (t.block.toNat + (if t.mapped then 16 else 0) + (if t.shared then 32 else 0))

def tileOfWord (w : Word) : TileName := { block := field w 0 4, mapped := w.getLsbD 4, shared := w.getLsbD 5 }

/-- Words of a list of a fixed length, zero beyond its end. -/
def padded (n : Nat) (l : List Word) : List Word := (List.range n).map fun i => l.getD i 0

/-- The completion records of a context and their places: those of its sequence entries, and in the fifth place that of the TX
that it is parked in (Table 14-2). -/
def State.listed (s : State) (c : Slot) (kept : Option Wait) : List (Nat × EngOp) :=
  ((c.seqs.take 4).zipIdx.filterMap fun q => (s.op? q.1.op).map fun o => (q.2, o)) ++
    match kept with
    | some (.command op) | some (.queue op) => ((s.op? op).map fun o => (4, o)).toList
    | _ => []

/-- The words of a context's record; `kept` is what it stays parked in. -/
def State.contextWords (s : State) (t reason : Nat) (pc : Word) (kept : Option Wait) : List (Nat × Word) :=
  let c := s.slot t
  let ops := s.listed c kept
  let regs (t : Nat) (a n : Nat) : List Word := (List.range n).map fun i => s.regOf t (BitVec.ofNat 4 (a + i))
  let tr := c.trap.getD (0, 0, 0)
  let tbl := c.acquired.flatMap fun e => [identityOf e.1, BitVec.ofNat 64 e.2]
  let wait : List Word := match c.wait with
    | some w => [w.flag, w.n, BitVec.ofNat 64 (1 + (if w.subtracts then 2 else 0) + (if w.received then 4 else 0))]
    | none => []
  [(0, headerWord reason (slotOfThread t) ops.length c.lent.isSome c.wf c.unreachable.isSome), (0x008, identityOf t),
   (0x010, pc)] ++
    wordsAt 0x018 (regs t 1 14) ++ [(0x088, c.preds.setWidth 64)] ++
    wordsAt 0x090 [c.status, c.cause, c.epc, c.tval, c.tvec, c.tscr, c.fmode, c.fflags, c.seed, c.seedh, c.race, c.issued,
      c.wbase, c.wsize] ++
    wordsAt 0x100 (c.lvl.toList ++ c.lvn.toList) ++ wordsAt 0x180 (c.tiles.toList.map TileName.word) ++
    wordsAt 0x1E0 c.shapes.toList ++ wordsAt 0x240 c.k.toList ++
    wordsAt 0x2C0 (BitVec.ofNat 64 c.interval :: padded 16 tbl) ++ wordsAt 0x348 (padded 3 wait) ++
    wordsAt 0x360 (match c.lent with
      | some i => regs (coreOfThread t * 8 + i) 1 10
      | none => []) ++
    wordsAt 0x3B0 [tr.1, tr.2.1, tr.2.2] ++ [(0x3D8, c.unreachable.getD 0)] ++
    ops.flatMap fun o => wordsAt (0x3E0 + 32 * o.1) o.2.record

/-- fmode holds a rounding code of 0 to 5 (R228). -/
def fmodeWord (v : Word) : Word := if v &&& 7 = 6 ∨ v &&& 7 = 7 then 0 else v &&& 7

/-- The registers that a resumption takes from a record, over what the core has kept of the context (R183): reserved bits of a
register read 0 whatever the record holds (R225, R228, R229). -/
def State.restored (s : State) (pa : Nat) (c : Slot) : Slot :=
  let w (off : Nat) : Word := s.recWord pa off
  let vec (n : Nat) (off : Nat) : Vector Word n := Vector.ofFn fun i => w (off + 8 * i.val)
  let st := w 0x090
  let pairs := (List.range 8).filterMap fun i =>
    if c.acquired.length ≤ i ∧ w (0x2C8 + 16 * i) = 0 ∧ w (0x2D0 + 16 * i) = 0 then none
    else some (threadOfIdentity (w (0x2C8 + 16 * i)), (w (0x2D0 + 16 * i)).toNat)
  { c with
    pc := w 0x010, x := (Vector.ofFn fun i : Fin 15 => if i.val = 0 then 0 else w (0x010 + 8 * i.val)),
    preds := (w 0x088).setWidth 16, pl := st.getLsbD 0, ppl := st.getLsbD 1, ih := st.getLsbD 2,
    cause := w 0x098, epc := w 0x0A0, tval := w 0x0A8, tvec := w 0x0B0, tscr := w 0x0B8, fmode := fmodeWord (w 0x0C0),
    fflags := w 0x0C8 &&& 0x1F, seed := w 0x0D0 &&& 0xFFFFFFFF, seedh := w 0x0D8 &&& 0xFFFFFFFF, race := w 0x0E0, issued := w 0x0E8, wbase := w 0x0F0,
    wsize := w 0x0F8, lvl := vec 8 0x100, lvn := vec 8 0x140,
    tiles := Vector.ofFn fun i : Fin 12 => tileOfWord (w (0x180 + 8 * i.val)), shapes := vec 12 0x1E0, k := vec 16 0x240,
    interval := (w 0x2C0).toNat, acquired := pairs,
    unreachable := if (w 0).getLsbD 32 then some (w 0x3D8) else none,
    trap := none, preempt := none, savedIn := none, resuming := false }

/-! ### Claims of storage (R183, R371) -/

/-- Byte `i` of a storage image's layout, as the byte of the core that it images: the window, then the private block of
each tile name. -/
def imageByte (core : Nat) (c : Slot) (i : Nat) : Option Nat :=
  if i < c.span then some (coreByte core (c.wbase.toNat + i))
  else if 0x8000 ≤ i ∧ i < 0x8000 + 0x400 * 12 then
    let n := (i - 0x8000) / 0x400
    let t := c.tiles.toList.getD n {}
    if t.mapped && !t.shared then some (coreByte core (0x8000 + 0x400 * t.block.toNat + (i - 0x8000) % 0x400)) else none
  else none

/-- The bytes of an image: contents, then one bit a line, 1 for full. DEDUCED, log 55. -/
def State.imageOf (s : State) (core : Nat) (c : Slot) : List Byte :=
  let body := (List.range 0xC000).map fun i =>
    match imageByte core c i with
    | some pa => s.byte pa
    | none => 0
  let full (l : Nat) : Bool :=
    match imageByte core c (128 * l) with
    | some pa => !s.lineEmpty (lineOf pa)
    | none => true
  body ++ (List.range 48).map fun j =>
    BitVec.ofNat 8 ((List.range 8).foldl (fun v b => v + if full (8 * j + b) then 2 ^ b else 0) 0)

/-- A command of a thread names storage of its core: tiles, its window, or a place there. Every copy and spire does, with its
operand block (R366). -/
def namesStorage (core : Nat) (w : Command) : Bool :=
  match decodeCommand w with
  | .ok (.csched f) => isMarker f.addr || (isPlace f.addr && placeCore (chipOfCore core) f.addr == core)
  | .ok (.cstage _) | .error _ => false
  | .ok _ => true

/-- An operation names storage of its core; a copy of a schedule has no operand block. -/
def EngOp.namesStorage (o : EngOp) : Bool :=
  let names (a : Word) : Bool := isMarker a || (isPlace a && placeCore (chipOfCore o.core) a == o.core)
  match o.origin, decodeCommand o.word with
  | .schedule _ _, .ok (.cpy f) => names o.block || names f.addr || names f.flag
  | _, _ => Sys2Proof.Machine.namesStorage o.core o.word

/-- An operation of a saved context, or a command that its sequence has still to start, names its storage unfinished, a
suspended one included (R183). -/
def State.namesRegion (s : State) (e : Nat × Slot) : Bool :=
  (s.ops.any fun o => o.2.saved == e.1 && decide (o.2.state ≠ .ended ∧ o.2.state ≠ .complete) && o.2.namesStorage) ||
  e.2.seqs.any fun q => (q.words.drop (q.index + 1)).any fun w => Sys2Proof.Machine.namesStorage (coreOfThread e.2.savedFrom) w

/-- A saved context of a core whose storage the board may claim: it has not been claimed, no unfinished operation names it,
and no live subscription stages into its window (R183, R399). -/
def State.claimable (s : State) (core : Nat) (e : Nat × Slot) : Bool :=
  decide (e.1 < haltedBase) && coreOfThread e.2.savedFrom == core && !e.2.wf && s.recWord e.1 0x3C8 == 0 &&
    !s.namesRegion e && !(s.subscriptions.any fun v => v.2.live && v.2.core == core && v.2.wbase == e.2.wbase.toNat)

/-- Every member of a task on a core that has not ended is saved, and no unfinished operation of theirs names storage: the
board may claim the blocks they share (R371). -/
def State.allSaved (s : State) (core task : Nat) : Bool :=
  (s.task task).members.all fun m =>
    m.core != core || decide (m.state = .halted ∨ m.state = .ended) ||
      (s.saved.any fun e => e.2.task == task && coreOfThread e.2.savedFrom == core &&
        (s.task task).members[e.2.member]? == some m && !s.namesRegion e)

/-- Gives the storage of a member on a core back to its board, and the blocks it shares once every member that shares them
has been saved. -/
def State.releaseStorage (s : State) (core task member : Nat) : State :=
  let all := s.allSaved core task
  s.modCore core fun c =>
    { c with regions := c.regions.filter fun r => !(r.2.2.1 == task && r.2.2.2 == member),
             blocks := c.blocks.filter fun b => !(b.2.1 == task && if b.2.2.2 then all else b.2.2.1 == member) }

/-- The board claims the storage of one saved context of a core, of those that `p` takes: its bytes and line states go to an image
of the parish's image ring. -/
def State.claimOne (s : State) (core : Nat) (p : Nat × Slot → Bool) : Option State :=
  match s.saved.find? fun e => s.claimable core e && p e with
  | none => none
  | some (pa, c) =>
    let chip := chipOfCore core
    match s.deqRing chip c.parish imageRing with
    | none => none
    | some (h, s) =>
      match s.resolve chip c.parish h with
      | none => none
      | some img =>
        let s := s.write ((consecutive img 49216).zip (s.imageOf core c ++ List.replicate 16 0))
        let s := s.write (bytesAt (pa + 0x3C8) 8 h)
        some (s.releaseStorage core c.task c.member)

def State.claim (s : State) (core : Nat) : Option State := s.claimOne core fun _ => true

/-- The region and the own blocks of a saved context are free on its core. -/
def State.storageFree (s : State) (core : Nat) (c : Slot) : Bool :=
  let k := s.core core
  let base := c.wbase.toNat
  k.regions.all (fun r => decide (r.1 + r.2.1 ≤ base) || decide (base + c.span ≤ r.1)) &&
    c.tiles.toList.all fun t => !t.mapped || t.shared || k.blocks.all fun b => b.1 != t.block.toNat

/-- Blocks that a saved context shares and that have been claimed. -/
def State.sharedLost (s : State) (core : Nat) (c : Slot) : List Nat :=
  (c.tiles.toList.filter fun t => t.mapped && t.shared &&
    !((s.core core).blocks.any fun b => b.1 == t.block.toNat && b.2.1 == c.task && b.2.2.2)).map (·.block.toNat)

/-- The blocks that a resuming context shares are its task's again, with the bytes that stand there: no image holds them
(R371). DEDUCED, log 55. -/
def State.retakeShared (s : State) (core : Nat) (c : Slot) : State :=
  s.modCore core fun k => { k with blocks := k.blocks ++ (s.sharedLost core c).map fun b => (b, c.task, 0, true) }

/-- A claimed storage is restored from its image to the same offsets, and the image goes back to its ring. -/
def State.restoreStorage (s : State) (core pa : Nat) (c : Slot) : State :=
  let chip := chipOfCore core
  let h := s.recWord pa 0x3C8
  match s.resolve chip c.parish h with
  | none => s
  | some img =>
    let l := (List.range 0xC000).filterMap fun i => (imageByte core c i).map fun b => (b, s.byte (img + i))
    let s := s.write l
    let s := (List.range 384).foldl (fun s n =>
      match imageByte core c (128 * n) with
      | some b => if (s.byte (img + 0xC000 + n / 8)).getLsbD (n % 8) then s.fillLine (lineOf b) else s.emptyLine (lineOf b)
      | none => s) s
    let s := s.modCore core fun k =>
      { k with regions := k.regions ++ [(c.wbase.toNat, c.span, c.task, c.member)],
               blocks := k.blocks ++ (c.tiles.toList.filter fun t => t.mapped && !t.shared).map fun t =>
                 (t.block.toNat, c.task, c.member, false) }
    (s.write (bytesAt (pa + 0x3C8) 8 0)).giveBack chip c.parish imageRing h

/-! ### Notices (R369) -/

/-- The words of a notice's record; none when what it tells of is gone. -/
def State.noticeWords (s : State) (n : Notice) : Option (List (Nat × Word)) :=
  match n with
  | .engine id =>
      (s.op? id).map fun o =>
        [(0, headerWord 4 (slotOfThread o.thread) 1 false false false), (0x008, identityOf o.thread)] ++
          wordsAt 0x3E0 (o.record ++ [0])
  | .report r halted ended cause _ _ =>
      some [(0, headerWord 5 0 0 false false false), (0x008, r), (0x010, BitVec.ofNat 64 halted),
        (0x018, BitVec.ofNat 64 ended), (0x020, BitVec.ofNat 64 cause)]
  | .refused r p code _ =>
      some [(0, headerWord 6 0 0 false false false), (0x008, r), (0x010, p), (0x018, BitVec.ofNat 64 code)]
  | .page die _ a =>
      some [(0, headerWord 4 0 1 false false false), (0x008, identityOf (carillonNode die * 128)),
        (0x3E0, BitVec.ofNat 64 (2 ^ 36 + 0x09)), (0x3E8, a)]
  | .command p _ a =>
      some [(0, headerWord 4 0 1 false false false), (0x008, identityOf ((s.parish p).firstChip * 24576 * 128)),
        (0x3E0, BitVec.ofNat 64 (2 ^ 36 + 0x09)), (0x3E8, a)]

/-- A host command's outcome is decided: its status and detail (R433). -/
def State.decideCommand (s : State) (parish seq status : Nat) (detail : Word) : State :=
  (s.modParish parish fun p =>
    { p with commands := p.commands.map fun c =>
        if c.seq = seq then { c with outcome := some (status, detail), waiting := false } else c }).event
    (.commandCompletion parish seq)

/-- A host's LAUNCH is refused with a code, which pstat shows (R431). -/
def State.refuseCommand (s : State) (parish seq code : Nat) : State :=
  (s.modParish parish fun p => { p with launchCode := code }).decideCommand parish seq code 0

/-- Writes the record of a notice, or tries again after 1 µs when a ring refuses. -/
def State.notice (s : State) (n : Notice) (parish chip : Nat) : State :=
  match s.noticeWords n with
  | none => s
  | some ws =>
    match s.takeRecord chip parish with
    | none => s.timer (chip * 24576 * 16) 4000 (.notice n parish chip)
    | some (h, pa, s) =>
        let s : State := { s.writeRecord pa ws with notices := s.notices ++ [(pa, n)] }
        match n with
        | .report _ _ _ _ _ (some (p, seq)) => s.decideCommand p seq 0x20 h
        | _ => s

end Sys2Proof.Machine
end

