-- ==== Sys2Proof/Machine/Task.lean ====
section
/-! DEFINITION. Launch records, the task board, HALT, TRIGGER and the end of tasks (07 R167 to R178; 10 R260; 11 R300, R301;
14 R379, R382), and tolls (07 R184 to R186). -/

namespace Sys2Proof.Machine

/-! ### The launch record (R167, Tables 7-8 to 7-11) -/

def recField (ws : List Word) (off : Nat) : Word := ws.getD (off / 8) 0

/-- An input or result range: window offset and line count. -/
def recRange (ws : List Word) (off i : Nat) : Nat × Nat :=
  let w := recField ws (off + 8 * (i / 2))
  ((field w (32 * (i % 2)) 16).toNat, (field w (32 * (i % 2) + 16) 16).toNat)

def recVersion (ws : List Word) : Nat := (field (recField ws 0) 0 16).toNat
def recNlev (ws : List Word) : Nat := (field (recField ws 0) 20 4).toNat
def recNin (ws : List Word) : Nat := (field (recField ws 0) 52 3).toNat
def recNres (ws : List Word) : Nat := (field (recField ws 0) 55 3).toNat
def recCopies (ws : List Word) : Nat := (field (recField ws 0) 58 6).toNat

def recLevel (ws : List Word) (k : Nat) : Level :=
  let w := recField ws (0x040 + 8 * k)
  { extent := (field w 32 32).toNat, scope := (field w 3 3).toNat, kind := (field w 0 3).toNat }

/-- The levels used, innermost first. -/
def recLevels (ws : List Word) : List Level := (List.range (recNlev ws)).map (recLevel ws)

/-- The dependants: address, and whether at trigger (R168, R178). -/
def recDependants (ws : List Word) : List (Word × Bool) :=
  (List.range 4).filterMap fun i =>
    let w := recField ws (0x0A0 + 8 * i)
    if w = 0 then none else some (w &&& ~~~(7 : Word), decide (3 ≤ recVersion ws) && w.getLsbD 0)

/-- The words of a memory range, found one by one through their handle or place; none where one cannot be read. -/
def State.readRange (s : State) (chip parish : Nat) (a : Word) (n : Nat) : Option (List Word) :=
  (List.range n).foldr (fun i acc =>
    match acc, s.resolve chip parish (a + BitVec.ofNat 64 (8 * i)) with
    | some l, some pa => some (s.loadLE pa 8 :: l)
    | _, _ => none) (some [])

/-- A board or the Vestry reads words: its chip counts the lines of an object that it asks for (R43), and an uncorrectable error
leaves them unread (R44, R88). They are read at one point of the step that asks for them: the spec does not say when.
DESIGN CHOICE, log 116. -/
def State.readWords (s : State) (chip parish : Nat) (a : Word) (n : Nat) : State × Option (List Word) :=
  match s.readRange chip parish a n with
  | none => (s, none)
  | some l =>
    let at' (i : Nat) : List Nat := match s.resolve chip parish (a + BitVec.ofNat 64 (8 * i)) with
      | some pa => consecutive pa 8
      | none => []
    match s.findError ((List.range n).flatMap at') with
    | (s, true) => (s, none)
    | (s, false) =>
        ((linePieces a (8 * n)).foldl (fun s p =>
          let b := a + BitVec.ofNat 64 p.dist
          if isPlace b then s else s.countExtent chip parish (handleObj b) (handleOff b)) s, some l)

/-- A line of the record at a place is empty: a read of it waits (R59). DEDUCED, log 102. -/
def State.recordEmpty (s : State) (chip : Nat) (r : Word) : Bool :=
  isPlace r && (List.range 64).any fun i => s.lineEmpty (lineOf (placeByte chip (r + BitVec.ofNat 64 (8 * i))))

/-! ### Domains and levels (R170) -/

/-- Limit of the product of a kind's extents (Table 7-13). -/
def kindLimit (p : Parish) (k : Nat) : Nat :=
  match k with
  | 0 => 8 | 1 => 16 | 2 => 64 | 3 => 48 | 4 => 8 | 5 => 262144
  | 6 => p.groups.length
  | _ => 1

/-- A level's extent; that of a parish level is the chip count. -/
def Level.size (p : Parish) (l : Level) : Nat := if l.kind = 7 then p.chips else l.extent

/-- Product of the extents of the levels of one kind. -/
def kindProduct (p : Parish) (ls : List Level) (k : Nat) : Nat :=
  ls.foldl (fun n l => if l.kind = k then n * l.size p else n) 1

/-- Kinds are non-decreasing, and no scope is narrower than the one inside it. -/
def levelsRise : List Level → Bool
  | a :: b :: r => decide (a.kind ≤ b.kind) && decide (a.scope ≤ b.scope) && levelsRise (b :: r)
  | _ => true

/-- The levels obey R10, R170 and R171. -/
def levelsOk (p : Parish) (ls : List Level) : Bool :=
  decide (ls.length ≤ 8) && levelsRise ls && ls.all (fun l => decide (l.scope < 5)) &&
    ls.all (fun l => if l.kind = 7 then l.extent == 0 else l.extent != 0) &&
    (List.range 7).all (fun k => decide (kindProduct p ls k ≤ kindLimit p k) || ls.all fun l => l.kind != k) &&
    decide ((ls.filter fun l => l.kind = 7).length ≤ 1)

/-- Indices of member `m`, innermost level first (R12). -/
def memberIndex (p : Parish) : List Level → Nat → List Nat
  | [], _ => []
  | l :: r, m => m % Nat.max 1 (l.size p) :: memberIndex p r (m / Nat.max 1 (l.size p))

/-- The linear index over the levels of one kind. -/
def kindIndex (p : Parish) (k : Nat) : List Level → List Nat → Nat
  | l :: r, i :: is => if l.kind = k then i + l.size p * kindIndex p k r is else kindIndex p k r is
  | _, _ => 0

/-- The power of two a count rounds up to. -/
def powerAbove (n : Nat) : Nat := ((List.range 5).map (2 ^ ·)).find? (fun p => decide (n ≤ p)) |>.getD 16

/-- Base core of a task's node footprint (R12). -/
def baseCore (home count : Nat) : Nat := home / powerAbove count * powerAbove count

/-- The chip of a member: a parish level names every chip; a group level, the chip of the group that stands where the home
chip stands in its own, counted on by the package index; otherwise chips count on from the home chip (R170). DEDUCED, log 49.
A group that has no chip there places the member on the home chip, and package and group indices below a parish level choose
no chip: the spec gives neither case. DESIGN CHOICE, log 95. A home chip that stands in none of the supervisor's groups counts as
the first chip of the first group, which the spec does not say either. DESIGN CHOICE, log 118. -/
def memberChip (p : Parish) (home : Nat) (ls : List Level) (ix : List Nat) : Nat :=
  let pk := kindIndex p 5 ls ix
  if ls.any (·.kind == 7) then p.firstChip + kindIndex p 7 ls ix
  else if ls.any (·.kind == 6) then
    let g0 := (p.groups.findIdx? (·.contains home)).getD 0
    let pos := ((p.groups.getD g0 []).findIdx? (· == home)).getD 0
    (p.groups.getD (g0 + kindIndex p 6 ls ix) []).getD (pos + pk) home
  else home + pk

/-- A member's core. -/
def memberCore (p : Parish) (home : Nat) (ls : List Level) (ix : List Nat) : Nat :=
  let (chip, die, row, col, core) := coordsOfCore home
  coreKey (memberChip p chip ls ix) (die + kindIndex p 4 ls ix) (row + kindIndex p 2 ls ix) (col + kindIndex p 3 ls ix)
    (baseCore core (kindProduct p ls 1) + kindIndex p 1 ls ix)

def memberCount (p : Parish) (ls : List Level) : Nat := ls.foldl (fun n l => n * l.size p) 1

/-- The members of a task, before they are admitted. -/
def membersOf (p : Parish) (home : Nat) (ls : List Level) : List Member :=
  (List.range (memberCount p ls)).map fun m =>
    let ix := memberIndex p ls m
    let core := memberCore p home ls ix
    { node := nodeOfCore core, core := core, slot := if ls.any (·.kind == 0) then some (kindIndex p 0 ls ix) else none,
      index := ix, state := .waiting, triggered := false, wbase := 0, blocks := [], thread := 0 }

/-- The footprint fits: nodes in the home die, dies to 7, chips and groups from the home's on, none harvested. -/
def State.footprintOk (s : State) (p : Parish) (home : Nat) (ls : List Level) : Bool :=
  let (chip, die, row, col, _) := coordsOfCore home
  let g0 := (p.groups.findIdx? (·.contains chip)).getD 0
  decide (row + kindProduct p ls 2 ≤ 64) && decide (col + kindProduct p ls 3 ≤ 48) &&
    decide (die + kindProduct p ls 4 ≤ 8) &&
    (ls.all (·.kind != 5) || decide (chip + kindProduct p ls 5 ≤ p.firstChip + p.chips)) &&
    (ls.all (·.kind != 6) || decide (g0 + kindProduct p ls 6 ≤ p.groups.length)) &&
    (membersOf p home ls).all fun m => !(s.node m.node).harvested

/-! ### The checks of a record (R173, Table 11-7) -/

/-- An address passes the checks of Table 2-9 for `n` bytes with a right, or R27. -/
def State.addressOk (s : State) (chip parish : Nat) (user : Bool) (a : Word) (n right : Nat) : Bool :=
  if isPlace a then placeFormOk a n && !s.placeHarvested chip a
  else (checkEntry (s.obj chip parish (handleObj a)) (handleObj a) (handleOff a) n right user).isNone

/-- A reserved field of the record, or of its copy schedule, that is not zero, or a count or range out of its limits. DEDUCED, log 50. -/
def recordMalformed (ws sched : List Word) : Bool :=
  (List.range 8).any (fun k => field (recField ws (0x040 + 8 * k)) 6 26 != 0) ||
    field (recField ws 0x038) 12 52 != 0 || field (recField ws 0x010) 28 36 != 0 ||
    (List.range 4).any (fun i => field (recField ws (0x0A0 + 8 * i)) 1 2 != 0) ||
    (List.range 24).any (fun i => recField ws (0x0C0 + 8 * i) != 0) ||
    decide (4 < recNin ws) || decide (4 < recNres ws) || decide (32 < recCopies ws) ||
    (List.range (Nat.min 4 (recNin ws))).any (fun i => (recRange ws 0x080 i).1 % 128 != 0) ||
    (List.range (Nat.min 4 (recNres ws))).any (fun i => (recRange ws 0x090 i).1 % 128 != 0) ||
    (List.range (sched.length / 4)).any fun i => entryReserved (sched.getD (4 * i + 3) 0)

/-- Blocks and window bytes that a core needs (R173). -/
def tooLarge (p : Parish) (ws : List Word) : Bool :=
  let per := kindProduct p (recLevels ws) 0
  let tiles := (field (recField ws 0) 40 12).toNat
  let shared := (field (recField ws 0x038) 0 12).toNat
  let names (f : Nat → Bool) : Nat := ((List.range 12).filter f).length
  let priv := names fun i => tiles.testBit i && !shared.testBit i
  let shar := names fun i => tiles.testBit i && shared.testBit i
  (List.range 12).any (fun i => shared.testBit i && !tiles.testBit i) ||
    decide (16 < per * priv + shar) || decide (0x8000 < per * roundWindow (field (recField ws 0) 24 16).toNat)

/-- The home place of a host command, or of a parish's supervisor, names no core of the parish on a chip that can be reached
(R447). -/
def State.homeOutside (s : State) (v : Submission) : Bool :=
  let home := placeCore v.chip v.home
  v.thread.isNone && v.producer.isNone &&
    (!isPlace v.home || !placeFormOk v.home 1 || !s.reaches v.chip (chipOfCore home) || s.parishOf home != some v.parish)

/-- The code of Table 11-7: the lowest that fails, or 0. DEDUCED, log 52. -/
def State.launchCode (s : State) (v : Submission) (sched : Option (List Word)) : Nat :=
  let ws := v.words
  let p := s.parish v.parish
  let ls := recLevels ws
  let home := placeCore v.chip v.home
  let chip := chipOfCore home
  let user := !v.supervisor
  let wsize := (field (recField ws 0) 24 16).toNat
  let e := recField ws 0x008
  let flag := recField ws 0x028
  if ws.length < 64 then (if s.homeOutside v then 6 else 9)
  else if !(recVersion ws == 1 || recVersion ws == 2 || recVersion ws == 3) then 1
  else if recordMalformed ws (sched.getD []) then 2
  else if !levelsOk p ls then 3
  else if wsize < 128 ∨ 32768 < wsize then 4
  else if tooLarge p ws then 5
  else if !s.footprintOk p home ls || s.homeOutside v then 6
  else if isPlace e || e.toNat % 4 ≠ 0 || (checkEntry (s.obj chip v.parish (handleObj e)) (handleObj e) (handleOff e) 4 rX user).isSome then 7
  else if sched.isNone ||
      (recCopies ws != 0 && !s.addressOk chip v.parish user (recField ws 0x030) (32 * recCopies ws) rR) ||
      (flag != 0 && (!isPlace flag || flag.toNat % 8 != 0 || !s.addressOk chip v.parish user flag 8 rR)) ||
      (recDependants ws).any (fun d => !s.addressOk chip v.parish user d.1 512 rR) then 8
  else 0

/-- The copy schedule of a record, read whole at submission (R169). Table 3-3 does not list this read: one at a place takes the
bytes that stand there and waits for no line (R59). DESIGN CHOICE, log 116. -/
def State.readSchedule (s : State) (v : Submission) : State × Option (List Word) :=
  s.readWords (chipOfCore (placeCore v.chip v.home)) v.parish (recField v.words 0x030) (4 * Nat.min 32 (recCopies v.words))

/-! ### Acceptance (R173) -/

/-- Entries of a board that are in use. DEDUCED, log 51. -/
def State.boardUse (s : State) (node : Nat) : Nat :=
  (s.tasks.filter fun t => t.2.live && t.2.homeNode == node).length

/-- The task of an accepted record. DEDUCED, log 59. -/
def State.taskOf (s : State) (v : Submission) (sched : List Word) : Task :=
  let ws := v.words
  let h := recField ws 0
  let p := s.parish v.parish
  let home := placeCore v.chip v.home
  let ls := recLevels ws
  let v1 := decide (recVersion ws = 1)
  let ms := membersOf p home ls
  let nodes := ms.foldl (fun l m => NSet.insert l m.node) []
  let c0 := (ms.head?.map (·.core)).getD home
  { live := true, parish := v.parish, record := v.record, home := v.home, homeNode := nodeOfCore home,
    supervisor := v.supervisor, version := recVersion ws, prio := (field h 16 2).toNat, loom := !v1 && h.getLsbD 18,
    borrow := !v1 && h.getLsbD 19, nlev := recNlev ws, wsize := (field h 24 16).toNat, tiles := (field h 40 12).toNat,
    shared := (field (recField ws 0x038) 0 12).toNat, entry := recField ws 0x008, fm := recField ws 0x010,
    sa := recField ws 0x018, sb := recField ws 0x020, flag := recField ws 0x028, levels := ls,
    inputs := (List.range (recNin ws)).map (recRange ws 0x080), results := (List.range (recNres ws)).map (recRange ws 0x090),
    dependants := recDependants ws,
    schedule := (List.range (recCopies ws)).map fun i =>
      let w (j : Nat) : Word := sched.getD (4 * i + j) 0
      { source := w 0, dest := w 1, flag := w 2, length := entryLength (w 3), stage := entryStage (w 3), released := false,
        done := false, op := 0, fromRecord := true, thread := c0 * 8, core := c0, stamp := v.stamps.headD {},
        race := s.controlWord (chipOfCore c0) v.parish 0x070 &&& ~~~(0xC : Word) },
    members := ms,
    shares := nodes.map fun n =>
      { node := n, state := .queued, order := s.nextId, accepted := s.nodeTime n, passedOver := false },
    command := v.command, stamps := v.stamps }

/-- A submission is refused with a code. -/
def State.refuse (s : State) (v : Submission) (code : Nat) : State :=
  match v.thread, v.command, v.producer with
  | some t, _, _ => (s.setRegOf t (BitVec.ofNat 4 v.dest) (BitVec.ofNat 64 code)).finishOf t
  | none, some (p, seq), _ => s.refuseCommand p seq code
  | none, none, some r =>
      s.push (.notice (.refused v.record r code v.producerNode) v.parish (chipOfNode v.producerNode))
  | none, none, none => s.modParish v.parish fun x => { x with createCode := 0x10 + code }

/-- Submissions and dependants that wait for a board are looked at again. -/
def State.pokeBoards (s : State) (node : Nat) : State :=
  (s.submissions.foldl (fun s e => if e.2.waiting then s.event (.submission e.1) else s) s).event (.dependantSubmission node)

/-- In a replay, the board of a node has still to accept another record before this one (R441). -/
def State.outOfTurn (s : State) (v : Submission) : Bool :=
  ((s.parish v.parish).replay.find? fun e => e.1 == nodeOfCore (placeCore v.chip v.home)).any fun e => e.2 != v.record

/-- A board has accepted a record: what waits for its turn in a replay is looked at again. -/
def State.replayed (s : State) (parish node : Nat) (record : Word) : State :=
  if (s.parish parish).replay.isEmpty then s
  else (s.modParish parish fun p => { p with replay := p.replay.erase (node, record) }).pokeBoards node

/-- An accepted submission becomes a task with a share on every node of its footprint. -/
def State.accept (s : State) (v : Submission) (sched : List Word) : State :=
  let t := s.taskOf v sched
  let (id, s) := s.fresh
  let s := s.modTask id fun _ => t
  let s := t.shares.foldl (fun s h => (s.modNode h.node fun n => { n with board := n.board ++ [id] }).event (.admission h.node)) s
  let s := (s.capture v.parish (.accepted t.homeNode v.record)).replayed v.parish t.homeNode v.record
  match v.thread with
  | some th => (s.setRegOf th (BitVec.ofNat 4 v.dest) 0).finishOf th
  | none => s

/-- What a board does with a submission: false when it waits for an entry, or, in a replay, for its turn. -/
def State.submit (s : State) (v : Submission) : State × Bool :=
  let (s, sched) := s.readSchedule v
  match s.launchCode v sched with
  | 0 =>
      if Config.boardEntries ≤ s.boardUse (nodeOfCore (placeCore v.chip v.home)) || s.outOfTurn v then (s, false)
      else (s.accept v (sched.getD []), true)
  | c => (s.refuse v c, true)

/-- A submission reaches its board (R173, R300). -/
def execSubmission (sub : Nat) (s : State) : Out :=
  .next (
    let v := s.submission sub
    if v = {} ∨ v.producer.isSome ∨ (v.words = [] ∧ v.command = none) then s
    else
      match s.submit v with
      | (s, true) => s.setSubmission sub {}
      | (s, false) => s.setSubmission sub { v with waiting := true })

/-- LAUNCH reads its record line by line, waits as R121 lays down, and submits it (R300). -/
def launchWith (d : Field4) (r home : Word) (sub : Nat) (s : State) : State :=
  readHeld r 512 sub s State.trap fun l s =>
    if !s.released s.cur then s.park (.launch sub)
    else
      withRelease s fun s =>
        let st := s.stampOf s.cur
        let v : Submission :=
          { parish := s.here.parish, record := r, home := home, thread := some s.cur, dest := d.toNat,
            supervisor := s.here.pl, stamps := if st.valid then [st] else [], chip := chipOfThread s.cur, words := wordsOf 64 l }
        (((s.endReads sub).setSubmission sub v).park (.board sub)).event (.submission sub)

/-- LAUNCH (R300). The checks of its operands are made once, as it issues. -/
def execLaunch (g : Guard) (d a b : Field4) (s : State) : Out :=
  scalar g s fun s => withDest d s fun s =>
    let r := s.reg a
    let h := s.reg b
    let home := h &&& ~~~(0xFFFF : Word)
    match s.here.state.reading? with
    | some sub => launchWith d r home sub s
    | none =>
      if !isPlace h then s.trap 0x06 h
      else
        match s.checkPlace (chipOfThread s.cur) s.here.parish home 1 true with
        | some c => s.trap c h
        | none =>
          match s.checkScalar s.cur r 512 8 rR false with
          | .trap c v => s.trap c v
          | _ =>
            let (id, s) := s.fresh
            launchWith d r home id s

/-! ### Storage of a share (R12, R32, R162) -/

/-- A core has the slots for its members of a share, beside those that its admitted members hold (R174). -/
def State.slotsFit (s : State) (core : Nat) (ms : List Member) : Bool :=
  let named := ms.filterMap (·.slot)
  let held := s.heldSlots core
  if named.isEmpty then decide (held.2 + ms.length ≤ (s.spareSlots core).length)
  else
    (named.all fun i => decide ((s.slot (core * 8 + i)).state = .free) && !held.1.contains i) &&
      decide (held.2 ≤ ((s.spareSlots core).filter fun i => !named.contains i).length)

/-- The lowest base of a free region of `n` bytes on every one of a list of cores (log 8). DESIGN CHOICE, log 8. -/
def State.freeBase (s : State) (cores : List Nat) (n : Nat) (taken : List Nat) : Option Nat :=
  ((List.range (0x8000 / n)).map (· * n)).find? fun b =>
    !taken.contains b && cores.all fun c =>
      (s.core c).regions.all fun r => decide (r.1 + r.2.1 ≤ b) || decide (b + n ≤ r.1)

/-- Bases of the windows of each slot index of a share. -/
def State.basesFor (s : State) (cores : List Nat) (n : Nat) : Nat → Option (List Nat)
  | 0 => some []
  | k + 1 =>
      match s.basesFor cores n k with
      | none => none
      | some l => (s.freeBase cores n l).map fun b => l ++ [b]

/-- Free tile blocks of a core. -/
def State.freeBlocks (s : State) (core : Nat) : List Nat :=
  (List.range 16).filter fun b => !(s.core core).blocks.any (·.1 == b)

def bitsOf (w : Nat) : List Nat := (List.range 12).filter w.testBit

/-- Private and shared names of a task. -/
def Task.ownNames (t : Task) : List Nat := (bitsOf t.tiles).filter fun i => !t.shared.testBit i
def Task.sharedNames (t : Task) : List Nat := (bitsOf t.tiles).filter fun i => t.shared.testBit i

/-- Shared blocks of a task on a core, in the order of its shared names. -/
def State.sharedBlocks (s : State) (core task : Nat) : List Nat :=
  ((s.core core).blocks.filter fun b => b.2.1 == task && b.2.2.2).map (·.1)

/-- Cores of a task's share on a node. -/
def Task.coresOn (t : Task) (node : Nat) : List Nat :=
  (t.members.filter (·.node == node)).foldl (fun l m => NSet.insert l m.core) []

/-- Slot indices of a share: 0 alone without slot levels. -/
def Task.perCore (t : Task) (node : Nat) : Nat :=
  match t.coresOn node with
  | c :: _ => (t.members.filter (·.core == c)).length
  | [] => 0

/-- The node can hold a share as it stands: its slots, windows and blocks (R174). A service core is withheld (R373). -/
def State.shareFits (s : State) (t : Task) (node : Nat) : Bool :=
  let cores := t.coresOn node
  let per := t.perCore node
  cores.all (fun c => !(s.parish t.parish).service.contains c && s.slotsFit c (t.members.filter (·.core == c)) &&
    decide (per * t.ownNames.length + t.sharedNames.length ≤ (s.freeBlocks c).length)) &&
    (s.basesFor cores (roundWindow t.wsize) per).isSome

/-- Cores of a share that are short of storage for it: of blocks, or of room for its windows; all of them when each has room
but they have none in common. -/
def State.shortCores (s : State) (t : Task) (node : Nat) : List Nat :=
  let cores := t.coresOn node
  let per := t.perCore node
  let short := cores.filter fun c =>
    decide ((s.freeBlocks c).length < per * t.ownNames.length + t.sharedNames.length) ||
      (s.basesFor [c] (roundWindow t.wsize) per).isNone
  if short.isEmpty && (s.basesFor cores (roundWindow t.wsize) per).isNone then cores else short

/-- Claims storage of saved contexts, on cores that are short of it, until a share fits or nothing is left to claim (R183). -/
def State.claimFor (s : State) (t : Task) (node : Nat) : Nat → State
  | 0 => s
  | fuel + 1 =>
      if s.shareFits t node || !(t.coresOn node).all (fun c => s.slotsFit c (t.members.filter (·.core == c))) then s
      else
        match (s.shortCores t node).findSome? s.claim with
        | some s => s.claimFor t node fuel
        | none => s

/-- Claims what a share needs, or nothing when no claims can make it fit. -/
def State.claimed (s : State) (t : Task) (node : Nat) : State :=
  let s' := s.claimFor t node 128
  if s'.shareFits t node then s' else s

/-- The lines of window ranges of a member. -/
def rangeLinesOf (core wbase span : Nat) (rs : List (Nat × Nat)) : List Nat :=
  rs.flatMap fun r => (List.range r.2).map fun i => lineOf (windowByte core wbase span (r.1 + 128 * i))

def Task.span (t : Task) : Nat := roundWindow t.wsize

def Task.inputLines (t : Task) (m : Member) : List Nat := rangeLinesOf m.core m.wbase t.span t.inputs
def Task.resultLines (t : Task) (m : Member) : List Nat := rangeLinesOf m.core m.wbase t.span t.results

/-- Gives member `i` of a task its window and blocks on its core, writes its image with every line full, and empties its
input and result lines (R12, R32, R174). PRESUMED, log 4. -/
def State.placeMember (s : State) (task i : Nat) (bases : List Nat) : State :=
  let t := s.task task
  match t.members[i]? with
  | none => s
  | some m =>
    let base := bases.getD (m.slot.getD 0) 0
    let span := t.span
    let s := if (s.sharedBlocks m.core task).length < t.sharedNames.length then
        let l := (s.freeBlocks m.core).take t.sharedNames.length
        s.modCore m.core fun c => { c with blocks := c.blocks ++ l.map fun b => (b, task, 0, true) }
      else s
    let mine := (s.freeBlocks m.core).take t.ownNames.length
    let s := s.modCore m.core fun c =>
      { c with blocks := c.blocks ++ mine.map (fun b => (b, task, i, false)), regions := c.regions ++ [(base, span, task, i)] }
    let names := t.ownNames.zip mine |>.map fun e => (e.1, e.2, false)
    let shared := t.sharedNames.zip (s.sharedBlocks m.core task) |>.map fun e => (e.1, e.2, true)
    let image := (((s.parish t.parish).images.find? (·.1 == handleObj t.entry)).map (·.2)).getD []
    let bytes := (List.range span).map fun j => if j < t.wsize then image.getD j 0 else 0
    let m := { m with state := .admitted, wbase := base, blocks := names ++ shared }
    let s := s.write ((consecutive (coreByte m.core base) span).zip bytes)
    let s := s.clearShadow (coreByte m.core base) span
    let s := (List.range (span / 128)).foldl (fun s j => s.fillLine (lineOf (coreByte m.core base) + j)) s
    let s := (t.inputLines m ++ t.resultLines m).foldl (fun s l => s.emptyLine l) s
    s.modTask task fun t => { t with members := listSet t.members i m }

def setShare (t : Task) (node : Nat) (f : Share → Share) : Task :=
  { t with shares := t.shares.map fun h => if h.node = node then f h else h }

/-- Admits a share: storage, images, line states, and stage 0 of the schedule once every share's images are in place
(R174, R104). -/
def State.admitShare (s : State) (task node : Nat) : State :=
  let t := s.task task
  match s.basesFor (t.coresOn node) t.span (t.perCore node) with
  | none => s
  | some bases =>
    let mine := (List.range t.members.length).filter fun i => (t.members[i]?).any (·.node == node)
    let s := mine.foldl (fun s i => s.placeMember task i bases) s
    let s := s.modTask task fun t => setShare t node fun h => { h with state := .admitted, passedOver := false }
    let s := if (s.task task).shares.all fun h => decide (h.state ≠ .queued) then s.releaseEntries task else s
    s.event (.dispatch node)

/-! ### Choosing (R175) -/

/-- Effective priority of a share. -/
def State.effective (s : State) (t : Task) (h : Share) : Nat :=
  Nat.min 3 (t.prio + (s.nodeTime h.node - h.accepted) / Config.cycles64us)

/-- A share ranks before another: effective priority, plain before loom at a node with no toll, then acceptance. -/
def State.ranksBefore (s : State) (node : Nat) (a b : Nat × Task × Share) : Bool :=
  let pa := s.effective a.2.1 a.2.2
  let pb := s.effective b.2.1 b.2.2
  let held := (s.node node).toll.held
  if pa ≠ pb then decide (pb < pa)
  else if !held && a.2.1.loom != b.2.1.loom then !a.2.1.loom
  else decide (a.2.2.order ≤ b.2.2.order)

/-- Shares of a node in a state, in the order of its board. -/
def State.sharesOf (s : State) (node : Nat) (p : Share → Bool) : List (Nat × Task × Share) :=
  (s.node node).board.filterMap fun id =>
    let t := s.task id
    match t.shares.find? fun h => h.node == node && p h with
    | some h => some (id, t, h)
    | none => none

/-- The first of a list by an order. -/
def bestOf (lt : Nat × Task × Share → Nat × Task × Share → Bool) (l : List (Nat × Task × Share)) :
    Option (Nat × Task × Share) :=
  l.foldl (fun acc x =>
    match acc with
    | none => some x
    | some y => if lt y x then some y else some x) none

/-- The queued shares a board may take: none accepted after one that was passed over and has reached priority 3. -/
def State.admissible (s : State) (node : Nat) : List (Nat × Task × Share) :=
  let q := s.sharesOf node fun h => decide (h.state = .queued)
  let bars := q.filter fun e => e.2.2.passedOver && decide (s.effective e.2.1 e.2.2 = 3)
  q.filter fun e => bars.all fun b => decide (e.2.2.order ≤ b.2.2.order)

/-- The shares of a list in the order in which a board ranks them. -/
def State.ranked (s : State) (node : Nat) (l : List (Nat × Task × Share)) : List (Nat × Task × Share) :=
  l.foldl (fun acc e => acc.takeWhile (fun x => s.ranksBefore node x e) ++ [e] ++ acc.dropWhile fun x => s.ranksBefore node x e) []

/-- A share fits, with the storage of saved contexts that its board may claim for it (R183). -/
def State.fitsClaimed (s : State) (node : Nat) (e : Nat × Task × Share) : Bool := (s.claimed e.2.1 node).shareFits e.2.1 node

/-- A board admits the highest-ranked share that fits; every one that does not is passed over and marked, and pre-emption may
make room (R174, R175, R181). -/
def execAdmission (node : Nat) (s : State) : Out :=
  .next (
    let l := s.ranked node (s.admissible node)
    let marked := l.foldl (fun (m : State) e =>
      if s.fitsClaimed node e then m
      else m.modTask e.1 fun t => setShare t node fun h => { h with passedOver := true }) s
    match l.find? (s.fitsClaimed node) with
    | some (k, t, _) =>
        let s := ((marked.claimed t node).admitShare k node).event (.admission node)
        if (l.head?.map (·.1)) = some k then s else s.event (.preEmption node)
    | none => if l.isEmpty then s else marked.event (.preEmption node))

/-! ### Dispatch (R176, R177) -/

/-- Every input line of every member's window on the node is full and every result line is empty. -/
def State.eligible (s : State) (t : Task) (node : Nat) : Bool :=
  (t.members.filter (·.node == node)).all fun m =>
    (t.inputLines m).all (fun l => !s.lineEmpty l) && (t.resultLines m).all fun l => s.lineEmpty l

/-- The slot a member starts in now, if there is one (R177). -/
def State.startSlot (s : State) (m : Member) : Option Nat :=
  match m.slot with
  | some i =>
      if (s.slot (m.core * 8 + i)).state = .free ∧ (i < 6 ∨ !(s.core m.core).hasWaiting) then some i else none
  | none => (s.spareSlots m.core).head?

/-- fmode at dispatch (R228). -/
def fmodeOf (fm : Word) : Word :=
  let r := field fm 24 3
  if r = 6 ∨ r = 7 then 0 else r.setWidth 64

/-- The context of a member as it starts (R162, R172, R176, R225, R228, R242). DEDUCED, log 54. -/
def State.startContext (s : State) (task i thread : Nat) (t : Task) (m : Member) : Slot :=
  let p := s.parish t.parish
  let cb := s.controlWord (chipOfCore m.core) t.parish
  let x : Vector Word 15 := Vector.ofFn fun j =>
    match j.val with
    | 11 => t.record | 12 => t.fm | 13 => t.sa | 14 => t.sb
    | _ => 0
  let race := cb 0x070 &&& ~~~(0xC : Word)
  let (tbl, ev) := if raceMode race = 0 then ([], false) else mergeStamps thread [] t.stamps
  { state := .ready, pc := t.entry, x := x, pl := t.supervisor, fmode := fmodeOf t.fm, wbase := BitVec.ofNat 64 m.wbase,
    wsize := BitVec.ofNat 64 t.wsize, borrowMode := t.borrow, race := race, seed := cb 0x060 &&& 0xFFFFFFFF,
    seedh := cb 0x068 &&& 0xFFFFFFFF,
    lvl := Vector.ofFn fun j => BitVec.ofNat 64 (m.index.getD j.val 0),
    lvn := Vector.ofFn fun j => BitVec.ofNat 64 (((t.levels[j.val]?).map (·.size p)).getD 1),
    tiles := Vector.ofFn fun j =>
      match m.blocks.find? (·.1 == j.val) with
      | some b => { block := BitVec.ofNat 4 b.2.1, mapped := true, shared := b.2.2 }
      | none => {},
    acquired := tbl, evicted := ev, task := task, member := i, parish := t.parish }

/-- Capture records the parish's seed pair and race default as a dispatch finds them, when they have changed (R441). -/
def State.captureSeeds (s : State) (chip parish : Nat) : State :=
  if (s.parish parish).captureOn then
    let c := Captured.seeds (s.controlWord chip parish 0x060) (s.controlWord chip parish 0x068) (s.controlWord chip parish 0x070)
    let last := (s.parish parish).captured.foldl (fun l e =>
      match e with
      | .seeds .. => some e
      | _ => l) none
    if last = some c then s else s.capture parish c
  else s

/-- Member 0 has taken a slot: the copies of its record's schedule are charged to it (R113). -/
def State.chargeSchedule (s : State) (task thread : Nat) : State :=
  { s with ops := s.ops.map fun e =>
      match e.2.origin with
      | .schedule k i => if k = task ∧ ((s.task task).schedule[i]?).any (·.fromRecord) then (e.1, { e.2 with thread := thread }) else e
      | _ => e }

/-- Starts member `i` in a slot. -/
def State.startMember (s : State) (task i slot : Nat) : State :=
  let t := s.task task
  match t.members[i]? with
  | none => s
  | some m =>
    let th := m.core * 8 + slot
    let m' := { m with state := .running, thread := th }
    let s := s.captureSeeds (chipOfCore m.core) t.parish
    let s := if i = 0 then s.chargeSchedule task th else s
    (s.setSlot th (s.startContext task i th t m)).modTask task fun t =>
      { setShare t m.node fun h => { h with state := .running } with members := listSet t.members i m' }

/-- A board starts the members of the share it chooses among those eligible, and of shares it has started, as far as their
slots allow (R174 to R177). -/
def execDispatch (node : Nat) (s : State) : Out :=
  .next (
    let start (s : State) (id : Nat) : State :=
      (List.range (s.task id).members.length).foldl (fun s i =>
        match (s.task id).members[i]? with
        | some m =>
            if m.node = node ∧ m.state = .admitted then
              match s.startSlot m with
              | some k => s.startMember id i k
              | none => s
            else s
        | none => s) s
    let s := (s.sharesOf node fun h => decide (h.state = .running)).foldl (fun s e => start s e.1) s
    let l := (s.sharesOf node fun h => decide (h.state = .admitted)).filter fun e => s.eligible e.2.1 node
    match bestOf (s.ranksBefore node) l with
    | some (id, _, _) =>
        let s' := start s id
        if s'.slots = s.slots then s' else s'.event (.dispatch node)
    | none => s)

/-! ### Triggers and dependants (R178) -/

/-- The scope of a task's retirement: its outermost level's, and sys for a task with no levels (R132, R135). DESIGN CHOICE, log 100. -/
def Task.scope (t : Task) : Nat := (t.levels.getLast?.map (·.scope)).getD 4

/-- What a task's retirement releases (R132). -/
def Task.retirement (t : Task) : List Stamp := t.releases.map fun st => { st with scope := t.scope }

/-- Submits dependants of a task, at the node of its home, as its board and so at user privilege (R242). Those at trigger are
ordered after the triggers alone (R131), and those at retirement after the whole task (R132). -/
def State.releaseDependants (s : State) (id : Nat) (atTrigger : Bool) : State :=
  let t := s.task id
  (t.dependants.filter (·.2 == atTrigger)).foldl (fun s d =>
    let (k, s) := s.fresh
    let v : Submission :=
      { parish := t.parish, record := d.1, home := t.home, producer := some t.record, producerNode := t.homeNode,
        stamps := if atTrigger then t.triggers else t.retirement, chip := chipOfNode t.homeNode }
    let s := s.setSubmission k v
    (s.modNode t.homeNode fun n => { n with dependants := n.dependants ++ [k] }).event (.dependantSubmission t.homeNode)) s

/-- The oldest dependant that waits in a board is submitted; a board with no free entry keeps it (R178), and a record in an
empty line is looked at again after 1 µs (R59). -/
def execDependantSubmission (node : Nat) (s : State) : Out :=
  .next (match (s.node node).dependants with
    | [] => s
    | k :: _ =>
      let v := s.submission k
      if s.recordEmpty v.chip v.record then s.timer (node * 16) 4000 (.event (.dependantSubmission node))
      else
      let (s, ws) := s.readWords v.chip v.parish v.record 64
      let v := { v with words := ws.getD [] }
      match s.submit v with
      | (s, true) =>
          let s := (s.setSubmission k {}).modNode node fun n => { n with dependants := n.dependants.filter (· != k) }
          s.event (.dependantSubmission node)
      | (s, false) => s)

/-- A member has triggered, by TRIGGER or HALT; the last one releases the dependants at trigger. -/
def State.memberTriggers (s : State) (task member : Nat) (st : Stamp) : State :=
  let t := s.task task
  match t.members[member]? with
  | none => s
  | some m =>
    if m.triggered then s
    else
      let t := { t with members := listSet t.members member { m with triggered := true },
                        triggers := if st.valid then t.triggers ++ [st] else t.triggers }
      let last := t.members.all (·.triggered) && !t.triggered
      let s := s.modTask task fun _ => if last then { t with triggered := true } else t
      if last then s.releaseDependants task true else s

/-- TRIGGER (R301). -/
def execTrigger (g : Guard) (s : State) : Out :=
  scalar g s fun s => withRelease s fun s =>
    (s.memberTriggers s.here.task s.here.member (s.stampOf s.cur)).finish

/-! ### HALT (R260) -/

/-- The operations a thread leaves when it ends are kept with its context under a number of their own; those that have
faulted go to the supervisor. -/
def State.leaveOps (s : State) (c : Slot) (p : EngOp → Bool) : State :=
  let mine := s.ops.filter fun e => p e.2
  if mine.isEmpty then s
  else
    let (n, s) := s.fresh
    let key := haltedBase + n
    let s : State := { s with
      ops := s.ops.map fun e => if p e.2 then (e.1, { e.2 with saved := key }) else e
      accesses := s.accesses.map fun e =>
        if mine.any fun o => o.1 == e.2.opId then (e.1, { e.2 with saved := key }) else e
      saved := AMap.set {} s.saved key { c with state := .held, wait := none } }
    mine.foldl (fun s e =>
      if (e.2.state = .suspended || e.2.state = .ended) && !e.2.noticed then
        (s.modOp e.1 fun o => { o with noticed := true }).push (.notice (.engine e.1) e.2.parish (chipOfCore e.2.core))
      else s) s

/-- A member has halted or ended. -/
def State.setMember (s : State) (task member : Nat) (st : MemberState) : State :=
  s.modTask task fun t =>
    match t.members[member]? with
    | some m => { t with members := listSet t.members member { m with state := st } }
    | none => t

/-- Entries of a copy schedule still unreleased when all members have halted are dropped (R105). -/
def State.dropUnreleased (s : State) (task : Nat) : State :=
  let t := s.task task
  if t.members.all fun m => decide (m.state = .halted) then
    s.modTask task fun t => { t with schedule := t.schedule.map fun e => if e.released then e else { e with done := true } }
  else s

/-- A slot becomes free, with the lent slot that it holds. -/
def State.freeBoth (s : State) (t : Nat) : State :=
  match (s.slot t).lent with
  | some i => (s.freeSlot (coreOfThread t * 8 + i)).freeSlot t
  | none => s.freeSlot t

/-- HALT (R260): a wayfarer's also frees its home slot, with the slot lent to it. -/
def execHalt (g : Guard) (s : State) : Out :=
  scalar g s fun s => withRelease s fun s =>
    let c := s.here
    let t := s.cur
    let st := s.stampOf t
    let s := s.leaveOps c fun o => o.thread == t && o.saved == 0
    let s := match c.home with
      | some h =>
          let s := s.modCore (coreOfThread t) fun k =>
            { k with arrivals := k.arrivals.filter fun a => decide (a ≠ Arrival.running (slotOfThread t)) }
          let s := s.wakeIf fun _ c => parkedOn .arrival c
          s.leaveOps (s.slot h) (fun o => o.thread == h && o.saved == 0) |>.freeBoth h
      | none => s
    let s := s.freeBoth t
    let s := s.setMember c.task c.member .halted
    let s := s.memberTriggers c.task c.member st
    ((s.modTask c.task fun t => { t with releases := if st.valid then t.releases ++ [st] else t.releases }).dropUnreleased
      c.task).pokeTask c.task

/-! ### The end of a task (R132, R379) -/

/-- Joins stamps in one that carries every pair of theirs. The first stands for them all as the writer, so that the scope of a
task's retirement is tested from the member that halted first (R136): the spec names no thread. DESIGN CHOICE, log 117. -/
def joinStamps (l : List Stamp) : Stamp :=
  match l with
  | [] => {}
  | a :: r => { a with table := a.table ++ r.flatMap fun x => x.table ++ [(x.writer, x.interval)] }

/-- What a task holds is freed, and its boards look for others to take. -/
def State.clearTask (s : State) (id : Nat) : State :=
  let t := s.task id
  let cores := t.members.foldl (fun l m => NSet.insert l m.core) []
  let s := cores.foldl (fun s c => s.modCore c fun k =>
    { k with regions := k.regions.filter (·.2.2.1 != id), blocks := k.blocks.filter (·.2.1 != id) }) s
  let s := t.shares.foldl (fun s h =>
    (List.range 32).foldl (fun s g =>
      let v := s.granary h.node g
      if v.owner = id ∧ v.sub ≠ 0 then s.unsubscribe h.node g else s) s) s
  let s := t.shares.foldl (fun s h =>
    (s.modNode h.node fun n => { n with board := n.board.filter (· != id) }).event (.admission h.node)) s
  let s := { s with saved := s.saved.filter fun e => e.2.task != id, rounds := s.rounds.filter fun e => e.2.task != id }
  let s := s.modTask id fun _ => {}
  s.pokeBoards t.homeNode

/-- Operations of a task that are neither complete nor ended. -/
def State.busyOps (s : State) (id : Nat) : Bool :=
  s.ops.any fun e => e.2.task == id && decide (e.2.state ≠ .ended) && decide (e.2.state ≠ .complete)

/-- Writes of a task that have not been acknowledged. -/
def State.busyWrites (s : State) (id : Nat) : Bool := s.accesses.any fun a => a.2.task == id && a.2.posted

def Task.entriesPending (t : Task) : Bool := t.schedule.any fun e => e.released && !e.done

/-- A task retires: its completion flag is counted, and its dependants at retirement are submitted (R132, R178). -/
def execTaskRetirement (task : Nat) (s : State) : Out :=
  .next (
    let t := s.task task
    if t.live && !t.members.isEmpty && t.members.all (fun m => decide (m.state = .halted)) && !t.opEnded &&
        !(s.ops.any fun e => e.2.task == task) && !t.entriesPending && !s.busyWrites task then
      let s := if t.flag = 0 then s
        else s.countFlag t.homeNode (t.homeNode * 128) t.parish
          (if t.flag.getLsbD 62 then placeOf (placeCore (chipOfNode t.homeNode) t.flag) (placeOffset t.flag) else t.flag)
          (joinStamps t.retirement)
      let s := s.releaseDependants task false
      let s := match t.command with
        | some (p, seq) => s.decideCommand p seq 0 0
        | none => s
      s.clearTask task
    else s)

/-- A task with an ended member, or an operation that ended with no thread to join it, ends failed-partial (R379, R382). -/
def execTaskEndFailedPartial (task : Nat) (s : State) : Out :=
  .next (
    let t := s.task task
    let gone := t.members.all fun m => decide (m.state = .halted) || decide (m.state = .ended)
    let failed := t.opEnded || t.members.any fun m => decide (m.state = .ended)
    if t.live && !t.members.isEmpty && gone && failed && !s.busyOps task then
      let count (st : MemberState) : Nat := (t.members.filter fun m => decide (m.state = st)).length
      let n : Notice := .report t.record (count .halted) (count .ended) t.firstCause t.homeNode t.command
      let s := { s with ops := s.ops.filter fun e => e.2.task != task }
      (s.push (.notice n t.parish (chipOfNode t.homeNode))).clearTask task
    else s)

/-! ### Tolls (R184 to R186) -/

/-- A node waits for a toll. -/
def State.wantsToll (s : State) (node : Nat) : Bool := !(s.node node).toll.held && s.loomBusy node

/-- Nodes of a die that wait. -/
def State.tollWaiters (s : State) (die : Nat) : List Nat :=
  s.cores.foldl (fun l c =>
    if dieOfNode (nodeOfCore c.1) = die ∧ s.wantsToll (nodeOfCore c.1) then NSet.insert l (nodeOfCore c.1) else l) []

/-- Every waiting node of a die is looked at. -/
def State.pokeTolls (s : State) (die : Nat) : State :=
  (s.tollWaiters die).foldl (fun s n => s.event (.tollArrival n)) s

/-- When a free toll first stands at position `q` of its ring from time `t` on: it moves one node each mesh cycle, two core
cycles (R185), from where it was put, on the die's clock. The ring takes the nodes of a die in the order of their numbers
(log 9). DESIGN CHOICE, log 96. -/
def tollMeets (p : Nat × Nat) (q t : Nat) : Nat :=
  let from' := Nat.max p.2 t
  let steps := (from' - p.2) / 2
  let d := (q + 3072 - (p.1 + steps) % 3072) % 3072
  if d = 0 then from' else p.2 + 2 * (steps + d)

/-- Tolls of a die that its nodes hold. -/
def State.tollsHeld (s : State) (die : Nat) : Nat := (s.nodes.filter fun e => dieOfNode e.1 == die && e.2.toll.held).length

/-- What comes first of what has befallen the free tolls of a die: a toll reaches a node that waits, or the station at position 0,
which withdraws it, while there are more than the count (R184, R185). -/
def State.nextToll (s : State) (die : Nat) : Option (Nat × (Nat × Nat) × Option Nat) :=
  let d := s.die die
  let now := s.dieTime die
  let waits := (s.tollWaiters die).map fun n => (n, (s.node n).toll.waits.getD now)
  let surplus := decide (d.tollCount < s.tollsHeld die + d.free.length)
  let l := d.free.flatMap fun p => waits.map (fun w => (tollMeets p (w.1 % 3072) w.2, p, some w.1)) ++
    if surplus then [(tollMeets p 0 d.countFrom, p, none)] else []
  (l.filter fun e => decide (e.1 ≤ now)).foldl (fun acc e =>
    match acc with
    | some a => if e.1 < a.1 then some e else acc
    | none => some e) none

/-- A waiting node takes a free toll and starts its Loom commands (R185). -/
def State.takeToll (s : State) (node : Nat) (p : Nat × Nat) : State :=
  let die := dieOfNode node
  let now := s.nodeTime node
  let s := s.modDie die fun d => { d with free := dropOne d.free p }
  let s := s.modNode node fun n => { n with toll := { held := true, since := now, idleFrom := now } }
  let s := (List.range 16).foldl (fun s i => s.kick (node * 16 + i) .loom) s
  let s := if (s.tollWaiters die).isEmpty then s.modDie die fun d => { d with demand := false } else s
  s.timer (s.leadCore node) Config.cycles64us (.event (.tollReturn node))

/-- What has befallen the free tolls of a die by now, in the order of time. -/
def State.settleTolls (s : State) (die : Nat) : Nat → State
  | 0 => s
  | fuel + 1 =>
      match s.nextToll die with
      | none => s
      | some (_, p, some n) => (s.takeToll n p).settleTolls die fuel
      | some (_, p, none) => (s.modDie die fun d => { d with free := dropOne d.free p }).settleTolls die fuel

def State.settled (s : State) (die : Nat) : State := s.settleTolls die (s.die die).free.length

/-- A die's toll count is set: the station injects free tolls, or withdraws those that pass it; held ones are not recalled (R184).
DESIGN CHOICE, log 61. -/
def State.setTolls (s : State) (die count : Nat) : State :=
  let n := Nat.max 64 (Nat.min 3072 count)
  let s := s.settled die
  let now := s.dieTime die
  let held := s.tollsHeld die
  (s.modDie die fun d =>
    { d with tollCount := n, countFrom := now, free := d.free ++ List.replicate (n - held - d.free.length) (0, now) }).pokeTolls
    die

/-- The governor sets a die's toll count (R184). -/
def execTollCountSet (die count : Nat) (s : State) : Out := .next (s.setTolls die count)

/-- A waiting node looks again when a free toll comes to it, if no node before it takes that toll. -/
def State.awaitToll (s : State) (node : Nat) : State :=
  let die := dieOfNode node
  let now := s.dieTime die
  let due := Due.event (.tollArrival node)
  let next := (s.die die).free.foldl (fun acc p =>
    let t := tollMeets p (node % 3072) now
    match acc with
    | some a => if t < a then some t else acc
    | none => some t) none
  match next with
  | some t => if s.timers.any fun e => decide (e.2.2 = due) then s else s.timer (s.leadCore node) (t - now) due
  | none => s

/-- Free tolls go to the waiting nodes that they have reached; one that still waits looks again when the next comes (R185). -/
def execTollArrival (node : Nat) (s : State) : Out :=
  .next (
    let s := s.settled (dieOfNode node)
    if s.wantsToll node then s.awaitToll node else s)

/-- A node gives its toll to the ring at its own position, from which it moves on. DESIGN CHOICE, log 96. -/
def State.giveToll (s : State) (node : Nat) : State :=
  let die := dieOfNode node
  let s := s.settled die
  let now := s.dieTime die
  let s := s.modNode node fun n => { n with toll := { n.toll with held := false, waits := if s.loomBusy node then some now else none } }
  let s := s.modDie die fun d =>
    { d with free := d.free ++ [(node % 3072 + 1, now)], demand := d.demand || s.wantsToll node }
  s.pokeTolls die

/-- Loom commands of a node are running. -/
def State.loomRunning (s : State) (node : Nat) : Bool :=
  s.ops.any fun e => decide (e.2.engine = .loom) && nodeOfCore e.2.core == node && decide (e.2.state = .running)

/-- A node has held its toll for 64 µs with demand marked. -/
def State.tollOverheld (s : State) (node : Nat) : Bool :=
  (s.die (dieOfNode node)).demand && decide ((s.node node).toll.since + Config.cycles64us ≤ s.nodeTime node)

/-- A node returns its toll after 256 idle cycles (R185), and one held too long once its running commands have finished. -/
def execTollReturn (node : Nat) (s : State) : Out :=
  .next (
    let t := (s.node node).toll
    if !t.held then s
    else if s.tollOverheld node && !s.loomRunning node then s.giveToll node
    else if s.loomBusy node then s
    else if t.idleFrom + 256 ≤ s.nodeTime node then s.giveToll node
    else s.timer (s.leadCore node) (t.idleFrom + 256 - s.nodeTime node) (.event (.tollReturn node)))

/-- A node that has held a toll for 64 µs with demand marked starts no further Loom command, and returns the toll once its
running ones have finished (R185). -/
def execTollHoldLimit (node : Nat) (s : State) : Out :=
  .next (
    if (s.node node).toll.held && s.tollOverheld node && !s.loomRunning node then s.giveToll node else s)

end Sys2Proof.Machine
end

