-- ==== Sys2Proof/Machine/Save.lean ====
section
/-! DEFINITION. Saving, disposing of and resuming contexts, and pre-emption (07 R181 to R183; 11 R305; 14 R369 to R373). -/

namespace Sys2Proof.Machine

/-! ### Saving (Table 11-10) -/

/-- How a parked thread is saved. -/
inductive SaveRule where
  /-- not yet: its instruction completes first -/
  | later
  /-- at once, with its instruction issued again at resumption -/
  | again
  /-- at once, with the next instruction at resumption -/
  | next
  /-- at once, parked as it is at resumption -/
  | as (w : Wait)
  deriving DecidableEq, Repr

def saveRule (w : Wait) : SaveRule :=
  match w with
  | .reply _ | .release | .longOp | .away | .seal | .store _ | .launch _ => .later
  | .window | .join | .arrival | .borrow | .board _ | .code | .queue _ | .granary | .carillon _ | .moving _ => .again
  | .yieldUntil => .next
  | .line n => .as (.line n)
  | .command op => .as (.command op)
  | .wake => .as .wake

/-- How a parked thread is saved, where what it has begun decides: a TX for a queue entry is saved with its command listed, a
TQ is issued again; a KVSUB that reads its descriptor is issued again once what it has asked for has come. -/
def State.saveRuleOf (s : State) (w : Wait) : SaveRule :=
  match w with
  | .queue op =>
      match s.op? op with
      | some o => if o.origin = .tx then .as (.queue op) else .again
      | none => .again
  | .launch sub =>
      if !(s.subscription sub).live || (s.accesses.any fun e => decide (e.2.reader = .launch sub)) then .later else .again
  | w => saveRule w

/-- What an instruction that is issued again at resumption has begun is withdrawn: a submission, a subscription, or a
command that waits for a queue entry (R305). -/
def State.withdraw (s : State) (t : Nat) (w : Wait) : State :=
  match w with
  | .board sub => s.setSubmission sub {}
  | .carillon sub | .launch sub =>
      let v := s.subscription sub
      (((s.endReads sub).modGranary v.node v.slot fun _ => {}).setSubscription sub {}).granaryFreed v.node
  | .queue op => (s.dropOp op).modSlot t fun c => { c with txs := c.txs.filter (· != op) }
  | _ => s

/-- A TX that waits for a toll waits no more while its thread is saved (R182): its command leaves the Loom's queue. -/
def State.dropTollWait (s : State) (kept : Option Wait) : State :=
  match kept with
  | some (.command op) =>
      match s.op? op with
      | some o =>
          if o.engine = .loom ∧ o.state = .queued ∧ !(s.node (nodeOfCore o.core)).toll.held then s.leaveQueue op o else s
      | none => s
  | _ => s

/-- A thread that takes cause 0x16 because an object's state code is reserved: the Vestry gets a machine-check record, with HBM,
which holds the object table, as the storage class (R381); the other sources of the cause have sent theirs. -/
def State.reportReserved (s : State) (t : Nat) : State :=
  match (s.slot t).trap with
  | some (c, _, v) =>
      if c = 0x16 ∧ !isPlace v ∧ 4 < (s.obj (chipOfThread t) (s.slot t).parish (handleObj v)).state then
        s.machineCheck (nodeOfThread t) 1 v
      else s
  | none => s

/-- Writes the record of a slot and frees its slots, unless a ring refuses (R182, R369). -/
def State.writeContext (s : State) (t reason : Nat) (pc : Word) (kept : Option Wait) : Option State :=
  let c := s.slot t
  match s.takeRecord (chipOfThread t) c.parish with
  | none => none
  | some (h, pa, s) =>
    let s := s.writeRecord pa (s.contextWords t reason pc kept)
    let s := s.reportReserved t
    let k : Slot := { c with state := .held, pc := pc, preempt := none, trap := none, savedIn := kept, savedFrom := t,
                             record := h, fork := none }
    let s := s.dropTollWait kept
    let s : State := { s with
      saved := AMap.set {} s.saved pa k
      ops := s.ops.map fun e => if e.2.thread = t ∧ e.2.saved = 0 then (e.1, { e.2 with saved := pa }) else e
      accesses := s.accesses.map fun e =>
        if e.2.thread = t ∧ e.2.saved = 0 ∧ e.2.opId ≠ 0 then (e.1, { e.2 with saved := pa }) else e }
    let s := match c.lent with
      | some i => s.freeSlot (coreOfThread t * 8 + i)
      | none => s
    let s := if c.wf then
        let s := s.modCore (coreOfThread t) fun k =>
          { k with arrivals := k.arrivals.filter fun a => decide (a ≠ Arrival.running (slotOfThread t)) }
        s.wakeIf fun _ c => parkedOn .arrival c
      else s
    some (s.freeSlot t)

/-- Looks again at a slot that is to be saved. -/
def State.saveLater (s : State) (t n : Nat) : State := s.timer (coreOfThread t) n (.event (.contextSave t))

/-- Writes the record of a slot, or leaves it saving and tries again after 1 µs (R369). -/
def State.saveNow (s : State) (t reason : Nat) (pc : Word) (kept : Option Wait) : State :=
  match s.writeContext t reason pc kept with
  | some s => s
  | none =>
      (s.modSlot t fun c => { c with state := .saving reason, pc := pc, preempt := none, savedIn := kept }).timer
        (coreOfThread t) 4000 (.event (.saveRingRetry t))

/-- The spill engine saves a slot once its writes are acknowledged and what it is parked in lets it (R137, R305, R369). -/
def execContextSave (thread : Nat) (s : State) : Out :=
  .next (
    let c := s.slot thread
    let ready := s.released thread
    match c.state, c.preempt with
    | .saving r, _ => if ready then s.saveNow thread r c.pc c.savedIn else s.saveLater thread 4
    | .ready, some r => if ready then s.saveNow thread r c.pc none else s.saveLater thread 4
    | .parked w, some r =>
        match s.saveRuleOf w with
        | .later => s.saveLater thread 4
        | .again => if ready then (s.withdraw thread w).saveNow thread r c.pc none else s.saveLater thread 4
        | .next => if ready then s.saveNow thread r (c.pc + 4) none else s.saveLater thread 4
        | .as w => if ready then s.saveNow thread r c.pc (some w) else s.saveLater thread 4
    | _, _ => s)

/-- A saving slot that a ring has refused tries again (R369). -/
def execSaveRingRetry (thread : Nat) (s : State) : Out :=
  .next (
    let c := s.slot thread
    match c.state with
    | .saving r => if s.released thread then s.saveNow thread r c.pc c.savedIn else s.saveLater thread 4
    | _ => s)

/-! ### Resumption (R183) -/

/-- Slots a saved context needs: its own, and one more for a lent slot. -/
def State.resumeSlots (s : State) (pa : Nat) (c : Slot) : Option (Nat × Option Nat) :=
  let core := coreOfThread c.savedFrom
  let two := (s.recWord pa 0).getLsbD 27
  let l := if c.wf then [6, 7].filter fun i => decide ((s.slot (core * 8 + i)).state = .free)
    else s.looseSlots core (if two then 2 else 1)
  if two then
    match l with
    | a :: b :: _ => some (a, some b)
    | _ => none
  else l.head?.map fun a => (a, none)

/-- The state in which a thread goes on, by what it was parked in when it was saved (R62, R98, R183): the return of a TX is an
acquire, a wait that was satisfied takes in what its wake brought, and one that met a busy notice is registered again. -/
def State.rejoinWait (s : State) (pa t : Nat) (c : Slot) : State :=
  let parked (s : State) (w : Wait) : State := s.modSlot t fun c => { c with state := .parked w }
  match c.savedIn with
  | some (.command op) =>
      match s.op? op with
      | none => (s.joined t none).finishOf t
      | some o =>
          let s := parked s (.command op)
          if o.faulted then s.surfaceTx op o
          else if o.state = .queued ∧ !((s.core o.core).queue o.engine).contains op then
            if s.queueFull o.core o.engine then parked s (.queue op) else s.enqueue op
          else s
  | some (.queue op) => (parked s (.queue op)).push (.again t)
  | some (.line n) => if (s.slot t).pc = c.pc then (parked s (.line n)).push (.again t) else s
  | some .wake =>
      match c.wait with
      | none => s
      | some w =>
          if w.received then
            let s := s.modSlot t fun c => { c with wait := none }
            let k := (s.recWord pa 0x3B0).toNat
            if k ≠ 0 then s.trapIn t k (s.recWord pa 0x3C0) else (s.acquire t w.stamps).finishOf t
          else
            let s := parked s .wake
            match s.access? w.id with
            | none => s
            | some a =>
                let s := s.modAccess w.id fun a => { a with thread := t }
                if a.performed || (s.packets.any fun e => decide (e.2.payload = .request w.id)) then s else s.resend w.id a
  | _ => s

/-- The storage of a saved context is its own, or free for it. -/
def State.storageThere (s : State) (pa core : Nat) (c : Slot) : Bool :=
  (s.recWord pa 0x3C8 == 0 || s.storageFree core c) && !((s.core core).blocks.any fun b => (s.sharedLost core c).contains b.1)

/-- Another saved context holds some of the storage that a context needs: bytes of its window, or a block that it names. -/
def inItsWay (pa : Nat) (c : Slot) (e : Nat × Slot) : Bool :=
  e.1 != pa &&
    (meet c.wbase.toNat c.span e.2.wbase.toNat e.2.span ||
      c.tiles.toList.any fun t => t.mapped && e.2.tiles.toList.any fun u => u.mapped && u.block == t.block)

/-- The board claims what stands in the way of a resumption, one saved context at a time (R183, R188). -/
def State.makeWay (s : State) (pa core : Nat) (c : Slot) : Nat → State
  | 0 => s
  | fuel + 1 =>
      if s.storageThere pa core c then s
      else
        match s.claimOne core (inItsWay pa c) with
        | some s => s.makeWay pa core c fuel
        | none => s

/-- A saved context resumes on its core, in the slots it needs and with its storage restored if it was claimed; the board claims
storage for it that other saved contexts hold (R183). -/
def State.resumeContext (s0 : State) (pa : Nat) (c : Slot) : State :=
  let core := coreOfThread c.savedFrom
  let claimed := s0.recWord pa 0x3C8 != 0
  match s0.resumeSlots pa c with
  | none => s0
  | some (i, lent) =>
    let s := s0.makeWay pa core c 8
    if !s.storageThere pa core c then s0
    else
      let s := (if claimed then s.restoreStorage core pa c else s).retakeShared core c
      let t := core * 8 + i
      let r := s.restored pa c
      let s := s.setSlot t { r with state := .ready, wait := c.wait, lent := lent, savedFrom := 0 }
      let s := match lent with
        | some j =>
            let x : Vector Word 15 := Vector.ofFn fun n =>
              if 1 ≤ n.val ∧ n.val ≤ 10 then s.recWord pa (0x358 + 8 * n.val) else 0
            let l : Slot := { state := .lent, x := x }
            s.setSlot (core * 8 + j) l
        | none => s
      let s := if c.wf then s.modCore core fun k => { k with arrivals := k.arrivals ++ [.running i] } else s
      let s := if c.wf then s
        else s.modTask c.task fun k =>
          match k.members[c.member]? with
          | some m => { k with members := listSet k.members c.member { m with thread := t } }
          | none => k
      let s : State := { s with
        saved := AMap.drop s.saved pa
        ops := s.ops.map fun e => if e.2.saved = pa then (e.1, { e.2 with saved := 0, thread := t }) else e
        accesses := s.accesses.map fun e =>
          if e.2.saved = pa then (e.1, { e.2 with saved := 0, thread := if e.2.posted then t else e.2.thread }) else e }
      let s := s.rejoinWait pa t c
      s.giveBack (chipOfCore core) c.parish freeRecordRing c.record

/-- Saved contexts of a node whose records have been disposed of with 1 resume as their cores have room; a record of 0
stands for all of them. -/
def execResumption (node record : Nat) (s : State) : Out :=
  .next (
    (s.saved.filter fun e => e.2.resuming && nodeOfThread e.2.savedFrom == node && (record == 0 || e.1 == record)).foldl
      (fun s e => s.resumeContext e.1 e.2) s)

/-! ### Dispositions (R372, Table 14-4) -/

/-- A context is ended: its member counts as ended, and its operations are left as those of a halted thread. -/
def State.endContext (s : State) (pa : Nat) (c : Slot) : State :=
  let cause := (s.recWord pa 0x3B0).toNat
  let s := s.leaveOps c fun o => o.saved == pa
  let s := match c.home with
    | some h => s.freeBoth h
    | none => s
  let s := s.setMember c.task c.member .ended
  let s := s.modTask c.task fun t => if t.firstCause = 0 then { t with firstCause := cause } else t
  ({ s with saved := AMap.drop s.saved pa }).pokeTask c.task

/-- An operation that a notice told of is disposed of. -/
def State.disposeOp (s : State) (id code : Nat) : State :=
  match s.op? id with
  | none => s
  | some o =>
    let s := s.modOp id fun o => { o with noticed := false }
    let joinable := s.joinable id o
    let finish (s : State) : State := (s.modTask o.task fun t => { t with opEnded := true }).freeOp id o
    if o.state = .ended then (if joinable then s else finish s)
    else if code = 1 then s.resumeOp id
    else if joinable then (s.modOp id fun o => { o with state := .suspended }).surface id
    else finish s

/-- What a notice's record told of is acted on. -/
def State.disposeNotice (s : State) (n : Notice) (code : Nat) : State :=
  match n with
  | .engine id => s.disposeOp id code
  | .page die roll a =>
      match (s.roll die roll).running with
      | some p =>
          if code = 1 then
            (s.modRoll die roll fun r => { r with running := some { p with heldRecord := false } }).event (.pageWalk die roll)
          else s.failPass die roll 0x09 a
      | none => s
  | .command p seq _ =>
      match (s.parish p).commands.find? fun c : HostCommand => c.seq == seq with
      | some c =>
          if code = 1 then
            let s := s.modParish p fun x =>
              { x with commands := x.commands.map fun c => if c.seq = seq then { c with waiting := false } else c }
            if c.opcode = 1 then s.event (.launchCommand p seq)
            else if c.opcode = 2 then s.event (.copyin p seq)
            else s.event (.copyout p seq)
          else if c.opcode = 1 then s.refuseCommand p seq 9
          else s.decideCommand p seq 0x21 (BitVec.ofNat 64 c.moved)
      | none => s
  | _ => s

/-- A disposition that a board acts on. -/
def dispositionOk (n : Option Notice) (code : Nat) : Bool :=
  match n with
  | some (.report ..) | some (.refused ..) => true
  | _ => code == 1 || code == 2

/-- The Vestry takes a record from a chip's resume ring, and the board of its node acts on its disposition (R372). -/
def execDisposition (chip parish : Nat) (s : State) : Out :=
  .next (match s.deqRing chip parish resumeRing with
    | none => s
    | some (h, s) =>
      match s.resolve chip parish h with
      | none => s
      | some pa =>
        let code := (field (s.recWord pa 0x3D0) 0 8).toNat
        let n := (s.notices.find? (·.1 == pa)).map (·.2)
        if !dispositionOk n code then s
        else
          match n with
          | some n =>
              let s : State := { s with notices := s.notices.filter (·.1 != pa) }
              (s.disposeNotice n code).giveBack chip parish freeRecordRing h
          | none =>
            match s.saved.find? (·.1 == pa) with
            | none => s
            | some (_, c) =>
              if code = 1 then
                ({ s with saved := AMap.set {} s.saved pa { c with resuming := true } }).event
                  (.resumption (nodeOfThread c.savedFrom) pa)
              else (s.endContext pa c).giveBack chip parish freeRecordRing h)

/-! ### Pre-emption (R181) -/

/-- A slot that the board may pre-empt for another task: never a wayfarer's, a held one or a lent one (R181). -/
def Slot.preemptible (c : Slot) : Bool :=
  !c.wf && c.preempt.isNone &&
    match c.state with
    | .ready => true
    | .parked .away => false
    | .parked _ => true
    | _ => false

/-- The cores on which slots must go for a share: those short of slots or of storage, and one of them where each has room for the
windows but they have no base in common. -/
def State.preemptCores (s : State) (t : Task) (node : Nat) (victim : Nat → Option Nat) : List Nat :=
  let cores := t.coresOn node
  let slots := cores.filter fun c => !s.slotsFit c (t.members.filter (·.core == c))
  let short := s.shortCores t node
  let own := short.filter fun c =>
    decide ((s.freeBlocks c).length < t.perCore node * t.ownNames.length + t.sharedNames.length) ||
      (s.basesFor [c] t.span (t.perCore node)).isNone
  let l := cores.filter fun c => slots.contains c || own.contains c
  if l.isEmpty then (short.filter fun c => (victim c).isSome).take 1 else l

/-- The slot of a core to pre-empt for a share: of the running task of lowest base priority below `p`, the latest accepted
among equals, that has one; where slot levels name the slots that are wanting, one of those. -/
def State.victimSlot (s : State) (t : Task) (node core p : Nat) : Option Nat :=
  let ms := t.members.filter (·.core == core)
  let named := ms.filterMap (·.slot)
  let slots := (List.range 8).filter fun i =>
    (s.slot (core * 8 + i)).preemptible && (s.slotsFit core ms || named.isEmpty || named.contains i)
  let victims := (s.sharesOf node fun h => decide (h.state = .running)).filter fun e =>
    decide (e.2.1.prio < p) && slots.any fun i => (s.slot (core * 8 + i)).task == e.1
  let worse (a b : Nat × Task × Share) : Bool :=
    decide (a.2.1.prio < b.2.1.prio) || (a.2.1.prio == b.2.1.prio && decide (b.2.2.order < a.2.2.order))
  match bestOf worse victims with
  | some (v, _, _) => slots.find? fun i => (s.slot (core * 8 + i)).task == v
  | none => none

/-- A slot of a core is being saved, or is to be. -/
def State.saving (s : State) (core : Nat) : Bool :=
  (List.range 8).any fun i =>
    let c := s.slot (core * 8 + i)
    c.preempt.isSome || (match c.state with
      | .saving _ => true
      | _ => false)

/-- The slots that a board pre-empts for a share, and those that it waits for: what it has claimed of saved contexts is room too.
None when no slot can make room. -/
def State.victimsFor (s : State) (t : Task) (h : Share) : Option (List Nat) :=
  let s' := s.claimFor t h.node 128
  let victim (core : Nat) : Option Nat := (s.victimSlot t h.node core (s.effective t h)).map fun i => core * 8 + i
  let cores := s'.preemptCores t h.node victim
  if cores.any s.saving then some ((cores.filter fun c => !s.saving c).filterMap victim)
  else
    match cores.filterMap victim with
    | [] => none
    | l => some l

/-- The board pre-empts slots for the first share, in its order, that finds no room and for which slots of lower base priority can
go, one at a time on each core, so that no more go than the admission needs (R181). -/
def execPreEmption (node : Nat) (s : State) : Out :=
  .next (
    let l := s.ranked node (s.admissible node)
    if l.any (s.fitsClaimed node) then s.event (.admission node)
    else
      match l.findSome? fun e => s.victimsFor e.2.1 e.2.2 with
      | some ts =>
          ts.foldl (fun s t => (s.modSlot t fun c => { c with preempt := some 0 }).event (.contextSave t)) s
      | none => s)

end Sys2Proof.Machine
end

