-- ==== Sys2Proof/Machine/Mesh.lean ====
section
/-! DEFINITION. The mesh: routing, gateways, multicasts, drain and swap, cluster reset and scrubbing (03 R66 to R88). -/

namespace Sys2Proof.Machine

/-! ### Routing (R69, R71, R72) -/

/-- The Belfry gateway that a node uses (R69). DEDUCED, log 17. -/
def belfryOf (n : Nat) : Nat :=
  dieOfNode n * 3072 + (if rowOfNode n < 32 then 31 else 32) * 48 + (if colOfNode n < 24 then 23 else 24)

/-- The node in which a packet is to leave the mesh of chip `here`. -/
def exitNode (here n dst : Nat) : Nat := if chipOfNode dst = here then dst else belfryOf n

/-- A route entry matches a destination and parish (Tables 3-7, 3-8). -/
def routeMatches (e : Word) (parish x y : Nat) : Bool :=
  e.getLsbD 63 && (e.getLsbD 62 || (field e 55 7).toNat == parish) &&
    decide ((field e 48 7).toNat ≤ x ∧ x ≤ (field e 41 7).toNat) &&
    decide ((field e 33 8).toNat ≤ y ∧ y ≤ (field e 25 8).toNat) && decide ((field e 22 3).toNat < 5)

/-- The default port toward (X, Y): 0 N, 1 E, 2 S, 3 W, and 5 at the destination itself (R69). -/
def defaultPort (n dst : Nat) : Nat :=
  if meshX n < meshX dst then 1 else if meshX dst < meshX n then 3
  else if meshY n < meshY dst then 2 else if meshY dst < meshY n then 0 else 5

/-- The output port at router `n` of a packet for a node, or for a Sexton core: the first matching entry of its epoch's
bank, or the default. Every router looks the packet up, that of the destination too (R72). -/
def State.portTo (s : State) (n : Nat) (p : Packet) (dst : Nat) : Nat :=
  let chip := chipOfNode n
  let exit := if p.sexton then belfryOf n else exitNode chip n dst
  let v := s.node n
  let es := (List.range 64).map fun i => AMap.get 0 v.banks (64 * (p.epoch % 2) + i)
  match es.find? fun e => routeMatches e p.parish (meshX exit) (meshY exit) with
  | some e => (field e 22 3).toNat
  | none =>
    match defaultPort n exit with
    | 5 => if p.sexton || chipOfNode dst != chip then 4 else 5
    | q => q

/-- The neighbour at a port, where the router has it (Table 3-5). -/
def neighbour (n port : Nat) : Option Nat :=
  let c := chipOfNode n
  match port with
  | 0 => if 0 < meshY n then some (nodeAt c (meshX n) (meshY n - 1)) else none
  | 1 => if meshX n < 95 then some (nodeAt c (meshX n + 1) (meshY n)) else none
  | 2 => if meshY n < 255 then some (nodeAt c (meshX n) (meshY n + 1)) else none
  | 3 => if 0 < meshX n then some (nodeAt c (meshX n - 1) (meshY n)) else none
  | _ => none

/-- A packet of the same class between the same nodes, of one epoch, is ahead at this router (R70). DEDUCED, log 36. -/
def State.overtakes (s : State) (n pk : Nat) (p : Packet) : Bool :=
  s.packets.any fun e => decide (e.1 < pk) && decide (e.2.cls = p.cls) && e.2.src == p.src && e.2.dst == p.dst &&
    e.2.epoch == p.epoch && decide (e.2.loc = .router n)

/-! ### Flits (R67) -/

/-- Flits of a packet with `n` bytes of data, no more than a line: up to 32 are inline. -/
def dataFlits (n : Nat) : Nat := if n ≤ 32 then 1 else 3

/-- Bytes of data that a request brings. -/
def Req.dataBytes : Req → Nat
  | .store bs | .deliver bs => bs.length
  | .adds elem items _ => ((elemOf elem false).map (·.bytes)).getD 0 * items.length
  | _ => 0

def State.flits (s : State) (p : Payload) : Nat :=
  match p with
  | .request id => dataFlits (((s.access? id).map (·.req.dataBytes)).getD 0)
  | .reply id => dataFlits (((s.access? id).map (·.value.length)).getD 0)
  | .page _ _ bs => dataFlits bs.length
  | .wayfarer _ => 3
  | _ => 1

/-! ### Boundaries of a cluster in reset (R85) -/

/-- A boundary router at `n` gets a packet for a node of a cluster in reset: it answers a request, or a multicast, with a
notice that ends the access with link lost, and discards anything else. -/
def State.refuseAt (s : State) (n pk : Nat) (p : Packet) : State :=
  let s := s.dropPacket pk
  let notice (s : State) (acc : Nat) : State :=
    match s.access? acc with
    | some a => if (s.node a.dst).inReset then s.send (.refused acc) .control a.parish n a.src false else s
    | none => s
  match p.payload with
  | .request acc => notice s acc
  | .page accs _ _ | .change accs _ => accs.foldl notice s
  | _ => s

/-- A packet is to enter node `m` from node `n`: a node in reset takes nothing, and what only passes through is discarded. -/
def State.boundary (s : State) (n m pk : Nat) (p : Packet) (k : State → State) : State :=
  if !(s.node m).inReset then k s
  else if (s.node p.dst).inReset || decide (p.cls = .multicast) then s.refuseAt n pk p
  else s.dropPacket pk

/-! ### Gateways (R75 to R79) -/

/-- The number of one direction of a gateway, or of a Belfry gateway: ports 0 to 3 cross a die seam, 4 goes from a node to
the Belfry die, and 5 comes from there. -/
def gatewayKey (n port : Nat) : Nat := n * 8 + port

def State.gateway (s : State) (n port : Nat) : Gateway := AMap.get {} (s.chip (chipOfNode n)).gateways (gatewayKey n port)
def State.modGateway (s : State) (n port : Nat) (f : Gateway → Gateway) : State :=
  s.modChip (chipOfNode n) fun c =>
    { c with gateways := AMap.set {} c.gateways (gatewayKey n port) (f (AMap.get {} c.gateways (gatewayKey n port))) }

/-- A packet joins the sending queue of a gateway. -/
def State.joinGateway (s : State) (n port pk : Nat) : State :=
  ((s.modPacket pk fun p => { p with loc := .seam n port, left := s.flits p.payload }).modGateway n port fun g =>
    { g with queue := g.queue ++ [pk] }).event (.gatewayFrame pk true)

/-- Two `AMO` adds of type i32 or i64 that a sending queue may combine (R79): first copies from one die, for one address,
parish and scope, which discard their old values. -/
def addsCombine (a b : Access) : Bool :=
  match a.req, b.req with
  | .amo 0 ty _, .amo 0 tz _ =>
      decide (ty ≤ 1) && ty == tz && dieOfNode a.src == dieOfNode b.src && a.addr == b.addr && decide (a.target = b.target) &&
        a.parish == b.parish && a.info.scope == b.info.scope && a.posted && b.posted && a.resends == 0 && b.resends == 0 &&
        !a.performed && !b.performed
  | _, _ => false

/-- The sum of two combined adds: the home takes it modulo 2^32 or 2^64. -/
def sumAdds : Req → Req → Req
  | .amo op ty v, .amo _ _ w => .amo op ty (v + w)
  | r, _ => r

/-- A request joins a gateway's sending queue. One that can be combined with a request that waits there, of which no flit
has gone, becomes part of it (R79). -/
def State.joinWithAdds (s : State) (n port pk : Nat) (p : Packet) : State :=
  match p.payload with
  | .request b =>
    match s.access? b with
    | none => s.joinGateway n port pk
    | some y =>
      let other := (s.gateway n port).queue.findSome? fun k =>
        match s.packet? k with
        | some q =>
          match q.payload with
          | .request a => ((s.access? a).filter fun x => decide (a ≠ b) && addsCombine x y).map fun _ => a
          | _ => none
        | none => none
      match other with
      | none => s.joinGateway n port pk
      | some a =>
          (s.dropPacket pk).modAccess a fun x =>
            { x with req := sumAdds x.req y.req, partners := x.partners ++ [b] ++ y.partners, gate := n }
  | _ => s.joinGateway n port pk

/-- The acknowledgement of a combined request has come back to the gateway, which acknowledges each original (R79). -/
def State.ackPartners (s : State) (n acc : Nat) : State :=
  match s.access? acc with
  | none => s
  | some a =>
      a.partners.foldl (fun s k =>
        match s.access? k with
        | some b => s.send (.ack k) .control b.parish n b.src false
        | none => s) (s.modAccess acc fun x => { x with partners := [] })

/-! ### The Belfry die (R69, R405) -/

/-- The engine operation whose request a packet carries (R405). -/
def State.engineOfPacket (s : State) (p : Packet) : Option Nat :=
  match p.payload with
  | .request id => (s.access? id).bind fun a => if a.op = 0 then none else some a.op
  | _ => none

/-- Packets of operation `op` toward chip `dst` that have left their source and not reached the Belfry of `chip`. -/
def State.inFlight (s : State) (chip dst op : Nat) : Bool :=
  s.packets.any fun e => chipOfNode e.2.dst == dst && s.engineOfPacket e.2 == some op &&
    (match e.2.loc with
     | .router m => chipOfNode m == chip
     | .seam m _ => chipOfNode m == chip
     | .waitingFork m => chipOfNode m == chip
     | _ => false)

/-- A packet leaves the mesh for the Belfry die, to be packed into an entry (R405): the requests of one engine operation
gather until the last of them in flight has come, or 16 KiB of them have (R428). -/
def State.toBelfry (s : State) (pk : Nat) (p : Packet) (chip : Nat) : State :=
  let s := s.modPacket pk fun p => { p with loc := .belfry chip }
  let dst := chipOfNode p.dst
  match s.engineOfPacket p with
  | none => s.newEntry (.packet pk) p.cls chip dst (framesOf 128)
  | some op =>
      let l := (s.packets.filter fun e => decide (e.2.loc = .belfry chip) && chipOfNode e.2.dst == dst &&
        s.engineOfPacket e.2 == some op).map (·.1)
      if s.inFlight chip dst op && decide (l.length < 128) then s
      else
        let s := l.foldl (fun s k => s.modPacket k fun p => { p with loc := .port chip 64 }) s
        s.newEntry (.copy l) p.cls chip dst (framesOf (128 * l.length))

/-- Adds a packet. -/
def State.addPacket (s : State) (p : Packet) : Nat × State :=
  let (id, s) := s.fresh
  (id, { s with packets := s.packets ++ [(id, p)] })

/-- The part of a payload that is for some destinations of a multicast. -/
def Payload.part (p : Payload) (accs : List Nat) : Payload :=
  match p with
  | .page _ q bs => .page accs q bs
  | .change _ c => .change accs c
  | p => p

/-- A multicast reaches the Belfry die: one packet for each destination chip goes on (R405). -/
def State.multicastToBelfry (s : State) (pk : Nat) (p : Packet) (chip : Nat) : State :=
  let chips := p.dsts.foldl (fun l d => NSet.insert l (chipOfNode d.1)) []
  chips.foldl (fun s c =>
    let ds := p.dsts.filter fun d => chipOfNode d.1 == c
    let (id, s) := s.addPacket { p with dst := ((ds.head?).map (·.1)).getD 0, dsts := ds, payload := p.payload.part (ds.map (·.2)),
                                        loc := .belfry chip, via := none }
    s.newEntry (.packet id) p.cls chip c (framesOf 128)) (s.dropPacket pk)

/-- The report of a router whose drain markers have all come reaches the Vestry (Table 3-9). Once every affected router
has reported, the old bank is the standby bank. -/
def State.drainReported (s : State) (node : Nat) : State :=
  let s := s.modNode node fun v => { v with reported := true }
  let mine := s.nodes.filter fun e => chipOfNode e.1 == chipOfNode node && e.2.swapping
  if mine.all fun e => e.2.reported then
    mine.foldl (fun s e => s.modNode e.1 fun v => { v with swapping := false, drained := [], reported := false }) s
  else s

/-- A packet has crossed a Belfry gateway from node `n`: to a Sexton core, back to the mesh, or to another chip. -/
def State.atBelfry (s : State) (n pk : Nat) (p : Packet) : State :=
  let chip := chipOfNode n
  if p.sexton then
    match p.payload with
    | .drained node => (s.dropPacket pk).drainReported node
    | _ => s.dropPacket pk
  else if p.dsts ≠ [] then s.multicastToBelfry pk p chip
  else if chipOfNode p.dst = chip then
    s.joinGateway (belfryOf p.dst) 5 pk
  else s.toBelfry pk p chip

/-! ### Multicasts and the fork buffer (R80, R81) -/

/-- Node `m`, which gets a multicast over the link from `n`, has its place for it: none stands there that came over that
link, and its fork buffer has room for what it would leave. R80 does not say how many multicast places a link has downstream: the
model has one for each link, each direction of a gateway and each local port. DESIGN CHOICE, log 115. -/
def State.placeFree (s : State) (n m : Nat) : Bool :=
  decide ((s.node m).forks.length < 4) && !(s.packets.any fun e => decide (e.2.cls = .multicast) && e.2.via == some n &&
    (decide (e.2.loc = .router m) || decide (e.2.loc = .waitingFork m)))

/-- The ports that a multicast leaves router `n` by, each with its destinations there. -/
def State.branches (s : State) (n : Nat) (p : Packet) : List (Nat × List (Nat × Nat)) :=
  (List.range 6).filterMap fun port =>
    match p.dsts.filter fun d => s.portTo n p d.1 == port with
    | [] => none
    | ds => some (port, ds)

/-- An earlier multicast in the fork buffer of router `n` is still to leave by a port (R81). -/
def State.earlierFork (s : State) (n pk port : Nat) : Bool :=
  ((s.node n).forks.takeWhile (· != pk)).any fun k =>
    match s.packet? k with
    | some q => q.dsts.any fun d => s.portTo n q d.1 == port
    | none => false

/-- The branch has a free multicast place downstream: at the next router, in the sending queue of a gateway, or at the local
port. -/
def State.branchFree (s : State) (n pk port : Nat) : Bool :=
  !s.earlierFork n pk port &&
    if port = 5 then
      !(s.packets.any fun e => decide (e.2.cls = .multicast) && e.2.dst == n && decide (e.2.loc = .delivered))
    else if port = 4 then !(s.packets.any fun e => decide (e.2.cls = .multicast) && decide (e.2.loc = .seam n 4))
    else
      match neighbour n port with
      | none => true
      | some m =>
          if dieOfNode m = dieOfNode n then s.placeFree n m
          else !(s.packets.any fun e => decide (e.2.cls = .multicast) && decide (e.2.loc = .seam n port))

/-- A copy of a multicast goes out on a branch. At the local port each destination gets its own. -/
def State.sendCopy (s : State) (n : Nat) (p : Packet) (b : Nat × List (Nat × Nat)) : State :=
  let q : Packet := { p with dsts := b.2, payload := p.payload.part (b.2.map (·.2)), via := none }
  if b.1 = 5 then
    b.2.foldl (fun s d =>
      let (id, s) := s.addPacket { q with dst := n, dsts := [d], payload := p.payload.part [d.2], loc := .delivered }
      s.event (arrivalEvent s id (p.payload.part [d.2]))) s
  else if b.1 = 4 then
    if n ≠ belfryOf n then s.machineCheck n 2 0
    else
      let (id, s) := s.addPacket q
      s.joinGateway n 4 id
  else
    match neighbour n b.1 with
    | none => s.machineCheck n 2 0
    | some m =>
        let (id, s) := s.addPacket q
        s.boundary n m id q fun s =>
          if dieOfNode m = dieOfNode n then
            (s.modPacket id fun q => { q with loc := .router m, via := some n }).event (.packetRoute id)
          else s.joinGateway n b.1 id

/-- What waits for a page to have been handed to the mesh goes on (R388). -/
def State.handedOver (s : State) (p : Packet) : State :=
  match p.payload with
  | .page (acc :: _) _ _ =>
    match s.access? acc with
    | some a =>
      match a.req with
      | .page sub _ => s.event (.pageWalk (s.subscription sub).die (s.subscription sub).roll)
      | _ => s
    | none => s
  | _ => s

/-- An older multicast still stands in the injection place of router `n`, or in the link's place, of this one. -/
def State.behind (s : State) (n pk : Nat) (p : Packet) : Bool :=
  s.packets.any fun e => decide (e.1 < pk) && decide (e.2.cls = .multicast) && e.2.via == p.via && !(s.node n).forks.contains e.1 &&
    (decide (e.2.loc = .router n) || decide (e.2.loc = .waitingFork n))

/-- A multicast at router `n`: copies go on every free branch, and a residual copy for the others enters the fork buffer.
One with a single branch waits in its place, and one that finds the buffer full keeps the place it came in; `none` when
nothing can move (R80). -/
def State.fork (s : State) (n pk : Nat) (p : Packet) : Option State :=
  let held := (s.node n).forks.contains pk
  if !held && s.behind n pk p then none
  else
    let bs := s.branches n p
    let free := bs.filter fun b => s.branchFree n pk b.1
    let later := bs.filter fun b => !s.branchFree n pk b.1
    let out (s : State) : State := free.foldl (fun s b => s.sendCopy n p b) s
    match later with
    | [] =>
        let s := out ((s.modNode n fun v => { v with forks := v.forks.filter (· != pk) }).dropPacket pk)
        some (if held || p.via.isSome then s else s.handedOver p)
    | _ =>
      if held then if free.isEmpty then none else some (out (s.modPacket pk fun q => { q with dsts := later.flatMap (·.2) }))
      else if bs.length ≤ 1 || decide (4 ≤ (s.node n).forks.length) then none
      else
        let s := out ((s.modNode n fun v => { v with forks := v.forks ++ [pk] }).modPacket pk fun q =>
          { q with dsts := later.flatMap (·.2), via := none, loc := .waitingFork n })
        some (if p.via.isSome then s else s.handedOver p)

/-- A multicast at router `n` goes on as far as it can, and what waited for the places it leaves tries again. -/
def State.multicastAt (s : State) (n pk : Nat) (p : Packet) : State :=
  match s.fork n pk p with
  | some s => s.pokeForks
  | none => s.modPacket pk fun q => { q with loc := .waitingFork n }

/-! ### One hop -/

/-- Ports of a router by which packets come from other routers, that of a Belfry gateway included (R69). -/
def meshPorts (n : Nat) : List Nat := (List.range 5).filter fun p => if p = 4 then n == belfryOf n else (neighbour n p).isSome

/-- A drain marker has come in by a port. A router whose markers have all come reports to the Vestry by a control packet to a
Sexton core (R69, R74). -/
def State.portDrained (s : State) (node port : Nat) : State :=
  let v := s.node node
  if !v.swapping || v.drained.contains port then s
  else
    let d := NSet.insert v.drained port
    let s := s.modNode node fun v => { v with drained := d }
    if (meshPorts node).all fun p => d.contains p then
      let (id, s) := s.addPacket { payload := .drained node, cls := .control, parish := 0, epoch := v.epoch, src := node, dst := node,
                                   channel := false, loc := .router node, sexton := true }
      s.event (.packetRoute id)
    else s

/-- One hop of a packet of another class at router `n` (R69, R72). -/
def State.hop (s : State) (pk n : Nat) (p : Packet) : State :=
  let port := s.portTo n p p.dst
  if port = 5 then
    if (s.node n).inReset then s.refuseAt n pk p
    else
      let s := s.modPacket pk fun p => { p with loc := .delivered }
      s.event (arrivalEvent s pk p.payload)
  else if port = 4 then
    if n ≠ belfryOf n then (s.dropPacket pk).machineCheck n 2 0 else s.joinGateway n 4 pk
  else
    match neighbour n port with
    | none => (s.dropPacket pk).machineCheck n 2 0
    | some m =>
        s.boundary n m pk p fun s =>
          if dieOfNode m = dieOfNode n then (s.modPacket pk fun p => { p with loc := .router m }).event (.packetRoute pk)
          else s.joinWithAdds n port pk p

/-- A router looks up a packet's output port (R72). Packets of one class between two nodes keep their order (R70). -/
def execPacketRoute (pk : Nat) (s : State) : Out :=
  .next (match s.packet? pk with
    | none => s
    | some p =>
      match p.loc with
      | .router n =>
          match p.payload with
          | .drainMark node port => (s.dropPacket pk).portDrained node port
          | _ =>
          if p.cls = .multicast then s.multicastAt n pk p
          else if s.overtakes n pk p then s.event (.packetRoute pk)
          else s.hop pk n p
      | _ => s)

/-- A router sends what it holds of a multicast on the branches whose places have freed (R80). -/
def execForkBufferSend (node pk : Nat) (s : State) : Out :=
  .next (match s.packet? pk with
    | none => s
    | some p => if p.loc = .waitingFork node then s.multicastAt node pk p else s)

/-! ### Frames (R75, R76, R78) -/

/-- The classes in the order of their turns (Table 3-6). -/
def classTurn (c : Class) : Nat :=
  match c with
  | .request | .relay => 0
  | .response => 1
  | .multicast => 2
  | .wayfarer => 3
  | .control => 4

/-- The node at the far end of a gateway, where it has routers at both. -/
def farEnd (n port : Nat) : Option Nat := if port = 5 then some n else neighbour n port

/-- A packet in a sending queue may send flits: a multicast of which none has gone needs its place at the far end. -/
def State.mayCross (s : State) (n port : Nat) (p : Packet) : Bool :=
  !decide (p.cls = .multicast) || decide (p.left < s.flits p.payload) ||
    (match farEnd n port with
     | some m => s.placeFree n m
     | none => true)

/-- The packets that wait in a sending queue, oldest first: number, class and flits to send. -/
def State.waiting (s : State) (n port : Nat) : List (Nat × Nat × Nat) :=
  (s.gateway n port).queue.filterMap fun k =>
    (s.packet? k).bind fun p =>
      if p.loc = .seam n port && s.mayCross n port p then some (k, classTurn p.cls, p.left) else none

/-- The next flit of a class: of its oldest packet. -/
def flitOf (w : List (Nat × Nat × Nat)) (c : Nat) : Option Nat := (w.find? fun e => e.2.1 == c && decide (0 < e.2.2)).map (·.1)

/-- One flit place of a frame: in every eighth frame a control flit has the first claim, and otherwise the classes take
their turns (R78). -/
def flitPlace (frame turn : Nat) (w : List (Nat × Nat × Nat)) : Option (Nat × Nat) :=
  let next := ((List.range 5).map fun i => (turn + i) % 5).findSome? fun c => (flitOf w c).map fun k => (k, (c + 1) % 5)
  if frame % 8 = 0 then ((flitOf w 4).map fun k => (k, turn)).or next else next

/-- The two flit places of a frame, and whose turn is next. -/
def composeFrame (frame turn : Nat) (w : List (Nat × Nat × Nat)) : List Nat × Nat :=
  match flitPlace frame turn w with
  | none => ([], turn)
  | some (k, t) =>
      match flitPlace frame t (w.map fun e => if e.1 = k then (e.1, e.2.1, e.2.2 - 1) else e) with
      | none => ([k], t)
      | some (j, u) => ([k, j], u)

/-- The last flit of a packet has crossed: it stands at the far end. -/
def State.crossed (s : State) (n port pk : Nat) (p : Packet) : State :=
  let s := s.modGateway n port fun g => { g with queue := g.queue.filter (· != pk) }
  if port = 4 then s.atBelfry n pk p
  else
    match farEnd n port with
    | none => s
    | some m =>
        s.boundary n m pk p fun s =>
          let s := (s.modPacket pk fun q => { q with loc := .router m, via := if p.cls = .multicast then some n else none }).event
            (.packetRoute pk)
          match p.payload with
          | .ack acc => if (s.access? acc).any fun a : Access => a.gate == m && !a.partners.isEmpty then s.ackPartners m acc else s
          | _ => s

/-- A flit of a packet has crossed. -/
def State.flitCrosses (s : State) (n port pk : Nat) : State :=
  match s.packet? pk with
  | none => s
  | some p =>
      if p.loc ≠ .seam n port then s
      else if p.left ≤ 1 then (s.crossed n port pk p).pokeForks
      else s.modPacket pk fun q => { q with left := q.left - 1 }

/-- A gateway has failed: what waits there is lost, and is recovered by R82 or ends. -/
def State.failGateway (s : State) (n port : Nat) : State :=
  let both := match port with
    | 4 => [(n, 4), (n, 5)]
    | 5 => [(n, 5), (n, 4)]
    | _ =>
      match neighbour n port with
      | some m => [(n, port), (m, (port + 2) % 4)]
      | none => [(n, port)]
  let s := both.foldl (fun s e => s.modGateway e.1 e.2 fun g => { g with failed := true, failures := 16, queue := [], held := [] }) s
  let s : State := { s with packets := s.packets.filter fun e => !(both.any fun g => decide (e.2.loc = .seam g.1 g.2)) }
  (s.machineCheck n 3 0).pokeForks

/-- One frame of the gateway at which a packet waits: its two flit places cross, or it is sent again, itself and what
follows it in the same order; 16 failures of one frame declare the gateway failed (R76). DEDUCED, log 38. -/
def execGatewayFrame (pk : Nat) (fecOk : Bool) (s : State) : Out :=
  .next (match s.packet? pk with
    | none => s
    | some p =>
      match p.loc with
      | .seam n port =>
        let g := s.gateway n port
        if g.failed then s.dropPacket pk
        else
          let (l, turn) := if g.held.isEmpty then composeFrame g.frame g.turn (s.waiting n port) else (g.held, g.turn)
          let s := if !fecOk && decide (16 ≤ g.failures + 1) then s.failGateway n port
            else if !fecOk then s.modGateway n port fun g => { g with held := l, turn := turn, failures := g.failures + 1 }
            else
              let s := s.modGateway n port fun g => { g with frame := g.frame + 1, turn := turn, held := [], failures := 0 }
              l.foldl (fun s k => s.flitCrosses n port k) s
          if (s.packet? pk).any fun q : Packet => q.loc == .seam n port then
            if l.isEmpty then s else s.event (.gatewayFrame pk true)
          else s
      | _ => s)

/-! ### Route tables, drain and swap (R73, R74) -/

/-- The Vestry writes an entry of the standby bank of a router that is in no rewrite; before any parish runs, boot writes
either bank. -/
def execRouteTableWrite (node bank idx : Nat) (entry : Word) (s : State) : Out :=
  .next (
    let v := s.node node
    let standby := !v.swapping && bank == (v.epoch + 1) % 2
    if bank < 2 ∧ idx < 64 ∧ (standby || !(s.parishes.any fun e => e.2.present)) then
      s.modNode node fun v => { v with banks := AMap.set 0 v.banks (64 * bank + idx) (entry &&& ~~~(0x3FFFFF : Word)) }
    else s)

/-- The port at which neighbour `m` stands from the port's other side. -/
def opposite (port : Nat) : Nat := (port + 2) % 4

/-- The router that a packet for node `dst` goes to next from router `k`, and the port at which it comes in there; a packet that
goes by the Belfry comes back to the mesh at the gateway of its destination. -/
def State.nextRouter (s : State) (p : Packet) (dst k : Nat) : Option (Nat × Nat) :=
  let port := s.portTo k p dst
  if port = 4 then
    if k = belfryOf k ∧ p.sexton = false ∧ chipOfNode dst = chipOfNode k then some (belfryOf dst, 4) else none
  else (neighbour k port).map fun j => (j, opposite port)

/-- The rest of a packet's route from router `k` toward a node comes into router `n` by a port, on a fuel of hops. -/
def State.takesLink (s : State) (p : Packet) (dst n port : Nat) : Nat → Nat → Bool
  | 0, _ => false
  | fuel + 1, k =>
    match s.nextRouter p dst k with
    | some (j, q) => (j == n && q == port) || s.takesLink p dst n port fuel j
    | none => false

/-- A packet of an epoch before `epoch` is still to come into router `n` by a port. -/
def State.oldComing (s : State) (n port epoch : Nat) : Bool :=
  s.packets.any fun e => decide (e.2.epoch < epoch) &&
    let ds := if e.2.dsts = [] then [e.2.dst] else e.2.dsts.map (·.1)
    let from' (k q : Nat) : Bool := (k == n && q == port) || ds.any fun d => s.takesLink e.2 d n port 512 k
    let on (k : Nat) : Bool := ds.any fun d => s.takesLink e.2 d n port 512 k
    match e.2.loc with
    | .router k | .waitingFork k => on k
    | .seam k q =>
        if q = 5 then from' k 4
        else if q = 4 then !e.2.sexton && ds.any fun d => chipOfNode d == chipOfNode k && from' (belfryOf d) 4
        else
          match neighbour k q with
          | some j => from' j (opposite q)
          | none => false
    | _ => false

/-- The marker of the link that comes into router `n` by a port, sent on the control class behind what has crossed it: over a die
seam or from the Belfry by the gateway's frames, and else by the link at once. -/
def State.passMarker (s : State) (n port : Nat) : State :=
  let sent : Packet := { payload := .drainMark n port, cls := .control, parish := 0, epoch := (s.node n).epoch, src := n, dst := n,
                         channel := false, loc := .router n }
  let (id, s) := s.addPacket sent
  if port = 4 then s.joinGateway n 5 id
  else
    match (neighbour n port).filter fun m => dieOfNode m ≠ dieOfNode n with
    | some m => s.joinGateway m (opposite port) id
    | none => s.event (.packetRoute id)

/-- From a swap marker on, packets injected at the node carry the new epoch; a second rewrite waits for the first. -/
def execSwapMarker (node : Nat) (s : State) : Out :=
  .next (
    let v := s.node node
    if v.swapping then s
    else
      let s := s.modNode node fun v => { v with epoch := v.epoch + 1, swapping := true, drained := [], reported := false }
      (meshPorts node).foldl (fun s p =>
        let s := s.event (.drainMarker node p)
        match neighbour node p with
        | some m => s.event (.drainMarker m (opposite p))
        | none => s) s)

/-- The neighbour at a port passes its drain marker behind its last old-epoch packet on that link; it still injects such
packets until its own swap marker has come (R74). DEDUCED, log 37. -/
def execDrainMarker (node port : Nat) (s : State) : Out :=
  .next (
    let v := s.node node
    let early := match neighbour node port with
      | some m => decide ((s.node m).epoch < v.epoch) && !(s.node m).harvested
      | none => false
    if !v.swapping || v.drained.contains port || !(meshPorts node).contains port ||
        (s.packets.any fun e => decide (e.2.payload = .drainMark node port)) then s
    else if s.oldComing node port v.epoch || early then s.timer (node * 16) 4 (.event (.drainMarker node port))
    else s.passMarker node port)

/-! ### Cluster reset (R84 to R86, R379) -/

/-- A node lies in a cluster. -/
def clusterHas (c : Cluster) (n : Nat) : Bool :=
  chipOfNode n == c.chip && dieInChip n == c.die && decide (c.rowLo ≤ rowOfNode n ∧ rowOfNode n ≤ c.rowHi) &&
    decide (c.colLo ≤ colOfNode n ∧ colOfNode n ≤ c.colHi)

/-- The nodes of a cluster. -/
def clusterNodes (c : Cluster) : List Nat :=
  (List.range (c.rowHi + 1 - c.rowLo)).flatMap fun i => (List.range (c.colHi + 1 - c.colLo)).map fun j =>
    nodeKey c.chip c.die (c.rowLo + i) (c.colLo + j)

/-- Byte `pa` is storage of a node of the cluster. -/
def clusterHasByte (c : Cluster) (pa : Nat) : Bool :=
  match coreOfByte pa with
  | some k => clusterHas c (nodeOfCore k)
  | none => false

/-- Members that had their core in the cluster, or ran in it as wayfarers, end (R379). -/
def State.endMembers (s : State) (c : Cluster) (guests : List (Nat × Nat)) : State :=
  s.tasks.foldl (fun s t =>
    let hit := t.2.members.zipIdx.filter fun e =>
      (clusterHas c e.1.node || guests.contains (t.1, e.2)) && !(decide (e.1.state = .halted) || decide (e.1.state = .ended))
    let s := hit.foldl (fun s e => s.setMember t.1 e.2 .ended) s
    let s := s.modTask t.1 fun k => if !hit.isEmpty && k.firstCause = 0 then { k with firstCause := 0x12 } else k
    s.pokeTask t.1) s

/-- A counted write, of an engine too, or a flag increment (R86). -/
def State.countedAccess (s : State) (a : Access) : Bool :=
  a.flag.isSome || (AMap.get {} s.groups a.group).flag != 0 || match a.req with
    | .flagAdd _ => true
    | _ => false

/-- A packet that a cluster reset ends: it stands in the cluster, it has crossed a gateway into it or out of it in part, or it
is a counted write or an increment on its way into it or out of it (R85, R86). Whole packets of the cluster go on. -/
def State.cutBy (s : State) (c : Cluster) (p : Packet) : Bool :=
  let counted := match p.payload with
    | .request id => (s.access? id).any fun a : Access => s.countedAccess a && (clusterHas c a.src || clusterHas c a.dst)
    | _ => false
  counted || match p.loc with
    | .router n | .waitingFork n => clusterHas c n
    | .seam n port =>
        clusterHas c n ||
          (decide (p.left < s.flits p.payload) && decide (port < 4) && (neighbour n port).any fun m => clusterHas c m)
    | .delivered | .waitingLine _ | .waitingExtent | .waitingTurn => clusterHas c p.dst
    | _ => false

/-- The source of an access has been reset: nothing there waits for it or counts it any more. A packet of it that is under
way still takes effect. -/
def Access.orphaned (a : Access) : Access :=
  { a with posted := false, takesPlace := false, op := 0, reader := .thread, flag := none, group := 0, orphan := true }

/-- An access of which a copy is still on its way. -/
def State.underWay (s : State) (id : Nat) : Bool :=
  s.packets.any fun e => match e.2.payload with
    | .request k => k == id
    | .page accs _ _ | .change accs _ => accs.contains id
    | _ => false

/-- The Vestry resets a cluster: its storage is zero and its lines full, its Granary slots and boards are empty, what stands
in it is discarded, and its threads are gone (R85, R86). A counted write or an increment into it is lost at once, and another
access into it ends when it is sent again. DEDUCED, log 39. -/
def execClusterReset (c : Cluster) (s : State) : Out :=
  .next (
    let inOp (o : EngOp) : Bool := clusterHas c (nodeOfCore o.core)
    let s := (clusterNodes c).foldl (fun s n =>
      (List.range 32).foldl (fun s g => if (s.granary n g).sub ≠ 0 then s.unsubscribe n g else s) s) s
    let away := s.slots.filter fun e =>
      !clusterHas c (nodeOfThread e.1) && (match e.2.home with
        | some h => clusterHas c (nodeOfThread h)
        | none => false)
    let homes := s.slots.filterMap fun e => if clusterHas c (nodeOfThread e.1) then e.2.home else none
    let there (e : Nat × Slot) : Bool := clusterHas c (nodeOfThread e.2.savedFrom) && decide (e.1 < haltedBase)
    let guests := (s.slots.filter fun e => clusterHas c (nodeOfThread e.1) && e.2.home.isSome).map (fun e => (e.2.task, e.2.member)) ++
      (s.saved.filter fun e => there e && e.2.wf).map fun e => (e.2.task, e.2.member)
    let homes := homes ++ s.saved.filterMap fun e => if there e && e.2.wf then e.2.home else none
    let counted := s.accesses.filter fun e => s.countedAccess e.2 && clusterHas c e.2.dst && !clusterHas c e.2.src
    let s : State := { s with packets := s.packets.filter fun e => !s.cutBy c e.2 }
    let s : State := { s with
      mem := s.mem.filter fun e => !clusterHasByte c e.1
      empty := s.empty.filter fun l => !clusterHasByte c (128 * l)
      shadow := s.shadow.filter fun e => !clusterHasByte c (128 * e.1)
      stamps := s.stamps.filter fun e => !clusterHasByte c e.1
      errors := s.errors.filter fun e => !clusterHasByte c (8 * e.1)
      accesses := (s.accesses.filter fun e => !clusterHas c e.2.src || s.underWay e.1).map fun e =>
        if clusterHas c e.2.src then (e.1, e.2.orphaned) else e
      ops := s.ops.filter fun e => !inOp e.2
      slots := s.slots.filter fun e => !clusterHas c (nodeOfThread e.1)
      saved := s.saved.filter fun e => !there e
      cores := s.cores.filter fun e => !clusterHas c (nodeOfCore e.1)
      timers := s.timers.filter fun e => !clusterHas c (nodeOfCore e.1) }
    let s := away.foldl (fun s e => s.freeAway e.1) s
    let s := homes.foldl (fun s h => s.freeSlot h) s
    let s := (clusterNodes c).foldl (fun s n =>
      s.modNode n fun v => { inReset := true, harvested := v.harvested, banks := v.banks, epoch := v.epoch, seqs := v.seqs }) s
    let s := counted.foldl (fun s e => s.loseAccess e.1 e.2) s
    let s := s.endMembers c guests
    (s.pokeTolls (c.chip * 8 + c.die)).pokeForks)

/-- The Vestry releases a cluster: its boundary routers answer no more for it (R85). -/
def execClusterRelease (c : Cluster) (s : State) : Out :=
  .next ((clusterNodes c).foldl (fun s n => s.modNode n fun v => { v with inReset := false }) s)

/-! ### Scrubbing (R87, R88) -/

/-- What a scrubber's input tells of errors in the line from byte `pa` that are not in the state; an address outside the line
is none of its findings. DESIGN CHOICE, log 101. -/
def State.scrubFinding (s : State) (pa : Nat) (found : ScrubFinding) : State :=
  match found with
  | .clean => s
  | .corrected n => s.modCore (counterOf pa) fun c => { c with corrected := c.corrected + n }
  | .uncorrectable a =>
      if lineOf a = lineOf pa then s.machineCheck (counterOf pa / 16) (if pa < hbmBase then 0 else 1) (BitVec.ofNat 64 a) else s

/-- A core's scrubber reads the next of its 384 lines, corrects it, and goes on. -/
def execScrub (core : Nat) (found : ScrubFinding) (s : State) : Out :=
  .next (
    let pa := coreByte core (128 * (s.core core).scrubLine)
    let s := (s.scrubAt pa 128).scrubFinding pa found
    s.modCore core fun c => { c with scrubLine := (c.scrubLine + 1) % 384 })

/-- A channel Reeve's scrubber reads the next line of its 2 GiB; corrections are counted at the first core of its node. DEDUCED, log 40. -/
def execChannelScrub (chip channel : Nat) (found : ScrubFinding) (s : State) : Out :=
  .next (
    let n := (homeOfByte (channelLine chip channel 0)).1
    (s.scrubChannel n chip channel).scrubFinding (channelLine chip channel (s.node n).scrubLine) found)

end Sys2Proof.Machine
end

