-- ==== Sys2Proof/Machine/Parcel.lean ====
section
/-! DEFINITION. Parcels: POST (11 R304), and a parcel's offer, transfer, installation and failure (17 R420 to R422). -/

namespace Sys2Proof.Machine

/-- An entry with a given state in word 0 (Table 2-7). -/
def ObjEntry.withState (e : ObjEntry) (st : Nat) : ObjEntry :=
  { e with w0 := (e.w0 &&& ~~~(0x1C0000000000 : Word)) ||| BitVec.ofNat 64 (st * 2 ^ 42) }

/-- The free entry that follows an entry: its generation is one more (R49). -/
def ObjEntry.freed (e : ObjEntry) : ObjEntry := { w0 := packObj (e.gen + 1) 0 false 0, w1 := 0, w2 := 0 }

def State.modTransit (s : State) (id : Nat) (f : Transit → Transit) : State :=
  { s with transits := AMap.set {} s.transits id (f (AMap.get {} s.transits id)) }

/-- The transit with number `id`, while it lasts. -/
def State.transit? (s : State) (id : Nat) : Option Transit := (s.transits.find? (·.1 == id)).map (·.2)

/-- The parcel is already sealed or on its way. DEDUCED, log 68. -/
def State.posted (s : State) (parish obj : Nat) : Bool := s.transits.any fun t => t.2.parish == parish && t.2.obj == obj

/-- Extents of an object of `n` bytes. -/
def extentCount (n : Nat) : Nat := (n + 2 ^ 21 - 1) / 2 ^ 21

/-- POST (R304): the checks, the wait of a release, the checks again, and the seal, on which the thread waits until the
writes admitted before it are delivered (R48). -/
def execPost (g : Guard) (a b : Field4) (s : State) : Out :=
  scalar g s fun s =>
    let x := s.reg a
    let y := s.reg b
    let c := s.here
    let here := chipOfThread s.cur
    let e := s.obj here c.parish (handleObj x)
    if isPlace x then s.trap 0x0B x
    else if handleOff x ≠ 0 then s.trap 0x07 x
    else
      match checkEntry e (handleObj x) 0 0 rP (!c.pl) with
      | some k => s.trap k x
      | none =>
        if s.posted c.parish (handleObj x) then s.trap 0x0A x
        else if !e.isParcel then s.trap 0x0B x
        else if !isPlace y then s.trap 0x06 y
        else if y.toNat % 16 ≠ 0 then s.trap 0x05 y
        else
          match s.checkPlace here c.parish y 16 false with
          | some k => s.trap k y
          | none =>
            withRelease s fun s =>
              let (id, s) := s.fresh
              let t : Transit := { stage := .sealing, parish := c.parish, chip := here, obj := handleObj x,
                                   length := e.length, rights := e.w1.toNat, arrival := y,
                                   destChip := placeChip here y, destCore := placeCore here y, thread := s.cur,
                                   stamp := s.stampOf s.cur }
              let s := { s with transits := AMap.set {} s.transits id t }
              (s.issueChange c.parish (.entry (handleObj x) (e.withState 2)) id).park .seal

/-- Sends one of a parcel's messages to the other chip, or makes its step due where both ends are one chip (R422). -/
def State.parcelMessage (s : State) (body : EntryBody) (cls : Class) (src dst n : Nat) (i : Instr) : State :=
  if src = dst then s.event i else s.newEntry body cls src dst (framesOf n)

/-- A message has come: its entry, which stands at its destination, is taken. -/
def State.takeMessage (s : State) (t : Transit) (body : EntryBody) (dst : Nat) : Option State :=
  if t.chip = t.destChip then some s
  else
    match s.entries.find? fun e => decide (e.2.body = body) && e.2.at' == dst with
    | some e => some { s with entries := dropRec s.entries e.1 }
    | none => none

/-- Every chip has sealed the parcel and delivered its writes: it is in transit, its thread goes on, and the offer goes
(R304, R420). -/
def State.sealDone (s : State) (id : Nat) (t : Transit) : State :=
  let e := s.obj t.chip t.parish t.obj
  let ds := (List.range (extentCount t.length)).map fun i => s.descriptor t.chip t.parish t.obj (i * 2 ^ 21)
  let s := s.issueChange t.parish (.entry t.obj (e.withState 3)) 0
  let s := s.modTransit id fun t => { t with stage := .offered, extents := ds }
  let s := if parkedOn .seal (s.slot t.thread) then s.finishOf t.thread else s
  s.parcelMessage (.parcelOffer id) .request t.chip t.destChip 64 (.parcelOffer id)

/-- Backed extents of a transit, in ascending order. -/
def Transit.backed (t : Transit) : List Nat :=
  (t.extents.zipIdx.filter fun e => descRes e.1 != 0).map (·.2)

/-- Takes `n` frame numbers from a chip's free-frame ring, all or none. -/
def State.takeFrames (s : State) (chip parish : Nat) : Nat → List Nat → Option (List Nat × State)
  | 0, l => some (l, s)
  | n + 1, l =>
    match s.deqRing chip parish freeFrameRing with
    | some (f, s) => s.takeFrames chip parish n (l ++ [f.toNat])
    | none => none

/-- The receiving chip reserves an object number and frames and accepts; an offer waits, in order of arrival, while a ring is
short (R420). Where the arrival place belongs to no parish the parcel is refused (R422). DEDUCED, log 69. -/
def execParcelOffer (transit : Nat) (s : State) : Out :=
  .next (match s.transit? transit with
    | none => s
    | some t =>
      let first := if t.offer ≠ 0 then some s else s.takeMessage t (.parcelOffer transit) t.destChip
      match decide (t.stage = .offered), first with
      | true, some s =>
        match s.parishOf t.destCore with
        | none => (s.modTransit transit fun t => { t with refused := true }).event (.parcelTransitFailure transit)
        | some p =>
          let (order, s) := if t.offer ≠ 0 then (t.offer, s) else s.fresh
          let s := s.modTransit transit fun t => { t with offer := order, destParish := p }
          let retry (s : State) : State := s.timer t.destCore 4000 (.event (.parcelOffer transit))
          if s.transits.any fun e => decide (e.2.stage = .offered) && e.2.destChip == t.destChip && e.2.destParish == p &&
              e.2.offer != 0 && decide (e.2.offer < order) then retry s
          else
            match s.deqRing t.destChip p freeObjectRing with
            | none => retry s
            | some (o, s') =>
              match s'.takeFrames t.destChip p t.backed.length [] with
              | none => retry s
              | some (fs, s') =>
                let s := s'.modTransit transit fun t =>
                  { t with stage := .accepted, destObj := o.toNat % 2 ^ 23, frames := fs }
                s.parcelMessage (.parcelAccept transit) .control t.destChip t.chip 0 (.parcelAcceptance transit)
      | _, _ => s)

/-- First byte of the parish table at which no extent list of a parish lies (log 14). DESIGN CHOICE, log 14. -/
def State.freeXlist (s : State) (chip parish : Nat) : Nat :=
  s.objs.foldl (fun m e =>
    if e.1 / 2 ^ 23 = parish * 2 ^ 18 + chip ∧ e.2.state ≠ 0 then
      Nat.max m (e.2.xlist + 8 * extentCount e.2.length)
    else m) (32 * (s.controlWord chip parish 0x008).toNat)

/-- The last entry has landed: the object is installed by a table change, arrived and with the parcel bit (R421). A new
object takes the generation its entry was left with when it was freed (R36, R49). -/
def State.install (s : State) (id : Nat) (t : Transit) : State :=
  let old := s.obj t.destChip t.destParish t.destObj
  let e : ObjEntry :=
    { w0 := packObj old.gen 4 true t.length, w1 := BitVec.ofNat 64 t.rights,
      w2 := BitVec.ofNat 64 (s.freeXlist t.destChip t.destParish) }
  let b := t.backed
  let frames := (List.range t.extents.length).map fun i => (b.zip t.frames).find? (·.1 == i) |>.map (·.2)
  (s.modTransit id fun t => { t with stage := .installing }).issueChange t.destParish
    (.install t.destObj e t.destChip frames) id

/-- Entries of 16 KiB of a whole extent. -/
def chunksPerExtent : Nat := 128

/-- The posting chip starts to send the parcel's backed extents as entries of 16 KiB (R421). -/
def execParcelAcceptance (transit : Nat) (s : State) : Out :=
  .next (match s.transit? transit with
    | none => s
    | some t =>
      match decide (t.stage = .accepted), s.takeMessage t (.parcelAccept transit) t.chip with
      | true, some s =>
        let n := chunksPerExtent * t.backed.length
        let s := s.modTransit transit fun t => { t with stage := .moving }
        if n = 0 then s.install transit t
        else if t.chip = t.destChip then s.event (.parcelData transit)
        else (List.range n).foldl (fun s _ => s.newEntry (.parcelData transit) .request t.chip t.destChip (framesOf 16384)) s
      | _, _ => s)

/-- The receiver writes an entry into its reserved frames, and installs the parcel after the last (R421). The lines of an entry are
read at one point, and counted (R43); data with an uncorrectable error do not go (R44, R88), and the transit fails, as the spec
does not say otherwise. DESIGN CHOICE, log 120. -/
def execParcelData (transit : Nat) (s : State) : Out :=
  .next (match s.transit? transit with
    | none => s
    | some t =>
      match decide (t.stage = .moving), t.backed[t.moved / chunksPerExtent]?, t.frames[t.moved / chunksPerExtent]? with
      | true, some x, some f =>
        let part := t.moved % chunksPerExtent * 16384
        let off := x * 2 ^ 21 + part
        match s.resolve t.chip t.parish (BitVec.ofNat 64 (t.obj * 2 ^ 40 + off)) with
        | none => s.timer t.destCore 4000 (.event (.parcelData transit))
        | some src =>
          match s.takeMessage t (.parcelData transit) t.destChip with
          | none => s
          | some s =>
            let s := (List.range 128).foldl (fun s i => s.countExtent t.chip t.parish t.obj (off + 128 * i)) s
            match s.findError (consecutive src 16384) with
            | (s, true) =>
                (s.modTransit transit fun t => { t with refused := true }).event (.parcelTransitFailure transit)
            | (s, false) =>
            let s := s.write ((consecutive (hbmByte t.destChip (f * 2 ^ 21 + part)) 16384).zip
              (s.bytes (consecutive src 16384)))
            let s := s.modTransit transit fun t => { t with moved := t.moved + 1 }
            if t.moved + 1 = chunksPerExtent * t.backed.length then s.install transit t
            else if t.chip = t.destChip then s.event (.parcelData transit)
            else s
      | _, _, _ => s)

/-- The parcel is installed: a counted write from the receiver's Vestry brings its handle to the arrival record's word 0 and
counts word 1 (R90, Table 11-8), and the posting chip has its acknowledgement (R421). -/
def State.installDone (s : State) (id : Nat) (t : Transit) : State :=
  let a := placeOf t.destCore (placeOffset t.arrival)
  let n := vestryNode t.destChip
  let s := (s.request
    { req := .store ((List.range 8).zip (littleEndian (BitVec.ofNat 64 (t.destObj * 2 ^ 40)) 8)),
      target := .byte (placeByte t.chip t.arrival), addr := a, thread := 128 * n, parish := t.destParish, src := n, dst := 0,
      channel := false, seq := 0, posted := false, takesPlace := false, flag := some (a + 8), info := { stamp := t.stamp } }).2
  let s := s.modTransit id fun t => { t with stage := .arrived }
  s.parcelMessage (.parcelAck id) .control t.destChip t.chip 0 (.installationAcknowledgement id)

/-- The frames of the sender's extents go back to the free-frame rings of the chips that hold them. -/
def State.returnFrames (s : State) (t : Transit) : State :=
  t.extents.zipIdx.foldl (fun s e =>
    match descRes e.1 with
    | 1 => s.giveBack t.chip t.parish freeFrameRing (BitVec.ofNat 64 (descFrame e.1))
    | 2 =>
        let c := descOwner e.1
        let d := s.descriptor c t.parish t.obj (e.2 * 2 ^ 21)
        if descRes d = 1 then s.giveBack c t.parish freeFrameRing (BitVec.ofNat 64 (descFrame d)) else s
    | _ => s) s

/-- The posting chip frees the sender's entry and returns its frames (R421, R49). -/
def execInstallationAcknowledgement (transit : Nat) (s : State) : Out :=
  .next (match s.transit? transit with
    | none => s
    | some t =>
      match decide (t.stage = .arrived), s.takeMessage t (.parcelAck transit) t.chip with
      | true, some s =>
        let s := s.returnFrames t
        let s := s.issueChange t.parish (.entry t.obj (s.obj t.chip t.parish t.obj).freed) 0
        { s with transits := AMap.set {} s.transits transit {} }
      | _, _ => s)

/-- Removes the messages of a transit that are still on their way. -/
def State.dropMessages (s : State) (id : Nat) : State :=
  let mine (b : EntryBody) : Bool :=
    decide (b = .parcelOffer id ∨ b = .parcelAccept id ∨ b = .parcelData id ∨ b = .parcelAck id)
  let gone := (s.entries.filter fun e => mine e.2.body).map (·.1)
  let s : State := { s with entries := s.entries.filter fun e => !mine e.2.body }
  { s with chips := s.chips.map fun e =>
      (e.1, { e.2 with
        ports := e.2.ports.map fun q =>
          (q.1, { q.2 with queue := q.2.queue.filter fun x => !gone.contains x.2.2,
                           frames := q.2.frames.filter fun x => !gone.contains x.entry }) }) }

/-- A transit fails (R422): the object is held again under its old handle, the receiver frees what it had reserved, and the
posting chip's Vestry has a record that names the handle. -/
def execParcelTransitFailure (transit : Nat) (s : State) : Out :=
  .next (match s.transit? transit with
    | none => s
    | some t =>
      let lost := t.refused || !(s.reaches t.chip t.destChip) || !(s.reaches t.destChip t.chip)
      if decide (t.stage = .sealing) || !lost then s
      else
        let s := s.dropMessages transit
        let s := if t.stage = .accepted ∨ t.stage = .moving ∨ t.stage = .installing then
            let s := s.giveBack t.destChip t.destParish freeObjectRing (BitVec.ofNat 64 t.destObj)
            t.frames.foldl (fun s f => s.giveBack t.destChip t.destParish freeFrameRing (BitVec.ofNat 64 f)) s
          else s
        let s := if t.stage = .installing then
            s.issueChange t.destParish (.entry t.destObj (s.obj t.destChip t.destParish t.destObj).freed) 0
          else s
        let s := s.issueChange t.parish (.entry t.obj ((s.obj t.chip t.parish t.obj).withState 1)) 0
        let s := { s with transits := AMap.set {} s.transits transit {} }
        s.machineCheck (t.chip * 24576) 5 (BitVec.ofNat 64 (t.obj * 2 ^ 40)))

end Sys2Proof.Machine
end

