-- ==== Sys2Proof/Machine/Table.lean ====
section
/-! DEFINITION. Object-table changes and the caches they empty (02 R41, R45 to R49), and code lines (07 R449). -/

namespace Sys2Proof.Machine

/-- The object a change names. -/
def Change.obj : Change → Nat
  | .entry o _ => o
  | .extent o _ _ => o
  | .install o _ _ _ => o

/-- No cache of a chip keeps an object or its extents, and no line of it that is on its way to a code cache enters it (R47,
R449). -/
def State.emptyCaches (s : State) (chip parish obj : Nat) : State :=
  let key := objKey parish chip obj
  { s with
    cores := s.cores.map fun e =>
      if chipOfCore e.1 = chip then (e.1, { e.2 with handles := e.2.handles.filter (·.1 != key) }) else e
    nodes := s.nodes.map fun e =>
      if chipOfNode e.1 = chip then
        (e.1, { e.2 with
          cache := e.2.cache.filter fun c =>
            match c with
            | .object k _ => k != key
            | .extent k _ => k / 2 ^ 40 != parish * 2 ^ 18 + chip
          codeCache := e.2.codeCache.filter (·.1 != key) })
      else e
    accesses := s.accesses.map fun e =>
      match e.2.reader with
      | .fill t =>
          if chipOfThread t = chip ∧ e.2.parish = parish ∧ handleObj e.2.addr = obj then (e.1, { e.2 with reader := .thread })
          else e
      | _ => e }

/-- Writes the descriptor of extent `i` of an object in a chip's replica. -/
def State.setDescriptor (s : State) (chip parish obj i : Nat) (d : Word) : State :=
  { s with exts := AMap.set 0 s.exts (extKey parish chip ((s.obj chip parish obj).xlist + 8 * i)) d }

/-- The sectors of the frames that an object's extents have on a chip have no writer (R138). -/
def State.clearSectors (s : State) (chip parish obj : Nat) : State :=
  let e := s.obj chip parish obj
  let first := extKey parish chip e.xlist
  (s.exts.filter fun x => decide (first ≤ x.1 ∧ x.1 < first + 8 * extentCount e.length) && descRes x.2 == 1).foldl
    (fun s x => s.clearShadow (hbmByte chip (descFrame x.2 * 2 ^ 21)) (2 ^ 21)) s

/-- A chip's replica takes a new entry. One that becomes free takes the next generation (R49), and the sectors of an object
that is created or freed have no writer; the entry of object 1 never changes (R46). -/
def State.setEntry (s : State) (chip parish obj : Nat) (e : ObjEntry) : State :=
  let old := s.obj chip parish obj
  if obj = 1 then s
  else
    let e := if e.state = 0 ∧ old.state ≠ 0 then { e with w0 := packObj (old.gen + 1) 0 e.isParcel e.length } else e
    let changes := decide ((e.state = 0) ≠ (old.state = 0))
    let s := if changes then s.clearSectors chip parish obj else s
    let s := { s with objs := AMap.set {} s.objs (objKey parish chip obj) e }
    if changes then s.clearSectors chip parish obj else s

/-- A chip's replica takes a change. The count of a rewritten descriptor is clear in every replica (R43). -/
def State.applyChange (s : State) (chip parish : Nat) (c : Change) : State :=
  match c with
  | .entry o e => s.setEntry chip parish o e
  | .extent o i l =>
      s.setDescriptor chip parish o i
        (((l.find? (·.1 == chip)).map (·.2)).getD (s.descriptor chip parish o (i * 2 ^ 21)) &&& ~~~(0xFFFF : Word))
  | .install o e owner frames =>
      (frames.zipIdx.foldl (fun s f =>
        s.setDescriptor chip parish o f.2 (match f.1 with
          | some k => if chip = owner then localDesc k else remoteDesc owner
          | none => 0)) (s.setEntry chip parish o e)).clearSectors chip parish o

/-- Threads of a chip parked on a moving extent, on a code line or in a reading, and those whose requests wait at a home for
one. -/
def State.movingThreads (s : State) (chip : Nat) : List Nat :=
  (s.slots.filterMap fun e =>
    if chipOfThread e.1 = chip && (e.2.state.movingOn?.isSome || parkedOn .code e.2 || e.2.state.reading?.isSome) then some e.1 else none) ++
  s.packets.filterMap fun e =>
    match e.2.payload, e.2.loc with
    | .request id, .waitingExtent => (s.access? id).map (·.thread)
    | _, _ => none

/-- Accesses that a chip has admitted through an object's handle. An engine command has admitted the lines that it has
asked for; the others are checked as it comes to them (R48). DEDUCED, log 58. -/
def State.admittedOn (s : State) (chip parish obj : Nat) : List Nat :=
  (s.accesses.filter fun a => chipOfNode a.2.src == chip && a.2.parish == parish && !isPlace a.2.addr &&
    handleObj a.2.addr == obj).map (·.1)

/-- Threads that a change of an entry finds parked on a moving extent of the object: they were admitted under the old one, and are
checked again from step 6 alone (R41, R47). -/
def State.heldOn (s : State) (chip : Nat) (c : Change) : List Nat :=
  match c with
  | .entry o _ => s.slots.filterMap fun e => if chipOfThread e.1 = chip ∧ e.2.state.movingOn? = some o then some e.1 else none
  | _ => []

/-- A delivered packet of a change at its chip, with the access that it answers. -/
def State.changePacket (s : State) (chip chg : Nat) : Option (Nat × Nat) :=
  s.packets.findSome? fun e =>
    match e.2.payload, e.2.loc with
    | .change (acc :: _) c, .delivered => if c = chg ∧ chipOfNode e.2.dst = chip then some (e.1, acc) else none
    | _, _ => none

/-- The packet of a change is answered at its chip; what waits for its place goes on. -/
def State.takeChange (s : State) (chip pk acc : Nat) : State :=
  match s.access? acc with
  | none => (s.dropPacket pk).pokeForks
  | some a =>
      if a.performed then ((s.dropPacket pk).respond acc a (vestryNode chip)).pokeForks
      else (s.concludeAt pk acc a (vestryNode chip) false [] true none []).pokeForks

/-- The reply store of the Vestry's node has no place for the answer to a change: the change gets a busy notice, and comes
again (R83). -/
def State.changeRefused (s : State) (chip acc : Nat) : Option Access :=
  (s.access? acc).filter fun a : Access => !a.performed && !(s.node (vestryNode chip)).storeRoom false 0

/-- A change that has arrived is applied, in the order the supervisor issued them; one that comes early waits for those
before it (R46, R48). -/
def execTableChange (chip chg : Nat) (s : State) : Out :=
  .next (
    match s.changePacket chip chg with
    | none => s
    | some (pk, acc) =>
      let v : ChangeState := AMap.get {} s.changes chg
      match s.changeRefused chip acc, (s.chip chip).changes with
      | some a, _ => (s.sendBusy pk acc a (vestryNode chip)).pokeForks
      | none, [] => s.takeChange chip pk acc
      | none, h :: r =>
        if h ≠ chg then (if r.contains chg then s else s.takeChange chip pk acc)
        else
          let s := s.takeChange chip pk acc
          let obj := v.change.obj
          let wait := s.admittedOn chip v.parish obj
          let held := s.heldOn chip v.change
          let s := s.modChip chip fun c => { c with changes := r }
          let s := (s.applyChange chip v.parish v.change).emptyCaches chip v.parish obj
          let v : ChangeState := { v with applied := NSet.insert v.applied chip, waitFor := v.waitFor ++ wait, held := v.held ++ held }
          let s := { s with changes := AMap.set {} s.changes chg v }
          let s := (s.movingThreads chip).foldl (fun s t => s.event (.movingExtentRecheck t)) s
          let s := match r with
            | n :: _ => s.event (.tableChange chip n)
            | [] => s
          s.event (.tableChangeAcknowledge chip chg))

/-- What follows a completed change of a parcel's entry: the sealed parcel is handed to the fabric, or the installed one
arrives (R304, R421). -/
def State.changeComplete (s : State) (v : ChangeState) : State :=
  match AMap.get none (s.transits.map fun e => (e.1, some e.2)) v.transit with
  | none => s
  | some t =>
    match t.stage with
    | .sealing => s.sealDone v.transit t
    | .installing => s.installDone v.transit t
    | _ => s

/-- A chip acknowledges a change once the accesses it admitted before are answered or delivered, those among them that are parked
on a moving extent, which it looks at again after 1 µs; the change is complete when every chip has (R47). -/
def execTableChangeAcknowledge (chip chg : Nat) (s : State) : Out :=
  .next (
    let v : ChangeState := AMap.get {} s.changes chg
    let open' := v.waitFor.any fun id =>
      match s.access? id with
      | some a => chipOfNode a.src == chip
      | none => false
    let parked := v.held.any fun t => chipOfThread t == chip && (s.slot t).state.movingOn? == some v.change.obj
    if !v.applied.contains chip || v.acknowledged.contains chip || open' then s
    else if parked then s.timer (chip * 24576 * 16) 4000 (.event (.tableChangeAcknowledge chip chg))
    else
      let v : ChangeState := { v with acknowledged := NSet.insert v.acknowledged chip }
      if v.chips.all fun c => v.acknowledged.contains c then
        let s : State := { s with changes := AMap.set {} s.changes chg {} }
        s.changeComplete v
      else { s with changes := AMap.set {} s.changes chg v })

/-- What waits on a moving extent is checked again (R41). -/
def execMovingExtentRecheck (thread : Nat) (s : State) : Out :=
  .next (
    let c := s.slot thread
    let s := if c.state.movingOn?.isSome || c.state.reading?.isSome then s.push (.again thread) else s
    let s := if parkedOn .code (s.slot thread) then s.event (.codeCacheFill thread) else s
    s.packets.foldl (fun s e =>
      match e.2.payload, e.2.loc with
      | .request id, .waitingExtent =>
          if ((s.access? id).map (·.thread)) = some thread then s.event (.reeveOperation e.1 false) else s
      | _, _ => s) s)

/-- A node's fetch of a table entry completes and serves every miss that waits on it (R45). -/
def execNodeCacheFetch (node key : Nat) (s : State) : Out :=
  .next (
    if (s.node node).fetching.contains key then
      let c : Cached := if key % 2 = 0 then .object (key / 2) (AMap.get {} s.objs (key / 2))
        else .extent (key / 2) (AMap.get 0 s.exts (key / 2))
      s.modNode node fun v =>
        { v with fetching := NSet.erase v.fetching key, cache := (v.cache ++ [c]).drop (v.cache.length + 1 - 512) }
    else s)

/-- Asks for the code line of a thread whose fetch has missed, through the PC's handle: it is charged to the thread's slot as
a line read, and waits for a reply place (R113, R449). -/
def State.askCode (s : State) (thread : Nat) : State :=
  let c := s.slot thread
  let chip := chipOfThread thread
  let a := c.pc &&& ~~~(0x7F : Word)
  if s.accesses.any fun e => decide (e.2.reader = .fill thread) && e.2.addr == a then s
  else if Config.requestWindow ≤ s.outr thread then s
  else
    match s.checkResidency chip c.parish (handleObj a) (handleOff a) c.pc false with
    | .trap k v => s.trapIn thread k v
    | .drop => s.trapIn thread 0x17 c.pc
    | .moving => s
    | .ok t => ((s.touch thread a).request { s.newAccess thread (.load 128) t a false with reader := .fill thread }).2

/-- A thread whose fetch has missed asks for its line, and may issue again once the line is in its node's code cache; the
fetch is checked again as it lands (R449, R258). DEDUCED, log 42. -/
def execCodeCacheFill (thread : Nat) (s : State) : Out :=
  .next (
    if parkedOn .code (s.slot thread) then
      match s.fetch thread with
      | .word _ => s.modSlot thread fun c => { c with state := .ready }
      | .trap k => s.trapIn thread k (s.slot thread).pc
      | .moving => s
      | .miss => s.askCode thread
    else s)

end Sys2Proof.Machine
end

