-- ==== Sys2Proof/Machine/Ouvval.lean ====
section
/-! DEFINITION. The Ouvval fabric: ports, rotor slots, send queues, admission, frames, replay, keys, relays and changes of
tables (17 R401 to R418, R423). -/

namespace Sys2Proof.Machine

/-! ### Send queues, frames and their places -/

/-- An entry of `n` frames may be admitted at position `q` (R407); the last slot before a change leaves room for one
frame. -/
def Port.fits (p : Port) (q n : Nat) : Bool :=
  decide (q + n + (n + 6) / 7 + (if p.lastSlot then 1 else 0) ≤ p.positions)

/-- A port with a lit slot, locked, with its tables in force. -/
def Port.sending (p : Port) : Bool := p.trained && p.locked && p.lit && !p.isDark

/-- Number of each class in events. -/
def classOf (n : Nat) : Class := match n with | 0 => .control | 1 => .response | 2 => .relay | _ => .request
def classNum (c : Class) : Nat := match c with | .control => 0 | .response => 1 | .relay => 2 | _ => 3

/-- The queue of an entry: packets of the multicast class travel on the request queue (R405). -/
def queueClass (c : Class) : Class := classOf (classNum c)

/-- A control entry waits for the peer now faced, and may still go in this slot. -/
def Port.controlWaits (p : Port) (c : Nat) : Bool :=
  p.queue.any (fun e => e.1 == c && decide (e.2.1 = .control)) && !p.closed.contains (c, .control)

/-- The next free position for an entry of a class to chip `c`: control has the first claim on a position that is 7 mod 8
(R407). -/
def Port.nextFree (p : Port) (c : Nat) (cls : Class) : Nat :=
  if cls = .control then p.control
  else if p.controlWaits c && decide (p.control ≤ p.position) then p.position + 1 else p.position

/-! ### The choice of a port (R406) -/

/-- Table changes, parcel offers, parcel data and partials keep to one port. -/
def State.ordered (s : State) (b : EntryBody) : Bool :=
  match b with
  | .packet pk =>
    (s.packet? pk).any fun p : Packet =>
      match p.payload with
      | .change .. => true
      | _ => false
  | .parcelOffer _ => true
  | .parcelData _ => true
  | .spirePartial .. => true
  | _ => false

/-- Nanoseconds until slot `k` next begins, from the next free position of the slot now lit. -/
def Port.untilSlot (p : Port) (k : Nat) : Nat :=
  let ahead := (k + p.slots - p.slot % p.slots) % p.slots
  let ahead := if ahead = 0 then p.slots else ahead
  (p.slotLength * 10 - 8 * p.position) + 250 + (ahead - 1) * (p.slotLength * 10 + 250)

/-- How soon an entry of `n` frames can go to chip `c`; 0 in the slot now lit. A port that is not locked comes last. -/
def Port.soonest (p : Port) (c : Nat) (cls : Class) (n : Nat) : Nat :=
  if p.sending && p.peer.map (·.1) == some c && !p.closed.contains (c, cls) && p.fits (p.nextFree c cls) n then 0
  else if !p.sending then 2 ^ 40
  else (p.slotsFacing c).foldl (fun m k => Nat.min m (p.untilSlot k)) (2 ^ 39)

/-- The port of chip `at'` on which an entry to chip `c` is enqueued. A port running version 2 carries no relay class
(Table 17-4). DEDUCED, log 62. -/
def State.choosePort (s : State) (at' c : Nat) (cls : Class) (n : Nat) (ordered : Bool) : Option Nat :=
  let named := (List.range 64).filter fun i =>
    let p := s.port at' i
    !(p.slotsFacing c).isEmpty && !(decide (cls = .relay) && p.version == 2)
  if ordered then named.head?
  else
    named.foldl (fun best i =>
      match best with
      | none => some i
      | some j => if (s.port at' i).soonest c cls n < (s.port at' j).soonest c cls n then some i else some j) none

/-- The entry stands in a queue of a port, or some of its frames are not acknowledged. -/
def Port.holds (p : Port) (id : Nat) : Bool := p.queue.any (·.2.2 == id) || p.frames.any (·.entry == id)

/-! ### Unreachable chips (R417, R418) -/

/-- An access toward a chip that is not reachable ends. -/
def State.unreachAccess (s : State) (id : Nat) : State :=
  match s.access? id with
  | some a => s.endAccess id a 0x17
  | none => s

/-- An access whose packet cannot go on ends (R417, R418). -/
def State.unreachPacket (s : State) (pk : Nat) : State :=
  match s.packet? pk with
  | none => s
  | some p =>
      let s := s.dropPacket pk
      match p.payload with
      | .request id => s.unreachAccess id
      | .page accs _ _ | .change accs _ => accs.foldl (fun s id => s.unreachAccess id) s
      | _ => s

/-- A round that loses a member's chip ends with cause 0x17 at every member (R365). -/
def State.failRound (s : State) (id : Nat) : State :=
  let r : Round := AMap.get {} s.rounds id
  if r.done then s
  else
    let clear : Round := { r with done := true, lost := true,
                                  contributions := r.contributions.map fun c => { c with bytes := [] } }
    r.contributions.foldl (fun s c => if c.failed then s else s.faultOp c.op 0x17 0 0 true)
      { s with rounds := AMap.set {} s.rounds id clear }

/-- The result of a round cannot reach a package: the round ends with cause 0x17 at its members there (R365). -/
def State.loseResult (s : State) (id chip : Nat) : State :=
  let r : Round := AMap.get {} s.rounds id
  r.contributions.foldl (fun s c =>
    if c.failed || s.chipOfMember r c.member != chip then s else s.faultOp c.op 0x17 0 0 true) s

/-- The intermediate frees the place of an entry that leaves it, and returns the credit on the control class (R409). DEDUCED,
log 65. -/
def State.returnCredit (s : State) (chip id : Nat) (e : Entry) : State :=
  if (s.chip chip).relayPlaces.contains id then
    (s.modChip chip fun c => { c with relayPlaces := c.relayPlaces.filter (· != id) }).newEntry (.relayCredit chip) .control
      chip e.src 1
  else s

/-- The entry has been admitted at a port of its source, toward an intermediate that has not taken it. -/
def State.spentCredit (s : State) (id : Nat) (e : Entry) : Bool :=
  decide (e.cls = .relay ∧ !e.relayed ∧ e.at' = e.src) &&
    (s.chip e.src).ports.any fun q => q.2.frames.any fun f => f.entry == id

/-- A sender has a relay credit more toward an intermediate. -/
def State.addCredit (s : State) (chip via : Nat) : State :=
  s.modChip chip fun c => { c with credits := AMap.set 0 c.credits via (AMap.get 0 c.credits via + 1) }

/-- An entry is dropped with its queue; the relay place that it holds, or has a credit for, is free again. -/
def State.dropEntry (s : State) (id : Nat) : State :=
  match s.entry? id with
  | none => s
  | some e =>
      let s := if s.spentCredit id e then s.addCredit e.src e.hop else s.returnCredit e.at' id e
      let s := s.dropEntryRec id
      let s := s.modChip e.at' fun c =>
        { c with
          ports := c.ports.map fun q =>
            (q.1, { q.2 with queue := q.2.queue.filter (·.2.2 != id), frames := q.2.frames.filter (·.entry != id) }) }
      match e.body with
      | .packet pk => s.unreachPacket pk
      | .copy pks => pks.foldl (fun s pk => s.unreachPacket pk) s
      | .parcelOffer t => s.event (.parcelTransitFailure t)
      | .parcelAccept t => s.event (.parcelTransitFailure t)
      | .parcelData t => s.event (.parcelTransitFailure t)
      | .parcelAck t => s.event (.parcelTransitFailure t)
      | .spirePartial r _ => s.failRound r
      | .spireResult r c => s.loseResult r c
      | .relayCredit _ | .frameAck .. | .drainMarker => s

/-! ### Send queues and admission (R405 to R407, R429) -/

/-- Makes due the admission of every queue's head for the peer now faced. -/
def State.pokePort (s : State) (chip port : Nat) : State :=
  let p := s.port chip port
  if p.sending then
    match p.peer with
    | some (c, _) =>
        (List.range 4).foldl (fun s k =>
          if p.queue.any fun e => e.1 == c && classNum e.2.1 == k then
            s.pushOnce (.event (.entryAdmission chip port k (p.nextFree c (classOf k))))
          else s) s
    | none => s
  else s

/-- The packets of an entry. -/
def EntryBody.packets (b : EntryBody) : List Nat :=
  match b with
  | .packet pk => [pk]
  | .copy l => l
  | _ => []

/-- An entry joins the queue of a port and stays there. -/
def State.joinQueue (s : State) (chip port id : Nat) (e : Entry) : State :=
  let s := s.modEntry id fun _ => e
  let s := s.modPort chip port fun p => { p with queue := p.queue ++ [(e.hop, e.cls, id)] }
  let s := e.body.packets.foldl (fun s pk => s.modPacket pk fun p => { p with loc := .port chip port }) s
  s.pokePort chip port

/-- The entry stands in a queue of a chip, or has been admitted there. -/
def State.isQueued (s : State) (chip entry : Nat) : Bool := (s.chip chip).ports.any fun q => q.2.holds entry

/-- An entry that reached the Belfry before this one waits to join the same queue (R429). -/
def State.comesAfter (s : State) (entry : Nat) (e : Entry) : Bool :=
  s.entries.any fun x => decide (x.1 < entry) && x.2.at' == e.at' && x.2.hop == e.hop &&
    decide (queueClass x.2.cls = queueClass e.cls) && !s.isQueued e.at' x.1

/-- An entry joins a queue of its class for its destination, or for the intermediate that the relay table names (R405,
R406, R409), after those that reached the Belfry before it (R429). -/
def execEntryEnqueue (entry : Nat) (s : State) : Out :=
  .next (match s.entry? entry with
    | none => s
    | some e =>
      let chip := e.at'
      if e.hop = chip || s.isQueued chip entry then s
      else if s.comesAfter entry e then s.event (.entryEnqueue entry)
      else
        let e := { e with cls := queueClass e.cls }
        match s.choosePort chip e.hop e.cls e.frames (s.ordered e.body) with
        | some p => s.joinQueue chip p entry e
        | none =>
          if e.cls = .relay then s.dropEntry entry
          else
            match (s.chip chip).relays.find? (·.1 == e.dst) with
            | none => s.dropEntry entry
            | some (_, via) =>
              match s.choosePort chip via .relay e.frames (s.ordered e.body) with
              | some p => s.joinQueue chip p entry { e with cls := .relay, hop := via }
              | none => s.dropEntry entry)

/-- A queue of higher order has a head that may still go in this slot. -/
def Port.headAhead (p : Port) (c cls : Nat) : Bool :=
  p.queue.any fun e => e.1 == c && decide (0 < classNum e.2.1 ∧ classNum e.2.1 < cls) && !p.closed.contains (c, e.2.1)

/-- The first position from `q` that is 7 mod 8. -/
def controlFrom (q : Nat) : Nat := q + (7 + 8 - q % 8) % 8

/-- Frames under one key after which it is to be rotated (R415). -/
def rotationFrames : Nat := 2 ^ 32

/-- The frames of an admitted entry are sealed under the generation in use and sent (R407, R411, R414, R415). -/
def State.sendEntry (s : State) (chip port id : Nat) (e : Entry) (q : Nat) : State :=
  let p := s.port chip port
  let s := s.modPort chip port fun p =>
    let p := { p with queue := p.queue.filter (·.2.2 != id) }
    if e.cls = .control then
      { p with control := q + 8, position := if q < p.position then p.position + 1 else q + 1 }
    else { p with position := q + e.frames, control := Nat.max p.control (controlFrom q) }
  let s := if e.cls = .relay ∧ !e.relayed then
      s.modChip chip fun c => { c with credits := AMap.set 0 c.credits e.hop (AMap.get 0 c.credits e.hop - 1) }
    else s
  let s := s.sealFrames chip port id (p.peer.getD (e.hop, 0)) e.frames
  let s := if p.used < rotationFrames ∧ rotationFrames ≤ p.used + e.frames then s.rotateKeys chip port else s
  s.pokePort chip port

/-- The head of a queue is admitted at a frame position, or refused until the next matching of its destination (R407,
R429). The position comes from outside; it is at least the next free one. DESIGN CHOICE, log 63. DEDUCED, log 64. -/
def execEntryAdmission (chip port cls position : Nat) (s : State) : Out :=
  .next (
    let p := s.port chip port
    match p.peer with
    | none => s
    | some (c, _) =>
      if !p.sending || decide (position < p.nextFree c (classOf cls)) || decide (3 < cls) ||
          (decide (cls = 0) && position % 8 != 7) || (decide (0 < cls ∧ p.control ≤ position) && p.controlWaits c) ||
          p.headAhead c cls || p.closed.contains (c, classOf cls) ||
          (decide (p.version = 2) && p.switching) then s
      else
        match p.queue.find? fun e => e.1 == c && classNum e.2.1 == cls with
        | none => s
        | some (_, _, id) =>
          match s.entry? id with
          | none => s
          | some e =>
            let credit := decide (e.cls ≠ .relay) || e.relayed || decide (0 < AMap.get 0 (s.chip chip).credits c)
            if p.fits position e.frames && credit && decide (p.used + e.frames < 2 ^ 40) then
              s.sendEntry chip port id e position
            else (s.modPort chip port fun p => { p with closed := p.closed ++ [(c, classOf cls)] }).pokePort chip port)

/-! ### Frames and replay (R408, R411) -/

/-- Frames of a port that are not acknowledged and go to chip `c`. -/
def Port.framesTo (p : Port) (c : Nat) : List Frame := p.frames.filter fun f => f.peer.1 == c

/-- Frames of a port that chip `c` has not received. -/
def Port.unreceived (p : Port) (c : Nat) : List Frame := (p.framesTo c).filter fun f => !f.received

/-- Puts frames that satisfy a test on the fibre again, or marks them as no longer on it. -/
def Port.fly (p : Port) (b : Bool) (test : Frame → Bool) : Port :=
  { p with frames := p.frames.map fun f => if test f then { f with flying := b } else f }

/-- The bank that the generation bit of a frame names opens it (R414). -/
def Port.opens (p : Port) (f : Frame) : Bool := (if f.generation % 2 = 0 then p.key0 else p.key1) == f.key

/-- A packet goes on into the meshes of the chip it has reached, by the Belfry gateway toward its destination (R405). -/
def State.enterMesh (s : State) (pk : Nat) : State :=
  match s.packet? pk with
  | some p =>
      let n := belfryOf p.dst
      (s.modPacket pk fun q => { q with epoch := (s.node n).epoch }).joinGateway n 5 pk
  | none => s

/-- An entry has arrived at a chip: an intermediate passes it on, and the destination takes what it holds (R405, R408). -/
def State.arriveEntry (s : State) (id : Nat) (e : Entry) : State :=
  let s := s.modEntry id fun e => { e with at' := e.hop }
  if e.hop ≠ e.dst then
    (s.modChip e.hop fun c => { c with relayPlaces := c.relayPlaces ++ [id] }).event (.relayEntry id)
  else
    match e.body with
    | .relayCredit via => s.event (.relayCredit e.dst via)
    | .parcelOffer t => s.event (.parcelOffer t)
    | .parcelAccept t => s.event (.parcelAcceptance t)
    | .parcelData t => s.event (.parcelData t)
    | .parcelAck t => s.event (.installationAcknowledgement t)
    | .spirePartial r c =>
        let (s, last) := s.takeEntryOf id e.body
        if last then
          let v : Round := AMap.get {} s.rounds r
          let v : Round := { v with summed := NSet.insert v.summed c }
          { s with rounds := AMap.set {} s.rounds r v }.event (.spireRound r)
        else s
    | .spireResult r c =>
        let (s, last) := s.takeEntryOf id e.body
        if last then s.deliverResult r c else s
    | b => b.packets.foldl (fun s pk => s.enterMesh pk) (s.dropEntryRec id)

/-- A frame leaves a port's list, and a key that waits for its bank is loaded if it may be. -/
def State.dropFrame (s : State) (chip port number : Nat) : State :=
  s.modPort chip port fun p => Port.loadKey { p with frames := p.frames.filter (·.number != number) }

/-- The receiver of a frame acknowledges it, or negatively so, on the control class in the reverse direction of the same
matching (R411). -/
def State.answerFrame (s : State) (chip port : Nat) (f : Frame) (good : Bool) : State :=
  let (id, s) := s.fresh
  let e := controlEntry (.frameAck chip port f.number good) f.peer.1 chip
  { s with entries := s.entries ++ [(id, e)] }.joinQueue f.peer.1 f.peer.2 id e

/-- An acknowledgement has come (R411). -/
def State.takeAnswer (s : State) (chip port number : Nat) (good : Bool) : State :=
  if good then (s.dropFrame chip port number).pokePort chip port else s.event (.negativeAcknowledgement chip port)

/-- A frame is taken by its receiver, once: it is acknowledged unless it carries an acknowledgement itself or the drain marker. An
entry has arrived with its last frame (R411). DESIGN CHOICE, log 119. -/
def State.takeFrame (s : State) (chip port : Nat) (f : Frame) : State :=
  match s.entry? f.entry with
  | some e =>
      match e.body with
      | .drainMarker =>
          ((s.dropFrame chip port f.number).dropEntryRec f.entry).modPort f.peer.1 f.peer.2 fun v => { v with drainSeen := true }
      | .frameAck c p n good => ((s.dropFrame chip port f.number).dropEntryRec f.entry).takeAnswer c p n good
      | _ =>
          let got (g : Frame) : Frame := if g.number = f.number then { g with flying := false, received := true } else g
          let s := s.modPort chip port fun p => { p with frames := p.frames.map got }
          let rest := (s.port chip port).frames.any fun g => g.entry == f.entry && !g.received
          let s := if f.received || rest then s else (s.returnCredit chip f.entry e).arriveEntry f.entry e
          s.answerFrame chip port f true
  | none => (s.modPort chip port fun p => p.fly false (·.number == f.number)).answerFrame chip port f true

/-- The frame carries the drain marker. -/
def State.isMarker (s : State) (f : Frame) : Bool := (s.entry? f.entry).any fun e : Entry => decide (e.body = .drainMarker)

/-- The oldest frame on the fibre toward the peer now faced, or the drain marker, with which its slot ended. -/
def State.frameDue (s : State) (p : Port) : Option Frame :=
  let c := if p.sending then p.peer.map (·.1) else none
  p.frames.find? fun f => f.flying && (c == some f.peer.1 || s.isMarker f)

/-- The oldest frame on the fibre reaches its receiver: it is opened and taken, or discarded, after a failure with a negative
acknowledgement (R411, R414). A frame behind one that has failed is discarded too. -/
def execOuvvalFrame (chip port : Nat) (ok : Bool) (s : State) : Out :=
  .next (
    let p := s.port chip port
    match s.frameDue p with
    | none => s
    | some f =>
      if (p.unreceived f.peer.1).any fun g => decide (g.number < f.number) && !g.flying then
        s.modPort chip port fun p => p.fly false (·.number == f.number)
      else if ok && p.opens f then s.takeFrame chip port f
      else if s.isMarker f then (s.dropFrame chip port f.number).dropEntryRec f.entry
      else (s.modPort chip port fun p => p.fly false (·.number == f.number)).answerFrame chip port f false)

/-- A port goes dark (R411): the Vestry has a machine check and rewrites the tables. -/
def State.failPort (s : State) (chip port : Nat) : State :=
  (s.modPort chip port fun p => { p with failed := true, locked := false, lit := false }).machineCheck (chip * 24576) 4
    (BitVec.ofNat 64 port)

/-- The sender replays the failed frame and every later one, in order and with the same seal; 16 failures of one frame
declare the port failed (R411). -/
def execNegativeAcknowledgement (chip port : Nat) (s : State) : Out :=
  .next (
    let p := s.port chip port
    match p.peer with
    | none => s
    | some (c, _) =>
      if !p.sending then s
      else
        match (p.unreceived c).filter fun f => !f.flying with
        | [] => s
        | f :: _ =>
          if f.failures + 1 < 16 then
            let l := p.unreceived c
            let again (g : Frame) : Frame := if g.number = f.number then { g with failures := g.failures + 1 } else g
            let s := s.modPort chip port fun p =>
              Port.fly { p with frames := p.frames.map again } true fun g => g.peer.1 == c && !g.received
            (List.range l.length).foldl (fun s _ => s.event (.ouvvalFrame chip port true)) s
          else s.failPort chip port)

/-! ### Slots and locking (R402, R404) -/

/-- The frames left from the last matching with the peer go first (R411), and then the queues are served. -/
def State.serveSlot (s : State) (chip port : Nat) : State :=
  let p := s.port chip port
  if p.sending then
    match p.peer with
    | some (c, _) =>
        let n := (p.framesTo c).length
        let s := s.modPort chip port fun p => { p.fly true (·.peer.1 == c) with position := p.position + n }
        ((List.range n).foldl (fun s _ => s.event (.ouvvalFrame chip port true)) s).pokePort chip port
    | none => s
  else s

/-- A port has lost its place in the rotation: it holds its queues and reports to the Vestry (R404). -/
def State.unlock (s : State) (chip port : Nat) : State :=
  (s.modPort chip port fun p => { p with locked := false, goodDarks := 0 }).modChip chip fun c =>
    { c with portReports := c.portReports ++ [port] }

/-- The old tables of an armed change have ended, and the new ones wait for the relock (Table 17-5). -/
def Port.between (p : Port) : Bool := p.armed && p.drainSent

/-- Slots and slot length of the tables whose slots now come. -/
def Port.slotsNow (p : Port) : Nat := if p.between then (field p.nextCfg 58 6).toNat + 1 else p.slots
def Port.lengthNow (p : Port) : Nat := if p.between then (field p.nextCfg 47 11).toNat else p.slotLength

/-- The peer that the slot now lit faces, in the new bank between the tables. -/
def Port.facedNow (p : Port) : Option (Nat × Nat) := if p.between then p.facing (1 - p.bank) p.slot else p.peer

/-- The slot after the one now lit begins, at its position 1: position 0 is the hello's. -/
def Port.advance (p : Port) : Port :=
  let wrap := decide (p.slotsNow ≤ p.slot + 1)
  { p with slot := if wrap then 0 else p.slot + 1, rotation := if wrap then (p.rotation + 1) % 65536 else p.rotation,
           position := 1, control := 7, closed := [], lit := true }

/-- What a chip has in hand for a chip that is not reachable ends: queued entries, accesses under way, spire rounds and parcels
(R365, R417, R418, R422). -/
def State.dropUnreachable (s : State) (chip : Nat) : State :=
  let dead := s.entries.filter fun e => e.2.at' == chip && !(s.reaches chip e.2.dst)
  let s := dead.foldl (fun s e => s.dropEntry e.1) s
  let lost := s.accesses.filter fun a => chipOfNode a.2.src == chip && !(s.reaches chip (chipOfNode a.2.dst))
  let s := lost.foldl (fun s a =>
    match s.access? a.1 with
    | some v => s.endAccess a.1 v 0x17
    | none => s) s
  let s := s.rounds.foldl (fun s r =>
    let cs := s.roundChips r.2
    if cs.contains chip && cs.any fun c => !(s.reaches chip c) then s.failRound r.1 else s) s
  s.transits.foldl (fun s t =>
    if t.2.chip = chip ∧ !(s.reaches chip t.2.destChip) then s.event (.parcelTransitFailure t.1) else s) s

/-- A port names a chip in its active bank, or in the standby bank of an armed change. -/
def Port.names (p : Port) (c : Nat) : Bool :=
  !(p.slotsFacing c).isEmpty ||
    (p.armed && (List.range ((field p.nextCfg 58 6).toNat + 1)).any fun k => (p.facing (1 - p.bank) k).map (·.1) == some c)

/-- A port running version 2 is named in no relay table (R416). -/
def State.relayAllowed (s : State) (chip via : Nat) : Bool :=
  (List.range 64).any fun i => let p := s.port chip i; p.names via && p.version != 2

/-- The relay table of a chip names only ports that carry the relay class. -/
def State.filterRelays (s : State) (chip : Nat) : State :=
  let ok := (s.chip chip).relays.filter fun r => s.relayAllowed chip r.2
  s.modChip chip fun c => { c with relays := ok }

/-- A port relocks on the new bank; the new reachability map and relay table come with the first port of the chip to do so, and
queues for chips it does not hold are dropped. A drain marker that has not come is reported (R423). -/
def State.relock (s : State) (chip port : Nat) : State :=
  let p := s.port chip port
  if !p.between || p.isDark then s
  else
    let s := if p.drainSeen then s else s.modChip chip fun c => { c with portReports := c.portReports ++ [port] }
    let w := p.nextCfg &&& ~~~(0x400020000000 : Word)
    let w := if p.bank = 0 then w ||| (0x400000000000 : Word) else w
    let s := s.modPort chip port fun p =>
      { p with cfg := w, locked := true, marked := false, drainSent := false, drainSeen := false, rotation := p.switchAt,
               nextCfg := 0 }
    let s := match (s.chip chip).nextReach with
      | some (m, rel) => s.modChip chip fun c => { c with reachable := m, relays := rel, nextReach := none }
      | none => s
    ((s.filterRelays chip).dropUnreachable chip).serveSlot chip port

/-- A hello frame agrees with a bank of the port's table. -/
def Port.agrees (p : Port) (bank slots : Nat) (h : Hello) : Bool :=
  decide (h.slot < slots) && p.facing bank h.slot == some (h.chip, h.port)

/-- A hello frame that agrees with the bank of an armed change lets a port that waits, or is unlocked, relock (Table 17-5). -/
def Port.relocks (p : Port) (h : Hello) : Bool :=
  p.armed && (p.drainSent || !p.locked) && p.agrees (1 - p.bank) ((field p.nextCfg 58 6).toNat + 1) h &&
    h.rotation.toNat == p.switchAt

/-- A hello frame is checked against the active bank: it locks the port, or unlocks it (R404). One that agrees with the
bank of an armed change lets the port relock (Table 17-5). -/
def State.checkHello (s : State) (chip port : Nat) (h : Hello) : State :=
  let p := s.port chip port
  if p.isDark then s
  else if p.relocks h then
    (s.modPort chip port fun p => { p with slot := h.slot, drainSent := true }).relock chip port
  else if p.between then s
  else if p.agrees p.bank p.slots h && (!p.locked || (h.slot == p.slot && h.rotation.toNat == p.rotation)) then
    if p.locked then s
    else if p.goodDarks < 2 then s
    else
      (s.modPort chip port fun p =>
        { p with locked := true, slot := h.slot, rotation := h.rotation.toNat, missed := 0 }).serveSlot chip port
  else s.unlock chip port

/-- A hello frame reaches a port in a lit slot (R404). -/
def execHelloFrame (chip port : Nat) (h : Hello) (s : State) : Out := .next (s.checkHello chip port h)

/-- A hello reaches a port: it is checked once the port's own slot has started (R404). -/
def State.deliverHello (s : State) (chip port : Nat) (h : Hello) : State :=
  if (s.port chip port).listening then
    (s.modPort chip port fun p => { p with listening := false }).checkHello chip port h
  else s.modPort chip port fun p => { p with fibre := some h }

/-- Position 0 of a slot: the port sends its hello, locked or not, and takes the one on its receive fibre (R404). The slot ends
with its last position. -/
def State.openSlot (s : State) (chip port : Nat) : State :=
  let p := s.port chip port
  let s := match p.facedNow with
    | some (c, q) =>
        s.deliverHello c q { chip := chip, port := port, slot := p.slot, rotation := BitVec.ofNat 16 p.rotation }
    | none => s
  let s := match p.fibre with
    | some h => (s.modPort chip port fun p => { p with fibre := none, listening := false }).checkHello chip port h
    | none => s.modPort chip port fun p => { p with listening := true }
  let q := s.port chip port
  s.timer (chip * 24576 * 16) (40 * q.lengthNow) (.slotEnd chip port q.slot q.rotation)

/-- The boundary of an armed change: the drain marker has gone, and the port waits to relock (Table 17-5). DEDUCED, log 66. -/
def State.leaveTables (s : State) (chip port : Nat) : State :=
  let s := if (s.port chip port).locked then s.sendMarker chip port else s
  (s.modPort chip port fun p =>
    { p.advance with locked := false, drainSent := true, goodDarks := 2, missed := 0 }).openSlot chip port

/-- The end of a dark period, `since` units of 10 ns after the end of the last one, starts a slot (R404). -/
def execSlotStart (chip port since10ns : Nat) (s : State) : Out :=
  .next (
    let p := s.port chip port
    if p.isDark then s
    else
      let want := p.slotLength + 25
      let good := decide (want ≤ since10ns + 1 ∧ since10ns ≤ want + 1)
      if p.lastSlot && !p.drainSent then s.leaveTables chip port
      else
        let s := s.modPort chip port fun p =>
          { p.advance with goodDarks := if good then 2 else 1, missed := 0 }
        let s := s.openSlot chip port
        if p.locked then s.serveSlot chip port else s)

/-- A dark period did not come when expected: the port's own timing goes on, also past the boundary of an armed change, and
the second one unlocks it (R404). -/
def execDarkPeriodMissed (chip port : Nat) (s : State) : Out :=
  .next (
    let p := s.port chip port
    if p.isDark || !p.locked then s
    else if p.lastSlot && !p.drainSent then s.leaveTables chip port
    else
      let s := (s.modPort chip port fun p => { p.advance with missed := p.missed + 1 }).openSlot chip port
      if 2 ≤ p.missed + 1 then s.unlock chip port else s.serveSlot chip port)

/-! ### Relays (R409) -/

/-- An intermediate passes an entry on to its destination, still on the relay class. -/
def execRelayEntry (entry : Nat) (s : State) : Out :=
  .next (match s.entry? entry with
    | some e =>
        if e.at' = e.hop ∧ e.hop ≠ e.dst ∧ !e.relayed then
          (s.modEntry entry fun e => { e with hop := e.dst, relayed := true, cls := .relay }).event (.entryEnqueue entry)
        else s
    | none => s)

/-- A returned credit lets the sender send another entry through that intermediate. -/
def execRelayCredit (chip via : Nat) (s : State) : Out :=
  .next (
    match s.entries.find? fun e => decide (e.2.body = .relayCredit via) && e.2.dst == chip && e.2.at' == chip with
    | some (id, _) =>
        let s := (s.dropEntryRec id).addCredit chip via
        (List.range 64).foldl (fun s p => s.pokePort chip p) s
    | none => s)

/-! ### Keys and training (R414 to R416) -/

/-- KEY_UPDATE from the requester, the chip with the lower number (R415). -/
def execKeyUpdate (chip port : Nat) (key : BitVec 256) (s : State) : Out :=
  .next (
    match (s.port chip port).peer with
    | some (c, q) => if chip < c then s.updateKeys chip port c q key else s
    | none => s)

/-- The Vestry asks for a rotation, or 2^32 frames or 600 s have passed: the requester sends KEY_UPDATE (R415). -/
def execKeyRotationTimer (chip port : Nat) (s : State) : Out :=
  .next (
    match (s.port chip port).peer with
    | some (c, _) => if chip < c then s.rotateKeys chip port else s
    | none => s)

/-- Every port of a chip has trained or has been reported, and then the Vestry is ready (R439). DEDUCED, log 67. -/
def State.portsDone (s : State) (chip : Nat) : State :=
  let c := s.chip chip
  if c.stage = 5 ∧ (List.range 64).all (fun i => (s.port chip i).trained || c.portReports.contains i) then
    (s.modChip chip fun c => { c with stage := 6 }).push (.ready chip)
  else s

/-- A chip with power whose boot has reached the training of gateways and ports, and has not failed (R436, R439). -/
def Chip.trains (c : Chip) : Bool := !c.off && decide (4 ≤ c.stage ∧ c.failure = 0)

/-- The secret of the session of a port pair: the chip with the lower number is the requester, and both use their device keys
(R415, R440). -/
def linkSecret (chip : Nat) (b : TrainingInput) : BitVec 256 :=
  Config.sessionSecret (Config.deviceKeys (Nat.min chip b.peerChip)) (Config.deviceKeys (Nat.max chip b.peerChip)) b.key

/-- A port trains to the lower of the two versions offered, 3 or 2, over a secured session; otherwise it stays untrained and
is reported (R415, R416). -/
def execLinkTraining (chip port : Nat) (b : TrainingInput) (s : State) : Out :=
  .next (
    if 64 ≤ port ∨ !(s.chip chip).trains then s
    else
      let v := Nat.min (s.port chip port).offers b.peerVersion
      if b.sessionOk && decide (2 ≤ v) then
        let s := s.modPort chip port fun p =>
          { p with trained := true, version := v, key0 := Config.linkKey (linkSecret chip b) chip port, key1 := 0, sealed0 := 0, sealed1 := 0,
                   generation := 0, nextKey := none, switching := false }
        let s := if chip < b.peerChip then s.armRotation chip port else s
        (s.filterRelays chip).portsDone chip
      else
        ((s.modPort chip port fun p => { p with trained := false }).modChip chip fun c =>
          { c with portReports := c.portReports ++ [port] }).portsDone chip)

/-! ### Changes of tables (R403, R423) -/

/-- Writes a bank of a port's slot table; reserved bits are zero. -/
def Port.writeBank (p : Port) (bank : Nat) (es : List Word) : Port :=
  { p with table := (List.range 64).foldl (fun t k =>
      AMap.set 0 t (64 * bank + k) (es.getD k 0 &&& ~~~(0x7FFFFFFFFF : Word))) p.table }

/-- The configuration word without its reserved bits. -/
def cfgBits (w : Word) : Word := w &&& ~~~(0x3FFFFFF : Word)

/-- Relay places of an intermediate that a sender uses: entries admitted toward it, entries that stand there, and credits that
are on their way back (R409). -/
def State.placesUsed (s : State) (src via : Nat) : Nat :=
  (s.entries.filter fun e =>
    (e.2.src == src && ((s.chip via).relayPlaces.contains e.1 || (e.2.hop == via && s.spentCredit e.1 e.2))) ||
      (decide (e.2.body = .relayCredit via) && e.2.dst == src)).length

/-- Relay places of an intermediate that it has granted to other chips. -/
def State.grantedElsewhere (s : State) (chip via : Nat) : Nat :=
  (s.chips.map fun e => if e.1 = chip then 0 else AMap.get 0 e.2.credits via + s.placesUsed e.1 via).sum

/-- The Vestry grants a chip places of an intermediate, at least 1, of the 2,048 that it has (R409). DEDUCED, log 65. -/
def State.grant (s : State) (chip via n : Nat) : State :=
  let n := Nat.min (Nat.max 1 n) (2048 - s.grantedElsewhere chip via)
  s.modChip chip fun c => { c with credits := AMap.set 0 c.credits via (n - s.placesUsed chip via) }

/-- The Vestry writes port configurations, slot-table banks, the reachability map and the relay table. With SW set they wait for
rotation swrot, the entries in the standby bank (Table 17-5, step 1); without it they hold at once. -/
def execRotorTableChange (chip : Nat) (c : RotorChange) (s : State) : Out :=
  .next (
    if (s.chip chip).off then s else
    let s := c.ports.foldl (fun s e =>
      let w := cfgBits e.2.1
      s.modPort chip e.1 fun p =>
        if w.getLsbD 29 then
          { p.writeBank (1 - p.bank) e.2.2 with
            cfg := (p.cfg &&& ~~~(0x3FFFE0000000 : Word)) ||| (w &&& (0x3FFFE0000000 : Word)), nextCfg := w,
            marked := false, drainSent := false, drainSeen := false }
        else { p.writeBank (field w 46 1).toNat e.2.2 with cfg := w }) s
    let s := c.credits.foldl (fun s e => s.grant chip e.1 e.2) s
    let reach := c.reachable.foldl NSet.insert []
    if c.ports.any fun e => e.2.1.getLsbD 29 then s.modChip chip fun v => { v with nextReach := some (reach, c.relays) }
    else
      ((s.modChip chip fun v => { v with reachable := reach, relays := c.relays }).filterRelays chip).dropUnreachable chip)

/-- A port whose hello has agreed with the bank of an armed change relocks on it (Table 17-5, R423). -/
def execRotorRelock (chip port : Nat) (s : State) : Out := .next (s.relock chip port)

end Sys2Proof.Machine
end

