-- ==== Sys2Proof/Machine/Host.lean ====
section
/-! DEFINITION. The host port, command queues, boot, attestation, power and cooling (21 R430 to R444, R447). -/

namespace Sys2Proof.Machine

/-! ### Host memory -/

def hostByte (a : Nat) : Nat := hostBase + a % 2 ^ 64
def State.hostBytes (s : State) (a n : Nat) : List Byte := s.bytes ((List.range n).map fun i => hostByte (a + i))
def State.hostWord (s : State) (a : Nat) : Word := wordOfBytes (s.hostBytes a 8)
def State.writeHost (s : State) (a : Nat) (bs : List Byte) : State :=
  s.write (((List.range bs.length).map fun i => hostByte (a + i)).zip bs)

/-! ### Registers (Table 21-1) -/

/-- Entries of the command ring. -/
def Parish.ringSize (p : Parish) : Nat := 2 ^ (field p.qsize 0 4).toNat

/-- The Vestry accepts while fewer records than the journal, or the completion ring, holds are not consumed (R433). -/
def Parish.room (p : Parish) : Bool := decide ((p.jtail - 1 - p.jhead).toNat < Nat.min p.journalCap p.ringSize)

/-- Parish `n` exists, and its page is on this chip's port. -/
def State.pageLive (s : State) (chip n : Nat) : Bool := (s.parish n).present && (s.parish n).hostChip == chip

/-- pstat; the codes of a creation that failed stand there though the parish does not exist. -/
def Parish.pstat (p : Parish) : Word :=
  BitVec.ofNat 64 ((if p.present then (if p.room then 3 else 1) else 0) + p.launchCode % 256 * 2 ^ 8 +
    p.createCode % 256 * 2 ^ 16)

/-- A host read of a register. -/
def State.readRegister (s : State) (chip off : Nat) : Word :=
  let c := s.chip chip
  if c.off then 0
  else if off < 0x8000 then
    let p := s.parish (off / 256)
    if p.hostChip ≠ chip then 0
    else if off % 256 = 0x38 then p.pstat
    else if !p.present then 0
    else
      match off % 256 with
      | 0x00 => p.qbase
      | 0x08 => p.qsize
      | 0x18 => p.qhead
      | 0x20 => p.jhead
      | 0x28 => p.jtail
      | 0x30 => p.cbase
      | _ => 0
  else if off = 0x8000 then BitVec.ofNat 64 (c.stage + c.failure * 2 ^ 8)
  else if off = 0x8008 then c.pimg
  else 0

/-- The first byte of journal record `seq` (R434). -/
def State.journalByte (s : State) (n seq : Nat) : Option Nat :=
  let p := s.parish n
  s.resolve p.replica n (BitVec.ofNat 64 (p.journal * 2 ^ 40 + 32 * ((seq - 1) % Nat.max 1 p.journalCap)))

/-- A host read of a byte of BAR2 (R430). -/
def State.readJournal (s : State) (chip off : Nat) : Byte :=
  let n := off / 2 ^ 21
  let o := off % 2 ^ 21
  if s.pageLive chip n && decide (o < 32 * (s.parish n).journalCap) then
    match s.journalByte n (o / 32 + 1) with
    | some pa => s.byte (pa + o % 32)
    | none => 0
  else 0

/-- Every write of qtail rings the doorbell. -/
def State.writeQtail (s : State) (n : Nat) (v : Word) : State :=
  if (s.parish n).present then (s.modParish n fun p => { p with qtail := v }).event (.commandEntry n) else s

/-- A write of jhead may let acceptance resume. -/
def State.writeJhead (s : State) (n : Nat) (v : Word) : State :=
  if (s.parish n).present then (s.modParish n fun p => { p with jhead := v }).event (.commandEntry n) else s

def execQtailWrite (parish : Nat) (v : Word) (s : State) : Out := .next (s.writeQtail parish v)

def execJheadWrite (parish : Nat) (v : Word) (s : State) : Out := .next (s.writeJhead parish v)

/-! ### Command queues (R432, R433, R447) -/

def State.command? (s : State) (n seq : Nat) : Option HostCommand := (s.parish n).commands.find? (·.seq == seq)

def State.modCommand (s : State) (n seq : Nat) (f : HostCommand → HostCommand) : State :=
  s.modParish n fun p => { p with commands := p.commands.map fun c => if c.seq = seq then f c else c }

/-- Writes words of a journal record, from word `k` on. -/
def State.writeJournal (s : State) (n seq k : Nat) (ws : List Word) : State :=
  match s.journalByte n seq with
  | some pa => s.write ((consecutive (pa + 8 * k) (8 * ws.length)).zip (ws.flatMap fun w => littleEndian w 8))
  | none => s

/-- The Vestry takes the next entry of a ring: it is journalled as accepted and performed (R433). A command whose opcode,
version or reserved bytes it does not accept completes with that status (Table 21-3, R442). DEDUCED, log 71. -/
def execCommandEntry (parish : Nat) (s : State) : Out :=
  .next (
    let p := s.parish parish
    if !p.present || !decide (p.qhead < p.qtail) || !p.room then s
    else
      let a := p.qbase.toNat + 64 * (p.qhead.toNat % p.ringSize)
      let w (i : Nat) : Word := s.hostWord (a + 8 * i)
      let seq := p.jtail.toNat
      let c : HostCommand :=
        { seq := seq, tag := field (w 0) 16 48, version := field (w 0) 8 8, opcode := field (w 0) 0 8, arg0 := w 1,
          arg1 := w 2, arg2 := w 3, moved := 0, waiting := false, outcome := none, complete := false }
      let s' := s.writeJournal parish seq 0 [BitVec.ofNat 64 seq, w 0, 1, 0]
      let s' := s'.modParish parish fun p =>
        { p with jtail := p.jtail + 1, qhead := p.qhead + 1, commands := p.commands ++ [c] }
      let s' := (s'.capture parish (.command seq (s.hostBytes a 64))).event (.commandEntry parish)
      if c.version ≠ 1 then s'.decideCommand parish seq 0x40 0
      else if (List.range 4).any (fun i => w (4 + i) != 0) && decide (1 ≤ c.opcode.toNat ∧ c.opcode.toNat ≤ 4) then
        s'.decideCommand parish seq 0x41 0
      else
        match c.opcode.toNat with
        | 1 => s'.event (.launchCommand parish seq)
        | 2 => s'.event (.copyin parish seq)
        | 3 => s'.event (.copyout parish seq)
        | 4 => s'.event (.mark parish seq)
        | _ => s'.decideCommand parish seq 0x40 0)

/-- What meets the Vestry at a byte of an object (R447). -/
inductive HostReach where
  | byte (pa : Nat)
  | unbacked
  | moving
  | unreachable
  deriving DecidableEq, Repr

def State.hostReach (s : State) (chip parish : Nat) (a : Word) : HostReach :=
  match s.residency chip parish (handleObj a) (handleOff a) with
  | .here pa => .byte pa
  | .moving => .moving
  | .unbacked => .unbacked
  | .owned k =>
      if !s.reaches chip k then .unreachable
      else
        match s.residency k parish (handleObj a) (handleOff a) with
        | .here pa => .byte pa
        | .unbacked => .unbacked
        | _ => .moving

/-- A command waits for the supervisor to service an unbacked extent: a notice of reason 4, cause 0x09 (R369, R447). -/
def State.holdCommand (s : State) (n seq : Nat) (a : Word) : State :=
  (s.modCommand n seq fun c => { c with waiting := true }).push
    (.notice (.command n seq a) n (s.parish n).replica)

/-- A command is looked at again in 1 µs. -/
def State.laterCommand (s : State) (n : Nat) (i : Instr) : State :=
  s.timer ((s.parish n).replica * 24576 * 16) 4000 (.event i)

/-- LAUNCH from the host (R447): the record is read as LAUNCH reads it, and its submission goes to the board of the home
place, which reports the lowest code that fails (R300). -/
def execLaunchCommand (parish seq : Nat) (s : State) : Out :=
  .next (match s.command? parish seq with
    | none => s
    | some c =>
      if c.opcode ≠ 1 ∨ c.waiting ∨ c.outcome.isSome ∨ c.moved ≠ 0 then s
      else
        let p := s.parish parish
        let chip := p.replica
        let r := c.arg0
        let v : Submission :=
          { parish := parish, record := r, home := c.arg1 &&& ~~~(0xFFFF : Word), command := some (parish, seq),
            chip := p.hostChip }
        let unread (s : State) : State := s.refuse v (s.launchCode v none)
        let bad := if r.toNat % 8 ≠ 0 then true
          else if isPlace r then (s.checkPlace chip parish r 512 true).isSome
          else (checkEntry (s.obj chip parish (handleObj r)) (handleObj r) (handleOff r) 512 rR false).isSome
        if bad then unread s
        else if s.recordEmpty chip r then s.laterCommand parish (.launchCommand parish seq)
        else
          let last := r + 511
          match (if isPlace r then HostReach.byte 0 else s.hostReach chip parish r),
                (if isPlace r then HostReach.byte 0 else s.hostReach chip parish last) with
          | .unreachable, _ | _, .unreachable => unread s
          | .unbacked, _ => s.holdCommand parish seq r
          | _, .unbacked => s.holdCommand parish seq last
          | .moving, _ | _, .moving => s.laterCommand parish (.launchCommand parish seq)
          | _, _ =>
            match s.readWords chip parish r 64 with
            | (s, none) => unread s
            | (s, some ws) =>
              let (id, s) := (s.modCommand parish seq fun c => { c with moved := 1 }).fresh
              (s.setSubmission id { v with words := ws }).event (.submission id))

/-- The cause of the check that refuses a copy's range, before a byte moves (R447). DEDUCED, log 72. -/
def State.copyRefused (s : State) (n : Nat) (c : HostCommand) (right : Nat) : Option Nat :=
  let len := c.arg2.toNat
  if isPlace c.arg1 then some 0x06
  else if len = 0 ∨ 2 ^ 32 ≤ len then some 0x07
  else
    checkEntry (s.obj (s.parish n).replica n (handleObj c.arg1)) (handleObj c.arg1) (handleOff c.arg1) len right false

/-- Bytes of a copy's next line: an access of a copy is one request for each 128-byte line (R42). -/
def HostCommand.lineSize (c : HostCommand) : Nat :=
  Nat.min (c.arg2.toNat - c.moved) (128 - (c.arg1.toNat + c.moved) % 128)

/-- The Vestry asks for the next line of a copy through the handle, or writes it, with a request like any other: it holds at an
unbacked extent, waits for a moving one, and ends the copy where a check fails or the owner cannot be reached (R42, R43,
R447). -/
def State.askLine (s : State) (n seq right : Nat) (i : Instr) (c : HostCommand) (bytes : List Byte) (req : Req) : State :=
  let chip := (s.parish n).replica
  let a := c.arg1 + BitVec.ofNat 64 c.moved
  let o := handleObj a
  let stop (s : State) : State := s.decideCommand n seq 0x21 (BitVec.ofNat 64 c.moved)
  if (checkEntry (s.obj chip n o) o (handleOff a) c.lineSize right false).isSome then stop s
  else
    match s.checkResidency chip n o (handleOff a) a false with
    | .trap 0x09 _ => s.holdCommand n seq a
    | .trap _ _ | .drop => stop s
    | .moving => s.laterCommand n i
    | .ok t =>
        let v := vestryNode chip
        let s := (s.countExtent chip n o (handleOff a)).modCommand n seq fun c => { c with line := bytes }
        (s.request { req := req, target := t, addr := a, thread := 128 * v, parish := n, src := v, dst := 0, channel := false,
                     seq := 0, posted := false, takesPlace := false, reader := .host n seq }).2

/-- A copy goes on, line by line: `req` asks for the next line, with the bytes it takes, and `took` is done with what has come.
A line that meets an unbacked extent at its owner holds the copy; link lost, an unreachable owner and a machine check end
it (R447). -/
def State.copyStep (s : State) (n seq right : Nat) (i : Instr) (req : State → HostCommand → List Byte × Req)
    (took : State → HostCommand → List Byte → State) : State :=
  match s.command? n seq with
  | none => s
  | some c =>
    if c.waiting || c.outcome.isSome || s.accesses.any (fun e => decide (e.2.reader = .host n seq)) then s
    else
      match (if c.moved = 0 ∧ c.reads = [] then s.copyRefused n c right else none) with
      | some k => s.decideCommand n seq 0x22 (BitVec.ofNat 64 k)
      | none =>
        match c.reads with
        | [] => let (bytes, r) := req s c; s.askLine n seq right i c bytes r
        | l :: _ =>
          let s := s.modCommand n seq fun c => { c with reads := [] }
          match l.trap with
          | some (0x09, _) => s.holdCommand n seq (c.arg1 + BitVec.ofNat 64 c.moved)
          | some _ => s.decideCommand n seq 0x21 (BitVec.ofNat 64 c.moved)
          | none =>
            let s := (took s c l.bytes).modCommand n seq fun d => { d with moved := c.moved + c.lineSize }
            if c.moved + c.lineSize = c.arg2.toNat then s.decideCommand n seq 0 0 else s.event i

/-- COPYIN: host bytes are written through the handle, right W. -/
def execCopyin (parish seq : Nat) (s : State) : Out :=
  .next (
    if (s.command? parish seq).all (fun c => decide (c.opcode ≠ 2)) then s
    else s.copyStep parish seq rW (.copyin parish seq)
      (fun s c =>
        let bs := s.hostBytes (c.arg0.toNat + c.moved) c.lineSize
        (bs, .store ((List.range bs.length).zip bs)))
      fun s c _ => s.capture parish (.copied seq c.line))

/-- COPYOUT: bytes are read through the handle, right R, and written to the host. -/
def execCopyout (parish seq : Nat) (s : State) : Out :=
  .next (
    if (s.command? parish seq).all (fun c => decide (c.opcode ≠ 3)) then s
    else s.copyStep parish seq rR (.copyout parish seq) (fun _ c => ([], .load c.lineSize))
      fun s c bs => s.writeHost (c.arg0.toNat + c.moved) bs)

/-- MARK completes once every earlier command of the queue has. -/
def execMark (parish seq : Nat) (s : State) : Out :=
  .next (match s.command? parish seq with
    | none => s
    | some c =>
      if c.opcode = 4 ∧ c.outcome = none ∧ (s.parish parish).commands.all (fun d => decide (seq ≤ d.seq)) then
        s.decideCommand parish seq 0 0
      else s)

/-- The end of a command (R433, R435): the journal record, the completion entry and the vector, then what waits for it. -/
def execCommandCompletion (parish seq : Nat) (s : State) : Out :=
  .next (match s.command? parish seq with
    | none => s
    | some c =>
      match c.outcome with
      | none => s
      | some (status, detail) =>
        let p := s.parish parish
        let s := s.writeJournal parish seq 2 [BitVec.ofNat 64 (2 + status % 256 * 2 ^ 8), detail]
        let s := if p.cbase = 0 then s else
          let a := p.cbase.toNat + 16 * ((seq - 1) % p.ringSize)
          let w1 : Word := BitVec.ofNat 64 (c.tag.toNat * 2 ^ 16 + status % 256 * 2 ^ 8 + (seq - 1) / p.ringSize % 2)
          (s.writeHost a (littleEndian (BitVec.ofNat 64 seq) 8)).writeHost (a + 8) (littleEndian w1 8)
        let s := s.modChip p.hostChip fun k => { k with msix := k.msix ++ [parish] }
        let s := s.modParish parish fun p => { p with commands := p.commands.filter (·.seq != seq) }
        (s.parish parish).commands.foldl (fun s d => if d.opcode = 4 then s.event (.mark parish d.seq) else s) s)

/-! ### Parish images (R437, R438) -/

/-- A section (Table 21-9). -/
structure ImageSection where
  kind : Nat
  rights : Nat
  obj : Nat
  reserved : Bool
  length : Nat
  offset : Nat
  present : Nat
  deriving DecidableEq, Repr

def State.imageSection (s : State) (base : Nat) : ImageSection :=
  let w := s.hostWord base
  { kind := (field w 0 8).toNat, rights := (field w 8 5).toNat, obj := (field w 40 23).toNat,
    reserved := field w 13 27 != 0 || w.getLsbD 63, length := (s.hostWord (base + 8)).toNat,
    offset := (s.hostWord (base + 16)).toNat, present := (s.hostWord (base + 24)).toNat }

/-- Word at an offset of the image at `b`. -/
def State.imageSections (s : State) (b : Nat) : List ImageSection :=
  let n := Nat.min 4096 (s.hostWord (b + 0x50)).toNat
  (List.range n).map fun i => s.imageSection (b + (s.hostWord (b + 0x48)).toNat + 32 * i)

/-- A section breaks Table 21-9, or does not lie within the signed bytes. -/
def sectionBad (len cap : Nat) (x : ImageSection) : Bool :=
  decide (3 < x.kind) || x.reserved || decide (x.obj < 2) || decide (0x7FFFFE < x.obj) || decide (cap ≤ x.obj) ||
    decide (x.length = 0) || decide (2 ^ 40 < x.length) || decide (x.length < x.present) ||
    decide (len < x.offset + x.present)

/-- log2 of the six ring capacities. -/
def ringLogs (w : Word) : List Nat := (List.range 6).map fun i => (field w (4 * i) 4).toNat

/-- The header or the section table is malformed (Table 21-10, code 3). -/
def State.imageMalformed (s : State) (b : Nat) : Bool :=
  let h (o : Nat) : Word := s.hostWord (b + o)
  let len := (h 0x08).toNat
  let cap := 2 ^ (field (h 0x18) 0 5).toNat
  let secs := s.imageSections b
  let sup := (field (h 0x58) 0 16).toNat
  let off := (field (h 0x58) 16 48).toNat
  field (h 0x00) 0 32 != 0x4950474C || field (h 0x00) 32 16 != 1 || field (h 0x00) 48 16 != 0 || decide (len % 8 ≠ 0) ||
    decide (len < 256) || field (h 0x10) 18 19 == 0 || decide (2 ^ 18 < (field (h 0x10) 18 19).toNat) ||
    field (h 0x10) 37 27 != 0 ||
    !decide (10 ≤ (field (h 0x18) 0 5).toNat ∧ (field (h 0x18) 0 5).toNat ≤ 23) ||
    !decide (4 ≤ (field (h 0x18) 8 5).toNat ∧ (field (h 0x18) 8 5).toNat ≤ 16) ||
    field (h 0x18) 5 3 != 0 || field (h 0x18) 13 51 != 0 ||
    (ringLogs (h 0x20)).any (fun k => decide (k = 0 ∨ 9 < k)) || field (h 0x20) 24 40 != 0 ||
    field (h 0x40) 1 63 != 0 || decide (len < (h 0x48).toNat + 32 * secs.length) || h 0x50 == 0 ||
    decide (4096 < (h 0x50).toNat) ||
    (match secs[sup]? with
     | some x => x.kind != 3 || decide (off % 8 ≠ 0) || decide (x.length < off + 512)
     | none => true) ||
    !isPlace (h 0x60) || !(h 0x60).getLsbD 62 || field (h 0x60) 16 9 != 0 || decide (48 ≤ (field (h 0x60) 29 6).toNat) || decide (256 < (h 0x68).toNat) ||
    (List.range 18).any (fun i => h (0x70 + 8 * i) != 0) || secs.any (sectionBad len cap) ||
    secs.any fun x => decide (1 < (secs.filter (·.obj == x.obj)).length)

/-- The code of Table 21-10 that refuses an image, 1 to 3. The keys are those that the chip's Vestry image names (R436, R437). -/
def State.imageCode (s : State) (chip b : Nat) : Option Nat :=
  let len := (s.hostWord (b + 8)).toNat
  let signed := s.hostBytes b len
  let (rsa, slh) := Config.imageKeys (s.chip chip).vestryImage
  if !Crypto.rsaVerifies rsa signed (s.hostBytes (b + len) 384) then some 1
  else if !Crypto.slhVerifies slh signed (s.hostBytes (b + len + 384) 16224) then some 2
  else if s.imageMalformed b then some 3
  else none

/-! ### Building a parish -/

/-- An object that the Vestry makes: number, parcel bit, rights, length, and the host bytes loaded into it. -/
structure NewObject where
  obj : Nat
  parcel : Bool
  rights : Nat
  length : Nat
  source : Nat
  present : Nat
  deriving DecidableEq, Repr

/-- Zeros frames of a chip. -/
def State.zeroFrames (s : State) (chip f n : Nat) : State :=
  let lo := hbmByte chip (f * 2 ^ 21)
  let hi := lo + n * 2 ^ 21
  { s.clearShadow lo (hi - lo) with
    mem := s.mem.filter fun e => !decide (lo ≤ e.1 ∧ e.1 < hi)
    errors := s.errors.filter fun e => !decide (lo ≤ 8 * e.1 ∧ 8 * e.1 < hi)
    stamps := s.stamps.filter fun e => !decide (lo ≤ e.1 ∧ e.1 < hi) }

/-- Makes an object on every chip of a parish, held, backed by frames of the lowest-numbered chip from `f` on (R424), with its
extent list at `xl`; its bytes are loaded and the rest are zero (R438). -/
def State.makeObject (s : State) (n : Nat) (chips : List Nat) (owner xl f : Nat) (o : NewObject) : State :=
  let k := extentCount o.length
  let e : ObjEntry :=
    { w0 := packObj 0 1 o.parcel o.length, w1 := BitVec.ofNat 64 o.rights, w2 := BitVec.ofNat 64 xl }
  let s := chips.foldl (fun s c =>
    let s : State := { s with objs := AMap.set {} s.objs (objKey n c o.obj) e }
    (List.range k).foldl (fun s i =>
      { s with exts := AMap.set 0 s.exts (extKey n c (xl + 8 * i))
                 (if c = owner then localDesc (f + i) else remoteDesc owner) }) s) s
  (s.zeroFrames owner f k).setBytes ((consecutive (hbmByte owner (f * 2 ^ 21)) o.present).zip (s.hostBytes o.source o.present))

/-- Makes objects one after another: frames and extent lists follow on. -/
def State.makeObjects (s : State) (n : Nat) (chips : List Nat) (owner : Nat) : Nat → Nat → List NewObject → State
  | _, _, [] => s
  | xl, f, o :: r =>
      (s.makeObject n chips owner xl f o).makeObjects n chips owner (xl + 8 * extentCount o.length)
        (f + extentCount o.length) r

/-- The service core of a chip: core 15 of its lowest-numbered node that is not harvested (log 15). -/
def State.serviceCore (s : State) (chip : Nat) : Option Nat :=
  ((List.range 24576).find? fun i => !(s.node (chip * 24576 + i)).harvested).map fun i => (chip * 24576 + i) * 16 + 15

/-- The lowest-numbered rolls that are free on every die of the chips (R383). -/
def State.freeRolls (s : State) (chips : List Nat) (n : Nat) : Option (List Nat) :=
  let l := ((List.range 256).filter fun r => chips.all fun c => (List.range 8).all fun d =>
    (s.roll (c * 8 + d) r).parish == none).take n
  if l.length = n then some l else none

/-- Offset of ring `i` in the scratchpad of a service core, and the word before its entries. -/
def ringPlace (core i : Nat) : Word := placeOf core (0x1040 * i)

/-- Writes a Reeve ring with the given entries (Table 11-2). -/
def State.makeRing (s : State) (core i log : Nat) (es : List Word) : State :=
  let a := coreByte core (0x1040 * i)
  (s.write (([0, BitVec.ofNat 64 es.length, BitVec.ofNat 64 (2 ^ log - 1), 0] ++ es).zipIdx.flatMap fun e =>
    bytesAt (a + 8 * e.2) 8 e.1))

/-- The rolls of a die as 32 bytes, in four words. -/
def rollMap (rolls : List Nat) : List Word :=
  (List.range 4).map fun k =>
    BitVec.ofNat 64 (rolls.foldl (fun v r => if r / 64 = k then v + 2 ^ (r % 64) else v) 0)

/-- The control block of one chip (Table 14-8), in its frame 0, and the rings that it names. -/
def State.makeControl (s : State) (chip core : Nat) (logs : List Nat) (ws : List (Nat × Word)) (records images : List Word) :
    State :=
  let base := hbmByte chip 0
  let rings := (List.range 6).map fun i => (0x010 + 8 * i, ringPlace core i)
  let s := (ws ++ rings).foldl (fun s e => s.write (bytesAt (base + e.1) 8 e.2)) (s.zeroFrames chip 0 1)
  (List.range 6).foldl (fun s i =>
    s.makeRing core i (logs.getD i 1) (if i = 0 then records else if i = 2 then images else [])) s

/-- Numbers that the image leaves free for the Vestry's own objects: the highest below the table's capacity, from object 2
up (R35, log 15). -/
def spareObjects (cap : Nat) (used : List Nat) : List Nat :=
  let top := Nat.min cap 0x7FFFFF
  ((List.range (Nat.min 4102 (top - 2))).map (top - 1 - ·)).filter (fun o => !used.contains o) |>.take 5

/-- Steps 3 to 5 of the creation of a parish (R438); none when what the image names cannot be reserved. DESIGN CHOICE, log 15. -/
def State.buildParish (s : State) (chip n b : Nat) : Option State :=
  let h (o : Nat) : Word := s.hostWord (b + o)
  let first := (field (h 0x10) 0 18).toNat
  let count := (field (h 0x10) 18 19).toNat
  let chips := (List.range count).map (first + ·)
  let cap := 2 ^ (field (h 0x18) 0 5).toNat
  let jcap := 2 ^ (field (h 0x18) 8 5).toNat
  let logs := ringLogs (h 0x20)
  let nrec := 2 ^ logs.getD 0 1
  let nimg := 2 ^ logs.getD 2 1
  let frames := (h 0x28).toNat
  let secs := s.imageSections b
  let capture := (h 0x40).getLsbD 0
  let spare := spareObjects cap (secs.map (·.obj))
  let num (i : Nat) : Nat := spare.getD i 0
  let own (obj rights length : Nat) : NewObject :=
    { obj := obj, parcel := false, rights := rights, length := length, source := 0, present := 0 }
  let vestry := [own (num 0) 3 0x20000, own (num 1) 1 (32 * jcap), own (num 2) 3 (count * nrec * 0x800),
    own (num 3) 3 (count * nimg * 0x10000)] ++ (if capture then [own (num 4) 1 captureSize] else [])
  let objs := secs.map (fun x => ({ obj := x.obj, parcel := x.kind == 2, rights := x.rights, length := x.length,
                                    source := b + x.offset, present := x.present } : NewObject)) ++ vestry
  let ext := objs.foldl (fun k o => k + extentCount o.length) 0
  let table := extentCount (32 * cap + 8 * (ext + 1))
  let clash := s.parishes.any fun e => e.2.present && decide (e.2.firstChip < first + count) &&
    decide (first < e.2.firstChip + e.2.chips)
  let service := chips.filterMap s.serviceCore
  if clash || decide (2 ^ 18 < first + count) || !(chips.all fun c => s.reaches chip c) || decide (2 ^ 19 < frames) ||
      decide (frames < 1 + ext + table) || decide (spare.length < 5) || decide (2 ^ 40 < count * nimg * 0x10000) ||
      decide (service.length ≠ count) then none
  else
    match s.freeRolls chips (h 0x68).toNat with
    | none => none
    | some rolls =>
      let handle (o i size : Nat) : Word := BitVec.ofNat 64 (o * 2 ^ 40 + i * size)
      let words : List (Nat × Word) :=
        [(0x000, BitVec.ofNat 64 (1 + n * 2 ^ 16)), (0x008, BitVec.ofNat 64 cap), (0x040, handle (num 0) 0 0),
         (0x048, handle (num 1) 0 0), (0x050, BitVec.ofNat 64 jcap),
         (0x058, if capture then handle (num 4) 0 0 else 0), (0x060, (field (h 0x30) 0 32).setWidth 64),
         (0x068, (field (h 0x30) 32 32).setWidth 64), (0x070, h 0x38), (0x078, BitVec.ofNat 64 rolls.length)] ++
        (List.range 8).flatMap fun d => (rollMap rolls).zipIdx.map fun e => (0x080 + 32 * d + 8 * e.2, e.1)
      let s : State := { s with objs := s.objs.filter fun e => e.1 / 2 ^ 41 != n
                                exts := s.exts.filter fun e => e.1 / 2 ^ 58 != n }
      let s := chips.foldl (fun s c => s.modChip c fun k => { k with framesReserved := frames }) s
      let s := chips.zipIdx.foldl (fun s e =>
        let c := e.1
        let s : State := { s with
          objs := AMap.set {} s.objs (objKey n c 1)
            { w0 := packObj 0 1 false 4096, w1 := 3, w2 := BitVec.ofNat 64 (32 * cap) }
          exts := AMap.set 0 s.exts (extKey n c (32 * cap)) (localDesc 0) }
        s.makeControl c (service.getD e.2 0) logs words
          ((List.range nrec).map fun i => handle (num 2) (e.2 * nrec + i) 0x800)
          ((List.range nimg).map fun i => handle (num 3) (e.2 * nimg + i) 0x10000)) s
      let s := s.makeObjects n chips first (32 * cap + 8) 1 objs
      let s := chips.foldl (fun s c => (List.range 8).foldl (fun s d =>
        rolls.foldl (fun s r => s.modRoll (c * 8 + d) r fun v => { v with parish := some n }) s) s) s
      let p : Parish :=
        { present := true, hostChip := chip, firstChip := first, chips := count, service := service, rollTable := num 0,
          journal := num 1, journalCap := jcap, captureOn := capture,
          captureObj := num 4, rolls := rolls, image := s.hostBytes b (h 0x08).toNat }
      let seeds : Captured := .seeds ((field (h 0x30) 0 32).setWidth 64) ((field (h 0x30) 32 32).setWidth 64) (h 0x38)
      some ((s.modParish n fun _ => p).capture n seeds)

/-- Step 6: the supervisor's record goes to its board at supervisor privilege; the code of Table 11-7 that refuses it. -/
def State.launchSupervisor (s : State) (chip n b : Nat) : State × Nat :=
  let h (o : Nat) : Word := s.hostWord (b + o)
  let x := (s.imageSections b)[(field (h 0x58) 0 16).toNat]?
  let r := BitVec.ofNat 64 ((x.map (·.obj)).getD 0 * 2 ^ 40 + (field (h 0x58) 16 48).toNat)
  let (s, ws) := s.readWords (s.parish n).replica n r 64
  let v : Submission :=
    { parish := n, record := r, home := h 0x60 &&& ~~~(0xFFFF : Word), supervisor := true, chip := chip, words := ws.getD [] }
  let (s, sched) := s.readSchedule v
  match s.launchCode v sched with
  | 0 =>
      if Config.boardEntries ≤ s.boardUse (nodeOfCore (placeCore chip v.home)) then (s, 6) else (s.accept v (sched.getD []), 0)
  | c => (s, c)

/-- pcmd create (R438): a failure at any step leaves the machine as it was but for the code in pstat. DEDUCED, log 73. -/
def State.createParish (s : State) (chip n : Nat) : State :=
  let b := (s.chip chip).pimg.toNat
  let fail (code launch : Nat) : State :=
    s.modParish n fun p =>
      if p.present then { p with createCode := code } else { p with createCode := code, launchCode := launch, hostChip := chip }
  if 128 ≤ n ∨ (s.chip chip).stage ≠ 7 then s
  else if (s.parish n).present then fail 5 0
  else
    match s.imageCode chip b with
    | some c => fail c 0
    | none =>
      match s.buildParish chip n b with
      | none => fail 4 0
      | some s' =>
        match s'.launchSupervisor chip n b with
        | (s', 0) => s'
        | (_, c) => fail 6 c

def execParishCreate (chip parish : Nat) (s : State) : Out := .next (s.createParish chip parish)

/-! ### Destroying a parish -/

/-- A core without what a task or a thread has left on it. -/
def Core.emptied (c : Core) : Core :=
  { cyc := c.cyc, last := c.last, lastc := c.lastc, scrubLine := c.scrubLine, corrected := c.corrected }

/-- A node without what a task or a thread has left on it. -/
def Node.emptied (n : Node) : Node :=
  { banks := n.banks, epoch := n.epoch, swapping := n.swapping, drained := n.drained, reported := n.reported,
    inReset := n.inReset, scrubLine := n.scrubLine, harvested := n.harvested, seqs := n.seqs, toll := n.toll }

/-- pcmd destroy: the parish, its threads, tasks, objects, rolls and frames are gone (R383, R431, R434). DEDUCED, log 74. -/
def State.destroyParish (s : State) (chip n : Nat) : State :=
  let p := s.parish n
  if !s.pageLive chip n then s
  else
    let has (c : Nat) : Bool := decide (p.firstChip ≤ c ∧ c < p.firstChip + p.chips)
    let ofByte (pa : Nat) : Bool :=
      if pa < hbmBase then has (chipOfCore (pa / 2 ^ 16)) else decide (pa < hostBase) && has ((pa - hbmBase) / 2 ^ 40)
    let s : State := { s with
      shadow := s.shadow.filter fun e => !ofByte (128 * e.1)
      slots := s.slots.filter fun e => e.2.parish != n || !has (chipOfThread e.1)
      cores := s.cores.map fun e => if has (chipOfCore e.1) then (e.1, e.2.emptied) else e
      nodes := s.nodes.map fun e => if has (chipOfNode e.1) then (e.1, e.2.emptied) else e
      dies := s.dies.map fun e =>
        (e.1, { e.2 with rolls := e.2.rolls.filter fun r => r.2.parish != some n })
      chips := s.chips.map fun e => if has e.1 then (e.1, { e.2 with framesReserved := 0, changes := [] }) else e
      objs := s.objs.filter fun e => e.1 / 2 ^ 41 != n
      exts := s.exts.filter fun e => e.1 / 2 ^ 58 != n
      tasks := s.tasks.filter fun e => e.2.parish != n
      submissions := s.submissions.filter fun e => e.2.parish != n
      subscriptions := s.subscriptions.filter fun e => !has (chipOfThread e.2.thread)
      accesses := s.accesses.filter fun e => e.2.parish != n
      packets := s.packets.filter fun e => e.2.parish != n
      ops := s.ops.filter fun e => e.2.parish != n
      rounds := s.rounds.filter fun e => (s.task e.2.task).parish != n
      groups := s.groups.filter fun e => e.2.parish != n
      changes := s.changes.filter fun e => e.2.parish != n
      transits := (s.transits.filter fun e => e.2.parish != n).map fun e =>
        if e.2.destParish = n ∧ e.2.stage ≠ .arrived then (e.1, { e.2 with refused := true }) else e
      saved := s.saved.filter fun e => e.2.parish != n
      notices := s.notices.filter fun e => !(hbmBase ≤ e.1 && has ((e.1 - hbmBase) / 2 ^ 40))
      timers := s.timers.filter fun e => !has (chipOfCore e.1)
      parishes := AMap.drop s.parishes n }
    let s := s.nodes.foldl (fun s e => if has (chipOfNode e.1) && e.2.toll.held then s.event (.tollReturn e.1) else s) s
    s.transits.foldl (fun s t => if t.2.refused then s.event (.parcelTransitFailure t.1) else s) s

def execParishDestroy (chip parish : Nat) (s : State) : Out := .next (s.destroyParish chip parish)

/-- A host write to a register (R431): dropped at the page of a parish that does not exist, and ignored by qbase, qsize and
cbase once the parish has accepted a command. -/
def State.writeRegister (s : State) (chip off : Nat) (v : Word) : State :=
  if (s.chip chip).off then s
  else if off < 0x8000 then
    let n := off / 256
    if !s.pageLive chip n then s
    else
      let fresh := (s.parish n).jtail = 1
      match off % 256 with
      | 0x00 => if fresh then s.modParish n fun p => { p with qbase := v } else s
      | 0x08 => if fresh then s.modParish n fun p => { p with qsize := v &&& 0xF } else s
      | 0x10 => s.writeQtail n v
      | 0x20 => s.writeJhead n v
      | 0x30 => if fresh then s.modParish n fun p => { p with cbase := v } else s
      | _ => s
  else if off = 0x8008 then s.modChip chip fun c => { c with pimg := v }
  else if off = 0x8010 then
    let n := (field v 0 7).toNat
    if v.getLsbD 8 then s.createParish chip n else if v.getLsbD 9 then s.destroyParish chip n else s
  else s

def execRegisterWrite (chip off : Nat) (v : Word) (s : State) : Out := .next (s.writeRegister chip off v)

/-! ### Boot (R436 to R439) -/

/-- The public keys that come with a Vestry image are those that the fuses bind (R436). -/
def keysBound (chip : Nat) (b : BootInput) : Bool := Crypto.sha384.hash (b.rsaKey ++ b.slhKey) == Config.keyFuses chip

/-- The failure code of stages 1 and 2 up to the route tables, and the stage reached (Tables 21-11, 21-12). DEDUCED, log 79. -/
def bootOutcome (chip : Nat) (b : BootInput) : Nat × Nat :=
  if !b.selfTestOk then (1, 8)
  else if !b.flashReadable then (1, 4)
  else if !b.wellFormed then (1, 3)
  else if !(keysBound chip b && Crypto.rsaVerifies b.rsaKey b.signed b.rsaSignature) then (1, 1)
  else if !Crypto.slhVerifies b.slhKey b.signed b.slhSignature then (1, 2)
  else if !b.fuseMapOk then (2, 5)
  else if !b.routable then (3, 6)
  else (4, 0)

/-- The toll count of each die under the default budget, 60% of its Loom nodes (R3, R184). -/
def defaultTolls : Nat := 1843

/-- The boot ROM verifies and enters the Vestry image, which reads the fuse map, writes the route tables and sets the default
toll counts. A failure stops boot at its stage. -/
def execBootRom (chip : Nat) (b : BootInput) (s : State) : Out :=
  .next (
    let c := s.chip chip
    if c.off || decide (c.stage ≠ 0) then s
    else
      let (stage, code) := bootOutcome chip b
      let s := s.modChip chip fun c =>
        { c with stage := stage, failure := code, vestryImage := if 2 ≤ stage then b.signed else [],
                 fuseMap := if 3 ≤ stage then b.harvested.flatMap fun n => littleEndian (BitVec.ofNat 64 n) 4 else [] }
      let s := if 3 ≤ stage then
          b.harvested.foldl (fun s n => s.modNode (chip * 24576 + n) fun v => { v with harvested := true }) s
        else s
      if 4 ≤ stage then
        let s := b.routes.foldl (fun s r =>
          s.modNode (chip * 24576 + r.1) fun v => { v with banks := AMap.set 0 v.banks r.2.1 r.2.2 }) s
        (List.range 8).foldl (fun s d => s.setTolls (8 * chip + d) defaultTolls) s
      else s)

/-- The gateways of the die seams train; a seam that has none stops boot with code 7. -/
def execGatewayTraining (chip : Nat) (deadSeams : List Nat) (s : State) : Out :=
  .next (
    let c := s.chip chip
    if c.stage ≠ 4 ∨ c.failure ≠ 0 then s
    else if deadSeams.isEmpty then (s.modChip chip fun c => { c with stage := 5 }).portsDone chip
    else s.modChip chip fun c => { c with failure := 7 })

/-- The host link trains to a speed of the base specification, in GT/s, and a width of 16, 8 or 4 (R430); 2 stands for 2.5. -/
def execHostLinkTraining (chip speed width : Nat) (s : State) : Out :=
  .next (
    if (s.chip chip).off then s else
    let ok := [2, 5, 8, 16, 32, 64, 128].contains speed && [4, 8, 16].contains width
    s.modChip chip fun c => { c with linkSpeed := if ok then speed else 0, linkWidth := if ok then width else 0 })

/-! ### Attestation (R440) -/

/-- The bytes that a measurement index covers. DEDUCED, log 77. -/
def State.measured (s : State) (chip index : Nat) : Option (List Byte) :=
  match index with
  | 0 => none
  | 1 => some []
  | 2 => some (s.chip chip).vestryImage
  | 3 => some (s.chip chip).fuseMap
  | i => if 16 ≤ i ∧ s.pageLive chip (i - 16) then some (s.parish (i - 16)).image else none

/-- A MEASUREMENTS request, with the requester's nonce, is answered with a response that carries both signatures over the hash of
the transcript, under the chip's device keys. -/
def execMeasurements (chip : Nat) (r : MeasurementRequest) (s : State) : Out :=
  .next (
    match decide (2 ≤ (s.chip chip).stage), s.measured chip r.index with
    | true, some bs =>
        let m := Config.measurement r.index bs
        let t := Config.transcriptHash r.nonce r.index m
        let (rsa, slh) := Config.deviceKeys chip
        s.modChip chip fun c => { c with responses := c.responses ++ [(r.index, m, Config.rsaSign rsa t, Config.slhSign slh t)] }
    | _, _ => s)

/-! ### Power and cooling (R57, R443, R444) -/

/-- Nothing of a chip's state is kept. DEDUCED, log 75. -/
def State.eraseChip (s : State) (chip : Nat) (off : Bool) : State :=
  let ofByte (pa : Nat) : Bool :=
    if pa < hbmBase then chipOfCore (pa / 2 ^ 16) == chip
    else decide (pa < hostBase) && (pa - hbmBase) / 2 ^ 40 == chip
  let onlyHere (t : Task) : Bool := chipOfNode t.homeNode == chip && t.members.all fun m => chipOfNode m.node == chip
  let at' (p : Packet) : Bool :=
    match p.loc with
    | .router n => chipOfNode n == chip
    | .seam n _ => chipOfNode n == chip
    | .waitingFork n => chipOfNode n == chip
    | .belfry c => c == chip
    | .port c _ => c == chip
    | _ => chipOfNode p.dst == chip
  let s : State := { s with
    mem := s.mem.filter fun e => !ofByte e.1
    empty := s.empty.filter fun l => !ofByte (128 * l)
    shadow := s.shadow.filter fun e => !ofByte (128 * e.1)
    stamps := s.stamps.filter fun e => !ofByte e.1
    errors := s.errors.filter fun e => !ofByte (8 * e.1)
    slots := s.slots.filter fun e => chipOfThread e.1 != chip
    cores := s.cores.filter fun e => chipOfCore e.1 != chip
    nodes := s.nodes.filter fun e => chipOfNode e.1 != chip
    dies := s.dies.filter fun e => e.1 / 8 != chip
    objs := s.objs.filter fun e => e.1 / 2 ^ 23 % 2 ^ 18 != chip
    exts := s.exts.filter fun e => e.1 / 2 ^ 40 % 2 ^ 18 != chip
    parishes := s.parishes.filter fun e => e.2.hostChip != chip
    tasks := s.tasks.filter fun e => !onlyHere e.2
    rounds := s.rounds.filter fun e => !onlyHere (s.task e.2.task)
    groups := s.groups.filter fun e => chipOfNode e.2.node != chip
    submissions := s.submissions.filter fun e => e.2.chip != chip
    subscriptions := s.subscriptions.filter fun e => chipOfThread e.2.thread != chip
    accesses := s.accesses.filter fun e => chipOfNode e.2.src != chip
    packets := s.packets.filter fun e => !at' e.2
    ops := s.ops.filter fun e => chipOfCore e.2.core != chip
    entries := s.entries.filter fun e => e.2.at' != chip
    changes := s.changes.map fun e => (e.1, { e.2 with chips := e.2.chips.filter (· != chip) })
    transits := s.transits.filter fun e => e.2.chip != chip
    saved := s.saved.filter fun e => chipOfThread e.2.savedFrom != chip && !ofByte e.1
    notices := s.notices.filter fun e => !ofByte e.1
    timers := s.timers.filter fun e => chipOfCore e.1 != chip }
  s.modChip chip fun _ => { off := off }

/-- Power-on reset of a module: its storage reads zero, its lines are full and its Granary slots free (R57). -/
def execPowerOnReset (chip : Nat) (s : State) : Out := .next (s.eraseChip chip false)

/-- The module has lost its supply: nothing runs and no state is kept, journals included (R444). -/
def execPowerLoss (chip : Nat) (s : State) : Out := .next (s.eraseChip chip true)

/-- A die above 105 °C: the module's monitor removes power, and nothing is saved (R443). -/
def execModuleOverTemperature (chip : Nat) (s : State) : Out :=
  .next (s.eraseChip chip true)

/-- A die above 95 °C has its toll count set to 64 (R443). -/
def execDieOverTemperature (die : Nat) (s : State) : Out := .next (s.setTolls die 64)

end Sys2Proof.Machine
end

