-- ==== Sys2Proof/Machine/Dispatch.lean ====
section
/-! DEFINITION. One arm per constructor of `Instr`: a direct call of its meaning. -/

namespace Sys2Proof.Machine

def exec (i : Instr) (s : State) : Host.Outcome State Fault Refusal :=
  match i with
  -- scalar: major 0x01, ALU (R249, R251)
  | .add g d a b => Sys2Proof.Machine.execAdd g d a b s
  | .sub g d a b => Sys2Proof.Machine.execSub g d a b s
  | .and g d a b => Sys2Proof.Machine.execAnd g d a b s
  | .or g d a b => Sys2Proof.Machine.execOr g d a b s
  | .xor g d a b => Sys2Proof.Machine.execXor g d a b s
  | .shl g d a b => Sys2Proof.Machine.execShl g d a b s
  | .shr g d a b => Sys2Proof.Machine.execShr g d a b s
  | .shra g d a b => Sys2Proof.Machine.execShra g d a b s
  | .rotr g d a b => Sys2Proof.Machine.execRotr g d a b s
  | .min g d a b => Sys2Proof.Machine.execMin g d a b s
  | .max g d a b => Sys2Proof.Machine.execMax g d a b s
  | .minu g d a b => Sys2Proof.Machine.execMinu g d a b s
  | .maxu g d a b => Sys2Proof.Machine.execMaxu g d a b s
  | .mul g d a b => Sys2Proof.Machine.execMul g d a b s
  | .mulh g d a b => Sys2Proof.Machine.execMulh g d a b s
  | .mulhu g d a b => Sys2Proof.Machine.execMulhu g d a b s
  | .div g d a b => Sys2Proof.Machine.execDiv g d a b s
  | .divu g d a b => Sys2Proof.Machine.execDivu g d a b s
  | .rem g d a b => Sys2Proof.Machine.execRem g d a b s
  | .remu g d a b => Sys2Proof.Machine.execRemu g d a b s
  | .clz g d a => Sys2Proof.Machine.execClz g d a s
  | .ctz g d a => Sys2Proof.Machine.execCtz g d a s
  | .popc g d a => Sys2Proof.Machine.execPopc g d a s
  | .sextB g d a => Sys2Proof.Machine.execSextB g d a s
  | .sextH g d a => Sys2Proof.Machine.execSextH g d a s
  | .sextW g d a => Sys2Proof.Machine.execSextW g d a s
  | .zextB g d a => Sys2Proof.Machine.execZextB g d a s
  | .zextH g d a => Sys2Proof.Machine.execZextH g d a s
  | .zextW g d a => Sys2Proof.Machine.execZextW g d a s
  -- majors 0x02 to 0x0A (R250, R253)
  | .addi g d a imm => Sys2Proof.Machine.execAddi g d a imm s
  | .andi g d a imm => Sys2Proof.Machine.execAndi g d a imm s
  | .ori g d a imm => Sys2Proof.Machine.execOri g d a imm s
  | .xori g d a imm => Sys2Proof.Machine.execXori g d a imm s
  | .shli g d a n => Sys2Proof.Machine.execShli g d a n s
  | .shri g d a n => Sys2Proof.Machine.execShri g d a n s
  | .shrai g d a n => Sys2Proof.Machine.execShrai g d a n s
  | .rotri g d a n => Sys2Proof.Machine.execRotri g d a n s
  | .movi g d imm => Sys2Proof.Machine.execMovi g d imm s
  | .movk16 g d imm => Sys2Proof.Machine.execMovk16 g d imm s
  | .movk32 g d imm => Sys2Proof.Machine.execMovk32 g d imm s
  | .movk48 g d imm => Sys2Proof.Machine.execMovk48 g d imm s
  -- majors 0x0B to 0x0D (R254, R255)
  | .cmp g p a b cc => Sys2Proof.Machine.execCmp g p a b cc s
  | .cmpi g p a cc imm => Sys2Proof.Machine.execCmpi g p a cc imm s
  | .pand g d a b => Sys2Proof.Machine.execPand g d a b s
  | .por g d a b => Sys2Proof.Machine.execPor g d a b s
  | .pxor g d a b => Sys2Proof.Machine.execPxor g d a b s
  | .pnot g d a => Sys2Proof.Machine.execPnot g d a s
  | .pmov g d a => Sys2Proof.Machine.execPmov g d a s
  | .movpFromPw g d => Sys2Proof.Machine.execMovpFromPw g d s
  | .movpToPw g a => Sys2Proof.Machine.execMovpToPw g a s
  -- majors 0x0E to 0x13 (R256 to R262, R247, R248)
  | .br g off => Sys2Proof.Machine.execBr g off s
  | .jal g off => Sys2Proof.Machine.execJal g off s
  | .jalr g d a imm => Sys2Proof.Machine.execJalr g d a imm s
  | .nop g => Sys2Proof.Machine.execNop g s
  | .halt g => Sys2Proof.Machine.execHalt g s
  | .yield g => Sys2Proof.Machine.execYield g s
  | .trap g code => Sys2Proof.Machine.execTrap g code s
  | .eret g => Sys2Proof.Machine.execEret g s
  | .brk g code => Sys2Proof.Machine.execBrk g code s
  | .gets g d n => Sys2Proof.Machine.execGets g d n s
  | .sets g a n => Sys2Proof.Machine.execSets g a n s
  -- majors 0x14 to 0x19 (R272 to R275)
  | .ld g t base size sx order off => Sys2Proof.Machine.execLd g t base size sx order off s
  | .st g t base size order off => Sys2Proof.Machine.execSt g t base size order off s
  | .ldl g t base size sx off => Sys2Proof.Machine.execLdl g t base size sx off s
  | .stl g t base size off => Sys2Proof.Machine.execStl g t base size off s
  | .ldh g t base off => Sys2Proof.Machine.execLdh g t base off s
  | .sth g t base off => Sys2Proof.Machine.execSth g t base off s
  -- majors 0x1A to 0x1C (R277 to R282)
  | .amoAdd g d a b ty scope => Sys2Proof.Machine.execAmoAdd g d a b ty scope s
  | .amoMin g d a b ty scope => Sys2Proof.Machine.execAmoMin g d a b ty scope s
  | .amoMax g d a b ty scope => Sys2Proof.Machine.execAmoMax g d a b ty scope s
  | .amoAnd g d a b ty scope => Sys2Proof.Machine.execAmoAnd g d a b ty scope s
  | .amoOr g d a b ty scope => Sys2Proof.Machine.execAmoOr g d a b ty scope s
  | .amoXor g d a b ty scope => Sys2Proof.Machine.execAmoXor g d a b ty scope s
  | .amoXchg g d a b ty scope => Sys2Proof.Machine.execAmoXchg g d a b ty scope s
  | .cas g d a b c double scope => Sys2Proof.Machine.execCas g d a b c double scope s
  | .cas2 g d a b => Sys2Proof.Machine.execCas2 g d a b s
  | .cas4 g d a b => Sys2Proof.Machine.execCas4 g d a b s
  | .enq g d a b => Sys2Proof.Machine.execEnq g d a b s
  | .deq g d a b => Sys2Proof.Machine.execDeq g d a b s
  | .chase g d a b c => Sys2Proof.Machine.execChase g d a b c s
  -- majors 0x1D to 0x1F (R283 to R286)
  | .cwait g d a imm => Sys2Proof.Machine.execCwait g d a imm s
  | .cwaitr g d a imm => Sys2Proof.Machine.execCwaitr g d a imm s
  | .cadd g d a imm => Sys2Proof.Machine.execCadd g d a imm s
  | .caddRel g d a imm => Sys2Proof.Machine.execCaddRel g d a imm s
  | .cpeek g d a imm => Sys2Proof.Machine.execCpeek g d a imm s
  | .lempty g a n => Sys2Proof.Machine.execLempty g a n s
  | .lfill g a n => Sys2Proof.Machine.execLfill g a n s
  | .lstate g d a => Sys2Proof.Machine.execLstate g d a s
  | .wander g a => Sys2Proof.Machine.execWander g a s
  | .home g => Sys2Proof.Machine.execHome g s
  -- majors 0x20 to 0x23 (R288 to R294)
  | .tx g a imm => Sys2Proof.Machine.execTx g a imm s
  | .tq g a imm => Sys2Proof.Machine.execTq g a imm s
  | .fork g n a imm => Sys2Proof.Machine.execFork g n a imm s
  | .rdv g a imm => Sys2Proof.Machine.execRdv g a imm s
  -- majors 0x24 to 0x26 (R295 to R299)
  | .tshape g t elem rows cols => Sys2Proof.Machine.execTshape g t elem rows cols s
  | .tshapeReg g t a => Sys2Proof.Machine.execTshapeReg g t a s
  | .tget g d t b => Sys2Proof.Machine.execTget g d t b s
  | .tset g d t b => Sys2Proof.Machine.execTset g d t b s
  | .park g a t c => Sys2Proof.Machine.execPark g a t c s
  | .unpark g d t c => Sys2Proof.Machine.execUnpark g d t c s
  | .borrow g => Sys2Proof.Machine.execBorrow g s
  | .returnLent g => Sys2Proof.Machine.execReturnLent g s
  | .xget g d n => Sys2Proof.Machine.execXget g d n s
  | .xput g n b => Sys2Proof.Machine.execXput g n b s
  -- majors 0x27 to 0x29 (R300 to R304)
  | .launch g d a b => Sys2Proof.Machine.execLaunch g d a b s
  | .trigger g => Sys2Proof.Machine.execTrigger g s
  | .kvsub g d a b t => Sys2Proof.Machine.execKvsub g d a b t s
  | .kvunsub g a => Sys2Proof.Machine.execKvunsub g a s
  | .pass g a => Sys2Proof.Machine.execPass g a s
  | .post g a b => Sys2Proof.Machine.execPost g a b s
  -- majors 0x2A to 0x2C (R263 to R267)
  | .fadd g d a b dbl rm => Sys2Proof.Machine.execFadd g d a b dbl rm s
  | .fsub g d a b dbl rm => Sys2Proof.Machine.execFsub g d a b dbl rm s
  | .fmul g d a b dbl rm => Sys2Proof.Machine.execFmul g d a b dbl rm s
  | .fdiv g d a b dbl rm => Sys2Proof.Machine.execFdiv g d a b dbl rm s
  | .fsqrt g d a dbl rm => Sys2Proof.Machine.execFsqrt g d a dbl rm s
  | .fmin g d a b dbl => Sys2Proof.Machine.execFmin g d a b dbl s
  | .fmax g d a b dbl => Sys2Proof.Machine.execFmax g d a b dbl s
  | .fneg g d a dbl => Sys2Proof.Machine.execFneg g d a dbl s
  | .fabs g d a dbl => Sys2Proof.Machine.execFabs g d a dbl s
  | .fcvt g d a conv rm => Sys2Proof.Machine.execFcvt g d a conv rm s
  | .fma g d a b c dbl => Sys2Proof.Machine.execFma g d a b c dbl s
  | .fms g d a b c dbl => Sys2Proof.Machine.execFms g d a b c dbl s
  | .fnma g d a b c dbl => Sys2Proof.Machine.execFnma g d a b c dbl s
  | .fnms g d a b c dbl => Sys2Proof.Machine.execFnms g d a b c dbl s
  | .fcmp g p a b dbl cc => Sys2Proof.Machine.execFcmp g p a b dbl cc s
  -- majors 0x2D to 0x2F (R268 to R270, R276)
  | .plc g d a b => Sys2Proof.Machine.execPlc g d a b s
  | .ploc g d a => Sys2Proof.Machine.execPloc g d a s
  | .roll g d a => Sys2Proof.Machine.execRoll g d a s
  | .rollF g d a => Sys2Proof.Machine.execRollF g d a s
  | .stc g a b c size => Sys2Proof.Machine.execStc g a b c size s
  -- tile commands: Loom (R316 to R320)
  | .tmma f => Sys2Proof.Machine.execTmma f s
  | .tmms f => Sys2Proof.Machine.execTmms f s
  | .tmmb f => Sys2Proof.Machine.execTmmb f s
  | .tmmd f => Sys2Proof.Machine.execTmmd f s
  -- Lane engine (R322 to R333)
  | .radd f => Sys2Proof.Machine.execRadd f s
  | .rsub f => Sys2Proof.Machine.execRsub f s
  | .rmul f => Sys2Proof.Machine.execRmul f s
  | .rfma f => Sys2Proof.Machine.execRfma f s
  | .rmin f => Sys2Proof.Machine.execRmin f s
  | .rmax f => Sys2Proof.Machine.execRmax f s
  | .rabs f => Sys2Proof.Machine.execRabs f s
  | .rneg f => Sys2Proof.Machine.execRneg f s
  | .rrcp f => Sys2Proof.Machine.execRrcp f s
  | .rrsq f => Sys2Proof.Machine.execRrsq f s
  | .rexp2 f => Sys2Proof.Machine.execRexp2 f s
  | .rlog2 f => Sys2Proof.Machine.execRlog2 f s
  | .rcvt f => Sys2Proof.Machine.execRcvt f s
  | .rand f => Sys2Proof.Machine.execRand f s
  | .ror f => Sys2Proof.Machine.execRor f s
  | .rxor f => Sys2Proof.Machine.execRxor f s
  | .rshl f => Sys2Proof.Machine.execRshl f s
  | .rshr f => Sys2Proof.Machine.execRshr f s
  | .rcmp f => Sys2Proof.Machine.execRcmp f s
  | .rsel f => Sys2Proof.Machine.execRsel f s
  | .rbcast f => Sys2Proof.Machine.execRbcast f s
  | .rsumr f => Sys2Proof.Machine.execRsumr f s
  | .rmaxr f => Sys2Proof.Machine.execRmaxr f s
  | .rscan f => Sys2Proof.Machine.execRscan f s
  | .rsort f => Sys2Proof.Machine.execRsort f s
  | .ridx f => Sys2Proof.Machine.execRidx f s
  | .rperm f => Sys2Proof.Machine.execRperm f s
  | .rroll f => Sys2Proof.Machine.execRroll f s
  | .kand f => Sys2Proof.Machine.execKand f s
  | .kor f => Sys2Proof.Machine.execKor f s
  | .kxor f => Sys2Proof.Machine.execKxor f s
  | .knot f => Sys2Proof.Machine.execKnot f s
  -- tile moves (R335 to R339)
  | .tld f => Sys2Proof.Machine.execTld f s
  | .tst f => Sys2Proof.Machine.execTst f s
  | .tsta f => Sys2Proof.Machine.execTsta f s
  | .tzero f => Sys2Proof.Machine.execTzero f s
  | .tcopy f => Sys2Proof.Machine.execTcopy f s
  | .ttrn f => Sys2Proof.Machine.execTtrn f s
  -- Carter, Gleaner, attention, spires (R345 to R360)
  | .cpy f => Sys2Proof.Machine.execCpy f s
  | .cpya f => Sys2Proof.Machine.execCpya f s
  | .csched f => Sys2Proof.Machine.execCsched f s
  | .cstage f => Sys2Proof.Machine.execCstage f s
  | .gath f => Sys2Proof.Machine.execGath f s
  | .scat f => Sys2Proof.Machine.execScat f s
  | .atts f => Sys2Proof.Machine.execAtts f s
  | .attp f => Sys2Proof.Machine.execAttp f s
  | .gmrg f => Sys2Proof.Machine.execGmrg f s
  | .gtake f => Sys2Proof.Machine.execGtake f s
  | .spire f => Sys2Proof.Machine.execSpire f s
  -- the hardware's own steps (file 95); Nat arguments name nodes, threads, packets, operations by number
  | .retryTimeout pk => Sys2Proof.Machine.execRetryTimeout pk s
  | .scrub core found => Sys2Proof.Machine.execScrub core found s
  | .packetRoute pk => Sys2Proof.Machine.execPacketRoute pk s
  | .drainMarker node port => Sys2Proof.Machine.execDrainMarker node port s
  | .gatewayFrame pk fecOk => Sys2Proof.Machine.execGatewayFrame pk fecOk s
  | .forkBufferSend node pk => Sys2Proof.Machine.execForkBufferSend node pk s
  | .reeveOperation pk uncorrectable => Sys2Proof.Machine.execReeveOperation pk uncorrectable s
  | .flagIncrement pk => Sys2Proof.Machine.execFlagIncrement pk s
  | .waitRegistration pk => Sys2Proof.Machine.execWaitRegistration pk s
  | .wakeNotice pk => Sys2Proof.Machine.execWakeNotice pk s
  | .replyLands pk => Sys2Proof.Machine.execReplyLands pk s
  | .acknowledgement pk => Sys2Proof.Machine.execAcknowledgement pk s
  | .busyNotice pk => Sys2Proof.Machine.execBusyNotice pk s
  | .homeReport pk => Sys2Proof.Machine.execHomeReport pk s
  | .tableChange chip chg => Sys2Proof.Machine.execTableChange chip chg s
  | .tableChangeAcknowledge chip chg => Sys2Proof.Machine.execTableChangeAcknowledge chip chg s
  | .movingExtentRecheck thread => Sys2Proof.Machine.execMovingExtentRecheck thread s
  | .nodeCacheFetch node key => Sys2Proof.Machine.execNodeCacheFetch node key s
  | .codeCacheFill thread => Sys2Proof.Machine.execCodeCacheFill thread s
  | .copyScheduleEntry task idx => Sys2Proof.Machine.execCopyScheduleEntry task idx s
  | .submission sub => Sys2Proof.Machine.execSubmission sub s
  | .admission node => Sys2Proof.Machine.execAdmission node s
  | .dispatch node => Sys2Proof.Machine.execDispatch node s
  | .dependantSubmission node => Sys2Proof.Machine.execDependantSubmission node s
  | .taskRetirement task => Sys2Proof.Machine.execTaskRetirement task s
  | .taskEndFailedPartial task => Sys2Proof.Machine.execTaskEndFailedPartial task s
  | .preEmption node => Sys2Proof.Machine.execPreEmption node s
  | .contextSave thread => Sys2Proof.Machine.execContextSave thread s
  | .saveRingRetry thread => Sys2Proof.Machine.execSaveRingRetry thread s
  | .resumption node record => Sys2Proof.Machine.execResumption node record s
  | .longOpResult thread => Sys2Proof.Machine.execLongOpResult thread s
  | .yieldExpiry thread => Sys2Proof.Machine.execYieldExpiry thread s
  | .engineCompletion op => Sys2Proof.Machine.execEngineCompletion op s
  | .wayfarerArrival pk => Sys2Proof.Machine.execWayfarerArrival pk s
  | .wayfarerStart core => Sys2Proof.Machine.execWayfarerStart core s
  | .tollArrival node => Sys2Proof.Machine.execTollArrival node s
  | .tollReturn node => Sys2Proof.Machine.execTollReturn node s
  | .subscriptionRegistration sub => Sys2Proof.Machine.execSubscriptionRegistration sub s
  | .passOpen die roll => Sys2Proof.Machine.execPassOpen die roll s
  | .pageWalk die roll => Sys2Proof.Machine.execPageWalk die roll s
  | .stagingDelivery pk => Sys2Proof.Machine.execStagingDelivery pk s
  | .spireRound round => Sys2Proof.Machine.execSpireRound round s
  | .spirePackageSum round => Sys2Proof.Machine.execSpirePackageSum round s
  | .ouvvalFrame chip port ok => Sys2Proof.Machine.execOuvvalFrame chip port ok s
  | .negativeAcknowledgement chip port => Sys2Proof.Machine.execNegativeAcknowledgement chip port s
  | .entryEnqueue entry => Sys2Proof.Machine.execEntryEnqueue entry s
  | .entryAdmission chip port cls position => Sys2Proof.Machine.execEntryAdmission chip port cls position s
  | .relayEntry entry => Sys2Proof.Machine.execRelayEntry entry s
  | .relayCredit chip via => Sys2Proof.Machine.execRelayCredit chip via s
  | .parcelOffer transit => Sys2Proof.Machine.execParcelOffer transit s
  | .parcelAcceptance transit => Sys2Proof.Machine.execParcelAcceptance transit s
  | .parcelData transit => Sys2Proof.Machine.execParcelData transit s
  | .installationAcknowledgement transit => Sys2Proof.Machine.execInstallationAcknowledgement transit s
  | .parcelTransitFailure transit => Sys2Proof.Machine.execParcelTransitFailure transit s
  | .commandEntry parish => Sys2Proof.Machine.execCommandEntry parish s
  | .launchCommand parish seq => Sys2Proof.Machine.execLaunchCommand parish seq s
  | .copyin parish seq => Sys2Proof.Machine.execCopyin parish seq s
  | .copyout parish seq => Sys2Proof.Machine.execCopyout parish seq s
  | .mark parish seq => Sys2Proof.Machine.execMark parish seq s
  | .commandCompletion parish seq => Sys2Proof.Machine.execCommandCompletion parish seq s
  | .busyResend pk => Sys2Proof.Machine.execBusyResend pk s
  | .rotorRelock chip port => Sys2Proof.Machine.execRotorRelock chip port s
  -- steps that only the outside world or the Vestry brings about
  | .powerOnReset chip => Sys2Proof.Machine.execPowerOnReset chip s
  | .bootRom chip b => Sys2Proof.Machine.execBootRom chip b s
  | .linkTraining chip port b => Sys2Proof.Machine.execLinkTraining chip port b s
  | .clusterReset c => Sys2Proof.Machine.execClusterReset c s
  | .clusterRelease c => Sys2Proof.Machine.execClusterRelease c s
  | .routeTableWrite node bank idx entry => Sys2Proof.Machine.execRouteTableWrite node bank idx entry s
  | .swapMarker node => Sys2Proof.Machine.execSwapMarker node s
  | .channelScrub chip channel found => Sys2Proof.Machine.execChannelScrub chip channel found s
  | .tollCountSet die count => Sys2Proof.Machine.execTollCountSet die count s
  | .tollHoldLimit node => Sys2Proof.Machine.execTollHoldLimit node s
  | .slotStart chip port since10ns => Sys2Proof.Machine.execSlotStart chip port since10ns s
  | .helloFrame chip port h => Sys2Proof.Machine.execHelloFrame chip port h s
  | .keyUpdate chip port key => Sys2Proof.Machine.execKeyUpdate chip port key s
  | .keyRotationTimer chip port => Sys2Proof.Machine.execKeyRotationTimer chip port s
  | .rotorTableChange chip c => Sys2Proof.Machine.execRotorTableChange chip c s
  | .qtailWrite parish v => Sys2Proof.Machine.execQtailWrite parish v s
  | .jheadWrite parish v => Sys2Proof.Machine.execJheadWrite parish v s
  | .registerWrite chip off v => Sys2Proof.Machine.execRegisterWrite chip off v s
  | .measurements chip r => Sys2Proof.Machine.execMeasurements chip r s
  | .dieOverTemperature die => Sys2Proof.Machine.execDieOverTemperature die s
  | .moduleOverTemperature chip => Sys2Proof.Machine.execModuleOverTemperature chip s
  | .darkPeriodMissed chip port => Sys2Proof.Machine.execDarkPeriodMissed chip port s
  | .gatewayTraining chip deadSeams => Sys2Proof.Machine.execGatewayTraining chip deadSeams s
  | .hostLinkTraining chip speed width => Sys2Proof.Machine.execHostLinkTraining chip speed width s
  | .powerLoss chip => Sys2Proof.Machine.execPowerLoss chip s
  | .disposition chip parish => Sys2Proof.Machine.execDisposition chip parish s
  | .parishCreate chip parish => Sys2Proof.Machine.execParishCreate chip parish s
  | .parishDestroy chip parish => Sys2Proof.Machine.execParishDestroy chip parish s

end Sys2Proof.Machine
end

