-- ==== Sys2Proof/Machine/Step.lean ====
section
/-! DEFINITION. One step of the machine: the step that `State.select` chooses is run by `exec`. -/

namespace Sys2Proof.Machine

/-- Runs what has been selected. -/
def perform (x : Selected) : Host.Outcome State Fault Refusal :=
  match x with
  | .run i s => exec i s
  | .done s => .next s

/-- One step. With the module unpowered nothing runs (R444). -/
def step (s : State) : Host.Outcome State Fault Refusal :=
  if s.isDead then .fault .unpowered else perform (s.select State.notice)

/-- `s` with the instruction of `nbits` bits `w` where the next step fetches it. -/
def State.withFetchWord (s : State) (nbits w : Nat) : State := s.placeWord nbits w

end Sys2Proof.Machine
end

