-- ==== Sys2Proof/Safety.lean ====
section
/-! DEFINITION. What counts as a safe run, and the terms statements use: frames, and when a tile command runs. -/

namespace Sys2Proof

open Sys2Proof.Machine

/-- The machine can take a step: it neither faults nor refuses. -/
def Steps (s : State) : Prop := ∃ t, Machine.step s = .next t

/-- A run of `k` steps that neither faults nor refuses. -/
def RunsSafely (s : State) (k : Nat) : Prop := ∃ t, Host.Core.run core k s = .next t

/-! ### Families of instructions -/

/-- The x registers that an instruction names as destinations (10, 11). -/
def Instr.dests : Instr → List Field4
  | .add _ d _ _ | .sub _ d _ _ | .and _ d _ _ | .or _ d _ _ | .xor _ d _ _ | .shl _ d _ _ | .shr _ d _ _ | .shra _ d _ _
  | .rotr _ d _ _ | .min _ d _ _ | .max _ d _ _ | .minu _ d _ _ | .maxu _ d _ _ | .mul _ d _ _ | .mulh _ d _ _
  | .mulhu _ d _ _ | .div _ d _ _ | .divu _ d _ _ | .rem _ d _ _ | .remu _ d _ _ | .clz _ d _ | .ctz _ d _ | .popc _ d _
  | .sextB _ d _ | .sextH _ d _ | .sextW _ d _ | .zextB _ d _ | .zextH _ d _ | .zextW _ d _ | .addi _ d _ _
  | .andi _ d _ _ | .ori _ d _ _ | .xori _ d _ _ | .shli _ d _ _ | .shri _ d _ _ | .shrai _ d _ _ | .rotri _ d _ _
  | .movi _ d _ | .movk16 _ d _ | .movk32 _ d _ | .movk48 _ d _ | .movpFromPw _ d | .jalr _ d _ _ | .gets _ d _
  | .ld _ d .. | .ldl _ d .. | .ldh _ d .. | .amoAdd _ d .. | .amoMin _ d .. | .amoMax _ d .. | .amoAnd _ d ..
  | .amoOr _ d .. | .amoXor _ d .. | .amoXchg _ d .. | .cas _ d .. | .cas2 _ d .. | .cas4 _ d .. | .enq _ d ..
  | .chase _ d .. | .cpeek _ d .. | .lstate _ d .. | .tget _ d .. | .unpark _ d .. | .xget _ d .. | .launch _ d ..
  | .kvsub _ d .. | .fadd _ d .. | .fsub _ d .. | .fmul _ d .. | .fdiv _ d .. | .fsqrt _ d .. | .fmin _ d ..
  | .fmax _ d .. | .fneg _ d .. | .fabs _ d .. | .fcvt _ d .. | .fma _ d .. | .fms _ d .. | .fnma _ d .. | .fnms _ d ..
  | .plc _ d .. | .ploc _ d .. | .roll _ d .. | .rollF _ d .. => [d]
  | .deq _ d _ b => [d, b]
  | .jal .. => [10]
  | _ => []

/-- The integer forms that complete in their cycle: Tables 10-11 and 8-5 without the divisions, the immediates and the
constants. -/
def Instr.isIntegerForm : Instr → Bool
  | .add .. | .sub .. | .and .. | .or .. | .xor .. | .shl .. | .shr .. | .shra .. | .rotr .. | .min .. | .max .. | .minu ..
  | .maxu .. | .mul .. | .mulh .. | .mulhu .. | .clz .. | .ctz .. | .popc .. | .sextB .. | .sextH .. | .sextW ..
  | .zextB .. | .zextH .. | .zextW .. | .addi .. | .andi .. | .ori .. | .xori .. | .shli .. | .shri .. | .shrai ..
  | .rotri .. | .movi .. | .movk16 .. | .movk32 .. | .movk48 .. | .movpFromPw .. => true
  | _ => false

/-! ### Frames -/

/-- Nothing but the slot of the current thread has changed: every other slot, every register of a core, node, die or
chip, every queue, and every byte of memory is as before. -/
structure OnlyThread (s t : State) : Prop where
  rest : t = { s with slots := t.slots }
  others : ∀ u, u ≠ s.cur → t.slot u = s.slot u
  memory : ∀ a, t.byte a = s.byte a

/-- Of the current thread nothing has changed but x registers, the PC and the slot's state; and of the x registers only
those named in `ds`. -/
structure XFrame (s t : State) (ds : List Field4) : Prop where
  only : OnlyThread s t
  thread : t.here = { s.here with x := t.here.x, pc := t.here.pc, state := t.here.state }
  regs : ∀ r, r ∉ ds → t.reg r = s.reg r

/-- Of the current thread nothing has changed but one predicate, the PC and the slot's state. -/
structure PredFrame (s t : State) (p : Field4) : Prop where
  only : OnlyThread s t
  thread : t.here = { s.here with preds := t.here.preds, pc := t.here.pc, state := t.here.state }
  preds : ∀ q, q ≠ p → t.pred q = s.pred q

/-! ### Accesses -/

/-- The address `a` passes the checks of an access of `n` bytes by the current thread and reaches `target`, a place of the
window it needs is free, and the race detector is off for the thread. -/
structure Admits (s : State) (a : Word) (n align right : Nat) (posted : Bool) (target : Target) : Prop where
  checked : s.checkScalar s.cur a n align right posted = .ok target
  room : if posted then s.outw s.cur < Config.writeWindow else s.outr s.cur < Config.requestWindow
  noRaces : raceMode s.here.race = 0

/-- A release of the current thread takes effect at once: its posted writes are acknowledged, and none was lost. -/
structure Releases (s : State) : Prop where
  released : s.released s.cur = true
  reachable : s.here.unreachable = none
  kept : s.here.linkLost = none
  sound : s.here.writeError = none

/-- A local access of the current thread to some bytes acts at once on the storage alone: no access that it must follow is
under way, no store is buffered, no storage holds an error, and the race detector is off for the thread. -/
structure Unhindered (s : State) (writes : Bool) (pas : List Nat) : Prop where
  first : s.heldBack s.cur writes pas = none
  buffer : (s.core (coreOfThread s.cur)).buffer = []
  noErrors : s.errors = []
  noRaces : raceMode s.here.race = 0

/-- No wait watches a flag in one of some bytes. -/
def Unwatched (s : State) (pas : List Nat) : Prop :=
  ∀ n, ∀ w ∈ (s.node n).watches, ∀ pa ∈ pas, pa / 8 ≠ w.flag / 8

/-- The number, destination and sequence number an access gets as it is sent. -/
def sentAs (s : State) (a : Access) : Access :=
  let home := targetHome a.target
  { a with dst := home.1, channel := home.2, seq := AMap.get 0 (s.node a.src).seqs home.1 + 1 }

/-- Access `a` has been sent as a request from state `s`: it is registered at its source, its packet stands in the router
there and is to be routed, and no byte of memory has changed. -/
structure Requested (s t : State) (a : Access) : Prop where
  access : t.accesses = s.accesses ++ [(s.nextId, sentAs s a)]
  packet : ∃ e, t.packets = s.packets ++ [(s.nextId + 1,
    { payload := .request s.nextId, cls := .request, parish := a.parish, epoch := e, src := a.src,
      dst := (targetHome a.target).1, channel := (targetHome a.target).2, loc := .router a.src })]
  due : Due.event (.packetRoute (s.nextId + 1)) ∈ t.pending
  memory : t.mem = s.mem

/-- Access `a` has been handed from state `s` straight to the Reeve of its own node, with no router hop (R284). -/
structure HandedOver (s t : State) (a : Access) : Prop where
  access : t.accesses = s.accesses ++ [(s.nextId, sentAs s a)]
  packet : t.packets = s.packets ++ [(s.nextId + 1,
    { payload := .request s.nextId, cls := .request, parish := a.parish, epoch := 0, src := a.src, dst := a.src,
      channel := false, loc := .delivered })]
  due : Due.event (arrivalEvent t (s.nextId + 1) (.request s.nextId)) ∈ t.pending
  memory : t.mem = s.mem

/-- The current thread waits for the reply to the access just sent; its PC still names the instruction. -/
structure Waits (s t : State) : Prop where
  parked : t.here.state = .parked (.reply s.nextId)
  pc : t.here.pc = s.here.pc
  thread : t.cur = s.cur

/-- The current thread has gone on to its next instruction. -/
structure GoesOn (s t : State) : Prop where
  ready : t.here.state = .ready
  pc : t.here.pc = s.here.pc + 4
  thread : t.cur = s.cur

/-- A request has arrived at the Reeve of its byte for the first time, with no older access of its thread to follow, a place
of the reply store is free for it and each add it stands for, its issuer has made its race check, and no storage holds an
error. -/
structure Arrived (s : State) (pk id : Nat) (p : Packet) (a : Access) : Prop where
  packet : s.packet? pk = some p
  carries : p.payload = .request id
  access : s.access? id = some a
  here : p.loc = .delivered
  new : a.performed = false
  alone : (s.packets.any fun e => e.1 != pk && decide (e.2.payload = .request id)) = false
  room : (s.node p.dst).storeRoom p.channel a.partners.length = true
  placed : s.redirect pk p id a = none
  first : s.mustWait id a = false
  awaited : a.orphan = false
  raceChecked : a.unraced = none
  noErrors : s.errors = []

/-- A packet with a given payload stands at its destination. -/
structure Delivered (s : State) (pk : Nat) (p : Packet) (payload : Payload) : Prop where
  packet : s.packet? pk = some p
  carries : p.payload = payload
  here : p.loc = .delivered

/-! ### Tile commands -/

/-- Operation `o`, numbered `id`, runs the command `i`: its checks have been made and its lane predicates taken, no access
it must follow is under way, the race detector is off for it, and no storage holds an error. -/
structure Running (s : State) (id : Nat) (o : EngOp) (i : Instr) : Prop where
  current : s.curOp = id
  there : s.op? id = some o
  running : o.state = .running
  unfinished : o.finished = false
  fence : o.fence = []
  checked : o.checked = true
  word : decodeCommand o.word = .ok i
  noRaces : raceMode o.race = 0
  free : s.queueBusy id o = false
  started : o.preds.isSome = true
  noErrors : s.errors = []

/-- The writes of a row command: element by element over its rows, `elem r l` where the guard enables lane `l`. -/
def laneWrites (s : State) (o : EngOp) (f : TileFields) (elem : Nat → Nat → Nat) : List (Nat × Byte) :=
  let c := s.rowCtx o f
  c.rows.flatMap fun r => (List.range (o.shape f.td).cols).flatMap fun l =>
    if enabled f c.k c.d.bytes l then o.elemBytes f.td r l c.d.bytes (elem r l) else []

/-- The bytes of the elements of td in a command's rows. -/
def tdBytes (s : State) (o : EngOp) (f : TileFields) : List Nat :=
  let c := s.rowCtx o f
  c.rows.flatMap fun r => (List.range (o.shape f.td).cols).flatMap fun l =>
    consecutive (o.tileByte f.td r (l * c.d.bytes)) c.d.bytes

/-- The rows of a tile that a command reads are in full lines: it need not wait. -/
def RowsFull (s : State) (o : EngOp) (t : Field4) (rows : List Nat) : Prop := s.rowsEmpty o t rows = false

end Sys2Proof
end

