-- ==== Sys2Proof/Certificates/Slice0/Obligations.lean ====
section
/-! DEFINITION. The statements about this model. Which step comes next stands in the model's own fields (`order`,
`pending`, `timers`, `focus`: log 1); a clause that names one of them says what the model has made due. -/

open Sys2Proof Sys2Proof.Machine

/-! ### Encoding and stepping -/

/-- Words that the manual writes out (08, 10) decode to the instructions they stand for. -/
def Obligations.WordsDecode : Prop :=
  decodeWord 0x00144100 = .ok (.add Guard.none 4 4 1) ∧
  decodeWord 0x0073FFFB = .ok (.movi Guard.none 3 0xFFFB) ∧
  decodeWord 0x00830001 = .ok (.movk16 Guard.none 3 1) ∧
  decodeWord 0x0100A000 = .ok (.jalr Guard.none 0 10 0) ∧
  decodeWord 0x00F00010 = .ok (.jal Guard.none 0x10) ∧
  decodeWord 0x01100000 = .ok (.nop Guard.none) ∧
  decodeWord 0x01100100 = .ok (.halt Guard.none) ∧
  decodeWord 0x01100200 = .ok (.yield Guard.none) ∧
  decodeWord 0x01100307 = .ok (.trap Guard.none 7) ∧
  decodeWord 0x01100400 = .ok (.eret Guard.none) ∧
  decodeWord 0x01100501 = .ok (.brk Guard.none 1)

/-- Every well-formed instruction that has an encoding is what its bytes decode to, with every operand at every value
its fields hold; a hardware step has no encoding. -/
def Obligations.EncodeDecodeRoundTrip : Prop :=
  ∀ i : Instr, i.wellFormed = true →
    ((i.guard? ≠ none ∨ i.command? ≠ none) → decodeBytes (encode i) = .ok i) ∧
    ((i.guard? = none ∧ i.command? = none) → encode i = [])

/-- Words that name no instruction are rejected by the step of Table 8-11 or 8-16 that finds it: a guard field of an
unguarded word and a zero major raise cause 0x01, a major from 0x30 up raises cause 0x02, and a command word of opcode
zero raises cause 0x01. -/
def Obligations.NoInstructionRejected : Prop :=
  (∀ w : Word32, w.getLsbD 31 = false → (w.getLsbD 30 = true ∨ field w 26 4 ≠ 0) → decodeWord w = .error .illegal) ∧
  (∀ w : Word32, (decodeGuard w).ok = true → field w 20 6 = 0 → decodeWord w = .error .illegal) ∧
  (∀ w : Word32, (decodeGuard w).ok = true → 0x30 ≤ (field w 20 6).toNat → decodeWord w = .error .reserved) ∧
  (∀ w : Command, field w 248 8 = 0 → decodeCommand w = .error .illegal)

/-- What a core's cycle does when its round chooses slot `i` and the line of its code object that holds the PC is in the
node's code cache: the four bytes at the PC are decoded, `issued` and `cyc` count, and the instruction runs there. -/
def Obligations.StepIssuesDecodedInstruction : Prop :=
  ∀ (s : State) (i : Nat) (line : List Byte) (ins : Instr),
    let t := s.focus * 8 + i
    let c := s.slot t
    let o := handleObj c.pc
    s.order = [] → s.pending = [] → dueTimer s s.focus = none → (s.chip (chipOfCore s.focus)).off = false →
    issuingSlot s s.focus = some i → c.pc.toNat % 4 = 0 → isPlace c.pc = false →
    checkEntry (s.obj (chipOfThread t) c.parish o) o (handleOff c.pc) 4 rX (!c.pl) = none →
    cachedLine (s.node (nodeOfThread t)) (objKey c.parish (chipOfThread t) o) (handleOff c.pc / 128) = some line →
    decodeBytes (((line.drop (handleOff c.pc % 128)).take 4)) = .ok ins →
    Machine.step s = exec ins (({ s with cur := t }.modHere fun v =>
      { v with issued := v.issued + 1,
               word := BitVec.ofNat 32 (ofLittleEndian ((line.drop (handleOff c.pc % 128)).take 4)) }).takeCycle s.focus i)

/-- With no choice of the environment and no timer due, the oldest due step is the one that runs: a step of the hardware,
the command of an engine operation, or a parked instruction tried again. A step the environment brings in runs before
it, unless it is the end of a long operation or of a YIELD whose cycle has not come, or comes to a chip that has no power. -/
def Obligations.StepRunsDueStep : Prop :=
  ∀ (s : State) (r : List Due),
    (∀ i, s.order = [] → dueTimer s s.focus = none → s.pending = .event i :: r →
      Machine.step s = exec i { s with pending := r }) ∧
    (∀ id o i, s.order = [] → dueTimer s s.focus = none → s.pending = .command id :: r → s.op? id = some o →
      decodeCommand o.word = .ok i →
      Machine.step s = exec i { s with pending := r, curOp := id, cur := o.thread }) ∧
    (∀ t i, s.order = [] → dueTimer s s.focus = none → s.pending = .again t :: r → retried (s.slot t).state = true →
      (s.slot t).preempt = none → decodeWord (s.slot t).word = .ok i →
      Machine.step s = exec i { s with pending := r, cur := t }) ∧
    (∀ i q, s.order = .input i :: q → isHardwareStep i = true →
      (s.inputDue i = true → Machine.step s = exec i { s with order := q }) ∧
      (s.inputDue i = false → Machine.step s = .next { s with order := q }))

/-- After power-on reset every byte of every storage reads zero, every line of scratchpad and tile storage is full, and
every Granary slot is free. -/
def Obligations.ResetClearsStorage : Prop :=
  (∀ a, State.reset.byte a = 0) ∧ (∀ l, State.reset.lineEmpty l = false) ∧
    (∀ n g, (State.reset.granary n g).state = .free)

/-! ### Scalar instructions: the common rules -/

/-- A false guard leaves an instruction of any kind with no effect but the advance of the PC by 4. -/
def Obligations.FalseGuardOnlyAdvances : Prop :=
  ∀ (i : Instr) (g : Guard) (s : State), i.guard? = some g → guardHolds g s = false →
    exec i s = .next s.finish ∧ s.finish.here.pc = s.here.pc + 4

/-- A result written to x0 or x15 is discarded, a result written to x1 to x10 is what the register then reads, and no
other register of any thread changes. x0 reads zero and x15 the thread's identity, whatever has been written. -/
def Obligations.RegisterWriteThenRead : Prop :=
  ∀ (s : State) (d r : Field4) (v : Word), shadowReg d = false →
    s.reg 0 = 0 ∧ s.reg 15 = identityOf s.cur ∧
    (d = 0 ∨ d = 15 → s.setReg d v = s) ∧
    (d ≠ 0 → d ≠ 15 → (s.setReg d v).reg d = v) ∧
    (r ≠ d → (s.setReg d v).reg r = s.reg r) ∧
    (∀ u, u ≠ s.cur → (s.setReg d v).slot u = s.slot u)

/-- An instruction with a true guard whose destination is among x11 to x14 traps with cause 0x03 and the word as tval,
before any effect (Table 8-11, step 7). Step 6 comes before it: an XGET with no slot lent raises cause 0x04, whatever its
destination. -/
def Obligations.ShadowDestinationTraps : Prop :=
  (∀ (i : Instr) (g : Guard) (d : Field4) (s : State), i.guard? = some g → guardHolds g s = true → d ∈ i.dests →
    shadowReg d = true → (s.here.lent = none → ∀ h e n, i ≠ .xget h e n) →
      exec i s = .next (s.trap 0x03 (s.here.word.setWidth 64))) ∧
  (∀ (g : Guard) (d n : Field4) (s : State), guardHolds g s = true → s.here.lent = none →
    exec (.xget g d n) s = .next (s.trap 0x04 (s.here.word.setWidth 64)))

/-! ### Integer arithmetic, constants and predicates -/

/-- The register forms of Table 10-11, with their results written as that table reads: arithmetic modulo 2^64, shift and
rotate amounts modulo 64, signed and unsigned extremes, and the halves of the 128-bit product. -/
def Obligations.RegisterFormResults : Prop :=
  ∀ (s : State) (g : Guard) (d a b : Field4), guardHolds g s = true → shadowReg d = false →
    let x := s.reg a
    let y := s.reg b
    let writes (i : Instr) (v : Word) : Prop := exec i s = .next (s.setReg d v).finish
    writes (.add g d a b) (x + y) ∧ writes (.sub g d a b) (x - y) ∧ writes (.and g d a b) (x &&& y) ∧
    writes (.or g d a b) (x ||| y) ∧ writes (.xor g d a b) (x ^^^ y) ∧
    writes (.shl g d a b) (x <<< (y.toNat % 64)) ∧ writes (.shr g d a b) (x >>> (y.toNat % 64)) ∧
    writes (.shra g d a b) (x.sshiftRight (y.toNat % 64)) ∧ writes (.rotr g d a b) (x.rotateRight (y.toNat % 64)) ∧
    writes (.min g d a b) (if y.slt x then y else x) ∧ writes (.max g d a b) (if x.slt y then y else x) ∧
    writes (.minu g d a b) (if y.ult x then y else x) ∧ writes (.maxu g d a b) (if x.ult y then y else x) ∧
    writes (.mul g d a b) (x * y) ∧
    writes (.mulh g d a b) ((x.signExtend 128 * y.signExtend 128).extractLsb' 64 64) ∧
    writes (.mulhu g d a b) ((x.setWidth 128 * y.setWidth 128).extractLsb' 64 64)

/-- The unary forms count leading zeros, trailing zeros and ones, and extend bytes, halves and words: the counts are said
by the bits they count. -/
def Obligations.UnaryFormResults : Prop :=
  ∀ (s : State) (g : Guard) (d a : Field4), guardHolds g s = true → shadowReg d = false →
    let x := s.reg a
    let writes (i : Instr) (v : Word) : Prop := exec i s = .next (s.setReg d v).finish
    (∃ n ≤ 64, writes (.clz g d a) (BitVec.ofNat 64 n) ∧ (∀ k < 64, 64 - n ≤ k → x.getLsbD k = false) ∧
      (n < 64 → x.getLsbD (63 - n) = true)) ∧
    (∃ n ≤ 64, writes (.ctz g d a) (BitVec.ofNat 64 n) ∧ (∀ k < n, x.getLsbD k = false) ∧
      (n < 64 → x.getLsbD n = true)) ∧
    writes (.popc g d a) (BitVec.ofNat 64 ((List.range 64).countP fun k => x.getLsbD k)) ∧
    writes (.sextB g d a) ((x.extractLsb' 0 8).signExtend 64) ∧ writes (.sextH g d a) ((x.extractLsb' 0 16).signExtend 64) ∧
    writes (.sextW g d a) ((x.extractLsb' 0 32).signExtend 64) ∧ writes (.zextB g d a) (x &&& 0xFF) ∧
    writes (.zextH g d a) (x &&& 0xFFFF) ∧ writes (.zextW g d a) (x &&& 0xFFFFFFFF)

/-- The immediate forms (R250), MOVI and MOVK (R253): MOVI writes imm16 sign-extended, and MOVK.n writes imm16 to bits
n+15:n of xd and leaves the other bits unchanged. -/
def Obligations.ImmediateFormResults : Prop :=
  ∀ (s : State) (g : Guard) (d a : Field4) (e : BitVec 12) (n : BitVec 6) (w : BitVec 16), guardHolds g s = true →
    shadowReg d = false →
    let x := s.reg a
    let old := s.reg d
    let writes (i : Instr) (v : Word) : Prop := exec i s = .next (s.setReg d v).finish
    writes (.addi g d a e) (x + e.signExtend 64) ∧ writes (.andi g d a e) (x &&& e.signExtend 64) ∧
    writes (.ori g d a e) (x ||| e.signExtend 64) ∧ writes (.xori g d a e) (x ^^^ e.signExtend 64) ∧
    writes (.shli g d a n) (x <<< n.toNat) ∧ writes (.shri g d a n) (x >>> n.toNat) ∧
    writes (.shrai g d a n) (x.sshiftRight n.toNat) ∧ writes (.rotri g d a n) (x.rotateRight n.toNat) ∧
    writes (.movi g d w) (w.signExtend 64) ∧
    writes (.movk16 g d w) (old.extractLsb' 32 32 ++ w ++ old.extractLsb' 0 16) ∧
    writes (.movk32 g d w) (old.extractLsb' 48 16 ++ w ++ old.extractLsb' 0 32) ∧
    writes (.movk48 g d w) (w ++ old.extractLsb' 0 48)

/-- What the integer forms and constants leave unchanged: every register but the destination, every predicate, every
other register of the thread and of the machine, and every byte of memory; the PC advances by 4. -/
def Obligations.IntegerFrame : Prop :=
  ∀ (i : Instr) (s t : State), i.isIntegerForm = true → (∀ d ∈ i.dests, shadowReg d = false) → exec i s = .next t →
    XFrame s t i.dests ∧ t.here.pc = s.here.pc + 4

/-- Division: a zero divisor traps with cause 0x10 and tval 0 at issue; otherwise the thread parks, and 20 core cycles
later the quotient or remainder, rounded toward zero, is written and the thread goes on. -/
def Obligations.DivisionResults : Prop :=
  ∀ (s : State) (g : Guard) (d a b : Field4), guardHolds g s = true → shadowReg d = false →
    let x := s.reg a
    let y := s.reg b
    let parks (i : Instr) (v : Word) : Prop :=
      (y = 0 → exec i s = .next (s.trap 0x10 0)) ∧
      (y ≠ 0 → ∃ t, exec i s = .next t ∧ t.here.state = .parked .longOp ∧ t.here.pc = s.here.pc ∧
        t.timers = s.timers ++ [(coreOfThread s.cur, (s.core (coreOfThread s.cur)).cyc.toNat + 20,
          .event (.longOpResult s.cur))] ∧
        exec (.longOpResult s.cur) t = .next
          (((t.setReg d v).modHere fun c => { c with result := none }).finish))
    parks (.div g d a b) (x.sdiv y) ∧ parks (.divu g d a b) (x.udiv y) ∧ parks (.rem g d a b) (x.srem y) ∧
      parks (.remu g d a b) (x.umod y)

/-- Compares set pd to whether the condition of Table 8-6 holds, and the predicate forms combine predicates; MOVP moves
the whole predicate word. -/
def Obligations.PredicateResults : Prop :=
  ∀ (s : State) (g : Guard) (p a b d : Field4) (e : BitVec 9), guardHolds g s = true → shadowReg d = false →
    let x := s.reg a
    let sets (i : Instr) (v : Bool) : Prop := exec i s = .next (s.setPred p v).finish
    let six (y : Word) (f : Nat → Bool → Prop) : Prop :=
      f 0 (decide (x = y)) ∧ f 1 (decide (x ≠ y)) ∧ f 2 (x.slt y) ∧ f 3 (x.ult y) ∧ f 4 (y.sle x) ∧ f 5 (y.ule x)
    six (s.reg b) (fun cc v => sets (.cmp g p a b (BitVec.ofNat 8 cc)) v) ∧
    six (e.signExtend 64) (fun cc v => sets (.cmpi g p a (BitVec.ofNat 3 cc) e) v) ∧
    sets (.pand g p a b) (s.pred a && s.pred b) ∧ sets (.por g p a b) (s.pred a || s.pred b) ∧
    sets (.pxor g p a b) (s.pred a ^^ s.pred b) ∧ sets (.pnot g p a) (!s.pred a) ∧ sets (.pmov g p a) (s.pred a) ∧
    exec (.movpFromPw g d) s = .next (s.setReg d (s.here.preds.setWidth 64)).finish ∧
    exec (.movpToPw g a) s = .next (s.modHere fun c => { c with preds := x.extractLsb' 0 16 }).finish

/-- What a compare or a predicate form leaves unchanged: every predicate but pd, every x register, and everything else
of the machine; MOVP to the predicates changes predicates alone. -/
def Obligations.PredicateFrame : Prop :=
  (∀ (s t : State) (g : Guard) (p a b : Field4) (cc : BitVec 8) (c3 : BitVec 3) (e : BitVec 9),
    ∀ i ∈ ([.cmp g p a b cc, .cmpi g p a c3 e, .pand g p a b, .por g p a b, .pxor g p a b, .pnot g p a, .pmov g p a] :
      List Instr), exec i s = .next t → PredFrame s t p ∧ t.here.pc = s.here.pc + 4 ∧ ∀ r, t.reg r = s.reg r) ∧
  (∀ (s t : State) (g : Guard) (a : Field4), exec (.movpToPw g a) s = .next t → OnlyThread s t ∧
      t.here = { s.here with preds := t.here.preds, pc := s.here.pc + 4, state := t.here.state } ∧
      ∀ r, t.reg r = s.reg r)

/-! ### Control flow, traps and system registers -/

/-- R256 and R257: BR and JAL go to their own address plus 4·off20, JAL and JALR write their own address plus 4 to
their link register, and JALR computes its target from the value xa held at issue, also when xa is its destination.
NOP only advances the PC. YIELD parks its thread, and 32 cycles of its core later the thread goes on after it. -/
def Obligations.TransferNopAndYield : Prop :=
  (decodeWord 0x0100A000 = .ok (.jalr Guard.none 0 10 0) ∧
    ∀ (s : State) (g : Guard) (off : BitVec 20) (d a : Field4) (e : BitVec 12), shadowReg d = false →
      let pc := s.here.pc
      let goesTo (i : Instr) (t : State) (target : Word) : Prop :=
        exec i s = .next (t.modHere fun c => { c with pc := target, state := .ready })
      (guardHolds g s = true →
        goesTo (.br g off) s (pc + 4 * off.signExtend 64) ∧
        goesTo (.jal g off) (s.setReg 10 (pc + 4)) (pc + 4 * off.signExtend 64) ∧
        goesTo (.jalr g d a e) (s.setReg d (pc + 4)) (s.reg a + e.signExtend 64) ∧
        (off = 0 → ∃ t, exec (.br g off) s = .next t ∧ t.here.pc = pc)) ∧
      (guardHolds g s = false → exec (.br g off) s = .next s.finish ∧ exec (.jal g off) s = .next s.finish ∧
        s.finish.here.pc = pc + 4)) ∧
  (∀ (s : State) (g : Guard), guardHolds g s = true →
      exec (.nop g) s = .next s.finish ∧
      ∃ t, exec (.yield g) s = .next t ∧ t.here = { s.here with state := .parked .yieldUntil } ∧ t.mem = s.mem ∧
        t.timers = s.timers ++ [(coreOfThread s.cur, (s.core (coreOfThread s.cur)).cyc.toNat + 32,
          .event (.yieldExpiry s.cur))] ∧
        exec (.yieldExpiry s.cur) t = .next t.finish)

/-- TRAP and BRK with a handler (tvec not 0, no handler running): cause 0x14 or 0x15 with the code as tval, epc at the
instruction, the privilege saved, IH set and the PC at the handler; nothing else changes but the unreachable mark.
With no handler, or in one, the context is saved for the supervisor, and the cause registers stay when a handler runs.
Causes routed to the supervisor reach it whatever tvec holds. -/
def Obligations.TrapEntry : Prop :=
  (decodeWord 0x01100307 = .ok (.trap Guard.none 7) ∧ decodeWord 0x01100501 = .ok (.brk Guard.none 1) ∧
    ∀ (s : State) (g : Guard) (code : BitVec 8), guardHolds g s = true →
      let h := s.here
      let takes (i : Instr) (cause : Word) : Prop :=
        (h.tvec ≠ 0 → h.ih = false → exec i s = .next (s.setSlot s.cur { h with
            cause := cause, epc := h.pc, tval := code.setWidth 64, ppl := h.pl, ih := true, unreachable := none,
            pc := h.tvec, state := .ready })) ∧
        (h.tvec = 0 → h.ih = false → ∃ t, exec i s = .next t ∧ t.pending = s.pending ++ [.event (.contextSave s.cur)] ∧
          t.here = { h with cause := cause, epc := h.pc, tval := code.setWidth 64,
                            trap := some (cause, h.pc, code.setWidth 64), state := .saving 2 }) ∧
        (h.ih = true → ∃ t, exec i s = .next t ∧ t.pending = s.pending ++ [.event (.contextSave s.cur)] ∧
          t.here = { h with trap := some (cause, h.pc, code.setWidth 64), state := .saving 3 })
      takes (.trap g code) 0x14 ∧ takes (.brk g code) 0x15) ∧
  (∀ (s : State) (t c : Nat) (v : Word), c = 0x09 ∨ c = 0x12 ∨ c = 0x16 → (s.slot t).ih = false →
      (s.trapIn t c v).slot t = { s.slot t with
        cause := BitVec.ofNat 64 c, epc := (s.slot t).pc, tval := v,
        trap := some (BitVec.ofNat 64 c, (s.slot t).pc, v), state := .saving 2 } ∧
      (s.trapIn t c v).pending = s.pending ++ [.event (.contextSave t)])

/-- R262: ERET in a handler sets the PC to epc, PL to PPL and IH to 0, and changes nothing else: it makes no memory event
and waits for nothing. Outside a handler it traps with cause 0x04 and the word as tval. A PC that is not a multiple of 4 is
caught at the fetch that follows, with cause 0x05. A trap taken by a thread that has a handler, followed by ERET in that
handler, gives back the PC and the privilege the thread had, and every x register and predicate. -/
def Obligations.ReturnFromHandler : Prop :=
  decodeWord 0x01100400 = .ok (.eret Guard.none) ∧
  (∀ (s : State) (g : Guard), guardHolds g s = true →
      (s.here.ih = true → exec (.eret g) s = .next (s.setSlot s.cur { s.here with
        pc := s.here.epc, pl := s.here.ppl, ih := false, state := .ready })) ∧
      (s.here.ih = false → exec (.eret g) s = .next (s.trap 0x04 (s.here.word.setWidth 64)))) ∧
  (∀ (s : State) (t : Nat), (s.slot t).pc.toNat % 4 ≠ 0 → s.fetch t = .trap 0x05) ∧
  (∀ (s : State) (c : Nat) (v : Word) (g : Guard), supervisorCause c = false → s.here.tvec ≠ 0 → s.here.ih = false →
      guardHolds g s = true →
      ∃ t, exec (.eret g) (s.trap c v) = .next t ∧ t.here.pc = s.here.pc ∧ t.here.pl = s.here.pl ∧ t.here.ih = false ∧
        t.here.x = s.here.x ∧ t.here.preds = s.here.preds ∧ t.mem = s.mem)

/-- GETS writes the value of every register of Table 10-4 to xd, and an unassigned number traps with cause 0x02 and the
number as tval. cyc reads the cycles before the one the GETS itself takes (log 13). -/
def Obligations.SystemRegisterReads : Prop :=
  ∀ (s : State) (g : Guard) (d : Field4) (n : BitVec 12), guardHolds g s = true → shadowReg d = false →
    let c := s.here
    let reads (n : BitVec 12) (v : Word) : Prop := exec (.gets g d n) s = .next (s.setReg d v).finish
    reads 0x000 (0#60 ++ BitVec.ofBool c.wf ++ BitVec.ofBool c.ih ++ BitVec.ofBool c.ppl ++ BitVec.ofBool c.pl) ∧
    reads 0x001 c.cause ∧ reads 0x002 c.epc ∧ reads 0x003 c.tval ∧ reads 0x004 c.tvec ∧ reads 0x005 c.tscr ∧
    reads 0x010 ((s.core (coreOfThread s.cur)).cyc - 1) ∧ reads 0x011 c.issued ∧ reads 0x020 c.fmode ∧
    reads 0x021 c.fflags ∧ reads 0x030 c.wbase ∧ reads 0x031 c.wsize ∧ reads 0x040 c.tfree ∧ reads 0x041 c.spillm ∧
    reads 0x050 c.race ∧ reads 0x060 (BitVec.ofNat 64 (s.outw s.cur)) ∧ reads 0x061 (BitVec.ofNat 64 (s.outr s.cur)) ∧
    reads 0x070 (s.tollReg s.cur) ∧ reads 0x080 c.seed ∧ reads 0x081 c.seedh ∧
    (∀ k : Fin 8, reads (BitVec.ofNat 12 (0x100 + k)) (if c.wf then 0 else c.lvl[k]) ∧
      reads (BitVec.ofNat 12 (0x108 + k)) (if c.wf then 0 else c.lvn[k])) ∧
    (n ∉ [0x000, 0x001, 0x002, 0x003, 0x004, 0x005, 0x010, 0x011, 0x020, 0x021, 0x030, 0x031, 0x040, 0x041, 0x050, 0x060,
        0x061, 0x070, 0x080, 0x081] → ¬(0x100 ≤ n.toNat ∧ n.toNat ≤ 0x10F) →
      exec (.gets g d n) s = .next (s.trap 0x02 (n.setWidth 64)))

/-- SETS writes xa by each register's own rule for reserved bits; a register that SETS may not write traps with cause
0x04, at user privilege also status, and an unassigned number with cause 0x02. -/
def Obligations.SystemRegisterWrites : Prop :=
  ∀ (s : State) (g : Guard) (a : Field4) (n : BitVec 12), guardHolds g s = true →
    let v := s.reg a
    let writes (n : BitVec 12) (f : Slot → Slot) : Prop := exec (.sets g a n) s = .next (s.modHere f).finish
    let denied (n : BitVec 12) : Prop := exec (.sets g a n) s = .next (s.trap 0x04 (s.here.word.setWidth 64))
    (s.here.pl = true → writes 0x000 fun c =>
      { c with pl := v.getLsbD 0, ppl := v.getLsbD 1, ih := v.getLsbD 2 }) ∧
    (s.here.pl = false → denied 0x000) ∧
    writes 0x001 (fun c => { c with cause := (v.extractLsb' 0 8).setWidth 64 }) ∧
    writes 0x002 (fun c => { c with epc := v }) ∧ writes 0x003 (fun c => { c with tval := v }) ∧
    writes 0x004 (fun c => { c with tvec := v.extractLsb' 2 62 ++ 0#2 }) ∧ writes 0x005 (fun c => { c with tscr := v }) ∧
    writes 0x020 (fun c => { c with fmode := if 6 ≤ (v.extractLsb' 0 3).toNat then 0 else (v.extractLsb' 0 3).setWidth 64 }) ∧
    writes 0x021 (fun c => { c with fflags := (v.extractLsb' 0 5).setWidth 64 }) ∧
    writes 0x050 (fun c => { c with race := v.extractLsb' 4 60 ++ 0#2 ++ v.extractLsb' 0 2 }) ∧
    writes 0x080 (fun c => { c with seed := (v.extractLsb' 0 32).setWidth 64 }) ∧
    writes 0x081 (fun c => { c with seedh := (v.extractLsb' 0 32).setWidth 64 }) ∧
    (n ∈ [0x010, 0x011, 0x030, 0x031, 0x040, 0x041, 0x060, 0x061, 0x070] ∨ (0x100 ≤ n.toNat ∧ n.toNat ≤ 0x10F) →
      denied n) ∧
    (n ∉ [0x000, 0x001, 0x002, 0x003, 0x004, 0x005, 0x010, 0x011, 0x020, 0x021, 0x030, 0x031, 0x040, 0x041, 0x050, 0x060,
        0x061, 0x070, 0x080, 0x081] → ¬(0x100 ≤ n.toNat ∧ n.toNat ≤ 0x10F) →
      exec (.sets g a n) s = .next (s.trap 0x02 (n.setWidth 64)))

/-- PLC builds the place of a coordinate word and an offset, with L set exactly when the chip is the issuing thread's;
PLOC traps with cause 0x06 unless bit 63 is 1 and bits 24:16 are zero, and taking a built place apart gives its
coordinates and its offset back (R268, R269). ROLL writes the draw of R237 for the thread's seed pair and the low half
of xa, and ROLL.F the uniform value, exact in f32; neither changes anything but xd. -/
def Obligations.PlaceAndRollForms : Prop :=
  (∀ (s : State) (g : Guard) (d a b : Field4), guardHolds g s = true → shadowReg d = false →
      let x := s.reg a
      let o := s.reg b
      let here := chipOfThread s.cur
      let p : Word := 1#1 ++ BitVec.ofBool (decide ((x.extractLsb' 46 18).toNat = here)) ++ x.extractLsb' 46 18 ++ x.extractLsb' 43 3 ++
        x.extractLsb' 37 6 ++ x.extractLsb' 31 6 ++ x.extractLsb' 27 4 ++ 0#9 ++ o.extractLsb' 0 16
      exec (.plc g d a b) s = .next (s.setReg d p).finish ∧
      (x.getLsbD 63 = false ∨ x.extractLsb' 16 9 ≠ 0 → exec (.ploc g d a) s = .next (s.trap 0x06 x)) ∧
      (x.getLsbD 63 = true → x.extractLsb' 16 9 = 0 → exec (.ploc g d a) s = .next (s.setReg d
        ((if x.getLsbD 62 then BitVec.ofNat 18 here else x.extractLsb' 44 18) ++ x.extractLsb' 41 3 ++ x.extractLsb' 35 6 ++
          x.extractLsb' 29 6 ++ x.extractLsb' 25 4 ++ 0#11 ++ x.extractLsb' 0 16)).finish) ∧
      splitPlace (chipOfThread s.cur) p = x.extractLsb' 27 37 ++ 0#11 ++ o.extractLsb' 0 16) ∧
  (∀ (s : State) (g : Guard) (d a : Field4), guardHolds g s = true → shadowReg d = false →
      let z0 := (s.here.seed.extractLsb' 0 32 ^^^ (s.reg a).extractLsb' 0 32) + s.here.seedh.extractLsb' 0 32
      let z1 := z0 * 0x9E3779B1
      let z2 := z1 ^^^ (z1 >>> 15)
      let z3 := z2 * 0x85EBCA77
      let z := z3 ^^^ (z3 >>> 13)
      exec (.roll g d a) s = .next (s.setReg d (z.setWidth 64)).finish ∧
      ∃ p : BitVec 32, exec (.rollF g d a) s = .next (s.setReg d (p.setWidth 64)).finish ∧ p.toNat < 0x3F800000 ∧
        ∃ m e, decodeFloat fmtF32 p.toNat = .fin false m e ∧ -149 ≤ e ∧
          m * 2 ^ (e + 149).toNat = z.toNat / 256 * 2 ^ 125)

/-! ### Scalar floating point -/

/-- FADD, FSUB, FMUL and the FMA group write the exact result rounded once, and add its flags to fflags; FCVT converts as
Table 10-15 reads. -/
def Obligations.FloatResults : Prop :=
  ∀ (s : State) (g : Guard) (d a b c : Field4) (dbl : Bool) (rm : BitVec 3) (conv : BitVec 4), guardHolds g s = true →
    shadowReg d = false →
    let x := fpOperand dbl (s.reg a)
    let y := fpOperand dbl (s.reg b)
    let z := fpOperand dbl (s.reg c)
    let r := scalarRounding s rm
    let f := scalarRounding s 6
    let gives (i : Instr) (w : Rounded) : Prop :=
      exec i s = .next ((((s.setReg d (BitVec.ofNat 64 w.bits)).modHere fun c =>
        { c with fflags := c.fflags ||| w.flags })).finish)
    let rounds (i : Instr) (r : Rounding) (v : Val × Bool) : Prop :=
      gives i { roundFloat (fmtOf dbl) r false v.1 with nv := v.2 }
    let product (v : Val × Bool) (k : Val → Val × Bool) : Val × Bool := if v.2 then (.nan, true) else k v.1
    rounds (.fadd g d a b dbl rm) r (addVal (r.code = 2) x y) ∧
    rounds (.fsub g d a b dbl rm) r (addVal (r.code = 2) x y.neg) ∧
    rounds (.fmul g d a b dbl rm) r (mulVal x y) ∧
    rounds (.fma g d a b c dbl) f (product (mulVal x y) fun p => addVal (f.code = 2) p z) ∧
    rounds (.fms g d a b c dbl) f (product (mulVal x y) fun p => addVal (f.code = 2) p z.neg) ∧
    rounds (.fnma g d a b c dbl) f (product (mulVal x y) fun p => addVal (f.code = 2) p.neg z) ∧
    rounds (.fnms g d a b c dbl) f (product (mulVal x y) fun p => addVal (f.code = 2) p.neg z.neg) ∧
    gives (.fcvt g d a conv rm) (convertScalar conv.toNat r (s.reg a))

/-- FNEG and FABS of an operand that is no NaN invert and clear its sign bit, bit 31 for .s and bit 63 for .d, and leave the
other bits as they are, in a subnormal too; of a NaN they give the NaN of the format. FMIN and FMAX give one of their operands as they stand when neither is a NaN, and a NaN otherwise. None
of them sets a flag. FCMP sets pd by the condition, −0 equal to +0; a NaN makes eq, lt and le 0, ne and unordered 1,
and lt and le then set NV. Nothing else changes. -/
def Obligations.FloatExactAndCompareForms : Prop :=
  (∀ (s : State) (g : Guard) (d a b : Field4), guardHolds g s = true → shadowReg d = false →
      let x := (s.reg a).extractLsb' 0 32
      let y := (s.reg b).extractLsb' 0 32
      let nan (w : BitVec 32) : Prop := w.extractLsb' 23 8 = 0xFF ∧ w.extractLsb' 0 23 ≠ 0
      let gives (i : Instr) (w : BitVec 32) : Prop := exec i s = .next (s.setReg d (w.setWidth 64)).finish
      (¬ nan x → gives (.fneg g d a false) (x ^^^ 0x80000000) ∧ gives (.fabs g d a false) (x &&& 0x7FFFFFFF)) ∧
      (nan x → gives (.fneg g d a false) 0x7FC00000 ∧ gives (.fabs g d a false) 0x7FC00000) ∧
      (¬ nan x → ¬ nan y → ∃ lo hi, (lo = x ∧ hi = y ∨ lo = y ∧ hi = x) ∧
        gives (.fmin g d a b false) lo ∧ gives (.fmax g d a b false) hi ∧
        ltVal (decodeFloat fmtF32 hi.toNat) (decodeFloat fmtF32 lo.toNat) = false) ∧
      (nan x ∨ nan y → gives (.fmin g d a b false) 0x7FC00000 ∧ gives (.fmax g d a b false) 0x7FC00000)) ∧
  (∀ (s : State) (g : Guard) (d a b : Field4), guardHolds g s = true → shadowReg d = false →
      let x := s.reg a
      let y := s.reg b
      let nan (w : Word) : Prop := w.extractLsb' 52 11 = 0x7FF ∧ w.extractLsb' 0 52 ≠ 0
      let gives (i : Instr) (w : Word) : Prop := exec i s = .next (s.setReg d w).finish
      (¬ nan x → gives (.fneg g d a true) (x ^^^ 0x8000000000000000) ∧
        gives (.fabs g d a true) (x &&& 0x7FFFFFFFFFFFFFFF)) ∧
      (nan x → gives (.fneg g d a true) 0x7FF8000000000000 ∧ gives (.fabs g d a true) 0x7FF8000000000000) ∧
      (¬ nan x → ¬ nan y → ∃ lo hi, (lo = x ∧ hi = y ∨ lo = y ∧ hi = x) ∧
        gives (.fmin g d a b true) lo ∧ gives (.fmax g d a b true) hi ∧
        ltVal (decodeFloat fmtF64 hi.toNat) (decodeFloat fmtF64 lo.toNat) = false) ∧
      (nan x ∨ nan y → gives (.fmin g d a b true) 0x7FF8000000000000 ∧ gives (.fmax g d a b true) 0x7FF8000000000000)) ∧
  (∀ (s : State) (g : Guard) (p a b : Field4) (dbl : Bool), guardHolds g s = true →
      let x := fpOperand dbl (s.reg a)
      let y := fpOperand dbl (s.reg b)
      let un := x = .nan ∨ y = .nan
      let sets (cc : BitVec 3) (v nv : Bool) : Prop := exec (.fcmp g p a b dbl cc) s = .next
        (((s.setPred p v).modHere fun c => { c with fflags := c.fflags ||| (if nv then 16 else 0) }).finish)
      (un → sets 0 false false ∧ sets 1 true false ∧ sets 2 false true ∧ sets 3 false true ∧ sets 4 true false) ∧
      (¬ un → sets 0 (!ltVal x y && !ltVal y x) false ∧ sets 1 (ltVal x y || ltVal y x) false ∧
        sets 2 (ltVal x y) false ∧ sets 3 (!ltVal y x) false ∧ sets 4 false false))

/-- FDIV and FSQRT park their thread; 12 core cycles later for .s, 20 and 24 for .d, the correctly rounded result is
written and its flags added to fflags. -/
def Obligations.FloatLongForms : Prop :=
  ∀ (s : State) (g : Guard) (d a b : Field4) (dbl : Bool) (rm : BitVec 3), guardHolds g s = true →
    shadowReg d = false →
    let x := fpOperand dbl (s.reg a)
    let y := fpOperand dbl (s.reg b)
    let r := scalarRounding s rm
    let parks (i : Instr) (n : Nat) (w : Rounded) : Prop :=
      ∃ t, exec i s = .next t ∧ t.here.state = .parked .longOp ∧ t.here.pc = s.here.pc ∧
        t.timers = s.timers ++ [(coreOfThread s.cur, (s.core (coreOfThread s.cur)).cyc.toNat + n,
          .event (.longOpResult s.cur))] ∧
        exec (.longOpResult s.cur) t = .next
          (((t.setReg d (BitVec.ofNat 64 w.bits)).modHere fun c =>
            { c with fflags := s.here.fflags ||| w.flags, result := none }).finish)
    parks (.fdiv g d a b dbl rm) (if dbl then 20 else 12)
      { roundFloat (fmtOf dbl) r false (divVal x y).1 with nv := (divVal x y).2.1, dz := (divVal x y).2.2 } ∧
    parks (.fsqrt g d a dbl rm) (if dbl then 24 else 12)
      { roundFloat (fmtOf dbl) r false (sqrtVal x).1 with nv := (sqrtVal x).2 }
/-! ### Memory, atomics, flags and lines -/

/-- Table 2-9 for a scalar access through a handle: the checks in their order, each with its cause and the address as
tval, and where the byte lies when all pass. A misaligned address is found before them. An access that fails a check
of R39 traps with the cause and value of the check and has no other effect, in every form that reaches memory through an
address: plain, acquiring and releasing loads and stores, LDH and STH, STC, the AMOs, CAS, CAS2, CAS4, ENQ, DEQ and CHASE. A
misaligned one is such an access, with cause 0x05 and the address; a CHASE takes the cause with its node as the value, and
cause 0x05 with xc where an offset is no multiple of 8 (the value is the model's choice, log 105). -/
def Obligations.HandleChecks : Prop :=
  (∀ (s : State) (t : Nat) (a : Word) (n align right : Nat) (posted : Bool), isPlace a = false →
      (s.slot t).state ≠ .parked (.moving (handleObj a)) →
      let c := s.slot t
      let e := s.obj (chipOfThread t) c.parish (handleObj a)
      let gives (k : Check) : Prop := s.checkScalar t a n align right posted = k
      let exists' : Prop := handleObj a ≠ 0 ∧ e.state ≠ 0 ∧ handleOff a + n ≤ e.length
      let allowed : Prop := e.has right = true ∧ (handleObj a = 1 → c.pl = true)
      (a.toNat % align ≠ 0 → gives (.trap 0x05 a)) ∧
      (a.toNat % align = 0 → ¬ exists' → gives (.trap 0x07 a)) ∧
      (a.toNat % align = 0 → exists' → ¬ allowed → gives (.trap 0x08 a)) ∧
      (a.toNat % align = 0 → exists' → allowed → e.state = 2 ∨ e.state = 3 → gives (.trap 0x0A a)) ∧
      (a.toNat % align = 0 → exists' → allowed → e.state = 1 ∨ e.state = 4 →
        (∀ pa, s.residency (chipOfThread t) c.parish (handleObj a) (handleOff a) = .here pa → gives (.ok (.byte pa))) ∧
        (s.residency (chipOfThread t) c.parish (handleObj a) (handleOff a) = .unbacked → gives (.trap 0x09 a)) ∧
        (s.residency (chipOfThread t) c.parish (handleObj a) (handleOff a) = .moving → gives .moving) ∧
        (∀ k, s.residency (chipOfThread t) c.parish (handleObj a) (handleOff a) = .owned k →
          gives (if s.reaches (chipOfThread t) k then .ok (.forwarded k c.parish (handleObj a) (handleOff a))
            else if posted then .drop else .trap 0x17 a))) ∧
      (a.toNat % align = 0 → exists' → allowed → 4 < e.state → gives (.trap 0x16 a))) ∧
  (∀ (s : State) (g : Guard) (d b c base : Field4) (size : BitVec 2) (sx : Bool) (order : BitVec 2) (off : BitVec 7)
      (ty : BitVec 2) (scope : BitVec 3) (dbl : Bool), guardHolds g s = true → shadowReg d = false →
      let fails (i : Instr) (a : Word) (n align right : Nat) (posted : Bool) : Prop :=
        (∀ k v, s.checkScalar s.cur a n align right posted = .trap k v → exec i s = .next (s.trap k v)) ∧
        (a.toNat % align ≠ 0 → exec i s = .next (s.trap 0x05 a))
      let m := s.reg base + (off.signExtend 64 <<< size.toNat)
      let n := 2 ^ size.toNat
      let x := s.reg base
      let a8 := x + (off.signExtend 64 <<< 3)
      let amo (i : Instr) : Prop := fails i x (amoBytes ty.toNat) (amoBytes ty.toNat) rA (d = 0)
      let block (k : Nat) : List Nat := s.localRange s.cur ((s.reg b).toNat % s.here.span) (2 * k)
      let noff := ((s.reg c).extractLsb' 0 8).toNat
      let koff := ((s.reg c).extractLsb' 8 8).toNat
      let key := x + BitVec.ofNat 64 koff
      let chase := exec (.chase g d base b c) s
      (order ≠ 3 → fails (.ld g d base size sx order off) m n n rR false ∧
        fails (.st g d base size order off) m n n rW true) ∧
      fails (.ldh g d base off) a8 8 8 rR false ∧ fails (.sth g d base off) a8 8 8 rW true ∧
      fails (.stc g base b c size) x n n rW true ∧
      (∀ i ∈ ([.amoAdd g d base b ty scope, .amoMin g d base b ty scope, .amoMax g d base b ty scope,
          .amoAnd g d base b ty scope, .amoOr g d base b ty scope, .amoXor g d base b ty scope,
          .amoXchg g d base b ty scope] : List Instr), amo i) ∧
      fails (.cas g d base b c dbl scope) x (if dbl then 8 else 4) (if dbl then 8 else 4) rA false ∧
      (s.here.wf = false → (s.reg b).toNat % 8 = 0 →
        (s.heldBack s.cur false (block 16) = none → fails (.cas2 g d base b) x 16 16 rA false) ∧
        (s.heldBack s.cur false (block 32) = none → fails (.cas4 g d base b) x 32 32 rA false)) ∧
      fails (.enq g d base b) x 32 32 rA false ∧ (shadowReg b = false → fails (.deq g d base b) x 32 32 rA false) ∧
      (noff % 8 ≠ 0 ∨ koff % 8 ≠ 0 → chase = .next (s.trap 0x05 (s.reg c))) ∧
      (noff % 8 = 0 → koff % 8 = 0 →
        (∀ k v, s.checkScalar s.cur key 8 8 rA false = .trap k v → chase = .next (s.trap k x)) ∧
        (key.toNat % 8 ≠ 0 → chase = .next (s.trap 0x05 x))))

/-- LD and LDH, plain and acquiring, through an address that passes its checks: the load is sent as a request and the
thread parks until its reply lands; one that an older access to its bytes must precede parks for that access first. -/
def Obligations.LoadsRequest : Prop :=
  ∀ (s : State) (g : Guard) (d base : Field4) (size : BitVec 2) (sx : Bool) (order : BitVec 2) (off : BitVec 7)
    (target : Target), guardHolds g s = true → shadowReg d = false → order ≠ 3 →
    let requests (i : Instr) (a : Word) (n : Nat) (sx acq : Bool) (parcel : Option (Nat × Nat)) : Prop :=
      Admits s a n n rR false target → (∀ k, loadHeld s (.ok target) n = some k → exec i s = .next (s.park (.store k))) ∧
      (loadHeld s (.ok target) n = none → ∃ t acc, exec i s = .next t ∧ Requested s t acc ∧ Waits s t ∧
        acc.req = .load n ∧ acc.target = target ∧ acc.addr = a ∧ acc.thread = s.cur ∧ acc.dest = d.toNat ∧
        acc.size = n ∧ acc.sx = sx ∧ acc.parcel = parcel ∧ acc.posted = false ∧ acc.info.acquire = acq)
    let a8 := s.reg base + (off.signExtend 64 <<< 3)
    requests (.ld g d base size sx order off) (s.reg base + (off.signExtend 64 <<< size.toNat)) (2 ^ size.toNat) sx
      (order = 1) none ∧
    requests (.ldh g d base off) a8 8 false false
      ((s.parcelAt s.cur a8).map fun o => (o, (s.obj (chipOfThread s.cur) s.here.parish o).length))

/-- ST, STH and STC through an address that passes its checks: the write is posted with the low bytes of the source, it
stands in the store buffer, and the thread goes on; memory changes only when it reaches its home. A releasing ST does so
once it is released; STC carries its flag with the write; STH of a value that a parcel cannot hold traps with cause
0x0B. -/
def Obligations.StoresPost : Prop :=
  ∀ (s : State) (g : Guard) (v base c : Field4) (size : BitVec 2) (off : BitVec 7) (target : Target), guardHolds g s = true →
    let posts (i : Instr) (a : Word) (n : Nat) (w : Word) (release : Bool) (flag : Option Word) : Prop :=
      Admits s a n n rW true target → ∃ t acc, exec i s = .next t ∧ Requested s t acc ∧ GoesOn s t ∧
        acc.req = .store ((List.range n).zip (littleEndian w n)) ∧ acc.target = target ∧ acc.addr = a ∧
        acc.thread = s.cur ∧ acc.posted = true ∧ acc.flag = flag ∧ acc.info.release = release ∧
        (t.core (coreOfThread s.cur)).buffer = (s.core (coreOfThread s.cur)).buffer ++
          [{ acc := s.nextId, thread := s.cur, bytes := (List.range n).zip (littleEndian w n), release := release }]
    let m := s.reg base + (off.signExtend 64 <<< size.toNat)
    let a8 := s.reg base + (off.signExtend 64 <<< 3)
    let parcel := s.parcelAt s.cur a8
    let f := s.reg c
    posts (.st g v base size 0 off) m (2 ^ size.toNat) (s.reg v) false none ∧
    (Releases s → posts (.st g v base size 2 off) m (2 ^ size.toNat) (s.reg v) true none) ∧
    (s.released s.cur = false → Admits s m (2 ^ size.toNat) (2 ^ size.toNat) rW true target →
      exec (.st g v base size 2 off) s = .next (s.park .release)) ∧
    (parcel = none → posts (.sth g v base off) a8 8 (s.reg v) false none) ∧
    (∀ o w, parcel = some o → parcelStore o (s.obj (chipOfThread s.cur) s.here.parish o).length (s.reg v) = some w →
      posts (.sth g v base off) a8 8 w false none) ∧
    (∀ o, parcel = some o → Admits s a8 8 8 rW true target →
      parcelStore o (s.obj (chipOfThread s.cur) s.here.parish o).length (s.reg v) = none →
      exec (.sth g v base off) s = .next (s.trap 0x0B (s.reg v))) ∧
    (f = 0 → posts (.stc g base v c size) (s.reg base) (2 ^ size.toNat) (s.reg v) false none) ∧
    (f ≠ 0 → isPlace f = true ∨ s.here.wf = false → (∀ k x,
        s.checkFlag (chipOfThread s.cur) s.here.parish (s.flagPlace s.cur f) true ≠ .trap k x) →
      posts (.stc g base v c size) (s.reg base) (2 ^ size.toNat) (s.reg v) false (some (s.flagPlace s.cur f)))

/-- LDL and STL at an aligned window offset of a thread at home: STL writes the low bytes of its source at once, at the
bytes of the window and nowhere else; LDL of a full line reads them, and on an empty line parks. An access to bytes that an
older one of its thread is still to reach waits for it, and an LDL that meets an uncorrectable error traps with cause
0x16. -/
def Obligations.LocalAccesses : Prop :=
  ∀ (s : State) (g : Guard) (d v base : Field4) (size : BitVec 2) (sx : Bool) (off : BitVec 7), guardHolds g s = true →
    shadowReg d = false → s.here.wf = false →
    let o := s.reg base + (off.signExtend 64 <<< size.toNat)
    let n := 2 ^ size.toNat
    let pa := s.local s.cur o
    let bs := consecutive pa n
    o.toNat % n = 0 →
    (s.lineEmpty (lineOf pa) = true → exec (.ldl g d base size sx off) s = .next (s.park (.line (lineOf pa)))) ∧
    (s.lineEmpty (lineOf pa) = false → Unhindered s false bs → exec (.ldl g d base size sx off) s =
      .next (s.setReg d (extend n sx (s.loadLE pa n))).finish) ∧
    (∀ k, s.lineEmpty (lineOf pa) = false → s.heldBack s.cur false bs = some k →
      exec (.ldl g d base size sx off) s = .next (s.park (.store k))) ∧
    (∀ k, s.heldBack s.cur true bs = some k → exec (.stl g v base size off) s = .next (s.park (.store k))) ∧
    (s.lineEmpty (lineOf pa) = false → s.heldBack s.cur false bs = none → raceMode s.here.race = 0 → s.here.ih = false →
      (∃ b ∈ bs, s.errorIn b 1 = 2) → ∃ t, exec (.ldl g d base size sx off) s = .next t ∧ t.here.cause = 0x16 ∧
        t.here.tval = o ∧ t.here.epc = s.here.pc) ∧
    (Unhindered s true bs → Unwatched s bs → ∃ t, exec (.stl g v base size off) s = .next t ∧ GoesOn s t ∧ (∀ r, t.reg r = s.reg r) ∧
      (∀ a, a < pa ∨ pa + n ≤ a → t.byte a = s.byte a) ∧
      t.loadLE pa n = BitVec.ofNat 64 ((s.reg v).toNat % 2 ^ (8 * n)))

/-- The Reeve forms send one request with their operands and park until the reply; an AMO whose destination is x0 is
posted and goes on. -/
def Obligations.AtomicsRequest : Prop :=
  ∀ (s : State) (g : Guard) (d a b c : Field4) (ty : BitVec 2) (scope : BitVec 3) (dbl : Bool) (target : Target),
    guardHolds g s = true → shadowReg d = false →
    let x := s.reg a
    let n := amoBytes ty.toNat
    let parks (i : Instr) (addr : Word) (req : Req) : Prop :=
      ∃ t acc, exec i s = .next t ∧ Requested s t acc ∧ Waits s t ∧ acc.req = req ∧ acc.target = target ∧
        acc.addr = addr ∧ acc.thread = s.cur ∧ acc.dest = d.toNat ∧ acc.posted = false
    let amo (i : Instr) (op : Nat) : Prop :=
      (d ≠ 0 → Admits s x n n rA false target → parks i x (.amo op ty.toNat (s.reg b))) ∧
      (d = 0 → Admits s x n n rA true target → ∃ t acc, exec i s = .next t ∧ Requested s t acc ∧ GoesOn s t ∧
        acc.req = .amo op ty.toNat (s.reg b) ∧ acc.target = target ∧ acc.posted = true)
    let block (i : Instr) (m : Nat) : Prop :=
      s.here.wf = false → (s.reg b).toNat % 8 = 0 → Admits s x m m rA false target →
        let blk := s.localRange s.cur ((s.reg b).toNat % s.here.span) (2 * m)
        let bs := s.bytes blk
        Unhindered s false blk → parks i x (.casBlock (bs.take m) (bs.drop m))
    let k := s.reg c
    let noff := (k.extractLsb' 0 8).toNat
    let koff := (k.extractLsb' 8 8).toNat
    amo (.amoAdd g d a b ty scope) 0 ∧ amo (.amoMin g d a b ty scope) 1 ∧ amo (.amoMax g d a b ty scope) 2 ∧
    amo (.amoAnd g d a b ty scope) 3 ∧ amo (.amoOr g d a b ty scope) 4 ∧ amo (.amoXor g d a b ty scope) 5 ∧
    amo (.amoXchg g d a b ty scope) 6 ∧
    (Admits s x (if dbl then 8 else 4) (if dbl then 8 else 4) rA false target →
      parks (.cas g d a b c dbl scope) x (.cas (if dbl then 8 else 4) (s.reg b) (s.reg c))) ∧
    block (.cas2 g d a b) 16 ∧ block (.cas4 g d a b) 32 ∧
    (Admits s x 32 32 rA false target → parks (.enq g d a b) x (.enq (s.reg b))) ∧
    (shadowReg b = false → Admits s x 32 32 rA false target → parks (.deq g d a b) x .deq) ∧
    (noff % 8 = 0 → koff % 8 = 0 → Admits s (x + BitVec.ofNat 64 koff) 8 8 rA false target →
      parks (.chase g d a b c) x (.chase (s.reg b) koff noff x 16))

/-- What a Reeve does with a request that arrives (Table 4-3): it acts on the bytes of its storage at one point and keeps the
outcome with the access. A load of an empty line waits for the line instead, and one that meets an uncorrectable error ends
with cause 0x16. ENQ and DEQ move an entry of a well-formed ring, find it full or empty, or end with cause 0x05. -/
def Obligations.ReeveOperations : Prop :=
  ∀ (s : State) (pk id pa : Nat) (p : Packet) (a : Access), Arrived s pk id p a → s.targetByte a.target = some pa →
    a.flag = none → (∀ n, (s.node n).watches = []) → raceMode (s.slot a.thread).race = 0 →
    let acts (mem : State) (value : List Byte) (found : Bool) : Prop :=
      ∃ t, exec (.reeveOperation pk false) s = .next t ∧ (∀ b, t.byte b = mem.byte b) ∧
        (∃ x, t.access? id = some x ∧ x.performed = true ∧ x.value = value ∧ x.found = found ∧ x.trap = none)
    (∀ n, a.req = .load n → s.firstEmpty (consecutive pa n) = none →
      acts s (applyOverlay (s.bytes (consecutive pa n)) (s.loadOverlay a pa n).1) true) ∧
    (∀ n l, a.req = .load n → s.firstEmpty (consecutive pa n) = some l → exec (.reeveOperation pk false) s =
      .next (s.modPacket pk fun p => { p with loc := .waitingLine l })) ∧
    (∃ t x, exec (.reeveOperation pk true) s = .next t ∧ t.mem = s.mem ∧ t.access? id = some x ∧ x.performed = true ∧
      x.trap = some (0x16, a.addr)) ∧
    (∀ bs, a.req = .store bs → acts (s.setBytes (bs.map fun e => (pa + e.1, e.2))) [] true) ∧
    (∀ op ty v, a.req = .amo op ty v →
      acts (s.storeLE pa (amoBytes ty) (amoResult op ty (s.loadLE pa (amoBytes ty)) v))
        (s.bytes (consecutive pa (amoBytes ty))) true) ∧
    (∀ n e v, a.req = .cas n e v → s.bytes (consecutive pa n) = littleEndian e n →
      acts (s.storeLE pa n v) (s.bytes (consecutive pa n)) true) ∧
    (∀ n e v, a.req = .cas n e v → s.bytes (consecutive pa n) ≠ littleEndian e n →
      acts s (s.bytes (consecutive pa n)) false) ∧
    (∀ v h t c, a.req = .enq v → ringOf s pa = some (h, t, c) →
      (t - h = BitVec.ofNat 64 c → acts s [] false) ∧
      (t - h ≠ BitVec.ofNat 64 c →
        acts ((s.storeLE (pa + 32 + 8 * (t.toNat % c)) 8 v).storeLE (pa + 8) 8 (t + 1)) [] true)) ∧
    (∀ h t c, a.req = .deq → ringOf s pa = some (h, t, c) →
      (h = t → acts s (littleEndian (0 : Word) 8) false) ∧
      (h ≠ t → acts (s.storeLE pa 8 (h + 1)) (littleEndian (s.loadLE (pa + 32 + 8 * (h.toNat % c)) 8) 8) true)) ∧
    ((∃ v, a.req = .enq v) ∨ a.req = .deq → ringOf s pa = none → ∃ t x, exec (.reeveOperation pk false) s = .next t ∧
      t.mem = s.mem ∧ t.access? id = some x ∧ x.trap = some (0x05, a.addr))

/-- A reply that lands wakes the thread that waits for it: its destination register is written as the instruction says,
no other register of the thread changes, and it goes on at its next instruction. LDH of a parcel converts the word or
traps with cause 0x0B; a reply that brings a trap raises it. -/
def Obligations.RepliesLand : Prop :=
  ∀ (s : State) (pk id : Nat) (p : Packet) (a : Access), Delivered s pk p (.reply id) → s.access? id = some a →
    (s.slot a.thread).state = .parked (.reply id) →
    let d : Field4 := BitVec.ofNat 4 a.dest
    let d2 : Field4 := BitVec.ofNat 4 a.dest2
    let free (r : Field4) : Prop := r ≠ 0 ∧ r ≠ 15 ∧ shadowReg r = false
    let goes (t : State) : Prop := exec (.replyLands pk) s = .next t ∧ (t.slot a.thread).state = .ready ∧
      (t.slot a.thread).pc = (s.slot a.thread).pc + 4
    let lands (v : Word) : Prop := ∃ t, goes t ∧ (free d → t.regOf a.thread d = v) ∧
      (∀ r, r ≠ d → t.regOf a.thread r = s.regOf a.thread r) ∧ t.mem = s.mem
    let w := extend a.size a.sx (wordOfBytes a.value)
    let bit : Word := if a.found then 1 else 0
    (a.trap = none →
      (∀ n, a.req = .load n → a.parcel = none → lands w) ∧
      (∀ n o len h, a.req = .load n → a.parcel = some (o, len) → parcelLoad o len w = some h → lands h) ∧
      (∀ n o len, a.req = .load n → a.parcel = some (o, len) → parcelLoad o len w = none → (s.slot a.thread).ih = false →
        ∃ t, exec (.replyLands pk) s = .next t ∧ (t.slot a.thread).cause = 0x0B ∧ (t.slot a.thread).tval = w) ∧
      (∀ op ty v, a.req = .amo op ty v → lands (extend a.size a.sx (wordOfBytes a.value))) ∧
      (∀ n e v, a.req = .cas n e v → lands (extend a.size a.sx (wordOfBytes a.value))) ∧
      (∀ e v, a.req = .casBlock e v → ∃ t, goes t ∧ (free d → t.regOf a.thread d = bit) ∧
        t.mem = (s.setBytes (a.block.zip a.value)).mem) ∧
      (∀ v, a.req = .enq v → lands bit) ∧
      (a.req = .deq → d ≠ d2 → ∃ t, goes t ∧ (free d → t.regOf a.thread d = wordOfBytes a.value) ∧
        (free d2 → t.regOf a.thread d2 = bit) ∧ t.mem = s.mem) ∧
      (a.req = .peek → lands (wordOfBytes a.value)) ∧
      (∀ k ko no nd h, a.req = .chase k ko no nd h → lands (wordOfBytes a.value)) ∧
      (a.req = .lineState → lands bit)) ∧
    (∀ k v, a.trap = some (k, v) → (s.slot a.thread).ih = false → ∃ t, exec (.replyLands pk) s = .next t ∧
      (t.slot a.thread).cause = BitVec.ofNat 64 k ∧ (t.slot a.thread).tval = v ∧
      (t.slot a.thread).epc = (s.slot a.thread).pc)

/-- The other packets that come home. An acknowledgement takes the write from its source; a busy notice makes the source
send again after 4,000 cycles, with the same number, and until then no retry timer runs; no answer in time sends a copy
again, and after 8 copies the access ends with link lost. While the request is still in progress at its home, or its copies
in the mesh, the timer is armed again instead, and counts no copy: that is the model's reading of R59, R82 and R117
(log 99). A reporting home counts down its group. -/
def Obligations.AnswersComeHome : Prop :=
  ∀ (s : State) (pk id : Nat) (p : Packet) (a : Access), s.access? id = some a →
    (Delivered s pk p (.ack id) → a.op = 0 → a.reader = .thread → a.trap = none → ∃ t, exec (.acknowledgement pk) s = .next t ∧ t.access? id = none ∧
      t.mem = s.mem) ∧
    (Delivered s pk p (.busy id) → exec (.busyNotice pk) s =
      .next (((s.dropPacket pk).dropRetry id).timer (coreOfThread a.thread) 4000 (.event (.busyResend id)))) ∧
    ((s.saved.any fun e => e.2.wait.any fun w : RegWait => w.id == id) = false → (∀ k q, a.req ≠ .page k q) →
      (∀ c, a.req ≠ .tableChange c) → exec (.busyResend id) s =
        .next ((s.send (.request id) .request a.parish a.src a.dst a.channel).armRetry id a a.dst)) ∧
    (s.inProgress id = true → exec (.retryTimeout id) s = .next (s.armRetry id a a.dst)) ∧
    (s.inProgress id = false → a.refused = false → a.resends < 8 → ∃ t, exec (.retryTimeout id) s = .next t ∧
      t.accesses = modRec s.accesses id (fun x => { x with resends := x.resends + 1 }) ∧
      t.packets.length = s.packets.length + 1) ∧
    (s.inProgress id = false → 8 ≤ a.resends → a.group = 0 → a.reader = .thread → (∀ k q, a.req ≠ .page k q) → (s.slot a.thread).state = .parked (.reply id) → (s.slot a.thread).ih = false →
      ∃ t, exec (.retryTimeout id) s = .next t ∧ t.access? id = none ∧ (t.slot a.thread).cause = 0x12 ∧
        (t.slot a.thread).tval = a.addr) ∧
    (Delivered s pk p (.report id) → a.op = 0 → a.trap = none → (AMap.get {} s.groups a.group).sealed = false →
      ∃ t, exec (.homeReport pk) s = .next t ∧ t.access? id = none ∧
        (AMap.get {} t.groups a.group).outstanding = (AMap.get {} s.groups a.group).outstanding - 1)

/-- The flag instructions send their request, through the router for a place and straight to the node's Reeve for a window
offset; CWAIT, CWAITR and CPEEK park. The line instructions act at once on the lines of the window, and through a place
send a request. A wayfarer that names its window traps with cause 0x13. -/
def Obligations.FlagAndLineForms : Prop :=
  ∀ (s : State) (g : Guard) (d a : Field4) (e : BitVec 9) (n : BitVec 4) (pa : Nat) (addr : Word),
    guardHolds g s = true → shadowReg d = false →
    let f := s.reg a + 8 * e.signExtend 64
    let here := chipOfThread s.cur
    let x := s.reg a
    let k := n.toNat + 1
    let reaches (posted : Bool) : Prop :=
      (isPlace f = true ∧ addr = f ∧ s.checkFlag here s.here.parish f posted = .ok (.byte pa)) ∨
      (isPlace f = false ∧ s.here.wf = false ∧ f.toNat % 8 = 0 ∧ addr = s.flagPlace s.cur f ∧ pa = s.local s.cur f)
    let sends (i : Instr) (t : State) (acc : Access) (req : Req) (posted : Bool) : Prop :=
      exec i s = .next t ∧ (isPlace f = true → Requested s t acc) ∧ (isPlace f = false → HandedOver s t acc) ∧
        acc.req = req ∧ acc.target = .byte pa ∧ acc.addr = addr ∧ acc.thread = s.cur ∧ acc.posted = posted
    let clear : Prop := s.here.unreachable = none ∧ s.here.linkLost = none ∧ s.here.writeError = none
    let waits (i : Instr) (sub : Bool) : Prop := ∃ t acc, sends i t acc (.waitFor (s.reg d) sub) false ∧
      t.here.state = .parked .wake ∧ t.here.wait = some ⟨s.nextId, addr, s.reg d, sub, false, []⟩ ∧ t.here.pc = s.here.pc
    let adds (i : Instr) (rel : Bool) : Prop := ∃ t acc, sends i t acc (.flagAdd (s.reg d)) true ∧ GoesOn s t ∧
      acc.info.release = rel
    let lines := (List.range k).map fun i => lineOf (s.local s.cur (x + BitVec.ofNat 64 (128 * i)))
    let asks (i : Instr) (req : Req) (d : Nat) : Prop := ∃ t acc, exec i s = .next t ∧ Requested s t acc ∧ Waits s t ∧
      acc.req = req ∧ acc.target = .byte (placeByte here x) ∧ acc.dest = d
    (reaches false → clear → waits (.cwait g d a e) false ∧ waits (.cwaitr g d a e) true) ∧
    (reaches false → s.outr s.cur < Config.requestWindow →
      ∃ t acc, sends (.cpeek g d a e) t acc .peek false ∧ Waits s t ∧ acc.dest = d.toNat) ∧
    (reaches true → s.outw s.cur < Config.writeWindow → adds (.cadd g d a e) false ∧
      (s.released s.cur = true → clear → adds (.caddRel g d a e) true)) ∧
    (isPlace f = false → s.here.wf = true → exec (.cwait g d a e) s = .next (s.trap 0x13 (s.here.word.setWidth 64))) ∧
    (isPlace x = false → s.here.wf = false → x.toNat % 128 = 0 →
      exec (.lempty g a n) s = .next (lines.foldl State.emptyLine s).finish ∧
      exec (.lfill g a n) s = .next (lines.foldl State.fillLine s).finish ∧
      exec (.lstate g d a) s =
        .next (s.setReg d (if s.lineEmpty (lineOf (s.local s.cur x)) then 0 else 1)).finish) ∧
    (isPlace x = true → x.toNat % 128 = 0 → s.outr s.cur < Config.requestWindow →
      (s.checkPlace here s.here.parish x (128 * k) true = none →
        asks (.lempty g a n) (.lines 0 k) 0 ∧ asks (.lfill g a n) (.lines 1 k) 0) ∧
      (s.checkPlace here s.here.parish x 128 true = none → asks (.lstate g d a) .lineState d.toNat))

/-- What an increment or a wait does at a flag's home (R95, R96): an increment adds to the flag; a wait for the value the
flag holds is answered at once, and CWAITR subtracts it; a wait for a smaller value is overrun; a wait for a larger one is
entered in the watch table. A wake notice lets its thread go on, or brings cause 0x0C with the flag when it was overrun; for
a saved context it sets bit 2 of word 0x358 of its record, and what it acquires is kept for the resumption (R98). -/
def Obligations.FlagsAtHome : Prop :=
  ∀ (s : State) (pk id pa : Nat) (p : Packet) (a : Access) (v n : Word) (sub : Bool),
    (Arrived s pk id p a → s.targetByte a.target = some pa → a.flag = none → a.req = .flagAdd v →
      (s.node (homeOfByte pa).1).watches = [] → ∃ t, exec (.flagIncrement pk) s = .next t ∧
        (∀ b, t.byte b = (s.storeLE pa 8 (s.loadLE pa 8 + v)).byte b)) ∧
    (Arrived s pk id p a → s.targetByte a.target = some pa → a.req = .waitFor n sub →
      let f := s.loadLE pa 8
      let answered (s' : State) (overrun : Bool) (sts : List Stamp) : Prop := exec (.waitRegistration pk) s =
        .next ((s'.wakeNoticeFor p.dst a.thread id overrun sts a.parish).concludeAt pk id a p.dst p.channel [] true none [])
      (f = n → answered (if sub then s.changeFlag pa 0 {} a.parish else s) false (s.stampsIn pa 8)) ∧
      (n < f → answered s true []) ∧
      (f < n → a.flag = none → p.dst = nodeOfThread a.thread → (s.node p.dst).watches = [] →
        ∃ t, exec (.waitRegistration pk) s = .next t ∧ t.mem = s.mem ∧ (t.node p.dst).watches = [{
          index := 8 * (coreOfThread a.thread % 16) + slotOfThread a.thread, flag := pa, place := a.addr, n := n,
          subtracts := sub, thread := a.thread, acc := id }])) ∧
    (∀ u w c, s.slots.find? (fun e => e.2.wait.any fun w : RegWait => w.id == id) = some (u, c) → c.wait = some w →
      s.slot u = c → raceMode c.race = 0 →
      (∀ sts, Delivered s pk p (.wake u id false sts) → ∃ t, exec (.wakeNotice pk) s = .next t ∧
        t.slot u = { c with wait := none, state := .ready, pc := c.pc + 4 }) ∧
      (∀ sts, Delivered s pk p (.wake u id true sts) → c.ih = false → ∃ t, exec (.wakeNotice pk) s = .next t ∧
        (t.slot u).cause = 0x0C ∧ (t.slot u).tval = w.flag ∧ (t.slot u).epc = c.pc)) ∧
    (∀ u r c sts, (s.slots.find? fun e => e.2.wait.any fun w : RegWait => w.id == id) = none →
      s.saved.find? (fun e => e.2.wait.any fun w : RegWait => w.id == id) = some (r, c) →
      Delivered s pk p (.wake u id false sts) → ∃ t, exec (.wakeNotice pk) s = .next t ∧
        t.loadLE (r + 0x358) 8 = s.loadLE (r + 0x358) 8 ||| 4 ∧ t.slots = s.slots ∧
        (AMap.get {} t.saved r).wait = c.wait.map fun w => { w with received := true, stamps := sts })

/-- WANDER to its own core only goes on; to another core of its chip with a free arrival place it reserves the place and
leaves in a packet, and its home slot is held. A wander-order access does the same: the packet carries its address and what it
stores, as the registers of the home gave them, and that access is performed where the thread arrives. HOME at home goes on. The packet lands in its place, and the first landed wayfarer runs in slot 6 or 7 with WF
set; a packet home makes its held slot ready. -/
def Obligations.WayfarerForms : Prop :=
  ∀ (s : State) (g : Guard) (a d : Field4) (size : BitVec 2) (sx : Bool) (off : BitVec 7), guardHolds g s = true →
    shadowReg d = false →
    let dest := placeCore (chipOfThread s.cur) (s.reg a)
    let clear : Prop := Releases s
    let leaves (i : Instr) (dest : Nat) (pc : Word) (access : Option (Word × Word)) : Prop := ∃ t q w, exec i s = .next t ∧
      t.here.state = .held ∧ (t.core dest).arrivals = (s.core dest).arrivals ++ [.reserved s.cur] ∧
      t.packets = s.packets ++ [(s.nextId, q)] ∧ q.payload = .wayfarer w ∧ q.dst = nodeOfCore dest ∧
      w.pc = pc ∧ w.access = access ∧ w.x = s.here.x ∧ w.preds = s.here.preds
    let m := s.reg a + (off.signExtend 64 <<< size.toNat)
    let n := 2 ^ size.toNat
    let mdest := placeCore (chipOfThread s.cur) m
    (s.here.home = none → exec (.home g) s = .next s.finish) ∧
    (s.checkWander s.cur (s.reg a &&& ~~~(0xFFFF : Word)) 1 = none → clear →
      (dest = coreOfThread s.cur → exec (.wander g a) s = .next s.finish) ∧
      (dest ≠ coreOfThread s.cur → (s.core dest).arrivals.length < 4 → s.here.wf = false →
        leaves (.wander g a) dest (s.here.pc + 4) none)) ∧
    (s.here.carried = none → m.toNat % n = 0 → s.checkWander s.cur m n = none → clear →
      (mdest = coreOfThread s.cur →
        (∃ t, exec (.ld g d a size sx 0 off) s = .next t ∧ exec (.ld g d a size sx 3 off) s = .next t.uncarry) ∧
        ∃ t, exec (.st g d a size 0 off) s = .next t ∧ exec (.st g d a size 3 off) s = .next t.uncarry) ∧
      (mdest ≠ coreOfThread s.cur → (s.core mdest).arrivals.length < 4 → s.here.wf = false →
        leaves (.ld g d a size sx 3 off) mdest s.here.pc (some (m, 0)) ∧
        leaves (.st g d a size 3 off) mdest s.here.pc (some (m, s.reg d)))) ∧
    (∀ x v target, s.here.carried = some (x, v) → x.toNat % n = 0 → s.checkWander s.cur x n = none → clear →
      placeCore (chipOfThread s.cur) x = coreOfThread s.cur →
      (Admits s x n n rR false target → loadHeld s (.ok target) n = none → ∃ t acc,
        exec (.ld g d a size sx 3 off) s = .next t ∧ Requested s t acc ∧ acc.req = .load n ∧ acc.addr = x ∧
          acc.dest = d.toNat) ∧
      (Admits s x n n rW true target → ∃ t acc, exec (.st g d a size 3 off) s = .next t ∧ Requested s t acc ∧
        acc.req = .store ((List.range n).zip (littleEndian v n)) ∧ acc.addr = x)) ∧
    (∀ h, s.here.home = some h → clear → ∃ t q w, exec (.home g) s = .next t ∧ (s.nextId, q) ∈ t.packets ∧
      q.payload = .wayfarer w ∧ w.homeward = true ∧ w.pc = s.here.pc + 4 ∧ t.here.state = .free) ∧
    (∀ pk p w, Delivered s pk p (.wayfarer w) → w.homeward = true → raceMode (s.slot w.thread).race = 0 →
      ∃ t, exec (.wayfarerArrival pk) s = .next t ∧ (t.slot w.thread).state = .ready ∧ (t.slot w.thread).pc = w.pc) ∧
    (∀ pk p w i, Delivered s pk p (.wayfarer w) → w.homeward = false → w.from' = w.thread →
      (List.range 16).find? (fun i => (s.core (p.dst * 16 + i)).arrivals.contains (.reserved w.from')) = some i →
      ∃ t, exec (.wayfarerArrival pk) s = .next t ∧ (t.core (p.dst * 16 + i)).arrivals =
        ((s.core (p.dst * 16 + i)).arrivals.filter fun x => decide (x ≠ .reserved w.from')) ++ [.landed w]) ∧
    (∀ core w x, (s.core core).arrivals = [.landed w] → (s.slot (core * 8 + 6)).state = .free → w.access = some x →
      ∃ t, exec (.wayfarerStart core) s = .next t ∧ (t.slot (core * 8 + 6)).carried = some x ∧
        (t.slot (core * 8 + 6)).word = w.word ∧ Due.again (core * 8 + 6) ∈ t.pending) ∧
    (∀ core w, (s.core core).arrivals = [.landed w] → (s.slot (core * 8 + 6)).state = .free → w.access = none →
      ∃ t, exec (.wayfarerStart core) s = .next t ∧ (t.slot (core * 8 + 6)).state = .ready ∧
        (t.slot (core * 8 + 6)).pc = w.pc ∧ (t.slot (core * 8 + 6)).wf = true ∧
        (t.slot (core * 8 + 6)).home = some w.thread ∧ (t.core core).arrivals = [.running 6])
/-! ### Commands, tiles, lent slots, tasks and passes as they issue -/

/-- TX, TQ and FORK of commands in full lines of the window that pass their checks: TX parks in its operation, TQ goes
on with its operation queued, FORK goes on with a new sequence entry. A FORK with no free entry, all of whose sequences run,
parks with what it has read. RDV goes on when no entry with its offset is in use, and is an acquire; it parks while one is
unfinished, and brings cause 0x0F with the command's offset for one that has faulted. A misaligned offset traps. An operation whose writes are visible completes: it leaves its queue, and its TX
returns. -/
def Obligations.CommandsIssueAndComplete : Prop :=
  (∀ (s : State) (g : Guard) (n a : Field4) (e : BitVec 12), guardHolds g s = true → s.here.wf = false →
      let x := s.reg a + e.signExtend 64
      let off := x.toNat
      let w := s.commandAt s.cur off
      let issue (origin : Origin) : EngOp := { s.issueOp s.cur w origin off with checked := true }
      let ready (origin : Origin) : Prop := s.here.state.queued? = none ∧ x.toNat % 32 = 0 ∧
        s.fetchEmpty s.cur off 1 = none ∧ Unhindered s false (s.fetchBytes s.cur off 1) ∧ (∃ i, decodeCommand w = .ok i ∧ s.checkIssue (issue origin) i = (s, none)) ∧
        s.queueFull (issue origin).core (issue origin).engine = false
      (ready .tq → exec (.tq g a e) s = .next ((s.addOp (issue .tq)).2.giveOp s.nextId (issue .tq)).finish) ∧
      (ready .tx → (∀ k ∈ s.here.txs, ∀ o, s.op? k = some o → o.offset ≠ off ∨ o.faulted = false) →
        (∀ q ∈ s.here.seqs, ∀ o, s.op? q.op = some o → q.offset ≠ off ∨ o.faulted = false) → exec (.tx g a e) s =
        .next ((((s.addOp (issue .tx)).2.modHere fun c => { c with txs := c.txs ++ [s.nextId] }).park
          (.command s.nextId)).giveOp s.nextId (issue .tx))) ∧
      (x.toNat % 32 = 0 → s.here.fork = none → s.fetchEmpty s.cur off (n.toNat + 1) = none →
        Unhindered s false (s.fetchBytes s.cur off (n.toNat + 1)) → 4 ≤ s.here.seqs.length →
        (∀ q ∈ s.here.seqs, ∃ o, s.op? q.op = some o ∧ o.faulted = false) → exec (.fork g n a e) s =
          .next ((s.modHere fun c => { c with fork := some (s.forkEntry off (n.toNat + 1)) }).park .join)) ∧
      (x.toNat % 32 = 0 → s.here.fork = none → s.fetchEmpty s.cur off (n.toNat + 1) = none →
        Unhindered s false (s.fetchBytes s.cur off (n.toNat + 1)) → s.here.seqs.length < 4 →
        ∃ t, exec (.fork g n a e) s = .next t ∧ GoesOn s t ∧ t.here.seqs.map (fun q => (q.offset, q.words)) =
          s.here.seqs.map (fun q => (q.offset, q.words)) ++
            [(off, (List.range (n.toNat + 1)).map fun i => s.commandAt s.cur (off + 32 * i))]) ∧
      (x.toNat % 32 = 0 → (s.here.seqs.all fun q => q.offset != off) = true →
        let held := s.here.completed.filter (·.1 == some off)
        (held = [] → exec (.rdv g a e) s = .next (s.acquire s.cur []).finish) ∧
        (held ≠ [] → exec (.rdv g a e) s = .next ((s.modSlot s.cur fun c =>
          { c with completed := c.completed.filter (·.1 != some off) }).acquire s.cur (held.map (·.2))).finish)) ∧
      (∀ q o, x.toNat % 32 = 0 → s.here.seqs = [q] → q.offset = off → s.op? q.op = some o →
        (o.faulted = false → exec (.rdv g a e) s = .next (s.park .join)) ∧
        (o.faulted = true → q.joined = false → exec (.rdv g a e) s =
          .next ((s.firstJoin q.op o q).trap 0x0F (BitVec.ofNat 64 o.offset)))) ∧
      (x.toNat % 32 ≠ 0 → exec (.rdv g a e) s = .next (s.trap 0x05 x) ∧ exec (.fork g n a e) s = .next (s.trap 0x05 x))) ∧
  (∀ (s : State) (id : Nat) (o : EngOp), s.op? id = some o → o.finished = true → o.outstanding = 0 → o.state = .running →
      o.saved = 0 →
      (o.origin = .tx → parkedOn (.command id) (s.slot o.thread) = true → ∃ t, exec (.engineCompletion id) s = .next t ∧
        (t.slot o.thread).state = .ready ∧ (t.slot o.thread).pc = (s.slot o.thread).pc + 4 ∧ t.op? id = none ∧
        id ∉ (t.core o.core).queue o.engine) ∧
      (o.origin = .tq → ∃ t, exec (.engineCompletion id) s = .next t ∧ t.op? id = none ∧ t.mem = s.mem ∧
        id ∉ (t.core o.core).queue o.engine))

/-- TSHAPE sets the shape word of a mapped tile to its fields or to xa, which must obey Table 11-6. TGET and TSET move one
element of a tile, and PARK and UNPARK one word of its free rows. -/
def Obligations.TileRegisterForms : Prop :=
  ∀ (s : State) (g : Guard) (t d a b : Field4) (elem : BitVec 5) (rows : BitVec 4) (cols : BitVec 6),
    guardHolds g s = true → shadowReg d = false → s.here.wf = false →
    let w : Word := BitVec.ofNat 64 (elem.toNat + (rows.toNat + 1) * 32 + (cols.toNat + 1) * 1024)
    let h := shapeOf (s.here.shape t)
    let k := (s.reg b).toNat
    let shapes (i : Instr) (w : Word) : Prop :=
      (shapeWordOk w = true → exec i s = .next (s.modHere fun c =>
        { c with shapes := c.shapes.setIfInBounds t.toNat w }).finish) ∧
      (shapeWordOk w = false → exec i s = .next (s.trap 0x0E w))
    let reads (i : Instr) (pa n : Nat) (f : Word → Word) : Prop := Unhindered s false (consecutive pa n) →
      s.lineEmpty (lineOf pa) = false →
      exec i s = .next (s.setReg d (f (s.loadLE pa n))).finish
    let writes (i : Instr) (pa n : Nat) (v : Word) : Prop := Unhindered s true (consecutive pa n) →
      Unwatched s (consecutive pa n) → exec i s = .next (s.write (bytesAt pa n v)).finish
    ((s.here.tile t).mapped = false → exec (.tshape g t elem rows cols) s = .next (s.trap 0x0D (t.setWidth 64)) ∧
      exec (.tget g d t b) s = .next (s.trap 0x0D (t.setWidth 64))) ∧
    ((s.here.tile t).mapped = true →
      shapes (.tshape g t elem rows cols) w ∧ shapes (.tshapeReg g t a) (s.reg a) ∧
      (∀ el, elemOf h.elem ((s.reg 12).getLsbD 17) = some el → k < h.rows * h.cols →
        let pa := s.tileByte t (k / h.cols) (el.bytes * (k % h.cols))
        reads (.tget g d t b) pa el.bytes (elementOut el) ∧ writes (.tset g d t b) pa el.bytes (elementIn el (s.reg d))) ∧
      (h.rows ≤ k / 8 → k < 128 →
        let pa := s.tileByte t (k / 8) (8 * (k % 8))
        writes (.park g a t b) pa 8 (s.reg a) ∧ reads (.unpark g d t b) pa 8 id) ∧
      (k / 8 < h.rows ∨ 128 ≤ k → exec (.park g a t b) s = .next (s.trap 0x0E (s.reg b))))

/-- BORROW lends the lowest free slot of the core that no admitted member holds to a thread in borrow mode, parks when there is
none, and traps with cause 0x04 outside borrow mode; XGET and XPUT read and write x1 to x10 of the lent slot, and trap with
cause 0x04 when none is lent and with 0x02 for another register; RETURN frees it. -/
def Obligations.LentSlots : Prop :=
  ∀ (s : State) (g : Guard) (d n b : Field4), guardHolds g s = true → shadowReg d = false →
    let core := coreOfThread s.cur
    (s.here.borrowMode = false → exec (.borrow g) s = .next (s.trap 0x04 (s.here.word.setWidth 64))) ∧
    (s.here.wf = false → s.here.borrowMode = true → s.here.lent = none →
      (∀ i, s.lowestFree core = some i → exec (.borrow g) s =
        .next ((s.setSlot (core * 8 + i) { state := .lent }).modHere fun c => { c with lent := some i }).finish) ∧
      (s.lowestFree core = none → exec (.borrow g) s = .next (s.park .borrow))) ∧
    (s.here.lent = none → exec (.returnLent g) s = .next s.finish ∧
      exec (.xget g d n) s = .next (s.trap 0x04 (s.here.word.setWidth 64)) ∧
      exec (.xput g n b) s = .next (s.trap 0x04 (s.here.word.setWidth 64))) ∧
    (s.here.lent ≠ none → n = 0 ∨ 11 ≤ n.toNat → exec (.xget g d n) s = .next (s.trap 0x02 (s.here.word.setWidth 64)) ∧
      exec (.xput g n b) s = .next (s.trap 0x02 (s.here.word.setWidth 64))) ∧
    (∀ i, s.here.lent = some i → core * 8 + i ≠ s.cur →
      (1 ≤ n.toNat → n.toNat ≤ 10 →
        exec (.xget g d n) s = .next (s.setReg d (s.regOf (core * 8 + i) n)).finish ∧
        exec (.xput g n b) s = .next (s.setRegOf (core * 8 + i) n (s.reg b)).finish) ∧
      ∃ t, exec (.returnLent g) s = .next t ∧ GoesOn s t ∧ t.here.lent = none ∧ (t.slot (core * 8 + i)).state = .free)

/-- LAUNCH checks its operands and reads its record line by line, parked until the lines have come; then it sends the record
with the board's address and parks until the answer. TRIGGER marks its member; HALT frees the slot, a lent one, and a wayfarer's home slot with its lent one, and marks
its member halted and triggered; all three wait as releases, and a thread whose write was dropped, lost, or ended with a
cause at its home does not halt but traps with cause 0x17, 0x12 or that cause: 0x16 for an uncorrectable error. That the
thread takes such a cause at its HALT, its next release or its next wait is the model's choice (log 87). -/
def Obligations.TaskForms : Prop :=
  ∀ (s : State) (g : Guard) (d a b : Field4), guardHolds g s = true → shadowReg d = false →
    let c := s.here
    let clear : Prop := Releases s
    let h := s.reg b
    (s.released s.cur = false → exec (.halt g) s = .next (s.park .release) ∧ exec (.trigger g) s = .next (s.park .release)) ∧
    (∀ x, s.released s.cur = true → c.unreachable = some x → exec (.halt g) s = .next (s.trap 0x17 x)) ∧
    (∀ x, s.released s.cur = true → c.unreachable = none → c.linkLost = some x → exec (.halt g) s =
      .next ((s.modHere fun c => { c with linkLost := none }).trap 0x12 x)) ∧
    (∀ k x, s.released s.cur = true → c.unreachable = none → c.linkLost = none → c.writeError = some (k, x) →
      exec (.halt g) s = .next ((s.modHere fun c => { c with writeError := none }).trap k x)) ∧
    (clear → ∀ m, (s.task c.task).members[c.member]? = some m →
      (∃ t, exec (.trigger g) s = .next t ∧ GoesOn s t ∧
        ((t.task c.task).members[c.member]?).map (·.triggered) = some true) ∧
      (∃ t, exec (.halt g) s = .next t ∧ (t.slot s.cur).state = .free ∧
        (c.home = none → ∀ i, c.lent = some i → (t.slot (coreOfThread s.cur * 8 + i)).state = .free) ∧
        (∀ k, c.home = some k → (t.slot k).state = .free ∧
          ∀ i, (s.slot k).lent = some i → (t.slot (coreOfThread k * 8 + i)).state = .free) ∧
        ((t.task c.task).members[c.member]?).map (·.state) = some .halted ∧
        ((t.task c.task).members[c.member]?).map (·.triggered) = some true)) ∧
    (c.state.reading? = none → isPlace h = false → exec (.launch g d a b) s = .next (s.trap 0x06 h)) ∧
    (c.state.reading? = none → isPlace h = true →
      s.checkPlace (chipOfThread s.cur) c.parish (h &&& ~~~(0xFFFF : Word)) 1 true = none →
      (∀ k x, s.checkScalar s.cur (s.reg a) 512 8 rR false = .trap k x → exec (.launch g d a b) s = .next (s.trap k x)) ∧
      (∀ target, s.checkScalar s.cur (s.reg a) 512 8 rR false = .ok target → isPlace (s.reg a) = true →
        raceMode c.race = 0 → s.submission s.nextId = {} → s.accesses = [] →
        ∃ t e, exec (.launch g d a b) s = .next t ∧ t.here.state = .parked (.launch s.nextId) ∧ t.here.pc = c.pc ∧
          e ∈ t.accesses ∧ e.2.reader = .launch s.nextId ∧ e.2.addr = s.reg a)) ∧
    (∀ k l, c.state = .parked (.launch k) →
      takeReads (s.submission k).reads (linePieces (s.reg a) 512) [] = .bytes l →
      (s.released s.cur = false → exec (.launch g d a b) s = .next (s.park (.launch k))) ∧
      (clear → ∃ t v, exec (.launch g d a b) s = .next t ∧ t.here.state = .parked (.board k) ∧ t.submission k = v ∧
        v.words = wordsOf 64 l ∧ v.record = s.reg a ∧ v.home = h &&& ~~~(0xFFFF : Word) ∧ v.thread = some s.cur ∧
        v.dest = d.toNat ∧ v.supervisor = c.pl ∧ t.pending = s.pending ++ [.event (.submission k)]))

/-- KVSUB takes a free Granary slot of the node, reads the roll's descriptor as a load does, and waits for the Carillon's
record; with no slot free it waits for one first. That the slot is the lowest free one is the model's choice (log 114), and
that its checks of the roll word, the page range and the tile come in this order a reading of the spec (log 47). KVUNSUB frees
a slot that its task holds, and traps with cause 0x08 for every other number: a free slot, another task's, or one from 32 up.
PASS reads the descriptor and hands the Carillon a snapshot: the pass opens at once, or waits for the running one to end, and a
further PASS has no effect; one of a roll with no subscription ends at once. POST seals a held parcel it may post and waits for
its writes. -/
def Obligations.PassAndPostForms : Prop :=
  ∀ (s : State) (g : Guard) (d a b t : Field4), guardHolds g s = true → shadowReg d = false → s.here.wf = false →
    let c := s.here
    let rw := s.reg a
    let rg := s.reg b
    let node := nodeOfThread s.cur
    let chip := chipOfThread s.cur
    let e := s.obj chip c.parish (handleObj rw)
    let desc := s.descriptorAt c.parish rw
    let come (k : Nat) (q : RollDesc) : Prop := c.state = .parked (.launch k) ∧
      ∃ l, takeReads (s.submission k).reads (linePieces desc 64) [] = .bytes l ∧ rollDesc (wordsOf 8 l) = some q
    (c.state.reading? = none → rw.extractLsb' 11 53 = 0 → rg.extractLsb' 48 16 = 0 → rg.extractLsb' 32 16 ≠ 0 → (c.tile t).mapped = true →
      s.rollFail s.cur rw = none →
      (freeGranary (s.node node) = none → exec (.kvsub g d a b t) s = .next (s.park .granary)) ∧
      (∀ i target, freeGranary (s.node node) = some i → isPlace desc = false →
        checkEntry (s.obj chip c.parish (handleObj desc)) (handleObj desc) (handleOff desc) 64 rR (!c.pl) = none →
        s.checkResidency chip c.parish (handleObj desc) (handleOff desc) desc false = .ok target → raceMode c.race = 0 →
        s.submission s.nextId = {} → s.accesses = [] → ∃ u, exec (.kvsub g d a b t) s = .next u ∧
        u.here.state = .parked (.launch s.nextId) ∧ (u.granary node i).sub = s.nextId ∧
        (u.granary node i).owner = c.task ∧ (u.subscription s.nextId).slot = i ∧
        (u.subscription s.nextId).thread = s.cur ∧ (u.subscription s.nextId).state = .requested ∧
        ∃ e ∈ u.accesses, e.2.reader = .launch s.nextId ∧ e.2.addr = desc)) ∧
    (∀ k q, come k q → ∃ u, exec (.kvsub g d a b t) s = .next u ∧ u.here.state = .parked (.carillon k) ∧
      (u.subscription k).npages = q.npages ∧ (u.subscription k).hd = q.hd ∧
      u.pending = s.pending ++ [.event (.subscriptionRegistration k)]) ∧
    (c.state.reading? = none → rw.extractLsb' 11 53 ≠ 0 → exec (.kvsub g d a b t) s = .next (s.trap 0x07 rw) ∧
      exec (.pass g a) s = .next (s.trap 0x07 rw)) ∧
    (rw.toNat < 32 → (s.granary node rw.toNat).state ≠ .free → (s.granary node rw.toNat).owner = c.task →
      exec (.kvunsub g a) s = .next (s.unsubscribe node rw.toNat).finish) ∧
    (32 ≤ rw.toNat ∨ (s.granary node rw.toNat).state = .free ∨ (s.granary node rw.toNat).owner ≠ c.task →
      exec (.kvunsub g a) s = .next (s.trap 0x08 rw)) ∧
    (∀ k q, come k q →
      s.carillonFail chip c.parish (!c.pl) q.kbase q.range = none →
      s.carillonFail chip c.parish (!c.pl) q.vbase q.range = none →
      let die := rollDie s.cur rw
      let n := rollNumber rw
      let snaps (p : PassSnapshot) : Prop := p.npages = q.npages ∧ p.kbase = q.kbase ∧ p.vbase = q.vbase ∧
        p.stride = q.stride ∧ p.sflag = q.sflag ∧ p.stage = q.stage ∧ p.parish = c.parish
      let opens (r : Roll) (q : PassSnapshot → Prop) : Prop := ∃ x, r.running = some x ∧ q x.snap ∧ x.page = 0
      let gives (q : Roll → Prop) : Prop := ∃ u, exec (.pass g a) s = .next u ∧ GoesOn s u ∧ q (u.roll die n)
      ((s.roll die n).running ≠ none →
        (∀ w, (s.roll die n).waiting = some w → exec (.pass g a) s = .next (s.endReads k).finish) ∧
        ((s.roll die n).waiting = none → gives fun r =>
          (∃ p, r.waiting = some p ∧ snaps p) ∧ r.running = (s.roll die n).running)) ∧
      ((s.roll die n).running = none → s.rollSubs die n = [] → gives fun r => r.running = none ∧ r.waiting = none) ∧
      ((s.roll die n).running = none → s.rollSubs die n ≠ [] →
        ((s.roll die n).waiting = none → gives (fun r => opens r snaps ∧ r.waiting = none) ∧
          ∃ u, exec (.pass g a) s = .next u ∧ .event (.pageWalk die n) ∈ u.pending) ∧
        (∀ w, (s.roll die n).waiting = some w → gives fun r => opens r (· = w) ∧ ∃ p, r.waiting = some p ∧ snaps p))) ∧
    (isPlace rw = true → exec (.post g a b) s = .next (s.trap 0x0B rw)) ∧
    (isPlace rw = false → handleOff rw = 0 → checkEntry e (handleObj rw) 0 0 rP (!c.pl) = none →
      s.posted c.parish (handleObj rw) = false → e.isParcel = true → isPlace rg = true → rg.toNat % 16 = 0 →
      s.checkPlace chip c.parish rg 16 false = none → Releases s →
      ∃ u x, exec (.post g a b) s = .next u ∧ u.here.state = .parked .seal ∧ u.transit? s.nextId = some x ∧
        x.stage = .sealing ∧ x.obj = handleObj rw ∧ x.parish = c.parish ∧ x.arrival = rg ∧ x.thread = s.cur)

/-! ### Tile commands as their engines run them -/

/-- The arithmetic, function, conversion and raw-bit commands of the Lane engine: with their source rows full, the
elements of td that the guard enables take the exact result of their sources rounded or wrapped once into td's code, and
the operation has its effect. -/
def Obligations.LaneResults : Prop :=
  ∀ (s : State) (id : Nat) (o : EngOp) (f : TileFields),
    let c := s.rowCtx o f
    let x := s.srcVal o f f.ta c.a
    let y := s.srcVal o f f.tb c.b
    let z := s.srcVal o f f.tc c.d
    let xb := s.srcBits o f f.ta c.a
    let yb := s.srcBits o f f.tb c.b
    let w := 8 * c.d.bytes
    let lanes (i : Instr) (src : List Field4) (elem : Nat → Nat → Nat) : Prop := Running s id o i →
      (∀ t ∈ src, s.tileEmpty o t c.rows = false) →
      exec i s = .next ((s.write (laneWrites s o f elem)).finishOp id)
    let rounds (i : Instr) (src : List Field4) (v : Nat → Nat → Val) : Prop := lanes i src fun r l =>
      resultBits c.d (o.rounding c.rnd r l) c.sat (!c.a.isFloat) (v r l)
    let two := [f.ta, f.tb]
    rounds (.radd f) two (fun r l => (addVal (c.rnd == 2) (x r l) (y r l)).1) ∧
    rounds (.rsub f) two (fun r l => (addVal (c.rnd == 2) (x r l) (y r l).neg).1) ∧
    rounds (.rmul f) two (fun r l => (mulVal (x r l) (y r l)).1) ∧
    rounds (.rfma f) [f.ta, f.tb, f.tc] (fun r l => (addVal (c.rnd == 2) (mulVal (x r l) (y r l)).1 (z r l)).1) ∧
    rounds (.rmin f) two (fun r l => minVal (x r l) (y r l)) ∧ rounds (.rmax f) two (fun r l => maxVal (x r l) (y r l)) ∧
    rounds (.rabs f) [f.ta] (fun r l => (x r l).abs) ∧ rounds (.rneg f) [f.ta] (fun r l => (x r l).neg) ∧
    rounds (.rrcp f) [f.ta] (fun r l => rcpVal (x r l)) ∧ rounds (.rrsq f) [f.ta] (fun r l => rsqVal (x r l)) ∧
    rounds (.rexp2 f) [f.ta] (fun r l => exp2Val (x r l)) ∧ rounds (.rlog2 f) [f.ta] (fun r l => log2Val (x r l)) ∧
    rounds (.rcvt f) [f.ta] x ∧
    lanes (.rand f) two (fun r l => (xb r l &&& yb r l) % 2 ^ w) ∧ lanes (.ror f) two (fun r l => (xb r l ||| yb r l) % 2 ^ w) ∧
    lanes (.rxor f) two (fun r l => (xb r l ^^^ yb r l) % 2 ^ w) ∧
    lanes (.rshl f) two (fun r l => if w ≤ yb r l then 0 else xb r l * 2 ^ yb r l % 2 ^ w) ∧
    lanes (.rshr f) two (fun r l =>
      if c.d.isSigned then (intOf c.d.bytes true (xb r l) / 2 ^ Nat.min (yb r l) w % 2 ^ w).toNat
      else xb r l / 2 ^ Nat.min (yb r l) w) ∧
    lanes (.ridx f) [] (fun r l => resultBits c.d (o.rounding c.rnd r l) c.sat true
      (valOfInt (f.imm32.toInt + ((o.shape f.td).cols * r + l : Nat)))) ∧
    lanes (.rroll f) [] (fun r l =>
      let z := rollZ (o.seed.setWidth 32) (o.seedh.setWidth 32) (f.imm32 + BitVec.ofNat 32 (64 * r + l))
      if c.d.isFloat then resultBits c.d (o.rounding c.rnd r l) c.sat false (.fin false (z >>> 8).toNat (-24))
      else z.toNat % 2 ^ w) ∧
    lanes (.rperm f) two (fun r l =>
      let i := intOfVal (y r l)
      let h := o.shape f.ta
      if i < 0 ∨ (h.cols : Int) ≤ i then 0
      else resultBits c.d (o.rounding c.rnd r l) c.sat (!c.a.isFloat)
        (decodeElem c.a (s.elem o f.ta (if h.rows = 1 then 0 else r) i.toNat c.a.bytes)))

/-- RSEL writes every element, from ta where the guard enables the lane and from tb elsewhere; RBCAST writes one value to
all enabled elements. RCMP and the K commands write only the lane predicate kd, and of it only the enabled lanes. -/
def Obligations.SelectAndPredicates : Prop :=
  ∀ (s : State) (id : Nat) (o : EngOp) (f : TileFields),
    let c := s.rowCtx o f
    let a := elemOr (codeA o.fm f.ea)
    let b := elemOr (codeB o.fm f.eb)
    let h := o.shape f.ta
    let r0 := f.imm32.toNat / h.cols
    let kd := (f.imm32.extractLsb' 0 4).toNat
    let ka := s.lanePred o (f.imm32.extractLsb' 4 4).toNat
    let kb := s.lanePred o (f.imm32.extractLsb' 8 4).toNat
    let old := s.lanePred o kd
    let sets (i : Instr) (bit : Nat → Bool) : Prop := Running s id o i → ∃ w : BitVec 64,
      exec i s = .next ((s.setLanePred o kd w).finishOp id) ∧ ∀ n < 64, w.getLsbD n = bit n
    let guarded (v : BitVec 64) (n : Nat) : Bool :=
      if enabled f (s.lanePred o f.k.toNat) 1 n then v.getLsbD n else old.getLsbD n
    (Running s id o (.rsel f) → s.tileEmpty o f.ta c.rows = false → s.tileEmpty o f.tb c.rows = false →
      exec (.rsel f) s = .next ((s.write (c.rows.flatMap fun r => (List.range (o.shape f.td).cols).flatMap fun l =>
        o.elemBytes f.td r l c.d.bytes (
          if enabled f c.k c.d.bytes l then
            resultBits c.d (o.rounding c.rnd r l) c.sat (!c.a.isFloat) (s.srcVal o f f.ta c.a r l)
          else resultBits c.d (o.rounding c.rnd r l) c.sat (!c.b.isFloat) (s.srcVal o f f.tb c.b r l)))).finishOp id)) ∧
    (Running s id o (.rbcast f) →
      (f.ta.toNat = 12 → exec (.rbcast f) s = .next ((s.write (laneWrites s o f fun r l =>
        resultBits c.d (o.rounding c.rnd r l) c.sat (!c.d.isFloat) (immVal f c.d))).finishOp id)) ∧
      (f.ta.toNat < 12 → s.rowsEmpty o f.ta [r0] = false →
        exec (.rbcast f) s = .next ((s.write (laneWrites s o f fun r l =>
          resultBits c.d (o.rounding c.rnd r l) c.sat (!c.a.isFloat)
            (decodeElem c.a (s.elem o f.ta r0 (f.imm32.toNat % h.cols) c.a.bytes)))).finishOp id))) ∧
    (s.tileEmpty o f.ta [f.first.toNat] = false → s.tileEmpty o f.tb [f.first.toNat] = false →
      sets (.rcmp f) fun n =>
        let l := n / a.bytes
        decide (l < h.cols) && if enabled f (s.lanePred o f.k.toNat) a.bytes l then
          laneCond f.layout.toNat (decodeElem a (s.elem o f.ta f.first.toNat l a.bytes))
            (decodeElem b (s.srcBits o f f.tb b f.first.toNat l))
        else old.getLsbD n) ∧
    sets (.kand f) (guarded (ka &&& kb)) ∧ sets (.kor f) (guarded (ka ||| kb)) ∧
    sets (.kxor f) (guarded (ka ^^^ kb)) ∧ sets (.knot f) (guarded (~~~ka))

/-- The reductions, the scan and the sort: RSUMR and RMAXR write lane 0 of each row with the exact sum or the largest of
the enabled elements, or 0 and the smallest value of the code where none is enabled; RSCAN writes every lane; RSORT writes
the sorted values to td and their lanes to tb. -/
def Obligations.ReductionResults : Prop :=
  ∀ (s : State) (id : Nat) (o : EngOp) (f : TileFields),
    let c := s.rowCtx o f
    let n := c.d.bytes
    let values (r : Nat) : List Val := (s.rowValues o f c r).map (·.2)
    let rounds (r l : Nat) (v : Val) : Nat := resultBits c.d (o.rounding c.rnd r l) c.sat (!c.a.isFloat) v
    let writes (i : Instr) (w : List (Nat × Byte)) : Prop := Running s id o i → s.tileEmpty o f.ta c.rows = false →
      exec i s = .next ((s.write w).finishOp id)
    let first (bits : Nat → Nat) : List (Nat × Byte) := c.rows.flatMap fun r => o.elemBytes f.td r 0 n (bits r)
    writes (.rsumr f) (first fun r => match values r with
      | [] => 0
      | v :: l => rounds r 0 (l.foldl (fun a b => (addVal (c.rnd == 2) a b).1) v)) ∧
    writes (.rmaxr f) (first fun r => match values r with
      | [] => smallestBits c.d
      | v :: l => rounds r 0 (l.foldl maxVal v)) ∧
    writes (.rscan f) (c.rows.flatMap fun r =>
      (s.scanRow o f c r).zipIdx.flatMap fun e => o.elemBytes f.td r e.2 n e.1) ∧
    writes (.rsort f) (c.rows.flatMap fun r =>
      (((s.rowValues o f c r).foldl insertLane []).take f.imm32.toNat).zipIdx.flatMap fun e =>
        o.elemBytes f.td r e.2 n (rounds r e.2 e.1.2) ++
          o.elemBytes f.tb r e.2 c.b.bytes (wrapInt c.b.bytes false false e.1.1))

/-- The Loom's products: with every operand row that the command uses in full lines, each enabled element of td takes the dot product of a row of A and a
column of B from its old value, or from zero, in the groups of R235; TMMS reads A through its masks, TMMB scales each
block. That an accumulator of D's own format, infinite or not, enters D as it stands is a reading of R235 and R320 (log 97),
and the sign of a block sum that is zero is the model's choice (log 110). -/
def Obligations.LoomProducts : Prop :=
  ∀ (s : State) (id : Nat) (o : EngOp) (f : TileFields),
    let c := s.loomCtx o f
    let old (i j : Nat) : Val :=
      if f.imm32.getLsbD 0 then .zero else decodeElem c.d (s.elem o f.td i j c.d.bytes)
    let a := s.elemA o f c
    let b (j k : Nat) : Val := s.elemB o f c k j
    let full (t : Field4) : List Nat := List.range (o.shape t).rows
    let ready : Prop := s.rowsEmpty o f.ta (if c.ta then full f.ta else c.rows) = false ∧
      s.rowsEmpty o f.tb (full f.tb) = false ∧ (f.imm32.getLsbD 0 = true ∨ s.rowsEmpty o f.td c.rows = false)
    let writes (i : Instr) (bits : Nat → Nat → Nat) : Prop := Running s id o i → ready →
      exec i s = .next ((s.write (c.rows.flatMap fun i => (List.range c.n).flatMap fun j =>
        if enabled f c.guard c.d.bytes j then o.elemBytes f.td i j c.d.bytes (bits i j) else [])).finishOp id)
    let product (acc : Fmt) (a b : Nat → Val) (i j : Nat) : Nat :=
      let g := groupLength c.a.bytes
      if c.a.isFloat then convertAcc c.d (o.rounding c.rnd i j) c.sat acc (dotGroups acc g c.k (old i j) a b)
      else wrapInt 4 true c.sat (dotInts c.sat g c.k (intOfVal (old i j)) a b)
    writes (.tmma f) (fun i j => product fmtF32 (a i) (b j) i j) ∧
    writes (.tmmd f) (fun i j => product fmtF64 (a i) (b j) i j) ∧
    (s.rowsEmpty o f.tc c.rows = false → s.masksOk o f = true → writes (.tmms f) fun i j => product fmtF32 (fun k =>
      match s.storedAt o f i k with
      | some p => a i p
      | none => .zero) (b j) i j) ∧
    (s.scalesEmpty o f = false → writes (.tmmb f) fun i j =>
        convertAcc c.d (o.rounding c.rnd i j) c.sat fmtF32 (accumulate fmtF32 (old i j)
          ((List.range (c.k / 32)).map fun q => blockSum (a i) (b j) (s.blockScale o o.sa (fmBMA o.fm) (c.k / 32) i q)
            (s.blockScale o o.sb (fmBMB o.fm) (c.k / 32) j q) (groupOf 32 c.k q))))

/-- The moves and the transfer engines: a move between tiles writes the enabled elements of td; a move from an address takes
the stream of its pieces, and waits while some are still to come; one to an address reads its source once, checks its whole
range and sends its chunks; copies, gathers and scatters ask for what they read, in order, and write what has come, and
complete after the last; CSCHED and CSTAGE change the task's schedule, where only entries that the counter does not cover yet
wait for room; SPIRE contributes to its round, by its order of issue. The distance that a resume offset of a TLD counts where
rows do not follow each other is the model's choice (log 112), that a copy's pieces are written as they come and a CPYA's in
ascending order a reading of R102 (log 113), and that the commands of a FORK are issued by it a reading of R360 (log 111). -/
def Obligations.EngineTransfers : Prop :=
  ∀ (s s' : State) (id : Nat) (o : EngOp) (f : TileFields) (l : List (Nat × Byte)),
    let d := o.shape f.td
    let n := codeSize d.elem
    let k := s.lanePred o f.k.toNat
    let rows := (rowRange f d.rows).getD []
    let tile (i : Instr) (elem : Nat → Nat → Nat) : Prop := Running s id o i →
      exec i s = .next ((s.write (rows.flatMap fun r => (List.range d.cols).flatMap fun l =>
        if enabled f k n l then o.elemBytes f.td r l n (elem r l) else [])).finishOp id)
    let x := operandOf f.addr
    let ld := moveCtx o f f.td (elemOr (codeD o.fm f.ed)).bytes
    let st := moveCtx o f f.ta (elemOr (codeA o.fm f.ea)).bytes
    let stores (i : Instr) (whole : Spans) (chunks : List Chunk) : Prop := Running s id o i → o.sent = 0 → o.out = none →
      let s1 := s.modOp id fun o => { o with out := some chunks }
      (∀ v k, s1.extentsFail o x whole = some (k, v) → exec i s = .next (s1.faultOp id k v o.resume true)) ∧
      (s1.extentsFail o x whole = none →
        s1.writeChunks id x f.flag false (chunks.filter fun c => decide (o.resume ≤ c.1)) = .all s' →
        exec i s = .next ((s'.seal id f.flag).finishOp id))
    let src := operandOf o.block
    let ps := (pieces src.base src.base f.len.toNat o.resume (f.len.toNat / 128 + 2)).map fun p => Piece.mk p.1 p.1 p.2
    let ds := pieces x.base x.base f.len.toNat o.from' (f.len.toNat / 128 + 2)
    let copies (i : Instr) (elem : Option Nat) : Prop := Running s id o i →
      copyPieces id f.len.toNat src x ps f.flag elem (s.startPieces id src (ps.filter (wanted o ds))) none ds = .all s' →
      exec i s = .next ((s'.seal id f.flag (if noSf f then 0 else o.place f.imm32.toNat)).finishOp id)
    let later := ((List.range f.len.toNat).filter fun i =>
      decide ((s.task o.task).stage < entryStage (o.entryWord i 3))).length
    let level := spireLevel f
    let round : Round := { task := o.task, level := level, group := s'.spireGroup o level, number := o.round }
    tile (.tzero f) (fun _ _ => 0) ∧
    (f.td.toNat ≠ 12 → s.rowsEmpty o f.ta rows = false → tile (.tcopy f) fun r l => s.elem o f.ta r l n) ∧
    (s.rowsEmpty o f.ta (List.range (o.shape f.ta).rows) = false → tile (.ttrn f) fun r l => s.elem o f.ta l r n) ∧
    (Running s id o (.tld f) →
      let r := s.readStream id x ((ld.pieces x.base).filter fun p => decide (o.resume < p.place + p.len))
      (r = (s', .all l) →
        exec (.tld f) s = .next (((s'.write (loadedElems o f ld k l)).countOp o f.flag).finishOp id)) ∧
      (r = (s', .wait l) → exec (.tld f) s = .next s') ∧
      (∀ p c v, r = (s', .fault l p c v) →
        exec (.tld f) s = .next ((s'.write (loadedElems o f ld k l)).faultOp id c v (ld.unread l o.resume p) true))) ∧
    (s.rowsEmpty o f.ta st.rows = false →
      stores (.tst f) (moveSpans f (o.shape f.ta) st.size st.rows.length) (chunkBytes x.base .store (s.storeBytes o f st) none)) ∧
    (s.rowsEmpty o f.ta st.rows = false →
      stores (.tsta f) (moveSpans f (o.shape f.ta) st.size st.rows.length) (st.elems.flatMap fun e =>
      if enabled f k st.size e.2 then
        [(st.dist e.1 e.2, .adds (((codeA o.fm f.ea).map (·.1)).getD 0)
          [(0, BitVec.ofNat 64 (s.elem o f.ta (st.rows.getD e.1 0) e.2 st.size))] false)]
      else [])) ∧
    (f.td.toNat = 12 → s.rowsEmpty o f.ta ((rowRange f (o.shape f.ta).rows).getD []) = false →
      stores (.tcopy f) [(0, 64 * ((rowRange f (o.shape f.ta).rows).getD []).length)] (chunkBytes x.base .store (((rowRange f (o.shape f.ta).rows).getD []).zipIdx.flatMap fun e =>
        (List.range 64).flatMap fun i => if enabled f k (codeSize (o.shape f.ta).elem) (i / codeSize (o.shape f.ta).elem) then
          [(64 * e.2 + i, s.byte (o.tileByte f.ta e.1 i))] else []) none)) ∧
    copies (.cpy f) none ∧ copies (.cpya f) ((codeD o.fm f.ed).map (·.1)) ∧
    (s.listReady o f = true → o.sent = 0 →
      let s1 := s.takeList id o f
      ∀ o1, s1.op? id = some o1 →
      let rows := s1.servedOrder o1 f
      (s1.rowsFail o1 f = none →
        (Running s id o (.gath f) → gatherRows f id s1 rows = .all s' →
          exec (.gath f) s = .next ((s'.seal id f.flag).finishOp id)) ∧
        (Running s id o (.scat f) → scatterRows f id s1 ((rows.head?.map (·.1)).getD 0) rows = .all s' →
          exec (.scat f) s = .next ((s'.seal id f.flag).finishOp id))) ∧
      (∀ c v, s1.rowsFail o1 f = some (c, v) →
        (Running s id o (.gath f) → exec (.gath f) s = .next (s1.faultOp id c v o1.resume true)) ∧
        (Running s id o (.scat f) → exec (.scat f) s = .next (s1.faultOp id c v o1.resume true)))) ∧
    (Running s id o (.csched f) → later = 0 ∨ (s.task o.task).unreleased + later ≤ 64 → ∃ t es, exec (.csched f) s = .next t ∧
      es.length = f.len.toNat ∧ (t.task o.task).schedule.map (·.source) =
        (s.task o.task).schedule.map (·.source) ++ es ∧ (t.task o.task).stage = (s.task o.task).stage) ∧
    (Running s id o (.csched f) → later ≠ 0 → 64 < (s.task o.task).unreleased + later → exec (.csched f) s = .next s) ∧
    (Running s id o (.cstage f) → ∃ t, exec (.cstage f) s = .next t ∧
      (t.task o.task).stage = Nat.max (s.task o.task).stage (f.imm32.extractLsb' 0 8).toNat ∧ t.mem = s.mem) ∧
    (Running s id o (.spire f) → o.sent = 0 → o.data.length ≤ 1 →
      s.readStream id x (wholePieces x f.len.toNat) = (s', .all l) → s'.rounds = [] → (s'.opSlot o) = (s.opSlot o) →
      s'.roundBroken round (chipOfCore o.core) = false →
      ∃ t r, exec (.spire f) s = .next t ∧ AMap.get {} t.rounds s'.nextId = r ∧ r.task = o.task ∧ r.number = o.round ∧
        r.contributions.map (·.bytes) = [l.map (·.2)] ∧ r.contributions.map (·.member) = [(s.opSlot o).member] ∧
        r.disagreed = false)

/-- Page-major attention: ATTS writes the scaled scores and ATTP each row's maximum, sum and accumulator; GMRG merges its
page into its slot, or holds it in the reorder area; GTAKE writes the output of a full slot and opens it for the next
pass, and answers 1 for a slot that is joining; either ends with 0x16 at a slot with an error that cannot be corrected
(R88; its value is the model's choice, log 103). -/
def Obligations.AttentionResults : Prop :=
  ∀ (s : State) (id : Nat) (o : EngOp) (f : TileFields) (g : Granary),
    let n := nodeOfCore o.core
    let slot := f.len.toNat
    let q := elemOr (codeA o.fm f.ea)
    let v := elemOr (codeB o.fm f.eb)
    let rows := (rowRange f (o.shape f.td).rows).getD []
    let dot (i t : Nat) : Val := dotGroups fmtF32 (groupLength q.bytes) (o.shape f.tb).cols .zero
      (s.val o f.ta q i) (s.val o f.tb v t)
    let part (i : Nat) := attpRow v ((List.range (o.shape f.ta).cols).map fun t => s.val o f.ta (.float fmtF32) i t)
      (o.shape f.td).cols (s.val o f.tb v)
    (Running s id o (.atts f) → s.rowsEmpty o f.ta rows = false → s.tilesEmpty o [f.tb] = false → exec (.atts f) s =
      .next ((s.write (rows.flatMap fun i => (List.range (o.shape f.tb).rows).flatMap fun t =>
        o.elemBytes f.td i t 4 (toF32 (mulVal (dot i t) (f32Val f.imm32)).1).toNat)).finishOp id)) ∧
    (Running s id o (.attp f) → s.rowsEmpty o f.ta rows = false → s.tilesEmpty o [f.tb] = false → exec (.attp f) s =
      .next ((s.write (rows.flatMap fun i =>
        ((part i).2.2.zipIdx.flatMap fun e => o.elemBytes f.td i e.2 4 e.1.toNat) ++
          o.elemBytes f.tc i 0 4 (part i).1.toNat ++ o.elemBytes f.tc i 1 4 (part i).2.1.toNat)).finishOp id)) ∧
    (∀ i ∈ ([.gmrg f, .gtake f] : List Instr), Running s id o i → s.heldSlot o slot = some g → 2 ≤ g.check →
      s.tilesEmpty o [f.ta, f.tb] = false → o.sent = 0 →
      exec i s = .next ((s.machineCheck n 0 (f.len.setWidth 64)).faultOp id 0x16 (f.len.setWidth 64) 0 false)) ∧
    (Running s id o (.gmrg f) → s.heldSlot o slot = some g → s.tilesEmpty o [f.ta, f.tb] = false → g.check = 0 → g.state = .opened →
      let page := f.imm32.toNat
      let p := s.readPartial o f
      (page < g.next ∨ g.first + g.count ≤ page →
        exec (.gmrg f) s = .next (s.faultOp id 0x07 (f.imm32.setWidth 64) 0 false)) ∧
      (page = g.next → g.reorder = [] → page < g.first + g.count → exec (.gmrg f) s =
        .next (((((s.modGranary n slot fun _ =>
          { g with merged := if g.have' then mergePartial g.merged p else p, have' := true, next := page + 1,
                   state := if page + 1 = g.first + g.count then .full else .opened }).countOp o f.flag)).finishOp id).kickPorts n)) ∧
      (g.next < page → page < g.first + g.count → (g.reorder.any (·.1 == page)) = false → g.reorder.length < 8 →
        exec (.gmrg f) s = .next (((((s.modGranary n slot fun _ =>
          { g with reorder := g.reorder ++ [(page, p)] }).countOp o f.flag)).finishOp id).kickPorts n)) ∧
      ((g.reorder.any (·.1 == page)) = true →
        exec (.gmrg f) s = .next (s.faultOp id 0x07 (f.imm32.setWidth 64) 0 false))) ∧
    (Running s id o (.gtake f) → o.sent = 0 → s.heldSlot o slot = some g → g.check = 0 →
      (g.state = .failed → exec (.gtake f) s =
        .next ((s.modGranary n slot fun g => { g with take := none }).faultOp id g.failure.1 g.failure.2 0 false)) ∧
      (g.state = .joining → exec (.gtake f) s =
        .next (takeStatus f (s.modOp id fun o => { o with sent := 1, data := [1] }) id 1)) ∧
      (g.state = .full →
        let e := elemOr (codeD o.fm f.ed)
        let out := (List.range g.rows).flatMap fun i => (List.range g.cols).flatMap fun c => o.elemBytes f.td i c e.bytes
          (granaryOut e ((g.merged.acc.getD i []).getD c 0) (g.merged.l.getD i 0))
        exec (.gtake f) s = .next ((takeStatus f (((s.write out).modGranary n slot fun g => g.reopen).modOp id fun o =>
          { o with sent := 1, data := [0] }) id 0).kickPorts n)))

/-- Of a row command that writes one tile nothing changes in memory but the elements of td in its rows, and no
register of any thread changes; one that meets an empty source line waits. A command of a sequence is checked as it
starts: one that fails a check faults at offset 0 with the cause and value of the check, and its memory effect is
none. As a command starts it takes the lane predicates of its thread, and what it does is what it does from the state in
which they have been taken (R314). -/
def Obligations.CommandFramesAndFaults : Prop :=
  (∀ (s t : State) (id : Nat) (o : EngOp) (f : TileFields),
      (∀ i ∈ ([.radd f, .rsub f, .rmul f, .rfma f, .rmin f, .rmax f, .rabs f, .rneg f, .rrcp f, .rrsq f, .rexp2 f, .rlog2 f,
          .rcvt f, .rand f, .ror f, .rxor f, .rshl f, .rshr f, .rsel f, .rbcast f, .ridx f, .rperm f, .rroll f] : List Instr),
        Running s id o i → exec i s = .next t →
        t.slots = s.slots ∧ ∀ a, a ∉ tdBytes s o f → t.byte a = s.byte a) ∧
      (s.tileEmpty o f.ta (s.rowCtx o f).rows = true → Running s id o (.radd f) → exec (.radd f) s = .next s)) ∧
  (∀ (s s' : State) (id : Nat) (o : EngOp) (f : TileFields) (c : Nat) (v : Word),
      ∀ i ∈ ([.radd f, .tmma f, .rsumr f, .rsort f, .ttrn f, .tzero f, .tld f, .cpy f, .gath f, .atts f] : List Instr),
        s.curOp = id → s.op? id = some o → o.state = .running → o.finished = false → o.fence = [] → o.checked = false →
        o.resume = 0 → o.preds.isSome = true → s.queueBusy id o = false → decodeCommand o.word = .ok i → s.checkIssue o i = (s', some (c, v)) →
        exec i s = .next (s'.faultOp id c v 0 true) ∧ (raceAtIssue i = false → (∃ q, o.origin = .seq q) →
          ∃ t, exec i s = .next t ∧ t.mem = s.mem)) ∧
  (∀ (s : State) (o : EngOp) (f : TileFields), s.op? s.curOp = some o → o.state = .running → o.finished = false →
      o.fence = [] → s.queueBusy s.curOp o = false →
      (∃ v, (s.startPreds s.curOp o).op? s.curOp = some { o with preds := some v } ∧
        (o.preds = none → ∀ k : Fin 16, v[k] = s.lanePredNow o k)) ∧
      ∀ i ∈ ([.tmma f, .tmmb f, .tmmd f, .radd f, .rsub f, .rmul f, .rfma f, .rmin f, .rmax f, .rabs f, .rneg f, .rrcp f,
          .rrsq f, .rexp2 f, .rlog2 f, .rcvt f, .rand f, .ror f, .rxor f, .rshl f, .rshr f, .rsel f, .rcmp f, .rbcast f,
          .rsumr f, .rmaxr f, .rscan f, .rsort f, .ridx f, .rperm f, .rroll f, .kand f, .kor f, .kxor f, .knot f, .tld f,
          .tst f, .tsta f, .tzero f, .tcopy f, .ttrn f, .cpy f, .cpya f, .csched f, .cstage f, .gath f, .scat f, .atts f,
          .attp f, .gmrg f, .gtake f, .spire f] : List Instr), exec i s = exec i (s.startPreds s.curOp o))


/-! ### The hardware's own steps -/

/-- The mesh (R67, R69, R70, R72 to R76, R78 to R81). A router sends a packet out of the port it looks up for it: to its own
node, to the next router, into the sending queue of a gateway, or through the Belfry gateway, and a missing port is a machine
check; a node with no route entry uses the default port. An add joins one that it combines with in a sending queue. A
multicast leaves copies on the free branches, and the rest waits in the fork buffer (that a link has one multicast place
downstream is the model's choice, log 115). A frame takes two flits, of the control
class first in every eighth frame and otherwise of the class whose turn it is; the last flit of a packet brings it to the far
end; a frame that fails is sent again, and its 16th failure fails the gateway. The Vestry writes route entries of the standby
bank, reserved bits clear; a swap marker starts the new epoch; once no packet of the old epoch is to cross a link (log 37 reads
R74 so), its drain marker goes over it as a control packet; it counts at the router that it reaches, which reports once it
has them all; and the reports of all routers of a rewrite end it. -/
def Obligations.MeshSteps : Prop :=
  ∀ (s : State) (pk n m port : Nat) (p : Packet) (e : Word) (bank idx : Nat) (i : Instr),
    let v := s.node n
    let port' := s.portTo n p p.dst
    let g := s.gateway n port
    let moves (i : Instr) (q : Packet) (due : Instr) : Prop := ∃ t, exec i s = .next t ∧
      t.packet? pk = some q ∧ Due.event due ∈ t.pending ∧ t.mem = s.mem
    let checks (t : State) (node code : Nat) : Prop :=
      (t.chip (chipOfNode node)).checks = (s.chip (chipOfNode node)).checks ++ [⟨node, code, 0⟩]
    let mark : Payload := .drainMark n port
    let here : Prop := s.packet? pk = some p ∧ p.loc = .router n ∧ p.cls ≠ .multicast ∧ s.overtakes n pk p = false ∧
      ∀ k q, p.payload ≠ .drainMark k q
    let joins : Prop := ∃ t, exec (.packetRoute pk) s = .next t ∧
      t.packet? pk = some { p with loc := .seam n port', left := s.flits p.payload } ∧
      (t.gateway n port').queue = (s.gateway n port').queue ++ [pk] ∧ Due.event (.gatewayFrame pk true) ∈ t.pending
    let copied : Prop := (i = .packetRoute pk ∧ p.loc = .router n ∧ p.cls = .multicast) ∨
      (i = .forkBufferSend n pk ∧ p.loc = .waitingFork n)
    let alone : Prop := s.packet? pk = some p ∧ p.loc = .seam n port ∧ g.failed = false ∧ g.held = [] ∧ g.queue = [pk] ∧
      p.cls ≠ .multicast ∧ 1 ≤ p.left
    (here →
      (port' = 5 → v.inReset = false → moves (.packetRoute pk) { p with loc := .delivered } (arrivalEvent s pk p.payload)) ∧
      (port' = 4 → n = belfryOf n → joins) ∧
      (neighbour n port' = some m → (s.node m).inReset = false →
        (dieOfNode m = dieOfNode n → moves (.packetRoute pk) { p with loc := .router m } (.packetRoute pk)) ∧
        (dieOfNode m ≠ dieOfNode n →
          ((∀ b, p.payload = .request b → ∀ k ∈ (s.gateway n port').queue, ∀ q a x y, s.packet? k = some q →
              q.payload = .request a → s.access? a = some x → s.access? b = some y → addsCombine x y = false) → joins) ∧
          (∀ b k r q a x y, p.payload = .request b → (s.gateway n port').queue = k :: r → s.packet? k = some q →
              q.payload = .request a → s.access? a = some x → s.access? b = some y → a ≠ b → addsCombine x y = true →
            ∃ t, exec (.packetRoute pk) s = .next t ∧ t.packet? pk = none ∧ t.access? a = some
              { x with req := sumAdds x.req y.req, partners := x.partners ++ [b] ++ y.partners, gate := n }))) ∧
      (port' < 4 → neighbour n port' = none → ∃ t, exec (.packetRoute pk) s = .next t ∧ t.packet? pk = none ∧ checks t n 2)) ∧
    (v.banks = [] →
      (p.sexton = false → chipOfNode p.dst = chipOfNode n → port' = defaultPort n p.dst) ∧
      (p.sexton = true → n = belfryOf n → port' = 4)) ∧
    (s.packet? pk = some p → pk < s.nextId → (∀ k q, p.payload ≠ .drainMark k q) → copied → (pk ∉ v.forks → s.behind n pk p = false) →
      (∀ a, p.dsts = [(n, a)] → s.portTo n p n = 5 → s.branchFree n pk 5 = true →
        ∃ t id, exec i s = .next t ∧ t.packet? pk = none ∧
          (id, { p with dst := n, payload := p.payload.part [a], via := none, loc := .delivered }) ∈ t.packets ∧
          t.mem = s.mem) ∧
      (∀ b, s.branches n p = [b] → s.branchFree n pk b.1 = false →
        exec i s = .next (s.modPacket pk fun q => { q with loc := .waitingFork n })) ∧
      (∀ b c, s.branches n p = [b, c] → s.branchFree n pk b.1 = true → s.branchFree n pk c.1 = false → pk ∉ v.forks →
        v.forks.length < 4 → ∃ t, exec i s = .next t ∧ (t.node n).forks = v.forks ++ [pk] ∧
          t.packet? pk = some { p with dsts := c.2, via := none, loc := .waitingFork n })) ∧
    (∀ frame turn w k,
      (frame % 8 = 0 → flitOf w 4 = some k → ∃ r u, composeFrame frame turn w = (k :: r, u)) ∧
      (∀ j, j < 5 → frame % 8 ≠ 0 → flitOf w ((turn + j) % 5) = some k → (∀ h, h < j → flitOf w ((turn + h) % 5) = none) →
        ∃ r u, composeFrame frame turn w = (k :: r, u))) ∧
    (alone →
      (port < 4 → p.left ≤ 2 → neighbour n port = some m → (s.node m).inReset = false →
        moves (.gatewayFrame pk true) { p with loc := .router m, via := none, left := 1 } (.packetRoute pk)) ∧
      (2 < p.left → moves (.gatewayFrame pk true) { p with left := p.left - 2 } (.gatewayFrame pk true)) ∧
      (g.failures < 15 → ∃ t, exec (.gatewayFrame pk false) s = .next t ∧ t.packet? pk = some p ∧
        (t.gateway n port).failures = g.failures + 1 ∧ Due.event (.gatewayFrame pk true) ∈ t.pending) ∧
      (15 ≤ g.failures → ∃ t, exec (.gatewayFrame pk false) s = .next t ∧ (∀ x ∈ t.packets, x.2.loc ≠ .seam n port) ∧
        (t.gateway n port).failed = true ∧ checks t n 3 ∧
        (port < 4 → neighbour n port = some m → (t.gateway m (opposite port)).failed = true)) ∧
      (∀ k, port = 4 → p.left = 1 → p.sexton = true → p.payload = .drained k → chipOfNode k = chipOfNode n →
        (s.nodes.map (·.1)).Nodup →
        (∀ x ∈ s.nodes, chipOfNode x.1 = chipOfNode k → x.2.swapping = true → x.1 = k ∨ x.2.reported = true) →
        ∃ t, exec (.gatewayFrame pk true) s = .next t ∧ t.packet? pk = none ∧
          ∀ x, chipOfNode x = chipOfNode k → (t.node x).swapping = false)) ∧
    (bank < 2 → idx < 64 →
      ((v.swapping = false ∧ bank = (v.epoch + 1) % 2) ∨ (∀ x ∈ s.parishes, x.2.present = false) →
        ∃ t, exec (.routeTableWrite n bank idx e) s = .next t ∧
          AMap.get 0 (t.node n).banks (64 * bank + idx) = e &&& ~~~(0x3FFFFF : Word) ∧
          ∀ k, k ≠ 64 * bank + idx → AMap.get 0 (t.node n).banks k = AMap.get 0 v.banks k) ∧
      (v.swapping = true ∨ bank ≠ (v.epoch + 1) % 2 → (∃ x ∈ s.parishes, x.2.present = true) →
        exec (.routeTableWrite n bank idx e) s = .next s)) ∧
    (v.swapping = false → ∃ t, exec (.swapMarker n) s = .next t ∧
      t.node n = { v with epoch := v.epoch + 1, swapping := true, drained := [], reported := false } ∧
      ∀ q ∈ meshPorts n, Due.event (.drainMarker n q) ∈ t.pending ∧
        ∀ k, neighbour n q = some k → Due.event (.drainMarker k (opposite q)) ∈ t.pending) ∧
    (v.swapping = true → port ∉ v.drained → port ∈ meshPorts n → (∀ x ∈ s.packets, x.2.payload ≠ mark) →
      let early := ∃ m, neighbour n port = some m ∧ (s.node m).epoch < v.epoch ∧ (s.node m).harvested = false
      (s.oldComing n port v.epoch = true ∨ early →
        exec (.drainMarker n port) s = .next (s.timer (n * 16) 4 (.event (.drainMarker n port)))) ∧
      (s.oldComing n port v.epoch = false → ¬ early → ∃ t q, exec (.drainMarker n port) s = .next t ∧
        (s.nextId, q) ∈ t.packets ∧ q.payload = mark ∧ q.cls = .control ∧ t.node n = v ∧
        (port ≠ 4 → (∀ m, neighbour n port = some m → dieOfNode m = dieOfNode n) →
          q.loc = .router n ∧ Due.event (.packetRoute s.nextId) ∈ t.pending) ∧
        (port = 4 → q.loc = .seam n 5 ∧ Due.event (.gatewayFrame s.nextId true) ∈ t.pending) ∧
        (port ≠ 4 → neighbour n port = some m → dieOfNode m ≠ dieOfNode n →
          q.loc = .seam m (opposite port) ∧ Due.event (.gatewayFrame s.nextId true) ∈ t.pending))) ∧
    (s.packet? pk = some p → p.loc = .router n → p.payload = mark → v.swapping = true → port ∉ v.drained →
      ∃ t, exec (.packetRoute pk) s = .next t ∧ t.node n = { v with drained := NSet.insert v.drained port } ∧
        ((∃ q ∈ meshPorts n, q ∉ NSet.insert v.drained port) → t.packets = (s.dropPacket pk).packets) ∧
        ((∀ q ∈ meshPorts n, q ∈ NSet.insert v.drained port) →
          ∃ q, t.packets = (s.dropPacket pk).packets ++ [(s.nextId, q)] ∧
            q.payload = .drained n ∧ q.cls = .control ∧ q.sexton = true ∧ q.loc = .router n ∧
            Due.event (.packetRoute s.nextId) ∈ t.pending))

/-- Resets and scrubbing (R57, R85 to R88, R443, R444). A cluster reset leaves its nodes in reset until its release, with
their routes; where no counted write and no increment from outside is under way to them (log 39), their storage is zero,
without errors, and their lines full. A scrub of a core or of a channel goes on to the next line, corrects what
it can and counts it, and reports an uncorrectable error of the line to the Vestry. Power-on reset and every loss of power
leave a chip with zero storage, full lines, free Granary slots and free thread slots. -/
def Obligations.ResetAndScrub : Prop :=
  ∀ (s : State) (c : Cluster) (core chip ch n a : Nat),
    let node := (homeOfByte (channelLine chip ch 0)).1
    let line := coreByte core (128 * (s.core core).scrubLine)
    let chLine := channelLine chip ch (s.node node).scrubLine
    let checked (t : State) (pa storage a : Nat) : Prop := (t.chip (chipOfNode (counterOf pa / 16))).checks =
      (s.chip (chipOfNode (counterOf pa / 16))).checks ++ [⟨counterOf pa / 16, storage, BitVec.ofNat 64 a⟩]
    let counted (t : State) (pa n : Nat) : Prop :=
      (t.core (counterOf pa)).corrected = (s.core (counterOf pa)).corrected + n
    let erases (i : Instr) (off : Bool) : Prop := chip < 2 ^ 18 → ∃ t, exec i s = .next t ∧ t.chip chip = { off := off } ∧
      (∀ k o, chipOfCore k = chip → o < 2 ^ 16 →
        t.byte (coreByte k o) = 0 ∧ t.lineEmpty (lineOf (coreByte k o)) = false) ∧
      (∀ h < 2 ^ 40, t.byte (hbmByte chip h) = 0) ∧
      (∀ n g, chipOfNode n = chip → (t.granary n g).state = .free) ∧
      ∀ u, chipOfThread u = chip → (t.slot u).state = .free
    (∃ t, exec (.clusterReset c) s = .next t ∧ (∀ n ∈ clusterNodes c, (t.node n).inReset = true ∧
        (t.node n).harvested = (s.node n).harvested ∧ (t.node n).banks = (s.node n).banks) ∧
      ((∀ e ∈ s.accesses, s.countedAccess e.2 = true → clusterHas c e.2.dst = true → clusterHas c e.2.src = true) →
        ∀ k o, clusterHas c (nodeOfCore k) = true → o < 2 ^ 16 → coreByte k o < hbmBase →
          t.byte (coreByte k o) = 0 ∧ t.lineEmpty (lineOf (coreByte k o)) = false ∧
          AMap.get 0 t.errors (coreByte k o / 8) = 0)) ∧
    (∃ t, exec (.clusterRelease c) s = .next t ∧ (∀ n ∈ clusterNodes c, t.node n = { s.node n with inReset := false }) ∧
      ∀ n, n ∉ clusterNodes c → t.node n = s.node n) ∧
    (s.errors = [] →
      (∃ t, exec (.scrub core .clean) s = .next t ∧ t.chips = s.chips ∧
        t.core core = { s.core core with scrubLine := ((s.core core).scrubLine + 1) % 384 }) ∧
      (line < hbmBase → (s.core core).scrubLine < 384 →
        (∃ t, exec (.scrub core (.corrected n)) s = .next t ∧ t.chips = s.chips ∧ t.core core = { s.core core with
          scrubLine := ((s.core core).scrubLine + 1) % 384, corrected := (s.core core).corrected + n }) ∧
        (lineOf a = lineOf line → ∃ t, exec (.scrub core (.uncorrectable a)) s = .next t ∧
          (t.chip (chipOfNode (nodeOfCore core))).checks = (s.chip (chipOfNode (nodeOfCore core))).checks ++
            [⟨nodeOfCore core, 0, BitVec.ofNat 64 a⟩])) ∧
      (∀ f, ∃ t, exec (.channelScrub chip ch f) s = .next t ∧
        (t.node node).scrubLine = ((s.node node).scrubLine + 1) % 2 ^ 24 ∧
        (f = .clean → t.chips = s.chips ∧ t.cores = s.cores) ∧ (f = .corrected n → counted t chLine n) ∧
        (f = .uncorrectable a → lineOf a = lineOf chLine → checked t chLine 1 a))) ∧
    (∀ w k, s.errors = [(w, k)] → w ∈ wordsIn line 128 →
      (k = 1 → ∃ t, exec (.scrub core .clean) s = .next t ∧ t.errors = [] ∧ counted t line 1) ∧
      (k = 2 → line < hbmBase → ∃ t, exec (.scrub core .clean) s = .next t ∧ t.errors = s.errors ∧ checked t line 0 (8 * w))) ∧
    erases (.powerOnReset chip) false ∧ erases (.powerLoss chip) true ∧ erases (.moduleOverTemperature chip) true

/-- Boot and the host's registers (R415, R416, R430, R431, R436 to R440). The boot ROM stops at the stage and with the code
of its first failure, where keys that the fuses do not bind count as a failed first signature (log 10), and otherwise
leaves the harvested nodes named and 1,843 tolls for each die; the gateways, ports and host link train, and once every port
has trained or is reported boot goes to stage 6 and then 7 (log 67); a MEASUREMENTS request is answered with both
signatures over its transcript (log 10); and a register write acts on a page that is live, the ring registers only before
the parish has accepted a command. -/
def Obligations.BootSteps : Prop :=
  ∀ (s : State) (chip port n speed width index : Nat) (b : BootInput) (l : TrainingInput) (dead : List Nat) (bs nonce : List Byte)
    (w : Word),
    let c := s.chip chip
    let p := s.parish n
    let ends (stage code : Nat) : Prop := ∃ t, exec (.bootRom chip b) s = .next t ∧ (t.chip chip).stage = stage ∧
      (t.chip chip).failure = code
    let self := b.selfTestOk = true
    let flash := self ∧ b.flashReadable = true
    let form := flash ∧ b.wellFormed = true
    let rsa := form ∧ keysBound chip b = true ∧ Crypto.rsaVerifies b.rsaKey b.signed b.rsaSignature = true
    let slh := rsa ∧ Crypto.slhVerifies b.slhKey b.signed b.slhSignature = true
    let fuse := slh ∧ b.fuseMapOk = true
    let v := Nat.min (s.port chip port).offers l.peerVersion
    let others : Prop := ∀ i, i < 64 → i ≠ port → (s.port chip i).trained = true ∨ i ∈ c.portReports
    let at' (off : Nat) : Instr := .registerWrite chip (256 * n + off) w
    (c.off = false → c.stage = 0 →
      (¬ self → ends 1 8) ∧ (self → ¬ flash → ends 1 4) ∧ (flash → ¬ form → ends 1 3) ∧ (form → ¬ rsa → ends 1 1) ∧
      (rsa → ¬ slh → ends 1 2) ∧ (slh → ¬ fuse → ends 2 5) ∧ (fuse → b.routable = false → ends 3 6) ∧
      (fuse → b.routable = true → ends 4 0 ∧ ∃ t, exec (.bootRom chip b) s = .next t ∧
        (t.chip chip).vestryImage = b.signed ∧ (∀ d < 8, (t.die (8 * chip + d)).tollCount = 1843) ∧ ∀ k ∈ b.harvested, (t.node (chip * 24576 + k)).harvested = true)) ∧
    (c.stage = 4 → c.failure = 0 → exec (.gatewayTraining chip dead) s = .next
      (if dead = [] then (s.modChip chip fun c => { c with stage := 5 }).portsDone chip
        else s.modChip chip fun c => { c with failure := 7 })) ∧
    (c.stage = 5 → ((∃ i < 64, (s.port chip i).trained = false ∧ i ∉ c.portReports) → s.portsDone chip = s) ∧
      ((∀ i < 64, (s.port chip i).trained = true ∨ i ∈ c.portReports) →
        s.portsDone chip = (s.modChip chip fun c => { c with stage := 6 }).push (.ready chip))) ∧
    (c.stage = 6 → s.take (.ready chip) State.notice = .done (s.modChip chip fun c => { c with stage := 7 })) ∧
    (c.off = false → ∃ t, exec (.hostLinkTraining chip speed width) s = .next t ∧
      (speed ∈ [2, 5, 8, 16, 32, 64, 128] → width ∈ [4, 8, 16] →
        (t.chip chip).linkSpeed = speed ∧ (t.chip chip).linkWidth = width) ∧
      (speed ∉ [2, 5, 8, 16, 32, 64, 128] ∨ width ∉ [4, 8, 16] → (t.chip chip).linkSpeed = 0)) ∧
    (port < 64 → c.trains = true → ∃ t, exec (.linkTraining chip port l) s = .next t ∧
      (l.sessionOk = true → 2 ≤ v → (t.port chip port).trained = true ∧ (t.port chip port).version = v ∧
        (t.port chip port).key0 = Config.linkKey (linkSecret chip l) chip port ∧ (t.port chip port).generation = 0) ∧
      (l.sessionOk = false ∨ v < 2 → (t.port chip port).trained = false ∧ (t.chip chip).portReports = c.portReports ++ [port]) ∧
      (c.stage = 5 → others → (t.chip chip).stage = 6 ∧ Due.ready chip ∈ t.pending)) ∧
    (2 ≤ c.stage → index = 2 ∧ bs = c.vestryImage ∨ index = 3 ∧ bs = c.fuseMap ∨
        16 ≤ index ∧ s.pageLive chip (index - 16) = true ∧ bs = (s.parish (index - 16)).image →
      let m := Config.measurement index bs
      let h := Config.transcriptHash nonce index m
      ∃ t, exec (.measurements chip { index, nonce }) s = .next t ∧ (t.chip chip).responses = c.responses ++
        [(index, m, Config.rsaSign (Config.deviceKeys chip).1 h, Config.slhSign (Config.deviceKeys chip).2 h)]) ∧
    (c.off = true → ∀ off, exec (.registerWrite chip off w) s = .next s) ∧
    (c.off = false → n < 128 → (s.pageLive chip n = false → exec (at' 0) s = .next s ∧ exec (at' 0x10) s = .next s) ∧
      (s.pageLive chip n = true →
        exec (at' 0x10) s = exec (.qtailWrite n w) s ∧ exec (at' 0x20) s = exec (.jheadWrite n w) s ∧
        (p.jtail = 1 → exec (at' 0) s = .next (s.modParish n fun p => { p with qbase := w }) ∧
          exec (at' 8) s = .next (s.modParish n fun p => { p with qsize := w &&& 0xF }) ∧
          exec (at' 0x30) s = .next (s.modParish n fun p => { p with cbase := w })) ∧
        (p.jtail ≠ 1 → exec (at' 0) s = .next s ∧ exec (at' 8) s = .next s ∧ exec (at' 0x30) s = .next s))) ∧
    (c.off = false → exec (.registerWrite chip 0x8008 w) s = .next (s.modChip chip fun c => { c with pimg := w })) ∧
    (c.off = false → w.getLsbD 8 = true →
      exec (.registerWrite chip 0x8010 w) s = exec (.parishCreate chip (w.extractLsb' 0 7).toNat) s) ∧
    (c.off = false → w.getLsbD 8 = false → w.getLsbD 9 = true →
      exec (.registerWrite chip 0x8010 w) s = exec (.parishDestroy chip (w.extractLsb' 0 7).toNat) s)

/-- Changes of the object table and the caches (R41, R45 to R49, R113, R449). A change that has arrived at a chip, and is the
oldest there, is applied, unless the reply store has no place for its answer and it gets a busy notice; it empties the
chip's caches of the object, and is acknowledged once the accesses admitted before are done, and no thread that a change of
the entry found parked on a moving extent of the object still is (log 58 reads R47 so); the last acknowledgement completes it. An entry that is freed takes the next generation, and object 1 never changes.
What waits on a moving extent is tried again. A fetched table entry enters its cache. A thread whose fetch has missed asks
for its line as a read; the line enters the code cache as it lands, and the thread may issue. -/
def Obligations.TableSteps : Prop :=
  ∀ (s : State) (chip chg node key thread : Nat),
    let v : ChangeState := AMap.get {} s.changes chg
    let obj := v.change.obj
    let c := s.slot thread
    let here := chipOfThread thread
    let start := c.pc &&& ~~~(0x7F : Word)
    (s.changePacket chip chg = none → exec (.tableChange chip chg) s = .next s) ∧
    (∀ pk acc a, s.changePacket chip chg = some (pk, acc) → s.changeRefused chip acc = some a →
      exec (.tableChange chip chg) s = .next (s.sendBusy pk acc a (vestryNode chip)).pokeForks) ∧
    (∀ pk acc, s.changePacket chip chg = some (pk, acc) → s.changeRefused chip acc = none → pk < s.nextId →
      (∀ h r, (s.chip chip).changes = h :: r → h ≠ chg → chg ∈ r → exec (.tableChange chip chg) s = .next s) ∧
      (∀ r, (s.chip chip).changes = chg :: r → ∃ t, exec (.tableChange chip chg) s = .next t ∧ (t.chip chip).changes = r ∧
        chip ∈ (AMap.get {} t.changes chg).applied ∧
        (∀ k ∈ (s.takeChange chip pk acc).heldOn chip v.change, k ∈ (AMap.get {} t.changes chg).held) ∧ Due.event (.tableChangeAcknowledge chip chg) ∈ t.pending ∧
        t.packet? pk = none ∧
        (∀ e, v.change = .entry obj e → obj ≠ 1 →
          (e.state ≠ 0 ∨ (s.obj chip v.parish obj).state = 0 → t.obj chip v.parish obj = e) ∧
          (e.state = 0 → (s.obj chip v.parish obj).state ≠ 0 → t.obj chip v.parish obj =
            { e with w0 := packObj ((s.obj chip v.parish obj).gen + 1) 0 e.isParcel e.length })) ∧
        (∀ e, v.change = .entry 1 e → t.objs = s.objs) ∧
        (∀ k, chipOfNode k = chip → (∀ e, Cached.object (objKey v.parish chip obj) e ∉ (t.node k).cache) ∧
          ∀ x ∈ (t.node k).codeCache, x.1 ≠ objKey v.parish chip obj) ∧
        (∀ k, chipOfCore k = chip → ∀ x ∈ (t.core k).handles, x.1 ≠ objKey v.parish chip obj))) ∧
    (chip ∈ v.applied → chip ∉ v.acknowledged →
      ((∃ id a, id ∈ v.waitFor ∧ s.access? id = some a ∧ chipOfNode a.src = chip) →
        exec (.tableChangeAcknowledge chip chg) s = .next s) ∧
      ((∀ id ∈ v.waitFor, s.access? id = none) →
        (∃ k ∈ v.held, chipOfThread k = chip ∧ (s.slot k).state.movingOn? = some obj) →
        exec (.tableChangeAcknowledge chip chg) s =
          .next (s.timer (chip * 24576 * 16) 4000 (.event (.tableChangeAcknowledge chip chg)))) ∧
      ((∀ id ∈ v.waitFor, s.access? id = none) →
        (∀ k ∈ v.held, chipOfThread k = chip → (s.slot k).state.movingOn? ≠ some obj) →
        ((∃ k ∈ v.chips, k ≠ chip ∧ k ∉ v.acknowledged) → exec (.tableChangeAcknowledge chip chg) s = .next
          { s with changes := AMap.set {} s.changes chg { v with acknowledged := NSet.insert v.acknowledged chip } }) ∧
        ((∀ k ∈ v.chips, k = chip ∨ k ∈ v.acknowledged) → (∀ e ∈ s.transits, e.1 ≠ v.transit) →
          exec (.tableChangeAcknowledge chip chg) s = .next { s with changes := AMap.set {} s.changes chg {} }))) ∧
    (∃ t, exec (.movingExtentRecheck thread) s = .next t ∧ t.mem = s.mem ∧
      (c.state.movingOn?.isSome = true ∨ c.state.reading?.isSome = true → Due.again thread ∈ t.pending) ∧
      (c.state = .parked .code → Due.event (.codeCacheFill thread) ∈ t.pending) ∧
      ∀ pk p id a, (pk, p) ∈ s.packets → p.payload = .request id → p.loc = .waitingExtent → s.access? id = some a →
        a.thread = thread → Due.event (.reeveOperation pk false) ∈ t.pending) ∧
    (∀ k e, k ∈ (s.node node).fetching →
      (k = 2 * key → AMap.get {} s.objs key = e → ∃ t, exec (.nodeCacheFetch node k) s = .next t ∧
        Cached.object key e ∈ (t.node node).cache ∧ k ∉ (t.node node).fetching) ∧
      (k = 2 * key + 1 → ∃ t, exec (.nodeCacheFetch node k) s = .next t ∧
        Cached.extent key (AMap.get 0 s.exts key) ∈ (t.node node).cache ∧ k ∉ (t.node node).fetching)) ∧
    (c.state = .parked .code →
      (∀ w, s.fetch thread = .word w →
        exec (.codeCacheFill thread) s = .next (s.modSlot thread fun c => { c with state := .ready })) ∧
      (∀ k, s.fetch thread = .trap k → exec (.codeCacheFill thread) s = .next (s.trapIn thread k c.pc)) ∧
      (s.fetch thread = .miss → (∀ e ∈ s.accesses, e.2.reader ≠ .fill thread) →
        (s.outr thread < Config.requestWindow → ∀ target,
          s.checkResidency here c.parish (handleObj start) (handleOff start) c.pc false = .ok target →
          ∃ t, exec (.codeCacheFill thread) s = .next t ∧ Requested (s.touch thread start) t
            { s.newAccess thread (.load 128) target start false with reader := .fill thread }) ∧
        (Config.requestWindow ≤ s.outr thread → exec (.codeCacheFill thread) s = .next s))) ∧
    (∀ pk p id a, Delivered s pk p (.reply id) → s.access? id = some a → a.reader = .fill thread → a.thread = thread →
      a.trap = none → (c.state = .parked .code) → ∃ t, exec (.replyLands pk) s = .next t ∧
        (objKey a.parish here (handleObj a.addr), handleOff a.addr / 128, a.value) ∈ (t.node (nodeOfThread thread)).codeCache ∧
        Due.event (.codeCacheFill thread) ∈ t.pending ∧ t.mem = s.mem)

/-- Tasks (R104, R105, R132, R173 to R176, R178, R379). A submission is refused with its code, accepted as a task, or waits
for an entry; a share is admitted, and those that do not fit are passed over and marked; an eligible member starts with the
context of its record; a released copy joins its Carter unchecked, after those that stand before it; a task retires, or ends
failed-partial with a report, when its conditions hold. The scope of a retirement's release is the outermost level's, and
sys where there is none, and the member that halted first stands for the task as its writer (the model's choices, logs 100
and 117); a board reads a record and its schedule in the step that asks for them (the model's choice, log 116); the checks of
a record, the entries of a board in use and the context of a started member are as logs 50 to 52 and 54 read the spec. -/
def Obligations.TaskSteps : Prop :=
  ∀ (s : State) (sub node task idx k : Nat),
    let free (d : Nat) : Prop := d ≠ 0 ∧ d ≠ 15 ∧ shadowReg (BitVec.ofNat 4 d) = false
    let v := s.submission sub
    let s1 := (s.readSchedule v).1
    let sched := (s.readSchedule v).2
    let code := s1.launchCode v sched
    let use := s1.boardUse (nodeOfCore (placeCore v.chip v.home))
    let d := (s.node node).dependants
    let read := s.readWords (s.submission k).chip (s.submission k).parish (s.submission k).record 64
    let dv : Submission := { s.submission k with words := read.2.getD [] }
    let s2 := (read.1.readSchedule dv).1
    let dsched := (read.1.readSchedule dv).2
    let dcode := s2.launchCode dv dsched
    let duse := s2.boardUse (nodeOfCore (placeCore dv.chip dv.home))
    let t := s.task task
    let count (st : MemberState) : Nat := (t.members.filter fun m => decide (m.state = st)).length
    let done : Prop := t.live = true ∧ t.members ≠ []
    (∀ u, v.words ≠ [] → v.producer = none → v.thread = some u → v.dest < 16 →
      (code ≠ 0 → exec (.submission sub) s = .next
        (((s1.setRegOf u (BitVec.ofNat 4 v.dest) (BitVec.ofNat 64 code)).finishOf u).setSubmission sub {})) ∧
      (code = 0 → use < Config.boardEntries → s1.outOfTurn v = false → ∃ t, exec (.submission sub) s = .next t ∧
        t.submission sub = {} ∧ t.task s1.nextId = s1.taskOf v (sched.getD []) ∧ (t.slot u).state = .ready ∧
        (t.slot u).pc = (s.slot u).pc + 4 ∧ (free v.dest → t.regOf u (BitVec.ofNat 4 v.dest) = 0)) ∧
      (code = 0 → Config.boardEntries ≤ use ∨ s1.outOfTurn v = true →
        exec (.submission sub) s = .next (s1.setSubmission sub { v with waiting := true }))) ∧
    (d = [] → exec (.dependantSubmission node) s = .next s) ∧
    (∀ r, d = k :: r → s.recordEmpty dv.chip dv.record = true →
      exec (.dependantSubmission node) s = .next (s.timer (node * 16) 4000 (.event (.dependantSubmission node)))) ∧
    (∀ r p, d = k :: r → s.recordEmpty dv.chip dv.record = false → dv.thread = none → dv.command = none →
      dv.producer = some p →
      (dcode ≠ 0 → ∃ t, exec (.dependantSubmission node) s = .next t ∧ t.submission k = {} ∧
        Due.notice (.refused dv.record p dcode dv.producerNode) dv.parish (chipOfNode dv.producerNode) ∈ t.pending ∧
        (t.node node).dependants = d.filter (· != k)) ∧
      (dcode = 0 → duse < Config.boardEntries → s2.outOfTurn dv = false →
        ∃ t, exec (.dependantSubmission node) s = .next t ∧
          t.submission k = {} ∧ t.task s2.nextId = s2.taskOf dv (dsched.getD [])) ∧
      (dcode = 0 → Config.boardEntries ≤ duse ∨ s2.outOfTurn dv = true →
        exec (.dependantSubmission node) s = .next s2)) ∧
    (s.admissible node = [] → exec (.admission node) s = .next s) ∧
    (∀ id tk h, s.admissible node = [(id, tk, h)] →
      (s.shareFits tk node = true → ∃ t, exec (.admission node) s = .next t ∧ Due.event (.dispatch node) ∈ t.pending ∧
        (((t.task id).shares.find? fun h => h.node == node).map (·.state)) = some .admitted) ∧
      (s.fitsClaimed node (id, tk, h) = true → exec (.admission node) s =
        .next (((s.claimed tk node).admitShare id node).event (.admission node))) ∧
      (s.fitsClaimed node (id, tk, h) = false → exec (.admission node) s =
        .next ((s.modTask id fun t => setShare t node fun h => { h with passedOver := true }).event
          (.preEmption node)))) ∧
    (∀ id tk h j tj hj, s.ranked node (s.admissible node) = [(id, tk, h), (j, tj, hj)] → id ≠ j →
      s.fitsClaimed node (id, tk, h) = false → s.shareFits tj node = true → ∃ t, exec (.admission node) s = .next t ∧
        Due.event (.preEmption node) ∈ t.pending ∧
        (((t.task j).shares.find? fun h => h.node == node).map (·.state)) = some .admitted ∧
        (((t.task id).shares.find? fun h => h.node == node).map (·.passedOver)) = some true) ∧
    (∀ id tk h m i, s.sharesOf node (fun h => decide (h.state = .running)) = [] →
      s.sharesOf node (fun h => decide (h.state = .admitted)) = [(id, tk, h)] → tk.members = [m] → m.node = node →
      m.state = .admitted →
      (s.eligible tk node = false → exec (.dispatch node) s = .next s) ∧
      (s.eligible tk node = true → s.startSlot m = some i → ∃ u, exec (.dispatch node) s = .next u ∧
        let th := m.core * 8 + i
        let c := u.slot th
        c.state = .ready ∧ c.pc = tk.entry ∧ c.pl = tk.supervisor ∧ c.wf = false ∧ c.wbase = BitVec.ofNat 64 m.wbase ∧
        c.wsize = BitVec.ofNat 64 tk.wsize ∧ c.task = id ∧ c.member = 0 ∧ c.parish = tk.parish ∧
        u.regOf th 11 = tk.record ∧ u.regOf th 12 = tk.fm ∧ u.regOf th 13 = tk.sa ∧ u.regOf th 14 = tk.sb ∧
        (∀ r : Field4, 1 ≤ r.toNat → r.toNat ≤ 10 → u.regOf th r = 0) ∧
        (u.task id).members = [{ m with state := .running, thread := th }])) ∧
    (∀ e, t.schedule[idx]? = some e → e.released = true → e.done = false → e.op = 0 →
      (t.behind e.stage idx = true →
        exec (.copyScheduleEntry task idx) s = .next (s.event (.copyScheduleEntry task idx))) ∧
      (t.behind e.stage idx = false → ∃ u o, exec (.copyScheduleEntry task idx) s = .next u ∧ (s.nextId, o) ∈ u.ops ∧
        o.word = entryWord e ∧ o.core = e.core ∧ o.task = task ∧ o.block = e.source ∧ o.checked = false ∧
        o.thread = t.entryThread e ∧ ((u.task task).schedule[idx]?).map (·.op) = some s.nextId)) ∧
    (done → (∀ m ∈ t.members, m.state = .halted) → t.opEnded = false → (∀ o ∈ s.ops, o.2.task ≠ task) →
      t.entriesPending = false → s.busyWrites task = false → ∃ u, exec (.taskRetirement task) s = .next u ∧
        u.task task = {} ∧ (∀ h ∈ t.shares, task ∉ (u.node h.node).board) ∧
        (∀ p q, t.command = some (p, q) → Due.event (.commandCompletion p q) ∈ u.pending) ∧
        (t.flag ≠ 0 → t.flag.getLsbD 62 = false →
          s.reaches (chipOfNode t.homeNode) (placeChip (chipOfNode t.homeNode) t.flag) = true →
          ∃ a ∈ u.accesses, a.2.req = .flagAdd 1 ∧ a.2.addr = t.flag ∧
            a.2.info.stamp = joinStamps (t.releases.map fun st =>
              { st with scope := (t.levels.getLast?.map (·.scope)).getD 4 }))) ∧
    (done → (∀ m ∈ t.members, m.state = .halted ∨ m.state = .ended) → t.opEnded = true ∨ (∃ m ∈ t.members, m.state = .ended) →
      s.busyOps task = false → ∃ u, exec (.taskEndFailedPartial task) s = .next u ∧ u.task task = {} ∧
        Due.notice (.report t.record (count .halted) (count .ended) t.firstCause t.homeNode t.command) t.parish
          (chipOfNode t.homeNode) ∈ u.pending)

/-- Saving, disposing of and resuming contexts, pre-emption and tolls (R181 to R186, R369, R372, R443). A slot whose accesses
are done is written to a record and freed, or tries again when a ring refuses; a context disposed of with 1 resumes with
the registers of its record, and one disposed of with 2 ends; for the first share, in the board's order, that finds no room
and for which a slot can go, a task of lower priority gives up a slot on each core that is short of room; and a free toll
goes to the first waiting node that it reaches, is withdrawn as it passes the station while there are more than the count,
and goes back to its ring after 256 idle cycles or, with demand marked, once it has been held for 64 µs. Where a toll stands
on the ring, and that it moves one node each mesh cycle from where it was put, is the model's choice (logs 9, 61 and 96); a
ring that refuses, and the record's words, are as logs 55 and 56 read the spec. -/
def Obligations.SaveAndTollSteps : Prop :=
  ∀ (s : State) (th node chip parish record die count : Nat),
    let c := s.slot th
    let saves (i : Instr) (r : Nat) (pc : Word) (kept : Option Wait) : Prop :=
      (s.released th = false → exec i s = .next (s.timer (coreOfThread th) 4 (.event (.contextSave th)))) ∧
      (s.released th = true →
        (∀ h pa s', s.takeRecord (chipOfThread th) c.parish = some (h, pa, s') → ∃ t k, exec i s = .next t ∧
          (t.slot th).state = .free ∧ AMap.get {} t.saved pa = k ∧ k.state = .held ∧ k.pc = pc ∧ k.savedIn = kept ∧
          k.savedFrom = th ∧ k.record = h ∧ k.x = c.x ∧ t.recWord pa 0x010 = pc) ∧
        (s.takeRecord (chipOfThread th) c.parish = none → exec i s = .next ((s.modSlot th fun c =>
          { c with state := .saving r, pc := pc, preempt := none, savedIn := kept }).timer (coreOfThread th) 4000
            (.event (.saveRingRetry th)))))
    let saved (r : Nat) : Prop := saves (.contextSave th) r c.pc c.savedIn ∧ saves (.saveRingRetry th) r c.pc c.savedIn
    let toll := (s.node node).toll
    let d := dieOfNode node
    let given (i : Instr) : Prop := let u := s.settled d
      ∃ t, exec i s = .next t ∧ (t.node node).toll.held = false ∧
        (t.die d).free = (u.die d).free ++ [(node % 3072 + 1, u.dieTime d)]
    let sets (i : Instr) (n : Nat) : Prop := let u := s.settled die
      ∃ t, exec i s = .next t ∧ (t.die die).tollCount = n ∧ (t.die die).countFrom = u.dieTime die ∧
        (t.die die).free.length = Nat.max (u.die die).free.length (n - u.tollsHeld die)
    let l := s.ranked node (s.admissible node)
    let meets (p : Nat × Nat) (k : Nat) : Nat := tollMeets p (k % 3072) ((s.node k).toll.waits.getD (s.dieTime d))
    (∀ r, c.state = .saving r → saved r) ∧
    (∀ r, c.state = .ready → c.preempt = some r → saves (.contextSave th) r c.pc none) ∧
    (∀ r l, c.state = .parked (.line l) → c.preempt = some r → saves (.contextSave th) r c.pc (some (.line l))) ∧
    (∀ r op, c.state = .parked (.command op) → c.preempt = some r → saves (.contextSave th) r c.pc (some (.command op))) ∧
    (∀ r op o, c.state = .parked (.queue op) → c.preempt = some r → s.op? op = some o → o.origin = .tx →
      saves (.contextSave th) r c.pc (some (.queue op))) ∧
    (∀ r, c.state = .parked .window → c.preempt = some r → saves (.contextSave th) r c.pc none) ∧
    (∀ r, c.state = .parked .longOp ∨ c.state = .parked .release → c.preempt = some r →
      exec (.contextSave th) s = .next (s.timer (coreOfThread th) 4 (.event (.contextSave th)))) ∧
    (∀ r, c.state = .parked .yieldUntil → c.preempt = some r → saves (.contextSave th) r (c.pc + 4) none) ∧
    (∀ r, c.state = .parked .wake → c.preempt = some r → saves (.contextSave th) r c.pc (some .wake)) ∧
    (∀ pa k i, s.saved = [(pa, k)] → k.resuming = true → nodeOfThread k.savedFrom = node → record = 0 ∨ record = pa →
      s.recWord pa 0x3C8 = 0 → (s.recWord pa 0).getLsbD 27 = false → k.wf = false → k.savedIn = none →
      s.sharedLost (coreOfThread k.savedFrom) k = [] → (s.looseSlots (coreOfThread k.savedFrom) 1).head? = some i → ∃ t, exec (.resumption node record) s = .next t ∧
        let u := coreOfThread k.savedFrom * 8 + i
        (t.slot u).state = .ready ∧ (t.slot u).pc = s.recWord pa 0x010 ∧ (t.slot u).fmode = fmodeWord (s.recWord pa 0x0C0) ∧
        (∀ r : Field4, 1 ≤ r.toNat → r.toNat ≤ 14 → t.regOf u r = s.recWord pa (0x010 + 8 * r.toNat)) ∧ t.saved = []) ∧
    (s.deqRing chip parish resumeRing = none → exec (.disposition chip parish) s = .next s) ∧
    (∀ h s1 pa q k, s.deqRing chip parish resumeRing = some (h, s1) → s1.resolve chip parish h = some pa →
      s1.notices.find? (·.1 == pa) = none → s1.saved.find? (·.1 == pa) = some (q, k) →
      let code := ((s1.recWord pa 0x3D0).extractLsb' 0 8).toNat
      (code = 1 → exec (.disposition chip parish) s = .next
        (({ s1 with saved := AMap.set {} s1.saved pa { k with resuming := true } }).event
          (.resumption (nodeOfThread k.savedFrom) pa))) ∧
      (code = 2 → ∃ t, exec (.disposition chip parish) s = .next t ∧ AMap.get {} t.saved pa = {} ∧
        ((t.task k.task).members[k.member]?).map (·.state) =
          ((s1.task k.task).members[k.member]?).map fun _ => MemberState.ended) ∧
      (code ≠ 1 → code ≠ 2 → exec (.disposition chip parish) s = .next s1)) ∧
    (((∃ e ∈ l, s.fitsClaimed node e = true) → exec (.preEmption node) s = .next (s.event (.admission node))) ∧
      ((∀ e ∈ l, s.fitsClaimed node e = false) →
        ((∀ e ∈ l, s.victimsFor e.2.1 e.2.2 = none) → exec (.preEmption node) s = .next s) ∧
        (∀ a e b ts, l = a ++ e :: b → (∀ x ∈ a, s.victimsFor x.2.1 x.2.2 = none) → s.victimsFor e.2.1 e.2.2 = some ts →
          exec (.preEmption node) s = .next (ts.foldl (fun s t =>
            (s.modSlot t fun c => { c with preempt := some 0 }).event (.contextSave t)) s)) ∧
        (∀ id t h vid tv hv core, l = [(id, t, h)] → s.claimFor t h.node 128 = s → h.node = node →
          s.sharesOf node (fun h => decide (h.state = .running)) = [(vid, tv, hv)] → t.coresOn node = [core] →
          let ms := t.members.filter (·.core == core)
          let named := ms.filterMap (·.slot)
          let wants (j : Nat) : Prop := (s.slot (core * 8 + j)).preemptible = true ∧
            (s.slotsFit core ms = true ∨ named = [] ∨ j ∈ named)
          let short : Prop := s.slotsFit core ms = false ∨
            (s.freeBlocks core).length < t.perCore node * t.ownNames.length + t.sharedNames.length ∨
            s.basesFor [core] t.span (t.perCore node) = none
          (¬ short ∨ s.saving core = true ∨ s.effective t h ≤ tv.prio → exec (.preEmption node) s = .next s) ∧
          (∀ i < 8, short → s.saving core = false → tv.prio < s.effective t h → wants i →
            (s.slot (core * 8 + i)).task = vid → (∀ j < i, wants j → (s.slot (core * 8 + j)).task ≠ vid) →
            exec (.preEmption node) s = .next ((s.modSlot (core * 8 + i) fun c => { c with preempt := some 0 }).event
              (.contextSave (core * 8 + i))))))) ∧
    sets (.tollCountSet die count) (Nat.max 64 (Nat.min 3072 count)) ∧ sets (.dieOverTemperature die) 64 ∧
    ((s.die d).free = [] → exec (.tollArrival node) s = .next s) ∧
    (∀ p, (s.die d).free = [p] →
      (s.tollsHeld d < (s.die d).tollCount →
        (node ∈ s.tollWaiters d → meets p node ≤ s.dieTime d →
          (∀ k ∈ s.tollWaiters d, k ≠ node → meets p node < meets p k) →
          ∃ t, exec (.tollArrival node) s = .next t ∧ (t.node node).toll.held = true ∧ (t.die d).free = []) ∧
        ((∀ k ∈ s.tollWaiters d, s.dieTime d < meets p k) → exec (.tollArrival node) s =
          .next (if s.wantsToll node then s.awaitToll node else s))) ∧
      ((s.die d).tollCount ≤ s.tollsHeld d → s.tollWaiters d = [] → tollMeets p 0 (s.die d).countFrom ≤ s.dieTime d →
        ∃ t, exec (.tollArrival node) s = .next t ∧ (t.die d).free = [] ∧ (t.node node).toll = toll)) ∧
    (toll.held = false → exec (.tollReturn node) s = .next s) ∧
    (toll.held = true → s.loomBusy node = false →
      (toll.idleFrom + 256 ≤ s.nodeTime node → given (.tollReturn node)) ∧
      (s.nodeTime node < toll.idleFrom + 256 → s.tollOverheld node = false → exec (.tollReturn node) s =
        .next (s.timer (s.leadCore node) (toll.idleFrom + 256 - s.nodeTime node) (.event (.tollReturn node))))) ∧
    (toll.held = true → s.tollOverheld node = true →
      (s.loomRunning node = false → given (.tollHoldLimit node)) ∧
      (s.loomRunning node = true → exec (.tollHoldLimit node) s = .next s))

/-- Passes and spire rounds (R80, R361, R385, R387 to R391, R419). A subscription is recorded with its slot opened, or
joining when the running pass has gone by its first page, waits for a place, or is refused; a pass opens and walks its pages,
each read once, row by row, and multicast to every slot that takes it; a row that fails ends the pass, or holds it; the pass
ends when its last page has been delivered. A page goes line by line; its first line lands when its buffer is empty, and the
last counts its staging flag (log 35 reads R67 and R389 so). A round that is complete gives every member on the
lowest-numbered chip the sum, and sends it to the other packages; each package's partial goes to that chip (log 32); what
ends a pass early, and the buffer that a page takes, are as logs 35 and 48 read the spec. -/
def Obligations.PassSteps : Prop :=
  ∀ (s : State) (sub die roll pk round : Nat) (p : Pass) (snap : PassSnapshot),
    let v := s.subscription sub
    let h := shapeOf v.shape
    let late : Prop := ∃ q, (s.roll v.die v.roll).running = some q ∧ v.first < q.page
    let node := carillonNode die
    let takers := s.takers die roll p.page
    let walks (t : State) (q : Pass) : Prop := (t.roll die roll).running = some q ∧ Due.event (.pageWalk die roll) ∈ t.pending
    let lines := pageLines p.snap p.page
    let pieces := lines.map (·.2)
    let parts := bufferParts p.snap.tokens
    let r : Round := AMap.get {} s.rounds round
    let chips := s.roundChips r
    (v.live = true → v.state = .requested → (s.slot v.thread).state = .parked (.carillon sub) →
      (v.first + v.count ≤ v.npages → h.elem ≠ 0 → h.cols ≤ 16 → h.cols = v.hd →
        ((s.subscribed v.die).length < 8192 → v.dest < 16 →
          ∃ t, exec (.subscriptionRegistration sub) s = .next t ∧ (t.slot v.thread).state = .ready ∧
            (t.slot v.thread).pc = (s.slot v.thread).pc + 4 ∧
            (v.dest ≠ 0 → v.dest < 11 → t.regOf v.thread (BitVec.ofNat 4 v.dest) = BitVec.ofNat 64 v.slot) ∧
            (t.granary v.node v.slot).next = v.first ∧ (t.granary v.node v.slot).count = v.count ∧
            (late → (t.subscription sub).state = .nextPass ∧ (t.granary v.node v.slot).state = .joining) ∧
            (¬ late → (t.subscription sub).state = .joined ∧ (t.granary v.node v.slot).state = .opened)) ∧
        (8192 ≤ (s.subscribed v.die).length → exec (.subscriptionRegistration sub) s = .next s)) ∧
      (∀ cause tval, (s.slot v.thread).ih = false →
        v.npages < v.first + v.count ∧ cause = 0x07 ∧ tval = v.range ∨
          v.first + v.count ≤ v.npages ∧ (h.elem = 0 ∨ 16 < h.cols ∨ h.cols ≠ v.hd) ∧ cause = 0x0E ∧
            tval = BitVec.ofNat 64 v.tile →
        ∃ t, exec (.subscriptionRegistration sub) s = .next t ∧ t.subscription sub = {} ∧
          t.granary v.node v.slot = {} ∧ (t.slot v.thread).cause = cause ∧ (t.slot v.thread).tval = tval)) ∧
    ((s.roll die roll).running = none → (s.roll die roll).waiting = some snap → s.rollSubs die roll = [] →
      exec (.passOpen die roll) s = .next (s.modRoll die roll fun r => { r with waiting := none })) ∧
    ((s.roll die roll).running = none → (s.roll die roll).waiting = some snap → s.rollSubs die roll ≠ [] →
      ∃ t, exec (.passOpen die roll) s = .next t ∧ (t.roll die roll).waiting = none ∧
        walks t { snap := snap, page := 0, heldRecord := false } ∧
        ∀ e ∈ s.rollSubs die roll, e.2.state = .nextPass → (s.granary e.2.node e.2.slot).state = .joining →
          (t.granary e.2.node e.2.slot).state = .opened) ∧
    ((s.roll die roll).running = some p → p.heldRecord = false → (∀ id ∈ p.snap.fence, s.access? id = none) →
      (p.snap.npages ≤ p.page →
        (s.pagesOut die roll = false → exec (.pageWalk die roll) s =
          .next ((s.modRoll die roll fun r => { r with running := none }).event (.passOpen die roll))) ∧
        (s.pagesOut die roll = true → exec (.pageWalk die roll) s = .next s)) ∧
      (p.page < p.snap.npages →
        (takers = [] → ∃ t, exec (.pageWalk die roll) s = .next t ∧ walks t { p with page := p.page + 1, reads := [] } ∧
          t.packets = s.packets) ∧
        (∀ a x l target, takers ≠ [] → lines = (a, x) :: l → p.reads = [] → (∀ e ∈ s.accesses, e.2.reader ≠ .pass die roll p.page) →
          s.carillonFail (chipOfNode node) p.snap.parish p.snap.user a x.len = none → isPlace a = false →
          s.checkResidency (chipOfNode node) p.snap.parish (handleObj a) (handleOff a) a false = .ok target →
          ∃ t, exec (.pageWalk die roll) s = .next t ∧ ∃ y ∈ t.accesses, y.2.reader = .pass die roll p.page ∧
            y.2.req = .load x.len ∧ y.2.addr = a ∧ y.2.dest = x.place ∧ y.2.src = node) ∧
        (∀ l, takers ≠ [] → takeReads p.reads pieces [] = .bytes l →
          (s.injecting die = true → exec (.pageWalk die roll) s = .next s) ∧
          (s.injecting die = false → ∃ t, exec (.pageWalk die roll) s = .next t ∧
            walks t { p with page := p.page + 1, reads := [] } ∧ t.mem = s.mem ∧
            t.packets.length = s.packets.length + parts.length ∧
            t.accesses.length = s.accesses.length + parts.length * takers.length ∧
            ∀ e ∈ parts, let i := if e.1 < 1024 then e.1 else e.1 - 1024 + 64 * p.snap.tokens
              ∃ k q accs, (k, q) ∈ t.packets ∧ q.cls = .multicast ∧ q.payload = .page accs p.page ((l.drop i).take e.2) ∧
                q.loc = .router node ∧ q.dsts.map (·.1) = takers.map (·.2.node))) ∧
        (∀ c a, takers ≠ [] → (∀ e ∈ pieces, ∃ x ∈ p.reads, x.at' = e.place) →
          takeReads p.reads pieces [] = .fault c a →
          (c ≠ 0x09 → ∃ t, exec (.pageWalk die roll) s = .next t ∧ (t.roll die roll).running = none ∧
            Due.event (.passOpen die roll) ∈ t.pending ∧ ∀ e ∈ s.rollSubs die roll, e.2.state = .joined →
              (s.granary e.2.node e.2.slot).state = .opened ∨ (s.granary e.2.node e.2.slot).state = .full →
              (t.granary e.2.node e.2.slot).state = .failed ∧ (t.granary e.2.node e.2.slot).failure = (c, a)) ∧
          (c = 0x09 → ∃ t, exec (.pageWalk die roll) s = .next t ∧
            (t.roll die roll).running = some { p with heldRecord := true, reads := [] } ∧
            Due.notice (.page die roll a) p.snap.parish (chipOfNode node) ∈ t.pending)))) ∧
    (∀ k id l q bs a x, Delivered s pk k (.page (id :: l) q bs) → s.access? id = some a → a.req = .page x q →
      let y := s.subscription x
      let b := a.addr.toNat
      let dst := stagingBytes y b a.dest bs.length
      let empty (i : Nat) : Bool := s.lineEmpty (lineOf (windowByte y.core y.wbase y.span (b + 128 * i)))
      let last : Prop := ∀ e ∈ s.accesses, e.1 ≠ id → e.2.samePage a = true → e.2.performed = true
      (a.performed = false → (s.node k.dst).storeRoom false 0 = false →
        exec (.stagingDelivery pk) s = .next (s.sendBusy pk id a k.dst).pokeForks) ∧
      (a.performed = false → (s.node k.dst).storeRoom false 0 = true → a.found = false → (∃ i < 16, empty i = false) →
        exec (.stagingDelivery pk) s = .next s) ∧
      (a.performed = false → (s.node k.dst).storeRoom false 0 = true → a.found = true ∨ (∀ i < 16, empty i = true) →
        Unwatched s dst → ∃ t, exec (.stagingDelivery pk) s = .next t ∧ (pk, k) ∉ t.packets ∧
          Due.event (.pageWalk y.die y.roll) ∈ t.pending ∧ (∀ c ∈ dst, t.lineEmpty (lineOf c) = false) ∧
          (dst.Nodup → t.bytes dst = bs) ∧
          (∀ f, id < s.nextId → a.flag = some f → last → f.getLsbD 62 = false →
            s.reaches (chipOfNode k.dst) (placeChip (chipOfNode k.dst) f) = true →
            ∃ z ∈ t.accesses, z.2.req = .flagAdd 1 ∧ z.2.addr = f)) ∧
      (a.performed = true → ∃ t, exec (.stagingDelivery pk) s = .next t ∧ (pk, k) ∉ t.packets ∧ t.mem = s.mem)) ∧
    (∀ low l, chips = low :: l → r.done = false → r.group ≠ [] → r.group.length ≤ r.contributions.length →
      l = [] ∨ chips.length ≤ r.summed.length →
      r.disagreed = false → (∀ c ∈ r.contributions, c.failed = false) → (r.contributions.map (·.op)).Nodup →
      ∃ t, exec (.spireRound round) s = .next t ∧ (AMap.get {} t.rounds round).done = true ∧
        (∀ c ∈ r.contributions, s.chipOfMember r c.member = low → Due.command c.op ∈ t.pending ∧ ∀ o, s.op? c.op = some o →
          t.op? c.op = some { o with data := o.data.take 1 ++ wordsOf ((roundSum r).length / 8) (roundSum r), sent := 0 }) ∧
        ∀ c ∈ l, ∃ e ∈ t.entries, e.2.body = .spireResult round c ∧ e.2.src = low ∧ e.2.dst = c) ∧
    (∀ low l, chips = low :: l → r.summed = [] → (∀ m ∈ r.group, ∃ c ∈ r.contributions, c.member = m) →
      ∃ t, exec (.spirePackageSum round) s = .next t ∧ (AMap.get {} t.rounds round).summed = [low] ∧
        ∀ c ∈ l, ∃ e ∈ t.entries, e.2.body = .spirePartial round c)

/-- The Ouvval fabric (R402 to R417, R423, R429). An entry joins the queue of the port chosen for it or for its
intermediate, after those that came before it; an admitted entry is sealed and sent as frames, and one that does not fit waits
for the next matching; a frame is opened and taken, or discarded, and answered on the control class; its entry arrives with
its last, to cross a Belfry gateway into the mesh; a failed one is replayed, up to 16 times; at position 0 of a slot a port
sends its hello; slots, hello frames and dark periods keep or break the lock, and a hello that agrees with an armed change
relocks the port; relays pass entries on and return credits; keys and tables change as armed. Admission positions come from
outside (the model's choice, log 63), a frame that carries an acknowledgement or the drain marker is not itself acknowledged
(the model's choice, log 119), and the choice of a port, the order of heads, credits and the change of tables are as logs 62
and 64 to 67 read the spec. -/
def Obligations.OuvvalSteps : Prop :=
  ∀ (s : State) (chip port id cls position since n : Nat) (e : Entry) (h : Hello) (key : Word) (key' : BitVec 256)
    (ch : RotorChange) (ok : Bool),
    let p := s.port chip port
    let c := s.chip chip
    let qc := queueClass e.cls
    let joins (k via : Nat) (cl : Machine.Class) : Prop := ∃ t, exec (.entryEnqueue id) s = .next t ∧
      (t.port e.at' k).queue = (s.port e.at' k).queue ++ [(via, cl, id)] ∧ t.mem = s.mem
    let queued : Prop := s.entry? id = some e ∧ e.hop ≠ e.at' ∧ ∀ q ∈ (s.chip e.at').ports, q.2.holds id = false
    let mayGo (k : Nat) : Prop := p.sending = true ∧ p.nextFree k (classOf cls) ≤ position ∧ cls ≤ 3 ∧
      (cls = 0 → position % 8 = 7) ∧ (0 < cls → p.control ≤ position → p.controlWaits k = false) ∧
      (p.version = 2 → p.switching = false)
    let keeps (t : State) (k : MachineCheck) : Prop := (t.chip chip).checks = c.checks ++ [k]
    let unlocks (i : Instr) : Prop := ∃ t, exec i s = .next t ∧ (t.port chip port).locked = false ∧
      (t.chip chip).portReports = c.portReports ++ [port]
    let next := if p.slotsNow ≤ p.slot + 1 then 0 else p.slot + 1
    let lit := p.isDark = false
    let starts (f : Port → Port) : Prop := lit ∧ p.fibre = none ∧ ∀ k q, (f p).facedNow = some (k, q) →
      (k, q) ≠ (chip, port) ∧ (s.port k q).listening = false
    let greets (f : Port → Port) (t : State) : Prop := ∀ k q, (f p).facedNow = some (k, q) → (t.port k q).fibre =
      some { chip := chip, port := port, slot := p.advance.slot, rotation := BitVec.ofNat 16 p.advance.rotation }
    let leaves (q : Port) : Port := { q.advance with locked := false, drainSent := true }
    let got (m : Nat) (g : Frame) : Frame := if g.number = m then { g with flying := false, received := true } else g
    let dropped (f : Frame) : State := (s.modPort chip port fun p => p.fly false (·.number == f.number))
    (queued → s.comesAfter id e = true → exec (.entryEnqueue id) s = .next (s.event (.entryEnqueue id))) ∧
    (queued → s.comesAfter id e = false →
      (∀ k, s.choosePort e.at' e.hop qc e.frames (s.ordered e.body) = some k → joins k e.hop qc) ∧
      (s.choosePort e.at' e.hop qc e.frames (s.ordered e.body) = none → qc ≠ .relay →
        (∀ k x via, (s.chip e.at').relays.find? (·.1 == e.dst) = some (x, via) →
          s.choosePort e.at' via .relay e.frames (s.ordered e.body) = some k → joins k via .relay) ∧
        (∀ tr, (s.chip e.at').relays.find? (·.1 == e.dst) = none → e.body = .parcelOffer tr →
          ∃ t, exec (.entryEnqueue id) s = .next t ∧ t.entry? id = none ∧
            Due.event (.parcelTransitFailure tr) ∈ t.pending))) ∧
    (∀ k q x y, p.peer = some (k, q) → mayGo k → p.headAhead k cls = false → p.closed.contains (k, classOf cls) = false →
      (p.queue.find? fun v => v.1 == k && classNum v.2.1 == cls) = some (x, y, id) → s.entry? id = some e →
      e.cls ≠ .relay ∨ e.relayed = true → p.used + e.frames < 2 ^ 40 →
      (p.fits position e.frames = true → ∃ t, exec (.entryAdmission chip port cls position) s = .next t ∧
        (t.port chip port).frames.map (·.entry) = p.frames.map (·.entry) ++ List.replicate e.frames id ∧
        (t.port chip port).queue = p.queue.filter (·.2.2 != id) ∧
        (t.port chip port).nextFrame = p.nextFrame + e.frames) ∧
      (p.fits position e.frames = false → exec (.entryAdmission chip port cls position) s =
        .next ((s.modPort chip port fun p => { p with closed := p.closed ++ [(k, classOf cls)] }).pokePort chip port))) ∧
    (s.frameDue p = none → exec (.ouvvalFrame chip port ok) s = .next s) ∧
    (∀ f, s.frameDue p = some f →
      ((∃ g ∈ p.unreceived f.peer.1, g.number < f.number ∧ g.flying = false) →
        exec (.ouvvalFrame chip port ok) s = .next (dropped f)) ∧
      ((∀ g ∈ p.unreceived f.peer.1, g.number < f.number → g.flying = true) →
        (ok = false ∨ p.opens f = false →
          (s.isMarker f = false → exec (.ouvvalFrame chip port ok) s = .next ((dropped f).answerFrame chip port f false)) ∧
          (s.isMarker f = true →
            exec (.ouvvalFrame chip port ok) s = .next ((s.dropFrame chip port f.number).dropEntryRec f.entry))) ∧
        (p.opens f = true → s.entry? f.entry = some e →
          (e.body = .drainMarker → ∃ t, exec (.ouvvalFrame chip port true) s = .next t ∧
            (t.port f.peer.1 f.peer.2).drainSeen = true ∧ ∀ g ∈ (t.port chip port).frames, g.number ≠ f.number) ∧
          (∀ k q m good, e.body = .frameAck k q m good → exec (.ouvvalFrame chip port true) s =
            .next (((s.dropFrame chip port f.number).dropEntryRec f.entry).takeAnswer k q m good)) ∧
          (let rest : Prop := ∃ g ∈ p.frames, g.number ≠ f.number ∧ g.entry = f.entry ∧ g.received = false
           e.body ≠ .drainMarker → (∀ k q m good, e.body ≠ .frameAck k q m good) →
            (f.received = true ∨ rest → exec (.ouvvalFrame chip port true) s = .next
              ((s.modPort chip port fun p => { p with frames := p.frames.map (got f.number) }).answerFrame chip port f true)) ∧
            (f.received = false → ¬ rest → f.entry ∉ c.relayPlaces → f.entry < s.nextId →
              (e.hop ≠ e.dst → ∃ t, exec (.ouvvalFrame chip port true) s = .next t ∧
                f.entry ∈ (t.chip e.hop).relayPlaces ∧ Due.event (.relayEntry f.entry) ∈ t.pending) ∧
              (∀ pk v, e.hop = e.dst → e.body = .packet pk → s.packet? pk = some v →
                ∃ t, exec (.ouvvalFrame chip port true) s = .next t ∧
                  t.packet? pk = some { v with loc := .seam (belfryOf v.dst) 5, epoch := (s.node (belfryOf v.dst)).epoch,
                                               left := s.flits v.payload } ∧
                  t.entry? f.entry = none ∧ Due.event (.gatewayFrame pk true) ∈ t.pending ∧
                  ∃ x ∈ t.entries, x.2.body = .frameAck chip port f.number true)))))) ∧
    ((s.takeAnswer chip port n true).port chip port).frames = p.frames.filter (·.number != n) ∧
    s.takeAnswer chip port n false = s.event (.negativeAcknowledgement chip port) ∧
    (∀ k q f r, p.sending = true → p.peer = some (k, q) → ((p.unreceived k).filter fun g => !g.flying) = f :: r →
      (f.failures < 15 → ∃ t, exec (.negativeAcknowledgement chip port) s = .next t ∧
        (t.port chip port).frames = (p.frames.map fun g =>
            if g.number = f.number then { g with failures := g.failures + 1 } else g).map fun g =>
              if g.peer.1 == k && !g.received then { g with flying := true } else g) ∧
      (f.failures < 15 → ∃ t, exec (.negativeAcknowledgement chip port) s = .next t ∧
        Due.event (.ouvvalFrame chip port true) ∈ t.pending) ∧
      (15 ≤ f.failures → ∃ t, exec (.negativeAcknowledgement chip port) s = .next t ∧
        (t.port chip port).failed = true ∧ (t.port chip port).locked = false ∧
        keeps t ⟨chip * 24576, 4, BitVec.ofNat 64 port⟩)) ∧
    (p.isDark = true → exec (.slotStart chip port since) s = .next s ∧ exec (.helloFrame chip port h) s = .next s ∧
      exec (.darkPeriodMissed chip port) s = .next s) ∧
    (starts Port.advance → p.lastSlot = false ∨ p.drainSent = true → ∃ t, exec (.slotStart chip port since) s = .next t ∧
      (t.port chip port).slot = next ∧ (t.port chip port).lit = true ∧ (t.port chip port).missed = 0 ∧
      (t.port chip port).goodDarks = (if p.slotLength + 25 ≤ since + 1 ∧ since ≤ p.slotLength + 26 then 2 else 1) ∧
      greets Port.advance t) ∧
    (starts leaves → p.lastSlot = true → p.drainSent = false → ∃ t, exec (.slotStart chip port since) s = .next t ∧
      (t.port chip port).locked = false ∧ (t.port chip port).drainSent = true ∧ (t.port chip port).slot = next ∧
      (p.locked = true → p.marked = false → p.peer ≠ none → ∃ x ∈ t.entries, x.2.body = .drainMarker) ∧ greets leaves t) ∧
    (lit → p.locked = true → p.lastSlot = true → p.drainSent = false →
      exec (.darkPeriodMissed chip port) s = exec (.slotStart chip port since) s) ∧
    ((s.port chip port).listening = true → s.deliverHello chip port h =
      (s.modPort chip port fun p => { p with listening := false }).checkHello chip port h) ∧
    exec (.helloFrame chip port h) s = .next (s.checkHello chip port h) ∧
    (lit → p.relocks h = false → p.between = false →
      (p.agrees p.bank p.slots h = true → p.locked = false →
        (p.goodDarks < 2 → exec (.helloFrame chip port h) s = .next s) ∧
        (2 ≤ p.goodDarks → ∃ t, exec (.helloFrame chip port h) s = .next t ∧ (t.port chip port).locked = true ∧
          (t.port chip port).slot = h.slot ∧ (t.port chip port).rotation = h.rotation.toNat)) ∧
      (p.agrees p.bank p.slots h = true → p.locked = true → h.slot = p.slot → h.rotation.toNat = p.rotation →
        exec (.helloFrame chip port h) s = .next s) ∧
      (p.agrees p.bank p.slots h = false ∨ p.locked = true ∧ (h.slot ≠ p.slot ∨ h.rotation.toNat ≠ p.rotation) →
        unlocks (.helloFrame chip port h))) ∧
    (lit → p.relocks h = false → p.between = true → exec (.helloFrame chip port h) s = .next s) ∧
    (lit → p.armed = true → p.drainSent = true ∨ p.locked = false →
      p.agrees (1 - p.bank) ((p.nextCfg.extractLsb' 58 6).toNat + 1) h = true → h.rotation.toNat = p.switchAt →
      ∃ t, exec (.helloFrame chip port h) s = .next t ∧ (t.port chip port).locked = true ∧
        (t.port chip port).slot = h.slot ∧ (t.port chip port).bank = 1 - p.bank) ∧
    (starts Port.advance → p.locked = true → p.lastSlot = false ∨ p.drainSent = true →
      (p.missed = 0 → ∃ t, exec (.darkPeriodMissed chip port) s = .next t ∧ (t.port chip port).slot = next ∧
        (t.port chip port).missed = 1 ∧ (t.port chip port).locked = true) ∧
      (1 ≤ p.missed → unlocks (.darkPeriodMissed chip port))) ∧
    (p.lit = true → p.locked = false ∨ p.lastSlot = false →
      s.endSlot chip port p.slot p.rotation = s.modPort chip port fun p => { p with lit := false }) ∧
    (s.entry? id = some e → e.at' = e.hop → e.hop ≠ e.dst → e.relayed = false → exec (.relayEntry id) s =
      .next ((s.modEntry id fun e => { e with hop := e.dst, relayed := true, cls := .relay }).event (.entryEnqueue id))) ∧
    ((s.entries.find? fun x => decide (x.2.body = .relayCredit n) && x.2.dst == chip && x.2.at' == chip) = some (id, e) →
      ∃ t, exec (.relayCredit chip n) s = .next t ∧ t.entries = dropRec s.entries id ∧
        AMap.get 0 (t.chip chip).credits n = AMap.get 0 c.credits n + 1) ∧
    (∀ k q, p.peer = some (k, q) →
      (k ≤ chip → exec (.keyUpdate chip port key') s = .next s ∧ exec (.keyRotationTimer chip port) s = .next s) ∧
      (chip < k →
        (∃ t, exec (.keyUpdate chip port key') s = .next t ∧ (∃ x ∈ t.timers, x.2.2 = .rotate chip port) ∧
          ∀ a b, (a, b) = (chip, port) ∨ (a, b) = (k, q) → (s.port a b).trained = true → (s.port a b).nextKey = none →
            let v := s.port a b
            let bank := (v.generation + 1) % 2
            let free : Prop := if v.version = 2 then v.frames = [] else v.bankFree bank = true
            let new := Config.linkKey key' a b
            (free → (t.port a b).generation = v.generation + 1 ∧ (t.port a b).nextKey = none ∧
              (if bank = 0 then (t.port a b).key0 else (t.port a b).key1) = new) ∧
            (¬ free → (t.port a b).generation = v.generation ∧ (t.port a b).nextKey = some new ∧
              (t.port a b).switching = true)) ∧
        (p.trained = true → (s.port k q).trained = true → exec (.keyRotationTimer chip port) s =
          exec (.keyUpdate chip port (Config.updatedKey chip port p.generation)) s))) ∧
    (c.off = true → exec (.rotorTableChange chip ch) s = .next s) ∧
    (c.off = false → ch.ports = [(port, key, [])] → ∃ t, exec (.rotorTableChange chip ch) s = .next t ∧
      (key.getLsbD 29 = true → (t.port chip port).nextCfg = key &&& ~~~(0x3FFFFFF : Word) ∧
        (t.port chip port).drainSent = false ∧ (t.port chip port).armed = true ∧ (t.port chip port).bank = p.bank ∧
        (t.chip chip).reachable = c.reachable ∧ ∃ m, (t.chip chip).nextReach = some m ∧ m.2 = ch.relays) ∧
      (key.getLsbD 29 = false → (t.port chip port).cfg = key &&& ~~~(0x3FFFFFF : Word) ∧
        ∀ k, k ∈ (t.chip chip).reachable ↔ k ∈ ch.reachable)) ∧
    (p.armed = true → p.drainSent = true → lit → ∃ t, exec (.rotorRelock chip port) s = .next t ∧
      (t.port chip port).locked = true ∧ (t.port chip port).drainSent = false ∧ (t.port chip port).armed = false ∧
      (t.port chip port).bank = 1 - p.bank ∧ (t.port chip port).rotation = p.switchAt ∧
      (∀ m, c.nextReach = some m → (t.chip chip).reachable = m.1 ∧
        (t.chip chip).relays = m.2.filter fun r => t.relayAllowed chip r.2))

/-- A parcel's transfer (R304, R420 to R422). A sealed parcel is offered and its thread goes on; an offer reserves an object number and frames, waits while a ring is short, or is
refused; an accepted parcel's extents are sent and written, and data with an error that cannot be corrected end the transit (the
model's choice, log 120); a parcel that every chip has installed is announced by a counted write of
its handle; an acknowledged one is forgotten by its sender, and its entry there freed; a failed one is reported to the
Vestry. What a posted parcel is, and the order of offers, are as logs 68 and 69 read the spec. -/
def Obligations.ParcelSteps : Prop :=
  ∀ (s : State) (id : Nat) (t : Transit), s.transit? id = some t →
    let retry (s : State) : State := s.timer t.destCore 4000 (.event (.parcelOffer id))
    let k := t.moved / 128
    let part := t.moved % 128 * 16384
    let completes (chip chg : Nat) : Prop := let v : ChangeState := AMap.get {} s.changes chg
      v.transit = id ∧ chip ∈ v.applied ∧ chip ∉ v.acknowledged ∧ (∀ i ∈ v.waitFor, s.access? i = none) ∧
        (∀ k ∈ v.held, chipOfThread k = chip → (s.slot k).state.movingOn? ≠ some v.change.obj) ∧
        ∀ c ∈ v.chips, c = chip ∨ c ∈ v.acknowledged
    (∀ chip chg, completes chip chg →
      (t.stage = .sealing → ∃ u x, exec (.tableChangeAcknowledge chip chg) s = .next u ∧ u.transit? id = some x ∧
        x.stage = .offered ∧ ((s.slot t.thread).state = .parked .seal →
          (u.slot t.thread).state = .ready ∧ (u.slot t.thread).pc = (s.slot t.thread).pc + 4) ∧
        (t.chip = t.destChip → Due.event (.parcelOffer id) ∈ u.pending) ∧
        (t.chip ≠ t.destChip → ∃ e ∈ u.entries, e.2.body = .parcelOffer id ∧ e.2.src = t.chip ∧ e.2.dst = t.destChip)) ∧
      (t.stage = .installing → ∃ u x a, exec (.tableChangeAcknowledge chip chg) s = .next u ∧ u.transit? id = some x ∧
        x.stage = .arrived ∧ a ∈ u.accesses ∧
        a.2.req = .store ((List.range 8).zip (littleEndian (BitVec.ofNat 64 (t.destObj * 2 ^ 40)) 8)) ∧
        a.2.target = .byte (placeByte t.chip t.arrival) ∧
        a.2.flag = some (placeOf t.destCore (placeOffset t.arrival) + 8) ∧ a.2.info.stamp = t.stamp)) ∧
    (∀ order s0, t.stage = .offered →
      (t.offer ≠ 0 ∧ order = t.offer ∧ s0 = s) ∨
        (t.offer = 0 ∧ t.chip = t.destChip ∧ order = s.nextId ∧ s0 = { s with nextId := s.nextId + 1 }) →
      (s.parishOf t.destCore = none → exec (.parcelOffer id) s =
        .next ((s.modTransit id fun t => { t with refused := true }).event (.parcelTransitFailure id))) ∧
      (∀ p, s.parishOf t.destCore = some p → (∀ e ∈ s.transits, e.1 ≠ id → e.2.stage ≠ .offered ∨ e.2.destParish ≠ p) →
        let s1 := s0.modTransit id fun t => { t with offer := order, destParish := p }
        (s1.deqRing t.destChip p freeObjectRing = none → exec (.parcelOffer id) s = .next (retry s1)) ∧
        (∀ o s2, s1.deqRing t.destChip p freeObjectRing = some (o, s2) →
          (s2.takeFrames t.destChip p t.backed.length [] = none → exec (.parcelOffer id) s = .next (retry s1)) ∧
          (∀ fs s3, s2.takeFrames t.destChip p t.backed.length [] = some (fs, s3) →
            ∃ u x, exec (.parcelOffer id) s = .next u ∧ u.transit? id = some x ∧ x.stage = .accepted ∧
              x.destObj = o.toNat % 2 ^ 23 ∧ x.frames = fs ∧ x.destParish = p ∧ u.mem = s3.mem)))) ∧
    (∀ s1, t.stage = .accepted → s.takeMessage t (.parcelAccept id) t.chip = some s1 →
      (t.backed = [] → ∃ u x, exec (.parcelAcceptance id) s = .next u ∧ u.transit? id = some x ∧ x.stage = .installing) ∧
      (t.backed ≠ [] → ∃ u x, exec (.parcelAcceptance id) s = .next u ∧ u.transit? id = some x ∧ x.stage = .moving ∧
        (t.chip = t.destChip → Due.event (.parcelData id) ∈ u.pending) ∧
        (t.chip ≠ t.destChip → u.entries.length = s1.entries.length + 128 * t.backed.length))) ∧
    (∀ x f src s1, t.stage = .moving → t.backed[k]? = some x → t.frames[k]? = some f →
      s.resolve t.chip t.parish (BitVec.ofNat 64 (t.obj * 2 ^ 40 + (x * 2 ^ 21 + part))) = some src →
      s.takeMessage t (.parcelData id) t.destChip = some s1 →
      let s2 := (List.range 128).foldl (fun s i => s.countExtent t.chip t.parish t.obj (x * 2 ^ 21 + part + 128 * i)) s1
      ((s2.findError (consecutive src 16384)).2 = false → ∃ u y, exec (.parcelData id) s = .next u ∧
        u.bytes (consecutive (hbmByte t.destChip (f * 2 ^ 21 + part)) 16384) = s.bytes (consecutive src 16384) ∧
        u.transit? id = some y ∧ y.moved = t.moved + 1 ∧
        (y.stage = .installing ↔ t.moved + 1 = 128 * t.backed.length)) ∧
      ((s2.findError (consecutive src 16384)).2 = true → exec (.parcelData id) s =
        .next (((s2.findError (consecutive src 16384)).1.modTransit id fun t => { t with refused := true }).event
          (.parcelTransitFailure id)))) ∧
    (∀ s1, t.stage = .arrived → s.takeMessage t (.parcelAck id) t.chip = some s1 →
      let s2 := s1.returnFrames t
      let s3 := s2.issueChange t.parish (.entry t.obj (s.obj t.chip t.parish t.obj).freed) 0
      exec (.installationAcknowledgement id) s = .next { s3 with transits := AMap.set {} s3.transits id {} } ∧
        ({ s3 with transits := AMap.set {} s3.transits id {} }).transit? id = none) ∧
    (t.stage = .offered → t.refused = true → ∃ u, exec (.parcelTransitFailure id) s = .next u ∧ u.transit? id = none ∧
      (u.chip t.chip).checks = (s.chip t.chip).checks ++ [⟨t.chip * 24576, 5, BitVec.ofNat 64 (t.obj * 2 ^ 40)⟩]) ∧
    (t.refused = false → s.reaches t.chip t.destChip = true → s.reaches t.destChip t.chip = true →
      exec (.parcelTransitFailure id) s = .next s)

/-- The host port (R431 to R438, R447). The Vestry journals and performs the next command of a ring; LAUNCH submits its
record; COPYIN and COPYOUT move bytes line by line, with one request for each; MARK waits for the commands before it; a
completed command leaves its queue with its completion entry and vector. A parish is created from an accepted image, or not
at all with a code, and a destroyed one is gone. What checks a copy, what a creation reserves and undoes, and what a
destruction leaves are as logs 71 to 74 read the spec; the objects the Vestry makes, when it reads a record and what capture
writes are the model's choices (logs 15, 116 and 76). -/
def Obligations.HostSteps : Prop :=
  ∀ (s : State) (n seq chip : Nat) (v : Word) (c : HostCommand),
    let p := s.parish n
    let w (i : Nat) : Word := s.hostWord (p.qbase.toNat + 64 * (p.qhead.toNat % p.ringSize) + 8 * i)
    let j := p.jtail.toNat
    let op := ((w 0).extractLsb' 0 8).toNat
    let version := ((w 0).extractLsb' 8 8).toNat
    let takes (due : Instr) : Prop := ∃ t, exec (.commandEntry n) s = .next t ∧ Due.event due ∈ t.pending ∧
      (t.parish n).jtail = p.jtail + 1 ∧ (t.parish n).qhead = p.qhead + 1 ∧
      (t.parish n).commands.map (·.seq) = p.commands.map (·.seq) ++ [j] ∧
      (p.captureOn = true → (t.parish n).captured = p.captured ++
        [.command j (s.hostBytes (p.qbase.toNat + 64 * (p.qhead.toNat % p.ringSize)) 64)]) ∧
      ∀ pa, p.captureOn = false → s.journalByte n j = some pa → t.loadLE pa 8 = BitVec.ofNat 64 j ∧ t.loadLE (pa + 8) 8 = w 0
    let taken : Prop := p.present = true ∧ p.qhead < p.qtail ∧ p.room = true
    let open' : Prop := s.command? n seq = some c ∧ c.waiting = false ∧ c.outcome = none
    let a := c.arg1 + BitVec.ofNat 64 c.moved
    let asked : Prop := ∃ x ∈ s.accesses, x.2.reader = .host n seq
    let clear := s.modCommand n seq fun c => { c with reads := [] }
    let stops (s : State) : Out := .next (s.decideCommand n seq 0x21 (BitVec.ofNat 64 c.moved))
    let copies (i : Instr) (right : Nat) (req : Req) (took : List Byte → State) : Prop :=
      (asked → exec i s = .next s) ∧
      (¬ asked → c.reads = [] →
        (∀ k, c.moved = 0 → s.copyRefused n c right = some k →
          exec i s = .next (s.decideCommand n seq 0x22 (BitVec.ofNat 64 k))) ∧
        (c.moved ≠ 0 ∨ s.copyRefused n c right = none →
          let o := handleObj a
          let refused := checkEntry (s.obj p.replica n o) o (handleOff a) c.lineSize right false
          let found := s.checkResidency p.replica n o (handleOff a) a false
          (refused.isSome = true → exec i s = stops s) ∧
          (refused = none →
            (∀ x, found = .trap 0x09 x → exec i s = .next (s.holdCommand n seq a)) ∧
            (∀ k x, k ≠ 0x09 → found = .trap k x → exec i s = stops s) ∧ (found = .drop → exec i s = stops s) ∧
            (found = .moving → exec i s = .next (s.laterCommand n i)) ∧
            (∀ g, found = .ok g → ∃ t, exec i s = .next t ∧ ∃ x ∈ t.accesses, x.2.reader = .host n seq ∧ x.2.req = req ∧
              x.2.addr = a ∧ x.2.target = g)))) ∧
      (∀ l m, ¬ asked → c.reads = l :: m →
        (∀ x, l.trap = some (0x09, x) → exec i s = .next (clear.holdCommand n seq a)) ∧
        (∀ k x, k ≠ 0x09 → l.trap = some (k, x) → exec i s = stops clear) ∧
        (l.trap = none →
          let u := (took l.bytes).modCommand n seq fun d => { d with moved := c.moved + c.lineSize }
          exec i s = .next (if c.moved + c.lineSize = c.arg2.toNat then u.decideCommand n seq 0 0 else u.event i)))
    let r := c.arg0
    let bad := if r.toNat % 8 ≠ 0 then true
      else if isPlace r then (s.checkPlace p.replica n r 512 true).isSome
      else (checkEntry (s.obj p.replica n (handleObj r)) (handleObj r) (handleOff r) 512 rR false).isSome
    let sub : Submission :=
      { parish := n, record := r, home := c.arg1 &&& ~~~(0xFFFF : Word), command := some (n, seq), chip := p.hostChip }
    let unread : Prop := ∃ t, exec (.launchCommand n seq) s = .next t ∧
      (t.parish n).launchCode = (if s.homeOutside sub then 6 else 9) ∧ Due.event (.commandCompletion n seq) ∈ t.pending
    let ends (x : Word) : HostReach := if isPlace r then .byte 0 else s.hostReach p.replica n x
    let image := (s.chip chip).pimg.toNat
    let fails (code launch : Nat) : Prop := ∃ t, exec (.parishCreate chip n) s = .next t ∧
      (t.parish n).present = false ∧ (t.parish n).createCode = code ∧ (t.parish n).launchCode = launch ∧ t.mem = s.mem ∧
      t.tasks = s.tasks
    (p.present = true →
      exec (.qtailWrite n v) s = .next ((s.modParish n fun p => { p with qtail := v }).event (.commandEntry n)) ∧
      exec (.jheadWrite n v) s = .next ((s.modParish n fun p => { p with jhead := v }).event (.commandEntry n))) ∧
    (p.present = false → exec (.qtailWrite n v) s = .next s ∧ exec (.jheadWrite n v) s = .next s ∧
      exec (.commandEntry n) s = .next s) ∧
    (p.qtail ≤ p.qhead ∨ p.room = false → exec (.commandEntry n) s = .next s) ∧
    (taken → (version ≠ 1 ∨ op = 0 ∨ 4 < op ∨ (∃ i < 4, w (4 + i) ≠ 0) → takes (.commandCompletion n j)) ∧
      (version = 1 → (∀ i < 4, w (4 + i) = 0) →
        (op = 1 → takes (.launchCommand n j)) ∧ (op = 2 → takes (.copyin n j)) ∧ (op = 3 → takes (.copyout n j)) ∧
        (op = 4 → takes (.mark n j)))) ∧
    (open' → c.opcode = 1 → c.moved = 0 →
      (bad = true → unread) ∧
      (bad = false → s.recordEmpty p.replica r = true → ∃ t, exec (.launchCommand n seq) s = .next t ∧
        Due.event (.launchCommand n seq) ∈ t.timers.map (·.2.2) ∧ t.submissions = s.submissions) ∧
      (bad = false → s.recordEmpty p.replica r = false →
        (ends r = .unreachable ∨ ends (r + 511) = .unreachable → unread) ∧
        (ends (r + 511) ≠ .unreachable → ends r = .unbacked →
          exec (.launchCommand n seq) s = .next (s.holdCommand n seq r)) ∧
        (∀ pa, ends r = .byte pa → ends (r + 511) = .unbacked →
          exec (.launchCommand n seq) s = .next (s.holdCommand n seq (r + 511))) ∧
        (∀ pa pb, ends r = .byte pa → ends (r + 511) = .byte pb →
          let read := s.readWords p.replica n r 64
          (read.2 = none → ∃ t, exec (.launchCommand n seq) s = .next t ∧
            (t.parish n).launchCode = (if read.1.homeOutside sub then 6 else 9) ∧
            Due.event (.commandCompletion n seq) ∈ t.pending) ∧
          (∀ ws, read.2 = some ws → ∃ t, exec (.launchCommand n seq) s = .next t ∧
            Due.event (.submission read.1.nextId) ∈ t.pending ∧ (t.submission read.1.nextId).words = ws ∧
            (t.submission read.1.nextId).command = some (n, seq) ∧ (t.submission read.1.nextId).home = sub.home)))) ∧
    (let bs := s.hostBytes (c.arg0.toNat + c.moved) c.lineSize
     open' → c.opcode = 2 → copies (.copyin n seq) rW (.store ((List.range bs.length).zip bs)) fun _ =>
      clear.capture n (.copied seq c.line)) ∧
    (open' → c.opcode = 3 → copies (.copyout n seq) rR (.load c.lineSize) fun bs =>
      clear.writeHost (c.arg0.toNat + c.moved) bs) ∧
    (∀ x bs, bs.length ≤ 128 → (s.writeHost x bs).hostBytes x bs.length = bs) ∧
    (s.command? n seq = some c → c.opcode = 4 → c.outcome = none →
      ((∀ d ∈ p.commands, seq ≤ d.seq) → exec (.mark n seq) s = .next (s.decideCommand n seq 0 0)) ∧
      ((∃ d ∈ p.commands, d.seq < seq) → exec (.mark n seq) s = .next s)) ∧
    (∀ status detail, s.command? n seq = some c → c.outcome = some (status, detail) →
      ∃ t, exec (.commandCompletion n seq) s = .next t ∧
        (t.parish n).commands = p.commands.filter (·.seq != seq) ∧
        (t.chip p.hostChip).msix = (s.chip p.hostChip).msix ++ [n] ∧
        (p.cbase ≠ 0 → t.hostWord (p.cbase.toNat + 16 * ((seq - 1) % p.ringSize)) = BitVec.ofNat 64 seq)) ∧
    (128 ≤ n ∨ (s.chip chip).stage ≠ 7 → exec (.parishCreate chip n) s = .next s) ∧
    (n < 128 → (s.chip chip).stage = 7 →
      (p.present = true →
        exec (.parishCreate chip n) s = .next (s.modParish n fun p => { p with createCode := 5 })) ∧
      (p.present = false →
        (∀ k, s.imageCode chip image = some k → fails k 0) ∧
        (s.imageCode chip image = none →
          (s.buildParish chip n image = none → fails 4 0) ∧
          (∀ s1 s2 k, s.buildParish chip n image = some s1 → s1.launchSupervisor chip n image = (s2, k) →
            (k ≠ 0 → fails 6 k) ∧
            (k = 0 → exec (.parishCreate chip n) s = .next s2 ∧ (s2.parish n).present = true ∧
              (s2.parish n).hostChip = chip ∧ (s2.parish n).jtail = 1))))) ∧
    (s.pageLive chip n = false → exec (.parishDestroy chip n) s = .next s) ∧
    (s.pageLive chip n = true → AMap.wf {} s.slots = true → ∃ t, exec (.parishDestroy chip n) s = .next t ∧
      t.parish n = {} ∧ (∀ e ∈ t.tasks, e.2.parish ≠ n) ∧ (∀ e ∈ t.objs, e.1 / 2 ^ 41 ≠ n) ∧
      ∀ u, (s.slot u).parish = n → p.firstChip ≤ chipOfThread u → chipOfThread u < p.firstChip + p.chips →
        (t.slot u).state = .free)

/-! ### Invariants -/

/-- Every step keeps memory in its canonical form: addresses strictly rising, and no byte listed that reads as an unlisted
one. -/
def Obligations.StepsKeepMemoryCanonical : Prop :=
  ∀ s t : State, Memory.wf s.mem = true → Machine.step s = .next t → Memory.wf t.mem = true

/-- Memory has its canonical form at reset, and with an instruction placed for the next fetch. -/
def Obligations.ResetMemoryCanonical : Prop :=
  Memory.wf State.reset.mem = true ∧ ∀ nbits w, Memory.wf (State.reset.withFetchWord nbits w).mem = true
end

