-- ==== Sys2Proof/Laws/Maps.lean ====
section
/-! SUPPORT. What a map reads as after a write, and that writes keep the canonical form. -/

namespace Sys2Proof.Machine

variable {α : Type}

theorem AMap.get_drop_self (d : α) (m : AMap α) (k : Nat) : AMap.get d (AMap.drop m k) k = d := by
  induction m with
  | nil => rfl
  | cons e r ih =>
    obtain ⟨j, v⟩ := e
    by_cases h : j = k
    · simpa [AMap.drop, h] using ih
    · simpa [AMap.drop, AMap.get, h] using ih

theorem AMap.get_drop_ne (d : α) (m : AMap α) {j k : Nat} (h : j ≠ k) :
    AMap.get d (AMap.drop m k) j = AMap.get d m j := by
  induction m with
  | nil => rfl
  | cons e r ih =>
    obtain ⟨i, v⟩ := e
    by_cases hi : i = k
    · subst hi
      simp [AMap.drop, AMap.get, Ne.symm h, ih]
    · by_cases hj : i = j
      · subst hj
        simp [AMap.drop, AMap.get, hi]
      · simp [AMap.drop, AMap.get, hi, hj, ih]

theorem AMap.get_place_ne (d : α) (m : AMap α) (v : α) {j k : Nat} (h : j ≠ k) :
    AMap.get d (AMap.place m k v) j = AMap.get d m j := by
  induction m with
  | nil => simp [AMap.place, AMap.get, Ne.symm h]
  | cons e r ih =>
    obtain ⟨i, u⟩ := e
    by_cases hk : k < i
    · simp [AMap.place, AMap.get, hk, Ne.symm h]
    · simp [AMap.place, AMap.get, hk, ih]

theorem AMap.get_place_drop (d : α) (m : AMap α) (v : α) (k : Nat) :
    AMap.get d (AMap.place (AMap.drop m k) k v) k = v := by
  induction m with
  | nil => simp [AMap.drop, AMap.place, AMap.get]
  | cons e r ih =>
    obtain ⟨i, u⟩ := e
    by_cases hi : i = k
    · simpa [AMap.drop, hi] using ih
    · by_cases hk : k < i
      · simp [AMap.drop, AMap.place, AMap.get, hi, hk]
      · simpa [AMap.drop, AMap.place, AMap.get, hi, hk] using ih

variable [DecidableEq α]

/-- A key reads the value last written. -/
@[simp] theorem AMap.get_set_self (d : α) (m : AMap α) (k : Nat) (v : α) : AMap.get d (AMap.set d m k v) k = v := by
  by_cases h : v = d
  · simp [AMap.set, h, AMap.get_drop_self]
  · simp [AMap.set, h, AMap.get_place_drop]

/-- Every other key reads as before. -/
@[simp] theorem AMap.get_set_ne (d : α) (m : AMap α) (v : α) {j k : Nat} (h : j ≠ k) :
    AMap.get d (AMap.set d m k v) j = AMap.get d m j := by
  by_cases hv : v = d
  · simp [AMap.set, hv, AMap.get_drop_ne d m h]
  · simp [AMap.set, hv, AMap.get_place_ne d _ v h, AMap.get_drop_ne d m h]

theorem AMap.get_set (d : α) (m : AMap α) (v : α) (j k : Nat) :
    AMap.get d (AMap.set d m k v) j = if j = k then v else AMap.get d m j := by
  by_cases h : j = k
  · subst h; simp
  · simp [h]

/-! ### The canonical form -/

theorem AMap.wf_cons (d : α) (j : Nat) (v : α) (r : AMap α) :
    AMap.wf d ((j, v) :: r) = true ↔ v ≠ d ∧ (∀ e ∈ r, j < e.1) ∧ AMap.wf d r = true := by
  simp [AMap.wf, and_assoc]

omit [DecidableEq α] in
theorem AMap.mem_drop {m : AMap α} {k : Nat} {e : Nat × α} (h : e ∈ AMap.drop m k) : e ∈ m := by
  induction m with
  | nil => exact h
  | cons x r ih =>
    obtain ⟨j, v⟩ := x
    by_cases hj : j = k
    · rw [AMap.drop, if_pos hj] at h
      exact List.mem_cons_of_mem _ (ih h)
    · rw [AMap.drop, if_neg hj] at h
      rcases List.mem_cons.1 h with h | h
      · simp [h]
      · exact List.mem_cons_of_mem _ (ih h)

omit [DecidableEq α] in
theorem AMap.drop_ne {m : AMap α} {k : Nat} {e : Nat × α} (h : e ∈ AMap.drop m k) : e.1 ≠ k := by
  induction m with
  | nil => simp [AMap.drop] at h
  | cons x r ih =>
    obtain ⟨j, v⟩ := x
    by_cases hj : j = k
    · rw [AMap.drop, if_pos hj] at h
      exact ih h
    · rw [AMap.drop, if_neg hj] at h
      rcases List.mem_cons.1 h with h | h
      · simpa [h] using hj
      · exact ih h

theorem AMap.wf_drop {d : α} {m : AMap α} (k : Nat) (h : AMap.wf d m = true) : AMap.wf d (AMap.drop m k) = true := by
  induction m with
  | nil => rfl
  | cons x r ih =>
    obtain ⟨j, v⟩ := x
    obtain ⟨hv, hr, hw⟩ := (AMap.wf_cons d j v r).1 h
    by_cases hj : j = k
    · rw [AMap.drop, if_pos hj]
      exact ih hw
    · rw [AMap.drop, if_neg hj]
      exact (AMap.wf_cons d j v _).2 ⟨hv, fun e he => hr e (AMap.mem_drop he), ih hw⟩

omit [DecidableEq α] in
theorem AMap.mem_place {m : AMap α} {k : Nat} {v : α} {e : Nat × α} (h : e ∈ AMap.place m k v) :
    e = (k, v) ∨ e ∈ m := by
  induction m with
  | nil => simpa [AMap.place] using h
  | cons x r ih =>
    obtain ⟨j, u⟩ := x
    by_cases hk : k < j
    · rw [AMap.place, if_pos hk] at h
      simpa using h
    · rw [AMap.place, if_neg hk] at h
      rcases List.mem_cons.1 h with h | h
      · simp [h]
      · rcases ih h with h | h
        · exact .inl h
        · exact .inr (List.mem_cons_of_mem _ h)

theorem AMap.wf_place {d : α} {m : AMap α} {k : Nat} {v : α} (hv : v ≠ d) (hk : ∀ e ∈ m, e.1 ≠ k)
    (h : AMap.wf d m = true) : AMap.wf d (AMap.place m k v) = true := by
  induction m with
  | nil => simp [AMap.place, AMap.wf, hv]
  | cons x r ih =>
    obtain ⟨j, u⟩ := x
    obtain ⟨hu, hr, hw⟩ := (AMap.wf_cons d j u r).1 h
    by_cases hj : k < j
    · rw [AMap.place, if_pos hj]
      refine (AMap.wf_cons d k v _).2 ⟨hv, fun e he => ?_, h⟩
      rcases List.mem_cons.1 he with he | he
      · simpa [he] using hj
      · exact Nat.lt_trans hj (hr e he)
    · rw [AMap.place, if_neg hj]
      refine (AMap.wf_cons d j u _).2 ⟨hu, fun e he => ?_, ih (fun e he => hk e (List.mem_cons_of_mem _ he)) hw⟩
      have hjk : j ≠ k := hk (j, u) (by simp)
      rcases AMap.mem_place he with he | he
      · subst he
        show j < k
        omega
      · exact hr e he

/-- Every write keeps the canonical form. -/
theorem AMap.wf_set {d : α} {m : AMap α} (k : Nat) (v : α) (h : AMap.wf d m = true) :
    AMap.wf d (AMap.set d m k v) = true := by
  by_cases hv : v = d
  · simpa [AMap.set, hv] using AMap.wf_drop k h
  · simpa [AMap.set, hv] using AMap.wf_place hv (fun e he => AMap.drop_ne he) (AMap.wf_drop k h)

/-- A canonical map without some of its entries is canonical. -/
theorem AMap.wf_filter {d : α} {m : AMap α} (p : Nat × α → Bool) (h : AMap.wf d m = true) :
    AMap.wf d (m.filter p) = true := by
  induction m with
  | nil => rfl
  | cons x r ih =>
    obtain ⟨j, v⟩ := x
    obtain ⟨hv, hr, hw⟩ := (AMap.wf_cons d j v r).1 h
    by_cases hp : p (j, v) = true
    · rw [List.filter_cons_of_pos hp]
      exact (AMap.wf_cons d j v _).2 ⟨hv, fun e he => hr e (List.mem_of_mem_filter he), ih hw⟩
    · rw [List.filter_cons_of_neg hp]
      exact ih hw

end Sys2Proof.Machine
end

