-- ==== Sys2Proof/Laws/State.lean ====
section
/-! SUPPORT. What each update of the state leaves in each of its fields. -/

namespace Sys2Proof.Machine

variable (s : State)

/-! ### State.setSlot -/

@[simp] theorem State.setSlot_mem (t : Nat) (v : Slot) : (s.setSlot t v).mem = s.mem := rfl
@[simp] theorem State.setSlot_empty (t : Nat) (v : Slot) : (s.setSlot t v).empty = s.empty := rfl
@[simp] theorem State.setSlot_shadow (t : Nat) (v : Slot) : (s.setSlot t v).shadow = s.shadow := rfl
@[simp] theorem State.setSlot_stamps (t : Nat) (v : Slot) : (s.setSlot t v).stamps = s.stamps := rfl
@[simp] theorem State.setSlot_errors (t : Nat) (v : Slot) : (s.setSlot t v).errors = s.errors := rfl
@[simp] theorem State.setSlot_slots (t : Nat) (v : Slot) : (s.setSlot t v).slots = AMap.set {} s.slots t v := rfl
@[simp] theorem State.setSlot_cores (t : Nat) (v : Slot) : (s.setSlot t v).cores = s.cores := rfl
@[simp] theorem State.setSlot_nodes (t : Nat) (v : Slot) : (s.setSlot t v).nodes = s.nodes := rfl
@[simp] theorem State.setSlot_dies (t : Nat) (v : Slot) : (s.setSlot t v).dies = s.dies := rfl
@[simp] theorem State.setSlot_chips (t : Nat) (v : Slot) : (s.setSlot t v).chips = s.chips := rfl
@[simp] theorem State.setSlot_parishes (t : Nat) (v : Slot) : (s.setSlot t v).parishes = s.parishes := rfl
@[simp] theorem State.setSlot_objs (t : Nat) (v : Slot) : (s.setSlot t v).objs = s.objs := rfl
@[simp] theorem State.setSlot_exts (t : Nat) (v : Slot) : (s.setSlot t v).exts = s.exts := rfl
@[simp] theorem State.setSlot_tasks (t : Nat) (v : Slot) : (s.setSlot t v).tasks = s.tasks := rfl
@[simp] theorem State.setSlot_submissions (t : Nat) (v : Slot) : (s.setSlot t v).submissions = s.submissions := rfl
@[simp] theorem State.setSlot_subscriptions (t : Nat) (v : Slot) :
    (s.setSlot t v).subscriptions = s.subscriptions := rfl
@[simp] theorem State.setSlot_accesses (t : Nat) (v : Slot) : (s.setSlot t v).accesses = s.accesses := rfl
@[simp] theorem State.setSlot_groups (t : Nat) (v : Slot) : (s.setSlot t v).groups = s.groups := rfl
@[simp] theorem State.setSlot_packets (t : Nat) (v : Slot) : (s.setSlot t v).packets = s.packets := rfl
@[simp] theorem State.setSlot_ops (t : Nat) (v : Slot) : (s.setSlot t v).ops = s.ops := rfl
@[simp] theorem State.setSlot_rounds (t : Nat) (v : Slot) : (s.setSlot t v).rounds = s.rounds := rfl
@[simp] theorem State.setSlot_changes (t : Nat) (v : Slot) : (s.setSlot t v).changes = s.changes := rfl
@[simp] theorem State.setSlot_transits (t : Nat) (v : Slot) : (s.setSlot t v).transits = s.transits := rfl
@[simp] theorem State.setSlot_entries (t : Nat) (v : Slot) : (s.setSlot t v).entries = s.entries := rfl
@[simp] theorem State.setSlot_saved (t : Nat) (v : Slot) : (s.setSlot t v).saved = s.saved := rfl
@[simp] theorem State.setSlot_notices (t : Nat) (v : Slot) : (s.setSlot t v).notices = s.notices := rfl
@[simp] theorem State.setSlot_owner (t : Nat) (v : Slot) : (s.setSlot t v).owner = s.owner := rfl
@[simp] theorem State.setSlot_pending (t : Nat) (v : Slot) : (s.setSlot t v).pending = s.pending := rfl
@[simp] theorem State.setSlot_timers (t : Nat) (v : Slot) : (s.setSlot t v).timers = s.timers := rfl
@[simp] theorem State.setSlot_order (t : Nat) (v : Slot) : (s.setSlot t v).order = s.order := rfl
@[simp] theorem State.setSlot_cur (t : Nat) (v : Slot) : (s.setSlot t v).cur = s.cur := rfl
@[simp] theorem State.setSlot_curOp (t : Nat) (v : Slot) : (s.setSlot t v).curOp = s.curOp := rfl
@[simp] theorem State.setSlot_focus (t : Nat) (v : Slot) : (s.setSlot t v).focus = s.focus := rfl
@[simp] theorem State.setSlot_nextId (t : Nat) (v : Slot) : (s.setSlot t v).nextId = s.nextId := rfl
@[simp] theorem State.setSlot_freeCtr (t : Nat) (v : Slot) : (s.setSlot t v).freeCtr = s.freeCtr := rfl

/-! ### State.modSlot -/

@[simp] theorem State.modSlot_mem (t : Nat) (f : Slot → Slot) : (s.modSlot t f).mem = s.mem := rfl
@[simp] theorem State.modSlot_empty (t : Nat) (f : Slot → Slot) : (s.modSlot t f).empty = s.empty := rfl
@[simp] theorem State.modSlot_shadow (t : Nat) (f : Slot → Slot) : (s.modSlot t f).shadow = s.shadow := rfl
@[simp] theorem State.modSlot_stamps (t : Nat) (f : Slot → Slot) : (s.modSlot t f).stamps = s.stamps := rfl
@[simp] theorem State.modSlot_errors (t : Nat) (f : Slot → Slot) : (s.modSlot t f).errors = s.errors := rfl
@[simp] theorem State.modSlot_slots (t : Nat) (f : Slot → Slot) :
    (s.modSlot t f).slots = AMap.set {} s.slots t (f (s.slot t)) := rfl
@[simp] theorem State.modSlot_cores (t : Nat) (f : Slot → Slot) : (s.modSlot t f).cores = s.cores := rfl
@[simp] theorem State.modSlot_nodes (t : Nat) (f : Slot → Slot) : (s.modSlot t f).nodes = s.nodes := rfl
@[simp] theorem State.modSlot_dies (t : Nat) (f : Slot → Slot) : (s.modSlot t f).dies = s.dies := rfl
@[simp] theorem State.modSlot_chips (t : Nat) (f : Slot → Slot) : (s.modSlot t f).chips = s.chips := rfl
@[simp] theorem State.modSlot_parishes (t : Nat) (f : Slot → Slot) : (s.modSlot t f).parishes = s.parishes := rfl
@[simp] theorem State.modSlot_objs (t : Nat) (f : Slot → Slot) : (s.modSlot t f).objs = s.objs := rfl
@[simp] theorem State.modSlot_exts (t : Nat) (f : Slot → Slot) : (s.modSlot t f).exts = s.exts := rfl
@[simp] theorem State.modSlot_tasks (t : Nat) (f : Slot → Slot) : (s.modSlot t f).tasks = s.tasks := rfl
@[simp] theorem State.modSlot_submissions (t : Nat) (f : Slot → Slot) :
    (s.modSlot t f).submissions = s.submissions := rfl
@[simp] theorem State.modSlot_subscriptions (t : Nat) (f : Slot → Slot) :
    (s.modSlot t f).subscriptions = s.subscriptions := rfl
@[simp] theorem State.modSlot_accesses (t : Nat) (f : Slot → Slot) : (s.modSlot t f).accesses = s.accesses := rfl
@[simp] theorem State.modSlot_groups (t : Nat) (f : Slot → Slot) : (s.modSlot t f).groups = s.groups := rfl
@[simp] theorem State.modSlot_packets (t : Nat) (f : Slot → Slot) : (s.modSlot t f).packets = s.packets := rfl
@[simp] theorem State.modSlot_ops (t : Nat) (f : Slot → Slot) : (s.modSlot t f).ops = s.ops := rfl
@[simp] theorem State.modSlot_rounds (t : Nat) (f : Slot → Slot) : (s.modSlot t f).rounds = s.rounds := rfl
@[simp] theorem State.modSlot_changes (t : Nat) (f : Slot → Slot) : (s.modSlot t f).changes = s.changes := rfl
@[simp] theorem State.modSlot_transits (t : Nat) (f : Slot → Slot) : (s.modSlot t f).transits = s.transits := rfl
@[simp] theorem State.modSlot_entries (t : Nat) (f : Slot → Slot) : (s.modSlot t f).entries = s.entries := rfl
@[simp] theorem State.modSlot_saved (t : Nat) (f : Slot → Slot) : (s.modSlot t f).saved = s.saved := rfl
@[simp] theorem State.modSlot_notices (t : Nat) (f : Slot → Slot) : (s.modSlot t f).notices = s.notices := rfl
@[simp] theorem State.modSlot_owner (t : Nat) (f : Slot → Slot) : (s.modSlot t f).owner = s.owner := rfl
@[simp] theorem State.modSlot_pending (t : Nat) (f : Slot → Slot) : (s.modSlot t f).pending = s.pending := rfl
@[simp] theorem State.modSlot_timers (t : Nat) (f : Slot → Slot) : (s.modSlot t f).timers = s.timers := rfl
@[simp] theorem State.modSlot_order (t : Nat) (f : Slot → Slot) : (s.modSlot t f).order = s.order := rfl
@[simp] theorem State.modSlot_cur (t : Nat) (f : Slot → Slot) : (s.modSlot t f).cur = s.cur := rfl
@[simp] theorem State.modSlot_curOp (t : Nat) (f : Slot → Slot) : (s.modSlot t f).curOp = s.curOp := rfl
@[simp] theorem State.modSlot_focus (t : Nat) (f : Slot → Slot) : (s.modSlot t f).focus = s.focus := rfl
@[simp] theorem State.modSlot_nextId (t : Nat) (f : Slot → Slot) : (s.modSlot t f).nextId = s.nextId := rfl
@[simp] theorem State.modSlot_freeCtr (t : Nat) (f : Slot → Slot) : (s.modSlot t f).freeCtr = s.freeCtr := rfl

/-! ### State.modHere -/

@[simp] theorem State.modHere_mem (f : Slot → Slot) : (s.modHere f).mem = s.mem := rfl
@[simp] theorem State.modHere_empty (f : Slot → Slot) : (s.modHere f).empty = s.empty := rfl
@[simp] theorem State.modHere_shadow (f : Slot → Slot) : (s.modHere f).shadow = s.shadow := rfl
@[simp] theorem State.modHere_stamps (f : Slot → Slot) : (s.modHere f).stamps = s.stamps := rfl
@[simp] theorem State.modHere_errors (f : Slot → Slot) : (s.modHere f).errors = s.errors := rfl
@[simp] theorem State.modHere_slots (f : Slot → Slot) :
    (s.modHere f).slots = AMap.set {} s.slots s.cur (f s.here) := rfl
@[simp] theorem State.modHere_cores (f : Slot → Slot) : (s.modHere f).cores = s.cores := rfl
@[simp] theorem State.modHere_nodes (f : Slot → Slot) : (s.modHere f).nodes = s.nodes := rfl
@[simp] theorem State.modHere_dies (f : Slot → Slot) : (s.modHere f).dies = s.dies := rfl
@[simp] theorem State.modHere_chips (f : Slot → Slot) : (s.modHere f).chips = s.chips := rfl
@[simp] theorem State.modHere_parishes (f : Slot → Slot) : (s.modHere f).parishes = s.parishes := rfl
@[simp] theorem State.modHere_objs (f : Slot → Slot) : (s.modHere f).objs = s.objs := rfl
@[simp] theorem State.modHere_exts (f : Slot → Slot) : (s.modHere f).exts = s.exts := rfl
@[simp] theorem State.modHere_tasks (f : Slot → Slot) : (s.modHere f).tasks = s.tasks := rfl
@[simp] theorem State.modHere_submissions (f : Slot → Slot) : (s.modHere f).submissions = s.submissions := rfl
@[simp] theorem State.modHere_subscriptions (f : Slot → Slot) : (s.modHere f).subscriptions = s.subscriptions := rfl
@[simp] theorem State.modHere_accesses (f : Slot → Slot) : (s.modHere f).accesses = s.accesses := rfl
@[simp] theorem State.modHere_groups (f : Slot → Slot) : (s.modHere f).groups = s.groups := rfl
@[simp] theorem State.modHere_packets (f : Slot → Slot) : (s.modHere f).packets = s.packets := rfl
@[simp] theorem State.modHere_ops (f : Slot → Slot) : (s.modHere f).ops = s.ops := rfl
@[simp] theorem State.modHere_rounds (f : Slot → Slot) : (s.modHere f).rounds = s.rounds := rfl
@[simp] theorem State.modHere_changes (f : Slot → Slot) : (s.modHere f).changes = s.changes := rfl
@[simp] theorem State.modHere_transits (f : Slot → Slot) : (s.modHere f).transits = s.transits := rfl
@[simp] theorem State.modHere_entries (f : Slot → Slot) : (s.modHere f).entries = s.entries := rfl
@[simp] theorem State.modHere_saved (f : Slot → Slot) : (s.modHere f).saved = s.saved := rfl
@[simp] theorem State.modHere_notices (f : Slot → Slot) : (s.modHere f).notices = s.notices := rfl
@[simp] theorem State.modHere_owner (f : Slot → Slot) : (s.modHere f).owner = s.owner := rfl
@[simp] theorem State.modHere_pending (f : Slot → Slot) : (s.modHere f).pending = s.pending := rfl
@[simp] theorem State.modHere_timers (f : Slot → Slot) : (s.modHere f).timers = s.timers := rfl
@[simp] theorem State.modHere_order (f : Slot → Slot) : (s.modHere f).order = s.order := rfl
@[simp] theorem State.modHere_cur (f : Slot → Slot) : (s.modHere f).cur = s.cur := rfl
@[simp] theorem State.modHere_curOp (f : Slot → Slot) : (s.modHere f).curOp = s.curOp := rfl
@[simp] theorem State.modHere_focus (f : Slot → Slot) : (s.modHere f).focus = s.focus := rfl
@[simp] theorem State.modHere_nextId (f : Slot → Slot) : (s.modHere f).nextId = s.nextId := rfl
@[simp] theorem State.modHere_freeCtr (f : Slot → Slot) : (s.modHere f).freeCtr = s.freeCtr := rfl

/-! ### State.setCore -/

@[simp] theorem State.setCore_mem (c : Nat) (v : Core) : (s.setCore c v).mem = s.mem := rfl
@[simp] theorem State.setCore_empty (c : Nat) (v : Core) : (s.setCore c v).empty = s.empty := rfl
@[simp] theorem State.setCore_shadow (c : Nat) (v : Core) : (s.setCore c v).shadow = s.shadow := rfl
@[simp] theorem State.setCore_stamps (c : Nat) (v : Core) : (s.setCore c v).stamps = s.stamps := rfl
@[simp] theorem State.setCore_errors (c : Nat) (v : Core) : (s.setCore c v).errors = s.errors := rfl
@[simp] theorem State.setCore_slots (c : Nat) (v : Core) : (s.setCore c v).slots = s.slots := rfl
@[simp] theorem State.setCore_cores (c : Nat) (v : Core) : (s.setCore c v).cores = AMap.set {} s.cores c v := rfl
@[simp] theorem State.setCore_nodes (c : Nat) (v : Core) : (s.setCore c v).nodes = s.nodes := rfl
@[simp] theorem State.setCore_dies (c : Nat) (v : Core) : (s.setCore c v).dies = s.dies := rfl
@[simp] theorem State.setCore_chips (c : Nat) (v : Core) : (s.setCore c v).chips = s.chips := rfl
@[simp] theorem State.setCore_parishes (c : Nat) (v : Core) : (s.setCore c v).parishes = s.parishes := rfl
@[simp] theorem State.setCore_objs (c : Nat) (v : Core) : (s.setCore c v).objs = s.objs := rfl
@[simp] theorem State.setCore_exts (c : Nat) (v : Core) : (s.setCore c v).exts = s.exts := rfl
@[simp] theorem State.setCore_tasks (c : Nat) (v : Core) : (s.setCore c v).tasks = s.tasks := rfl
@[simp] theorem State.setCore_submissions (c : Nat) (v : Core) : (s.setCore c v).submissions = s.submissions := rfl
@[simp] theorem State.setCore_subscriptions (c : Nat) (v : Core) :
    (s.setCore c v).subscriptions = s.subscriptions := rfl
@[simp] theorem State.setCore_accesses (c : Nat) (v : Core) : (s.setCore c v).accesses = s.accesses := rfl
@[simp] theorem State.setCore_groups (c : Nat) (v : Core) : (s.setCore c v).groups = s.groups := rfl
@[simp] theorem State.setCore_packets (c : Nat) (v : Core) : (s.setCore c v).packets = s.packets := rfl
@[simp] theorem State.setCore_ops (c : Nat) (v : Core) : (s.setCore c v).ops = s.ops := rfl
@[simp] theorem State.setCore_rounds (c : Nat) (v : Core) : (s.setCore c v).rounds = s.rounds := rfl
@[simp] theorem State.setCore_changes (c : Nat) (v : Core) : (s.setCore c v).changes = s.changes := rfl
@[simp] theorem State.setCore_transits (c : Nat) (v : Core) : (s.setCore c v).transits = s.transits := rfl
@[simp] theorem State.setCore_entries (c : Nat) (v : Core) : (s.setCore c v).entries = s.entries := rfl
@[simp] theorem State.setCore_saved (c : Nat) (v : Core) : (s.setCore c v).saved = s.saved := rfl
@[simp] theorem State.setCore_notices (c : Nat) (v : Core) : (s.setCore c v).notices = s.notices := rfl
@[simp] theorem State.setCore_owner (c : Nat) (v : Core) : (s.setCore c v).owner = s.owner := rfl
@[simp] theorem State.setCore_pending (c : Nat) (v : Core) : (s.setCore c v).pending = s.pending := rfl
@[simp] theorem State.setCore_timers (c : Nat) (v : Core) : (s.setCore c v).timers = s.timers := rfl
@[simp] theorem State.setCore_order (c : Nat) (v : Core) : (s.setCore c v).order = s.order := rfl
@[simp] theorem State.setCore_cur (c : Nat) (v : Core) : (s.setCore c v).cur = s.cur := rfl
@[simp] theorem State.setCore_curOp (c : Nat) (v : Core) : (s.setCore c v).curOp = s.curOp := rfl
@[simp] theorem State.setCore_focus (c : Nat) (v : Core) : (s.setCore c v).focus = s.focus := rfl
@[simp] theorem State.setCore_nextId (c : Nat) (v : Core) : (s.setCore c v).nextId = s.nextId := rfl
@[simp] theorem State.setCore_freeCtr (c : Nat) (v : Core) : (s.setCore c v).freeCtr = s.freeCtr := rfl

/-! ### State.modCore -/

@[simp] theorem State.modCore_mem (c : Nat) (f : Core → Core) : (s.modCore c f).mem = s.mem := rfl
@[simp] theorem State.modCore_empty (c : Nat) (f : Core → Core) : (s.modCore c f).empty = s.empty := rfl
@[simp] theorem State.modCore_shadow (c : Nat) (f : Core → Core) : (s.modCore c f).shadow = s.shadow := rfl
@[simp] theorem State.modCore_stamps (c : Nat) (f : Core → Core) : (s.modCore c f).stamps = s.stamps := rfl
@[simp] theorem State.modCore_errors (c : Nat) (f : Core → Core) : (s.modCore c f).errors = s.errors := rfl
@[simp] theorem State.modCore_slots (c : Nat) (f : Core → Core) : (s.modCore c f).slots = s.slots := rfl
@[simp] theorem State.modCore_cores (c : Nat) (f : Core → Core) :
    (s.modCore c f).cores = AMap.set {} s.cores c (f (s.core c)) := rfl
@[simp] theorem State.modCore_nodes (c : Nat) (f : Core → Core) : (s.modCore c f).nodes = s.nodes := rfl
@[simp] theorem State.modCore_dies (c : Nat) (f : Core → Core) : (s.modCore c f).dies = s.dies := rfl
@[simp] theorem State.modCore_chips (c : Nat) (f : Core → Core) : (s.modCore c f).chips = s.chips := rfl
@[simp] theorem State.modCore_parishes (c : Nat) (f : Core → Core) : (s.modCore c f).parishes = s.parishes := rfl
@[simp] theorem State.modCore_objs (c : Nat) (f : Core → Core) : (s.modCore c f).objs = s.objs := rfl
@[simp] theorem State.modCore_exts (c : Nat) (f : Core → Core) : (s.modCore c f).exts = s.exts := rfl
@[simp] theorem State.modCore_tasks (c : Nat) (f : Core → Core) : (s.modCore c f).tasks = s.tasks := rfl
@[simp] theorem State.modCore_submissions (c : Nat) (f : Core → Core) :
    (s.modCore c f).submissions = s.submissions := rfl
@[simp] theorem State.modCore_subscriptions (c : Nat) (f : Core → Core) :
    (s.modCore c f).subscriptions = s.subscriptions := rfl
@[simp] theorem State.modCore_accesses (c : Nat) (f : Core → Core) : (s.modCore c f).accesses = s.accesses := rfl
@[simp] theorem State.modCore_groups (c : Nat) (f : Core → Core) : (s.modCore c f).groups = s.groups := rfl
@[simp] theorem State.modCore_packets (c : Nat) (f : Core → Core) : (s.modCore c f).packets = s.packets := rfl
@[simp] theorem State.modCore_ops (c : Nat) (f : Core → Core) : (s.modCore c f).ops = s.ops := rfl
@[simp] theorem State.modCore_rounds (c : Nat) (f : Core → Core) : (s.modCore c f).rounds = s.rounds := rfl
@[simp] theorem State.modCore_changes (c : Nat) (f : Core → Core) : (s.modCore c f).changes = s.changes := rfl
@[simp] theorem State.modCore_transits (c : Nat) (f : Core → Core) : (s.modCore c f).transits = s.transits := rfl
@[simp] theorem State.modCore_entries (c : Nat) (f : Core → Core) : (s.modCore c f).entries = s.entries := rfl
@[simp] theorem State.modCore_saved (c : Nat) (f : Core → Core) : (s.modCore c f).saved = s.saved := rfl
@[simp] theorem State.modCore_notices (c : Nat) (f : Core → Core) : (s.modCore c f).notices = s.notices := rfl
@[simp] theorem State.modCore_owner (c : Nat) (f : Core → Core) : (s.modCore c f).owner = s.owner := rfl
@[simp] theorem State.modCore_pending (c : Nat) (f : Core → Core) : (s.modCore c f).pending = s.pending := rfl
@[simp] theorem State.modCore_timers (c : Nat) (f : Core → Core) : (s.modCore c f).timers = s.timers := rfl
@[simp] theorem State.modCore_order (c : Nat) (f : Core → Core) : (s.modCore c f).order = s.order := rfl
@[simp] theorem State.modCore_cur (c : Nat) (f : Core → Core) : (s.modCore c f).cur = s.cur := rfl
@[simp] theorem State.modCore_curOp (c : Nat) (f : Core → Core) : (s.modCore c f).curOp = s.curOp := rfl
@[simp] theorem State.modCore_focus (c : Nat) (f : Core → Core) : (s.modCore c f).focus = s.focus := rfl
@[simp] theorem State.modCore_nextId (c : Nat) (f : Core → Core) : (s.modCore c f).nextId = s.nextId := rfl
@[simp] theorem State.modCore_freeCtr (c : Nat) (f : Core → Core) : (s.modCore c f).freeCtr = s.freeCtr := rfl

/-! ### State.modNode -/

@[simp] theorem State.modNode_mem (n : Nat) (f : Node → Node) : (s.modNode n f).mem = s.mem := rfl
@[simp] theorem State.modNode_empty (n : Nat) (f : Node → Node) : (s.modNode n f).empty = s.empty := rfl
@[simp] theorem State.modNode_shadow (n : Nat) (f : Node → Node) : (s.modNode n f).shadow = s.shadow := rfl
@[simp] theorem State.modNode_stamps (n : Nat) (f : Node → Node) : (s.modNode n f).stamps = s.stamps := rfl
@[simp] theorem State.modNode_errors (n : Nat) (f : Node → Node) : (s.modNode n f).errors = s.errors := rfl
@[simp] theorem State.modNode_slots (n : Nat) (f : Node → Node) : (s.modNode n f).slots = s.slots := rfl
@[simp] theorem State.modNode_cores (n : Nat) (f : Node → Node) : (s.modNode n f).cores = s.cores := rfl
@[simp] theorem State.modNode_nodes (n : Nat) (f : Node → Node) :
    (s.modNode n f).nodes = AMap.set {} s.nodes n (f (s.node n)) := rfl
@[simp] theorem State.modNode_dies (n : Nat) (f : Node → Node) : (s.modNode n f).dies = s.dies := rfl
@[simp] theorem State.modNode_chips (n : Nat) (f : Node → Node) : (s.modNode n f).chips = s.chips := rfl
@[simp] theorem State.modNode_parishes (n : Nat) (f : Node → Node) : (s.modNode n f).parishes = s.parishes := rfl
@[simp] theorem State.modNode_objs (n : Nat) (f : Node → Node) : (s.modNode n f).objs = s.objs := rfl
@[simp] theorem State.modNode_exts (n : Nat) (f : Node → Node) : (s.modNode n f).exts = s.exts := rfl
@[simp] theorem State.modNode_tasks (n : Nat) (f : Node → Node) : (s.modNode n f).tasks = s.tasks := rfl
@[simp] theorem State.modNode_submissions (n : Nat) (f : Node → Node) :
    (s.modNode n f).submissions = s.submissions := rfl
@[simp] theorem State.modNode_subscriptions (n : Nat) (f : Node → Node) :
    (s.modNode n f).subscriptions = s.subscriptions := rfl
@[simp] theorem State.modNode_accesses (n : Nat) (f : Node → Node) : (s.modNode n f).accesses = s.accesses := rfl
@[simp] theorem State.modNode_groups (n : Nat) (f : Node → Node) : (s.modNode n f).groups = s.groups := rfl
@[simp] theorem State.modNode_packets (n : Nat) (f : Node → Node) : (s.modNode n f).packets = s.packets := rfl
@[simp] theorem State.modNode_ops (n : Nat) (f : Node → Node) : (s.modNode n f).ops = s.ops := rfl
@[simp] theorem State.modNode_rounds (n : Nat) (f : Node → Node) : (s.modNode n f).rounds = s.rounds := rfl
@[simp] theorem State.modNode_changes (n : Nat) (f : Node → Node) : (s.modNode n f).changes = s.changes := rfl
@[simp] theorem State.modNode_transits (n : Nat) (f : Node → Node) : (s.modNode n f).transits = s.transits := rfl
@[simp] theorem State.modNode_entries (n : Nat) (f : Node → Node) : (s.modNode n f).entries = s.entries := rfl
@[simp] theorem State.modNode_saved (n : Nat) (f : Node → Node) : (s.modNode n f).saved = s.saved := rfl
@[simp] theorem State.modNode_notices (n : Nat) (f : Node → Node) : (s.modNode n f).notices = s.notices := rfl
@[simp] theorem State.modNode_owner (n : Nat) (f : Node → Node) : (s.modNode n f).owner = s.owner := rfl
@[simp] theorem State.modNode_pending (n : Nat) (f : Node → Node) : (s.modNode n f).pending = s.pending := rfl
@[simp] theorem State.modNode_timers (n : Nat) (f : Node → Node) : (s.modNode n f).timers = s.timers := rfl
@[simp] theorem State.modNode_order (n : Nat) (f : Node → Node) : (s.modNode n f).order = s.order := rfl
@[simp] theorem State.modNode_cur (n : Nat) (f : Node → Node) : (s.modNode n f).cur = s.cur := rfl
@[simp] theorem State.modNode_curOp (n : Nat) (f : Node → Node) : (s.modNode n f).curOp = s.curOp := rfl
@[simp] theorem State.modNode_focus (n : Nat) (f : Node → Node) : (s.modNode n f).focus = s.focus := rfl
@[simp] theorem State.modNode_nextId (n : Nat) (f : Node → Node) : (s.modNode n f).nextId = s.nextId := rfl
@[simp] theorem State.modNode_freeCtr (n : Nat) (f : Node → Node) : (s.modNode n f).freeCtr = s.freeCtr := rfl

/-! ### State.modDie -/

@[simp] theorem State.modDie_mem (d : Nat) (f : Die → Die) : (s.modDie d f).mem = s.mem := rfl
@[simp] theorem State.modDie_empty (d : Nat) (f : Die → Die) : (s.modDie d f).empty = s.empty := rfl
@[simp] theorem State.modDie_shadow (d : Nat) (f : Die → Die) : (s.modDie d f).shadow = s.shadow := rfl
@[simp] theorem State.modDie_stamps (d : Nat) (f : Die → Die) : (s.modDie d f).stamps = s.stamps := rfl
@[simp] theorem State.modDie_errors (d : Nat) (f : Die → Die) : (s.modDie d f).errors = s.errors := rfl
@[simp] theorem State.modDie_slots (d : Nat) (f : Die → Die) : (s.modDie d f).slots = s.slots := rfl
@[simp] theorem State.modDie_cores (d : Nat) (f : Die → Die) : (s.modDie d f).cores = s.cores := rfl
@[simp] theorem State.modDie_nodes (d : Nat) (f : Die → Die) : (s.modDie d f).nodes = s.nodes := rfl
@[simp] theorem State.modDie_dies (d : Nat) (f : Die → Die) :
    (s.modDie d f).dies = AMap.set {} s.dies d (f (s.die d)) := rfl
@[simp] theorem State.modDie_chips (d : Nat) (f : Die → Die) : (s.modDie d f).chips = s.chips := rfl
@[simp] theorem State.modDie_parishes (d : Nat) (f : Die → Die) : (s.modDie d f).parishes = s.parishes := rfl
@[simp] theorem State.modDie_objs (d : Nat) (f : Die → Die) : (s.modDie d f).objs = s.objs := rfl
@[simp] theorem State.modDie_exts (d : Nat) (f : Die → Die) : (s.modDie d f).exts = s.exts := rfl
@[simp] theorem State.modDie_tasks (d : Nat) (f : Die → Die) : (s.modDie d f).tasks = s.tasks := rfl
@[simp] theorem State.modDie_submissions (d : Nat) (f : Die → Die) : (s.modDie d f).submissions = s.submissions := rfl
@[simp] theorem State.modDie_subscriptions (d : Nat) (f : Die → Die) :
    (s.modDie d f).subscriptions = s.subscriptions := rfl
@[simp] theorem State.modDie_accesses (d : Nat) (f : Die → Die) : (s.modDie d f).accesses = s.accesses := rfl
@[simp] theorem State.modDie_groups (d : Nat) (f : Die → Die) : (s.modDie d f).groups = s.groups := rfl
@[simp] theorem State.modDie_packets (d : Nat) (f : Die → Die) : (s.modDie d f).packets = s.packets := rfl
@[simp] theorem State.modDie_ops (d : Nat) (f : Die → Die) : (s.modDie d f).ops = s.ops := rfl
@[simp] theorem State.modDie_rounds (d : Nat) (f : Die → Die) : (s.modDie d f).rounds = s.rounds := rfl
@[simp] theorem State.modDie_changes (d : Nat) (f : Die → Die) : (s.modDie d f).changes = s.changes := rfl
@[simp] theorem State.modDie_transits (d : Nat) (f : Die → Die) : (s.modDie d f).transits = s.transits := rfl
@[simp] theorem State.modDie_entries (d : Nat) (f : Die → Die) : (s.modDie d f).entries = s.entries := rfl
@[simp] theorem State.modDie_saved (d : Nat) (f : Die → Die) : (s.modDie d f).saved = s.saved := rfl
@[simp] theorem State.modDie_notices (d : Nat) (f : Die → Die) : (s.modDie d f).notices = s.notices := rfl
@[simp] theorem State.modDie_owner (d : Nat) (f : Die → Die) : (s.modDie d f).owner = s.owner := rfl
@[simp] theorem State.modDie_pending (d : Nat) (f : Die → Die) : (s.modDie d f).pending = s.pending := rfl
@[simp] theorem State.modDie_timers (d : Nat) (f : Die → Die) : (s.modDie d f).timers = s.timers := rfl
@[simp] theorem State.modDie_order (d : Nat) (f : Die → Die) : (s.modDie d f).order = s.order := rfl
@[simp] theorem State.modDie_cur (d : Nat) (f : Die → Die) : (s.modDie d f).cur = s.cur := rfl
@[simp] theorem State.modDie_curOp (d : Nat) (f : Die → Die) : (s.modDie d f).curOp = s.curOp := rfl
@[simp] theorem State.modDie_focus (d : Nat) (f : Die → Die) : (s.modDie d f).focus = s.focus := rfl
@[simp] theorem State.modDie_nextId (d : Nat) (f : Die → Die) : (s.modDie d f).nextId = s.nextId := rfl
@[simp] theorem State.modDie_freeCtr (d : Nat) (f : Die → Die) : (s.modDie d f).freeCtr = s.freeCtr := rfl

/-! ### State.modChip -/

@[simp] theorem State.modChip_mem (c : Nat) (f : Chip → Chip) : (s.modChip c f).mem = s.mem := rfl
@[simp] theorem State.modChip_empty (c : Nat) (f : Chip → Chip) : (s.modChip c f).empty = s.empty := rfl
@[simp] theorem State.modChip_shadow (c : Nat) (f : Chip → Chip) : (s.modChip c f).shadow = s.shadow := rfl
@[simp] theorem State.modChip_stamps (c : Nat) (f : Chip → Chip) : (s.modChip c f).stamps = s.stamps := rfl
@[simp] theorem State.modChip_errors (c : Nat) (f : Chip → Chip) : (s.modChip c f).errors = s.errors := rfl
@[simp] theorem State.modChip_slots (c : Nat) (f : Chip → Chip) : (s.modChip c f).slots = s.slots := rfl
@[simp] theorem State.modChip_cores (c : Nat) (f : Chip → Chip) : (s.modChip c f).cores = s.cores := rfl
@[simp] theorem State.modChip_nodes (c : Nat) (f : Chip → Chip) : (s.modChip c f).nodes = s.nodes := rfl
@[simp] theorem State.modChip_dies (c : Nat) (f : Chip → Chip) : (s.modChip c f).dies = s.dies := rfl
@[simp] theorem State.modChip_chips (c : Nat) (f : Chip → Chip) :
    (s.modChip c f).chips = AMap.set {} s.chips c (f (s.chip c)) := rfl
@[simp] theorem State.modChip_parishes (c : Nat) (f : Chip → Chip) : (s.modChip c f).parishes = s.parishes := rfl
@[simp] theorem State.modChip_objs (c : Nat) (f : Chip → Chip) : (s.modChip c f).objs = s.objs := rfl
@[simp] theorem State.modChip_exts (c : Nat) (f : Chip → Chip) : (s.modChip c f).exts = s.exts := rfl
@[simp] theorem State.modChip_tasks (c : Nat) (f : Chip → Chip) : (s.modChip c f).tasks = s.tasks := rfl
@[simp] theorem State.modChip_submissions (c : Nat) (f : Chip → Chip) :
    (s.modChip c f).submissions = s.submissions := rfl
@[simp] theorem State.modChip_subscriptions (c : Nat) (f : Chip → Chip) :
    (s.modChip c f).subscriptions = s.subscriptions := rfl
@[simp] theorem State.modChip_accesses (c : Nat) (f : Chip → Chip) : (s.modChip c f).accesses = s.accesses := rfl
@[simp] theorem State.modChip_groups (c : Nat) (f : Chip → Chip) : (s.modChip c f).groups = s.groups := rfl
@[simp] theorem State.modChip_packets (c : Nat) (f : Chip → Chip) : (s.modChip c f).packets = s.packets := rfl
@[simp] theorem State.modChip_ops (c : Nat) (f : Chip → Chip) : (s.modChip c f).ops = s.ops := rfl
@[simp] theorem State.modChip_rounds (c : Nat) (f : Chip → Chip) : (s.modChip c f).rounds = s.rounds := rfl
@[simp] theorem State.modChip_changes (c : Nat) (f : Chip → Chip) : (s.modChip c f).changes = s.changes := rfl
@[simp] theorem State.modChip_transits (c : Nat) (f : Chip → Chip) : (s.modChip c f).transits = s.transits := rfl
@[simp] theorem State.modChip_entries (c : Nat) (f : Chip → Chip) : (s.modChip c f).entries = s.entries := rfl
@[simp] theorem State.modChip_saved (c : Nat) (f : Chip → Chip) : (s.modChip c f).saved = s.saved := rfl
@[simp] theorem State.modChip_notices (c : Nat) (f : Chip → Chip) : (s.modChip c f).notices = s.notices := rfl
@[simp] theorem State.modChip_owner (c : Nat) (f : Chip → Chip) : (s.modChip c f).owner = s.owner := rfl
@[simp] theorem State.modChip_pending (c : Nat) (f : Chip → Chip) : (s.modChip c f).pending = s.pending := rfl
@[simp] theorem State.modChip_timers (c : Nat) (f : Chip → Chip) : (s.modChip c f).timers = s.timers := rfl
@[simp] theorem State.modChip_order (c : Nat) (f : Chip → Chip) : (s.modChip c f).order = s.order := rfl
@[simp] theorem State.modChip_cur (c : Nat) (f : Chip → Chip) : (s.modChip c f).cur = s.cur := rfl
@[simp] theorem State.modChip_curOp (c : Nat) (f : Chip → Chip) : (s.modChip c f).curOp = s.curOp := rfl
@[simp] theorem State.modChip_focus (c : Nat) (f : Chip → Chip) : (s.modChip c f).focus = s.focus := rfl
@[simp] theorem State.modChip_nextId (c : Nat) (f : Chip → Chip) : (s.modChip c f).nextId = s.nextId := rfl
@[simp] theorem State.modChip_freeCtr (c : Nat) (f : Chip → Chip) : (s.modChip c f).freeCtr = s.freeCtr := rfl

/-! ### State.modParish -/

@[simp] theorem State.modParish_mem (p : Nat) (f : Parish → Parish) : (s.modParish p f).mem = s.mem := rfl
@[simp] theorem State.modParish_empty (p : Nat) (f : Parish → Parish) : (s.modParish p f).empty = s.empty := rfl
@[simp] theorem State.modParish_shadow (p : Nat) (f : Parish → Parish) : (s.modParish p f).shadow = s.shadow := rfl
@[simp] theorem State.modParish_stamps (p : Nat) (f : Parish → Parish) : (s.modParish p f).stamps = s.stamps := rfl
@[simp] theorem State.modParish_errors (p : Nat) (f : Parish → Parish) : (s.modParish p f).errors = s.errors := rfl
@[simp] theorem State.modParish_slots (p : Nat) (f : Parish → Parish) : (s.modParish p f).slots = s.slots := rfl
@[simp] theorem State.modParish_cores (p : Nat) (f : Parish → Parish) : (s.modParish p f).cores = s.cores := rfl
@[simp] theorem State.modParish_nodes (p : Nat) (f : Parish → Parish) : (s.modParish p f).nodes = s.nodes := rfl
@[simp] theorem State.modParish_dies (p : Nat) (f : Parish → Parish) : (s.modParish p f).dies = s.dies := rfl
@[simp] theorem State.modParish_chips (p : Nat) (f : Parish → Parish) : (s.modParish p f).chips = s.chips := rfl
@[simp] theorem State.modParish_parishes (p : Nat) (f : Parish → Parish) :
    (s.modParish p f).parishes = AMap.set {} s.parishes p (f (s.parish p)) := rfl
@[simp] theorem State.modParish_objs (p : Nat) (f : Parish → Parish) : (s.modParish p f).objs = s.objs := rfl
@[simp] theorem State.modParish_exts (p : Nat) (f : Parish → Parish) : (s.modParish p f).exts = s.exts := rfl
@[simp] theorem State.modParish_tasks (p : Nat) (f : Parish → Parish) : (s.modParish p f).tasks = s.tasks := rfl
@[simp] theorem State.modParish_submissions (p : Nat) (f : Parish → Parish) :
    (s.modParish p f).submissions = s.submissions := rfl
@[simp] theorem State.modParish_subscriptions (p : Nat) (f : Parish → Parish) :
    (s.modParish p f).subscriptions = s.subscriptions := rfl
@[simp] theorem State.modParish_accesses (p : Nat) (f : Parish → Parish) :
    (s.modParish p f).accesses = s.accesses := rfl
@[simp] theorem State.modParish_groups (p : Nat) (f : Parish → Parish) : (s.modParish p f).groups = s.groups := rfl
@[simp] theorem State.modParish_packets (p : Nat) (f : Parish → Parish) : (s.modParish p f).packets = s.packets := rfl
@[simp] theorem State.modParish_ops (p : Nat) (f : Parish → Parish) : (s.modParish p f).ops = s.ops := rfl
@[simp] theorem State.modParish_rounds (p : Nat) (f : Parish → Parish) : (s.modParish p f).rounds = s.rounds := rfl
@[simp] theorem State.modParish_changes (p : Nat) (f : Parish → Parish) : (s.modParish p f).changes = s.changes := rfl
@[simp] theorem State.modParish_transits (p : Nat) (f : Parish → Parish) :
    (s.modParish p f).transits = s.transits := rfl
@[simp] theorem State.modParish_entries (p : Nat) (f : Parish → Parish) : (s.modParish p f).entries = s.entries := rfl
@[simp] theorem State.modParish_saved (p : Nat) (f : Parish → Parish) : (s.modParish p f).saved = s.saved := rfl
@[simp] theorem State.modParish_notices (p : Nat) (f : Parish → Parish) : (s.modParish p f).notices = s.notices := rfl
@[simp] theorem State.modParish_owner (p : Nat) (f : Parish → Parish) : (s.modParish p f).owner = s.owner := rfl
@[simp] theorem State.modParish_pending (p : Nat) (f : Parish → Parish) : (s.modParish p f).pending = s.pending := rfl
@[simp] theorem State.modParish_timers (p : Nat) (f : Parish → Parish) : (s.modParish p f).timers = s.timers := rfl
@[simp] theorem State.modParish_order (p : Nat) (f : Parish → Parish) : (s.modParish p f).order = s.order := rfl
@[simp] theorem State.modParish_cur (p : Nat) (f : Parish → Parish) : (s.modParish p f).cur = s.cur := rfl
@[simp] theorem State.modParish_curOp (p : Nat) (f : Parish → Parish) : (s.modParish p f).curOp = s.curOp := rfl
@[simp] theorem State.modParish_focus (p : Nat) (f : Parish → Parish) : (s.modParish p f).focus = s.focus := rfl
@[simp] theorem State.modParish_nextId (p : Nat) (f : Parish → Parish) : (s.modParish p f).nextId = s.nextId := rfl
@[simp] theorem State.modParish_freeCtr (p : Nat) (f : Parish → Parish) : (s.modParish p f).freeCtr = s.freeCtr := rfl

/-! ### State.modTask -/

@[simp] theorem State.modTask_mem (k : Nat) (f : Task → Task) : (s.modTask k f).mem = s.mem := rfl
@[simp] theorem State.modTask_empty (k : Nat) (f : Task → Task) : (s.modTask k f).empty = s.empty := rfl
@[simp] theorem State.modTask_shadow (k : Nat) (f : Task → Task) : (s.modTask k f).shadow = s.shadow := rfl
@[simp] theorem State.modTask_stamps (k : Nat) (f : Task → Task) : (s.modTask k f).stamps = s.stamps := rfl
@[simp] theorem State.modTask_errors (k : Nat) (f : Task → Task) : (s.modTask k f).errors = s.errors := rfl
@[simp] theorem State.modTask_slots (k : Nat) (f : Task → Task) : (s.modTask k f).slots = s.slots := rfl
@[simp] theorem State.modTask_cores (k : Nat) (f : Task → Task) : (s.modTask k f).cores = s.cores := rfl
@[simp] theorem State.modTask_nodes (k : Nat) (f : Task → Task) : (s.modTask k f).nodes = s.nodes := rfl
@[simp] theorem State.modTask_dies (k : Nat) (f : Task → Task) : (s.modTask k f).dies = s.dies := rfl
@[simp] theorem State.modTask_chips (k : Nat) (f : Task → Task) : (s.modTask k f).chips = s.chips := rfl
@[simp] theorem State.modTask_parishes (k : Nat) (f : Task → Task) : (s.modTask k f).parishes = s.parishes := rfl
@[simp] theorem State.modTask_objs (k : Nat) (f : Task → Task) : (s.modTask k f).objs = s.objs := rfl
@[simp] theorem State.modTask_exts (k : Nat) (f : Task → Task) : (s.modTask k f).exts = s.exts := rfl
@[simp] theorem State.modTask_tasks (k : Nat) (f : Task → Task) :
    (s.modTask k f).tasks = AMap.set {} s.tasks k (f (s.task k)) := rfl
@[simp] theorem State.modTask_submissions (k : Nat) (f : Task → Task) :
    (s.modTask k f).submissions = s.submissions := rfl
@[simp] theorem State.modTask_subscriptions (k : Nat) (f : Task → Task) :
    (s.modTask k f).subscriptions = s.subscriptions := rfl
@[simp] theorem State.modTask_accesses (k : Nat) (f : Task → Task) : (s.modTask k f).accesses = s.accesses := rfl
@[simp] theorem State.modTask_groups (k : Nat) (f : Task → Task) : (s.modTask k f).groups = s.groups := rfl
@[simp] theorem State.modTask_packets (k : Nat) (f : Task → Task) : (s.modTask k f).packets = s.packets := rfl
@[simp] theorem State.modTask_ops (k : Nat) (f : Task → Task) : (s.modTask k f).ops = s.ops := rfl
@[simp] theorem State.modTask_rounds (k : Nat) (f : Task → Task) : (s.modTask k f).rounds = s.rounds := rfl
@[simp] theorem State.modTask_changes (k : Nat) (f : Task → Task) : (s.modTask k f).changes = s.changes := rfl
@[simp] theorem State.modTask_transits (k : Nat) (f : Task → Task) : (s.modTask k f).transits = s.transits := rfl
@[simp] theorem State.modTask_entries (k : Nat) (f : Task → Task) : (s.modTask k f).entries = s.entries := rfl
@[simp] theorem State.modTask_saved (k : Nat) (f : Task → Task) : (s.modTask k f).saved = s.saved := rfl
@[simp] theorem State.modTask_notices (k : Nat) (f : Task → Task) : (s.modTask k f).notices = s.notices := rfl
@[simp] theorem State.modTask_owner (k : Nat) (f : Task → Task) : (s.modTask k f).owner = s.owner := rfl
@[simp] theorem State.modTask_pending (k : Nat) (f : Task → Task) : (s.modTask k f).pending = s.pending := rfl
@[simp] theorem State.modTask_timers (k : Nat) (f : Task → Task) : (s.modTask k f).timers = s.timers := rfl
@[simp] theorem State.modTask_order (k : Nat) (f : Task → Task) : (s.modTask k f).order = s.order := rfl
@[simp] theorem State.modTask_cur (k : Nat) (f : Task → Task) : (s.modTask k f).cur = s.cur := rfl
@[simp] theorem State.modTask_curOp (k : Nat) (f : Task → Task) : (s.modTask k f).curOp = s.curOp := rfl
@[simp] theorem State.modTask_focus (k : Nat) (f : Task → Task) : (s.modTask k f).focus = s.focus := rfl
@[simp] theorem State.modTask_nextId (k : Nat) (f : Task → Task) : (s.modTask k f).nextId = s.nextId := rfl
@[simp] theorem State.modTask_freeCtr (k : Nat) (f : Task → Task) : (s.modTask k f).freeCtr = s.freeCtr := rfl

/-! ### State.setSubmission -/

@[simp] theorem State.setSubmission_mem (k : Nat) (v : Submission) : (s.setSubmission k v).mem = s.mem := rfl
@[simp] theorem State.setSubmission_empty (k : Nat) (v : Submission) : (s.setSubmission k v).empty = s.empty := rfl
@[simp] theorem State.setSubmission_shadow (k : Nat) (v : Submission) : (s.setSubmission k v).shadow = s.shadow := rfl
@[simp] theorem State.setSubmission_stamps (k : Nat) (v : Submission) : (s.setSubmission k v).stamps = s.stamps := rfl
@[simp] theorem State.setSubmission_errors (k : Nat) (v : Submission) : (s.setSubmission k v).errors = s.errors := rfl
@[simp] theorem State.setSubmission_slots (k : Nat) (v : Submission) : (s.setSubmission k v).slots = s.slots := rfl
@[simp] theorem State.setSubmission_cores (k : Nat) (v : Submission) : (s.setSubmission k v).cores = s.cores := rfl
@[simp] theorem State.setSubmission_nodes (k : Nat) (v : Submission) : (s.setSubmission k v).nodes = s.nodes := rfl
@[simp] theorem State.setSubmission_dies (k : Nat) (v : Submission) : (s.setSubmission k v).dies = s.dies := rfl
@[simp] theorem State.setSubmission_chips (k : Nat) (v : Submission) : (s.setSubmission k v).chips = s.chips := rfl
@[simp] theorem State.setSubmission_parishes (k : Nat) (v : Submission) :
    (s.setSubmission k v).parishes = s.parishes := rfl
@[simp] theorem State.setSubmission_objs (k : Nat) (v : Submission) : (s.setSubmission k v).objs = s.objs := rfl
@[simp] theorem State.setSubmission_exts (k : Nat) (v : Submission) : (s.setSubmission k v).exts = s.exts := rfl
@[simp] theorem State.setSubmission_tasks (k : Nat) (v : Submission) : (s.setSubmission k v).tasks = s.tasks := rfl
@[simp] theorem State.setSubmission_submissions (k : Nat) (v : Submission) :
    (s.setSubmission k v).submissions = AMap.set {} s.submissions k v := rfl
@[simp] theorem State.setSubmission_subscriptions (k : Nat) (v : Submission) :
    (s.setSubmission k v).subscriptions = s.subscriptions := rfl
@[simp] theorem State.setSubmission_accesses (k : Nat) (v : Submission) :
    (s.setSubmission k v).accesses = s.accesses := rfl
@[simp] theorem State.setSubmission_groups (k : Nat) (v : Submission) : (s.setSubmission k v).groups = s.groups := rfl
@[simp] theorem State.setSubmission_packets (k : Nat) (v : Submission) :
    (s.setSubmission k v).packets = s.packets := rfl
@[simp] theorem State.setSubmission_ops (k : Nat) (v : Submission) : (s.setSubmission k v).ops = s.ops := rfl
@[simp] theorem State.setSubmission_rounds (k : Nat) (v : Submission) : (s.setSubmission k v).rounds = s.rounds := rfl
@[simp] theorem State.setSubmission_changes (k : Nat) (v : Submission) :
    (s.setSubmission k v).changes = s.changes := rfl
@[simp] theorem State.setSubmission_transits (k : Nat) (v : Submission) :
    (s.setSubmission k v).transits = s.transits := rfl
@[simp] theorem State.setSubmission_entries (k : Nat) (v : Submission) :
    (s.setSubmission k v).entries = s.entries := rfl
@[simp] theorem State.setSubmission_saved (k : Nat) (v : Submission) : (s.setSubmission k v).saved = s.saved := rfl
@[simp] theorem State.setSubmission_notices (k : Nat) (v : Submission) :
    (s.setSubmission k v).notices = s.notices := rfl
@[simp] theorem State.setSubmission_owner (k : Nat) (v : Submission) : (s.setSubmission k v).owner = s.owner := rfl
@[simp] theorem State.setSubmission_pending (k : Nat) (v : Submission) :
    (s.setSubmission k v).pending = s.pending := rfl
@[simp] theorem State.setSubmission_timers (k : Nat) (v : Submission) : (s.setSubmission k v).timers = s.timers := rfl
@[simp] theorem State.setSubmission_order (k : Nat) (v : Submission) : (s.setSubmission k v).order = s.order := rfl
@[simp] theorem State.setSubmission_cur (k : Nat) (v : Submission) : (s.setSubmission k v).cur = s.cur := rfl
@[simp] theorem State.setSubmission_curOp (k : Nat) (v : Submission) : (s.setSubmission k v).curOp = s.curOp := rfl
@[simp] theorem State.setSubmission_focus (k : Nat) (v : Submission) : (s.setSubmission k v).focus = s.focus := rfl
@[simp] theorem State.setSubmission_nextId (k : Nat) (v : Submission) : (s.setSubmission k v).nextId = s.nextId := rfl
@[simp] theorem State.setSubmission_freeCtr (k : Nat) (v : Submission) :
    (s.setSubmission k v).freeCtr = s.freeCtr := rfl

/-! ### State.setSubscription -/

@[simp] theorem State.setSubscription_mem (k : Nat) (v : Subscription) : (s.setSubscription k v).mem = s.mem := rfl
@[simp] theorem State.setSubscription_empty (k : Nat) (v : Subscription) :
    (s.setSubscription k v).empty = s.empty := rfl
@[simp] theorem State.setSubscription_shadow (k : Nat) (v : Subscription) :
    (s.setSubscription k v).shadow = s.shadow := rfl
@[simp] theorem State.setSubscription_stamps (k : Nat) (v : Subscription) :
    (s.setSubscription k v).stamps = s.stamps := rfl
@[simp] theorem State.setSubscription_errors (k : Nat) (v : Subscription) :
    (s.setSubscription k v).errors = s.errors := rfl
@[simp] theorem State.setSubscription_slots (k : Nat) (v : Subscription) :
    (s.setSubscription k v).slots = s.slots := rfl
@[simp] theorem State.setSubscription_cores (k : Nat) (v : Subscription) :
    (s.setSubscription k v).cores = s.cores := rfl
@[simp] theorem State.setSubscription_nodes (k : Nat) (v : Subscription) :
    (s.setSubscription k v).nodes = s.nodes := rfl
@[simp] theorem State.setSubscription_dies (k : Nat) (v : Subscription) : (s.setSubscription k v).dies = s.dies := rfl
@[simp] theorem State.setSubscription_chips (k : Nat) (v : Subscription) :
    (s.setSubscription k v).chips = s.chips := rfl
@[simp] theorem State.setSubscription_parishes (k : Nat) (v : Subscription) :
    (s.setSubscription k v).parishes = s.parishes := rfl
@[simp] theorem State.setSubscription_objs (k : Nat) (v : Subscription) : (s.setSubscription k v).objs = s.objs := rfl
@[simp] theorem State.setSubscription_exts (k : Nat) (v : Subscription) : (s.setSubscription k v).exts = s.exts := rfl
@[simp] theorem State.setSubscription_tasks (k : Nat) (v : Subscription) :
    (s.setSubscription k v).tasks = s.tasks := rfl
@[simp] theorem State.setSubscription_submissions (k : Nat) (v : Subscription) :
    (s.setSubscription k v).submissions = s.submissions := rfl
@[simp] theorem State.setSubscription_subscriptions (k : Nat) (v : Subscription) :
    (s.setSubscription k v).subscriptions = AMap.set {} s.subscriptions k v := rfl
@[simp] theorem State.setSubscription_accesses (k : Nat) (v : Subscription) :
    (s.setSubscription k v).accesses = s.accesses := rfl
@[simp] theorem State.setSubscription_groups (k : Nat) (v : Subscription) :
    (s.setSubscription k v).groups = s.groups := rfl
@[simp] theorem State.setSubscription_packets (k : Nat) (v : Subscription) :
    (s.setSubscription k v).packets = s.packets := rfl
@[simp] theorem State.setSubscription_ops (k : Nat) (v : Subscription) : (s.setSubscription k v).ops = s.ops := rfl
@[simp] theorem State.setSubscription_rounds (k : Nat) (v : Subscription) :
    (s.setSubscription k v).rounds = s.rounds := rfl
@[simp] theorem State.setSubscription_changes (k : Nat) (v : Subscription) :
    (s.setSubscription k v).changes = s.changes := rfl
@[simp] theorem State.setSubscription_transits (k : Nat) (v : Subscription) :
    (s.setSubscription k v).transits = s.transits := rfl
@[simp] theorem State.setSubscription_entries (k : Nat) (v : Subscription) :
    (s.setSubscription k v).entries = s.entries := rfl
@[simp] theorem State.setSubscription_saved (k : Nat) (v : Subscription) :
    (s.setSubscription k v).saved = s.saved := rfl
@[simp] theorem State.setSubscription_notices (k : Nat) (v : Subscription) :
    (s.setSubscription k v).notices = s.notices := rfl
@[simp] theorem State.setSubscription_owner (k : Nat) (v : Subscription) :
    (s.setSubscription k v).owner = s.owner := rfl
@[simp] theorem State.setSubscription_pending (k : Nat) (v : Subscription) :
    (s.setSubscription k v).pending = s.pending := rfl
@[simp] theorem State.setSubscription_timers (k : Nat) (v : Subscription) :
    (s.setSubscription k v).timers = s.timers := rfl
@[simp] theorem State.setSubscription_order (k : Nat) (v : Subscription) :
    (s.setSubscription k v).order = s.order := rfl
@[simp] theorem State.setSubscription_cur (k : Nat) (v : Subscription) : (s.setSubscription k v).cur = s.cur := rfl
@[simp] theorem State.setSubscription_curOp (k : Nat) (v : Subscription) :
    (s.setSubscription k v).curOp = s.curOp := rfl
@[simp] theorem State.setSubscription_focus (k : Nat) (v : Subscription) :
    (s.setSubscription k v).focus = s.focus := rfl
@[simp] theorem State.setSubscription_nextId (k : Nat) (v : Subscription) :
    (s.setSubscription k v).nextId = s.nextId := rfl
@[simp] theorem State.setSubscription_freeCtr (k : Nat) (v : Subscription) :
    (s.setSubscription k v).freeCtr = s.freeCtr := rfl

/-! ### State.modAccess -/

@[simp] theorem State.modAccess_mem (id : Nat) (f : Access → Access) : (s.modAccess id f).mem = s.mem := rfl
@[simp] theorem State.modAccess_empty (id : Nat) (f : Access → Access) : (s.modAccess id f).empty = s.empty := rfl
@[simp] theorem State.modAccess_shadow (id : Nat) (f : Access → Access) : (s.modAccess id f).shadow = s.shadow := rfl
@[simp] theorem State.modAccess_stamps (id : Nat) (f : Access → Access) : (s.modAccess id f).stamps = s.stamps := rfl
@[simp] theorem State.modAccess_errors (id : Nat) (f : Access → Access) : (s.modAccess id f).errors = s.errors := rfl
@[simp] theorem State.modAccess_slots (id : Nat) (f : Access → Access) : (s.modAccess id f).slots = s.slots := rfl
@[simp] theorem State.modAccess_cores (id : Nat) (f : Access → Access) : (s.modAccess id f).cores = s.cores := rfl
@[simp] theorem State.modAccess_nodes (id : Nat) (f : Access → Access) : (s.modAccess id f).nodes = s.nodes := rfl
@[simp] theorem State.modAccess_dies (id : Nat) (f : Access → Access) : (s.modAccess id f).dies = s.dies := rfl
@[simp] theorem State.modAccess_chips (id : Nat) (f : Access → Access) : (s.modAccess id f).chips = s.chips := rfl
@[simp] theorem State.modAccess_parishes (id : Nat) (f : Access → Access) :
    (s.modAccess id f).parishes = s.parishes := rfl
@[simp] theorem State.modAccess_objs (id : Nat) (f : Access → Access) : (s.modAccess id f).objs = s.objs := rfl
@[simp] theorem State.modAccess_exts (id : Nat) (f : Access → Access) : (s.modAccess id f).exts = s.exts := rfl
@[simp] theorem State.modAccess_tasks (id : Nat) (f : Access → Access) : (s.modAccess id f).tasks = s.tasks := rfl
@[simp] theorem State.modAccess_submissions (id : Nat) (f : Access → Access) :
    (s.modAccess id f).submissions = s.submissions := rfl
@[simp] theorem State.modAccess_subscriptions (id : Nat) (f : Access → Access) :
    (s.modAccess id f).subscriptions = s.subscriptions := rfl
@[simp] theorem State.modAccess_accesses (id : Nat) (f : Access → Access) :
    (s.modAccess id f).accesses = modRec s.accesses id f := rfl
@[simp] theorem State.modAccess_groups (id : Nat) (f : Access → Access) : (s.modAccess id f).groups = s.groups := rfl
@[simp] theorem State.modAccess_packets (id : Nat) (f : Access → Access) :
    (s.modAccess id f).packets = s.packets := rfl
@[simp] theorem State.modAccess_ops (id : Nat) (f : Access → Access) : (s.modAccess id f).ops = s.ops := rfl
@[simp] theorem State.modAccess_rounds (id : Nat) (f : Access → Access) : (s.modAccess id f).rounds = s.rounds := rfl
@[simp] theorem State.modAccess_changes (id : Nat) (f : Access → Access) :
    (s.modAccess id f).changes = s.changes := rfl
@[simp] theorem State.modAccess_transits (id : Nat) (f : Access → Access) :
    (s.modAccess id f).transits = s.transits := rfl
@[simp] theorem State.modAccess_entries (id : Nat) (f : Access → Access) :
    (s.modAccess id f).entries = s.entries := rfl
@[simp] theorem State.modAccess_saved (id : Nat) (f : Access → Access) : (s.modAccess id f).saved = s.saved := rfl
@[simp] theorem State.modAccess_notices (id : Nat) (f : Access → Access) :
    (s.modAccess id f).notices = s.notices := rfl
@[simp] theorem State.modAccess_owner (id : Nat) (f : Access → Access) : (s.modAccess id f).owner = s.owner := rfl
@[simp] theorem State.modAccess_pending (id : Nat) (f : Access → Access) :
    (s.modAccess id f).pending = s.pending := rfl
@[simp] theorem State.modAccess_timers (id : Nat) (f : Access → Access) : (s.modAccess id f).timers = s.timers := rfl
@[simp] theorem State.modAccess_order (id : Nat) (f : Access → Access) : (s.modAccess id f).order = s.order := rfl
@[simp] theorem State.modAccess_cur (id : Nat) (f : Access → Access) : (s.modAccess id f).cur = s.cur := rfl
@[simp] theorem State.modAccess_curOp (id : Nat) (f : Access → Access) : (s.modAccess id f).curOp = s.curOp := rfl
@[simp] theorem State.modAccess_focus (id : Nat) (f : Access → Access) : (s.modAccess id f).focus = s.focus := rfl
@[simp] theorem State.modAccess_nextId (id : Nat) (f : Access → Access) : (s.modAccess id f).nextId = s.nextId := rfl
@[simp] theorem State.modAccess_freeCtr (id : Nat) (f : Access → Access) :
    (s.modAccess id f).freeCtr = s.freeCtr := rfl

/-! ### State.modPacket -/

@[simp] theorem State.modPacket_mem (id : Nat) (f : Packet → Packet) : (s.modPacket id f).mem = s.mem := rfl
@[simp] theorem State.modPacket_empty (id : Nat) (f : Packet → Packet) : (s.modPacket id f).empty = s.empty := rfl
@[simp] theorem State.modPacket_shadow (id : Nat) (f : Packet → Packet) : (s.modPacket id f).shadow = s.shadow := rfl
@[simp] theorem State.modPacket_stamps (id : Nat) (f : Packet → Packet) : (s.modPacket id f).stamps = s.stamps := rfl
@[simp] theorem State.modPacket_errors (id : Nat) (f : Packet → Packet) : (s.modPacket id f).errors = s.errors := rfl
@[simp] theorem State.modPacket_slots (id : Nat) (f : Packet → Packet) : (s.modPacket id f).slots = s.slots := rfl
@[simp] theorem State.modPacket_cores (id : Nat) (f : Packet → Packet) : (s.modPacket id f).cores = s.cores := rfl
@[simp] theorem State.modPacket_nodes (id : Nat) (f : Packet → Packet) : (s.modPacket id f).nodes = s.nodes := rfl
@[simp] theorem State.modPacket_dies (id : Nat) (f : Packet → Packet) : (s.modPacket id f).dies = s.dies := rfl
@[simp] theorem State.modPacket_chips (id : Nat) (f : Packet → Packet) : (s.modPacket id f).chips = s.chips := rfl
@[simp] theorem State.modPacket_parishes (id : Nat) (f : Packet → Packet) :
    (s.modPacket id f).parishes = s.parishes := rfl
@[simp] theorem State.modPacket_objs (id : Nat) (f : Packet → Packet) : (s.modPacket id f).objs = s.objs := rfl
@[simp] theorem State.modPacket_exts (id : Nat) (f : Packet → Packet) : (s.modPacket id f).exts = s.exts := rfl
@[simp] theorem State.modPacket_tasks (id : Nat) (f : Packet → Packet) : (s.modPacket id f).tasks = s.tasks := rfl
@[simp] theorem State.modPacket_submissions (id : Nat) (f : Packet → Packet) :
    (s.modPacket id f).submissions = s.submissions := rfl
@[simp] theorem State.modPacket_subscriptions (id : Nat) (f : Packet → Packet) :
    (s.modPacket id f).subscriptions = s.subscriptions := rfl
@[simp] theorem State.modPacket_accesses (id : Nat) (f : Packet → Packet) :
    (s.modPacket id f).accesses = s.accesses := rfl
@[simp] theorem State.modPacket_groups (id : Nat) (f : Packet → Packet) : (s.modPacket id f).groups = s.groups := rfl
@[simp] theorem State.modPacket_packets (id : Nat) (f : Packet → Packet) :
    (s.modPacket id f).packets = modRec s.packets id f := rfl
@[simp] theorem State.modPacket_ops (id : Nat) (f : Packet → Packet) : (s.modPacket id f).ops = s.ops := rfl
@[simp] theorem State.modPacket_rounds (id : Nat) (f : Packet → Packet) : (s.modPacket id f).rounds = s.rounds := rfl
@[simp] theorem State.modPacket_changes (id : Nat) (f : Packet → Packet) :
    (s.modPacket id f).changes = s.changes := rfl
@[simp] theorem State.modPacket_transits (id : Nat) (f : Packet → Packet) :
    (s.modPacket id f).transits = s.transits := rfl
@[simp] theorem State.modPacket_entries (id : Nat) (f : Packet → Packet) :
    (s.modPacket id f).entries = s.entries := rfl
@[simp] theorem State.modPacket_saved (id : Nat) (f : Packet → Packet) : (s.modPacket id f).saved = s.saved := rfl
@[simp] theorem State.modPacket_notices (id : Nat) (f : Packet → Packet) :
    (s.modPacket id f).notices = s.notices := rfl
@[simp] theorem State.modPacket_owner (id : Nat) (f : Packet → Packet) : (s.modPacket id f).owner = s.owner := rfl
@[simp] theorem State.modPacket_pending (id : Nat) (f : Packet → Packet) :
    (s.modPacket id f).pending = s.pending := rfl
@[simp] theorem State.modPacket_timers (id : Nat) (f : Packet → Packet) : (s.modPacket id f).timers = s.timers := rfl
@[simp] theorem State.modPacket_order (id : Nat) (f : Packet → Packet) : (s.modPacket id f).order = s.order := rfl
@[simp] theorem State.modPacket_cur (id : Nat) (f : Packet → Packet) : (s.modPacket id f).cur = s.cur := rfl
@[simp] theorem State.modPacket_curOp (id : Nat) (f : Packet → Packet) : (s.modPacket id f).curOp = s.curOp := rfl
@[simp] theorem State.modPacket_focus (id : Nat) (f : Packet → Packet) : (s.modPacket id f).focus = s.focus := rfl
@[simp] theorem State.modPacket_nextId (id : Nat) (f : Packet → Packet) : (s.modPacket id f).nextId = s.nextId := rfl
@[simp] theorem State.modPacket_freeCtr (id : Nat) (f : Packet → Packet) :
    (s.modPacket id f).freeCtr = s.freeCtr := rfl

/-! ### State.dropPacket -/

@[simp] theorem State.dropPacket_mem (id : Nat) : (s.dropPacket id).mem = s.mem := rfl
@[simp] theorem State.dropPacket_empty (id : Nat) : (s.dropPacket id).empty = s.empty := rfl
@[simp] theorem State.dropPacket_shadow (id : Nat) : (s.dropPacket id).shadow = s.shadow := rfl
@[simp] theorem State.dropPacket_stamps (id : Nat) : (s.dropPacket id).stamps = s.stamps := rfl
@[simp] theorem State.dropPacket_errors (id : Nat) : (s.dropPacket id).errors = s.errors := rfl
@[simp] theorem State.dropPacket_slots (id : Nat) : (s.dropPacket id).slots = s.slots := rfl
@[simp] theorem State.dropPacket_cores (id : Nat) : (s.dropPacket id).cores = s.cores := rfl
@[simp] theorem State.dropPacket_nodes (id : Nat) : (s.dropPacket id).nodes = s.nodes := rfl
@[simp] theorem State.dropPacket_dies (id : Nat) : (s.dropPacket id).dies = s.dies := rfl
@[simp] theorem State.dropPacket_chips (id : Nat) : (s.dropPacket id).chips = s.chips := rfl
@[simp] theorem State.dropPacket_parishes (id : Nat) : (s.dropPacket id).parishes = s.parishes := rfl
@[simp] theorem State.dropPacket_objs (id : Nat) : (s.dropPacket id).objs = s.objs := rfl
@[simp] theorem State.dropPacket_exts (id : Nat) : (s.dropPacket id).exts = s.exts := rfl
@[simp] theorem State.dropPacket_tasks (id : Nat) : (s.dropPacket id).tasks = s.tasks := rfl
@[simp] theorem State.dropPacket_submissions (id : Nat) : (s.dropPacket id).submissions = s.submissions := rfl
@[simp] theorem State.dropPacket_subscriptions (id : Nat) : (s.dropPacket id).subscriptions = s.subscriptions := rfl
@[simp] theorem State.dropPacket_accesses (id : Nat) : (s.dropPacket id).accesses = s.accesses := rfl
@[simp] theorem State.dropPacket_groups (id : Nat) : (s.dropPacket id).groups = s.groups := rfl
@[simp] theorem State.dropPacket_packets (id : Nat) : (s.dropPacket id).packets = dropRec s.packets id := rfl
@[simp] theorem State.dropPacket_ops (id : Nat) : (s.dropPacket id).ops = s.ops := rfl
@[simp] theorem State.dropPacket_rounds (id : Nat) : (s.dropPacket id).rounds = s.rounds := rfl
@[simp] theorem State.dropPacket_changes (id : Nat) : (s.dropPacket id).changes = s.changes := rfl
@[simp] theorem State.dropPacket_transits (id : Nat) : (s.dropPacket id).transits = s.transits := rfl
@[simp] theorem State.dropPacket_entries (id : Nat) : (s.dropPacket id).entries = s.entries := rfl
@[simp] theorem State.dropPacket_saved (id : Nat) : (s.dropPacket id).saved = s.saved := rfl
@[simp] theorem State.dropPacket_notices (id : Nat) : (s.dropPacket id).notices = s.notices := rfl
@[simp] theorem State.dropPacket_owner (id : Nat) : (s.dropPacket id).owner = s.owner := rfl
@[simp] theorem State.dropPacket_pending (id : Nat) : (s.dropPacket id).pending = s.pending := rfl
@[simp] theorem State.dropPacket_timers (id : Nat) : (s.dropPacket id).timers = s.timers := rfl
@[simp] theorem State.dropPacket_order (id : Nat) : (s.dropPacket id).order = s.order := rfl
@[simp] theorem State.dropPacket_cur (id : Nat) : (s.dropPacket id).cur = s.cur := rfl
@[simp] theorem State.dropPacket_curOp (id : Nat) : (s.dropPacket id).curOp = s.curOp := rfl
@[simp] theorem State.dropPacket_focus (id : Nat) : (s.dropPacket id).focus = s.focus := rfl
@[simp] theorem State.dropPacket_nextId (id : Nat) : (s.dropPacket id).nextId = s.nextId := rfl
@[simp] theorem State.dropPacket_freeCtr (id : Nat) : (s.dropPacket id).freeCtr = s.freeCtr := rfl

/-! ### State.modOp -/

@[simp] theorem State.modOp_mem (id : Nat) (f : EngOp → EngOp) : (s.modOp id f).mem = s.mem := rfl
@[simp] theorem State.modOp_empty (id : Nat) (f : EngOp → EngOp) : (s.modOp id f).empty = s.empty := rfl
@[simp] theorem State.modOp_shadow (id : Nat) (f : EngOp → EngOp) : (s.modOp id f).shadow = s.shadow := rfl
@[simp] theorem State.modOp_stamps (id : Nat) (f : EngOp → EngOp) : (s.modOp id f).stamps = s.stamps := rfl
@[simp] theorem State.modOp_errors (id : Nat) (f : EngOp → EngOp) : (s.modOp id f).errors = s.errors := rfl
@[simp] theorem State.modOp_slots (id : Nat) (f : EngOp → EngOp) : (s.modOp id f).slots = s.slots := rfl
@[simp] theorem State.modOp_cores (id : Nat) (f : EngOp → EngOp) : (s.modOp id f).cores = s.cores := rfl
@[simp] theorem State.modOp_nodes (id : Nat) (f : EngOp → EngOp) : (s.modOp id f).nodes = s.nodes := rfl
@[simp] theorem State.modOp_dies (id : Nat) (f : EngOp → EngOp) : (s.modOp id f).dies = s.dies := rfl
@[simp] theorem State.modOp_chips (id : Nat) (f : EngOp → EngOp) : (s.modOp id f).chips = s.chips := rfl
@[simp] theorem State.modOp_parishes (id : Nat) (f : EngOp → EngOp) : (s.modOp id f).parishes = s.parishes := rfl
@[simp] theorem State.modOp_objs (id : Nat) (f : EngOp → EngOp) : (s.modOp id f).objs = s.objs := rfl
@[simp] theorem State.modOp_exts (id : Nat) (f : EngOp → EngOp) : (s.modOp id f).exts = s.exts := rfl
@[simp] theorem State.modOp_tasks (id : Nat) (f : EngOp → EngOp) : (s.modOp id f).tasks = s.tasks := rfl
@[simp] theorem State.modOp_submissions (id : Nat) (f : EngOp → EngOp) :
    (s.modOp id f).submissions = s.submissions := rfl
@[simp] theorem State.modOp_subscriptions (id : Nat) (f : EngOp → EngOp) :
    (s.modOp id f).subscriptions = s.subscriptions := rfl
@[simp] theorem State.modOp_accesses (id : Nat) (f : EngOp → EngOp) : (s.modOp id f).accesses = s.accesses := rfl
@[simp] theorem State.modOp_groups (id : Nat) (f : EngOp → EngOp) : (s.modOp id f).groups = s.groups := rfl
@[simp] theorem State.modOp_packets (id : Nat) (f : EngOp → EngOp) : (s.modOp id f).packets = s.packets := rfl
@[simp] theorem State.modOp_ops (id : Nat) (f : EngOp → EngOp) : (s.modOp id f).ops = modRec s.ops id f := rfl
@[simp] theorem State.modOp_rounds (id : Nat) (f : EngOp → EngOp) : (s.modOp id f).rounds = s.rounds := rfl
@[simp] theorem State.modOp_changes (id : Nat) (f : EngOp → EngOp) : (s.modOp id f).changes = s.changes := rfl
@[simp] theorem State.modOp_transits (id : Nat) (f : EngOp → EngOp) : (s.modOp id f).transits = s.transits := rfl
@[simp] theorem State.modOp_entries (id : Nat) (f : EngOp → EngOp) : (s.modOp id f).entries = s.entries := rfl
@[simp] theorem State.modOp_saved (id : Nat) (f : EngOp → EngOp) : (s.modOp id f).saved = s.saved := rfl
@[simp] theorem State.modOp_notices (id : Nat) (f : EngOp → EngOp) : (s.modOp id f).notices = s.notices := rfl
@[simp] theorem State.modOp_owner (id : Nat) (f : EngOp → EngOp) : (s.modOp id f).owner = s.owner := rfl
@[simp] theorem State.modOp_pending (id : Nat) (f : EngOp → EngOp) : (s.modOp id f).pending = s.pending := rfl
@[simp] theorem State.modOp_timers (id : Nat) (f : EngOp → EngOp) : (s.modOp id f).timers = s.timers := rfl
@[simp] theorem State.modOp_order (id : Nat) (f : EngOp → EngOp) : (s.modOp id f).order = s.order := rfl
@[simp] theorem State.modOp_cur (id : Nat) (f : EngOp → EngOp) : (s.modOp id f).cur = s.cur := rfl
@[simp] theorem State.modOp_curOp (id : Nat) (f : EngOp → EngOp) : (s.modOp id f).curOp = s.curOp := rfl
@[simp] theorem State.modOp_focus (id : Nat) (f : EngOp → EngOp) : (s.modOp id f).focus = s.focus := rfl
@[simp] theorem State.modOp_nextId (id : Nat) (f : EngOp → EngOp) : (s.modOp id f).nextId = s.nextId := rfl
@[simp] theorem State.modOp_freeCtr (id : Nat) (f : EngOp → EngOp) : (s.modOp id f).freeCtr = s.freeCtr := rfl

/-! ### State.push -/

@[simp] theorem State.push_mem (d : Due) : (s.push d).mem = s.mem := rfl
@[simp] theorem State.push_empty (d : Due) : (s.push d).empty = s.empty := rfl
@[simp] theorem State.push_shadow (d : Due) : (s.push d).shadow = s.shadow := rfl
@[simp] theorem State.push_stamps (d : Due) : (s.push d).stamps = s.stamps := rfl
@[simp] theorem State.push_errors (d : Due) : (s.push d).errors = s.errors := rfl
@[simp] theorem State.push_slots (d : Due) : (s.push d).slots = s.slots := rfl
@[simp] theorem State.push_cores (d : Due) : (s.push d).cores = s.cores := rfl
@[simp] theorem State.push_nodes (d : Due) : (s.push d).nodes = s.nodes := rfl
@[simp] theorem State.push_dies (d : Due) : (s.push d).dies = s.dies := rfl
@[simp] theorem State.push_chips (d : Due) : (s.push d).chips = s.chips := rfl
@[simp] theorem State.push_parishes (d : Due) : (s.push d).parishes = s.parishes := rfl
@[simp] theorem State.push_objs (d : Due) : (s.push d).objs = s.objs := rfl
@[simp] theorem State.push_exts (d : Due) : (s.push d).exts = s.exts := rfl
@[simp] theorem State.push_tasks (d : Due) : (s.push d).tasks = s.tasks := rfl
@[simp] theorem State.push_submissions (d : Due) : (s.push d).submissions = s.submissions := rfl
@[simp] theorem State.push_subscriptions (d : Due) : (s.push d).subscriptions = s.subscriptions := rfl
@[simp] theorem State.push_accesses (d : Due) : (s.push d).accesses = s.accesses := rfl
@[simp] theorem State.push_groups (d : Due) : (s.push d).groups = s.groups := rfl
@[simp] theorem State.push_packets (d : Due) : (s.push d).packets = s.packets := rfl
@[simp] theorem State.push_ops (d : Due) : (s.push d).ops = s.ops := rfl
@[simp] theorem State.push_rounds (d : Due) : (s.push d).rounds = s.rounds := rfl
@[simp] theorem State.push_changes (d : Due) : (s.push d).changes = s.changes := rfl
@[simp] theorem State.push_transits (d : Due) : (s.push d).transits = s.transits := rfl
@[simp] theorem State.push_entries (d : Due) : (s.push d).entries = s.entries := rfl
@[simp] theorem State.push_saved (d : Due) : (s.push d).saved = s.saved := rfl
@[simp] theorem State.push_notices (d : Due) : (s.push d).notices = s.notices := rfl
@[simp] theorem State.push_owner (d : Due) : (s.push d).owner = s.owner := rfl
@[simp] theorem State.push_pending (d : Due) : (s.push d).pending = s.pending ++ [d] := rfl
@[simp] theorem State.push_timers (d : Due) : (s.push d).timers = s.timers := rfl
@[simp] theorem State.push_order (d : Due) : (s.push d).order = s.order := rfl
@[simp] theorem State.push_cur (d : Due) : (s.push d).cur = s.cur := rfl
@[simp] theorem State.push_curOp (d : Due) : (s.push d).curOp = s.curOp := rfl
@[simp] theorem State.push_focus (d : Due) : (s.push d).focus = s.focus := rfl
@[simp] theorem State.push_nextId (d : Due) : (s.push d).nextId = s.nextId := rfl
@[simp] theorem State.push_freeCtr (d : Due) : (s.push d).freeCtr = s.freeCtr := rfl

/-! ### State.event -/

@[simp] theorem State.event_mem (i : Instr) : (s.event i).mem = s.mem := rfl
@[simp] theorem State.event_empty (i : Instr) : (s.event i).empty = s.empty := rfl
@[simp] theorem State.event_shadow (i : Instr) : (s.event i).shadow = s.shadow := rfl
@[simp] theorem State.event_stamps (i : Instr) : (s.event i).stamps = s.stamps := rfl
@[simp] theorem State.event_errors (i : Instr) : (s.event i).errors = s.errors := rfl
@[simp] theorem State.event_slots (i : Instr) : (s.event i).slots = s.slots := rfl
@[simp] theorem State.event_cores (i : Instr) : (s.event i).cores = s.cores := rfl
@[simp] theorem State.event_nodes (i : Instr) : (s.event i).nodes = s.nodes := rfl
@[simp] theorem State.event_dies (i : Instr) : (s.event i).dies = s.dies := rfl
@[simp] theorem State.event_chips (i : Instr) : (s.event i).chips = s.chips := rfl
@[simp] theorem State.event_parishes (i : Instr) : (s.event i).parishes = s.parishes := rfl
@[simp] theorem State.event_objs (i : Instr) : (s.event i).objs = s.objs := rfl
@[simp] theorem State.event_exts (i : Instr) : (s.event i).exts = s.exts := rfl
@[simp] theorem State.event_tasks (i : Instr) : (s.event i).tasks = s.tasks := rfl
@[simp] theorem State.event_submissions (i : Instr) : (s.event i).submissions = s.submissions := rfl
@[simp] theorem State.event_subscriptions (i : Instr) : (s.event i).subscriptions = s.subscriptions := rfl
@[simp] theorem State.event_accesses (i : Instr) : (s.event i).accesses = s.accesses := rfl
@[simp] theorem State.event_groups (i : Instr) : (s.event i).groups = s.groups := rfl
@[simp] theorem State.event_packets (i : Instr) : (s.event i).packets = s.packets := rfl
@[simp] theorem State.event_ops (i : Instr) : (s.event i).ops = s.ops := rfl
@[simp] theorem State.event_rounds (i : Instr) : (s.event i).rounds = s.rounds := rfl
@[simp] theorem State.event_changes (i : Instr) : (s.event i).changes = s.changes := rfl
@[simp] theorem State.event_transits (i : Instr) : (s.event i).transits = s.transits := rfl
@[simp] theorem State.event_entries (i : Instr) : (s.event i).entries = s.entries := rfl
@[simp] theorem State.event_saved (i : Instr) : (s.event i).saved = s.saved := rfl
@[simp] theorem State.event_notices (i : Instr) : (s.event i).notices = s.notices := rfl
@[simp] theorem State.event_owner (i : Instr) : (s.event i).owner = s.owner := rfl
@[simp] theorem State.event_pending (i : Instr) : (s.event i).pending = s.pending ++ [.event i] := rfl
@[simp] theorem State.event_timers (i : Instr) : (s.event i).timers = s.timers := rfl
@[simp] theorem State.event_order (i : Instr) : (s.event i).order = s.order := rfl
@[simp] theorem State.event_cur (i : Instr) : (s.event i).cur = s.cur := rfl
@[simp] theorem State.event_curOp (i : Instr) : (s.event i).curOp = s.curOp := rfl
@[simp] theorem State.event_focus (i : Instr) : (s.event i).focus = s.focus := rfl
@[simp] theorem State.event_nextId (i : Instr) : (s.event i).nextId = s.nextId := rfl
@[simp] theorem State.event_freeCtr (i : Instr) : (s.event i).freeCtr = s.freeCtr := rfl

/-! ### State.setByte -/

@[simp] theorem State.setByte_mem (pa : Nat) (b : Byte) :
    (s.setByte pa b).mem = AMap.set unlistedByte s.mem pa b := rfl
@[simp] theorem State.setByte_empty (pa : Nat) (b : Byte) : (s.setByte pa b).empty = s.empty := rfl
@[simp] theorem State.setByte_shadow (pa : Nat) (b : Byte) : (s.setByte pa b).shadow = s.shadow := rfl
@[simp] theorem State.setByte_stamps (pa : Nat) (b : Byte) : (s.setByte pa b).stamps = s.stamps := rfl
@[simp] theorem State.setByte_errors (pa : Nat) (b : Byte) : (s.setByte pa b).errors = s.errors := rfl
@[simp] theorem State.setByte_slots (pa : Nat) (b : Byte) : (s.setByte pa b).slots = s.slots := rfl
@[simp] theorem State.setByte_cores (pa : Nat) (b : Byte) : (s.setByte pa b).cores = s.cores := rfl
@[simp] theorem State.setByte_nodes (pa : Nat) (b : Byte) : (s.setByte pa b).nodes = s.nodes := rfl
@[simp] theorem State.setByte_dies (pa : Nat) (b : Byte) : (s.setByte pa b).dies = s.dies := rfl
@[simp] theorem State.setByte_chips (pa : Nat) (b : Byte) : (s.setByte pa b).chips = s.chips := rfl
@[simp] theorem State.setByte_parishes (pa : Nat) (b : Byte) : (s.setByte pa b).parishes = s.parishes := rfl
@[simp] theorem State.setByte_objs (pa : Nat) (b : Byte) : (s.setByte pa b).objs = s.objs := rfl
@[simp] theorem State.setByte_exts (pa : Nat) (b : Byte) : (s.setByte pa b).exts = s.exts := rfl
@[simp] theorem State.setByte_tasks (pa : Nat) (b : Byte) : (s.setByte pa b).tasks = s.tasks := rfl
@[simp] theorem State.setByte_submissions (pa : Nat) (b : Byte) : (s.setByte pa b).submissions = s.submissions := rfl
@[simp] theorem State.setByte_subscriptions (pa : Nat) (b : Byte) :
    (s.setByte pa b).subscriptions = s.subscriptions := rfl
@[simp] theorem State.setByte_accesses (pa : Nat) (b : Byte) : (s.setByte pa b).accesses = s.accesses := rfl
@[simp] theorem State.setByte_groups (pa : Nat) (b : Byte) : (s.setByte pa b).groups = s.groups := rfl
@[simp] theorem State.setByte_packets (pa : Nat) (b : Byte) : (s.setByte pa b).packets = s.packets := rfl
@[simp] theorem State.setByte_ops (pa : Nat) (b : Byte) : (s.setByte pa b).ops = s.ops := rfl
@[simp] theorem State.setByte_rounds (pa : Nat) (b : Byte) : (s.setByte pa b).rounds = s.rounds := rfl
@[simp] theorem State.setByte_changes (pa : Nat) (b : Byte) : (s.setByte pa b).changes = s.changes := rfl
@[simp] theorem State.setByte_transits (pa : Nat) (b : Byte) : (s.setByte pa b).transits = s.transits := rfl
@[simp] theorem State.setByte_entries (pa : Nat) (b : Byte) : (s.setByte pa b).entries = s.entries := rfl
@[simp] theorem State.setByte_saved (pa : Nat) (b : Byte) : (s.setByte pa b).saved = s.saved := rfl
@[simp] theorem State.setByte_notices (pa : Nat) (b : Byte) : (s.setByte pa b).notices = s.notices := rfl
@[simp] theorem State.setByte_owner (pa : Nat) (b : Byte) : (s.setByte pa b).owner = s.owner := rfl
@[simp] theorem State.setByte_pending (pa : Nat) (b : Byte) : (s.setByte pa b).pending = s.pending := rfl
@[simp] theorem State.setByte_timers (pa : Nat) (b : Byte) : (s.setByte pa b).timers = s.timers := rfl
@[simp] theorem State.setByte_order (pa : Nat) (b : Byte) : (s.setByte pa b).order = s.order := rfl
@[simp] theorem State.setByte_cur (pa : Nat) (b : Byte) : (s.setByte pa b).cur = s.cur := rfl
@[simp] theorem State.setByte_curOp (pa : Nat) (b : Byte) : (s.setByte pa b).curOp = s.curOp := rfl
@[simp] theorem State.setByte_focus (pa : Nat) (b : Byte) : (s.setByte pa b).focus = s.focus := rfl
@[simp] theorem State.setByte_nextId (pa : Nat) (b : Byte) : (s.setByte pa b).nextId = s.nextId := rfl
@[simp] theorem State.setByte_freeCtr (pa : Nat) (b : Byte) : (s.setByte pa b).freeCtr = s.freeCtr := rfl

/-! ### State.setBytes -/

@[simp] theorem State.setBytes_mem (l : List (Nat × Byte)) :
    (s.setBytes l).mem = l.foldl (fun m e => AMap.set unlistedByte m e.1 e.2) s.mem := rfl
@[simp] theorem State.setBytes_empty (l : List (Nat × Byte)) : (s.setBytes l).empty = s.empty := rfl
@[simp] theorem State.setBytes_shadow (l : List (Nat × Byte)) : (s.setBytes l).shadow = s.shadow := rfl
@[simp] theorem State.setBytes_stamps (l : List (Nat × Byte)) : (s.setBytes l).stamps = s.stamps := rfl
@[simp] theorem State.setBytes_errors (l : List (Nat × Byte)) : (s.setBytes l).errors = s.errors := rfl
@[simp] theorem State.setBytes_slots (l : List (Nat × Byte)) : (s.setBytes l).slots = s.slots := rfl
@[simp] theorem State.setBytes_cores (l : List (Nat × Byte)) : (s.setBytes l).cores = s.cores := rfl
@[simp] theorem State.setBytes_nodes (l : List (Nat × Byte)) : (s.setBytes l).nodes = s.nodes := rfl
@[simp] theorem State.setBytes_dies (l : List (Nat × Byte)) : (s.setBytes l).dies = s.dies := rfl
@[simp] theorem State.setBytes_chips (l : List (Nat × Byte)) : (s.setBytes l).chips = s.chips := rfl
@[simp] theorem State.setBytes_parishes (l : List (Nat × Byte)) : (s.setBytes l).parishes = s.parishes := rfl
@[simp] theorem State.setBytes_objs (l : List (Nat × Byte)) : (s.setBytes l).objs = s.objs := rfl
@[simp] theorem State.setBytes_exts (l : List (Nat × Byte)) : (s.setBytes l).exts = s.exts := rfl
@[simp] theorem State.setBytes_tasks (l : List (Nat × Byte)) : (s.setBytes l).tasks = s.tasks := rfl
@[simp] theorem State.setBytes_submissions (l : List (Nat × Byte)) : (s.setBytes l).submissions = s.submissions := rfl
@[simp] theorem State.setBytes_subscriptions (l : List (Nat × Byte)) :
    (s.setBytes l).subscriptions = s.subscriptions := rfl
@[simp] theorem State.setBytes_accesses (l : List (Nat × Byte)) : (s.setBytes l).accesses = s.accesses := rfl
@[simp] theorem State.setBytes_groups (l : List (Nat × Byte)) : (s.setBytes l).groups = s.groups := rfl
@[simp] theorem State.setBytes_packets (l : List (Nat × Byte)) : (s.setBytes l).packets = s.packets := rfl
@[simp] theorem State.setBytes_ops (l : List (Nat × Byte)) : (s.setBytes l).ops = s.ops := rfl
@[simp] theorem State.setBytes_rounds (l : List (Nat × Byte)) : (s.setBytes l).rounds = s.rounds := rfl
@[simp] theorem State.setBytes_changes (l : List (Nat × Byte)) : (s.setBytes l).changes = s.changes := rfl
@[simp] theorem State.setBytes_transits (l : List (Nat × Byte)) : (s.setBytes l).transits = s.transits := rfl
@[simp] theorem State.setBytes_entries (l : List (Nat × Byte)) : (s.setBytes l).entries = s.entries := rfl
@[simp] theorem State.setBytes_saved (l : List (Nat × Byte)) : (s.setBytes l).saved = s.saved := rfl
@[simp] theorem State.setBytes_notices (l : List (Nat × Byte)) : (s.setBytes l).notices = s.notices := rfl
@[simp] theorem State.setBytes_owner (l : List (Nat × Byte)) : (s.setBytes l).owner = s.owner := rfl
@[simp] theorem State.setBytes_pending (l : List (Nat × Byte)) : (s.setBytes l).pending = s.pending := rfl
@[simp] theorem State.setBytes_timers (l : List (Nat × Byte)) : (s.setBytes l).timers = s.timers := rfl
@[simp] theorem State.setBytes_order (l : List (Nat × Byte)) : (s.setBytes l).order = s.order := rfl
@[simp] theorem State.setBytes_cur (l : List (Nat × Byte)) : (s.setBytes l).cur = s.cur := rfl
@[simp] theorem State.setBytes_curOp (l : List (Nat × Byte)) : (s.setBytes l).curOp = s.curOp := rfl
@[simp] theorem State.setBytes_focus (l : List (Nat × Byte)) : (s.setBytes l).focus = s.focus := rfl
@[simp] theorem State.setBytes_nextId (l : List (Nat × Byte)) : (s.setBytes l).nextId = s.nextId := rfl
@[simp] theorem State.setBytes_freeCtr (l : List (Nat × Byte)) : (s.setBytes l).freeCtr = s.freeCtr := rfl

end Sys2Proof.Machine
end

