-- ==== Sys2Proof/Laws/Ops.lean ====
section
/-! SUPPORT. What each shared operation over registers, guards and traps can do, said once. -/

namespace Sys2Proof.Machine

/-! ### Parts of the state after an update -/

@[simp] theorem State.slot_setSlot_self (s : State) (t : Nat) (v : Slot) : (s.setSlot t v).slot t = v := by
  simp [State.slot]

theorem State.slot_setSlot_ne (s : State) (v : Slot) {t u : Nat} (h : u ≠ t) : (s.setSlot t v).slot u = s.slot u := by
  simp [State.slot, h]

@[simp] theorem State.slot_modSlot_self (s : State) (t : Nat) (f : Slot → Slot) : (s.modSlot t f).slot t = f (s.slot t) := by
  simp [State.modSlot]

theorem State.slot_modSlot_ne (s : State) (f : Slot → Slot) {t u : Nat} (h : u ≠ t) :
    (s.modSlot t f).slot u = s.slot u := by
  simp [State.modSlot, State.slot_setSlot_ne s _ h]

@[simp] theorem State.here_modHere (s : State) (f : Slot → Slot) : (s.modHere f).here = f s.here := by
  simp [State.modHere, State.here]

@[simp] theorem State.core_modCore_self (s : State) (c : Nat) (f : Core → Core) : (s.modCore c f).core c = f (s.core c) := by
  simp [State.core]

@[simp] theorem State.node_modNode_self (s : State) (n : Nat) (f : Node → Node) : (s.modNode n f).node n = f (s.node n) := by
  simp [State.node]

@[simp] theorem State.die_modDie_self (s : State) (d : Nat) (f : Die → Die) : (s.modDie d f).die d = f (s.die d) := by
  simp [State.die]

@[simp] theorem State.chip_modChip_self (s : State) (c : Nat) (f : Chip → Chip) : (s.modChip c f).chip c = f (s.chip c) := by
  simp [State.chip]

@[simp] theorem State.parish_modParish_self (s : State) (p : Nat) (f : Parish → Parish) :
    (s.modParish p f).parish p = f (s.parish p) := by
  simp [State.parish]

@[simp] theorem State.task_modTask_self (s : State) (k : Nat) (f : Task → Task) : (s.modTask k f).task k = f (s.task k) := by
  simp [State.task]

@[simp] theorem State.event_slot (s : State) (i : Instr) (t : Nat) : (s.event i).slot t = s.slot t := rfl

/-! ### Registers -/

@[simp] theorem State.regOf_zero (s : State) (t : Nat) : s.regOf t 0 = 0 := by simp [State.regOf]

@[simp] theorem State.regOf_identity (s : State) (t : Nat) : s.regOf t 15 = identityOf t := by simp [State.regOf]

/-- A write to x0 or x15 is discarded. -/
theorem State.setRegOf_discard (s : State) (t : Nat) (v : Word) {d : Field4} (h : d = 0 ∨ d = 15) :
    s.setRegOf t d v = s := if_pos h

@[simp] theorem State.setRegOf_cur (s : State) (t : Nat) (d : Field4) (v : Word) : (s.setRegOf t d v).cur = s.cur := by
  unfold State.setRegOf; split <;> rfl

@[simp] theorem State.setReg_cur (s : State) (d : Field4) (v : Word) : (s.setReg d v).cur = s.cur := by
  simp [State.setReg]

/-- A register of one's own reads what was written to it. -/
theorem State.regOf_setRegOf_self (s : State) (t : Nat) (v : Word) {d : Field4} (h0 : d ≠ 0) (h15 : d ≠ 15)
    (hw : (s.slot t).wf = false ∨ d.toNat < 11) : (s.setRegOf t d v).regOf t d = v := by
  have hd : d.toNat < 15 := by
    have h1 : d.toNat < 16 := d.isLt
    have h2 : d.toNat ≠ 15 := fun e => h15 (BitVec.eq_of_toNat_eq (by simpa using e))
    omega
  have hwf : ((s.slot t).wf && decide (11 ≤ d.toNat)) = false := by
    rcases hw with hw | hw
    · simp [hw]
    · simp; omega
  have h0' : ¬ d = 0#4 := h0
  have h15' : ¬ d = 15#4 := h15
  unfold State.setRegOf State.regOf
  simp [h0', h15', hd, hwf]

/-- Every other register reads as before. -/
theorem State.regOf_setRegOf_ne (s : State) (t : Nat) (v : Word) {d r : Field4} (h : r ≠ d) :
    (s.setRegOf t d v).regOf t r = s.regOf t r := by
  unfold State.setRegOf
  split
  · rfl
  · have hn : d.toNat ≠ r.toNat := fun e => h (BitVec.eq_of_toNat_eq e.symm)
    unfold State.regOf
    simp [hn]

theorem State.regOf_setRegOf_other (s : State) (v : Word) (d r : Field4) {t u : Nat} (h : u ≠ t) :
    (s.setRegOf t d v).regOf u r = s.regOf u r := by
  unfold State.setRegOf
  split
  · rfl
  · unfold State.regOf
    rw [State.slot_modSlot_ne s _ h]

/-! ### Guards and the shape of a scalar meaning -/

theorem guardHolds_unguarded (g : Guard) (s : State) (h : g.e = false) : guardHolds g s = true := by
  simp [guardHolds, h]

theorem scalar_true {g : Guard} {s : State} (h : guardHolds g s = true) (k : State → State) : scalar g s k = .next (k s) := by
  simp [scalar, h]

theorem scalar_false {g : Guard} {s : State} (h : guardHolds g s = false) (k : State → State) :
    scalar g s k = .next s.finish := by
  simp [scalar, h]

theorem withDest_ok {d : Field4} (h : shadowReg d = false) (s : State) (k : State → State) : withDest d s k = k s := by
  simp [withDest, h]

theorem withDest_shadow {d : Field4} (h : shadowReg d = true) (s : State) (k : State → State) :
    withDest d s k = s.trap 0x03 s.wordVal := by
  simp [withDest, h]

theorem atHome_ok {s : State} (h : s.here.wf = false) (k : State → State) : atHome s k = k s := by
  simp [atHome, h]

theorem atHome_away {s : State} (h : s.here.wf = true) (k : State → State) : atHome s k = s.trap 0x13 s.wordVal := by
  simp [atHome, h]

/-- A release with nothing outstanding and no mark takes effect at once. -/
theorem withRelease_ok {s : State} (h : s.released s.cur = true) (hu : s.here.unreachable = none)
    (hl : s.here.linkLost = none) (he : s.here.writeError = none) (k : State → State) : withRelease s k = k s := by
  simp [withRelease, h, hu, hl, he]

@[simp] theorem State.finishOf_slot (s : State) (t : Nat) :
    (s.finishOf t).slot t = { s.slot t with pc := (s.slot t).pc + 4, state := .ready } := by
  simp [State.finishOf]

/-! ### Predicates -/

theorem getLsbD_setPredBit (w : BitVec 16) (p q : Field4) (v : Bool) :
    (setPredBit w p v).getLsbD q.toNat = if q = p then v else w.getLsbD q.toNat := by
  have hq : q.toNat < 16 := q.isLt
  have hb : ((1 <<< p.toNat : Nat) : BitVec 16).getLsbD q.toNat = decide (q = p) := by
    clear hq; revert p q; decide
  unfold setPredBit
  cases v
  · simp only [Bool.false_eq_true, if_false, BitVec.getLsbD_and, BitVec.getLsbD_not, hq, decide_true, Bool.true_and]
    rw [hb]
    by_cases h : q = p <;> simp [h]
  · simp only [if_true, BitVec.getLsbD_or]
    rw [hb]
    by_cases h : q = p <;> simp [h]

/-- A predicate reads what was written to it, and every other one as before. -/
theorem State.pred_setPred (s : State) (p q : Field4) (v : Bool) :
    (s.setPred p v).pred q = if q = p then v else s.pred q := by
  simp [State.setPred, State.pred, getLsbD_setPredBit]

/-! ### Traps -/

/-- A trap that the thread's own handler takes (R368). -/
theorem State.trapIn_handler (s : State) (t c : Nat) (v : Word) (hc : supervisorCause c = false)
    (hv : (s.slot t).tvec ≠ 0) (hi : (s.slot t).ih = false) :
    s.trapIn t c v = s.setSlot t { s.slot t with cause := BitVec.ofNat 64 c, epc := (s.slot t).pc, tval := v,
                                                 ppl := (s.slot t).pl, ih := true, unreachable := none,
                                                 pc := (s.slot t).tvec, state := .ready } := by
  have hv' : ¬ (s.slot t).tvec = 0#64 := hv
  simp [State.trapIn, hc, hv', hi]

/-- A trap that goes to the supervisor from outside a handler (R368, R369). -/
theorem State.trapIn_supervisor (s : State) (t c : Nat) (v : Word)
    (h : supervisorCause c = true ∨ (s.slot t).tvec = 0) (hi : (s.slot t).ih = false) :
    s.trapIn t c v = (s.setSlot t { s.slot t with cause := BitVec.ofNat 64 c, epc := (s.slot t).pc, tval := v,
                                                  trap := some (BitVec.ofNat 64 c, (s.slot t).pc, v),
                                                  state := .saving 2 }).event (.contextSave t) := by
  rcases h with h | h <;> simp [State.trapIn, h, hi]

/-- A trap inside a handler goes to the supervisor and leaves the trap registers as they are (R368). -/
theorem State.trapIn_nested (s : State) (t c : Nat) (v : Word) (hi : (s.slot t).ih = true) :
    s.trapIn t c v = (s.setSlot t { s.slot t with trap := some (BitVec.ofNat 64 c, (s.slot t).pc, v),
                                                  state := .saving 3 }).event (.contextSave t) := by
  simp [State.trapIn, hi]

theorem State.eret_inside (s : State) (h : s.here.ih = true) :
    s.eret = s.modHere fun c => { c with pc := c.epc, pl := c.ppl, ih := false, state := .ready } := by
  simp [State.eret, h]

theorem State.eret_outside (s : State) (h : s.here.ih = false) : s.eret = s.trap 0x04 s.wordVal := by
  simp [State.eret, h]

end Sys2Proof.Machine
end

