-- ==== Sys2Proof/Laws/Frames.lean ====
section
/-! SUPPORT. Frames of the shared ends of scalar instructions: advancing the PC, writing a register, writing a
predicate. -/

namespace Sys2Proof.Machine

/-- A register other than x0 and x15 is written in the slot of the current thread. -/
theorem State.setReg_slot (s : State) (v : Word) {d : Field4} (h : ¬(d = 0 ∨ d = 15)) :
    s.setReg d v = s.modHere fun c => { c with x := c.x.setIfInBounds d.toNat v } := by
  unfold State.setReg State.setRegOf
  rw [if_neg h]
  rfl

/-- A register that is no shadow and not x15 is x10 or lower. -/
theorem lt_of_not_shadow {d : Field4} (h : shadowReg d = false) (h15 : d ≠ 15) : d.toNat < 11 := by
  have h1 : d.toNat < 16 := d.isLt
  have h2 : d.toNat ≠ 15 := fun e => h15 (BitVec.eq_of_toNat_eq (by simpa using e))
  simp [shadowReg] at h
  omega

theorem State.reg_setReg_ne (s : State) (v : Word) {d r : Field4} (h : r ≠ d) : (s.setReg d v).reg r = s.reg r := by
  have := State.regOf_setRegOf_ne s s.cur v h
  simpa [State.reg, State.setReg] using this

theorem State.reg_setReg_self (s : State) (v : Word) {d : Field4} (hd : shadowReg d = false) (h0 : d ≠ 0) (h15 : d ≠ 15) :
    (s.setReg d v).reg d = v := by
  unfold State.reg State.setReg
  rw [State.setRegOf_cur]
  exact State.regOf_setRegOf_self _ _ _ h0 h15 (Or.inr (lt_of_not_shadow hd h15))

@[simp] theorem State.finish_reg (s : State) (r : Field4) : s.finish.reg r = s.reg r := by
  simp only [State.reg, State.regOf, State.finish, State.finishOf]
  simp

@[simp] theorem State.finish_here (s : State) : s.finish.here = { s.here with pc := s.here.pc + 4, state := .ready } := by
  simp [State.finish, State.here, State.finishOf]

/-- Nothing but the slot of the current thread changes when that slot is changed. -/
theorem onlyThread_modHere (s : State) (f : Slot → Slot) : OnlyThread s (s.modHere f) :=
  ⟨rfl, fun _ hu => State.slot_modSlot_ne _ _ hu, fun _ => rfl⟩

theorem onlyThread_trans {s t u : State} (h : OnlyThread s t) (hc : t.cur = s.cur) (h' : OnlyThread t u) : OnlyThread s u :=
  ⟨by rw [h'.rest, h.rest], fun k hk => (h'.others k (hc ▸ hk)).trans (h.others k hk), fun a => (h'.memory a).trans (h.memory a)⟩

theorem onlyThread_finish (s : State) : OnlyThread s s.finish := onlyThread_modHere s _

theorem onlyThread_setReg (s : State) (d : Field4) (v : Word) : OnlyThread s (s.setReg d v) := by
  by_cases h : d = 0 ∨ d = 15
  · rw [State.setReg, State.setRegOf_discard _ _ _ h]
    exact ⟨rfl, fun _ _ => rfl, fun _ => rfl⟩
  · rw [State.setReg_slot _ _ h]
    exact onlyThread_modHere _ _

/-- An instruction that only completes. -/
theorem xFrame_finish (s : State) (ds : List Field4) : XFrame s s.finish ds :=
  ⟨onlyThread_finish s, by simp, fun r _ => State.finish_reg s r⟩

/-- An instruction that writes one register and completes. -/
theorem xFrame_write (s : State) (d : Field4) (v : Word) : XFrame s (s.setReg d v).finish [d] := by
  refine ⟨onlyThread_trans (onlyThread_setReg s d v) (State.setReg_cur s d v) (onlyThread_finish _), ?_, ?_⟩
  · by_cases h : d = 0 ∨ d = 15
    · rw [State.setReg, State.setRegOf_discard _ _ _ h]
      simp
    · rw [State.setReg_slot _ _ h]
      simp
  · intro r hr
    rw [State.finish_reg]
    exact State.reg_setReg_ne s v (by simpa using hr)

theorem setReg_finish_pc (s : State) (d : Field4) (v : Word) : (s.setReg d v).finish.here.pc = s.here.pc + 4 := by
  by_cases h : d = 0 ∨ d = 15
  · rw [State.setReg, State.setRegOf_discard _ _ _ h]
    simp
  · rw [State.setReg_slot _ _ h]
    simp

/-- An instruction that writes one predicate and completes. -/
theorem predFrame_write (s : State) (p : Field4) (v : Bool) : PredFrame s (s.setPred p v).finish p := by
  refine ⟨onlyThread_trans (onlyThread_modHere s _) rfl (onlyThread_finish _), ?_, ?_⟩
  · rw [State.finish_here]
    unfold State.setPred
    rw [State.here_modHere]
  · intro q hq
    have : (s.setPred p v).finish.pred q = (s.setPred p v).pred q := by simp [State.pred]
    rw [this, State.pred_setPred, if_neg hq]

end Sys2Proof.Machine
end

