-- ==== Sys2Proof/Laws/Memory.lean ====
section
/-! SUPPORT. Memory: reads after writes, and that every operation that writes memory keeps its canonical form. -/

namespace Sys2Proof.Machine

/-- The memory of a state has its canonical form. -/
abbrev State.MemOk (s : State) : Prop := Memory.wf s.mem = true

theorem reset_memOk : State.reset.MemOk := rfl

/-! ### The canonical form -/

theorem wf_foldl_set {d : Byte} {m : AMap Byte} (l : List (Nat × Byte)) (h : AMap.wf d m = true) :
    AMap.wf d (l.foldl (fun m e => AMap.set d m e.1 e.2) m) = true := by
  induction l generalizing m with
  | nil => exact h
  | cons e r ih => exact ih (AMap.wf_set e.1 e.2 h)

theorem State.setByte_memOk {s : State} (pa : Nat) (b : Byte) (h : s.MemOk) : (s.setByte pa b).MemOk :=
  AMap.wf_set pa b h

theorem State.setBytes_memOk {s : State} (l : List (Nat × Byte)) (h : s.MemOk) : (s.setBytes l).MemOk :=
  wf_foldl_set l h

theorem State.storeLE_memOk {s : State} (pa n : Nat) (v : Word) (h : s.MemOk) : (s.storeLE pa n v).MemOk :=
  State.setBytes_memOk _ h

@[simp] theorem State.dropStamps_mem (s : State) (l : List Nat) : (s.dropStamps l).mem = s.mem := by
  unfold State.dropStamps; split <;> rfl

@[simp] theorem State.headStamps_mem (s : State) (l : List Nat) (st : Stamp) : (s.headStamps l st).mem = s.mem := by
  unfold State.headStamps; split
  · rfl
  · simp

@[simp] theorem State.addStamps_mem (s : State) (l : List Nat) (st : Stamp) : (s.addStamps l st).mem = s.mem := by
  unfold State.addStamps; split <;> rfl

@[simp] theorem State.refreshed_mem (s : State) (l : List Nat) : (s.refreshed l).mem = s.mem := by
  unfold State.refreshed; split <;> rfl

@[simp] theorem State.write_mem (s : State) (l : List (Nat × Byte)) : (s.write l).mem = (s.setBytes l).mem := by
  simp [State.write]

theorem State.write_memOk {s : State} (l : List (Nat × Byte)) (h : s.MemOk) : (s.write l).MemOk := by
  have := State.setBytes_memOk l h
  simpa [State.MemOk] using this

theorem State.zeroFrames_memOk {s : State} (chip f n : Nat) (h : s.MemOk) : (s.zeroFrames chip f n).MemOk :=
  AMap.wf_filter _ h

/-! ### Reads after writes -/

@[simp] theorem State.byte_setByte_self (s : State) (pa : Nat) (b : Byte) : (s.setByte pa b).byte pa = b := by
  simp [State.byte]

theorem State.byte_setByte_ne (s : State) (b : Byte) {pa a : Nat} (h : a ≠ pa) : (s.setByte pa b).byte a = s.byte a := by
  simp [State.byte, h]

theorem get_foldl_set {d : Byte} {m : AMap Byte} {l : List (Nat × Byte)} {a : Nat} (h : ∀ e ∈ l, e.1 ≠ a) :
    AMap.get d (l.foldl (fun m e => AMap.set d m e.1 e.2) m) a = AMap.get d m a := by
  induction l generalizing m with
  | nil => rfl
  | cons e r ih =>
    rw [List.foldl_cons, ih fun x hx => h x (List.mem_cons_of_mem _ hx)]
    exact AMap.get_set_ne d m e.2 (Ne.symm (h e (by simp)))

/-- A byte that a list of writes does not name reads as before. -/
theorem State.byte_setBytes_of_not_mem (s : State) {l : List (Nat × Byte)} {a : Nat} (h : ∀ e ∈ l, e.1 ≠ a) :
    (s.setBytes l).byte a = s.byte a := get_foldl_set h

theorem State.byte_write_of_not_mem (s : State) {l : List (Nat × Byte)} {a : Nat} (h : ∀ e ∈ l, e.1 ≠ a) :
    (s.write l).byte a = s.byte a := by
  have := State.byte_setBytes_of_not_mem s h
  simpa [State.byte] using this

/-- A byte that a list of writes names once reads the byte written there. -/
theorem State.byte_setBytes_of_mem (s : State) {l : List (Nat × Byte)} {a : Nat} {b : Byte} (h : (a, b) ∈ l)
    (once : l.Pairwise fun x y => x.1 ≠ y.1) : (s.setBytes l).byte a = b := by
  show AMap.get unlistedByte (l.foldl (fun m e => AMap.set unlistedByte m e.1 e.2) s.mem) a = b
  generalize s.mem = m
  induction l generalizing m with
  | nil => simp at h
  | cons e r ih =>
    obtain ⟨hr, hp⟩ := List.pairwise_cons.1 once
    rcases List.mem_cons.1 h with rfl | h
    · rw [List.foldl_cons, get_foldl_set fun x hx => Ne.symm (hr x hx)]
      simp
    · rw [List.foldl_cons]
      exact ih h hp _

theorem mem_consecutive {pa n a : Nat} : a ∈ consecutive pa n ↔ pa ≤ a ∧ a < pa + n := by
  simp only [consecutive, List.mem_map, List.mem_range]
  constructor
  · rintro ⟨i, hi, rfl⟩; omega
  · rintro ⟨h1, h2⟩; exact ⟨a - pa, by omega, by omega⟩

/-- The places that a store of `n` bytes at `pa` names. -/
theorem mem_bytesAt {pa n : Nat} {v : Word} {e : Nat × Byte} (h : e ∈ bytesAt pa n v) : pa ≤ e.1 ∧ e.1 < pa + n :=
  mem_consecutive.1 (List.of_mem_zip h).1

/-- A store leaves every byte outside its own as it was. -/
theorem State.byte_storeLE_of_outside (s : State) (v : Word) {pa n a : Nat} (h : a < pa ∨ pa + n ≤ a) :
    (s.storeLE pa n v).byte a = s.byte a :=
  State.byte_setBytes_of_not_mem s fun e he => by have := mem_bytesAt he; omega

/-! ### The line sets -/

theorem NSet.mem_insert {m : NSet} {k a : Nat} : a ∈ NSet.insert m k ↔ a = k ∨ a ∈ m := by
  induction m with
  | nil => simp [NSet.insert]
  | cons j r ih =>
    by_cases h1 : k < j
    · simp [NSet.insert, h1]
    · by_cases h2 : k = j
      · subst h2; simp [NSet.insert]
      · simp only [NSet.insert, h1, if_false, h2, List.mem_cons, ih]; tauto

theorem NSet.mem_erase {m : NSet} {k a : Nat} : a ∈ NSet.erase m k ↔ a ∈ m ∧ a ≠ k := by
  simp [NSet.erase]

end Sys2Proof.Machine
end

