-- ==== Sys2Proof/Laws/Fabric.lean ====
section
/-! SUPPORT. What sending a request, making steps due, and retiring an access can do, said once. -/

namespace Sys2Proof.Machine

/-! ### Steps made due -/

/-- From `s` to `t` only steps have been made due. -/
structure OnlyDue (s t : State) : Prop where
  rest : t = { s with pending := t.pending }
  more : ∃ l, t.pending = s.pending ++ l

theorem OnlyDue.refl (s : State) : OnlyDue s s := ⟨rfl, [], by simp⟩

theorem OnlyDue.trans {s t u : State} (h : OnlyDue s t) (h' : OnlyDue t u) : OnlyDue s u := by
  obtain ⟨l, hl⟩ := h.more
  obtain ⟨m, hm⟩ := h'.more
  refine ⟨?_, l ++ m, by rw [hm, hl, List.append_assoc]⟩
  rw [h'.rest, h.rest]

theorem OnlyDue.foldl {α : Type} {f : State → α → State} (h : ∀ s a, OnlyDue s (f s a)) (l : List α) (s : State) :
    OnlyDue s (l.foldl f s) := by
  induction l generalizing s with
  | nil => exact OnlyDue.refl s
  | cons a r ih => exact (h s a).trans (ih (f s a))

/-- What was due stays due. -/
theorem OnlyDue.mem {s t : State} (h : OnlyDue s t) {d : Due} (hd : d ∈ s.pending) : d ∈ t.pending := by
  obtain ⟨l, hl⟩ := h.more
  rw [hl]
  exact List.mem_append_left _ hd

theorem State.push_due (s : State) (d : Due) : OnlyDue s (s.push d) := ⟨rfl, [d], rfl⟩

theorem State.event_due (s : State) (i : Instr) : OnlyDue s (s.event i) := s.push_due _

theorem State.pushOnce_due (s : State) (d : Due) : OnlyDue s (s.pushOnce d) := by
  unfold State.pushOnce
  split
  · exact OnlyDue.refl s
  · exact s.push_due d

theorem State.mem_event (s : State) (i : Instr) : Due.event i ∈ (s.event i).pending := by
  simp [State.event, State.push]

theorem State.mem_pushOnce (s : State) (d : Due) : d ∈ (s.pushOnce d).pending := by
  unfold State.pushOnce
  split
  · rename_i h; simpa using h
  · simp [State.push]

theorem State.wakeIf_due (s : State) (p : Nat → Slot → Bool) : OnlyDue s (s.wakeIf p) := by
  refine OnlyDue.foldl (fun s a => ?_) _ s
  split
  · exact s.push_due _
  · exact OnlyDue.refl s

theorem State.pokeTask_due (s : State) (k : Nat) : OnlyDue s (s.pokeTask k) := by
  unfold State.pokeTask
  dsimp only
  split
  · exact (State.pushOnce_due _ _).trans (State.pushOnce_due _ _)
  · exact OnlyDue.refl s

theorem State.pokeForks_due (s : State) : OnlyDue s s.pokeForks := by
  refine OnlyDue.foldl (fun s a => ?_) _ s
  split
  · exact State.pushOnce_due _ _
  · split
    · exact State.pushOnce_due _ _
    · exact OnlyDue.refl s
  · exact OnlyDue.refl s

theorem State.pokeBoard_due (s : State) (l : Nat) : OnlyDue s (s.pokeBoard l) := by
  unfold State.pokeBoard
  dsimp only
  split
  · exact OnlyDue.refl s
  · exact State.event_due _ _

theorem State.pokePages_due (s : State) (l : Nat) : OnlyDue s (s.pokePages l) := by
  refine OnlyDue.foldl (fun s a => ?_) _ s
  split
  · split
    · exact State.pushOnce_due _ _
    · exact OnlyDue.refl s
  · exact OnlyDue.refl s

theorem State.resumePasses_due (s : State) (id : Nat) : OnlyDue s (s.resumePasses id) := by
  refine OnlyDue.foldl (fun s a => ?_) _ s
  refine OnlyDue.foldl (fun s b => ?_) _ s
  split
  · exact State.event_due _ _
  · exact OnlyDue.refl s

/-! ### Lists of records -/

theorem find?_modRec {α : Type} (l : List (Nat × α)) (id : Nat) (f : α → α) :
    find? (modRec l id f) id = (find? l id).map f := by
  unfold find? modRec
  induction l with
  | nil => rfl
  | cons e r ih =>
    simp only [List.map_cons, List.find?_cons]
    by_cases h : e.1 = id
    · simp [h]
    · have h' : (e.1 == id) = false := by simpa using h
      simp only [h', if_neg Bool.false_ne_true]
      exact ih

theorem find?_modRec_ne {α : Type} (l : List (Nat × α)) {id k : Nat} (f : α → α) (hk : k ≠ id) :
    find? (modRec l id f) k = find? l k := by
  unfold find? modRec
  induction l with
  | nil => rfl
  | cons e r ih =>
    simp only [List.map_cons, List.find?_cons]
    by_cases h : e.1 = id
    · have h2 : (e.1 == k) = false := by simp [h, Ne.symm hk]
      simp only [h, beq_self_eq_true, if_true]
      rw [h] at h2
      simp only [h2]
      exact ih
    · have h' : (e.1 == id) = false := by simpa using h
      simp only [h', if_neg Bool.false_ne_true]
      cases e.1 == k
      · exact ih
      · rfl

theorem find?_dropRec {α : Type} (l : List (Nat × α)) (id : Nat) : find? (dropRec l id) id = none := by
  simp [find?, dropRec, List.find?_eq_none]

theorem find?_dropRec_ne {α : Type} (l : List (Nat × α)) {id k : Nat} (h : k ≠ id) :
    find? (dropRec l id) k = find? l k := by
  unfold find? dropRec
  induction l with
  | nil => rfl
  | cons e r ih =>
    by_cases he : e.1 = id
    · have h2 : (e.1 == k) = false := by simp [he, Ne.symm h]
      rw [List.filter_cons_of_neg (by simp [he]), List.find?_cons, h2]
      exact ih
    · rw [List.filter_cons_of_pos (by simpa using he), List.find?_cons, List.find?_cons]
      cases e.1 == k
      · exact ih
      · rfl

/-! ### Requests -/

/-- What counting an extent and looking an object up in the caches leave as it was. -/
structure Touched (s t : State) : Prop where
  accesses : t.accesses = s.accesses
  packets : t.packets = s.packets
  mem : t.mem = s.mem
  slots : t.slots = s.slots
  nextId : t.nextId = s.nextId
  cur : t.cur = s.cur
  due : ∀ d, d ∈ s.pending → d ∈ t.pending
  seqs : ∀ n, (t.node n).seqs = (s.node n).seqs
  epoch : ∀ n, (t.node n).epoch = (s.node n).epoch
  buffer : ∀ c, (t.core c).buffer = (s.core c).buffer

theorem Touched.refl (s : State) : Touched s s :=
  ⟨rfl, rfl, rfl, rfl, rfl, rfl, fun _ h => h, fun _ => rfl, fun _ => rfl, fun _ => rfl⟩

theorem Touched.trans {s t u : State} (h : Touched s t) (h' : Touched t u) : Touched s u :=
  ⟨h'.accesses.trans h.accesses, h'.packets.trans h.packets, h'.mem.trans h.mem, h'.slots.trans h.slots,
    h'.nextId.trans h.nextId, h'.cur.trans h.cur, fun d hd => h'.due d (h.due d hd), fun n => (h'.seqs n).trans (h.seqs n),
    fun n => (h'.epoch n).trans (h.epoch n), fun n => (h'.buffer n).trans (h.buffer n)⟩

theorem State.countExtent_touched (s : State) (c p o f : Nat) : Touched s (s.countExtent c p o f) := by
  unfold State.countExtent
  dsimp only
  split
  · exact ⟨rfl, rfl, rfl, rfl, rfl, rfl, fun _ h => h, fun _ => rfl, fun _ => rfl, fun _ => rfl⟩
  · exact Touched.refl s

theorem State.missed_touched (s : State) (n k : Nat) : Touched s (s.missed n k) := by
  unfold State.missed
  split
  · exact Touched.refl s
  · refine ⟨rfl, rfl, rfl, rfl, rfl, rfl, fun _ h => List.mem_append_left _ h, fun c => ?_, fun c => ?_, fun _ => rfl⟩
    · by_cases h : c = n <;> simp [State.node, State.modNode, State.event, State.push, h]
    · by_cases h : c = n <;> simp [State.node, State.modNode, State.event, State.push, h]

theorem State.keepHandle_touched (s : State) (c : Nat) (l : Core → List (Nat × ObjEntry)) :
    Touched s (s.modCore c fun v => { v with handles := l v }) := by
  refine ⟨rfl, rfl, rfl, rfl, rfl, rfl, fun _ h => h, fun _ => rfl, fun _ => rfl, fun k => ?_⟩
  by_cases h : k = c <;> simp [State.core, State.modCore, State.setCore, h]

theorem State.touch_touched (s : State) (t : Nat) (a : Word) : Touched s (s.touch t a) := by
  unfold State.touch
  split
  · exact Touched.refl s
  · dsimp only
    refine Touched.trans ?_ (State.missed_touched _ _ _)
    have h0 := s.countExtent_touched (chipOfThread t) (s.slot t).parish (handleObj a) (handleOff a)
    split
    · exact h0
    · exact h0.trans ((State.keepHandle_touched _ _ _).trans (State.missed_touched _ _ _))

@[simp] theorem State.request_id (s : State) (a : Access) : (s.request a).1 = s.nextId := rfl

/-- Arming a retry timer sets a timer and does nothing else. -/
theorem State.armRetry_frame (s : State) (id : Nat) (a : Access) (d : Nat) :
    ∃ l, s.armRetry id a d = { s with timers := l } := by
  exact ⟨_, rfl⟩

/-- A request sent from a state that has only been touched since. -/
theorem State.request_requested {s t : State} (h : Touched s t) (a : Access) : Requested s (t.request a).2 a := by
  obtain ⟨l, hl⟩ := ((t.addAccess a).2.send (.request t.nextId) .request a.parish a.src (targetHome a.target).1
    (targetHome a.target).2).armRetry_frame t.nextId a (targetHome a.target).1
  have e : (t.request a).2 = { (t.addAccess a).2.send (.request t.nextId) .request a.parish a.src (targetHome a.target).1
    (targetHome a.target).2 with timers := l } := hl
  rw [e]
  refine ⟨?_, ⟨(s.node a.src).epoch, ?_⟩, ?_, ?_⟩
  · simp only [State.addAccess, State.nextSeq, State.fresh, State.send, State.event, State.push]
    rw [← h.accesses, sentAs]
    simp [State.modNode, h.nextId, h.seqs]
  · simp only [State.addAccess, State.nextSeq, State.fresh, State.send, State.event, State.push]
    simp [State.modNode, h.nextId, h.packets, State.node]
    exact h.epoch _
  · simp [State.addAccess, State.nextSeq, State.fresh, State.send, State.event, State.push, State.modNode, h.nextId]
  · simp [State.addAccess, State.nextSeq, State.fresh, State.send, State.event, State.push, State.modNode, h.mem]

/-- Which changes wait for an access is all that `passHold` sets. -/
theorem State.passHold_frame (s : State) (t id : Nat) : s.passHold t id = { s with changes := (s.passHold t id).changes } := rfl

/-- With no race check left to its home, an access is admitted as it is; a change that its thread held up waits for it. -/
theorem State.admit_frame (s : State) (t id : Nat) (held : Bool) :
    s.noteSent t id none held = { s with changes := (s.noteSent t id none held).changes } := by
  cases held <;> rfl

theorem State.noteSent_free (s : State) (t id : Nat) : s.noteSent t id none false = s := rfl

/-- With the race detector off, an access that passes its checks and finds a place does what its instruction says. -/
theorem admitted_ok {s : State} {a : Word} {n align right : Nat} {posted : Bool} {target : Target}
    (h : Admits s a n align right posted target) (kind : Nat) (atomic : Bool) (scope : Nat) (w : Bool)
    (k : Target → State → State) :
    admitted (s.checkScalar s.cur a n align right posted) a posted kind atomic scope w s k =
      (k target (s.touch s.cur a)).noteSent s.cur s.nextId none s.here.state.movingOn?.isSome := by
  have hr : s.raceScalar s.cur target a kind atomic scope w = (s, none) := by
    unfold State.raceScalar
    split
    · dsimp only
      split
      · rfl
      · unfold State.raceAccess
        dsimp only
        rw [if_pos]
        exact h.noRaces
    · rfl
  unfold admitted
  rw [h.checked]
  dsimp only
  have hc : ((s.targetByte target).isSome || raceMode s.here.race == 0) = true := by simp [h.noRaces]
  rw [if_neg, hr]
  · dsimp only
    rw [if_pos hc]
  · have := h.room
    cases posted <;> simp at * <;> omega

/-! ### Retiring an access -/

/-- What an access that leaves its source can change: the list of accesses, its retry timer, what waited for it, and steps
made due. Packets that waited for their turn behind it stand at their homes again. -/
structure Retired (s t : State) (id : Nat) : Prop where
  accesses : t.accesses = dropRec s.accesses id
  packets : ∀ k, (t.packet? k).map (·.payload) = (s.packet? k).map (·.payload)
  mem : t.mem = s.mem
  objs : t.objs = s.objs
  nodes : t.nodes = s.nodes
  nextId : t.nextId = s.nextId
  groups : t.groups = s.groups
  cur : t.cur = s.cur
  timers : t.timers = s.timers.filter fun e => decide (e.2.2 ≠ Due.event (.retryTimeout id))
  slots : ∀ u, ∃ l, t.slot u = { s.slot u with early := l }
  due : ∀ d, d ∈ s.pending → d ∈ t.pending

theorem State.resumeChanges_frame (s : State) (id : Nat) :
    ∃ c p, s.resumeChanges id = { s with changes := c, pending := s.pending ++ p } := by
  unfold State.resumeChanges
  generalize s.changes = l
  induction l generalizing s with
  | nil => exact ⟨s.changes, [], by simp⟩
  | cons e r ih =>
    rw [List.foldl_cons]
    have step : ∃ c p, (if e.2.waitFor.contains id then
        let v : ChangeState := { e.2 with waitFor := e.2.waitFor.filter (· != id) }
        v.applied.foldl (fun s k => s.event (.tableChangeAcknowledge k e.1)) { s with changes := AMap.set {} s.changes e.1 v }
      else s) = { s with changes := c, pending := s.pending ++ p } := by
      split
      · have h := OnlyDue.foldl (fun (s : State) (k : Nat) => s.event_due (.tableChangeAcknowledge k e.1)) e.2.applied
          { s with changes := AMap.set {} s.changes e.1 { e.2 with waitFor := e.2.waitFor.filter (· != id) } }
        obtain ⟨p, hp⟩ := h.more
        exact ⟨_, p, by rw [h.rest, hp]⟩
      · exact ⟨s.changes, [], by simp⟩
    obtain ⟨c, p, h⟩ := step
    rw [h]
    obtain ⟨c', p', h'⟩ := ih { s with changes := c, pending := s.pending ++ p }
    exact ⟨c', p ++ p', by rw [h']; simp [List.append_assoc]⟩

theorem State.resumeOps_frame (s : State) (id t : Nat) :
    ∃ o p, s.resumeOps id t = { s with ops := o, pending := s.pending ++ p } := by
  unfold State.resumeOps
  dsimp only
  have h := OnlyDue.foldl (f := fun (s : State) (e : Nat × EngOp) =>
    if (e.2.thread == t || e.2.core == coreOfThread t) && decide (e.2.state = .running) && !e.2.finished then
      s.pushOnce (.command e.1) else s)
    (fun s e => by split; exact State.pushOnce_due _ _; exact OnlyDue.refl s)
    (s.ops.map fun e => (e.1, { e.2 with fence := e.2.fence.filter (· != id) }))
    { s with ops := s.ops.map fun e => (e.1, { e.2 with fence := e.2.fence.filter (· != id) }) }
  obtain ⟨p, hp⟩ := h.more
  exact ⟨_, p, by rw [h.rest, hp]⟩

theorem State.resumeOps_wake (s : State) (id t : Nat) (p : Nat → Slot → Bool) :
    ∃ o l, (s.resumeOps id t).wakeIf p = { s with ops := o, pending := s.pending ++ l } := by
  obtain ⟨o, q, h⟩ := s.resumeOps_frame id t
  have hw := (s.resumeOps id t).wakeIf_due p
  obtain ⟨l, hl⟩ := hw.more
  refine ⟨o, q ++ l, ?_⟩
  rw [hw.rest, hl, h]
  simp [List.append_assoc]

theorem State.forgetEarly_frame (s : State) (id : Nat) (l : AMap Slot) :
    let t := l.foldl (fun s e => if e.2.early.contains id then
      s.modSlot e.1 fun c => { c with early := c.early.filter (· != id) } else s) s
    t = { s with slots := t.slots } ∧ ∀ u, ∃ k, t.slot u = { s.slot u with early := k } := by
  induction l generalizing s with
  | nil => exact ⟨rfl, fun u => ⟨(s.slot u).early, rfl⟩⟩
  | cons e r ih =>
    simp only [List.foldl_cons]
    split
    · obtain ⟨h1, h2⟩ := ih (s.modSlot e.1 fun c => { c with early := c.early.filter (· != id) })
      refine ⟨by rw [h1]; rfl, fun u => ?_⟩
      obtain ⟨k, hk⟩ := h2 u
      by_cases hu : u = e.1
      · subst hu
        rw [State.slot_modSlot_self] at hk
        exact ⟨k, hk⟩
      · rw [State.slot_modSlot_ne _ _ hu] at hk
        exact ⟨k, hk⟩
    · exact ih s

theorem State.packet_modPacket (s : State) (k j : Nat) (l : Loc) :
    ((s.modPacket k fun p => { p with loc := l }).packet? j).map (·.payload) = (s.packet? j).map (·.payload) := by
  unfold State.packet? State.modPacket
  by_cases h : j = k
  · subst h; rw [find?_modRec]; cases find? s.packets j <;> rfl
  · rw [find?_modRec_ne _ _ h]

/-- From `s` to `t` packets have only moved, and steps have been made due. -/
structure Moved (s t : State) : Prop where
  rest : t = { s with packets := t.packets, pending := t.pending }
  packets : ∀ k, (t.packet? k).map (·.payload) = (s.packet? k).map (·.payload)
  more : ∃ l, t.pending = s.pending ++ l

theorem Moved.refl (s : State) : Moved s s := ⟨rfl, fun _ => rfl, [], by simp⟩

theorem Moved.trans {s t u : State} (h : Moved s t) (h' : Moved t u) : Moved s u := by
  obtain ⟨l, hl⟩ := h.more
  obtain ⟨m, hm⟩ := h'.more
  exact ⟨by rw [h'.rest, h.rest], fun k => (h'.packets k).trans (h.packets k), l ++ m, by rw [hm, hl, List.append_assoc]⟩

theorem OnlyDue.moved {s t : State} (h : OnlyDue s t) : Moved s t := by
  refine ⟨by rw [h.rest], fun k => ?_, h.more⟩
  rw [h.rest]
  rfl

theorem Moved.foldl {α : Type} {f : State → α → State} (h : ∀ s a, Moved s (f s a)) (l : List α) (s : State) :
    Moved s (l.foldl f s) := by
  induction l generalizing s with
  | nil => exact Moved.refl s
  | cons a r ih => exact (h s a).trans (ih (f s a))

theorem State.pokeTurns_moved (s : State) (id : Nat) : Moved s (s.pokeTurns id) := by
  unfold State.pokeTurns
  dsimp only
  refine Moved.trans ?_ (State.wakeIf_due _ _).moved
  refine Moved.foldl (fun s e => ?_) _ s
  split
  · exact ⟨rfl, fun k => State.packet_modPacket s e.1 k .delivered, [_], rfl⟩
  · exact Moved.refl s

theorem State.retireAccess_retired {s : State} {id : Nat} {a : Access} (h : s.access? id = some a) :
    Retired s (s.retireAccess id) id := by
  unfold State.retireAccess
  simp only [h]
  generalize hr : ({ s with accesses := dropRec s.accesses id } : State).dropRetry id = s0
  have hz : ({ s with accesses := dropRec s.accesses id,
                      timers := s.timers.filter fun e => decide (e.2.2 ≠ Due.event (.retryTimeout id)) } : State) = s0 := hr
  generalize hb : (if (s0.core (coreOfThread a.thread)).buffer.any (·.acc == id)
    then s0.modCore (coreOfThread a.thread) fun c => { c with buffer := c.buffer.filter (·.acc != id) }
    else s0) = s1
  have h1 : s1 = { s0 with cores := s1.cores } := by
    rw [← hb]; split <;> rfl
  obtain ⟨h2, h3⟩ := s1.forgetEarly_frame id s1.slots
  generalize s1.slots.foldl (fun s e => if e.2.early.contains id then
      s.modSlot e.1 fun c => { c with early := c.early.filter (· != id) } else s) s1 = s2 at *
  have h4 := s2.resumePasses_due id
  generalize s2.resumePasses id = s3 at *
  obtain ⟨c, p, h5⟩ := s3.resumeChanges_frame id
  rw [h5]
  generalize hs4 : ({ s3 with changes := c, pending := s3.pending ++ p } : State) = s4
  have h6 := (s4.pokeTask_due a.task).moved.trans (State.pokeTurns_moved _ id)
  generalize (s4.pokeTask a.task).pokeTurns id = s5 at *
  have h6' : Moved s5 (if parkedOn .code (s5.slot a.thread) then s5.event (.codeCacheFill a.thread) else s5) := by
    split
    · exact (State.event_due _ _).moved
    · exact Moved.refl _
  generalize (if parkedOn .code (s5.slot a.thread) then s5.event (.codeCacheFill a.thread) else s5) = s5' at *
  have h6 := h6.trans h6'
  have h7 : ∀ p : Nat → Slot → Bool, ∃ o l, (s5'.resumeOps id a.thread).wakeIf p = { s5' with ops := o, pending := s5'.pending ++ l } :=
    s5'.resumeOps_wake id a.thread
  obtain ⟨o, l, h7⟩ := h7 _
  rw [h7]
  obtain ⟨m, hm⟩ := h6.more
  have e5 : s5' = { s with
      accesses := dropRec s.accesses id, timers := s0.timers, cores := s1.cores, slots := s2.slots, changes := c,
      packets := s5'.packets, pending := s5'.pending } := by
    rw [h6.rest, ← hs4, h4.rest, h2, h1, ← hz]
  have ep : ∀ d, d ∈ s.pending → d ∈ s5'.pending := by
    intro d hd
    rw [hm, ← hs4]
    refine List.mem_append_left _ (List.mem_append_left _ (h4.mem ?_))
    rw [h2, h1, ← hz]
    exact hd
  have ek : ∀ k, (s5'.packet? k).map (·.payload) = (s.packet? k).map (·.payload) := by
    intro k
    rw [h6.packets k, ← hs4, h4.rest, h2, h1, ← hz]
    rfl
  have es : ∀ u, s5'.slot u = s2.slot u := fun u => by simp only [State.slot]; rw [e5]
  have e1 : ∀ u, s1.slot u = s.slot u := fun u => by simp only [State.slot]; rw [h1, ← hz]
  refine ⟨?_, ek, ?_, ?_, ?_, ?_, ?_, ?_, ?_, fun u => ?_, fun d hd => List.mem_append_left _ (ep d hd)⟩
  · rw [e5]
  · rw [e5]
  · rw [e5]
  · rw [e5]
  · rw [e5]
  · rw [e5]
  · rw [e5]
  · rw [e5, ← hz]
  · obtain ⟨k, hk⟩ := h3 u
    exact ⟨k, by rw [← e1 u, ← hk, ← es u]; rfl⟩

end Sys2Proof.Machine
end

