-- ==== Sys2Proof/Laws/Command.lean ====
section
/-! SUPPORT. What an engine command can do as it runs, said once: its effect, its wait, or its fault. -/

namespace Sys2Proof.Machine

/-- With the race detector off for an operation, the tiles of its command are not checked. -/
theorem State.raceCommand_off (s : State) (o : EngOp) (i : Instr) (h : raceMode o.race = 0) :
    s.raceCommand o i = (s, none) := by
  unfold State.raceCommand
  rw [if_pos h]

/-- With no error in storage, no source row of a command holds one. -/
theorem State.sourceError_none {s : State} (o : EngOp) (i : Instr) (h : s.errors = []) : s.sourceError o i = (s, none) := by
  simp [State.sourceError, h]

/-- A command that has taken its lane predicates takes no others. -/
theorem State.startPreds_started (s : State) (id : Nat) {o : EngOp} (h : o.preds.isSome = true) : s.startPreds id o = s := by
  simp [State.startPreds, h]

/-- A running command whose checks have been made gives its engine its effect. -/
theorem command_running {s : State} {id : Nat} {o : EngOp} {i : Instr} (h : Running s id o i)
    (k : State → Nat → EngOp → State) : command s k = .next (k s id o) := by
  obtain ⟨hc, ho, hr, hu, hf, hk, hw, hn, hq, hp, he⟩ := h
  subst hc
  unfold command
  simp only [ho, hq, s.startPreds_started _ hp, Option.getD_some, hr, hu, hf, hw, hk,
    State.raceCommand_off _ _ _ hn]
  simp [hn, State.sourceError_none _ _ he]

/-- The operation whose command starts: its lane predicates are taken. -/
theorem State.op_startPreds {s : State} {id : Nat} {o : EngOp} (ho : s.op? id = some o) :
    ∃ v, (s.startPreds id o).op? id = some { o with preds := some v } := by
  unfold State.startPreds
  split
  · rename_i h
    obtain ⟨v, hv⟩ := Option.isSome_iff_exists.1 h
    exact ⟨v, by rw [ho, ← hv]⟩
  · exact ⟨Vector.ofFn fun k => s.lanePredNow o k.val, by rw [State.op?] at *; rw [State.modOp, find?_modRec, ho]; rfl⟩

/-- A command starts by taking its lane predicates, and runs from the state in which they are taken. -/
theorem command_starts {s : State} {o : EngOp} (ho : s.op? s.curOp = some o) (k : State → Nat → EngOp → State)
    (hr : o.state = .running) (hu : o.finished = false) (hf : o.fence = []) (hq : s.queueBusy s.curOp o = false) :
    command s k = command (s.startPreds s.curOp o) k := by
  obtain ⟨v, hv⟩ := State.op_startPreds ho
  have hc : (s.startPreds s.curOp o).curOp = s.curOp := by unfold State.startPreds; split <;> rfl
  have ha : (s.startPreds s.curOp o).accesses = s.accesses := by unfold State.startPreds; split <;> rfl
  generalize hp : ({ o with preds := some v } : EngOp) = p at hv
  have hb : (s.startPreds s.curOp o).queueBusy s.curOp p = false := by
    subst hp; simpa [State.queueBusy, ha] using hq
  have hs : (s.startPreds s.curOp o).startPreds s.curOp p = s.startPreds s.curOp o :=
    State.startPreds_started _ _ (by subst hp; rfl)
  have h1 : p.state = .running := by subst hp; exact hr
  have h2 : p.finished = false := by subst hp; exact hu
  have h3 : p.fence = [] := by subst hp; exact hf
  unfold command
  simp only [ho, hc, hv, hq, hb, hr, hu, hf, h1, h2, h3, hs, Option.getD_some]
  rfl

/-- A command without an operation, or whose operation does not run, has finished, or has an access to wait for, leaves
the state as it is. -/
theorem command_waits {s : State} {o : EngOp} (ho : s.op? s.curOp = some o)
    (h : o.state ≠ .running ∨ o.finished = true ∨ o.fence ≠ []) (k : State → Nat → EngOp → State) :
    command s k = .next s := by
  unfold command
  simp only [ho]
  rcases h with h | h | h
  · simp [h]
  · simp [h]
  · cases hf : o.fence with
    | nil => exact absurd hf h
    | cons a l => simp

/-- A command that fails a check as it starts faults at offset 0 with the cause and value of the check. -/
theorem command_fails {s s' : State} {o : EngOp} {i : Instr} {c : Nat} {v : Word} (ho : s.op? s.curOp = some o)
    (hr : o.state = .running) (hu : o.finished = false) (hf : o.fence = []) (hk : o.checked = false) (h0 : o.resume = 0)
    (hq : s.queueBusy s.curOp o = false) (hp : o.preds.isSome = true) (hw : decodeCommand o.word = .ok i)
    (h : s.checkIssue o i = (s', some (c, v))) (k : State → Nat → EngOp → State) :
    command s k = .next (s'.faultOp s.curOp c v 0 true) := by
  unfold command
  simp only [ho, hq, s.startPreds_started _ hp, Option.getD_some, hr, hu, hf, hw, hk, h0, h]
  simp [h]

end Sys2Proof.Machine
end

