-- ==== Sys2Proof/Laws/Dispatch.lean ====
section
/-! SUPPORT. What `exec` is for each instruction: one equation an instruction, so that no proof unfolds the whole
dispatch. -/

namespace Sys2Proof.Machine

@[simp] theorem exec_add (g : Guard) (d a b : Field4) (s : State) :
    exec (.add g d a b) s = execAdd g d a b s := rfl

@[simp] theorem exec_sub (g : Guard) (d a b : Field4) (s : State) :
    exec (.sub g d a b) s = execSub g d a b s := rfl

@[simp] theorem exec_and (g : Guard) (d a b : Field4) (s : State) :
    exec (.and g d a b) s = execAnd g d a b s := rfl

@[simp] theorem exec_or (g : Guard) (d a b : Field4) (s : State) :
    exec (.or g d a b) s = execOr g d a b s := rfl

@[simp] theorem exec_xor (g : Guard) (d a b : Field4) (s : State) :
    exec (.xor g d a b) s = execXor g d a b s := rfl

@[simp] theorem exec_shl (g : Guard) (d a b : Field4) (s : State) :
    exec (.shl g d a b) s = execShl g d a b s := rfl

@[simp] theorem exec_shr (g : Guard) (d a b : Field4) (s : State) :
    exec (.shr g d a b) s = execShr g d a b s := rfl

@[simp] theorem exec_shra (g : Guard) (d a b : Field4) (s : State) :
    exec (.shra g d a b) s = execShra g d a b s := rfl

@[simp] theorem exec_rotr (g : Guard) (d a b : Field4) (s : State) :
    exec (.rotr g d a b) s = execRotr g d a b s := rfl

@[simp] theorem exec_min (g : Guard) (d a b : Field4) (s : State) :
    exec (.min g d a b) s = execMin g d a b s := rfl

@[simp] theorem exec_max (g : Guard) (d a b : Field4) (s : State) :
    exec (.max g d a b) s = execMax g d a b s := rfl

@[simp] theorem exec_minu (g : Guard) (d a b : Field4) (s : State) :
    exec (.minu g d a b) s = execMinu g d a b s := rfl

@[simp] theorem exec_maxu (g : Guard) (d a b : Field4) (s : State) :
    exec (.maxu g d a b) s = execMaxu g d a b s := rfl

@[simp] theorem exec_mul (g : Guard) (d a b : Field4) (s : State) :
    exec (.mul g d a b) s = execMul g d a b s := rfl

@[simp] theorem exec_mulh (g : Guard) (d a b : Field4) (s : State) :
    exec (.mulh g d a b) s = execMulh g d a b s := rfl

@[simp] theorem exec_mulhu (g : Guard) (d a b : Field4) (s : State) :
    exec (.mulhu g d a b) s = execMulhu g d a b s := rfl

@[simp] theorem exec_div (g : Guard) (d a b : Field4) (s : State) :
    exec (.div g d a b) s = execDiv g d a b s := rfl

@[simp] theorem exec_divu (g : Guard) (d a b : Field4) (s : State) :
    exec (.divu g d a b) s = execDivu g d a b s := rfl

@[simp] theorem exec_rem (g : Guard) (d a b : Field4) (s : State) :
    exec (.rem g d a b) s = execRem g d a b s := rfl

@[simp] theorem exec_remu (g : Guard) (d a b : Field4) (s : State) :
    exec (.remu g d a b) s = execRemu g d a b s := rfl

@[simp] theorem exec_clz (g : Guard) (d a : Field4) (s : State) :
    exec (.clz g d a) s = execClz g d a s := rfl

@[simp] theorem exec_ctz (g : Guard) (d a : Field4) (s : State) :
    exec (.ctz g d a) s = execCtz g d a s := rfl

@[simp] theorem exec_popc (g : Guard) (d a : Field4) (s : State) :
    exec (.popc g d a) s = execPopc g d a s := rfl

@[simp] theorem exec_sextB (g : Guard) (d a : Field4) (s : State) :
    exec (.sextB g d a) s = execSextB g d a s := rfl

@[simp] theorem exec_sextH (g : Guard) (d a : Field4) (s : State) :
    exec (.sextH g d a) s = execSextH g d a s := rfl

@[simp] theorem exec_sextW (g : Guard) (d a : Field4) (s : State) :
    exec (.sextW g d a) s = execSextW g d a s := rfl

@[simp] theorem exec_zextB (g : Guard) (d a : Field4) (s : State) :
    exec (.zextB g d a) s = execZextB g d a s := rfl

@[simp] theorem exec_zextH (g : Guard) (d a : Field4) (s : State) :
    exec (.zextH g d a) s = execZextH g d a s := rfl

@[simp] theorem exec_zextW (g : Guard) (d a : Field4) (s : State) :
    exec (.zextW g d a) s = execZextW g d a s := rfl

@[simp] theorem exec_addi (g : Guard) (d a : Field4) (imm : BitVec 12) (s : State) :
    exec (.addi g d a imm) s = execAddi g d a imm s := rfl

@[simp] theorem exec_andi (g : Guard) (d a : Field4) (imm : BitVec 12) (s : State) :
    exec (.andi g d a imm) s = execAndi g d a imm s := rfl

@[simp] theorem exec_ori (g : Guard) (d a : Field4) (imm : BitVec 12) (s : State) :
    exec (.ori g d a imm) s = execOri g d a imm s := rfl

@[simp] theorem exec_xori (g : Guard) (d a : Field4) (imm : BitVec 12) (s : State) :
    exec (.xori g d a imm) s = execXori g d a imm s := rfl

@[simp] theorem exec_shli (g : Guard) (d a : Field4) (n : BitVec 6) (s : State) :
    exec (.shli g d a n) s = execShli g d a n s := rfl

@[simp] theorem exec_shri (g : Guard) (d a : Field4) (n : BitVec 6) (s : State) :
    exec (.shri g d a n) s = execShri g d a n s := rfl

@[simp] theorem exec_shrai (g : Guard) (d a : Field4) (n : BitVec 6) (s : State) :
    exec (.shrai g d a n) s = execShrai g d a n s := rfl

@[simp] theorem exec_rotri (g : Guard) (d a : Field4) (n : BitVec 6) (s : State) :
    exec (.rotri g d a n) s = execRotri g d a n s := rfl

@[simp] theorem exec_movi (g : Guard) (d : Field4) (imm : BitVec 16) (s : State) :
    exec (.movi g d imm) s = execMovi g d imm s := rfl

@[simp] theorem exec_movk16 (g : Guard) (d : Field4) (imm : BitVec 16) (s : State) :
    exec (.movk16 g d imm) s = execMovk16 g d imm s := rfl

@[simp] theorem exec_movk32 (g : Guard) (d : Field4) (imm : BitVec 16) (s : State) :
    exec (.movk32 g d imm) s = execMovk32 g d imm s := rfl

@[simp] theorem exec_movk48 (g : Guard) (d : Field4) (imm : BitVec 16) (s : State) :
    exec (.movk48 g d imm) s = execMovk48 g d imm s := rfl

@[simp] theorem exec_cmp (g : Guard) (p a b : Field4) (cc : BitVec 8) (s : State) :
    exec (.cmp g p a b cc) s = execCmp g p a b cc s := rfl

@[simp] theorem exec_cmpi (g : Guard) (p a : Field4) (cc : BitVec 3) (imm : BitVec 9) (s : State) :
    exec (.cmpi g p a cc imm) s = execCmpi g p a cc imm s := rfl

@[simp] theorem exec_pand (g : Guard) (d a b : Field4) (s : State) :
    exec (.pand g d a b) s = execPand g d a b s := rfl

@[simp] theorem exec_por (g : Guard) (d a b : Field4) (s : State) :
    exec (.por g d a b) s = execPor g d a b s := rfl

@[simp] theorem exec_pxor (g : Guard) (d a b : Field4) (s : State) :
    exec (.pxor g d a b) s = execPxor g d a b s := rfl

@[simp] theorem exec_pnot (g : Guard) (d a : Field4) (s : State) :
    exec (.pnot g d a) s = execPnot g d a s := rfl

@[simp] theorem exec_pmov (g : Guard) (d a : Field4) (s : State) :
    exec (.pmov g d a) s = execPmov g d a s := rfl

@[simp] theorem exec_movpFromPw (g : Guard) (d : Field4) (s : State) :
    exec (.movpFromPw g d) s = execMovpFromPw g d s := rfl

@[simp] theorem exec_movpToPw (g : Guard) (a : Field4) (s : State) :
    exec (.movpToPw g a) s = execMovpToPw g a s := rfl

@[simp] theorem exec_br (g : Guard) (off : BitVec 20) (s : State) :
    exec (.br g off) s = execBr g off s := rfl

@[simp] theorem exec_jal (g : Guard) (off : BitVec 20) (s : State) :
    exec (.jal g off) s = execJal g off s := rfl

@[simp] theorem exec_jalr (g : Guard) (d a : Field4) (imm : BitVec 12) (s : State) :
    exec (.jalr g d a imm) s = execJalr g d a imm s := rfl

@[simp] theorem exec_nop (g : Guard) (s : State) :
    exec (.nop g) s = execNop g s := rfl

@[simp] theorem exec_halt (g : Guard) (s : State) :
    exec (.halt g) s = execHalt g s := rfl

@[simp] theorem exec_yield (g : Guard) (s : State) :
    exec (.yield g) s = execYield g s := rfl

@[simp] theorem exec_trap (g : Guard) (code : BitVec 8) (s : State) :
    exec (.trap g code) s = execTrap g code s := rfl

@[simp] theorem exec_eret (g : Guard) (s : State) :
    exec (.eret g) s = execEret g s := rfl

@[simp] theorem exec_brk (g : Guard) (code : BitVec 8) (s : State) :
    exec (.brk g code) s = execBrk g code s := rfl

@[simp] theorem exec_gets (g : Guard) (d : Field4) (n : BitVec 12) (s : State) :
    exec (.gets g d n) s = execGets g d n s := rfl

@[simp] theorem exec_sets (g : Guard) (a : Field4) (n : BitVec 12) (s : State) :
    exec (.sets g a n) s = execSets g a n s := rfl

@[simp] theorem exec_ld (g : Guard) (t base : Field4) (size : BitVec 2) (sx : Bool) (order : BitVec 2) (off : BitVec 7) (s : State) :
    exec (.ld g t base size sx order off) s = execLd g t base size sx order off s := rfl

@[simp] theorem exec_st (g : Guard) (t base : Field4) (size : BitVec 2) (order : BitVec 2) (off : BitVec 7) (s : State) :
    exec (.st g t base size order off) s = execSt g t base size order off s := rfl

@[simp] theorem exec_ldl (g : Guard) (t base : Field4) (size : BitVec 2) (sx : Bool) (off : BitVec 7) (s : State) :
    exec (.ldl g t base size sx off) s = execLdl g t base size sx off s := rfl

@[simp] theorem exec_stl (g : Guard) (t base : Field4) (size : BitVec 2) (off : BitVec 7) (s : State) :
    exec (.stl g t base size off) s = execStl g t base size off s := rfl

@[simp] theorem exec_ldh (g : Guard) (t base : Field4) (off : BitVec 7) (s : State) :
    exec (.ldh g t base off) s = execLdh g t base off s := rfl

@[simp] theorem exec_sth (g : Guard) (t base : Field4) (off : BitVec 7) (s : State) :
    exec (.sth g t base off) s = execSth g t base off s := rfl

@[simp] theorem exec_amoAdd (g : Guard) (d a b : Field4) (ty : BitVec 2) (scope : BitVec 3) (s : State) :
    exec (.amoAdd g d a b ty scope) s = execAmoAdd g d a b ty scope s := rfl

@[simp] theorem exec_amoMin (g : Guard) (d a b : Field4) (ty : BitVec 2) (scope : BitVec 3) (s : State) :
    exec (.amoMin g d a b ty scope) s = execAmoMin g d a b ty scope s := rfl

@[simp] theorem exec_amoMax (g : Guard) (d a b : Field4) (ty : BitVec 2) (scope : BitVec 3) (s : State) :
    exec (.amoMax g d a b ty scope) s = execAmoMax g d a b ty scope s := rfl

@[simp] theorem exec_amoAnd (g : Guard) (d a b : Field4) (ty : BitVec 2) (scope : BitVec 3) (s : State) :
    exec (.amoAnd g d a b ty scope) s = execAmoAnd g d a b ty scope s := rfl

@[simp] theorem exec_amoOr (g : Guard) (d a b : Field4) (ty : BitVec 2) (scope : BitVec 3) (s : State) :
    exec (.amoOr g d a b ty scope) s = execAmoOr g d a b ty scope s := rfl

@[simp] theorem exec_amoXor (g : Guard) (d a b : Field4) (ty : BitVec 2) (scope : BitVec 3) (s : State) :
    exec (.amoXor g d a b ty scope) s = execAmoXor g d a b ty scope s := rfl

@[simp] theorem exec_amoXchg (g : Guard) (d a b : Field4) (ty : BitVec 2) (scope : BitVec 3) (s : State) :
    exec (.amoXchg g d a b ty scope) s = execAmoXchg g d a b ty scope s := rfl

@[simp] theorem exec_cas (g : Guard) (d a b c : Field4) (double : Bool) (scope : BitVec 3) (s : State) :
    exec (.cas g d a b c double scope) s = execCas g d a b c double scope s := rfl

@[simp] theorem exec_cas2 (g : Guard) (d a b : Field4) (s : State) :
    exec (.cas2 g d a b) s = execCas2 g d a b s := rfl

@[simp] theorem exec_cas4 (g : Guard) (d a b : Field4) (s : State) :
    exec (.cas4 g d a b) s = execCas4 g d a b s := rfl

@[simp] theorem exec_enq (g : Guard) (d a b : Field4) (s : State) :
    exec (.enq g d a b) s = execEnq g d a b s := rfl

@[simp] theorem exec_deq (g : Guard) (d a b : Field4) (s : State) :
    exec (.deq g d a b) s = execDeq g d a b s := rfl

@[simp] theorem exec_chase (g : Guard) (d a b c : Field4) (s : State) :
    exec (.chase g d a b c) s = execChase g d a b c s := rfl

@[simp] theorem exec_cwait (g : Guard) (d a : Field4) (imm : BitVec 9) (s : State) :
    exec (.cwait g d a imm) s = execCwait g d a imm s := rfl

@[simp] theorem exec_cwaitr (g : Guard) (d a : Field4) (imm : BitVec 9) (s : State) :
    exec (.cwaitr g d a imm) s = execCwaitr g d a imm s := rfl

@[simp] theorem exec_cadd (g : Guard) (d a : Field4) (imm : BitVec 9) (s : State) :
    exec (.cadd g d a imm) s = execCadd g d a imm s := rfl

@[simp] theorem exec_caddRel (g : Guard) (d a : Field4) (imm : BitVec 9) (s : State) :
    exec (.caddRel g d a imm) s = execCaddRel g d a imm s := rfl

@[simp] theorem exec_cpeek (g : Guard) (d a : Field4) (imm : BitVec 9) (s : State) :
    exec (.cpeek g d a imm) s = execCpeek g d a imm s := rfl

@[simp] theorem exec_lempty (g : Guard) (a : Field4) (n : BitVec 4) (s : State) :
    exec (.lempty g a n) s = execLempty g a n s := rfl

@[simp] theorem exec_lfill (g : Guard) (a : Field4) (n : BitVec 4) (s : State) :
    exec (.lfill g a n) s = execLfill g a n s := rfl

@[simp] theorem exec_lstate (g : Guard) (d a : Field4) (s : State) :
    exec (.lstate g d a) s = execLstate g d a s := rfl

@[simp] theorem exec_wander (g : Guard) (a : Field4) (s : State) :
    exec (.wander g a) s = execWander g a s := rfl

@[simp] theorem exec_home (g : Guard) (s : State) :
    exec (.home g) s = execHome g s := rfl

@[simp] theorem exec_tx (g : Guard) (a : Field4) (imm : BitVec 12) (s : State) :
    exec (.tx g a imm) s = execTx g a imm s := rfl

@[simp] theorem exec_tq (g : Guard) (a : Field4) (imm : BitVec 12) (s : State) :
    exec (.tq g a imm) s = execTq g a imm s := rfl

@[simp] theorem exec_fork (g : Guard) (n a : Field4) (imm : BitVec 12) (s : State) :
    exec (.fork g n a imm) s = execFork g n a imm s := rfl

@[simp] theorem exec_rdv (g : Guard) (a : Field4) (imm : BitVec 12) (s : State) :
    exec (.rdv g a imm) s = execRdv g a imm s := rfl

@[simp] theorem exec_tshape (g : Guard) (t : Field4) (elem : BitVec 5) (rows : BitVec 4) (cols : BitVec 6) (s : State) :
    exec (.tshape g t elem rows cols) s = execTshape g t elem rows cols s := rfl

@[simp] theorem exec_tshapeReg (g : Guard) (t a : Field4) (s : State) :
    exec (.tshapeReg g t a) s = execTshapeReg g t a s := rfl

@[simp] theorem exec_tget (g : Guard) (d t b : Field4) (s : State) :
    exec (.tget g d t b) s = execTget g d t b s := rfl

@[simp] theorem exec_tset (g : Guard) (d t b : Field4) (s : State) :
    exec (.tset g d t b) s = execTset g d t b s := rfl

@[simp] theorem exec_park (g : Guard) (a t c : Field4) (s : State) :
    exec (.park g a t c) s = execPark g a t c s := rfl

@[simp] theorem exec_unpark (g : Guard) (d t c : Field4) (s : State) :
    exec (.unpark g d t c) s = execUnpark g d t c s := rfl

@[simp] theorem exec_borrow (g : Guard) (s : State) :
    exec (.borrow g) s = execBorrow g s := rfl

@[simp] theorem exec_returnLent (g : Guard) (s : State) :
    exec (.returnLent g) s = execReturnLent g s := rfl

@[simp] theorem exec_xget (g : Guard) (d n : Field4) (s : State) :
    exec (.xget g d n) s = execXget g d n s := rfl

@[simp] theorem exec_xput (g : Guard) (n b : Field4) (s : State) :
    exec (.xput g n b) s = execXput g n b s := rfl

@[simp] theorem exec_launch (g : Guard) (d a b : Field4) (s : State) :
    exec (.launch g d a b) s = execLaunch g d a b s := rfl

@[simp] theorem exec_trigger (g : Guard) (s : State) :
    exec (.trigger g) s = execTrigger g s := rfl

@[simp] theorem exec_kvsub (g : Guard) (d a b t : Field4) (s : State) :
    exec (.kvsub g d a b t) s = execKvsub g d a b t s := rfl

@[simp] theorem exec_kvunsub (g : Guard) (a : Field4) (s : State) :
    exec (.kvunsub g a) s = execKvunsub g a s := rfl

@[simp] theorem exec_pass (g : Guard) (a : Field4) (s : State) :
    exec (.pass g a) s = execPass g a s := rfl

@[simp] theorem exec_post (g : Guard) (a b : Field4) (s : State) :
    exec (.post g a b) s = execPost g a b s := rfl

@[simp] theorem exec_fadd (g : Guard) (d a b : Field4) (dbl : Bool) (rm : BitVec 3) (s : State) :
    exec (.fadd g d a b dbl rm) s = execFadd g d a b dbl rm s := rfl

@[simp] theorem exec_fsub (g : Guard) (d a b : Field4) (dbl : Bool) (rm : BitVec 3) (s : State) :
    exec (.fsub g d a b dbl rm) s = execFsub g d a b dbl rm s := rfl

@[simp] theorem exec_fmul (g : Guard) (d a b : Field4) (dbl : Bool) (rm : BitVec 3) (s : State) :
    exec (.fmul g d a b dbl rm) s = execFmul g d a b dbl rm s := rfl

@[simp] theorem exec_fdiv (g : Guard) (d a b : Field4) (dbl : Bool) (rm : BitVec 3) (s : State) :
    exec (.fdiv g d a b dbl rm) s = execFdiv g d a b dbl rm s := rfl

@[simp] theorem exec_fsqrt (g : Guard) (d a : Field4) (dbl : Bool) (rm : BitVec 3) (s : State) :
    exec (.fsqrt g d a dbl rm) s = execFsqrt g d a dbl rm s := rfl

@[simp] theorem exec_fmin (g : Guard) (d a b : Field4) (dbl : Bool) (s : State) :
    exec (.fmin g d a b dbl) s = execFmin g d a b dbl s := rfl

@[simp] theorem exec_fmax (g : Guard) (d a b : Field4) (dbl : Bool) (s : State) :
    exec (.fmax g d a b dbl) s = execFmax g d a b dbl s := rfl

@[simp] theorem exec_fneg (g : Guard) (d a : Field4) (dbl : Bool) (s : State) :
    exec (.fneg g d a dbl) s = execFneg g d a dbl s := rfl

@[simp] theorem exec_fabs (g : Guard) (d a : Field4) (dbl : Bool) (s : State) :
    exec (.fabs g d a dbl) s = execFabs g d a dbl s := rfl

@[simp] theorem exec_fcvt (g : Guard) (d a : Field4) (conv : BitVec 4) (rm : BitVec 3) (s : State) :
    exec (.fcvt g d a conv rm) s = execFcvt g d a conv rm s := rfl

@[simp] theorem exec_fma (g : Guard) (d a b c : Field4) (dbl : Bool) (s : State) :
    exec (.fma g d a b c dbl) s = execFma g d a b c dbl s := rfl

@[simp] theorem exec_fms (g : Guard) (d a b c : Field4) (dbl : Bool) (s : State) :
    exec (.fms g d a b c dbl) s = execFms g d a b c dbl s := rfl

@[simp] theorem exec_fnma (g : Guard) (d a b c : Field4) (dbl : Bool) (s : State) :
    exec (.fnma g d a b c dbl) s = execFnma g d a b c dbl s := rfl

@[simp] theorem exec_fnms (g : Guard) (d a b c : Field4) (dbl : Bool) (s : State) :
    exec (.fnms g d a b c dbl) s = execFnms g d a b c dbl s := rfl

@[simp] theorem exec_fcmp (g : Guard) (p a b : Field4) (dbl : Bool) (cc : BitVec 3) (s : State) :
    exec (.fcmp g p a b dbl cc) s = execFcmp g p a b dbl cc s := rfl

@[simp] theorem exec_plc (g : Guard) (d a b : Field4) (s : State) :
    exec (.plc g d a b) s = execPlc g d a b s := rfl

@[simp] theorem exec_ploc (g : Guard) (d a : Field4) (s : State) :
    exec (.ploc g d a) s = execPloc g d a s := rfl

@[simp] theorem exec_roll (g : Guard) (d a : Field4) (s : State) :
    exec (.roll g d a) s = execRoll g d a s := rfl

@[simp] theorem exec_rollF (g : Guard) (d a : Field4) (s : State) :
    exec (.rollF g d a) s = execRollF g d a s := rfl

@[simp] theorem exec_stc (g : Guard) (a b c : Field4) (size : BitVec 2) (s : State) :
    exec (.stc g a b c size) s = execStc g a b c size s := rfl

@[simp] theorem exec_tmma (f : TileFields) (s : State) :
    exec (.tmma f) s = execTmma f s := rfl

@[simp] theorem exec_tmms (f : TileFields) (s : State) :
    exec (.tmms f) s = execTmms f s := rfl

@[simp] theorem exec_tmmb (f : TileFields) (s : State) :
    exec (.tmmb f) s = execTmmb f s := rfl

@[simp] theorem exec_tmmd (f : TileFields) (s : State) :
    exec (.tmmd f) s = execTmmd f s := rfl

@[simp] theorem exec_radd (f : TileFields) (s : State) :
    exec (.radd f) s = execRadd f s := rfl

@[simp] theorem exec_rsub (f : TileFields) (s : State) :
    exec (.rsub f) s = execRsub f s := rfl

@[simp] theorem exec_rmul (f : TileFields) (s : State) :
    exec (.rmul f) s = execRmul f s := rfl

@[simp] theorem exec_rfma (f : TileFields) (s : State) :
    exec (.rfma f) s = execRfma f s := rfl

@[simp] theorem exec_rmin (f : TileFields) (s : State) :
    exec (.rmin f) s = execRmin f s := rfl

@[simp] theorem exec_rmax (f : TileFields) (s : State) :
    exec (.rmax f) s = execRmax f s := rfl

@[simp] theorem exec_rabs (f : TileFields) (s : State) :
    exec (.rabs f) s = execRabs f s := rfl

@[simp] theorem exec_rneg (f : TileFields) (s : State) :
    exec (.rneg f) s = execRneg f s := rfl

@[simp] theorem exec_rrcp (f : TileFields) (s : State) :
    exec (.rrcp f) s = execRrcp f s := rfl

@[simp] theorem exec_rrsq (f : TileFields) (s : State) :
    exec (.rrsq f) s = execRrsq f s := rfl

@[simp] theorem exec_rexp2 (f : TileFields) (s : State) :
    exec (.rexp2 f) s = execRexp2 f s := rfl

@[simp] theorem exec_rlog2 (f : TileFields) (s : State) :
    exec (.rlog2 f) s = execRlog2 f s := rfl

@[simp] theorem exec_rcvt (f : TileFields) (s : State) :
    exec (.rcvt f) s = execRcvt f s := rfl

@[simp] theorem exec_rand (f : TileFields) (s : State) :
    exec (.rand f) s = execRand f s := rfl

@[simp] theorem exec_ror (f : TileFields) (s : State) :
    exec (.ror f) s = execRor f s := rfl

@[simp] theorem exec_rxor (f : TileFields) (s : State) :
    exec (.rxor f) s = execRxor f s := rfl

@[simp] theorem exec_rshl (f : TileFields) (s : State) :
    exec (.rshl f) s = execRshl f s := rfl

@[simp] theorem exec_rshr (f : TileFields) (s : State) :
    exec (.rshr f) s = execRshr f s := rfl

@[simp] theorem exec_rcmp (f : TileFields) (s : State) :
    exec (.rcmp f) s = execRcmp f s := rfl

@[simp] theorem exec_rsel (f : TileFields) (s : State) :
    exec (.rsel f) s = execRsel f s := rfl

@[simp] theorem exec_rbcast (f : TileFields) (s : State) :
    exec (.rbcast f) s = execRbcast f s := rfl

@[simp] theorem exec_rsumr (f : TileFields) (s : State) :
    exec (.rsumr f) s = execRsumr f s := rfl

@[simp] theorem exec_rmaxr (f : TileFields) (s : State) :
    exec (.rmaxr f) s = execRmaxr f s := rfl

@[simp] theorem exec_rscan (f : TileFields) (s : State) :
    exec (.rscan f) s = execRscan f s := rfl

@[simp] theorem exec_rsort (f : TileFields) (s : State) :
    exec (.rsort f) s = execRsort f s := rfl

@[simp] theorem exec_ridx (f : TileFields) (s : State) :
    exec (.ridx f) s = execRidx f s := rfl

@[simp] theorem exec_rperm (f : TileFields) (s : State) :
    exec (.rperm f) s = execRperm f s := rfl

@[simp] theorem exec_rroll (f : TileFields) (s : State) :
    exec (.rroll f) s = execRroll f s := rfl

@[simp] theorem exec_kand (f : TileFields) (s : State) :
    exec (.kand f) s = execKand f s := rfl

@[simp] theorem exec_kor (f : TileFields) (s : State) :
    exec (.kor f) s = execKor f s := rfl

@[simp] theorem exec_kxor (f : TileFields) (s : State) :
    exec (.kxor f) s = execKxor f s := rfl

@[simp] theorem exec_knot (f : TileFields) (s : State) :
    exec (.knot f) s = execKnot f s := rfl

@[simp] theorem exec_tld (f : TileFields) (s : State) :
    exec (.tld f) s = execTld f s := rfl

@[simp] theorem exec_tst (f : TileFields) (s : State) :
    exec (.tst f) s = execTst f s := rfl

@[simp] theorem exec_tsta (f : TileFields) (s : State) :
    exec (.tsta f) s = execTsta f s := rfl

@[simp] theorem exec_tzero (f : TileFields) (s : State) :
    exec (.tzero f) s = execTzero f s := rfl

@[simp] theorem exec_tcopy (f : TileFields) (s : State) :
    exec (.tcopy f) s = execTcopy f s := rfl

@[simp] theorem exec_ttrn (f : TileFields) (s : State) :
    exec (.ttrn f) s = execTtrn f s := rfl

@[simp] theorem exec_cpy (f : TileFields) (s : State) :
    exec (.cpy f) s = execCpy f s := rfl

@[simp] theorem exec_cpya (f : TileFields) (s : State) :
    exec (.cpya f) s = execCpya f s := rfl

@[simp] theorem exec_csched (f : TileFields) (s : State) :
    exec (.csched f) s = execCsched f s := rfl

@[simp] theorem exec_cstage (f : TileFields) (s : State) :
    exec (.cstage f) s = execCstage f s := rfl

@[simp] theorem exec_gath (f : TileFields) (s : State) :
    exec (.gath f) s = execGath f s := rfl

@[simp] theorem exec_scat (f : TileFields) (s : State) :
    exec (.scat f) s = execScat f s := rfl

@[simp] theorem exec_atts (f : TileFields) (s : State) :
    exec (.atts f) s = execAtts f s := rfl

@[simp] theorem exec_attp (f : TileFields) (s : State) :
    exec (.attp f) s = execAttp f s := rfl

@[simp] theorem exec_gmrg (f : TileFields) (s : State) :
    exec (.gmrg f) s = execGmrg f s := rfl

@[simp] theorem exec_gtake (f : TileFields) (s : State) :
    exec (.gtake f) s = execGtake f s := rfl

@[simp] theorem exec_spire (f : TileFields) (s : State) :
    exec (.spire f) s = execSpire f s := rfl

@[simp] theorem exec_packetRoute (pk : Nat) (s : State) :
    exec (.packetRoute pk) s = execPacketRoute pk s := rfl

@[simp] theorem exec_drainMarker (node port : Nat) (s : State) :
    exec (.drainMarker node port) s = execDrainMarker node port s := rfl

@[simp] theorem exec_gatewayFrame (pk : Nat) (fecOk : Bool) (s : State) :
    exec (.gatewayFrame pk fecOk) s = execGatewayFrame pk fecOk s := rfl

@[simp] theorem exec_forkBufferSend (node pk : Nat) (s : State) :
    exec (.forkBufferSend node pk) s = execForkBufferSend node pk s := rfl

@[simp] theorem exec_reeveOperation (pk : Nat) (uncorrectable : Bool) (s : State) :
    exec (.reeveOperation pk uncorrectable) s = execReeveOperation pk uncorrectable s := rfl

@[simp] theorem exec_flagIncrement (pk : Nat) (s : State) :
    exec (.flagIncrement pk) s = execFlagIncrement pk s := rfl

@[simp] theorem exec_waitRegistration (pk : Nat) (s : State) :
    exec (.waitRegistration pk) s = execWaitRegistration pk s := rfl

@[simp] theorem exec_wakeNotice (pk : Nat) (s : State) :
    exec (.wakeNotice pk) s = execWakeNotice pk s := rfl

@[simp] theorem exec_replyLands (pk : Nat) (s : State) :
    exec (.replyLands pk) s = execReplyLands pk s := rfl

@[simp] theorem exec_acknowledgement (pk : Nat) (s : State) :
    exec (.acknowledgement pk) s = execAcknowledgement pk s := rfl

@[simp] theorem exec_busyNotice (pk : Nat) (s : State) :
    exec (.busyNotice pk) s = execBusyNotice pk s := rfl

@[simp] theorem exec_homeReport (pk : Nat) (s : State) :
    exec (.homeReport pk) s = execHomeReport pk s := rfl

@[simp] theorem exec_tableChange (chip chg : Nat) (s : State) :
    exec (.tableChange chip chg) s = execTableChange chip chg s := rfl

@[simp] theorem exec_tableChangeAcknowledge (chip chg : Nat) (s : State) :
    exec (.tableChangeAcknowledge chip chg) s = execTableChangeAcknowledge chip chg s := rfl

@[simp] theorem exec_movingExtentRecheck (thread : Nat) (s : State) :
    exec (.movingExtentRecheck thread) s = execMovingExtentRecheck thread s := rfl

@[simp] theorem exec_nodeCacheFetch (node key : Nat) (s : State) :
    exec (.nodeCacheFetch node key) s = execNodeCacheFetch node key s := rfl

@[simp] theorem exec_codeCacheFill (thread : Nat) (s : State) :
    exec (.codeCacheFill thread) s = execCodeCacheFill thread s := rfl

@[simp] theorem exec_copyScheduleEntry (task idx : Nat) (s : State) :
    exec (.copyScheduleEntry task idx) s = execCopyScheduleEntry task idx s := rfl

@[simp] theorem exec_submission (sub : Nat) (s : State) :
    exec (.submission sub) s = execSubmission sub s := rfl

@[simp] theorem exec_admission (node : Nat) (s : State) :
    exec (.admission node) s = execAdmission node s := rfl

@[simp] theorem exec_dispatch (node : Nat) (s : State) :
    exec (.dispatch node) s = execDispatch node s := rfl

@[simp] theorem exec_dependantSubmission (node : Nat) (s : State) :
    exec (.dependantSubmission node) s = execDependantSubmission node s := rfl

@[simp] theorem exec_taskRetirement (task : Nat) (s : State) :
    exec (.taskRetirement task) s = execTaskRetirement task s := rfl

@[simp] theorem exec_taskEndFailedPartial (task : Nat) (s : State) :
    exec (.taskEndFailedPartial task) s = execTaskEndFailedPartial task s := rfl

@[simp] theorem exec_preEmption (node : Nat) (s : State) :
    exec (.preEmption node) s = execPreEmption node s := rfl

@[simp] theorem exec_contextSave (thread : Nat) (s : State) :
    exec (.contextSave thread) s = execContextSave thread s := rfl

@[simp] theorem exec_saveRingRetry (thread : Nat) (s : State) :
    exec (.saveRingRetry thread) s = execSaveRingRetry thread s := rfl

@[simp] theorem exec_resumption (node record : Nat) (s : State) :
    exec (.resumption node record) s = execResumption node record s := rfl

@[simp] theorem exec_longOpResult (thread : Nat) (s : State) :
    exec (.longOpResult thread) s = execLongOpResult thread s := rfl

@[simp] theorem exec_yieldExpiry (thread : Nat) (s : State) :
    exec (.yieldExpiry thread) s = execYieldExpiry thread s := rfl

@[simp] theorem exec_engineCompletion (op : Nat) (s : State) :
    exec (.engineCompletion op) s = execEngineCompletion op s := rfl

@[simp] theorem exec_wayfarerArrival (pk : Nat) (s : State) :
    exec (.wayfarerArrival pk) s = execWayfarerArrival pk s := rfl

@[simp] theorem exec_wayfarerStart (core : Nat) (s : State) :
    exec (.wayfarerStart core) s = execWayfarerStart core s := rfl

@[simp] theorem exec_tollArrival (node : Nat) (s : State) :
    exec (.tollArrival node) s = execTollArrival node s := rfl

@[simp] theorem exec_tollReturn (node : Nat) (s : State) :
    exec (.tollReturn node) s = execTollReturn node s := rfl

@[simp] theorem exec_subscriptionRegistration (sub : Nat) (s : State) :
    exec (.subscriptionRegistration sub) s = execSubscriptionRegistration sub s := rfl

@[simp] theorem exec_passOpen (die roll : Nat) (s : State) :
    exec (.passOpen die roll) s = execPassOpen die roll s := rfl

@[simp] theorem exec_pageWalk (die roll : Nat) (s : State) :
    exec (.pageWalk die roll) s = execPageWalk die roll s := rfl

@[simp] theorem exec_stagingDelivery (pk : Nat) (s : State) :
    exec (.stagingDelivery pk) s = execStagingDelivery pk s := rfl

@[simp] theorem exec_spireRound (round : Nat) (s : State) :
    exec (.spireRound round) s = execSpireRound round s := rfl

@[simp] theorem exec_spirePackageSum (round : Nat) (s : State) :
    exec (.spirePackageSum round) s = execSpirePackageSum round s := rfl

@[simp] theorem exec_ouvvalFrame (chip port : Nat) (ok : Bool) (s : State) :
    exec (.ouvvalFrame chip port ok) s = execOuvvalFrame chip port ok s := rfl

@[simp] theorem exec_negativeAcknowledgement (chip port : Nat) (s : State) :
    exec (.negativeAcknowledgement chip port) s = execNegativeAcknowledgement chip port s := rfl

@[simp] theorem exec_entryEnqueue (entry : Nat) (s : State) :
    exec (.entryEnqueue entry) s = execEntryEnqueue entry s := rfl

@[simp] theorem exec_entryAdmission (chip port cls position : Nat) (s : State) :
    exec (.entryAdmission chip port cls position) s = execEntryAdmission chip port cls position s := rfl

@[simp] theorem exec_relayEntry (entry : Nat) (s : State) :
    exec (.relayEntry entry) s = execRelayEntry entry s := rfl

@[simp] theorem exec_relayCredit (chip via : Nat) (s : State) :
    exec (.relayCredit chip via) s = execRelayCredit chip via s := rfl

@[simp] theorem exec_parcelOffer (transit : Nat) (s : State) :
    exec (.parcelOffer transit) s = execParcelOffer transit s := rfl

@[simp] theorem exec_parcelAcceptance (transit : Nat) (s : State) :
    exec (.parcelAcceptance transit) s = execParcelAcceptance transit s := rfl

@[simp] theorem exec_parcelData (transit : Nat) (s : State) :
    exec (.parcelData transit) s = execParcelData transit s := rfl

@[simp] theorem exec_installationAcknowledgement (transit : Nat) (s : State) :
    exec (.installationAcknowledgement transit) s = execInstallationAcknowledgement transit s := rfl

@[simp] theorem exec_parcelTransitFailure (transit : Nat) (s : State) :
    exec (.parcelTransitFailure transit) s = execParcelTransitFailure transit s := rfl

@[simp] theorem exec_commandEntry (parish : Nat) (s : State) :
    exec (.commandEntry parish) s = execCommandEntry parish s := rfl

@[simp] theorem exec_launchCommand (parish seq : Nat) (s : State) :
    exec (.launchCommand parish seq) s = execLaunchCommand parish seq s := rfl

@[simp] theorem exec_copyin (parish seq : Nat) (s : State) :
    exec (.copyin parish seq) s = execCopyin parish seq s := rfl

@[simp] theorem exec_copyout (parish seq : Nat) (s : State) :
    exec (.copyout parish seq) s = execCopyout parish seq s := rfl

@[simp] theorem exec_mark (parish seq : Nat) (s : State) :
    exec (.mark parish seq) s = execMark parish seq s := rfl

@[simp] theorem exec_commandCompletion (parish seq : Nat) (s : State) :
    exec (.commandCompletion parish seq) s = execCommandCompletion parish seq s := rfl

@[simp] theorem exec_busyResend (pk : Nat) (s : State) :
    exec (.busyResend pk) s = execBusyResend pk s := rfl

@[simp] theorem exec_rotorRelock (chip port : Nat) (s : State) :
    exec (.rotorRelock chip port) s = execRotorRelock chip port s := rfl

@[simp] theorem exec_powerOnReset (chip : Nat) (s : State) :
    exec (.powerOnReset chip) s = execPowerOnReset chip s := rfl

@[simp] theorem exec_bootRom (chip : Nat) (b : BootInput) (s : State) :
    exec (.bootRom chip b) s = execBootRom chip b s := rfl

@[simp] theorem exec_linkTraining (chip port : Nat) (b : TrainingInput) (s : State) :
    exec (.linkTraining chip port b) s = execLinkTraining chip port b s := rfl

@[simp] theorem exec_clusterReset (c : Cluster) (s : State) :
    exec (.clusterReset c) s = execClusterReset c s := rfl

@[simp] theorem exec_clusterRelease (c : Cluster) (s : State) :
    exec (.clusterRelease c) s = execClusterRelease c s := rfl

@[simp] theorem exec_routeTableWrite (node bank idx : Nat) (entry : Word) (s : State) :
    exec (.routeTableWrite node bank idx entry) s = execRouteTableWrite node bank idx entry s := rfl

@[simp] theorem exec_swapMarker (node : Nat) (s : State) :
    exec (.swapMarker node) s = execSwapMarker node s := rfl

@[simp] theorem exec_retryTimeout (pk : Nat) (s : State) :
    exec (.retryTimeout pk) s = execRetryTimeout pk s := rfl

@[simp] theorem exec_scrub (core : Nat) (found : ScrubFinding) (s : State) :
    exec (.scrub core found) s = execScrub core found s := rfl

@[simp] theorem exec_channelScrub (chip channel : Nat) (found : ScrubFinding) (s : State) :
    exec (.channelScrub chip channel found) s = execChannelScrub chip channel found s := rfl

@[simp] theorem exec_tollCountSet (die count : Nat) (s : State) :
    exec (.tollCountSet die count) s = execTollCountSet die count s := rfl

@[simp] theorem exec_tollHoldLimit (node : Nat) (s : State) :
    exec (.tollHoldLimit node) s = execTollHoldLimit node s := rfl

@[simp] theorem exec_slotStart (chip port since10ns : Nat) (s : State) :
    exec (.slotStart chip port since10ns) s = execSlotStart chip port since10ns s := rfl

@[simp] theorem exec_helloFrame (chip port : Nat) (h : Hello) (s : State) :
    exec (.helloFrame chip port h) s = execHelloFrame chip port h s := rfl

@[simp] theorem exec_keyUpdate (chip port : Nat) (key : BitVec 256) (s : State) :
    exec (.keyUpdate chip port key) s = execKeyUpdate chip port key s := rfl

@[simp] theorem exec_keyRotationTimer (chip port : Nat) (s : State) :
    exec (.keyRotationTimer chip port) s = execKeyRotationTimer chip port s := rfl

@[simp] theorem exec_rotorTableChange (chip : Nat) (c : RotorChange) (s : State) :
    exec (.rotorTableChange chip c) s = execRotorTableChange chip c s := rfl

@[simp] theorem exec_qtailWrite (parish : Nat) (v : Word) (s : State) :
    exec (.qtailWrite parish v) s = execQtailWrite parish v s := rfl

@[simp] theorem exec_jheadWrite (parish : Nat) (v : Word) (s : State) :
    exec (.jheadWrite parish v) s = execJheadWrite parish v s := rfl

@[simp] theorem exec_registerWrite (chip off : Nat) (v : Word) (s : State) :
    exec (.registerWrite chip off v) s = execRegisterWrite chip off v s := rfl

@[simp] theorem exec_measurements (chip : Nat) (r : MeasurementRequest) (s : State) :
    exec (.measurements chip r) s = execMeasurements chip r s := rfl

@[simp] theorem exec_dieOverTemperature (die : Nat) (s : State) :
    exec (.dieOverTemperature die) s = execDieOverTemperature die s := rfl

@[simp] theorem exec_moduleOverTemperature (chip : Nat) (s : State) :
    exec (.moduleOverTemperature chip) s = execModuleOverTemperature chip s := rfl

@[simp] theorem exec_darkPeriodMissed (chip port : Nat) (s : State) :
    exec (.darkPeriodMissed chip port) s = execDarkPeriodMissed chip port s := rfl

@[simp] theorem exec_gatewayTraining (chip : Nat) (deadSeams : List Nat) (s : State) :
    exec (.gatewayTraining chip deadSeams) s = execGatewayTraining chip deadSeams s := rfl

@[simp] theorem exec_hostLinkTraining (chip speed width : Nat) (s : State) :
    exec (.hostLinkTraining chip speed width) s = execHostLinkTraining chip speed width s := rfl

@[simp] theorem exec_powerLoss (chip : Nat) (s : State) :
    exec (.powerLoss chip) s = execPowerLoss chip s := rfl

@[simp] theorem exec_disposition (chip parish : Nat) (s : State) :
    exec (.disposition chip parish) s = execDisposition chip parish s := rfl

@[simp] theorem exec_parishCreate (chip parish : Nat) (s : State) :
    exec (.parishCreate chip parish) s = execParishCreate chip parish s := rfl

@[simp] theorem exec_parishDestroy (chip parish : Nat) (s : State) :
    exec (.parishDestroy chip parish) s = execParishDestroy chip parish s := rfl

end Sys2Proof.Machine
end

