-- ==== Sys2Proof/Laws/Encode.lean ====
section
/-! SUPPORT. The fields of encoded words, and that the bytes of a word give the word back. -/

namespace Sys2Proof

/-! ### Fields of concatenations -/

theorem field_append_hi {m n : Nat} (x : BitVec m) (y : BitVec n) (lo w : Nat) (h : n ≤ lo) :
    (x ++ y).extractLsb' lo w = x.extractLsb' (lo - n) w := by
  ext i hi
  simp only [BitVec.getElem_extractLsb', BitVec.getLsbD_append]
  rw [if_neg (by omega)]
  congr 1
  omega

theorem field_append_lo {m n : Nat} (x : BitVec m) (y : BitVec n) (lo w : Nat) (h : lo + w ≤ n) :
    (x ++ y).extractLsb' lo w = y.extractLsb' lo w := by
  ext i hi
  simp only [BitVec.getElem_extractLsb', BitVec.getLsbD_append]
  rw [if_pos (by omega)]

theorem bit_append_hi {m n : Nat} (x : BitVec m) (y : BitVec n) (i : Nat) (h : n ≤ i) :
    (x ++ y).getLsbD i = x.getLsbD (i - n) := by
  rw [BitVec.getLsbD_append, if_neg (by omega)]

theorem bit_append_lo {m n : Nat} (x : BitVec m) (y : BitVec n) (i : Nat) (h : i < n) :
    (x ++ y).getLsbD i = y.getLsbD i := by
  rw [BitVec.getLsbD_append, if_pos h]

theorem field_whole {n : Nat} (x : BitVec n) : x.extractLsb' 0 n = x := by simp

/-! ### Scalar words -/

theorem pack_field (g : Guard) (m : BitVec 6) (r : BitVec 20) (lo w : Nat) (h : lo + w ≤ 20) :
    (pack g m r).extractLsb' lo w = r.extractLsb' lo w := field_append_lo _ _ _ _ h

theorem pack_bit (g : Guard) (m : BitVec 6) (r : BitVec 20) (i : Nat) (h : i < 20) :
    (pack g m r).getLsbD i = r.getLsbD i := bit_append_lo _ _ _ h

theorem pack_major (g : Guard) (m : BitVec 6) (r : BitVec 20) : (pack g m r).extractLsb' 20 6 = m := by
  unfold pack
  rw [field_append_hi _ _ _ _ (by omega), field_append_lo _ _ _ _ (by omega)]
  simp

theorem pack_guard (g : Guard) (m : BitVec 6) (r : BitVec 20) : decodeGuard (pack g m r) = g := by
  unfold decodeGuard pack field
  rw [field_append_hi _ _ _ _ (by omega), field_append_hi _ _ _ _ (by omega), field_append_lo _ _ _ _ (by omega),
    bit_append_hi _ _ _ (by omega), bit_append_hi _ _ _ (by omega), bit_append_hi _ _ _ (by omega),
    bit_append_hi _ _ _ (by omega), bit_append_hi _ _ _ (by omega), bit_append_hi _ _ _ (by omega),
    bit_append_hi _ _ _ (by omega), bit_append_lo _ _ _ (by omega)]
  cases g
  simp

/-! ### Formats -/

theorem fmtR_d (d a b : Field4) (f : BitVec 8) :
    (fmtR d a b f).extractLsb' 16 4 = d := by
  unfold fmtR
  rw [field_append_hi _ _ _ _ (by omega), field_append_hi _ _ _ _ (by omega), field_append_hi _ _ _ _ (by omega)]
  simp

theorem fmtR_a (d a b : Field4) (f : BitVec 8) :
    (fmtR d a b f).extractLsb' 12 4 = a := by
  unfold fmtR
  rw [field_append_hi _ _ _ _ (by omega), field_append_hi _ _ _ _ (by omega), field_append_lo _ _ _ _ (by omega)]
  simp

theorem fmtR_b (d a b : Field4) (f : BitVec 8) :
    (fmtR d a b f).extractLsb' 8 4 = b := by
  unfold fmtR
  rw [field_append_hi _ _ _ _ (by omega), field_append_lo _ _ _ _ (by omega)]
  simp

theorem fmtR_fn (d a b : Field4) (f : BitVec 8) :
    (fmtR d a b f).extractLsb' 0 8 = f := by
  unfold fmtR
  rw [field_append_lo _ _ _ _ (by omega)]
  simp

theorem fmtI_d (d a : Field4) (i : BitVec 12) :
    (fmtI d a i).extractLsb' 16 4 = d := by
  unfold fmtI
  rw [field_append_hi _ _ _ _ (by omega), field_append_hi _ _ _ _ (by omega)]
  simp

theorem fmtI_a (d a : Field4) (i : BitVec 12) :
    (fmtI d a i).extractLsb' 12 4 = a := by
  unfold fmtI
  rw [field_append_hi _ _ _ _ (by omega), field_append_lo _ _ _ _ (by omega)]
  simp

theorem fmtI_imm (d a : Field4) (i : BitVec 12) :
    (fmtI d a i).extractLsb' 0 12 = i := by
  unfold fmtI
  rw [field_append_lo _ _ _ _ (by omega)]
  simp

theorem fmtW_d (d : Field4) (i : BitVec 16) :
    (fmtW d i).extractLsb' 16 4 = d := by
  unfold fmtW
  rw [field_append_hi _ _ _ _ (by omega)]
  simp

theorem fmtW_imm (d : Field4) (i : BitVec 16) :
    (fmtW d i).extractLsb' 0 16 = i := by
  unfold fmtW
  rw [field_append_lo _ _ _ _ (by omega)]
  simp

theorem fmtM_t (t b : Field4) (z : BitVec 2) (x : Bool) (o : BitVec 2) (f : BitVec 7) :
    (fmtM t b z x o f).extractLsb' 16 4 = t := by
  unfold fmtM
  rw [field_append_hi _ _ _ _ (by omega), field_append_hi _ _ _ _ (by omega), field_append_hi _ _ _ _ (by omega), field_append_hi _ _ _ _ (by omega), field_append_hi _ _ _ _ (by omega)]
  simp

theorem fmtM_base (t b : Field4) (z : BitVec 2) (x : Bool) (o : BitVec 2) (f : BitVec 7) :
    (fmtM t b z x o f).extractLsb' 12 4 = b := by
  unfold fmtM
  rw [field_append_hi _ _ _ _ (by omega), field_append_hi _ _ _ _ (by omega), field_append_hi _ _ _ _ (by omega), field_append_hi _ _ _ _ (by omega), field_append_lo _ _ _ _ (by omega)]
  simp

theorem fmtM_size (t b : Field4) (z : BitVec 2) (x : Bool) (o : BitVec 2) (f : BitVec 7) :
    (fmtM t b z x o f).extractLsb' 10 2 = z := by
  unfold fmtM
  rw [field_append_hi _ _ _ _ (by omega), field_append_hi _ _ _ _ (by omega), field_append_hi _ _ _ _ (by omega), field_append_lo _ _ _ _ (by omega)]
  simp

theorem fmtM_order (t b : Field4) (z : BitVec 2) (x : Bool) (o : BitVec 2) (f : BitVec 7) :
    (fmtM t b z x o f).extractLsb' 7 2 = o := by
  unfold fmtM
  rw [field_append_hi _ _ _ _ (by omega), field_append_lo _ _ _ _ (by omega)]
  simp

theorem fmtM_off (t b : Field4) (z : BitVec 2) (x : Bool) (o : BitVec 2) (f : BitVec 7) :
    (fmtM t b z x o f).extractLsb' 0 7 = f := by
  unfold fmtM
  rw [field_append_lo _ _ _ _ (by omega)]
  simp

theorem fmtM_sx (t b : Field4) (z : BitVec 2) (x : Bool) (o : BitVec 2) (f : BitVec 7) :
    (fmtM t b z x o f).getLsbD 9 = x := by
  unfold fmtM
  rw [bit_append_hi _ _ _ (by omega), bit_append_hi _ _ _ (by omega), bit_append_lo _ _ _ (by omega)]
  simp

theorem fmtF_d (d a b c o : Field4) :
    (fmtF d a b c o).extractLsb' 16 4 = d := by
  unfold fmtF
  rw [field_append_hi _ _ _ _ (by omega), field_append_hi _ _ _ _ (by omega), field_append_hi _ _ _ _ (by omega), field_append_hi _ _ _ _ (by omega)]
  simp

theorem fmtF_a (d a b c o : Field4) :
    (fmtF d a b c o).extractLsb' 12 4 = a := by
  unfold fmtF
  rw [field_append_hi _ _ _ _ (by omega), field_append_hi _ _ _ _ (by omega), field_append_hi _ _ _ _ (by omega), field_append_lo _ _ _ _ (by omega)]
  simp

theorem fmtF_b (d a b c o : Field4) :
    (fmtF d a b c o).extractLsb' 8 4 = b := by
  unfold fmtF
  rw [field_append_hi _ _ _ _ (by omega), field_append_hi _ _ _ _ (by omega), field_append_lo _ _ _ _ (by omega)]
  simp

theorem fmtF_c (d a b c o : Field4) :
    (fmtF d a b c o).extractLsb' 4 4 = c := by
  unfold fmtF
  rw [field_append_hi _ _ _ _ (by omega), field_append_lo _ _ _ _ (by omega)]
  simp

theorem fmtF_op (d a b c o : Field4) :
    (fmtF d a b c o).extractLsb' 0 4 = o := by
  unfold fmtF
  rw [field_append_lo _ _ _ _ (by omega)]
  simp

theorem fmtR_sub (d a b : Field4) (f : BitVec 8) (lo w : Nat) (h : lo + w ≤ 8) :
    (fmtR d a b f).extractLsb' lo w = f.extractLsb' lo w := field_append_lo _ _ _ _ h

theorem fmtR_bit (d a b : Field4) (f : BitVec 8) (n : Nat) (h : n < 8) : (fmtR d a b f).getLsbD n = f.getLsbD n := bit_append_lo _ _ _ h

theorem fmtI_sub (d a : Field4) (i : BitVec 12) (lo w : Nat) (h : lo + w ≤ 12) :
    (fmtI d a i).extractLsb' lo w = i.extractLsb' lo w := field_append_lo _ _ _ _ h

theorem fmtI_bit (d a : Field4) (i : BitVec 12) (n : Nat) (h : n < 12) : (fmtI d a i).getLsbD n = i.getLsbD n := bit_append_lo _ _ _ h

theorem fmtF_sub (d a b c o : Field4) (lo w : Nat) (h : lo + w ≤ 4) :
    (fmtF d a b c o).extractLsb' lo w = o.extractLsb' lo w := field_append_lo _ _ _ _ h

theorem fmtF_bit (d a b c o : Field4) (n : Nat) (h : n < 4) : (fmtF d a b c o).getLsbD n = o.getLsbD n := bit_append_lo _ _ _ h

theorem fmtI_high (i : BitVec 12) : (fmtI 0#4 0#4 i).extractLsb' 12 8 = 0#8 := by
  unfold fmtI
  rw [field_append_hi _ _ _ _ (by omega)]
  simp

theorem cat_6_6_0 (p0 : BitVec 6) (p1 : BitVec 6) :
    (p0 ++ p1 : BitVec 12).extractLsb' 6 6 = p0 := by
  rw [field_append_hi _ _ _ _ (by omega)]
  simp

theorem cat_6_6_1 (p0 : BitVec 6) (p1 : BitVec 6) :
    (p0 ++ p1 : BitVec 12).extractLsb' 0 6 = p1 := by
  rw [field_append_lo _ _ _ _ (by omega)]
  simp

theorem cat_3_9_0 (p0 : BitVec 3) (p1 : BitVec 9) :
    (p0 ++ p1 : BitVec 12).extractLsb' 9 3 = p0 := by
  rw [field_append_hi _ _ _ _ (by omega)]
  simp

theorem cat_3_9_1 (p0 : BitVec 3) (p1 : BitVec 9) :
    (p0 ++ p1 : BitVec 12).extractLsb' 0 9 = p1 := by
  rw [field_append_lo _ _ _ _ (by omega)]
  simp

theorem cat_4_8_0 (p0 : BitVec 4) (p1 : BitVec 8) :
    (p0 ++ p1 : BitVec 12).extractLsb' 8 4 = p0 := by
  rw [field_append_hi _ _ _ _ (by omega)]
  simp

theorem cat_4_8_1 (p0 : BitVec 4) (p1 : BitVec 8) :
    (p0 ++ p1 : BitVec 12).extractLsb' 0 8 = p1 := by
  rw [field_append_lo _ _ _ _ (by omega)]
  simp

theorem cat_3_2_3_0 (p0 : BitVec 3) (p1 : BitVec 2) (p2 : BitVec 3) :
    (p0 ++ p1 ++ p2 : BitVec 8).extractLsb' 5 3 = p0 := by
  rw [field_append_hi _ _ _ _ (by omega), field_append_hi _ _ _ _ (by omega)]
  simp

theorem cat_3_2_3_1 (p0 : BitVec 3) (p1 : BitVec 2) (p2 : BitVec 3) :
    (p0 ++ p1 ++ p2 : BitVec 8).extractLsb' 3 2 = p1 := by
  rw [field_append_hi _ _ _ _ (by omega), field_append_lo _ _ _ _ (by omega)]
  simp

theorem cat_3_2_3_2 (p0 : BitVec 3) (p1 : BitVec 2) (p2 : BitVec 3) :
    (p0 ++ p1 ++ p2 : BitVec 8).extractLsb' 0 3 = p2 := by
  rw [field_append_lo _ _ _ _ (by omega)]
  simp

theorem cat_1_3_0 (p0 : BitVec 1) (p1 : BitVec 3) :
    (p0 ++ p1 : BitVec 4).extractLsb' 3 1 = p0 := by
  rw [field_append_hi _ _ _ _ (by omega)]
  simp

theorem cat_1_3_1 (p0 : BitVec 1) (p1 : BitVec 3) :
    (p0 ++ p1 : BitVec 4).extractLsb' 0 3 = p1 := by
  rw [field_append_lo _ _ _ _ (by omega)]
  simp

theorem cat_2_4_6_0 (p0 : BitVec 2) (p1 : BitVec 4) (p2 : BitVec 6) :
    (p0 ++ p1 ++ p2 : BitVec 12).extractLsb' 10 2 = p0 := by
  rw [field_append_hi _ _ _ _ (by omega), field_append_hi _ _ _ _ (by omega)]
  simp

theorem cat_2_4_6_1 (p0 : BitVec 2) (p1 : BitVec 4) (p2 : BitVec 6) :
    (p0 ++ p1 ++ p2 : BitVec 12).extractLsb' 6 4 = p1 := by
  rw [field_append_hi _ _ _ _ (by omega), field_append_lo _ _ _ _ (by omega)]
  simp

theorem cat_2_4_6_2 (p0 : BitVec 2) (p1 : BitVec 4) (p2 : BitVec 6) :
    (p0 ++ p1 ++ p2 : BitVec 12).extractLsb' 0 6 = p2 := by
  rw [field_append_lo _ _ _ _ (by omega)]
  simp

theorem cat_4_5_4_6_1_0 (p0 : BitVec 4) (p1 : BitVec 5) (p2 : BitVec 4) (p3 : BitVec 6) (p4 : BitVec 1) :
    (p0 ++ p1 ++ p2 ++ p3 ++ p4 : BitVec 20).extractLsb' 16 4 = p0 := by
  rw [field_append_hi _ _ _ _ (by omega), field_append_hi _ _ _ _ (by omega), field_append_hi _ _ _ _ (by omega), field_append_hi _ _ _ _ (by omega)]
  simp

theorem cat_4_5_4_6_1_1 (p0 : BitVec 4) (p1 : BitVec 5) (p2 : BitVec 4) (p3 : BitVec 6) (p4 : BitVec 1) :
    (p0 ++ p1 ++ p2 ++ p3 ++ p4 : BitVec 20).extractLsb' 11 5 = p1 := by
  rw [field_append_hi _ _ _ _ (by omega), field_append_hi _ _ _ _ (by omega), field_append_hi _ _ _ _ (by omega), field_append_lo _ _ _ _ (by omega)]
  simp

theorem cat_4_5_4_6_1_2 (p0 : BitVec 4) (p1 : BitVec 5) (p2 : BitVec 4) (p3 : BitVec 6) (p4 : BitVec 1) :
    (p0 ++ p1 ++ p2 ++ p3 ++ p4 : BitVec 20).extractLsb' 7 4 = p2 := by
  rw [field_append_hi _ _ _ _ (by omega), field_append_hi _ _ _ _ (by omega), field_append_lo _ _ _ _ (by omega)]
  simp

theorem cat_4_5_4_6_1_3 (p0 : BitVec 4) (p1 : BitVec 5) (p2 : BitVec 4) (p3 : BitVec 6) (p4 : BitVec 1) :
    (p0 ++ p1 ++ p2 ++ p3 ++ p4 : BitVec 20).extractLsb' 1 6 = p3 := by
  rw [field_append_hi _ _ _ _ (by omega), field_append_lo _ _ _ _ (by omega)]
  simp

theorem cat_4_5_4_6_1_4 (p0 : BitVec 4) (p1 : BitVec 5) (p2 : BitVec 4) (p3 : BitVec 6) (p4 : BitVec 1) :
    (p0 ++ p1 ++ p2 ++ p3 ++ p4 : BitVec 20).extractLsb' 0 1 = p4 := by
  rw [field_append_lo _ _ _ _ (by omega)]
  simp

theorem cat_4_1_3_0 (p0 : BitVec 4) (p1 : BitVec 1) (p2 : BitVec 3) :
    (p0 ++ p1 ++ p2 : BitVec 8).extractLsb' 4 4 = p0 := by
  rw [field_append_hi _ _ _ _ (by omega), field_append_hi _ _ _ _ (by omega)]
  simp

theorem cat_4_1_3_1 (p0 : BitVec 4) (p1 : BitVec 1) (p2 : BitVec 3) :
    (p0 ++ p1 ++ p2 : BitVec 8).extractLsb' 3 1 = p1 := by
  rw [field_append_hi _ _ _ _ (by omega), field_append_lo _ _ _ _ (by omega)]
  simp

theorem cat_4_1_3_2 (p0 : BitVec 4) (p1 : BitVec 1) (p2 : BitVec 3) :
    (p0 ++ p1 ++ p2 : BitVec 8).extractLsb' 0 3 = p2 := by
  rw [field_append_lo _ _ _ _ (by omega)]
  simp

theorem cat_2_1_1_0 (p0 : BitVec 2) (p1 : BitVec 1) (p2 : BitVec 1) :
    (p0 ++ p1 ++ p2 : BitVec 4).extractLsb' 2 2 = p0 := by
  rw [field_append_hi _ _ _ _ (by omega), field_append_hi _ _ _ _ (by omega)]
  simp

theorem cat_2_1_1_1 (p0 : BitVec 2) (p1 : BitVec 1) (p2 : BitVec 1) :
    (p0 ++ p1 ++ p2 : BitVec 4).extractLsb' 1 1 = p1 := by
  rw [field_append_hi _ _ _ _ (by omega), field_append_lo _ _ _ _ (by omega)]
  simp

theorem cat_2_1_1_2 (p0 : BitVec 2) (p1 : BitVec 1) (p2 : BitVec 1) :
    (p0 ++ p1 ++ p2 : BitVec 4).extractLsb' 0 1 = p2 := by
  rw [field_append_lo _ _ _ _ (by omega)]
  simp

theorem cat_1_4_3_0 (p0 : BitVec 1) (p1 : BitVec 4) (p2 : BitVec 3) :
    (p0 ++ p1 ++ p2 : BitVec 8).extractLsb' 7 1 = p0 := by
  rw [field_append_hi _ _ _ _ (by omega), field_append_hi _ _ _ _ (by omega)]
  simp

theorem cat_1_4_3_1 (p0 : BitVec 1) (p1 : BitVec 4) (p2 : BitVec 3) :
    (p0 ++ p1 ++ p2 : BitVec 8).extractLsb' 3 4 = p1 := by
  rw [field_append_hi _ _ _ _ (by omega), field_append_lo _ _ _ _ (by omega)]
  simp

theorem cat_1_4_3_2 (p0 : BitVec 1) (p1 : BitVec 4) (p2 : BitVec 3) :
    (p0 ++ p1 ++ p2 : BitVec 8).extractLsb' 0 3 = p2 := by
  rw [field_append_lo _ _ _ _ (by omega)]
  simp

theorem cat_2_2_0 (p0 : BitVec 2) (p1 : BitVec 2) :
    (p0 ++ p1 : BitVec 4).extractLsb' 2 2 = p0 := by
  rw [field_append_hi _ _ _ _ (by omega)]
  simp

theorem cat_2_2_1 (p0 : BitVec 2) (p1 : BitVec 2) :
    (p0 ++ p1 : BitVec 4).extractLsb' 0 2 = p1 := by
  rw [field_append_lo _ _ _ _ (by omega)]
  simp

theorem catbit_4_1_3 (x : BitVec 4) (p : Bool) (z : BitVec 3) :
    (x ++ BitVec.ofBool p ++ z : BitVec 8).getLsbD 3 = p := by
  rw [bit_append_hi _ _ _ (by omega), bit_append_lo _ _ _ (by omega)]
  simp

theorem catbit_4_1_3_zero (x : BitVec 4) (z : BitVec 3) :
    (x ++ 0#1 ++ z : BitVec 8).getLsbD 3 = false := catbit_4_1_3 x false z

theorem catbit_2_1_1_lo (x : BitVec 2) (p : Bool) :
    (x ++ BitVec.ofBool p ++ 0#1 : BitVec 4).getLsbD 0 = false := by
  rw [bit_append_lo _ _ _ (by omega)]
  simp

theorem catbit_2_1_1 (x : BitVec 2) (p : Bool) :
    (x ++ BitVec.ofBool p ++ 0#1 : BitVec 4).getLsbD 1 = p := by
  rw [bit_append_hi _ _ _ (by omega), bit_append_lo _ _ _ (by omega)]
  simp

theorem catbit_1_4_3 (p : Bool) (y : BitVec 4) (z : BitVec 3) :
    (BitVec.ofBool p ++ y ++ z : BitVec 8).getLsbD 7 = p := by
  rw [bit_append_hi _ _ _ (by omega), bit_append_hi _ _ _ (by omega)]
  simp

theorem catbit_1_3 (p : Bool) (z : BitVec 3) : (BitVec.ofBool p ++ z : BitVec 4).getLsbD 3 = p := by
  rw [bit_append_hi _ _ _ (by omega)]
  simp

theorem catbit_shape (t : BitVec 4) (e : BitVec 5) (r : BitVec 4) (c : BitVec 6) :
    (t ++ e ++ r ++ c ++ 0#1 : BitVec 20).getLsbD 0 = false := by
  rw [bit_append_lo _ _ _ (by omega)]
  simp

/-- What the decoder makes of a packed word. -/
theorem decodeWord_pack (g : Guard) (m : BitVec 6) (r : BitVec 20) (i : Instr) (hg : g.ok = true) (hm : m ≠ 0)
    (hb : decodeBody (pack g m r) g = some i) (hi : i.minorsOk = true) : decodeWord (pack g m r) = .ok i := by
  have hm' : (m == (0 : BitVec 6)) = false := beq_eq_false_iff_ne.2 hm
  unfold decodeWord
  simp only [pack_guard, hg, Bool.not_true, Bool.false_eq_true, if_false, field, pack_major, hm', hb, hi, if_true]

/-! ### Command words -/

theorem packCommand_opcode (op : BitVec 8) (f : TileFields) : (packCommand op f).extractLsb' 248 8 = op := by
  unfold packCommand
  repeat rw [field_append_hi _ _ _ _ (by omega)]
  simp

theorem commandFields_pack (op : BitVec 8) (f : TileFields) : commandFields (packCommand op f) = f := by
  cases f
  unfold commandFields packCommand field
  rw [TileFields.mk.injEq]
  refine ⟨?_, ?_, ?_, ?_, ?_, ?_, ?_, ?_, ?_, ?_, ?_, ?_, ?_, ?_, ?_, ?_, ?_, ?_, ?_, ?_⟩
  · repeat rw [bit_append_hi _ _ _ (by omega)]
    rw [bit_append_lo _ _ _ (by omega)]; simp
  · repeat rw [bit_append_hi _ _ _ (by omega)]
    rw [bit_append_lo _ _ _ (by omega)]; simp
  iterate 11
    · repeat rw [field_append_hi _ _ _ _ (by omega)]
      rw [field_append_lo _ _ _ _ (by omega)]; simp
  · repeat rw [bit_append_hi _ _ _ (by omega)]
    rw [bit_append_lo _ _ _ (by omega)]; simp
  iterate 6
    · repeat rw [field_append_hi _ _ _ _ (by omega)]
      rw [field_append_lo _ _ _ _ (by omega)]; simp

/-- What the decoder makes of a packed command word. -/
theorem decodeCommand_pack (op : BitVec 8) (f : TileFields) (i : Instr) (h0 : op ≠ 0) (h : commandOf op.toNat f = some i) :
    decodeCommand (packCommand op f) = .ok i := by
  have h0' : (op == (0 : BitVec 8)) = false := beq_eq_false_iff_ne.2 h0
  unfold decodeCommand
  simp only [field, packCommand_opcode, h0', Bool.false_eq_true, if_false, commandFields_pack, h]

/-! ### Bytes -/

@[simp] theorem littleEndian_length {w : Nat} (x : BitVec w) (n : Nat) : (littleEndian x n).length = n := by
  induction n generalizing x with
  | zero => rfl
  | succ n ih => simp [littleEndian, ih]

theorem ofLittleEndian_littleEndian {w : Nat} (x : BitVec w) (n : Nat) :
    ofLittleEndian (littleEndian x n) = x.toNat % 2 ^ (8 * n) := by
  induction n generalizing x with
  | zero => simp [littleEndian, ofLittleEndian, Nat.mod_one]
  | succ n ih =>
    have h : 2 ^ (8 * (n + 1)) = 256 * 2 ^ (8 * n) := by rw [Nat.mul_add, Nat.pow_add]; ring
    rw [littleEndian, ofLittleEndian, ih, h, Nat.mod_mul]
    simp [BitVec.extractLsb'_toNat, Nat.shiftRight_eq_div_pow]

theorem decodeBytes_word (w : Word32) : decodeBytes (littleEndian w 4) = decodeWord w := by
  have h : ofLittleEndian (littleEndian w 4) = w.toNat := by
    rw [ofLittleEndian_littleEndian]; exact Nat.mod_eq_of_lt w.isLt
  simp [decodeBytes, h]

theorem decodeBytes_command (w : Command) : decodeBytes (littleEndian w 32) = decodeCommand w := by
  have h : ofLittleEndian (littleEndian w 32) = w.toNat := by
    rw [ofLittleEndian_littleEndian]; exact Nat.mod_eq_of_lt w.isLt
  simp [decodeBytes, h]

end Sys2Proof
end

