-- ==== Sys2Proof/Laws/PerInstr.lean ====
section
/-! SUPPORT. The round trip of every instruction: what decoding makes of its encoding. -/

namespace Sys2Proof.Laws.RoundTrip

/-- The round trip of one instruction: a well-formed instruction that has an encoding (a scalar
instruction or a tile command) is what its encoded bytes decode to, and a hardware step has none. -/
def Statement (i : Instr) : Prop :=
  i.wellFormed = true →
    if (i.guard?.isSome || i.command?.isSome) = true then decodeBytes (encode i) = .ok i else encode i = []

/-- The round trip of a scalar instruction, from what the decoder makes of its body. -/
theorem scalar {i : Instr} (g : Guard) (m : BitVec 6) (r : BitVec 20) (hw : encodeWord i = some (pack g m r))
    (hg : i.guard? = some g) (hm : m ≠ 0) (hb : i.minorsOk = true → decodeBody (pack g m r) g = some i) : Statement i := by
  intro h
  simp only [Instr.wellFormed, hg, Bool.and_eq_true] at h
  simp only [hg, Option.isSome_some, Bool.true_or, if_true, encode, hw]
  rw [decodeBytes_word]
  exact decodeWord_pack g m r i h.1 hm (hb h.2) h.2

/-- The round trip of a tile command. -/
theorem command {i : Instr} (op : BitVec 8) (f : TileFields) (hw : encodeWord i = none)
    (hc : i.command? = some (op, f)) (h0 : op ≠ 0) (h : commandOf op.toNat f = some i) : Statement i := by
  intro _
  simp only [hc, Option.isSome_some, Bool.or_true, if_true, encode, hw, encodeCommand, Option.map_some]
  rw [decodeBytes_command]
  exact decodeCommand_pack op f i h0 h

/-- A hardware step has no encoding. -/
theorem hardware {i : Instr} (hw : encodeWord i = none) (hg : i.guard? = none) (hc : i.command? = none) : Statement i := by
  intro _
  simp [hg, hc, encode, hw, encodeCommand]

theorem add (g : Guard) (d a b : Field4) : Statement (.add g d a b) := by
  refine scalar _ 0x01 _ rfl rfl (by decide) fun h => ?_
  simp [-BitVec.getLsbD_eq_getElem, -BitVec.reduceAppend, decodeBody, field, pack_major, pack_field, decodeAlu, fmtR_d, fmtR_a, fmtR_b, fmtR_sub]

theorem sub (g : Guard) (d a b : Field4) : Statement (.sub g d a b) := by
  refine scalar _ 0x01 _ rfl rfl (by decide) fun h => ?_
  simp [-BitVec.getLsbD_eq_getElem, -BitVec.reduceAppend, decodeBody, field, pack_major, pack_field, decodeAlu, fmtR_d, fmtR_a, fmtR_b, fmtR_sub]

theorem and (g : Guard) (d a b : Field4) : Statement (.and g d a b) := by
  refine scalar _ 0x01 _ rfl rfl (by decide) fun h => ?_
  simp [-BitVec.getLsbD_eq_getElem, -BitVec.reduceAppend, decodeBody, field, pack_major, pack_field, decodeAlu, fmtR_d, fmtR_a, fmtR_b, fmtR_sub]

theorem or (g : Guard) (d a b : Field4) : Statement (.or g d a b) := by
  refine scalar _ 0x01 _ rfl rfl (by decide) fun h => ?_
  simp [-BitVec.getLsbD_eq_getElem, -BitVec.reduceAppend, decodeBody, field, pack_major, pack_field, decodeAlu, fmtR_d, fmtR_a, fmtR_b, fmtR_sub]

theorem xor (g : Guard) (d a b : Field4) : Statement (.xor g d a b) := by
  refine scalar _ 0x01 _ rfl rfl (by decide) fun h => ?_
  simp [-BitVec.getLsbD_eq_getElem, -BitVec.reduceAppend, decodeBody, field, pack_major, pack_field, decodeAlu, fmtR_d, fmtR_a, fmtR_b, fmtR_sub]

theorem shl (g : Guard) (d a b : Field4) : Statement (.shl g d a b) := by
  refine scalar _ 0x01 _ rfl rfl (by decide) fun h => ?_
  simp [-BitVec.getLsbD_eq_getElem, -BitVec.reduceAppend, decodeBody, field, pack_major, pack_field, decodeAlu, fmtR_d, fmtR_a, fmtR_b, fmtR_sub]

theorem shr (g : Guard) (d a b : Field4) : Statement (.shr g d a b) := by
  refine scalar _ 0x01 _ rfl rfl (by decide) fun h => ?_
  simp [-BitVec.getLsbD_eq_getElem, -BitVec.reduceAppend, decodeBody, field, pack_major, pack_field, decodeAlu, fmtR_d, fmtR_a, fmtR_b, fmtR_sub]

theorem shra (g : Guard) (d a b : Field4) : Statement (.shra g d a b) := by
  refine scalar _ 0x01 _ rfl rfl (by decide) fun h => ?_
  simp [-BitVec.getLsbD_eq_getElem, -BitVec.reduceAppend, decodeBody, field, pack_major, pack_field, decodeAlu, fmtR_d, fmtR_a, fmtR_b, fmtR_sub]

theorem rotr (g : Guard) (d a b : Field4) : Statement (.rotr g d a b) := by
  refine scalar _ 0x01 _ rfl rfl (by decide) fun h => ?_
  simp [-BitVec.getLsbD_eq_getElem, -BitVec.reduceAppend, decodeBody, field, pack_major, pack_field, decodeAlu, fmtR_d, fmtR_a, fmtR_b, fmtR_sub]

theorem min (g : Guard) (d a b : Field4) : Statement (.min g d a b) := by
  refine scalar _ 0x01 _ rfl rfl (by decide) fun h => ?_
  simp [-BitVec.getLsbD_eq_getElem, -BitVec.reduceAppend, decodeBody, field, pack_major, pack_field, decodeAlu, fmtR_d, fmtR_a, fmtR_b, fmtR_sub]

theorem max (g : Guard) (d a b : Field4) : Statement (.max g d a b) := by
  refine scalar _ 0x01 _ rfl rfl (by decide) fun h => ?_
  simp [-BitVec.getLsbD_eq_getElem, -BitVec.reduceAppend, decodeBody, field, pack_major, pack_field, decodeAlu, fmtR_d, fmtR_a, fmtR_b, fmtR_sub]

theorem minu (g : Guard) (d a b : Field4) : Statement (.minu g d a b) := by
  refine scalar _ 0x01 _ rfl rfl (by decide) fun h => ?_
  simp [-BitVec.getLsbD_eq_getElem, -BitVec.reduceAppend, decodeBody, field, pack_major, pack_field, decodeAlu, fmtR_d, fmtR_a, fmtR_b, fmtR_sub]

theorem maxu (g : Guard) (d a b : Field4) : Statement (.maxu g d a b) := by
  refine scalar _ 0x01 _ rfl rfl (by decide) fun h => ?_
  simp [-BitVec.getLsbD_eq_getElem, -BitVec.reduceAppend, decodeBody, field, pack_major, pack_field, decodeAlu, fmtR_d, fmtR_a, fmtR_b, fmtR_sub]

theorem mul (g : Guard) (d a b : Field4) : Statement (.mul g d a b) := by
  refine scalar _ 0x01 _ rfl rfl (by decide) fun h => ?_
  simp [-BitVec.getLsbD_eq_getElem, -BitVec.reduceAppend, decodeBody, field, pack_major, pack_field, decodeAlu, fmtR_d, fmtR_a, fmtR_b, fmtR_sub]

theorem mulh (g : Guard) (d a b : Field4) : Statement (.mulh g d a b) := by
  refine scalar _ 0x01 _ rfl rfl (by decide) fun h => ?_
  simp [-BitVec.getLsbD_eq_getElem, -BitVec.reduceAppend, decodeBody, field, pack_major, pack_field, decodeAlu, fmtR_d, fmtR_a, fmtR_b, fmtR_sub]

theorem mulhu (g : Guard) (d a b : Field4) : Statement (.mulhu g d a b) := by
  refine scalar _ 0x01 _ rfl rfl (by decide) fun h => ?_
  simp [-BitVec.getLsbD_eq_getElem, -BitVec.reduceAppend, decodeBody, field, pack_major, pack_field, decodeAlu, fmtR_d, fmtR_a, fmtR_b, fmtR_sub]

theorem div (g : Guard) (d a b : Field4) : Statement (.div g d a b) := by
  refine scalar _ 0x01 _ rfl rfl (by decide) fun h => ?_
  simp [-BitVec.getLsbD_eq_getElem, -BitVec.reduceAppend, decodeBody, field, pack_major, pack_field, decodeAlu, fmtR_d, fmtR_a, fmtR_b, fmtR_sub]

theorem divu (g : Guard) (d a b : Field4) : Statement (.divu g d a b) := by
  refine scalar _ 0x01 _ rfl rfl (by decide) fun h => ?_
  simp [-BitVec.getLsbD_eq_getElem, -BitVec.reduceAppend, decodeBody, field, pack_major, pack_field, decodeAlu, fmtR_d, fmtR_a, fmtR_b, fmtR_sub]

theorem rem (g : Guard) (d a b : Field4) : Statement (.rem g d a b) := by
  refine scalar _ 0x01 _ rfl rfl (by decide) fun h => ?_
  simp [-BitVec.getLsbD_eq_getElem, -BitVec.reduceAppend, decodeBody, field, pack_major, pack_field, decodeAlu, fmtR_d, fmtR_a, fmtR_b, fmtR_sub]

theorem remu (g : Guard) (d a b : Field4) : Statement (.remu g d a b) := by
  refine scalar _ 0x01 _ rfl rfl (by decide) fun h => ?_
  simp [-BitVec.getLsbD_eq_getElem, -BitVec.reduceAppend, decodeBody, field, pack_major, pack_field, decodeAlu, fmtR_d, fmtR_a, fmtR_b, fmtR_sub]

theorem clz (g : Guard) (d a : Field4) : Statement (.clz g d a) := by
  refine scalar _ 0x01 _ rfl rfl (by decide) fun h => ?_
  simp [-BitVec.getLsbD_eq_getElem, -BitVec.reduceAppend, decodeBody, field, pack_major, pack_field, whenOk, decodeAlu, fmtR_d, fmtR_a, fmtR_b, fmtR_sub]

theorem ctz (g : Guard) (d a : Field4) : Statement (.ctz g d a) := by
  refine scalar _ 0x01 _ rfl rfl (by decide) fun h => ?_
  simp [-BitVec.getLsbD_eq_getElem, -BitVec.reduceAppend, decodeBody, field, pack_major, pack_field, whenOk, decodeAlu, fmtR_d, fmtR_a, fmtR_b, fmtR_sub]

theorem popc (g : Guard) (d a : Field4) : Statement (.popc g d a) := by
  refine scalar _ 0x01 _ rfl rfl (by decide) fun h => ?_
  simp [-BitVec.getLsbD_eq_getElem, -BitVec.reduceAppend, decodeBody, field, pack_major, pack_field, whenOk, decodeAlu, fmtR_d, fmtR_a, fmtR_b, fmtR_sub]

theorem sextB (g : Guard) (d a : Field4) : Statement (.sextB g d a) := by
  refine scalar _ 0x01 _ rfl rfl (by decide) fun h => ?_
  simp [-BitVec.getLsbD_eq_getElem, -BitVec.reduceAppend, decodeBody, field, pack_major, pack_field, whenOk, decodeAlu, fmtR_d, fmtR_a, fmtR_b, fmtR_sub]

theorem sextH (g : Guard) (d a : Field4) : Statement (.sextH g d a) := by
  refine scalar _ 0x01 _ rfl rfl (by decide) fun h => ?_
  simp [-BitVec.getLsbD_eq_getElem, -BitVec.reduceAppend, decodeBody, field, pack_major, pack_field, whenOk, decodeAlu, fmtR_d, fmtR_a, fmtR_b, fmtR_sub]

theorem sextW (g : Guard) (d a : Field4) : Statement (.sextW g d a) := by
  refine scalar _ 0x01 _ rfl rfl (by decide) fun h => ?_
  simp [-BitVec.getLsbD_eq_getElem, -BitVec.reduceAppend, decodeBody, field, pack_major, pack_field, whenOk, decodeAlu, fmtR_d, fmtR_a, fmtR_b, fmtR_sub]

theorem zextB (g : Guard) (d a : Field4) : Statement (.zextB g d a) := by
  refine scalar _ 0x01 _ rfl rfl (by decide) fun h => ?_
  simp [-BitVec.getLsbD_eq_getElem, -BitVec.reduceAppend, decodeBody, field, pack_major, pack_field, whenOk, decodeAlu, fmtR_d, fmtR_a, fmtR_b, fmtR_sub]

theorem zextH (g : Guard) (d a : Field4) : Statement (.zextH g d a) := by
  refine scalar _ 0x01 _ rfl rfl (by decide) fun h => ?_
  simp [-BitVec.getLsbD_eq_getElem, -BitVec.reduceAppend, decodeBody, field, pack_major, pack_field, whenOk, decodeAlu, fmtR_d, fmtR_a, fmtR_b, fmtR_sub]

theorem zextW (g : Guard) (d a : Field4) : Statement (.zextW g d a) := by
  refine scalar _ 0x01 _ rfl rfl (by decide) fun h => ?_
  simp [-BitVec.getLsbD_eq_getElem, -BitVec.reduceAppend, decodeBody, field, pack_major, pack_field, whenOk, decodeAlu, fmtR_d, fmtR_a, fmtR_b, fmtR_sub]

theorem addi (g : Guard) (d a : Field4) (imm : BitVec 12) : Statement (.addi g d a imm) := by
  refine scalar _ 0x02 _ rfl rfl (by decide) fun h => ?_
  simp [-BitVec.getLsbD_eq_getElem, -BitVec.reduceAppend, decodeBody, field, pack_major, pack_field, fmtI_d, fmtI_a, fmtI_sub]

theorem andi (g : Guard) (d a : Field4) (imm : BitVec 12) : Statement (.andi g d a imm) := by
  refine scalar _ 0x03 _ rfl rfl (by decide) fun h => ?_
  simp [-BitVec.getLsbD_eq_getElem, -BitVec.reduceAppend, decodeBody, field, pack_major, pack_field, fmtI_d, fmtI_a, fmtI_sub]

theorem ori (g : Guard) (d a : Field4) (imm : BitVec 12) : Statement (.ori g d a imm) := by
  refine scalar _ 0x04 _ rfl rfl (by decide) fun h => ?_
  simp [-BitVec.getLsbD_eq_getElem, -BitVec.reduceAppend, decodeBody, field, pack_major, pack_field, fmtI_d, fmtI_a, fmtI_sub]

theorem xori (g : Guard) (d a : Field4) (imm : BitVec 12) : Statement (.xori g d a imm) := by
  refine scalar _ 0x05 _ rfl rfl (by decide) fun h => ?_
  simp [-BitVec.getLsbD_eq_getElem, -BitVec.reduceAppend, decodeBody, field, pack_major, pack_field, fmtI_d, fmtI_a, fmtI_sub]

theorem shli (g : Guard) (d a : Field4) (n : BitVec 6) : Statement (.shli g d a n) := by
  refine scalar _ 0x06 _ rfl rfl (by decide) fun h => ?_
  simp [-BitVec.getLsbD_eq_getElem, -BitVec.reduceAppend, decodeBody, field, pack_major, pack_field, decodeShift, fmtI_d, fmtI_a, fmtI_sub, cat_6_6_0, cat_6_6_1]

theorem shri (g : Guard) (d a : Field4) (n : BitVec 6) : Statement (.shri g d a n) := by
  refine scalar _ 0x06 _ rfl rfl (by decide) fun h => ?_
  simp [-BitVec.getLsbD_eq_getElem, -BitVec.reduceAppend, decodeBody, field, pack_major, pack_field, decodeShift, fmtI_d, fmtI_a, fmtI_sub, cat_6_6_0, cat_6_6_1]

theorem shrai (g : Guard) (d a : Field4) (n : BitVec 6) : Statement (.shrai g d a n) := by
  refine scalar _ 0x06 _ rfl rfl (by decide) fun h => ?_
  simp [-BitVec.getLsbD_eq_getElem, -BitVec.reduceAppend, decodeBody, field, pack_major, pack_field, decodeShift, fmtI_d, fmtI_a, fmtI_sub, cat_6_6_0, cat_6_6_1]

theorem rotri (g : Guard) (d a : Field4) (n : BitVec 6) : Statement (.rotri g d a n) := by
  refine scalar _ 0x06 _ rfl rfl (by decide) fun h => ?_
  simp [-BitVec.getLsbD_eq_getElem, -BitVec.reduceAppend, decodeBody, field, pack_major, pack_field, decodeShift, fmtI_d, fmtI_a, fmtI_sub, cat_6_6_0, cat_6_6_1]

theorem movi (g : Guard) (d : Field4) (imm : BitVec 16) : Statement (.movi g d imm) := by
  refine scalar _ 0x07 _ rfl rfl (by decide) fun h => ?_
  simp [-BitVec.getLsbD_eq_getElem, -BitVec.reduceAppend, decodeBody, field, pack_major, pack_field, fmtW_d, fmtW_imm]

theorem movk16 (g : Guard) (d : Field4) (imm : BitVec 16) : Statement (.movk16 g d imm) := by
  refine scalar _ 0x08 _ rfl rfl (by decide) fun h => ?_
  simp [-BitVec.getLsbD_eq_getElem, -BitVec.reduceAppend, decodeBody, field, pack_major, pack_field, fmtW_d, fmtW_imm]

theorem movk32 (g : Guard) (d : Field4) (imm : BitVec 16) : Statement (.movk32 g d imm) := by
  refine scalar _ 0x09 _ rfl rfl (by decide) fun h => ?_
  simp [-BitVec.getLsbD_eq_getElem, -BitVec.reduceAppend, decodeBody, field, pack_major, pack_field, fmtW_d, fmtW_imm]

theorem movk48 (g : Guard) (d : Field4) (imm : BitVec 16) : Statement (.movk48 g d imm) := by
  refine scalar _ 0x0A _ rfl rfl (by decide) fun h => ?_
  simp [-BitVec.getLsbD_eq_getElem, -BitVec.reduceAppend, decodeBody, field, pack_major, pack_field, fmtW_d, fmtW_imm]

theorem cmp (g : Guard) (p a b : Field4) (cc : BitVec 8) : Statement (.cmp g p a b cc) := by
  refine scalar _ 0x0B _ rfl rfl (by decide) fun h => ?_
  simp [-BitVec.getLsbD_eq_getElem, -BitVec.reduceAppend, decodeBody, field, pack_major, pack_field, fmtR_d, fmtR_a, fmtR_b, fmtR_sub]

theorem cmpi (g : Guard) (p a : Field4) (cc : BitVec 3) (imm : BitVec 9) : Statement (.cmpi g p a cc imm) := by
  refine scalar _ 0x0C _ rfl rfl (by decide) fun h => ?_
  simp [-BitVec.getLsbD_eq_getElem, -BitVec.reduceAppend, decodeBody, field, pack_major, pack_field, fmtI_d, fmtI_a, fmtI_sub, cat_3_9_0, cat_3_9_1]

theorem pand (g : Guard) (d a b : Field4) : Statement (.pand g d a b) := by
  refine scalar _ 0x0D _ rfl rfl (by decide) fun h => ?_
  simp [-BitVec.getLsbD_eq_getElem, -BitVec.reduceAppend, decodeBody, field, pack_major, pack_field, decodePred, fmtR_d, fmtR_a, fmtR_b, fmtR_sub]

theorem por (g : Guard) (d a b : Field4) : Statement (.por g d a b) := by
  refine scalar _ 0x0D _ rfl rfl (by decide) fun h => ?_
  simp [-BitVec.getLsbD_eq_getElem, -BitVec.reduceAppend, decodeBody, field, pack_major, pack_field, decodePred, fmtR_d, fmtR_a, fmtR_b, fmtR_sub]

theorem pxor (g : Guard) (d a b : Field4) : Statement (.pxor g d a b) := by
  refine scalar _ 0x0D _ rfl rfl (by decide) fun h => ?_
  simp [-BitVec.getLsbD_eq_getElem, -BitVec.reduceAppend, decodeBody, field, pack_major, pack_field, decodePred, fmtR_d, fmtR_a, fmtR_b, fmtR_sub]

theorem pnot (g : Guard) (d a : Field4) : Statement (.pnot g d a) := by
  refine scalar _ 0x0D _ rfl rfl (by decide) fun h => ?_
  simp [-BitVec.getLsbD_eq_getElem, -BitVec.reduceAppend, decodeBody, field, pack_major, pack_field, whenOk, decodePred, fmtR_d, fmtR_a, fmtR_b, fmtR_sub]

theorem pmov (g : Guard) (d a : Field4) : Statement (.pmov g d a) := by
  refine scalar _ 0x0D _ rfl rfl (by decide) fun h => ?_
  simp [-BitVec.getLsbD_eq_getElem, -BitVec.reduceAppend, decodeBody, field, pack_major, pack_field, whenOk, decodePred, fmtR_d, fmtR_a, fmtR_b, fmtR_sub]

theorem movpFromPw (g : Guard) (d : Field4) : Statement (.movpFromPw g d) := by
  refine scalar _ 0x0D _ rfl rfl (by decide) fun h => ?_
  simp [-BitVec.getLsbD_eq_getElem, -BitVec.reduceAppend, decodeBody, field, pack_major, pack_field, whenOk, decodePred, fmtR_d, fmtR_a, fmtR_b, fmtR_sub]

theorem movpToPw (g : Guard) (a : Field4) : Statement (.movpToPw g a) := by
  refine scalar _ 0x0D _ rfl rfl (by decide) fun h => ?_
  simp [-BitVec.getLsbD_eq_getElem, -BitVec.reduceAppend, decodeBody, field, pack_major, pack_field, whenOk, decodePred, fmtR_d, fmtR_a, fmtR_b, fmtR_sub]

theorem br (g : Guard) (off : BitVec 20) : Statement (.br g off) := by
  refine scalar _ 0x0E _ rfl rfl (by decide) fun h => ?_
  simp [-BitVec.getLsbD_eq_getElem, -BitVec.reduceAppend, decodeBody, field, pack_major, pack_field]

theorem jal (g : Guard) (off : BitVec 20) : Statement (.jal g off) := by
  refine scalar _ 0x0F _ rfl rfl (by decide) fun h => ?_
  simp [-BitVec.getLsbD_eq_getElem, -BitVec.reduceAppend, decodeBody, field, pack_major, pack_field]

theorem jalr (g : Guard) (d a : Field4) (imm : BitVec 12) : Statement (.jalr g d a imm) := by
  refine scalar _ 0x10 _ rfl rfl (by decide) fun h => ?_
  simp [-BitVec.getLsbD_eq_getElem, -BitVec.reduceAppend, decodeBody, field, pack_major, pack_field, fmtI_d, fmtI_a, fmtI_sub]

theorem nop (g : Guard) : Statement (.nop g) := by
  refine scalar _ 0x11 _ rfl rfl (by decide) fun h => ?_
  simp [-BitVec.getLsbD_eq_getElem, -BitVec.reduceAppend, decodeBody, field, pack_major, pack_field, whenOk, decodeSys, fmtI_sub, fmtI_high]

theorem halt (g : Guard) : Statement (.halt g) := by
  refine scalar _ 0x11 _ rfl rfl (by decide) fun h => ?_
  simp [-BitVec.getLsbD_eq_getElem, -BitVec.reduceAppend, decodeBody, field, pack_major, pack_field, whenOk, decodeSys, fmtI_sub, fmtI_high]

theorem yield (g : Guard) : Statement (.yield g) := by
  refine scalar _ 0x11 _ rfl rfl (by decide) fun h => ?_
  simp [-BitVec.getLsbD_eq_getElem, -BitVec.reduceAppend, decodeBody, field, pack_major, pack_field, whenOk, decodeSys, fmtI_sub, fmtI_high]

theorem trap (g : Guard) (code : BitVec 8) : Statement (.trap g code) := by
  refine scalar _ 0x11 _ rfl rfl (by decide) fun h => ?_
  simp [-BitVec.getLsbD_eq_getElem, -BitVec.reduceAppend, decodeBody, field, pack_major, pack_field, decodeSys, fmtI_sub, fmtI_high, cat_4_8_0, cat_4_8_1]

theorem eret (g : Guard) : Statement (.eret g) := by
  refine scalar _ 0x11 _ rfl rfl (by decide) fun h => ?_
  simp [-BitVec.getLsbD_eq_getElem, -BitVec.reduceAppend, decodeBody, field, pack_major, pack_field, whenOk, decodeSys, fmtI_sub, fmtI_high]

theorem brk (g : Guard) (code : BitVec 8) : Statement (.brk g code) := by
  refine scalar _ 0x11 _ rfl rfl (by decide) fun h => ?_
  simp [-BitVec.getLsbD_eq_getElem, -BitVec.reduceAppend, decodeBody, field, pack_major, pack_field, decodeSys, fmtI_sub, fmtI_high, cat_4_8_0, cat_4_8_1]

theorem gets (g : Guard) (d : Field4) (n : BitVec 12) : Statement (.gets g d n) := by
  refine scalar _ 0x12 _ rfl rfl (by decide) fun h => ?_
  simp [-BitVec.getLsbD_eq_getElem, -BitVec.reduceAppend, decodeBody, field, pack_major, pack_field, whenOk, fmtI_d, fmtI_a, fmtI_sub]

theorem sets (g : Guard) (a : Field4) (n : BitVec 12) : Statement (.sets g a n) := by
  refine scalar _ 0x13 _ rfl rfl (by decide) fun h => ?_
  simp [-BitVec.getLsbD_eq_getElem, -BitVec.reduceAppend, decodeBody, field, pack_major, pack_field, whenOk, fmtI_d, fmtI_a, fmtI_sub]

theorem ld (g : Guard) (t base : Field4) (size : BitVec 2) (sx : Bool) (order : BitVec 2) (off : BitVec 7) : Statement (.ld g t base size sx order off) := by
  refine scalar _ 0x14 _ rfl rfl (by decide) fun h => ?_
  simp [-BitVec.getLsbD_eq_getElem, -BitVec.reduceAppend, decodeBody, field, pack_major, pack_field, pack_bit, fmtM_t, fmtM_base, fmtM_size, fmtM_order, fmtM_off, fmtM_sx]

theorem st (g : Guard) (t base : Field4) (size : BitVec 2) (order : BitVec 2) (off : BitVec 7) : Statement (.st g t base size order off) := by
  refine scalar _ 0x15 _ rfl rfl (by decide) fun h => ?_
  simp [-BitVec.getLsbD_eq_getElem, -BitVec.reduceAppend, decodeBody, field, pack_major, pack_field, pack_bit, whenOk, fmtM_t, fmtM_base, fmtM_size, fmtM_order, fmtM_off, fmtM_sx]

theorem ldl (g : Guard) (t base : Field4) (size : BitVec 2) (sx : Bool) (off : BitVec 7) : Statement (.ldl g t base size sx off) := by
  refine scalar _ 0x16 _ rfl rfl (by decide) fun h => ?_
  simp [-BitVec.getLsbD_eq_getElem, -BitVec.reduceAppend, decodeBody, field, pack_major, pack_field, pack_bit, whenOk, fmtM_t, fmtM_base, fmtM_size, fmtM_order, fmtM_off, fmtM_sx]

theorem stl (g : Guard) (t base : Field4) (size : BitVec 2) (off : BitVec 7) : Statement (.stl g t base size off) := by
  refine scalar _ 0x17 _ rfl rfl (by decide) fun h => ?_
  simp [-BitVec.getLsbD_eq_getElem, -BitVec.reduceAppend, decodeBody, field, pack_major, pack_field, pack_bit, whenOk, fmtM_t, fmtM_base, fmtM_size, fmtM_order, fmtM_off, fmtM_sx]

theorem ldh (g : Guard) (t base : Field4) (off : BitVec 7) : Statement (.ldh g t base off) := by
  refine scalar _ 0x18 _ rfl rfl (by decide) fun h => ?_
  simp [-BitVec.getLsbD_eq_getElem, -BitVec.reduceAppend, decodeBody, field, pack_major, pack_field, pack_bit, whenOk, fmtM_t, fmtM_base, fmtM_size, fmtM_order, fmtM_off, fmtM_sx]

theorem sth (g : Guard) (t base : Field4) (off : BitVec 7) : Statement (.sth g t base off) := by
  refine scalar _ 0x19 _ rfl rfl (by decide) fun h => ?_
  simp [-BitVec.getLsbD_eq_getElem, -BitVec.reduceAppend, decodeBody, field, pack_major, pack_field, pack_bit, whenOk, fmtM_t, fmtM_base, fmtM_size, fmtM_order, fmtM_off, fmtM_sx]

theorem amoAdd (g : Guard) (d a b : Field4) (ty : BitVec 2) (scope : BitVec 3) : Statement (.amoAdd g d a b ty scope) := by
  refine scalar _ 0x1A _ rfl rfl (by decide) fun h => ?_
  simp [-BitVec.getLsbD_eq_getElem, -BitVec.reduceAppend, decodeBody, field, pack_major, pack_field, decodeAmo, fmtR_d, fmtR_a, fmtR_b, fmtR_sub, cat_3_2_3_0, cat_3_2_3_1, cat_3_2_3_2]

theorem amoMin (g : Guard) (d a b : Field4) (ty : BitVec 2) (scope : BitVec 3) : Statement (.amoMin g d a b ty scope) := by
  refine scalar _ 0x1A _ rfl rfl (by decide) fun h => ?_
  simp [-BitVec.getLsbD_eq_getElem, -BitVec.reduceAppend, decodeBody, field, pack_major, pack_field, decodeAmo, fmtR_d, fmtR_a, fmtR_b, fmtR_sub, cat_3_2_3_0, cat_3_2_3_1, cat_3_2_3_2]

theorem amoMax (g : Guard) (d a b : Field4) (ty : BitVec 2) (scope : BitVec 3) : Statement (.amoMax g d a b ty scope) := by
  refine scalar _ 0x1A _ rfl rfl (by decide) fun h => ?_
  simp [-BitVec.getLsbD_eq_getElem, -BitVec.reduceAppend, decodeBody, field, pack_major, pack_field, decodeAmo, fmtR_d, fmtR_a, fmtR_b, fmtR_sub, cat_3_2_3_0, cat_3_2_3_1, cat_3_2_3_2]

theorem amoAnd (g : Guard) (d a b : Field4) (ty : BitVec 2) (scope : BitVec 3) : Statement (.amoAnd g d a b ty scope) := by
  refine scalar _ 0x1A _ rfl rfl (by decide) fun h => ?_
  simp [-BitVec.getLsbD_eq_getElem, -BitVec.reduceAppend, decodeBody, field, pack_major, pack_field, decodeAmo, fmtR_d, fmtR_a, fmtR_b, fmtR_sub, cat_3_2_3_0, cat_3_2_3_1, cat_3_2_3_2]

theorem amoOr (g : Guard) (d a b : Field4) (ty : BitVec 2) (scope : BitVec 3) : Statement (.amoOr g d a b ty scope) := by
  refine scalar _ 0x1A _ rfl rfl (by decide) fun h => ?_
  simp [-BitVec.getLsbD_eq_getElem, -BitVec.reduceAppend, decodeBody, field, pack_major, pack_field, decodeAmo, fmtR_d, fmtR_a, fmtR_b, fmtR_sub, cat_3_2_3_0, cat_3_2_3_1, cat_3_2_3_2]

theorem amoXor (g : Guard) (d a b : Field4) (ty : BitVec 2) (scope : BitVec 3) : Statement (.amoXor g d a b ty scope) := by
  refine scalar _ 0x1A _ rfl rfl (by decide) fun h => ?_
  simp [-BitVec.getLsbD_eq_getElem, -BitVec.reduceAppend, decodeBody, field, pack_major, pack_field, decodeAmo, fmtR_d, fmtR_a, fmtR_b, fmtR_sub, cat_3_2_3_0, cat_3_2_3_1, cat_3_2_3_2]

theorem amoXchg (g : Guard) (d a b : Field4) (ty : BitVec 2) (scope : BitVec 3) : Statement (.amoXchg g d a b ty scope) := by
  refine scalar _ 0x1A _ rfl rfl (by decide) fun h => ?_
  simp [-BitVec.getLsbD_eq_getElem, -BitVec.reduceAppend, decodeBody, field, pack_major, pack_field, decodeAmo, fmtR_d, fmtR_a, fmtR_b, fmtR_sub, cat_3_2_3_0, cat_3_2_3_1, cat_3_2_3_2]

theorem cas (g : Guard) (d a b c : Field4) (double : Bool) (scope : BitVec 3) : Statement (.cas g d a b c double scope) := by
  refine scalar _ 0x1B _ rfl rfl (by decide) fun h => ?_
  simp [-BitVec.getLsbD_eq_getElem, -BitVec.reduceAppend, decodeBody, field, pack_major, pack_field, pack_bit, fmtF_d, fmtF_a, fmtF_b, fmtF_c, fmtF_sub, fmtF_bit, cat_1_3_1, catbit_1_3]

theorem cas2 (g : Guard) (d a b : Field4) : Statement (.cas2 g d a b) := by
  refine scalar _ 0x1C _ rfl rfl (by decide) fun h => ?_
  simp [-BitVec.getLsbD_eq_getElem, -BitVec.reduceAppend, decodeBody, field, pack_major, pack_field, whenOk, decodeReeve, fmtF_d, fmtF_a, fmtF_b, fmtF_c, fmtF_sub]

theorem cas4 (g : Guard) (d a b : Field4) : Statement (.cas4 g d a b) := by
  refine scalar _ 0x1C _ rfl rfl (by decide) fun h => ?_
  simp [-BitVec.getLsbD_eq_getElem, -BitVec.reduceAppend, decodeBody, field, pack_major, pack_field, whenOk, decodeReeve, fmtF_d, fmtF_a, fmtF_b, fmtF_c, fmtF_sub]

theorem enq (g : Guard) (d a b : Field4) : Statement (.enq g d a b) := by
  refine scalar _ 0x1C _ rfl rfl (by decide) fun h => ?_
  simp [-BitVec.getLsbD_eq_getElem, -BitVec.reduceAppend, decodeBody, field, pack_major, pack_field, whenOk, decodeReeve, fmtF_d, fmtF_a, fmtF_b, fmtF_c, fmtF_sub]

theorem deq (g : Guard) (d a b : Field4) : Statement (.deq g d a b) := by
  refine scalar _ 0x1C _ rfl rfl (by decide) fun h => ?_
  simp [-BitVec.getLsbD_eq_getElem, -BitVec.reduceAppend, decodeBody, field, pack_major, pack_field, whenOk, decodeReeve, fmtF_d, fmtF_a, fmtF_b, fmtF_c, fmtF_sub]

theorem chase (g : Guard) (d a b c : Field4) : Statement (.chase g d a b c) := by
  refine scalar _ 0x1C _ rfl rfl (by decide) fun h => ?_
  simp [-BitVec.getLsbD_eq_getElem, -BitVec.reduceAppend, decodeBody, field, pack_major, pack_field, decodeReeve, fmtF_d, fmtF_a, fmtF_b, fmtF_c, fmtF_sub]

theorem cwait (g : Guard) (d a : Field4) (imm : BitVec 9) : Statement (.cwait g d a imm) := by
  refine scalar _ 0x1D _ rfl rfl (by decide) fun h => ?_
  simp [-BitVec.getLsbD_eq_getElem, -BitVec.reduceAppend, decodeBody, field, pack_major, pack_field, decodeFlag, fmtI_d, fmtI_a, fmtI_sub, cat_3_9_0, cat_3_9_1]

theorem cwaitr (g : Guard) (d a : Field4) (imm : BitVec 9) : Statement (.cwaitr g d a imm) := by
  refine scalar _ 0x1D _ rfl rfl (by decide) fun h => ?_
  simp [-BitVec.getLsbD_eq_getElem, -BitVec.reduceAppend, decodeBody, field, pack_major, pack_field, decodeFlag, fmtI_d, fmtI_a, fmtI_sub, cat_3_9_0, cat_3_9_1]

theorem cadd (g : Guard) (d a : Field4) (imm : BitVec 9) : Statement (.cadd g d a imm) := by
  refine scalar _ 0x1D _ rfl rfl (by decide) fun h => ?_
  simp [-BitVec.getLsbD_eq_getElem, -BitVec.reduceAppend, decodeBody, field, pack_major, pack_field, decodeFlag, fmtI_d, fmtI_a, fmtI_sub, cat_3_9_0, cat_3_9_1]

theorem caddRel (g : Guard) (d a : Field4) (imm : BitVec 9) : Statement (.caddRel g d a imm) := by
  refine scalar _ 0x1D _ rfl rfl (by decide) fun h => ?_
  simp [-BitVec.getLsbD_eq_getElem, -BitVec.reduceAppend, decodeBody, field, pack_major, pack_field, decodeFlag, fmtI_d, fmtI_a, fmtI_sub, cat_3_9_0, cat_3_9_1]

theorem cpeek (g : Guard) (d a : Field4) (imm : BitVec 9) : Statement (.cpeek g d a imm) := by
  refine scalar _ 0x1D _ rfl rfl (by decide) fun h => ?_
  simp [-BitVec.getLsbD_eq_getElem, -BitVec.reduceAppend, decodeBody, field, pack_major, pack_field, decodeFlag, fmtI_d, fmtI_a, fmtI_sub, cat_3_9_0, cat_3_9_1]

theorem lempty (g : Guard) (a : Field4) (n : BitVec 4) : Statement (.lempty g a n) := by
  refine scalar _ 0x1E _ rfl rfl (by decide) fun h => ?_
  simp [-BitVec.getLsbD_eq_getElem, -BitVec.reduceAppend, decodeBody, field, pack_major, pack_field, whenOk, decodeLine, fmtI_d, fmtI_a, fmtI_sub, cat_2_4_6_0, cat_2_4_6_1, cat_2_4_6_2]

theorem lfill (g : Guard) (a : Field4) (n : BitVec 4) : Statement (.lfill g a n) := by
  refine scalar _ 0x1E _ rfl rfl (by decide) fun h => ?_
  simp [-BitVec.getLsbD_eq_getElem, -BitVec.reduceAppend, decodeBody, field, pack_major, pack_field, whenOk, decodeLine, fmtI_d, fmtI_a, fmtI_sub, cat_2_4_6_0, cat_2_4_6_1, cat_2_4_6_2]

theorem lstate (g : Guard) (d a : Field4) : Statement (.lstate g d a) := by
  refine scalar _ 0x1E _ rfl rfl (by decide) fun h => ?_
  simp [-BitVec.getLsbD_eq_getElem, -BitVec.reduceAppend, decodeBody, field, pack_major, pack_field, whenOk, decodeLine, fmtI_d, fmtI_a, fmtI_sub]

theorem wander (g : Guard) (a : Field4) : Statement (.wander g a) := by
  refine scalar _ 0x1F _ rfl rfl (by decide) fun h => ?_
  simp [-BitVec.getLsbD_eq_getElem, -BitVec.reduceAppend, decodeBody, field, pack_major, pack_field, whenOk, fmtI_d, fmtI_a, fmtI_sub]

theorem home (g : Guard) : Statement (.home g) := by
  refine scalar _ 0x1F _ rfl rfl (by decide) fun h => ?_
  simp [-BitVec.getLsbD_eq_getElem, -BitVec.reduceAppend, decodeBody, field, pack_major, pack_field, whenOk, fmtI_d, fmtI_a, fmtI_sub]

theorem tx (g : Guard) (a : Field4) (imm : BitVec 12) : Statement (.tx g a imm) := by
  refine scalar _ 0x20 _ rfl rfl (by decide) fun h => ?_
  simp [-BitVec.getLsbD_eq_getElem, -BitVec.reduceAppend, decodeBody, field, pack_major, pack_field, whenOk, fmtI_d, fmtI_a, fmtI_sub]

theorem tq (g : Guard) (a : Field4) (imm : BitVec 12) : Statement (.tq g a imm) := by
  refine scalar _ 0x21 _ rfl rfl (by decide) fun h => ?_
  simp [-BitVec.getLsbD_eq_getElem, -BitVec.reduceAppend, decodeBody, field, pack_major, pack_field, whenOk, fmtI_d, fmtI_a, fmtI_sub]

theorem fork (g : Guard) (n a : Field4) (imm : BitVec 12) : Statement (.fork g n a imm) := by
  refine scalar _ 0x22 _ rfl rfl (by decide) fun h => ?_
  simp [-BitVec.getLsbD_eq_getElem, -BitVec.reduceAppend, decodeBody, field, pack_major, pack_field, fmtI_d, fmtI_a, fmtI_sub]

theorem rdv (g : Guard) (a : Field4) (imm : BitVec 12) : Statement (.rdv g a imm) := by
  refine scalar _ 0x23 _ rfl rfl (by decide) fun h => ?_
  simp [-BitVec.getLsbD_eq_getElem, -BitVec.reduceAppend, decodeBody, field, pack_major, pack_field, whenOk, fmtI_d, fmtI_a, fmtI_sub]

theorem tshape (g : Guard) (t : Field4) (elem : BitVec 5) (rows : BitVec 4) (cols : BitVec 6) : Statement (.tshape g t elem rows cols) := by
  refine scalar _ 0x24 _ rfl rfl (by decide) fun h => ?_
  simp [-BitVec.getLsbD_eq_getElem, -BitVec.reduceAppend, decodeBody, field, pack_major, pack_field, pack_bit, cat_4_5_4_6_1_0, cat_4_5_4_6_1_1, cat_4_5_4_6_1_2, cat_4_5_4_6_1_3, catbit_shape]

theorem tshapeReg (g : Guard) (t a : Field4) : Statement (.tshapeReg g t a) := by
  refine scalar _ 0x24 _ rfl rfl (by decide) fun h => ?_
  simp [-BitVec.getLsbD_eq_getElem, -BitVec.reduceAppend, decodeBody, field, pack_major, pack_field, pack_bit, whenOk, fmtI_d, fmtI_a, fmtI_sub, fmtI_bit]

theorem tget (g : Guard) (d t b : Field4) : Statement (.tget g d t b) := by
  refine scalar _ 0x25 _ rfl rfl (by decide) fun h => ?_
  simp [-BitVec.getLsbD_eq_getElem, -BitVec.reduceAppend, decodeBody, field, pack_major, pack_field, fmtR_d, fmtR_a, fmtR_b, fmtR_sub]

theorem tset (g : Guard) (d t b : Field4) : Statement (.tset g d t b) := by
  refine scalar _ 0x25 _ rfl rfl (by decide) fun h => ?_
  simp [-BitVec.getLsbD_eq_getElem, -BitVec.reduceAppend, decodeBody, field, pack_major, pack_field, fmtR_d, fmtR_a, fmtR_b, fmtR_sub]

theorem park (g : Guard) (a t c : Field4) : Statement (.park g a t c) := by
  refine scalar _ 0x26 _ rfl rfl (by decide) fun h => ?_
  simp [-BitVec.getLsbD_eq_getElem, -BitVec.reduceAppend, decodeBody, field, pack_major, pack_field, whenOk, decodeSpill, fmtF_d, fmtF_a, fmtF_b, fmtF_c, fmtF_sub]

theorem unpark (g : Guard) (d t c : Field4) : Statement (.unpark g d t c) := by
  refine scalar _ 0x26 _ rfl rfl (by decide) fun h => ?_
  simp [-BitVec.getLsbD_eq_getElem, -BitVec.reduceAppend, decodeBody, field, pack_major, pack_field, whenOk, decodeSpill, fmtF_d, fmtF_a, fmtF_b, fmtF_c, fmtF_sub]

theorem borrow (g : Guard) : Statement (.borrow g) := by
  refine scalar _ 0x26 _ rfl rfl (by decide) fun h => ?_
  simp [-BitVec.getLsbD_eq_getElem, -BitVec.reduceAppend, decodeBody, field, pack_major, pack_field, whenOk, decodeSpill, fmtF_d, fmtF_a, fmtF_b, fmtF_c, fmtF_sub]

theorem returnLent (g : Guard) : Statement (.returnLent g) := by
  refine scalar _ 0x26 _ rfl rfl (by decide) fun h => ?_
  simp [-BitVec.getLsbD_eq_getElem, -BitVec.reduceAppend, decodeBody, field, pack_major, pack_field, whenOk, decodeSpill, fmtF_d, fmtF_a, fmtF_b, fmtF_c, fmtF_sub]

theorem xget (g : Guard) (d n : Field4) : Statement (.xget g d n) := by
  refine scalar _ 0x26 _ rfl rfl (by decide) fun h => ?_
  simp [-BitVec.getLsbD_eq_getElem, -BitVec.reduceAppend, decodeBody, field, pack_major, pack_field, whenOk, decodeSpill, fmtF_d, fmtF_a, fmtF_b, fmtF_c, fmtF_sub]

theorem xput (g : Guard) (n b : Field4) : Statement (.xput g n b) := by
  refine scalar _ 0x26 _ rfl rfl (by decide) fun h => ?_
  simp [-BitVec.getLsbD_eq_getElem, -BitVec.reduceAppend, decodeBody, field, pack_major, pack_field, whenOk, decodeSpill, fmtF_d, fmtF_a, fmtF_b, fmtF_c, fmtF_sub]

theorem launch (g : Guard) (d a b : Field4) : Statement (.launch g d a b) := by
  refine scalar _ 0x27 _ rfl rfl (by decide) fun h => ?_
  simp [-BitVec.getLsbD_eq_getElem, -BitVec.reduceAppend, decodeBody, field, pack_major, pack_field, fmtR_d, fmtR_a, fmtR_b, fmtR_sub]

theorem trigger (g : Guard) : Statement (.trigger g) := by
  refine scalar _ 0x27 _ rfl rfl (by decide) fun h => ?_
  simp [-BitVec.getLsbD_eq_getElem, -BitVec.reduceAppend, decodeBody, field, pack_major, pack_field, whenOk, fmtR_d, fmtR_a, fmtR_b, fmtR_sub]

theorem kvsub (g : Guard) (d a b t : Field4) : Statement (.kvsub g d a b t) := by
  refine scalar _ 0x28 _ rfl rfl (by decide) fun h => ?_
  simp [-BitVec.getLsbD_eq_getElem, -BitVec.reduceAppend, decodeBody, field, pack_major, pack_field, fmtF_d, fmtF_a, fmtF_b, fmtF_c, fmtF_sub]

theorem kvunsub (g : Guard) (a : Field4) : Statement (.kvunsub g a) := by
  refine scalar _ 0x28 _ rfl rfl (by decide) fun h => ?_
  simp [-BitVec.getLsbD_eq_getElem, -BitVec.reduceAppend, decodeBody, field, pack_major, pack_field, whenOk, fmtR_d, fmtR_a, fmtR_b, fmtR_sub]

theorem pass (g : Guard) (a : Field4) : Statement (.pass g a) := by
  refine scalar _ 0x28 _ rfl rfl (by decide) fun h => ?_
  simp [-BitVec.getLsbD_eq_getElem, -BitVec.reduceAppend, decodeBody, field, pack_major, pack_field, whenOk, fmtR_d, fmtR_a, fmtR_b, fmtR_sub]

theorem post (g : Guard) (a b : Field4) : Statement (.post g a b) := by
  refine scalar _ 0x29 _ rfl rfl (by decide) fun h => ?_
  simp [-BitVec.getLsbD_eq_getElem, -BitVec.reduceAppend, decodeBody, field, pack_major, pack_field, whenOk, fmtR_d, fmtR_a, fmtR_b, fmtR_sub]

theorem fadd (g : Guard) (d a b : Field4) (dbl : Bool) (rm : BitVec 3) : Statement (.fadd g d a b dbl rm) := by
  refine scalar _ 0x2A _ rfl rfl (by decide) fun h => ?_
  simp [-BitVec.getLsbD_eq_getElem, -BitVec.reduceAppend, decodeBody, field, pack_major, pack_field, pack_bit, decodeFp, fmtR_d, fmtR_a, fmtR_b, fmtR_sub, fmtR_bit, cat_4_1_3_0, cat_4_1_3_2, catbit_4_1_3]

theorem fsub (g : Guard) (d a b : Field4) (dbl : Bool) (rm : BitVec 3) : Statement (.fsub g d a b dbl rm) := by
  refine scalar _ 0x2A _ rfl rfl (by decide) fun h => ?_
  simp [-BitVec.getLsbD_eq_getElem, -BitVec.reduceAppend, decodeBody, field, pack_major, pack_field, pack_bit, decodeFp, fmtR_d, fmtR_a, fmtR_b, fmtR_sub, fmtR_bit, cat_4_1_3_0, cat_4_1_3_2, catbit_4_1_3]

theorem fmul (g : Guard) (d a b : Field4) (dbl : Bool) (rm : BitVec 3) : Statement (.fmul g d a b dbl rm) := by
  refine scalar _ 0x2A _ rfl rfl (by decide) fun h => ?_
  simp [-BitVec.getLsbD_eq_getElem, -BitVec.reduceAppend, decodeBody, field, pack_major, pack_field, pack_bit, decodeFp, fmtR_d, fmtR_a, fmtR_b, fmtR_sub, fmtR_bit, cat_4_1_3_0, cat_4_1_3_2, catbit_4_1_3]

theorem fdiv (g : Guard) (d a b : Field4) (dbl : Bool) (rm : BitVec 3) : Statement (.fdiv g d a b dbl rm) := by
  refine scalar _ 0x2A _ rfl rfl (by decide) fun h => ?_
  simp [-BitVec.getLsbD_eq_getElem, -BitVec.reduceAppend, decodeBody, field, pack_major, pack_field, pack_bit, decodeFp, fmtR_d, fmtR_a, fmtR_b, fmtR_sub, fmtR_bit, cat_4_1_3_0, cat_4_1_3_2, catbit_4_1_3]

theorem fsqrt (g : Guard) (d a : Field4) (dbl : Bool) (rm : BitVec 3) : Statement (.fsqrt g d a dbl rm) := by
  refine scalar _ 0x2A _ rfl rfl (by decide) fun h => ?_
  simp [-BitVec.getLsbD_eq_getElem, -BitVec.reduceAppend, decodeBody, field, pack_major, pack_field, pack_bit, whenOk, decodeFp, fmtR_d, fmtR_a, fmtR_b, fmtR_sub, fmtR_bit, cat_4_1_3_0, cat_4_1_3_2, catbit_4_1_3]

theorem fmin (g : Guard) (d a b : Field4) (dbl : Bool) : Statement (.fmin g d a b dbl) := by
  refine scalar _ 0x2A _ rfl rfl (by decide) fun h => ?_
  simp [-BitVec.getLsbD_eq_getElem, -BitVec.reduceAppend, decodeBody, field, pack_major, pack_field, pack_bit, whenOk, decodeFp, fmtR_d, fmtR_a, fmtR_b, fmtR_sub, fmtR_bit, cat_4_1_3_0, cat_4_1_3_2, catbit_4_1_3]

theorem fmax (g : Guard) (d a b : Field4) (dbl : Bool) : Statement (.fmax g d a b dbl) := by
  refine scalar _ 0x2A _ rfl rfl (by decide) fun h => ?_
  simp [-BitVec.getLsbD_eq_getElem, -BitVec.reduceAppend, decodeBody, field, pack_major, pack_field, pack_bit, whenOk, decodeFp, fmtR_d, fmtR_a, fmtR_b, fmtR_sub, fmtR_bit, cat_4_1_3_0, cat_4_1_3_2, catbit_4_1_3]

theorem fneg (g : Guard) (d a : Field4) (dbl : Bool) : Statement (.fneg g d a dbl) := by
  refine scalar _ 0x2A _ rfl rfl (by decide) fun h => ?_
  simp [-BitVec.getLsbD_eq_getElem, -BitVec.reduceAppend, decodeBody, field, pack_major, pack_field, pack_bit, whenOk, decodeFp, fmtR_d, fmtR_a, fmtR_b, fmtR_sub, fmtR_bit, cat_4_1_3_0, cat_4_1_3_2, catbit_4_1_3]

theorem fabs (g : Guard) (d a : Field4) (dbl : Bool) : Statement (.fabs g d a dbl) := by
  refine scalar _ 0x2A _ rfl rfl (by decide) fun h => ?_
  simp [-BitVec.getLsbD_eq_getElem, -BitVec.reduceAppend, decodeBody, field, pack_major, pack_field, pack_bit, whenOk, decodeFp, fmtR_d, fmtR_a, fmtR_b, fmtR_sub, fmtR_bit, cat_4_1_3_0, cat_4_1_3_2, catbit_4_1_3]

theorem fcvt (g : Guard) (d a : Field4) (conv : BitVec 4) (rm : BitVec 3) : Statement (.fcvt g d a conv rm) := by
  refine scalar _ 0x2A _ rfl rfl (by decide) fun h => ?_
  simp [-BitVec.getLsbD_eq_getElem, -BitVec.reduceAppend, decodeBody, field, pack_major, pack_field, pack_bit, whenOk, decodeFp, fmtR_d, fmtR_a, fmtR_b, fmtR_sub, fmtR_bit, cat_4_1_3_0, cat_4_1_3_2, catbit_4_1_3_zero]

theorem fma (g : Guard) (d a b c : Field4) (dbl : Bool) : Statement (.fma g d a b c dbl) := by
  refine scalar _ 0x2B _ rfl rfl (by decide) fun h => ?_
  simp [-BitVec.getLsbD_eq_getElem, -BitVec.reduceAppend, decodeBody, field, pack_major, pack_field, pack_bit, decodeFma, fmtF_d, fmtF_a, fmtF_b, fmtF_c, fmtF_sub, fmtF_bit, cat_2_1_1_0, catbit_2_1_1, catbit_2_1_1_lo]

theorem fms (g : Guard) (d a b c : Field4) (dbl : Bool) : Statement (.fms g d a b c dbl) := by
  refine scalar _ 0x2B _ rfl rfl (by decide) fun h => ?_
  simp [-BitVec.getLsbD_eq_getElem, -BitVec.reduceAppend, decodeBody, field, pack_major, pack_field, pack_bit, decodeFma, fmtF_d, fmtF_a, fmtF_b, fmtF_c, fmtF_sub, fmtF_bit, cat_2_1_1_0, catbit_2_1_1, catbit_2_1_1_lo]

theorem fnma (g : Guard) (d a b c : Field4) (dbl : Bool) : Statement (.fnma g d a b c dbl) := by
  refine scalar _ 0x2B _ rfl rfl (by decide) fun h => ?_
  simp [-BitVec.getLsbD_eq_getElem, -BitVec.reduceAppend, decodeBody, field, pack_major, pack_field, pack_bit, decodeFma, fmtF_d, fmtF_a, fmtF_b, fmtF_c, fmtF_sub, fmtF_bit, cat_2_1_1_0, catbit_2_1_1, catbit_2_1_1_lo]

theorem fnms (g : Guard) (d a b c : Field4) (dbl : Bool) : Statement (.fnms g d a b c dbl) := by
  refine scalar _ 0x2B _ rfl rfl (by decide) fun h => ?_
  simp [-BitVec.getLsbD_eq_getElem, -BitVec.reduceAppend, decodeBody, field, pack_major, pack_field, pack_bit, decodeFma, fmtF_d, fmtF_a, fmtF_b, fmtF_c, fmtF_sub, fmtF_bit, cat_2_1_1_0, catbit_2_1_1, catbit_2_1_1_lo]

theorem fcmp (g : Guard) (p a b : Field4) (dbl : Bool) (cc : BitVec 3) : Statement (.fcmp g p a b dbl cc) := by
  refine scalar _ 0x2C _ rfl rfl (by decide) fun h => ?_
  simp [-BitVec.getLsbD_eq_getElem, -BitVec.reduceAppend, decodeBody, field, pack_major, pack_field, pack_bit, whenOk, fmtR_d, fmtR_a, fmtR_b, fmtR_sub, fmtR_bit, cat_1_4_3_1, cat_1_4_3_2, catbit_1_4_3]

theorem plc (g : Guard) (d a b : Field4) : Statement (.plc g d a b) := by
  refine scalar _ 0x2D _ rfl rfl (by decide) fun h => ?_
  simp [-BitVec.getLsbD_eq_getElem, -BitVec.reduceAppend, decodeBody, field, pack_major, pack_field, fmtR_d, fmtR_a, fmtR_b, fmtR_sub]

theorem ploc (g : Guard) (d a : Field4) : Statement (.ploc g d a) := by
  refine scalar _ 0x2D _ rfl rfl (by decide) fun h => ?_
  simp [-BitVec.getLsbD_eq_getElem, -BitVec.reduceAppend, decodeBody, field, pack_major, pack_field, whenOk, fmtR_d, fmtR_a, fmtR_b, fmtR_sub]

theorem roll (g : Guard) (d a : Field4) : Statement (.roll g d a) := by
  refine scalar _ 0x2E _ rfl rfl (by decide) fun h => ?_
  simp [-BitVec.getLsbD_eq_getElem, -BitVec.reduceAppend, decodeBody, field, pack_major, pack_field, whenOk, fmtR_d, fmtR_a, fmtR_b, fmtR_sub]

theorem rollF (g : Guard) (d a : Field4) : Statement (.rollF g d a) := by
  refine scalar _ 0x2E _ rfl rfl (by decide) fun h => ?_
  simp [-BitVec.getLsbD_eq_getElem, -BitVec.reduceAppend, decodeBody, field, pack_major, pack_field, whenOk, fmtR_d, fmtR_a, fmtR_b, fmtR_sub]

theorem stc (g : Guard) (a b c : Field4) (size : BitVec 2) : Statement (.stc g a b c size) := by
  refine scalar _ 0x2F _ rfl rfl (by decide) fun h => ?_
  simp [-BitVec.getLsbD_eq_getElem, -BitVec.reduceAppend, decodeBody, field, pack_major, pack_field, whenOk, fmtF_d, fmtF_a, fmtF_b, fmtF_c, fmtF_sub, cat_2_2_0, cat_2_2_1]

theorem tmma (f : TileFields) : Statement (.tmma f) := command _ f rfl rfl (by decide) rfl

theorem tmms (f : TileFields) : Statement (.tmms f) := command _ f rfl rfl (by decide) rfl

theorem tmmb (f : TileFields) : Statement (.tmmb f) := command _ f rfl rfl (by decide) rfl

theorem tmmd (f : TileFields) : Statement (.tmmd f) := command _ f rfl rfl (by decide) rfl

theorem radd (f : TileFields) : Statement (.radd f) := command _ f rfl rfl (by decide) rfl

theorem rsub (f : TileFields) : Statement (.rsub f) := command _ f rfl rfl (by decide) rfl

theorem rmul (f : TileFields) : Statement (.rmul f) := command _ f rfl rfl (by decide) rfl

theorem rfma (f : TileFields) : Statement (.rfma f) := command _ f rfl rfl (by decide) rfl

theorem rmin (f : TileFields) : Statement (.rmin f) := command _ f rfl rfl (by decide) rfl

theorem rmax (f : TileFields) : Statement (.rmax f) := command _ f rfl rfl (by decide) rfl

theorem rabs (f : TileFields) : Statement (.rabs f) := command _ f rfl rfl (by decide) rfl

theorem rneg (f : TileFields) : Statement (.rneg f) := command _ f rfl rfl (by decide) rfl

theorem rrcp (f : TileFields) : Statement (.rrcp f) := command _ f rfl rfl (by decide) rfl

theorem rrsq (f : TileFields) : Statement (.rrsq f) := command _ f rfl rfl (by decide) rfl

theorem rexp2 (f : TileFields) : Statement (.rexp2 f) := command _ f rfl rfl (by decide) rfl

theorem rlog2 (f : TileFields) : Statement (.rlog2 f) := command _ f rfl rfl (by decide) rfl

theorem rcvt (f : TileFields) : Statement (.rcvt f) := command _ f rfl rfl (by decide) rfl

theorem rand (f : TileFields) : Statement (.rand f) := command _ f rfl rfl (by decide) rfl

theorem ror (f : TileFields) : Statement (.ror f) := command _ f rfl rfl (by decide) rfl

theorem rxor (f : TileFields) : Statement (.rxor f) := command _ f rfl rfl (by decide) rfl

theorem rshl (f : TileFields) : Statement (.rshl f) := command _ f rfl rfl (by decide) rfl

theorem rshr (f : TileFields) : Statement (.rshr f) := command _ f rfl rfl (by decide) rfl

theorem rcmp (f : TileFields) : Statement (.rcmp f) := command _ f rfl rfl (by decide) rfl

theorem rsel (f : TileFields) : Statement (.rsel f) := command _ f rfl rfl (by decide) rfl

theorem rbcast (f : TileFields) : Statement (.rbcast f) := command _ f rfl rfl (by decide) rfl

theorem rsumr (f : TileFields) : Statement (.rsumr f) := command _ f rfl rfl (by decide) rfl

theorem rmaxr (f : TileFields) : Statement (.rmaxr f) := command _ f rfl rfl (by decide) rfl

theorem rscan (f : TileFields) : Statement (.rscan f) := command _ f rfl rfl (by decide) rfl

theorem rsort (f : TileFields) : Statement (.rsort f) := command _ f rfl rfl (by decide) rfl

theorem ridx (f : TileFields) : Statement (.ridx f) := command _ f rfl rfl (by decide) rfl

theorem rperm (f : TileFields) : Statement (.rperm f) := command _ f rfl rfl (by decide) rfl

theorem rroll (f : TileFields) : Statement (.rroll f) := command _ f rfl rfl (by decide) rfl

theorem kand (f : TileFields) : Statement (.kand f) := command _ f rfl rfl (by decide) rfl

theorem kor (f : TileFields) : Statement (.kor f) := command _ f rfl rfl (by decide) rfl

theorem kxor (f : TileFields) : Statement (.kxor f) := command _ f rfl rfl (by decide) rfl

theorem knot (f : TileFields) : Statement (.knot f) := command _ f rfl rfl (by decide) rfl

theorem tld (f : TileFields) : Statement (.tld f) := command _ f rfl rfl (by decide) rfl

theorem tst (f : TileFields) : Statement (.tst f) := command _ f rfl rfl (by decide) rfl

theorem tsta (f : TileFields) : Statement (.tsta f) := command _ f rfl rfl (by decide) rfl

theorem tzero (f : TileFields) : Statement (.tzero f) := command _ f rfl rfl (by decide) rfl

theorem tcopy (f : TileFields) : Statement (.tcopy f) := command _ f rfl rfl (by decide) rfl

theorem ttrn (f : TileFields) : Statement (.ttrn f) := command _ f rfl rfl (by decide) rfl

theorem cpy (f : TileFields) : Statement (.cpy f) := command _ f rfl rfl (by decide) rfl

theorem cpya (f : TileFields) : Statement (.cpya f) := command _ f rfl rfl (by decide) rfl

theorem csched (f : TileFields) : Statement (.csched f) := command _ f rfl rfl (by decide) rfl

theorem cstage (f : TileFields) : Statement (.cstage f) := command _ f rfl rfl (by decide) rfl

theorem gath (f : TileFields) : Statement (.gath f) := command _ f rfl rfl (by decide) rfl

theorem scat (f : TileFields) : Statement (.scat f) := command _ f rfl rfl (by decide) rfl

theorem atts (f : TileFields) : Statement (.atts f) := command _ f rfl rfl (by decide) rfl

theorem attp (f : TileFields) : Statement (.attp f) := command _ f rfl rfl (by decide) rfl

theorem gmrg (f : TileFields) : Statement (.gmrg f) := command _ f rfl rfl (by decide) rfl

theorem gtake (f : TileFields) : Statement (.gtake f) := command _ f rfl rfl (by decide) rfl

theorem spire (f : TileFields) : Statement (.spire f) := command _ f rfl rfl (by decide) rfl

theorem packetRoute (pk : Nat) : Statement (.packetRoute pk) := hardware rfl rfl rfl

theorem drainMarker (node port : Nat) : Statement (.drainMarker node port) := hardware rfl rfl rfl

theorem gatewayFrame (pk : Nat) (fecOk : Bool) : Statement (.gatewayFrame pk fecOk) := hardware rfl rfl rfl

theorem forkBufferSend (node pk : Nat) : Statement (.forkBufferSend node pk) := hardware rfl rfl rfl

theorem reeveOperation (pk : Nat) (uncorrectable : Bool) : Statement (.reeveOperation pk uncorrectable) := hardware rfl rfl rfl

theorem flagIncrement (pk : Nat) : Statement (.flagIncrement pk) := hardware rfl rfl rfl

theorem waitRegistration (pk : Nat) : Statement (.waitRegistration pk) := hardware rfl rfl rfl

theorem wakeNotice (pk : Nat) : Statement (.wakeNotice pk) := hardware rfl rfl rfl

theorem replyLands (pk : Nat) : Statement (.replyLands pk) := hardware rfl rfl rfl

theorem acknowledgement (pk : Nat) : Statement (.acknowledgement pk) := hardware rfl rfl rfl

theorem busyNotice (pk : Nat) : Statement (.busyNotice pk) := hardware rfl rfl rfl

theorem homeReport (pk : Nat) : Statement (.homeReport pk) := hardware rfl rfl rfl

theorem tableChange (chip chg : Nat) : Statement (.tableChange chip chg) := hardware rfl rfl rfl

theorem tableChangeAcknowledge (chip chg : Nat) : Statement (.tableChangeAcknowledge chip chg) := hardware rfl rfl rfl

theorem movingExtentRecheck (thread : Nat) : Statement (.movingExtentRecheck thread) := hardware rfl rfl rfl

theorem nodeCacheFetch (node key : Nat) : Statement (.nodeCacheFetch node key) := hardware rfl rfl rfl

theorem codeCacheFill (thread : Nat) : Statement (.codeCacheFill thread) := hardware rfl rfl rfl

theorem copyScheduleEntry (task idx : Nat) : Statement (.copyScheduleEntry task idx) := hardware rfl rfl rfl

theorem submission (sub : Nat) : Statement (.submission sub) := hardware rfl rfl rfl

theorem admission (node : Nat) : Statement (.admission node) := hardware rfl rfl rfl

theorem dispatch (node : Nat) : Statement (.dispatch node) := hardware rfl rfl rfl

theorem dependantSubmission (node : Nat) : Statement (.dependantSubmission node) := hardware rfl rfl rfl

theorem taskRetirement (task : Nat) : Statement (.taskRetirement task) := hardware rfl rfl rfl

theorem taskEndFailedPartial (task : Nat) : Statement (.taskEndFailedPartial task) := hardware rfl rfl rfl

theorem preEmption (node : Nat) : Statement (.preEmption node) := hardware rfl rfl rfl

theorem contextSave (thread : Nat) : Statement (.contextSave thread) := hardware rfl rfl rfl

theorem saveRingRetry (thread : Nat) : Statement (.saveRingRetry thread) := hardware rfl rfl rfl

theorem resumption (node record : Nat) : Statement (.resumption node record) := hardware rfl rfl rfl

theorem longOpResult (thread : Nat) : Statement (.longOpResult thread) := hardware rfl rfl rfl

theorem yieldExpiry (thread : Nat) : Statement (.yieldExpiry thread) := hardware rfl rfl rfl

theorem engineCompletion (op : Nat) : Statement (.engineCompletion op) := hardware rfl rfl rfl

theorem wayfarerArrival (pk : Nat) : Statement (.wayfarerArrival pk) := hardware rfl rfl rfl

theorem wayfarerStart (core : Nat) : Statement (.wayfarerStart core) := hardware rfl rfl rfl

theorem tollArrival (node : Nat) : Statement (.tollArrival node) := hardware rfl rfl rfl

theorem tollReturn (node : Nat) : Statement (.tollReturn node) := hardware rfl rfl rfl

theorem subscriptionRegistration (sub : Nat) : Statement (.subscriptionRegistration sub) := hardware rfl rfl rfl

theorem passOpen (die roll : Nat) : Statement (.passOpen die roll) := hardware rfl rfl rfl

theorem pageWalk (die roll : Nat) : Statement (.pageWalk die roll) := hardware rfl rfl rfl

theorem stagingDelivery (pk : Nat) : Statement (.stagingDelivery pk) := hardware rfl rfl rfl

theorem spireRound (round : Nat) : Statement (.spireRound round) := hardware rfl rfl rfl

theorem spirePackageSum (round : Nat) : Statement (.spirePackageSum round) := hardware rfl rfl rfl

theorem ouvvalFrame (chip port : Nat) (ok : Bool) : Statement (.ouvvalFrame chip port ok) := hardware rfl rfl rfl

theorem negativeAcknowledgement (chip port : Nat) : Statement (.negativeAcknowledgement chip port) := hardware rfl rfl rfl

theorem entryEnqueue (entry : Nat) : Statement (.entryEnqueue entry) := hardware rfl rfl rfl

theorem entryAdmission (chip port cls position : Nat) : Statement (.entryAdmission chip port cls position) := hardware rfl rfl rfl

theorem relayEntry (entry : Nat) : Statement (.relayEntry entry) := hardware rfl rfl rfl

theorem relayCredit (chip via : Nat) : Statement (.relayCredit chip via) := hardware rfl rfl rfl

theorem parcelOffer (transit : Nat) : Statement (.parcelOffer transit) := hardware rfl rfl rfl

theorem parcelAcceptance (transit : Nat) : Statement (.parcelAcceptance transit) := hardware rfl rfl rfl

theorem parcelData (transit : Nat) : Statement (.parcelData transit) := hardware rfl rfl rfl

theorem installationAcknowledgement (transit : Nat) : Statement (.installationAcknowledgement transit) := hardware rfl rfl rfl

theorem parcelTransitFailure (transit : Nat) : Statement (.parcelTransitFailure transit) := hardware rfl rfl rfl

theorem commandEntry (parish : Nat) : Statement (.commandEntry parish) := hardware rfl rfl rfl

theorem launchCommand (parish seq : Nat) : Statement (.launchCommand parish seq) := hardware rfl rfl rfl

theorem copyin (parish seq : Nat) : Statement (.copyin parish seq) := hardware rfl rfl rfl

theorem copyout (parish seq : Nat) : Statement (.copyout parish seq) := hardware rfl rfl rfl

theorem mark (parish seq : Nat) : Statement (.mark parish seq) := hardware rfl rfl rfl

theorem commandCompletion (parish seq : Nat) : Statement (.commandCompletion parish seq) := hardware rfl rfl rfl

theorem busyResend (pk : Nat) : Statement (.busyResend pk) := hardware rfl rfl rfl

theorem rotorRelock (chip port : Nat) : Statement (.rotorRelock chip port) := hardware rfl rfl rfl

theorem powerOnReset (chip : Nat) : Statement (.powerOnReset chip) := hardware rfl rfl rfl

theorem bootRom (chip : Nat) (b : BootInput) : Statement (.bootRom chip b) := hardware rfl rfl rfl

theorem linkTraining (chip port : Nat) (b : TrainingInput) : Statement (.linkTraining chip port b) := hardware rfl rfl rfl

theorem clusterReset (c : Cluster) : Statement (.clusterReset c) := hardware rfl rfl rfl

theorem clusterRelease (c : Cluster) : Statement (.clusterRelease c) := hardware rfl rfl rfl

theorem routeTableWrite (node bank idx : Nat) (entry : Word) : Statement (.routeTableWrite node bank idx entry) := hardware rfl rfl rfl

theorem swapMarker (node : Nat) : Statement (.swapMarker node) := hardware rfl rfl rfl

theorem retryTimeout (pk : Nat) : Statement (.retryTimeout pk) := hardware rfl rfl rfl

theorem scrub (core : Nat) (found : ScrubFinding) : Statement (.scrub core found) := hardware rfl rfl rfl

theorem channelScrub (chip channel : Nat) (found : ScrubFinding) : Statement (.channelScrub chip channel found) := hardware rfl rfl rfl

theorem tollCountSet (die count : Nat) : Statement (.tollCountSet die count) := hardware rfl rfl rfl

theorem tollHoldLimit (node : Nat) : Statement (.tollHoldLimit node) := hardware rfl rfl rfl

theorem slotStart (chip port since10ns : Nat) : Statement (.slotStart chip port since10ns) := hardware rfl rfl rfl

theorem helloFrame (chip port : Nat) (h : Hello) : Statement (.helloFrame chip port h) := hardware rfl rfl rfl

theorem keyUpdate (chip port : Nat) (key : BitVec 256) : Statement (.keyUpdate chip port key) := hardware rfl rfl rfl

theorem keyRotationTimer (chip port : Nat) : Statement (.keyRotationTimer chip port) := hardware rfl rfl rfl

theorem rotorTableChange (chip : Nat) (c : RotorChange) : Statement (.rotorTableChange chip c) := hardware rfl rfl rfl

theorem qtailWrite (parish : Nat) (v : Word) : Statement (.qtailWrite parish v) := hardware rfl rfl rfl

theorem jheadWrite (parish : Nat) (v : Word) : Statement (.jheadWrite parish v) := hardware rfl rfl rfl

theorem registerWrite (chip off : Nat) (v : Word) : Statement (.registerWrite chip off v) := hardware rfl rfl rfl

theorem measurements (chip : Nat) (r : MeasurementRequest) : Statement (.measurements chip r) := hardware rfl rfl rfl

theorem dieOverTemperature (die : Nat) : Statement (.dieOverTemperature die) := hardware rfl rfl rfl

theorem moduleOverTemperature (chip : Nat) : Statement (.moduleOverTemperature chip) := hardware rfl rfl rfl

theorem darkPeriodMissed (chip port : Nat) : Statement (.darkPeriodMissed chip port) := hardware rfl rfl rfl

theorem gatewayTraining (chip : Nat) (deadSeams : List Nat) : Statement (.gatewayTraining chip deadSeams) := hardware rfl rfl rfl

theorem hostLinkTraining (chip speed width : Nat) : Statement (.hostLinkTraining chip speed width) := hardware rfl rfl rfl

theorem powerLoss (chip : Nat) : Statement (.powerLoss chip) := hardware rfl rfl rfl

theorem disposition (chip parish : Nat) : Statement (.disposition chip parish) := hardware rfl rfl rfl

theorem parishCreate (chip parish : Nat) : Statement (.parishCreate chip parish) := hardware rfl rfl rfl

theorem parishDestroy (chip parish : Nat) : Statement (.parishDestroy chip parish) := hardware rfl rfl rfl

end Sys2Proof.Laws.RoundTrip
end

