-- ==== Sys2Proof/Laws/Step.lean ====
section
/-! SUPPORT. Which step comes next: what `State.select` chooses in each of its cases, and what `step` then is. -/

namespace Sys2Proof.Machine

theorem State.select_due {s : State} {d : Due} {r : List Due} (ho : s.order = []) (ht : dueTimer s s.focus = none)
    (hp : s.pending = d :: r) : s.select State.notice = ({ s with pending := r } : State).take d State.notice := by
  unfold State.select
  split <;> simp_all

theorem State.select_issue {s : State} (ho : s.order = []) (ht : dueTimer s s.focus = none) (hp : s.pending = []) :
    s.select State.notice = s.issueOn s.focus := by
  unfold State.select
  split <;> simp_all

theorem State.select_timer {s : State} {e : Nat × Nat × Due} (ho : s.order = []) (ht : dueTimer s s.focus = some e) :
    s.select State.notice = ({ s with timers := dropOne s.timers e } : State).take e.2.2 State.notice := by
  unfold State.select
  split <;> simp_all

theorem State.select_input {s : State} {i : Instr} {q : List Choice} (ho : s.order = .input i :: q)
    (hh : isHardwareStep i = true) (hd : s.inputDue i = true) : s.select State.notice = .run i { s with order := q } := by
  unfold State.select
  split <;> simp_all

/-- A machine that is not dead runs what has been selected. -/
theorem step_alive {s : State} (h : s.isDead = false) : step s = perform (s.select State.notice) := by
  simp [step, h]

theorem State.isDead_of_pending {s : State} (h : s.pending ≠ []) : s.isDead = false := by
  simp [State.isDead, h]

theorem State.isDead_of_order {s : State} (h : s.order ≠ []) : s.isDead = false := by
  simp [State.isDead, h]

theorem State.isDead_of_power {s : State} (h : (s.chip (chipOfCore s.focus)).off = false) : s.isDead = false := by
  simp [State.isDead, h]

/-- A fetch that finds its line in the node's code cache brings the four bytes at the PC (R189, R449). -/
theorem State.fetch_cached {s : State} {t : Nat} {line : List Byte} (ha : (s.slot t).pc.toNat % 4 = 0)
    (hp : isPlace (s.slot t).pc = false)
    (he : checkEntry (s.obj (chipOfThread t) (s.slot t).parish (handleObj (s.slot t).pc)) (handleObj (s.slot t).pc)
      (handleOff (s.slot t).pc) 4 rX (!(s.slot t).pl) = none)
    (hl : cachedLine (s.node (nodeOfThread t)) (objKey (s.slot t).parish (chipOfThread t) (handleObj (s.slot t).pc))
      (handleOff (s.slot t).pc / 128) = some line) :
    s.fetch t = .word (BitVec.ofNat 32 (ofLittleEndian ((line.drop (handleOff (s.slot t).pc % 128)).take 4))) := by
  simp only [State.fetch]
  rw [if_neg (by simpa using ha), if_neg (by simp [hp]), he]
  simp only [hl]

end Sys2Proof.Machine
end

