-- ==== Sys2Proof/Tests/Slice0.lean ====
section
/-! SUPPORT. The model's own tests: words of every encodable instruction decoded, the terms the checks of WellFormed
refuse, the manual's worked cases, and for each statement a state that meets its hypotheses. -/

namespace Sys2Proof.Tests

open Sys2Proof.Machine

theorem test_decode_alu_1 :
    decodeWord 0b1_1_0101_000001_0011_0100_0110_00000000 = .ok (.add ⟨true, true, 5⟩ 3 4 6) ∧
    decodeWord 0b1_1_0101_000001_0011_0100_0110_00000001 = .ok (.sub ⟨true, true, 5⟩ 3 4 6) ∧
    decodeWord 0b1_1_0101_000001_0011_0100_0110_00000010 = .ok (.and ⟨true, true, 5⟩ 3 4 6) ∧
    decodeWord 0b1_1_0101_000001_0011_0100_0110_00000011 = .ok (.or ⟨true, true, 5⟩ 3 4 6) ∧
    decodeWord 0b1_1_0101_000001_0011_0100_0110_00000100 = .ok (.xor ⟨true, true, 5⟩ 3 4 6) ∧
    decodeWord 0b1_1_0101_000001_0011_0100_0110_00000101 = .ok (.shl ⟨true, true, 5⟩ 3 4 6) ∧
    decodeWord 0b1_1_0101_000001_0011_0100_0110_00000110 = .ok (.shr ⟨true, true, 5⟩ 3 4 6) ∧
    decodeWord 0b1_1_0101_000001_0011_0100_0110_00000111 = .ok (.shra ⟨true, true, 5⟩ 3 4 6) ∧
    decodeWord 0b1_1_0101_000001_0011_0100_0110_00001000 = .ok (.rotr ⟨true, true, 5⟩ 3 4 6) ∧
    decodeWord 0b1_1_0101_000001_0011_0100_0110_00001001 = .ok (.min ⟨true, true, 5⟩ 3 4 6) ∧
    decodeWord 0b1_1_0101_000001_0011_0100_0110_00001010 = .ok (.max ⟨true, true, 5⟩ 3 4 6) ∧
    decodeWord 0b1_1_0101_000001_0011_0100_0110_00001011 = .ok (.minu ⟨true, true, 5⟩ 3 4 6) ∧
    decodeWord 0b1_1_0101_000001_0011_0100_0110_00001100 = .ok (.maxu ⟨true, true, 5⟩ 3 4 6) ∧
    decodeWord 0b1_1_0101_000001_0011_0100_0110_00010000 = .ok (.mul ⟨true, true, 5⟩ 3 4 6) ∧
    decodeWord 0b1_1_0101_000001_0011_0100_0110_00010001 = .ok (.mulh ⟨true, true, 5⟩ 3 4 6) := by
  refine ⟨?_, ?_, ?_, ?_, ?_, ?_, ?_, ?_, ?_, ?_, ?_, ?_, ?_, ?_, ?_⟩ <;> rfl

theorem test_decode_alu_2 :
    decodeWord 0b1_1_0101_000001_0011_0100_0110_00010010 = .ok (.mulhu ⟨true, true, 5⟩ 3 4 6) ∧
    decodeWord 0b1_1_0101_000001_0011_0100_0110_00010100 = .ok (.div ⟨true, true, 5⟩ 3 4 6) ∧
    decodeWord 0b1_1_0101_000001_0011_0100_0110_00010101 = .ok (.divu ⟨true, true, 5⟩ 3 4 6) ∧
    decodeWord 0b1_1_0101_000001_0011_0100_0110_00010110 = .ok (.rem ⟨true, true, 5⟩ 3 4 6) ∧
    decodeWord 0b1_1_0101_000001_0011_0100_0110_00010111 = .ok (.remu ⟨true, true, 5⟩ 3 4 6) ∧
    decodeWord 0b1_1_0101_000001_0011_0100_000000100000 = .ok (.clz ⟨true, true, 5⟩ 3 4) ∧
    decodeWord 0b1_1_0101_000001_0011_0100_000000100001 = .ok (.ctz ⟨true, true, 5⟩ 3 4) ∧
    decodeWord 0b1_1_0101_000001_0011_0100_000000100010 = .ok (.popc ⟨true, true, 5⟩ 3 4) ∧
    decodeWord 0b1_1_0101_000001_0011_0100_000000100100 = .ok (.sextB ⟨true, true, 5⟩ 3 4) ∧
    decodeWord 0b1_1_0101_000001_0011_0100_000000100101 = .ok (.sextH ⟨true, true, 5⟩ 3 4) ∧
    decodeWord 0b1_1_0101_000001_0011_0100_000000100110 = .ok (.sextW ⟨true, true, 5⟩ 3 4) ∧
    decodeWord 0b1_1_0101_000001_0011_0100_000000101000 = .ok (.zextB ⟨true, true, 5⟩ 3 4) ∧
    decodeWord 0b1_1_0101_000001_0011_0100_000000101001 = .ok (.zextH ⟨true, true, 5⟩ 3 4) ∧
    decodeWord 0b1_1_0101_000001_0011_0100_000000101010 = .ok (.zextW ⟨true, true, 5⟩ 3 4) := by
  refine ⟨?_, ?_, ?_, ?_, ?_, ?_, ?_, ?_, ?_, ?_, ?_, ?_, ?_, ?_⟩ <;> rfl

theorem test_decode_immediate :
    decodeWord 0b1_1_0101_000010_0011_0100_111110100101 = .ok (.addi ⟨true, true, 5⟩ 3 4 0xFA5) ∧
    decodeWord 0b1_1_0101_000011_0011_0100_111110100101 = .ok (.andi ⟨true, true, 5⟩ 3 4 0xFA5) ∧
    decodeWord 0b1_1_0101_000100_0011_0100_111110100101 = .ok (.ori ⟨true, true, 5⟩ 3 4 0xFA5) ∧
    decodeWord 0b1_1_0101_000101_0011_0100_111110100101 = .ok (.xori ⟨true, true, 5⟩ 3 4 0xFA5) ∧
    decodeWord 0b1_1_0101_000110_0011_0100_000000_101101 = .ok (.shli ⟨true, true, 5⟩ 3 4 0x2D) ∧
    decodeWord 0b1_1_0101_000110_0011_0100_000100_101101 = .ok (.shri ⟨true, true, 5⟩ 3 4 0x2D) ∧
    decodeWord 0b1_1_0101_000110_0011_0100_001000_101101 = .ok (.shrai ⟨true, true, 5⟩ 3 4 0x2D) ∧
    decodeWord 0b1_1_0101_000110_0011_0100_001100_101101 = .ok (.rotri ⟨true, true, 5⟩ 3 4 0x2D) := by
  refine ⟨?_, ?_, ?_, ?_, ?_, ?_, ?_, ?_⟩ <;> rfl

theorem test_decode_constant :
    decodeWord 0b1_1_0101_000111_0011_1111111111111011 = .ok (.movi ⟨true, true, 5⟩ 3 0xFFFB) ∧
    decodeWord 0b1_1_0101_001000_0011_1111111111111011 = .ok (.movk16 ⟨true, true, 5⟩ 3 0xFFFB) ∧
    decodeWord 0b1_1_0101_001001_0011_1111111111111011 = .ok (.movk32 ⟨true, true, 5⟩ 3 0xFFFB) ∧
    decodeWord 0b1_1_0101_001010_0011_1111111111111011 = .ok (.movk48 ⟨true, true, 5⟩ 3 0xFFFB) := by
  refine ⟨?_, ?_, ?_, ?_⟩ <;> rfl

theorem test_decode_compare :
    decodeWord 0b1_1_0101_001011_0011_0100_0110_00000101 = .ok (.cmp ⟨true, true, 5⟩ 3 4 6 5) ∧
    decodeWord 0b1_1_0101_001100_0011_0100_101_111110101 = .ok (.cmpi ⟨true, true, 5⟩ 3 4 5 0x1F5) := by
  refine ⟨?_, ?_⟩ <;> rfl

theorem test_decode_predicate :
    decodeWord 0b1_1_0101_001101_0011_0100_0110_00000000 = .ok (.pand ⟨true, true, 5⟩ 3 4 6) ∧
    decodeWord 0b1_1_0101_001101_0011_0100_0110_00000001 = .ok (.por ⟨true, true, 5⟩ 3 4 6) ∧
    decodeWord 0b1_1_0101_001101_0011_0100_0110_00000010 = .ok (.pxor ⟨true, true, 5⟩ 3 4 6) ∧
    decodeWord 0b1_1_0101_001101_0011_0100_000000000011 = .ok (.pnot ⟨true, true, 5⟩ 3 4) ∧
    decodeWord 0b1_1_0101_001101_0011_0100_000000000100 = .ok (.pmov ⟨true, true, 5⟩ 3 4) ∧
    decodeWord 0b1_1_0101_001101_0011_0000000000000101 = .ok (.movpFromPw ⟨true, true, 5⟩ 3) ∧
    decodeWord 0b1_1_0101_0011010000_0011_000000000110 = .ok (.movpToPw ⟨true, true, 5⟩ 3) := by
  refine ⟨?_, ?_, ?_, ?_, ?_, ?_, ?_⟩ <;> rfl

theorem test_decode_control :
    decodeWord 0b1_1_0101_001110_11111111111101011010 = .ok (.br ⟨true, true, 5⟩ 0xFFF5A) ∧
    decodeWord 0b1_1_0101_001111_11111111111101011010 = .ok (.jal ⟨true, true, 5⟩ 0xFFF5A) ∧
    decodeWord 0b1_1_0101_010000_0011_0100_111110100101 = .ok (.jalr ⟨true, true, 5⟩ 3 4 0xFA5) := by
  refine ⟨?_, ?_, ?_⟩ <;> rfl

theorem test_decode_simple :
    decodeWord 0b1_1_0101_01000100000000000000000000 = .ok (.nop ⟨true, true, 5⟩) ∧
    decodeWord 0b1_1_0101_01000100000000000100000000 = .ok (.halt ⟨true, true, 5⟩) ∧
    decodeWord 0b1_1_0101_01000100000000001000000000 = .ok (.yield ⟨true, true, 5⟩) ∧
    decodeWord 0b1_1_0101_010001000000000011_10100111 = .ok (.trap ⟨true, true, 5⟩ 0xA7) ∧
    decodeWord 0b1_1_0101_01000100000000010000000000 = .ok (.eret ⟨true, true, 5⟩) ∧
    decodeWord 0b1_1_0101_010001000000000101_10100111 = .ok (.brk ⟨true, true, 5⟩ 0xA7) := by
  refine ⟨?_, ?_, ?_, ?_, ?_, ?_⟩ <;> rfl

theorem test_decode_system :
    decodeWord 0b1_1_0101_010010_0011_0000_111110100101 = .ok (.gets ⟨true, true, 5⟩ 3 0xFA5) ∧
    decodeWord 0b1_1_0101_0100110000_0011_111110100101 = .ok (.sets ⟨true, true, 5⟩ 3 0xFA5) := by
  refine ⟨?_, ?_⟩ <;> rfl

theorem test_decode_memory :
    decodeWord 0b1_1_0101_010100_0101_0110_10_1_11_1010101 = .ok (.ld ⟨true, true, 5⟩ 5 6 2 true 3 0x55) ∧
    decodeWord 0b1_1_0101_010101_0101_0110_10_0_11_1010101 = .ok (.st ⟨true, true, 5⟩ 5 6 2 3 0x55) ∧
    decodeWord 0b1_1_0101_010110_0011_0100_01_1_00_1010101 = .ok (.ldl ⟨true, true, 5⟩ 3 4 1 true 0x55) ∧
    decodeWord 0b1_1_0101_010111_0011_0100_01_000_1010101 = .ok (.stl ⟨true, true, 5⟩ 3 4 1 0x55) ∧
    decodeWord 0b1_1_0101_011000_0011_0100_11000_1010101 = .ok (.ldh ⟨true, true, 5⟩ 3 4 0x55) ∧
    decodeWord 0b1_1_0101_011001_0011_0100_11000_1010101 = .ok (.sth ⟨true, true, 5⟩ 3 4 0x55) := by
  refine ⟨?_, ?_, ?_, ?_, ?_, ?_⟩ <;> rfl

theorem test_decode_amo :
    decodeWord 0b1_1_0101_011010_0011_0100_0110_000_01_100 = .ok (.amoAdd ⟨true, true, 5⟩ 3 4 6 1 4) ∧
    decodeWord 0b1_1_0101_011010_0011_0100_0110_001_01_100 = .ok (.amoMin ⟨true, true, 5⟩ 3 4 6 1 4) ∧
    decodeWord 0b1_1_0101_011010_0011_0100_0110_010_01_100 = .ok (.amoMax ⟨true, true, 5⟩ 3 4 6 1 4) ∧
    decodeWord 0b1_1_0101_011010_0011_0100_0110_011_01_100 = .ok (.amoAnd ⟨true, true, 5⟩ 3 4 6 1 4) ∧
    decodeWord 0b1_1_0101_011010_0011_0100_0110_100_01_100 = .ok (.amoOr ⟨true, true, 5⟩ 3 4 6 1 4) ∧
    decodeWord 0b1_1_0101_011010_0011_0100_0110_101_01_100 = .ok (.amoXor ⟨true, true, 5⟩ 3 4 6 1 4) ∧
    decodeWord 0b1_1_0101_011010_0011_0100_0110_110_01_100 = .ok (.amoXchg ⟨true, true, 5⟩ 3 4 6 1 4) := by
  refine ⟨?_, ?_, ?_, ?_, ?_, ?_, ?_⟩ <;> rfl

theorem test_decode_cas :
    decodeWord 0b1_1_0101_011011_0011_0100_0110_1001_1_100 = .ok (.cas ⟨true, true, 5⟩ 3 4 6 9 true 4) := by
  rfl

theorem test_decode_reeve :
    decodeWord 0b1_1_0101_011100_0011_0100_0110_00000000 = .ok (.cas2 ⟨true, true, 5⟩ 3 4 6) ∧
    decodeWord 0b1_1_0101_011100_0011_0100_0110_00000001 = .ok (.cas4 ⟨true, true, 5⟩ 3 4 6) ∧
    decodeWord 0b1_1_0101_011100_0011_0100_0110_00000010 = .ok (.enq ⟨true, true, 5⟩ 3 4 6) ∧
    decodeWord 0b1_1_0101_011100_0011_0100_0110_00000011 = .ok (.deq ⟨true, true, 5⟩ 3 4 6) ∧
    decodeWord 0b1_1_0101_011100_0011_0100_0110_1001_0100 = .ok (.chase ⟨true, true, 5⟩ 3 4 6 9) := by
  refine ⟨?_, ?_, ?_, ?_, ?_⟩ <;> rfl

theorem test_decode_flag :
    decodeWord 0b1_1_0101_011101_0011_0100_000_111110101 = .ok (.cwait ⟨true, true, 5⟩ 3 4 0x1F5) ∧
    decodeWord 0b1_1_0101_011101_0011_0100_001_111110101 = .ok (.cwaitr ⟨true, true, 5⟩ 3 4 0x1F5) ∧
    decodeWord 0b1_1_0101_011101_0011_0100_010_111110101 = .ok (.cadd ⟨true, true, 5⟩ 3 4 0x1F5) ∧
    decodeWord 0b1_1_0101_011101_0011_0100_011_111110101 = .ok (.caddRel ⟨true, true, 5⟩ 3 4 0x1F5) ∧
    decodeWord 0b1_1_0101_011101_0011_0100_100_111110101 = .ok (.cpeek ⟨true, true, 5⟩ 3 4 0x1F5) := by
  refine ⟨?_, ?_, ?_, ?_, ?_⟩ <;> rfl

theorem test_decode_line :
    decodeWord 0b1_1_0101_0111100000_0011_00_0100_000000 = .ok (.lempty ⟨true, true, 5⟩ 3 4) ∧
    decodeWord 0b1_1_0101_0111100000_0011_01_0100_000000 = .ok (.lfill ⟨true, true, 5⟩ 3 4) ∧
    decodeWord 0b1_1_0101_011110_0011_0100_100000000000 = .ok (.lstate ⟨true, true, 5⟩ 3 4) := by
  refine ⟨?_, ?_, ?_⟩ <;> rfl

theorem test_decode_wander :
    decodeWord 0b1_1_0101_0111110000_0011_000000000000 = .ok (.wander ⟨true, true, 5⟩ 3) ∧
    decodeWord 0b1_1_0101_01111100000000000000000001 = .ok (.home ⟨true, true, 5⟩) := by
  refine ⟨?_, ?_⟩ <;> rfl

theorem test_decode_engine :
    decodeWord 0b1_1_0101_1000000000_0011_111110100101 = .ok (.tx ⟨true, true, 5⟩ 3 0xFA5) ∧
    decodeWord 0b1_1_0101_1000010000_0011_111110100101 = .ok (.tq ⟨true, true, 5⟩ 3 0xFA5) ∧
    decodeWord 0b1_1_0101_100010_0011_0100_111110100101 = .ok (.fork ⟨true, true, 5⟩ 3 4 0xFA5) ∧
    decodeWord 0b1_1_0101_1000110000_0011_111110100101 = .ok (.rdv ⟨true, true, 5⟩ 3 0xFA5) := by
  refine ⟨?_, ?_, ?_, ?_⟩ <;> rfl

theorem test_decode_tile :
    decodeWord 0b1_1_0101_100100_0010_01001_1101_100110_0 = .ok (.tshape ⟨true, true, 5⟩ 2 9 13 0x26) ∧
    decodeWord 0b1_1_0101_100100_1011_0100_000000000001 = .ok (.tshapeReg ⟨true, true, 5⟩ 11 4) ∧
    decodeWord 0b1_1_0101_100101_0011_1010_0110_00000000 = .ok (.tget ⟨true, true, 5⟩ 3 10 6) ∧
    decodeWord 0b1_1_0101_100101_0011_1010_0110_00000001 = .ok (.tset ⟨true, true, 5⟩ 3 10 6) := by
  refine ⟨?_, ?_, ?_, ?_⟩ <;> rfl

theorem test_decode_spill :
    decodeWord 0b1_1_0101_1001100000_0100_1010_0111_0000 = .ok (.park ⟨true, true, 5⟩ 4 10 7) ∧
    decodeWord 0b1_1_0101_100110_0011_0000_1010_0111_0001 = .ok (.unpark ⟨true, true, 5⟩ 3 10 7) ∧
    decodeWord 0b1_1_0101_10011000000000000000000010 = .ok (.borrow ⟨true, true, 5⟩) ∧
    decodeWord 0b1_1_0101_10011000000000000000000011 = .ok (.returnLent ⟨true, true, 5⟩) ∧
    decodeWord 0b1_1_0101_100110_0011_0100_000000000100 = .ok (.xget ⟨true, true, 5⟩ 3 4) ∧
    decodeWord 0b1_1_0101_1001100000_0011_0100_00000101 = .ok (.xput ⟨true, true, 5⟩ 3 4) := by
  refine ⟨?_, ?_, ?_, ?_, ?_, ?_⟩ <;> rfl

theorem test_decode_task :
    decodeWord 0b1_1_0101_100111_0011_0100_0110_00000000 = .ok (.launch ⟨true, true, 5⟩ 3 4 6) ∧
    decodeWord 0b1_1_0101_10011100000000000000000001 = .ok (.trigger ⟨true, true, 5⟩) := by
  refine ⟨?_, ?_⟩ <;> rfl

theorem test_decode_pass :
    decodeWord 0b1_1_0101_101000_0011_0100_0110_1010_0000 = .ok (.kvsub ⟨true, true, 5⟩ 3 4 6 10) ∧
    decodeWord 0b1_1_0101_1010000000_0011_000000000001 = .ok (.kvunsub ⟨true, true, 5⟩ 3) ∧
    decodeWord 0b1_1_0101_1010000000_0011_000000000010 = .ok (.pass ⟨true, true, 5⟩ 3) ∧
    decodeWord 0b1_1_0101_1010010000_0011_0100_00000000 = .ok (.post ⟨true, true, 5⟩ 3 4) := by
  refine ⟨?_, ?_, ?_, ?_⟩ <;> rfl

theorem test_decode_float :
    decodeWord 0b1_1_0101_101010_0011_0100_0110_0000_1_100 = .ok (.fadd ⟨true, true, 5⟩ 3 4 6 true 4) ∧
    decodeWord 0b1_1_0101_101010_0011_0100_0110_0001_1_100 = .ok (.fsub ⟨true, true, 5⟩ 3 4 6 true 4) ∧
    decodeWord 0b1_1_0101_101010_0011_0100_0110_0010_1_100 = .ok (.fmul ⟨true, true, 5⟩ 3 4 6 true 4) ∧
    decodeWord 0b1_1_0101_101010_0011_0100_0110_0011_1_100 = .ok (.fdiv ⟨true, true, 5⟩ 3 4 6 true 4) ∧
    decodeWord 0b1_1_0101_101010_0011_0100_00000100_1_100 = .ok (.fsqrt ⟨true, true, 5⟩ 3 4 true 4) ∧
    decodeWord 0b1_1_0101_101010_0011_0100_0110_0101_1_000 = .ok (.fmin ⟨true, true, 5⟩ 3 4 6 true) ∧
    decodeWord 0b1_1_0101_101010_0011_0100_0110_0110_1_000 = .ok (.fmax ⟨true, true, 5⟩ 3 4 6 true) ∧
    decodeWord 0b1_1_0101_101010_0011_0100_00000111_1_000 = .ok (.fneg ⟨true, true, 5⟩ 3 4 true) ∧
    decodeWord 0b1_1_0101_101010_0011_0100_00001000_1_000 = .ok (.fabs ⟨true, true, 5⟩ 3 4 true) ∧
    decodeWord 0b1_1_0101_101010_0011_0100_1001_10010_100 = .ok (.fcvt ⟨true, true, 5⟩ 3 4 9 4) ∧
    decodeWord 0b1_1_0101_101100_0011_0100_0110_1_0000_100 = .ok (.fcmp ⟨true, true, 5⟩ 3 4 6 true 4) := by
  refine ⟨?_, ?_, ?_, ?_, ?_, ?_, ?_, ?_, ?_, ?_, ?_⟩ <;> rfl

theorem test_decode_fma :
    decodeWord 0b1_1_0101_101011_0011_0100_0110_1001_00_1_0 = .ok (.fma ⟨true, true, 5⟩ 3 4 6 9 true) ∧
    decodeWord 0b1_1_0101_101011_0011_0100_0110_1001_01_1_0 = .ok (.fms ⟨true, true, 5⟩ 3 4 6 9 true) ∧
    decodeWord 0b1_1_0101_101011_0011_0100_0110_1001_10_1_0 = .ok (.fnma ⟨true, true, 5⟩ 3 4 6 9 true) ∧
    decodeWord 0b1_1_0101_101011_0011_0100_0110_1001_11_1_0 = .ok (.fnms ⟨true, true, 5⟩ 3 4 6 9 true) := by
  refine ⟨?_, ?_, ?_, ?_⟩ <;> rfl

theorem test_decode_place :
    decodeWord 0b1_1_0101_101101_0011_0100_0110_00000000 = .ok (.plc ⟨true, true, 5⟩ 3 4 6) ∧
    decodeWord 0b1_1_0101_101101_0011_0100_000000000001 = .ok (.ploc ⟨true, true, 5⟩ 3 4) ∧
    decodeWord 0b1_1_0101_101110_0011_0100_000000000000 = .ok (.roll ⟨true, true, 5⟩ 3 4) ∧
    decodeWord 0b1_1_0101_101110_0011_0100_000000000001 = .ok (.rollF ⟨true, true, 5⟩ 3 4) := by
  refine ⟨?_, ?_, ?_, ?_⟩ <;> rfl

theorem test_decode_stc :
    decodeWord 0b1_1_0101_1011110000_0011_0100_0110_00_01 = .ok (.stc ⟨true, true, 5⟩ 3 4 6 1) := by
  rfl

/-- The fields of the command words below: each differs from its neighbours. -/
def testFields : TileFields :=
  { e := true, s := true, k := 11, td := 3, ta := 4, tb := 9, tc := 10, ed := 17, ea := 9, eb := 14, first := 5, count := 6,
    rnd := 4, sat := true, layout := 5, imm32 := 0x89ABCDEF, addr := 0x0123456789ABCDEF, flag := 0xFEDCBA9876543210,
    len := 0x13579BDF }

/-- Bits 247:0 of a command word with those fields, field by field as Table 8-12 lays them out. -/
def testTail : BitVec 248 :=
  0b1_1_1011_0011_0100_1001_1010_10001_01001_01110_0101_00110_100_1_101_000#56 ++ 0x89ABCDEF#32 ++ 0x0123456789ABCDEF#64 ++ 0xFEDCBA9876543210#64 ++ 0x13579BDF#32

set_option maxRecDepth 8000 in
theorem test_decode_loom :
    decodeCommand (0b00000001#8 ++ testTail) = .ok (.tmma testFields) ∧
    decodeCommand (0b00000010#8 ++ testTail) = .ok (.tmms testFields) ∧
    decodeCommand (0b00000011#8 ++ testTail) = .ok (.tmmb testFields) ∧
    decodeCommand (0b00000100#8 ++ testTail) = .ok (.tmmd testFields) := by
  refine ⟨?_, ?_, ?_, ?_⟩ <;> rfl

set_option maxRecDepth 8000 in
theorem test_decode_lane :
    decodeCommand (0b00010000#8 ++ testTail) = .ok (.radd testFields) ∧
    decodeCommand (0b00010001#8 ++ testTail) = .ok (.rsub testFields) ∧
    decodeCommand (0b00010010#8 ++ testTail) = .ok (.rmul testFields) ∧
    decodeCommand (0b00010011#8 ++ testTail) = .ok (.rfma testFields) ∧
    decodeCommand (0b00010100#8 ++ testTail) = .ok (.rmin testFields) ∧
    decodeCommand (0b00010101#8 ++ testTail) = .ok (.rmax testFields) ∧
    decodeCommand (0b00010110#8 ++ testTail) = .ok (.rabs testFields) ∧
    decodeCommand (0b00010111#8 ++ testTail) = .ok (.rneg testFields) ∧
    decodeCommand (0b00011000#8 ++ testTail) = .ok (.rrcp testFields) ∧
    decodeCommand (0b00011001#8 ++ testTail) = .ok (.rrsq testFields) ∧
    decodeCommand (0b00011010#8 ++ testTail) = .ok (.rexp2 testFields) ∧
    decodeCommand (0b00011011#8 ++ testTail) = .ok (.rlog2 testFields) ∧
    decodeCommand (0b00011100#8 ++ testTail) = .ok (.rcvt testFields) ∧
    decodeCommand (0b00100000#8 ++ testTail) = .ok (.rand testFields) ∧
    decodeCommand (0b00100001#8 ++ testTail) = .ok (.ror testFields) ∧
    decodeCommand (0b00100010#8 ++ testTail) = .ok (.rxor testFields) ∧
    decodeCommand (0b00100011#8 ++ testTail) = .ok (.rshl testFields) ∧
    decodeCommand (0b00100100#8 ++ testTail) = .ok (.rshr testFields) := by
  refine ⟨?_, ?_, ?_, ?_, ?_, ?_, ?_, ?_, ?_, ?_, ?_, ?_, ?_, ?_, ?_, ?_, ?_, ?_⟩ <;> rfl

set_option maxRecDepth 8000 in
theorem test_decode_lane_2 :
    decodeCommand (0b00101000#8 ++ testTail) = .ok (.rcmp testFields) ∧
    decodeCommand (0b00101001#8 ++ testTail) = .ok (.rsel testFields) ∧
    decodeCommand (0b00101010#8 ++ testTail) = .ok (.rbcast testFields) ∧
    decodeCommand (0b00110000#8 ++ testTail) = .ok (.rsumr testFields) ∧
    decodeCommand (0b00110001#8 ++ testTail) = .ok (.rmaxr testFields) ∧
    decodeCommand (0b00110010#8 ++ testTail) = .ok (.rscan testFields) ∧
    decodeCommand (0b00110011#8 ++ testTail) = .ok (.rsort testFields) ∧
    decodeCommand (0b00110100#8 ++ testTail) = .ok (.ridx testFields) ∧
    decodeCommand (0b00110101#8 ++ testTail) = .ok (.rperm testFields) ∧
    decodeCommand (0b00110110#8 ++ testTail) = .ok (.rroll testFields) := by
  refine ⟨?_, ?_, ?_, ?_, ?_, ?_, ?_, ?_, ?_, ?_⟩ <;> rfl

set_option maxRecDepth 8000 in
theorem test_decode_lane_predicate :
    decodeCommand (0b01000000#8 ++ testTail) = .ok (.kand testFields) ∧
    decodeCommand (0b01000001#8 ++ testTail) = .ok (.kor testFields) ∧
    decodeCommand (0b01000010#8 ++ testTail) = .ok (.kxor testFields) ∧
    decodeCommand (0b01000011#8 ++ testTail) = .ok (.knot testFields) := by
  refine ⟨?_, ?_, ?_, ?_⟩ <;> rfl

set_option maxRecDepth 8000 in
theorem test_decode_move :
    decodeCommand (0b01100000#8 ++ testTail) = .ok (.tld testFields) ∧
    decodeCommand (0b01100001#8 ++ testTail) = .ok (.tst testFields) ∧
    decodeCommand (0b01100010#8 ++ testTail) = .ok (.tsta testFields) ∧
    decodeCommand (0b01100011#8 ++ testTail) = .ok (.tzero testFields) ∧
    decodeCommand (0b01100100#8 ++ testTail) = .ok (.tcopy testFields) ∧
    decodeCommand (0b01100101#8 ++ testTail) = .ok (.ttrn testFields) := by
  refine ⟨?_, ?_, ?_, ?_, ?_, ?_⟩ <;> rfl

set_option maxRecDepth 8000 in
theorem test_decode_carter_gleaner :
    decodeCommand (0b01110000#8 ++ testTail) = .ok (.cpy testFields) ∧
    decodeCommand (0b01110001#8 ++ testTail) = .ok (.cpya testFields) ∧
    decodeCommand (0b01110010#8 ++ testTail) = .ok (.csched testFields) ∧
    decodeCommand (0b01110011#8 ++ testTail) = .ok (.cstage testFields) ∧
    decodeCommand (0b01111000#8 ++ testTail) = .ok (.gath testFields) ∧
    decodeCommand (0b01111001#8 ++ testTail) = .ok (.scat testFields) := by
  refine ⟨?_, ?_, ?_, ?_, ?_, ?_⟩ <;> rfl

set_option maxRecDepth 8000 in
theorem test_decode_attention :
    decodeCommand (0b10000000#8 ++ testTail) = .ok (.atts testFields) ∧
    decodeCommand (0b10000001#8 ++ testTail) = .ok (.attp testFields) ∧
    decodeCommand (0b10000010#8 ++ testTail) = .ok (.gmrg testFields) ∧
    decodeCommand (0b10000011#8 ++ testTail) = .ok (.gtake testFields) ∧
    decodeCommand (0b10010000#8 ++ testTail) = .ok (.spire testFields) := by
  refine ⟨?_, ?_, ?_, ?_, ?_⟩ <;> rfl

/-! ### Terms that the checks of WellFormed refuse -/

theorem test_wellFormed_refuses_guards : (Instr.add ⟨false, true, 0⟩ 1 2 3).wellFormed = false ∧
    (Instr.add ⟨false, false, 1⟩ 1 2 3).wellFormed = false ∧ (Instr.add Guard.none 1 2 3).wellFormed = true := by decide

theorem test_wellFormed_refuses_conditions_and_orders :
    (Instr.cmp Guard.none 1 2 3 6).wellFormed = false ∧ (Instr.cmpi Guard.none 1 2 6 0).wellFormed = false ∧
    (Instr.fcmp Guard.none 1 2 3 false 5).wellFormed = false ∧ (Instr.ld Guard.none 1 2 3 true 0 0).wellFormed = false ∧
    (Instr.ld Guard.none 1 2 0 false 2 0).wellFormed = false ∧ (Instr.st Guard.none 1 2 0 1 0).wellFormed = false ∧
    (Instr.ldl Guard.none 1 2 3 true 0).wellFormed = false := by decide

theorem test_wellFormed_refuses_scopes_and_types :
    (Instr.amoAdd Guard.none 1 2 3 3 5).wellFormed = false ∧ (Instr.amoMin Guard.none 1 2 3 3 0).wellFormed = false ∧
    (Instr.amoMax Guard.none 1 2 3 3 0).wellFormed = false ∧ (Instr.amoAnd Guard.none 1 2 3 3 0).wellFormed = false ∧
    (Instr.amoOr Guard.none 1 2 3 3 0).wellFormed = false ∧ (Instr.amoXor Guard.none 1 2 3 3 0).wellFormed = false ∧
    (Instr.amoXchg Guard.none 1 2 3 0 5).wellFormed = false ∧ (Instr.cas Guard.none 1 2 3 4 true 7).wellFormed = false := by
  decide

theorem test_wellFormed_refuses_tiles :
    (Instr.tshape Guard.none 12 0 0 0).wellFormed = false ∧ (Instr.tshapeReg Guard.none 13 1).wellFormed = false ∧
    (Instr.tget Guard.none 1 12 2).wellFormed = false ∧ (Instr.tset Guard.none 1 15 2).wellFormed = false ∧
    (Instr.park Guard.none 1 12 2).wellFormed = false ∧ (Instr.unpark Guard.none 1 14 2).wellFormed = false ∧
    (Instr.kvsub Guard.none 1 2 3 12).wellFormed = false := by decide

theorem test_wellFormed_refuses_roundings :
    (Instr.fadd Guard.none 1 2 3 false 7).wellFormed = false ∧ (Instr.fsub Guard.none 1 2 3 true 7).wellFormed = false ∧
    (Instr.fmul Guard.none 1 2 3 false 7).wellFormed = false ∧ (Instr.fdiv Guard.none 1 2 3 true 7).wellFormed = false ∧
    (Instr.fsqrt Guard.none 1 2 false 7).wellFormed = false ∧ (Instr.fcvt Guard.none 1 2 10 0).wellFormed = false ∧
    (Instr.fcvt Guard.none 1 2 9 7).wellFormed = false := by decide

/-! ### Witnesses: encoding, stepping and the common rules -/

/-- A guard that does not hold where no predicate is set. -/
def never : Guard := ⟨true, false, 0⟩

/-- The reset machine with its thread 0 changed. -/
def at0 (f : Slot → Slot) : State := State.reset.modSlot 0 f

/-- A machine whose next step fetches NOP. -/
def fetching : State := State.reset.placeScalar 0x01100000

theorem test_witness_EncodeDecodeRoundTrip :
    (Instr.add Guard.none 1 2 3).wellFormed = true ∧ (Instr.add Guard.none 1 2 3).guard? ≠ none ∧
    (Instr.tmma testFields).wellFormed = true ∧ (Instr.tmma testFields).command? ≠ none ∧
    (Instr.packetRoute 0).wellFormed = true ∧ (Instr.packetRoute 0).guard? = none ∧
    (Instr.packetRoute 0).command? = none := by decide

theorem test_witness_NoInstructionRejected :
    (0x40100000 : Word32).getLsbD 31 = false ∧ (0x40100000 : Word32).getLsbD 30 = true ∧
    (0x04100000 : Word32).getLsbD 31 = false ∧ field (0x04100000 : Word32) 26 4 ≠ 0 ∧
    (decodeGuard 0).ok = true ∧ field (0 : Word32) 20 6 = 0 ∧ (decodeGuard 0x03000000).ok = true ∧
    0x30 ≤ (field (0x03000000 : Word32) 20 6).toNat ∧ field (1 : Command) 248 8 = 0 := by decide

theorem test_witness_StepIssuesDecodedInstruction :
    fetching.order = [] ∧ fetching.pending = [] ∧ dueTimer fetching fetching.focus = none ∧
    (fetching.chip (chipOfCore fetching.focus)).off = false ∧ issuingSlot fetching fetching.focus = some 0 ∧
    (fetching.slot 0).pc.toNat % 4 = 0 ∧ isPlace (fetching.slot 0).pc = false ∧
    checkEntry (fetching.obj 0 0 2) 2 0 4 rX true = none ∧
    cachedLine (fetching.node 0) (objKey 0 0 2) 0 = some ([0, 0, 16, 1] ++ List.replicate 124 0) ∧
    decodeBytes [0, 0, 16, 1] = .ok (.nop Guard.none) := by
  refine ⟨rfl, rfl, rfl, rfl, by decide, by decide, by decide, by decide, by decide, rfl⟩

theorem test_witness_StepRunsDueStep :
    (State.reset.push (.event (.packetRoute 0))).order = [] ∧ dueTimer (State.reset.push (.command 1)) 0 = none ∧
    ((State.reset.placeCommand (0b00000001#8 ++ testTail)).op? 1).map (fun o => decodeCommand o.word) =
      some (.ok (.tmma testFields)) ∧
    retried ((at0 fun c => { c with state := .parked .window }).slot 0).state = true ∧
    ((at0 fun c => { c with state := .parked .window, word := 0x01100000 }).slot 0).preempt = none ∧
    decodeWord 0x01100000 = .ok (.nop Guard.none) ∧ isHardwareStep (.packetRoute 0) = true ∧
    State.reset.inputDue (.packetRoute 0) = true ∧ isHardwareStep (.longOpResult 0) = true ∧
    ({ State.reset with timers := [(0, 5, .event (.longOpResult 0))] }).inputDue (.longOpResult 0) = false := by
  refine ⟨rfl, rfl, ?_, by decide, by decide, rfl, rfl, rfl, rfl, rfl⟩
  set_option maxRecDepth 8000 in rfl

theorem test_witness_guards :
    guardHolds never State.reset = false ∧ guardHolds Guard.none State.reset = true ∧ shadowReg 3 = false ∧
    shadowReg 11 = true ∧ shadowReg 14 = true ∧ (11 : Field4) ∈ (Instr.add Guard.none 11 1 2).dests ∧
    (Instr.add never 1 2 3).guard? = some never ∧ State.reset.here.lent = none := by decide

theorem test_witness_IntegerFrame : (Instr.add Guard.none 3 1 2).isIntegerForm = true ∧
    (∀ d ∈ (Instr.add Guard.none 3 1 2).dests, shadowReg d = false) ∧
    ∃ t, exec (.add Guard.none 3 1 2) State.reset = .next t := ⟨rfl, by decide, _, rfl⟩

theorem test_witness_PredicateFrame : (∃ t, exec (.cmp Guard.none 3 1 2 0) State.reset = .next t) ∧
    ∃ t, exec (.movpToPw Guard.none 1) State.reset = .next t := ⟨⟨_, rfl⟩, _, rfl⟩

theorem test_witness_DivisionResults : State.reset.reg 0 = 0 ∧ State.reset.reg 15 = 0 ∧
    (at0 fun c => { c with x := c.x.set 1 7 }).reg 1 = 7 := by decide

theorem test_witness_RegisterWriteThenRead : (0 : Field4) ≠ 15 ∧ (10 : Field4) ≠ 0 ∧ (10 : Field4) ≠ 15 ∧ (3 : Field4) ≠ 10 := by
  decide

/-! ### Witnesses: control, traps, registers and scalar floating point -/

theorem test_witness_TrapEntry :
    (at0 fun c => { c with tvec := 4 }).here.tvec ≠ 0 ∧ (at0 fun c => { c with tvec := 4 }).here.ih = false ∧
    State.reset.here.tvec = 0 ∧ (at0 fun c => { c with ih := true }).here.ih = true ∧ (State.reset.slot 0).ih = false ∧
    supervisorCause 0x14 = false := by decide

theorem test_witness_SystemRegisters :
    (0x006 : BitVec 12) ∉ ([0x000, 0x001, 0x002, 0x003, 0x004, 0x005, 0x010, 0x011, 0x020, 0x021, 0x030, 0x031, 0x040, 0x041,
      0x050, 0x060, 0x061, 0x070, 0x080, 0x081] : List (BitVec 12)) ∧ ¬(0x100 ≤ (0x006 : BitVec 12).toNat) ∧
    ¬((0x110 : BitVec 12).toNat ≤ 0x10F) ∧ (at0 fun c => { c with pl := true }).here.pl = true ∧
    State.reset.here.pl = false := by decide

theorem test_witness_PlaceAndRollForms :
    (State.reset.reg 15).getLsbD 63 = false ∧ (0x8000000000010000 : Word).extractLsb' 16 9 ≠ 0 ∧
    (0x8000000000000100 : Word).getLsbD 63 = true ∧ (0x8000000000000100 : Word).extractLsb' 16 9 = 0 := by decide

theorem test_witness_FloatExactAndCompareForms :
    (0x7F800001 : BitVec 32).extractLsb' 23 8 = 0xFF ∧ (0x7F800001 : BitVec 32).extractLsb' 0 23 ≠ 0 ∧
    (0x7F800000 : BitVec 32).extractLsb' 0 23 = 0 ∧ fpOperand false 0x7F800001 = .nan ∧
    fpOperand false 0 ≠ .nan ∧ (0x7FF0000000000001 : Word).extractLsb' 52 11 = 0x7FF ∧
    (0x7FF0000000000001 : Word).extractLsb' 0 52 ≠ 0 ∧ (0x7FF0000000000000 : Word).extractLsb' 0 52 = 0 := by decide

/-! ### Witnesses: memory, atomics, flags and lines -/

/-- A machine whose one parish owns core 0, with object 2 of 4 KiB: its entry has the state and rights given, and its extent
the descriptor given. Thread 0 has the context given. -/
def world (state : Nat) (rights : Word) (d : Word) (c : Slot) : State :=
  { State.reset with owner := [(0, 1)], slots := [(0, c)], parishes := [(0, { present := true, chips := 1 })],
                     objs := [(objKey 0 0 2, ⟨packObj 0 state false 4096, rights, 0x1000⟩)],
                     exts := [(extKey 0 0 0x1000, d)] }

/-- A running thread with a window of 128 bytes, whose x1 holds `a` and x2 holds `b`. -/
def running (a b : Word) : Slot :=
  { state := .ready, wsize := 128, x := ((Vector.replicate 15 0).set 1 a).set 2 b }

/-- The last 8 bytes of object 2, and the first byte after it. -/
def lastWord : Word := 0x20000000FF8
def pastEnd : Word := 0x20000001000

/-- Byte 0 of core 0 as a place, and byte 0x100. -/
def place0 : Word := placeOf 0 0
def place256 : Word := placeOf 0 0x100

theorem test_witness_HandleChecks_ok : let s := world 1 0x1F (localDesc 1) (running lastWord 7)
    isPlace lastWord = false ∧ (s.slot 0).state ≠ .parked (.moving (handleObj lastWord)) ∧ lastWord.toNat % 8 = 0 ∧ handleObj lastWord ≠ 0 ∧
    (s.obj 0 0 2).state = 1 ∧ handleOff lastWord + 8 ≤ (s.obj 0 0 2).length ∧ (s.obj 0 0 2).has rW = true ∧
    s.residency 0 0 2 (handleOff lastWord) = .here (hbmByte 0 (2 ^ 21 + 0xFF8)) := by decide

theorem test_witness_HandleChecks_fail : let s (st : Nat) (r d : Word) := world st r d (running 0 0)
    (lastWord + 1).toNat % 8 ≠ 0 ∧ ¬ handleOff pastEnd + 8 ≤ ((s 1 0x1F 0).obj 0 0 2).length ∧
    ((s 0 0x1F 0).obj 0 0 2).state = 0 ∧ ((s 1 0 0).obj 0 0 2).has rR = false ∧ ((s 2 0x1F 0).obj 0 0 2).state = 2 ∧
    ((s 3 0x1F 0).obj 0 0 2).state = 3 ∧ ((s 4 0x1F 0).obj 0 0 2).state = 4 ∧ 4 < ((s 5 0x1F 0).obj 0 0 2).state ∧
    (s 1 0x1F 0).residency 0 0 2 0 = .unbacked ∧ (s 1 0x1F movingDesc).residency 0 0 2 0 = .moving ∧
    (s 1 0x1F (remoteDesc 9)).residency 0 0 2 0 = .owned 9 := by decide

theorem test_witness_HandleChecks_trap : (world 0 0 0 (running lastWord 7)).checkScalar 0 lastWord 8 8 rR false =
    .trap 0x07 lastWord ∧ lastWord.toNat % 8 = 0 := by decide

/-- The forms of CAS2, CAS4 and CHASE: x2 names an operand block, and offsets for a CHASE. -/
theorem test_witness_HandleChecks_blocks : let s := world 0 0 0 (running lastWord 8)
    s.here.wf = false ∧ (s.reg 2).toNat % 8 = 0 ∧ s.heldBack 0 false (s.localRange 0 ((s.reg 2).toNat % s.here.span) 64) = none ∧
    (9 : Word).toNat % 8 ≠ 0 ∧ s.checkScalar 0 lastWord 8 8 rA false = .trap 0x07 lastWord := by decide

/-- The accesses of LoadsRequest, StoresPost and AtomicsRequest through a handle and through a place. -/
theorem test_witness_Admits : let s := world 1 0x1F (localDesc 1) (running lastWord 7)
    Admits s lastWord 8 8 rR false (.byte (hbmByte 0 (2 ^ 21 + 0xFF8))) ∧ Admits s lastWord 8 8 rW true
      (.byte (hbmByte 0 (2 ^ 21 + 0xFF8))) ∧ Admits s place256 32 32 rA false (.byte 0x100) ∧
    Admits s place256 16 16 rA false (.byte 0x100) ∧ Admits s place256 4 4 rA true (.byte 0x100) ∧
    Admits s (place256 + 8) 8 8 rA false (.byte 0x108) := by
  refine ⟨⟨?_, ?_, ?_⟩, ⟨?_, ?_, ?_⟩, ⟨?_, ?_, ?_⟩, ⟨?_, ?_, ?_⟩, ⟨?_, ?_, ?_⟩, ⟨?_, ?_, ?_⟩⟩ <;> decide

theorem test_witness_StoresPost : let s := world 1 0x1F (localDesc 1) (running lastWord 7)
    Releases s ∧ s.parcelAt 0 lastWord = none ∧
    s.reg 0 = 0 ∧ s.reg 2 ≠ 0 ∧ s.here.wf = false ∧ s.checkFlag 0 0 (s.flagPlace 0 0) true = .ok (.byte 0) := by
  refine ⟨⟨?_, ?_, ?_, ?_⟩, ?_⟩ <;> decide

/-- A posted write of thread 0 to eight bytes of its window. -/
def posting (pa : Nat) : Access :=
  { req := .store (bytesAt 0 8 0), target := .byte pa, addr := placeOf 0 pa, thread := 0, parish := 0, src := 0, dst := 0,
    channel := false, seq := 1, posted := true }

/-- A posted add of thread 0 to them. -/
def adding (pa : Nat) : Access := { posting pa with req := .amo 0 3 1 }

theorem test_witness_StoresPost_waits :
    let s := { world 1 0x1F (localDesc 1) (running lastWord 7) with accesses := [(5, posting 120)] }
    s.released 0 = false ∧ Admits s lastWord 8 8 rW true (.byte (hbmByte 0 (2 ^ 21 + 0xFF8))) := by
  refine ⟨?_, ?_, ?_, ?_⟩ <;> decide

theorem test_witness_StoresPost_parcel :
    let s := { world 1 0x1F (localDesc 1) (running lastWord 7) with
                 objs := [(objKey 0 0 2, ⟨packObj 0 1 true 4096, 0x1F, 0x1000⟩)] }
    s.parcelAt 0 lastWord = some 2 ∧ parcelStore 2 (s.obj 0 0 2).length 0 = some 0 ∧
    parcelStore 2 (s.obj 0 0 2).length 7 = none := by decide

theorem test_witness_LocalAccesses : let s := world 1 0x1F (localDesc 1) (running 120 7)
    s.here.wf = false ∧ (s.reg 1).toNat % 8 = 0 ∧ Unhindered s true (consecutive (s.local s.cur 120) 8) ∧
    Unhindered s false (consecutive (s.local s.cur 120) 8) ∧ Unwatched s (consecutive (s.local s.cur 120) 8) ∧
    s.lineEmpty (lineOf (s.local s.cur 120)) = false ∧ ({ s with empty := [0] }).lineEmpty 0 = true := by
  refine ⟨rfl, by decide, ⟨rfl, rfl, rfl, by decide⟩, ⟨rfl, rfl, rfl, by decide⟩, ?_, by decide, by decide⟩
  intro n w hw
  cases hw

theorem test_witness_LocalAccesses_waits : let s := world 1 0x1F (localDesc 1) (running 120 7)
    ({ s with accesses := [(5, adding 120)] }).heldBack 0 false (consecutive 120 8) = some 5 ∧
    ({ s with accesses := [(5, posting 120)] }).heldBack 0 true (consecutive 120 8) = some 5 ∧
    s.here.ih = false ∧ s.local 0 120 = 120 ∧ ({ s with errors := [(15, 2)] }).errorIn 120 1 = 2 ∧
    ({ s with errors := [(15, 2)] }).heldBack 0 false (consecutive 120 8) = none := by decide

theorem test_witness_LoadsRequest : let s := world 1 0x1F (localDesc 1) (running place256 7)
    let target := Target.byte 0x100
    Admits s place256 8 8 rR false target ∧ loadHeld s (.ok target) 8 = none ∧
    Admits { s with accesses := [(5, adding 256)] } place256 8 8 rR false target ∧
    loadHeld { s with accesses := [(5, adding 256)] } (.ok target) 8 = some 5 := by
  refine ⟨⟨?_, ?_, ?_⟩, ?_, ⟨?_, ?_, ?_⟩, ?_⟩ <;> decide

theorem test_witness_AtomicsRequest : let s := world 1 0x1F (localDesc 1) (running place256 8)
    s.here.wf = false ∧ (s.reg 2).toNat % 8 = 0 ∧ shadowReg 2 = false ∧ ((s.reg 2).extractLsb' 0 8).toNat % 8 = 0 ∧
    ((s.reg 2).extractLsb' 8 8).toNat % 8 = 0 ∧ Unhindered s false (s.localRange s.cur ((s.reg 2).toNat % s.here.span) 32) ∧
    Unhindered s false (s.localRange s.cur ((s.reg 2).toNat % s.here.span) 64) := by
  refine ⟨rfl, ?_, ?_, ?_, ?_, ⟨rfl, rfl, rfl, ?_⟩, ⟨rfl, rfl, rfl, ?_⟩⟩ <;> decide

/-- An access of thread 0 at its node. -/
def access (r : Req) : Access :=
  { req := r, target := .byte 0x100, addr := place256, thread := 0, parish := 0, src := 0, dst := 0, channel := false, seq := 1,
    posted := false, dest := 3, dest2 := 4 }

/-- A packet that stands at node 0. -/
def packet (p : Payload) : Packet :=
  { payload := p, cls := .request, parish := 0, epoch := 0, src := 0, dst := 0, channel := false, loc := .delivered }

/-- A machine with access 5, carried by packet 7. -/
def carrying (r : Req) (p : Payload) (c : Slot) : State :=
  { world 1 0x1F (localDesc 1) c with accesses := [(5, access r)], packets := [(7, packet p)], nextId := 8 }

theorem test_witness_ReeveOperations : let s := carrying (.cas 8 0 9) (.request 5) (running 0 0)
    Arrived s 7 5 (packet (.request 5)) (access (.cas 8 0 9)) ∧ s.targetByte (access (.cas 8 0 9)).target = some 0x100 ∧
    s.nodes = [] ∧ (∀ n, (s.node n).watches = []) ∧ raceMode (s.slot 0).race = 0 ∧
    s.firstEmpty (consecutive 0x100 8) = none ∧ ({ s with empty := [2] }).firstEmpty (consecutive 0x100 8) = some 2 ∧
    (let q := s.storeLE 0x110 8 3
     ringOf q 0x100 = some (0, 0, 4) ∧ ringOf (q.storeLE 0x108 8 4) 0x100 = some (0, 4, 4) ∧
      ringOf (s.storeLE 0x110 8 4) 0x100 = none) ∧
    s.lineEmpty (lineOf 0x100) = false ∧ s.bytes (consecutive 0x100 8) = littleEndian (0 : Word) 8 ∧
    s.bytes (consecutive 0x100 8) ≠ littleEndian (1 : Word) 8 ∧ ({ s with empty := [2] }).lineEmpty (lineOf 0x100) = true := by
  refine ⟨⟨rfl, rfl, rfl, rfl, rfl, ?_, ?_, ?_, ?_, rfl, rfl, rfl⟩, ?_, rfl, fun _ => rfl, ?_⟩ <;> decide

theorem test_witness_RepliesLand : let c : Slot := { running 0 0 with state := .parked (.reply 5) }
    let s := carrying (.load 8) (.reply 5) c
    Delivered s 7 (packet (.reply 5)) (.reply 5) ∧ s.access? 5 = some (access (.load 8)) ∧
    (s.slot 0).state = .parked (.reply 5) ∧ (s.slot 0).ih = false ∧
    parcelLoad 2 4096 (extend 8 false (wordOfBytes (applyOverlay [0, 0, 0, 0, 0, 0, 0, 0] []))) = some 0 := by
  refine ⟨⟨rfl, rfl, rfl⟩, ?_⟩; decide

theorem test_witness_AnswersComeHome : let c : Slot := { running 0 0 with state := .parked (.reply 5) }
    let s := carrying (.load 8) (.ack 5) c
    s.access? 5 = some (access (.load 8)) ∧ (access (.load 8)).op = 0 ∧ (access (.load 8)).performed = false ∧
    (access (.load 8)).refused = false ∧ (access (.load 8)).resends < 8 ∧ (access (.load 8)).group = 0 ∧
    ({ access (.load 8) with resends := 8 }).group = 0 ∧ (AMap.get {} s.groups 0).sealed = false ∧ s.saved = [] ∧
    (access (.load 8)).reader = .thread ∧ (s.slot 0).ih = false ∧ s.inProgress 5 = false ∧
    ({ s with packets := [(7, { packet (.request 5) with loc := .waitingTurn })] }).inProgress 5 = true := by decide

theorem test_witness_AnswersComeHome_packets :
    Delivered (carrying (.load 8) (.ack 5) {}) 7 (packet (.ack 5)) (.ack 5) ∧
    Delivered (carrying (.load 8) (.busy 5) {}) 7 (packet (.busy 5)) (.busy 5) ∧
    Delivered (carrying (.load 8) (.report 5) {}) 7 (packet (.report 5)) (.report 5) :=
  ⟨⟨rfl, rfl, rfl⟩, ⟨rfl, rfl, rfl⟩, ⟨rfl, rfl, rfl⟩⟩

theorem test_witness_FlagAndLineForms : let s := world 1 0x1F (localDesc 1) (running place256 0)
    isPlace place256 = true ∧ s.checkFlag 0 0 place256 true = .ok (.byte 0x100) ∧
    s.checkFlag 0 0 place256 false = .ok (.byte 0x100) ∧ isPlace (s.reg 2) = false ∧ s.here.wf = false ∧
    (s.reg 2).toNat % 128 = 0 ∧ place256.toNat % 128 = 0 ∧ s.outr 0 < Config.requestWindow ∧
    s.outw 0 < Config.writeWindow ∧ s.released 0 = true ∧ s.here.unreachable = none ∧ s.here.linkLost = none ∧
    s.here.writeError = none ∧ s.checkPlace 0 0 place256 256 true = none ∧ s.checkPlace 0 0 place256 128 true = none ∧
    (at0 fun c => { c with wf := true }).here.wf = true := by decide

theorem test_witness_FlagsAtHome : let s := carrying (.waitFor 3 false) (.request 5) (running 0 0)
    Arrived s 7 5 (packet (.request 5)) (access (.waitFor 3 false)) ∧ s.targetByte (.byte 0x100) = some 0x100 ∧
    (s.node (homeOfByte 0x100).1).watches = [] ∧ s.loadLE 0x100 8 < 3 ∧ (packet (.request 5)).dst = nodeOfThread 0 ∧
    (s.setByte 0x100 3).loadLE 0x100 8 = 3 ∧ 3 < (s.setByte 0x100 4).loadLE 0x100 8 := by
  refine ⟨⟨rfl, rfl, rfl, rfl, rfl, ?_, ?_, ?_, ?_, rfl, rfl, rfl⟩, ?_⟩ <;> decide

theorem test_witness_FlagsAtHome_wake :
    let c : Slot := { running 0 0 with state := .parked .wake, wait := some ⟨5, place256, 3, false, false, []⟩ }
    let s := carrying (.waitFor 3 false) (.wake 0 5 false []) c
    s.slots.find? (fun e => e.2.wait.any fun w : RegWait => w.id == 5) = some (0, c) ∧ s.slot 0 = c ∧
    raceMode c.race = 0 ∧ c.ih = false ∧ Delivered s 7 (packet (.wake 0 5 false [])) (.wake 0 5 false []) := by
  refine ⟨by decide, by decide, by decide, by decide, rfl, rfl, rfl⟩

/-- The same for a context whose record stands at byte 0x8000. -/
theorem test_witness_FlagsAtHome_saved :
    let c : Slot := { running 0 0 with wait := some ⟨5, place256, 3, false, false, []⟩ }
    let s := { carrying (.waitFor 3 false) (.wake 0 5 false []) {} with saved := [(0x8000, c)] }
    (s.slots.find? fun e => e.2.wait.any fun w : RegWait => w.id == 5) = none ∧
    s.saved.find? (fun e => e.2.wait.any fun w : RegWait => w.id == 5) = some (0x8000, c) ∧
    Delivered s 7 (packet (.wake 0 5 false [])) (.wake 0 5 false []) := by
  refine ⟨by decide, by decide, rfl, rfl, rfl⟩

/-- A wayfarer of thread 0. -/
def wayfarer (home : Bool) : Wayfarer :=
  { thread := 0, pc := 4, x := Vector.replicate 15 0, preds := 0, pl := false, ppl := false, wbase := 0, wsize := 128,
    task := 0, member := 0, parish := 0, word := 0, access := none, from' := 0, homeward := home, race := {}, evicted := false }

theorem test_witness_WayfarerForms : let s := { world 1 0x1F (localDesc 1) (running (placeOf 1 0) 0) with
      owner := [(0, 1), (1, 1)] }
    s.here.home = none ∧ s.here.carried = none ∧ s.checkWander 0 (s.reg 1 &&& ~~~(0xFFFF : Word)) 1 = none ∧ Releases s ∧ placeCore 0 (s.reg 1) ≠ coreOfThread 0 ∧
    s.checkWander 0 place0 1 = none ∧ placeCore 0 place0 = coreOfThread 0 ∧ (s.core 1).arrivals.length < 4 ∧ s.here.wf = false ∧
    s.checkWander 0 (s.reg 1) 8 = none ∧ (s.reg 1).toNat % 8 = 0 := by
  refine ⟨?_, ?_, ?_, ⟨?_, ?_, ?_, ?_⟩, ?_⟩ <;> decide

/-- A wayfarer in slot 6 that carries its access to the first word of its core. -/
theorem test_witness_WayfarerForms_carried :
    let s := { (at0 id) with cur := 6, owner := [(0, 1)], parishes := [(0, { present := true, chips := 1 })],
                             slots := [(6, { running 0 0 with wf := true, home := some 9, carried := some (place0, 7) })] }
    s.here.carried = some (place0, 7) ∧ s.checkWander 6 place0 8 = none ∧ Releases s ∧
    placeCore (chipOfThread 6) place0 = coreOfThread 6 ∧ Admits s place0 8 8 rR false (.byte 0) ∧
    loadHeld s (.ok (.byte 0)) 8 = none ∧ Admits s place0 8 8 rW true (.byte 0) := by
  refine ⟨rfl, ?_, ⟨?_, rfl, rfl, rfl⟩, ?_, ⟨?_, ?_, ?_⟩, ?_, ⟨?_, ?_, ?_⟩⟩ <;> decide

theorem test_witness_WayfarerForms_arrival :
    let s := { carrying (.load 8) (.wayfarer (wayfarer false)) {} with cores := [(0, { arrivals := [.reserved 0] })] }
    Delivered s 7 (packet (.wayfarer (wayfarer false))) (.wayfarer (wayfarer false)) ∧
    (List.range 16).find? (fun i => (s.core (0 * 16 + i)).arrivals.contains (.reserved (wayfarer false).from')) = some 0 ∧
    raceMode (s.slot 0).race = 0 ∧ (s.slot 6).state = .free ∧ (wayfarer false).access = none ∧
    ({ wayfarer false with access := some (place0, 7) }).access = some (place0, 7) ∧
    ({ s with cores := [(0, { arrivals := [.landed (wayfarer false)] })] }).core 0 =
      { arrivals := [.landed (wayfarer false)] } ∧ (at0 fun c => { c with home := some 9 }).here.home = some 9 := by
  refine ⟨⟨rfl, rfl, rfl⟩, ?_⟩; decide

/-! ### Witnesses: commands, tiles, lent slots, tasks and passes -/

/-- A thread with tile 0 mapped on block 0, shaped as 16 rows of 16 f32 elements. -/
def tiled (a b : Word) : Slot :=
  { running a b with tiles := (Vector.replicate 12 {}).set 0 ⟨0, true, false⟩,
                     shapes := (Vector.replicate 12 0).set 0 (BitVec.ofNat 64 (2 + 16 * 32 + 16 * 1024)) }

/-- A machine with the word of KAND at window offset 0 of thread 0. -/
def commanded : State := (world 1 0x1F (localDesc 1) (tiled 0 0)).setBytes (bytesAt 31 1 0x40)

/-- An operation of thread 0 on the Lane engine of core 0, for a word. -/
def op (w : Command) : EngOp := { (State.newOp (world 1 0x1F (localDesc 1) (tiled 0 0)) 0 w .tx 0) with
  state := .running, checked := true, preds := some (Vector.replicate 16 0) }

/-- A sequence entry of one command at offset 0, with operation 5. -/
def entry : SeqEntry :=
  { offset := 0, words := [0], data := [[]], index := 0, op := 5, fm := 0, sa := 0, sb := 0, seed := 0, seedh := 0, race := 0,
    stamp := {}, fence := [], joined := false, rounds := [0] }

theorem test_witness_CommandsIssue : let s := commanded
    s.here.wf = false ∧ s.here.state.queued? = none ∧ ((s.reg 1) + 0).toNat % 32 = 0 ∧ s.fetchEmpty 0 0 1 = none ∧
    s.queueFull 0 .lane = false ∧ s.here.seqs.length < 4 ∧ (s.here.seqs.all fun q => q.offset != 0) = true ∧
    (s.reg 1 + 1).toNat % 32 ≠ 0 ∧ s.here.txs = [] ∧ s.here.seqs = [] ∧ s.here.fork = none ∧
    Unhindered s false (s.fetchBytes 0 0 1) := by
  refine ⟨rfl, rfl, ?_, ?_, ?_, ?_, rfl, ?_, rfl, rfl, rfl, rfl, rfl, rfl, ?_⟩ <;> decide

theorem test_witness_CommandsIssue_full :
    let s := { at0 fun c => { c with wsize := 128, seqs := List.replicate 4 entry } with ops := [(5, op 0)] }
    s.here.wf = false ∧ s.here.fork = none ∧ s.fetchEmpty 0 32 1 = none ∧ Unhindered s false (s.fetchBytes 0 32 1) ∧
    4 ≤ s.here.seqs.length ∧ ∀ q ∈ s.here.seqs, ∃ o, s.op? q.op = some o ∧ o.faulted = false := by
  refine ⟨rfl, rfl, by decide, ⟨rfl, rfl, rfl, by decide⟩, by decide, ?_⟩
  intro q hq
  cases List.eq_of_mem_replicate hq
  exact ⟨op 0, rfl, rfl⟩

theorem test_witness_CommandsIssue_faulted :
    let s := { at0 fun c => { c with seqs := [entry], txs := [6] } with
                 ops := [(5, { op 0 with state := .suspended }), (6, { op 0 with offset := 32, state := .suspended })] }
    (∀ k ∈ s.here.txs, ∀ o, s.op? k = some o → o.offset ≠ 64 ∨ o.faulted = false) ∧
    ∀ q ∈ s.here.seqs, ∀ o, s.op? q.op = some o → q.offset ≠ 64 ∨ o.faulted = false := by
  refine ⟨?_, ?_⟩
  · intro k hk o ho
    cases List.mem_singleton.mp hk
    cases ho
    exact .inl (by decide)
  · intro q hq o _
    cases List.mem_singleton.mp hq
    exact .inl (by decide)

theorem test_witness_CommandsIssue_checked : let s := commanded
    decodeCommand (s.commandAt 0 0) = .ok (.kand (commandFields (s.commandAt 0 0))) ∧
    s.checkIssue { s.issueOp 0 (s.commandAt 0 0) .tq 0 with checked := true } (.kand (commandFields (s.commandAt 0 0))) =
      (s, none) := by
  set_option maxRecDepth 8000 in exact ⟨rfl, rfl⟩

theorem test_witness_CommandsIssue_join :
    let s := { at0 fun c => { c with seqs := [entry] } with ops := [(5, op 0)] }
    s.here.seqs = [entry] ∧ entry.offset = 0 ∧ s.op? entry.op = some (op 0) ∧ (op 0).faulted = false ∧
    ({ op 0 with state := .suspended }).faulted = true ∧ entry.joined = false := by decide

theorem test_witness_CommandsIssue_completed :
    let s := at0 fun c => { c with completed := [(some 0, {}), (none, {})] }
    (s.here.seqs.all fun q => q.offset != 0) = true ∧ s.here.completed.filter (·.1 == some 0) ≠ [] ∧
    s.here.completed.filter (·.1 == some 64) = [] := by decide

theorem test_witness_OperationsComplete :
    let o : EngOp := { op 0 with finished := true }
    let s := { at0 fun c => { c with state := .parked (.command 5), txs := [5] } with ops := [(5, o)] }
    s.op? 5 = some o ∧ o.finished = true ∧ o.outstanding = 0 ∧ o.state = .running ∧ o.saved = 0 ∧ o.origin = .tx ∧
    parkedOn (.command 5) (s.slot o.thread) = true ∧ ({ o with origin := .tq }).origin = .tq := by decide

theorem test_witness_TileRegisterForms : let s := world 1 0x1F (localDesc 1) (tiled 0 0)
    s.here.wf = false ∧ (s.here.tile 0).mapped = true ∧ (s.here.tile 1).mapped = false ∧
    shapeWordOk (BitVec.ofNat 64 (2 + 16 * 32 + 16 * 1024)) = true ∧ shapeWordOk 31 = false ∧
    Unhindered s false (consecutive (s.tileByte 0 0 0) 4) ∧ Unhindered s true (consecutive (s.tileByte 0 0 0) 4) ∧
    (∀ n, (s.node n).watches = []) ∧ s.lineEmpty (lineOf (s.tileByte 0 0 0)) = false ∧
    (elemOf (shapeOf (s.here.shape 0)).elem false).isSome = true ∧ (255 : Word).toNat < 16 * 16 ∧
    (shapeOf (s.here.shape 0)).rows = 16 ∧ (shapeOf (s.here.shape 0)).cols = 16 := by
  refine ⟨rfl, rfl, rfl, ?_, ?_, ⟨rfl, rfl, rfl, ?_⟩, ⟨rfl, rfl, rfl, ?_⟩, fun _ => rfl, ?_⟩ <;> decide

theorem test_witness_TileRegisterForms_park :
    let s := at0 fun c => { c with shapes := c.shapes.set 0 (BitVec.ofNat 64 (2 + 15 * 32 + 16 * 1024)) }
    (shapeOf (s.here.shape 0)).rows ≤ 120 / 8 ∧ 120 < 128 ∧ 119 / 8 < (shapeOf (s.here.shape 0)).rows := by decide

theorem test_witness_LentSlots :
    let s := at0 fun c => { c with state := .ready, borrowMode := true }
    s.here.wf = false ∧ s.here.borrowMode = true ∧ s.here.lent = none ∧ s.lowestFree 0 = some 1 ∧
    State.reset.here.borrowMode = false ∧ (at0 fun c => { c with lent := some 1 }).here.lent = some 1 ∧ 0 * 8 + 1 ≠ 0 ∧
    ({ State.reset with slots := (List.range 8).map fun i => (i, { state := .ready }) }).lowestFree 0 = none := by decide

/-- A task of one member that runs in thread 0. -/
def member : Member :=
  { node := 0, core := 0, slot := none, index := [], state := .running, triggered := false, wbase := 0, blocks := [], thread := 0 }

/-- What a reading of `n` zero bytes at an address has brought once it is whole. -/
def zeroReads (a : Word) (n : Nat) : List LineRead := (linePieces a n).map fun p => ⟨p.place, List.replicate p.len 0, none⟩

theorem test_witness_TaskForms :
    let s := { world 1 0x1F (localDesc 1) { running place0 place0 with task := 1, lent := some 1 } with
                 tasks := [(1, { live := true, members := [member] })] }
    Releases s ∧ (s.task s.here.task).members[s.here.member]? = some member ∧ isPlace (s.reg 2) = true ∧
    isPlace (s.reg 0) = false ∧ s.here.state.reading? = none ∧ s.here.lent = some 1 ∧
    s.checkPlace 0 0 (s.reg 2 &&& ~~~(0xFFFF : Word)) 1 true = none ∧ isPlace (s.reg 1) = true ∧
    s.checkScalar 0 (s.reg 1) 512 8 rR false = .ok (.byte 0) ∧ raceMode s.here.race = 0 ∧ s.submission s.nextId = {} ∧
    s.accesses = [] ∧ s.checkScalar 0 (s.reg 1 + 1) 512 8 rR false = .trap 0x05 (place0 + 1) := by
  refine ⟨⟨?_, rfl, rfl, rfl⟩, ?_⟩ <;> decide

theorem test_witness_TaskForms_read :
    let c : Slot := { running place0 place0 with state := .parked (.launch 6) }
    let s := { world 1 0x1F (localDesc 1) c with submissions := [(6, { reads := zeroReads place0 512 })] }
    c.state = .parked (.launch 6) ∧ Releases s ∧
    ({ s with accesses := [(5, adding 256)] }).released 0 = false ∧
    takeReads (s.submission 6).reads (linePieces (s.reg 1) 512) [] = .bytes (List.replicate 512 0) := by
  refine ⟨rfl, ⟨?_, rfl, rfl, rfl⟩, ?_, ?_⟩
  · decide
  · decide
  · set_option maxRecDepth 8000 in decide

theorem test_witness_TaskForms_away :
    let s := { world 1 0 0 { running 0 0 with home := some 9 } with slots := [(0, { running 0 0 with home := some 9 }), (9, { state := .held, lent := some 2 })] }
    Releases s ∧ s.here.home = some 9 ∧ (s.slot 9).lent = some 2 := by
  refine ⟨⟨?_, rfl, rfl, rfl⟩, ?_⟩ <;> decide

theorem test_witness_TaskForms_waits :
    let s := { world 1 0 0 (running 0 0) with accesses := [(5, { access (.store []) with posted := true })] }
    s.released 0 = false ∧ (at0 fun c => { c with unreachable := some 8 }).here.unreachable = some 8 ∧
    (at0 fun c => { c with linkLost := some 8 }).here.linkLost = some 8 ∧
    (at0 fun c => { c with writeError := some (0x16, 8) }).here.writeError = some (0x16, 8) ∧ (at0 fun c => c).released 0 = true := by decide

/-- A machine whose roll 0 of die 0 has its descriptor at the start of object 2, which also holds its pages; `w` waits. -/
def rolled (p : Option Pass) (w : Option PassSnapshot) (g : AMap Granary) : State :=
  { world 1 0x1F (localDesc 1) (tiled 0 0x100000000) with
      parishes := [(0, { present := true, chips := 1, rollTable := 2 })],
      dies := [(0, { rolls := [(0, { parish := some 0, running := p, waiting := w })] })],
      nodes := [(0, { granary := g })] }

/-- Its bytes. -/
def rollBytes : List Byte :=
  littleEndian (2 ^ 31 + 3 * 2 ^ 26 + 1 : Word) 8 ++ littleEndian (0x20000000000 : Word) 8 ++
    littleEndian (0x20000000000 : Word) 8 ++ littleEndian (128 : Word) 8 ++ List.replicate 32 0

/-- A snapshot of one page. -/
def snap : PassSnapshot :=
  { parish := 0, elem := 3, hd := 1, tokens := 1, npages := 1, kbase := 0x20000000000, vbase := 0x20000000000, stride := 128,
    sflag := 0, stage := 0, stamp := {}, thread := 0, user := true, fence := [] }

/-- A roll of one page. -/
def roll : RollDesc :=
  { elem := 3, hd := 1, tokens := 1, npages := 1, kbase := 0x20000000000, vbase := 0x20000000000, stride := 128, sflag := 0,
    stage := 0 }

theorem test_witness_PassAndPostForms_roll : let s := rolled none none []
    let rw := s.reg 1
    let rg := s.reg 2
    let desc := s.descriptorAt 0 rw
    s.here.state.reading? = none ∧ rw.extractLsb' 11 53 = 0 ∧ rg.extractLsb' 48 16 = 0 ∧ rg.extractLsb' 32 16 ≠ 0 ∧
    (s.here.tile 0).mapped = true ∧ s.rollFail 0 rw = none ∧ freeGranary (s.node 0) = some 0 ∧ isPlace desc = false ∧
    checkEntry (s.obj 0 0 (handleObj desc)) (handleObj desc) (handleOff desc) 64 rR true = none ∧
    s.checkResidency 0 0 (handleObj desc) (handleOff desc) desc false = .ok (.byte (hbmByte 0 (2 ^ 21))) ∧
    raceMode s.here.race = 0 ∧ s.submission s.nextId = {} ∧ s.accesses = [] ∧
    s.carillonFail 0 0 true roll.kbase roll.range = none ∧ s.carillonFail 0 0 true roll.vbase roll.range = none := by
  set_option maxRecDepth 8000 in decide

theorem test_witness_PassAndPostForms_come :
    let s := (rolled none none []).modSlot 0 fun c => { c with state := .parked (.launch 6) }
    let t := { s with submissions := [(6, { reads := [⟨0, rollBytes, none⟩] })] }
    t.here.state = .parked (.launch 6) ∧
    takeReads (t.submission 6).reads (linePieces (t.descriptorAt 0 (t.reg 1)) 64) [] = .bytes rollBytes ∧
    rollDesc (wordsOf 8 rollBytes) = some roll ∧ (t.roll (rollDie 0 (t.reg 1)) (rollNumber (t.reg 1))).waiting = none ∧
    (t.roll (rollDie 0 (t.reg 1)) (rollNumber (t.reg 1))).running = none ∧
    t.rollSubs (rollDie 0 (t.reg 1)) (rollNumber (t.reg 1)) = [] := by
  set_option maxRecDepth 8000 in decide

theorem test_witness_PassAndPostForms_wait :
    let s := rolled (some ⟨snap, 0, false, []⟩) (some snap) ((List.range 32).map fun i => (i, { state := .opened }))
    freeGranary (s.node 0) = none ∧ (s.roll (rollDie 0 (s.reg 1)) (rollNumber (s.reg 1))).waiting = some snap ∧
    (s.roll (rollDie 0 (s.reg 1)) (rollNumber (s.reg 1))).running = some ⟨snap, 0, false, []⟩ := by
  set_option maxRecDepth 8000 in decide

theorem test_witness_PassAndPostForms : let s := world 1 0x1F (localDesc 1) (running 0x20000000000 place0)
    isPlace (s.reg 1) = false ∧ handleOff (s.reg 1) = 0 ∧ s.posted 0 2 = false ∧ isPlace (s.reg 2) = true ∧
    (s.reg 2).toNat % 16 = 0 ∧ s.checkPlace 0 0 (s.reg 2) 16 false = none ∧ Releases s ∧
    checkEntry (s.obj 0 0 2) 2 0 0 rP true = none ∧
    ObjEntry.isParcel ⟨packObj 0 1 true 4096, 0x1F, 0x1000⟩ = true ∧ isPlace (s.reg 2) = true ∧
    (0x800 : Word).extractLsb' 11 53 ≠ 0 ∧ (0x7FF : Word).extractLsb' 11 53 = 0 ∧ (31 : Word).toNat < 32 ∧
    ({ s with nodes := [(0, { granary := [(31, { state := .opened })] })] }.granary 0 31).state ≠ .free ∧
    ({ s with nodes := [(0, { granary := [(31, { state := .opened })] })] }.granary 0 31).owner = s.here.task ∧
    (s.granary 0 31).state = .free ∧
    ({ s with nodes := [(0, { granary := [(31, { state := .opened, owner := 9 })] })] }.granary 0 31).owner ≠ s.here.task := by
  refine ⟨?_, ?_, ?_, ?_, ?_, ?_, ⟨?_, rfl, rfl, rfl⟩, ?_⟩ <;> decide

/-! ### Witnesses: tile commands as their engines run them -/

/-- Operation 7 of thread 0, which runs the command word `w` in core 0. -/
def runningOp (w : Command) : EngOp :=
  { State.newOp (world 1 0x1F (localDesc 1) (tiled 0 0)) 0 w .tx 0 with state := .running, checked := true,
                                                                                         preds := some (Vector.replicate 16 0) }

/-- A machine with that operation and with Granary slot 5 of node 0 as given. -/
def working (w : Command) (g : Granary) : State :=
  { world 1 0x1F (localDesc 1) (tiled 0 0) with
      ops := [(7, runningOp w)], curOp := 7, nodes := [(0, { granary := [(5, g)] })], nextId := 8 }

/-- Fields of a command on one row of tile 0, with addresses in the window and slot 5. -/
def fields (td : Field4) : TileFields :=
  { td := td, ta := 0, tb := 0, tc := 0, count := 1, imm32 := 0xFFFFFFFF, addr := 0x7FFFFF0000000000,
    flag := 0x7FFFFF0000000000, len := 5 }

/-- Its word, with the opcode given. -/
def wordOf (i : Instr) : Command := (encodeCommand i).getD 0

theorem running_op (w : Command) (g : Granary) (i : Instr) (h : decodeCommand w = .ok i) :
    Running (working w g) 7 (runningOp w) i :=
  ⟨rfl, rfl, rfl, rfl, rfl, rfl, h, rfl, rfl, rfl, rfl⟩

/-- LaneResults, SelectAndPredicates, ReductionResults, LoomProducts, EngineTransfers, AttentionResults and
CommandFramesAndFaults: a command of each shape runs. -/
theorem test_witness_Running :
    Running (working (wordOf (.radd (fields 0))) {}) 7 (runningOp (wordOf (.radd (fields 0)))) (.radd (fields 0)) ∧
    Running (working (wordOf (.rcmp (fields 0))) {}) 7 (runningOp (wordOf (.rcmp (fields 0)))) (.rcmp (fields 0)) ∧
    Running (working (wordOf (.rscan (fields 0))) {}) 7 (runningOp (wordOf (.rscan (fields 0)))) (.rscan (fields 0)) ∧
    Running (working (wordOf (.tmma (fields 0))) {}) 7 (runningOp (wordOf (.tmma (fields 0)))) (.tmma (fields 0)) ∧
    Running (working (wordOf (.tld (fields 0))) {}) 7 (runningOp (wordOf (.tld (fields 0)))) (.tld (fields 0)) ∧
    Running (working (wordOf (.gmrg (fields 0))) {}) 7 (runningOp (wordOf (.gmrg (fields 0)))) (.gmrg (fields 0)) := by
  set_option maxRecDepth 8000 in
  refine ⟨running_op _ _ _ ?_, running_op _ _ _ ?_, running_op _ _ _ ?_, running_op _ _ _ ?_, running_op _ _ _ ?_,
    running_op _ _ _ ?_⟩ <;> rfl

/-- The tiles of a command are in full lines, or in an empty one, as the same six statements ask. -/
theorem test_witness_Running_tiles : let s := working 0 {}
    let o := runningOp 0
    let f := fields 0
    s.tileEmpty o f.ta (s.rowCtx o f).rows = false ∧ s.rowsEmpty o f.ta (List.range (o.shape f.ta).rows) = false ∧
    s.rowsEmpty o f.td (s.loomCtx o f).rows = false ∧ s.tilesEmpty o [f.ta, f.tb] = false ∧ (rowRange f 16).isSome = true ∧
    s.scalesEmpty o f = false ∧ s.masksOk o f = true ∧ f.ta.toNat < 12 ∧
    ({ f with ta := 12 }).ta.toNat = 12 ∧ (f.imm32.extractLsb' 0 1) = 1 ∧
    ({ s with empty := [lineOf (o.tileByte 0 0 0)] }).tileEmpty o f.ta (s.rowCtx o f).rows = true := by
  set_option maxRecDepth 8000 in decide

theorem test_witness_EngineTransfers_moves : let s := working 0 {}
    let o := runningOp 0
    let f := fields 0
    let ld := moveCtx o f f.td (elemOr (codeD o.fm f.ed)).bytes
    let ps := (ld.pieces 0).filter fun p => decide (0 < p.place + p.len)
    let reads (x : Operand) : Nat := match s.readStream 7 x ps with
      | (_, .all _) => 0 | (_, .wait _) => 1 | (_, .fault ..) => 2
    let s1 := s.modOp 7 fun o => { o with out := some [(0, .store [(0, 1)])] }
    o.sent = 0 ∧ o.out = none ∧ o.resume = 0 ∧ f.td.toNat ≠ 12 ∧ (fields 12).td.toNat = 12 ∧
    reads (operandOf f.addr) = 0 ∧ reads (.far 0x20000000000) = 1 ∧ reads (.far 0x30000000000) = 2 ∧
    s1.extentsFail o (operandOf f.addr) (moveSpans f (o.shape f.ta) 4 1) = none ∧
    ({ s1 with exts := [] }.extentsFail o (.far 0x20000000000) (moveSpans f (o.shape f.ta) 4 1)).isSome = true ∧
    (match s1.writeChunks 7 (operandOf f.addr) f.flag false [(0, .store [(0, 1)])] with
      | .all _ => true | _ => false) = true := by
  set_option maxRecDepth 8000 in decide

theorem test_witness_EngineTransfers_copies : let s := working 0 {}
    let f := { fields 0 with addr := 0x7FFFFF0000000010, len := 8 }
    let o := { runningOp 0 with block := 0x7FFFFF0000000000 }
    let src := operandOf o.block
    let ps := (pieces 0 0 8 0 2).map fun p => Piece.mk p.1 p.1 p.2
    let ds := pieces 16 16 8 o.from' 2
    noSf f = true ∧ f.len.toNat = 8 ∧ (operandOf f.addr).base = 16 ∧ o.resume = 0 ∧
    (match copyPieces 7 8 src (operandOf f.addr) ps f.flag none (s.startPieces 7 src (ps.filter (wanted o ds))) none ds with
      | .all _ => true | _ => false) = true := by
  set_option maxRecDepth 8000 in decide

theorem test_witness_EngineTransfers_rows :
    let f := { fields 0 with addr := 0xC000000000000000, len := 0x00010008 }
    let o := { runningOp 0 with block := 0x7FFFFF0000000000, reads := [⟨0, List.replicate 8 0, none⟩] }
    let s := { working 0 {} with ops := [(7, o)] }
    let s1 := s.takeList 7 o f
    let o1 := (s1.op? 7).getD o
    gatherCount f = 1 ∧ gatherSize f = 8 ∧ s.listReady o f = true ∧ s1.op? 7 = some o1 ∧ s1.servedOrder o1 f = [(0, 0)] ∧
    s1.rowsFail o1 f = none ∧ (s1.rowsFail o1 { f with addr := 0xC00000000000D000 }).isSome = true ∧
    (match gatherRows f 7 s1 [(0, 0)] with | .all _ => true | _ => false) = true ∧
    (match scatterRows f 7 s1 0 [(0, 0)] with | .all _ => true | _ => false) = true := by
  set_option maxRecDepth 8000 in decide

theorem test_witness_EngineTransfers_schedule : let s := working 0 {}
    let o := runningOp 0
    (s.task o.task).unreleased + 5 ≤ 64 ∧ 64 < (s.task o.task).unreleased + 65 ∧ (s.task o.task).stage < 65 ∧ s.rounds = [] ∧
    o.data.length ≤ 1 ∧ s.roundBroken { task := o.task, level := 0, group := s.spireGroup o 0, number := 0 } 0 = false ∧
    (let x := operandOf (fields 0).addr
     let r := s.readStream 7 x (wholePieces x 5)
     (match r.2 with | .all _ => true | _ => false) = true ∧ r.1.rounds = [] ∧ r.1.opSlot o = s.opSlot o) := by
  set_option maxRecDepth 8000 in decide

theorem test_witness_AttentionResults :
    let g (st : GranaryState) : Granary := { state := st, first := 0, count := 2, next := 1 }
    let s (st : GranaryState) := working 0 (g st)
    (∀ st ∈ [GranaryState.opened, .failed, .joining, .full], (s st).heldSlot (runningOp 0) 5 = some (g st)) ∧
    (s .opened).tilesEmpty (runningOp 0) [0, 0] = false ∧ (g .opened).reorder = [] ∧
    0 < (g .opened).next ∧ (g .opened).first + (g .opened).count ≤ 2 ∧ 1 = (g .opened).next ∧
    1 < (g .opened).first + (g .opened).count ∧ (g .opened).check = 0 ∧ (runningOp 0).sent = 0 ∧
    (working 0 { g .opened with check := 2 }).heldSlot (runningOp 0) 5 = some { g .opened with check := 2 } := by
  set_option maxRecDepth 8000 in decide

/-- TMMA to tile 13, which is no tile: its check fails as the command starts. -/
theorem test_witness_CommandFramesAndFaults :
    let i := Instr.tmma (fields 13)
    let o := { runningOp (wordOf i) with checked := false, origin := .seq 0 }
    let s := { working (wordOf i) {} with ops := [(7, o)] }
    s.curOp = 7 ∧ s.op? 7 = some o ∧ o.state = .running ∧ o.finished = false ∧ o.fence = [] ∧ o.checked = false ∧
    o.origin = .seq 0 ∧ raceAtIssue i = false ∧ o.resume = 0 ∧ decodeCommand o.word = .ok i ∧ (s.checkIssue o i).2.isSome = true ∧
    o.preds.isSome = true ∧ s.queueBusy 7 o = false ∧ ({ o with preds := none }).preds = none := by
  set_option maxRecDepth 8000 in decide

/-! ### Witnesses: the mesh, resets, boot and tables -/

/-- A machine with packet 7 at the place given, bound for node `dst`. -/
def meshed (loc : Loc) (dst : Nat) (cls : Machine.Class) : State :=
  { State.reset with packets := [(7, { packet (.ack 5) with loc := loc, dst := dst, cls := cls })], nextId := 8 }

theorem test_witness_MeshSteps : let s (d : Nat) := meshed (.router 0) d .response
    let p (d : Nat) : Packet := { packet (.ack 5) with loc := .router 0, dst := d, cls := .response }
    (∀ d ∈ [0, 1, 3072], (s d).packet? 7 = some (p d) ∧ (s d).overtakes 0 7 (p d) = false ∧ ((s d).node d).inReset = false ∧
      chipOfNode d = chipOfNode 0) ∧ (s 0).portTo 0 (p 0) 0 = 5 ∧ (p 0).cls ≠ .multicast ∧ (p 0).sexton = false ∧
    neighbour 0 ((s 1).portTo 0 (p 1) 1) = some 1 ∧ dieOfNode 1 = dieOfNode 0 ∧ ((s 1).node 0).banks = [] ∧
    belfryOf 1511 = 1511 ∧ (s 0).portTo 1511 { p 0 with sexton := true } 0 = 4 ∧
    (let r : State := { s 1 with nodes := [(0, { banks := [(0, BitVec.ofNat 64 (3 * 2 ^ 62 + 127 * 2 ^ 41 + 255 * 2 ^ 25))] })] }
     r.portTo 0 (p 1) 1 = 0 ∧ neighbour 0 (r.portTo 0 (p 1) 1) = none) := by
  set_option maxRecDepth 8000 in decide

/-- Two adds to one address whose packets meet in the sending queue of node 47 toward node 3072. -/
theorem test_witness_MeshSteps_adds :
    let add : Access := { access (.amo 0 3 1) with posted := true, req := .amo 0 1 1 }
    let s : State := { meshed (.router 47) 3072 .request with
      accesses := [(5, add), (6, add)],
      packets := [(4, { packet (.request 5) with loc := .seam 47 1, dst := 3072, left := 1 }),
        (7, { packet (.request 6) with loc := .router 47, dst := 3072 })],
      chips := [(0, { gateways := [(gatewayKey 47 1, { queue := [4] })] })] }
    s.access? 5 = some add ∧ s.access? 6 = some add ∧ (s.gateway 47 1).queue = [4] ∧ addsCombine add add = true ∧
    addsCombine add { add with addr := 0 } = false ∧ (s.packet? 4).map (·.payload) = some (.request 5) ∧
    neighbour 47 1 = some 3072 ∧ dieOfNode 3072 ≠ dieOfNode 47 ∧ (s.packet? 7).map (fun p => s.portTo 47 p 3072) = some 1 ∧
    (s.packet? 7).map (fun p => s.overtakes 47 7 p) = some false := by
  set_option maxRecDepth 8000 in decide

theorem test_witness_MeshSteps_frames : let w := [(7, 1, 3), (8, 4, 1)]
    let s (n left port : Nat) : State := { State.reset with
      packets := [(7, { packet (.ack 5) with loc := .seam 47 port, dst := 3072, cls := .response, left := left })],
      chips := [(0, { gateways := [(gatewayKey 47 port, { queue := [7], failures := n })] })] }
    flitOf w 4 = some 8 ∧ flitOf w 1 = some 7 ∧ flitOf w 0 = none ∧ 3 % 8 ≠ 0 ∧ 8 % 8 = 0 ∧
    neighbour 47 1 = some 3072 ∧ ((s 0 1 1).gateway 47 1).failures < 15 ∧ 15 ≤ ((s 15 1 1).gateway 47 1).failures ∧
    ((s 0 3 1).packet? 7).map (·.loc) = some (.seam 47 1) ∧ ((s 0 3 1).gateway 47 1).failed = false ∧
    ((s 0 3 1).gateway 47 1).held = [] ∧ ((s 0 3 1).gateway 47 1).queue = [7] ∧ ((s 0 1 1).node 3072).inReset = false := by
  set_option maxRecDepth 8000 in decide

/-- The last report of a rewrite crosses the Belfry gateway. -/
theorem test_witness_MeshSteps_drained :
    let p : Packet := { packet (.drained 1511) with loc := .seam 1511 4, dst := 1511, cls := .control, left := 1, sexton := true }
    let s : State := { State.reset with
      packets := [(7, p)], nodes := [(1510, { swapping := true, reported := true }), (1511, { swapping := true })],
      chips := [(0, { gateways := [(gatewayKey 1511 4, { queue := [7] })] })] }
    s.packet? 7 = some p ∧ (s.gateway 1511 4).queue = [7] ∧ (s.nodes.map (·.1)).Nodup ∧ chipOfNode 1511 = 0 ∧
    ∀ x ∈ s.nodes, chipOfNode x.1 = 0 → x.2.swapping = true → x.1 = 1511 ∨ x.2.reported = true := by
  set_option maxRecDepth 8000 in decide

/-- A page for node 0 and node 1 at router 0: both branches are free, or a copy for the second stands in its place. -/
theorem test_witness_MeshSteps_multicast :
    let p (ds : List (Nat × Nat)) : Packet :=
      { packet (.page [5, 6] 0 []) with loc := .router 0, cls := .multicast, dsts := ds }
    let q : Packet := { p [(1, 6)] with via := some 0, loc := .router 1 }
    let s (l : List (Nat × Packet)) : State := { State.reset with packets := l, nextId := 8 }
    let a := s [(7, p [(0, 5)])]
    let b := s [(6, q), (7, p [(0, 5), (1, 6)])]
    let c := s [(6, q), (7, p [(1, 6)])]
    a.portTo 0 (p [(0, 5)]) 0 = 5 ∧ a.branchFree 0 7 5 = true ∧ a.behind 0 7 (p [(0, 5)]) = false ∧ (a.node 0).forks = [] ∧
    b.branches 0 (p [(0, 5), (1, 6)]) = [(1, [(1, 6)]), (5, [(0, 5)])] ∧ b.branchFree 0 7 1 = false ∧
    b.branchFree 0 7 5 = true ∧ c.branches 0 (p [(1, 6)]) = [(1, [(1, 6)])] ∧ c.branchFree 0 7 1 = false := by
  set_option maxRecDepth 8000 in decide

theorem test_witness_MeshSteps_swap : let s : State := { State.reset with nodes := [(0, { epoch := 1, swapping := true })] }
    let t : State := { s with packets := [(7, { packet (.ack 5) with loc := .router 1, cls := .response })] }
    let r : State := { s with nodes := [(0, { epoch := 1, swapping := true }), (1, { epoch := 1 })] }
    (State.reset.node 0).swapping = false ∧ (s.node 0).swapping = true ∧ 1 ∉ (s.node 0).drained ∧ neighbour 0 1 = some 1 ∧
    t.oldComing 0 1 1 = true ∧ (s.node 1).epoch < 1 ∧ (s.node 1).harvested = false ∧ s.oldComing 0 1 1 = false ∧
    r.oldComing 0 1 1 = false ∧ 1 ∈ meshPorts 0 ∧ r.packets = [] ∧ 4 ∈ meshPorts 1511 ∧ neighbour 47 1 = some 3072 ∧
    dieOfNode 3072 ≠ dieOfNode 47 ∧ dieOfNode 1 = dieOfNode 0 ∧ 1 ≤ (r.node 1).epoch ∧ 1 = ((State.reset.node 0).epoch + 1) % 2 ∧
    (∃ q ∈ meshPorts 0, q ∉ NSet.insert [] 1) ∧ (∀ q ∈ meshPorts 0, q ∈ NSet.insert [2] 1) ∧
    ({ s with parishes := [(0, { present := true })] } : State).parishes.length = 1 ∧ State.reset.parishes = [] := by
  set_option maxRecDepth 8000 in decide

/-- The marker of the link into node 0 by port 1 has come to its router. -/
theorem test_witness_MeshSteps_marker :
    let p : Packet := { packet (.drainMark 0 1) with loc := .router 0, cls := .control }
    let s : State := { State.reset with packets := [(7, p)], nodes := [(0, { epoch := 1, swapping := true })] }
    s.packet? 7 = some p ∧ p.loc = .router 0 ∧ p.payload = .drainMark 0 1 ∧ (s.node 0).swapping = true ∧
    1 ∉ (s.node 0).drained := by decide

theorem test_witness_ResetAndScrub : let c : Cluster := ⟨0, 0, 0, 0, 0, 1⟩
    clusterNodes c = [0, 1] ∧ clusterHas c (nodeOfCore 31) = true ∧ coreByte 31 65535 < hbmBase ∧ 262143 < 2 ^ 18 ∧
    State.reset.accesses = [] ∧ State.reset.countedAccess (access (.flagAdd 1)) = true ∧ 2 ∉ clusterNodes c ∧ chipOfCore 31 = 0 ∧ chipOfThread 255 = 0 ∧ State.reset.errors = [] ∧
    (State.reset.core 0).scrubLine = 0 ∧ coreByte 0 0 < hbmBase ∧ lineOf 8 = lineOf (coreByte 0 0) ∧
    0 ∈ wordsIn (coreByte 0 0) 128 ∧ lineOf (channelLine 0 0 0 + 8) = lineOf (channelLine 0 0 0) := by decide

/-- A boot image that reads, is well formed and names its harvested nodes. -/
def image : BootInput :=
  { flashReadable := true, selfTestOk := true, wellFormed := true, signed := [], rsaKey := [], slhKey := [], rsaSignature := [],
    slhSignature := [],
    fuseMapOk := true, harvested := [5], routes := [], routable := true }

/-- The chip of the reset machine with its state changed. -/
def chip0 (f : Chip → Chip) : State := State.reset.modChip 0 f

theorem test_witness_BootSteps_rom : (State.reset.chip 0).off = false ∧ (State.reset.chip 0).stage = 0 ∧
    { image with selfTestOk := false }.selfTestOk = false ∧ image.selfTestOk = true ∧
    { image with flashReadable := false }.flashReadable = false ∧ image.flashReadable = true ∧
    { image with wellFormed := false }.wellFormed = false ∧ image.wellFormed = true ∧ image.fuseMapOk = true ∧
    { image with fuseMapOk := false }.fuseMapOk = false ∧ image.routable = true ∧
    { image with routable := false }.routable = false := by decide

/-- The fuses' hash is a free value, and the verifications are long to run: either may hold. -/
theorem test_witness_BootSteps_rom_verified :
    (keysBound 0 image = true ∨ keysBound 0 image = false) ∧
    (Crypto.rsaVerifies image.rsaKey image.signed image.rsaSignature = true ∨
      Crypto.rsaVerifies image.rsaKey image.signed image.rsaSignature = false) ∧
    (Crypto.slhVerifies image.slhKey image.signed image.slhSignature = true ∨
      Crypto.slhVerifies image.slhKey image.signed image.slhSignature = false) :=
  ⟨Bool.eq_false_or_eq_true _, Bool.eq_false_or_eq_true _, Bool.eq_false_or_eq_true _⟩

theorem test_witness_BootSteps : let l : TrainingInput := ⟨1, 0, 3, true, 9⟩
    let s4 := chip0 fun c => { c with stage := 4 }
    let s5 := (chip0 fun c => { c with stage := 5, portReports := List.range 64 }).modPort 0 0 fun p =>
      { p with cfg := 0xC000000 }
    let p := { State.reset with parishes := [(3, { present := true, hostChip := 0 })] }
    (s4.chip 0).stage = 4 ∧ (s4.chip 0).failure = 0 ∧ 128 ∈ [2, 5, 8, 16, 32, 64, 128] ∧ 16 ∈ [4, 8, 16] ∧
    0 ∉ [2, 5, 8, 16, 32, 64, 128] ∧ 2 ≤ Nat.min (s5.port 0 0).offers l.peerVersion ∧ Nat.min 0 l.peerVersion < 2 ∧
    (s5.chip 0).stage = 5 ∧ (s5.chip 0).trains = true ∧ (s5.chip 0).off = false ∧
    ((chip0 fun c => { c with stage := 6 }).chip 0).stage = 6 ∧ (∃ i < 64, (s4.port 0 i).trained = false ∧ i ∉ (s4.chip 0).portReports) ∧
    ((chip0 fun c => { c with off := true }).chip 0).off = true ∧ (∀ i, i < 64 → i ≠ 0 → (s5.port 0 i).trained = true ∨ i ∈ (s5.chip 0).portReports) ∧
    2 ≤ (s5.chip 0).stage ∧ (s5.chip 0).vestryImage = [] ∧ p.pageLive 0 3 = true ∧ p.pageLive 0 4 = false ∧ (p.parish 3).jtail = 1 ∧
    ({ (p.parish 3) with jtail := 2 } : Parish).jtail ≠ 1 ∧ (0x103 : Word).getLsbD 8 = true ∧ (0x203 : Word).getLsbD 8 = false ∧
    (0x203 : Word).getLsbD 9 = true := by
  set_option maxRecDepth 8000 in decide

/-- A machine in which chip 0 has one change of object 2 to apply, or has applied it. -/
def changing (obj : Nat) (applied : NSet) (chips : NSet) (w : List Nat) : State :=
  { State.reset with
      changes := [(4, { change := .entry obj ⟨1, 2, 3⟩, chips := chips, applied := applied, waitFor := w })],
      chips := [(0, { changes := [4] })], nextId := 8,
      packets := [(7, { packet (.change [5] 4) with cls := .multicast, dsts := [(0, 5)] })],
      accesses := [(5, access (.tableChange 4))] }

theorem test_witness_TableSteps : let s := changing 2 [] [0] []
    s.changePacket 0 4 = some (7, 5) ∧ s.changePacket 0 3 = none ∧ 7 < s.nextId ∧
    (({ s with chips := [(0, { changes := [3, 4] })] } : State).chip 0).changes = 3 :: [4] ∧ (3 : Nat) ≠ 4 ∧
    ObjEntry.state ⟨packObj 0 1 false 8, 2, 3⟩ = 1 ∧ ObjEntry.state ⟨0, 2, 3⟩ = 0 ∧ (s.chip 0).changes = [4] ∧ (AMap.get {} s.changes 4).change = .entry 2 ⟨1, 2, 3⟩ ∧ (2 : Nat) ≠ 1 ∧
    (AMap.get {} (changing 1 [] [0] []).changes 4).change = .entry 1 ⟨1, 2, 3⟩ := by decide

theorem test_witness_TableSteps_acknowledge :
    let v (chips : NSet) (w : List Nat) : ChangeState := AMap.get {} (changing 2 [0] chips w).changes 4
    let s := { changing 2 [0] [0] [5] with accesses := [(5, access (.load 8))] }
    0 ∈ (v [0] []).applied ∧ 0 ∉ (v [0] []).acknowledged ∧ 5 ∈ (v [0] [5]).waitFor ∧
    s.access? 5 = some (access (.load 8)) ∧ chipOfNode (access (.load 8)).src = 0 ∧ (∀ id ∈ (v [0] []).waitFor, id = 0) ∧
    (∃ k ∈ (v [0, 1] []).chips, k ≠ 0 ∧ k ∉ (v [0, 1] []).acknowledged) ∧
    (∀ k ∈ (v [0] []).chips, k = 0 ∨ k ∈ (v [0] []).acknowledged) ∧ s.transits = [] := by decide

/-- The reply store is full as the change comes, and a thread is held on an extent of its object. -/
theorem test_witness_TableSteps_held :
    let s : State := { changing 2 [] [0] [] with
      nodes := [(vestryNode 0, { replies := List.replicate 512 (0, 0, 0) })],
      slots := [(3, { state := .parked (.moving 2) })] }
    let t : State := { changing 2 [0] [0] [] with
      changes := [(4, { change := .entry 2 ⟨1, 2, 3⟩, chips := [0], applied := [0], held := [3] })], slots := s.slots }
    s.changeRefused 0 5 = some (access (.tableChange 4)) ∧ (changing 2 [] [0] []).changeRefused 0 5 = none ∧
    s.heldOn 0 (.entry 2 ⟨1, 2, 3⟩) = [3] ∧ 3 ∈ (AMap.get {} t.changes 4).held ∧ chipOfThread 3 = 0 ∧
    (t.slot 3).state.movingOn? = some 2 ∧ (AMap.get {} (changing 2 [0] [0] []).changes 4).held = [] := by
  set_option maxRecDepth 8000 in decide

theorem test_witness_TableSteps_caches :
    let c (pc : Word) : Slot := { running 0 0 with state := .parked .code, pc := pc }
    let s := world 1 0x1F (localDesc 1) (c 0x20000000000)
    let full : State := { s with accesses := (List.range 8).map fun i => (i, access (.load 8)) }
    let w : State := { s with packets := [(7, { packet (.request 5) with loc := .waitingExtent })],
                              accesses := [(5, access (.load 8))], nodes := [(0, { fetching := [8, 9] })] }
    s.fetch 0 = .miss ∧ s.residency 0 0 2 0 = .here (hbmByte 0 (2 ^ 21)) ∧
    (world 1 0x1F (localDesc 1) (c 1)).fetch 0 = .trap 0x05 ∧ (s.slot 0).state = .parked .code ∧
    (at0 fun c => { c with state := .parked (.moving 2) }).here.state.movingOn? = some 2 ∧ 9 ∈ (w.node 0).fetching ∧
    8 = 2 * 4 ∧
    9 = 2 * 4 + 1 ∧ 8 ∈ (w.node 0).fetching ∧ (∀ e ∈ s.accesses, e.2.reader ≠ .fill 0) ∧ s.outr 0 < Config.requestWindow ∧
    s.checkResidency 0 0 2 0 0x20000000000 false = .ok (.byte (hbmByte 0 (2 ^ 21))) ∧
    Config.requestWindow ≤ full.outr 0 ∧ full.fetch 0 = .miss ∧ (∀ e ∈ full.accesses, e.2.reader ≠ .fill 0) ∧
    (packet (.request 5)).payload = .request 5 ∧ (access (.load 8)).thread = 0 ∧ w.access? 5 = some (access (.load 8)) := by
  set_option maxRecDepth 8000 in decide

theorem test_witness_TableSteps_fill :
    let a : Access := { access (.load 128) with reader := .fill 0, addr := 0x20000000000 }
    let s : State := { world 1 0x1F (localDesc 1) { running 0 0 with state := .parked .code, pc := 0x20000000000 } with
      accesses := [(5, a)], packets := [(7, packet (.reply 5))] }
    Delivered s 7 (packet (.reply 5)) (.reply 5) ∧ s.access? 5 = some a ∧ a.reader = .fill 0 ∧ a.thread = 0 ∧ a.trap = none ∧
    (s.slot 0).state = .parked .code := by
  refine ⟨⟨rfl, rfl, rfl⟩, rfl, rfl, rfl, rfl, by decide⟩

theorem test_witness_TableSteps_issue :
    let line : List Byte := [0, 0, 16, 1] ++ List.replicate 124 0
    let s : State := { world 1 0x1F (localDesc 1) { running 0 0 with state := .parked .code, pc := 0x20000000000 } with
      nodes := [(0, { codeCache := [(objKey 0 0 2, 0, line)] })] }
    s.fetch 0 = .word 0x01100000 := by
  set_option maxRecDepth 8000 in decide

/-! ### Witnesses: tasks, contexts, tolls, passes and rounds -/

/-- The 64 words of a record of one member, version 1, entry at object 2, and a window of `wsize` bytes. -/
def record (wsize : Nat) : List Word := BitVec.ofNat 64 (1 + wsize * 2 ^ 24) :: 0x20000000000 :: List.replicate 62 0

/-- Submission 9 of that record from thread 0, with home core 0. -/
def submission (wsize : Nat) : Submission :=
  { parish := 0, record := 0x20000000000, home := place0, thread := some 0, dest := 3, words := record wsize }

def submitted (wsize : Nat) : State :=
  { world 1 0x1F (localDesc 1) (running 0 0) with submissions := [(9, submission wsize)], nextId := 20 }

theorem test_witness_TaskSteps_submission : let s := submitted 128
    let v := s.submission 9
    let s1 := (s.readSchedule v).1
    v.words ≠ [] ∧ v.producer = none ∧ v.thread = some 0 ∧ v.dest < 16 ∧ s1.launchCode v (s.readSchedule v).2 = 0 ∧
    s1.boardUse (nodeOfCore (placeCore v.chip v.home)) < Config.boardEntries ∧ s1.outOfTurn v = false ∧
    (submitted 0).launchCode (submission 0) ((submitted 0).readSchedule (submission 0)).2 = 4 := by
  set_option maxRecDepth 8000 in decide

/-- A board whose entries all hold a task. -/
theorem test_witness_TaskSteps_full :
    let s := { submitted 128 with tasks := (List.range 64).map fun i => (100 + i, { live := true, homeNode := 0 }) }
    Config.boardEntries ≤ (s.readSchedule (submission 128)).1.boardUse 0 ∧
    (s.readSchedule (submission 128)).1.launchCode (submission 128) (s.readSchedule (submission 128)).2 = 0 ∧
    ({ s with parishes := [(0, { replay := [(0, 8)] })] } : State).outOfTurn (submission 128) = true := by
  set_option maxRecDepth 8000 in decide

/-- A dependant that waits at node 0, its record in object 2 read from memory: words of zero, which are refused. -/
def dependant : Submission :=
  { parish := 0, record := 0x20000000000, home := place0, producer := some 0x20000000200, producerNode := 0 }

theorem test_witness_TaskSteps_dependant :
    let s := { world 1 0x1F (localDesc 1) {} with submissions := [(9, dependant)], nodes := [(0, { dependants := [9] })] }
    let f := { s with mem := ((s.setBytes (bytesAt (hbmByte 0 (2 ^ 21)) 8 (1 + 128 * 2 ^ 24))).setBytes
      (bytesAt (hbmByte 0 (2 ^ 21) + 8) 8 0x20000000000)).mem }
    let read (s : State) := s.readWords 0 0 0x20000000000 64
    let v (s : State) : Submission := { s.submission 9 with words := (read s).2.getD [] }
    let after (s : State) := (read s).1.readSchedule (v s)
    (s.node 0).dependants = 9 :: [] ∧ (v s).thread = none ∧ (v s).command = none ∧
    (v s).producer = some 0x20000000200 ∧ (after s).1.launchCode (v s) (after s).2 = 1 ∧
    s.recordEmpty 0 (v s).record = false ∧ ({ s with empty := [2] }).recordEmpty 0 place256 = true ∧
    (after f).1.launchCode (v f) (after f).2 = 0 ∧ (after f).1.boardUse 0 < Config.boardEntries ∧
    nodeOfCore (placeCore 0 place0) = 0 ∧ (after f).1.outOfTurn (v f) = false ∧
    (State.reset.node 0).dependants = [] ∧ State.reset.admissible 0 = [] := by
  set_option maxRecDepth 8000 in decide

/-- A task with one member on core 0, its share in a state. -/
def shared (st : ShareState) (m : MemberState) : Task :=
  { live := true, wsize := 128, entry := 0x20000000000, members := [{ member with state := m }],
    shares := [⟨0, st, 1, 0, false⟩] }

def boarded (st : ShareState) (m : MemberState) : State :=
  { world 1 0x1F (localDesc 1) {} with tasks := [(11, shared st m)], nodes := [(0, { board := [11] })] }

theorem test_witness_TaskSteps_admission : let s := boarded .queued .waiting
    let h : Share := ⟨0, .queued, 1, 0, false⟩
    s.admissible 0 = [(11, shared .queued .waiting, h)] ∧ s.shareFits (shared .queued .waiting) 0 = true ∧
    let b := { s with slots := (List.range 8).map fun i => (i, { state := .ready }) }
    b.admissible 0 = [(11, shared .queued .waiting, h)] ∧
    b.fitsClaimed 0 (11, shared .queued .waiting, h) = false ∧ s.fitsClaimed 0 (11, shared .queued .waiting, h) = true := by
  set_option maxRecDepth 8000 in decide

/-- The share that ranks first needs a core whose slots are taken; one behind it has room. -/
theorem test_witness_TaskSteps_admission_passed :
    let a := { shared .queued .waiting with prio := 3 }
    let m : Member := { member with core := 1, state := .waiting }
    let b := { shared .queued .waiting with members := [m], shares := [⟨0, .queued, 2, 0, false⟩] }
    let s : State := { boarded .queued .waiting with
      tasks := [(11, a), (12, b)], nodes := [(0, { board := [11, 12] })], owner := [(0, 1), (1, 1)],
      slots := (List.range 8).map fun i => (i, { state := .ready }) }
    s.admissible 0 = [(11, a, ⟨0, .queued, 1, 0, false⟩), (12, b, ⟨0, .queued, 2, 0, false⟩)] ∧
    s.ranked 0 (s.admissible 0) = [(11, a, ⟨0, .queued, 1, 0, false⟩), (12, b, ⟨0, .queued, 2, 0, false⟩)] ∧
    s.fitsClaimed 0 (11, a, ⟨0, .queued, 1, 0, false⟩) = false ∧ s.shareFits b 0 = true := by
  set_option maxRecDepth 8000 in decide

theorem test_witness_TaskSteps_dispatch : let s := boarded .admitted .admitted
    let t := shared .admitted .admitted
    s.sharesOf 0 (fun h => decide (h.state = .running)) = [] ∧
    s.sharesOf 0 (fun h => decide (h.state = .admitted)) = [(11, t, ⟨0, .admitted, 1, 0, false⟩)] ∧
    t.members = [{ member with state := .admitted }] ∧ s.eligible t 0 = true ∧
    s.startSlot { member with state := .admitted } = some 0 ∧
    s.eligible { t with results := [(0, 1)] } 0 = false := by
  set_option maxRecDepth 8000 in decide

/-- A released entry of a copy schedule. -/
def schedEntry : SchedEntry :=
  { source := 0x20000000000, dest := place0, flag := place0, length := 8, stage := 0, released := true, done := false, op := 0,
    fromRecord := true, thread := 0, core := 0, stamp := {}, race := 0 }

theorem test_witness_TaskSteps_end : let t := { shared .running .halted with schedule := [schedEntry] }
    let s := boarded .running .halted
    t.schedule[0]? = some schedEntry ∧ schedEntry.released = true ∧ schedEntry.done = false ∧ schedEntry.op = 0 ∧
    (s.task 11).live = true ∧ (s.task 11).members ≠ [] ∧ (∀ m ∈ (s.task 11).members, m.state = .halted) ∧
    (s.task 11).opEnded = false ∧ (∀ o ∈ s.ops, o.2.task ≠ 11) ∧ (s.task 11).entriesPending = false ∧
    s.busyWrites 11 = false ∧ place0.getLsbD 62 = false ∧
    s.reaches (chipOfNode 0) (placeChip (chipOfNode 0) place0) = true ∧
    (∃ m ∈ (shared .running .ended).members, m.state = .ended) ∧
    t.behind 0 0 = false ∧ ({ t with schedule := [schedEntry, schedEntry] }).behind 0 1 = true ∧ (boarded .running .ended).busyOps 11 = false := by
  set_option maxRecDepth 8000 in decide

/-- A machine whose control block (object 1) names one ring, at core 15's scratchpad, with one entry and room for one more. -/
def ringed (rings : List Nat) (entry : Word) (c : Slot) : State :=
  let s := { world 1 0x1F (localDesc 1) c with
    objs := [(objKey 0 0 1, ⟨packObj 0 1 false 4096, 0x1F, 0x1000⟩), (objKey 0 0 2, ⟨packObj 0 1 false 4096, 0x1F, 0x2000⟩)],
    exts := [(extKey 0 0 0x1000, localDesc 1), (extKey 0 0 0x2000, localDesc 2)] }
  rings.foldl (fun s r =>
    let pa := coreByte 15 (8 * r)
    ((((s.setBytes (bytesAt (hbmByte 0 (2 ^ 21 + r)) 8 (placeOf 15 (8 * r)))).setBytes (bytesAt (pa + 8) 8 1)).setBytes
      (bytesAt (pa + 16) 8 1)).setBytes (bytesAt (pa + 32) 8 entry))) s

theorem test_witness_SaveAndTollSteps_save :
    let s := ringed [freeRecordRing, noticeRing] 0x20000000800 {}
    (s.takeRecord 0 0).isSome = true ∧ State.reset.takeRecord 0 0 = none ∧ s.released 0 = true ∧
    (∀ st ∈ [SlotState.saving 0, .ready, .parked (.line 3), .parked .yieldUntil, .parked .wake, .parked (.command 5),
        .parked (.queue 5), .parked .window, .parked .longOp, .parked .release],
      (at0 fun c => { c with state := st, preempt := some 0 }).here.state = st) ∧
    ({ world 1 0 0 {} with accesses := [(5, { access (.store []) with posted := true })] }).released 0 = false := by
  set_option maxRecDepth 8000 in decide

theorem test_witness_SaveAndTollSteps_resume :
    let k : Slot := { state := .held, resuming := true, savedFrom := 0, record := 0x20000000000 }
    let s := { State.reset with saved := [(hbmByte 0 0, k)] }
    s.saved = [(hbmByte 0 0, k)] ∧ k.resuming = true ∧ nodeOfThread k.savedFrom = 0 ∧ s.recWord (hbmByte 0 0) 0x3C8 = 0 ∧
    (s.recWord (hbmByte 0 0) 0).getLsbD 27 = false ∧ k.wf = false ∧ k.savedIn = none ∧
    s.sharedLost (coreOfThread k.savedFrom) k = [] ∧
    (s.looseSlots (coreOfThread k.savedFrom) 1).head? = some 0 := by
  set_option maxRecDepth 8000 in decide

/-- A machine whose resume ring holds the record in object 2, disposed of with code `c`. -/
def disposed (c : Word) : State :=
  { (ringed [resumeRing] 0x20000000000 {}).setBytes (bytesAt (hbmByte 0 (2 ^ 22) + 0x3D0) 8 c) with
      saved := [(hbmByte 0 (2 ^ 22), { state := .held, record := 0x20000000000 })] }

theorem test_witness_SaveAndTollSteps_dispose :
    ((disposed 1).deqRing 0 0 resumeRing).map (fun e => (e.1, e.2.notices, e.2.saved.map (·.1))) =
      some (0x20000000000, [], [hbmByte 0 (2 ^ 22)]) ∧ State.reset.deqRing 0 0 resumeRing = none := by
  set_option maxRecDepth 8000 in decide

theorem test_witness_SaveAndTollSteps_dispose_record :
    ((disposed 1).deqRing 0 0 resumeRing).map (fun e => e.2.resolve 0 0 0x20000000000) = some (some (hbmByte 0 (2 ^ 22))) := by
  set_option maxRecDepth 8000 in decide

theorem test_witness_SaveAndTollSteps_dispose_code :
    ((disposed 1).recWord (hbmByte 0 (2 ^ 22)) 0x3D0).extractLsb' 0 8 = 1 ∧
    ((disposed 2).recWord (hbmByte 0 (2 ^ 22)) 0x3D0).extractLsb' 0 8 = 2 ∧
    ((disposed 3).recWord (hbmByte 0 (2 ^ 22)) 0x3D0).extractLsb' 0 8 = 3 := by
  set_option maxRecDepth 8000 in decide

theorem test_witness_SaveAndTollSteps_preEmption :
    let h : Share := ⟨0, .queued, 2, 0, false⟩
    let v : Share := ⟨0, .running, 1, 0, false⟩
    let t := { shared .queued .waiting with prio := 1, shares := [h] }
    let tv (p : Nat) := { shared .running .running with prio := p, shares := [v] }
    let s (p : Nat) := { boarded .queued .waiting with
      tasks := [(11, tv p), (12, t)], nodes := [(0, { board := [11, 12] })],
      slots := (List.range 8).map fun i => (i, { state := .ready, task := if i = 0 then 11 else 5 }) }
    (s 0).ranked 0 ((s 0).admissible 0) = [(12, t, h)] ∧ (s 0).fitsClaimed 0 (12, t, h) = false ∧
    (s 0).claimFor t h.node 128 = s 0 ∧ h.node = 0 ∧ (s 0).victimsFor t h = some [0] ∧ (s 2).victimsFor t h = none ∧
    (s 0).sharesOf 0 (fun h => decide (h.state = .running)) = [(11, tv 0, v)] ∧ t.coresOn 0 = [0] ∧
    (s 2).effective t h ≤ (tv 2).prio ∧ (tv 0).prio < (s 0).effective t h ∧
    (s 0).slotsFit 0 t.members = false ∧ (boarded .queued .waiting).slotsFit 0 t.members = true ∧
    t.perCore 0 * t.ownNames.length + t.sharedNames.length ≤ ((s 0).freeBlocks 0).length ∧
    (s 0).basesFor [0] t.span (t.perCore 0) ≠ none ∧ t.members.filter (·.core == 0) = t.members ∧
    t.members.filterMap (·.slot) = [] ∧ (s 0).saving 0 = false ∧ ((s 0).slot 0).preemptible = true ∧
    ((s 0).modSlot 1 fun c => { c with preempt := some 0 }).saving 0 = true ∧ ((s 0).slot 0).task = 11 := by
  set_option maxRecDepth 8000 in decide

theorem test_witness_SaveAndTollSteps_tolls :
    let s := { State.reset with cores := [(0, { loom := [7] })], dies := [(0, { tollCount := 64, free := [(0, 0)] })] }
    let r := { State.reset with
      cores := [(0, { cyc := 2 ^ 30 })], nodes := [(0, { toll := ⟨true, 0, 0, none⟩ })],
      dies := [(0, { tollCount := 64, demand := true })] }
    (s.die 0).free = [(0, 0)] ∧ s.tollsHeld 0 < (s.die 0).tollCount ∧ s.tollWaiters 0 = [0] ∧
    tollMeets (0, 0) 0 ((s.node 0).toll.waits.getD (s.dieTime 0)) ≤ s.dieTime 0 ∧
    s.dieTime 0 < tollMeets (5, 0) 0 ((s.node 0).toll.waits.getD (s.dieTime 0)) ∧
    ({ s with dies := [(0, { tollCount := 0, free := [(0, 0)] })], cores := [] } : State).tollsHeld 0 = 0 ∧
    ({ s with cores := [] } : State).tollWaiters 0 = [] ∧ tollMeets (0, 0) 0 (s.die 0).countFrom ≤ s.dieTime 0 ∧ State.reset.wantsToll 0 = false ∧ (s.node 0).toll.held = false ∧
    (r.node 0).toll.held = true ∧ r.loomBusy 0 = false ∧ (r.node 0).toll.idleFrom + 256 ≤ r.nodeTime 0 ∧
    r.tollOverheld 0 = true ∧ r.loomRunning 0 = false ∧ r.wantsToll 0 = false ∧ (r.die 0).free.length < (r.die 0).tollCount ∧
    (∀ e ∈ r.nodes, dieOfNode e.1 = 0 → e.1 ≠ 0 → e.2.toll.held = false) ∧
    ({ r with ops := [(7, { op 0 with engine := .loom, state := .running })] }).loomRunning 0 = true := by
  set_option maxRecDepth 8000 in decide

/-- Subscription 9 of thread 0 to roll 0 of die 0, as the Carillon has it before or after it is recorded. -/
def subscription (st : SubState) : Subscription :=
  { thread := 0, core := 0, wbase := 0, span := 8192, node := 0, slot := 5, task := 0, rollWord := 0, range := 0x100000000, tile := 0,
    dest := 3, die := 0, roll := 0, first := 0, count := 1, rows := 16, cols := 1, shape := BitVec.ofNat 64 (2 + 16 * 32 + 1024),
    npages := 1, hd := 1, state := st, live := true }

def subscribing (st : SubState) (r : Roll) : State :=
  { (rolled none none []).modSlot 0 fun c => { c with state := .parked (.carillon 9) } with
      subscriptions := [(9, subscription st)], dies := [(0, { rolls := [(0, r)] })] }

theorem test_witness_PassSteps_registration : let s := subscribing .requested { parish := some 0 }
    let late := subscribing .requested { parish := some 0, running := some ⟨snap, 1, false, []⟩ }
    let v := s.subscription 9
    v.live = true ∧ v.state = .requested ∧ (s.slot v.thread).state = .parked (.carillon 9) ∧
    v.first + v.count ≤ v.npages ∧ (shapeOf v.shape).elem ≠ 0 ∧ (shapeOf v.shape).cols ≤ 16 ∧
    (shapeOf v.shape).cols = v.hd ∧ (s.subscribed v.die).length < 8192 ∧ v.dest < 11 ∧ v.dest ≠ 0 ∧
    (s.roll v.die v.roll).running = none ∧ (late.roll 0 0).running = some ⟨snap, 1, false, []⟩ ∧ v.first < 1 ∧
    v.npages < v.first + 2 ∧ (s.slot v.thread).ih = false := by
  set_option maxRecDepth 8000 in decide

theorem test_witness_PassSteps_walk :
    let p (page : Nat) (reads : List LineRead) : Pass := ⟨snap, page, false, reads⟩
    let s (page : Nat) := subscribing .joined { parish := some 0, running := some (p page []) }
    let w := subscribing .nextPass { parish := some 0, waiting := some snap }
    let lines := pageLines snap 0
    let pieces := lines.map (·.2)
    let come := pieces.map fun q => LineRead.mk q.place (List.replicate 64 0) none
    (w.roll 0 0).running = none ∧ (w.roll 0 0).waiting = some snap ∧ (w.rollSubs 0 0).map (·.1) = [9] ∧
    ({ w with subscriptions := [] } : State).rollSubs 0 0 = [] ∧ ((s 0).roll 0 0).waiting = none ∧
    ((s 0).roll 0 0).running = some (p 0 []) ∧ (p 0 []).heldRecord = false ∧ snap.fence = [] ∧ snap.npages ≤ (p 1 []).page ∧
    (s 1).pagesOut 0 0 = false ∧ (p 0 []).page < snap.npages ∧ (s 0).takers 0 0 0 = [(9, subscription .joined)] ∧
    ({ s 0 with subscriptions := [] }).takers 0 0 0 = [] ∧ (s 0).accesses = [] ∧
    lines = [(0x20000000000, ⟨0, 0, 64⟩), (0x20000000000, ⟨1024, 1024, 64⟩)] ∧ bufferParts snap.tokens = [(0, 64), (1024, 64)] ∧
    (s 0).carillonFail (chipOfNode (carillonNode 0)) 0 true 0x20000000000 64 = none ∧
    (s 0).checkResidency 0 0 2 0 0x20000000000 false = .ok (.byte (hbmByte 0 (2 ^ 21))) ∧
    takeReads come pieces [] = .bytes (List.replicate 128 0) ∧ (s 0).injecting 0 = false ∧
    takeReads [⟨0, [], some (0x08, 7)⟩, ⟨1024, [], none⟩] pieces [] = .fault 0x08 7 ∧
    takeReads [⟨0, [], some (0x09, 7)⟩, ⟨1024, [], none⟩] pieces [] = .fault 0x09 7 := by
  set_option maxRecDepth 8000 in decide

/-- A page on its way to subscription 9. -/
def paged : Access :=
  { access (.page 9 0) with flag := some place0, dst := 0, src := carillonNode 0, size := 1, addr := 0, dest := 0 }

theorem test_witness_PassSteps_delivery : let k : Packet := packet (.page [5] 0 (List.replicate 64 0))
    let s (e : NSet) (a : Access) : State := { subscribing .joined { parish := some 0, running := some ⟨snap, 1, false, []⟩ } with
      packets := [(7, k)], empty := e, accesses := [(5, a)], nodes := [], nextId := 8 }
    Delivered (s [] paged) 7 k (.page [5] 0 (List.replicate 64 0)) ∧
    Unwatched (s (List.range 16) paged) (stagingBytes (subscription .joined) 0 0 64) ∧ (s [] paged).access? 5 = some paged ∧
    paged.req = .page 9 0 ∧ paged.performed = false ∧ ({ paged with performed := true }).performed = true ∧
    (s [] paged).pagesOut 0 0 = true ∧
    (∃ i < 16, (s [] paged).lineEmpty (lineOf (windowByte 0 0 8192 (0 + 128 * i))) = false) ∧
    (∀ i < 16, (s (List.range 16) paged).lineEmpty (lineOf (windowByte 0 0 8192 (0 + 128 * i))) = true) ∧
    (stagingBytes (subscription .joined) 0 0 64).Nodup ∧ paged.dest = 0 ∧ paged.found = false ∧
    ({ paged with found := true }).found = true ∧ ((s [] paged).node 0).storeRoom false 0 = true ∧
    ({ replies := List.replicate 512 (0, 0, 0) } : Node).storeRoom false 0 = false ∧ (s [] paged).accesses = [(5, paged)] ∧
    place0.getLsbD 62 = false ∧ (s [] paged).reaches 0 (placeChip 0 place0) = true := by
  refine ⟨⟨rfl, rfl, rfl⟩, (fun n w hw => nomatch hw), ?_⟩
  set_option maxRecDepth 8000 in decide

theorem test_witness_PassSteps_round :
    let c (m : Nat) : Contribution := ⟨30 + m, m, 8, 2, List.replicate 8 0, false⟩
    let r : Round := { task := 11, group := [0], contributions := [c 0] }
    let two : Round := { task := 11, group := [0, 1], contributions := [c 0, c 1] }
    let t := { shared .running .running with members := [member, { member with node := 24576 }] }
    let s := { boarded .running .running with tasks := [(11, t)] }
    r.done = false ∧ r.group ≠ [] ∧ r.group.length ≤ r.contributions.length ∧ (s.roundChips r).length ≤ 1 ∧
    r.disagreed = false ∧ (∀ c ∈ r.contributions, c.failed = false) ∧ (r.contributions.map (·.op)).Nodup ∧
    s.roundChips two = [0, 1] ∧ two.summed = [] ∧ (∀ m ∈ two.group, ∃ c ∈ two.contributions, c.member = m) := by
  set_option maxRecDepth 8000 in decide

/-! ### Witnesses: the Ouvval fabric, parcels and the host -/

/-- Port 0 of chip 0: one slot of 2 µs that faces port 0 of chip 1, or with `extra` set in its configuration. -/
def port0 (extra : Word) : Port :=
  { cfg := 200 * 2 ^ 47 + 3 * 2 ^ 26 + extra, table := [(0, 2 ^ 63 + 2 ^ 45)], trained := true, version := 3, locked := true,
    lit := true }

def ported (p : Port) : State := { State.reset with chips := [(0, { ports := [(0, p)] })] }

/-- An entry of chip 0 for chip `c`, with one frame. -/
def entryFor (c : Nat) (cls : Machine.Class) : Entry :=
  { body := .packet 7, cls := cls, src := 0, dst := c, hop := c, at' := 0, frames := 1, relayed := false }

theorem test_witness_OuvvalSteps_enqueue : let s := { ported (port0 0) with entries := [(5, entryFor 1 .request)] }
    s.entry? 5 = some (entryFor 1 .request) ∧ (entryFor 1 .request).hop ≠ (entryFor 1 .request).at' ∧
    (∀ q ∈ (s.chip 0).ports, q.2.holds 5 = false) ∧ s.choosePort 0 1 .request 1 false = some 0 ∧
    s.choosePort 0 2 .request 1 false = none ∧ Machine.Class.request ≠ .relay ∧
    ({ (s.chip 0) with relays := [(2, 1)] } : Chip).relays.find? (·.1 == 2) = some (2, 1) ∧
    s.choosePort 0 1 .relay 1 false = some 0 ∧ (s.chip 0).relays.find? (·.1 == 2) = none := by
  set_option maxRecDepth 8000 in decide

theorem test_witness_OuvvalSteps_admission :
    let p := { port0 0 with queue := [(1, .request, 5)] }
    p.sending = true ∧ p.nextFree 1 (classOf 3) ≤ 0 ∧ p.nextFree 1 (classOf 0) ≤ 7 ∧ p.controlWaits 1 = false ∧ p.version ≠ 2 ∧
    p.peer = some (1, 0) ∧ p.headAhead 1 3 = false ∧ p.closed.contains (1, classOf 3) = false ∧
    (p.queue.find? fun v => v.1 == 1 && classNum v.2.1 == 3) = some (1, .request, 5) ∧ (entryFor 1 .request).cls ≠ .relay ∧
    p.used + 1 < 2 ^ 40 ∧ p.fits 0 1 = true ∧ p.fits (p.positions - 1) 1 = false := by
  set_option maxRecDepth 8000 in decide

theorem test_witness_OuvvalSteps_frames :
    let f (n k : Nat) : Frame := ⟨n, 5, (1, 0), 0, 0, n, k, true, false⟩
    let p (l : List Frame) := { port0 0 with frames := l }
    let s (l : List Frame) (e : Entry) := { ported (p l) with entries := [(5, e)], packets := [(7, packet (.ack 5))], nextId := 8 }
    let e := entryFor 1 .request
    (s [] e).frameDue (p []) = none ∧ (s [f 1 0] e).frameDue (p [f 1 0]) = some (f 1 0) ∧ (p []).opens (f 1 0) = true ∧
    (p []).opens { f 1 0 with key := 1 } = false ∧ (∀ g ∈ (p [f 1 0]).unreceived 1, g.number < 1 → g.flying = true) ∧
    (∃ g ∈ (p [{ f 0 0 with flying := false }, f 1 0]).unreceived 1, g.number < 1 ∧ g.flying = false) ∧
    (s [{ f 0 0 with flying := false }, f 1 0] e).frameDue (p [{ f 0 0 with flying := false }, f 1 0]) = some (f 1 0) ∧
    (s [f 1 0] e).isMarker (f 1 0) = false ∧ (s [] { e with body := .drainMarker }).isMarker (f 1 0) = true ∧
    (∃ g ∈ (p [f 1 0, f 2 0]).frames, g.number ≠ 1 ∧ g.entry = 5 ∧ g.received = false) ∧
    (¬ ∃ g ∈ (p [f 1 0]).frames, g.number ≠ 1 ∧ g.entry = 5 ∧ g.received = false) ∧ (s [f 1 0] e).entry? 5 = some e ∧
    5 ∉ ((s [] e).chip 0).relayPlaces ∧ (s [] e).packet? 7 = some (packet (.ack 5)) ∧ e.hop = e.dst ∧
    ({ entryFor 2 .relay with hop := 1 }).hop ≠ (entryFor 2 .relay).dst ∧
    ({ e with body := .frameAck 0 0 3 true }).body = .frameAck 0 0 3 true ∧
    (((p [{ f 1 0 with flying := false }]).unreceived 1).filter fun g => !g.flying) = [{ f 1 0 with flying := false }] ∧
    (f 1 14).failures < 15 ∧ 15 ≤ (f 1 15).failures := by
  set_option maxRecDepth 8000 in decide

/-- The armed port is at its last slot before the change. -/
theorem test_witness_OuvvalSteps_slots : let p := port0 0
    let armed := port0 (2 ^ 30 + 2 ^ 29)
    let h : Hello := ⟨1, 0, 0, 0⟩
    p.isDark = false ∧ p.fibre = none ∧ p.advance.facedNow = some (1, 0) ∧ ((ported p).port 1 0).listening = false ∧
    { armed.advance with locked := false, drainSent := true }.facedNow = none ∧ armed.marked = false ∧ armed.peer ≠ none ∧
    ({ p with listening := true }).listening = true ∧ p.between = false ∧ { armed with drainSent := true }.between = true ∧
    p.relocks h = false ∧ p.locked = true ∧ p.lit = true ∧ ({} : Port).isDark = true ∧ p.lastSlot = false ∧ armed.lastSlot = true ∧ armed.locked = true ∧
    armed.isDark = false ∧ p.agrees p.bank p.slots h = true ∧ p.agrees p.bank p.slots ⟨2, 0, 0, 0⟩ = false ∧
    p.armed = false ∧ armed.drainSent = false ∧ { p with locked := false }.locked = false ∧ p.goodDarks < 2 ∧
    2 ≤ { p with goodDarks := 2 }.goodDarks ∧ h.slot = p.slot ∧ h.rotation.toNat = p.rotation ∧ p.missed = 0 ∧
    1 ≤ { p with missed := 1 }.missed ∧ armed.armed = true ∧ { armed with drainSent := true }.drainSent = true := by
  set_option maxRecDepth 8000 in decide

theorem test_witness_OuvvalSteps_relays_and_keys :
    let e := { entryFor 2 .relay with at' := 1, hop := 1 }
    let c : Entry := { entryFor 0 .control with body := .relayCredit 1, dst := 0, at' := 0, hop := 0 }
    let s := { ported (port0 0) with entries := [(5, e), (6, c)] }
    s.entry? 5 = some e ∧ e.at' = e.hop ∧ e.hop ≠ e.dst ∧ e.relayed = false ∧
    (s.entries.find? fun x => decide (x.2.body = .relayCredit 1) && x.2.dst == 0 && x.2.at' == 0) = some (6, c) ∧
    (s.port 0 0).peer = some (1, 0) ∧ (s.port 0 0).peer ≠ some (0, 0) ∧ (s.port 0 0).trained = true ∧
    (s.port 1 0).trained = false ∧ ({ s with chips := [(0, { ports := [(0, port0 0)] }), (1, { ports := [(0, port0 0)] })] } : State).chip 1 =
      { ports := [(0, port0 0)] } ∧ (s.chip 0).off = false ∧ (s.port 0 0).nextKey = none ∧ (s.port 0 0).version ≠ 2 ∧ (s.port 0 0).bankFree 1 = true ∧
    { port0 0 with frames := [⟨1, 5, (1, 0), 1, 0, 0, 0, true, false⟩] }.bankFree 1 = false ∧ (0 : Nat) < 1 ∧
    (2 ^ 29 : Word).getLsbD 29 = true ∧ (0 : Word).getLsbD 29 = false := by
  set_option maxRecDepth 8000 in decide

/-- The hello that agrees with the armed change. -/
theorem test_witness_OuvvalSteps_relock :
    let p := { port0 (2 ^ 30 + 2 ^ 29) with drainSent := true, nextCfg := port0 0 |>.cfg, table := [(64, 2 ^ 63 + 2 ^ 45), (0, 2 ^ 63 + 2 ^ 45)] }
    let h : Hello := ⟨1, 0, 0, BitVec.ofNat 16 p.switchAt⟩
    p.isDark = false ∧ p.armed = true ∧ p.drainSent = true ∧
    p.agrees (1 - p.bank) ((p.nextCfg.extractLsb' 58 6).toNat + 1) h = true ∧ h.rotation.toNat = p.switchAt ∧
    p.agrees (1 - p.bank) ((p.nextCfg.extractLsb' 58 6).toNat + 1) ⟨2, 0, 0, 0⟩ = false := by
  set_option maxRecDepth 8000 in decide

/-- Parcel 9 in transit from chip 0 to core 15 of chip 0, with one backed extent. -/
def transit (st : TransitStage) (offer : Nat) : Transit :=
  { stage := st, obj := 2, length := 4096, extents := [localDesc 2], destCore := 15, frames := [3], offer := offer }

def moving (st : TransitStage) (offer : Nat) (s : State) : State :=
  { s with transits := [(9, transit st offer)], owner := [(0, 1), (15, 1)] }

theorem test_witness_ParcelSteps : let s := moving .offered 0 (world 1 0x1F (localDesc 2) {})
    s.transit? 9 = some (transit .offered 0) ∧ (transit .offered 4).offer ≠ 0 ∧
    (transit .offered 0).chip = (transit .offered 0).destChip ∧ s.parishOf 15 = some 0 ∧ s.parishOf 393216 = none ∧
    (∀ e ∈ s.transits, e.1 ≠ 9 → e.2.stage ≠ .offered ∨ e.2.destParish ≠ 0) ∧ s.deqRing 0 0 freeObjectRing = none ∧
    s.takeFrames 0 0 1 [] = none ∧ (transit .offered 0).backed = [0] ∧ ({ transit .offered 0 with extents := [0] }).backed = [] ∧
    s.takeMessage (transit .accepted 4) (.parcelAccept 9) 0 = some s ∧
    (transit .moving 4).backed[0]? = some 0 ∧ (transit .moving 4).frames[0]? = some 3 ∧
    s.resolve 0 0 (BitVec.ofNat 64 (2 * 2 ^ 40)) = some (hbmByte 0 (2 * 2 ^ 21)) ∧ (transit .arrived 4).stage = .arrived ∧
    ({ transit .offered 4 with refused := true }).refused = true ∧ (transit .offered 0).refused = false ∧ s.reaches 0 0 = true := by
  set_option maxRecDepth 8000 in decide

theorem counted_errors (c p o : Nat) (f : Nat → Nat) (l : List Nat) (s : State) :
    (l.foldl (fun s i => s.countExtent c p o (f i)) s).errors = s.errors := by
  induction l generalizing s with
  | nil => rfl
  | cons i l ih =>
    rw [List.foldl_cons, ih]
    unfold State.countExtent
    dsimp only
    split <;> rfl

/-- Its first part has no error, or one in its first byte. -/
theorem test_witness_ParcelSteps_data (s : State) :
    let t (e : AMap Nat) : State := (List.range 128).foldl (fun s i => s.countExtent 0 0 2 (0 * 2 ^ 21 + 0 + 128 * i)) { s with errors := e }
    ((t []).findError (consecutive (hbmByte 0 (2 ^ 22)) 16384)).2 = false ∧
    ((t [(hbmByte 0 (2 ^ 22) / 8, 2)]).findError (consecutive (hbmByte 0 (2 ^ 22)) 16384)).2 = true := by
  intro t
  have ht (e : AMap Nat) : (t e).errors = e := counted_errors ..
  constructor
  · simp [State.findError, ht]
  · have h2 : (t [(hbmByte 0 (2 ^ 22) / 8, 2)]).errorIn (hbmByte 0 (2 ^ 22)) 1 = 2 := by
      unfold State.errorIn
      rw [ht]
      decide
    have hm : hbmByte 0 (2 ^ 22) ∈ consecutive (hbmByte 0 (2 ^ 22)) 16384 :=
      List.mem_map.mpr ⟨0, List.mem_range.mpr (by omega), rfl⟩
    unfold State.findError
    rw [ht]
    cases hf : (consecutive (hbmByte 0 (2 ^ 22)) 16384).find? fun pa => (t [(hbmByte 0 (2 ^ 22) / 8, 2)]).errorIn pa 1 = 2 with
    | none => exact absurd h2 (by simpa using List.find?_eq_none.mp hf _ hm)
    | some x => rfl

/-- The change of its seal, or of its installation, which chip 0 is the last to acknowledge. -/
theorem test_witness_ParcelSteps_completes :
    let s (st : TransitStage) : State := { moving st 4 (world 1 0x1F (localDesc 2) { running 0 0 with state := .parked .seal }) with
      changes := [(4, { change := .entry 2 {}, chips := [0], applied := [0], transit := 9 })] }
    let v : ChangeState := AMap.get {} (s .sealing).changes 4
    (s .sealing).transit? 9 = some (transit .sealing 4) ∧ (s .installing).transit? 9 = some (transit .installing 4) ∧
    v.transit = 9 ∧ 0 ∈ v.applied ∧ 0 ∉ v.acknowledged ∧ v.waitFor = [] ∧ (∀ c ∈ v.chips, c = 0 ∨ c ∈ v.acknowledged) ∧
    ((s .sealing).slot 0).state = .parked .seal := by decide

theorem test_witness_ParcelSteps_rings : let s := ringed [freeObjectRing, freeFrameRing] 5 {}
    (s.deqRing 0 0 freeObjectRing).map (fun e => (e.1, e.2.takeFrames 0 0 0 [] |>.map (·.1))) = some (5, some []) ∧
    (s.deqRing 0 0 freeFrameRing).isSome = true := by
  set_option maxRecDepth 8000 in decide

/-- A parish with a ring of 16 commands and one new entry, and room for it. -/
def parish0 (cs : List HostCommand) : Parish :=
  { present := true, chips := 1, qbase := 0x1000, qsize := 4, qtail := 1, cbase := 0x2000, journal := 2, journalCap := 16, commands := cs }

/-- A command of opcode `op` for 8 bytes of object 2. -/
def command (op : BitVec 8) (a0 a1 : Word) : HostCommand :=
  { seq := 5, tag := 0, version := 1, opcode := op, arg0 := a0, arg1 := a1, arg2 := 8, moved := 0, waiting := false,
    outcome := none, complete := false }

def hosted (p : Parish) (d : Word) : State := { world 1 0x1F d {} with parishes := [(0, p)] }

theorem test_witness_HostSteps_queue : let s := hosted (parish0 []) (localDesc 1)
    let p := s.parish 0
    let w (i : Nat) : Word := s.hostWord (p.qbase.toNat + 64 * (p.qhead.toNat % p.ringSize) + 8 * i)
    let v := s.writeHost 0x1000 [1, 1]
    let wv (i : Nat) : Word := v.hostWord (0x1000 + 8 * i)
    p.present = true ∧ p.qhead < p.qtail ∧ p.room = true ∧ (State.reset.parish 0).present = false ∧
    { p with qtail := 0 }.qtail ≤ p.qhead ∧ { p with journalCap := 0 }.room = false ∧ ((w 0).extractLsb' 8 8).toNat ≠ 1 ∧
    ((wv 0).extractLsb' 0 8).toNat = 1 ∧ ((wv 0).extractLsb' 8 8).toNat = 1 ∧ (∀ i < 4, wv (4 + i) = 0) := by
  set_option maxRecDepth 8000 in decide

theorem test_witness_HostSteps_commands : let h : Word := 0x20000000000
    let c := command 2 0x3000 h
    let l := command 1 h place0
    let m := { command 4 0 0 with seq := 6 }
    let s := hosted (parish0 [c, m]) (localDesc 1)
    s.command? 0 5 = some c ∧ c.waiting = false ∧ c.outcome = none ∧ s.copyRefused 0 c rW = none ∧
    s.copyRefused 0 (command 2 0 place0) rW = some 6 ∧ s.hostReach (parish0 []).replica 0 h = .byte (hbmByte 0 (2 ^ 21)) ∧
    (hosted (parish0 []) 0).hostReach 0 0 h = .unbacked ∧ (hosted (parish0 []) (remoteDesc 9)).hostReach 0 0 h = .unreachable ∧
    c.moved + c.lineSize = c.arg2.toNat ∧ c.reads = [] ∧ s.accesses = [] ∧ checkEntry (s.obj 0 0 2) 2 0 c.lineSize rW false = none ∧
    (checkEntry (s.obj 0 0 2) 2 4096 c.lineSize rW false).isSome = true ∧
    s.checkResidency 0 0 2 0 h false = .ok (.byte (hbmByte 0 (2 ^ 21))) ∧
    (hosted (parish0 []) 0).checkResidency 0 0 2 0 h false = .trap 0x09 h ∧
    (hosted (parish0 []) movingDesc).checkResidency 0 0 2 0 h false = .moving ∧
    (hosted (parish0 []) (remoteDesc 9)).checkResidency 0 0 2 0 h false = .trap 0x17 h ∧
    (s.readWords 0 0 h 64).2.isSome = true ∧
    ({ s with errors := [(hbmByte 0 (2 ^ 21) / 8, 2)] }.readWords 0 0 h 64).2 = none ∧
    s.homeOutside { parish := 0, record := h, home := place0 } = false ∧
    (hosted (parish0 [l]) (localDesc 1)).command? 0 5 = some l ∧ isPlace l.arg0 = false ∧ isPlace l.arg1 = true ∧
    l.arg0.toNat % 8 = 0 ∧ checkEntry (s.obj 0 0 2) 2 0 512 rR false = none ∧
    s.hostReach 0 0 (h + 511) = .byte (hbmByte 0 (2 ^ 21 + 511)) ∧ (s.readRange 0 0 h 64).isSome = true ∧
    s.recordEmpty 0 h = false ∧
    ({ s with empty := [2] }).recordEmpty 0 place256 = true ∧ s.command? 0 6 = some m ∧ (∃ d ∈ (s.parish 0).commands, d.seq < 6) ∧ (∀ d ∈ (parish0 [m]).commands, 6 ≤ d.seq) ∧
    { c with outcome := some (0, 0) }.outcome = some (0, 0) := by
  set_option maxRecDepth 8000 in decide

/-- The two verifications of an image are free values, so which code it gets is not known. -/
theorem test_witness_HostSteps_create : let s := chip0 fun c => { c with stage := 7, pimg := 0x10000 }
    (s.chip 0).stage = 7 ∧ (0 : Nat) < 128 ∧ (s.parish 0).present = false ∧ (hosted (parish0 []) 0).pageLive 0 0 = true ∧
    AMap.wf {} State.reset.slots = true ∧ s.pageLive 0 0 = false ∧ (State.reset.chip 0).stage ≠ 7 := by
  set_option maxRecDepth 8000 in decide

theorem test_witness_HostSteps_image (s : State) (chip b : Nat) :
    (∃ k, s.imageCode chip b = some k) ∨ s.imageCode chip b = none := by
  cases s.imageCode chip b with
  | none => exact .inr rfl
  | some k => exact .inl ⟨k, rfl⟩

theorem test_witness_StepsKeepMemoryCanonical : Memory.wf State.reset.mem = true ∧
    (∃ t, Machine.step State.reset = .next t) := by
  refine ⟨rfl, _, rfl⟩

/-! ### The manual's worked cases: Tables 8-22, 10-13 and 10-18, and the two Lane words of chapter 12 -/

theorem test_table_8_22 :
    decodeWord 0x01100000 = .ok (.nop Guard.none) ∧ decodeWord 0x01100100 = .ok (.halt Guard.none) ∧
    decodeWord 0x00654005 = .ok (.shli Guard.none 5 4 5) ∧ decodeWord 0x00C14000 = .ok (.cmpi Guard.none 1 4 0 0) ∧
    decodeWord 0x02005040 = .ok (.tx Guard.none 5 0x40) ∧ decodeWord 0x01D20080 = .ok (.cwait Guard.none 2 0 128) ∧
    decodeWord 0x02401F86 = .ok (.tshape Guard.none 0 3 15 3) ∧ decodeWord 0x01A03509 = .ok (.amoAdd Guard.none 0 3 5 1 1) ∧
    decodeWord 0xCD424A82 = .ok (.ld ⟨true, true, 3⟩ 2 4 2 true 1 2) := by
  refine ⟨?_, ?_, ?_, ?_, ?_, ?_, ?_, ?_, ?_⟩ <;> rfl

theorem test_rsort_word : decodeCommand (0x3300C93042580000#64 ++ 3#32 ++ 0#160) =
    .ok (.rsort { td := 3, ta := 2, tb := 4, tc := 12, ed := 2, ea := 2, eb := 11, imm32 := 3 }) := by
  set_option maxRecDepth 8000 in rfl

theorem test_rfma_word : decodeCommand (0x1300804842101000#64 ++ 0#192) =
    .ok (.rfma { td := 2, ta := 0, tb := 1, tc := 2, ed := 2, ea := 2, eb := 2, count := 4 }) := by
  set_option maxRecDepth 8000 in rfl

/-- Register `r` of thread 0 after an instruction with x1 and x2 as given. -/
def after (i : Instr) (a b : Word) (r : Field4) : Word :=
  match exec i (at0 fun c => { c with x := (c.x.set 1 a).set 2 b }) with
  | .next t => t.reg r
  | _ => 0

/-- The value a long operation will write to its register, or the cause of its trap. -/
def parked (i : Instr) (a b : Word) : Word :=
  match exec i (at0 fun c => { c with state := .ready, tvec := 0x100, x := (c.x.set 1 a).set 2 b }) with
  | .next t =>
      match t.here.result with
      | some (_, v, _) => v
      | none => t.here.cause
  | _ => 0

theorem test_table_10_13_divisions :
    parked (.div Guard.none 3 1 2) (-7) 2 = -3 ∧ parked (.rem Guard.none 3 1 2) (-7) 2 = -1 ∧
    parked (.divu Guard.none 3 1 2) (-7) 2 = 0x7FFFFFFFFFFFFFFC ∧
    parked (.div Guard.none 3 1 2) (BitVec.ofNat 64 (2 ^ 63)) (-1) = BitVec.ofNat 64 (2 ^ 63) ∧
    parked (.rem Guard.none 3 1 2) 9 0 = 0x10 := by decide

theorem test_table_10_13 :
    after (.mulh Guard.none 3 1 2) (-1) 1 3 = -1 ∧ after (.mulhu Guard.none 3 1 2) (-1) 2 3 = 1 ∧
    after (.shr Guard.none 3 1 2) 0x80 65 3 = 0x40 ∧ after (.clz Guard.none 3 0) 0 0 3 = 64 := by decide

/-- x3 and fflags after a conversion of x1 under a code and a rounding. -/
def converted (code : BitVec 4) (rnd : BitVec 3) (a : Word) : Word × Word :=
  match exec (.fcvt Guard.none 3 1 code rnd) (at0 fun c => { c with x := c.x.set 1 a }) with
  | .next t => (t.reg 3, t.here.fflags)
  | _ => (0, 0)

theorem test_table_10_18_to_integers :
    converted 6 0 0x5F000000 = (0x7FFFFFFFFFFFFFFF, 16) ∧ converted 6 0 0xDF000000 = (0x8000000000000000, 0) ∧
    converted 9 1 0xBFE0000000000000 = (0, 1) ∧ converted 9 0 0xBFF0000000000000 = (0, 16) ∧
    converted 7 0 0x7FF8000000000000 = (0, 16) := by decide

theorem test_table_10_18_to_floats :
    converted 2 0 0x1000001 = (0x4B800000, 1) ∧ converted 0 0 0x47F0000000000000 = (0x7F800000, 5) ∧
    converted 0 1 0x47F0000000000000 = (0x7F7FFFFF, 5) := by decide

/-- Table 10-17: one product, two roundings. -/
theorem test_table_10_17 :
    after (.fma Guard.none 3 1 1 2 false) 0x3F800800 0xBF801000 3 = 0x33800000 ∧
    after (.fmul Guard.none 3 1 1 false 0) 0x3F800800 0 3 = 0x3F801000 := by decide

/-- The worked place of chapter 10: taken apart, and built again with another offset. -/
theorem test_worked_place :
    after (.ploc Guard.none 3 1) 0x80005DFDFE00C0F8 0 3 = 0x000177F7F800C0F8 ∧
    after (.plc Guard.none 3 1 2) 0x000177F7F800C0F8 0x40 3 = 0x80005DFDFE000040 := by decide

end Sys2Proof.Tests
end

section
/-! Proofs for the scalar instructions that transfer control, take and leave a trap, divide, build places and draw
(10 R251, R256 to R262, R268 to R270). -/

namespace Sys2Proof.Machine

/-! ### Rules of the slot of the current thread -/

@[simp] theorem State.here_setSlot_cur (s : State) (c : Slot) : (s.setSlot s.cur c).here = c :=
  State.slot_setSlot_self s s.cur c

@[simp] theorem State.here_event (s : State) (i : Instr) : (s.event i).here = s.here := rfl

@[simp] theorem State.here_timer (s : State) (core n : Nat) (d : Due) : (s.timer core n d).here = s.here := rfl

@[simp] theorem State.cur_timer (s : State) (core n : Nat) (d : Due) : (s.timer core n d).cur = s.cur := rfl

@[simp] theorem State.here_park (s : State) (w : Wait) : (s.park w).here = { s.here with state := .parked w } :=
  State.here_modHere s _

@[simp] theorem State.cur_park (s : State) (w : Wait) : (s.park w).cur = s.cur := rfl

/-- A guard reads the predicates of the current thread and nothing else. -/
theorem guardHolds_congr (g : Guard) {s t : State} (h : t.here.preds = s.here.preds) :
    guardHolds g t = guardHolds g s := by
  simp [guardHolds, State.pred, h]

/-! ### Traps and the return from them -/

/-- A trap of the current thread that its own handler takes (R368). -/
theorem State.trap_handler (s : State) (c : Nat) (v : Word) (hc : supervisorCause c = false)
    (hv : s.here.tvec ≠ 0) (hi : s.here.ih = false) :
    s.trap c v = s.setSlot s.cur { s.here with cause := BitVec.ofNat 64 c, epc := s.here.pc, tval := v,
                                               ppl := s.here.pl, ih := true, unreachable := none,
                                               pc := s.here.tvec, state := .ready } :=
  State.trapIn_handler s s.cur c v hc hv hi

/-- ERET in a handler rewrites the slot of its thread. -/
theorem State.eret_setSlot (s : State) (h : s.here.ih = true) :
    s.eret = s.setSlot s.cur { s.here with pc := s.here.epc, pl := s.here.ppl, ih := false, state := .ready } :=
  State.eret_inside s h

/-- ERET in the handler of a trap undoes the entry: of the slot, the registers of the trap and the mark of an
unreachable chip are all that has changed (R262). -/
theorem State.here_eret_trap (s : State) (c : Nat) (v : Word) (hc : supervisorCause c = false)
    (hv : s.here.tvec ≠ 0) (hi : s.here.ih = false) :
    (s.trap c v).eret.here = { s.here with
      cause := BitVec.ofNat 64 c, epc := s.here.pc, tval := v, ppl := s.here.pl, unreachable := none,
      state := .ready } := by
  have ht := s.trap_handler c v hc hv hi
  have hin : (s.trap c v).here.ih = true := by rw [ht, State.here_setSlot_cur]
  rw [State.eret_inside _ hin, State.here_modHere, ht, State.here_setSlot_cur, ← hi]

theorem State.mem_eret_trap (s : State) (c : Nat) (v : Word) (hc : supervisorCause c = false)
    (hv : s.here.tvec ≠ 0) (hi : s.here.ih = false) : (s.trap c v).eret.mem = s.mem := by
  have ht := s.trap_handler c v hc hv hi
  have hin : (s.trap c v).here.ih = true := by rw [ht, State.here_setSlot_cur]
  rw [State.eret_inside _ hin, State.modHere_mem, ht, State.setSlot_mem]

/-- A PC that is not a multiple of 4 fails its fetch before anything else is looked at (R258). -/
theorem State.fetch_misaligned {s : State} {t : Nat} (h : (s.slot t).pc.toNat % 4 ≠ 0) : s.fetch t = .trap 0x05 :=
  if_pos h

/-- Settles O19: ERET by its two cases, and the return from a trap by `here_eret_trap`. -/
theorem returnFromHandler : Obligations.ReturnFromHandler := by
  refine ⟨rfl, fun s g hg => ⟨fun hi => ?_, fun hi => ?_⟩, fun s t h => State.fetch_misaligned h, ?_⟩
  · rw [exec_eret, execEret, scalar_true hg, State.eret_setSlot s hi]
  · rw [exec_eret, execEret, scalar_true hg, State.eret_outside s hi, State.wordVal]
  · intro s c v g hc hv hi hg
    have hg' : guardHolds g (s.trap c v) = true := by
      rw [← hg, s.trap_handler c v hc hv hi]
      exact guardHolds_congr g (by rw [State.here_setSlot_cur])
    have hh := s.here_eret_trap c v hc hv hi
    refine ⟨(s.trap c v).eret, by rw [exec_eret, execEret, scalar_true hg'], ?_⟩
    rw [hh]
    exact ⟨rfl, rfl, hi, rfl, rfl, s.mem_eret_trap c v hc hv hi⟩

/-! ### Division (R251, R252) -/

/-- The signed quotient of the model is the library's: rounded toward zero and wrapped. -/
theorem ofInt_tdiv (x y : Word) : BitVec.ofInt 64 (x.toInt.tdiv y.toInt) = x.sdiv y := by
  apply BitVec.eq_of_toInt_eq
  rw [BitVec.toInt_sdiv, BitVec.toInt_ofInt]

/-- The signed remainder of the model is the library's. -/
theorem ofInt_tmod (x y : Word) : BitVec.ofInt 64 (x.toInt.tmod y.toInt) = x.srem y := by
  rw [← BitVec.toInt_srem, BitVec.ofInt_toInt]

theorem execDiv_eq_division (g : Guard) (d a b : Field4) (s : State) :
    execDiv g d a b s = division g d a b BitVec.sdiv s := by
  simp only [execDiv, ofInt_tdiv]

theorem execRem_eq_division (g : Guard) (d a b : Field4) (s : State) :
    execRem g d a b s = division g d a b BitVec.srem s := by
  simp only [execRem, ofInt_tmod]

theorem division_zero {g : Guard} {d : Field4} {s : State} {b : Field4} (hg : guardHolds g s = true)
    (hd : shadowReg d = false) (hb : s.reg b = 0) (a : Field4) (f : Word → Word → Word) :
    division g d a b f s = .next (s.trap 0x10 0) := by
  rw [division, scalar_true hg, withDest_ok hd, if_pos hb]

theorem division_nonzero {g : Guard} {d : Field4} {s : State} {b : Field4} (hg : guardHolds g s = true)
    (hd : shadowReg d = false) (hb : s.reg b ≠ 0) (a : Field4) (f : Word → Word → Word) :
    division g d a b f s = .next (longOp s 20 d.toNat (f (s.reg a) (s.reg b)) s.here.fflags) := by
  rw [division, scalar_true hg, withDest_ok hd, if_neg hb]

@[simp] theorem cur_longOp (s : State) (n d : Nat) (v fl : Word) : (longOp s n d v fl).cur = s.cur := rfl

@[simp] theorem here_longOp (s : State) (n d : Nat) (v fl : Word) :
    (longOp s n d v fl).here = { s.here with result := some (d, v, fl), state := .parked .longOp } := by
  simp [longOp]

theorem timers_longOp (s : State) (n d : Nat) (v fl : Word) : (longOp s n d v fl).timers =
    s.timers ++ [(coreOfThread s.cur, (s.core (coreOfThread s.cur)).cyc.toNat + n, .event (.longOpResult s.cur))] := rfl

/-- The result of a long operation of the current thread is written with its flags, and the thread goes on. -/
theorem execLongOpResult_parked {s : State} {d : Field4} {v fl : Word} (hp : s.here.state = .parked .longOp)
    (hr : s.here.result = some (d.toNat, v, fl)) :
    execLongOpResult s.cur s =
      .next ((s.setReg d v).modHere fun c => { c with fflags := fl, result := none }).finish := by
  rw [State.here] at hp hr
  have hd : BitVec.ofNat 4 d.toNat = d := by simp
  unfold execLongOpResult
  simp only [hp, hr, hd]
  simp only [State.finish, State.modHere, State.modSlot_cur, State.setReg_cur]
  rfl

/-- A register write leaves the flags of the thread as they are. -/
theorem State.fflags_setReg (s : State) (d : Field4) (v : Word) : (s.setReg d v).here.fflags = s.here.fflags := by
  by_cases h : d = 0 ∨ d = 15
  · rw [State.setReg, State.setRegOf_discard _ _ _ h]
  · rw [State.setReg_slot _ _ h, State.here_modHere]

theorem State.modHere_congr {s : State} {f h : Slot → Slot} (e : f s.here = h s.here) : s.modHere f = s.modHere h :=
  congrArg (s.setSlot s.cur) e

/-- What R251 says of one division: it traps on a zero divisor, and otherwise parks for 20 cycles and then writes. -/
theorem division_parks {g : Guard} {d : Field4} {s : State} (hg : guardHolds g s = true) (hd : shadowReg d = false)
    (a b : Field4) (f : Word → Word → Word) :
    (s.reg b = 0 → division g d a b f s = .next (s.trap 0x10 0)) ∧
    (s.reg b ≠ 0 → ∃ t, division g d a b f s = .next t ∧ t.here.state = .parked .longOp ∧ t.here.pc = s.here.pc ∧
      t.timers = s.timers ++ [(coreOfThread s.cur, (s.core (coreOfThread s.cur)).cyc.toNat + 20,
        .event (.longOpResult s.cur))] ∧
      exec (.longOpResult s.cur) t = .next
        (((t.setReg d (f (s.reg a) (s.reg b))).modHere fun c => { c with result := none }).finish)) := by
  refine ⟨fun hb => division_zero hg hd hb a f, fun hb => ⟨_, division_nonzero hg hd hb a f, ?_⟩⟩
  generalize f (s.reg a) (s.reg b) = v
  have hh := here_longOp s 20 d.toNat v s.here.fflags
  refine ⟨by rw [hh], by rw [hh], timers_longOp _ _ _ _ _, ?_⟩
  generalize ht : longOp s 20 d.toNat v s.here.fflags = t at hh
  have hc : t.cur = s.cur := by rw [← ht]; rfl
  have hf : s.here.fflags = (t.setReg d v).here.fflags := by rw [State.fflags_setReg, hh]
  rw [exec_longOpResult, ← hc, execLongOpResult_parked (d := d) (by rw [hh]) (by rw [hh]), hf,
    State.modHere_congr (h := fun c => { c with result := none }) rfl]

/-- Settles O14: each of the four divisions is `division` at its own quotient or remainder. -/
theorem divisionResults : Obligations.DivisionResults := by
  intro s g d a b hg hd
  have parks := fun f => division_parks hg hd a b f
  refine ⟨?_, parks (· / ·), ?_, parks (· % ·)⟩
  · have h := parks BitVec.sdiv
    rwa [← execDiv_eq_division] at h
  · have h := parks BitVec.srem
    rwa [← execRem_eq_division] at h

/-! ### Branches, jumps, NOP and YIELD (R256 to R259) -/

theorem jTarget_zero (pc : Word) : jTarget pc 0 = pc := by simp [jTarget]

theorem exec_br_true {g : Guard} {s : State} (hg : guardHolds g s = true) (off : BitVec 20) :
    exec (.br g off) s = .next (s.jump (jTarget s.here.pc off)) := by
  rw [exec_br, execBr, scalar_true hg]

theorem exec_jal_true {g : Guard} {s : State} (hg : guardHolds g s = true) (off : BitVec 20) :
    exec (.jal g off) s = .next ((s.setReg 10 (s.here.pc + 4)).jump (jTarget s.here.pc off)) := by
  rw [exec_jal, execJal, scalar_true hg]

theorem exec_jalr_true {g : Guard} {s : State} (hg : guardHolds g s = true) {d : Field4} (hd : shadowReg d = false)
    (a : Field4) (e : BitVec 12) :
    exec (.jalr g d a e) s = .next ((s.setReg d (s.here.pc + 4)).jump (s.reg a + imm12 e)) := by
  rw [exec_jalr, execJalr, scalar_true hg, withDest_ok hd]

/-- The end of a YIELD lets its thread go on after it. -/
theorem execYieldExpiry_parked {s : State} (h : s.here.state = .parked .yieldUntil) :
    execYieldExpiry s.cur s = .next s.finish := by
  rw [execYieldExpiry, if_pos (show (s.slot s.cur).state = _ from h), State.finish]

/-- Settles O17: the transfers are jumps of the state they leave their link in, and a YIELD is a park with its timer. -/
theorem transferNopAndYield : Obligations.TransferNopAndYield := by
  refine ⟨⟨rfl, fun s g off d a e hd => ⟨fun hg => ⟨?_, ?_, ?_, fun h0 => ?_⟩, fun hg => ⟨?_, ?_, ?_⟩⟩⟩,
    fun s g hg => ⟨?_, (s.park .yieldUntil).timer (coreOfThread s.cur) 32 (.event (.yieldExpiry s.cur)), ?_⟩⟩
  · exact exec_br_true hg off
  · exact exec_jal_true hg off
  · exact exec_jalr_true hg hd a e
  · exact ⟨_, exec_br_true hg off, by rw [h0, jTarget_zero, State.jump, State.here_modHere]⟩
  · rw [exec_br, execBr, scalar_false hg]
  · rw [exec_jal, execJal, scalar_false hg]
  · rw [State.finish_here]
  · rw [exec_nop, execNop, scalar_true hg]
  · refine ⟨by rw [exec_yield, execYield, scalar_true hg], by simp, rfl, rfl, ?_⟩
    rw [exec_yieldExpiry]
    exact execYieldExpiry_parked (by simp)

/-! ### The entry of a trap (R261, R367 to R369) -/

/-- What a trap of thread `t` leaves in its slot when the supervisor takes it from outside a handler, and the step it
makes due. -/
theorem State.trapIn_supervisor_slot (s : State) (t c : Nat) (v : Word)
    (h : supervisorCause c = true ∨ (s.slot t).tvec = 0) (hi : (s.slot t).ih = false) :
    (s.trapIn t c v).slot t = { s.slot t with
      cause := BitVec.ofNat 64 c, epc := (s.slot t).pc, tval := v,
      trap := some (BitVec.ofNat 64 c, (s.slot t).pc, v), state := .saving 2 } ∧
    (s.trapIn t c v).pending = s.pending ++ [.event (.contextSave t)] := by
  rw [State.trapIn_supervisor s t c v h hi]
  exact ⟨by rw [State.event_slot, State.slot_setSlot_self], rfl⟩

/-- The same inside a handler, whose registers of the trap stay. -/
theorem State.trapIn_nested_slot (s : State) (t c : Nat) (v : Word) (hi : (s.slot t).ih = true) :
    (s.trapIn t c v).slot t = { s.slot t with
      trap := some (BitVec.ofNat 64 c, (s.slot t).pc, v), state := .saving 3 } ∧
    (s.trapIn t c v).pending = s.pending ++ [.event (.contextSave t)] := by
  rw [State.trapIn_nested s t c v hi]
  exact ⟨by rw [State.event_slot, State.slot_setSlot_self], rfl⟩

/-- A trap leaves the current thread the current one. -/
@[simp] theorem State.cur_trap (s : State) (c : Nat) (v : Word) : (s.trap c v).cur = s.cur := by
  unfold State.trap State.trapIn
  dsimp only
  split <;> rfl

theorem State.here_trap (s : State) (c : Nat) (v : Word) : (s.trap c v).here = (s.trapIn s.cur c v).slot s.cur := by
  rw [State.here, State.cur_trap]
  rfl

/-- The three ways of an instruction that is a trap of the current thread and not the supervisor's by its cause: the
thread's handler takes it, or the supervisor does from outside a handler or inside one. -/
theorem trap_routes {i : Instr} {s : State} {c : Nat} {v : Word} (hc : supervisorCause c = false)
    (hx : exec i s = .next (s.trap c v)) :
    (s.here.tvec ≠ 0 → s.here.ih = false → exec i s = .next (s.setSlot s.cur { s.here with
      cause := BitVec.ofNat 64 c, epc := s.here.pc, tval := v, ppl := s.here.pl, ih := true, unreachable := none,
      pc := s.here.tvec, state := .ready })) ∧
    (s.here.tvec = 0 → s.here.ih = false → ∃ t, exec i s = .next t ∧
      t.pending = s.pending ++ [.event (.contextSave s.cur)] ∧
      t.here = { s.here with
        cause := BitVec.ofNat 64 c, epc := s.here.pc, tval := v,
        trap := some (BitVec.ofNat 64 c, s.here.pc, v), state := .saving 2 }) ∧
    (s.here.ih = true → ∃ t, exec i s = .next t ∧ t.pending = s.pending ++ [.event (.contextSave s.cur)] ∧
      t.here = { s.here with trap := some (BitVec.ofNat 64 c, s.here.pc, v), state := .saving 3 }) := by
  refine ⟨fun hv hi => ?_, fun hv hi => ?_, fun hi => ?_⟩
  · rw [hx, s.trap_handler c v hc hv hi]
  · obtain ⟨hs, hp⟩ := s.trapIn_supervisor_slot s.cur c v (.inr hv) hi
    exact ⟨_, hx, hp, (s.here_trap c v).trans hs⟩
  · obtain ⟨hs, hp⟩ := s.trapIn_nested_slot s.cur c v hi
    exact ⟨_, hx, hp, (s.here_trap c v).trans hs⟩

/-- Settles O18: TRAP and BRK are traps with their causes, and a trap has three routes. -/
theorem trapEntry : Obligations.TrapEntry := by
  refine ⟨⟨rfl, rfl, fun s g code hg => ⟨?_, ?_⟩⟩, fun s t c v hc hi => s.trapIn_supervisor_slot t c v (.inl ?_) hi⟩
  · exact trap_routes (c := 0x14) rfl (by rw [exec_trap, execTrap, scalar_true hg])
  · exact trap_routes (c := 0x15) rfl (by rw [exec_brk, execBrk, scalar_true hg])
  · rcases hc with rfl | rfl | rfl <;> rfl

/-! ### Places (R268, R269) -/

/-- The layout of a built place with L written as a comparison of chips. -/
theorem buildPlace_eq (here : Nat) (x o : Word) :
    buildPlace here x o = 1#1 ++ BitVec.ofBool (decide ((x.extractLsb' 46 18).toNat = here)) ++ x.extractLsb' 46 18 ++
      x.extractLsb' 43 3 ++ x.extractLsb' 37 6 ++ x.extractLsb' 31 6 ++ x.extractLsb' 27 4 ++ 0#9 ++
      o.extractLsb' 0 16 := by
  have hl : (if (x.extractLsb' 46 18).toNat = here then (1 : BitVec 1) else 0) =
      BitVec.ofBool (decide ((x.extractLsb' 46 18).toNat = here)) := by
    split <;> simp_all
  unfold buildPlace
  rw [← hl]
  rfl

theorem buildPlace_local (here : Nat) (x o : Word) :
    (buildPlace here x o).getLsbD 62 = decide ((x.extractLsb' 46 18).toNat = here) := by
  unfold buildPlace
  repeat rw [bit_append_hi _ _ _ (by omega)]
  rw [bit_append_lo _ _ _ (by omega)]
  split <;> simp_all

/-- Chip, die, column, row and core of a built place are those of the coordinate word, two bits higher there, and its
offset is that of the offset operand. -/
theorem buildPlace_fields (here : Nat) (x o : Word) :
    let p := buildPlace here x o
    p.extractLsb' 44 18 = x.extractLsb' 46 18 ∧ p.extractLsb' 41 3 = x.extractLsb' 43 3 ∧
    p.extractLsb' 35 6 = x.extractLsb' 37 6 ∧ p.extractLsb' 29 6 = x.extractLsb' 31 6 ∧
    p.extractLsb' 25 4 = x.extractLsb' 27 4 ∧ p.extractLsb' 0 16 = o.extractLsb' 0 16 := by
  refine ⟨?_, ?_, ?_, ?_, ?_, ?_⟩
  all_goals
    unfold buildPlace
    repeat rw [field_append_hi _ _ _ _ (by omega)]
    rw [field_append_lo _ _ _ _ (by omega)]
    exact field_whole _

/-- The chip of a place as a field: the chip itself where L is set, and bits 61:44 otherwise. -/
theorem ofNat_placeChip (here : Nat) (p : Word) :
    BitVec.ofNat 18 (placeChip here p) = if p.getLsbD 62 then BitVec.ofNat 18 here else p.extractLsb' 44 18 := by
  unfold placeChip
  split
  · rfl
  · rw [BitVec.ofNat_toNat, BitVec.setWidth_eq]

theorem splitPlace_eq (here : Nat) (p : Word) :
    splitPlace here p = (if p.getLsbD 62 then BitVec.ofNat 18 here else p.extractLsb' 44 18) ++ p.extractLsb' 41 3 ++
      p.extractLsb' 35 6 ++ p.extractLsb' 29 6 ++ p.extractLsb' 25 4 ++ 0#11 ++ p.extractLsb' 0 16 := by
  rw [← ofNat_placeChip]
  rfl

/-- The coordinates of a coordinate word, side by side, are its bits 63:27. -/
theorem coordinates_append (x : Word) :
    x.extractLsb' 46 18 ++ x.extractLsb' 43 3 ++ x.extractLsb' 37 6 ++ x.extractLsb' 31 6 ++ x.extractLsb' 27 4 =
      x.extractLsb' 27 37 := by
  rw [BitVec.extractLsb'_append_extractLsb'_eq_extractLsb' (by omega),
    BitVec.extractLsb'_append_extractLsb'_eq_extractLsb' (by omega),
    BitVec.extractLsb'_append_extractLsb'_eq_extractLsb' (by omega),
    BitVec.extractLsb'_append_extractLsb'_eq_extractLsb' (by omega)]

/-- Taking a built place apart gives its coordinates and its offset back: where L is set, the chip it stands for is the
one of the coordinate word. -/
theorem splitPlace_buildPlace (here : Nat) (x o : Word) :
    splitPlace here (buildPlace here x o) = x.extractLsb' 27 37 ++ 0#11 ++ o.extractLsb' 0 16 := by
  obtain ⟨hchip, hdie, hcol, hrow, hcore, hoff⟩ := buildPlace_fields here x o
  have hl : (if (buildPlace here x o).getLsbD 62 then BitVec.ofNat 18 here
      else (buildPlace here x o).extractLsb' 44 18) = x.extractLsb' 46 18 := by
    rw [buildPlace_local, hchip]
    split
    next h => rw [← of_decide_eq_true h, BitVec.ofNat_toNat, BitVec.setWidth_eq]
    next => rfl
  rw [splitPlace_eq, hl, hdie, hcol, hrow, hcore, hoff, coordinates_append]

theorem exec_plc_true {g : Guard} {s : State} (hg : guardHolds g s = true) {d : Field4} (hd : shadowReg d = false)
    (a b : Field4) :
    exec (.plc g d a b) s = .next (s.setReg d (buildPlace (chipOfThread s.cur) (s.reg a) (s.reg b))).finish := by
  rw [exec_plc, execPlc, scalar_true hg, withDest_ok hd]

theorem exec_ploc_true {g : Guard} {s : State} (hg : guardHolds g s = true) {d : Field4} (hd : shadowReg d = false)
    (a : Field4) : exec (.ploc g d a) s = .next
      (if (s.reg a).getLsbD 63 = false ∨ (s.reg a).extractLsb' 16 9 ≠ 0 then s.trap 0x06 (s.reg a)
        else (s.setReg d (splitPlace (chipOfThread s.cur) (s.reg a))).finish) := by
  rw [exec_ploc, execPloc, scalar_true hg, withDest_ok hd]
  simp only [isPlace, Bool.or_eq_true, Bool.not_eq_true', bne_iff_ne]

/-! ### ROLL (R237, R270) -/

theorem exec_roll_true {g : Guard} {s : State} (hg : guardHolds g s = true) {d : Field4} (hd : shadowReg d = false)
    (a : Field4) : exec (.roll g d a) s = .next (s.setReg d ((rollHere s a).setWidth 64)).finish := by
  rw [exec_roll, execRoll, scalar_true hg, withDest_ok hd]

theorem exec_rollF_true {g : Guard} {s : State} (hg : guardHolds g s = true) {d : Field4} (hd : shadowReg d = false)
    (a : Field4) : exec (.rollF g d a) s = .next
      (s.setReg d ((uniformF32 ((rollHere s a).toNat / 256)).setWidth 64)).finish := by
  rw [exec_rollF, execRollF, scalar_true hg, withDest_ok hd]

/-- A pattern of a format with infinities whose sign bit is clear and whose exponent field is neither all zeros nor all
ones is a positive normal number (R214). -/
theorem decodeFloat_normal {f : Fmt} (hb : f.binary8 = false) (hi : f.hasInf = true) {x : Nat}
    (hs : x < 2 ^ (8 * f.bytes - 1)) (h0 : x / 2 ^ (f.prec - 1) ≠ 0) (h1 : x / 2 ^ (f.prec - 1) ≠ 2 ^ f.ebits - 1) :
    decodeFloat f x = .fin false (2 ^ (f.prec - 1) + x % 2 ^ (f.prec - 1))
      (f.emin - (f.prec - 1 : Nat) + ((x / 2 ^ (f.prec - 1) : Nat) - 1)) := by
  have hn : decide (2 ^ (8 * f.bytes - 1) ≤ x) = false := decide_eq_false (Nat.not_le.2 hs)
  have hm : magnitude f x = (2 ^ (f.prec - 1) + x % 2 ^ (f.prec - 1),
      f.emin - (f.prec - 1 : Nat) + ((x / 2 ^ (f.prec - 1) : Nat) - 1)) := if_neg h0
  unfold decodeFloat
  simp only [hb, hi, Bool.false_eq_true, if_false, if_true, Nat.mod_eq_of_lt hs, hn, h1, hm]

/-- The positive f32 pattern with exponent field `E` and fraction `T`. -/
theorem decodeFloat_f32_normal {E T : Nat} (h0 : 0 < E) (hE : E < 255) (hT : T < 2 ^ 23) :
    decodeFloat fmtF32 (E * 2 ^ 23 + T) = .fin false (2 ^ 23 + T) (E - 150) := by
  have hexp : (E * 2 ^ 23 + T) / 2 ^ (fmtF32.prec - 1) = E := by
    show (E * 2 ^ 23 + T) / 2 ^ 23 = E
    omega
  have hfrac : (E * 2 ^ 23 + T) % 2 ^ (fmtF32.prec - 1) = T := by
    show (E * 2 ^ 23 + T) % 2 ^ 23 = T
    omega
  have hs : E * 2 ^ 23 + T < 2 ^ (8 * fmtF32.bytes - 1) := by
    show E * 2 ^ 23 + T < 2 ^ 31
    omega
  have h1 : E ≠ 2 ^ fmtF32.ebits - 1 := by
    show E ≠ 255
    omega
  have he : fmtF32.emin - (fmtF32.prec - 1 : Nat) + ((E : Int) - 1) = E - 150 := by
    show (-126 : Int) - 23 + (E - 1) = E - 150
    omega
  rw [decodeFloat_normal rfl rfl hs (by rw [hexp]; omega) (by rw [hexp]; exact h1), hexp, hfrac, he]
  rfl

/-- The uniform value of a draw of 24 bits is below 1 and exactly u·2^−24. -/
theorem uniformF32_exact {u : Nat} (hu : u < 2 ^ 24) :
    (uniformF32 u).toNat < 0x3F800000 ∧
    ∃ m e, decodeFloat fmtF32 (uniformF32 u).toNat = .fin false m e ∧ -149 ≤ e ∧
      m * 2 ^ (e + 149).toNat = u * 2 ^ 125 := by
  by_cases h0 : u = 0
  · subst h0
    exact ⟨by decide, 0, -149, by decide, by decide, by decide⟩
  · have hlo : 2 ^ u.log2 ≤ u := Nat.log2_self_le h0
    have hhi : u < 2 ^ (u.log2 + 1) := Nat.lt_log2_self
    have hl : u.log2 < 24 := (Nat.log2_lt h0).2 hu
    generalize hk : u.log2 = k at hlo hhi hl
    have hp : 2 ^ k * 2 ^ (23 - k) = 2 ^ 23 := by rw [← Nat.pow_add]; congr 1; omega
    have hm1 : 2 ^ 23 ≤ u * 2 ^ (23 - k) := hp ▸ Nat.mul_le_mul_right _ hlo
    have hm2 : u * 2 ^ (23 - k) < 2 ^ 24 := by
      calc u * 2 ^ (23 - k) < 2 ^ (k + 1) * 2 ^ (23 - k) := Nat.mul_lt_mul_of_pos_right hhi (Nat.two_pow_pos _)
        _ = 2 ^ 24 := by rw [← Nat.pow_add]; congr 1; omega
    have hn : (uniformF32 u).toNat = (k + 103) * 2 ^ 23 + (u * 2 ^ (23 - k) - 2 ^ 23) := by
      rw [uniformF32, if_neg h0, hk, BitVec.toNat_ofNat]
      omega
    rw [hn]
    refine ⟨by omega, _, _, decodeFloat_f32_normal (by omega) (by omega) (by omega), by omega, ?_⟩
    have hm : 2 ^ 23 + (u * 2 ^ (23 - k) - 2 ^ 23) = u * 2 ^ (23 - k) := by omega
    have he : (((k + 103 : Nat) : Int) - 150 + 149).toNat = k + 102 := by omega
    have hp : 23 - k + (k + 102) = 125 := by omega
    rw [hm, he, Nat.mul_assoc, ← Nat.pow_add, hp]

/-- Settles O22: PLC and PLOC by the layout of a place, ROLL as the draw itself, ROLL.F by the exactness of its
value. -/
theorem placeAndRollForms : Obligations.PlaceAndRollForms := by
  refine ⟨fun s g d a b hg hd => ⟨?_, fun h => ?_, fun h1 h2 => ?_, ?_⟩, fun s g d a hg hd => ⟨?_, ?_⟩⟩
  · rw [exec_plc_true hg hd, buildPlace_eq]
  · rw [exec_ploc_true hg hd, if_pos h]
  · rw [exec_ploc_true hg hd, if_neg (by simp [h1, h2]), splitPlace_eq]
  · rw [← buildPlace_eq]
    exact splitPlace_buildPlace _ _ _
  · exact exec_roll_true hg hd a
  · obtain ⟨hlt, m, e, hv, he, hx⟩ := uniformF32_exact (Nat.div_lt_of_lt_mul (rollHere s a).isLt : _ / 256 < 2 ^ 24)
    exact ⟨_, exec_rollF_true hg hd a, hlt, m, e, hv, he, hx⟩

end Sys2Proof.Machine
end

section
/-! Proofs about encodings: the round trip of every instruction, the words that name none, and the manual's own words
(08). -/

namespace Sys2Proof.Machine

open Sys2Proof.Laws

/-- Each instruction by the round trip proved for its constructor. -/
theorem roundTrip_statement : ∀ i : Instr, RoundTrip.Statement i
  | .add .. => RoundTrip.add _ _ _ _ | .sub .. => RoundTrip.sub _ _ _ _ | .and .. => RoundTrip.and _ _ _ _
  | .or .. => RoundTrip.or _ _ _ _ | .xor .. => RoundTrip.xor _ _ _ _ | .shl .. => RoundTrip.shl _ _ _ _
  | .shr .. => RoundTrip.shr _ _ _ _ | .shra .. => RoundTrip.shra _ _ _ _ | .rotr .. => RoundTrip.rotr _ _ _ _
  | .min .. => RoundTrip.min _ _ _ _ | .max .. => RoundTrip.max _ _ _ _ | .minu .. => RoundTrip.minu _ _ _ _
  | .maxu .. => RoundTrip.maxu _ _ _ _ | .mul .. => RoundTrip.mul _ _ _ _ | .mulh .. => RoundTrip.mulh _ _ _ _
  | .mulhu .. => RoundTrip.mulhu _ _ _ _ | .div .. => RoundTrip.div _ _ _ _ | .divu .. => RoundTrip.divu _ _ _ _
  | .rem .. => RoundTrip.rem _ _ _ _ | .remu .. => RoundTrip.remu _ _ _ _ | .clz .. => RoundTrip.clz _ _ _
  | .ctz .. => RoundTrip.ctz _ _ _ | .popc .. => RoundTrip.popc _ _ _ | .sextB .. => RoundTrip.sextB _ _ _
  | .sextH .. => RoundTrip.sextH _ _ _ | .sextW .. => RoundTrip.sextW _ _ _ | .zextB .. => RoundTrip.zextB _ _ _
  | .zextH .. => RoundTrip.zextH _ _ _ | .zextW .. => RoundTrip.zextW _ _ _ | .addi .. => RoundTrip.addi _ _ _ _
  | .andi .. => RoundTrip.andi _ _ _ _ | .ori .. => RoundTrip.ori _ _ _ _ | .xori .. => RoundTrip.xori _ _ _ _
  | .shli .. => RoundTrip.shli _ _ _ _ | .shri .. => RoundTrip.shri _ _ _ _ | .shrai .. => RoundTrip.shrai _ _ _ _
  | .rotri .. => RoundTrip.rotri _ _ _ _ | .movi .. => RoundTrip.movi _ _ _ | .movk16 .. => RoundTrip.movk16 _ _ _
  | .movk32 .. => RoundTrip.movk32 _ _ _ | .movk48 .. => RoundTrip.movk48 _ _ _ | .cmp .. => RoundTrip.cmp _ _ _ _ _
  | .cmpi .. => RoundTrip.cmpi _ _ _ _ _ | .pand .. => RoundTrip.pand _ _ _ _ | .por .. => RoundTrip.por _ _ _ _
  | .pxor .. => RoundTrip.pxor _ _ _ _ | .pnot .. => RoundTrip.pnot _ _ _ | .pmov .. => RoundTrip.pmov _ _ _
  | .movpFromPw .. => RoundTrip.movpFromPw _ _ | .movpToPw .. => RoundTrip.movpToPw _ _ | .br .. => RoundTrip.br _ _
  | .jal .. => RoundTrip.jal _ _ | .jalr .. => RoundTrip.jalr _ _ _ _ | .nop .. => RoundTrip.nop _
  | .halt .. => RoundTrip.halt _ | .yield .. => RoundTrip.yield _ | .trap .. => RoundTrip.trap _ _
  | .eret .. => RoundTrip.eret _ | .brk .. => RoundTrip.brk _ _ | .gets .. => RoundTrip.gets _ _ _
  | .sets .. => RoundTrip.sets _ _ _ | .ld .. => RoundTrip.ld _ _ _ _ _ _ _ | .st .. => RoundTrip.st _ _ _ _ _ _
  | .ldl .. => RoundTrip.ldl _ _ _ _ _ _ | .stl .. => RoundTrip.stl _ _ _ _ _ | .ldh .. => RoundTrip.ldh _ _ _ _
  | .sth .. => RoundTrip.sth _ _ _ _ | .amoAdd .. => RoundTrip.amoAdd _ _ _ _ _ _
  | .amoMin .. => RoundTrip.amoMin _ _ _ _ _ _ | .amoMax .. => RoundTrip.amoMax _ _ _ _ _ _
  | .amoAnd .. => RoundTrip.amoAnd _ _ _ _ _ _ | .amoOr .. => RoundTrip.amoOr _ _ _ _ _ _
  | .amoXor .. => RoundTrip.amoXor _ _ _ _ _ _ | .amoXchg .. => RoundTrip.amoXchg _ _ _ _ _ _
  | .cas .. => RoundTrip.cas _ _ _ _ _ _ _ | .cas2 .. => RoundTrip.cas2 _ _ _ _ | .cas4 .. => RoundTrip.cas4 _ _ _ _
  | .enq .. => RoundTrip.enq _ _ _ _ | .deq .. => RoundTrip.deq _ _ _ _ | .chase .. => RoundTrip.chase _ _ _ _ _
  | .cwait .. => RoundTrip.cwait _ _ _ _ | .cwaitr .. => RoundTrip.cwaitr _ _ _ _
  | .cadd .. => RoundTrip.cadd _ _ _ _ | .caddRel .. => RoundTrip.caddRel _ _ _ _
  | .cpeek .. => RoundTrip.cpeek _ _ _ _ | .lempty .. => RoundTrip.lempty _ _ _ | .lfill .. => RoundTrip.lfill _ _ _
  | .lstate .. => RoundTrip.lstate _ _ _ | .wander .. => RoundTrip.wander _ _ | .home .. => RoundTrip.home _
  | .tx .. => RoundTrip.tx _ _ _ | .tq .. => RoundTrip.tq _ _ _ | .fork .. => RoundTrip.fork _ _ _ _
  | .rdv .. => RoundTrip.rdv _ _ _ | .tshape .. => RoundTrip.tshape _ _ _ _ _
  | .tshapeReg .. => RoundTrip.tshapeReg _ _ _ | .tget .. => RoundTrip.tget _ _ _ _
  | .tset .. => RoundTrip.tset _ _ _ _ | .park .. => RoundTrip.park _ _ _ _ | .unpark .. => RoundTrip.unpark _ _ _ _
  | .borrow .. => RoundTrip.borrow _ | .returnLent .. => RoundTrip.returnLent _ | .xget .. => RoundTrip.xget _ _ _
  | .xput .. => RoundTrip.xput _ _ _ | .launch .. => RoundTrip.launch _ _ _ _ | .trigger .. => RoundTrip.trigger _
  | .kvsub .. => RoundTrip.kvsub _ _ _ _ _ | .kvunsub .. => RoundTrip.kvunsub _ _ | .pass .. => RoundTrip.pass _ _
  | .post .. => RoundTrip.post _ _ _ | .fadd .. => RoundTrip.fadd _ _ _ _ _ _
  | .fsub .. => RoundTrip.fsub _ _ _ _ _ _ | .fmul .. => RoundTrip.fmul _ _ _ _ _ _
  | .fdiv .. => RoundTrip.fdiv _ _ _ _ _ _ | .fsqrt .. => RoundTrip.fsqrt _ _ _ _ _
  | .fmin .. => RoundTrip.fmin _ _ _ _ _ | .fmax .. => RoundTrip.fmax _ _ _ _ _ | .fneg .. => RoundTrip.fneg _ _ _ _
  | .fabs .. => RoundTrip.fabs _ _ _ _ | .fcvt .. => RoundTrip.fcvt _ _ _ _ _ | .fma .. => RoundTrip.fma _ _ _ _ _ _
  | .fms .. => RoundTrip.fms _ _ _ _ _ _ | .fnma .. => RoundTrip.fnma _ _ _ _ _ _
  | .fnms .. => RoundTrip.fnms _ _ _ _ _ _ | .fcmp .. => RoundTrip.fcmp _ _ _ _ _ _
  | .plc .. => RoundTrip.plc _ _ _ _ | .ploc .. => RoundTrip.ploc _ _ _ | .roll .. => RoundTrip.roll _ _ _
  | .rollF .. => RoundTrip.rollF _ _ _ | .stc .. => RoundTrip.stc _ _ _ _ _ | .tmma .. => RoundTrip.tmma _
  | .tmms .. => RoundTrip.tmms _ | .tmmb .. => RoundTrip.tmmb _ | .tmmd .. => RoundTrip.tmmd _
  | .radd .. => RoundTrip.radd _ | .rsub .. => RoundTrip.rsub _ | .rmul .. => RoundTrip.rmul _
  | .rfma .. => RoundTrip.rfma _ | .rmin .. => RoundTrip.rmin _ | .rmax .. => RoundTrip.rmax _
  | .rabs .. => RoundTrip.rabs _ | .rneg .. => RoundTrip.rneg _ | .rrcp .. => RoundTrip.rrcp _
  | .rrsq .. => RoundTrip.rrsq _ | .rexp2 .. => RoundTrip.rexp2 _ | .rlog2 .. => RoundTrip.rlog2 _
  | .rcvt .. => RoundTrip.rcvt _ | .rand .. => RoundTrip.rand _ | .ror .. => RoundTrip.ror _
  | .rxor .. => RoundTrip.rxor _ | .rshl .. => RoundTrip.rshl _ | .rshr .. => RoundTrip.rshr _
  | .rcmp .. => RoundTrip.rcmp _ | .rsel .. => RoundTrip.rsel _ | .rbcast .. => RoundTrip.rbcast _
  | .rsumr .. => RoundTrip.rsumr _ | .rmaxr .. => RoundTrip.rmaxr _ | .rscan .. => RoundTrip.rscan _
  | .rsort .. => RoundTrip.rsort _ | .ridx .. => RoundTrip.ridx _ | .rperm .. => RoundTrip.rperm _
  | .rroll .. => RoundTrip.rroll _ | .kand .. => RoundTrip.kand _ | .kor .. => RoundTrip.kor _
  | .kxor .. => RoundTrip.kxor _ | .knot .. => RoundTrip.knot _ | .tld .. => RoundTrip.tld _
  | .tst .. => RoundTrip.tst _ | .tsta .. => RoundTrip.tsta _ | .tzero .. => RoundTrip.tzero _
  | .tcopy .. => RoundTrip.tcopy _ | .ttrn .. => RoundTrip.ttrn _ | .cpy .. => RoundTrip.cpy _
  | .cpya .. => RoundTrip.cpya _ | .csched .. => RoundTrip.csched _ | .cstage .. => RoundTrip.cstage _
  | .gath .. => RoundTrip.gath _ | .scat .. => RoundTrip.scat _ | .atts .. => RoundTrip.atts _
  | .attp .. => RoundTrip.attp _ | .gmrg .. => RoundTrip.gmrg _ | .gtake .. => RoundTrip.gtake _
  | .spire .. => RoundTrip.spire _ | .retryTimeout .. => RoundTrip.retryTimeout _ | .scrub .. => RoundTrip.scrub _ _
  | .packetRoute .. => RoundTrip.packetRoute _ | .drainMarker .. => RoundTrip.drainMarker _ _
  | .gatewayFrame .. => RoundTrip.gatewayFrame _ _ | .forkBufferSend .. => RoundTrip.forkBufferSend _ _
  | .reeveOperation .. => RoundTrip.reeveOperation _ _ | .flagIncrement .. => RoundTrip.flagIncrement _
  | .waitRegistration .. => RoundTrip.waitRegistration _ | .wakeNotice .. => RoundTrip.wakeNotice _
  | .replyLands .. => RoundTrip.replyLands _ | .acknowledgement .. => RoundTrip.acknowledgement _
  | .busyNotice .. => RoundTrip.busyNotice _ | .homeReport .. => RoundTrip.homeReport _
  | .tableChange .. => RoundTrip.tableChange _ _ | .tableChangeAcknowledge .. => RoundTrip.tableChangeAcknowledge _ _
  | .movingExtentRecheck .. => RoundTrip.movingExtentRecheck _ | .nodeCacheFetch .. => RoundTrip.nodeCacheFetch _ _
  | .codeCacheFill .. => RoundTrip.codeCacheFill _ | .copyScheduleEntry .. => RoundTrip.copyScheduleEntry _ _
  | .submission .. => RoundTrip.submission _ | .admission .. => RoundTrip.admission _
  | .dispatch .. => RoundTrip.dispatch _ | .dependantSubmission .. => RoundTrip.dependantSubmission _
  | .taskRetirement .. => RoundTrip.taskRetirement _ | .taskEndFailedPartial .. => RoundTrip.taskEndFailedPartial _
  | .preEmption .. => RoundTrip.preEmption _ | .contextSave .. => RoundTrip.contextSave _
  | .saveRingRetry .. => RoundTrip.saveRingRetry _ | .resumption .. => RoundTrip.resumption _ _
  | .longOpResult .. => RoundTrip.longOpResult _ | .yieldExpiry .. => RoundTrip.yieldExpiry _
  | .engineCompletion .. => RoundTrip.engineCompletion _ | .wayfarerArrival .. => RoundTrip.wayfarerArrival _
  | .wayfarerStart .. => RoundTrip.wayfarerStart _ | .tollArrival .. => RoundTrip.tollArrival _
  | .tollReturn .. => RoundTrip.tollReturn _ | .subscriptionRegistration .. => RoundTrip.subscriptionRegistration _
  | .passOpen .. => RoundTrip.passOpen _ _ | .pageWalk .. => RoundTrip.pageWalk _ _
  | .stagingDelivery .. => RoundTrip.stagingDelivery _ | .spireRound .. => RoundTrip.spireRound _
  | .spirePackageSum .. => RoundTrip.spirePackageSum _ | .ouvvalFrame .. => RoundTrip.ouvvalFrame _ _ _
  | .negativeAcknowledgement .. => RoundTrip.negativeAcknowledgement _ _
  | .entryEnqueue .. => RoundTrip.entryEnqueue _ | .entryAdmission .. => RoundTrip.entryAdmission _ _ _ _
  | .relayEntry .. => RoundTrip.relayEntry _ | .relayCredit .. => RoundTrip.relayCredit _ _
  | .parcelOffer .. => RoundTrip.parcelOffer _ | .parcelAcceptance .. => RoundTrip.parcelAcceptance _
  | .parcelData .. => RoundTrip.parcelData _
  | .installationAcknowledgement .. => RoundTrip.installationAcknowledgement _
  | .parcelTransitFailure .. => RoundTrip.parcelTransitFailure _ | .commandEntry .. => RoundTrip.commandEntry _
  | .launchCommand .. => RoundTrip.launchCommand _ _ | .copyin .. => RoundTrip.copyin _ _
  | .copyout .. => RoundTrip.copyout _ _ | .mark .. => RoundTrip.mark _ _
  | .commandCompletion .. => RoundTrip.commandCompletion _ _ | .busyResend .. => RoundTrip.busyResend _
  | .rotorRelock .. => RoundTrip.rotorRelock _ _ | .helloFrame .. => RoundTrip.helloFrame _ _ _
  | .keyUpdate .. => RoundTrip.keyUpdate _ _ _ | .keyRotationTimer .. => RoundTrip.keyRotationTimer _ _
  | .powerOnReset .. => RoundTrip.powerOnReset _ | .bootRom .. => RoundTrip.bootRom _ _
  | .linkTraining .. => RoundTrip.linkTraining _ _ _ | .clusterReset .. => RoundTrip.clusterReset _
  | .clusterRelease .. => RoundTrip.clusterRelease _ | .routeTableWrite .. => RoundTrip.routeTableWrite _ _ _ _
  | .swapMarker .. => RoundTrip.swapMarker _ | .channelScrub .. => RoundTrip.channelScrub _ _ _
  | .tollCountSet .. => RoundTrip.tollCountSet _ _ | .tollHoldLimit .. => RoundTrip.tollHoldLimit _
  | .slotStart .. => RoundTrip.slotStart _ _ _ | .rotorTableChange .. => RoundTrip.rotorTableChange _ _
  | .qtailWrite .. => RoundTrip.qtailWrite _ _ | .jheadWrite .. => RoundTrip.jheadWrite _ _
  | .registerWrite .. => RoundTrip.registerWrite _ _ _ | .measurements .. => RoundTrip.measurements _ _
  | .dieOverTemperature .. => RoundTrip.dieOverTemperature _
  | .moduleOverTemperature .. => RoundTrip.moduleOverTemperature _
  | .darkPeriodMissed .. => RoundTrip.darkPeriodMissed _ _ | .gatewayTraining .. => RoundTrip.gatewayTraining _ _
  | .hostLinkTraining .. => RoundTrip.hostLinkTraining _ _ _ | .powerLoss .. => RoundTrip.powerLoss _
  | .disposition .. => RoundTrip.disposition _ _ | .parishCreate .. => RoundTrip.parishCreate _ _
  | .parishDestroy .. => RoundTrip.parishDestroy _ _

/-- Settles O2: the round trip of each constructor, read for the instructions that have an encoding and for those that
have none. -/
theorem encodeDecodeRoundTrip : Obligations.EncodeDecodeRoundTrip := by
  intro i hw
  have h := roundTrip_statement i hw
  refine ⟨fun he => ?_, fun ⟨hg, hc⟩ => ?_⟩
  · rwa [if_pos (by simpa [Option.isSome_iff_ne_none] using he)] at h
  · rwa [if_neg (by simp [hg, hc])] at h

/-! ### Words that name no instruction (Tables 8-11 and 8-16) -/

theorem decodeWord_guard_error {w : Word32} (h : (decodeGuard w).ok = false) : decodeWord w = .error .illegal := by
  simp [decodeWord, h]

theorem decodeWord_major_zero {w : Word32} (hg : (decodeGuard w).ok = true) (h : field w 20 6 = 0) :
    decodeWord w = .error .illegal := by
  simp [decodeWord, hg, h]

theorem decodeWord_no_body {w : Word32} (hg : (decodeGuard w).ok = true) (h0 : field w 20 6 ≠ 0)
    (h : decodeBody w (decodeGuard w) = none) : decodeWord w = .error .reserved := by
  have h0' : ¬ field w 20 6 = 0#6 := h0
  simp [decodeWord, hg, h0', h]

/-- No major from 0x30 up is listed in Table 8-4. -/
theorem decodeBody_major_unlisted {w : Word32} (g : Guard) (h : 0x30 ≤ (field w 20 6).toNat) : decodeBody w g = none := by
  unfold decodeBody
  dsimp only
  split
  all_goals try omega
  rfl

/-- Settles O3: each case by the check of `decodeWord` or `decodeCommand` that finds it. -/
theorem noInstructionRejected : Obligations.NoInstructionRejected := by
  refine ⟨fun w he hs => decodeWord_guard_error ?_, fun w hg h => decodeWord_major_zero hg h,
    fun w hg h => decodeWord_no_body hg ?_ (decodeBody_major_unlisted _ h), fun w h => ?_⟩
  · rcases hs with hs | hs
    · simp [Guard.ok, decodeGuard, -BitVec.getLsbD_eq_getElem, he, hs]
    · have hs' : ¬ field w 26 4 = 0#4 := hs
      simp [Guard.ok, decodeGuard, -BitVec.getLsbD_eq_getElem, he, hs']
  · intro h0
    simp [h0] at h
  · simp [decodeCommand, h]

/-- Settles O1: the words are closed terms, and the decoder evaluates them. -/
theorem wordsDecode : Obligations.WordsDecode := by
  refine ⟨?_, ?_, ?_, ?_, ?_, ?_, ?_, ?_, ?_, ?_, ?_⟩ <;> rfl

end Sys2Proof.Machine
end

section
/-! Proofs about stepping: which step comes next, the fetch of a core's cycle, and what holds at reset (95; 03 R57). -/

namespace Sys2Proof.Machine

/-- A machine with steps due runs the oldest of them when nothing else comes before it. -/
theorem step_due {s : State} {d : Due} {r : List Due} (ho : s.order = []) (ht : dueTimer s s.focus = none)
    (hp : s.pending = d :: r) : step s = perform (({ s with pending := r } : State).take d State.notice) := by
  rw [step_alive (State.isDead_of_pending (by simp [hp])), State.select_due ho ht hp]

theorem State.decodeHere_ok (s : State) {w : Word32} {i : Instr} (h : decodeWord w = .ok i) :
    s.decodeHere w = .run i s := by
  simp [State.decodeHere, h]

theorem State.take_command (s : State) {id : Nat} {o : EngOp} {i : Instr} (ho : s.op? id = some o)
    (hw : decodeCommand o.word = .ok i) (n : State → Notice → Nat → Nat → State) :
    s.take (.command id) n = .run i { s with curOp := id, cur := o.thread } := by
  simp [State.take, ho, hw]

theorem State.take_again (s : State) {t : Nat} {i : Instr} (hr : retried (s.slot t).state = true)
    (hp : (s.slot t).preempt = none) (hw : decodeWord (s.slot t).word = .ok i)
    (n : State → Notice → Nat → Nat → State) : s.take (.again t) n = .run i { s with cur := t } := by
  simp [State.take, hr, hp, State.decodeHere_ok _ hw]

/-- A step of the environment that has not come to its cycle, or comes to a chip without power, is passed over. -/
theorem State.select_input_early {s : State} {i : Instr} {q : List Choice} (ho : s.order = .input i :: q)
    (hd : s.inputDue i = false) : s.select State.notice = .done { s with order := q } := by
  unfold State.select
  split <;> simp_all

/-- Settles O5: each due step by the case of `State.take` for its kind, an input by `State.select`. -/
theorem stepRunsDueStep : Obligations.StepRunsDueStep := by
  refine fun s r => ⟨fun i ho ht hp => ?_, fun id o i ho ht hp hop hw => ?_, fun t i ho ht hp hr hpre hw => ?_,
    fun i q ho hi => ⟨fun hd => ?_, fun hd => ?_⟩⟩
  · rw [step_due ho ht hp]
    rfl
  · rw [step_due ho ht hp]
    exact congrArg perform (State.take_command { s with pending := r } hop hw State.notice)
  · rw [step_due ho ht hp]
    exact congrArg perform (State.take_again { s with pending := r } hr hpre hw State.notice)
  · rw [step_alive (State.isDead_of_order (by simp [ho])), State.select_input ho hi hd]
    rfl
  · rw [step_alive (State.isDead_of_order (by simp [ho])), State.select_input_early ho hd]
    rfl

/-- A word whose four bytes decode is what a core's cycle runs in the slot that its round chooses. -/
theorem State.issueOn_word {s : State} {core i : Nat} {w : Word32} {ins : Instr}
    (hp : (s.chip (chipOfCore core)).off = false) (hi : issuingSlot s core = some i)
    (hf : ({ s with cur := core * 8 + i, focus := core } : State).fetch (core * 8 + i) = .word w)
    (hw : decodeWord w = .ok ins) :
    s.issueOn core = .run ins ((({ s with cur := core * 8 + i, focus := core } : State).modHere fun c =>
      { c with issued := c.issued + 1, word := w }).takeCycle core i) := by
  unfold State.issueOn
  simp only [hp, Bool.false_eq_true, if_false, hi, hf]
  exact State.decodeHere_ok _ hw

/-- Bytes no more than four that decode are four, and decode as the word they are. -/
theorem decodeWord_of_decodeBytes {l : List Byte} {i : Instr} (hl : l.length ≤ 4) (h : decodeBytes l = .ok i) :
    decodeWord (BitVec.ofNat 32 (ofLittleEndian l)) = .ok i := by
  unfold decodeBytes at h
  split at h
  · exact h
  · rw [if_neg (by omega)] at h
    cases h

/-- Settles O4: with nothing else due the focus core issues, and its fetch brings the bytes of the cached line. -/
theorem stepIssuesDecodedInstruction : Obligations.StepIssuesDecodedInstruction := by
  intro s i line ins t c o ho hp ht hoff hi ha hpl he hl hd
  have hw := decodeWord_of_decodeBytes (List.length_take_le _ _) hd
  have hf : ({ s with cur := t, focus := s.focus } : State).fetch t = .word _ := State.fetch_cached ha hpl he hl
  rw [step_alive (State.isDead_of_power hoff), State.select_issue ho ht hp, State.issueOn_word hoff hi hf hw]
  rfl

/-! ### Reset -/

/-- Settles O6: storage, line states and the Granary have no entries at reset, so that each reads its default. -/
theorem resetClearsStorage : Obligations.ResetClearsStorage := ⟨fun _ => rfl, fun _ => rfl, fun _ _ => rfl⟩

/-- A scalar word placed for the next fetch writes its bytes and nothing else of memory. -/
theorem State.placeScalar_memOk {s : State} (w : Word32) (h : s.MemOk) : (s.placeScalar w).MemOk :=
  State.setBytes_memOk (s := s) _ h

theorem State.placeCommand_memOk {s : State} (w : Command) (h : s.MemOk) : (s.placeCommand w).MemOk :=
  State.placeScalar_memOk 0x01100000 h

/-- Settles O60: reset lists no byte, and an instruction that is placed for the fetch writes bytes one by one. -/
theorem resetMemoryCanonical : Obligations.ResetMemoryCanonical := by
  refine ⟨reset_memOk, fun nbits w => ?_⟩
  unfold State.withFetchWord State.placeWord
  split
  · exact State.placeScalar_memOk _ reset_memOk
  · exact State.placeCommand_memOk _ reset_memOk

end Sys2Proof.Machine
end

section
/-! Proofs of what scalar instructions share: guards, register writes, and destinations among x11 to x14 (Table 8-11,
steps 5 to 8). -/

namespace Sys2Proof.Machine

/-- `scalar_false` with what a true guard would do as a state, for meanings that are `scalar` only once unfolded. -/
theorem next_of_guard_false {g : Guard} {s : State} (h : guardHolds g s = false) (t u : State) :
    (.next (if guardHolds g s then t else u) : Out) = .next u := by
  rw [h, if_neg Bool.false_ne_true]

/-- A false guard leaves every scalar meaning only its advance of the PC: each is `scalar` of its guard. -/
theorem exec_guard_false {i : Instr} {g : Guard} {s : State} (hi : i.guard? = some g) (hg : guardHolds g s = false) :
    exec i s = .next s.finish := by
  cases i <;> cases hi <;> exact next_of_guard_false hg _ _

/-- Settles O7: the guard comes before everything else an instruction does. -/
theorem falseGuardOnlyAdvances : Obligations.FalseGuardOnlyAdvances :=
  fun _ _ s hi hg => ⟨exec_guard_false hi hg, by rw [State.finish_here]⟩

theorem State.slot_setReg_ne (s : State) (d : Field4) (v : Word) {u : Nat} (h : u ≠ s.cur) :
    (s.setReg d v).slot u = s.slot u := (onlyThread_setReg s d v).others u h

/-- Settles O8: the reads of x0 and x15, and the write of one register against reads of every register. -/
theorem registerWriteThenRead : Obligations.RegisterWriteThenRead :=
  fun s d _ v hd => ⟨State.regOf_zero s _, State.regOf_identity s _, fun h => State.setRegOf_discard s _ v h,
    fun h0 h15 => State.reg_setReg_self s v hd h0 h15, fun h => State.reg_setReg_ne s v h,
    fun _ h => State.slot_setReg_ne s d v h⟩

/-! ### Destinations among x11 to x14 (step 7 of Table 8-11) -/

/-- `withDest_shadow` behind a true guard, with what else would be done as states. -/
theorem next_of_shadow {g : Guard} {s : State} {d : Field4} (hg : guardHolds g s = true) (hd : shadowReg d = true)
    (t u : State) :
    (.next (if guardHolds g s then (if shadowReg d then s.trap 0x03 s.wordVal else t) else u) : Out) =
      .next (s.trap 0x03 (s.here.word.setWidth 64)) := by
  rw [hg, hd, if_pos rfl, if_pos rfl, State.wordVal]

/-- DEQ checks both of its destinations before it does anything. -/
theorem exec_deq_shadow {g : Guard} {d a b r : Field4} {s : State} (hg : guardHolds g s = true) (hr : r = d ∨ r = b)
    (hd : shadowReg r = true) : exec (.deq g d a b) s = .next (s.trap 0x03 (s.here.word.setWidth 64)) := by
  rw [exec_deq, execDeq, scalar_true hg]
  by_cases h : shadowReg d = true
  · rw [withDest_shadow h, State.wordVal]
  · obtain rfl | rfl := hr
    · exact absurd hd h
    · rw [withDest_ok (by simpa using h), withDest_shadow hd, State.wordVal]

theorem exec_xget_lent {g : Guard} {s : State} {k : Nat} (hg : guardHolds g s = true) (hl : s.here.lent = some k)
    {d : Field4} (hd : shadowReg d = true) (n : Field4) :
    exec (.xget g d n) s = .next (s.trap 0x03 (s.here.word.setWidth 64)) := by
  rw [exec_xget, execXget, scalar_true hg]
  simp only [withLent, hl]
  rw [withDest_shadow hd, State.wordVal]

theorem exec_xget_none {g : Guard} {s : State} (hg : guardHolds g s = true) (hl : s.here.lent = none) (d n : Field4) :
    exec (.xget g d n) s = .next (s.trap 0x04 (s.here.word.setWidth 64)) := by
  rw [exec_xget, execXget, scalar_true hg]
  simp only [withLent, hl, State.wordVal]

/-- Settles O9: every meaning with a destination checks it first behind its guard; DEQ has two, XGET looks for a lent slot
before, and the destination of JAL is x10. -/
theorem shadowDestinationTraps : Obligations.ShadowDestinationTraps := by
  refine ⟨fun i g d s hi hg hm hd hx => ?_, fun g d n s hg hl => exec_xget_none hg hl d n⟩
  cases i with
  | deq h e a b =>
    cases hi
    exact exec_deq_shadow hg (by simpa [Instr.dests] using hm) hd
  | xget h e n =>
    cases hi
    cases hl : s.here.lent with
    | none => exact absurd rfl (hx hl _ _ _)
    | some k =>
      obtain rfl : d = e := by simpa [Instr.dests] using hm
      exact exec_xget_lent hg hl hd n
  | jal h off =>
    obtain rfl : d = 10 := by simpa [Instr.dests] using hm
    exact absurd hd (by decide)
  | _ =>
    cases hi <;> rcases hm with _ | ⟨_, ⟨⟩⟩ <;> exact next_of_shadow hg hd _ _

end Sys2Proof.Machine
end

section
/-! Proofs for the integer forms, the constants, compares and predicates (10 R249, R250, R253 to R255). -/

namespace Sys2Proof.Machine

/-! ### The two shapes of an integer form -/

theorem aluR_ok {g : Guard} {s : State} (hg : guardHolds g s = true) {d : Field4} (hd : shadowReg d = false)
    (a b : Field4) (f : Word → Word → Word) : aluR g d a b f s = .next (s.setReg d (f (s.reg a) (s.reg b))).finish := by
  rw [aluR, scalar_true hg, withDest_ok hd]

theorem aluU_ok {g : Guard} {s : State} (hg : guardHolds g s = true) {d : Field4} (hd : shadowReg d = false)
    (a : Field4) (f : Word → Word) : aluU g d a f s = .next (s.setReg d (f (s.reg a))).finish := by
  rw [aluU, scalar_true hg, withDest_ok hd]

/-! ### Results of the register forms (Table 10-11) -/

theorem amount_eq (y : Word) : amount y = y.toNat % 64 := by
  simp [amount, field, BitVec.extractLsb'_toNat]

theorem minSigned_eq (x y : Word) : (if x.toInt ≤ y.toInt then x else y) = if y.slt x then y else x := by
  by_cases h : x.toInt ≤ y.toInt <;> simp [BitVec.slt, h]

/-- Where the operands are equal, either is the maximum. -/
theorem maxSigned_eq (x y : Word) : (if x.toInt ≤ y.toInt then y else x) = if x.slt y then y else x := by
  rcases lt_trichotomy x.toInt y.toInt with h | h | h
  · simp [BitVec.slt, h, h.le]
  · simp [BitVec.toInt_inj.1 h]
  · simp [BitVec.slt, h.not_ge, h.not_gt]

theorem minUnsigned_eq (x y : Word) : (if x.toNat ≤ y.toNat then x else y) = if y.ult x then y else x := by
  by_cases h : x.toNat ≤ y.toNat <;> simp [BitVec.ult, h]

theorem maxUnsigned_eq (x y : Word) : (if x.toNat ≤ y.toNat then y else x) = if x.ult y then y else x := by
  rcases lt_trichotomy x.toNat y.toNat with h | h | h
  · simp [BitVec.ult, h, h.le]
  · simp [BitVec.eq_of_toNat_eq h]
  · simp [BitVec.ult, h.not_ge, h.not_gt]

/-- The upper half of the signed product: dividing by 2^64 and dropping what lies above commute. -/
theorem mulhSigned_eq (x y : Word) : BitVec.ofInt 64 (x.toInt * y.toInt / 2 ^ 64) =
    (x.signExtend 128 * y.signExtend 128).extractLsb' 64 64 := by
  have hp : (x.signExtend 128 * y.signExtend 128) = BitVec.ofInt 128 (x.toInt * y.toInt) := by
    rw [BitVec.ofInt_mul, BitVec.signExtend, BitVec.signExtend]
  rw [hp]
  generalize x.toInt * y.toInt = p
  apply BitVec.eq_of_toNat_eq
  rw [BitVec.extractLsb'_toNat, BitVec.toNat_ofInt, BitVec.toNat_ofInt, Nat.shiftRight_eq_div_pow]
  omega

theorem mulhUnsigned_eq (x y : Word) : BitVec.ofNat 64 (x.toNat * y.toNat / 2 ^ 64) =
    (x.setWidth 128 * y.setWidth 128).extractLsb' 64 64 := by
  have hx : x.toNat < 2 ^ 64 := x.isLt
  have hy : y.toNat < 2 ^ 64 := y.isLt
  have hxy : x.toNat * y.toNat < 2 ^ 64 * 2 ^ 64 := Nat.mul_lt_mul'' hx hy
  apply BitVec.eq_of_toNat_eq
  rw [BitVec.extractLsb'_toNat, BitVec.toNat_ofNat, BitVec.toNat_mul, BitVec.toNat_setWidth, BitVec.toNat_setWidth,
    Nat.shiftRight_eq_div_pow, Nat.mod_eq_of_lt (a := x.toNat) (by omega), Nat.mod_eq_of_lt (a := y.toNat) (by omega)]
  generalize x.toNat * y.toNat = p at *
  omega

/-- Settles O10: each form is `aluR` of its function, and the functions are those of the table. -/
theorem registerFormResults : Obligations.RegisterFormResults := by
  intro s g d a b hg hd
  have ok := aluR_ok hg hd a b
  dsimp only
  refine ⟨ok (· + ·), ok (· - ·), ok (· &&& ·), ok (· ||| ·), ok (· ^^^ ·), ?_, ?_, ?_, ?_, ?_, ?_, ?_, ?_, ok (· * ·),
    ?_, ?_⟩
  · rw [exec_shl, execShl, ok, amount_eq]
  · rw [exec_shr, execShr, ok, amount_eq]
  · rw [exec_shra, execShra, ok, amount_eq]
  · rw [exec_rotr, execRotr, ok, amount_eq]
  · rw [exec_min, execMin, ok, minSigned_eq]
  · rw [exec_max, execMax, ok, maxSigned_eq]
  · rw [exec_minu, execMinu, ok, minUnsigned_eq]
  · rw [exec_maxu, execMaxu, ok, maxUnsigned_eq]
  · rw [exec_mulh, execMulh, ok, mulhSigned_eq]
  · rw [exec_mulhu, execMulhu, ok, mulhUnsigned_eq]

/-! ### Counts of bits -/

theorem leadingZeros_le (w : Word) (n : Nat) : leadingZeros w n ≤ n := by
  induction n with
  | zero => exact Nat.le_refl 0
  | succ n ih =>
    rw [leadingZeros]
    split <;> omega

theorem getLsbD_of_leadingZeros (w : Word) {n k : Nat} (hk : k < n) (h : n - leadingZeros w n ≤ k) :
    w.getLsbD k = false := by
  induction n with
  | zero => omega
  | succ n ih =>
    rw [leadingZeros] at h
    split at h
    · omega
    · rename_i hn
      obtain rfl | hlt := Nat.eq_or_lt_of_le (Nat.le_of_lt_succ hk)
      · simpa using hn
      · exact ih hlt (by omega)

theorem getLsbD_leadingZeros (w : Word) {n : Nat} (h : leadingZeros w n < n) :
    w.getLsbD (n - 1 - leadingZeros w n) = true := by
  induction n with
  | zero => omega
  | succ n ih =>
    rw [leadingZeros] at h ⊢
    split at h
    · rename_i hn
      rw [if_pos hn]
      simpa using hn
    · rename_i hn
      rw [if_neg hn, show n + 1 - 1 - (1 + leadingZeros w n) = n - 1 - leadingZeros w n by omega]
      exact ih (by omega)

theorem trailingZeros_le (w : Word) (n : Nat) : trailingZeros w n ≤ n := by
  induction n with
  | zero => exact Nat.le_refl 0
  | succ n ih =>
    rw [trailingZeros]
    split <;> omega

theorem getLsbD_of_trailingZeros (w : Word) {n k : Nat} (hn : n ≤ 64) (hk : 64 - n ≤ k)
    (h : k < 64 - n + trailingZeros w n) : w.getLsbD k = false := by
  induction n with
  | zero => simp [trailingZeros] at h; omega
  | succ n ih =>
    rw [trailingZeros] at h
    split at h
    · omega
    · rename_i hb
      obtain rfl | hlt := Nat.eq_or_lt_of_le hk
      · rw [show 64 - (n + 1) = 63 - n by omega]
        simpa using hb
      · exact ih (by omega) (by omega) (by omega)

theorem getLsbD_trailingZeros (w : Word) {n : Nat} (hn : n ≤ 64) (h : trailingZeros w n < n) :
    w.getLsbD (64 - n + trailingZeros w n) = true := by
  induction n with
  | zero => omega
  | succ n ih =>
    rw [trailingZeros] at h ⊢
    split at h
    · rename_i hb
      rw [if_pos hb, show 64 - (n + 1) + 0 = 63 - n by omega]
      exact hb
    · rename_i hb
      rw [if_neg hb, show 64 - (n + 1) + (1 + trailingZeros w n) = 64 - n + trailingZeros w n by omega]
      exact ih (by omega) (by omega)

theorem oneBits_eq (w : Word) (n : Nat) : oneBits w n = (List.range n).countP fun k => w.getLsbD k := by
  induction n with
  | zero => rfl
  | succ n ih =>
    rw [oneBits, ih, List.range_succ, List.countP_append, List.countP_singleton, Nat.add_comm]

/-! ### Extensions -/

theorem zext_eq_and (x : Word) (n : Nat) (h : n ≤ 64) :
    (field x 0 n).setWidth 64 = x &&& BitVec.ofNat 64 (2 ^ n - 1) := by
  apply BitVec.eq_of_toNat_eq
  have hn : 2 ^ n ≤ 2 ^ 64 := Nat.pow_le_pow_right (by omega) h
  have hp : 0 < 2 ^ n := Nat.two_pow_pos n
  rw [BitVec.toNat_and, BitVec.toNat_ofNat, BitVec.toNat_setWidth, field, BitVec.extractLsb'_toNat,
    Nat.mod_eq_of_lt (a := 2 ^ n - 1) (by omega), Nat.and_two_pow_sub_one_eq_mod, Nat.shiftRight_zero]
  exact Nat.mod_eq_of_lt (lt_of_lt_of_le (Nat.mod_lt _ hp) hn)

/-- Settles O11: each form is `aluU` of its function, the counts by the lemmas on the bits they count. -/
theorem unaryFormResults : Obligations.UnaryFormResults := by
  intro s g d a hg hd
  have ok := aluU_ok hg hd a
  dsimp only
  refine ⟨⟨leadingZeros (s.reg a) 64, leadingZeros_le _ _, ?_, fun k hk h => getLsbD_of_leadingZeros _ hk h,
      fun h => getLsbD_leadingZeros _ h⟩,
    ⟨trailingZeros (s.reg a) 64, trailingZeros_le _ _, ?_,
      fun k h => getLsbD_of_trailingZeros _ (n := 64) (by omega) (by omega) (by omega),
      fun h => by simpa only [Nat.sub_self, Nat.zero_add] using getLsbD_trailingZeros _ (Nat.le_refl 64) h⟩,
    ?_, ok (extend 1 true), ok (extend 2 true), ok (extend 4 true), ?_, ?_, ?_⟩
  · rw [exec_clz, execClz, ok]
  · rw [exec_ctz, execCtz, ok]
  · rw [exec_popc, execPopc, ok, oneBits_eq]
  · rw [exec_zextB, execZextB, ok, zext_eq_and _ 8 (by omega)]
    rfl
  · rw [exec_zextH, execZextH, ok, zext_eq_and _ 16 (by omega)]
    rfl
  · rw [exec_zextW, execZextW, ok, zext_eq_and _ 32 (by omega)]
    rfl

/-! ### Immediate forms and constants -/

theorem getLsbD_replace16 (w : Word) (e : BitVec 16) {n i : Nat} (hi : i < 64) :
    (replace16 w n e).getLsbD i = if i < n then w.getLsbD i else if i - n < 16 then e.getLsbD (i - n) else w.getLsbD i := by
  have hm : (0xFFFF : Word) = (BitVec.allOnes 16).setWidth 64 := rfl
  rw [replace16, hm, BitVec.getLsbD_or, BitVec.getLsbD_and, BitVec.getLsbD_not, BitVec.getLsbD_shiftLeft,
    BitVec.getLsbD_shiftLeft, BitVec.getLsbD_setWidth, BitVec.getLsbD_setWidth, BitVec.getLsbD_allOnes]
  by_cases h : i < n
  · simp [h, hi]
  · have hn : i - n < 64 := by omega
    by_cases h' : i - n < 16
    · simp [h, h', hi, hn]
    · simp [h, h', hi, hn, BitVec.getLsbD_of_ge e (i - n) (by omega)]

/-- A word whose bits are those of `w` but for the 16 from bit `n` up, which are `e`. -/
theorem eq_replace16 {w v : Word} {e : BitVec 16} {n : Nat}
    (h : ∀ i < 64, v.getLsbD i = if i < n then w.getLsbD i else if i - n < 16 then e.getLsbD (i - n) else w.getLsbD i) :
    replace16 w n e = v :=
  BitVec.eq_of_getLsbD_eq fun i hi => by rw [getLsbD_replace16 w e hi, h i hi]

/-- MOVK.n replaces one quarter of the register: seen as a concatenation, the parts above and below stay. -/
theorem replace16_16 (w : Word) (e : BitVec 16) :
    replace16 w 16 e = w.extractLsb' 32 32 ++ e ++ w.extractLsb' 0 16 := by
  refine eq_replace16 fun i hi => ?_
  rw [BitVec.getLsbD_append, BitVec.getLsbD_append, BitVec.getLsbD_extractLsb', BitVec.getLsbD_extractLsb']
  grind

theorem replace16_32 (w : Word) (e : BitVec 16) :
    replace16 w 32 e = w.extractLsb' 48 16 ++ e ++ w.extractLsb' 0 32 := by
  refine eq_replace16 fun i hi => ?_
  rw [BitVec.getLsbD_append, BitVec.getLsbD_append, BitVec.getLsbD_extractLsb', BitVec.getLsbD_extractLsb']
  grind

theorem replace16_48 (w : Word) (e : BitVec 16) : replace16 w 48 e = e ++ w.extractLsb' 0 48 := by
  refine eq_replace16 fun i hi => ?_
  rw [BitVec.getLsbD_append, BitVec.getLsbD_extractLsb']
  grind

/-- Settles O12: the immediates are sign-extended operands, and MOVK by the parts of the register. -/
theorem immediateFormResults : Obligations.ImmediateFormResults := by
  intro s g d a e n w hg hd
  have ok := aluU_ok hg hd
  dsimp only
  refine ⟨ok a (· + imm12 e), ok a (· &&& imm12 e), ok a (· ||| imm12 e), ok a (· ^^^ imm12 e), ok a (· <<< n.toNat),
    ok a (· >>> n.toNat), ok a (·.sshiftRight n.toNat), ok a (·.rotateRight n.toNat), ok d (fun _ => imm16 w), ?_, ?_, ?_⟩
  · rw [exec_movk16, execMovk16, ok, replace16_16]
  · rw [exec_movk32, execMovk32, ok, replace16_32]
  · rw [exec_movk48, execMovk48, ok, replace16_48]

/-! ### Frames of the integer forms -/

/-- What an integer form whose destination may be written can lead to: the write of its result, or with a false guard
nothing; the PC advances. -/
theorem intForm_frame {g : Guard} {s t : State} {d : Field4} (hd : shadowReg d = false) (v : Word)
    (h : (.next (if guardHolds g s then (if shadowReg d then s.trap 0x03 s.wordVal else (s.setReg d v).finish)
      else s.finish) : Out) = .next t) : XFrame s t [d] ∧ t.here.pc = s.here.pc + 4 := by
  rw [hd, if_neg Bool.false_ne_true] at h
  cases h
  split
  · exact ⟨xFrame_write s d v, setReg_finish_pc s d v⟩
  · exact ⟨xFrame_finish s [d], by rw [State.finish_here]⟩

/-- Settles O13: every integer form is a guarded write of one register. -/
theorem integerFrame : Obligations.IntegerFrame := by
  intro i s t hi hd h
  cases i <;> cases hi <;> exact intForm_frame (hd _ (List.mem_singleton.2 rfl)) _ h

/-! ### Compares and predicate forms (Tables 8-6 and 8-7) -/

theorem setsPred_true {g : Guard} {s : State} (hg : guardHolds g s = true) (p : Field4) (f : State → Bool) :
    setsPred g p f s = .next (s.setPred p (f s)).finish := by
  rw [setsPred, scalar_true hg]

/-- Each condition code is its comparison. -/
theorem condition_eq (x y : Word) :
    condition 0 x y = decide (x = y) ∧ condition 1 x y = decide (x ≠ y) ∧ condition 2 x y = x.slt y ∧
    condition 3 x y = x.ult y ∧ condition 4 x y = y.sle x ∧ condition 5 x y = y.ule x := by
  refine ⟨?_, ?_, rfl, rfl, rfl, rfl⟩ <;> by_cases h : x = y <;> simp [condition, h]

theorem exec_cmp_true {g : Guard} {s : State} (hg : guardHolds g s = true) (p a b : Field4) {cc : Nat} (h : cc < 2 ^ 8) :
    exec (.cmp g p a b (BitVec.ofNat 8 cc)) s = .next (s.setPred p (condition cc (s.reg a) (s.reg b))).finish := by
  rw [exec_cmp, execCmp, setsPred_true hg, BitVec.toNat_ofNat, Nat.mod_eq_of_lt h]

theorem exec_cmpi_true {g : Guard} {s : State} (hg : guardHolds g s = true) (p a : Field4) (e : BitVec 9) {cc : Nat}
    (h : cc < 2 ^ 3) : exec (.cmpi g p a (BitVec.ofNat 3 cc) e) s =
      .next (s.setPred p (condition cc (s.reg a) (e.signExtend 64))).finish := by
  rw [exec_cmpi, execCmpi, setsPred_true hg, BitVec.toNat_ofNat, Nat.mod_eq_of_lt h, imm9]

/-- Settles O15: compares by `condition_eq`, the predicate forms by what they combine. -/
theorem predicateResults : Obligations.PredicateResults := by
  intro s g p a b d e hg hd
  have sets := fun f => setsPred_true hg p f
  obtain ⟨r0, r1, r2, r3, r4, r5⟩ := condition_eq (s.reg a) (s.reg b)
  obtain ⟨i0, i1, i2, i3, i4, i5⟩ := condition_eq (s.reg a) (e.signExtend 64)
  dsimp only
  refine ⟨⟨?_, ?_, ?_, ?_, ?_, ?_⟩, ⟨?_, ?_, ?_, ?_, ?_, ?_⟩, ?_, ?_, ?_, ?_, ?_, ?_, ?_⟩
  · rw [exec_cmp_true hg p a b (by decide), r0]
  · rw [exec_cmp_true hg p a b (by decide), r1]
  · rw [exec_cmp_true hg p a b (by decide), r2]
  · rw [exec_cmp_true hg p a b (by decide), r3]
  · rw [exec_cmp_true hg p a b (by decide), r4]
  · rw [exec_cmp_true hg p a b (by decide), r5]
  · rw [exec_cmpi_true hg p a e (by decide), i0]
  · rw [exec_cmpi_true hg p a e (by decide), i1]
  · rw [exec_cmpi_true hg p a e (by decide), i2]
  · rw [exec_cmpi_true hg p a e (by decide), i3]
  · rw [exec_cmpi_true hg p a e (by decide), i4]
  · rw [exec_cmpi_true hg p a e (by decide), i5]
  · rw [exec_pand, execPand, sets]
  · rw [exec_por, execPor, sets]
  · rw [exec_pxor, execPxor, sets]
  · rw [exec_pnot, execPnot, sets]
  · rw [exec_pmov, execPmov, sets]
  · rw [exec_movpFromPw, execMovpFromPw, aluU_ok hg hd]
  · rw [exec_movpToPw, execMovpToPw, scalar_true hg, field]

/-! ### Frames of compares and predicate forms -/

/-- A change of the slot that leaves x and wf leaves every register. -/
theorem State.reg_modHere (s : State) {f : Slot → Slot} (hx : (f s.here).x = s.here.x) (hw : (f s.here).wf = s.here.wf)
    (r : Field4) : (s.modHere f).reg r = s.reg r := by
  have hc : (s.modHere f).slot s.cur = f s.here := State.here_modHere s f
  have hh : s.slot s.cur = s.here := rfl
  show (s.modHere f).regOf s.cur r = s.regOf s.cur r
  unfold State.regOf
  rw [hc, hx, hw, hh]

/-- An instruction that only completes changes no predicate. -/
theorem predFrame_finish (s : State) (p : Field4) : PredFrame s s.finish p :=
  ⟨onlyThread_finish s, by rw [State.finish_here], fun q _ => by simp [State.pred]⟩

/-- What a compare or a predicate form can lead to: the write of one predicate, or with a false guard nothing. -/
theorem predForm_frame {g : Guard} {s t : State} {p : Field4} (v : Bool)
    (h : (.next (if guardHolds g s then (s.setPred p v).finish else s.finish) : Out) = .next t) :
    PredFrame s t p ∧ t.here.pc = s.here.pc + 4 ∧ ∀ r, t.reg r = s.reg r := by
  cases h
  split
  · refine ⟨predFrame_write s p v, ?_, fun r => ?_⟩
    · rw [State.finish_here, State.setPred, State.here_modHere]
    · rw [State.finish_reg, State.setPred]
      exact State.reg_modHere s rfl rfl r
  · exact ⟨predFrame_finish s p, by rw [State.finish_here], State.finish_reg s⟩

theorem exec_movpToPw_frame {s t : State} {g : Guard} {a : Field4} (h : exec (.movpToPw g a) s = .next t) :
    OnlyThread s t ∧ t.here = { s.here with preds := t.here.preds, pc := s.here.pc + 4, state := t.here.state } ∧
      ∀ r, t.reg r = s.reg r := by
  rw [exec_movpToPw, execMovpToPw] at h
  by_cases hg : guardHolds g s = true
  · rw [scalar_true hg] at h
    cases h
    refine ⟨onlyThread_trans (onlyThread_modHere s _) rfl (onlyThread_finish _), ?_, fun r => ?_⟩
    · rw [State.finish_here, State.here_modHere]
    · rw [State.finish_reg]
      exact State.reg_modHere s rfl rfl r
  · rw [scalar_false (by simpa using hg)] at h
    cases h
    exact ⟨onlyThread_finish s, by rw [State.finish_here], State.finish_reg s⟩

/-- Settles O16: the seven forms write one predicate behind their guard, and MOVP to the predicates changes the predicate word. -/
theorem predicateFrame : Obligations.PredicateFrame := by
  refine ⟨fun s t g p a b cc c3 e i hi h => ?_, fun s t g a h => exec_movpToPw_frame h⟩
  simp only [List.mem_cons, List.not_mem_nil, or_false] at hi
  obtain rfl | rfl | rfl | rfl | rfl | rfl | rfl := hi <;> exact predForm_frame _ h

end Sys2Proof.Machine
end

section
/-! Proofs for scalar floating point (10 R263 to R267; 09). -/

namespace Sys2Proof.Machine

/-! ### Results that are rounded once -/

theorem fpOp_true {g : Guard} {s : State} (hg : guardHolds g s = true) {d : Field4} (hd : shadowReg d = false)
    (a b : Field4) (dbl : Bool) (rm : BitVec 3) (f : Bool → Val → Val → Val × Bool) :
    fpOp g d a b dbl rm f s = .next (fpResult d
      { roundFloat (fmtOf dbl) (scalarRounding s rm) false
          (f ((scalarRounding s rm).code = 2) (fpOperand dbl (s.reg a)) (fpOperand dbl (s.reg b))).1 with
        nv := (f ((scalarRounding s rm).code = 2) (fpOperand dbl (s.reg a)) (fpOperand dbl (s.reg b))).2 } s) := by
  rw [fpOp, scalar_true hg, withDest_ok hd]

theorem fused_true {g : Guard} {s : State} (hg : guardHolds g s = true) {d : Field4} (hd : shadowReg d = false)
    (a b c : Field4) (dbl np na : Bool) :
    fused np na g d a b c dbl s = .next (fpResult d
      { roundFloat (fmtOf dbl) (scalarRounding s 6) false
          (fmaVal ((scalarRounding s 6).code = 2) np na (fpOperand dbl (s.reg a)) (fpOperand dbl (s.reg b))
            (fpOperand dbl (s.reg c))).1 with
        nv := (fmaVal ((scalarRounding s 6).code = 2) np na (fpOperand dbl (s.reg a)) (fpOperand dbl (s.reg b))
            (fpOperand dbl (s.reg c))).2 } s) := by
  rw [fused, scalar_true hg, withDest_ok hd]

/-- The exact value of a fused form: the product's invalid case comes first. -/
theorem fmaVal_eq (dn np na : Bool) (a b c : Val) : fmaVal dn np na a b c =
    if (mulVal a b).2 then (.nan, true)
    else addVal dn (if np then (mulVal a b).1.neg else (mulVal a b).1) (if na then c.neg else c) := rfl

/-- Settles O23: each form is one rounding of its exact value. -/
theorem floatResults : Obligations.FloatResults := by
  intro s g d a b c dbl rm conv hg hd
  have two := fpOp_true hg hd a b dbl rm
  have three := fused_true hg hd a b c dbl
  refine ⟨?_, ?_, ?_, ?_, ?_, ?_, ?_, ?_⟩ <;> dsimp only
  · rw [exec_fadd, execFadd, two]
    rfl
  · rw [exec_fsub, execFsub, two]
    rfl
  · rw [exec_fmul, execFmul, two]
    rfl
  · rw [exec_fma, execFma, three, fmaVal_eq]
    rfl
  · rw [exec_fms, execFms, three, fmaVal_eq]
    rfl
  · rw [exec_fnma, execFnma, three, fmaVal_eq]
    rfl
  · rw [exec_fnms, execFnms, three, fmaVal_eq]
    rfl
  · rw [exec_fcvt, execFcvt, scalar_true hg, withDest_ok hd]
    rfl

/-! ### Results that come later (R252) -/

/-- A form that parks for its result, and the end of its wait. -/
theorem fpLong_parks (s : State) (n : Nat) (d : Field4) (r : Rounded) :
    (fpLong n d r s).here.state = .parked .longOp ∧ (fpLong n d r s).here.pc = s.here.pc ∧
    (fpLong n d r s).timers = s.timers ++ [(coreOfThread s.cur, (s.core (coreOfThread s.cur)).cyc.toNat + n,
      .event (.longOpResult s.cur))] ∧
    exec (.longOpResult s.cur) (fpLong n d r s) = .next
      ((((fpLong n d r s).setReg d (BitVec.ofNat 64 r.bits)).modHere fun c =>
        { c with fflags := s.here.fflags ||| r.flags, result := none }).finish) := by
  unfold fpLong
  generalize BitVec.ofNat 64 r.bits = v
  generalize s.here.fflags ||| r.flags = fl
  have hh := here_longOp s n d.toNat v fl
  refine ⟨by rw [hh], by rw [hh], timers_longOp _ _ _ _ _, ?_⟩
  rw [exec_longOpResult, ← cur_longOp s n d.toNat v fl, execLongOpResult_parked (d := d) (by rw [hh]) (by rw [hh])]

/-- Settles O25: both forms park with their result, which the end of the long operation writes. -/
theorem floatLongForms : Obligations.FloatLongForms := by
  intro s g d a b dbl rm hg hd
  refine ⟨⟨_, ?_, fpLong_parks s _ d _⟩, ⟨_, ?_, fpLong_parks s _ d _⟩⟩
  · rw [exec_fdiv, execFdiv, scalar_true hg, withDest_ok hd]
  · rw [exec_fsqrt, execFsqrt, scalar_true hg, withDest_ok hd]

/-! ### Encodings of the formats with a sign bit and infinities -/

/-- A format of R213's kind: sign, `ebits` exponent bits and `fb` fraction bits; every exponent below the largest is that of
finite values. -/
structure Fmt.Ieee (f : Fmt) (fb : Nat) : Prop where
  prec : f.prec = fb + 1
  binary8 : f.binary8 = false
  hasInf : f.hasInf = true
  signed : f.signed = true
  width : 8 * f.bytes - 1 = f.ebits + fb
  maxM : f.maxM = 2 ^ (fb + 1) - 1
  maxE : f.maxE = f.emin - fb + (2 ^ f.ebits - 3 : Nat)
  ebits : 2 ≤ f.ebits

theorem fmtF32_ieee : fmtF32.Ieee 23 := by constructor <;> decide

theorem fmtF64_ieee : fmtF64.Ieee 52 := by constructor <;> decide

/-- The magnitude code `c` is that of a NaN. -/
def Fmt.nanCode (f : Fmt) (fb c : Nat) : Prop := c / 2 ^ fb = 2 ^ f.ebits - 1 ∧ c % 2 ^ fb ≠ 0

/-- Rounding at a value's own quantum changes nothing. -/
theorem roundAt_self (rm : Rounding) (neg : Bool) (m : Nat) (e : Int) (odd : Nat → Bool) :
    roundAt rm neg m e e odd = (m, false) := by
  simp [roundAt, atQuantum, roundUp]

section
variable {f : Fmt} {fb : Nat} (h : f.Ieee fb)
include h

/-- A code read as its sign and its magnitude code. -/
theorem decodeFloat_signed (neg : Bool) {c : Nat} (hc : c < 2 ^ (f.ebits + fb)) :
    decodeFloat f (signBits f neg + c) =
      if c / 2 ^ fb = 2 ^ f.ebits - 1 then (if c % 2 ^ fb = 0 then .inf neg else .nan)
      else .fin neg (magnitude f c).1 (magnitude f c).2 := by
  have hm : (signBits f neg + c) % 2 ^ (f.ebits + fb) = c := by
    cases neg <;> simp [signBits, h.width, Nat.mod_eq_of_lt hc]
  have hs : decide (2 ^ (f.ebits + fb) ≤ signBits f neg + c) = neg := by
    cases neg <;> simp [signBits, h.width, hc]
  unfold decodeFloat
  simp only [h.binary8, Bool.false_eq_true, if_false, h.hasInf, if_true, h.width, h.prec, Nat.add_sub_cancel, hm, hs]

theorem decodeFloat_nan (neg : Bool) {c : Nat} (hc : c < 2 ^ (f.ebits + fb)) (hn : f.nanCode fb c) :
    decodeFloat f (signBits f neg + c) = .nan := by
  rw [decodeFloat_signed h neg hc, if_pos hn.1, if_neg hn.2]

theorem decodeFloat_ne_nan (neg : Bool) {c : Nat} (hc : c < 2 ^ (f.ebits + fb)) (hn : ¬ f.nanCode fb c) :
    (decodeFloat f (signBits f neg + c)).isNan = false := by
  rw [decodeFloat_signed h neg hc]
  split
  · rename_i he
    have h0 : c % 2 ^ fb = 0 := by
      by_contra h0
      exact hn ⟨he, h0⟩
    rw [if_pos h0]
    rfl
  · rfl

theorem decodeFloat_neg (neg : Bool) {c : Nat} (hc : c < 2 ^ (f.ebits + fb)) :
    (decodeFloat f (signBits f neg + c)).neg = decodeFloat f (signBits f (!neg) + c) := by
  rw [decodeFloat_signed h neg hc, decodeFloat_signed h (!neg) hc]
  split
  · split <;> rfl
  · rfl

theorem decodeFloat_abs (neg : Bool) {c : Nat} (hc : c < 2 ^ (f.ebits + fb)) :
    (decodeFloat f (signBits f neg + c)).abs = decodeFloat f (signBits f false + c) := by
  rw [decodeFloat_signed h neg hc, decodeFloat_signed h false hc]
  split
  · split <;> rfl
  · rfl

/-- The significand and the exponent of a finite magnitude code, subnormal or normal. -/
theorem magnitude_cases (c : Nat) :
    (c / 2 ^ fb = 0 ∧ magnitude f c = (c % 2 ^ fb, f.emin - fb)) ∨
    (c / 2 ^ fb ≠ 0 ∧ magnitude f c = (2 ^ fb + c % 2 ^ fb, f.emin - fb + ((c / 2 ^ fb : Nat) - 1))) := by
  unfold magnitude
  simp only [h.prec, Nat.add_sub_cancel]
  by_cases h0 : c / 2 ^ fb = 0
  · exact .inl ⟨h0, by rw [if_pos h0]⟩
  · exact .inr ⟨h0, by rw [if_neg h0]⟩

/-- A finite magnitude stands at its own quantum: the one that rounding finds for it. -/
theorem magnitude_quantum {c : Nat} (h0 : (magnitude f c).1 ≠ 0) :
    max (topExp (magnitude f c).1 (magnitude f c).2 - fb) (f.emin - fb) = (magnitude f c).2 := by
  have hp : 0 < 2 ^ fb := Nat.two_pow_pos fb
  have hlt : c % 2 ^ fb < 2 ^ fb := Nat.mod_lt _ hp
  rcases magnitude_cases h c with ⟨-, e⟩ | ⟨hE, e⟩
  · rw [e] at h0 ⊢
    have hl : (c % 2 ^ fb).log2 < fb := (Nat.log2_lt h0).2 hlt
    simp only [topExp]
    omega
  · rw [e] at h0 ⊢
    have hl : (2 ^ fb + c % 2 ^ fb).log2 = fb := by
      rw [Nat.log2_eq_iff h0]
      omega
    dsimp only
    rw [topExp, hl]
    generalize c / 2 ^ fb = E at hE ⊢
    rw [max_eq_left (by omega)]
    omega

/-- The magnitude code of a finite magnitude is the code it came from. -/
theorem magnitudeCode_magnitude (c : Nat) : magnitudeCode f (magnitude f c).1 (magnitude f c).2 = c := by
  have hp : 0 < 2 ^ fb := Nat.two_pow_pos fb
  have hlt : c % 2 ^ fb < 2 ^ fb := Nat.mod_lt _ hp
  have hdm : 2 ^ fb * (c / 2 ^ fb) + c % 2 ^ fb = c := Nat.div_add_mod c _
  have h2 : 2 ^ (fb + 1) = 2 * 2 ^ fb := by rw [pow_succ]; omega
  unfold magnitudeCode
  simp only [h.prec, Nat.add_sub_cancel, h2]
  rcases magnitude_cases h c with ⟨hE, e⟩ | ⟨hE, e⟩
  · rw [e]
    dsimp only
    rw [if_neg (show ¬ c % 2 ^ fb = 2 * 2 ^ fb by omega)]
    dsimp only
    rw [if_pos hlt]
    rw [hE] at hdm
    omega
  · rw [e]
    dsimp only
    rw [if_neg (show ¬ 2 ^ fb + c % 2 ^ fb = 2 * 2 ^ fb by omega)]
    dsimp only
    have hq : (f.emin - (fb : Int) + ((c / 2 ^ fb : Nat) - 1) - (f.emin - (fb : Int)) + 1).toNat = c / 2 ^ fb := by
      generalize c / 2 ^ fb = E
      omega
    rw [if_neg (by omega), hq, Nat.mul_comm]
    omega

/-- A finite magnitude does not exceed the largest finite one. -/
theorem magnitude_not_magGt {c : Nat} (hc : c / 2 ^ fb < 2 ^ f.ebits - 1) :
    magGt (magnitude f c).1 (magnitude f c).2 f.maxM f.maxE = false := by
  have hp : 0 < 2 ^ fb := Nat.two_pow_pos fb
  have hlt : c % 2 ^ fb < 2 ^ fb := Nat.mod_lt _ hp
  have h2 : 2 ^ (fb + 1) = 2 * 2 ^ fb := by rw [pow_succ]; omega
  have h4 : 4 ≤ 2 ^ f.ebits := le_trans (by decide : 4 ≤ 2 ^ 2) (Nat.pow_le_pow_right (by omega) h.ebits)
  have hm : (magnitude f c).1 ≤ f.maxM ∧ (magnitude f c).2 ≤ f.maxE := by
    rw [h.maxM, h.maxE, h2]
    rcases magnitude_cases h c with ⟨hE, e⟩ | ⟨hE, e⟩ <;> rw [e] <;> constructor <;> dsimp only <;> omega
  simp only [magGt, min_eq_left hm.2, Int.sub_self, decide_eq_false_iff_not, not_lt, Int.toNat_zero, Nat.pow_zero,
    Nat.mul_one]
  calc (magnitude f c).1 ≤ f.maxM := hm.1
    _ ≤ f.maxM * 2 ^ (f.maxE - (magnitude f c).2).toNat := Nat.le_mul_of_pos_right _ (Nat.two_pow_pos _)

/-- The value of a code that is no NaN rounds to the code. -/
theorem roundFloat_decodeFloat (neg : Bool) {c : Nat} (hc : c < 2 ^ (f.ebits + fb)) (hn : ¬ f.nanCode fb c) :
    (roundFloat f nearestEven false (decodeFloat f (signBits f neg + c))).bits = signBits f neg + c := by
  have hp : 0 < 2 ^ fb := Nat.two_pow_pos fb
  have hdm : 2 ^ fb * (c / 2 ^ fb) + c % 2 ^ fb = c := Nat.div_add_mod c _
  rw [decodeFloat_signed h neg hc]
  split
  · rename_i hE
    have h0 : c % 2 ^ fb = 0 := by
      by_contra h0
      exact hn ⟨hE, h0⟩
    rw [if_pos h0]
    rw [hE, h0, Nat.mul_comm] at hdm
    simp only [roundFloat, infinite, h.signed, Bool.not_true, Bool.false_and, Bool.false_eq_true, if_false, h.hasInf,
      if_true, infBits, h.binary8, h.prec, Nat.add_sub_cancel]
    omega
  · rename_i hE
    have hlt : c / 2 ^ fb < 2 ^ f.ebits - 1 := by
      have : c / 2 ^ fb < 2 ^ f.ebits := Nat.div_lt_of_lt_mul (by rwa [← Nat.pow_add, Nat.add_comm])
      omega
    have hcode := magnitudeCode_magnitude h c
    by_cases h0 : (magnitude f c).1 = 0
    · have hz : c = 0 := by
        rcases magnitude_cases h c with ⟨h1, e⟩ | ⟨h1, e⟩ <;> rw [e] at h0 <;> dsimp only at h0
        · rw [h1, h0] at hdm
          omega
        · omega
      rw [roundFloat, if_pos h0]
      simp [h.binary8, hz]
    · have hq := magnitude_quantum h h0
      have hfb : (f.prec : Int) - 1 = fb := by rw [h.prec]; omega
      simp only [roundFloat, if_neg h0, hfb, hq, roundAt_self, h.signed, Bool.not_true, Bool.false_and,
        Bool.false_eq_true, if_false, magnitude_not_magGt h hlt, finiteBits, h.binary8, hcode]

/-- What FNEG and FABS give of a code, and what FMIN and FMAX keep of one. -/
theorem roundFloat_neg_abs (neg : Bool) {c : Nat} (hc : c < 2 ^ (f.ebits + fb)) (hn : ¬ f.nanCode fb c) :
    (roundFloat f nearestEven false (decodeFloat f (signBits f neg + c)).neg).bits = signBits f (!neg) + c ∧
    (roundFloat f nearestEven false (decodeFloat f (signBits f neg + c)).abs).bits = c := by
  rw [decodeFloat_neg h neg hc, decodeFloat_abs h neg hc, roundFloat_decodeFloat h (!neg) hc hn,
    roundFloat_decodeFloat h false hc hn]
  exact ⟨rfl, Nat.zero_add c⟩

end

theorem roundFloat_nan (f : Fmt) : (roundFloat f nearestEven false .nan).bits = nanBits f := rfl

/-! ### Order of values -/

theorem ltVal_asymm {a b : Val} (h : ltVal a b = true) : ltVal b a = false := by
  cases a <;> cases b <;> simp_all [ltVal]
  rename_i s m e t n f
  rw [min_comm f e]
  exact h.le

/-- FMIN and FMAX of two values that are no NaN are the two values, the larger not below the smaller. -/
theorem minVal_maxVal {a b : Val} (ha : a.isNan = false) (hb : b.isNan = false) :
    (minVal a b = a ∧ maxVal a b = b ∧ ltVal b a = false) ∨ (minVal a b = b ∧ maxVal a b = a ∧ ltVal a b = false) := by
  unfold minVal maxVal
  simp only [ha, hb, Bool.or_false, Bool.false_eq_true, if_false]
  by_cases h1 : ltVal a b = true
  · exact .inl ⟨by rw [if_pos h1], by rw [if_pos h1], ltVal_asymm h1⟩
  · by_cases h2 : ltVal b a = true
    · exact .inr ⟨by rw [if_neg h1, if_pos h2], by rw [if_neg h1, if_pos h2], ltVal_asymm h2⟩
    · rw [if_neg h1, if_neg h2, if_neg h1, if_neg h2]
      split
      · exact .inl ⟨rfl, rfl, by simpa using h2⟩
      · exact .inr ⟨rfl, rfl, by simpa using h1⟩

theorem minVal_nan {a b : Val} (h : a = .nan ∨ b = .nan) : minVal a b = .nan ∧ maxVal a b = .nan := by
  rcases h with rfl | rfl <;> simp [minVal, maxVal, Val.isNan]

/-! ### The exact forms -/

theorem fpExact_true {g : Guard} {s : State} (hg : guardHolds g s = true) {d : Field4} (hd : shadowReg d = false)
    (a b : Field4) (dbl : Bool) (f : Val → Val → Val) :
    fpExact g d a b dbl f s = .next (s.setReg d (BitVec.ofNat 64 (roundFloat (fmtOf dbl) nearestEven false
      (f (fpOperand dbl (s.reg a)) (fpOperand dbl (s.reg b)))).bits)).finish := by
  rw [fpExact, scalar_true hg, withDest_ok hd]

theorem toNat_and_low (w : Nat) (x : BitVec (w + 1)) :
    (x &&& BitVec.ofNat (w + 1) (2 ^ w - 1)).toNat = x.toNat % 2 ^ w := by
  have hw : 2 ^ w - 1 < 2 ^ (w + 1) := by
    have : 2 ^ w ≤ 2 ^ (w + 1) := Nat.pow_le_pow_right (by omega) (by omega)
    have := Nat.two_pow_pos w
    omega
  rw [BitVec.toNat_and, BitVec.toNat_ofNat, Nat.mod_eq_of_lt hw, Nat.and_two_pow_sub_one_eq_mod]

/-- A pattern as its sign bit and the bits below it. -/
theorem toNat_eq_sign_add {w : Nat} (x : BitVec (w + 1)) :
    x.toNat = (if x.msb then 2 ^ w else 0) + (x &&& BitVec.ofNat (w + 1) (2 ^ w - 1)).toNat := by
  have hx : x.toNat < 2 ^ w * 2 := x.isLt
  rw [toNat_and_low, BitVec.msb_eq_decide, Nat.add_sub_cancel]
  by_cases h : 2 ^ w ≤ x.toNat
  · rw [if_pos (by simpa using h), Nat.mod_eq_sub_mod h, Nat.mod_eq_of_lt (by omega)]
    omega
  · rw [if_neg (by simpa using h), Nat.mod_eq_of_lt (by omega), Nat.zero_add]

/-- The same after the sign bit has been inverted. -/
theorem toNat_flip_sign {w : Nat} (x : BitVec (w + 1)) :
    (x ^^^ BitVec.twoPow (w + 1) w).toNat =
      (if x.msb then 0 else 2 ^ w) + (x &&& BitVec.ofNat (w + 1) (2 ^ w - 1)).toNat := by
  have hm : (x ^^^ BitVec.twoPow (w + 1) w).msb = !x.msb := by
    simp [BitVec.msb_xor, BitVec.msb_twoPow]
  have hl : (x ^^^ BitVec.twoPow (w + 1) w) &&& BitVec.ofNat (w + 1) (2 ^ w - 1) =
      x &&& BitVec.ofNat (w + 1) (2 ^ w - 1) := by
    ext i hi
    have hb : (BitVec.ofNat (w + 1) (2 ^ w - 1))[i] = decide (i < w) := by
      rw [← BitVec.getLsbD_eq_getElem, BitVec.getLsbD_ofNat, Nat.testBit_two_pow_sub_one]
      simp [hi]
    simp only [BitVec.getElem_and, BitVec.getElem_xor, hb, BitVec.getElem_twoPow]
    by_cases h : i < w
    · rw [decide_eq_false (show ¬ i = w by omega), Bool.xor_false]
    · rw [decide_eq_false h, Bool.and_false, Bool.and_false]
  rw [toNat_eq_sign_add, hm, hl]
  cases x.msb <;> rfl

/-- The four exact forms of an encoding in its register, for a format in `w + 1` bits. -/
theorem exactForms {f : Fmt} {fb w : Nat} (h : f.Ieee fb) (hw : f.ebits + fb = w) (x : BitVec (w + 1)) :
    let m := x &&& BitVec.ofNat (w + 1) (2 ^ w - 1)
    (¬ f.nanCode fb m.toNat →
      (roundFloat f nearestEven false (decodeFloat f x.toNat)).bits = x.toNat ∧
      (roundFloat f nearestEven false (decodeFloat f x.toNat).neg).bits = (x ^^^ BitVec.twoPow (w + 1) w).toNat ∧
      (roundFloat f nearestEven false (decodeFloat f x.toNat).abs).bits = m.toNat ∧
      (decodeFloat f x.toNat).isNan = false) ∧
    (f.nanCode fb m.toNat → decodeFloat f x.toNat = .nan) := by
  intro m
  subst hw
  have hs : x.toNat = signBits f x.msb + m.toNat := by
    rw [toNat_eq_sign_add]
    simp [signBits, h.width, m]
  have hn : (x ^^^ BitVec.twoPow (f.ebits + fb + 1) (f.ebits + fb)).toNat = signBits f (!x.msb) + m.toNat := by
    rw [toNat_flip_sign]
    cases x.msb <;> simp [signBits, h.width, m]
  have hc : m.toNat < 2 ^ (f.ebits + fb) := by
    rw [toNat_and_low]
    exact Nat.mod_lt _ (Nat.two_pow_pos _)
  refine ⟨fun hk => ?_, fun hk => ?_⟩
  · rw [hn, hs]
    obtain ⟨e1, e2⟩ := roundFloat_neg_abs h x.msb hc hk
    exact ⟨roundFloat_decodeFloat h x.msb hc hk, e1, e2, decodeFloat_ne_nan h x.msb hc hk⟩
  · rw [hs]
    exact decodeFloat_nan h x.msb hc hk

/-- FNEG, FABS, FMIN and FMAX of operands in a format of `w + 1` bits. -/
theorem exec_exactForms {g : Guard} {s : State} (hg : guardHolds g s = true) {d : Field4} (hd : shadowReg d = false)
    (a b : Field4) {dbl : Bool} {fb w : Nat} (h : (fmtOf dbl).Ieee fb) (hw : (fmtOf dbl).ebits + fb = w)
    {x y : BitVec (w + 1)} (hx : fpOperand dbl (s.reg a) = decodeFloat (fmtOf dbl) x.toNat)
    (hy : fpOperand dbl (s.reg b) = decodeFloat (fmtOf dbl) y.toNat) :
    let low (v : BitVec (w + 1)) := v &&& BitVec.ofNat (w + 1) (2 ^ w - 1)
    let nan (v : BitVec (w + 1)) : Prop := (fmtOf dbl).nanCode fb (low v).toNat
    let gives (i : Instr) (n : Nat) : Prop := exec i s = .next (s.setReg d (BitVec.ofNat 64 n)).finish
    (¬ nan x → gives (.fneg g d a dbl) (x ^^^ BitVec.twoPow (w + 1) w).toNat ∧ gives (.fabs g d a dbl) (low x).toNat) ∧
    (nan x → gives (.fneg g d a dbl) (nanBits (fmtOf dbl)) ∧ gives (.fabs g d a dbl) (nanBits (fmtOf dbl))) ∧
    (¬ nan x → ¬ nan y → ∃ lo hi, (lo = x ∧ hi = y ∨ lo = y ∧ hi = x) ∧
      gives (.fmin g d a b dbl) lo.toNat ∧ gives (.fmax g d a b dbl) hi.toNat ∧
      ltVal (decodeFloat (fmtOf dbl) hi.toNat) (decodeFloat (fmtOf dbl) lo.toNat) = false) ∧
    (nan x ∨ nan y → gives (.fmin g d a b dbl) (nanBits (fmtOf dbl)) ∧
      gives (.fmax g d a b dbl) (nanBits (fmtOf dbl))) := by
  intro low nan gives
  obtain ⟨fx, nx⟩ := exactForms h hw x
  obtain ⟨fy, ny⟩ := exactForms h hw y
  have one := fpExact_true hg hd a a dbl
  have two := fpExact_true hg hd a b dbl
  rw [hx] at one
  rw [hx, hy] at two
  refine ⟨fun hn => ⟨?_, ?_⟩, fun hn => ⟨?_, ?_⟩, fun hn hn' => ?_, fun hn => ⟨?_, ?_⟩⟩
  · show exec _ s = _
    rw [exec_fneg, execFneg, one, (fx hn).2.1]
  · show exec _ s = _
    rw [exec_fabs, execFabs, one, (fx hn).2.2.1]
  · show exec _ s = _
    rw [exec_fneg, execFneg, one, nx hn, Val.neg, roundFloat_nan]
  · show exec _ s = _
    rw [exec_fabs, execFabs, one, nx hn, Val.abs, roundFloat_nan]
  · obtain ⟨rx, -, -, ix⟩ := fx hn
    obtain ⟨ry, -, -, iy⟩ := fy hn'
    rcases minVal_maxVal ix iy with ⟨e1, e2, hl⟩ | ⟨e1, e2, hl⟩
    · refine ⟨x, y, .inl ⟨rfl, rfl⟩, ?_, ?_, hl⟩
      · show exec _ s = _
        rw [exec_fmin, execFmin, two, e1, rx]
      · show exec _ s = _
        rw [exec_fmax, execFmax, two, e2, ry]
    · refine ⟨y, x, .inr ⟨rfl, rfl⟩, ?_, ?_, hl⟩
      · show exec _ s = _
        rw [exec_fmin, execFmin, two, e1, ry]
      · show exec _ s = _
        rw [exec_fmax, execFmax, two, e2, rx]
  · show exec _ s = _
    rw [exec_fmin, execFmin, two, (minVal_nan (hn.imp nx ny)).1, roundFloat_nan]
  · show exec _ s = _
    rw [exec_fmax, execFmax, two, (minVal_nan (hn.imp nx ny)).2, roundFloat_nan]

theorem nanCode_f32 (x : BitVec 32) :
    fmtF32.nanCode 23 (x &&& BitVec.ofNat 32 (2 ^ 31 - 1)).toNat ↔ x.extractLsb' 23 8 = 0xFF ∧ x.extractLsb' 0 23 ≠ 0 := by
  have hm := toNat_and_low 31 x
  have h1 : (x.extractLsb' 23 8).toNat = x.toNat / 2 ^ 23 % 2 ^ 8 := by
    rw [BitVec.extractLsb'_toNat, Nat.shiftRight_eq_div_pow]
  have h2 : (x.extractLsb' 0 23).toNat = x.toNat % 2 ^ 23 := by
    rw [BitVec.extractLsb'_toNat, Nat.shiftRight_zero]
  simp only [Fmt.nanCode, hm, show fmtF32.ebits = 8 from rfl, ne_eq, BitVec.toNat_eq, h1, h2]
  simp only [BitVec.ofNat_eq_ofNat, BitVec.toNat_ofNat]
  omega

theorem nanCode_f64 (x : Word) :
    fmtF64.nanCode 52 (x &&& BitVec.ofNat 64 (2 ^ 63 - 1)).toNat ↔
      x.extractLsb' 52 11 = 0x7FF ∧ x.extractLsb' 0 52 ≠ 0 := by
  have hm := toNat_and_low 63 x
  have h1 : (x.extractLsb' 52 11).toNat = x.toNat / 2 ^ 52 % 2 ^ 11 := by
    rw [BitVec.extractLsb'_toNat, Nat.shiftRight_eq_div_pow]
  have h2 : (x.extractLsb' 0 52).toNat = x.toNat % 2 ^ 52 := by
    rw [BitVec.extractLsb'_toNat, Nat.shiftRight_zero]
  simp only [Fmt.nanCode, hm, show fmtF64.ebits = 11 from rfl, ne_eq, BitVec.toNat_eq, h1, h2]
  simp only [BitVec.ofNat_eq_ofNat, BitVec.toNat_ofNat]
  omega

/-! ### Comparison (R267) -/

theorem isNan_iff (v : Val) : v.isNan = true ↔ v = .nan := by cases v <;> simp [Val.isNan]

theorem fpCondition_unordered {x y : Val} (h : x = .nan ∨ y = .nan) :
    fpCondition 0 x y = (false, false) ∧ fpCondition 1 x y = (true, false) ∧ fpCondition 2 x y = (false, true) ∧
    fpCondition 3 x y = (false, true) ∧ fpCondition 4 x y = (true, false) := by
  have hu : (x.isNan || y.isNan) = true := by simpa [isNan_iff] using h
  have he : eqVal x y = false := by rcases h with rfl | rfl <;> simp [eqVal, Val.isNan]
  have hl : ltVal x y = false := by
    rcases h with rfl | rfl
    · rfl
    · cases x <;> rfl
  simp [fpCondition, hu, he, hl]

theorem fpCondition_ordered {x y : Val} (h : ¬ (x = .nan ∨ y = .nan)) :
    fpCondition 0 x y = (!ltVal x y && !ltVal y x, false) ∧ fpCondition 1 x y = (ltVal x y || ltVal y x, false) ∧
    fpCondition 2 x y = (ltVal x y, false) ∧ fpCondition 3 x y = (!ltVal y x, false) ∧
    fpCondition 4 x y = (false, false) := by
  have hx : x.isNan = false := by simpa [← isNan_iff] using fun e => h (.inl e)
  have hy : y.isNan = false := by simpa [← isNan_iff] using fun e => h (.inr e)
  have ha : ltVal x y = true → ltVal y x = false := ltVal_asymm
  simp only [fpCondition, eqVal, hx, hy]
  cases h1 : ltVal x y <;> cases h2 : ltVal y x <;> simp_all

theorem exec_fcmp_true {g : Guard} {s : State} (hg : guardHolds g s = true) (p a b : Field4) (dbl : Bool) (cc : BitVec 3)
    {v nv : Bool} (h : fpCondition cc.toNat (fpOperand dbl (s.reg a)) (fpOperand dbl (s.reg b)) = (v, nv)) :
    exec (.fcmp g p a b dbl cc) s = .next
      (((s.setPred p v).modHere fun c => { c with fflags := c.fflags ||| (if nv then 16 else 0) }).finish) := by
  rw [exec_fcmp, execFcmp, scalar_true hg, h]
  rfl

/-- Settles O24: the exact forms by `exec_exactForms` in both formats, FCMP by the table of its conditions. -/
theorem floatExactAndCompareForms : Obligations.FloatExactAndCompareForms := by
  refine ⟨fun s g d a b hg hd => ?_, fun s g d a b hg hd => ?_, fun s g p a b dbl hg => ⟨fun hu => ?_, fun hu => ?_⟩⟩
  · have e := exec_exactForms hg hd a b (dbl := false) (w := 31) fmtF32_ieee rfl (x := (s.reg a).extractLsb' 0 32)
      (y := (s.reg b).extractLsb' 0 32) rfl rfl
    simp only [BitVec.ofNat_toNat] at e
    dsimp only
    rw [← nanCode_f32, ← nanCode_f32]
    exact e
  · have e := exec_exactForms hg hd a b (dbl := true) (w := 63) fmtF64_ieee rfl (x := s.reg a) (y := s.reg b) rfl rfl
    simp only [BitVec.ofNat_toNat, BitVec.setWidth_eq] at e
    dsimp only
    rw [← nanCode_f64, ← nanCode_f64]
    exact e
  · obtain ⟨c0, c1, c2, c3, c4⟩ := fpCondition_unordered hu
    exact ⟨exec_fcmp_true hg p a b dbl 0 c0, exec_fcmp_true hg p a b dbl 1 c1, exec_fcmp_true hg p a b dbl 2 c2,
      exec_fcmp_true hg p a b dbl 3 c3, exec_fcmp_true hg p a b dbl 4 c4⟩
  · obtain ⟨c0, c1, c2, c3, c4⟩ := fpCondition_ordered hu
    exact ⟨exec_fcmp_true hg p a b dbl 0 c0, exec_fcmp_true hg p a b dbl 1 c1, exec_fcmp_true hg p a b dbl 2 c2,
      exec_fcmp_true hg p a b dbl 3 c3, exec_fcmp_true hg p a b dbl 4 c4⟩

end Sys2Proof.Machine
end

section
/-! Proofs for GETS and SETS (10 R241 to R248). -/

namespace Sys2Proof.Machine

theorem exec_gets_some {g : Guard} {s : State} (hg : guardHolds g s = true) {d : Field4} (hd : shadowReg d = false)
    {n : BitVec 12} {v : Word} (h : s.sysReg s.cur n.toNat = some v) :
    exec (.gets g d n) s = .next (s.setReg d v).finish := by
  rw [exec_gets, execGets, scalar_true hg, withDest_ok hd, h]

theorem exec_gets_none {g : Guard} {s : State} (hg : guardHolds g s = true) {d : Field4} (hd : shadowReg d = false)
    {n : BitVec 12} (h : s.sysReg s.cur n.toNat = none) :
    exec (.gets g d n) s = .next (s.trap 0x02 (n.setWidth 64)) := by
  rw [exec_gets, execGets, scalar_true hg, withDest_ok hd, h]

/-- status by its fields (Table 10-5). -/
theorem Slot.status_eq (c : Slot) :
    c.status = 0#60 ++ BitVec.ofBool c.wf ++ BitVec.ofBool c.ih ++ BitVec.ofBool c.ppl ++ BitVec.ofBool c.pl := by
  unfold Slot.status
  cases c.wf <;> cases c.ih <;> cases c.ppl <;> cases c.pl <;> rfl

/-- The numbers of the system registers with a value of their own in Table 10-4. -/
def sysNumbers : List Nat :=
  [0x000, 0x001, 0x002, 0x003, 0x004, 0x005, 0x010, 0x011, 0x020, 0x021, 0x030, 0x031, 0x040, 0x041, 0x050, 0x060, 0x061,
    0x070, 0x080, 0x081]

/-- Every other number is that of a level or of nothing. -/
theorem State.sysReg_other (s : State) (t : Nat) {n : Nat} (h : n ∉ sysNumbers) :
    s.sysReg t n =
      if 0x100 ≤ n ∧ n ≤ 0x107 then some (if (s.slot t).wf then 0 else (s.slot t).lvl.toList.getD (n - 0x100) 0)
      else if 0x108 ≤ n ∧ n ≤ 0x10F then some (if (s.slot t).wf then 0 else (s.slot t).lvn.toList.getD (n - 0x108) 0)
      else none := by
  unfold State.sysReg
  dsimp only
  split
  case h_21 => rfl
  all_goals exact absurd (by decide) h

theorem getD_toList_fin {n : Nat} (v : Vector Word n) (k : Fin n) : v.toList.getD k 0 = v[k] := by
  rw [List.getD_eq_getElem _ _ (by simp)]
  simp

theorem not_mem_sysNumbers_of_level {n : Nat} (h : 0x100 ≤ n) : n ∉ sysNumbers := by
  simp only [sysNumbers, List.mem_cons, List.not_mem_nil, or_false]
  omega

theorem State.sysReg_lvl (s : State) (t : Nat) (k : Fin 8) :
    s.sysReg t (0x100 + k) = some (if (s.slot t).wf then 0 else (s.slot t).lvl[k]) := by
  rw [State.sysReg_other s t (not_mem_sysNumbers_of_level (by omega)), if_pos (by omega), Nat.add_sub_cancel_left,
    getD_toList_fin]

theorem State.sysReg_lvn (s : State) (t : Nat) (k : Fin 8) :
    s.sysReg t (0x108 + k) = some (if (s.slot t).wf then 0 else (s.slot t).lvn[k]) := by
  rw [State.sysReg_other s t (not_mem_sysNumbers_of_level (by omega)), if_neg (by omega), if_pos (by omega),
    Nat.add_sub_cancel_left, getD_toList_fin]

/-- A field that is none of some constants is no number of theirs. -/
theorem toNat_not_mem_map {n : BitVec 12} {l : List (BitVec 12)} (h : n ∉ l) : n.toNat ∉ l.map BitVec.toNat := by
  rintro hm
  obtain ⟨m, hm, he⟩ := List.mem_map.1 hm
  exact h (BitVec.eq_of_toNat_eq he ▸ hm)

/-- Settles O20: each register by its line of the table, the levels by their index. -/
theorem systemRegisterReads : Obligations.SystemRegisterReads := by
  intro s g d n hg hd
  have reads : ∀ {n : BitVec 12} {v : Word}, s.sysReg s.cur n.toNat = some v →
      exec (.gets g d n) s = .next (s.setReg d v).finish := exec_gets_some hg hd
  refine ⟨reads (congrArg some (Slot.status_eq s.here)), reads rfl, reads rfl, reads rfl, reads rfl, reads rfl, reads rfl,
    reads rfl, reads rfl, reads rfl, reads rfl, reads rfl, reads rfl, reads rfl, reads rfl, reads rfl, reads rfl,
    reads rfl, reads rfl, reads rfl, fun k => ⟨reads ?_, reads ?_⟩, fun hn hr => exec_gets_none hg hd ?_⟩
  · rw [BitVec.toNat_ofNat, Nat.mod_eq_of_lt (by omega), State.sysReg_lvl]
    rfl
  · rw [BitVec.toNat_ofNat, Nat.mod_eq_of_lt (by omega), State.sysReg_lvn]
    rfl
  · rw [State.sysReg_other s s.cur (toNat_not_mem_map hn), if_neg (by omega), if_neg (by omega)]

/-! ### SETS -/

theorem exec_sets_any {g : Guard} {s : State} (hg : guardHolds g s = true) (a : Field4) {n : BitVec 12}
    (h : setsRight n.toNat = .any) :
    exec (.sets g a n) s = .next (s.modHere fun c => c.setSys n.toNat (s.reg a)).finish := by
  rw [exec_sets, execSets, scalar_true hg, h]

theorem exec_sets_never {g : Guard} {s : State} (hg : guardHolds g s = true) (a : Field4) {n : BitVec 12}
    (h : setsRight n.toNat = .never) : exec (.sets g a n) s = .next (s.trap 0x04 (s.here.word.setWidth 64)) := by
  rw [exec_sets, execSets, scalar_true hg, h, State.wordVal]

theorem exec_sets_unassigned {g : Guard} {s : State} (hg : guardHolds g s = true) (a : Field4) {n : BitVec 12}
    (h : setsRight n.toNat = .unassigned) : exec (.sets g a n) s = .next (s.trap 0x02 (n.setWidth 64)) := by
  rw [exec_sets, execSets, scalar_true hg, h]

theorem exec_sets_status {g : Guard} {s : State} (hg : guardHolds g s = true) (a : Field4) :
    exec (.sets g a 0) s = .next (if s.here.pl then (s.modHere fun c => c.setSys 0 (s.reg a)).finish
      else s.trap 0x04 (s.here.word.setWidth 64)) := by
  rw [exec_sets, execSets, scalar_true hg]
  rfl

/-- Masking the low bits of a word keeps them as a field (R242, R248). -/
theorem and_low_eq_field (v : Word) (n : Nat) (h : n ≤ 64) :
    v &&& BitVec.ofNat 64 (2 ^ n - 1) = (v.extractLsb' 0 n).setWidth 64 := (zext_eq_and v n h).symm

theorem and_not_three (v : Word) : v &&& ~~~(3 : Word) = v.extractLsb' 2 62 ++ 0#2 := by
  apply BitVec.eq_of_getLsbD_eq
  intro i hi
  have h3 : (3 : Word) = BitVec.ofNat 64 (2 ^ 2 - 1) := rfl
  rw [h3, BitVec.getLsbD_and, BitVec.getLsbD_not, BitVec.getLsbD_ofNat, Nat.testBit_two_pow_sub_one, BitVec.getLsbD_append,
    BitVec.getLsbD_extractLsb']
  grind

/-- Bits 3:2 of race are reserved (R139). -/
theorem and_not_twelve (v : Word) : v &&& ~~~(0xC : Word) = v.extractLsb' 4 60 ++ 0#2 ++ v.extractLsb' 0 2 := by
  apply BitVec.eq_of_getLsbD_eq
  intro i hi
  have h12 : (0xC : Word) = BitVec.ofNat 64 (2 ^ 2 - 1) <<< 2 := rfl
  rw [h12, BitVec.getLsbD_and, BitVec.getLsbD_not, BitVec.getLsbD_shiftLeft, BitVec.getLsbD_ofNat,
    Nat.testBit_two_pow_sub_one, BitVec.getLsbD_append, BitVec.getLsbD_append, BitVec.getLsbD_extractLsb',
    BitVec.getLsbD_extractLsb']
  grind

/-- The reserved rounding modes 6 and 7 are stored as 0 (R225). -/
theorem fmode_eq (v : Word) : (if v &&& 7 = 6 ∨ v &&& 7 = 7 then 0 else v &&& 7) =
    if 6 ≤ (v.extractLsb' 0 3).toNat then (0 : Word) else (v.extractLsb' 0 3).setWidth 64 := by
  have h7 : v &&& 7 = (v.extractLsb' 0 3).setWidth 64 := and_low_eq_field v 3 (by omega)
  rw [h7]
  generalize v.extractLsb' 0 3 = m
  revert m
  decide

theorem setsRight_unassigned {n : Nat} (h : n ∉ sysNumbers) (hr : ¬ (0x100 ≤ n ∧ n ≤ 0x10F)) :
    setsRight n = .unassigned := by
  simp only [sysNumbers, List.mem_cons, List.not_mem_nil, or_false, not_or] at h
  simp [setsRight, h]
  omega

theorem setsRight_level {n : Nat} (h : 0x100 ≤ n ∧ n ≤ 0x10F) : setsRight n = .never := by
  unfold setsRight
  rw [if_neg (by omega), if_neg (by omega), if_pos (by omega)]

/-- Settles O21: who may write a register by `setsRight`, and what is stored by the rules for reserved bits. -/
theorem systemRegisterWrites : Obligations.SystemRegisterWrites := by
  intro s g a n hg
  have any : ∀ {n : BitVec 12} {f : Slot → Slot}, setsRight n.toNat = .any → s.here.setSys n.toNat (s.reg a) = f s.here →
      exec (.sets g a n) s = .next (s.modHere f).finish := fun hr hf => by
    rw [exec_sets_any hg a hr, State.modHere_congr hf]
  refine ⟨fun hp => ?_, fun hp => ?_, any rfl ?_, any rfl rfl, any rfl rfl, any rfl ?_, any rfl rfl, any rfl ?_, any rfl ?_,
    any rfl ?_, any rfl ?_, any rfl ?_, fun hn => exec_sets_never hg a ?_, fun hn hr => exec_sets_unassigned hg a ?_⟩
  · show exec (.sets g a 0) s = _
    rw [exec_sets_status hg, if_pos hp]
    rfl
  · show exec (.sets g a 0) s = _
    rw [exec_sets_status hg, if_neg (by simp [hp])]
  · rw [← and_low_eq_field _ 8 (by omega)]
    rfl
  · rw [← and_not_three]
    rfl
  · rw [← fmode_eq]
    rfl
  · rw [← and_low_eq_field _ 5 (by omega)]
    rfl
  · rw [← and_not_twelve]
    rfl
  · rw [← and_low_eq_field _ 32 (by omega)]
    rfl
  · rw [← and_low_eq_field _ 32 (by omega)]
    rfl
  · rcases hn with hn | hn
    · simp only [List.mem_cons, List.not_mem_nil, or_false] at hn
      rcases hn with rfl | rfl | rfl | rfl | rfl | rfl | rfl | rfl | rfl <;> rfl
    · exact setsRight_level hn
  · exact setsRight_unassigned (toNat_not_mem_map hn) hr

end Sys2Proof.Machine
end

section
/-! Accesses through an address: the checks of Table 2-9 in their order, what an access does that fails one, and the requests
of loads, stores, atomics and REEVE forms that pass (O26, O27, O28, O30). -/

namespace Sys2Proof.Machine

/-! ### The checks -/

theorem checkScalar_misaligned (s : State) (t n right : Nat) (posted : Bool) {a : Word} {align : Nat} (h : a.toNat % align ≠ 0) :
    s.checkScalar t a n align right posted = .trap 0x05 a := by
  simp [State.checkScalar, h]

section
variable {s : State} {t : Nat} {a : Word} {align n right : Nat} (posted : Bool) (ha : a.toNat % align = 0)
  (hp : isPlace a = false) (hm : (s.slot t).state ≠ .parked (.moving (handleObj a)))
include ha hp hm

/-- A handle access that is not parked on its object's moving extent takes the cause of its entry's check. -/
theorem checkScalar_handle_some {k : Nat}
    (h : checkEntry (s.obj (chipOfThread t) (s.slot t).parish (handleObj a)) (handleObj a) (handleOff a) n right
      (!(s.slot t).pl) = some k) : s.checkScalar t a n align right posted = .trap k a := by
  unfold State.checkScalar
  dsimp only
  rw [if_neg (not_not.mpr ha), if_neg (by simp [hp]), if_neg hm, h]

/-- One whose entry passes is checked for its extent's residency. -/
theorem checkScalar_handle_none
    (h : checkEntry (s.obj (chipOfThread t) (s.slot t).parish (handleObj a)) (handleObj a) (handleOff a) n right
      (!(s.slot t).pl) = none) :
    s.checkScalar t a n align right posted =
      s.checkResidency (chipOfThread t) (s.slot t).parish (handleObj a) (handleOff a) a posted := by
  unfold State.checkScalar
  dsimp only
  rw [if_neg (not_not.mpr ha), if_neg (by simp [hp]), if_neg hm, h]

end

/-- Steps 2 and 3 of Table 2-9 are whether the bytes are in an object that exists. -/
theorem checkEntry_absent (e : ObjEntry) (obj off n right : Nat) (user : Bool)
    (h : ¬(obj ≠ 0 ∧ e.state ≠ 0 ∧ off + n ≤ e.length)) : checkEntry e obj off n right user = some 0x07 := by
  unfold checkEntry
  rw [if_pos]
  simp only [Bool.or_eq_true, decide_eq_true_eq]
  omega

/-- The steps of Table 2-9 after those. -/
theorem checkEntry_present (e : ObjEntry) (obj off n right : Nat) (user : Bool)
    (h : obj ≠ 0 ∧ e.state ≠ 0 ∧ off + n ≤ e.length) :
    checkEntry e obj off n right user =
      if !e.has right || (obj = 1 && user) then some 0x08
      else if e.state = 2 || e.state = 3 then some 0x0A
      else if decide (4 < e.state) then some 0x16
      else none := by
  obtain ⟨h1, h2, h3⟩ := h
  unfold checkEntry
  rw [if_neg]
  simp only [Bool.or_eq_true, decide_eq_true_eq]
  omega

theorem checkEntry_denied (e : ObjEntry) (obj off n right : Nat) (pl : Bool)
    (h : obj ≠ 0 ∧ e.state ≠ 0 ∧ off + n ≤ e.length) (ha : ¬(e.has right = true ∧ (obj = 1 → pl = true))) :
    checkEntry e obj off n right (!pl) = some 0x08 := by
  rw [checkEntry_present _ _ _ _ _ _ h, if_pos]
  cases hr : e.has right <;> cases pl <;> simp_all

/-- What is left once the right and the privilege have been found. -/
theorem checkEntry_allowed (e : ObjEntry) (obj off n right : Nat) (pl : Bool)
    (h : obj ≠ 0 ∧ e.state ≠ 0 ∧ off + n ≤ e.length) (ha : e.has right = true ∧ (obj = 1 → pl = true)) :
    checkEntry e obj off n right (!pl) =
      if e.state = 2 || e.state = 3 then some 0x0A else if decide (4 < e.state) then some 0x16 else none := by
  rw [checkEntry_present _ _ _ _ _ _ h, if_neg]
  obtain ⟨hr, hp⟩ := ha
  cases pl <;> simp_all

/-! ### Accesses that fail a check -/

theorem next_congr {s t : State} (h : s = t) : (.next s : Out) = .next t := h ▸ rfl

theorem admitted_trap {c : Check} {x : Nat} {v : Word} (h : c = .trap x v) (a : Word) (posted : Bool) (kind : Nat) (atomic : Bool)
    (scope : Nat) (w : Bool) (s : State) (k : Target → State → State) :
    admitted c a posted kind atomic scope w s k = s.trap x v := by
  rw [h, admitted]

theorem plainLoad_trap {s : State} {a : Word} {n x : Nat} {v : Word} (h : s.checkScalar s.cur a n n rR false = .trap x v)
    (sx : Bool) (d : Field4) (acq : Bool) (parcel : Option (Nat × Nat)) : plainLoad a n sx d acq parcel s = s.trap x v := by
  unfold plainLoad
  dsimp only
  rw [h]
  rfl

theorem plainStore_trap {s : State} {a : Word} {n x : Nat} {v : Word} (h : s.checkScalar s.cur a n n rW true = .trap x v)
    (w : Word) (release : Bool) (flag : Option Word) : plainStore a n w release flag s = s.trap x v :=
  admitted_trap h _ _ _ _ _ _ _ _

theorem reeveForm_trap {s : State} {a : Word} {n align x : Nat} {v : Word}
    (h : s.checkScalar s.cur a n align rA false = .trap x v) (scope : Nat) (req : Req) (f : Access → Access) :
    reeveForm a n align scope req f s = s.trap x v :=
  admitted_trap h _ _ _ _ _ _ _ _

section
variable {g : Guard} {s : State} (hg : guardHolds g s = true) {d : Field4} (hd : shadowReg d = false) {x : Nat} {v : Word}
include hg

theorem exec_st_trap (t base : Field4) {size order : BitVec 2} {off : BitVec 7} (ho : order ≠ 3)
    (h : s.checkScalar s.cur (mAddress s base size off) (sizeBytes size) (sizeBytes size) rW true = .trap x v) :
    exec (.st g t base size order off) s = .next (s.trap x v) := by
  rw [exec_st, execSt, scalar_true hg]
  dsimp only
  rw [if_neg ho, h]
  split
  · rfl
  · rw [plainStore_trap h]

theorem exec_sth_trap (t base : Field4) {off : BitVec 7} (h : s.checkScalar s.cur (mAddress s base 3 off) 8 8 rW true = .trap x v) :
    exec (.sth g t base off) s = .next (s.trap x v) := by
  rw [exec_sth, execSth, scalar_true hg]
  dsimp only
  cases s.parcelAt s.cur (mAddress s base 3 off) with
  | none => exact next_congr (plainStore_trap h _ _ _)
  | some o => rw [h]

theorem exec_stc_trap (a b c : Field4) {size : BitVec 2}
    (h : s.checkScalar s.cur (s.reg a) (sizeBytes size) (sizeBytes size) rW true = .trap x v) :
    exec (.stc g a b c size) s = .next (s.trap x v) := by
  rw [exec_stc, execStc, scalar_true hg]
  dsimp only
  rw [h]

include hd

theorem exec_ld_trap (base : Field4) {size order : BitVec 2} (sx : Bool) {off : BitVec 7} (ho : order ≠ 3)
    (h : s.checkScalar s.cur (mAddress s base size off) (sizeBytes size) (sizeBytes size) rR false = .trap x v) :
    exec (.ld g d base size sx order off) s = .next (s.trap x v) := by
  rw [exec_ld, execLd, scalar_true hg, withDest_ok hd]
  dsimp only
  rw [if_neg ho, plainLoad_trap h]

theorem exec_ldh_trap (base : Field4) {off : BitVec 7} (h : s.checkScalar s.cur (mAddress s base 3 off) 8 8 rR false = .trap x v) :
    exec (.ldh g d base off) s = .next (s.trap x v) := by
  rw [exec_ldh, execLdh, scalar_true hg, withDest_ok hd]
  exact next_congr (plainLoad_trap h _ _ _ _)

theorem atomic_trap (a b : Field4) (op : Nat) {ty : Nat} (scope : Nat)
    (h : s.checkScalar s.cur (s.reg a) (amoBytes ty) (amoBytes ty) rA (d = 0) = .trap x v) :
    atomic g d a b op ty scope s = .next (s.trap x v) := by
  rw [atomic, scalar_true hg, withDest_ok hd]
  exact next_congr (admitted_trap h _ _ _ _ _ _ _ _)

theorem exec_cas_trap (a b c : Field4) {dbl : Bool} (scope : BitVec 3)
    (h : s.checkScalar s.cur (s.reg a) (if dbl then 8 else 4) (if dbl then 8 else 4) rA false = .trap x v) :
    exec (.cas g d a b c dbl scope) s = .next (s.trap x v) := by
  rw [exec_cas, execCas, scalar_true hg, withDest_ok hd]
  exact next_congr (reeveForm_trap h _ _ _)

theorem casBlock_trap (hw : s.here.wf = false) (a : Field4) {b : Field4} {m : Nat} (hb : (s.reg b).toNat % 8 = 0)
    (hh : s.heldBack s.cur false (s.localRange s.cur ((s.reg b).toNat % s.here.span) (2 * m)) = none)
    (h : s.checkScalar s.cur (s.reg a) m m rA false = .trap x v) : casBlock m g d a b s = .next (s.trap x v) := by
  rw [casBlock, scalar_true hg, withDest_ok hd, atHome_ok hw]
  dsimp only
  rw [if_neg (not_not.mpr hb), hh]
  exact next_congr (admitted_trap h _ _ _ _ _ _ _ _)

theorem exec_enq_trap (a b : Field4) (h : s.checkScalar s.cur (s.reg a) 32 32 rA false = .trap x v) :
    exec (.enq g d a b) s = .next (s.trap x v) := by
  rw [exec_enq, execEnq, scalar_true hg, withDest_ok hd]
  exact next_congr (reeveForm_trap h _ _ _)

theorem exec_deq_trap {b : Field4} (hb : shadowReg b = false) (a : Field4)
    (h : s.checkScalar s.cur (s.reg a) 32 32 rA false = .trap x v) : exec (.deq g d a b) s = .next (s.trap x v) := by
  rw [exec_deq, execDeq, scalar_true hg, withDest_ok hd, withDest_ok hb]
  exact next_congr (reeveForm_trap h _ _ _)

theorem exec_chase_offset (a b : Field4) {c : Field4}
    (h : (field (s.reg c) 0 8).toNat % 8 ≠ 0 ∨ (field (s.reg c) 8 8).toNat % 8 ≠ 0) :
    exec (.chase g d a b c) s = .next (s.trap 0x05 (s.reg c)) := by
  rw [exec_chase, execChase, scalar_true hg, withDest_ok hd]
  exact next_congr (if_pos h)

theorem exec_chase_trap (a b : Field4) {c : Field4} (hn : (field (s.reg c) 0 8).toNat % 8 = 0)
    (hk : (field (s.reg c) 8 8).toNat % 8 = 0)
    (h : s.checkScalar s.cur (s.reg a + BitVec.ofNat 64 (field (s.reg c) 8 8).toNat) 8 8 rA false = .trap x v) :
    exec (.chase g d a b c) s = .next (s.trap x (s.reg a)) := by
  rw [exec_chase, execChase, scalar_true hg, withDest_ok hd]
  dsimp only
  rw [if_neg (by omega), h]

end

/-- An operation that takes the cause and value of a failed check takes cause 0x05 with a misaligned address. -/
theorem fails_misaligned {s : State} {o : Out} {a : Word} {n align right : Nat} {posted : Bool}
    (h : ∀ k v, s.checkScalar s.cur a n align right posted = .trap k v → o = .next (s.trap k v)) :
    (∀ k v, s.checkScalar s.cur a n align right posted = .trap k v → o = .next (s.trap k v)) ∧
      (a.toNat % align ≠ 0 → o = .next (s.trap 0x05 a)) :=
  ⟨h, fun ha => h _ _ (checkScalar_misaligned s s.cur n right posted ha)⟩

/-- Settles O26: the steps of Table 2-9 one after the other, and for each form that the first step that fails is all it
does. -/
theorem handleChecks : Obligations.HandleChecks := by
  unfold Obligations.HandleChecks
  refine ⟨fun s t a n align right posted hp hm => ?_, fun s g d b c base size sx order off ty scope dbl hg hd => ?_⟩
  · dsimp only
    refine ⟨fun ha => checkScalar_misaligned s t n right posted ha,
      fun ha he => checkScalar_handle_some posted ha hp hm (checkEntry_absent _ _ _ _ _ _ he),
      fun ha he hr => checkScalar_handle_some posted ha hp hm (checkEntry_denied _ _ _ _ _ _ he hr),
      fun ha he hr hs => checkScalar_handle_some posted ha hp hm ?_, fun ha he hr hs => ?_,
      fun ha he hr hs => checkScalar_handle_some posted ha hp hm ?_⟩
    · rw [checkEntry_allowed _ _ _ _ _ _ he hr, if_pos (by simpa using hs)]
    · rw [checkScalar_handle_none posted ha hp hm]
      · refine ⟨fun pa h => ?_, fun h => ?_, fun h => ?_, fun k h => ?_⟩ <;> rw [State.checkResidency, h]
      · rw [checkEntry_allowed _ _ _ _ _ _ he hr, if_neg (by simp; omega), if_neg (by simp; omega)]
    · rw [checkEntry_allowed _ _ _ _ _ _ he hr, if_neg (by simp; omega), if_pos (by simpa using hs)]
  · refine ⟨fun ho => ⟨fails_misaligned fun k v h => exec_ld_trap hg hd base sx ho h,
        fails_misaligned fun k v h => exec_st_trap hg d base ho h⟩,
      fails_misaligned fun k v h => exec_ldh_trap hg hd base h, fails_misaligned fun k v h => exec_sth_trap hg d base h,
      fails_misaligned fun k v h => exec_stc_trap hg base b c h, ?_,
      fails_misaligned fun k v h => exec_cas_trap hg hd base b c scope h,
      fun hw hb => ⟨fun hh => fails_misaligned fun k v h => casBlock_trap hg hd hw base hb hh h,
        fun hh => fails_misaligned fun k v h => casBlock_trap hg hd hw base hb hh h⟩,
      fails_misaligned fun k v h => exec_enq_trap hg hd base b h,
      fun hb => fails_misaligned fun k v h => exec_deq_trap hg hd hb base h,
      fun h => exec_chase_offset hg hd base b h,
      fun hn hk => ⟨fun k v h => exec_chase_trap hg hd base b hn hk h,
        fun h => exec_chase_trap hg hd base b hn hk (checkScalar_misaligned _ _ _ _ _ h)⟩⟩
    simp only [List.forall_mem_cons, List.not_mem_nil, false_implies, implies_true, and_true]
    exact ⟨fails_misaligned fun k v h => atomic_trap hg hd base b 0 _ h, fails_misaligned fun k v h => atomic_trap hg hd base b 1 _ h,
      fails_misaligned fun k v h => atomic_trap hg hd base b 2 _ h, fails_misaligned fun k v h => atomic_trap hg hd base b 3 _ h,
      fails_misaligned fun k v h => atomic_trap hg hd base b 4 _ h, fails_misaligned fun k v h => atomic_trap hg hd base b 5 _ h,
      fails_misaligned fun k v h => atomic_trap hg hd base b 6 _ h⟩

end Sys2Proof.Machine
end

section
/-! Loads, stores, atomics and REEVE forms whose checks pass: what they send (O27, O28, O30). -/

namespace Sys2Proof.Machine

/-! ### Sending -/

@[simp] theorem State.request_slots (s : State) (a : Access) : (s.request a).2.slots = s.slots := rfl
@[simp] theorem State.request_cur (s : State) (a : Access) : (s.request a).2.cur = s.cur := rfl

theorem State.request_buffer (s : State) (a : Access) (c : Nat) : ((s.request a).2.core c).buffer = (s.core c).buffer := rfl

theorem Touched.here {s t : State} (h : Touched s t) : t.here = s.here := by
  rw [State.here, State.here, State.slot, State.slot, h.slots, h.cur]

theorem Touched.reg {s t : State} (h : Touched s t) (r : Field4) : t.reg r = s.reg r := by
  simp only [State.reg, State.regOf, State.slot, h.slots, h.cur]
  rfl

theorem Touched.newAccess {s t : State} (h : Touched s t) (k : Nat) (req : Req) (target : Target) (a : Word) (p : Bool) :
    t.newAccess k req target a p = s.newAccess k req target a p := by
  simp only [State.newAccess, State.slot, h.slots]

theorem State.missed_errors (s : State) (n k : Nat) : (s.missed n k).errors = s.errors := by
  unfold State.missed; split <;> rfl

theorem State.countExtent_errors (s : State) (c p o f : Nat) : (s.countExtent c p o f).errors = s.errors := by
  unfold State.countExtent; dsimp only; split <;> rfl

theorem State.touch_errors (s : State) (t : Nat) (a : Word) : (s.touch t a).errors = s.errors := by
  unfold State.touch
  split
  · rfl
  · dsimp only
    rw [State.missed_errors]
    split
    · exact State.countExtent_errors _ _ _ _ _
    · rw [State.missed_errors]
      exact State.countExtent_errors _ _ _ _ _

/-- A request stays sent in every state that has the same accesses, packets, due steps and bytes. -/
theorem requested_congr {s t u : State} {a : Access} (h : Requested s t a) (ha : u.accesses = t.accesses)
    (hp : u.packets = t.packets) (hd : u.pending = t.pending) (hm : u.mem = t.mem) : Requested s u a := by
  obtain ⟨access, packet, due, memory⟩ := h
  exact ⟨ha ▸ access, hp ▸ packet, hd ▸ due, hm ▸ memory⟩

section
variable {s t : State} (k id : Nat) (held : Bool)

theorem noteSent_requested {a : Access} (h : Requested s t a) : Requested s (t.noteSent k id none held) a := by
  rw [State.admit_frame]
  exact requested_congr h rfl rfl rfl rfl

theorem noteSent_waits (h : Waits s t) : Waits s (t.noteSent k id none held) := by
  rw [State.admit_frame]
  exact ⟨h.parked, h.pc, h.thread⟩

theorem noteSent_goesOn (h : GoesOn s t) : GoesOn s (t.noteSent k id none held) := by
  rw [State.admit_frame]
  exact ⟨h.ready, h.pc, h.thread⟩

theorem noteSent_core (c : Nat) : (t.noteSent k id none held).core c = t.core c := by
  rw [State.admit_frame]
  rfl

end

/-- A thread that sends an access and parks for its reply. -/
theorem parkOn_requested {s t : State} (h : Touched s t) (a : Access) :
    Requested s (parkOn (t.request a)) a ∧ Waits s (parkOn (t.request a)) := by
  have hh : (parkOn (t.request a)).here = { s.here with state := .parked (.reply s.nextId) } := by
    rw [parkOn, State.here_park, State.request_id, h.nextId, ← h.here]
    rfl
  exact ⟨requested_congr (State.request_requested h a) rfl rfl rfl rfl, (congrArg Slot.state hh :),
    (congrArg Slot.pc hh :), h.cur⟩

theorem finish_goesOn {s t : State} (hh : t.here = s.here) (hc : t.cur = s.cur) : GoesOn s t.finish := by
  have h := State.finish_here t
  rw [hh] at h
  exact ⟨congrArg Slot.state h, congrArg Slot.pc h, hc⟩

/-- A thread that sends a posted access and goes on. -/
theorem posted_requested {s t : State} (h : Touched s t) (a : Access) :
    Requested s (t.request a).2.finish a ∧ GoesOn s (t.request a).2.finish :=
  ⟨requested_congr (State.request_requested h a) rfl rfl rfl rfl, finish_goesOn h.here h.cur⟩

/-- One whose write enters the store buffer as well. -/
theorem buffered_requested {s t : State} (h : Touched s t) (a : Access) (c : Nat) (b : BufferedStore) :
    Requested s ((t.request a).2.modCore c fun v => { v with buffer := v.buffer ++ [b] }).finish a ∧
      GoesOn s ((t.request a).2.modCore c fun v => { v with buffer := v.buffer ++ [b] }).finish ∧
      (((t.request a).2.modCore c fun v => { v with buffer := v.buffer ++ [b] }).finish.core c).buffer =
        (s.core c).buffer ++ [b] := by
  refine ⟨requested_congr (State.request_requested h a) rfl rfl rfl rfl, finish_goesOn h.here h.cur, ?_⟩
  rw [← h.buffer, ← State.request_buffer t a]
  simp [State.core, State.finish, State.finishOf, State.modSlot, State.setSlot, State.modCore, State.setCore]

/-- An access whose checks have passed by `c`, with a free place and the race detector off. -/
theorem admitted_passed {s : State} {c : Check} {target : Target} (hc : c = .ok target) {posted : Bool}
    (hroom : if posted then s.outw s.cur < Config.writeWindow else s.outr s.cur < Config.requestWindow)
    (hr : raceMode s.here.race = 0) (a : Word) (kind : Nat) (atomic : Bool) (scope : Nat) (w : Bool)
    (k : Target → State → State) :
    admitted c a posted kind atomic scope w s k =
      (k target (s.touch s.cur a)).noteSent s.cur s.nextId none s.here.state.movingOn?.isSome := by
  have hrace : s.raceScalar s.cur target a kind atomic scope w = (s, none) := by
    unfold State.raceScalar State.raceAccess
    split
    · dsimp only
      split
      · rfl
      · exact if_pos hr
    · rfl
  unfold admitted
  rw [hc]
  dsimp only
  rw [if_neg (by cases posted <;> simp at * <;> omega), hrace]
  dsimp only
  rw [if_pos (by simp [hr])]

/-! ### Loads -/

theorem plainLoad_held {s : State} {a : Word} {n k : Nat} {target : Target} (h : s.checkScalar s.cur a n n rR false = .ok target)
    (hk : loadHeld s (.ok target) n = some k) (sx : Bool) (d : Field4) (acq : Bool) (parcel : Option (Nat × Nat)) :
    plainLoad a n sx d acq parcel s = s.park (.store k) := by
  unfold plainLoad
  dsimp only
  rw [h, hk]

/-- What a load whose checks pass comes to. -/
theorem plainLoad_sends {s : State} {a : Word} {n : Nat} {target : Target} (h : Admits s a n n rR false target)
    (hk : loadHeld s (.ok target) n = none) (sx : Bool) (d : Field4) (acq : Bool) (parcel : Option (Nat × Nat)) :
    ∃ acc, Requested s (plainLoad a n sx d acq parcel s) acc ∧ Waits s (plainLoad a n sx d acq parcel s) ∧
      acc.req = .load n ∧ acc.target = target ∧ acc.addr = a ∧ acc.thread = s.cur ∧ acc.dest = d.toNat ∧ acc.size = n ∧
      acc.sx = sx ∧ acc.parcel = parcel ∧ acc.posted = false ∧ acc.info.acquire = acq := by
  have ht := State.touch_touched s s.cur a
  have e : plainLoad a n sx d acq parcel s = (parkOn ((s.touch s.cur a).request
      { s.newAccess s.cur (.load n) target a false with
        dest := d.toNat, size := n, sx := sx, parcel := parcel, info := { acquire := acq } })).noteSent s.cur s.nextId none
        s.here.state.movingOn?.isSome := by
    unfold plainLoad
    dsimp only
    rw [h.checked, hk, ← h.checked, admitted_ok h]
    dsimp only
    rw [ht.newAccess, ht.cur]
  rw [e]
  obtain ⟨hr, hw⟩ := parkOn_requested ht { s.newAccess s.cur (.load n) target a false with
        dest := d.toNat, size := n, sx := sx, parcel := parcel, info := { acquire := acq } }
  exact ⟨_, noteSent_requested _ _ _ hr, noteSent_waits _ _ _ hw, rfl, rfl, rfl, rfl, rfl, rfl, rfl, rfl, rfl, rfl⟩

/-- Settles O27: both forms are the plain load of their address. -/
theorem loadsRequest : Obligations.LoadsRequest := by
  unfold Obligations.LoadsRequest
  intro s g d base size sx order off target hg hd ho
  dsimp only
  have hld : exec (.ld g d base size sx order off) s =
      .next (plainLoad (mAddress s base size off) (sizeBytes size) sx d (order = 1) none s) := by
    rw [exec_ld, execLd, scalar_true hg, withDest_ok hd]
    exact next_congr (if_neg ho)
  have hldh : exec (.ldh g d base off) s = .next (plainLoad (mAddress s base 3 off) 8 false d false
      ((s.parcelAt s.cur (mAddress s base 3 off)).map fun o =>
        (o, (s.obj (chipOfThread s.cur) s.here.parish o).length)) s) := by
    rw [exec_ldh, execLdh, scalar_true hg, withDest_ok hd]
  refine ⟨fun h => ⟨fun k hk => ?_, fun hk => ?_⟩, fun h => ⟨fun k hk => ?_, fun hk => ?_⟩⟩
  · rw [hld]; exact next_congr (plainLoad_held h.checked hk _ _ _ _)
  · rw [hld]
    obtain ⟨acc, h'⟩ := plainLoad_sends h hk _ d _ _
    exact ⟨_, acc, rfl, h'⟩
  · rw [hldh]; exact next_congr (plainLoad_held h.checked hk _ _ _ _)
  · rw [hldh]
    obtain ⟨acc, h'⟩ := plainLoad_sends h hk _ d _ _
    exact ⟨_, acc, rfl, h'⟩

/-! ### Stores -/

/-- What a posted write of the low `n` bytes of `w` at `a` comes to. -/
theorem plainStore_posts {s : State} {a : Word} {n : Nat} {target : Target} (h : Admits s a n n rW true target) (w : Word)
    (release : Bool) (flag : Option Word) :
    ∃ acc, Requested s (plainStore a n w release flag s) acc ∧ GoesOn s (plainStore a n w release flag s) ∧
      acc.req = .store ((List.range n).zip (littleEndian w n)) ∧ acc.target = target ∧ acc.addr = a ∧
      acc.thread = s.cur ∧ acc.posted = true ∧ acc.flag = flag ∧ acc.info.release = release ∧
      ((plainStore a n w release flag s).core (coreOfThread s.cur)).buffer = (s.core (coreOfThread s.cur)).buffer ++
        [{ acc := s.nextId, thread := s.cur, bytes := (List.range n).zip (littleEndian w n), release := release }] := by
  have ht := State.touch_touched s s.cur a
  generalize hstamp : (if release || flag.isSome then (s.touch s.cur a).stampOf s.cur else {}) = stamp
  let acc : Access := { s.newAccess s.cur (.store ((List.range n).zip (littleEndian w n))) target a true with
    flag := flag, info := { stamp := stamp, release := release } }
  let b : BufferedStore :=
    { acc := s.nextId, thread := s.cur, bytes := (List.range n).zip (littleEndian w n), release := release }
  have e : plainStore a n w release flag s = (((s.touch s.cur a).request acc).2.modCore (coreOfThread s.cur) fun v =>
      { v with buffer := v.buffer ++ [b] }).finish.noteSent s.cur s.nextId none s.here.state.movingOn?.isSome := by
    rw [plainStore, admitted_ok h]
    dsimp only
    rw [ht.newAccess, State.request_cur, ht.cur, State.request_id, ht.nextId, hstamp]
  rw [e, noteSent_core]
  obtain ⟨hr, hg, hb⟩ := buffered_requested ht acc (coreOfThread s.cur) b
  exact ⟨acc, noteSent_requested _ _ _ hr, noteSent_goesOn _ _ _ hg, rfl, rfl, rfl, rfl, rfl, rfl, rfl, hb⟩

/-- Settles O28: every form is one posted write, of the value it stores. -/
theorem storesPost : Obligations.StoresPost := by
  unfold Obligations.StoresPost
  intro s g v base c size off target hg
  dsimp only
  have posts {i : Instr} {a : Word} {n : Nat} {w : Word} {release : Bool} {flag : Option Word}
      (hi : Admits s a n n rW true target → exec i s = .next (plainStore a n w release flag s))
      (h : Admits s a n n rW true target) :
      ∃ t acc, exec i s = .next t ∧ Requested s t acc ∧ GoesOn s t ∧
        acc.req = .store ((List.range n).zip (littleEndian w n)) ∧ acc.target = target ∧ acc.addr = a ∧
        acc.thread = s.cur ∧ acc.posted = true ∧ acc.flag = flag ∧ acc.info.release = release ∧
        (t.core (coreOfThread s.cur)).buffer = (s.core (coreOfThread s.cur)).buffer ++
          [{ acc := s.nextId, thread := s.cur, bytes := (List.range n).zip (littleEndian w n), release := release }] := by
    obtain ⟨acc, h'⟩ := plainStore_posts h w release flag
    exact ⟨_, acc, hi h, h'⟩
  refine ⟨posts fun h => ?_, fun hr => posts fun h => ?_, fun hr h => ?_, fun hp => posts fun h => ?_,
    fun o w hp hw => posts fun h => ?_, fun o hp h hw => ?_, fun hf => posts fun h => ?_,
    fun hf hw hc => posts fun h => ?_⟩
  · rw [exec_st, execSt, scalar_true hg]
    rfl
  · rw [exec_st, execSt, scalar_true hg]
    have hc : s.checkScalar s.cur (mAddress s base size off) (sizeBytes size) (sizeBytes size) rW true = .ok target := h.checked
    dsimp only
    rw [if_neg (by decide), if_pos rfl, hc]
    dsimp only
    rw [withRelease_ok hr.released hr.reachable hr.kept hr.sound]
    rfl
  · rw [exec_st, execSt, scalar_true hg]
    have hc : s.checkScalar s.cur (mAddress s base size off) (sizeBytes size) (sizeBytes size) rW true = .ok target := h.checked
    dsimp only
    rw [if_neg (by decide), if_pos rfl, hc]
    simp [withRelease, hr]
  · have hp' : s.parcelAt s.cur (mAddress s base 3 off) = none := hp
    rw [exec_sth, execSth, scalar_true hg]
    dsimp only
    rw [hp']
    rfl
  · have hp' : s.parcelAt s.cur (mAddress s base 3 off) = some o := hp
    have hc : s.checkScalar s.cur (mAddress s base 3 off) 8 8 rW true = .ok target := h.checked
    rw [exec_sth, execSth, scalar_true hg]
    dsimp only
    rw [hp']
    dsimp only
    rw [hc]
    dsimp only
    rw [hw]
    rfl
  · have hp' : s.parcelAt s.cur (mAddress s base 3 off) = some o := hp
    have hc : s.checkScalar s.cur (mAddress s base 3 off) 8 8 rW true = .ok target := h.checked
    rw [exec_sth, execSth, scalar_true hg]
    dsimp only
    rw [hp']
    dsimp only
    rw [hc]
    dsimp only
    rw [hw]
  · have hc : s.checkScalar s.cur (s.reg base) (sizeBytes size) (sizeBytes size) rW true = .ok target := h.checked
    rw [exec_stc, execStc, scalar_true hg]
    dsimp only
    rw [hc]
    dsimp only
    rw [if_pos hf]
    rfl
  · have hcs : s.checkScalar s.cur (s.reg base) (sizeBytes size) (sizeBytes size) rW true = .ok target := h.checked
    rw [exec_stc, execStc, scalar_true hg]
    dsimp only
    rw [hcs]
    dsimp only
    rw [if_neg hf, if_neg (by rintro ⟨h1, h2⟩; simp_all)]
    cases hfc : s.checkFlag (chipOfThread s.cur) s.here.parish (s.flagPlace s.cur (s.reg c)) true with
    | trap x y => exact absurd hfc (hc x y)
    | _ => rfl

/-! ### Atomics and REEVE forms -/

/-- What the Reeve form of a request `req` comes to. -/
theorem reeveForm_parks {s : State} {a : Word} {n align : Nat} {target : Target} (h : Admits s a n align rA false target)
    (scope : Nat) (req : Req) (f : Access → Access) :
    ∃ b, Requested s (reeveForm a n align scope req f s) (f b) ∧ Waits s (reeveForm a n align scope req f s) ∧
      b = s.newAccess s.cur req target a false := by
  have ht := State.touch_touched s s.cur a
  rw [reeveForm, admitted_ok h]
  rw [ht.newAccess, ht.cur]
  obtain ⟨hr, hw⟩ := parkOn_requested ht (f (s.newAccess s.cur req target a false))
  exact ⟨_, noteSent_requested _ _ _ hr, noteSent_waits _ _ _ hw, rfl⟩

section
variable {g : Guard} {s : State} (hg : guardHolds g s = true) {d : Field4} (hd : shadowReg d = false) {target : Target}
include hg hd

theorem atomic_parks (h0 : d ≠ 0) (a b : Field4) (op : Nat) {ty : Nat} (scope : Nat)
    (h : Admits s (s.reg a) (amoBytes ty) (amoBytes ty) rA false target) :
    ∃ t acc, atomic g d a b op ty scope s = .next t ∧ Requested s t acc ∧ Waits s t ∧ acc.req = .amo op ty (s.reg b) ∧
      acc.target = target ∧ acc.addr = s.reg a ∧ acc.thread = s.cur ∧ acc.dest = d.toNat ∧ acc.posted = false := by
  have ht := State.touch_touched s s.cur (s.reg a)
  rw [atomic, scalar_true hg, withDest_ok hd]
  dsimp only
  rw [decide_eq_false h0, admitted_ok h]
  rw [ht.newAccess, ht.cur, ht.reg]
  rw [if_neg h0]
  obtain ⟨hr, hw⟩ := parkOn_requested ht _
  exact ⟨_, _, rfl, noteSent_requested _ _ _ hr, noteSent_waits _ _ _ hw, rfl, rfl, rfl, rfl, rfl, rfl⟩

theorem atomic_posts (h0 : d = 0) (a b : Field4) (op : Nat) {ty : Nat} (scope : Nat)
    (h : Admits s (s.reg a) (amoBytes ty) (amoBytes ty) rA true target) :
    ∃ t acc, atomic g d a b op ty scope s = .next t ∧ Requested s t acc ∧ GoesOn s t ∧ acc.req = .amo op ty (s.reg b) ∧
      acc.target = target ∧ acc.posted = true := by
  have ht := State.touch_touched s s.cur (s.reg a)
  rw [atomic, scalar_true hg, withDest_ok hd]
  dsimp only
  rw [decide_eq_true h0, admitted_ok h]
  rw [ht.newAccess, ht.cur, ht.reg]
  rw [if_pos h0]
  obtain ⟨hr, hw⟩ := posted_requested ht _
  exact ⟨_, _, rfl, noteSent_requested _ _ _ hr, noteSent_goesOn _ _ _ hw, rfl, rfl, rfl⟩

end

/-- A fold that keeps what it has once that has no race finds none. -/
theorem raceBytes_off {s : State} {t : Nat} (h : raceMode (s.slot t).race = 0) (o : Word) (pas : List Nat) (kind : Nat) (w : Bool) :
    s.raceBytes t o pas kind w = (s, none) := by
  unfold State.raceBytes
  dsimp only
  generalize pas.foldl _ [] = lines
  induction lines with
  | nil => rfl
  | cons l ls ih =>
    rw [List.foldl_cons]
    rw [show ∀ pa, s.raceAccess (s.accessor t) pa o 0 kind false 4 w = (s, none) from fun pa => if_pos h]
    exact ih

theorem findError_none {s : State} (h : s.errors = []) (pas : List Nat) : s.findError pas = (s, false) := by
  simp [State.findError, h]

theorem overlay_none {s : State} {t : Nat} (h : (s.core (coreOfThread t)).buffer = []) (pas : List Nat) :
    s.overlay t pas = ([], []) := by
  simp [State.overlay, State.bufferOf, h]

section
variable {g : Guard} {s : State} (hg : guardHolds g s = true) {d : Field4} (hd : shadowReg d = false) {target : Target}
include hg hd

/-- What CAS2 and CAS4 over `m` bytes come to: the request carries the block as its storage holds it. -/
theorem casBlock_parks (hw : s.here.wf = false) (a : Field4) {b : Field4} {m : Nat} (hb : (s.reg b).toNat % 8 = 0)
    (h : Admits s (s.reg a) m m rA false target)
    (hu : Unhindered s false (s.localRange s.cur ((s.reg b).toNat % s.here.span) (2 * m))) :
    ∃ t acc, casBlock m g d a b s = .next t ∧ Requested s t acc ∧ Waits s t ∧
      acc.req = .casBlock ((s.bytes (s.localRange s.cur ((s.reg b).toNat % s.here.span) (2 * m))).take m)
        ((s.bytes (s.localRange s.cur ((s.reg b).toNat % s.here.span) (2 * m))).drop m) ∧
      acc.target = target ∧ acc.addr = s.reg a ∧ acc.thread = s.cur ∧ acc.dest = d.toNat ∧ acc.posted = false := by
  have ht := State.touch_touched s s.cur (s.reg a)
  have he : (s.touch s.cur (s.reg a)).errors = [] := (State.touch_errors s s.cur (s.reg a)).trans hu.noErrors
  have hr : raceMode ((s.touch s.cur (s.reg a)).slot s.cur).race = 0 := by
    rw [State.slot, ht.slots]
    exact h.noRaces
  have ho (pas : List Nat) : (s.touch s.cur (s.reg a)).overlay s.cur pas = ([], []) :=
    overlay_none ((ht.buffer _).trans hu.buffer) pas
  have hbs (pas : List Nat) : (s.touch s.cur (s.reg a)).bytes pas = s.bytes pas := by
    rw [State.bytes, State.bytes, show (s.touch s.cur (s.reg a)).byte = s.byte from funext fun p => by
      rw [State.byte, State.byte, ht.mem]]
  generalize hblk : s.localRange s.cur ((s.reg b).toNat % s.here.span) (2 * m) = blk at hu ⊢
  rw [casBlock, scalar_true hg, withDest_ok hd, atHome_ok hw]
  dsimp only
  rw [if_neg (not_not.mpr hb), hblk, hu.first]
  dsimp only
  rw [admitted_ok h]
  rw [ht.cur, raceBytes_off hr]
  dsimp only
  rw [ht.cur, raceBytes_off hr]
  dsimp only
  rw [findError_none he]
  dsimp only
  rw [ht.newAccess, ht.cur, ho, hbs]
  obtain ⟨hr, hw⟩ := parkOn_requested ht { s.newAccess s.cur (.casBlock ((s.bytes blk).take m) ((s.bytes blk).drop m))
    target (s.reg a) false with dest := d.toNat, size := m, block := blk.take m }
  exact ⟨_, _, rfl, noteSent_requested _ _ _ hr, noteSent_waits _ _ _ hw, rfl, rfl, rfl, rfl, rfl, rfl⟩

theorem exec_chase_parks (a b : Field4) {c : Field4} (hn : (field (s.reg c) 0 8).toNat % 8 = 0)
    (hk : (field (s.reg c) 8 8).toNat % 8 = 0)
    (h : Admits s (s.reg a + BitVec.ofNat 64 (field (s.reg c) 8 8).toNat) 8 8 rA false target) :
    ∃ t acc, exec (.chase g d a b c) s = .next t ∧ Requested s t acc ∧ Waits s t ∧
      acc.req = .chase (s.reg b) (field (s.reg c) 8 8).toNat (field (s.reg c) 0 8).toNat (s.reg a) 16 ∧
      acc.target = target ∧ acc.addr = s.reg a ∧ acc.thread = s.cur ∧ acc.dest = d.toNat ∧ acc.posted = false := by
  have ht := State.touch_touched s s.cur (s.reg a)
  rw [exec_chase, execChase, scalar_true hg, withDest_ok hd]
  dsimp only
  rw [if_neg (by omega), h.checked]
  dsimp only
  rw [admitted_passed rfl h.room h.noRaces]
  rw [ht.newAccess, ht.cur, ht.reg]
  obtain ⟨hr, hw⟩ := parkOn_requested ht _
  exact ⟨_, _, rfl, noteSent_requested _ _ _ hr, noteSent_waits _ _ _ hw, rfl, rfl, rfl, rfl, rfl, rfl⟩

end

/-- Settles O30: each form is one request with its operands. -/
theorem atomicsRequest : Obligations.AtomicsRequest := by
  unfold Obligations.AtomicsRequest
  intro s g d a b c ty scope dbl target hg hd
  dsimp only
  have amo (op : Nat) := And.intro (fun h0 h => atomic_parks (target := target) hg hd h0 a b op (ty := ty.toNat) scope.toNat h)
    (fun h0 h => atomic_posts (target := target) hg hd h0 a b op (ty := ty.toNat) scope.toNat h)
  refine ⟨amo 0, amo 1, amo 2, amo 3, amo 4, amo 5, amo 6, fun h => ?_,
    fun hw hb h hu => casBlock_parks hg hd hw a hb h hu, fun hw hb h hu => casBlock_parks hg hd hw a hb h hu,
    fun h => ?_, fun hb h => ?_, fun hn hk h => exec_chase_parks hg hd a b hn hk h⟩
  · rw [exec_cas, execCas, scalar_true hg, withDest_ok hd]
    obtain ⟨x, hr, hw, rfl⟩ := reeveForm_parks h scope.toNat (.cas (if dbl then 8 else 4) (s.reg b) (s.reg c))
      (fun x => { x with dest := d.toNat, size := if dbl then 8 else 4, sx := !dbl, info := { scope := scope.toNat } })
    exact ⟨_, _, rfl, hr, hw, rfl, rfl, rfl, rfl, rfl, rfl⟩
  · rw [exec_enq, execEnq, scalar_true hg, withDest_ok hd]
    obtain ⟨x, hr, hw, rfl⟩ := reeveForm_parks h unscoped (.enq (s.reg b)) (fun x => { x with dest := d.toNat })
    exact ⟨_, _, rfl, hr, hw, rfl, rfl, rfl, rfl, rfl, rfl⟩
  · rw [exec_deq, execDeq, scalar_true hg, withDest_ok hd, withDest_ok hb]
    obtain ⟨x, hr, hw, rfl⟩ := reeveForm_parks h unscoped .deq (fun x => { x with dest := d.toNat, dest2 := b.toNat })
    exact ⟨_, _, rfl, hr, hw, rfl, rfl, rfl, rfl, rfl, rfl⟩

end Sys2Proof.Machine
end

section
/-! LDL and STL: what a store leaves in memory, traps that are taken, and the local accesses (O29). -/

namespace Sys2Proof.Machine

/-! ### Bytes written and read back -/

theorem nodup_consecutive (pa n : Nat) : (consecutive pa n).Nodup :=
  List.nodup_range.map fun _ _ h => Nat.add_left_cancel h

@[simp] theorem length_consecutive (pa n : Nat) : (consecutive pa n).length = n := by simp [consecutive]

/-- The bytes that a list of writes to distinct places leaves there. -/
theorem bytes_setBytes_zip (s : State) {pas : List Nat} {bs : List Byte} (hn : pas.Nodup) (hl : bs.length = pas.length) :
    (s.setBytes (pas.zip bs)).bytes pas = bs := by
  have hf : (pas.zip bs).map Prod.fst = pas := List.map_fst_zip hl.ge
  have once : (pas.zip bs).Pairwise fun x y => x.1 ≠ y.1 := by
    rw [← List.pairwise_map (f := Prod.fst) (R := (· ≠ ·)), hf]
    exact hn
  refine List.ext_getElem (by simp [State.bytes, hl]) fun i h1 h2 => ?_
  have hi : i < pas.length := hl ▸ h2
  have e : ((s.setBytes (pas.zip bs)).bytes pas)[i] = (s.setBytes (pas.zip bs)).byte pas[i] := List.getElem_map _
  rw [e]
  refine State.byte_setBytes_of_mem s ?_ once
  have hz : i < (pas.zip bs).length := by rw [List.length_zip]; omega
  have := List.getElem_mem hz
  rwa [List.getElem_zip] at this

/-- Reading back the low bytes of a value that has been stored. -/
theorem loadLE_storeLE (s : State) (pa n : Nat) (v : Word) :
    (s.storeLE pa n v).loadLE pa n = BitVec.ofNat 64 (v.toNat % 2 ^ (8 * n)) := by
  rw [State.loadLE, State.storeLE, bytesAt, bytes_setBytes_zip s (nodup_consecutive pa n) (by simp), wordOfBytes,
    ofLittleEndian_littleEndian]

theorem loadLE_congr {s t : State} (h : t.mem = s.mem) (pa n : Nat) : t.loadLE pa n = s.loadLE pa n := by
  rw [State.loadLE, State.loadLE, State.bytes, State.bytes, show t.byte = s.byte from funext fun p => by
    rw [State.byte, State.byte, h]]

theorem byte_congr {s t : State} (h : t.mem = s.mem) (a : Nat) : t.byte a = s.byte a := by
  rw [State.byte, State.byte, h]

theorem write_slots (s : State) (l : List (Nat × Byte)) : (s.write l).slots = s.slots := by
  unfold State.write State.refreshed State.dropStamps
  split <;> split <;> rfl

theorem write_cur (s : State) (l : List (Nat × Byte)) : (s.write l).cur = s.cur := by
  unfold State.write State.refreshed State.dropStamps
  split <;> split <;> rfl

/-- Bytes that no wait watches may be written with no flag examined. -/
theorem examineWritten_unwatched {s : State} {pas : List Nat} (h : Unwatched s pas) (s' : State) (parish : Nat) :
    s.examineWritten s' pas parish = s' := by
  unfold State.examineWritten
  cases pas with
  | nil => rfl
  | cons b r =>
    dsimp only
    rw [List.filter_eq_nil_iff.2]
    · rfl
    · intro w hw
      simpa using fun x hx => h _ w hw x hx

/-! ### Traps that are taken -/

/-- Outside a handler every trap sets cause, tval and epc, whichever route it takes (R368). -/
theorem trapIn_takes {s : State} {t : Nat} (hi : (s.slot t).ih = false) (c : Nat) (v : Word) :
    ((s.trapIn t c v).slot t).cause = BitVec.ofNat 64 c ∧ ((s.trapIn t c v).slot t).tval = v ∧
      ((s.trapIn t c v).slot t).epc = (s.slot t).pc := by
  by_cases h : supervisorCause c = true ∨ (s.slot t).tvec = 0
  · rw [State.trapIn_supervisor s t c v h hi]
    exact ⟨by simp, by simp, by simp⟩
  · rw [not_or] at h
    rw [State.trapIn_handler s t c v (by simpa using h.1) h.2 hi]
    exact ⟨by simp, by simp, by simp⟩

/-! ### Local accesses -/

theorem raceAccess_off {s : State} {t : Nat} (h : raceMode (s.slot t).race = 0) (pa : Nat) (addr : Word) (gen kind : Nat)
    (atomic : Bool) (scope : Nat) (w : Bool) :
    s.raceAccess (s.accessor t) pa addr gen kind atomic scope w = (s, none) := if_pos h

theorem localAccess_ok {s : State} (hw : s.here.wf = false) {o : Word} {n : Nat} (ho : o.toNat % n = 0) (k : State → State) :
    localAccess o n s k = k s := by
  rw [localAccess, atHome_ok hw]
  exact if_neg (not_not.mpr ho)

section
variable {s : State} {pa n : Nat} (addr : Word) (k : Word → State → State)

theorem localLoad_empty (h : s.lineEmpty (lineOf pa) = true) : localLoad pa n addr s k = s.park (.line (lineOf pa)) := by
  rw [localLoad, if_pos h]

variable (h : s.lineEmpty (lineOf pa) = false)
include h

theorem localLoad_held {id : Nat} (hh : s.heldBack s.cur false (consecutive pa n) = some id) :
    localLoad pa n addr s k = s.park (.store id) := by
  rw [localLoad, if_neg (by simp [h]), hh]

theorem localLoad_full (hu : Unhindered s false (consecutive pa n)) : localLoad pa n addr s k = k (s.loadLE pa n) s := by
  rw [localLoad, if_neg (by simp [h]), hu.first]
  dsimp only
  rw [raceAccess_off hu.noRaces]
  dsimp only
  rw [findError_none hu.noErrors]
  dsimp only
  rw [overlay_none hu.buffer]
  rfl

theorem localLoad_error (hh : s.heldBack s.cur false (consecutive pa n) = none) (hr : raceMode s.here.race = 0)
    (he : ∃ b ∈ consecutive pa n, s.errorIn b 1 = 2) :
    ∃ c m w, localLoad pa n addr s k = (s.machineCheck c m w).trap 0x16 addr := by
  obtain ⟨b, hb, hb2⟩ := he
  have hne : s.errors.isEmpty = false := by
    by_contra hc
    rw [State.errorIn, if_pos (by simpa using hc)] at hb2
    omega
  obtain ⟨x, hx⟩ := Option.isSome_iff_exists.1
    (List.find?_isSome.2 ⟨b, hb, by simpa using hb2⟩ : ((consecutive pa n).find? fun pa => s.errorIn pa 1 = 2).isSome)
  have hf : s.findError (consecutive pa n) =
      (s.machineCheck (counterOf x / 16) (if x < hbmBase then 0 else 1) (BitVec.ofNat 64 x), true) := by
    rw [State.findError, if_neg (by simp [hne]), hx]
  refine ⟨counterOf x / 16, if x < hbmBase then 0 else 1, BitVec.ofNat 64 x, ?_⟩
  rw [localLoad, if_neg (by simp [h]), hh]
  dsimp only
  rw [raceAccess_off hr]
  dsimp only
  rw [hf]

end

theorem localStore_held {s : State} {pa n id : Nat} (addr v : Word) (h : s.heldBack s.cur true (consecutive pa n) = some id) :
    localStore pa n addr v s = s.park (.store id) := by
  rw [localStore, h]

theorem localStore_ok {s : State} {pa n : Nat} (addr v : Word) (h : Unhindered s true (consecutive pa n))
    (hw : Unwatched s (consecutive pa n)) : localStore pa n addr v s = (s.write (bytesAt pa n v)).finish := by
  rw [localStore, h.first]
  dsimp only
  rw [raceAccess_off h.noRaces]
  dsimp only
  rw [examineWritten_unwatched hw]

/-- Settles O29, from what a local load and a local store come to. -/
theorem localAccesses : Obligations.LocalAccesses := by
  unfold Obligations.LocalAccesses
  intro s g d v base size sx off hg hd hw
  dsimp only
  intro ho
  have hl : exec (.ldl g d base size sx off) s = .next (localLoad (s.local s.cur (mAddress s base size off)) (sizeBytes size)
      (mAddress s base size off) s fun v s => (s.setReg d (extend (sizeBytes size) sx v)).finish) := by
    rw [exec_ldl, execLdl, scalar_true hg, withDest_ok hd]
    exact next_congr (localAccess_ok hw ho _)
  have hs : exec (.stl g v base size off) s = .next (localStore (s.local s.cur (mAddress s base size off)) (sizeBytes size)
      (mAddress s base size off) (s.reg v) s) := by
    rw [exec_stl, execStl, scalar_true hg]
    exact next_congr (localAccess_ok hw ho _)
  refine ⟨fun h => ?_, fun h hu => ?_, fun k h hk => ?_, fun k hk => ?_, fun h hk hr hi he => ?_, fun hu hn => ?_⟩
  · rw [hl]; exact next_congr (localLoad_empty _ _ h)
  · rw [hl]; exact next_congr (localLoad_full _ _ h hu)
  · rw [hl]; exact next_congr (localLoad_held _ _ h hk)
  · rw [hs]; exact next_congr (localStore_held _ _ hk)
  · obtain ⟨c, m, w, e⟩ := localLoad_error (mAddress s base size off)
      (fun v s => (s.setReg d (extend (sizeBytes size) sx v)).finish) h hk hr he
    obtain ⟨hc, hv, hp⟩ := trapIn_takes (s := s.machineCheck c m w) (t := s.cur) hi 0x16 (mAddress s base size off)
    refine ⟨_, hl.trans (next_congr e), ?_⟩
    have hcur : ((s.machineCheck c m w).trap 0x16 (mAddress s base size off)).cur = s.cur := State.cur_trap _ _ _
    rw [State.here, hcur]
    exact ⟨hc, hv, hp⟩
  · have e := localStore_ok (mAddress s base size off) (s.reg v) hu hn
    have hm : (s.write (bytesAt (s.local s.cur (mAddress s base size off)) (sizeBytes size) (s.reg v))).finish.mem =
        (s.storeLE (s.local s.cur (mAddress s base size off)) (sizeBytes size) (s.reg v)).mem := State.write_mem _ _
    have hh (l : List (Nat × Byte)) : (s.write l).here = s.here := by
      rw [State.here, State.here, State.slot, State.slot, write_slots, write_cur]
    refine ⟨_, hs.trans (next_congr e), finish_goesOn (hh _) (write_cur _ _), fun r => ?_, fun a ha => ?_, ?_⟩
    · rw [State.finish_reg, State.reg, State.regOf, State.slot, write_slots, write_cur]
      rfl
    · exact (byte_congr hm a).trans (State.byte_storeLE_of_outside _ _ ha)
    · exact (loadLE_congr hm _ _).trans (loadLE_storeLE _ _ _ _)

end Sys2Proof.Machine
end

section
/-! Flag and line instructions as they issue: what they send, and what they do to the lines of the window (O34). -/

namespace Sys2Proof.Machine

/-! ### Requests handed to the node's own Reeve -/

theorem handedOver_congr {s t u : State} {a : Access} (h : HandedOver s t a) (ha : u.accesses = t.accesses)
    (hp : u.packets = t.packets) (hd : u.pending = t.pending) (hm : u.mem = t.mem) : HandedOver s u a := by
  obtain ⟨access, packet, due, memory⟩ := h
  have he (k id : Nat) : arrivalEvent u k (.request id) = arrivalEvent t k (.request id) := by
    rw [arrivalEvent, arrivalEvent, State.access?, State.access?, ha]
  exact ⟨ha ▸ access, hp ▸ packet, by rw [he, hd]; exact due, hm ▸ memory⟩

theorem requestDirect_handed (s : State) (a : Access) : HandedOver s (s.requestDirect a).2 a := by
  refine ⟨rfl, rfl, ?_, rfl⟩
  exact List.mem_append_right _ (List.mem_singleton.2 rfl)

@[simp] theorem flagRequest_id (s : State) (direct : Bool) (a : Access) : (s.flagRequest direct a).1 = s.nextId := by
  cases direct <;> rfl
@[simp] theorem flagRequest_slots (s : State) (direct : Bool) (a : Access) : (s.flagRequest direct a).2.slots = s.slots := by
  cases direct <;> rfl
@[simp] theorem flagRequest_cur (s : State) (direct : Bool) (a : Access) : (s.flagRequest direct a).2.cur = s.cur := by
  cases direct <;> rfl

theorem flagRequest_here (s : State) (direct : Bool) (a : Access) : (s.flagRequest direct a).2.here = s.here := by
  rw [State.here, State.here, State.slot, State.slot, flagRequest_slots, flagRequest_cur]

/-- The path that a flag request takes: from state `s` the access `a` has gone straight to the Reeve of its node, or through
the router, in state `t`. -/
def SentBy (direct : Bool) (s t : State) (a : Access) : Prop :=
  if direct then HandedOver s t a else Requested s t a

theorem flagRequest_sent (s : State) (direct : Bool) (a : Access) : SentBy direct s (s.flagRequest direct a).2 a := by
  cases direct
  · exact State.request_requested (Touched.refl s) a
  · exact requestDirect_handed s a

theorem sent_congr {direct : Bool} {s t u : State} {a : Access} (h : SentBy direct s t a) (ha : u.accesses = t.accesses)
    (hp : u.packets = t.packets) (hd : u.pending = t.pending) (hm : u.mem = t.mem) : SentBy direct s u a := by
  cases direct
  · exact requested_congr h ha hp hd hm
  · exact handedOver_congr h ha hp hd hm

/-- The path of a flag, read off whether it is a place. -/
theorem sent_place {f : Word} {s t : State} {a : Access} (h : SentBy (!isPlace f) s t a) :
    (isPlace f = true → Requested s t a) ∧ (isPlace f = false → HandedOver s t a) := by
  cases hf : isPlace f
  · rw [hf] at h; exact ⟨fun h' => (nomatch h'), fun _ => h⟩
  · rw [hf] at h; exact ⟨fun _ => h, fun h' => nomatch h'⟩

/-- The flag `f` of an instruction of the current thread reaches byte `pa`, under the address `addr`. -/
def FlagReaches (s : State) (f : Word) (posted : Bool) (pa : Nat) (addr : Word) : Prop :=
  (isPlace f = true ∧ addr = f ∧ s.checkFlag (chipOfThread s.cur) s.here.parish f posted = .ok (.byte pa)) ∨
    (isPlace f = false ∧ s.here.wf = false ∧ f.toNat % 8 = 0 ∧ addr = s.flagPlace s.cur f ∧ pa = s.local s.cur f)

theorem withFlag_reaches {s : State} {a : Field4} {e : BitVec 9} {posted : Bool} {pa : Nat} {addr : Word}
    (h : FlagReaches s (flagAddress s a e) posted pa addr) (k : Bool → Word → Check → State → State) :
    withFlag a e posted s k = k (!isPlace (flagAddress s a e)) addr (.ok (.byte pa)) s := by
  rcases h with ⟨hp, rfl, hc⟩ | ⟨hp, hw, h8, rfl, rfl⟩
  · rw [withFlag, if_pos hp, hc, hp]
    rfl
  · rw [withFlag, if_neg (by simp [hp]), atHome_ok hw, if_neg (not_not.mpr h8), hp]
    rfl

/-- CADD with a free place sends its addition and goes on. -/
theorem addFlag_adds {s : State} {pa : Nat} (addr : Word) (hw : s.outw s.cur < Config.writeWindow) (release direct : Bool) (v : Word) :
    ∃ acc, SentBy direct s (addFlag release v direct addr (.ok (.byte pa)) s) acc ∧ acc.req = .flagAdd v ∧
      acc.target = .byte pa ∧ acc.addr = addr ∧ acc.thread = s.cur ∧ acc.posted = true ∧
      GoesOn s (addFlag release v direct addr (.ok (.byte pa)) s) ∧ acc.info.release = release := by
  let acc : Access := { s.newAccess s.cur (.flagAdd v) (.byte pa) addr true with
    info := { stamp := if release then s.stampOf s.cur else {}, release := release } }
  have ex : addFlag release v direct addr (.ok (.byte pa)) s = (s.flagRequest direct acc).2.finish := by
    rw [addFlag]
    exact if_neg (by omega)
  rw [ex]
  exact ⟨acc, sent_congr (flagRequest_sent s direct acc) rfl rfl rfl rfl, rfl, rfl, rfl, rfl, rfl,
    finish_goesOn (flagRequest_here _ _ _) (flagRequest_cur _ _ _), rfl⟩

section
variable {g : Guard} {s : State} (hg : guardHolds g s = true) {a : Field4} {e : BitVec 9} {posted : Bool} {pa : Nat}
  {addr : Word}
include hg

/-- CWAIT and CWAITR with nothing to report send their wait and park for its wake notice. -/
theorem waitFlag_waits (h : FlagReaches s (flagAddress s a e) false pa addr) (hu : s.here.unreachable = none)
    (hl : s.here.linkLost = none) (he : s.here.writeError = none) (sub : Bool) (d : Field4) :
    ∃ t acc, waitFlag sub g d a e s = .next t ∧ SentBy (!isPlace (flagAddress s a e)) s t acc ∧
      acc.req = .waitFor (s.reg d) sub ∧ acc.target = .byte pa ∧ acc.addr = addr ∧ acc.thread = s.cur ∧ acc.posted = false ∧
      t.here.state = .parked .wake ∧ t.here.wait = some ⟨s.nextId, addr, s.reg d, sub, false, []⟩ ∧ t.here.pc = s.here.pc := by
  generalize hdir : (!isPlace (flagAddress s a e)) = direct
  let acc : Access := { s.newAccess s.cur (.waitFor (s.reg d) sub) (.byte pa) addr false with
    takesPlace := false, info := { acquire := true } }
  have ex : waitFlag sub g d a e s = .next ((s.flagRequest direct acc).2.modHere fun c =>
      { c with state := .parked .wake, wait := some ⟨s.nextId, addr, s.reg d, sub, false, []⟩ }) := by
    rw [waitFlag, scalar_true hg, withFlag_reaches h, hdir]
    dsimp only
    rw [hu, hl, he, flagRequest_id]
  have hh := State.here_modHere (s.flagRequest direct acc).2 fun c =>
      { c with state := .parked .wake, wait := some ⟨s.nextId, addr, s.reg d, sub, false, []⟩ }
  rw [flagRequest_here] at hh
  exact ⟨_, acc, ex, sent_congr (flagRequest_sent s direct acc) rfl rfl rfl rfl, rfl, rfl, rfl, rfl, rfl,
    (congrArg Slot.state hh :), (congrArg Slot.wait hh :), (congrArg Slot.pc hh :)⟩

theorem exec_cadd_adds (h : FlagReaches s (flagAddress s a e) true pa addr) (d : Field4) :
    exec (.cadd g d a e) s = .next (addFlag false (s.reg d) (!isPlace (flagAddress s a e)) addr (.ok (.byte pa)) s) := by
  rw [exec_cadd, execCadd, scalar_true hg, withFlag_reaches h]

theorem exec_caddRel_adds (h : FlagReaches s (flagAddress s a e) true pa addr) (hr : s.released s.cur = true)
    (hu : s.here.unreachable = none) (hl : s.here.linkLost = none) (he : s.here.writeError = none) (d : Field4) :
    exec (.caddRel g d a e) s = .next (addFlag true (s.reg d) (!isPlace (flagAddress s a e)) addr (.ok (.byte pa)) s) := by
  rw [exec_caddRel, execCaddRel, scalar_true hg, withFlag_reaches h]
  exact next_congr (withRelease_ok hr hu hl he _)

theorem exec_cpeek_asks (h : FlagReaches s (flagAddress s a e) false pa addr) (hw : s.outr s.cur < Config.requestWindow)
    {d : Field4} (hd : shadowReg d = false) :
    ∃ t acc, exec (.cpeek g d a e) s = .next t ∧ SentBy (!isPlace (flagAddress s a e)) s t acc ∧ acc.req = .peek ∧
      acc.target = .byte pa ∧ acc.addr = addr ∧ acc.thread = s.cur ∧ acc.posted = false ∧ Waits s t ∧ acc.dest = d.toNat := by
  generalize hdir : (!isPlace (flagAddress s a e)) = direct
  let acc : Access := { s.newAccess s.cur .peek (.byte pa) addr false with dest := d.toNat, takesPlace := !direct }
  have ex : exec (.cpeek g d a e) s = .next (parkOn (s.flagRequest direct acc)) := by
    rw [exec_cpeek, execCpeek, scalar_true hg, withDest_ok hd, withFlag_reaches h, hdir]
    exact next_congr (if_neg (by simp; intro; omega))
  have hh : (parkOn (s.flagRequest direct acc)).here = { s.here with state := .parked (.reply s.nextId) } := by
    rw [parkOn, State.here_park, flagRequest_here, flagRequest_id]
  exact ⟨_, acc, ex, sent_congr (flagRequest_sent s direct acc) rfl rfl rfl rfl, rfl, rfl, rfl, rfl, rfl,
    ⟨(congrArg Slot.state hh :), (congrArg Slot.pc hh :), flagRequest_cur _ _ _⟩, rfl⟩

end

/-! ### Lines -/

section
variable {g : Guard} {s : State} (hg : guardHolds g s = true) {a : Field4}
include hg

theorem lineOp_window (hp : isPlace (s.reg a) = false) (hw : s.here.wf = false) (h : (s.reg a).toNat % 128 = 0) (op : Nat)
    (n : BitVec 4) : lineOp op g a n s = .next (s.setLines (op = 1) (s.windowLines s.cur (s.reg a) (lineCount n))).finish := by
  rw [lineOp, scalar_true hg]
  dsimp only
  rw [if_neg (by simp [hp]), atHome_ok hw, if_neg (not_not.mpr h)]

theorem exec_lstate_window (hp : isPlace (s.reg a) = false) (hw : s.here.wf = false) (h : (s.reg a).toNat % 128 = 0)
    {d : Field4} (hd : shadowReg d = false) :
    exec (.lstate g d a) s =
      .next (s.setReg d (if s.lineEmpty (lineOf (s.local s.cur (s.reg a))) then 0 else 1)).finish := by
  rw [exec_lstate, execLstate, scalar_true hg, withDest_ok hd]
  dsimp only
  rw [if_neg (by simp [hp]), atHome_ok hw, if_neg (not_not.mpr h)]

variable (hp : isPlace (s.reg a) = true) (h : (s.reg a).toNat % 128 = 0) (hw : s.outr s.cur < Config.requestWindow)
include hp h hw

theorem lineOp_place (op : Nat) {n : BitVec 4}
    (hc : s.checkPlace (chipOfThread s.cur) s.here.parish (s.reg a) (128 * lineCount n) true = none) :
    ∃ t acc, lineOp op g a n s = .next t ∧ Requested s t acc ∧ Waits s t ∧ acc.req = .lines op (lineCount n) ∧
      acc.target = .byte (placeByte (chipOfThread s.cur) (s.reg a)) ∧ acc.dest = 0 := by
  obtain ⟨hr, hq⟩ := parkOn_requested (Touched.refl s) { s.newAccess s.cur (.lines op (lineCount n))
    (.byte (placeByte (chipOfThread s.cur) (s.reg a))) (s.reg a) false with dest := 0 }
  refine ⟨_, _, ?_, hr, hq, rfl, rfl, rfl⟩
  rw [lineOp, scalar_true hg]
  dsimp only
  rw [if_pos hp, if_neg (not_not.mpr h), hc]
  exact next_congr (if_neg (by omega))

theorem exec_lstate_place (hc : s.checkPlace (chipOfThread s.cur) s.here.parish (s.reg a) 128 true = none) {d : Field4}
    (hd : shadowReg d = false) :
    ∃ t acc, exec (.lstate g d a) s = .next t ∧ Requested s t acc ∧ Waits s t ∧ acc.req = .lineState ∧
      acc.target = .byte (placeByte (chipOfThread s.cur) (s.reg a)) ∧ acc.dest = d.toNat := by
  obtain ⟨hr, hq⟩ := parkOn_requested (Touched.refl s) { s.newAccess s.cur .lineState
    (.byte (placeByte (chipOfThread s.cur) (s.reg a))) (s.reg a) false with dest := d.toNat }
  refine ⟨_, _, ?_, hr, hq, rfl, rfl, rfl⟩
  rw [exec_lstate, execLstate, scalar_true hg, withDest_ok hd]
  dsimp only
  rw [if_pos hp, if_neg (not_not.mpr h), hc]
  exact next_congr (if_neg (by omega))

end

/-- Settles O34, form by form: a flag is reached by one of two paths, and lines are the window's own or a place's. -/
theorem flagAndLineForms : Obligations.FlagAndLineForms := by
  unfold Obligations.FlagAndLineForms
  intro s g d a e n pa addr hg hd
  dsimp only
  refine ⟨fun h hc => ?_, fun h hw => ?_, fun h hw => ⟨?_, fun hr hc => ?_⟩, fun hp hw => ?_, fun hp hw h => ⟨?_, ?_, ?_⟩,
    fun hp h hw => ⟨fun hc => ⟨lineOp_place hg hp h hw 0 hc, lineOp_place hg hp h hw 1 hc⟩,
      fun hc => exec_lstate_place hg hp h hw hc hd⟩⟩
  · obtain ⟨hu, hl, he⟩ := hc
    have hr : FlagReaches s (flagAddress s a e) false pa addr := h
    obtain ⟨t, acc, ex, hs, h1, h2, h3, h4, h5, h'⟩ := waitFlag_waits hg hr hu hl he false d
    obtain ⟨t', acc', ex', hs', h1', h2', h3', h4', h5', h''⟩ := waitFlag_waits hg hr hu hl he true d
    exact ⟨⟨t, acc, ⟨ex, (sent_place hs).1, (sent_place hs).2, h1, h2, h3, h4, h5⟩, h'⟩,
      ⟨t', acc', ⟨ex', (sent_place hs').1, (sent_place hs').2, h1', h2', h3', h4', h5'⟩, h''⟩⟩
  · have hr : FlagReaches s (flagAddress s a e) false pa addr := h
    obtain ⟨t, acc, ex, hs, h1, h2, h3, h4, h5, h'⟩ := exec_cpeek_asks hg hr hw hd
    exact ⟨t, acc, ⟨ex, (sent_place hs).1, (sent_place hs).2, h1, h2, h3, h4, h5⟩, h'⟩
  · obtain ⟨acc, hs, h1, h2, h3, h4, h5, h'⟩ := addFlag_adds (pa := pa) addr hw false
      (!isPlace (flagAddress s a e)) (s.reg d)
    exact ⟨_, acc, ⟨exec_cadd_adds hg h d, (sent_place hs).1, (sent_place hs).2, h1, h2, h3, h4, h5⟩, h'⟩
  · obtain ⟨hu, hl, he⟩ := hc
    obtain ⟨acc, hs, h1, h2, h3, h4, h5, h'⟩ := addFlag_adds (pa := pa) addr hw true
      (!isPlace (flagAddress s a e)) (s.reg d)
    exact ⟨_, acc, ⟨exec_caddRel_adds hg h hr hu hl he d, (sent_place hs).1, (sent_place hs).2, h1, h2, h3, h4, h5⟩, h'⟩
  · have hp' : isPlace (flagAddress s a e) = false := hp
    rw [exec_cwait, execCwait, waitFlag, scalar_true hg, withFlag]
    dsimp only
    rw [if_neg (by simp [hp']), atHome_away hw]
    rfl
  · exact lineOp_window hg hp hw h 0 n
  · exact lineOp_window hg hp hw h 1 n
  · exact exec_lstate_window hg hp hw h hd

end Sys2Proof.Machine
end

section
/-! What comes home: replies, acknowledgements, busy notices, retries and reports (O32, O33). -/

namespace Sys2Proof.Machine

/-! ### Accesses and the packets that answer them -/

theorem access_dropRec {s t : State} {id : Nat} (h : t.accesses = dropRec s.accesses id) : t.access? id = none := by
  rw [State.access?, h]
  exact find?_dropRec _ _

theorem trapIn_accesses (s : State) (t c : Nat) (v : Word) : (s.trapIn t c v).accesses = s.accesses := by
  unfold State.trapIn
  dsimp only
  split <;> rfl

theorem opProgress_none (s : State) : s.opProgress 0 = s := if_pos rfl

theorem landError_none {a : Access} (h : a.trap = none) (s : State) (id : Nat) : s.landError id a = s := by
  rw [State.landError, h]

/-! ### Registers that a reply writes -/

theorem setRegOf_pc (s : State) (t : Nat) (d : Field4) (v : Word) : ((s.setRegOf t d v).slot t).pc = (s.slot t).pc := by
  unfold State.setRegOf
  split
  · rfl
  · rw [State.slot_modSlot_self]

theorem setRegOf_mem (s : State) (t : Nat) (d : Field4) (v : Word) : (s.setRegOf t d v).mem = s.mem := by
  unfold State.setRegOf
  split <;> rfl

theorem regOf_finishOf (s : State) (t : Nat) (r : Field4) : (s.finishOf t).regOf t r = s.regOf t r := by
  rw [State.regOf, State.finishOf_slot]
  rfl

theorem regOf_congr {s u : State} {t : Nat} {l : List Nat} (h : u.slot t = { s.slot t with early := l }) (r : Field4) :
    u.regOf t r = s.regOf t r := by
  rw [State.regOf, h]
  rfl

theorem acquire_frame (s : State) (t : Nat) (sts : List Stamp) :
    ((s.acquire t sts).slot t).pc = (s.slot t).pc ∧ ((s.acquire t sts).slot t).ih = (s.slot t).ih ∧
      (∀ r, (s.acquire t sts).regOf t r = s.regOf t r) ∧ (s.acquire t sts).mem = s.mem := by
  unfold State.acquire
  dsimp only
  split
  · exact ⟨rfl, rfl, fun _ => rfl, rfl⟩
  · refine ⟨by rw [State.slot_setSlot_self], by rw [State.slot_setSlot_self], fun r => ?_, rfl⟩
    rw [State.regOf, State.slot_setSlot_self]
    rfl

/-- A register that a program can write and read back. -/
def FreeReg (r : Field4) : Prop := r ≠ 0 ∧ r ≠ 15 ∧ shadowReg r = false

theorem regOf_setRegOf_free (s : State) (t : Nat) (v : Word) {d : Field4} (h : FreeReg d) :
    (s.setRegOf t d v).regOf t d = v :=
  State.regOf_setRegOf_self s t v h.1 h.2.1 (.inr (lt_of_not_shadow h.2.2 h.2.1))

/-- Thread `t` of state `u` has gone on after its instruction in state `s`, with `v` in `d` and every other register and all
of memory as they were. -/
structure LandsIn (s u : State) (t : Nat) (d : Field4) (v : Word) : Prop where
  ready : (u.slot t).state = .ready
  pc : (u.slot t).pc = (s.slot t).pc + 4
  written : FreeReg d → u.regOf t d = v
  others : ∀ r, r ≠ d → u.regOf t r = s.regOf t r
  memory : u.mem = s.mem

/-- Writing the destination and going on lands in it. -/
theorem setRegOf_finishOf_lands {s u : State} {t : Nat} (hpc : (u.slot t).pc = (s.slot t).pc)
    (hr : ∀ r, u.regOf t r = s.regOf t r) (hm : u.mem = s.mem) (d : Field4) (v : Word) :
    LandsIn s ((u.setRegOf t d v).finishOf t) t d v := by
  refine ⟨by rw [State.finishOf_slot], ?_, fun hd => ?_, fun r hrd => ?_, ?_⟩
  · rw [State.finishOf_slot, setRegOf_pc, hpc]
  · rw [regOf_finishOf, regOf_setRegOf_free u t v hd]
  · rw [regOf_finishOf, State.regOf_setRegOf_ne u t v hrd, hr]
  · exact (setRegOf_mem u t d v).trans hm

/-! ### Replies -/

/-- A reply that lands for the thread that waits for it retires its access and lands in the registers. -/
theorem exec_replyLands_parked {s : State} {pk id : Nat} {p : Packet} {a : Access} (h : Delivered s pk p (.reply id))
    (ha : s.access? id = some a) (hp : (s.slot a.thread).state = .parked (.reply id)) :
    ∃ u l, exec (.replyLands pk) s = .next (landReply u a) ∧ u.slot a.thread = { s.slot a.thread with early := l } ∧
      u.mem = s.mem := by
  have hr := State.retireAccess_retired (s := s.dropPacket pk) ha
  obtain ⟨l, hl⟩ := hr.slots a.thread
  have hu : (((s.dropPacket pk).retireAccess id).sendFreed id a p.src).slot a.thread = { s.slot a.thread with early := l } := hl
  refine ⟨((s.dropPacket pk).retireAccess id).sendFreed id a p.src, l, ?_, hu, hr.mem⟩
  have ha' : (s.dropPacket pk).access? id = some a := ha
  rw [exec_replyLands, execReplyLands, h.packet]
  dsimp only
  rw [h.carries, h.here]
  dsimp only
  rw [ha']
  dsimp only
  rw [hu]
  exact next_congr (if_pos hp)

section
variable {s u : State} {a : Access} {l : List Nat} (hu : u.slot a.thread = { s.slot a.thread with early := l })
  (hm : u.mem = s.mem)
include hu hm

theorem early_lands (d : Field4) (v : Word) : LandsIn s ((u.setRegOf a.thread d v).finishOf a.thread) a.thread d v :=
  setRegOf_finishOf_lands (by rw [hu]) (regOf_congr hu) hm d v

/-- What a load acquires changes neither registers nor memory. -/
theorem acquired_lands (d : Field4) (v : Word) :
    LandsIn s (((if a.info.acquire then u.acquire a.thread a.stamps else u).setRegOf a.thread d v).finishOf a.thread)
      a.thread d v := by
  split
  · obtain ⟨hpc, -, hr, hm'⟩ := acquire_frame u a.thread a.stamps
    exact setRegOf_finishOf_lands (hpc.trans (by rw [hu])) (fun r => (hr r).trans (regOf_congr hu r)) (hm'.trans hm) d v
  · exact early_lands hu hm d v

variable (ht : a.trap = none)
include ht

theorem landReply_load {n : Nat} (hq : a.req = .load n) (hp : a.parcel = none) :
    LandsIn s (landReply u a) a.thread (BitVec.ofNat 4 a.dest) (extend a.size a.sx (wordOfBytes a.value)) := by
  rw [landReply, ht]
  dsimp only
  rw [hq, hp]
  exact acquired_lands hu hm _ _

theorem landReply_parcel {n o len : Nat} {h : Word} (hq : a.req = .load n) (hp : a.parcel = some (o, len))
    (hl : parcelLoad o len (extend a.size a.sx (wordOfBytes a.value)) = some h) :
    LandsIn s (landReply u a) a.thread (BitVec.ofNat 4 a.dest) h := by
  rw [landReply, ht]
  dsimp only
  rw [hq, hp]
  dsimp only
  rw [hl]
  exact acquired_lands hu hm _ _

omit hm in
theorem landReply_escape {n o len : Nat} (hq : a.req = .load n) (hp : a.parcel = some (o, len))
    (hl : parcelLoad o len (extend a.size a.sx (wordOfBytes a.value)) = none) (hi : (s.slot a.thread).ih = false) :
    ((landReply u a).slot a.thread).cause = 0x0B ∧
      ((landReply u a).slot a.thread).tval = extend a.size a.sx (wordOfBytes a.value) := by
  have hi' : (u.slot a.thread).ih = false := by rw [hu]; exact hi
  rw [landReply, ht]
  dsimp only
  rw [hq, hp]
  dsimp only
  rw [hl]
  dsimp only
  split
  · obtain ⟨hc, hv, -⟩ := trapIn_takes ((acquire_frame u a.thread a.stamps).2.1.trans hi') 0x0B
      (extend a.size a.sx (wordOfBytes a.value))
    exact ⟨hc, hv⟩
  · obtain ⟨hc, hv, -⟩ := trapIn_takes hi' 0x0B (extend a.size a.sx (wordOfBytes a.value))
    exact ⟨hc, hv⟩

omit ht in
/-- Every other reply with one destination writes it with its own value. -/
theorem landReply_lands {v : Word}
    (hq : landReply u a = (u.setRegOf a.thread (BitVec.ofNat 4 a.dest) v).finishOf a.thread) :
    LandsIn s (landReply u a) a.thread (BitVec.ofNat 4 a.dest) v := hq ▸ early_lands hu hm _ v

end

/-- Settles O32: the reply's access is retired, and then each request lands in its own way. -/
theorem repliesLand : Obligations.RepliesLand := by
  unfold Obligations.RepliesLand
  intro s pk id p a h ha hp
  obtain ⟨u, l, ex, hu, hm⟩ := exec_replyLands_parked h ha hp
  dsimp only
  rw [ex]
  have land {d : Field4} {v : Word} (hl : LandsIn s (landReply u a) a.thread d v) :
      ∃ t, ((.next (landReply u a) : Out) = .next t ∧ (t.slot a.thread).state = .ready ∧
        (t.slot a.thread).pc = (s.slot a.thread).pc + 4) ∧ (d ≠ 0 ∧ d ≠ 15 ∧ shadowReg d = false → t.regOf a.thread d = v) ∧
        (∀ r, r ≠ d → t.regOf a.thread r = s.regOf a.thread r) ∧ t.mem = s.mem :=
    ⟨_, ⟨rfl, hl.ready, hl.pc⟩, hl.written, hl.others, hl.memory⟩
  have simple {v : Word}
      (hq : landReply u a = (u.setRegOf a.thread (BitVec.ofNat 4 a.dest) v).finishOf a.thread) := land (landReply_lands hu hm hq)
  refine ⟨fun ht => ⟨fun n hq hp => land (landReply_load hu hm ht hq hp),
    fun n o len h hq hp hl => land (landReply_parcel hu hm ht hq hp hl),
    fun n o len hq hp hl hi => ⟨_, rfl, landReply_escape hu ht hq hp hl hi⟩,
    fun op ty v hq => simple (by rw [landReply, ht, hq]), fun n e v hq => simple (by rw [landReply, ht, hq]),
    fun e v hq => ?_, fun v hq => simple (by rw [landReply, ht, hq]), fun hq hd => ?_,
    fun hq => simple (by rw [landReply, ht, hq]), fun k ko no nd h hq => simple (by rw [landReply, ht, hq]),
    fun hq => simple (by rw [landReply, ht, hq])⟩, fun k v ht hi => ?_⟩
  · have e : landReply u a = ((u.setRegOf a.thread (BitVec.ofNat 4 a.dest) (if a.found then 1 else 0)).write
        (a.block.zip a.value)).finishOf a.thread := by rw [landReply, ht, hq]
    have hw : ((u.setRegOf a.thread (BitVec.ofNat 4 a.dest) (if a.found then 1 else 0)).write (a.block.zip a.value)).slot
        a.thread = (u.setRegOf a.thread (BitVec.ofNat 4 a.dest) (if a.found then 1 else 0)).slot a.thread := by
      rw [State.slot, write_slots]
      rfl
    refine ⟨_, ⟨rfl, ?_, ?_⟩, fun hd => ?_, ?_⟩
    · rw [e, State.finishOf_slot]
    · rw [e, State.finishOf_slot, hw, setRegOf_pc, hu]
    · rw [e, regOf_finishOf, State.regOf, hw]
      exact regOf_setRegOf_free u a.thread _ hd
    · rw [e]
      refine (State.write_mem _ _).trans ?_
      rw [State.setBytes, State.setBytes, setRegOf_mem, hm]
  · have e : landReply u a = ((u.setRegOf a.thread (BitVec.ofNat 4 a.dest) (wordOfBytes a.value)).setRegOf a.thread
        (BitVec.ofNat 4 a.dest2) (if a.found then 1 else 0)).finishOf a.thread := by rw [landReply, ht, hq]
    refine ⟨_, ⟨rfl, ?_, ?_⟩, fun hf => ?_, fun hf => ?_, ?_⟩
    · rw [e, State.finishOf_slot]
    · rw [e, State.finishOf_slot, setRegOf_pc, setRegOf_pc, hu]
    · rw [e, regOf_finishOf, State.regOf_setRegOf_ne _ _ _ hd, regOf_setRegOf_free u a.thread _ hf]
    · rw [e, regOf_finishOf, regOf_setRegOf_free _ a.thread _ hf]
    · rw [e]
      exact (setRegOf_mem _ _ _ _).trans ((setRegOf_mem _ _ _ _).trans hm)
  · have e : landReply u a = u.trapIn a.thread k v := by rw [landReply, ht]
    obtain ⟨hc, hv, hpc⟩ := trapIn_takes (show (u.slot a.thread).ih = false by rw [hu]; exact hi) k v
    refine ⟨_, rfl, ?_⟩
    rw [e, hc, hv, hpc, hu]
    exact ⟨rfl, rfl, rfl⟩

/-! ### Acknowledgements, retries and reports -/

/-- The acknowledgements that an access hands on to those it stands for. -/
theorem foldl_acks_frame (from' : Nat) (l : List Nat) (s : State) :
    let f := fun (s : State) (k : Nat) => match s.access? k with
      | some b => s.send (.ack k) .control b.parish from' b.src false
      | none => s
    (l.foldl f s).accesses = s.accesses ∧ (l.foldl f s).mem = s.mem := by
  intro f
  induction l generalizing s with
  | nil => exact ⟨rfl, rfl⟩
  | cons k r ih =>
    have hf : (f s k).accesses = s.accesses ∧ (f s k).mem = s.mem := by
      show (match s.access? k with
        | some b => s.send (.ack k) .control b.parish from' b.src false
        | none => s).accesses = _ ∧ (match s.access? k with
        | some b => s.send (.ack k) .control b.parish from' b.src false
        | none => s).mem = _
      split <;> exact ⟨rfl, rfl⟩
    rw [List.foldl_cons]
    exact ⟨(ih _).1.trans hf.1, (ih _).2.trans hf.2⟩

theorem exec_acknowledgement_ack {s : State} {pk id : Nat} {p : Packet} {a : Access} (h : Delivered s pk p (.ack id))
    (ha : s.access? id = some a) (hop : a.op = 0) (hrd : a.reader = .thread) (ht : a.trap = none) :
    ∃ t, exec (.acknowledgement pk) s = .next t ∧ t.access? id = none ∧ t.mem = s.mem := by
  have ha' : (s.dropPacket pk).access? id = some a := ha
  rw [exec_acknowledgement, execAcknowledgement, h.packet]
  dsimp only
  rw [h.here, h.carries]
  dsimp only
  rw [ha']
  dsimp only
  rw [if_pos hrd, hop, opProgress_none, landError_none ht]
  obtain ⟨hacc, hmem⟩ := foldl_acks_frame p.dst a.partners (s.dropPacket pk)
  refine ⟨_, rfl, ?_⟩
  generalize a.partners.foldl _ (s.dropPacket pk) = u at hacc hmem
  have hau : u.access? id = some a := by rw [State.access?, hacc]; exact ha
  have hr := State.retireAccess_retired hau
  exact ⟨access_dropRec hr.accesses, hr.mem.trans hmem⟩

theorem exec_busyNotice_busy {s : State} {pk id : Nat} {p : Packet} {a : Access} (h : Delivered s pk p (.busy id))
    (ha : s.access? id = some a) : exec (.busyNotice pk) s =
      .next (((s.dropPacket pk).dropRetry id).timer (coreOfThread a.thread) 4000 (.event (.busyResend id))) := by
  have ha' : (s.dropPacket pk).access? id = some a := ha
  rw [exec_busyNotice, execBusyNotice, h.packet]
  dsimp only
  rw [h.carries, h.here]
  dsimp only
  rw [ha']

/-- An access that is no page and no table change is sent again as the request that it was. -/
theorem resend_request {a : Access} (hp : ∀ k q, a.req ≠ .page k q) (hc : ∀ c, a.req ≠ .tableChange c) (s : State) (id : Nat) :
    s.resend id a = s.send (.request id) .request a.parish a.src a.dst a.channel := by
  unfold State.resend
  split
  · exact absurd ‹_› (hp _ _)
  · exact absurd ‹_› (hc _)
  · rfl

theorem exec_retryTimeout_lost {s : State} {id : Nat} {a : Access} (ha : s.access? id = some a) (hi : s.inProgress id = false)
    (hr : 8 ≤ a.resends) : exec (.retryTimeout id) s = .next (s.endAccess id a 0x12) := by
  rw [exec_retryTimeout, execRetryTimeout, ha]
  dsimp only
  rw [if_neg (by simp [hi]), if_pos]
  · rfl
  · simp only [Bool.or_eq_true, decide_eq_true_eq]
    exact .inr hr

/-- The thread that waits for the reply of an access takes the cause with which it ends. -/
theorem endAccess_parked {s : State} {id : Nat} {a : Access} {cause : Nat} (ha : s.access? id = some a) (hc : cause ≠ 0x17)
    (hg : a.group = 0) (hrd : a.reader = .thread) (hp : ∀ k q, a.req ≠ .page k q)
    (hs : (s.slot a.thread).state = .parked (.reply id)) (hi : (s.slot a.thread).ih = false) :
    (s.endAccess id a cause).access? id = none ∧ ((s.endAccess id a cause).slot a.thread).cause = BitVec.ofNat 64 cause ∧
      ((s.endAccess id a cause).slot a.thread).tval = a.addr := by
  obtain ⟨u, hu⟩ : ∃ u, u = { s with packets := s.packets.filter fun e => decide (e.2.payload ≠ Payload.request id) } := ⟨_, rfl⟩
  have hau : u.access? id = some a := by rw [hu]; exact ha
  have hr := State.retireAccess_retired hau
  obtain ⟨l, hl⟩ := hr.slots a.thread
  have hus : u.slot a.thread = s.slot a.thread := by rw [hu]; rfl
  have e : s.endAccess id a cause = (u.retireAccess id).trapIn a.thread cause a.addr := by
    unfold State.endAccess
    dsimp only
    rw [if_neg (by simp [hrd])]
    split
    · exact absurd ‹_› (hp _ _)
    · rw [if_neg hc, hg, State.failGroup, if_pos rfl, ← hu, if_pos]
      rw [hl, hus]
      exact hs
  obtain ⟨h1, h2, -⟩ := trapIn_takes (s := u.retireAccess id) (t := a.thread) (by rw [hl, hus]; exact hi) cause a.addr
  rw [e]
  exact ⟨access_dropRec (s := u) ((trapIn_accesses _ _ _ _).trans hr.accesses), h1, h2⟩

theorem exec_homeReport_counts {s : State} {pk id : Nat} {p : Packet} {a : Access} (h : Delivered s pk p (.report id))
    (ha : s.access? id = some a) (hop : a.op = 0) (ht : a.trap = none) (hs : (AMap.get {} s.groups a.group).sealed = false) :
    ∃ t, exec (.homeReport pk) s = .next t ∧ t.access? id = none ∧
      (AMap.get {} t.groups a.group).outstanding = (AMap.get {} s.groups a.group).outstanding - 1 := by
  have ha' : (s.dropPacket pk).access? id = some a := ha
  have hr := State.retireAccess_retired ha'
  have hgr : (((s.dropPacket pk).retireAccess id).sendFreed id a p.src).groups = s.groups := hr.groups
  rw [exec_homeReport, execHomeReport, h.packet]
  dsimp only
  rw [h.carries, h.here]
  dsimp only
  rw [ha']
  dsimp only
  rw [hgr, hs, ht]
  dsimp only [Bool.false_and]
  rw [if_neg (by simp), hop, opProgress_none, landError_none ht]
  refine ⟨_, rfl, access_dropRec (s := s.dropPacket pk) hr.accesses, ?_⟩
  show (AMap.get {} (AMap.set {} s.groups a.group _) a.group).outstanding = _
  rw [AMap.get_set_self]

/-- Settles O33. -/
theorem answersComeHome : Obligations.AnswersComeHome := by
  unfold Obligations.AnswersComeHome
  intro s pk id p a ha
  refine ⟨fun h hop hrd ht => exec_acknowledgement_ack h ha hop hrd ht, fun h => exec_busyNotice_busy h ha,
    fun hs hp hc => ?_, fun hi => ?_, fun hi hr hn => ?_, fun hi hr hg hrd hp hs hih => ?_,
    fun h hop ht hs => exec_homeReport_counts h ha hop ht hs⟩
  · rw [exec_busyResend, execBusyResend, ha]
    dsimp only
    rw [if_neg (by simp [hs]), resend_request hp hc]
  · rw [exec_retryTimeout, execRetryTimeout, ha]
    exact next_congr (if_pos hi)
  · have e : exec (.retryTimeout id) s =
        .next (((s.modAccess id fun x => { x with resends := x.resends + 1 }).resend id a).armRetry id a a.dst) := by
      rw [exec_retryTimeout, execRetryTimeout, ha]
      dsimp only
      rw [if_neg (by simp [hi]), if_neg]
      simp only [hr, Bool.false_or, decide_eq_true_eq]
      exact Nat.not_le.2 hn
    refine ⟨_, e, ?_⟩
    unfold State.resend
    split <;> exact ⟨rfl, List.length_append⟩
  · obtain ⟨h1, h2, h3⟩ := endAccess_parked (cause := 0x12) ha (by decide) hg hrd hp hs hih
    exact ⟨_, exec_retryTimeout_lost ha hi hr, h1, h2, h3⟩

end Sys2Proof.Machine
end

section
/-! Requests at their homes: what concludes an access, and what a Reeve does with each request (O31, O35). -/

namespace Sys2Proof.Machine

/-! ### Steps that add requests and nothing else that an access or a wait can see -/

/-- From `s` to `t` accesses have only been added; memory, threads and watch tables are as they were. -/
structure Adds (s t : State) : Prop where
  accesses : ∃ l, t.accesses = s.accesses ++ l
  mem : t.mem = s.mem
  slots : t.slots = s.slots
  watches : ∀ n, (t.node n).watches = (s.node n).watches

theorem Adds.refl (s : State) : Adds s s := ⟨⟨[], by simp⟩, rfl, rfl, fun _ => rfl⟩

theorem Adds.trans {s t u : State} (h : Adds s t) (h' : Adds t u) : Adds s u := by
  obtain ⟨l, hl⟩ := h.accesses
  obtain ⟨m, hm⟩ := h'.accesses
  exact ⟨⟨l ++ m, by rw [hm, hl, List.append_assoc]⟩, h'.mem.trans h.mem, h'.slots.trans h.slots,
    fun n => (h'.watches n).trans (h.watches n)⟩

/-- A change to a node that keeps its watch table. -/
theorem adds_modNode (s : State) (n : Nat) {f : Node → Node} (h : ∀ v, (f v).watches = v.watches) : Adds s (s.modNode n f) := by
  refine ⟨⟨[], by simp⟩, rfl, rfl, fun m => ?_⟩
  by_cases hm : m = n
  · subst hm; rw [State.node_modNode_self, h]
  · rw [State.node, State.node]
    simp [State.modNode, hm]

theorem adds_request (s : State) (a : Access) : Adds s (s.request a).2 := by
  refine ⟨⟨[(s.nextId, sentAs s a)], (State.request_requested (Touched.refl s) a).access⟩, rfl, rfl, fun m => ?_⟩
  have h (q : Nat) : Adds s (s.modNode a.src fun v => { v with seqs := AMap.set 0 v.seqs (targetHome a.target).1 q }) :=
    adds_modNode _ _ fun _ => rfl
  exact (h _).watches m

theorem adds_send (s : State) (pl : Payload) (cls : Class) (parish src dst : Nat) (ch : Bool) :
    Adds s (s.send pl cls parish src dst ch) := ⟨⟨[], by simp [State.send, State.event, State.push, State.fresh]⟩, rfl, rfl, fun _ => rfl⟩

theorem adds_increment (s : State) (from' thread parish : Nat) (t : Target) (flag : Word) (st : Stamp) :
    Adds s (s.increment from' thread parish t flag st) := adds_request _ _

theorem adds_countExtent (s : State) (c p o f : Nat) : Adds s (s.countExtent c p o f) := by
  unfold State.countExtent
  dsimp only
  split
  · exact ⟨⟨[], by simp⟩, rfl, rfl, fun _ => rfl⟩
  · exact Adds.refl s

theorem adds_countFlag (s : State) (from' thread parish : Nat) (flag : Word) (st : Stamp) :
    Adds s (s.countFlag from' thread parish flag st) := by
  unfold State.countFlag
  dsimp only
  split
  · split
    · exact (adds_countExtent _ _ _ _ _).trans (adds_increment _ _ _ _ _ _ _)
    · exact Adds.refl s
  · generalize (if flag.getLsbD 62 then placeOf (placeCore (chipOfThread thread) flag) (placeOffset flag) else flag) = f
    split
    · exact adds_increment _ _ _ _ _ _ _
    · exact Adds.refl s

theorem adds_countGroup (s : State) (g : Group) (from' : Nat) : Adds s (s.countGroup g from') := by
  unfold State.countGroup
  dsimp only
  split <;> split
  · exact Adds.refl s
  · exact adds_countFlag _ _ _ _ _ _
  · exact adds_countFlag _ _ _ _ _ _
  · exact (adds_countFlag _ _ _ _ _ _).trans (adds_countFlag _ _ _ _ _ _)

theorem adds_groups (s : State) (g : AMap Group) : Adds s { s with groups := g } := ⟨⟨[], by simp⟩, rfl, rfl, fun _ => rfl⟩

theorem adds_groupSettled (s : State) (gid : Nat) : Adds s (s.groupSettled gid) := by
  unfold State.groupSettled
  dsimp only
  split
  · split
    · exact (adds_groups s _).trans (adds_countGroup _ _ _)
    · exact Adds.refl _
  · exact Adds.refl _

theorem adds_groupHome (s : State) (gid home : Nat) (ch failed : Bool) : Adds s (s.groupHome gid home ch failed) := by
  unfold State.groupHome
  split
  · exact Adds.refl s
  · dsimp only
    exact (adds_groups s _).trans (adds_groupSettled _ _)

theorem Moved.adds {s t : State} (h : Moved s t) : Adds s t := by
  rw [h.rest]
  exact ⟨⟨[], by simp⟩, rfl, rfl, fun _ => rfl⟩

/-! ### The end of an access -/

/-- Access `id` has been performed, with its outcome. -/
def EndedWith (s : State) (id : Nat) (value : List Byte) (found : Bool) (trap : Option (Nat × Word)) : Prop :=
  ∃ x, s.access? id = some x ∧ x.performed = true ∧ x.value = value ∧ x.found = found ∧ x.trap = trap

theorem find?_append_of_some {α : Type} {l m : List (Nat × α)} {id : Nat} {a : α} (h : find? l id = some a) :
    find? (l ++ m) id = some a := by
  unfold find? at *
  rw [List.find?_append]
  cases hf : l.find? fun e => e.1 == id with
  | none => rw [hf] at h; cases h
  | some e => rw [hf] at h; exact h

theorem Adds.endedWith {s t : State} (h : Adds s t) {id : Nat} {v : List Byte} {f : Bool} {tr : Option (Nat × Word)}
    (he : EndedWith s id v f tr) : EndedWith t id v f tr := by
  obtain ⟨l, hl⟩ := h.accesses
  obtain ⟨x, hx, hx'⟩ := he
  refine ⟨x, ?_, hx'⟩
  rw [State.access?, hl]
  exact find?_append_of_some hx

/-- What concludes a partner: it is performed with the same cause, and takes its place in the reply store. -/
theorem concludePartner_keeps (s : State) (home : Nat) (ch : Bool) (trap : Option (Nat × Word)) (k : Nat) (b : Access) :
    Adds (s.modAccess k fun x => { x with performed := true, trap := trap })
      (((s.modAccess k fun x => { x with performed := true, trap := trap }).modNode home fun n =>
        n.setStore ch (n.store ch ++ [(b.src, b.seq, k)])).pokeTurns k) := by
  refine (adds_modNode _ home fun v => ?_).trans (State.pokeTurns_moved _ _).adds
  unfold Node.setStore
  split <;> rfl

theorem modAccess_endedWith {s : State} {id : Nat} {v : List Byte} {f : Bool} {tr : Option (Nat × Word)}
    (h : EndedWith s id v f tr) (k : Nat) : EndedWith (s.modAccess k fun x => { x with performed := true, trap := tr }) id v f tr := by
  obtain ⟨x, hx, hp, hv, hf, ht⟩ := h
  by_cases hk : id = k
  · subst hk
    refine ⟨{ x with performed := true, trap := tr }, ?_, rfl, hv, hf, rfl⟩
    rw [State.access?, State.modAccess, find?_modRec]
    exact congrArg (Option.map _) hx
  · refine ⟨x, ?_, hp, hv, hf, ht⟩
    rw [State.access?, State.modAccess, find?_modRec_ne _ _ hk]
    exact hx

theorem concludePartners_keeps (a : Access) (home : Nat) (ch : Bool) (tr : Option (Nat × Word)) {s : State} {id : Nat}
    {v : List Byte} {f : Bool} (h : EndedWith s id v f tr) :
    EndedWith (s.concludePartners a home ch tr) id v f tr ∧ (s.concludePartners a home ch tr).mem = s.mem ∧
      (s.concludePartners a home ch tr).slots = s.slots ∧
      ∀ n, ((s.concludePartners a home ch tr).node n).watches = (s.node n).watches := by
  unfold State.concludePartners
  generalize a.partners = l
  induction l generalizing s with
  | nil => exact ⟨h, rfl, rfl, fun _ => rfl⟩
  | cons k r ih =>
    rw [List.foldl_cons]
    cases hk : s.access? k with
    | none => exact ih h
    | some b =>
      have hd := concludePartner_keeps s home ch tr k b
      obtain ⟨h1, h2, h3, h4⟩ := ih (hd.endedWith (modAccess_endedWith h k))
      exact ⟨h1, h2.trans hd.mem, h3.trans hd.slots, fun n => (h4 n).trans (hd.watches n)⟩

theorem adds_respond {a : Access} (h : a.orphan = false) (s : State) (id from' : Nat) : Adds s (s.respond id a from') := by
  unfold State.respond
  rw [if_neg (by simp [h])]
  split
  · exact adds_send _ _ _ _ _ _ _
  · split <;> exact adds_send _ _ _ _ _ _ _

/-- The increment of an access's own flag, which an access that ends with a cause does not send. -/
theorem adds_countOwn (s : State) (a : Access) (home : Nat) (tr : Option (Nat × Word)) :
    Adds s (match a.flag, tr with
      | some f, none => s.countFlag home a.thread a.parish f a.info.stamp
      | _, _ => s) := by
  split
  · exact adds_countFlag _ _ _ _ _ _
  · exact Adds.refl _

/-- An access that has taken effect at its home is recorded there with its outcome; the rest is requests and answers. -/
theorem concludeAt_ends {s : State} {id : Nat} {a b : Access} (hb : s.access? id = some b) (ho : a.orphan = false)
    (pk home : Nat) (ch : Bool) (v : List Byte) (f : Bool) (tr : Option (Nat × Word)) (sts : List Stamp) :
    EndedWith (s.concludeAt pk id a home ch v f tr sts) id v f tr ∧ (s.concludeAt pk id a home ch v f tr sts).mem = s.mem ∧
      (s.concludeAt pk id a home ch v f tr sts).slots = s.slots ∧
      ∀ n, ((s.concludeAt pk id a home ch v f tr sts).node n).watches = (s.node n).watches := by
  unfold State.concludeAt
  dsimp only
  generalize hu : ((s.dropPacket pk).modAccess id fun x =>
    { x with performed := true, value := v, found := f, trap := tr, stamps := sts }) = u
  have h0 : EndedWith u id v f tr := by
    refine ⟨{ b with performed := true, value := v, found := f, trap := tr, stamps := sts }, ?_, rfl, rfl, rfl, rfl⟩
    rw [← hu, State.access?, State.modAccess, find?_modRec]
    exact congrArg (Option.map _) hb
  have hum : u.mem = s.mem ∧ u.slots = s.slots ∧ ∀ n, (u.node n).watches = (s.node n).watches := by
    rw [← hu]; exact ⟨rfl, rfl, fun _ => rfl⟩
  have hn : Adds u (u.modNode home fun n => n.setStore ch (n.store ch ++ [(a.src, a.seq, id)])) :=
    adds_modNode _ _ fun w => by unfold Node.setStore; split <;> rfl
  generalize (u.modNode home fun n => n.setStore ch (n.store ch ++ [(a.src, a.seq, id)])) = w at hn ⊢
  have h1 := (hn.trans (adds_countOwn w a home tr)).trans (adds_groupHome _ a.group home ch tr.isSome)
  obtain ⟨h2, hm2, hs2, hw2⟩ := concludePartners_keeps a home ch tr (h1.endedWith h0)
  have h3 (x : State) : Adds x ((x.respond id a home).pokeTurns id) :=
    (adds_respond ho x id home).trans (State.pokeTurns_moved _ id).adds
  exact ⟨(h3 _).endedWith h2, (h3 _).mem.trans (hm2.trans (h1.mem.trans hum.1)), (h3 _).slots.trans (hs2.trans (h1.slots.trans hum.2.1)),
    fun n => ((h3 _).watches n).trans ((hw2 n).trans ((h1.watches n).trans (hum.2.2 n)))⟩

/-! ### Requests that have arrived -/

theorem protected_arrived {s : State} {pk id : Nat} {p : Packet} {a : Access} (h : Arrived s pk id p a)
    (k : State → Packet → Nat → Access → State) : s.protected pk k = k s p id a := by
  have ha : (s.packets.any fun e => e.1 != pk && decide (e.2.payload = .request id) &&
      (match e.2.loc with
       | .waitingLine _ | .waitingExtent | .waitingTurn => true
       | _ => false)) = false := by
    have := h.alone
    rw [List.any_eq_false] at this ⊢
    intro e he hc
    rw [Bool.and_eq_true] at hc
    exact this e he hc.1
  unfold State.protected
  rw [h.packet]
  dsimp only
  rw [h.carries]
  dsimp only
  rw [h.access]
  dsimp only
  rw [if_pos (by simp [h.here]), h.placed]
  dsimp only
  rw [if_neg (by simp [h.new]), if_neg, if_neg (by simp [h.room]), if_neg (by simp [h.first])]
  rw [Bool.not_eq_true]
  exact ha

/-! ### Flags at their home -/

theorem addStamps_nodes (s : State) (l : List Nat) (st : Stamp) : (s.addStamps l st).nodes = s.nodes := by
  unfold State.addStamps; split <;> rfl

theorem addStamps_accesses (s : State) (l : List Nat) (st : Stamp) : (s.addStamps l st).accesses = s.accesses := by
  unfold State.addStamps; split <;> rfl

/-- A flag that no wait watches takes its new value, and no wake notice goes out. -/
theorem changeFlag_unwatched {s : State} {pa : Nat} (h : (s.node (homeOfByte pa).1).watches = []) (new : Word) (st : Stamp)
    (parish : Nat) : (s.changeFlag pa new st parish).mem = (s.storeLE pa 8 new).mem ∧
      (s.changeFlag pa new st parish).accesses = s.accesses := by
  have hw : ((s.addStamps (consecutive pa 8) st).node (homeOfByte pa).1).watches = [] := by
    rw [State.node, addStamps_nodes]; exact h
  have ha := addStamps_accesses s (consecutive pa 8) st
  unfold State.changeFlag State.examineFlag
  dsimp only
  rw [hw, examine]
  dsimp only [List.foldl_nil]
  rw [State.modNode_mem, State.modNode_accesses, State.setBytes_mem, State.addStamps_mem]
  exact ⟨rfl, ha⟩

section
variable {s : State} {pk id pa : Nat} {p : Packet} {a : Access} (h : Arrived s pk id p a)
  (ht : s.targetByte a.target = some pa)
include h ht

theorem exec_flagIncrement_arrived {v : Word} (hq : a.req = .flagAdd v) :
    exec (.flagIncrement pk) s = .next ((s.changeFlag pa (s.loadLE pa 8 + v) a.info.stamp a.parish).concludeAt pk id a p.dst
      p.channel [] true none []) := by
  rw [exec_flagIncrement, execFlagIncrement, protected_arrived h, hq, ht]
  dsimp only
  rw [findError_none h.noErrors]

theorem exec_waitRegistration_arrived {n : Word} {sub : Bool} (hq : a.req = .waitFor n sub) :
    (s.loadLE pa 8 = n → exec (.waitRegistration pk) s = .next
      (((if sub then s.changeFlag pa 0 {} a.parish else s).wakeNoticeFor p.dst a.thread id false (s.stampsIn pa 8)
        a.parish).concludeAt pk id a p.dst p.channel [] true none [])) ∧
    (n < s.loadLE pa 8 → exec (.waitRegistration pk) s = .next
      ((s.wakeNoticeFor p.dst a.thread id true [] a.parish).concludeAt pk id a p.dst p.channel [] true none [])) ∧
    (s.loadLE pa 8 < n → ∀ i, watchIndex (s.node p.dst) p.dst a.thread = some i → exec (.waitRegistration pk) s = .next
      ((s.modNode p.dst fun v => { v with watches := insertWatch v.watches { index := i, flag := pa, place := a.addr, n := n, subtracts := sub, thread := a.thread, acc := id } }).concludeAt
        pk id a p.dst p.channel [] true none [])) := by
  refine ⟨fun hf => ?_, fun hf => ?_, fun hf i hi => ?_⟩
  all_goals
    rw [exec_waitRegistration, execWaitRegistration, protected_arrived h, hq, ht]
    dsimp only
    rw [findError_none h.noErrors]
    dsimp only
  · rw [if_pos hf, hf, BitVec.sub_self]
    rfl
  · rw [if_neg (fun e => by rw [e] at hf; exact absurd hf (BitVec.lt_irrefl n)), if_pos hf]
  · rw [if_neg (fun e => by rw [e] at hf; exact absurd hf (BitVec.lt_irrefl n)), if_neg (BitVec.not_lt.2 (BitVec.le_of_lt hf)), hi]

end

/-- A wait of a thread of the flag's own node takes the entry of its slot, which is free in an empty table. -/
theorem watchIndex_own {v : Node} {home thread : Nat} (hh : home = nodeOfThread thread) (hv : v.watches = []) :
    watchIndex v home thread = some (8 * (coreOfThread thread % 16) + slotOfThread thread) := by
  rw [watchIndex, hv]
  exact if_pos ⟨hh.symm, rfl⟩

/-! ### Wake notices -/

theorem acquire_off {s : State} {t : Nat} (h : raceMode (s.slot t).race = 0) (sts : List Stamp) : s.acquire t sts = s := if_pos h

/-- The thread that registered a wait goes on, or takes the cause of an overrun. -/
theorem exec_wakeNotice_registered {s : State} {pk id u : Nat} {c : Slot} {w : RegWait}
    (hs : s.slots.find? (fun e => e.2.wait.any fun w : RegWait => w.id == id) = some (u, c)) (hw : c.wait = some w)
    (hu : s.slot u = c) (hr : raceMode c.race = 0) :
    (∀ p sts, Delivered s pk p (.wake u id false sts) → ∃ t, exec (.wakeNotice pk) s = .next t ∧
      t.slot u = { c with wait := none, state := .ready, pc := c.pc + 4 }) ∧
    (∀ p sts, Delivered s pk p (.wake u id true sts) → c.ih = false → ∃ t, exec (.wakeNotice pk) s = .next t ∧
      (t.slot u).cause = 0x0C ∧ (t.slot u).tval = w.flag ∧ (t.slot u).epc = c.pc) := by
  have hs' : (s.dropPacket pk).slots.find? (fun e => e.2.wait.any fun w : RegWait => w.id == id) = some (u, c) := hs
  have hm : ((s.dropPacket pk).modSlot u fun c => { c with wait := none }).slot u = { c with wait := none } := by
    rw [State.slot_modSlot_self, ← hu]
    rfl
  refine ⟨fun p sts h => ?_, fun p sts h hi => ?_⟩
  · rw [exec_wakeNotice, execWakeNotice, h.packet]
    dsimp only
    rw [h.carries, h.here]
    dsimp only
    rw [if_neg (by simp), hs']
    refine ⟨_, rfl, ?_⟩
    dsimp only
    rw [acquire_off (by rw [hm]; exact hr), State.finishOf_slot, hm]
  · rw [exec_wakeNotice, execWakeNotice, h.packet]
    dsimp only
    rw [h.carries, h.here]
    dsimp only
    rw [if_pos rfl, State.failWait]
    dsimp only
    rw [hs']
    refine ⟨_, rfl, ?_⟩
    obtain ⟨h1, h2, h3⟩ := trapIn_takes (s := (s.dropPacket pk).modSlot u fun c => { c with wait := none }) (t := u)
      (by rw [hm]; exact hi) 0x0C ((c.wait.map (·.flag)).getD 0)
    refine ⟨h1, h2.trans ?_, h3.trans (by rw [hm])⟩
    rw [hw]
    rfl

/-- A notice for a saved context is kept in its record and in what is kept of the context. -/
theorem exec_wakeNotice_saved {s : State} {pk id u r : Nat} {c : Slot} {p : Packet} {sts : List Stamp}
    (hs : (s.slots.find? fun e => e.2.wait.any fun w : RegWait => w.id == id) = none)
    (hv : s.saved.find? (fun e => e.2.wait.any fun w : RegWait => w.id == id) = some (r, c))
    (h : Delivered s pk p (.wake u id false sts)) : ∃ t, exec (.wakeNotice pk) s = .next t ∧
      t.loadLE (r + 0x358) 8 = s.loadLE (r + 0x358) 8 ||| 4 ∧ t.slots = s.slots ∧
      (AMap.get {} t.saved r).wait = c.wait.map fun w => { w with received := true, stamps := sts } := by
  have hs' : (s.dropPacket pk).slots.find? (fun e => e.2.wait.any fun w : RegWait => w.id == id) = none := hs
  have hv' : (s.dropPacket pk).saved.find? (fun e => e.2.wait.any fun w : RegWait => w.id == id) = some (r, c) := hv
  rw [exec_wakeNotice, execWakeNotice, h.packet]
  dsimp only
  rw [h.carries, h.here]
  dsimp only
  rw [if_neg (by simp), hs']
  dsimp only
  rw [hv']
  refine ⟨_, rfl, ?_, write_slots _ _, ?_⟩
  · refine (loadLE_congr (State.write_mem _ _) _ _).trans ?_
    refine (loadLE_storeLE _ _ _ _).trans ?_
    rw [loadLE_congr (show (s.dropPacket pk).mem = s.mem from rfl), Nat.mod_eq_of_lt (BitVec.isLt _), BitVec.ofNat_toNat,
      BitVec.setWidth_eq]
  · show (AMap.get ({} : Slot) (AMap.set {} _ r _) r).wait = _
    rw [AMap.get_set_self]

/-- Settles O35. -/
theorem flagsAtHome : Obligations.FlagsAtHome := by
  unfold Obligations.FlagsAtHome
  intro s pk id pa p a v n sub
  refine ⟨fun h ht _ hq hw => ⟨_, exec_flagIncrement_arrived h ht hq, fun b => ?_⟩, fun h ht hq => ?_,
    fun u w c hs hw hu hr => ⟨fun sts hd => (exec_wakeNotice_registered hs hw hu hr).1 p sts hd,
      fun sts hd hi => (exec_wakeNotice_registered hs hw hu hr).2 p sts hd hi⟩,
    fun u r c sts hs hv hd => exec_wakeNotice_saved hs hv hd⟩
  · obtain ⟨hm, ha⟩ := changeFlag_unwatched hw (s.loadLE pa 8 + v) a.info.stamp a.parish
    have hacc : (s.changeFlag pa (s.loadLE pa 8 + v) a.info.stamp a.parish).access? id = some a := by
      rw [State.access?, ha]; exact h.access
    obtain ⟨-, hcm, -, -⟩ := concludeAt_ends hacc h.awaited pk p.dst p.channel [] true none []
    exact byte_congr (hcm.trans hm) b
  · obtain ⟨h1, h2, h3⟩ := exec_waitRegistration_arrived h ht hq
    dsimp only
    refine ⟨h1, h2, fun hf _ hd hw => ?_⟩
    have hi := watchIndex_own (v := s.node p.dst) hd hw
    refine ⟨_, h3 hf _ hi, ?_⟩
    generalize hz : ({ index := 8 * (coreOfThread a.thread % 16) + slotOfThread a.thread, flag := pa, place := a.addr, n := n, subtracts := sub, thread := a.thread, acc := id } : Watch) = z
    obtain ⟨-, hcm, -, hcw⟩ := concludeAt_ends (s := s.modNode p.dst fun v => { v with watches := insertWatch v.watches z })
      h.access h.awaited pk p.dst p.channel [] true none []
    refine ⟨hcm, (hcw _).trans ?_⟩
    rw [State.node_modNode_self, hw, insertWatch]

end Sys2Proof.Machine
end

section
/-! What a Reeve does with an arriving request (O31): one lemma for each kind of request about `performAt`, and one for what
becomes of its outcome. -/

namespace Sys2Proof.Machine

theorem unwatched_of_empty {s : State} (h : ∀ n, (s.node n).watches = []) (pas : List Nat) : Unwatched s pas := by
  intro n w hw
  rw [h] at hw
  cases hw

/-! ### The race detector off -/

section
variable {s : State} {a : Access} (hr : raceMode (s.slot a.thread).race = 0)
include hr

theorem raceAt_off (pa : Nat) (addr : Word) : s.raceAt a pa addr = (s, none) := by
  unfold State.raceAt State.raceScalar
  dsimp only [State.targetByte]
  split
  · rfl
  · exact raceAccess_off hr _ _ _ _ _ _ _

theorem ringEntry_off (pa e : Nat) (k : State → Performed) : ringEntry s a pa e k = k s := by
  unfold ringEntry
  split
  · rfl
  · rw [raceAt_off hr]

end

theorem raceMark_off {s : State} {t : Nat} (h : raceMode (s.slot t).race = 0) (pa scope : Nat) : s.raceMark t pa scope = s := by
  unfold State.raceMark
  rw [if_pos (by simp [h])]

/-! ### What each request comes to at its byte -/

/-- From `s` to `t` the bytes have become those of `m`; accesses are as they were. -/
structure Becomes (s t m : State) : Prop where
  mem : t.mem = m.mem
  accesses : t.accesses = s.accesses

section
variable {s : State} {a : Access} {pa : Nat}

theorem performAt_load_full {n : Nat} (hq : a.req = .load n) (h : s.firstEmpty (consecutive pa n) = none) :
    ∃ t, performAt s a pa =
      .done t (applyOverlay (s.bytes (consecutive pa n)) (s.loadOverlay a pa n).1) true none ∧ Becomes s t s := by
  refine ⟨s.readEarly a.thread (s.loadOverlay a pa n).2, ?_, ?_⟩
  · rw [performAt, hq]
    dsimp only
    rw [h]
  · unfold State.readEarly
    split <;> exact ⟨rfl, rfl⟩

theorem performAt_load_empty {n l : Nat} (hq : a.req = .load n) (h : s.firstEmpty (consecutive pa n) = some l) :
    performAt s a pa = .waitLine l := by
  rw [performAt, hq]
  dsimp only
  rw [h]

variable (hw : ∀ n, (s.node n).watches = [])
include hw

theorem performAt_store {bs : List (Nat × Byte)} (hq : a.req = .store bs) :
    ∃ t, performAt s a pa = .done t [] true none ∧ Becomes s t (s.setBytes (bs.map fun e => (pa + e.1, e.2))) := by
  generalize hl : bs.map (fun e => (pa + e.1, e.2)) = l
  refine ⟨if a.info.release then ((s.setBytes l).refreshed (l.map (·.1))).headStamps (l.map (·.1)) a.info.stamp
      else ((s.setBytes l).refreshed (l.map (·.1))).dropStamps (l.map (·.1)), ?_, ?_⟩
  · rw [performAt, hq]
    dsimp only
    rw [hl, examineWritten_unwatched (unwatched_of_empty hw _)]
  · refine ⟨?_, ?_⟩
    · split <;> simp
    · unfold State.headStamps State.dropStamps State.refreshed
      split_ifs <;> rfl

theorem modifyAt_unwatched (n : Nat) (bs : List (Nat × Byte)) : s.modifyAt a pa n bs = s.setBytes bs := by
  rw [State.modifyAt, examineWritten_unwatched (unwatched_of_empty hw _)]

theorem performAt_amo {op ty : Nat} {v : Word} (hq : a.req = .amo op ty v) :
    performAt s a pa = .done (s.storeLE pa (amoBytes ty) (amoResult op ty (s.loadLE pa (amoBytes ty)) v))
      (s.bytes (consecutive pa (amoBytes ty))) true none := by
  rw [performAt, hq]
  dsimp only
  rw [modifyAt_unwatched hw]
  rfl

omit hw in
theorem performAt_cas_differs {n : Nat} {e v : Word} (hq : a.req = .cas n e v)
    (h : s.bytes (consecutive pa n) ≠ littleEndian e n) :
    performAt s a pa = .done s (s.bytes (consecutive pa n)) false none := by
  rw [performAt, hq]
  dsimp only
  rw [beq_false_of_ne h]
  rfl

variable (hr : raceMode (s.slot a.thread).race = 0)
include hr

theorem performAt_cas_equal {n : Nat} {e v : Word} (hq : a.req = .cas n e v)
    (h : s.bytes (consecutive pa n) = littleEndian e n) :
    performAt s a pa = .done (s.storeLE pa n v) (s.bytes (consecutive pa n)) true none := by
  rw [performAt, hq]
  dsimp only
  rw [beq_iff_eq.2 h, if_pos rfl, modifyAt_unwatched hw, raceMark_off]
  · rfl
  · exact hr

omit hw hr in
theorem performAt_enq_full {v hd tl : Word} {c : Nat} (hq : a.req = .enq v) (hring : ringOf s pa = some (hd, tl, c))
    (h : tl - hd = BitVec.ofNat 64 c) : performAt s a pa = .done s [] false none := by
  rw [performAt, hq]
  dsimp only
  rw [ringEnq, hring]
  exact if_pos h

theorem performAt_enq_room {v hd tl : Word} {c : Nat} (hq : a.req = .enq v) (hring : ringOf s pa = some (hd, tl, c))
    (h : tl - hd ≠ BitVec.ofNat 64 c) : performAt s a pa =
      .done ((s.storeLE (pa + 32 + 8 * (tl.toNat % c)) 8 v).storeLE (pa + 8) 8 (tl + 1)) [] true none := by
  rw [performAt, hq]
  dsimp only
  rw [ringEnq, hring]
  dsimp only
  rw [if_neg h, ringEntry_off hr, examineWritten_unwatched (unwatched_of_empty hw _), raceMark_off, raceMark_off]
  · exact hr
  · rw [raceMark_off]
    · exact hr
    · exact hr

omit hw hr in
theorem performAt_deq_empty {hd tl : Word} {c : Nat} (hq : a.req = .deq) (hring : ringOf s pa = some (hd, tl, c))
    (h : hd = tl) : performAt s a pa = .done s (littleEndian (0 : Word) 8) false none := by
  rw [performAt, hq]
  dsimp only
  rw [ringDeq, hring]
  exact if_pos h

theorem performAt_deq_entry (he : s.errors = []) {hd tl : Word} {c : Nat} (hq : a.req = .deq)
    (hring : ringOf s pa = some (hd, tl, c)) (h : hd ≠ tl) : performAt s a pa =
      .done (s.storeLE pa 8 (hd + 1)) (littleEndian (s.loadLE (pa + 32 + 8 * (hd.toNat % c)) 8) 8) true none := by
  rw [performAt, hq]
  dsimp only
  rw [ringDeq, hring]
  dsimp only
  rw [if_neg h, ringEntry_off hr, findError_none he]
  dsimp only
  rw [examineWritten_unwatched (unwatched_of_empty hw _), raceMark_off]
  exact hr

omit hw hr in
theorem performAt_malformed (hq : (∃ v, a.req = .enq v) ∨ a.req = .deq) (hring : ringOf s pa = none) :
    performAt s a pa = .done s [] false (some (0x05, a.addr)) := by
  rcases hq with ⟨v, hq⟩ | hq
  · rw [performAt, hq]
    dsimp only
    rw [ringEnq, hring]
  · rw [performAt, hq]
    dsimp only
    rw [ringDeq, hring]

end

/-! ### What becomes of the outcome -/

section
variable {s : State} {pk id pa : Nat} {p : Packet} {a : Access} (h : Arrived s pk id p a)
include h

/-- The step first looks at a packet that has waited; one that stands at its home is left as it is. -/
theorem exec_reeveOperation_uncorrectable :
    exec (.reeveOperation pk true) s = .next ((s.machineCheck p.dst (if p.channel then 1 else 0) a.addr).failAt pk id a p) := by
  rw [exec_reeveOperation, execReeveOperation, h.packet]
  dsimp only
  rw [h.here]
  dsimp only
  rw [protected_arrived h, if_pos rfl]

variable (ht : s.targetByte a.target = some pa)
include ht

theorem exec_reeveOperation_waits {l : Nat} (hp : performAt s a pa = .waitLine l) :
    exec (.reeveOperation pk false) s = .next (s.modPacket pk fun p => { p with loc := .waitingLine l }) := by
  rw [exec_reeveOperation, execReeveOperation, h.packet]
  dsimp only
  rw [h.here]
  dsimp only
  rw [protected_arrived h, if_neg (by simp), ht]
  dsimp only
  rw [findError_none h.noErrors]
  dsimp only
  rw [State.lateRace, h.raceChecked]
  dsimp only
  rw [hp]

theorem exec_reeveOperation_done {s' : State} {v : List Byte} {f : Bool} {tr : Option (Nat × Word)}
    (hp : performAt s a pa = .done s' v f tr) :
    exec (.reeveOperation pk false) s = .next (s'.concludeAt pk id a p.dst p.channel v f tr (s.stampsRead a pa)) := by
  rw [exec_reeveOperation, execReeveOperation, h.packet]
  dsimp only
  rw [h.here]
  dsimp only
  rw [protected_arrived h, if_neg (by simp), ht]
  dsimp only
  rw [findError_none h.noErrors]
  dsimp only
  rw [State.lateRace, h.raceChecked]
  dsimp only
  rw [hp]

/-- A request that takes effect leaves the bytes that it made, and its outcome with the access. -/
theorem exec_reeveOperation_acts {s' m : State} {v : List Byte} {f : Bool} {tr : Option (Nat × Word)}
    (hp : performAt s a pa = .done s' v f tr) (hb : Becomes s s' m) :
    ∃ t, exec (.reeveOperation pk false) s = .next t ∧ t.mem = m.mem ∧
      (∃ x, t.access? id = some x ∧ x.performed = true ∧ x.value = v ∧ x.found = f ∧ x.trap = tr) := by
  have hacc : s'.access? id = some a := by rw [State.access?, hb.accesses]; exact h.access
  obtain ⟨he, hm, -, -⟩ := concludeAt_ends hacc h.awaited pk p.dst p.channel v f tr (s.stampsRead a pa)
  exact ⟨_, exec_reeveOperation_done h ht hp, hm.trans hb.mem, he⟩

end

theorem becomes_refl (s : State) : Becomes s s s := ⟨rfl, rfl⟩

theorem becomes_storeLE (s : State) (pa n : Nat) (v : Word) : Becomes s (s.storeLE pa n v) (s.storeLE pa n v) := ⟨rfl, rfl⟩

/-- Settles O31, request by request. -/
theorem reeveOperations : Obligations.ReeveOperations := by
  unfold Obligations.ReeveOperations
  intro s pk id pa p a h ht hfl hw hr
  dsimp only
  have acts {s' m : State} {v : List Byte} {f : Bool} (hp : performAt s a pa = .done s' v f none) (hb : Becomes s s' m) :
      ∃ t, exec (.reeveOperation pk false) s = .next t ∧ (∀ b, t.byte b = m.byte b) ∧
        (∃ x, t.access? id = some x ∧ x.performed = true ∧ x.value = v ∧ x.found = f ∧ x.trap = none) := by
    obtain ⟨t, hx, hm, he⟩ := exec_reeveOperation_acts h ht hp hb
    exact ⟨t, hx, byte_congr hm, he⟩
  refine ⟨fun n hq hl => ?_, fun n l hq hl => exec_reeveOperation_waits h ht (performAt_load_empty hq hl), ?_,
    fun bs hq => ?_, fun op ty v hq => acts (performAt_amo hw hq) (becomes_storeLE _ _ _ _),
    fun n e v hq hb => acts (performAt_cas_equal hw hr hq hb) (becomes_storeLE _ _ _ _),
    fun n e v hq hb => acts (performAt_cas_differs hq hb) (becomes_refl s),
    fun v hd tl c hq hring => ⟨fun hc => acts (performAt_enq_full hq hring hc) (becomes_refl s),
      fun hc => acts (performAt_enq_room hw hr hq hring hc) ⟨rfl, rfl⟩⟩,
    fun hd tl c hq hring => ⟨fun hc => acts (performAt_deq_empty hq hring hc) (becomes_refl s),
      fun hc => acts (performAt_deq_entry hw hr h.noErrors hq hring hc) (becomes_storeLE _ _ _ _)⟩, fun hq hring => ?_⟩
  · obtain ⟨t, hp, hb⟩ := performAt_load_full (pa := pa) hq hl
    exact acts hp hb
  · obtain ⟨⟨x, hx, hp, -, -, htr⟩, hm, -, -⟩ := concludeAt_ends
      (s := s.machineCheck p.dst (if p.channel then 1 else 0) a.addr) (a := { a with flag := none }) h.access h.awaited pk p.dst
      p.channel [] false (some (0x16, a.addr)) []
    exact ⟨_, x, exec_reeveOperation_uncorrectable h, hm, hx, hp, htr⟩
  · obtain ⟨t, hp, hb⟩ := performAt_store (pa := pa) hw hq
    exact acts hp hb
  · obtain ⟨t, hx, hm, x, hxa, -, -, -, htr⟩ := exec_reeveOperation_acts h ht (performAt_malformed hq hring) (becomes_refl s)
    exact ⟨t, x, hx, hm, hxa, htr⟩

end Sys2Proof.Machine
end

section
/-! Row commands, reductions and lane predicates of the Lane engine (O42, O43, O44): each is a running command with one
effect. -/

namespace Sys2Proof.Machine

/-! ### Row commands -/

section
variable {s : State} {id : Nat} {o : EngOp} {i : Instr} (h : Running s id o i) {f : TileFields}
include h

/-- With its sources full a row command writes its elements. -/
theorem rowCommand_runs {src : List Field4} (he : ∀ t ∈ src, s.tileEmpty o t (s.rowCtx o f).rows = false) (all : Bool)
    (elem : State → EngOp → RowCtx → Nat → Nat → Nat) :
    rowCommand f src all s elem = .next ((s.write ((s.rowCtx o f).rows.flatMap fun r =>
      (List.range (o.shape f.td).cols).flatMap fun l =>
        if all || enabled f (s.rowCtx o f).k (s.rowCtx o f).d.bytes l then
          o.elemBytes f.td r l (s.rowCtx o f).d.bytes (elem s o (s.rowCtx o f) r l) else [])).finishOp id) := by
  rw [rowCommand, command_running h]
  dsimp only
  rw [if_neg]
  simpa using he

theorem rowCommand_lanes {src : List Field4} (he : ∀ t ∈ src, s.tileEmpty o t (s.rowCtx o f).rows = false)
    (elem : State → EngOp → RowCtx → Nat → Nat → Nat) :
    rowCommand f src false s elem =
      .next ((s.write (laneWrites s o f fun r l => elem s o (s.rowCtx o f) r l)).finishOp id) :=
  rowCommand_runs h he false elem

theorem arith_lanes {src : List Field4} (he : ∀ t ∈ src, s.tileEmpty o t (s.rowCtx o f).rows = false)
    (op : Bool → Val → Val → Val → Val) :
    let c := s.rowCtx o f
    arith f src s op = .next ((s.write (laneWrites s o f fun r l => resultBits c.d (o.rounding c.rnd r l) c.sat (!c.a.isFloat)
      (op (c.rnd == 2) (s.srcVal o f f.ta c.a r l) (s.srcVal o f f.tb c.b r l) (s.srcVal o f f.tc c.d r l)))).finishOp id) :=
  rowCommand_lanes h he _

theorem unary_lanes (he : ∀ t ∈ [f.ta], s.tileEmpty o t (s.rowCtx o f).rows = false) (op : Val → Val) :
    let c := s.rowCtx o f
    unary f s op = .next ((s.write (laneWrites s o f fun r l => resultBits c.d (o.rounding c.rnd r l) c.sat (!c.a.isFloat)
      (op (s.srcVal o f f.ta c.a r l)))).finishOp id) :=
  rowCommand_lanes h he _

theorem bitwise_lanes (he : ∀ t ∈ [f.ta, f.tb], s.tileEmpty o t (s.rowCtx o f).rows = false) (op : Nat → Nat → Nat) :
    let c := s.rowCtx o f
    bitwise f s op = .next ((s.write (laneWrites s o f fun r l =>
      op (s.srcBits o f f.ta c.a r l) (s.srcBits o f f.tb c.b r l) % 2 ^ (8 * c.d.bytes))).finishOp id) :=
  rowCommand_lanes h he _

end

/-- Settles O42: every command of the list is a row command with the element that the statement gives. -/
theorem laneResults : Obligations.LaneResults := by
  unfold Obligations.LaneResults
  intro s id o f
  dsimp only
  refine ⟨fun h he => arith_lanes h he fun dn x y _ => (addVal dn x y).1,
    fun h he => arith_lanes h he fun dn x y _ => (addVal dn x y.neg).1, fun h he => arith_lanes h he fun _ x y _ => (mulVal x y).1,
    fun h he => arith_lanes h he fun dn x y z => (addVal dn (mulVal x y).1 z).1,
    fun h he => arith_lanes h he fun _ x y _ => minVal x y, fun h he => arith_lanes h he fun _ x y _ => maxVal x y,
    fun h he => arith_lanes h he fun _ x _ _ => x.abs, fun h he => arith_lanes h he fun _ x _ _ => x.neg,
    fun h he => unary_lanes h he rcpVal, fun h he => unary_lanes h he rsqVal, fun h he => unary_lanes h he exp2Val,
    fun h he => unary_lanes h he log2Val, fun h he => unary_lanes h he fun x => x,
    fun h he => bitwise_lanes h he fun x y => x &&& y, fun h he => bitwise_lanes h he fun x y => x ||| y,
    fun h he => bitwise_lanes h he fun x y => x ^^^ y, fun h he => ?_, fun h he => ?_, fun h he => ?_, fun h he => ?_,
    fun h he => ?_⟩
  · rw [exec_rshl, execRshl, rowCommand_lanes h he]
  · rw [exec_rshr, execRshr, rowCommand_lanes h he]
  · rw [exec_ridx, execRidx, rowCommand_lanes h he]
  · rw [exec_rroll, execRroll, rowCommand_lanes h he]
    rfl
  · rw [exec_rperm, execRperm, rowCommand_lanes h he]

/-! ### Selection, broadcast and lane predicates -/

/-- A word made bit by bit has those bits. -/
theorem getLsbD_wordOfBits (p : Nat → Bool) {n : Nat} (hn : n < 64) : (wordOfBits p).getLsbD n = p n := by
  have key (l : List Nat) (hl : ∀ i ∈ l, i < 64) (w : BitVec 64) :
      (l.foldl (fun (w : BitVec 64) i => if p i then w ||| (1 <<< i) else w) w).getLsbD n = (w.getLsbD n || (decide (n ∈ l) && p n)) := by
    induction l generalizing w with
    | nil => simp
    | cons i r ih =>
      rw [List.foldl_cons, ih (fun j hj => hl j (List.mem_cons_of_mem _ hj))]
      have hi := hl i (by simp)
      have hbit : ((1 <<< i : Nat) : BitVec 64).getLsbD n = decide (n = i) := by
        rw [BitVec.natCast_eq_ofNat, BitVec.getLsbD_ofNat, Nat.one_shiftLeft, Nat.testBit_two_pow]
        simp [hn, eq_comm]
      by_cases hp : p i = true
      · rw [if_pos hp, BitVec.getLsbD_or, hbit]
        by_cases hni : n = i
        · subst hni; simp [hp]
        · simp [hni]
      · rw [if_neg hp]
        by_cases hni : n = i
        · subst hni; simp [hp]
        · simp [hni]
  rw [wordOfBits, key _ (fun i hi => List.mem_range.1 hi)]
  simp [hn]

section
variable {s : State} {id : Nat} {o : EngOp} {i : Instr} (h : Running s id o i) {f : TileFields}
include h

theorem laneOp_sets (op : BitVec 64 → BitVec 64 → BitVec 64) :
    ∃ w : BitVec 64, laneOp f s op = .next ((s.setLanePred o (immK f 0) w).finishOp id) ∧
      ∀ n < 64, w.getLsbD n = if enabled f (s.lanePred o f.k.toNat) 1 n then
        (op (s.lanePred o (immK f 1)) (s.lanePred o (immK f 2))).getLsbD n else (s.lanePred o (immK f 0)).getLsbD n :=
  ⟨_, command_running h _, fun _ hn => getLsbD_wordOfBits _ hn⟩

theorem execRcmp_sets (ha : s.tileEmpty o f.ta [f.first.toNat] = false) (hb : s.tileEmpty o f.tb [f.first.toNat] = false) :
    ∃ w : BitVec 64, execRcmp f s = .next ((s.setLanePred o (immK f 0) w).finishOp id) ∧
      ∀ n < 64, w.getLsbD n = if (o.shape f.ta).cols ≤ n / (elemOr (codeA o.fm f.ea)).bytes then false
        else if enabled f (s.lanePred o f.k.toNat) (elemOr (codeA o.fm f.ea)).bytes (n / (elemOr (codeA o.fm f.ea)).bytes) then
          laneCond f.layout.toNat
            (decodeElem (elemOr (codeA o.fm f.ea)) (s.elem o f.ta f.first.toNat (n / (elemOr (codeA o.fm f.ea)).bytes)
              (elemOr (codeA o.fm f.ea)).bytes))
            (decodeElem (elemOr (codeB o.fm f.eb)) (s.srcBits o f f.tb (elemOr (codeB o.fm f.eb)) f.first.toNat
              (n / (elemOr (codeA o.fm f.ea)).bytes)))
        else (s.lanePred o (immK f 0)).getLsbD n := by
  refine ⟨_, ?_, fun _ hn => getLsbD_wordOfBits _ hn⟩
  rw [execRcmp, command_running h]
  dsimp only
  rw [if_neg (by simp [ha, hb])]

theorem execRsel_runs (ha : s.tileEmpty o f.ta (s.rowCtx o f).rows = false) (hb : s.tileEmpty o f.tb (s.rowCtx o f).rows = false) :
    let c := s.rowCtx o f
    execRsel f s = .next ((s.write (c.rows.flatMap fun r => (List.range (o.shape f.td).cols).flatMap fun l =>
        o.elemBytes f.td r l c.d.bytes (
          if enabled f c.k c.d.bytes l then
            resultBits c.d (o.rounding c.rnd r l) c.sat (!c.a.isFloat) (s.srcVal o f f.ta c.a r l)
          else resultBits c.d (o.rounding c.rnd r l) c.sat (!c.b.isFloat) (s.srcVal o f f.tb c.b r l)))).finishOp id) := by
  rw [execRsel, rowCommand_runs h (by simp [ha, hb])]
  simp only [Bool.true_or, if_true]

theorem execRbcast_imm (ht : f.ta.toNat = 12) :
    execRbcast f s = .next ((s.write (laneWrites s o f fun r l => resultBits (s.rowCtx o f).d
      (o.rounding (s.rowCtx o f).rnd r l) (s.rowCtx o f).sat (!(s.rowCtx o f).d.isFloat) (immVal f (s.rowCtx o f).d))).finishOp
        id) := by
  rw [execRbcast, command_running h]
  dsimp only
  rw [if_neg (by simp [ht]), if_pos ht]
  rfl

theorem execRbcast_elem (ht : f.ta.toNat < 12) (he : s.rowsEmpty o f.ta [f.imm32.toNat / (o.shape f.ta).cols] = false) :
    execRbcast f s = .next ((s.write (laneWrites s o f fun r l => resultBits (s.rowCtx o f).d
      (o.rounding (s.rowCtx o f).rnd r l) (s.rowCtx o f).sat (!(s.rowCtx o f).a.isFloat)
      (decodeElem (s.rowCtx o f).a (s.elem o f.ta (f.imm32.toNat / (o.shape f.ta).cols) (f.imm32.toNat % (o.shape f.ta).cols)
        (s.rowCtx o f).a.bytes)))).finishOp id) := by
  rw [execRbcast, command_running h]
  dsimp only
  rw [if_neg (by simp [he]), if_neg (by omega)]
  rfl

end

/-- Settles O43. -/
theorem selectAndPredicates : Obligations.SelectAndPredicates := by
  unfold Obligations.SelectAndPredicates
  intro s id o f
  dsimp only
  refine ⟨fun h ha hb => execRsel_runs h ha hb, fun h => ⟨fun ht => execRbcast_imm h ht, fun ht he => execRbcast_elem h ht he⟩,
    fun ha hb h => ?_, ?_, ?_, ?_, ?_⟩
  · obtain ⟨w, hx, hw⟩ := execRcmp_sets h ha hb
    refine ⟨w, hx, fun n hn => ?_⟩
    rw [hw n hn]
    by_cases hc : (o.shape f.ta).cols ≤ n / (elemOr (codeA o.fm f.ea)).bytes
    · simp [hc, Nat.not_lt.2 hc]
    · rw [if_neg hc, decide_eq_true (Nat.lt_of_not_le hc), Bool.true_and]
      rfl
  · exact fun h => laneOp_sets h fun a b => a &&& b
  · exact fun h => laneOp_sets h fun a b => a ||| b
  · exact fun h => laneOp_sets h fun a b => a ^^^ b
  · exact fun h => laneOp_sets h fun a _ => ~~~a

/-! ### Reductions, the scan and the sort -/

section
variable {s : State} {id : Nat} {o : EngOp} {i : Instr} (h : Running s id o i) {f : TileFields}
  (he : s.tileEmpty o f.ta (s.rowCtx o f).rows = false)
include h he

theorem reduce_runs (op : RowCtx → List Val → Option Val) (empty : Elem → Nat) :
    reduce f s op empty = .next ((s.write ((s.rowCtx o f).rows.flatMap fun r =>
      o.elemBytes f.td r 0 (s.rowCtx o f).d.bytes (match op (s.rowCtx o f) ((s.rowValues o f (s.rowCtx o f) r).map (·.2)) with
        | some v => resultBits (s.rowCtx o f).d (o.rounding (s.rowCtx o f).rnd r 0) (s.rowCtx o f).sat
            (!(s.rowCtx o f).a.isFloat) v
        | none => empty (s.rowCtx o f).d))).finishOp id) := by
  rw [reduce, command_running h]
  dsimp only
  rw [if_neg (by simp [he])] <;> rfl

theorem execRscan_runs : execRscan f s = .next ((s.write ((s.rowCtx o f).rows.flatMap fun r =>
    (s.scanRow o f (s.rowCtx o f) r).zipIdx.flatMap fun e =>
      o.elemBytes f.td r e.2 (s.rowCtx o f).d.bytes e.1)).finishOp id) := by
  rw [execRscan, command_running h]
  exact next_congr (if_neg (by simp [he]))

theorem execRsort_runs : execRsort f s = .next ((s.write ((s.rowCtx o f).rows.flatMap fun r =>
    (((s.rowValues o f (s.rowCtx o f) r).foldl insertLane []).take f.imm32.toNat).zipIdx.flatMap fun e =>
      o.elemBytes f.td r e.2 (s.rowCtx o f).d.bytes (resultBits (s.rowCtx o f).d (o.rounding (s.rowCtx o f).rnd r e.2)
        (s.rowCtx o f).sat (!(s.rowCtx o f).a.isFloat) e.1.2) ++
        o.elemBytes f.tb r e.2 (s.rowCtx o f).b.bytes (wrapInt (s.rowCtx o f).b.bytes false false e.1.1))).finishOp id) := by
  rw [execRsort, command_running h]
  exact next_congr (if_neg (by simp [he]))

end

/-- Settles O44: for a row with no enabled element the list of values is empty. -/
theorem reductionResults : Obligations.ReductionResults := by
  unfold Obligations.ReductionResults
  intro s id o f
  dsimp only
  refine ⟨fun h he => ?_, fun h he => ?_, fun h he => execRscan_runs h he, fun h he => execRsort_runs h he⟩
  · rw [exec_rsumr, execRsumr, reduce_runs h he]
    congr 4
    funext r
    cases (s.rowValues o f (s.rowCtx o f) r).map (·.2) <;> rfl
  · rw [exec_rmaxr, execRmaxr, reduce_runs h he]
    congr 4
    funext r
    cases (s.rowValues o f (s.rowCtx o f) r).map (·.2) <;> rfl

end Sys2Proof.Machine
end

section
/-! The Loom's products (O45), and what every row command leaves unchanged, how a command faults as it starts, and what it
takes as it starts (O48). -/

namespace Sys2Proof.Machine

/-! ### The Loom -/

/-- With the rows of its operands full, a Loom command writes the enabled elements of D. -/
theorem loomCommand_runs {s : State} {id : Nat} {o : EngOp} {i : Instr} (h : Running s id o i) {f : TileFields}
    {masks : List Field4} {wait : State → EngOp → LoomCtx → Bool}
    (hA : s.rowsEmpty o f.ta (if (s.loomCtx o f).ta then List.range (o.shape f.ta).rows else (s.loomCtx o f).rows) = false)
    (hB : s.rowsEmpty o f.tb (List.range (o.shape f.tb).rows) = false)
    (hD : f.imm32.getLsbD 0 = true ∨ s.rowsEmpty o f.td (s.loomCtx o f).rows = false)
    (hM : ∀ t ∈ masks, s.rowsEmpty o t (s.loomCtx o f).rows = false) (hw : wait s o (s.loomCtx o f) = false)
    (value : State → EngOp → LoomCtx → Nat → Nat → Val → Nat) :
    let c := s.loomCtx o f
    loomCommand f masks wait s value = .next ((s.write (c.rows.flatMap fun i => (List.range c.n).flatMap fun j =>
      if enabled f c.guard c.d.bytes j then o.elemBytes f.td i j c.d.bytes
        (value s o c i j (if f.imm32.getLsbD 0 then .zero else decodeElem c.d (s.elem o f.td i j c.d.bytes)))
      else [])).finishOp id) := by
  rw [loomCommand, command_running h]
  have hm : (masks.any fun t => s.rowsEmpty o t (s.loomCtx o f).rows) = false := by simpa using hM
  have hd : (!startsZero f && s.rowsEmpty o f.td (s.loomCtx o f).rows) = false := by
    rw [startsZero]
    rcases hD with hD | hD <;> simp [hD]
  exact next_congr (if_neg (by rw [hA, hB, hm, hd, hw]; simp))

/-- Settles O45. -/
theorem loomProducts : Obligations.LoomProducts := by
  unfold Obligations.LoomProducts
  intro s id o f
  dsimp only
  refine ⟨fun h ⟨hA, hB, hD⟩ => ?_, fun h ⟨hA, hB, hD⟩ => ?_, fun hM hk h ⟨hA, hB, hD⟩ => ?_, fun hs h ⟨hA, hB, hD⟩ => ?_⟩
  · rw [exec_tmma, execTmma, loomCommand_runs h hA hB hD (by simp) (wait := noWait) rfl]
    rfl
  · rw [exec_tmmd, execTmmd, loomCommand_runs h hA hB hD (by simp) (wait := noWait) rfl]
    rfl
  · rw [exec_tmms, execTmms, h.current, h.there]
    dsimp only
    rw [if_neg (by simp [hk]), loomCommand_runs h hA hB hD (by simpa using hM) (wait := noWait) rfl]
    rfl
  · rw [exec_tmmb, execTmmb, loomCommand_runs h hA hB hD (by simp) (wait := fun s o _ => s.scalesEmpty o f) hs]

/-! ### The frame of a row command -/

theorem finishOp_frame (s : State) (id : Nat) : (s.finishOp id).mem = s.mem ∧ (s.finishOp id).slots = s.slots := by
  unfold State.finishOp
  dsimp only
  split
  · split <;> exact ⟨rfl, rfl⟩
  · exact ⟨rfl, rfl⟩

/-- Elements of td in the command's rows lie in its bytes. -/
theorem rowElems_mem_tdBytes {s : State} {o : EngOp} {f : TileFields} (g : Nat → Bool) (bits : Nat → Nat → Nat) :
    ∀ e ∈ (s.rowCtx o f).rows.flatMap fun r => (List.range (o.shape f.td).cols).flatMap fun l =>
      if g l then o.elemBytes f.td r l (s.rowCtx o f).d.bytes (bits r l) else [], e.1 ∈ tdBytes s o f := by
  intro e he
  obtain ⟨r, hr, he⟩ := List.mem_flatMap.1 he
  obtain ⟨l, hl, he⟩ := List.mem_flatMap.1 he
  split at he
  · exact List.mem_flatMap.2 ⟨r, hr, List.mem_flatMap.2 ⟨l, hl, mem_consecutive.2 (mem_bytesAt he)⟩⟩
  · cases he

/-- From `s` to `t` registers are as they were, and memory outside the bytes of td in the command's rows. -/
def TdFrame (s t : State) (o : EngOp) (f : TileFields) : Prop :=
  t.slots = s.slots ∧ ∀ a, a ∉ tdBytes s o f → t.byte a = s.byte a

theorem write_finishOp_tdFrame {s : State} {o : EngOp} {f : TileFields} {w : List (Nat × Byte)}
    (hw : ∀ e ∈ w, e.1 ∈ tdBytes s o f) (id : Nat) : TdFrame s ((s.write w).finishOp id) o f := by
  obtain ⟨hm, hs⟩ := finishOp_frame (s.write w) id
  exact ⟨hs.trans (write_slots s w), fun a ha => (byte_congr hm a).trans
    (State.byte_write_of_not_mem s fun e he hea => ha (hea ▸ hw e he))⟩

theorem rowCommand_tdFrame {s t : State} {id : Nat} {o : EngOp} {i : Instr} (h : Running s id o i) {f : TileFields}
    {src : List Field4} {all : Bool} {elem : State → EngOp → RowCtx → Nat → Nat → Nat}
    (ht : rowCommand f src all s elem = .next t) : TdFrame s t o f := by
  rw [rowCommand, command_running h] at ht
  cases ht
  dsimp only
  split
  · exact ⟨rfl, fun _ _ => rfl⟩
  · exact write_finishOp_tdFrame (rowElems_mem_tdBytes (fun l => all || enabled f (s.rowCtx o f).k (s.rowCtx o f).d.bytes l) _) id

theorem execRbcast_tdFrame {s t : State} {id : Nat} {o : EngOp} {i : Instr} (h : Running s id o i) {f : TileFields}
    (ht : execRbcast f s = .next t) : TdFrame s t o f := by
  rw [execRbcast, command_running h] at ht
  cases ht
  dsimp only
  split
  · exact ⟨rfl, fun _ _ => rfl⟩
  · split <;> exact write_finishOp_tdFrame (rowElems_mem_tdBytes _ _) id

/-! ### Faults of operations that no TX waits for -/

/-- From `s` to `t` memory is as it was, and every operation has the origin that it had. -/
structure KeepsOrigins (s t : State) : Prop where
  mem : t.mem = s.mem
  origins : ∀ k, (t.op? k).map (·.origin) = (s.op? k).map (·.origin)

theorem KeepsOrigins.refl (s : State) : KeepsOrigins s s := ⟨rfl, fun _ => rfl⟩

theorem KeepsOrigins.trans {s t u : State} (h : KeepsOrigins s t) (h' : KeepsOrigins t u) : KeepsOrigins s u :=
  ⟨h'.mem.trans h.mem, fun k => (h'.origins k).trans (h.origins k)⟩

theorem KeepsOrigins.foldl {α : Type} {f : State → α → State} (h : ∀ s a, KeepsOrigins s (f s a)) (l : List α) (s : State) :
    KeepsOrigins s (l.foldl f s) := by
  induction l generalizing s with
  | nil => exact KeepsOrigins.refl s
  | cons a r ih => exact (h s a).trans (ih _)

theorem keepsOrigins_modRec (s : State) (id : Nat) (f : EngOp → EngOp) (h : ∀ o, (f o).origin = o.origin) (k : Nat) :
    (find? (modRec s.ops id f) k).map (·.origin) = (s.op? k).map (·.origin) := by
  by_cases hk : k = id
  · subst hk
    rw [find?_modRec, Option.map_map]
    exact congrFun (congrArg Option.map (funext h)) _
  · rw [find?_modRec_ne _ _ hk]
    rfl

theorem keepsOrigins_modOp (s : State) (id : Nat) (f : EngOp → EngOp) (h : ∀ o, (f o).origin = o.origin) :
    KeepsOrigins s (s.modOp id f) := ⟨rfl, keepsOrigins_modRec s id f h⟩

theorem OnlyDue.keepsOrigins {s t : State} (h : OnlyDue s t) : KeepsOrigins s t := by
  rw [h.rest]
  exact ⟨rfl, fun _ => rfl⟩

theorem keepsOrigins_markTake (s : State) (id : Nat) : KeepsOrigins s (s.markTake id) := by
  unfold State.markTake
  split
  · exact KeepsOrigins.refl s
  · split
    · split
      · split
        · exact ⟨rfl, fun _ => rfl⟩
        · exact KeepsOrigins.refl s
      · exact KeepsOrigins.refl s
    · exact KeepsOrigins.refl s

theorem keepsOrigins_kick (s : State) (core : Nat) (e : Engine) : KeepsOrigins s (s.kick core e) := by
  unfold State.kick
  have h0 : KeepsOrigins s (if e = .granary then ((s.core core).queue e).foldl State.markTake s else s) := by
    split
    · exact KeepsOrigins.foldl keepsOrigins_markTake _ s
    · exact KeepsOrigins.refl s
  dsimp only
  generalize (if e = .granary then ((s.core core).queue e).foldl State.markTake s else s) = t at h0 ⊢
  split
  · exact h0
  · split
    · exact h0.trans ⟨rfl, fun _ => rfl⟩
    · exact h0.trans ((keepsOrigins_modOp t _ (fun o => { o with state := .running }) fun _ => rfl).trans
        (State.pushOnce_due _ _).keepsOrigins)

theorem keepsOrigins_enqueue (s : State) (id : Nat) : KeepsOrigins s (s.enqueue id) := by
  unfold State.enqueue
  split
  · exact KeepsOrigins.refl s
  · exact KeepsOrigins.trans (t := s.modCore _ _) ⟨rfl, fun _ => rfl⟩ (keepsOrigins_kick _ _ _)

theorem keepsOrigins_leaveQueue (s : State) (id : Nat) (o : EngOp) : KeepsOrigins s (s.leaveQueue id o) := by
  unfold State.leaveQueue
  dsimp only
  generalize hs1 : (s.modCore o.core fun c => c.setQueue o.engine ((c.queue o.engine).filter (· != id))) = s1
  have h1 : KeepsOrigins s s1 := by rw [← hs1]; exact ⟨rfl, fun _ => rfl⟩
  have h2 : KeepsOrigins s1 (if o.engine = .loom then s1.loomIdle o.core else s1) := by
    split <;> exact ⟨rfl, fun _ => rfl⟩
  generalize (if o.engine = .loom then s1.loomIdle o.core else s1) = s2 at h2 ⊢
  have h3 (p : Nat → Slot → Bool) : KeepsOrigins s (s2.wakeIf p) := (h1.trans h2).trans (State.wakeIf_due _ _).keepsOrigins
  split
  · exact (h3 _).trans (keepsOrigins_enqueue _ _)
  · exact (h3 _).trans (keepsOrigins_kick _ _ _)

/-- The fault of a command of a sequence changes no byte: its record is written when the sequence is joined. -/
theorem faultOp_mem_of_seq {s : State} {id q : Nat} {o : EngOp} (ho : s.op? id = some o) (hq : o.origin = .seq q) (c : Nat)
    (v : Word) (r : Nat) (b : Bool) : (s.faultOp id c v r b).mem = s.mem := by
  have h0 : KeepsOrigins s (((s.detachReads id).modOp id fun o =>
      { o with state := faultState c b, cause := c, tval := v, resume := r }).leaveQueue id o) := by
    have h1 : KeepsOrigins s (s.detachReads id) := ⟨rfl, keepsOrigins_modRec s id (fun o => { o with reads := [] }) fun _ => rfl⟩
    have h2 := keepsOrigins_modOp (s.detachReads id) id
      (fun o => { o with state := faultState c b, cause := c, tval := v, resume := r }) fun _ => rfl
    exact (h1.trans h2).trans (keepsOrigins_leaveQueue _ _ _)
  unfold State.faultOp
  rw [ho]
  dsimp only
  generalize ((s.detachReads id).modOp id fun o =>
      { o with state := faultState c b, cause := c, tval := v, resume := r }).leaveQueue id o = t at h0 ⊢
  have hs : (t.surface id).mem = t.mem := by
    have h := h0.origins id
    rw [ho, Option.map_some, hq] at h
    unfold State.surface
    split
    · rfl
    · rename_i x hx
      rw [hx, Option.map_some] at h
      rw [Option.some.inj h]
      exact (State.wakeIf_due _ _).keepsOrigins.mem
  have h3 : (if t.joinable id o && c != 0x09 then t.surface id else t).mem = s.mem := by
    split
    · exact hs.trans h0.mem
    · exact h0.mem
  split
  · exact h3
  · exact h3

theorem checkIssue_state {s s' : State} {o : EngOp} {i : Instr} {x : Option Fail} (hr : raceAtIssue i = false)
    (h : s.checkIssue o i = (s', x)) : s' = s := by
  unfold State.checkIssue at h
  split at h
  · exact (congrArg Prod.fst h).symm
  · rw [if_neg (by simp [hr])] at h
    exact (congrArg Prod.fst h).symm

/-! ### Commands as they start -/

/-- The commands of the engines, but TMMS, which looks at its masks first. -/
def engineCommands (f : TileFields) : List Instr :=
  [.tmma f, .tmmb f, .tmmd f, .radd f, .rsub f, .rmul f, .rfma f, .rmin f, .rmax f, .rabs f, .rneg f, .rrcp f,
    .rrsq f, .rexp2 f, .rlog2 f, .rcvt f, .rand f, .ror f, .rxor f, .rshl f, .rshr f, .rsel f, .rcmp f, .rbcast f,
    .rsumr f, .rmaxr f, .rscan f, .rsort f, .ridx f, .rperm f, .rroll f, .kand f, .kor f, .kxor f, .knot f, .tld f,
    .tst f, .tsta f, .tzero f, .tcopy f, .ttrn f, .cpy f, .cpya f, .csched f, .cstage f, .gath f, .scat f, .atts f,
    .attp f, .gmrg f, .gtake f, .spire f]

/-- Each of them is a command with one effect. -/
theorem exec_engineCommand (f : TileFields) : ∀ i ∈ engineCommands f, ∃ k, ∀ s, exec i s = command s k := by
  simp only [engineCommands, List.forall_mem_cons, List.not_mem_nil, false_implies, implies_true, and_true]
  exact ⟨⟨_, fun s => by rw [exec_tmma, execTmma, loomCommand]⟩, ⟨_, fun s => by rw [exec_tmmb, execTmmb, loomCommand]⟩,
    ⟨_, fun s => by rw [exec_tmmd, execTmmd, loomCommand]⟩, ⟨_, fun s => by rw [exec_radd, execRadd, arith, rowCommand]⟩,
    ⟨_, fun s => by rw [exec_rsub, execRsub, arith, rowCommand]⟩,
    ⟨_, fun s => by rw [exec_rmul, execRmul, arith, rowCommand]⟩,
    ⟨_, fun s => by rw [exec_rfma, execRfma, arith, rowCommand]⟩,
    ⟨_, fun s => by rw [exec_rmin, execRmin, arith, rowCommand]⟩,
    ⟨_, fun s => by rw [exec_rmax, execRmax, arith, rowCommand]⟩,
    ⟨_, fun s => by rw [exec_rabs, execRabs, arith, rowCommand]⟩,
    ⟨_, fun s => by rw [exec_rneg, execRneg, arith, rowCommand]⟩,
    ⟨_, fun s => by rw [exec_rrcp, execRrcp, unary, rowCommand]⟩,
    ⟨_, fun s => by rw [exec_rrsq, execRrsq, unary, rowCommand]⟩,
    ⟨_, fun s => by rw [exec_rexp2, execRexp2, unary, rowCommand]⟩,
    ⟨_, fun s => by rw [exec_rlog2, execRlog2, unary, rowCommand]⟩,
    ⟨_, fun s => by rw [exec_rcvt, execRcvt, unary, rowCommand]⟩,
    ⟨_, fun s => by rw [exec_rand, execRand, bitwise, rowCommand]⟩,
    ⟨_, fun s => by rw [exec_ror, execRor, bitwise, rowCommand]⟩,
    ⟨_, fun s => by rw [exec_rxor, execRxor, bitwise, rowCommand]⟩, ⟨_, fun s => by rw [exec_rshl, execRshl, rowCommand]⟩,
    ⟨_, fun s => by rw [exec_rshr, execRshr, rowCommand]⟩, ⟨_, fun s => by rw [exec_rsel, execRsel, rowCommand]⟩,
    ⟨_, fun s => by rw [exec_rcmp, execRcmp]⟩, ⟨_, fun s => by rw [exec_rbcast, execRbcast]⟩,
    ⟨_, fun s => by rw [exec_rsumr, execRsumr, reduce]⟩, ⟨_, fun s => by rw [exec_rmaxr, execRmaxr, reduce]⟩,
    ⟨_, fun s => by rw [exec_rscan, execRscan]⟩, ⟨_, fun s => by rw [exec_rsort, execRsort]⟩,
    ⟨_, fun s => by rw [exec_ridx, execRidx, rowCommand]⟩, ⟨_, fun s => by rw [exec_rperm, execRperm, rowCommand]⟩,
    ⟨_, fun s => by rw [exec_rroll, execRroll, rowCommand]⟩, ⟨_, fun s => by rw [exec_kand, execKand, laneOp]⟩,
    ⟨_, fun s => by rw [exec_kor, execKor, laneOp]⟩, ⟨_, fun s => by rw [exec_kxor, execKxor, laneOp]⟩,
    ⟨_, fun s => by rw [exec_knot, execKnot, laneOp]⟩, ⟨_, fun s => by rw [exec_tld, execTld]⟩,
    ⟨_, fun s => by rw [exec_tst, execTst]⟩, ⟨_, fun s => by rw [exec_tsta, execTsta]⟩,
    ⟨_, fun s => by rw [exec_tzero, execTzero]⟩, ⟨_, fun s => by rw [exec_tcopy, execTcopy]⟩,
    ⟨_, fun s => by rw [exec_ttrn, execTtrn]⟩, ⟨_, fun s => by rw [exec_cpy, execCpy, runCopy]⟩,
    ⟨_, fun s => by rw [exec_cpya, execCpya, runCopy]⟩, ⟨_, fun s => by rw [exec_csched, execCsched]⟩,
    ⟨_, fun s => by rw [exec_cstage, execCstage]⟩, ⟨_, fun s => by rw [exec_gath, execGath, runRows]⟩,
    ⟨_, fun s => by rw [exec_scat, execScat, runRows]⟩, ⟨_, fun s => by rw [exec_atts, execAtts]⟩,
    ⟨_, fun s => by rw [exec_attp, execAttp]⟩, ⟨_, fun s => by rw [exec_gmrg, execGmrg]⟩,
    ⟨_, fun s => by rw [exec_gtake, execGtake]⟩, ⟨_, fun s => by rw [exec_spire, execSpire]⟩⟩

/-- The lane predicates that a command takes as it starts are those of its thread at that moment. -/
theorem startPreds_takes {s : State} {id : Nat} {o : EngOp} (ho : s.op? id = some o) :
    ∃ v, (s.startPreds id o).op? id = some { o with preds := some v } ∧
      (o.preds = none → ∀ k : Fin 16, v[k] = s.lanePredNow o k) := by
  unfold State.startPreds
  split
  · rename_i h
    obtain ⟨v, hv⟩ := Option.isSome_iff_exists.1 h
    exact ⟨v, by rw [ho, ← hv], fun hn => by rw [hn] at hv; cases hv⟩
  · refine ⟨Vector.ofFn fun k => s.lanePredNow o k.val, ?_, fun _ k => by simp⟩
    rw [State.op?] at *
    rw [State.modOp, find?_modRec, ho]
    rfl

/-- Settles O48. -/
theorem commandFramesAndFaults : Obligations.CommandFramesAndFaults := by
  unfold Obligations.CommandFramesAndFaults
  refine ⟨fun s t id o f => ⟨?_, fun he h => ?_⟩, fun s s' id o f c v i hi hc ho hr hu hf hk h0 hp hq hw hx => ?_,
    fun s o f ho hr hu hf hq => ⟨startPreds_takes ho, fun i hi => ?_⟩⟩
  · have row {i : Instr} {src : List Field4} {all : Bool} {elem : State → EngOp → RowCtx → Nat → Nat → Nat}
        (hx : exec i s = rowCommand f src all s elem) (h : Running s id o i) (ht : exec i s = .next t) : TdFrame s t o f :=
      rowCommand_tdFrame h (hx ▸ ht)
    simp only [List.forall_mem_cons, List.not_mem_nil, false_implies, implies_true, and_true]
    exact ⟨row (by rw [exec_radd, execRadd, arith]), row (by rw [exec_rsub, execRsub, arith]),
      row (by rw [exec_rmul, execRmul, arith]), row (by rw [exec_rfma, execRfma, arith]),
      row (by rw [exec_rmin, execRmin, arith]), row (by rw [exec_rmax, execRmax, arith]),
      row (by rw [exec_rabs, execRabs, arith]), row (by rw [exec_rneg, execRneg, arith]),
      row (by rw [exec_rrcp, execRrcp, unary]), row (by rw [exec_rrsq, execRrsq, unary]),
      row (by rw [exec_rexp2, execRexp2, unary]), row (by rw [exec_rlog2, execRlog2, unary]),
      row (by rw [exec_rcvt, execRcvt, unary]), row (by rw [exec_rand, execRand, bitwise]),
      row (by rw [exec_ror, execRor, bitwise]), row (by rw [exec_rxor, execRxor, bitwise]),
      row (by rw [exec_rshl, execRshl]), row (by rw [exec_rshr, execRshr]), row (by rw [exec_rsel, execRsel]),
      fun h ht => execRbcast_tdFrame h ht, row (by rw [exec_ridx, execRidx]), row (by rw [exec_rperm, execRperm]),
      row (by rw [exec_rroll, execRroll])⟩
  · rw [exec_radd, execRadd, arith, rowCommand, command_running h]
    exact next_congr (if_pos (by simp [he]))
  · have hmem : i ∈ engineCommands f := by
      simp only [List.mem_cons, List.not_mem_nil, or_false] at hi
      rcases hi with rfl | rfl | rfl | rfl | rfl | rfl | rfl | rfl | rfl | rfl <;> simp [engineCommands]
    obtain ⟨k, hk'⟩ := exec_engineCommand f i hmem
    have e : exec i s = .next (s'.faultOp id c v 0 true) := by
      rw [hk', ← hc]
      rw [← hc] at ho hq
      exact command_fails ho hr hu hf hk h0 hq hp hw hx k
    refine ⟨e, fun hrace ⟨q, hor⟩ => ⟨_, e, ?_⟩⟩
    obtain rfl := checkIssue_state hrace hx
    exact faultOp_mem_of_seq ho hor c v 0 true
  · obtain ⟨k, hk⟩ := exec_engineCommand f i hi
    rw [hk, hk]
    exact command_starts ho k hr hu hf hq

end Sys2Proof.Machine
end

section
/-! Proofs. Tile registers (11 R296 to R298): shapes, elements and free rows (O38); and lent slots (07 R165, 11 R299; O39). -/

namespace Sys2Proof.Machine

/-! ### Shapes, elements and free words -/

section
variable {s : State} {t : Field4} (hw : s.here.wf = false)
include hw

theorem setShape_unmapped (h : (s.here.tile t).mapped = false) (w : Word) :
    setShape t w s = s.trap 0x0D (t.setWidth 64) := by
  rw [setShape, atHome_ok hw]
  exact if_pos (by simp [h])

theorem withElement_unmapped (h : (s.here.tile t).mapped = false) (e : Word) (k : Nat → Elem → State → State) :
    withElement t e s k = s.trap 0x0D (t.setWidth 64) := by
  rw [withElement, atHome_ok hw]
  exact if_pos (by simp [h])

variable (h : (s.here.tile t).mapped = true)
include h

theorem setShape_refused {w : Word} (ho : shapeWordOk w = false) : setShape t w s = s.trap 0x0E w := by
  rw [setShape, atHome_ok hw]
  rw [if_neg (by simp [h]), if_pos (by simp [ho])]

theorem setShape_sets {w : Word} (ho : shapeWordOk w = true) :
    setShape t w s = (s.modHere fun c => { c with shapes := c.shapes.setIfInBounds t.toNat w }).finish := by
  rw [setShape, atHome_ok hw]
  rw [if_neg (by simp [h]), if_neg (by simp [ho])]

theorem withElement_finds {el : Elem} {e : Word} (he : elemOf (shapeOf (s.here.shape t)).elem ((s.reg 12).getLsbD 17) = some el)
    (hk : e.toNat < (shapeOf (s.here.shape t)).rows * (shapeOf (s.here.shape t)).cols) (k : Nat → Elem → State → State) :
    withElement t e s k = k (s.tileByte t (e.toNat / (shapeOf (s.here.shape t)).cols)
      (el.bytes * (e.toNat % (shapeOf (s.here.shape t)).cols))) el s := by
  rw [withElement, atHome_ok hw]
  dsimp only
  rw [if_neg (by simp [h]), he]
  exact if_neg (by omega)

theorem withFreeWord_finds {w : Word} (hr : (shapeOf (s.here.shape t)).rows ≤ w.toNat / 8) (hk : w.toNat < 128)
    (k : Nat → State → State) : withFreeWord t w s k = k (s.tileByte t (w.toNat / 8) (8 * (w.toNat % 8))) s := by
  rw [withFreeWord, atHome_ok hw]
  rw [if_neg (by omega), if_neg (by simp [h])]

theorem withFreeWord_refused {w : Word} (hr : w.toNat / 8 < (shapeOf (s.here.shape t)).rows ∨ 128 ≤ w.toNat)
    (k : Nat → State → State) : withFreeWord t w s k = s.trap 0x0E w := by
  rw [withFreeWord, atHome_ok hw]
  exact if_pos (hr.symm.imp id fun x => ⟨h, x⟩)

end

theorem exec_tshape_sets {g : Guard} {s : State} (hg : guardHolds g s = true) (t : Field4) (elem : BitVec 5) (rows : BitVec 4)
    (cols : BitVec 6) : exec (.tshape g t elem rows cols) s =
      .next (setShape t (BitVec.ofNat 64 (elem.toNat + (rows.toNat + 1) * 32 + (cols.toNat + 1) * 1024)) s) := by
  rw [exec_tshape, execTshape, scalar_true hg]
  rfl

/-- Settles O38: a shape is set where it obeys Table 11-6, and an element and a free word are local accesses at their byte. -/
theorem tileRegisterForms : Obligations.TileRegisterForms := by
  unfold Obligations.TileRegisterForms
  intro s g t d a b elem rows cols hg hd hw
  dsimp only
  refine ⟨fun h => ⟨?_, ?_⟩, fun h => ⟨⟨fun ho => ?_, fun ho => ?_⟩, ⟨fun ho => ?_, fun ho => ?_⟩,
    fun el he hk => ⟨fun hu hl => ?_, fun hu hn => ?_⟩, fun hr hk => ⟨fun hu hn => ?_, fun hu hl => ?_⟩, fun hr => ?_⟩⟩
  · exact (exec_tshape_sets hg _ _ _ _).trans (next_congr (setShape_unmapped hw h _))
  · rw [exec_tget, execTget, scalar_true hg, withDest_ok hd, withElement_unmapped hw h]
  · exact (exec_tshape_sets hg _ _ _ _).trans (next_congr (setShape_sets hw h ho))
  · exact (exec_tshape_sets hg _ _ _ _).trans (next_congr (setShape_refused hw h ho))
  · rw [exec_tshapeReg, execTshapeReg, scalar_true hg, setShape_sets hw h ho]
  · rw [exec_tshapeReg, execTshapeReg, scalar_true hg, setShape_refused hw h ho]
  · rw [exec_tget, execTget, scalar_true hg, withDest_ok hd, withElement_finds hw h he hk, localRead, localLoad_full _ _ hl hu]
  · rw [exec_tset, execTset, scalar_true hg, withElement_finds hw h he hk, localWrite, localStore_ok _ _ hu hn]
  · rw [exec_park, execPark, scalar_true hg, withFreeWord_finds hw h hr hk, localWrite, localStore_ok _ _ hu hn]
  · rw [exec_unpark, execUnpark, scalar_true hg, withDest_ok hd, withFreeWord_finds hw h hr hk, localRead,
      localLoad_full _ _ hl hu]
  · rw [exec_park, execPark, scalar_true hg, withFreeWord_refused hw h hr]

/-! ### Lent slots -/

section
variable {s : State} {d n : Field4} (k : Nat → State → State)

theorem withLent_none (h : s.here.lent = none) : withLent d n s k = s.trap 0x04 s.wordVal := by
  rw [withLent, h]

variable (hd : shadowReg d = false)
include hd

theorem withLent_refused (h : s.here.lent ≠ none) (hn : n = 0 ∨ 11 ≤ n.toNat) : withLent d n s k = s.trap 0x02 s.wordVal := by
  obtain ⟨i, hi⟩ := Option.ne_none_iff_exists'.1 h
  rw [withLent, hi]
  dsimp only
  rw [withDest_ok hd, if_pos hn]

theorem withLent_ok {i : Nat} (h : s.here.lent = some i) (h1 : 1 ≤ n.toNat) (h2 : n.toNat ≤ 10) :
    withLent d n s k = k (coreOfThread s.cur * 8 + i) s := by
  rw [withLent, h]
  dsimp only
  rw [withDest_ok hd, if_neg]
  rintro (rfl | h3)
  · exact absurd h1 (by decide)
  · omega

end

theorem OnlyDue.slots {s t : State} (h : OnlyDue s t) : t.slots = s.slots := by rw [h.rest]

theorem OnlyDue.cur {s t : State} (h : OnlyDue s t) : t.cur = s.cur := by rw [h.rest]

theorem freeSlot_slots (s : State) (t : Nat) : (s.freeSlot t).slots = (s.setSlot t {}).slots :=
  ((((((s.setSlot t {}).dropTimers t).wakeIf_due _).trans (State.event_due _ _)).trans (State.event_due _ _)).trans
    (State.event_due _ _)).trans (State.event_due _ _) |>.slots

theorem freeSlot_cur (s : State) (t : Nat) : (s.freeSlot t).cur = s.cur :=
  ((((((s.setSlot t {}).dropTimers t).wakeIf_due _).trans (State.event_due _ _)).trans (State.event_due _ _)).trans
    (State.event_due _ _)).trans (State.event_due _ _) |>.cur

theorem freeSlot_slot_self (s : State) (t : Nat) : (s.freeSlot t).slot t = {} := by
  rw [State.slot, freeSlot_slots]
  exact State.slot_setSlot_self s t {}

theorem freeSlot_slot_ne (s : State) {t u : Nat} (h : u ≠ t) : (s.freeSlot t).slot u = s.slot u := by
  rw [State.slot, freeSlot_slots]
  exact State.slot_setSlot_ne s {} h

theorem execReturnLent_frees {s : State} {g : Guard} {i : Nat} (hg : guardHolds g s = true) (h : s.here.lent = some i)
    (hne : coreOfThread s.cur * 8 + i ≠ s.cur) : ∃ t, exec (.returnLent g) s = .next t ∧ GoesOn s t ∧ t.here.lent = none ∧
      (t.slot (coreOfThread s.cur * 8 + i)).state = .free := by
  have e : exec (.returnLent g) s = .next
      ((s.modHere fun c => { c with lent := none }).freeSlot (coreOfThread s.cur * 8 + i)).finish := by
    rw [exec_returnLent, execReturnLent, scalar_true hg]
    rw [h]
  obtain ⟨u, hu⟩ : ∃ u, u = (s.modHere fun c => { c with lent := none }).freeSlot (coreOfThread s.cur * 8 + i) := ⟨_, rfl⟩
  have hc : u.cur = s.cur := by rw [hu, freeSlot_cur]; rfl
  have hh : u.here = { s.here with lent := none } := by
    rw [State.here, hc, hu, freeSlot_slot_ne _ (Ne.symm hne)]
    simp [State.modHere, State.here]
  have hf : (u.slot (coreOfThread s.cur * 8 + i)).state = .free := by rw [hu, freeSlot_slot_self]
  refine ⟨u.finish, by rw [e, hu], ⟨?_, ?_, ?_⟩, ?_, ?_⟩
  · rw [State.finish_here]
  · rw [State.finish_here, hh]
  · exact hc
  · rw [State.finish_here, hh]
  · rw [State.finish, State.finishOf, State.slot_modSlot_ne _ _ (by rw [hc]; exact hne)]
    exact hf

/-- Settles O39: a slot is lent, read, written and freed by its number in the core. -/
theorem lentSlots : Obligations.LentSlots := by
  unfold Obligations.LentSlots
  intro s g d n b hg hd
  dsimp only
  have hx : exec (.xget g d n) s = .next (withLent d n s fun t s => (s.setReg d (s.regOf t n)).finish) := by
    rw [exec_xget, execXget, scalar_true hg]
  have hp : exec (.xput g n b) s = .next (withLent 0 n s fun t s => (s.setRegOf t n (s.reg b)).finish) := by
    rw [exec_xput, execXput, scalar_true hg]
  refine ⟨fun h => ?_, fun hw hb hl => ⟨fun i hi => ?_, fun hi => ?_⟩, fun h => ⟨?_, ?_, ?_⟩, fun h hn => ⟨?_, ?_⟩,
    fun i h hne => ⟨fun h1 h2 => ⟨?_, ?_⟩, execReturnLent_frees hg h hne⟩⟩
  · rw [exec_borrow, execBorrow, scalar_true hg]
    dsimp only
    rw [if_pos (by simp [h])]
    rfl
  · rw [exec_borrow, execBorrow, scalar_true hg]
    dsimp only
    rw [if_neg (by simp [hb]), if_neg (by simp [hw]), if_neg (by simp [hl]), hi]
  · rw [exec_borrow, execBorrow, scalar_true hg]
    dsimp only
    rw [if_neg (by simp [hb]), if_neg (by simp [hw]), if_neg (by simp [hl]), hi]
  · rw [exec_returnLent, execReturnLent, scalar_true hg]
    rw [h]
  · exact hx.trans (next_congr (withLent_none _ h))
  · exact hp.trans (next_congr (withLent_none _ h))
  · exact hx.trans (next_congr (withLent_refused _ hd h hn))
  · exact hp.trans (next_congr (withLent_refused _ rfl h hn))
  · exact hx.trans (next_congr (withLent_ok _ hd h h1 h2))
  · exact hp.trans (next_congr (withLent_ok _ rfl h h1 h2))

end Sys2Proof.Machine
end

section
/-! Proofs. Readings held by a thread (11 R300, 15 R384): what starting their line reads leaves, and where they wait. -/

namespace Sys2Proof.Machine

theorem raceScalar_off {s : State} {t : Nat} (h : raceMode (s.slot t).race = 0) (target : Target) (a : Word) (kind : Nat)
    (atomic : Bool) (scope : Nat) (w : Bool) : s.raceScalar t target a kind atomic scope w = (s, none) := by
  unfold State.raceScalar
  split
  · dsimp only
    split
    · rfl
    · exact raceAccess_off h _ _ _ _ _ _ _
  · rfl

theorem heldBack_none {s : State} (h : s.accesses = []) (t : Nat) (w : Bool) (pas : List Nat) : s.heldBack t w pas = none :=
  if_pos (by simp [h])

theorem loadHeld_none {s : State} (h : s.accesses = []) (c : Check) (n : Nat) : loadHeld s c n = none := by
  unfold loadHeld
  split
  · cases s.targetByte _ with
    | none => rfl
    | some pa => exact heldBack_none h _ _ _
  · rfl

theorem outr_none {s : State} (h : s.accesses = []) (t : Nat) : s.outr t = 0 := by simp [State.outr, h]

/-! ### What the start of line reads leaves -/

/-- Line reads of reading `sub` have been started, and some at `places` may have failed; no thread, no subscription and no
Granary slot has changed. -/
structure StartsReads (s t : State) (sub : Nat) (places : List Nat) : Prop where
  slots : t.slots = s.slots
  cur : t.cur = s.cur
  subscriptions : t.subscriptions = s.subscriptions
  granary : ∀ n, (t.node n).granary = (s.node n).granary
  accesses : ∀ e ∈ s.accesses, e ∈ t.accesses
  reads : ∀ x ∈ (t.submission sub).reads, x ∈ (s.submission sub).reads ∨ x.at' ∈ places

theorem StartsReads.refl (s : State) (sub : Nat) (l : List Nat) : StartsReads s s sub l :=
  ⟨rfl, rfl, rfl, fun _ => rfl, fun _ h => h, fun _ h => .inl h⟩

theorem StartsReads.trans {s t u : State} {sub : Nat} {l m : List Nat} (h : StartsReads s t sub l) (h' : StartsReads t u sub m) :
    StartsReads s u sub (l ++ m) := by
  refine ⟨h'.slots.trans h.slots, h'.cur.trans h.cur, h'.subscriptions.trans h.subscriptions,
    fun n => (h'.granary n).trans (h.granary n), fun e he => h'.accesses e (h.accesses e he), fun x hx => ?_⟩
  rcases h'.reads x hx with h1 | h1
  · exact (h.reads x h1).imp_right fun h2 => List.mem_append_left _ h2
  · exact .inr (List.mem_append_right _ h1)

theorem StartsReads.here {s t : State} {sub : Nat} {l : List Nat} (h : StartsReads s t sub l) : t.here = s.here := by
  rw [State.here, State.slot, h.slots, h.cur]
  rfl

theorem missed_starts (s : State) (n k sub : Nat) : StartsReads s (s.missed n k) sub [] := by
  unfold State.missed
  split
  · exact .refl s _ _
  · refine ⟨rfl, rfl, rfl, fun c => ?_, fun _ h => h, fun _ h => .inl h⟩
    by_cases h : c = n <;> simp [State.node, State.modNode, State.event, State.push, h]

theorem touch_starts (s : State) (t : Nat) (a : Word) (sub : Nat) : StartsReads s (s.touch t a) sub [] := by
  have hc (s : State) (c p o f : Nat) : StartsReads s (s.countExtent c p o f) sub [] := by
    unfold State.countExtent
    dsimp only
    split
    · exact ⟨rfl, rfl, rfl, fun _ => rfl, fun _ h => h, fun _ h => .inl h⟩
    · exact .refl s _ _
  have hk (s : State) (c : Nat) (f : Core → Core) : StartsReads s (s.modCore c f) sub [] :=
    ⟨rfl, rfl, rfl, fun _ => rfl, fun _ h => h, fun _ h => .inl h⟩
  unfold State.touch
  split
  · exact .refl s _ _
  · dsimp only
    refine StartsReads.trans (l := []) ?_ (missed_starts _ _ _ _)
    split
    · exact hc _ _ _ _ _
    · exact (hc _ _ _ _ _).trans ((hk _ _ _).trans (missed_starts _ _ _ _))

theorem request_starts (s : State) (a : Access) (sub : Nat) : StartsReads s (s.request a).2 sub [] := by
  refine ⟨rfl, rfl, rfl, fun c => ?_, fun e h => List.mem_append_left _ h, fun _ h => .inl h⟩
  by_cases h : c = a.src <;>
    simp [State.request, State.addAccess, State.nextSeq, State.fresh, State.send, State.event, State.push, State.armRetry,
      State.timer, State.node, State.modNode, h]

theorem landRead_starts (s : State) (sub : Nat) (r : LineRead) : StartsReads s (s.landRead sub r) sub [r.at'] := by
  refine ⟨rfl, rfl, rfl, fun _ => rfl, fun _ h => h, fun x hx => ?_⟩
  have hx : x ∈ (s.submission sub).reads ++ [r] := by
    simpa [State.landRead, State.setSubmission, State.submission] using hx
  simpa using (List.mem_append.1 hx).imp_right fun h => by rw [List.mem_singleton.1 h]

theorem startLine_starts {s : State} (hr : raceMode s.here.race = 0) (sub : Nat) (base : Word) (p : Piece) :
    StartsReads s (s.startLine sub base p).1 sub [p.place] := by
  unfold State.startLine
  dsimp only
  generalize (if isPlace (base + BitVec.ofNat 64 p.dist) = true then (_ : Check) else _) = c
  cases c with
  | trap c v => exact landRead_starts _ _ _
  | drop => exact landRead_starts _ _ _
  | moving => exact .refl s _ _
  | ok t =>
    dsimp only
    split
    · exact .refl s _ _
    · rw [raceScalar_off hr]
      obtain ⟨h1, h2, h3, h4, h5, h6⟩ := (touch_starts s s.cur _ sub).trans (request_starts _ _ sub)
      exact ⟨h1, h2, h3, h4, h5, fun x hx => (h6 x hx).imp_right (by simp)⟩

theorem startLines_starts {s : State} (hr : raceMode s.here.race = 0) (sub : Nat) (base : Word) (ps : List Piece) :
    StartsReads s (s.startLines sub base ps) sub (ps.map (·.place)) := by
  induction ps generalizing s with
  | nil => exact .refl s _ _
  | cons p r ih =>
    have h1 := startLine_starts hr sub base p
    rw [State.startLines]
    split
    · exact (StartsReads.refl s sub [p.place]).trans (ih hr)
    · obtain ⟨⟨u, b⟩, hu⟩ : ∃ x, x = s.startLine sub base p := ⟨_, rfl⟩
      rw [← hu] at h1 ⊢
      cases b with
      | true => exact h1.trans (ih (by rw [h1.here]; exact hr))
      | false => exact h1.trans (.refl u _ _)

/-! ### A reading whose first line is on its way -/

theorem piecesFrom_from (a b n fuel i : Nat) : ∀ e ∈ piecesFrom a b n fuel i, i ≤ e.1 := by
  induction fuel generalizing i with
  | zero => simp [piecesFrom]
  | succ m ih =>
    rw [piecesFrom]
    split
    · simp
    · dsimp only
      intro e he
      rcases List.mem_cons.1 he with rfl | he
      · exact le_refl _
      · exact le_trans (Nat.le_add_right _ _) (ih _ e he)

/-- The first line of a range starts at its first byte, and no other does. -/
theorem linePieces_cons (a : Word) {n : Nat} (hn : 0 < n) :
    ∃ k r, linePieces a n = ⟨0, 0, k⟩ :: r ∧ k ≤ n ∧ ∀ p ∈ r, p.place ≠ 0 := by
  have hp : 0 < Nat.min (n - 0) (Nat.min (128 - (a.toNat % 128 + 0) % 128) (128 - (a.toNat % 128 + 0) % 128)) := by
    simp only [Nat.lt_min, Nat.min_self]
    omega
  rw [linePieces, pieces, piecesFrom, if_neg (by omega)]
  refine ⟨_, _, rfl, Nat.min_le_left _ _, fun p h => ?_⟩
  obtain ⟨e, he, rfl⟩ := List.mem_map.1 h
  have := piecesFrom_from _ _ _ _ _ e he
  exact Nat.ne_of_gt (lt_of_lt_of_le (by simpa using hp) this)

theorem checkEntry_shorter {e : ObjEntry} {obj off n m right : Nat} {user : Bool} (h : checkEntry e obj off n right user = none)
    (hm : m ≤ n) : checkEntry e obj off m right user = none := by
  rw [checkEntry] at h ⊢
  split at h
  · cases h
  · next h0 => rw [if_neg]; exact h; simp only [Bool.or_eq_true, decide_eq_true_eq] at h0 ⊢; omega

/-- A read of the current thread at an address passes the checks that are made as it starts: any place does (its own were made
before), and a handle the checks of Table 2-9. -/
def ReadPasses (s : State) (a : Word) (n : Nat) : Prop :=
  isPlace a = true ∨ (isPlace a = false ∧
    checkEntry (s.obj (chipOfThread s.cur) s.here.parish (handleObj a)) (handleObj a) (handleOff a) n rR (!s.here.pl) = none ∧
    ∃ t, s.checkResidency (chipOfThread s.cur) s.here.parish (handleObj a) (handleOff a) a false = .ok t)

/-- A reading whose first line is free to start waits: its first line is then on its way. -/
theorem readHeld_waits {s : State} {a : Word} {n sub : Nat} (hp : ReadPasses s a n) (hn : 0 < n) (hr : raceMode s.here.race = 0)
    (ha : s.accesses = []) (hs : (s.submission sub).reads = []) :
    ∃ u l, (∀ trap k, readHeld a n sub s trap k = u.park (.launch sub)) ∧ StartsReads s u sub l ∧
      ∃ e ∈ u.accesses, e.2.reader = .launch sub ∧ e.2.addr = a := by
  obtain ⟨m, r, hl, hm, hne⟩ := linePieces_cons a hn
  obtain ⟨t, ht⟩ : ∃ t, s.startLine sub a ⟨0, 0, m⟩ = (((s.touch s.cur a).request { s.newAccess s.cur (.load m) t a false with
      reader := .launch sub, dest := 0 }).2, true) := by
    have h0 : a + BitVec.ofNat 64 0 = a := by simp
    unfold State.startLine
    dsimp only
    rw [h0]
    rcases hp with hp | ⟨hp, he, t, hc⟩
    · refine ⟨.byte (placeByte (chipOfThread s.cur) a), ?_⟩
      rw [if_pos hp]
      dsimp only
      rw [if_neg (by simp [loadHeld_none ha, outr_none ha, Config.requestWindow]), raceScalar_off hr]
    · refine ⟨t, ?_⟩
      rw [if_neg (by simp [hp]), checkEntry_shorter he hm, hc]
      dsimp only
      rw [if_neg (by simp [loadHeld_none ha, outr_none ha, Config.requestWindow]), raceScalar_off hr]
  obtain ⟨w, hw⟩ : ∃ w, w = ((s.touch s.cur a).request { s.newAccess s.cur (.load m) t a false with
      reader := .launch sub, dest := 0 }).2 := ⟨_, rfl⟩
  have h1 : StartsReads s w sub [] := hw ▸ (touch_starts s s.cur a sub).trans (request_starts _ _ sub)
  have h2 := startLines_starts (s := w) (by rw [h1.here]; exact hr) sub a r
  have hlines : s.startLines sub a (linePieces a n) = w.startLines sub a r := by
    rw [hl, State.startLines, if_neg (by simp [hs, ha]), ht, hw]
  have hnone : takeReads ((w.startLines sub a r).submission sub).reads (linePieces a n) [] = .wait := by
    rw [hl, takeReads, List.find?_eq_none.2]
    intro x hx
    rcases (h1.trans h2).reads x hx with h | h
    · simp [hs] at h
    · obtain ⟨p, hp, e⟩ := List.mem_map.1 (by simpa using h)
      simpa [← e] using hne p hp
  refine ⟨w.startLines sub a r, _, ?_, h1.trans h2, (s.nextId, sentAs s { s.newAccess s.cur (.load m) t a false with
      reader := .launch sub, dest := 0 }), h2.accesses _ ?_, rfl, rfl⟩
  · intro trap k
    rw [readHeld]
    rw [hlines, hnone]
  · rw [hw, (State.request_requested (State.touch_touched s s.cur a) _).access]
    exact List.mem_append_right _ (List.mem_singleton_self _)

/-- A reading all of whose lines have come goes on with their bytes. -/
theorem readHeld_comes {s : State} {a : Word} {n sub : Nat} {l : List Byte}
    (h : takeReads (s.submission sub).reads (linePieces a n) [] = .bytes l) (trap : State → Nat → Word → State)
    (k : List Byte → State → State) : readHeld a n sub s trap k = k l s := by
  have hs (ps : List Piece) (acc : List Byte) (h : takeReads (s.submission sub).reads ps acc = .bytes l) :
      s.startLines sub a ps = s := by
    induction ps generalizing acc with
    | nil => rfl
    | cons p r ih =>
      rw [takeReads] at h
      split at h
      · cases h
      · next hf =>
        have hm := List.find?_some hf
        rw [State.startLines, if_pos, ih _ h]
        rw [Bool.or_eq_true]
        exact .inl (List.any_eq_true.2 ⟨_, List.mem_of_find?_eq_some hf, hm⟩)
      · cases h
  rw [readHeld]
  rw [hs _ _ h, h]

end Sys2Proof.Machine
end

section
/-! Proofs. LAUNCH, TRIGGER and HALT (10 R260, 11 R300 and R301; O40). -/

namespace Sys2Proof.Machine

/-! ### The wait of a release -/

section
variable {s : State} (k : State → State)

theorem withRelease_waits (h : s.released s.cur = false) : withRelease s k = s.park .release := by
  rw [withRelease, if_pos (by simp [h])]

variable (h : s.released s.cur = true)
include h

theorem withRelease_unreachable {x : Word} (hu : s.here.unreachable = some x) : withRelease s k = s.trap 0x17 x := by
  rw [withRelease, if_neg (by simp [h]), hu]

variable (hu : s.here.unreachable = none)
include hu

theorem withRelease_lost {x : Word} (hl : s.here.linkLost = some x) :
    withRelease s k = (s.modHere fun c => { c with linkLost := none }).trap 0x12 x := by
  rw [withRelease, if_neg (by simp [h]), hu, hl]

theorem withRelease_fails (hl : s.here.linkLost = none) {c : Nat} {x : Word} (he : s.here.writeError = some (c, x)) :
    withRelease s k = (s.modHere fun c => { c with writeError := none }).trap c x := by
  rw [withRelease, if_neg (by simp [h]), hu, hl, he]

end

theorem withRelease_clear {s : State} (h : Releases s) (k : State → State) : withRelease s k = k s :=
  withRelease_ok h.released h.reachable h.kept h.sound k

/-! ### Members of a task -/

theorem getElem?_listSet {α : Type} {l : List α} {i : Nat} (h : i < l.length) (v : α) : (listSet l i v)[i]? = some v := by
  induction l generalizing i with
  | nil => simp at h
  | cons a r ih =>
    cases i with
    | zero => rfl
    | succ j => simpa [listSet] using ih (by simpa using h)

/-- What a task's end makes of the machine elsewhere: threads stand as they did, and every task has its members. -/
structure KeepsMembers (s t : State) : Prop where
  slots : t.slots = s.slots
  cur : t.cur = s.cur
  members : ∀ k, (t.task k).members = (s.task k).members

theorem KeepsMembers.refl (s : State) : KeepsMembers s s := ⟨rfl, rfl, fun _ => rfl⟩

theorem KeepsMembers.trans {s t u : State} (h : KeepsMembers s t) (h' : KeepsMembers t u) : KeepsMembers s u :=
  ⟨h'.slots.trans h.slots, h'.cur.trans h.cur, fun k => (h'.members k).trans (h.members k)⟩

theorem KeepsMembers.foldl {α : Type} {f : State → α → State} (h : ∀ s a, KeepsMembers s (f s a)) (l : List α) (s : State) :
    KeepsMembers s (l.foldl f s) := by
  induction l generalizing s with
  | nil => exact .refl s
  | cons a r ih => exact (h s a).trans (ih _)

theorem OnlyDue.keepsMembers {s t : State} (h : OnlyDue s t) : KeepsMembers s t := by
  refine ⟨h.slots, h.cur, fun k => ?_⟩
  rw [h.rest]
  rfl

theorem KeepsMembers.here {s t : State} (h : KeepsMembers s t) : t.here = s.here := by
  rw [State.here, State.slot, h.slots, h.cur]
  rfl

theorem KeepsMembers.slot {s t : State} (h : KeepsMembers s t) (j : Nat) : t.slot j = s.slot j := by
  rw [State.slot, h.slots]
  rfl

theorem keepsMembers_modTask (s : State) (k : Nat) {f : Task → Task} (h : ∀ t, (f t).members = t.members) :
    KeepsMembers s (s.modTask k f) := by
  refine ⟨rfl, rfl, fun j => ?_⟩
  by_cases hj : j = k
  · subst hj
    simpa [State.task, State.modTask] using h (s.task j)
  · simp [State.task, State.modTask, hj]

theorem releaseDependants_keeps (s : State) (k : Nat) (b : Bool) : KeepsMembers s (s.releaseDependants k b) := by
  unfold State.releaseDependants
  refine KeepsMembers.foldl (fun s d => ?_) _ _
  exact ⟨rfl, rfl, fun _ => rfl⟩

theorem leaveOps_keeps (s : State) (c : Slot) (p : EngOp → Bool) : KeepsMembers s (s.leaveOps c p) := by
  unfold State.leaveOps
  dsimp only
  split
  · exact .refl s
  · refine KeepsMembers.trans (t := _) ?_ (KeepsMembers.foldl (fun s e => ?_) _ _)
    · exact ⟨rfl, rfl, fun _ => rfl⟩
    · split
      · exact ⟨rfl, rfl, fun _ => rfl⟩
      · exact .refl s

theorem dropUnreleased_keeps (s : State) (k : Nat) : KeepsMembers s (s.dropUnreleased k) := by
  unfold State.dropUnreleased
  dsimp only
  split
  · exact keepsMembers_modTask s k fun _ => rfl
  · exact .refl s

/-- A member that triggers is marked, and no thread changes. -/
theorem memberTriggers_marks {s : State} {k i : Nat} {m : Member} (h : (s.task k).members[i]? = some m) (st : Stamp) :
    (s.memberTriggers k i st).slots = s.slots ∧ (s.memberTriggers k i st).cur = s.cur ∧
      ((s.memberTriggers k i st).task k).members[i]? = some { m with triggered := true } := by
  have hlt : i < (s.task k).members.length := (List.getElem?_eq_some_iff.1 h).1
  rw [State.memberTriggers]
  dsimp only
  rw [h]
  dsimp only
  split
  · next ht => exact ⟨rfl, rfl, by rw [h, ← ht]⟩
  · have hm (x : Task) (hx : x.members = listSet (s.task k).members i { m with triggered := true }) :
        ((s.modTask k fun _ => x).task k).members[i]? = some { m with triggered := true } := by
      rw [State.task, State.modTask]
      dsimp only
      rw [AMap.get_set_self, hx]
      exact getElem?_listSet hlt _
    split
    · refine ⟨(releaseDependants_keeps _ _ _).slots, (releaseDependants_keeps _ _ _).cur, ?_⟩
      rw [(releaseDependants_keeps _ _ _).members]
      exact hm _ rfl
    · exact ⟨rfl, rfl, hm _ rfl⟩

/-! ### Slots that become free -/

/-- Slots that were free stay free. -/
def KeepsFree (s t : State) : Prop := ∀ u, (s.slot u).state = .free → (t.slot u).state = .free

theorem freeSlot_keeps (s : State) (t : Nat) : KeepsFree s (s.freeSlot t) := by
  intro u h
  by_cases hu : u = t
  · rw [hu, freeSlot_slot_self]
  · rwa [freeSlot_slot_ne s hu]

theorem freeSlot_tasks (s : State) (t : Nat) : (s.freeSlot t).tasks = s.tasks := by
  have h := (((((((s.setSlot t {}).dropTimers t).wakeIf_due fun u c => parkedOn .borrow c && coreOfThread u == coreOfThread t).trans
    (State.event_due _ (.wayfarerStart (coreOfThread t)))).trans (State.event_due _ (.resumption (nodeOfThread t) 0))).trans
    (State.event_due _ (.dispatch (nodeOfThread t)))).trans (State.event_due _ (.admission (nodeOfThread t))))
  exact (congrArg State.tasks h.rest :)

/-- A slot becomes free with the slot lent to it. -/
theorem freeBoth_frees (s : State) (t : Nat) : KeepsFree s (s.freeBoth t) ∧ (s.freeBoth t).tasks = s.tasks ∧
    ((s.freeBoth t).slot t).state = .free ∧
    ∀ i, (s.slot t).lent = some i → ((s.freeBoth t).slot (coreOfThread t * 8 + i)).state = .free := by
  unfold State.freeBoth
  split
  · next i h =>
    refine ⟨fun u hu => freeSlot_keeps _ _ u (freeSlot_keeps _ _ u hu), by rw [freeSlot_tasks, freeSlot_tasks],
      by rw [freeSlot_slot_self], fun j hj => ?_⟩
    cases h.symm.trans hj
    exact freeSlot_keeps _ _ _ (by rw [freeSlot_slot_self])
  · next h => exact ⟨freeSlot_keeps s t, freeSlot_tasks s t, by rw [freeSlot_slot_self], fun i hi => nomatch h.symm.trans hi⟩

/-- What a HALT gives up of a wayfarer's home slot. -/
def freeHome (s : State) (t : Nat) : Option Nat → State
  | some h =>
      let s := s.modCore (coreOfThread t) fun k =>
        { k with arrivals := k.arrivals.filter fun a => decide (a ≠ Arrival.running (slotOfThread t)) }
      let s := s.wakeIf fun _ c => parkedOn .arrival c
      s.leaveOps (s.slot h) (fun o => o.thread == h && o.saved == 0) |>.freeBoth h
  | none => s

theorem freeHome_frees (s : State) (t : Nat) (o : Option Nat) : KeepsFree s (freeHome s t o) ∧
    (∀ k, ((freeHome s t o).task k).members = (s.task k).members) ∧
    ∀ h, o = some h → ((freeHome s t o).slot h).state = .free ∧
      ∀ i, (s.slot h).lent = some i → ((freeHome s t o).slot (coreOfThread h * 8 + i)).state = .free := by
  cases o with
  | none => exact ⟨fun _ h => h, fun _ => rfl, fun h hh => nomatch hh⟩
  | some h =>
    obtain ⟨u, hu⟩ : ∃ u, u = (s.modCore (coreOfThread t) fun k =>
        { k with arrivals := k.arrivals.filter fun a => decide (a ≠ Arrival.running (slotOfThread t)) }).wakeIf
        fun _ c => parkedOn .arrival c := ⟨_, rfl⟩
    have hk : KeepsMembers s u := hu ▸ KeepsMembers.trans (t := s.modCore _ _) ⟨rfl, rfl, fun _ => rfl⟩
      (State.wakeIf_due _ _).keepsMembers
    have hl := hk.trans (leaveOps_keeps u (u.slot h) fun o => o.thread == h && o.saved == 0)
    have hs (j : Nat) : (u.leaveOps (u.slot h) fun o => o.thread == h && o.saved == 0).slot j = s.slot j := hl.slot j
    obtain ⟨h1, h2, h3, h4⟩ := freeBoth_frees (u.leaveOps (u.slot h) fun o => o.thread == h && o.saved == 0) h
    have e : freeHome s t (some h) = (u.leaveOps (u.slot h) fun o => o.thread == h && o.saved == 0).freeBoth h := by
      rw [hu]
      rfl
    rw [e]
    refine ⟨fun j hj => h1 j (by rw [hs]; exact hj), fun k => ?_, fun j hj => ?_⟩
    · rw [State.task, h2]
      exact hl.members k
    · cases hj
      exact ⟨h3, fun i hi => h4 i (by rw [hs]; exact hi)⟩

/-- The slots that a HALT frees, before its member ends. -/
def haltFrees (s : State) : State :=
  (freeHome (s.leaveOps s.here fun o => o.thread == s.cur && o.saved == 0) s.cur s.here.home).freeBoth s.cur

theorem setMember_sets {s : State} {k i : Nat} {m : Member} (h : (s.task k).members[i]? = some m) (st : MemberState) :
    (s.setMember k i st).slots = s.slots ∧ ((s.setMember k i st).task k).members[i]? = some { m with state := st } := by
  refine ⟨rfl, ?_⟩
  rw [State.setMember, State.task, State.modTask]
  dsimp only
  rw [AMap.get_set_self, h]
  exact getElem?_listSet (List.getElem?_eq_some_iff.1 h).1 _

theorem exec_halt_ends {s : State} {g : Guard} (hg : guardHolds g s = true) (hc : Releases s) :
    ∃ f : Task → Task, (∀ t, (f t).members = t.members) ∧ exec (.halt g) s = .next
      ((((((haltFrees s).setMember s.here.task s.here.member .halted).memberTriggers s.here.task s.here.member
        (s.stampOf s.cur)).modTask s.here.task f).dropUnreleased s.here.task).pokeTask s.here.task) := by
  refine ⟨fun t => { t with releases := if (s.stampOf s.cur).valid then t.releases ++ [s.stampOf s.cur] else t.releases },
    fun _ => rfl, ?_⟩
  rw [exec_halt, execHalt, scalar_true hg, withRelease_clear hc]
  dsimp only
  rw [haltFrees]
  cases s.here.home <;> rfl

theorem exec_halt_frees {s : State} {g : Guard} {m : Member} (hg : guardHolds g s = true) (hc : Releases s)
    (hm : (s.task s.here.task).members[s.here.member]? = some m) :
    ∃ t, exec (.halt g) s = .next t ∧ (t.slot s.cur).state = .free ∧
      (s.here.home = none → ∀ i, s.here.lent = some i → (t.slot (coreOfThread s.cur * 8 + i)).state = .free) ∧
      (∀ k, s.here.home = some k → (t.slot k).state = .free ∧
        ∀ i, (s.slot k).lent = some i → (t.slot (coreOfThread k * 8 + i)).state = .free) ∧
      ((t.task s.here.task).members[s.here.member]?).map (·.state) = some .halted ∧
      ((t.task s.here.task).members[s.here.member]?).map (·.triggered) = some true := by
  obtain ⟨f, hf, e⟩ := exec_halt_ends hg hc
  have hk := leaveOps_keeps s s.here fun o => o.thread == s.cur && o.saved == 0
  obtain ⟨u, hu⟩ : ∃ u, u = s.leaveOps s.here fun o => o.thread == s.cur && o.saved == 0 := ⟨_, rfl⟩
  rw [← hu] at hk
  have hs (j : Nat) : u.slot j = s.slot j := hk.slot j
  obtain ⟨h1, h2, h3⟩ := freeHome_frees u s.cur s.here.home
  obtain ⟨g1, g2, g3, g4⟩ := freeBoth_frees (freeHome u s.cur s.here.home) s.cur
  have hv : haltFrees s = (freeHome u s.cur s.here.home).freeBoth s.cur := by rw [hu]; rfl
  rw [← hv] at g1 g2 g3 g4
  have hm' : ((haltFrees s).task s.here.task).members[s.here.member]? = some m := by
    rw [State.task, g2]
    exact (congrArg (·[s.here.member]?) ((h2 _).trans (hk.members _))).trans hm
  obtain ⟨a1, a2⟩ := setMember_sets hm' .halted
  obtain ⟨b1, -, b3⟩ := memberTriggers_marks a2 (s.stampOf s.cur)
  have hl := ((keepsMembers_modTask (((haltFrees s).setMember s.here.task s.here.member .halted).memberTriggers s.here.task
    s.here.member (s.stampOf s.cur)) s.here.task hf).trans (dropUnreleased_keeps _ s.here.task)).trans
    (State.pokeTask_due _ s.here.task).keepsMembers
  refine ⟨_, e, ?_⟩
  have hslot (j : Nat) (h : ((haltFrees s).slot j).state = .free) := (congrArg (fun l => (AMap.get {} l j).state)
    (hl.slots.trans (b1.trans a1))).trans h
  refine ⟨hslot _ g3, fun hn i hi => hslot _ (g4 i ?_), fun k hh => ?_, ?_, ?_⟩
  · rw [hn]
    exact (congrArg Slot.lent (hs _)).trans hi
  · obtain ⟨c1, c2⟩ := h3 k hh
    exact ⟨hslot _ (g1 _ c1), fun i hi => hslot _ (g1 _ (c2 i (by rw [hs]; exact hi)))⟩
  · rw [hl.members, b3]
    rfl
  · rw [hl.members, b3]
    rfl

/-! ### LAUNCH -/

theorem exec_launch_reads {s : State} {g : Guard} {d a b : Field4} {target : Target} (hg : guardHolds g s = true)
    (hd : shadowReg d = false) (hn : s.here.state.reading? = none) (hh : isPlace (s.reg b) = true)
    (hc : s.checkPlace (chipOfThread s.cur) s.here.parish (s.reg b &&& ~~~(0xFFFF : Word)) 1 true = none)
    (ht : s.checkScalar s.cur (s.reg a) 512 8 rR false = .ok target) (hp : isPlace (s.reg a) = true)
    (hr : raceMode s.here.race = 0) (hs : s.submission s.nextId = {}) (ha : s.accesses = []) :
    ∃ t e, exec (.launch g d a b) s = .next t ∧ t.here.state = .parked (.launch s.nextId) ∧ t.here.pc = s.here.pc ∧
      e ∈ t.accesses ∧ e.2.reader = .launch s.nextId ∧ e.2.addr = s.reg a := by
  obtain ⟨u, l, hu, hst, e, he, h1, h2⟩ := readHeld_waits (s := s.fresh.2) (a := s.reg a) (n := 512) (sub := s.nextId) (.inl hp)
    (by decide) hr ha (congrArg Submission.reads hs :)
  refine ⟨u.park (.launch s.nextId), e, ?_, by rw [State.here_park], ?_, he, h1, h2⟩
  · rw [exec_launch, execLaunch, scalar_true hg, withDest_ok hd]
    dsimp only
    rw [hn]
    dsimp only
    rw [if_neg (by simp [hh]), hc]
    dsimp only
    rw [ht]
    exact next_congr (hu _ _)
  · rw [State.here_park]
    exact (congrArg Slot.pc hst.here :)

section
variable {s : State} {g : Guard} {d a b : Field4} (hg : guardHolds g s = true) (hd : shadowReg d = false) {k : Nat}
  {l : List Byte} (hk : s.here.state = .parked (.launch k))
  (hl : takeReads (s.submission k).reads (linePieces (s.reg a) 512) [] = .bytes l)
include hg hd hk hl

theorem exec_launch_held (h : s.released s.cur = false) : exec (.launch g d a b) s = .next (s.park (.launch k)) := by
  rw [exec_launch, execLaunch, scalar_true hg, withDest_ok hd]
  dsimp only
  rw [hk]
  dsimp only [SlotState.reading?]
  rw [launchWith, readHeld_comes hl, if_pos (by simp [h])]

theorem exec_launch_submits (h : Releases s) :
    ∃ t v, exec (.launch g d a b) s = .next t ∧ t.here.state = .parked (.board k) ∧ t.submission k = v ∧
      v.words = wordsOf 64 l ∧ v.record = s.reg a ∧ v.home = s.reg b &&& ~~~(0xFFFF : Word) ∧ v.thread = some s.cur ∧
      v.dest = d.toNat ∧ v.supervisor = s.here.pl ∧ t.pending = s.pending ++ [.event (.submission k)] := by
  have e : exec (.launch g d a b) s = .next (launchWith d (s.reg a) (s.reg b &&& ~~~(0xFFFF : Word)) k s) := by
    rw [exec_launch, execLaunch, scalar_true hg, withDest_ok hd]
    dsimp only
    rw [hk]
    rfl
  rw [launchWith, readHeld_comes hl, if_neg (by simp [h.released]), withRelease_clear h] at e
  refine ⟨_, _, e, ?_, AMap.get_set_self _ _ _ _, rfl, rfl, rfl, rfl, rfl, rfl, rfl⟩
  exact congrArg Slot.state (State.here_park _ _)

end

/-- Settles O40: what a release waits for comes first; then slots are freed, members marked and records read. -/
theorem taskForms : Obligations.TaskForms := by
  unfold Obligations.TaskForms
  intro s g d a b hg hd
  dsimp only
  have hh : exec (.halt g) s = execHalt g s := exec_halt g s
  have ht : exec (.trigger g) s = execTrigger g s := exec_trigger g s
  refine ⟨fun h => ⟨?_, ?_⟩, fun x h hu => ?_, fun x h hu hl => ?_, fun k x h hu hl he => ?_,
    fun hc m hm => ⟨?_, exec_halt_frees hg hc hm⟩, fun hn hp => ?_, fun hn hp hc => ⟨fun k x hk => ?_,
    fun target htg ha hr hs hacc => exec_launch_reads hg hd hn hp hc htg ha hr hs hacc⟩,
    fun k l hk hl => ⟨exec_launch_held hg hd hk hl, exec_launch_submits hg hd hk hl⟩⟩
  · rw [hh, execHalt, scalar_true hg, withRelease_waits _ h]
  · rw [ht, execTrigger, scalar_true hg, withRelease_waits _ h]
  · rw [hh, execHalt, scalar_true hg, withRelease_unreachable _ h hu]
  · rw [hh, execHalt, scalar_true hg, withRelease_lost _ h hu hl]
  · rw [hh, execHalt, scalar_true hg, withRelease_fails _ h hu hl he]
  · obtain ⟨h1, h2, h3⟩ := memberTriggers_marks hm (s.stampOf s.cur)
    have e : exec (.trigger g) s = .next (s.memberTriggers s.here.task s.here.member (s.stampOf s.cur)).finish := by
      rw [ht, execTrigger, scalar_true hg, withRelease_clear hc]
    refine ⟨_, e, finish_goesOn (by rw [State.here, State.slot, h1, h2]; rfl) h2, ?_⟩
    exact (congrArg (Option.map (·.triggered)) h3 :)
  · rw [exec_launch, execLaunch, scalar_true hg, withDest_ok hd]
    dsimp only
    rw [hn]
    exact next_congr (if_pos (by simp [hp]))
  · rw [exec_launch, execLaunch, scalar_true hg, withDest_ok hd]
    dsimp only
    rw [hn]
    dsimp only
    rw [if_neg (by simp [hp]), hc]
    dsimp only
    rw [hk]

end Sys2Proof.Machine
end

section
/-! Proofs. KVSUB, KVUNSUB, PASS and POST (11 R303 and R304, 15 R385 and R387; O41). -/

namespace Sys2Proof.Machine

/-- A key that does not read as an unlisted one is found in the list. -/
theorem find?_of_get {α : Type} {d v : α} {m : AMap α} {k : Nat} (h : AMap.get d m k = v) (hv : v ≠ d) :
    (m.find? (·.1 == k)).map (·.2) = some v := by
  induction m with
  | nil => exact absurd h.symm hv
  | cons e r ih =>
    rw [AMap.get] at h
    split at h
    · next he => simpa [List.find?, he] using h
    · next he =>
      rw [List.find?_cons_of_neg (by simpa using he)]
      exact ih h

/-! ### Roll words and descriptors -/

section
variable {s : State} {t : Nat} {w : Word}

theorem rollFail_reserved (h : w.extractLsb' 11 53 ≠ 0) : s.rollFail t w = some (0x07, w) := if_pos h

end

section
variable {s : State} {w : Word} {k : Nat} {l : List Byte} {q : RollDesc} (hs : s.here.state = .parked (.launch k))
  (hl : takeReads (s.submission k).reads (linePieces (s.descriptorAt s.here.parish w) 64) [] = .bytes l)
  (hq : rollDesc (wordsOf 8 l) = some q)
include hs hl hq

theorem withDescriptor_comes (trap : State → Nat → Word → State) (f : RollDesc → State → State) :
    withDescriptor w k s trap f = f q (s.endReads k) := by
  rw [withDescriptor]
  rw [hs]
  exact (readHeld_comes hl _ _).trans (by rw [hq])

end

/-! ### KVSUB and KVUNSUB -/

section
variable {s : State} {g : Guard} {d a b t : Field4} (hg : guardHolds g s = true) (hd : shadowReg d = false)
  (hw : s.here.wf = false)
include hg hd hw

theorem exec_kvsub_registers {k : Nat} {l : List Byte} {q : RollDesc} (hs : s.here.state = .parked (.launch k))
    (hl : takeReads (s.submission k).reads (linePieces (s.descriptorAt s.here.parish (s.reg a)) 64) [] = .bytes l)
    (hq : rollDesc (wordsOf 8 l) = some q) :
    ∃ u, exec (.kvsub g d a b t) s = .next u ∧ u.here.state = .parked (.carillon k) ∧
      (u.subscription k).npages = q.npages ∧ (u.subscription k).hd = q.hd ∧
      u.pending = s.pending ++ [.event (.subscriptionRegistration k)] := by
  have e : exec (.kvsub g d a b t) s = .next (subscribeWith (s.reg a) k s) := by
    rw [exec_kvsub, execKvsub, scalar_true hg, withDest_ok hd, atHome_ok hw]
    dsimp only
    rw [hs]
    rfl
  rw [subscribeWith, withDescriptor_comes hs hl hq] at e
  refine ⟨_, e, congrArg Slot.state (State.here_park _ _), ?_, ?_, rfl⟩
  · exact congrArg Subscription.npages (AMap.get_set_self _ _ _ _)
  · exact congrArg Subscription.hd (AMap.get_set_self _ _ _ _)

variable (hn : s.here.state.reading? = none)
include hn

theorem exec_kvsub_reserved (h : (s.reg a).extractLsb' 11 53 ≠ 0) :
    exec (.kvsub g d a b t) s = .next (s.trap 0x07 (s.reg a)) := by
  rw [exec_kvsub, execKvsub, scalar_true hg, withDest_ok hd, atHome_ok hw]
  dsimp only
  rw [hn, rollFail_reserved h]

variable (hr : s.rollFail s.cur (s.reg a) = none) (h48 : (s.reg b).extractLsb' 48 16 = 0)
  (h32 : (s.reg b).extractLsb' 32 16 ≠ 0) (hm : (s.here.tile t).mapped = true)
include hr h48 h32 hm

theorem exec_kvsub_full (h : freeGranary (s.node (nodeOfThread s.cur)) = none) :
    exec (.kvsub g d a b t) s = .next (s.park .granary) := by
  rw [exec_kvsub, execKvsub, scalar_true hg, withDest_ok hd, atHome_ok hw]
  dsimp only
  rw [hn, hr]
  dsimp only
  rw [if_neg (not_or.2 ⟨not_not.2 h48, h32⟩), if_neg (by simp [hm]), h]

theorem exec_kvsub_reads {i : Nat} {target : Target} (h : freeGranary (s.node (nodeOfThread s.cur)) = some i)
    (hp : isPlace (s.descriptorAt s.here.parish (s.reg a)) = false)
    (he : checkEntry (s.obj (chipOfThread s.cur) s.here.parish (handleObj (s.descriptorAt s.here.parish (s.reg a))))
      (handleObj (s.descriptorAt s.here.parish (s.reg a))) (handleOff (s.descriptorAt s.here.parish (s.reg a))) 64 rR
      (!s.here.pl) = none)
    (hc : s.checkResidency (chipOfThread s.cur) s.here.parish (handleObj (s.descriptorAt s.here.parish (s.reg a)))
      (handleOff (s.descriptorAt s.here.parish (s.reg a))) (s.descriptorAt s.here.parish (s.reg a)) false = .ok target)
    (hrace : raceMode s.here.race = 0) (hs : s.submission s.nextId = {}) (ha : s.accesses = []) :
    ∃ u, exec (.kvsub g d a b t) s = .next u ∧
        u.here.state = .parked (.launch s.nextId) ∧ (u.granary (nodeOfThread s.cur) i).sub = s.nextId ∧
        (u.granary (nodeOfThread s.cur) i).owner = s.here.task ∧ (u.subscription s.nextId).slot = i ∧
        (u.subscription s.nextId).thread = s.cur ∧ (u.subscription s.nextId).state = .requested ∧
        ∃ e ∈ u.accesses, e.2.reader = .launch s.nextId ∧ e.2.addr = s.descriptorAt s.here.parish (s.reg a) := by
  obtain ⟨v, hv⟩ : ∃ v, v = (s.fresh.2.modGranary (nodeOfThread s.cur) i fun g =>
      { g with owner := s.here.task, sub := s.nextId }) := ⟨_, rfl⟩
  obtain ⟨x, hx⟩ : ∃ x, x = v.setSubscription s.nextId (v.newSubscription (s.reg a) (s.reg b) t d i) := ⟨_, rfl⟩
  have e : exec (.kvsub g d a b t) s = .next (subscribeWith (s.reg a) s.nextId x) := by
    rw [exec_kvsub, execKvsub, scalar_true hg, withDest_ok hd, atHome_ok hw]
    dsimp only
    rw [hn, hr]
    dsimp only
    rw [if_neg (not_or.2 ⟨not_not.2 h48, h32⟩), if_neg (by simp [hm]), h, hx, hv]
    rfl
  have hh : x.here = s.here := by rw [hx, hv]; rfl
  have hcur : x.cur = s.cur := by rw [hx, hv]; rfl
  have hdesc : x.descriptorAt = s.descriptorAt := by rw [hx, hv]; rfl
  have hobj : x.obj = s.obj := by rw [hx, hv]; rfl
  have hres : x.checkResidency = s.checkResidency := by rw [hx, hv]; rfl
  obtain ⟨y, hy⟩ : ∃ y, y = s.descriptorAt s.here.parish (s.reg a) := ⟨_, rfl⟩
  rw [← hy] at hp he hc
  obtain ⟨u, l, hu, hst, a', ha', h1, h2⟩ := readHeld_waits (s := x) (a := y) (n := 64) (sub := s.nextId)
    (.inr ⟨hp, by rw [hobj, hcur, hh]; exact he, target, by rw [hres, hcur, hh]; exact hc⟩) (by decide) (by rw [hh]; exact hrace)
    (by rw [hx, hv]; exact ha) (by rw [hx, hv]; exact congrArg Submission.reads hs)
  have hgr : u.granary (nodeOfThread s.cur) i = x.granary (nodeOfThread s.cur) i := by
    rw [State.granary, hst.granary]
    rfl
  have hsub : u.subscription s.nextId = x.subscription s.nextId := by
    rw [State.subscription, hst.subscriptions]
    rfl
  have hxs : x.subscription s.nextId = v.newSubscription (s.reg a) (s.reg b) t d i := by
    rw [hx]
    exact AMap.get_set_self _ _ _ _
  have hxg : x.granary (nodeOfThread s.cur) i =
      { s.granary (nodeOfThread s.cur) i with owner := s.here.task, sub := s.nextId } := by
    rw [hx, hv]
    simp [State.granary, State.modGranary, State.modNode, State.node, State.setSubscription, State.fresh]
  refine ⟨u.park (.launch s.nextId), ?_, congrArg Slot.state (State.here_park _ _), ?_, ?_, ?_, ?_, ?_, a', ha', h1, ?_⟩
  · rw [e, subscribeWith, withDescriptor]
    dsimp only
    rw [hh, hn, hcur, hobj, hdesc, ← hy]
    dsimp only
    rw [he]
    exact next_congr (hu _ _)
  · exact (congrArg Granary.sub (hgr.trans hxg) :)
  · exact (congrArg Granary.owner (hgr.trans hxg) :)
  · exact (congrArg Subscription.slot (hsub.trans hxs) :)
  · exact (congrArg Subscription.thread (hsub.trans hxs)).trans (by rw [hv]; rfl)
  · exact (congrArg Subscription.state (hsub.trans hxs) :)
  · rw [h2, hy]

end

/-! ### Passes -/

theorem roll_modRoll_self (s : State) (d r : Nat) (f : Roll → Roll) : (s.modRoll d r f).roll d r = f (s.roll d r) := by
  simp [State.roll, State.modRoll, State.modDie, State.die]

/-- Opening a pass changes no thread and no roll but its own. -/
structure KeepsRolls (s t : State) : Prop where
  slots : t.slots = s.slots
  cur : t.cur = s.cur
  dies : t.dies = s.dies

theorem KeepsRolls.foldl {α : Type} {f : State → α → State} (h : ∀ s a, KeepsRolls s (f s a)) (l : List α) (s : State) :
    KeepsRolls s (l.foldl f s) := by
  induction l generalizing s with
  | nil => exact ⟨rfl, rfl, rfl⟩
  | cons a r ih =>
    obtain ⟨h1, h2, h3⟩ := h s a
    obtain ⟨g1, g2, g3⟩ := ih (f s a)
    exact ⟨g1.trans h1, g2.trans h2, g3.trans h3⟩

/-- A roll whose waiting pass has opened at its first page. -/
def openedRoll (r : Roll) (w : PassSnapshot) : Roll :=
  { r with running := some { snap := w, page := 0, heldRecord := false }, waiting := none }

section
variable {s : State} {die n : Nat} {w : PassSnapshot}

theorem openPass_none (h : (s.roll die n).waiting = none) : s.openPass die n = s := by rw [State.openPass, h]

variable (h : (s.roll die n).waiting = some w)
include h

theorem openPass_unsubscribed (hs : s.rollSubs die n = []) :
    s.openPass die n = s.modRoll die n fun r => { r with waiting := none } := by
  rw [State.openPass, h]
  exact if_pos (by simp [hs])

theorem openPass_opens (hs : s.rollSubs die n ≠ []) :
    (s.openPass die n).slots = s.slots ∧ (s.openPass die n).cur = s.cur ∧ Due.event (.pageWalk die n) ∈ (s.openPass die n).pending ∧
      (s.openPass die n).roll die n = openedRoll (s.roll die n) w := by
  have e : ∃ u, KeepsRolls (s.modRoll die n (openedRoll · w)) u ∧ s.openPass die n = u.event (.pageWalk die n) := by
    rw [State.openPass, h]
    dsimp only
    rw [if_neg (by simpa using hs)]
    refine ⟨_, ?_, rfl⟩
    refine KeepsRolls.foldl (fun s e => ?_) _ _
    split
    · exact ⟨rfl, rfl, rfl⟩
    · exact ⟨rfl, rfl, rfl⟩
  obtain ⟨u, ⟨h1, h2, h3⟩, e⟩ := e
  rw [e]
  refine ⟨h1, h2, List.mem_append_right _ (List.mem_singleton_self _), ?_⟩
  exact (congrArg (fun l : AMap Die => AMap.get ({} : Roll) (AMap.get ({} : Die) l die).rolls n) h3).trans (roll_modRoll_self s die n _)

end

theorem openNext_running {s : State} {die n : Nat} (h : (s.roll die n).running ≠ none) : s.openNext die n = s :=
  if_pos (Option.isSome_iff_ne_none.2 h)

theorem openNext_idle {s : State} {die n : Nat} (h : (s.roll die n).running = none) : s.openNext die n = s.openPass die n :=
  if_neg (by simp [h])

/-- What a PASS leaves its Carillon with, once its snapshot has been taken. -/
def handPass (s : State) (die n : Nat) (snap : PassSnapshot) : State :=
  let s := s.openNext die n
  if (s.roll die n).waiting.isSome then s else (s.modRoll die n fun r => { r with waiting := some snap }).openNext die n

section
variable {s : State} {die n : Nat} {snap : PassSnapshot}

theorem handPass_further {w : PassSnapshot} (h : (s.roll die n).running ≠ none) (hw : (s.roll die n).waiting = some w) :
    handPass s die n snap = s := by
  rw [handPass]
  rw [openNext_running h, if_pos (by simp [hw])]

theorem handPass_waits (h : (s.roll die n).running ≠ none) (hw : (s.roll die n).waiting = none) :
    handPass s die n snap = s.modRoll die n fun r => { r with waiting := some snap } := by
  rw [handPass]
  rw [openNext_running h, if_neg (by simp [hw]), openNext_running]
  rw [roll_modRoll_self]
  exact h

variable (h : (s.roll die n).running = none)
include h

theorem handPass_unsubscribed (hs : s.rollSubs die n = []) : (handPass s die n snap).slots = s.slots ∧
    (handPass s die n snap).cur = s.cur ∧ ((handPass s die n snap).roll die n).running = none ∧
    ((handPass s die n snap).roll die n).waiting = none := by
  obtain ⟨u, hu, h1, h2, h3, h4, h5⟩ : ∃ u, s.openNext die n = u ∧ u.slots = s.slots ∧ u.cur = s.cur ∧
      u.rollSubs die n = [] ∧ (u.roll die n).running = none ∧ (u.roll die n).waiting = none := by
    rw [openNext_idle h]
    cases hw : (s.roll die n).waiting with
    | none => exact ⟨s, openPass_none hw, rfl, rfl, hs, h, hw⟩
    | some w =>
      refine ⟨_, openPass_unsubscribed hw hs, rfl, rfl, hs, ?_, ?_⟩
      · rw [roll_modRoll_self]
        exact h
      · rw [roll_modRoll_self]
  rw [handPass, hu]
  rw [if_neg (by simp [h5]), openNext_idle (by rw [roll_modRoll_self]; exact h4),
    openPass_unsubscribed (s := u.modRoll die n _) (w := snap) (by rw [roll_modRoll_self]) h3]
  refine ⟨h1, h2, ?_, ?_⟩
  · rw [roll_modRoll_self, roll_modRoll_self]
    exact h4
  · rw [roll_modRoll_self]

theorem handPass_opens (hw : (s.roll die n).waiting = none) (hs : s.rollSubs die n ≠ []) :
    (handPass s die n snap).slots = s.slots ∧ (handPass s die n snap).cur = s.cur ∧
      Due.event (.pageWalk die n) ∈ (handPass s die n snap).pending ∧
      (handPass s die n snap).roll die n = openedRoll (s.roll die n) snap := by
  have e : handPass s die n snap = (s.modRoll die n fun r => { r with waiting := some snap }).openPass die n := by
    rw [handPass]
    rw [openNext_idle h, openPass_none hw, if_neg (by simp [hw]), openNext_idle (by rw [roll_modRoll_self]; exact h)]
  obtain ⟨h1, h2, h3, h4⟩ := openPass_opens (s := s.modRoll die n fun r => { r with waiting := some snap }) (w := snap)
    (by rw [roll_modRoll_self]) hs
  rw [e]
  exact ⟨h1, h2, h3, by rw [h4, roll_modRoll_self]; rfl⟩

theorem handPass_follows {w : PassSnapshot} (hw : (s.roll die n).waiting = some w) (hs : s.rollSubs die n ≠ []) :
    (handPass s die n snap).slots = s.slots ∧ (handPass s die n snap).cur = s.cur ∧
      (handPass s die n snap).roll die n = { openedRoll (s.roll die n) w with waiting := some snap } := by
  obtain ⟨h1, h2, -, h4⟩ := openPass_opens hw hs
  have e : handPass s die n snap = (s.openPass die n).modRoll die n fun r => { r with waiting := some snap } := by
    rw [handPass]
    rw [openNext_idle h, if_neg (by rw [h4]; simp [openedRoll]), openNext_running]
    rw [roll_modRoll_self, h4]
    simp [openedRoll]
  rw [e]
  exact ⟨h1, h2, by rw [roll_modRoll_self, h4]⟩

end

theorem endReads_carillonFail (s : State) (k : Nat) : (s.endReads k).carillonFail = s.carillonFail := by
  funext chip parish user a n
  have h : (s.endReads k).checkPlace = s.checkPlace := by
    funext here parish a n o
    unfold State.checkPlace
    rw [show (s.endReads k).reaches = s.reaches from rfl, show (s.endReads k).placeHarvested = s.placeHarvested from rfl,
      show (s.endReads k).parishOf = s.parishOf from rfl]
  unfold State.carillonFail State.farFail
  rw [h, show (s.endReads k).obj = s.obj from rfl]

/-- What PASS hands to the Carillon of a descriptor. -/
def passSnapshot (s : State) (d : RollDesc) : PassSnapshot :=
  { parish := s.here.parish, elem := d.elem, hd := d.hd, tokens := d.tokens, npages := d.npages, kbase := d.kbase,
    vbase := d.vbase, stride := d.stride, sflag := d.sflag, stage := d.stage, stamp := s.stampOf s.cur,
    thread := s.cur, user := !s.here.pl, fence := s.fenceOf s.cur }

theorem passWith_hands {s : State} {q : RollDesc} (rw' : Word)
    (hk : s.carillonFail (chipOfThread s.cur) s.here.parish (!s.here.pl) q.kbase q.range = none)
    (hv : s.carillonFail (chipOfThread s.cur) s.here.parish (!s.here.pl) q.vbase q.range = none) :
    passWith rw' q s = (handPass s (rollDie s.cur rw') (rollNumber rw') (passSnapshot s q)).finish := by
  rw [passWith]
  dsimp only
  rw [hk, hv]
  rw [handPass]
  dsimp only
  split
  · rfl
  · rfl

section
variable {s : State} {g : Guard} {a : Field4} (hg : guardHolds g s = true) (hw : s.here.wf = false)
include hg hw

theorem exec_pass_reserved (hn : s.here.state.reading? = none) (h : (s.reg a).extractLsb' 11 53 ≠ 0) :
    exec (.pass g a) s = .next (s.trap 0x07 (s.reg a)) := by
  rw [exec_pass, execPass, scalar_true hg, atHome_ok hw]
  dsimp only
  rw [hn, rollFail_reserved h]

/-- A PASS whose descriptor has come, with a K range and a V range that pass their checks, hands over a snapshot of it. -/
theorem exec_pass_hands {k : Nat} {l : List Byte} {q : RollDesc} (hs : s.here.state = .parked (.launch k))
    (hl : takeReads (s.submission k).reads (linePieces (s.descriptorAt s.here.parish (s.reg a)) 64) [] = .bytes l)
    (hq : rollDesc (wordsOf 8 l) = some q)
    (hkb : s.carillonFail (chipOfThread s.cur) s.here.parish (!s.here.pl) q.kbase q.range = none)
    (hvb : s.carillonFail (chipOfThread s.cur) s.here.parish (!s.here.pl) q.vbase q.range = none) :
    exec (.pass g a) s = .next (handPass (s.endReads k) (rollDie s.cur (s.reg a)) (rollNumber (s.reg a))
      (passSnapshot (s.endReads k) q)).finish := by
  rw [exec_pass, execPass, scalar_true hg, atHome_ok hw]
  dsimp only
  rw [hs]
  dsimp only [SlotState.reading?]
  rw [withDescriptor_comes hs hl hq]
  rw [passWith_hands]
  · rfl
  · rw [endReads_carillonFail]
    exact hkb
  · rw [endReads_carillonFail]
    exact hvb

end

/-! ### POST -/

/-- What sending requests leaves: storage, threads, commands, parcels and the object table. -/
structure OnlySends (s t : State) : Prop where
  mem : t.mem = s.mem
  slots : t.slots = s.slots
  cur : t.cur = s.cur
  transits : t.transits = s.transits
  objs : t.objs = s.objs
  exts : t.exts = s.exts
  entries : t.entries = s.entries
  ops : t.ops = s.ops

theorem OnlySends.trans {s t u : State} (h : OnlySends s t) (h' : OnlySends t u) : OnlySends s u :=
  ⟨h'.mem.trans h.mem, h'.slots.trans h.slots, h'.cur.trans h.cur, h'.transits.trans h.transits, h'.objs.trans h.objs,
    h'.exts.trans h.exts, h'.entries.trans h.entries, h'.ops.trans h.ops⟩

theorem sendMulticast_sends (s : State) (pl : Payload) (parish src : Nat) (ds : List (Nat × Nat)) :
    OnlySends s (s.sendMulticast pl parish src ds) := ⟨rfl, rfl, rfl, rfl, rfl, rfl, rfl, rfl⟩

theorem addAccess_sends (s : State) (a : Access) : OnlySends s (s.addAccess a).2 := ⟨rfl, rfl, rfl, rfl, rfl, rfl, rfl, rfl⟩

theorem armRetry_sends (s : State) (id : Nat) (a : Access) (dst : Nat) : OnlySends s (s.armRetry id a dst) :=
  ⟨rfl, rfl, rfl, rfl, rfl, rfl, rfl, rfl⟩

theorem modChip_sends (s : State) (k : Nat) (f : Chip → Chip) : OnlySends s (s.modChip k f) :=
  ⟨rfl, rfl, rfl, rfl, rfl, rfl, rfl, rfl⟩

/-- A relation to the state of a pair, said of the pair as a whole: so the kernel compares pairs without evaluating them. -/
structure PairSends {β : Type} (s : State) (b : β × State) : Prop where
  sends : OnlySends s b.2

theorem PairSends.register {s t : State} {b : List (Nat × Nat) × State} (h : PairSends s b) {a : Access} {q : Nat}
    (hq : b.2.addAccess a = (q, t)) (m : Nat) : PairSends s (b.1 ++ [(m, q)], t.armRetry q a m) :=
  ⟨(h.sends.trans (by rw [← show (b.2.addAccess a).2 = t from congrArg Prod.snd hq]; exact addAccess_sends b.2 a)).trans
    (armRetry_sends t q a m)⟩

theorem issueChange_sends (s : State) (parish : Nat) (c : Change) (tr : Nat) : OnlySends s (s.issueChange parish c tr) := by
  unfold State.issueChange
  split
  next id u hu =>
  have hf : OnlySends s u := by
    cases hu
    exact ⟨rfl, rfl, rfl, rfl, rfl, rfl, rfl, rfl⟩
  lift_lets
  intro p chips v u1 n u2
  have h1 : OnlySends s u1 := hf.trans ⟨rfl, rfl, rfl, rfl, rfl, rfl, rfl, rfl⟩
  clear_value u1 n
  have h2 : OnlySends s u2 := List.foldlRecOn (motive := OnlySends s) _ _ h1 fun b h k _ => h.trans (modChip_sends _ _ _)
  clear_value u2 chips
  split
  next ds w hw =>
  refine OnlySends.trans (t := w) ?_ (sendMulticast_sends _ _ _ _ _)
  refine (PairSends.sends (β := List (Nat × Nat)) (b := (ds, w)) ?_ :)
  rw [← hw]
  refine List.foldlRecOn (motive := PairSends s) _ _ ⟨h2⟩ fun b h k _ => ?_
  lift_lets
  intro m a
  split
  next q t hq => exact h.register hq m
theorem park_transits (s : State) (w : Wait) : (s.park w).transits = s.transits := rfl

/-- The transit of a parcel that the current thread seals, with the destination that `b` names. -/
def sealing (s : State) (a b : Word) : Transit :=
  { stage := .sealing, parish := s.here.parish, chip := chipOfThread s.cur, obj := handleObj a,
    length := (s.obj (chipOfThread s.cur) s.here.parish (handleObj a)).length,
    rights := (s.obj (chipOfThread s.cur) s.here.parish (handleObj a)).w1.toNat, arrival := b,
    destChip := placeChip (chipOfThread s.cur) b, destCore := placeCore (chipOfThread s.cur) b, thread := s.cur,
    stamp := s.fresh.2.stampOf s.cur }

/-- The state in which a sealed parcel's transit has begun, and its entry is being changed. -/
def sealed (s : State) (a b : Word) : State :=
  State.issueChange { s.fresh.2 with transits := AMap.set {} s.transits s.nextId (sealing s a b) } s.here.parish
    (.entry (handleObj a) ((s.obj (chipOfThread s.cur) s.here.parish (handleObj a)).withState 2)) s.nextId

theorem exec_post_place {s : State} {g : Guard} {a b : Field4} (hg : guardHolds g s = true) (h : isPlace (s.reg a) = true) :
    exec (.post g a b) s = .next (s.trap 0x0B (s.reg a)) := by
  rw [exec_post, execPost, scalar_true hg]
  exact next_congr (if_pos h)

theorem exec_post_seals {s : State} {g : Guard} {a b : Field4} (hg : guardHolds g s = true) (hp : isPlace (s.reg a) = false)
    (h0 : handleOff (s.reg a) = 0)
    (he : checkEntry (s.obj (chipOfThread s.cur) s.here.parish (handleObj (s.reg a))) (handleObj (s.reg a)) 0 0 rP (!s.here.pl) = none)
    (hn : s.posted s.here.parish (handleObj (s.reg a)) = false)
    (hpar : (s.obj (chipOfThread s.cur) s.here.parish (handleObj (s.reg a))).isParcel = true) (hb : isPlace (s.reg b) = true)
    (h16 : (s.reg b).toNat % 16 = 0) (hc : s.checkPlace (chipOfThread s.cur) s.here.parish (s.reg b) 16 false = none)
    (hr : Releases s) :
    ∃ u x, exec (.post g a b) s = .next u ∧ u.here.state = .parked .seal ∧ u.transit? s.nextId = some x ∧
        x.stage = .sealing ∧ x.obj = handleObj (s.reg a) ∧ x.parish = s.here.parish ∧ x.arrival = s.reg b ∧ x.thread = s.cur := by
  have ho : handleObj (s.reg a) ≠ 0 := by
    intro h
    rw [checkEntry, if_pos (by simp [h])] at he
    cases he
  have hd : sealing s (s.reg a) (s.reg b) ≠ {} := fun h => ho (congrArg Transit.obj h)
  have e : exec (.post g a b) s = .next ((sealed s (s.reg a) (s.reg b)).park .seal) := by
    rw [exec_post, execPost, scalar_true hg]
    dsimp only
    rw [if_neg (by simp [hp]), if_neg (not_not.2 h0), he]
    dsimp only
    rw [if_neg (by simp [hn]), if_neg (by simp [hpar]), if_neg (by simp [hb]), if_neg (not_not.2 h16), hc]
    dsimp only
    rw [withRelease_clear hr, sealed]
    dsimp only [State.fresh, sealing]
  have ht : (sealed s (s.reg a) (s.reg b)).transits = AMap.set {} s.transits s.nextId (sealing s (s.reg a) (s.reg b)) := by
    rw [sealed, (issueChange_sends _ _ _ _).transits]
  refine ⟨_, sealing s (s.reg a) (s.reg b), e, congrArg Slot.state (State.here_park _ _), ?_, rfl, rfl, rfl, rfl, rfl⟩
  rw [State.transit?, park_transits, ht]
  exact find?_of_get (AMap.get_set_self _ _ _ _) hd

/-- Settles O41, from what a reading that waits and one that has come do, and from how a pass opens. -/
theorem passAndPostForms : Obligations.PassAndPostForms := by
  unfold Obligations.PassAndPostForms
  intro s g d a b t hg hd hw
  dsimp only
  refine ⟨fun hn _ h48 h32 hm hr => ⟨exec_kvsub_full hg hd hw hn hr h48 h32 hm,
    fun i target h hp he hc hrace hs ha => exec_kvsub_reads hg hd hw hn hr h48 h32 hm h hp he hc hrace hs ha⟩,
    fun k q h => ?_, fun hn h => ⟨exec_kvsub_reserved hg hd hw hn h, exec_pass_reserved hg hw hn h⟩, fun h1 h2 h3 => ?_,
    fun h => ?_, fun k q h hkb hvb => ?_, exec_post_place hg, fun hp h0 he hn hpar hb h16 hc hr =>
      exec_post_seals hg hp h0 he hn hpar hb h16 hc hr⟩
  · obtain ⟨hs, l, hl, hq⟩ := h
    exact exec_kvsub_registers hg hd hw hs hl hq
  · rw [exec_kvunsub, execKvunsub, scalar_true hg]
    exact next_congr (if_pos ⟨h1, h2, h3⟩)
  · rw [exec_kvunsub, execKvunsub, scalar_true hg]
    refine next_congr (if_neg ?_)
    rintro ⟨h1, h2, h3⟩
    rcases h with h | h | h
    · omega
    · exact h2 h
    · exact h h3
  · obtain ⟨hs, l, hl, hq⟩ := h
    have e := exec_pass_hands hg hw hs hl hq hkb hvb
    obtain ⟨die, hdie⟩ : ∃ die, die = rollDie s.cur (s.reg a) := ⟨_, rfl⟩
    obtain ⟨n, hnum⟩ : ∃ n, n = rollNumber (s.reg a) := ⟨_, rfl⟩
    obtain ⟨snap, hsnap⟩ : ∃ p, p = passSnapshot (s.endReads k) q := ⟨_, rfl⟩
    have hsn : snap.npages = q.npages ∧ snap.kbase = q.kbase ∧ snap.vbase = q.vbase ∧ snap.stride = q.stride ∧
        snap.sflag = q.sflag ∧ snap.stage = q.stage ∧ snap.parish = s.here.parish := by
      rw [hsnap]
      exact ⟨rfl, rfl, rfl, rfl, rfl, rfl, rfl⟩
    rw [← hsnap, ← hdie, ← hnum] at e
    rw [← hdie, ← hnum]
    have goes {u : State} (h1 : u.slots = (s.endReads k).slots) (h2 : u.cur = (s.endReads k).cur) : GoesOn s u.finish :=
      finish_goesOn (by rw [State.here, State.slot, h1, h2]; rfl) h2
    refine ⟨fun hrun => ⟨fun w hwt => ?_, fun hwt => ?_⟩, fun hrun hsub => ?_, fun hrun hsub => ⟨fun hwt => ?_, fun w hwt => ?_⟩⟩
    · rw [e, handPass_further (s := s.endReads k) hrun hwt]
    · rw [handPass_waits (s := s.endReads k) hrun hwt] at e
      refine ⟨_, e, goes rfl rfl, ?_⟩
      have hr := roll_modRoll_self (s.endReads k) die n fun r => { r with waiting := some snap }
      exact ⟨⟨snap, (congrArg Roll.waiting hr :), hsn⟩, (congrArg Roll.running hr :)⟩
    · obtain ⟨h1, h2, h3, h4⟩ := handPass_unsubscribed (s := s.endReads k) (snap := snap) hrun hsub
      exact ⟨_, e, goes h1 h2, h3, h4⟩
    · obtain ⟨h1, h2, h3, h4⟩ := handPass_opens (s := s.endReads k) (snap := snap) hrun hwt hsub
      exact ⟨⟨_, e, goes h1 h2, ⟨_, congrArg Roll.running h4, hsn, rfl⟩, congrArg Roll.waiting h4⟩, _, e, h3⟩
    · obtain ⟨h1, h2, h3⟩ := handPass_follows (s := s.endReads k) (snap := snap) hrun hwt hsub
      exact ⟨_, e, goes h1 h2, ⟨_, congrArg Roll.running h3, rfl, rfl⟩, snap, congrArg Roll.waiting h3, hsn⟩

end Sys2Proof.Machine
end

section
/-! Proofs. Wayfarers: WANDER, HOME, wander-order accesses, and their packets (07 R179 and R180; O36). -/

namespace Sys2Proof.Machine

/-! ### Departures -/

/-- A thread that departs leaves in a packet toward `dest`, where a place is reserved for it; its slot is held. -/
theorem depart_leaves {s : State} {dest : Nat} (access : Option (Word × Word)) (hc : Releases s)
    (ha : (s.core dest).arrivals.length < 4) (hw : s.here.wf = false) :
    (depart dest access s).here.state = .held ∧
      ((depart dest access s).core dest).arrivals = (s.core dest).arrivals ++ [.reserved s.cur] ∧
      ∃ q w, (depart dest access s).packets = s.packets ++ [(s.nextId, q)] ∧ q.payload = .wayfarer w ∧
        q.dst = nodeOfCore dest ∧ w.pc = (if access.isSome then s.here.pc else s.here.pc + 4) ∧ w.access = access ∧
        w.x = s.here.x ∧ w.preds = s.here.preds := by
  rw [depart, withRelease_clear hc, if_pos ha]
  refine ⟨?_, ?_, _, _, rfl, rfl, rfl, rfl, rfl, rfl, rfl⟩
  · have h : ∀ u : State, u.here.wf = false → u.leaveSlot.here.state = .held := by
      intro u hu
      have e : u.leaveSlot.here = _ := State.here_modHere u _
      rw [e]
      exact if_neg (by simp [hu])
    exact h (s.modCore dest fun c => { c with arrivals := c.arrivals ++ [.reserved s.cur] }) hw
  · have h : (s.modCore dest fun c => { c with arrivals := c.arrivals ++ [.reserved s.cur] }).core dest =
        { s.core dest with arrivals := (s.core dest).arrivals ++ [.reserved s.cur] } := by
      simp [State.core, State.modCore, State.setCore]
    exact (congrArg Core.arrivals h :)

/-! ### Wander-order accesses -/

section
variable {s : State} {a v : Word} {n : Nat} (hn : a.toNat % n = 0) (hk : s.checkWander s.cur a n = none)
include hn hk

/-- A wander-order access of a thread that is where its address leads is performed as a plain one. -/
theorem wanderAccess_here (hc : Releases s) {a0 v0 : Word} (h : s.here.carried.getD (a0, v0) = (a, v))
    (hd : placeCore (chipOfThread s.cur) a = coreOfThread s.cur) (k : Word → Word → State → State) :
    wanderAccess a0 v0 n s k = (k a v s).uncarry := by
  rw [wanderAccess, h]
  dsimp only
  rw [if_neg (by simp [hn]), hk]
  dsimp only
  rw [if_pos hd, withRelease_clear hc]

theorem wanderAccess_departs {a0 v0 : Word} (h : s.here.carried.getD (a0, v0) = (a, v))
    (hd : placeCore (chipOfThread s.cur) a ≠ coreOfThread s.cur) (k : Word → Word → State → State) :
    wanderAccess a0 v0 n s k = depart (placeCore (chipOfThread s.cur) a) (some (a, v)) s := by
  rw [wanderAccess, h]
  dsimp only
  rw [if_neg (by simp [hn]), hk]
  dsimp only
  rw [if_neg hd]

end

theorem uncarry_requested {s t : State} {a : Access} (h : Requested s t a) : Requested s t.uncarry a := by
  unfold State.uncarry
  split
  · exact h
  · exact requested_congr h rfl rfl rfl rfl

section
variable {s : State} {g : Guard} {a d : Field4} {size : BitVec 2} {sx : Bool} {off : BitVec 7} (hg : guardHolds g s = true)
include hg

theorem exec_st_wander : exec (.st g d a size 3 off) s = .next (wanderAccess (mAddress s a size off) (s.reg d) (sizeBytes size) s
    fun a v => plainStore a (sizeBytes size) v false none) := by
  rw [exec_st, execSt, scalar_true hg]
  exact next_congr (if_pos rfl)

theorem exec_st_plain : exec (.st g d a size 0 off) s =
    .next (plainStore (mAddress s a size off) (sizeBytes size) (s.reg d) false none s) := by
  rw [exec_st, execSt, scalar_true hg]
  exact next_congr ((if_neg (by decide)).trans (if_neg (by decide)))

variable (hd : shadowReg d = false)
include hd

theorem exec_ld_wander : exec (.ld g d a size sx 3 off) s = .next (wanderAccess (mAddress s a size off) 0 (sizeBytes size) s
    fun a _ => plainLoad a (sizeBytes size) sx d false none) := by
  rw [exec_ld, execLd, scalar_true hg, withDest_ok hd]
  exact next_congr (if_pos rfl)

theorem exec_ld_plain : exec (.ld g d a size sx 0 off) s =
    .next (plainLoad (mAddress s a size off) (sizeBytes size) sx d false none s) := by
  rw [exec_ld, execLd, scalar_true hg, withDest_ok hd]
  exact next_congr (if_neg (by decide))

end

/-! ### Returns and arrivals -/

theorem freeSlot_due (s : State) (t : Nat) : OnlyDue ((s.setSlot t {}).dropTimers t) (s.freeSlot t) :=
  (((((s.setSlot t {}).dropTimers t).wakeIf_due _).trans (State.event_due _ _)).trans (State.event_due _ _)).trans
    (State.event_due _ _) |>.trans (State.event_due _ _)

theorem send_here (s : State) (pl : Payload) (cls : Class) (parish src dst : Nat) (ch : Bool) :
    (s.send pl cls parish src dst ch).here = s.here := rfl

theorem exec_home_returns {s : State} {g : Guard} {h : Nat} (hg : guardHolds g s = true) (hh : s.here.home = some h)
    (hc : Releases s) : ∃ t q w, exec (.home g) s = .next t ∧ (s.nextId, q) ∈ t.packets ∧
      q.payload = .wayfarer w ∧ w.homeward = true ∧ w.pc = s.here.pc + 4 ∧ t.here.state = .free := by
  obtain ⟨u, hu⟩ : ∃ u, u = (s.modCore (coreOfThread s.cur) fun c =>
    { c with arrivals := c.arrivals.filter fun a => decide (a ≠ .running (slotOfThread s.cur)) }).wakeIf
      fun _ c => parkedOn .arrival c := ⟨_, rfl⟩
  have hd : OnlyDue _ u := hu ▸ State.wakeIf_due _ _
  have hf := freeSlot_due u s.cur
  have e : exec (.home g) s = .next ((u.freeSlot s.cur).send (.wayfarer (s.pack (s.here.pc + 4) none true)) .wayfarer
      (s.pack (s.here.pc + 4) none true).parish (nodeOfThread s.cur) (nodeOfThread h) false) := by
    rw [exec_home, execHome, scalar_true hg]
    dsimp only
    rw [hh]
    dsimp only
    rw [withRelease_clear hc, hu]
    rfl
  have hn : (u.freeSlot s.cur).nextId = s.nextId := by
    rw [hf.rest]
    exact (congrArg State.nextId hd.rest :)
  have hcur : (u.freeSlot s.cur).cur = s.cur := by
    rw [hf.rest]
    exact (congrArg State.cur hd.rest :)
  refine ⟨_, _, _, e, List.mem_append_right _ (List.mem_singleton.2 (congrArg (·, _) hn.symm)), rfl, rfl, rfl, ?_⟩
  have hs : ((u.freeSlot s.cur).slot (u.freeSlot s.cur).cur).state = .free := by rw [hcur, freeSlot_slot_self]
  rw [send_here]
  exact hs

theorem exec_wayfarerArrival_home {s : State} {pk : Nat} {p : Packet} {w : Wayfarer} (h : Delivered s pk p (.wayfarer w))
    (hw : w.homeward = true) (hr : raceMode (s.slot w.thread).race = 0) :
    ∃ t, exec (.wayfarerArrival pk) s = .next t ∧ (t.slot w.thread).state = .ready ∧ (t.slot w.thread).pc = w.pc := by
  obtain ⟨hp, hc, hl⟩ := h
  obtain ⟨f, hf, hf1, hf2, hf3, hf4⟩ : ∃ f : Slot → Slot, f = (fun c =>
      { c with pc := w.pc, x := (List.range 11).foldl (fun v i => v.setIfInBounds i (w.x.toList.getD i 0)) c.x,
               preds := w.preds, state := .ready, interval := w.race.interval, acquired := w.race.table,
               evicted := w.evicted }) ∧ (∀ c, (f c).race = c.race) ∧ (∀ c, (f c).state = .ready) ∧ (∀ c, (f c).pc = w.pc) ∧
      True := ⟨_, rfl, fun _ => rfl, fun _ => rfl, fun _ => rfl, trivial⟩
  obtain ⟨u, hu⟩ : ∃ u, u = (s.dropPacket pk).modSlot w.thread f := ⟨_, rfl⟩
  have hs : u.slot w.thread = f (s.slot w.thread) := by
    rw [hu, State.slot_modSlot_self]
    rfl
  have ha : u.acquire w.thread [] = u := acquire_off (by rw [hs, hf1]; exact hr) _
  have e : exec (.wayfarerArrival pk) s = .next (if (u.slot w.thread).preempt.isSome then u.event (.contextSave w.thread) else u) := by
    rw [exec_wayfarerArrival, execWayfarerArrival, hp]
    dsimp only
    rw [hc, hl]
    dsimp only
    rw [if_pos hw, ← hf, ← hu, ha]
  refine ⟨_, e, ?_⟩
  have hv : (if (u.slot w.thread).preempt.isSome then u.event (.contextSave w.thread) else u).slot w.thread = f (s.slot w.thread) := by
    split
    · exact hs
    · exact hs
  rw [hv]
  exact ⟨hf2 _, hf3 _⟩

theorem exec_wayfarerArrival_away {s : State} {pk i : Nat} {p : Packet} {w : Wayfarer} (h : Delivered s pk p (.wayfarer w))
    (hw : w.homeward = false) (ht : w.from' = w.thread)
    (hi : (List.range 16).find? (fun i => (s.core (p.dst * 16 + i)).arrivals.contains (.reserved w.from')) = some i) :
    ∃ t, exec (.wayfarerArrival pk) s = .next t ∧ (t.core (p.dst * 16 + i)).arrivals =
      ((s.core (p.dst * 16 + i)).arrivals.filter fun x => decide (x ≠ .reserved w.from')) ++ [.landed w] := by
  obtain ⟨hp, hc, hl⟩ := h
  have e : exec (.wayfarerArrival pk) s = .next (((s.dropPacket pk).modCore (p.dst * 16 + i) fun c =>
      { c with arrivals := (c.arrivals.filter fun a => decide (a ≠ .reserved w.from')) ++ [.landed w] }).event
      (.wayfarerStart (p.dst * 16 + i))) := by
    rw [exec_wayfarerArrival, execWayfarerArrival, hp]
    dsimp only
    rw [hc, hl]
    dsimp only
    rw [if_neg (by simp [hw]), show (s.dropPacket pk).core = s.core from rfl, hi]
    dsimp only
    rw [if_pos ht]
  refine ⟨_, e, ?_⟩
  have h : ((s.dropPacket pk).modCore (p.dst * 16 + i) fun c =>
      { c with arrivals := (c.arrivals.filter fun a => decide (a ≠ .reserved w.from')) ++ [.landed w] }).core (p.dst * 16 + i) =
      { s.core (p.dst * 16 + i) with arrivals := ((s.core (p.dst * 16 + i)).arrivals.filter fun x =>
        decide (x ≠ .reserved w.from')) ++ [.landed w] } := by
    simp [State.core, State.modCore, State.setCore, State.dropPacket]
  exact (congrArg Core.arrivals h :)

/-! ### The start of a landed wayfarer -/

/-- An acquire changes a thread's own interval and acquire table alone. -/
theorem acquire_slot (s : State) (t : Nat) (sts : List Stamp) : ∃ i tbl ev,
    (s.acquire t sts).slot t = { s.slot t with interval := i, acquired := tbl, evicted := ev } ∧
      (s.acquire t sts).cores = s.cores := by
  unfold State.acquire
  dsimp only
  split
  · exact ⟨_, _, _, rfl, rfl⟩
  · refine ⟨_, _, _, State.slot_setSlot_self _ _ _, rfl⟩

/-- A landed wayfarer takes slot 6 with the registers that its packet brought. -/
theorem exec_wayfarerStart_starts {s : State} {core : Nat} {w : Wayfarer} (ha : (s.core core).arrivals = [.landed w])
    (hf : (s.slot (core * 8 + 6)).state = .free) : ∃ t cb,
      exec (.wayfarerStart core) s = .next (if w.access.isSome then t.push (.again (core * 8 + 6)) else t) ∧
        (t.core core).arrivals = [.running 6] ∧ (t.slot (core * 8 + 6)).state = (arrivedSlot s w cb).state ∧
        (t.slot (core * 8 + 6)).pc = w.pc ∧ (t.slot (core * 8 + 6)).wf = true ∧ (t.slot (core * 8 + 6)).home = some w.thread ∧
        (t.slot (core * 8 + 6)).carried = w.access ∧ (t.slot (core * 8 + 6)).word = w.word := by
  have hfind : [6, 7].find? (fun i => decide ((s.slot (core * 8 + i)).state = .free)) = some 6 :=
    List.find?_cons_of_pos (by simp [hf])
  obtain ⟨cb, hcb⟩ : ∃ cb, cb = s.controlWord (chipOfCore core) w.parish := ⟨_, rfl⟩
  obtain ⟨u, hu⟩ : ∃ u, u = ((s.setSlot (core * 8 + 6) (arrivedSlot s w cb)).modCore core fun c =>
      { c with arrivals := c.arrivals.map fun a => if a = .landed w then .running 6 else a }) := ⟨_, rfl⟩
  obtain ⟨v, hv⟩ : ∃ v, v = (u.acquire (core * 8 + 6) []).wakeIf fun k c => parkedOn .borrow c && coreOfThread k == core := ⟨_, rfl⟩
  have e : exec (.wayfarerStart core) s = .next (if w.access.isSome then v.push (.again (core * 8 + 6)) else v) := by
    rw [exec_wayfarerStart, execWayfarerStart]
    dsimp only
    rw [ha, hfind, hv, hu, hcb]
    dsimp only [List.findSome?]
  have hus : u.slot (core * 8 + 6) = arrivedSlot s w cb := by
    rw [hu]
    exact State.slot_setSlot_self s _ _
  have huc : (u.core core).arrivals = [.running 6] := by
    rw [hu, State.core, State.modCore, State.setCore]
    dsimp only
    rw [AMap.get_set_self, show (s.setSlot (core * 8 + 6) (arrivedSlot s w cb)).core core = s.core core from rfl, ha]
    simp
  obtain ⟨i, tbl, ev, h1, h2⟩ := acquire_slot u (core * 8 + 6) []
  have hd : OnlyDue (u.acquire (core * 8 + 6) []) v := hv ▸ State.wakeIf_due _ _
  have hvs : v.slot (core * 8 + 6) = { arrivedSlot s w cb with interval := i, acquired := tbl, evicted := ev } := by
    rw [State.slot, hd.slots, ← hus]
    exact h1
  have hvc : v.core core = u.core core := by
    rw [hd.rest]
    exact (congrArg (fun l : AMap Core => AMap.get ({} : Core) l core) h2 :)
  refine ⟨v, cb, e, ?_, ?_, ?_, ?_, ?_, ?_, ?_⟩
  · rw [hvc, huc]
  all_goals rw [hvs]
  all_goals rfl

/-- Settles O36, move by move of Table 7-15. -/
theorem wayfarerForms : Obligations.WayfarerForms := by
  unfold Obligations.WayfarerForms
  intro s g a d size sx off hg hd
  dsimp only
  have hm : s.reg a + (off.signExtend 64 <<< size.toNat) = mAddress s a size off := rfl
  rw [hm, show 2 ^ size.toNat = sizeBytes size from rfl]
  refine ⟨fun h => ?_, fun hk hc => ⟨fun hd => ?_, fun hd ha hw => ?_⟩, fun hn h0 hk hc => ⟨fun hp => ⟨⟨_, exec_ld_plain hg hd, ?_⟩,
    _, exec_st_plain hg, ?_⟩, fun hp ha hw => ⟨?_, ?_⟩⟩, fun x v target hx h0 hk hc hp => ⟨fun h hl => ?_, fun h => ?_⟩,
    fun h hh hc => exec_home_returns hg hh hc, fun pk p w h hw hr => exec_wayfarerArrival_home h hw hr,
    fun pk p w i h hw ht hi => exec_wayfarerArrival_away h hw ht hi, fun core w x ha hf hx => ?_, fun core w ha hf hx => ?_⟩
  · rw [exec_home, execHome, scalar_true hg]
    dsimp only
    rw [h]
  · rw [exec_wander, execWander, scalar_true hg]
    dsimp only
    rw [hk]
    dsimp only
    rw [if_pos hd, withRelease_clear hc]
  · obtain ⟨h1, h2, q, w, h3, h4, h5, h6, h7, h8, h9⟩ := depart_leaves none hc ha hw
    refine ⟨_, q, w, ?_, h1, h2, h3, h4, h5, h6, h7, h8, h9⟩
    rw [exec_wander, execWander, scalar_true hg]
    dsimp only
    rw [hk]
    exact next_congr (if_neg hd)
  · rw [exec_ld_wander hg hd, wanderAccess_here h0 hk hc (v := 0) (by rw [hn]; rfl) hp]
  · rw [exec_st_wander hg, wanderAccess_here h0 hk hc (v := s.reg d) (by rw [hn]; rfl) hp]
  · obtain ⟨h1, h2, q, w, h3, h4, h5, h6, h7, h8, h9⟩ := depart_leaves (some (mAddress s a size off, 0)) hc ha hw
    refine ⟨_, q, w, ?_, h1, h2, h3, h4, h5, h6, h7, h8, h9⟩
    rw [exec_ld_wander hg hd, wanderAccess_departs h0 hk (v := 0) (by rw [hn]; rfl) hp]
  · obtain ⟨h1, h2, q, w, h3, h4, h5, h6, h7, h8, h9⟩ := depart_leaves (some (mAddress s a size off, s.reg d)) hc ha hw
    refine ⟨_, q, w, ?_, h1, h2, h3, h4, h5, h6, h7, h8, h9⟩
    rw [exec_st_wander hg, wanderAccess_departs h0 hk (v := s.reg d) (by rw [hn]; rfl) hp]
  · obtain ⟨acc, h1, -, h2, -, h3, -, h4, -⟩ := plainLoad_sends h hl sx d false none
    refine ⟨_, acc, ?_, uncarry_requested h1, h2, h3, h4⟩
    rw [exec_ld_wander hg hd, wanderAccess_here h0 hk hc (v := v) (by rw [hx]; rfl) hp]
  · obtain ⟨acc, h1, -, h2, -, h3, -⟩ := plainStore_posts h v false none
    refine ⟨_, acc, ?_, uncarry_requested h1, h2, h3⟩
    rw [exec_st_wander hg, wanderAccess_here h0 hk hc (v := v) (by rw [hx]; rfl) hp]
  · obtain ⟨t, cb, e, -, -, -, -, -, h1, h2⟩ := exec_wayfarerStart_starts ha hf
    rw [hx, if_pos (Option.isSome_some)] at e
    exact ⟨_, e, h1.trans hx, h2, List.mem_append_right _ (List.mem_singleton_self _)⟩
  · obtain ⟨t, cb, e, h1, h2, h3, h4, h5, -⟩ := exec_wayfarerStart_starts ha hf
    rw [hx, if_neg (by simp)] at e
    refine ⟨_, e, ?_, h3, h4, h5, h1⟩
    rw [h2, arrivedSlot, hx]
    rfl

end Sys2Proof.Machine
end

section
/-! Proofs. FORK over a number that an operation already has (11 R292; O37). -/

namespace Sys2Proof.Machine

/-- Thread 0 waits in a TX whose operation is listed under the number that is given next; its handler is at 0x200. -/
def staleTx : State :=
  { State.reset with
    slots := [(0, { state := .parked (.command State.reset.nextId), tvec := 0x200, txs := [State.reset.nextId] })]
    ops := [(State.reset.nextId, State.reset.newOp 0 0 .tx 0)] }

/-- The pc of the current thread after a step. -/
def pcAfter (o : Out) : Word :=
  match o with
  | .next t => t.here.pc
  | _ => 0

/-- The FORK's first command, a zero word, faults; the fault is taken by the operation listed first under its number, whose TX
traps the thread into its handler. -/
theorem pcAfter_staleTx : pcAfter (exec (.fork Guard.none 0 0 0) staleTx) = 0x204 := by decide +kernel

/-- Refutes O37: in a state that lists an operation under the number given next, a FORK that passes the checks of its fourth
clause does not go on to its next instruction. -/
theorem not_commandsIssueAndComplete : ¬ Obligations.CommandsIssueAndComplete := by
  unfold Obligations.CommandsIssueAndComplete
  rintro ⟨h, -⟩
  obtain ⟨-, -, -, h, -⟩ := h staleTx Guard.none 0 0 0 rfl rfl
  obtain ⟨t, e, hg, -⟩ := h (by decide +kernel) rfl (by decide +kernel) ⟨rfl, rfl, rfl, rfl⟩ (by decide)
  have hp : pcAfter (exec (.fork Guard.none 0 0 0) staleTx) = t.here.pc := by rw [e]; rfl
  rw [pcAfter_staleTx, hg.pc] at hp
  exact absurd hp (by decide)

end Sys2Proof.Machine
end

section
/-! Proofs. Tile moves and the transfer engines (12 R336 to R339; 13 R345 to R363; O46). -/

namespace Sys2Proof.Machine

theorem op?_modOp {s : State} {id : Nat} {o : EngOp} (h : s.op? id = some o) (f : EngOp → EngOp) :
    (s.modOp id f).op? id = some (f o) := by
  have h' : find? s.ops id = some o := h
  rw [State.op?, State.modOp_ops, find?_modRec, h', Option.map_some]

section
variable {s s' : State} {id : Nat} {o : EngOp} {i : Instr} {f : TileFields}

/-! ### Stores -/

theorem storeOut_fails {x : Operand} {whole : Spans} {chunks : List Chunk} {k : Nat} {v : Word} (h0 : o.sent = 0) (hn : o.out = none)
    (hx : (s.modOp id fun o => { o with out := some chunks }).extentsFail o x whole = some (k, v)) :
    storeOut f x whole chunks s id o = (s.modOp id fun o => { o with out := some chunks }).faultOp id k v o.resume true := by
  rw [storeOut, hn]
  dsimp only
  rw [if_pos h0, hx]

theorem storeOut_sends {x : Operand} {whole : Spans} {chunks : List Chunk} (h0 : o.sent = 0) (hn : o.out = none)
    (hx : (s.modOp id fun o => { o with out := some chunks }).extentsFail o x whole = none)
    (hw : (s.modOp id fun o => { o with out := some chunks }).writeChunks id x f.flag false
      (chunks.filter fun c => decide (o.resume ≤ c.1)) = .all s') :
    storeOut f x whole chunks s id o = (s'.seal id f.flag).finishOp id := by
  rw [storeOut, hn]
  dsimp only
  rw [if_pos h0, hx, h0, List.drop_zero, hw]

theorem execTst_reads (h : Running s id o i)
    (he : s.rowsEmpty o f.ta (moveCtx o f f.ta (elemOr (codeA o.fm f.ea)).bytes).rows = false) :
    execTst f s = .next (storeOut f (operandOf f.addr)
      (moveSpans f (o.shape f.ta) (moveCtx o f f.ta (elemOr (codeA o.fm f.ea)).bytes).size
        (moveCtx o f f.ta (elemOr (codeA o.fm f.ea)).bytes).rows.length)
      (chunkBytes (operandOf f.addr).base .store (s.storeBytes o f (moveCtx o f f.ta (elemOr (codeA o.fm f.ea)).bytes)) none)
      s id o) := by
  rw [execTst, command_running h]
  exact next_congr (if_neg (by simp [he]))

/-! ### Copies -/

theorem runCopy_all {elem : EngOp → Option Nat} (h : Running s id o i)
    (hc : copyPieces id f.len.toNat (operandOf o.block) (operandOf f.addr)
      ((pieces (operandOf o.block).base (operandOf o.block).base f.len.toNat o.resume (f.len.toNat / 128 + 2)).map
        fun p => Piece.mk p.1 p.1 p.2) f.flag (elem o)
      (s.startPieces id (operandOf o.block)
        (((pieces (operandOf o.block).base (operandOf o.block).base f.len.toNat o.resume (f.len.toNat / 128 + 2)).map
          fun p => Piece.mk p.1 p.1 p.2).filter
          (wanted o (pieces (operandOf f.addr).base (operandOf f.addr).base f.len.toNat o.from' (f.len.toNat / 128 + 2)))))
      none (pieces (operandOf f.addr).base (operandOf f.addr).base f.len.toNat o.from' (f.len.toNat / 128 + 2)) = .all s') :
    runCopy f elem s = .next ((s'.seal id f.flag (if noSf f then 0 else o.place f.imm32.toNat)).finishOp id) := by
  rw [runCopy, command_running h]
  dsimp only
  rw [hc]

/-! ### Gather and scatter -/

/-- The list of a gather changes nothing of its operation but what has been read. -/
theorem takeList_sent (h : s.op? id = some o) {o1 : EngOp} (h1 : (s.takeList id o f).op? id = some o1) : o1.sent = o.sent := by
  unfold State.takeList at h1
  split at h1
  · rw [h] at h1
    rw [Option.some.inj h1]
  · rw [op?_modOp h] at h1
    rw [← Option.some.inj h1]

section
variable (h : Running s id o i) (hl : s.listReady o f = true) (h0 : o.sent = 0) {o1 : EngOp}
  (h1 : (s.takeList id o f).op? id = some o1) (go : Nat → State → Nat → List (Nat × Nat) → Sent)
include h hl h0 h1

theorem runRows_all (hr : (s.takeList id o f).rowsFail o1 f = none)
    (hg : go id (s.takeList id o f) ((((s.takeList id o f).servedOrder o1 f).head?.map (·.1)).getD 0)
      ((s.takeList id o f).servedOrder o1 f) = .all s') :
    runRows f s go = .next ((s'.seal id f.flag).finishOp id) := by
  have h2 : o1.sent = 0 := (takeList_sent h.there h1).trans h0
  rw [runRows, command_running h]
  dsimp only
  rw [if_neg (by simp [hl]), findError_none h.noErrors]
  dsimp only
  rw [h1, Option.getD_some, if_pos h2, hr]
  dsimp only
  rw [h2, List.drop_zero, hg]

theorem runRows_fails {c : Nat} {v : Word} (hr : (s.takeList id o f).rowsFail o1 f = some (c, v)) :
    runRows f s go = .next ((s.takeList id o f).faultOp id c v o1.resume true) := by
  have h2 : o1.sent = 0 := (takeList_sent h.there h1).trans h0
  rw [runRows, command_running h]
  dsimp only
  rw [if_neg (by simp [hl]), findError_none h.noErrors]
  dsimp only
  rw [h1, Option.getD_some, if_pos h2, hr]

end

/-! ### Schedules -/

/-- What releasing entries and finishing an operation keep of a task's schedule. -/
structure SameSchedule (s t : State) (k : Nat) : Prop where
  sources : (t.task k).schedule.map (·.source) = (s.task k).schedule.map (·.source)
  stage : (t.task k).stage = (s.task k).stage
  mem : t.mem = s.mem

theorem SameSchedule.refl (s : State) (k : Nat) : SameSchedule s s k := ⟨rfl, rfl, rfl⟩

theorem SameSchedule.trans {s t u : State} {k : Nat} (h : SameSchedule s t k) (h' : SameSchedule t u k) : SameSchedule s u k :=
  ⟨h'.sources.trans h.sources, h'.stage.trans h.stage, h'.mem.trans h.mem⟩

theorem SameSchedule.foldl {α : Type} {f : State → α → State} {k : Nat} (h : ∀ s a, SameSchedule s (f s a) k) (l : List α)
    (s : State) : SameSchedule s (l.foldl f s) k := by
  induction l generalizing s with
  | nil => exact .refl s k
  | cons a l ih => exact (h s a).trans (ih _)

theorem OnlyDue.sameSchedule {s t : State} (h : OnlyDue s t) (k : Nat) : SameSchedule s t k := by
  rw [h.rest]
  exact ⟨rfl, rfl, rfl⟩

theorem task_modTask (s : State) (k : Nat) (f : Task → Task) : (s.modTask k f).task k = f (s.task k) := AMap.get_set_self _ _ _ _

theorem map_listSet_same {α β : Type} (p : α → β) (l : List α) {i : Nat} {a b : α} (ha : l[i]? = some a) (hp : p b = p a) :
    (listSet l i b).map p = l.map p := by
  induction l generalizing i with
  | nil => rfl
  | cons c l ih =>
    cases i with
    | zero =>
      rw [List.getElem?_cons_zero, Option.some.injEq] at ha
      rw [listSet, List.map_cons, List.map_cons, hp, ha]
    | succ i => rw [listSet, List.map_cons, List.map_cons, ih ha]

theorem releaseEntries_sameSchedule (s : State) (k : Nat) : SameSchedule s (s.releaseEntries k) k := by
  unfold State.releaseEntries
  refine SameSchedule.foldl (fun s j => ?_) _ s
  refine .trans (t := s.modTask k _) ⟨?_, ?_, rfl⟩ ((State.event_due _ _).sameSchedule k)
  · rw [task_modTask]
    dsimp only
    split
    · next e he => exact map_listSet_same _ _ he rfl
    · rfl
  · rw [task_modTask]

theorem finishOp_sameSchedule (s : State) (id k : Nat) : SameSchedule s (s.finishOp id) k := by
  unfold State.finishOp
  dsimp only
  split
  · split
    · exact .trans (t := s.modOp id _) ⟨rfl, rfl, rfl⟩ ((State.event_due _ _).sameSchedule k)
    · exact ⟨rfl, rfl, rfl⟩
  · exact ⟨rfl, rfl, rfl⟩

theorem execCsched_joins (h : Running s id o i)
    (hr : ((List.range f.len.toNat).filter fun i =>
        decide ((s.task o.task).stage < entryStage (o.entryWord i 3))).length = 0 ∨
      (s.task o.task).unreleased + ((List.range f.len.toNat).filter fun i =>
        decide ((s.task o.task).stage < entryStage (o.entryWord i 3))).length ≤ 64) :
    ∃ t es, execCsched f s = .next t ∧ es.length = f.len.toNat ∧ (t.task o.task).schedule.map (·.source) =
      (s.task o.task).schedule.map (·.source) ++ es ∧ (t.task o.task).stage = (s.task o.task).stage := by
  rw [execCsched, command_running h]
  dsimp only
  rw [if_neg (by omega)]
  have k := fun s : State => (releaseEntries_sameSchedule s o.task).trans (finishOp_sameSchedule _ id o.task)
  refine ⟨_, (List.range f.len.toNat).map fun i => o.entryWord i 0, rfl, by simp, ?_, ?_⟩
  · rw [(k _).sources, task_modTask]
    simp [List.map_append, Function.comp_def]
  · rw [(k _).stage, task_modTask]

theorem execCstage_raises (h : Running s id o i) : ∃ t, execCstage f s = .next t ∧
    (t.task o.task).stage = Nat.max (s.task o.task).stage (f.imm32.extractLsb' 0 8).toNat ∧ t.mem = s.mem := by
  rw [execCstage, command_running h]
  refine ⟨_, rfl, ?_⟩
  have k : ∀ u : State, SameSchedule u ((((u.releaseEntries o.task).ops.foldl (fun s e =>
      if e.2.task == o.task && decide (e.2.state = .running) && !e.2.finished && e.1 != id then s.pushOnce (.command e.1)
      else s) (u.releaseEntries o.task))).finishOp id) o.task := by
    refine fun u => ((releaseEntries_sameSchedule u o.task).trans ?_).trans (finishOp_sameSchedule _ id o.task)
    refine SameSchedule.foldl (fun s e => ?_) _ _
    split
    · exact (State.pushOnce_due _ _).sameSchedule _
    · exact .refl _ _
  exact ⟨((k _).stage.trans (by rw [task_modTask])), (k _).mem⟩

/-! ### Spires -/

theorem pokeRound_due (s : State) (r : Nat) : OnlyDue s (s.pokeRound r) := by
  unfold State.pokeRound
  dsimp only
  split
  · split
    · exact State.event_due _ _
    · exact OnlyDue.refl _
  · exact State.event_due _ _

/-- The round that a first contribution opens. -/
def firstRound (task level number : Nat) (group : List Nat) : Round :=
  { task := task, level := level, group := group, number := number }

theorem joinRound_new (h : s.rounds = []) (task level number : Nat) (group : List Nat) :
    (s.joinRound task level number group).1 = s.nextId ∧
      (s.joinRound task level number group).2.rounds = AMap.set {} s.rounds s.nextId (firstRound task level number group) ∧
      (∀ r c, (s.joinRound task level number group).2.roundBroken r c = s.roundBroken r c) := by
  have hn : (s.rounds.find? fun e => e.2.task == task && e.2.level == level && e.2.group == group && e.2.number == number) =
      none := by rw [h, List.find?_nil]
  unfold State.joinRound
  rw [hn]
  exact ⟨rfl, rfl, fun _ _ => rfl⟩

theorem execSpire_contributes (h : Running s id o i) (h0 : o.sent = 0) (hd : o.data.length ≤ 1) {l : List (Nat × Byte)}
    (hr : s.readStream id (operandOf f.addr) (wholePieces (operandOf f.addr) f.len.toNat) = (s', .all l)) (hs : s'.rounds = [])
    (hb : s'.roundBroken { task := o.task, level := spireLevel f, group := s'.spireGroup o (spireLevel f), number := o.round }
      (chipOfCore o.core) = false) :
    ∃ t r, execSpire f s = .next t ∧ AMap.get {} t.rounds s'.nextId = r ∧ r.task = o.task ∧ r.number = o.round ∧
      r.contributions.map (·.bytes) = [l.map (·.2)] ∧ r.contributions.map (·.member) = [(s'.opSlot o).member] ∧
      r.disagreed = false := by
  rw [execSpire, command_running h]
  dsimp only
  rw [if_neg (by omega), if_neg (by simp [h0]), hr]
  dsimp only
  obtain ⟨j1, j2, j3⟩ := joinRound_new hs o.task (spireLevel f) o.round (s'.spireGroup o (spireLevel f))
  generalize s'.joinRound o.task (spireLevel f) o.round (s'.spireGroup o (spireLevel f)) = q at j1 j2 j3
  obtain ⟨rid, u⟩ := q
  subst j1
  dsimp only at j2 j3 ⊢
  have hg : AMap.get {} u.rounds s'.nextId = firstRound o.task (spireLevel f) o.round (s'.spireGroup o (spireLevel f)) := by
    rw [j2, AMap.get_set_self]
  have hu : u.roundBroken (firstRound o.task (spireLevel f) o.round (s'.spireGroup o (spireLevel f))) (chipOfCore o.core) =
      false := (j3 _ _).trans hb
  rw [hg, if_neg (by rw [hu]; exact Bool.false_ne_true)]
  refine ⟨_, _, rfl, congrArg (fun l => AMap.get {} l s'.nextId) (congrArg State.rounds (pokeRound_due _ _).rest :), ?_⟩
  have hr := fun r : Round => AMap.get_set_self ({} : Round) u.rounds s'.nextId r
  exact ⟨congrArg Round.task (hr _), congrArg Round.number (hr _),
    congrArg (fun r : Round => r.contributions.map (·.bytes)) (hr _),
    congrArg (fun r : Round => r.contributions.map (·.member)) (hr _), congrArg Round.disagreed (hr _)⟩

end

/-- Settles O46. -/
theorem engineTransfers : Obligations.EngineTransfers := by
  unfold Obligations.EngineTransfers
  intro s s' id o f l
  dsimp only
  refine ⟨fun h => ?_, fun ht he h => ?_, fun he h => ?_, fun h => ⟨fun hr => ?_, fun hr => ?_, fun p c v hr => ?_⟩,
    fun he h h0 hn => ⟨fun v k hx => ?_, fun hx hw => ?_⟩, fun he h h0 hn => ⟨fun v k hx => ?_, fun hx hw => ?_⟩,
    fun ht he h h0 hn => ⟨fun v k hx => ?_, fun hx hw => ?_⟩, fun h hc => ?_, fun h hc => ?_,
    fun hl h0 o1 h1 => ⟨fun hr => ⟨fun h hg => ?_, fun h hg => ?_⟩, fun c v hr => ⟨fun h => ?_, fun h => ?_⟩⟩,
    fun h hr => ?_, fun h hr hf => ?_, fun h => ?_, fun h h0 hd hr hs hm hb => ?_⟩
  · rw [exec_tzero, execTzero, command_running h]
  · rw [exec_tcopy, execTcopy, command_running h]
    dsimp only
    rw [if_neg ht, if_neg (by simp [he])]
  · rw [exec_ttrn, execTtrn, command_running h]
    dsimp only
    rw [if_neg (by simp [he])]
  · rw [exec_tld, execTld, command_running h]
    dsimp only
    rw [hr]
  · rw [exec_tld, execTld, command_running h]
    dsimp only
    rw [hr]
  · rw [exec_tld, execTld, command_running h]
    dsimp only
    rw [hr]
  · rw [exec_tst, execTst_reads h he, storeOut_fails h0 hn hx]
  · rw [exec_tst, execTst_reads h he, storeOut_sends h0 hn hx hw]
  · rw [exec_tsta, execTsta, command_running h]
    dsimp only
    rw [if_neg (by simp [he])]
    exact next_congr (storeOut_fails h0 hn hx)
  · rw [exec_tsta, execTsta, command_running h]
    dsimp only
    rw [if_neg (by simp [he])]
    exact next_congr (storeOut_sends h0 hn hx hw)
  · rw [exec_tcopy, execTcopy, command_running h]
    dsimp only
    rw [if_pos ht, if_neg (by simp [he])]
    exact next_congr (storeOut_fails h0 hn hx)
  · rw [exec_tcopy, execTcopy, command_running h]
    dsimp only
    rw [if_pos ht, if_neg (by simp [he])]
    exact next_congr (storeOut_sends h0 hn hx hw)
  · rw [exec_cpy, execCpy, runCopy_all h hc]
  · rw [exec_cpya, execCpya, runCopy_all h hc]
  · rw [exec_gath, execGath, runRows_all h hl h0 h1 _ hr hg]
  · rw [exec_scat, execScat, runRows_all h hl h0 h1 _ hr hg]
  · rw [exec_gath, execGath, runRows_fails h hl h0 h1 _ hr]
  · rw [exec_scat, execScat, runRows_fails h hl h0 h1 _ hr]
  · exact execCsched_joins h hr
  · rw [exec_csched, execCsched, command_running h]
    exact next_congr (if_pos ⟨hr, hf⟩)
  · exact execCstage_raises h
  · rw [← hm]
    exact execSpire_contributes h h0 hd hr hs hb

end Sys2Proof.Machine
end

section
/-! Proofs. Page-major attention: scores, partials and the Granary's slots (13 R354 to R359; 15 R394; O47). -/

namespace Sys2Proof.Machine

/-! ### What a slot does with a partial -/

section
variable {g : Granary} (ho : g.state = .opened) {q : Nat} (p : Partial)
include ho

theorem take'_outside (h : q < g.next ∨ g.first + g.count ≤ q ∨ g.reorder.any (·.1 == q)) : g.take' q p = .fault := by
  unfold Granary.take'
  rw [ho]
  exact if_pos h

/-- The slot after its next page, with no page held. -/
theorem take'_next (hr : g.reorder = []) (hq : q = g.next) (hl : q < g.first + g.count) :
    g.take' q p = .slot { g with merged := if g.have' then mergePartial g.merged p else p, have' := true, next := q + 1, state := if q + 1 = g.first + g.count then .full else .opened } := by
  subst hq
  have hd : (g.merge p).drain 8 = g.merge p := by
    rw [Granary.drain, show (g.merge p).reorder = [] from hr, List.find?_nil]
  unfold Granary.take'
  rw [ho]
  dsimp only
  rw [if_neg (by rw [hr]; simp; omega), if_pos rfl, hd, Granary.merge]
  dsimp only
  split
  · rfl
  · rw [← ho]

/-- The slot holds a later page of its range while there is room. -/
theorem take'_later (hn : g.next < q) (hl : q < g.first + g.count) (hr : g.reorder.any (·.1 == q) = false)
    (hw : g.reorder.length < 8) : g.take' q p = .slot { g with reorder := g.reorder ++ [(q, p)] } := by
  unfold Granary.take'
  rw [ho]
  dsimp only
  rw [if_neg (by rw [hr]; simp; omega), if_neg (by omega), if_pos hw, if_neg (by omega)]

end

section
variable {s : State} {id : Nat} {o : EngOp} {f : TileFields} {g : Granary}

theorem withSlot_sound (h : g.check = 0) (n : Nat) (slot : BitVec 32) (k : State → Granary → State) :
    withSlot s id n slot g k = k s g := if_pos h

theorem withSlot_lost (h : 2 ≤ g.check) (n : Nat) (slot : BitVec 32) (k : State → Granary → State) :
    withSlot s id n slot g k = (s.machineCheck n 0 (slot.setWidth 64)).faultOp id 0x16 (slot.setWidth 64) 0 false :=
  (if_neg (by omega)).trans (if_neg (by omega))

section
variable (h : Running s id o (.gmrg f)) (hs : s.heldSlot o f.len.toNat = some g) (he : s.tilesEmpty o [f.ta, f.tb] = false)
include h hs he

theorem execGmrg_reads : execGmrg f s = .next (withSlot s id (nodeOfCore o.core) f.len g fun s g =>
    match g.take' f.imm32.toNat (s.readPartial o f) with
    | .fault => s.faultOp id 0x07 (f.imm32.setWidth 64) 0 false
    | .wait => s.backToPort id o
    | .slot g => ((s.modGranary (nodeOfCore o.core) f.len.toNat fun _ => g).countOp o f.flag |>.finishOp id).kickPorts
        (nodeOfCore o.core)) := by
  rw [execGmrg, command_running h]
  dsimp only
  rw [hs]
  dsimp only
  rw [if_neg (by simp [he])] <;> rfl

variable (hc : g.check = 0)
include hc

theorem execGmrg_fault (ht : g.take' f.imm32.toNat (s.readPartial o f) = .fault) :
    execGmrg f s = .next (s.faultOp id 0x07 (f.imm32.setWidth 64) 0 false) := by
  rw [execGmrg_reads h hs he, withSlot_sound hc, ht]

theorem execGmrg_slot {g' : Granary} (ht : g.take' f.imm32.toNat (s.readPartial o f) = .slot g') :
    execGmrg f s = .next ((((s.modGranary (nodeOfCore o.core) f.len.toNat fun _ => g').countOp o f.flag).finishOp id).kickPorts
      (nodeOfCore o.core)) := by
  rw [execGmrg_reads h hs he, withSlot_sound hc, ht]

end

section
variable (h : Running s id o (.gtake f)) (h0 : o.sent = 0) (hs : s.heldSlot o f.len.toNat = some g)
include h h0 hs

theorem execGtake_lost (hc : 2 ≤ g.check) : execGtake f s =
    .next ((s.machineCheck (nodeOfCore o.core) 0 (f.len.setWidth 64)).faultOp id 0x16 (f.len.setWidth 64) 0 false) := by
  rw [execGtake, command_running h]
  dsimp only
  rw [if_neg (by omega), hs]
  exact next_congr (withSlot_lost hc _ _ _)

variable (hc : g.check = 0)
include hc

theorem execGtake_failed (hg : g.state = .failed) : execGtake f s =
    .next ((s.modGranary (nodeOfCore o.core) f.len.toNat fun g => { g with take := none }).faultOp id g.failure.1 g.failure.2 0
      false) := by
  rw [execGtake, command_running h]
  dsimp only
  rw [if_neg (by omega), hs]
  dsimp only
  rw [withSlot_sound hc, hg]

theorem execGtake_joining (hg : g.state = .joining) : execGtake f s =
    .next (takeStatus f (s.modOp id fun o => { o with sent := 1, data := [1] }) id 1) := by
  rw [execGtake, command_running h]
  dsimp only
  rw [if_neg (by omega), hs]
  dsimp only
  rw [withSlot_sound hc, hg]

theorem execGtake_full (hg : g.state = .full) : execGtake f s =
    .next ((takeStatus f (((s.write ((List.range g.rows).flatMap fun i => (List.range g.cols).flatMap fun c =>
      o.elemBytes f.td i c (elemOr (codeD o.fm f.ed)).bytes
        (granaryOut (elemOr (codeD o.fm f.ed)) ((g.merged.acc.getD i []).getD c 0) (g.merged.l.getD i 0)))).modGranary
          (nodeOfCore o.core) f.len.toNat fun g => g.reopen).modOp id fun o => { o with sent := 1, data := [0] }) id
            0).kickPorts (nodeOfCore o.core)) := by
  rw [execGtake, command_running h]
  dsimp only
  rw [if_neg (by omega), hs]
  dsimp only
  rw [withSlot_sound hc, hg]

end
end

/-- Settles O47. -/
theorem attentionResults : Obligations.AttentionResults := by
  unfold Obligations.AttentionResults
  intro s id o f g
  dsimp only
  refine ⟨fun h ha hb => ?_, fun h ha hb => ?_, fun i hi h hs hc he h0 => ?_, fun h hs he hc ho => ⟨fun hp => ?_, fun hp hr hl => ?_,
    fun hn hl hr hw => ?_, fun hr => ?_⟩, fun h h0 hs hc => ⟨execGtake_failed h h0 hs hc, execGtake_joining h h0 hs hc,
    execGtake_full h h0 hs hc⟩⟩
  · rw [exec_atts, execAtts, command_running h]
    dsimp only
    rw [if_neg (by simp [ha, hb])]
  · rw [exec_attp, execAttp, command_running h]
    dsimp only
    rw [if_neg (by simp [ha, hb])]
  · rw [List.mem_cons, List.mem_singleton] at hi
    rcases hi with rfl | rfl
    · rw [exec_gmrg, execGmrg_reads h hs he, withSlot_lost hc]
    · exact execGtake_lost h h0 hs hc
  · exact execGmrg_fault h hs he hc (take'_outside ho _ (by tauto))
  · exact execGmrg_slot h hs he hc (take'_next ho _ hr hp hl)
  · exact execGmrg_slot h hs he hc (take'_later ho _ hn hl hr hw)
  · exact execGmrg_fault h hs he hc (take'_outside ho _ (.inr (.inr hr)))

end Sys2Proof.Machine
end

section
/-! Proofs. Packets, gateways and links of the mesh: what each operation on them does, and what it leaves (03 R67 to R81). -/

namespace Sys2Proof.Machine

/-! ### Packets and gateways -/

theorem find?_append_ne {α : Type} (l : List (Nat × α)) {id k : Nat} (a : α) (h : k ≠ id) :
    find? (l ++ [(k, a)]) id = find? l id := by
  unfold find?
  rw [List.find?_append]
  cases l.find? (·.1 == id) <;> simp [h]

section
variable {s : State} {k : Nat} {p : Packet}

theorem packet?_modPacket (h : s.packet? k = some p) (f : Packet → Packet) : (s.modPacket k f).packet? k = some (f p) := by
  have h' : find? s.packets k = some p := h
  rw [State.packet?, State.modPacket_packets, find?_modRec, h', Option.map_some]

theorem packet?_modPacket_ne {j : Nat} (h : k ≠ j) (f : Packet → Packet) : (s.modPacket j f).packet? k = s.packet? k :=
  find?_modRec_ne _ _ h

theorem packet?_dropPacket_self : (s.dropPacket k).packet? k = none := find?_dropRec _ _

theorem packet?_dropPacket_ne {j : Nat} (h : k ≠ j) : (s.dropPacket j).packet? k = s.packet? k := find?_dropRec_ne _ h

end

theorem OnlyDue.packet? {s t : State} (h : OnlyDue s t) (k : Nat) : t.packet? k = s.packet? k := by rw [h.rest]; rfl

theorem OnlyDue.node {s t : State} (h : OnlyDue s t) (n : Nat) : t.node n = s.node n := by rw [h.rest]; rfl

theorem OnlyDue.same_mem {s t : State} (h : OnlyDue s t) : t.mem = s.mem := by rw [h.rest]

theorem due_event (s : State) (i : Instr) : Due.event i ∈ (s.event i).pending := List.mem_append_right _ (List.mem_singleton.2 rfl)

theorem gateway_modGateway_self (s : State) (n port : Nat) (f : Gateway → Gateway) :
    (s.modGateway n port f).gateway n port = f (s.gateway n port) := by
  rw [State.gateway, State.modGateway, State.chip_modChip_self]
  exact AMap.get_set_self _ _ _ _

/-- A change to a gateway that keeps that it has failed. -/
theorem gateway_modGateway_failed (s : State) (n port m q : Nat) {f : Gateway → Gateway} (hf : ∀ g, (f g).failed = true)
    (h : (s.gateway m q).failed = true) : ((s.modGateway n port f).gateway m q).failed = true := by
  by_cases hc : chipOfNode m = chipOfNode n
  · rw [State.gateway, State.modGateway, hc, State.chip_modChip_self]
    dsimp only
    by_cases hk : gatewayKey m q = gatewayKey n port
    · rw [hk, AMap.get_set_self]; exact hf _
    · rw [AMap.get_set_ne _ _ _ hk]; rw [State.gateway, hc] at h; exact h
  · have : (s.modGateway n port f).chip (chipOfNode m) = s.chip (chipOfNode m) := AMap.get_set_ne _ _ _ hc
    rw [State.gateway, this]
    exact h

theorem checks_modGateway (s : State) (n port c : Nat) (f : Gateway → Gateway) :
    ((s.modGateway n port f).chip c).checks = (s.chip c).checks := by
  by_cases h : c = chipOfNode n
  · subst h; rw [State.modGateway, State.chip_modChip_self]
  · exact congrArg Chip.checks (AMap.get_set_ne _ _ _ h : (s.modGateway n port f).chip c = s.chip c)

theorem checks_machineCheck (s : State) (n storage : Nat) (a : Word) :
    ((s.machineCheck n storage a).chip (chipOfNode n)).checks = (s.chip (chipOfNode n)).checks ++ [⟨n, storage, a⟩] := by
  rw [State.machineCheck, State.chip_modChip_self]

/-- A packet in the sending queue of a gateway, none of its flits sent. -/
def seamed (s : State) (n port : Nat) (p : Packet) : Packet := { p with loc := .seam n port, left := s.flits p.payload }

theorem joinGateway_eq (s : State) (n port pk : Nat) : s.joinGateway n port pk =
    ((s.modPacket pk (seamed s n port)).modGateway n port fun g => { g with queue := g.queue ++ [pk] }).event
      (.gatewayFrame pk true) := rfl

/-- What joining a sending queue does. -/
theorem joinGateway_joins {s : State} {pk : Nat} {p : Packet} (h : s.packet? pk = some p) (n port : Nat) :
    (s.joinGateway n port pk).packet? pk = some (seamed s n port p) ∧
      ((s.joinGateway n port pk).gateway n port).queue = (s.gateway n port).queue ++ [pk] ∧
      Due.event (.gatewayFrame pk true) ∈ (s.joinGateway n port pk).pending := by
  rw [joinGateway_eq]
  refine ⟨packet?_modPacket h _, ?_, due_event _ _⟩
  have h := gateway_modGateway_self (s.modPacket pk (seamed s n port)) n port fun g => { g with queue := g.queue ++ [pk] }
  exact (congrArg Gateway.queue h :)

/-! ### What copies and notices leave -/

/-- From `s` to `t` packets have only been added behind those that stand there. -/
structure Appends (s t : State) : Prop where
  packets : ∃ l, t.packets = s.packets ++ l
  mem : t.mem = s.mem
  due : ∀ d ∈ s.pending, d ∈ t.pending

theorem Appends.trans {s t u : State} (h : Appends s t) (h' : Appends t u) : Appends s u := by
  obtain ⟨l, hl⟩ := h.packets
  obtain ⟨m, hm⟩ := h'.packets
  exact ⟨⟨l ++ m, by rw [hm, hl, List.append_assoc]⟩, h'.mem.trans h.mem, fun d hd => h'.due d (h.due d hd)⟩

theorem Appends.refl (s : State) : Appends s s := ⟨⟨[], by simp⟩, rfl, fun _ => id⟩

theorem Appends.foldl {α : Type} {f : State → α → State} (h : ∀ s a, Appends s (f s a)) (l : List α) (s : State) :
    Appends s (l.foldl f s) := by
  induction l generalizing s with
  | nil => exact .refl s
  | cons a l ih => exact (h s a).trans (ih _)

theorem Appends.packet? {s t : State} (h : Appends s t) {k : Nat} {p : Packet} (hp : s.packet? k = some p) :
    t.packet? k = some p := by
  obtain ⟨l, hl⟩ := h.packets
  rw [State.packet?, hl]
  exact find?_append_of_some hp

theorem send_appends (s : State) (pl : Payload) (c : Class) (pa src dst : Nat) (ch : Bool) :
    Appends s (s.send pl c pa src dst ch) := ⟨⟨_, rfl⟩, rfl, fun _ => List.mem_append_left _⟩

theorem ackPartners_appends (s : State) (n acc : Nat) : Appends s (s.ackPartners n acc) := by
  unfold State.ackPartners
  split
  · exact .refl s
  · refine .trans (t := s.modAccess acc _) ⟨⟨[], (List.append_nil _).symm⟩, rfl, fun _ => id⟩ (.foldl (fun t k => ?_) _ _)
    split
    · exact send_appends _ _ _ _ _ _ _
    · exact .refl t

/-- From `s` to `t` a packet whose number has been given stands as it did, and no node changes. -/
structure Passes (s t : State) (pk : Nat) : Prop where
  nodes : t.nodes = s.nodes
  packet : pk < s.nextId → t.packet? pk = s.packet? pk ∧ pk < t.nextId

theorem Passes.refl (s : State) (pk : Nat) : Passes s s pk := ⟨rfl, fun h => ⟨rfl, h⟩⟩

theorem Passes.trans {s t u : State} {pk : Nat} (h : Passes s t pk) (h' : Passes t u pk) : Passes s u pk := by
  refine ⟨h'.nodes.trans h.nodes, fun hk => ?_⟩
  obtain ⟨e, l⟩ := h.packet hk
  obtain ⟨e', l'⟩ := h'.packet l
  exact ⟨e'.trans e, l'⟩

theorem Passes.foldl {α : Type} {f : State → α → State} {pk : Nat} (h : ∀ s a, Passes s (f s a) pk) (l : List α) (s : State) :
    Passes s (l.foldl f s) pk := by
  induction l generalizing s with
  | nil => exact .refl s pk
  | cons a l ih => exact (h s a).trans (ih _)

theorem OnlyDue.passes {s t : State} (h : OnlyDue s t) (pk : Nat) : Passes s t pk := by
  rw [h.rest]
  exact ⟨rfl, fun h => ⟨rfl, h⟩⟩

theorem addPacket_passes (s : State) (p : Packet) (pk : Nat) : Passes s (s.addPacket p).2 pk :=
  ⟨rfl, fun h => ⟨find?_append_ne _ _ (by omega), Nat.lt_succ_of_lt h⟩⟩

theorem send_passes (s : State) (pl : Payload) (c : Class) (pa src dst : Nat) (ch : Bool) (pk : Nat) :
    Passes s (s.send pl c pa src dst ch) pk :=
  (addPacket_passes s _ pk).trans ((State.event_due _ _).passes pk)

theorem modPacket_passes {s : State} {pk k : Nat} (h : pk ≠ k) (f : Packet → Packet) : Passes s (s.modPacket k f) pk :=
  ⟨rfl, fun hk => ⟨packet?_modPacket_ne h f, hk⟩⟩

theorem joinGateway_passes {s : State} {pk k : Nat} (h : pk ≠ k) (n port : Nat) : Passes s (s.joinGateway n port k) pk := by
  rw [joinGateway_eq]
  exact .trans (t := s.modPacket k _) (modPacket_passes h _) ⟨rfl, fun hk => ⟨rfl, hk⟩⟩

theorem machineCheck_passes (s : State) (n storage : Nat) (a : Word) (pk : Nat) : Passes s (s.machineCheck n storage a) pk :=
  ⟨rfl, fun hk => ⟨rfl, hk⟩⟩

theorem refuseAt_passes {s : State} {pk k : Nat} (h : pk ≠ k) (n : Nat) (p : Packet) : Passes s (s.refuseAt n k p) pk := by
  unfold State.refuseAt
  dsimp only
  have hd : Passes s (s.dropPacket k) pk := ⟨rfl, fun hk => ⟨packet?_dropPacket_ne h, hk⟩⟩
  have hn (t : State) (acc : Nat) : Passes t (match t.access? acc with
      | some a => if (t.node a.dst).inReset then t.send (.refused acc) .control a.parish n a.src false else t
      | none => t) pk := by
    split
    · split
      · exact send_passes _ _ _ _ _ _ _ _
      · exact .refl _ _
    · exact .refl _ _
  refine hd.trans ?_
  split
  · exact hn _ _
  · exact .foldl hn _ _
  · exact .foldl hn _ _
  · exact .refl _ _

theorem boundary_passes {s : State} {pk k : Nat} (h : pk ≠ k) (n m : Nat) (p : Packet) {f : State → State}
    (hf : Passes s (f s) pk) : Passes s (s.boundary n m k p f) pk := by
  unfold State.boundary
  split
  · exact hf
  · split
    · exact refuseAt_passes h n p
    · exact ⟨rfl, fun hk => ⟨packet?_dropPacket_ne h, hk⟩⟩

theorem sendCopy_passes {s : State} {pk : Nat} (hk : pk < s.nextId) (n : Nat) (p : Packet) (b : Nat × List (Nat × Nat)) :
    Passes s (s.sendCopy n p b) pk := by
  unfold State.sendCopy
  dsimp only
  have hne : pk ≠ s.nextId := by omega
  split
  · exact .foldl (fun t d => (addPacket_passes t _ pk).trans ((State.event_due _ _).passes pk)) _ _
  · split
    · split
      · exact machineCheck_passes _ _ _ _ _
      · exact (addPacket_passes s _ pk).trans (joinGateway_passes hne _ _)
    · split
      · exact machineCheck_passes _ _ _ _ _
      · refine (addPacket_passes s _ pk).trans (boundary_passes hne _ _ _ ?_)
        split
        · exact (modPacket_passes hne _).trans ((State.event_due _ _).passes pk)
        · exact joinGateway_passes hne _ _

theorem handedOver_due (s : State) (p : Packet) : OnlyDue s (s.handedOver p) := by
  unfold State.handedOver
  split
  · split
    · split
      · exact State.event_due _ _
      · exact .refl s
    · exact .refl s
  · exact .refl s

end Sys2Proof.Machine
end

section
/-! Proofs. Routing, frames, route tables and epochs of the mesh (03 R67 to R81; O49). -/

namespace Sys2Proof.Machine

/-! ### One hop -/

section
variable {s : State} {pk n : Nat} {p : Packet}

theorem overtakes_hops (h : s.packet? pk = some p) (hl : p.loc = .router n) (hc : p.cls ≠ .multicast)
    (ho : s.overtakes n pk p = false) (hm : ∀ k q, p.payload ≠ .drainMark k q) :
    exec (.packetRoute pk) s = .next (s.hop pk n p) := by
  rw [exec_packetRoute, execPacketRoute, h]
  dsimp only
  rw [hl]
  dsimp only
  split
  · next k q hq => exact absurd hq (hm k q)
  · rw [if_neg hc, ho] <;> rfl

theorem hop_home (h5 : s.portTo n p p.dst = 5) (hr : (s.node n).inReset = false) :
    s.hop pk n p = (s.modPacket pk fun p => { p with loc := .delivered }).event (arrivalEvent
      (s.modPacket pk fun p => { p with loc := .delivered }) pk p.payload) := by
  unfold State.hop
  dsimp only
  rw [if_pos h5, if_neg (by simp [hr])]

theorem hop_belfry (h4 : s.portTo n p p.dst = 4) (hn : n = belfryOf n) : s.hop pk n p = s.joinGateway n 4 pk := by
  unfold State.hop
  dsimp only
  rw [if_neg (by omega), if_pos h4, if_neg (not_not.2 hn)]

/-- A port that a router has leads to its neighbour. -/
theorem port_lt_of_neighbour {port m : Nat} (h : neighbour n port = some m) : port < 4 := by
  unfold neighbour at h
  dsimp only at h
  split at h <;> simp_all

theorem hop_neighbour {m : Nat} (h : neighbour n (s.portTo n p p.dst) = some m) (hr : (s.node m).inReset = false) :
    s.hop pk n p = if dieOfNode m = dieOfNode n then
      (s.modPacket pk fun p => { p with loc := .router m }).event (.packetRoute pk)
      else s.joinWithAdds n (s.portTo n p p.dst) pk p := by
  have hlt := port_lt_of_neighbour h
  unfold State.hop
  dsimp only
  rw [if_neg (by omega), if_neg (by omega), h]
  dsimp only
  rw [State.boundary, if_pos (by simp [hr])]

theorem hop_missing (hlt : s.portTo n p p.dst < 4) (h : neighbour n (s.portTo n p p.dst) = none) :
    s.hop pk n p = (s.dropPacket pk).machineCheck n 2 0 := by
  unfold State.hop
  dsimp only
  rw [if_neg (by omega), if_neg (by omega), h]

/-- A request that combines with none that waits joins the sending queue. -/
theorem joinWithAdds_joins {port : Nat} (hc : ∀ b, p.payload = .request b → ∀ k ∈ (s.gateway n port).queue, ∀ q a x y,
    s.packet? k = some q → q.payload = .request a → s.access? a = some x → s.access? b = some y → addsCombine x y = false) :
    s.joinWithAdds n port pk p = s.joinGateway n port pk := by
  unfold State.joinWithAdds
  split
  · next b hb =>
    split
    · rfl
    · next y hy =>
      dsimp only
      split
      · rfl
      · next a ha =>
        exfalso
        obtain ⟨k, hk, hka⟩ := List.exists_of_findSome?_eq_some ha
        split at hka
        · next q hq =>
          split at hka
          · next c hcq =>
            rw [Option.map_eq_some_iff] at hka
            obtain ⟨x, hx, -⟩ := hka
            rw [Option.filter_eq_some_iff] at hx
            simp [hc b hb k hk q c x y hq hcq hx.1 hy] at hx
          · simp at hka
        · simp at hka
  · rfl

/-- A request that combines with the first that waits becomes part of it. -/
theorem joinWithAdds_combines {port a b k : Nat} {r : List Nat} {q : Packet} {x y : Access} (hb : p.payload = .request b)
    (hg : (s.gateway n port).queue = k :: r) (hq : s.packet? k = some q) (hqa : q.payload = .request a)
    (ha : s.access? a = some x) (hy : s.access? b = some y) (hab : a ≠ b) (hc : addsCombine x y = true) :
    s.joinWithAdds n port pk p = (s.dropPacket pk).modAccess a fun x =>
      { x with req := sumAdds x.req y.req, partners := x.partners ++ [b] ++ y.partners, gate := n } := by
  unfold State.joinWithAdds
  rw [hb]
  dsimp only
  rw [hy]
  dsimp only
  rw [hg, List.findSome?_cons, hq]
  dsimp only
  rw [hqa]
  dsimp only
  rw [ha]
  simp only [Option.filter_some, hab, hc, ne_eq, not_false_eq_true, decide_true, Bool.and_self, if_true, Option.map_some]

/-! ### The port of a packet -/

theorem portTo_default (hb : (s.node n).banks = []) (dst : Nat) : s.portTo n p dst =
    match defaultPort n (if p.sexton then belfryOf n else exitNode (chipOfNode n) n dst) with
    | 5 => if p.sexton || chipOfNode dst != chipOfNode n then 4 else 5
    | q => q := by
  unfold State.portTo
  dsimp only
  have hn : (((List.range 64).map fun i => AMap.get 0 (s.node n).banks (64 * (p.epoch % 2) + i)).find? fun e =>
      routeMatches e p.parish (meshX (if p.sexton then belfryOf n else exitNode (chipOfNode n) n dst))
        (meshY (if p.sexton then belfryOf n else exitNode (chipOfNode n) n dst))) = none := by
    rw [List.find?_eq_none, hb]
    intro e he
    rw [List.mem_map] at he
    obtain ⟨i, -, rfl⟩ := he
    simp [AMap.get, routeMatches]
  rw [hn] <;> rfl

theorem portTo_inside (hb : (s.node n).banks = []) (hs : p.sexton = false) (hc : chipOfNode p.dst = chipOfNode n) :
    s.portTo n p p.dst = defaultPort n p.dst := by
  rw [portTo_default hb, hs]
  simp only [Bool.false_eq_true, if_false, exitNode, hc, if_true, Bool.false_or, bne_self_eq_false]
  split
  · next h => exact h.symm
  · rfl

theorem defaultPort_self (n : Nat) : defaultPort n n = 5 := by simp [defaultPort]

theorem portTo_sexton (hb : (s.node n).banks = []) (hs : p.sexton = true) (hn : n = belfryOf n) :
    s.portTo n p p.dst = 4 := by
  rw [portTo_default hb, hs]
  simp only [if_true, Bool.true_or]
  rw [← hn, defaultPort_self] <;> rfl

/-! ### Multicasts -/

theorem branches_home {a : Nat} (hd : p.dsts = [(n, a)]) (h5 : s.portTo n p n = 5) : s.branches n p = [(5, [(n, a)])] := by
  unfold State.branches
  rw [hd]
  simp [List.range_succ, h5]

/-- A multicast that has been copied for the one destination here. -/
def homeCopy (s : State) (pk n : Nat) (p : Packet) (a : Nat) : State :=
  ((s.modNode n fun v => { v with forks := v.forks.filter (· != pk) }).dropPacket pk).sendCopy n p (5, [(n, a)])

/-- The rest of a multicast in the fork buffer of a router. -/
def forkHeld (s : State) (pk n : Nat) (ds : List (Nat × Nat)) : State :=
  (s.modNode n fun v => { v with forks := v.forks ++ [pk] }).modPacket pk fun q =>
    { q with dsts := ds, via := none, loc := .waitingFork n }

theorem homeCopy_packets (s : State) (pk n : Nat) (p : Packet) (a : Nat) : (homeCopy s pk n p a).packets = dropRec s.packets pk ++
    [(s.nextId, { p with dst := n, dsts := [(n, a)], payload := p.payload.part [a], via := none, loc := .delivered })] := rfl

/-- A copy of a multicast goes to the one destination here. -/
theorem fork_home {a : Nat} (hk : pk < s.nextId) (hb : pk ∉ (s.node n).forks → s.behind n pk p = false)
    (hd : p.dsts = [(n, a)]) (h5 : s.portTo n p n = 5) (hf : s.branchFree n pk 5 = true) :
    ∃ t id, s.multicastAt n pk p = t ∧ t.packet? pk = none ∧
      (id, { p with dst := n, payload := p.payload.part [a], via := none, loc := .delivered }) ∈ t.packets ∧ t.mem = s.mem := by
  have hfork : s.fork n pk p = some (if (s.node n).forks.contains pk || p.via.isSome then homeCopy s pk n p a
      else (homeCopy s pk n p a).handedOver p) := by
    unfold State.fork
    dsimp only
    rw [if_neg, branches_home hd h5]
    · simp only [List.filter_cons, hf, if_true, Bool.not_true, Bool.false_eq_true, if_false, List.filter_nil, List.foldl_cons,
        List.foldl_nil]
      rfl
    · by_cases hc : pk ∈ (s.node n).forks
      · simp [hc]
      · simp [hb hc]
  refine ⟨_, s.nextId, rfl, ?_⟩
  rw [State.multicastAt, hfork]
  dsimp only
  have hdue : OnlyDue (homeCopy s pk n p a) (if (s.node n).forks.contains pk || p.via.isSome then homeCopy s pk n p a
      else (homeCopy s pk n p a).handedOver p).pokeForks := by
    refine .trans ?_ (State.pokeForks_due _)
    split
    · exact .refl _
    · exact handedOver_due _ _
  have hpk := hdue.packet? pk
  have hmem := congrArg State.packets hdue.rest
  rw [homeCopy_packets] at hmem
  have hgone : (homeCopy s pk n p a).packet? pk = none := by
    rw [State.packet?, homeCopy_packets]
    exact (find?_append_ne _ _ (by omega)).trans (find?_dropRec _ _)
  refine ⟨hpk.trans hgone, ?_, hdue.same_mem⟩
  rw [hmem, ← hd]
  exact List.mem_append_right _ (List.mem_singleton.2 rfl)

/-- With its only branch taken, a multicast waits where it is. -/
theorem fork_waits {b : Nat × List (Nat × Nat)} (hb : s.branches n p = [b]) (hf : s.branchFree n pk b.1 = false) :
    s.fork n pk p = none := by
  unfold State.fork
  dsimp only
  split
  · rfl
  · rw [hb]
    simp only [List.filter_cons, hf, Bool.false_eq_true, if_false, Bool.not_false, if_true, List.filter_nil, List.isEmpty_nil]
    split <;> rfl

/-- With one of two branches free, the rest of a multicast enters the fork buffer. -/
theorem fork_leaves {b c : Nat × List (Nat × Nat)} (hp : s.packet? pk = some p) (hk : pk < s.nextId)
    (hbs : s.branches n p = [b, c]) (hb : s.branchFree n pk b.1 = true) (hc : s.branchFree n pk c.1 = false)
    (hn : pk ∉ (s.node n).forks) (hbe : s.behind n pk p = false) (hl : (s.node n).forks.length < 4) :
    ((s.multicastAt n pk p).node n).forks = (s.node n).forks ++ [pk] ∧
      (s.multicastAt n pk p).packet? pk = some { p with dsts := c.2, via := none, loc := .waitingFork n } := by
  have hfork : s.fork n pk p = some (if p.via.isSome then (forkHeld s pk n c.2).sendCopy n p b
      else ((forkHeld s pk n c.2).sendCopy n p b).handedOver p) := by
    unfold State.fork
    dsimp only
    have hd : decide (4 ≤ (s.node n).forks.length) = false := by simpa using hl
    rw [hbs]
    simp only [List.filter_cons, hb, hc, if_true, Bool.not_true, Bool.not_false, Bool.false_eq_true, if_false, List.filter_nil,
      List.foldl_cons, List.foldl_nil, List.contains_eq_mem, hn, hbe, decide_false, Bool.and_false, hd,
      List.length_cons, List.length_nil, List.flatMap_cons, List.flatMap_nil, List.append_nil]
    rfl
  have hpass : Passes (forkHeld s pk n c.2) (s.multicastAt n pk p) pk := by
    rw [State.multicastAt, hfork]
    dsimp only
    refine .trans ?_ ((State.pokeForks_due _).passes pk)
    split
    · exact sendCopy_passes (s := forkHeld s pk n c.2) hk n p b
    · exact (sendCopy_passes (s := forkHeld s pk n c.2) hk n p b).trans ((handedOver_due _ _).passes pk)
  constructor
  · rw [State.node, hpass.nodes]
    exact congrArg Node.forks (State.node_modNode_self s n fun v => { v with forks := v.forks ++ [pk] })
  · rw [(hpass.packet hk).1]
    exact packet?_modPacket hp _

end

/-! ### Frames -/

section
variable {w : List (Nat × Nat × Nat)} {frame turn k : Nat}

theorem flitPlace_control (hf : frame % 8 = 0) (h : flitOf w 4 = some k) : flitPlace frame turn w = some (k, turn) := by
  unfold flitPlace
  dsimp only
  rw [if_pos hf, h] <;> rfl

theorem flitPlace_turn {j : Nat} (hj : j < 5) (hf : frame % 8 ≠ 0) (h : flitOf w ((turn + j) % 5) = some k)
    (hn : ∀ i, i < j → flitOf w ((turn + i) % 5) = none) :
    flitPlace frame turn w = some (k, ((turn + j) % 5 + 1) % 5) := by
  unfold flitPlace
  dsimp only
  rw [if_neg hf, List.findSome?_map]
  have hl : List.range 5 = List.range j ++ j :: (List.range (4 - j)).map (j + 1 + ·) := by
    interval_cases j <;> rfl
  rw [hl, List.findSome?_append, List.findSome?_eq_none_iff.2, List.findSome?_cons]
  · simp [h]
  · intro i hi
    simp [hn i (List.mem_range.1 hi)]

theorem composeFrame_of_place {t : Nat} (h : flitPlace frame turn w = some (k, t)) :
    ∃ r u, composeFrame frame turn w = (k :: r, u) := by
  unfold composeFrame
  rw [h]
  dsimp only
  split
  · exact ⟨[], t, rfl⟩
  · next j u _ => exact ⟨[j], u, rfl⟩

theorem flitOf_single {c m : Nat} (q : Nat) : flitOf [(k, c, m)] q = if c = q ∧ 0 < m then some k else none := by
  unfold flitOf
  by_cases h : c = q ∧ 0 < m
  · simp [h]
  · have h' : (c == q && decide (0 < m)) = false := by
      rw [Bool.and_eq_false_iff, beq_eq_false_iff_ne, decide_eq_false_iff_not]
      tauto
    simp [h, h']

theorem flitPlace_single {c m : Nat} (hc : c < 5) (hm : 1 ≤ m) : ∃ t, flitPlace frame turn [(k, c, m)] = some (k, t) := by
  by_cases hf : frame % 8 = 0 ∧ c = 4
  · exact ⟨turn, flitPlace_control hf.1 (by rw [flitOf_single, if_pos ⟨hf.2, hm⟩])⟩
  · unfold flitPlace
    dsimp only
    have h4 : frame % 8 = 0 → flitOf [(k, c, m)] 4 = none := fun h => by
      rw [flitOf_single, if_neg (fun hc => hf ⟨h, hc.1⟩)]
    obtain ⟨b, hb⟩ : ∃ b, (((List.range 5).map fun i => (turn + i) % 5).findSome? fun c' =>
        (flitOf [(k, c, m)] c').map fun k => (k, (c' + 1) % 5)) = some b := by
      refine Option.ne_none_iff_exists'.1 fun hn => ?_
      have := List.findSome?_eq_none_iff.1 hn c (List.mem_map.2 ⟨(c + 5 - turn % 5) % 5, List.mem_range.2 (by omega), by omega⟩)
      rw [flitOf_single, if_pos ⟨rfl, hm⟩] at this
      exact Option.some_ne_none _ this
    obtain ⟨c', -, hc'⟩ := List.exists_of_findSome?_eq_some hb
    rw [Option.map_eq_some_iff] at hc'
    obtain ⟨k', hk', rfl⟩ := hc'
    rw [flitOf_single] at hk'
    obtain ⟨-, hkk⟩ := Option.ite_none_right_eq_some.1 hk'
    obtain rfl := Option.some.inj hkk
    refine ⟨(c' + 1) % 5, ?_⟩
    split
    · next h => rw [h4 h, Option.map_none, Option.none_or, hb]
    · exact hb

theorem flitPlace_empty (c : Nat) : flitPlace frame turn [(k, c, 0)] = none := by
  unfold flitPlace
  simp [flitOf_single]

theorem composeFrame_last {c : Nat} (hc : c < 5) : ∃ u, composeFrame frame turn [(k, c, 1)] = ([k], u) := by
  obtain ⟨t, ht⟩ := flitPlace_single (frame := frame) (turn := turn) (k := k) hc le_rfl
  refine ⟨t, ?_⟩
  unfold composeFrame
  rw [ht]
  simp only [List.map_cons, List.map_nil, if_true, Nat.sub_self, flitPlace_empty]

theorem composeFrame_more {c m : Nat} (hc : c < 5) (hm : 2 ≤ m) : ∃ u, composeFrame frame turn [(k, c, m)] = ([k, k], u) := by
  obtain ⟨t, ht⟩ := flitPlace_single (frame := frame) (turn := turn) (k := k) hc (show 1 ≤ m by omega)
  obtain ⟨u, hu⟩ := flitPlace_single (frame := frame) (turn := t) (k := k) hc (show 1 ≤ m - 1 by omega)
  refine ⟨u, ?_⟩
  unfold composeFrame
  rw [ht]
  simp only [List.map_cons, List.map_nil, if_true, hu]

end

theorem classTurn_lt (c : Class) : classTurn c < 5 := by cases c <;> decide

/-- A packet waits alone at a gateway that works. -/
structure Alone (s : State) (pk n port : Nat) (p : Packet) : Prop where
  there : s.packet? pk = some p
  loc : p.loc = .seam n port
  sound : (s.gateway n port).failed = false
  held : (s.gateway n port).held = []
  queue : (s.gateway n port).queue = [pk]
  single : p.cls ≠ .multicast
  left : 1 ≤ p.left

section
variable {s : State} {pk n port : Nat} {p : Packet} (h : Alone s pk n port p)
include h

theorem waiting_alone : s.waiting n port = [(pk, classTurn p.cls, p.left)] := by
  unfold State.waiting
  rw [h.queue]
  simp [h.there, h.loc, State.mayCross, h.single]

/-- The gateway once a frame has been sent. -/
def frameSent (s : State) (n port turn : Nat) : State :=
  s.modGateway n port fun g => { g with frame := g.frame + 1, turn := turn, held := [], failures := 0 }

/-- What is done after a frame for the packet at which it was made due. -/
def frameAgain (s : State) (n port pk : Nat) (l : List Nat) : State :=
  if (s.packet? pk).any fun q : Packet => q.loc == .seam n port then
    if l.isEmpty then s else s.event (.gatewayFrame pk true)
  else s

theorem composeFrame_alone : ∃ l u, composeFrame (s.gateway n port).frame (s.gateway n port).turn
    [(pk, classTurn p.cls, p.left)] = (l, u) ∧ l.isEmpty = false := by
  obtain ⟨t, ht⟩ := flitPlace_single (frame := (s.gateway n port).frame) (turn := (s.gateway n port).turn) (k := pk)
    (classTurn_lt p.cls) h.left
  obtain ⟨r, u, hu⟩ := composeFrame_of_place ht
  exact ⟨_, u, hu, rfl⟩

theorem execGatewayFrame_passes {l : List Nat} {u : Nat}
    (hc : composeFrame (s.gateway n port).frame (s.gateway n port).turn [(pk, classTurn p.cls, p.left)] = (l, u)) :
    exec (.gatewayFrame pk true) s =
      .next (frameAgain (l.foldl (fun s k => s.flitCrosses n port k) (frameSent s n port u)) n port pk l) := by
  rw [exec_gatewayFrame, execGatewayFrame, h.there]
  dsimp only
  rw [h.loc]
  dsimp only
  rw [h.sound, h.held, waiting_alone h]
  simp only [List.isEmpty_nil, if_true, hc, Bool.false_eq_true, if_false, Bool.not_true, Bool.false_and]
  rfl

theorem execGatewayFrame_resends (hf : (s.gateway n port).failures < 15) : ∃ t, exec (.gatewayFrame pk false) s = .next t ∧
    t.packet? pk = some p ∧ (t.gateway n port).failures = (s.gateway n port).failures + 1 ∧
    Due.event (.gatewayFrame pk true) ∈ t.pending := by
  obtain ⟨l, u, hc, hl⟩ := composeFrame_alone h
  rw [exec_gatewayFrame, execGatewayFrame, h.there]
  dsimp only
  rw [h.loc]
  dsimp only
  rw [h.sound, h.held, waiting_alone h]
  simp only [List.isEmpty_nil, if_true, hc, Bool.false_eq_true, if_false, Bool.not_false, Bool.true_and, decide_eq_true_eq,
    Nat.not_le.2 (show (s.gateway n port).failures + 1 < 16 by omega), hl]
  have hp : ∀ f, (s.modGateway n port f).packet? pk = some p := fun _ => h.there
  refine ⟨_, rfl, ?_⟩
  rw [hp, Option.any_some, h.loc, if_pos (beq_self_eq_true _)]
  refine ⟨h.there, ?_, due_event _ _⟩
  have hg := gateway_modGateway_self s n port fun g => { g with held := l, turn := u, failures := g.failures + 1 }
  exact (congrArg Gateway.failures hg :)

end

/-! ### A gateway fails -/

/-- The sending queues that fail together. -/
def failing (n port : Nat) : List (Nat × Nat) :=
  match port with
  | 4 => [(n, 4), (n, 5)]
  | 5 => [(n, 5), (n, 4)]
  | _ =>
    match neighbour n port with
    | some m => [(n, port), (m, (port + 2) % 4)]
    | none => [(n, port)]

theorem self_mem_failing (n port : Nat) : (n, port) ∈ failing n port := by
  unfold failing
  split
  · simp
  · simp
  · split <;> simp

theorem opposite_mem_failing {n port m : Nat} (hp : port < 4) (h : neighbour n port = some m) :
    (m, opposite port) ∈ failing n port := by
  unfold failing
  split
  · omega
  · omega
  · rw [h]
    simp [opposite]

/-- Each of the gateways named fails. -/
def failAll (s : State) (l : List (Nat × Nat)) : State :=
  l.foldl (fun s e => s.modGateway e.1 e.2 fun g => { g with failed := true, failures := 16, queue := [], held := [] }) s

theorem failAll_keeps (l : List (Nat × Nat)) (s : State) (n port : Nat) (h : (s.gateway n port).failed = true) :
    ((failAll s l).gateway n port).failed = true := by
  induction l generalizing s with
  | nil => exact h
  | cons e l ih => exact ih _ (gateway_modGateway_failed s _ _ _ _ (fun _ => rfl) h)

theorem failAll_fails {l : List (Nat × Nat)} {e : Nat × Nat} (h : e ∈ l) (s : State) :
    ((failAll s l).gateway e.1 e.2).failed = true := by
  induction l generalizing s with
  | nil => simp at h
  | cons b l ih =>
    rcases List.mem_cons.1 h with rfl | h
    · exact failAll_keeps l _ _ _ (congrArg Gateway.failed (gateway_modGateway_self s e.1 e.2 _ :))
    · exact ih h _

theorem failAll_rest (l : List (Nat × Nat)) (s : State) :
    (failAll s l).packets = s.packets ∧ ∀ c, ((failAll s l).chip c).checks = (s.chip c).checks := by
  induction l generalizing s with
  | nil => exact ⟨rfl, fun _ => rfl⟩
  | cons e l ih =>
    obtain ⟨h1, h2⟩ := ih (s.modGateway e.1 e.2 fun g => { g with failed := true, failures := 16, queue := [], held := [] })
    exact ⟨h1, fun c => (h2 c).trans (checks_modGateway _ _ _ _ _)⟩

theorem failGateway_eq (s : State) (n port : Nat) : s.failGateway n port =
    (({ failAll s (failing n port) with packets := (failAll s (failing n port)).packets.filter fun e => !((failing n port).any fun g => decide (e.2.loc = .seam g.1 g.2)) } : State).machineCheck n 3 0).pokeForks := rfl

theorem failGateway_fails (s : State) (n port : Nat) : (∀ x ∈ (s.failGateway n port).packets, x.2.loc ≠ .seam n port) ∧
    (∀ e ∈ failing n port, ((s.failGateway n port).gateway e.1 e.2).failed = true) ∧
    ((s.failGateway n port).chip (chipOfNode n)).checks = (s.chip (chipOfNode n)).checks ++ [⟨n, 3, 0⟩] := by
  obtain ⟨hp, hc⟩ := failAll_rest (failing n port) s
  have hf := fun e (he : e ∈ failing n port) => failAll_fails he s
  rw [failGateway_eq, hp, (State.pokeForks_due _).rest]
  generalize failAll s (failing n port) = u at *
  refine ⟨fun x hx he => ?_, fun e he => ?_, ?_⟩
  · have := (List.mem_filter.1 hx).2
    simp only [Bool.not_eq_true', List.any_eq_false, decide_eq_true_eq] at this
    exact this _ (self_mem_failing n port) he
  · have hk : ∀ q, (({ u with packets := q } : State).machineCheck n 3 0).gateway e.1 e.2 = u.gateway e.1 e.2 := by
      intro q
      rw [State.gateway, State.machineCheck]
      by_cases h : chipOfNode e.1 = chipOfNode n
      · rw [h, State.chip_modChip_self]
        rw [State.gateway, h]
        rfl
      · exact congrArg (fun c : Chip => AMap.get {} c.gateways _) (AMap.get_set_ne _ _ _ h)
    exact (congrArg Gateway.failed (hk _)).trans (hf e he)
  · exact (checks_machineCheck _ n 3 0).trans (by rw [← hc]; rfl)

theorem mem_of_find? {α : Type} {l : List (Nat × α)} {k : Nat} {a : α} (h : find? l k = some a) : (k, a) ∈ l := by
  unfold find? at h
  obtain ⟨e, he, rfl⟩ := Option.map_eq_some_iff.1 h
  have hk := List.find?_some he
  rw [← eq_of_beq hk]
  exact List.mem_of_find?_eq_some he

theorem execGatewayFrame_fails {s : State} {pk n port : Nat} {p : Packet} (h : Alone s pk n port p)
    (hf : 15 ≤ (s.gateway n port).failures) : exec (.gatewayFrame pk false) s = .next (s.failGateway n port) := by
  obtain ⟨l, u, hc, hl⟩ := composeFrame_alone h
  rw [exec_gatewayFrame, execGatewayFrame, h.there]
  dsimp only
  rw [h.loc]
  dsimp only
  rw [h.sound, h.held, waiting_alone h]
  simp only [List.isEmpty_nil, if_true, hc, Bool.false_eq_true, if_false, Bool.not_false, Bool.true_and, decide_eq_true_eq,
    show 16 ≤ (s.gateway n port).failures + 1 by omega]
  refine next_congr (if_neg fun ha => ?_)
  obtain ⟨q, hq, hs⟩ := (Option.any_eq_true _ _).1 ha
  exact (failGateway_fails s n port).1 _ (mem_of_find? hq) (eq_of_beq hs)

theorem flitCrosses_more {s : State} {pk n port : Nat} {p : Packet} (h : s.packet? pk = some p) (hl : p.loc = .seam n port)
    (hm : 1 < p.left) : s.flitCrosses n port pk = s.modPacket pk fun q => { q with left := q.left - 1 } := by
  unfold State.flitCrosses
  rw [h]
  dsimp only
  rw [if_neg (not_not.2 hl), if_neg (by omega)]

theorem flitCrosses_last {s : State} {pk n port : Nat} {p : Packet} (h : s.packet? pk = some p) (hl : p.loc = .seam n port)
    (hm : p.left ≤ 1) : s.flitCrosses n port pk = (s.crossed n port pk p).pokeForks := by
  unfold State.flitCrosses
  rw [h]
  dsimp only
  rw [if_neg (not_not.2 hl), if_pos hm]

end Sys2Proof.Machine
end

section
/-! Proofs. What frames bring over a gateway, and the epochs of the mesh (03 R73 to R78; O49). -/

namespace Sys2Proof.Machine

/-! ### What a frame brings over -/

section
variable {s : State} {pk n port : Nat} {p : Packet}

theorem frameAgain_gone (h : ∀ q, s.packet? pk = some q → q.loc ≠ .seam n port) (l : List Nat) : frameAgain s n port pk l = s := by
  refine if_neg fun ha => ?_
  obtain ⟨q, hq, hs⟩ := (Option.any_eq_true _ _).1 ha
  exact h q hq (eq_of_beq hs)

theorem frameAgain_more {q : Packet} (h : s.packet? pk = some q) (hl : q.loc = .seam n port) (k : Nat) (l : List Nat) :
    frameAgain s n port pk (k :: l) = s.event (.gatewayFrame pk true) := by
  unfold frameAgain
  rw [h, Option.any_some, hl, if_pos (beq_self_eq_true _)] <;> rfl

/-- The last flit of a packet brings it to the router at the far end. -/
theorem crossed_arrives {m : Nat} (h : s.packet? pk = some p) (hp : port < 4) (hn : neighbour n port = some m)
    (hr : (s.node m).inReset = false) (hc : p.cls ≠ .multicast) :
    (s.crossed n port pk p).packet? pk = some { p with loc := .router m, via := none } ∧
      Due.event (.packetRoute pk) ∈ (s.crossed n port pk p).pending ∧ (s.crossed n port pk p).mem = s.mem := by
  have hfar : farEnd n port = some m := by rw [farEnd, if_neg (by omega), hn]
  obtain ⟨u, hu⟩ : ∃ u, u = ((s.modGateway n port fun g => { g with queue := g.queue.filter (· != pk) }).modPacket pk fun q =>
    { q with loc := .router m, via := if p.cls = .multicast then some n else none }).event (.packetRoute pk) := ⟨_, rfl⟩
  have hup : u.packet? pk = some { p with loc := .router m, via := none } := by
    rw [hu]
    have hq := packet?_modPacket (s := s.modGateway n port fun g => { g with queue := g.queue.filter (· != pk) }) h fun q =>
      { q with loc := .router m, via := if p.cls = .multicast then some n else none }
    rw [if_neg hc] at hq
    rw [if_neg hc]
    exact hq
  have hud : Due.event (.packetRoute pk) ∈ u.pending := by rw [hu]; exact due_event _ _
  have hum : u.mem = s.mem := by rw [hu]; rfl
  have happ : Appends u (s.crossed n port pk p) := by
    unfold State.crossed
    dsimp only
    rw [if_neg (by omega), hfar]
    dsimp only
    rw [State.boundary, if_pos (by rw [show ∀ f, (s.modGateway n port f).node m = s.node m from fun _ => rfl, hr]; rfl), ← hu]
    split
    · split
      · exact ackPartners_appends _ _ _
      · exact .refl u
    · exact .refl u
  exact ⟨happ.packet? hup, happ.due _ hud, happ.mem.trans hum⟩

theorem flitCrosses_arrives {m : Nat} (h : s.packet? pk = some p) (hl : p.loc = .seam n port) (h1 : p.left ≤ 1) (hp : port < 4)
    (hn : neighbour n port = some m) (hr : (s.node m).inReset = false) (hc : p.cls ≠ .multicast) :
    (s.flitCrosses n port pk).packet? pk = some { p with loc := .router m, via := none } ∧
      Due.event (.packetRoute pk) ∈ (s.flitCrosses n port pk).pending ∧ (s.flitCrosses n port pk).mem = s.mem := by
  obtain ⟨a, b, c⟩ := crossed_arrives h hp hn hr hc
  rw [flitCrosses_last h hl h1]
  have hd := State.pokeForks_due (s.crossed n port pk p)
  exact ⟨(hd.packet? pk).trans a, hd.mem b, hd.same_mem.trans c⟩

theorem gatewayFrame_arrives {m : Nat} (h : Alone s pk n port p) (h2 : p.left ≤ 2) (hp : port < 4)
    (hn : neighbour n port = some m) (hr : (s.node m).inReset = false) : ∃ t, exec (.gatewayFrame pk true) s = .next t ∧
      t.packet? pk = some { p with loc := .router m, via := none, left := 1 } ∧ Due.event (.packetRoute pk) ∈ t.pending ∧
      t.mem = s.mem := by
  have hgone : ∀ {t : State} {l}, t.packet? pk = some { p with loc := .router m, via := none, left := 1 } →
      frameAgain t n port pk l = t := fun ht => frameAgain_gone (fun q hq hs => by
    rw [ht] at hq
    rw [← Option.some.inj hq] at hs
    exact Loc.noConfusion hs) _
  rcases Nat.lt_or_ge 1 p.left with h1 | h1
  · have h2' : p.left = 2 := by omega
    obtain ⟨u, hu⟩ := composeFrame_more (frame := (s.gateway n port).frame) (turn := (s.gateway n port).turn) (k := pk)
      (classTurn_lt p.cls) (show 2 ≤ p.left by omega)
    refine ⟨_, execGatewayFrame_passes h hu, ?_⟩
    rw [List.foldl_cons, List.foldl_cons, List.foldl_nil,
      flitCrosses_more (s := frameSent s n port u) h.there h.loc h1]
    have hm := packet?_modPacket (s := frameSent s n port u) h.there fun q => { q with left := q.left - 1 }
    have hf := flitCrosses_arrives hm h.loc (show p.left - 1 ≤ 1 by omega) hp hn hr h.single
    rw [show p.left - 1 = 1 by omega] at hf
    rw [hgone hf.1]
    exact hf
  · have h1' : p.left = 1 := le_antisymm h1 h.left
    obtain ⟨u, hu⟩ := composeFrame_last (frame := (s.gateway n port).frame) (turn := (s.gateway n port).turn) (k := pk)
      (classTurn_lt p.cls)
    rw [← h1'] at hu
    refine ⟨_, execGatewayFrame_passes h hu, ?_⟩
    rw [List.foldl_cons, List.foldl_nil]
    have hf := flitCrosses_arrives (s := frameSent s n port u) h.there h.loc h1 hp hn hr h.single
    have he : ({ p with loc := .router m, via := none } : Packet) = { p with loc := .router m, via := none, left := 1 } := by
      rw [← h1']
    rw [he] at hf
    rw [hgone hf.1]
    exact hf

theorem gatewayFrame_more (h : Alone s pk n port p) (h2 : 2 < p.left) : ∃ t, exec (.gatewayFrame pk true) s = .next t ∧
    t.packet? pk = some { p with left := p.left - 2 } ∧ Due.event (.gatewayFrame pk true) ∈ t.pending ∧ t.mem = s.mem := by
  obtain ⟨u, hu⟩ := composeFrame_more (frame := (s.gateway n port).frame) (turn := (s.gateway n port).turn) (k := pk)
    (classTurn_lt p.cls) (show 2 ≤ p.left by omega)
  refine ⟨_, execGatewayFrame_passes h hu, ?_⟩
  have hm := packet?_modPacket (s := frameSent s n port u) h.there fun q => { q with left := q.left - 1 }
  have hm2 := packet?_modPacket hm fun q => { q with left := q.left - 1 }
  rw [List.foldl_cons, List.foldl_cons, List.foldl_nil,
    flitCrosses_more (s := frameSent s n port u) h.there h.loc (by omega),
    flitCrosses_more hm h.loc (show 1 < p.left - 1 by omega), frameAgain_more hm2 h.loc]
  exact ⟨hm2, due_event _ _, rfl⟩

/-! ### Reports of drained routers -/

/-- The routers of a chip that are in a rewrite. -/
def rewriting (s : State) (k : Nat) : List (Nat × Node) :=
  s.nodes.filter fun e => chipOfNode e.1 == chipOfNode k && e.2.swapping

/-- A router whose report has been taken ends its rewrite. -/
def endRewrite (s : State) (l : List (Nat × Node)) : State :=
  l.foldl (fun s e => s.modNode e.1 fun v => { v with swapping := false, drained := [], reported := false }) s

theorem endRewrite_packets (l : List (Nat × Node)) (s : State) : (endRewrite s l).packets = s.packets := by
  induction l generalizing s with
  | nil => rfl
  | cons e l ih => exact (ih _).trans rfl

theorem endRewrite_off (l : List (Nat × Node)) (s : State) {x : Nat} (h : (s.node x).swapping = false) :
    ((endRewrite s l).node x).swapping = false := by
  induction l generalizing s with
  | nil => exact h
  | cons e l ih =>
    refine ih _ ?_
    by_cases hx : x = e.1
    · subst hx; rw [State.node_modNode_self]
    · exact (congrArg Node.swapping (AMap.get_set_ne _ _ _ hx : _ = s.node x) :).trans h

theorem endRewrite_listed {l : List (Nat × Node)} (s : State) {x : Nat} (h : x ∈ l.map (·.1)) :
    ((endRewrite s l).node x).swapping = false := by
  induction l generalizing s with
  | nil => simp at h
  | cons e l ih =>
    rw [List.map_cons, List.mem_cons] at h
    rcases h with rfl | h
    · exact endRewrite_off l _ (by rw [State.node_modNode_self])
    · exact ih _ h

theorem mem_of_get {α : Type} {d : α} {m : AMap α} {k : Nat} (h : AMap.get d m k ≠ d) : (k, AMap.get d m k) ∈ m := by
  induction m with
  | nil => exact absurd rfl h
  | cons e m ih =>
    obtain ⟨j, v⟩ := e
    by_cases hj : j = k
    · subst hj
      rw [AMap.get, if_pos rfl]
      exact List.mem_cons_self
    · rw [AMap.get, if_neg hj] at h ⊢
      exact List.mem_cons_of_mem _ (ih h)

theorem mem_drop {α : Type} {m : AMap α} {k : Nat} {e : Nat × α} (h : e ∈ m.drop k) : e ∈ m ∧ e.1 ≠ k := by
  induction m with
  | nil => simp [AMap.drop] at h
  | cons x m ih =>
    obtain ⟨j, v⟩ := x
    unfold AMap.drop at h
    split at h
    · exact ⟨List.mem_cons_of_mem _ (ih h).1, (ih h).2⟩
    · next hj =>
      rcases List.mem_cons.1 h with rfl | h
      · exact ⟨List.mem_cons_self, hj⟩
      · exact ⟨List.mem_cons_of_mem _ (ih h).1, (ih h).2⟩

theorem mem_place {α : Type} {m : AMap α} {k : Nat} {v : α} {e : Nat × α} (h : e ∈ m.place k v) : e = (k, v) ∨ e ∈ m := by
  induction m with
  | nil => simpa [AMap.place] using h
  | cons x m ih =>
    obtain ⟨j, u⟩ := x
    unfold AMap.place at h
    split at h
    · exact List.mem_cons.1 h
    · rcases List.mem_cons.1 h with rfl | h
      · exact .inr List.mem_cons_self
      · exact (ih h).imp_right (List.mem_cons_of_mem _)

theorem mem_set {α : Type} [DecidableEq α] {d : α} {m : AMap α} {k : Nat} {v : α} {e : Nat × α} (h : e ∈ AMap.set d m k v) :
    e = (k, v) ∨ (e ∈ m ∧ e.1 ≠ k) := by
  unfold AMap.set at h
  split at h
  · exact .inr (mem_drop h)
  · exact (mem_place h).imp_right mem_drop

/-- With the last report of a chip, no router of it is in a rewrite. -/
theorem drainReported_ends {k : Nat}
    (hr : ∀ x ∈ s.nodes, chipOfNode x.1 = chipOfNode k → x.2.swapping = true → x.1 = k ∨ x.2.reported = true) (x : Nat)
    (hx : chipOfNode x = chipOfNode k) : ((s.drainReported k).node x).swapping = false := by
  obtain ⟨u, hu⟩ : ∃ u, u = s.modNode k fun v => { v with reported := true } := ⟨_, rfl⟩
  have hall : (rewriting u k).all (fun e => e.2.reported) = true := by
    rw [List.all_eq_true]
    intro e he
    obtain ⟨he, hs⟩ := List.mem_filter.1 he
    rw [Bool.and_eq_true, beq_iff_eq] at hs
    rw [hu] at he
    rcases mem_set he with rfl | ⟨he, hk⟩
    · rfl
    · exact (hr e he hs.1 hs.2).resolve_left hk
  have heq : s.drainReported k = endRewrite u (rewriting u k) := by
    unfold State.drainReported
    rw [← hu]
    exact if_pos hall
  rw [heq]
  by_cases hw : (u.node x).swapping = true
  · refine endRewrite_listed u (List.mem_map.2 ⟨(x, u.node x), List.mem_filter.2 ⟨mem_of_get fun hd => ?_, ?_⟩, rfl⟩)
    · rw [State.node, hd] at hw
      exact Bool.false_ne_true hw
    · simp [hx, hw]
  · exact endRewrite_off _ u (by simpa using hw)

theorem drainReported_packets (s : State) (k : Nat) : (s.drainReported k).packets = s.packets := by
  unfold State.drainReported
  dsimp only
  split
  · exact (endRewrite_packets _ _).trans rfl
  · rfl

theorem gatewayFrame_reports {k : Nat} (h : Alone s pk n 4 p) (h1 : p.left = 1) (hs : p.sexton = true) (hp : p.payload = .drained k)
    (hr : ∀ x ∈ s.nodes, chipOfNode x.1 = chipOfNode k → x.2.swapping = true → x.1 = k ∨ x.2.reported = true) :
    ∃ t, exec (.gatewayFrame pk true) s = .next t ∧ t.packet? pk = none ∧
      ∀ x, chipOfNode x = chipOfNode k → (t.node x).swapping = false := by
  obtain ⟨u, hu⟩ := composeFrame_last (frame := (s.gateway n 4).frame) (turn := (s.gateway n 4).turn) (k := pk)
    (classTurn_lt p.cls)
  obtain ⟨w, hw⟩ : ∃ w, w = ((frameSent s n 4 u).modGateway n 4 fun g => { g with queue := g.queue.filter (· != pk) }).dropPacket pk :=
    ⟨_, rfl⟩
  have hnode : w.nodes = s.nodes := by rw [hw]; rfl
  have hgone : w.packet? pk = none := by rw [hw]; exact packet?_dropPacket_self
  have hc : (frameSent s n 4 u).crossed n 4 pk p = w.drainReported k := by
    unfold State.crossed
    dsimp only
    rw [if_pos rfl, State.atBelfry, if_pos hs, hp, hw]
  have hd := State.pokeForks_due (w.drainReported k)
  have hpk : (w.drainReported k).pokeForks.packet? pk = none := by
    rw [hd.packet?, State.packet?, drainReported_packets]
    exact hgone
  rw [← h1] at hu
  refine ⟨_, execGatewayFrame_passes h hu, ?_⟩
  rw [List.foldl_cons, List.foldl_nil, flitCrosses_last (s := frameSent s n 4 u) h.there h.loc (by omega), hc,
    frameAgain_gone (fun q hq => by rw [hpk] at hq; exact absurd hq (by simp))]
  refine ⟨hpk, fun x hx => ?_⟩
  rw [hd.node]
  exact drainReported_ends (by rw [hnode]; exact hr) x hx

end

/-! ### Epochs -/

section
variable {s : State} {n port : Nat}

/-- The markers of a port become due, at the router and at its neighbour there. -/
def markersDue (n : Nat) (s : State) (p : Nat) : State :=
  let s := s.event (.drainMarker n p)
  match neighbour n p with
  | some m => s.event (.drainMarker m (opposite p))
  | none => s

/-- What one step of a fold brings about, and steps that only make something due keep, holds after it. -/
theorem foldl_due {α : Type} {f : State → α → State} (hf : ∀ s a, OnlyDue s (f s a)) {P : State → Prop}
    (hk : ∀ s t, OnlyDue s t → P s → P t) {l : List α} {a : α} (ha : a ∈ l) (h : ∀ s, P (f s a)) (s : State) : P (l.foldl f s) := by
  induction l generalizing s with
  | nil => simp at ha
  | cons b l ih =>
    rcases List.mem_cons.1 ha with rfl | ha
    · exact hk _ _ (OnlyDue.foldl hf l _) (h s)
    · exact ih ha _

theorem marker_due (hs : (s.node n).swapping = true) (hd : port ∉ (s.node n).drained) (hm : port ∈ meshPorts n)
    (hp : ∀ x ∈ s.packets, x.2.payload ≠ .drainMark n port) :
    ¬ (!(s.node n).swapping || (s.node n).drained.contains port || !(meshPorts n).contains port ||
      (s.packets.any fun e => decide (e.2.payload = .drainMark n port))) = true := by
  have ha : (s.packets.any fun e => decide (e.2.payload = .drainMark n port)) = false := by
    rw [List.any_eq_false]
    exact fun x hx => by simpa using hp x hx
  rw [ha]
  simp [hs, hd, hm]

theorem swapMarker_starts (h : (s.node n).swapping = false) : ∃ t, exec (.swapMarker n) s = .next t ∧
    t.node n = { s.node n with epoch := (s.node n).epoch + 1, swapping := true, drained := [], reported := false } ∧
    ∀ q ∈ meshPorts n, Due.event (.drainMarker n q) ∈ t.pending ∧
      ∀ k, neighbour n q = some k → Due.event (.drainMarker k (opposite q)) ∈ t.pending := by
  rw [show exec (.swapMarker n) s = execSwapMarker n s from rfl, execSwapMarker]
  dsimp only
  rw [if_neg (by simp [h])]
  refine ⟨_, rfl, ?_⟩
  have hone (s : State) (q : Nat) : OnlyDue s (markersDue n s q) := by
    unfold markersDue
    dsimp only
    split
    · exact (State.event_due _ _).trans (State.event_due _ _)
    · exact State.event_due _ _
  have hd := OnlyDue.foldl hone (meshPorts n) (s.modNode n fun v =>
    { v with epoch := v.epoch + 1, swapping := true, drained := [], reported := false })
  refine ⟨(hd.node n).trans (State.node_modNode_self _ _ _), fun q hq => ?_⟩
  refine foldl_due hone (P := fun t => Due.event (.drainMarker n q) ∈ t.pending ∧
    ∀ k, neighbour n q = some k → Due.event (.drainMarker k (opposite q)) ∈ t.pending)
    (fun t u h ⟨h1, h2⟩ => ⟨h.mem h1, fun k hk => h.mem (h2 k hk)⟩) hq (fun t => ?_) _
  unfold markersDue
  dsimp only
  split
  · next m hm =>
    exact ⟨(State.event_due _ _).mem (due_event _ _), fun k hk => by
      rw [hm] at hk
      rw [← Option.some.inj hk]
      exact due_event _ _⟩
  · next hm => exact ⟨due_event _ _, fun k hk => by rw [hm] at hk; exact absurd hk (by simp)⟩

/-- A drain marker that may not go yet is looked at again. -/
theorem drainMarker_waits (hs : (s.node n).swapping = true) (hd : port ∉ (s.node n).drained) (hm : port ∈ meshPorts n)
    (hp : ∀ x ∈ s.packets, x.2.payload ≠ .drainMark n port)
    (h : s.oldComing n port (s.node n).epoch = true ∨ ∃ m, neighbour n port = some m ∧ (s.node m).epoch < (s.node n).epoch ∧
      (s.node m).harvested = false) :
    exec (.drainMarker n port) s = .next (s.timer (n * 16) 4 (.event (.drainMarker n port))) := by
  rw [exec_drainMarker, execDrainMarker]
  dsimp only
  rw [if_neg (marker_due hs hd hm hp), if_pos]
  rcases h with h | ⟨m, h1, h2, h3⟩
  · rw [h]; rfl
  · rw [h1]; simp [h2, h3]

theorem drainMarker_goes (hs : (s.node n).swapping = true) (hd : port ∉ (s.node n).drained) (hm : port ∈ meshPorts n)
    (hp : ∀ x ∈ s.packets, x.2.payload ≠ .drainMark n port) (ho : s.oldComing n port (s.node n).epoch = false)
    (he : ¬ ∃ m, neighbour n port = some m ∧ (s.node m).epoch < (s.node n).epoch ∧ (s.node m).harvested = false) :
    exec (.drainMarker n port) s = .next (s.passMarker n port) := by
  rw [exec_drainMarker, execDrainMarker]
  dsimp only
  rw [if_neg (marker_due hs hd hm hp), if_neg]
  rw [ho, Bool.false_or]
  split
  · next m h1 =>
    intro h
    rw [Bool.and_eq_true, decide_eq_true_eq, Bool.not_eq_true'] at h
    exact he ⟨m, h1, h.1, h.2⟩
  · simp

/-- The marker that goes over the link into a router by a port. -/
def markerTo (s : State) (n port : Nat) : Packet :=
  { payload := .drainMark n port, cls := .control, parish := 0, epoch := (s.node n).epoch, src := n, dst := n, channel := false,
    loc := .router n }

theorem joinGateway_packets (s : State) (n port k : Nat) : (s.joinGateway n port k).packets = modRec s.packets k (seamed s n port) :=
  rfl

theorem mem_joinGateway {p : Packet} {k : Nat} (h : (k, p) ∈ s.packets) (n port : Nat) :
    (k, seamed s n port p) ∈ (s.joinGateway n port k).packets := by
  rw [joinGateway_packets]
  exact List.mem_map.2 ⟨_, h, by simp⟩

theorem passMarker_passes (s : State) (n port : Nat) : ∃ q, (s.nextId, q) ∈ (s.passMarker n port).packets ∧
    q.payload = .drainMark n port ∧ q.cls = .control ∧ (s.passMarker n port).node n = s.node n ∧
    (port ≠ 4 → (∀ m, neighbour n port = some m → dieOfNode m = dieOfNode n) →
      q.loc = .router n ∧ Due.event (.packetRoute s.nextId) ∈ (s.passMarker n port).pending) ∧
    (port = 4 → q.loc = .seam n 5 ∧ Due.event (.gatewayFrame s.nextId true) ∈ (s.passMarker n port).pending) ∧
    (∀ m, port ≠ 4 → neighbour n port = some m → dieOfNode m ≠ dieOfNode n →
      q.loc = .seam m (opposite port) ∧ Due.event (.gatewayFrame s.nextId true) ∈ (s.passMarker n port).pending) := by
  have hin : (s.nextId, markerTo s n port) ∈ (s.addPacket (markerTo s n port)).2.packets :=
    List.mem_append_right _ (List.mem_singleton.2 rfl)
  have hpass : s.passMarker n port = if port = 4 then (s.addPacket (markerTo s n port)).2.joinGateway n 5 s.nextId
      else match (neighbour n port).filter fun m => dieOfNode m ≠ dieOfNode n with
        | some m => (s.addPacket (markerTo s n port)).2.joinGateway m (opposite port) s.nextId
        | none => (s.addPacket (markerTo s n port)).2.event (.packetRoute s.nextId) := rfl
  rw [hpass]
  by_cases h4 : port = 4
  · rw [if_pos h4]
    exact ⟨_, mem_joinGateway hin n 5, rfl, rfl, rfl, fun h => absurd h4 h, fun _ => ⟨rfl, due_event _ _⟩, fun _ h => absurd h4 h⟩
  · rw [if_neg h4]
    split
    · next m hm =>
      rw [Option.filter_eq_some_iff, decide_eq_true_eq] at hm
      refine ⟨_, mem_joinGateway hin m _, rfl, rfl, rfl, fun _ h => absurd (h m hm.1) hm.2, fun h => absurd h h4, fun k _ hk _ => ?_⟩
      rw [hm.1] at hk
      rw [← Option.some.inj hk]
      exact ⟨rfl, due_event _ _⟩
    · next hm =>
      refine ⟨_, hin, rfl, rfl, rfl, fun _ _ => ⟨rfl, due_event _ _⟩, fun h => absurd h h4, fun k _ hk hkd => ?_⟩
      rw [hk] at hm
      simp [hkd] at hm

/-- A drain marker counts at its router, which reports once it has them all. -/
theorem portDrained_counts (hs : (s.node n).swapping = true) (hd : port ∉ (s.node n).drained) :
    (s.portDrained n port).node n = { s.node n with drained := NSet.insert (s.node n).drained port } ∧
      ((∃ q ∈ meshPorts n, q ∉ NSet.insert (s.node n).drained port) → (s.portDrained n port).packets = s.packets) ∧
      ((∀ q ∈ meshPorts n, q ∈ NSet.insert (s.node n).drained port) →
        ∃ q, (s.portDrained n port).packets = s.packets ++ [(s.nextId, q)] ∧ q.payload = .drained n ∧ q.cls = .control ∧
          q.sexton = true ∧ q.loc = .router n ∧ Due.event (.packetRoute s.nextId) ∈ (s.portDrained n port).pending) := by
  have hn := State.node_modNode_self s n fun v => { v with drained := NSet.insert (s.node n).drained port }
  unfold State.portDrained
  dsimp only
  rw [if_neg (by simp [hs, hd])]
  split
  · next h =>
    rw [List.all_eq_true] at h
    refine ⟨hn, fun ⟨q, hq, hi⟩ => ?_, fun _ => ⟨_, rfl, rfl, rfl, rfl, rfl, due_event _ _⟩⟩
    exact absurd (h q hq) (by simp [hi])
  · next h =>
    refine ⟨hn, fun _ => rfl, fun ha => absurd ?_ h⟩
    rw [List.all_eq_true]
    exact fun q hq => by simp [ha q hq]

end

end Sys2Proof.Machine
end

section
/-! Proofs. The mesh (03 R66 to R81; O49). -/

namespace Sys2Proof.Machine

section
variable {s : State} {pk n m : Nat} {p : Packet}

/-- A hop that stays between routers of a die, or comes to its node. -/
theorem modPacket_moves (h : s.packet? pk = some p) (l : Loc) (i : Instr) :
    ∃ t, ((.next ((s.modPacket pk fun p => { p with loc := l }).event i) : Out)) = .next t ∧
      t.packet? pk = some { p with loc := l } ∧ Due.event i ∈ t.pending ∧ t.mem = s.mem := by
  have hq := packet?_modPacket h fun p => { p with loc := l }
  exact ⟨_, rfl, hq, due_event _ _, rfl⟩

/-- Where a packet stands says nothing of what it makes due where it arrives, but for its number. -/
theorem arrivalEvent_moved (h : s.packet? pk = some p) (l : Loc) :
    arrivalEvent (s.modPacket pk fun p => { p with loc := l }) pk p.payload = arrivalEvent s pk p.payload := by
  unfold arrivalEvent
  have hq := packet?_modPacket h fun p => { p with loc := l }
  rw [hq, h]
  rfl

theorem access?_modAccess {a : Nat} {x : Access} (h : s.access? a = some x) (f : Access → Access) :
    (s.modAccess a f).access? a = some (f x) := by
  have h' : find? s.accesses a = some x := h
  exact (find?_modRec _ _ _).trans (by rw [h', Option.map_some])

theorem routeTableWrite_standby {bank idx : Nat} (e : Word) (hb : bank < 2) (hi : idx < 64)
    (h : ((s.node n).swapping = false ∧ bank = ((s.node n).epoch + 1) % 2) ∨ ∀ x ∈ s.parishes, x.2.present = false) :
    exec (.routeTableWrite n bank idx e) s = .next (s.modNode n fun v =>
      { v with banks := AMap.set 0 v.banks (64 * bank + idx) (e &&& ~~~(0x3FFFFF : Word)) }) := by
  rw [show exec (.routeTableWrite n bank idx e) s = execRouteTableWrite n bank idx e s from rfl, execRouteTableWrite]
  dsimp only
  rw [if_pos]
  refine ⟨hb, hi, ?_⟩
  rcases h with ⟨h1, h2⟩ | h
  · simp [h1, ← h2]
  · have : (s.parishes.any fun e => e.2.present) = false := by
      rw [List.any_eq_false]
      exact fun x hx => by simp [h x hx]
    simp [this]

theorem routeTableWrite_refused {bank idx : Nat} (e : Word)
    (h : (s.node n).swapping = true ∨ bank ≠ ((s.node n).epoch + 1) % 2) (hp : ∃ x ∈ s.parishes, x.2.present = true) :
    exec (.routeTableWrite n bank idx e) s = .next s := by
  rw [show exec (.routeTableWrite n bank idx e) s = execRouteTableWrite n bank idx e s from rfl, execRouteTableWrite]
  refine next_congr (if_neg fun hc => ?_)
  obtain ⟨-, -, hc⟩ := hc
  have ha : (s.parishes.any fun e => e.2.present) = true := List.any_eq_true.2 hp
  rw [ha] at hc
  rcases h with h | h <;> simp [h] at hc

theorem packetRoute_marks {port : Nat} (h : s.packet? pk = some p) (hl : p.loc = .router n) (hp : p.payload = .drainMark n port) :
    exec (.packetRoute pk) s = .next ((s.dropPacket pk).portDrained n port) := by
  rw [exec_packetRoute, execPacketRoute, h]
  dsimp only
  rw [hl]
  dsimp only
  rw [hp]

theorem copied_runs {i : Instr} (h : s.packet? pk = some p) (hm : ∀ k q, p.payload ≠ .drainMark k q)
    (hi : (i = .packetRoute pk ∧ p.loc = .router n ∧ p.cls = .multicast) ∨ (i = .forkBufferSend n pk ∧ p.loc = .waitingFork n)) :
    exec i s = .next (s.multicastAt n pk p) := by
  rcases hi with ⟨rfl, hl, hc⟩ | ⟨rfl, hl⟩
  · rw [exec_packetRoute, execPacketRoute, h]
    dsimp only
    rw [hl]
    dsimp only
    split
    · next k q hq => exact absurd hq (hm k q)
    · rw [if_pos hc]
  · rw [exec_forkBufferSend, execForkBufferSend, h]
    exact next_congr (if_pos hl)

end

/-- Settles O49. -/
theorem meshSteps : Obligations.MeshSteps := by
  unfold Obligations.MeshSteps
  intro s pk n m port p e bank idx i
  dsimp only
  have joins {q : Nat} (hp : s.packet? pk = some p) (he : exec (.packetRoute pk) s = .next (s.joinGateway n q pk)) :=
    (⟨_, he, joinGateway_joins hp n q⟩ : ∃ t, exec (.packetRoute pk) s = .next t ∧ t.packet? pk = some (seamed s n q p) ∧
      (t.gateway n q).queue = (s.gateway n q).queue ++ [pk] ∧ Due.event (.gatewayFrame pk true) ∈ t.pending)
  refine ⟨fun ⟨hp, hl, hc, ho, hm⟩ => ?_, fun hb => ⟨fun hs hc => portTo_inside hb hs hc, fun hs hn => portTo_sexton hb hs hn⟩,
    fun hp hk hm hi hb => ?_, fun frame turn w k => ⟨fun hf h => composeFrame_of_place (flitPlace_control hf h), fun j hj hf h hn =>
      composeFrame_of_place (flitPlace_turn hj hf h hn)⟩, fun ⟨h1, h2, h3, h4, h5, h6, h7⟩ => ?_, fun hb hi => ⟨fun h => ?_, fun h hp =>
      routeTableWrite_refused e h hp⟩, swapMarker_starts, fun hs hd hm hp => ⟨fun h => drainMarker_waits hs hd hm hp h, fun ho he => ?_⟩,
      fun hp hl hq hs hd => ?_⟩
  · have hhop := overtakes_hops hp hl hc ho hm
    refine ⟨fun h5 hr => ?_, fun h4 hn => ?_, fun hn hr => ⟨fun hd => ?_, fun hd => ⟨fun hcomb => ?_, fun b k r q a x y hb hg hq hqa ha hy
      hab hac => ?_⟩⟩, fun hlt hn => ?_⟩
    · rw [hhop, hop_home h5 hr, arrivalEvent_moved hp]
      exact modPacket_moves hp _ _
    · rw [h4]
      exact joins hp (by rw [hhop, hop_belfry h4 hn])
    · rw [hhop, hop_neighbour hn hr, if_pos hd]
      exact modPacket_moves hp _ _
    · exact joins hp (by rw [hhop, hop_neighbour hn hr, if_neg hd, joinWithAdds_joins hcomb])
    · rw [hhop, hop_neighbour hn hr, if_neg hd, joinWithAdds_combines hb hg hq hqa ha hy hab hac]
      exact ⟨_, rfl, packet?_dropPacket_self, access?_modAccess (s := s.dropPacket pk) ha _⟩
    · rw [hhop, hop_missing hlt hn]
      exact ⟨_, rfl, packet?_dropPacket_self, checks_machineCheck _ _ _ _⟩
  · have he := copied_runs hp hm hi
    refine ⟨fun a hd h5 hf => ?_, fun b hbs hf => ?_, fun b c hbs hbf hcf hn hlen => ?_⟩
    · obtain ⟨t, id, ht, h1, h2, h3⟩ := fork_home hk hb hd h5 hf
      exact ⟨t, id, by rw [he, ht], h1, h2, h3⟩
    · rw [he, State.multicastAt, fork_waits hbs hf]
    · obtain ⟨h1, h2⟩ := fork_leaves hp hk hbs hbf hcf hn (hb hn) hlen
      exact ⟨_, he, h1, h2⟩
  · have h : Alone s pk n port p := ⟨h1, h2, h3, h4, h5, h6, h7⟩
    refine ⟨fun hlt hle hn hr => gatewayFrame_arrives h hle hlt hn hr, gatewayFrame_more h, execGatewayFrame_resends h, fun hf => ?_,
      fun k h4 hl hs hp hc _ hr => ?_⟩
    · obtain ⟨f1, f2, f3⟩ := failGateway_fails s n port
      exact ⟨_, execGatewayFrame_fails h hf, f1, f2 _ (self_mem_failing n port), f3, fun hlt hn => f2 _ (opposite_mem_failing hlt hn)⟩
    · subst h4
      exact gatewayFrame_reports h hl hs hp hr
  · refine ⟨_, routeTableWrite_standby e hb hi h, ?_⟩
    have hn := State.node_modNode_self s n fun v =>
      { v with banks := AMap.set 0 v.banks (64 * bank + idx) (e &&& ~~~(0x3FFFFF : Word)) }
    rw [hn]
    exact ⟨AMap.get_set_self _ _ _ _, fun k hk => AMap.get_set_ne _ _ _ hk⟩
  · obtain ⟨q, h1, h2, h3, h4, h5, h6, h7⟩ := passMarker_passes s n port
    exact ⟨_, q, drainMarker_goes hs hd hm hp ho he, h1, h2, h3, h4, h5, h6, h7 m⟩
  · obtain ⟨h1, h2, h3⟩ := portDrained_counts (s := s.dropPacket pk) hs hd
    exact ⟨_, packetRoute_marks hp hl hq, h1, h2, h3⟩

end Sys2Proof.Machine
end

section
/-! Proofs. A cluster reset: what faults, freed slots and lost accesses leave of nodes and accesses (03 R85, R86; O50). -/

namespace Sys2Proof.Machine

/-! ### What a fault leaves of nodes, accesses and groups -/

/-- From `s` to `t` every node keeps what a cluster reset keeps of it. -/
def SameNodes (s t : State) : Prop :=
  ∀ n, (t.node n).inReset = (s.node n).inReset ∧ (t.node n).harvested = (s.node n).harvested ∧ (t.node n).banks = (s.node n).banks

theorem SameNodes.refl (s : State) : SameNodes s s := fun _ => ⟨rfl, rfl, rfl⟩

theorem SameNodes.trans {s t u : State} (h : SameNodes s t) (h' : SameNodes t u) : SameNodes s u := fun n =>
  ⟨(h' n).1.trans (h n).1, (h' n).2.1.trans (h n).2.1, (h' n).2.2.trans (h n).2.2⟩

theorem SameNodes.foldl {α : Type} {f : State → α → State} (h : ∀ s a, SameNodes s (f s a)) (l : List α) (s : State) :
    SameNodes s (l.foldl f s) := by
  induction l generalizing s with
  | nil => exact .refl s
  | cons a l ih => exact (h s a).trans (ih _)

theorem sameNodes_of_eq {s t : State} (h : t.nodes = s.nodes) : SameNodes s t := fun n => by
  rw [State.node, State.node, h]
  exact ⟨rfl, rfl, rfl⟩

theorem sameNodes_modNode (s : State) (n : Nat) {f : Node → Node}
    (h : ∀ v, (f v).inReset = v.inReset ∧ (f v).harvested = v.harvested ∧ (f v).banks = v.banks) : SameNodes s (s.modNode n f) := by
  intro m
  by_cases hm : m = n
  · subst hm
    rw [State.node_modNode_self]
    exact h _
  · rw [show (s.modNode n f).node m = s.node m from AMap.get_set_ne _ _ _ hm]
    exact ⟨rfl, rfl, rfl⟩

/-- From `s` to `t` groups stay, and every access is one of `s` of which no more has changed than who waits for it. -/
structure SameCounts (s t : State) : Prop where
  nodes : SameNodes s t
  groups : t.groups = s.groups
  accesses : ∀ e ∈ t.accesses, ∃ a, (e.1, a) ∈ s.accesses ∧ e.2.src = a.src ∧ e.2.dst = a.dst ∧ e.2.flag = a.flag ∧
    e.2.group = a.group ∧ e.2.req = a.req

theorem SameCounts.trans {s t u : State} (h : SameCounts s t) (h' : SameCounts t u) : SameCounts s u := by
  refine ⟨h.nodes.trans h'.nodes, h'.groups.trans h.groups, fun e he => ?_⟩
  obtain ⟨a, ha, h1, h2, h3, h4, h5⟩ := h'.accesses e he
  obtain ⟨b, hb, g1, g2, g3, g4, g5⟩ := h.accesses _ ha
  exact ⟨b, hb, h1.trans g1, h2.trans g2, h3.trans g3, h4.trans g4, h5.trans g5⟩

theorem sameCounts_of_eq {s t : State} (hn : SameNodes s t) (hg : t.groups = s.groups) (ha : t.accesses = s.accesses) :
    SameCounts s t :=
  ⟨hn, hg, fun e he => ⟨e.2, ha ▸ he, rfl, rfl, rfl, rfl, rfl⟩⟩

theorem SameCounts.refl (s : State) : SameCounts s s := sameCounts_of_eq (.refl s) rfl rfl

theorem SameCounts.foldl {α : Type} {f : State → α → State} (h : ∀ s a, SameCounts s (f s a)) (l : List α) (s : State) :
    SameCounts s (l.foldl f s) := by
  induction l generalizing s with
  | nil => exact .refl s
  | cons a l ih => exact (h s a).trans (ih _)

theorem OnlyDue.sameCounts {s t : State} (h : OnlyDue s t) : SameCounts s t := by
  rw [h.rest]
  exact sameCounts_of_eq (.refl _) rfl rfl

theorem sameCounts_modOp (s : State) (id : Nat) (f : EngOp → EngOp) : SameCounts s (s.modOp id f) :=
  sameCounts_of_eq (.refl _) rfl rfl

theorem sameCounts_modGranary (s : State) (n g : Nat) (f : Granary → Granary) : SameCounts s (s.modGranary n g f) :=
  sameCounts_of_eq (sameNodes_modNode s n fun _ => ⟨rfl, rfl, rfl⟩) rfl rfl

theorem sameCounts_trapIn (s : State) (t c : Nat) (v : Word) : SameCounts s (s.trapIn t c v) := by
  unfold State.trapIn
  dsimp only
  split <;> exact sameCounts_of_eq (.refl _) rfl rfl

theorem sameCounts_markTake (s : State) (id : Nat) : SameCounts s (s.markTake id) := by
  unfold State.markTake
  split
  · exact .refl s
  · split
    · split
      · split
        · exact sameCounts_modGranary _ _ _ _
        · exact .refl s
      · exact .refl s
    · exact .refl s

theorem sameCounts_kick (s : State) (core : Nat) (e : Engine) : SameCounts s (s.kick core e) := by
  unfold State.kick
  have h0 : SameCounts s (if e = .granary then ((s.core core).queue e).foldl State.markTake s else s) := by
    split
    · exact .foldl sameCounts_markTake _ s
    · exact .refl s
  dsimp only
  generalize (if e = .granary then ((s.core core).queue e).foldl State.markTake s else s) = t at h0 ⊢
  split
  · exact h0
  · split
    · refine h0.trans ?_
      refine .trans ?_ (State.event_due _ _).sameCounts
      exact sameCounts_of_eq (.trans (sameNodes_of_eq rfl : SameNodes t (t.modDie (dieOfNode (nodeOfCore core)) _))
        (sameNodes_modNode _ _ fun _ => ⟨rfl, rfl, rfl⟩)) rfl rfl
    · exact h0.trans ((sameCounts_modOp _ _ _).trans (State.pushOnce_due _ _).sameCounts)

theorem sameCounts_enqueue (s : State) (id : Nat) : SameCounts s (s.enqueue id) := by
  unfold State.enqueue
  split
  · exact .refl s
  · exact .trans (t := s.modCore _ _) (sameCounts_of_eq (.refl _) rfl rfl) (sameCounts_kick _ _ _)

theorem sameCounts_loomIdle (s : State) (core : Nat) : SameCounts s (s.loomIdle core) := by
  obtain ⟨u, hu⟩ : ∃ u, u = s.modNode (nodeOfCore core) fun v =>
    { v with toll := { v.toll with idleFrom := s.nodeTime (nodeOfCore core), waits := if s.loomBusy (nodeOfCore core) then v.toll.waits else none } } := ⟨_, rfl⟩
  have h : SameCounts s u := by
    rw [hu]
    exact sameCounts_of_eq (sameNodes_modNode _ _ fun _ => ⟨rfl, rfl, rfl⟩) rfl rfl
  have e : s.loomIdle core = u.timer (s.leadCore (nodeOfCore core)) 256 (.event (.tollReturn (nodeOfCore core))) := by
    rw [hu]
    rfl
  rw [e]
  exact h.trans (sameCounts_of_eq (.refl _) rfl rfl)

theorem sameCounts_leaveQueue (s : State) (id : Nat) (o : EngOp) : SameCounts s (s.leaveQueue id o) := by
  unfold State.leaveQueue
  dsimp only
  generalize hs1 : (s.modCore o.core fun c => c.setQueue o.engine ((c.queue o.engine).filter (· != id))) = s1
  have h1 : SameCounts s s1 := by rw [← hs1]; exact sameCounts_of_eq (.refl _) rfl rfl
  have h2 : SameCounts s1 (if o.engine = .loom then s1.loomIdle o.core else s1) := by
    split
    · exact sameCounts_loomIdle _ _
    · exact .refl _
  generalize (if o.engine = .loom then s1.loomIdle o.core else s1) = s2 at h2 ⊢
  have h3 (p : Nat → Slot → Bool) : SameCounts s (s2.wakeIf p) := (h1.trans h2).trans (State.wakeIf_due _ _).sameCounts
  split
  · exact (h3 _).trans (sameCounts_enqueue _ _)
  · exact (h3 _).trans (sameCounts_kick _ _ _)

theorem sameCounts_write (s : State) (l : List (Nat × Byte)) : SameCounts s (s.write l) := by
  unfold State.write State.refreshed State.dropStamps
  split <;> split <;> exact sameCounts_of_eq (.refl _) rfl rfl

theorem write_nodes (s : State) (l : List (Nat × Byte)) : (s.write l).nodes = s.nodes := by
  unfold State.write State.refreshed State.dropStamps
  split <;> split <;> rfl

theorem sameCounts_surface (s : State) (id : Nat) : SameCounts s (s.surface id) := by
  unfold State.surface
  split
  · exact .refl s
  · split
    · unfold State.surfaceTx
      split
      · exact (sameCounts_write _ _).trans (sameCounts_trapIn _ _ _ _)
      · exact .refl s
    · exact (State.wakeIf_due _ _).sameCounts
    · exact .refl s

theorem sameCounts_detachReads (s : State) (id : Nat) : SameCounts s (s.detachReads id) := by
  refine ⟨.refl _, rfl, fun e he => ?_⟩
  obtain ⟨x, hx, rfl⟩ := List.mem_map.1 he
  refine ⟨x.2, ?_, ?_⟩
  · split <;> exact hx
  · split <;> exact ⟨rfl, rfl, rfl, rfl, rfl⟩

theorem sameCounts_faultOp (s : State) (id c : Nat) (v : Word) (r : Nat) (b : Bool) : SameCounts s (s.faultOp id c v r b) := by
  unfold State.faultOp
  split
  · exact .refl s
  · next o ho =>
    dsimp only
    obtain ⟨u, hu⟩ : ∃ u, u = ((s.detachReads id).modOp id fun o =>
      { o with state := faultState c b, cause := c, tval := v, resume := r }).leaveQueue id o := ⟨_, rfl⟩
    have h1 : SameCounts s u := by
      rw [hu]
      exact ((sameCounts_detachReads s id).trans (sameCounts_modOp _ _ _)).trans (sameCounts_leaveQueue _ _ _)
    rw [← hu]
    have h2 : SameCounts u (if (u.joinable id o && c != 0x09) = true then u.surface id else u) := by
      split
      · exact sameCounts_surface _ _
      · exact .refl _
    generalize (if (u.joinable id o && c != 0x09) = true then u.surface id else u) = w at h2 ⊢
    split
    · exact (h1.trans h2).trans ((sameCounts_modOp _ _ _).trans (State.push_due _ _).sameCounts)
    · exact h1.trans h2

theorem sameCounts_kickPorts (s : State) (n : Nat) : SameCounts s (s.kickPorts n) := .foldl (fun _ _ => sameCounts_kick _ _ _) _ _

theorem sameCounts_faultWaiting (s : State) (n g t : Nat) : SameCounts s (s.faultWaiting n g t) := by
  unfold State.faultWaiting
  refine .foldl (fun u e => ?_) _ _
  split
  · exact sameCounts_faultOp _ _ _ _ _ _
  · exact .refl u

theorem retryRegistrations_due (s : State) (d : Nat) : OnlyDue s (s.retryRegistrations d) := by
  unfold State.retryRegistrations
  refine .foldl (fun u e => ?_) _ _
  split
  · exact State.event_due _ _
  · exact .refl u

theorem sameCounts_forgetSub (s : State) (sub : Nat) : SameCounts s (s.forgetSub sub) := by
  unfold State.forgetSub
  split
  · exact sameCounts_of_eq (.refl _) rfl rfl
  · exact .refl s

theorem sameCounts_unsubscribe (s : State) (n g : Nat) : SameCounts s (s.unsubscribe n g) := by
  unfold State.unsubscribe
  dsimp only
  refine .trans ?_ (sameCounts_kickPorts _ _)
  refine .trans ?_ (State.wakeIf_due _ _).sameCounts
  refine .trans ?_ (retryRegistrations_due _ _).sameCounts
  refine .trans ?_ (sameCounts_forgetSub _ _)
  exact .trans (.trans (sameCounts_modGranary s n g fun _ => {}) (sameCounts_faultWaiting _ n g (s.granary n g).owner))
    (sameCounts_of_eq (.refl _) rfl rfl)

/-! ### Accesses that end -/

theorem sameNodes_failWait {s t : State} {id c : Nat} {v : RegWait → Word} (h : s.failWait id c v = some t) : SameNodes s t := by
  unfold State.failWait at h
  dsimp only at h
  split at h
  · rw [← Option.some.inj h]
    exact (sameCounts_trapIn _ _ _ _).nodes
  · obtain ⟨e, -, rfl⟩ := Option.map_eq_some_iff.1 h
    exact sameNodes_of_eq ((write_nodes _ _).trans ((write_nodes _ _).trans (write_nodes _ _)))

theorem sameNodes_landLine (s : State) (a : Access) : SameNodes s (s.landLine a) := by
  unfold State.landLine
  dsimp only
  split
  · exact .refl s
  · exact sameNodes_of_eq (by rw [(State.pushOnce_due _ _).rest]; rfl)
  · exact sameNodes_of_eq rfl
  · split
    · split
      · exact (sameCounts_trapIn _ _ _ _).nodes
      · exact .refl s
    · exact sameNodes_modNode _ _ fun _ => ⟨rfl, rfl, rfl⟩
  · exact sameNodes_of_eq rfl
  · split <;> exact sameNodes_of_eq rfl

theorem sameNodes_retireAccess (s : State) (id : Nat) : SameNodes s (s.retireAccess id) := by
  cases h : s.access? id with
  | none => rw [State.retireAccess, h]; exact .refl s
  | some a => exact sameNodes_of_eq (State.retireAccess_retired h).nodes

theorem sameNodes_failGroup (s : State) (g : Nat) : SameNodes s (s.failGroup g) := by
  unfold State.failGroup
  split
  · exact .refl s
  · exact sameNodes_of_eq rfl

theorem sameNodes_loseAccess (s : State) (id : Nat) (a : Access) : SameNodes s (s.loseAccess id a) := by
  unfold State.loseAccess State.endAccess
  dsimp only
  have h12 : ¬ ((0x12 : Nat) = 0x17) := by decide
  rw [if_neg h12]
  obtain ⟨u, hu⟩ : ∃ u, u = (({ s with packets := s.packets.filter fun e => decide (e.2.payload ≠ Payload.request id) } : State).retireAccess
    id).failGroup a.group := ⟨_, rfl⟩
  have h1 : SameNodes s u := by
    rw [hu]
    exact .trans (t := { s with packets := s.packets.filter fun e => decide (e.2.payload ≠ Payload.request id) })
      (sameNodes_of_eq rfl) ((sameNodes_retireAccess _ _).trans (sameNodes_failGroup _ _))
  rw [← hu]
  refine h1.trans ?_
  split
  · exact sameNodes_landLine _ _
  · split
    · exact sameNodes_of_eq rfl
    · split
      · exact (sameCounts_trapIn _ _ _ _).nodes
      · split
        · next t ht => exact sameNodes_failWait ht
        · split
          · exact ((sameCounts_modOp _ _ _).trans (sameCounts_faultOp _ _ _ _ _ _)).nodes
          · split
            · exact .refl u
            · unfold State.modContext
              split <;> exact sameNodes_of_eq rfl

end Sys2Proof.Machine
end

section
/-! Proofs. Cluster reset, scrubbing and loss of power (03 R57, R85 to R88; 21 R443, R444; O50). -/

namespace Sys2Proof.Machine

/-! ### Maps of which some keys are removed -/

theorem get_filter_out {α : Type} {d : α} {m : AMap α} {p : Nat → Bool} {k : Nat} (h : p k = true) :
    AMap.get d (m.filter fun e => !p e.1) k = d := by
  induction m with
  | nil => rfl
  | cons e m ih =>
    by_cases hp : p e.1 = true
    · rw [List.filter_cons_of_neg (by simp [hp])]
      exact ih
    · rw [List.filter_cons_of_pos (by simpa using hp)]
      obtain ⟨j, v⟩ := e
      rw [AMap.get, if_neg]
      · exact ih
      · rintro rfl
        exact hp h

theorem coreByte_core {k o : Nat} (h : o < 2 ^ 16) : coreByte k o / 2 ^ 16 = k := by
  unfold coreByte
  omega

theorem coreByte_line {k o : Nat} (h : o < 2 ^ 16) : 128 * lineOf (coreByte k o) / 2 ^ 16 = k := by
  unfold lineOf coreByte
  omega

theorem coreByte_word {k o : Nat} (h : o < 2 ^ 16) : 8 * (coreByte k o / 8) / 2 ^ 16 = k := by
  unfold coreByte
  omega

theorem clusterHasByte_core {c : Cluster} {pa k : Nat} (hb : pa < hbmBase) (hk : pa / 2 ^ 16 = k)
    (h : clusterHas c (nodeOfCore k) = true) : clusterHasByte c pa = true := by
  rw [clusterHasByte, coreOfByte, if_pos hb]
  dsimp only
  rw [hk]
  exact h

/-! ### Cluster reset -/

/-- What a reset keeps of storage once it has cleared it. -/
structure KeepsStorage (s t : State) : Prop where
  mem : t.mem = s.mem
  empty : t.empty = s.empty
  errors : t.errors = s.errors

theorem KeepsStorage.refl (s : State) : KeepsStorage s s := ⟨rfl, rfl, rfl⟩

theorem KeepsStorage.trans {s t u : State} (h : KeepsStorage s t) (h' : KeepsStorage t u) : KeepsStorage s u :=
  ⟨h'.mem.trans h.mem, h'.empty.trans h.empty, h'.errors.trans h.errors⟩

theorem KeepsStorage.foldl {α : Type} {f : State → α → State} (h : ∀ s a, KeepsStorage s (f s a)) (l : List α) (s : State) :
    KeepsStorage s (l.foldl f s) := by
  induction l generalizing s with
  | nil => exact .refl s
  | cons a l ih => exact (h s a).trans (ih _)

theorem OnlyDue.keepsStorage {s t : State} (h : OnlyDue s t) : KeepsStorage s t := by
  rw [h.rest]
  exact ⟨rfl, rfl, rfl⟩

theorem OnlyDue.sameNodes {s t : State} (h : OnlyDue s t) : SameNodes s t := h.sameCounts.nodes

theorem freeSlot_storage (s : State) (t : Nat) : KeepsStorage s (s.freeSlot t) :=
  .trans (t := (s.setSlot t {}).dropTimers t) ⟨rfl, rfl, rfl⟩ (freeSlot_due s t).keepsStorage

theorem freeSlot_sameNodes (s : State) (t : Nat) : SameNodes s (s.freeSlot t) :=
  .trans (t := (s.setSlot t {}).dropTimers t) (sameNodes_of_eq rfl) (freeSlot_due s t).sameNodes

theorem freeAway_storage (s : State) (t : Nat) : KeepsStorage s (s.freeAway t) := by
  unfold State.freeAway
  refine .trans ?_ (freeSlot_storage _ _)
  refine .trans ?_ (State.wakeIf_due _ _).keepsStorage
  exact ⟨rfl, rfl, rfl⟩

theorem freeAway_sameNodes (s : State) (t : Nat) : SameNodes s (s.freeAway t) := by
  unfold State.freeAway
  refine .trans ?_ (freeSlot_sameNodes _ _)
  refine .trans ?_ (State.wakeIf_due _ _).sameNodes
  exact sameNodes_of_eq rfl

/-- Members of a task are ended. -/
def membersEnded (s : State) (t : Nat × Task) (l : List (Member × Nat)) (f : Task → Task) : State :=
  ((l.foldl (fun s e => s.setMember t.1 e.2 .ended) s).modTask t.1 f).pokeTask t.1

theorem membersEnded_keeps (s : State) (t : Nat × Task) (l : List (Member × Nat)) (f : Task → Task) :
    KeepsStorage s (membersEnded s t l f) ∧ SameNodes s (membersEnded s t l f) := by
  unfold membersEnded
  have h1 : KeepsStorage s (l.foldl (fun s e => s.setMember t.1 e.2 .ended) s) :=
    KeepsStorage.foldl (f := fun s (e : Member × Nat) => s.setMember t.1 e.2 .ended) (fun _ _ => ⟨rfl, rfl, rfl⟩) _ _
  have h2 : SameNodes s (l.foldl (fun s e => s.setMember t.1 e.2 .ended) s) :=
    SameNodes.foldl (f := fun s (e : Member × Nat) => s.setMember t.1 e.2 .ended) (fun _ _ => sameNodes_of_eq rfl) _ _
  generalize l.foldl (fun s e => s.setMember t.1 e.2 .ended) s = u at *
  exact ⟨h1.trans (.trans (t := u.modTask t.1 f) ⟨rfl, rfl, rfl⟩ (State.pokeTask_due _ _).keepsStorage),
    h2.trans (.trans (t := u.modTask t.1 f) (sameNodes_of_eq rfl) (State.pokeTask_due _ _).sameNodes)⟩

/-- The end of a task's members in the nodes of a cluster. -/
def endedIn (c : Cluster) (g : List (Nat × Nat)) (s : State) (t : Nat × Task) : State :=
  let hit := t.2.members.zipIdx.filter fun e =>
    (clusterHas c e.1.node || g.contains (t.1, e.2)) && !(decide (e.1.state = .halted) || decide (e.1.state = .ended))
  membersEnded s t hit fun k => if !hit.isEmpty && k.firstCause = 0 then { k with firstCause := 0x12 } else k

theorem endMembers_eq (s : State) (c : Cluster) (g : List (Nat × Nat)) : s.endMembers c g = s.tasks.foldl (endedIn c g) s := rfl

/-- The end of a task's members changes neither storage nor nodes. -/
theorem endMembers_keeps (s : State) (c : Cluster) (g : List (Nat × Nat)) :
    KeepsStorage s (s.endMembers c g) ∧ SameNodes s (s.endMembers c g) := by
  rw [endMembers_eq]
  exact ⟨.foldl (f := endedIn c g) (fun u t => (membersEnded_keeps u t _ _).1) _ _,
    .foldl (f := endedIn c g) (fun u t => (membersEnded_keeps u t _ _).2) _ _⟩

theorem pokeTolls_due (s : State) (d : Nat) : OnlyDue s (s.pokeTolls d) := .foldl (fun _ _ => State.event_due _ _) _ _

/-- A node in reset, with what is kept of it. -/
def inReset (v : Node) : Node := { inReset := true, harvested := v.harvested, banks := v.banks, epoch := v.epoch, seqs := v.seqs }

theorem resetNodes_resets (l : List Nat) (s : State) {n : Nat} (h : n ∈ l) :
    ((l.foldl (fun s n => s.modNode n inReset) s).node n).inReset = true := by
  have hk (u : State) (hu : (u.node n).inReset = true) (l : List Nat) :
      ((l.foldl (fun s n => s.modNode n inReset) u).node n).inReset = true := by
    induction l generalizing u with
    | nil => exact hu
    | cons m l ih =>
      refine ih _ ?_
      by_cases hm : n = m
      · subst hm; rw [State.node_modNode_self]; rfl
      · rw [show (u.modNode m inReset).node n = u.node n from AMap.get_set_ne _ _ _ hm]; exact hu
  induction l generalizing s with
  | nil => simp at h
  | cons m l ih =>
    rcases List.mem_cons.1 h with rfl | h
    · exact hk _ (by rw [State.node_modNode_self]; rfl) l
    · exact ih _ h

/-- Every node keeps its harvesting and its routes. -/
def KeepsRoutes (s t : State) : Prop :=
  ∀ n, (t.node n).harvested = (s.node n).harvested ∧ (t.node n).banks = (s.node n).banks

theorem resetNodes_keeps (l : List Nat) (s : State) : KeepsRoutes s (l.foldl (fun s n => s.modNode n inReset) s) := by
  induction l generalizing s with
  | nil => exact fun _ => ⟨rfl, rfl⟩
  | cons m l ih =>
    intro n
    obtain ⟨h1, h2⟩ := ih (s.modNode m inReset) n
    have h : ((s.modNode m inReset).node n).harvested = (s.node n).harvested ∧
        ((s.modNode m inReset).node n).banks = (s.node n).banks := by
      by_cases hm : n = m
      · subst hm; rw [State.node_modNode_self]; exact ⟨rfl, rfl⟩
      · rw [show (s.modNode m inReset).node n = s.node n from AMap.get_set_ne _ _ _ hm]; exact ⟨rfl, rfl⟩
    exact ⟨h1.trans h.1, h2.trans h.2⟩

theorem resetNodes_storage (l : List Nat) (s : State) : KeepsStorage s (l.foldl (fun s n => s.modNode n inReset) s) :=
  KeepsStorage.foldl (f := fun s n => s.modNode n inReset) (fun _ _ => ⟨rfl, rfl, rfl⟩) _ _

/-- The slots of a cluster's nodes are no longer subscribed. -/
def unsubscribed (c : Cluster) (s : State) : State :=
  (clusterNodes c).foldl (fun s n =>
    (List.range 32).foldl (fun s g => if (s.granary n g).sub ≠ 0 then s.unsubscribe n g else s) s) s

theorem unsubscribed_counts (c : Cluster) (s : State) : SameCounts s (unsubscribed c s) := by
  refine .foldl (fun u n => .foldl (fun w g => ?_) _ _) _ _
  split
  · exact sameCounts_unsubscribe _ _ _
  · exact .refl w

/-- An access that counts, and is lost with the cluster. -/
def lost (c : Cluster) (s : State) : List (Nat × Access) :=
  s.accesses.filter fun e => s.countedAccess e.2 && clusterHas c e.2.dst && !clusterHas c e.2.src

theorem lost_none {c : Cluster} {s t : State} (h : SameCounts s t)
    (hs : ∀ e ∈ s.accesses, s.countedAccess e.2 = true → clusterHas c e.2.dst = true → clusterHas c e.2.src = true) :
    lost c t = [] := by
  rw [lost, List.filter_eq_nil_iff]
  intro e he hc
  obtain ⟨a, ha, h1, h2, h3, h4, h5⟩ := h.accesses e he
  rw [Bool.and_eq_true, Bool.and_eq_true] at hc
  obtain ⟨⟨hc, hd⟩, hn⟩ := hc
  have hca : s.countedAccess a = true := by
    unfold State.countedAccess at hc ⊢
    rw [h.groups, h3, h4, h5] at hc
    exact hc
  rw [h1, hs _ ha hca (by rw [← h2]; exact hd)] at hn
  exact Bool.false_ne_true hn

/-- Storage, lines and errors without those of a cluster. -/
structure Cleared (c : Cluster) (s u : State) : Prop where
  mem : u.mem = s.mem.filter fun e => !clusterHasByte c e.1
  empty : u.empty = s.empty.filter fun l => !clusterHasByte c (128 * l)
  errors : u.errors = s.errors.filter fun e => !clusterHasByte c (8 * e.1)

/-- The slots of guests that have lost their home, and the homes of the guests of a cluster, are free. -/
def freed (away : List (Nat × Slot)) (homes : List Nat) (u : State) : State :=
  homes.foldl (fun s h => s.freeSlot h) (away.foldl (fun s e => s.freeAway e.1) u)

/-- The nodes of a cluster are in reset. -/
def nodesReset (c : Cluster) (u : State) : State := (clusterNodes c).foldl (fun s n => s.modNode n inReset) u

/-- Accesses and members end. -/
def ended (c : Cluster) (l : List (Nat × Access)) (g : List (Nat × Nat)) (u : State) : State :=
  (((l.foldl (fun s e => s.loseAccess e.1 e.2) u).endMembers c g).pokeTolls (c.chip * 8 + c.die)).pokeForks

theorem execClusterReset_shape (c : Cluster) (s : State) : ∃ (u : State) (away : List (Nat × Slot)) (homes : List Nat)
    (g : List (Nat × Nat)), Cleared c (unsubscribed c s) u ∧ u.nodes = (unsubscribed c s).nodes ∧
    exec (.clusterReset c) s = .next (ended c (lost c (unsubscribed c s)) g (nodesReset c (freed away homes u))) := by
  rw [exec_clusterReset]
  unfold execClusterReset
  extract_lets inOp s1 away homes there guests homes' counted s2 s3 s4 s5 s6 s7 s8
  exact ⟨s3, away, homes', guests, ⟨rfl, rfl, rfl⟩, rfl, rfl⟩

theorem freed_sameNodes (away : List (Nat × Slot)) (homes : List Nat) (u : State) : SameNodes u (freed away homes u) := by
  unfold freed
  exact .trans (SameNodes.foldl (f := fun s (e : Nat × Slot) => s.freeAway e.1) (fun s e => freeAway_sameNodes s e.1) away u)
    (SameNodes.foldl (f := fun s h => s.freeSlot h) (fun s h => freeSlot_sameNodes s h) homes _)

theorem freed_storage (away : List (Nat × Slot)) (homes : List Nat) (u : State) : KeepsStorage u (freed away homes u) := by
  unfold freed
  exact .trans (KeepsStorage.foldl (f := fun s (e : Nat × Slot) => s.freeAway e.1) (fun s e => freeAway_storage s e.1) away u)
    (KeepsStorage.foldl (f := fun s h => s.freeSlot h) (fun s h => freeSlot_storage s h) homes _)

theorem ended_sameNodes (c : Cluster) (l : List (Nat × Access)) (g : List (Nat × Nat)) (u : State) : SameNodes u (ended c l g u) := by
  unfold ended
  exact .trans (.trans (.trans (SameNodes.foldl (f := fun s (e : Nat × Access) => s.loseAccess e.1 e.2)
    (fun s e => sameNodes_loseAccess s e.1 e.2) l u) (endMembers_keeps _ c g).2) (pokeTolls_due _ _).sameNodes)
    (State.pokeForks_due _).sameNodes

theorem ended_storage (c : Cluster) (g : List (Nat × Nat)) (u : State) : KeepsStorage u (ended c [] g u) :=
  ((endMembers_keeps u c g).1.trans (pokeTolls_due _ _).keepsStorage).trans (State.pokeForks_due _).keepsStorage

theorem Cleared.reads {c : Cluster} {s u t : State} (h : Cleared c s u) (ht : KeepsStorage u t) {k o : Nat}
    (hk : clusterHas c (nodeOfCore k) = true) (ho : o < 2 ^ 16) (hb : coreByte k o < hbmBase) :
    t.byte (coreByte k o) = 0 ∧ t.lineEmpty (lineOf (coreByte k o)) = false ∧ AMap.get 0 t.errors (coreByte k o / 8) = 0 := by
  have hl : 128 * lineOf (coreByte k o) < hbmBase := by unfold lineOf; omega
  have hw : 8 * (coreByte k o / 8) < hbmBase := by omega
  refine ⟨?_, ?_, ?_⟩
  · rw [State.byte, ht.mem, h.mem]
    exact get_filter_out (p := clusterHasByte c) (clusterHasByte_core hb (coreByte_core ho) hk)
  · rw [State.lineEmpty, ht.empty, h.empty, List.contains_eq_mem, decide_eq_false_iff_not, List.mem_filter]
    rintro ⟨-, hn⟩
    rw [clusterHasByte_core hl (coreByte_line ho) hk] at hn
    exact Bool.false_ne_true hn
  · rw [ht.errors, h.errors]
    exact get_filter_out (p := fun w => clusterHasByte c (8 * w)) (clusterHasByte_core hw (coreByte_word ho) hk)

theorem clusterReset_resets (c : Cluster) (s : State) : ∃ t, exec (.clusterReset c) s = .next t ∧
    (∀ n ∈ clusterNodes c, (t.node n).inReset = true ∧ (t.node n).harvested = (s.node n).harvested ∧
      (t.node n).banks = (s.node n).banks) ∧
    ((∀ e ∈ s.accesses, s.countedAccess e.2 = true → clusterHas c e.2.dst = true → clusterHas c e.2.src = true) →
      ∀ k o, clusterHas c (nodeOfCore k) = true → o < 2 ^ 16 → coreByte k o < hbmBase →
        t.byte (coreByte k o) = 0 ∧ t.lineEmpty (lineOf (coreByte k o)) = false ∧
        AMap.get 0 t.errors (coreByte k o / 8) = 0) := by
  obtain ⟨u, away, homes, g, hc, hu, he⟩ := execClusterReset_shape c s
  have hs := unsubscribed_counts c s
  refine ⟨_, he, fun n hn => ?_, fun hl k o hk ho hb => ?_⟩
  · obtain ⟨e1, e2, e3⟩ := ended_sameNodes c (lost c (unsubscribed c s)) g (nodesReset c (freed away homes u)) n
    obtain ⟨r1, r2⟩ := resetNodes_keeps (clusterNodes c) (freed away homes u) n
    obtain ⟨-, f2, f3⟩ := ((hs.nodes.trans (sameNodes_of_eq hu)).trans (freed_sameNodes away homes u)) n
    exact ⟨e1.trans (resetNodes_resets _ _ hn), e2.trans (r1.trans f2), e3.trans (r2.trans f3)⟩
  · rw [lost_none hs hl]
    exact hc.reads (((freed_storage away homes u).trans (resetNodes_storage _ _)).trans (ended_storage c g _)) hk ho hb

/-! ### Release -/

/-- A node out of reset. -/
def released (v : Node) : Node := { v with inReset := false }

theorem release_nodes (l : List Nat) (s : State) (n : Nat) : (l.foldl (fun s n => s.modNode n released) s).node n =
    if n ∈ l then released (s.node n) else s.node n := by
  induction l generalizing s with
  | nil => rfl
  | cons m l ih =>
    rw [List.foldl_cons, ih]
    by_cases hm : n = m
    · subst hm
      rw [State.node_modNode_self, if_pos List.mem_cons_self]
      split <;> rfl
    · rw [show (s.modNode m released).node n = s.node n from AMap.get_set_ne _ _ _ hm]
      simp [hm]

/-! ### Scrubbing -/

section
variable {s : State} {pa : Nat}

theorem foldl_same {α β : Type} {f : β → α → β} {b : β} {l : List α} (h : ∀ a ∈ l, f b a = b) : l.foldl f b = b := by
  induction l with
  | nil => rfl
  | cons a l ih =>
    rw [List.foldl_cons, h a List.mem_cons_self]
    exact ih fun a ha => h a (List.mem_cons_of_mem _ ha)

theorem scrubAt_clean (h : s.errors = []) (pa n : Nat) : s.scrubAt pa n = s := by
  have hc : s.correct pa n = s := if_pos (by simp [h])
  unfold State.scrubAt
  rw [hc]
  exact foldl_same fun w _ => if_neg (by rw [h, AMap.get]; decide)

theorem get_single {α : Type} {d v : α} {w k : Nat} : AMap.get d [(w, v)] k = if w = k then v else d := rfl

/-- What one step of a fold changes, and the others keep, is what the fold changes. -/
theorem foldl_once {α β : Type} {f : β → α → β} {b c : β} {l : List α} {a : α} (hl : l.Nodup) (ha : a ∈ l) (h1 : f b a = c)
    (hb : ∀ x, x ≠ a → f b x = b) (hc : ∀ x, x ≠ a → f c x = c) : l.foldl f b = c := by
  induction l with
  | nil => simp at ha
  | cons x l ih =>
    rw [List.nodup_cons] at hl
    rw [List.foldl_cons]
    by_cases hx : x = a
    · subst hx
      rw [h1]
      exact foldl_same fun y hy => hc y fun e => hl.1 (e ▸ hy)
    · rw [hb x hx]
      exact ih hl.2 ((List.mem_cons.1 ha).resolve_left fun e => hx e.symm)

theorem wordsIn_nodup (pa n : Nat) : (wordsIn pa n).Nodup := by
  unfold wordsIn
  exact List.Nodup.map (fun a b h => Nat.add_left_cancel h) List.nodup_range

/-- A correctable error of the line is corrected and counted. -/
def corrected (s : State) (w pa : Nat) : State :=
  { s with errors := AMap.set 0 s.errors w 0 }.modCore (counterOf pa) fun c => { c with corrected := c.corrected + 1 }

theorem scrubAt_corrects {w n : Nat} (h : s.errors = [(w, 1)]) (hw : w ∈ wordsIn pa n) :
    s.scrubAt pa n = corrected s w pa ∧ (corrected s w pa).errors = [] := by
  have he : (corrected s w pa).errors = [] := by
    change AMap.set 0 s.errors w 0 = []
    rw [h]
    simp [AMap.set, AMap.drop]
  refine ⟨?_, he⟩
  have hc : s.correct pa n = corrected s w pa := by
    unfold State.correct
    rw [if_neg (by simp [h])]
    refine foldl_once (wordsIn_nodup pa n) hw ?_ (fun x hx => ?_) fun x _ => ?_
    · rw [h, get_single, if_pos rfl, if_pos rfl, ← h]
      rfl
    · simp [h, get_single, Ne.symm hx]
    · rw [he]
      rfl
  unfold State.scrubAt
  rw [hc]
  exact foldl_same fun w _ => by rw [he]; rfl

theorem scrubAt_reports {w n : Nat} (h : s.errors = [(w, 2)]) (hw : w ∈ wordsIn pa n) : s.scrubAt pa n =
    s.machineCheck (counterOf pa / 16) (if pa < hbmBase then 0 else 1) (BitVec.ofNat 64 (8 * w)) := by
  have hc : s.correct pa n = s := by
    unfold State.correct
    rw [if_neg (by simp [h])]
    refine foldl_same fun x _ => ?_
    rw [h, get_single]
    split <;> rfl
  unfold State.scrubAt
  rw [hc]
  have he : ∀ n st a, (s.machineCheck n st a).errors = [(w, 2)] := fun _ _ _ => h
  refine foldl_once (wordsIn_nodup pa n) hw ?_ (fun x hx => ?_) fun x hx => ?_
  · rw [h, get_single, if_pos rfl, if_pos rfl]
  · simp [h, get_single, Ne.symm hx]
  · simp [he, get_single, Ne.symm hx]

end

/-! ### Loss of power -/

/-- Storage of a chip. -/
def chipHasByte (chip pa : Nat) : Bool :=
  if pa < hbmBase then chipOfCore (pa / 2 ^ 16) == chip else decide (pa < hostBase) && (pa - hbmBase) / 2 ^ 40 == chip

theorem eraseChip_erases (s : State) {chip : Nat} (off : Bool) (hc : chip < 2 ^ 18) :
    (s.eraseChip chip off).chip chip = { off := off } ∧
      (∀ k o, chipOfCore k = chip → o < 2 ^ 16 → (s.eraseChip chip off).byte (coreByte k o) = 0 ∧
        (s.eraseChip chip off).lineEmpty (lineOf (coreByte k o)) = false) ∧
      (∀ h < 2 ^ 40, (s.eraseChip chip off).byte (hbmByte chip h) = 0) ∧
      (∀ n g, chipOfNode n = chip → ((s.eraseChip chip off).granary n g).state = .free) ∧
      ∀ u, chipOfThread u = chip → ((s.eraseChip chip off).slot u).state = .free := by
  have hmem : (s.eraseChip chip off).mem = s.mem.filter fun e => !chipHasByte chip e.1 := rfl
  have hempty : (s.eraseChip chip off).empty = s.empty.filter fun l => !chipHasByte chip (128 * l) := rfl
  have hslots : (s.eraseChip chip off).slots = s.slots.filter fun e => !(chipOfThread e.1 == chip) := rfl
  have hnodes : (s.eraseChip chip off).nodes = s.nodes.filter fun e => !(chipOfNode e.1 == chip) := rfl
  have hcore {k pa : Nat} (hk : chipOfCore k = chip) (hp : pa / 2 ^ 16 = k) : chipHasByte chip pa = true := by
    have hlt : pa < hbmBase := by
      unfold chipOfCore chipOfNode nodeOfCore at hk
      unfold hbmBase
      omega
    rw [chipHasByte, if_pos hlt, hp, hk, beq_self_eq_true]
  refine ⟨AMap.get_set_self _ _ _ _, fun k o hk ho => ⟨?_, ?_⟩, fun h hh => ?_, fun n g hn => ?_, fun u hu => ?_⟩
  · rw [State.byte, hmem]
    exact get_filter_out (p := chipHasByte chip) (hcore hk (coreByte_core ho))
  · rw [State.lineEmpty, hempty, List.contains_eq_mem, decide_eq_false_iff_not, List.mem_filter]
    rintro ⟨-, hn⟩
    rw [hcore hk (coreByte_line ho)] at hn
    exact Bool.false_ne_true hn
  · rw [State.byte, hmem]
    refine get_filter_out (p := chipHasByte chip) ?_
    unfold chipHasByte hbmByte hbmBase hostBase
    rw [if_neg (by omega)]
    have e : (2 ^ 60 + chip * 2 ^ 40 + h - 2 ^ 60) / 2 ^ 40 = chip := by omega
    rw [e, beq_self_eq_true, Bool.and_true, decide_eq_true_eq]
    omega
  · have hg : (s.eraseChip chip off).node n = {} := by
      rw [State.node, hnodes]
      exact get_filter_out (p := fun k => chipOfNode k == chip) (by simp [hn])
    rw [State.granary, hg]
    rfl
  · rw [State.slot, hslots]
    exact congrArg Slot.state (get_filter_out (p := fun k => chipOfThread k == chip) (by simp [hu]))

end Sys2Proof.Machine
end

section
/-! Proofs. What scrubbers count and report, and resets (03 R57, R85 to R88; O50). -/

namespace Sys2Proof.Machine

section
variable {s : State} {core : Nat}

/-- A line of a core is counted at that core. -/
theorem counterOf_line (hb : coreByte core (128 * (s.core core).scrubLine) < hbmBase) (hl : (s.core core).scrubLine < 384) :
    counterOf (coreByte core (128 * (s.core core).scrubLine)) = core := by
  rw [counterOf, coreOfByte, if_pos hb]
  exact coreByte_core (by omega)

theorem scrub_eq (found : ScrubFinding) : exec (.scrub core found) s =
    .next (((s.scrubAt (coreByte core (128 * (s.core core).scrubLine)) 128).scrubFinding
      (coreByte core (128 * (s.core core).scrubLine)) found).modCore core fun c =>
        { c with scrubLine := (c.scrubLine + 1) % 384 }) := rfl

theorem core_modCore_self (s : State) (c : Nat) (f : Core → Core) : (s.modCore c f).core c = f (s.core c) := AMap.get_set_self _ _ _ _

theorem corrected_modCore (s : State) (k c : Nat) : (((s.modCore k fun c => { c with scrubLine := (c.scrubLine + 1) % 384 }).core c).corrected)
    = (s.core c).corrected := by
  by_cases h : c = k
  · subst h
    rw [core_modCore_self]
  · exact congrArg Core.corrected (AMap.get_set_ne _ _ _ h : _ = s.core c)

end

/-- A channel's line is none of a core. -/
theorem channelLine_hbm (chip ch j : Nat) : ¬ channelLine chip ch j < hbmBase := by
  unfold channelLine hbmByte
  dsimp only
  omega

theorem channelScrub_eq {s : State} (he : s.errors = []) (chip ch : Nat) (f : ScrubFinding) : exec (.channelScrub chip ch f) s =
    .next ((s.modNode (homeOfByte (channelLine chip ch 0)).1 fun v => { v with scrubLine := (v.scrubLine + 1) % 2 ^ 24 }).scrubFinding
      (channelLine chip ch (s.node (homeOfByte (channelLine chip ch 0)).1).scrubLine) f) := by
  rw [exec_channelScrub, execChannelScrub]
  dsimp only
  rw [State.scrubChannel, scrubAt_clean he]

theorem scrubFinding_nodes (s : State) (pa : Nat) (f : ScrubFinding) : (s.scrubFinding pa f).nodes = s.nodes := by
  unfold State.scrubFinding
  split
  · rfl
  · rfl
  · split <;> rfl

/-- Settles O50. -/
theorem resetAndScrub : Obligations.ResetAndScrub := by
  unfold Obligations.ResetAndScrub
  intro s c core chip ch n a
  dsimp only
  refine ⟨clusterReset_resets c s, ⟨_, rfl, fun k hk => ?_, fun k hk => ?_⟩, fun he => ⟨⟨_, scrub_eq .clean, ?_⟩, fun hb hl => ⟨⟨_, scrub_eq (.corrected n), ?_⟩,
    fun ha => ⟨_, scrub_eq (.uncorrectable a), ?_⟩⟩, fun f => ⟨_, channelScrub_eq he chip ch f, ?_, fun hf => ?_, fun hf => ?_, fun hf ha => ?_⟩⟩, fun w k he hw => ⟨fun hk => ⟨_, scrub_eq .clean, ?_⟩,
    fun hk hb => ⟨_, scrub_eq .clean, ?_⟩⟩, fun h => ⟨_, rfl, eraseChip_erases s false h⟩, fun h => ⟨_, rfl, eraseChip_erases s true h⟩,
    fun h => ⟨_, rfl, eraseChip_erases s true h⟩⟩
  · exact (release_nodes _ s k).trans (if_pos hk)
  · exact (release_nodes _ s k).trans (if_neg hk)
  · rw [scrubAt_clean he]
    exact ⟨rfl, core_modCore_self s core _⟩
  · rw [scrubAt_clean he, State.scrubFinding, counterOf_line hb hl]
    refine ⟨rfl, (core_modCore_self _ core _).trans ?_⟩
    rw [core_modCore_self]
  · rw [scrubAt_clean he, State.scrubFinding, if_pos ha, counterOf_line hb hl, if_pos hb]
    exact checks_machineCheck s (core / 16) 0 _
  · have hn := State.node_modNode_self s (homeOfByte (channelLine chip ch 0)).1 fun v => { v with scrubLine := (v.scrubLine + 1) % 2 ^ 24 }
    rw [State.node, scrubFinding_nodes]
    exact congrArg Node.scrubLine hn
  · subst hf
    exact ⟨rfl, rfl⟩
  · subst hf
    exact congrArg Core.corrected (core_modCore_self _ _ _)
  · subst hf
    rw [State.scrubFinding, if_pos ha, if_neg (channelLine_hbm _ _ _)]
    exact checks_machineCheck _ (counterOf (channelLine chip ch (s.node (homeOfByte (channelLine chip ch 0)).1).scrubLine) / 16) 1 _
  · subst hk
    obtain ⟨h1, h2⟩ := scrubAt_corrects he hw
    rw [h1, corrected_modCore]
    exact ⟨h2, congrArg Core.corrected (core_modCore_self _ _ _)⟩
  · subst hk
    rw [scrubAt_reports he hw, if_pos hb]
    exact ⟨rfl, checks_machineCheck s (counterOf (coreByte core (128 * (s.core core).scrubLine)) / 16) 0 _⟩

end Sys2Proof.Machine
end

section
/-! Proofs. Boot, training, measurement and the host's registers (17 R415, R416; 21 R430, R431, R436 to R440; O51). -/

namespace Sys2Proof.Machine

/-! ### Toll counts -/

/-- From `s` to `t` chips and toll counts stay, and of the nodes what a cluster reset keeps. -/
structure KeepsCounts (s t : State) : Prop where
  chips : t.chips = s.chips
  counts : ∀ d, (t.die d).tollCount = (s.die d).tollCount
  nodes : SameNodes s t

theorem KeepsCounts.refl (s : State) : KeepsCounts s s := ⟨rfl, fun _ => rfl, .refl s⟩

theorem KeepsCounts.trans {s t u : State} (h : KeepsCounts s t) (h' : KeepsCounts t u) : KeepsCounts s u :=
  ⟨h'.chips.trans h.chips, fun d => (h'.counts d).trans (h.counts d), h.nodes.trans h'.nodes⟩

theorem KeepsCounts.foldl {α : Type} {f : State → α → State} (h : ∀ s a, KeepsCounts s (f s a)) (l : List α) (s : State) :
    KeepsCounts s (l.foldl f s) := by
  induction l generalizing s with
  | nil => exact .refl s
  | cons a l ih => exact (h s a).trans (ih _)

theorem keepsCounts_of_eq {s t : State} (h1 : t.chips = s.chips) (h2 : t.dies = s.dies) (h3 : SameNodes s t) : KeepsCounts s t :=
  ⟨h1, fun d => by rw [State.die, State.die, h2], h3⟩

theorem OnlyDue.keepsCounts {s t : State} (h : OnlyDue s t) : KeepsCounts s t := by
  rw [h.rest]
  exact keepsCounts_of_eq rfl rfl (.refl _)

theorem tollCount_modDie (s : State) (d : Nat) {f : Die → Die} (hf : ∀ v, (f v).tollCount = v.tollCount) (k : Nat) :
    ((s.modDie d f).die k).tollCount = (s.die k).tollCount := by
  by_cases hk : k = d
  · subst hk
    rw [State.die_modDie_self, hf]
  · exact congrArg Die.tollCount (AMap.get_set_ne _ _ _ hk : _ = s.die k)

theorem keepsCounts_modDie (s : State) (d : Nat) {f : Die → Die} (hf : ∀ v, (f v).tollCount = v.tollCount) :
    KeepsCounts s (s.modDie d f) := ⟨rfl, tollCount_modDie s d hf, sameNodes_of_eq rfl⟩

theorem keepsCounts_modNode (s : State) (n : Nat) {f : Node → Node}
    (h : ∀ v, (f v).inReset = v.inReset ∧ (f v).harvested = v.harvested ∧ (f v).banks = v.banks) : KeepsCounts s (s.modNode n f) :=
  keepsCounts_of_eq rfl rfl (sameNodes_modNode s n h)

theorem keepsCounts_markTake (s : State) (id : Nat) : KeepsCounts s (s.markTake id) := by
  unfold State.markTake
  split
  · exact .refl s
  · split
    · split
      · split
        · exact keepsCounts_modNode _ _ fun _ => ⟨rfl, rfl, rfl⟩
        · exact .refl s
      · exact .refl s
    · exact .refl s

theorem keepsCounts_kick (s : State) (core : Nat) (e : Engine) : KeepsCounts s (s.kick core e) := by
  unfold State.kick
  have h0 : KeepsCounts s (if e = .granary then ((s.core core).queue e).foldl State.markTake s else s) := by
    split
    · exact .foldl keepsCounts_markTake _ s
    · exact .refl s
  dsimp only
  generalize (if e = .granary then ((s.core core).queue e).foldl State.markTake s else s) = t at h0 ⊢
  split
  · exact h0
  · split
    · refine (h0.trans ?_).trans (State.event_due _ _).keepsCounts
      exact .trans (keepsCounts_modDie t (dieOfNode (nodeOfCore core)) (f := fun d => { d with demand := true }) fun _ => rfl)
        (keepsCounts_modNode _ _ fun _ => ⟨rfl, rfl, rfl⟩)
    · exact (h0.trans (t := t) (keepsCounts_of_eq rfl rfl (sameNodes_of_eq rfl) : KeepsCounts t (t.modOp _ _))).trans
        (State.pushOnce_due _ _).keepsCounts

/-- A waiting node has taken a toll, and its cores start their Loom commands. -/
def tollTaken (s : State) (n : Nat) (p : Nat × Nat) : State :=
  (List.range 16).foldl (fun s i => s.kick (n * 16 + i) .loom)
    ((s.modDie (dieOfNode n) fun d => { d with free := dropOne d.free p }).modNode n fun v =>
      { v with toll := { held := true, since := s.nodeTime n, idleFrom := s.nodeTime n } })

/-- A die of which no node waits has no demand. -/
def stillAsked (s : State) (d : Nat) : State :=
  if (s.tollWaiters d).isEmpty then s.modDie d fun d => { d with demand := false } else s

theorem takeToll_eq (s : State) (n : Nat) (p : Nat × Nat) : s.takeToll n p =
    (stillAsked (tollTaken s n p) (dieOfNode n)).timer ((stillAsked (tollTaken s n p) (dieOfNode n)).leadCore n)
      Config.cycles64us (.event (.tollReturn n)) := rfl

theorem keepsCounts_timer (s : State) (c n : Nat) (d : Due) : KeepsCounts s (s.timer c n d) :=
  keepsCounts_of_eq rfl rfl (sameNodes_of_eq rfl)

theorem keepsCounts_takeToll (s : State) (n : Nat) (p : Nat × Nat) : KeepsCounts s (s.takeToll n p) := by
  have h1 : KeepsCounts s (tollTaken s n p) := by
    unfold tollTaken
    refine .trans ?_ (KeepsCounts.foldl (f := fun s i => s.kick (n * 16 + i) .loom)
      (fun s i => keepsCounts_kick s (n * 16 + i) .loom) (List.range 16) _)
    refine .trans ?_ (keepsCounts_modNode _ _ fun _ => ⟨rfl, rfl, rfl⟩)
    exact keepsCounts_modDie s (dieOfNode n) (f := fun d => { d with free := dropOne d.free p }) fun _ => rfl
  have h2 : KeepsCounts (tollTaken s n p) (stillAsked (tollTaken s n p) (dieOfNode n)) := by
    unfold stillAsked
    split
    · exact keepsCounts_modDie _ _ fun _ => rfl
    · exact .refl _
  rw [takeToll_eq]
  exact (h1.trans h2).trans (keepsCounts_timer _ _ _ _)

theorem keepsCounts_settleTolls (s : State) (d fuel : Nat) : KeepsCounts s (s.settleTolls d fuel) := by
  induction fuel generalizing s with
  | zero => exact .refl s
  | succ fuel ih =>
    unfold State.settleTolls
    split
    · exact .refl s
    · exact (keepsCounts_takeToll _ _ _).trans (ih _)
    · exact (keepsCounts_modDie s d (f := fun v => { v with free := dropOne v.free _ }) fun _ => rfl).trans (ih _)

/-- Setting a die's toll count changes no chip, no harvesting and no other die's count. -/
theorem setTolls_sets (s : State) (d n : Nat) : (s.setTolls d n).chips = s.chips ∧ SameNodes s (s.setTolls d n) ∧
    ((s.setTolls d n).die d).tollCount = Nat.max 64 (Nat.min 3072 n) ∧
    ∀ k, k ≠ d → ((s.setTolls d n).die k).tollCount = (s.die k).tollCount := by
  have h := keepsCounts_settleTolls s d (s.die d).free.length
  unfold State.setTolls State.settled
  dsimp only
  generalize s.settleTolls d (s.die d).free.length = u at h ⊢
  obtain ⟨f, hf⟩ : ∃ f : Die → Die, f = fun v => { v with tollCount := Nat.max 64 (Nat.min 3072 n), countFrom := u.dieTime d, free := v.free ++ List.replicate (Nat.max 64 (Nat.min 3072 n) - u.tollsHeld d - v.free.length) (0, u.dieTime d) } :=
    ⟨_, rfl⟩
  rw [← hf]
  have hk := (pokeTolls_due (u.modDie d f) d).keepsCounts
  refine ⟨hk.chips.trans h.chips, h.nodes.trans (.trans (t := u.modDie d f) (sameNodes_of_eq rfl) hk.nodes), ?_, fun k hne => ?_⟩
  · rw [hk.counts, State.die_modDie_self, hf]
  · exact (hk.counts k).trans ((congrArg Die.tollCount (AMap.get_set_ne _ _ _ hne : _ = u.die k)).trans (h.counts k))

/-- The default toll counts of a chip's dies. -/
def tollsSet (chip : Nat) (l : List Nat) (s : State) : State := l.foldl (fun s d => s.setTolls (8 * chip + d) defaultTolls) s

theorem tollsSet_sets (chip : Nat) (l : List Nat) (s : State) : (tollsSet chip l s).chips = s.chips ∧
    SameNodes s (tollsSet chip l s) ∧
    ∀ d, (d ∈ l ∨ (s.die (8 * chip + d)).tollCount = 1843) → ((tollsSet chip l s).die (8 * chip + d)).tollCount = 1843 := by
  induction l generalizing s with
  | nil => exact ⟨rfl, .refl s, fun d h => h.resolve_left (by simp)⟩
  | cons e l ih =>
    obtain ⟨a1, a2, a3, a4⟩ := setTolls_sets s (8 * chip + e) defaultTolls
    obtain ⟨b1, b2, b3⟩ := ih (s.setTolls (8 * chip + e) defaultTolls)
    refine ⟨b1.trans a1, a2.trans b2, fun d hd => b3 d ?_⟩
    by_cases he : d = e
    · subst he
      exact .inr a3
    · exact hd.imp (fun h => (List.mem_cons.1 h).resolve_left he) fun h => (a4 _ (by omega)).trans h

/-! ### Boot -/

/-- What the boot ROM leaves of a chip. -/
def bootedChip (b : BootInput) (stage code : Nat) (c : Chip) : Chip :=
  { c with stage := stage, failure := code, vestryImage := if 2 ≤ stage then b.signed else [],
           fuseMap := if 3 ≤ stage then b.harvested.flatMap fun n => littleEndian (BitVec.ofNat 64 n) 4 else [] }

/-- The nodes that a chip lacks. -/
def harvest (chip : Nat) (l : List Nat) (s : State) : State :=
  l.foldl (fun s n => s.modNode (chip * 24576 + n) fun v => { v with harvested := true }) s

/-- The route tables that come with a chip's image. -/
def routed (chip : Nat) (l : List (Nat × Nat × Word)) (s : State) : State :=
  l.foldl (fun s r => s.modNode (chip * 24576 + r.1) fun v => { v with banks := AMap.set 0 v.banks r.2.1 r.2.2 }) s

theorem harvested_modNode (s : State) (n k : Nat) {f : Node → Node} (hf : ∀ v, v.harvested = true → (f v).harvested = true)
    (h : (s.node k).harvested = true) : ((s.modNode n f).node k).harvested = true := by
  by_cases hk : k = n
  · subst hk
    rw [State.node_modNode_self]
    exact hf _ h
  · rw [show (s.modNode n f).node k = s.node k from AMap.get_set_ne _ _ _ hk]
    exact h

theorem harvest_harvests (chip : Nat) (l : List Nat) (s : State) : (harvest chip l s).chips = s.chips ∧
    ∀ k, (k ∈ l ∨ (s.node (chip * 24576 + k)).harvested = true) → ((harvest chip l s).node (chip * 24576 + k)).harvested = true := by
  induction l generalizing s with
  | nil => exact ⟨rfl, fun k h => h.resolve_left (by simp)⟩
  | cons e l ih =>
    obtain ⟨b1, b2⟩ := ih (s.modNode (chip * 24576 + e) fun v => { v with harvested := true })
    refine ⟨b1.trans rfl, fun k hk => b2 k ?_⟩
    by_cases he : k = e
    · subst he
      exact .inr (by rw [State.node_modNode_self])
    · exact hk.imp (fun h => (List.mem_cons.1 h).resolve_left he) fun h => harvested_modNode _ _ _ (fun _ _ => rfl) h

theorem routed_keeps (chip : Nat) (l : List (Nat × Nat × Word)) (s : State) : (routed chip l s).chips = s.chips ∧
    ∀ k, (s.node k).harvested = true → ((routed chip l s).node k).harvested = true := by
  induction l generalizing s with
  | nil => exact ⟨rfl, fun _ h => h⟩
  | cons e l ih =>
    obtain ⟨b1, b2⟩ := ih (s.modNode (chip * 24576 + e.1) fun v => { v with banks := AMap.set 0 v.banks e.2.1 e.2.2 })
    exact ⟨b1.trans rfl, fun k hk => b2 k (harvested_modNode _ _ _ (fun _ h => h) hk)⟩

/-- What is done from stage 3 on. -/
def harvestedAt (chip : Nat) (b : BootInput) (stage : Nat) (s : State) : State :=
  if 3 ≤ stage then harvest chip b.harvested s else s

/-- What is done from stage 4 on. -/
def routedAt (chip : Nat) (b : BootInput) (stage : Nat) (s : State) : State :=
  if 4 ≤ stage then tollsSet chip (List.range 8) (routed chip b.routes s) else s

section
variable {chip : Nat} {b : BootInput} {s : State} (ho : (s.chip chip).off = false) (h0 : (s.chip chip).stage = 0)
  {stage code : Nat} (he : bootOutcome chip b = (stage, code))
include ho h0 he

theorem bootRom_eq : exec (.bootRom chip b) s =
    .next (routedAt chip b stage (harvestedAt chip b stage (s.modChip chip (bootedChip b stage code)))) := by
  rw [exec_bootRom, execBootRom]
  dsimp only
  rw [if_neg (by simp [ho, h0]), he]
  rfl

omit ho h0 he in
theorem chip_routedAt : (routedAt chip b stage (harvestedAt chip b stage (s.modChip chip (bootedChip b stage code)))).chip chip =
    bootedChip b stage code (s.chip chip) := by
  have h1 (u : State) : (harvestedAt chip b stage u).chips = u.chips := by
    unfold harvestedAt
    split
    · exact (harvest_harvests _ _ _).1
    · rfl
  have h2 (u : State) : (routedAt chip b stage u).chips = u.chips := by
    unfold routedAt
    split
    · exact (tollsSet_sets _ _ _).1.trans (routed_keeps _ _ _).1
    · rfl
  rw [State.chip, h2, h1]
  exact State.chip_modChip_self s chip _

theorem bootRom_ends : ∃ t, exec (.bootRom chip b) s = .next t ∧ (t.chip chip).stage = stage ∧ (t.chip chip).failure = code := by
  refine ⟨_, bootRom_eq ho h0 he, ?_⟩
  rw [chip_routedAt]
  exact ⟨rfl, rfl⟩

end

theorem bootRom_enters {chip : Nat} {b : BootInput} {s : State} (ho : (s.chip chip).off = false) (h0 : (s.chip chip).stage = 0)
    (he : bootOutcome chip b = (4, 0)) : ∃ t, exec (.bootRom chip b) s = .next t ∧
    (t.chip chip).vestryImage = b.signed ∧ (∀ d < 8, (t.die (8 * chip + d)).tollCount = 1843) ∧
    ∀ k ∈ b.harvested, (t.node (chip * 24576 + k)).harvested = true := by
  obtain ⟨-, h1, h2⟩ := tollsSet_sets chip (List.range 8) (routed chip b.routes (harvest chip b.harvested
    (s.modChip chip (bootedChip b 4 0))))
  refine ⟨_, bootRom_eq ho h0 he, ?_, fun d hd => h2 d (.inl (List.mem_range.2 hd)), fun k hk => ?_⟩
  · rw [chip_routedAt]
    rfl
  · refine ((h1 _).2.1).trans ?_
    exact (routed_keeps _ _ _).2 _ ((harvest_harvests _ _ _).2 k (.inl hk))

/-! ### Training -/

section
variable {s : State} {chip port : Nat}

theorem portsDone_waits (h : ∃ i < 64, (s.port chip i).trained = false ∧ i ∉ (s.chip chip).portReports) :
    s.portsDone chip = s := by
  unfold State.portsDone
  dsimp only
  refine if_neg fun ⟨_, ha⟩ => ?_
  obtain ⟨i, hi, h1, h2⟩ := h
  have := List.all_eq_true.1 ha i (List.mem_range.2 hi)
  simp [h1, h2] at this

theorem portsDone_ends (h5 : (s.chip chip).stage = 5)
    (h : ∀ i < 64, (s.port chip i).trained = true ∨ i ∈ (s.chip chip).portReports) :
    s.portsDone chip = (s.modChip chip fun c => { c with stage := 6 }).push (.ready chip) := by
  unfold State.portsDone
  dsimp only
  refine if_pos ⟨h5, List.all_eq_true.2 fun i hi => ?_⟩
  rcases h i (List.mem_range.1 hi) with h | h <;> simp [h]

/-- The end of training changes no port and no report. -/
theorem portsDone_keeps (s : State) (chip : Nat) : ((s.portsDone chip).chip chip).ports = (s.chip chip).ports ∧
    ((s.portsDone chip).chip chip).portReports = (s.chip chip).portReports := by
  unfold State.portsDone
  dsimp only
  split
  · have h := State.chip_modChip_self s chip fun c => { c with stage := 6 }
    exact ⟨(congrArg Chip.ports h :), (congrArg Chip.portReports h :)⟩
  · exact ⟨rfl, rfl⟩

end

end Sys2Proof.Machine
end

section
/-! Proofs. Training, measurement and the host's registers (17 R415, R416; 21 R431, R440; O51). -/

namespace Sys2Proof.Machine

section
variable {s : State} {chip port : Nat}

theorem port_modPort_self (s : State) (c p : Nat) (f : Port → Port) : (s.modPort c p f).port c p = f (s.port c p) := by
  rw [State.port, State.modPort, State.chip_modChip_self]
  exact AMap.get_set_self _ _ _ _

theorem port_modPort_ne (s : State) (c : Nat) {p q : Nat} (h : q ≠ p) (f : Port → Port) : (s.modPort c p f).port c q = s.port c q := by
  rw [State.port, State.modPort, State.chip_modChip_self]
  exact AMap.get_set_ne _ _ _ h

/-- What is left alone of a chip while one of its ports trains. -/
structure SameBoot (s t : State) (chip : Nat) : Prop where
  ports : (t.chip chip).ports = (s.chip chip).ports
  reports : (t.chip chip).portReports = (s.chip chip).portReports
  stage : (t.chip chip).stage = (s.chip chip).stage

theorem SameBoot.port_eq {t : State} (h : SameBoot s t chip) (i : Nat) : t.port chip i = s.port chip i := by
  rw [State.port, State.port, h.ports]

theorem SameBoot.trans {t u : State} (h : SameBoot s t chip) (h' : SameBoot t u chip) : SameBoot s u chip :=
  ⟨h'.ports.trans h.ports, h'.reports.trans h.reports, h'.stage.trans h.stage⟩

theorem sameBoot_armRotation (s : State) (chip port : Nat) : SameBoot s (s.armRotation chip port) chip := ⟨rfl, rfl, rfl⟩

theorem sameBoot_filterRelays (s : State) (chip : Nat) : SameBoot s (s.filterRelays chip) chip := by
  have h := State.chip_modChip_self s chip fun c =>
    { c with relays := (s.chip chip).relays.filter fun r => s.relayAllowed chip r.2 }
  exact ⟨(congrArg Chip.ports h :), (congrArg Chip.portReports h :), (congrArg Chip.stage h :)⟩

/-- A port that has trained. -/
def trainedPort (chip port v : Nat) (l : TrainingInput) (p : Port) : Port :=
  { p with trained := true, version := v, key0 := Config.linkKey (linkSecret chip l) chip port, key1 := 0, sealed0 := 0, sealed1 := 0,
           generation := 0, nextKey := none, switching := false }

theorem sameBoot_modPort (s : State) (chip port : Nat) (f : Port → Port) :
    ((s.modPort chip port f).chip chip).portReports = (s.chip chip).portReports ∧
      ((s.modPort chip port f).chip chip).stage = (s.chip chip).stage := by
  rw [State.modPort, State.chip_modChip_self]
  exact ⟨rfl, rfl⟩

theorem linkTraining_trains {l : TrainingInput} (hp : port < 64) (ht : (s.chip chip).trains = true) (hs : l.sessionOk = true)
    (hv : 2 ≤ Nat.min (s.port chip port).offers l.peerVersion) : ∃ u, exec (.linkTraining chip port l) s = .next (u.portsDone chip) ∧
      SameBoot (s.modPort chip port (trainedPort chip port (Nat.min (s.port chip port).offers l.peerVersion) l)) u chip := by
  rw [exec_linkTraining, execLinkTraining]
  dsimp only
  rw [if_neg (by simp [ht]; omega), if_pos (by simp [hs, hv])]
  refine ⟨_, rfl, ?_⟩
  refine .trans ?_ (sameBoot_filterRelays _ _)
  split
  · exact sameBoot_armRotation _ _ _
  · exact ⟨rfl, rfl, rfl⟩

theorem linkTraining_reports {l : TrainingInput} (hp : port < 64) (ht : (s.chip chip).trains = true)
    (h : l.sessionOk = false ∨ Nat.min (s.port chip port).offers l.peerVersion < 2) : exec (.linkTraining chip port l) s =
      .next (((s.modPort chip port fun p => { p with trained := false }).modChip chip fun c =>
        { c with portReports := c.portReports ++ [port] }).portsDone chip) := by
  rw [exec_linkTraining, execLinkTraining]
  dsimp only
  rw [if_neg (by simp [ht]; omega), if_neg]
  rcases h with h | h
  · simp [h]
  · simp [Nat.not_le.2 h]

theorem portsDone_port (s : State) (chip i : Nat) : (s.portsDone chip).port chip i = s.port chip i := by
  rw [State.port, State.port, (portsDone_keeps s chip).1]

theorem portsDone_ready (h5 : (s.chip chip).stage = 5)
    (h : ∀ i < 64, (s.port chip i).trained = true ∨ i ∈ (s.chip chip).portReports) :
    ((s.portsDone chip).chip chip).stage = 6 ∧ Due.ready chip ∈ (s.portsDone chip).pending := by
  rw [portsDone_ends h5 h]
  have hc := State.chip_modChip_self s chip fun c => { c with stage := 6 }
  exact ⟨(congrArg Chip.stage hc :), List.mem_append_right _ (List.mem_singleton.2 rfl)⟩

/-! ### Registers -/

section
variable {n : Nat} (ho : (s.chip chip).off = false) (hn : n < 128) (w : Word)
include ho hn

theorem registerWrite_qbase : exec (.registerWrite chip (256 * n + 0) w) s = .next (if !s.pageLive chip n then s
    else if (s.parish n).jtail = 1 then s.modParish n fun p => { p with qbase := w } else s) := by
  rw [exec_registerWrite, execRegisterWrite, State.writeRegister, if_neg (by simp [ho]), if_pos (by omega)]
  dsimp only
  rw [show (256 * n + 0) / 256 = n by omega, show (256 * n + 0) % 256 = 0 by omega]
  rfl

theorem registerWrite_qsize : exec (.registerWrite chip (256 * n + 8) w) s = .next (if !s.pageLive chip n then s
    else if (s.parish n).jtail = 1 then s.modParish n fun p => { p with qsize := w &&& 0xF } else s) := by
  rw [exec_registerWrite, execRegisterWrite, State.writeRegister, if_neg (by simp [ho]), if_pos (by omega)]
  dsimp only
  rw [show (256 * n + 8) / 256 = n by omega, show (256 * n + 8) % 256 = 8 by omega]
  rfl

theorem registerWrite_qtail : exec (.registerWrite chip (256 * n + 0x10) w) s = .next (if !s.pageLive chip n then s
    else s.writeQtail n w) := by
  rw [exec_registerWrite, execRegisterWrite, State.writeRegister, if_neg (by simp [ho]), if_pos (by omega)]
  dsimp only
  rw [show (256 * n + 0x10) / 256 = n by omega, show (256 * n + 0x10) % 256 = 0x10 by omega]
  rfl

theorem registerWrite_jhead : exec (.registerWrite chip (256 * n + 0x20) w) s = .next (if !s.pageLive chip n then s
    else s.writeJhead n w) := by
  rw [exec_registerWrite, execRegisterWrite, State.writeRegister, if_neg (by simp [ho]), if_pos (by omega)]
  dsimp only
  rw [show (256 * n + 0x20) / 256 = n by omega, show (256 * n + 0x20) % 256 = 0x20 by omega]
  rfl

theorem registerWrite_cbase : exec (.registerWrite chip (256 * n + 0x30) w) s = .next (if !s.pageLive chip n then s
    else if (s.parish n).jtail = 1 then s.modParish n fun p => { p with cbase := w } else s) := by
  rw [exec_registerWrite, execRegisterWrite, State.writeRegister, if_neg (by simp [ho]), if_pos (by omega)]
  dsimp only
  rw [show (256 * n + 0x30) / 256 = n by omega, show (256 * n + 0x30) % 256 = 0x30 by omega]
  rfl

end

theorem measurements_answers {index : Nat} {nonce bs : List Byte} (h2 : 2 ≤ (s.chip chip).stage)
    (hm : s.measured chip index = some bs) :
    ∃ t, exec (.measurements chip { index, nonce }) s = .next t ∧ (t.chip chip).responses = (s.chip chip).responses ++
      [(index, Config.measurement index bs,
        Config.rsaSign (Config.deviceKeys chip).1 (Config.transcriptHash nonce index (Config.measurement index bs)),
        Config.slhSign (Config.deviceKeys chip).2 (Config.transcriptHash nonce index (Config.measurement index bs)))] := by
  rw [exec_measurements, execMeasurements]
  dsimp only
  rw [hm, decide_eq_true h2]
  refine ⟨_, rfl, ?_⟩
  rw [State.chip_modChip_self]

theorem measured_bytes {index : Nat} {bs : List Byte} (h : index = 2 ∧ bs = (s.chip chip).vestryImage ∨
    index = 3 ∧ bs = (s.chip chip).fuseMap ∨ 16 ≤ index ∧ s.pageLive chip (index - 16) = true ∧ bs = (s.parish (index - 16)).image) :
    s.measured chip index = some bs := by
  rcases h with ⟨rfl, rfl⟩ | ⟨rfl, rfl⟩ | ⟨h1, h2, rfl⟩
  · rfl
  · rfl
  · unfold State.measured
    split
    · omega
    · omega
    · omega
    · omega
    · exact if_pos ⟨h1, h2⟩

end

/-- Settles O51. -/
theorem bootSteps : Obligations.BootSteps := by
  unfold Obligations.BootSteps
  intro s chip port n speed width index b l dead bs nonce w
  dsimp only
  refine ⟨fun ho h0 => ⟨fun h => ?_, fun h1 h2 => ?_, fun ⟨h1, h2⟩ h3 => ?_, fun ⟨⟨h1, h2⟩, h3⟩ h4 => ?_, fun ⟨⟨⟨h1, h2⟩, h3⟩, h4, h5⟩ h6 => ?_,
      fun ⟨⟨⟨⟨h1, h2⟩, h3⟩, h4, h5⟩, h6⟩ h7 => ?_, fun ⟨⟨⟨⟨⟨h1, h2⟩, h3⟩, h4, h5⟩, h6⟩, h7⟩ h8 => ?_,
      fun ⟨⟨⟨⟨⟨h1, h2⟩, h3⟩, h4, h5⟩, h6⟩, h7⟩ h8 => ?_⟩, fun h4 hf => ?_, fun h5 => ⟨portsDone_waits, portsDone_ends h5⟩, fun h6 => ?_,
    fun ho => ?_, fun hp ht => ?_, fun h2 hm => measurements_answers h2 (measured_bytes hm), fun ho off => ?_, fun ho hn => ⟨fun hl => ?_, fun hl => ⟨?_, ?_, fun hj => ?_, fun hj => ?_⟩⟩,
    fun ho => ?_, fun ho h8 => ?_, fun ho h8 h9 => ?_⟩
  · exact bootRom_ends ho h0 (by simp [bootOutcome, h])
  · have h2' : b.flashReadable = false := by simpa [h1] using h2
    exact bootRom_ends ho h0 (by simp [bootOutcome, h1, h2'])
  · have h3' : b.wellFormed = false := by simpa [h1, h2] using h3
    exact bootRom_ends ho h0 (by simp [bootOutcome, h1, h2, h3'])
  · have h4' : (keysBound chip b && Crypto.rsaVerifies b.rsaKey b.signed b.rsaSignature) = false := by
      rw [Bool.and_eq_false_iff]
      by_contra hc
      push Not at hc
      exact h4 ⟨⟨⟨h1, h2⟩, h3⟩, by simpa using hc.1, by simpa using hc.2⟩
    exact bootRom_ends ho h0 (by simp only [bootOutcome, h1, h2, h3, h4']; rfl)
  · have h6' : Crypto.slhVerifies b.slhKey b.signed b.slhSignature = false := by
      rw [← Bool.not_eq_true]
      exact fun h => h6 ⟨⟨⟨⟨h1, h2⟩, h3⟩, h4, h5⟩, h⟩
    exact bootRom_ends ho h0 (by simp only [bootOutcome, h1, h2, h3, h4, h5, h6']; rfl)
  · have h7' : b.fuseMapOk = false := by
      rw [← Bool.not_eq_true]
      exact fun h => h7 ⟨⟨⟨⟨⟨h1, h2⟩, h3⟩, h4, h5⟩, h6⟩, h⟩
    exact bootRom_ends ho h0 (by simp only [bootOutcome, h1, h2, h3, h4, h5, h6, h7']; rfl)
  · exact bootRom_ends ho h0 (by simp only [bootOutcome, h1, h2, h3, h4, h5, h6, h7, h8]; rfl)
  · have he : bootOutcome chip b = (4, 0) := by simp only [bootOutcome, h1, h2, h3, h4, h5, h6, h7, h8]; rfl
    exact ⟨bootRom_ends ho h0 he, bootRom_enters ho h0 he⟩
  · rw [exec_gatewayTraining, execGatewayTraining]
    dsimp only
    rw [if_neg (by simp [h4, hf])]
    cases dead <;> rfl
  · have hc : (s.modChip chip fun v => if v.stage = 6 then { v with stage := 7 } else v) = s.modChip chip fun c => { c with stage := 7 } := by
      unfold State.modChip
      dsimp only
      rw [if_pos h6]
    exact congrArg _ hc
  · rw [exec_hostLinkTraining, execHostLinkTraining, if_neg (by simp [ho])]
    refine ⟨_, rfl, ?_⟩
    dsimp only
    rw [State.chip_modChip_self]
    refine ⟨fun h1 h2 => ?_, fun h => if_neg ?_⟩
    · have hc : ([2, 5, 8, 16, 32, 64, 128].contains speed && [4, 8, 16].contains width) = true := by
        rw [List.contains_eq_mem, List.contains_eq_mem, decide_eq_true h1, decide_eq_true h2] <;> rfl
      rw [hc]
      exact ⟨rfl, rfl⟩
    · rw [List.contains_eq_mem, List.contains_eq_mem, Bool.and_eq_true, decide_eq_true_eq, decide_eq_true_eq]
      exact fun ⟨a, b⟩ => h.elim (fun h => h a) fun h => h b
  · by_cases hs : l.sessionOk = true ∧ 2 ≤ Nat.min (s.port chip port).offers l.peerVersion
    · obtain ⟨u, hu, hb⟩ := linkTraining_trains hp ht hs.1 hs.2
      obtain ⟨m1, m2⟩ := sameBoot_modPort s chip port
        (trainedPort chip port (Nat.min (s.port chip port).offers l.peerVersion) l)
      refine ⟨_, hu, fun _ _ => ?_, fun h => ?_, fun h5 ho => portsDone_ready (hb.stage.trans (m2.trans h5)) fun i hi => ?_⟩
      · rw [portsDone_port, hb.port_eq, port_modPort_self]
        exact ⟨rfl, rfl, rfl, rfl⟩
      · rcases h with h | h
        · exact absurd hs.1 (by simp [h])
        · omega
      · rw [hb.port_eq, hb.reports, m1]
        by_cases hip : i = port
        · subst hip
          rw [port_modPort_self]
          exact .inl rfl
        · rw [port_modPort_ne _ _ hip]
          exact ho i hi hip
    · have hn : l.sessionOk = false ∨ Nat.min (s.port chip port).offers l.peerVersion < 2 := by
        rcases Bool.eq_false_or_eq_true l.sessionOk with h | h
        · exact .inr (Nat.lt_of_not_le fun h2 => hs ⟨h, h2⟩)
        · exact .inl h
      have hc := State.chip_modChip_self (s.modPort chip port fun p => { p with trained := false }) chip fun c =>
        { c with portReports := c.portReports ++ [port] }
      obtain ⟨m1, m2⟩ := sameBoot_modPort s chip port fun p => { p with trained := false }
      have hport (i : Nat) : ((s.modPort chip port fun p => { p with trained := false }).modChip chip fun c =>
          { c with portReports := c.portReports ++ [port] }).port chip i =
          (s.modPort chip port fun p => { p with trained := false }).port chip i := by
        rw [State.port, hc]
        rfl
      refine ⟨_, linkTraining_reports hp ht hn, fun h1 h2 => absurd ⟨h1, h2⟩ hs, fun _ => ⟨?_, ?_⟩,
        fun h5 ho => portsDone_ready ?_ fun i hi => ?_⟩
      · rw [portsDone_port, hport, port_modPort_self]
      · rw [(portsDone_keeps _ _).2, hc]
        dsimp only
        rw [m1]
      · rw [hc]
        exact m2.trans h5
      · rw [hport, hc]
        dsimp only
        rw [m1]
        by_cases hip : i = port
        · subst hip
          exact .inr (by simp)
        · rw [port_modPort_ne _ _ hip]
          exact (ho i hi hip).imp_right fun h => List.mem_append_left _ h
  · exact congrArg _ (if_pos ho)
  · rw [registerWrite_qbase ho hn, registerWrite_qtail ho hn, hl]
    exact ⟨rfl, rfl⟩
  · rw [registerWrite_qtail ho hn, hl]
    rfl
  · rw [registerWrite_jhead ho hn, hl]
    rfl
  · rw [registerWrite_qbase ho hn, registerWrite_qsize ho hn, registerWrite_cbase ho hn, hl, hj]
    exact ⟨rfl, rfl, rfl⟩
  · rw [registerWrite_qbase ho hn, registerWrite_qsize ho hn, registerWrite_cbase ho hn, hl, if_neg hj, if_neg hj, if_neg hj]
    exact ⟨rfl, rfl, rfl⟩
  · rw [exec_registerWrite, execRegisterWrite, State.writeRegister, if_neg (by simp [ho])]
    rfl
  · rw [exec_registerWrite, execRegisterWrite, State.writeRegister, if_neg (by simp [ho])]
    rw [if_neg (by decide), if_neg (by decide), if_pos rfl]
    exact congrArg _ (if_pos h8)
  · rw [exec_registerWrite, execRegisterWrite, State.writeRegister, if_neg (by simp [ho]), if_neg (by decide), if_neg (by decide),
      if_pos rfl]
    exact congrArg _ ((if_neg (by rw [h8]; exact Bool.false_ne_true)).trans (if_pos h9))

end Sys2Proof.Machine
end

section
/-! Proofs. A change is answered and taken at a chip (02 R45 to R49; O52). -/

namespace Sys2Proof.Machine

/-! ### What an answer leaves -/

/-- From `s` to `t` the object table stays, and a packet that has been dropped does not come back. -/
structure Gone (pk : Nat) (s t : State) : Prop where
  objs : t.objs = s.objs
  packet : pk < s.nextId → s.packet? pk = none → t.packet? pk = none
  next : s.nextId ≤ t.nextId

theorem Gone.refl (pk : Nat) (s : State) : Gone pk s s := ⟨rfl, fun _ => id, le_rfl⟩

theorem Gone.trans {pk : Nat} {s t u : State} (h : Gone pk s t) (h' : Gone pk t u) : Gone pk s u :=
  ⟨h'.objs.trans h.objs, fun hk hp => h'.packet (hk.trans_le h.next) (h.packet hk hp), h.next.trans h'.next⟩

theorem Gone.foldl {pk : Nat} {α : Type} {f : State → α → State} (h : ∀ s a, Gone pk s (f s a)) (l : List α) (s : State) :
    Gone pk s (l.foldl f s) := by
  induction l generalizing s with
  | nil => exact .refl pk s
  | cons a l ih => exact (h s a).trans (ih _)

theorem OnlyDue.gone {s t : State} (h : OnlyDue s t) (pk : Nat) : Gone pk s t := by
  rw [h.rest]
  exact ⟨rfl, fun _ h => h, le_rfl⟩

/-- A change of the state that leaves objects, packets and numbers alone. -/
theorem gone_of_eq {s t : State} (pk : Nat) (h1 : t.objs = s.objs) (h2 : t.packets = s.packets) (h3 : t.nextId = s.nextId) :
    Gone pk s t :=
  ⟨h1, fun _ h => by rw [State.packet?, h2]; exact h, h3.ge⟩

theorem gone_send (s : State) (pl : Payload) (c : Class) (pa src dst : Nat) (ch : Bool) (pk : Nat) :
    Gone pk s (s.send pl c pa src dst ch) :=
  ⟨rfl, fun hk hp => (find?_append_ne _ _ (by omega)).trans hp, Nat.le_succ _⟩

theorem gone_request (s : State) (a : Access) (pk : Nat) : Gone pk s (s.request a).2 := by
  obtain ⟨e, he⟩ := (State.request_requested (Touched.refl s) a).packet
  refine ⟨rfl, fun hk hp => ?_, (Nat.le_add_right _ 2 : s.nextId ≤ s.nextId + 2)⟩
  rw [State.packet?, he]
  exact (find?_append_ne _ _ (by omega)).trans hp

theorem gone_countExtent (s : State) (c p o f pk : Nat) : Gone pk s (s.countExtent c p o f) := by
  unfold State.countExtent
  dsimp only
  split
  · exact gone_of_eq pk rfl rfl rfl
  · exact .refl pk s

theorem gone_countFlag (s : State) (from' thread parish : Nat) (flag : Word) (st : Stamp) (pk : Nat) :
    Gone pk s (s.countFlag from' thread parish flag st) := by
  unfold State.countFlag
  dsimp only
  split
  · split
    · exact (gone_countExtent _ _ _ _ _ pk).trans (gone_request _ _ pk)
    · exact .refl pk s
  · generalize (if flag.getLsbD 62 then placeOf (placeCore (chipOfThread thread) flag) (placeOffset flag) else flag) = f
    split
    · exact gone_request _ _ pk
    · exact .refl pk s

theorem gone_countGroup (s : State) (g : Group) (from' pk : Nat) : Gone pk s (s.countGroup g from') := by
  unfold State.countGroup
  dsimp only
  split <;> split
  · exact .refl pk s
  · exact gone_countFlag _ _ _ _ _ _ pk
  · exact gone_countFlag _ _ _ _ _ _ pk
  · exact (gone_countFlag _ _ _ _ _ _ pk).trans (gone_countFlag _ _ _ _ _ _ pk)

theorem gone_groups (s : State) (g : AMap Group) (pk : Nat) : Gone pk s { s with groups := g } := gone_of_eq pk rfl rfl rfl

theorem gone_groupSettled (s : State) (gid pk : Nat) : Gone pk s (s.groupSettled gid) := by
  unfold State.groupSettled
  dsimp only
  split
  · split
    · exact (gone_groups s _ pk).trans (gone_countGroup _ _ _ pk)
    · exact .refl pk _
  · exact .refl pk _

theorem gone_groupHome (s : State) (gid home : Nat) (ch failed : Bool) (pk : Nat) : Gone pk s (s.groupHome gid home ch failed) := by
  unfold State.groupHome
  split
  · exact .refl pk s
  · dsimp only
    exact (gone_groups s _ pk).trans (gone_groupSettled _ _ pk)

theorem gone_countOwn (s : State) (a : Access) (home : Nat) (tr : Option (Nat × Word)) (pk : Nat) :
    Gone pk s (match a.flag, tr with
      | some f, none => s.countFlag home a.thread a.parish f a.info.stamp
      | _, _ => s) := by
  split
  · exact gone_countFlag _ _ _ _ _ _ pk
  · exact .refl pk _

theorem Moved.gone {s t : State} (h : Moved s t) (pk : Nat) : Gone pk s t := by
  refine ⟨by rw [h.rest], fun _ hp => ?_, by rw [h.rest]⟩
  have := h.packets pk
  rw [hp, Option.map_none, Option.map_eq_none_iff] at this
  exact this

theorem gone_concludePartners (s : State) (a : Access) (home : Nat) (ch : Bool) (tr : Option (Nat × Word)) (pk : Nat) :
    Gone pk s (s.concludePartners a home ch tr) := by
  unfold State.concludePartners
  refine .foldl (fun u k => ?_) _ _
  split
  · refine .trans ?_ ((State.pokeTurns_moved _ _).gone pk)
    exact gone_of_eq pk rfl rfl rfl
  · exact .refl pk u

theorem gone_respond (s : State) (id : Nat) (a : Access) (from' pk : Nat) : Gone pk s (s.respond id a from') := by
  unfold State.respond
  split
  · exact gone_of_eq pk rfl rfl rfl
  · split
    · exact gone_send _ _ _ _ _ _ _ pk
    · split <;> exact gone_send _ _ _ _ _ _ _ pk

theorem gone_concludeAt (s : State) (pk id : Nat) (a : Access) (home : Nat) (ch : Bool) (v : List Byte) (f : Bool)
    (tr : Option (Nat × Word)) (sts : List Stamp) : Gone pk (s.dropPacket pk) (s.concludeAt pk id a home ch v f tr sts) := by
  unfold State.concludeAt
  dsimp only
  generalize hu : (s.dropPacket pk).modAccess id (fun x =>
    { x with performed := true, value := v, found := f, trap := tr, stamps := sts }) = u
  have h0 : Gone pk (s.dropPacket pk) u := by
    rw [← hu]
    exact gone_of_eq pk rfl rfl rfl
  have hn : Gone pk u (u.modNode home fun n => n.setStore ch (n.store ch ++ [(a.src, a.seq, id)])) := gone_of_eq pk rfl rfl rfl
  generalize (u.modNode home fun n => n.setStore ch (n.store ch ++ [(a.src, a.seq, id)])) = w at hn ⊢
  have h1 := (hn.trans (gone_countOwn w a home tr pk)).trans (gone_groupHome _ a.group home ch tr.isSome pk)
  have h2 := h1.trans (gone_concludePartners _ a home ch tr pk)
  have h3 (x : State) : Gone pk x ((x.respond id a home).pokeTurns id) :=
    (gone_respond x id a home pk).trans ((State.pokeTurns_moved _ id).gone pk)
  exact (h0.trans h2).trans (h3 _)

/-- The answer to a change leaves the object table, and its packet is gone. -/
theorem takeChange_takes (s : State) (chip acc : Nat) {pk : Nat} (hk : pk < s.nextId) :
    (s.takeChange chip pk acc).objs = s.objs ∧ (s.takeChange chip pk acc).packet? pk = none := by
  have h : Gone pk (s.dropPacket pk) (s.takeChange chip pk acc) := by
    unfold State.takeChange
    split
    · exact (State.pokeForks_due _).gone pk
    · split
      · exact (gone_respond _ _ _ _ pk).trans ((State.pokeForks_due _).gone pk)
      · exact (gone_concludeAt _ _ _ _ _ _ _ _ _ _).trans ((State.pokeForks_due _).gone pk)
  exact ⟨h.objs, h.packet hk packet?_dropPacket_self⟩

/-! ### What a change writes -/

/-- A function applied to the entry of each key, which leaves unlisted ones as they read. -/
theorem get_map_keys {α : Type} {d : α} {m : AMap α} {g : Nat → α → α} (hd : ∀ k, g k d = d) (k : Nat) :
    AMap.get d (m.map fun e => (e.1, g e.1 e.2)) k = g k (AMap.get d m k) := by
  induction m with
  | nil => exact (hd k).symm
  | cons e m ih =>
    obtain ⟨j, v⟩ := e
    rw [List.map_cons, AMap.get, AMap.get]
    by_cases h : j = k
    · subst h
      rw [if_pos rfl, if_pos rfl]
    · rw [if_neg h, if_neg h, ih]

/-- The caches of a node without an object and the extents of its parish. -/
def nodeEmptied (chip parish key k : Nat) (v : Node) : Node :=
  if chipOfNode k = chip then
    { v with
      cache := v.cache.filter fun c => match c with
        | .object k _ => k != key
        | .extent k _ => k / 2 ^ 40 != parish * 2 ^ 18 + chip
      codeCache := v.codeCache.filter (·.1 != key) }
  else v

/-- The handle cache of a core without an object. -/
def coreEmptied (chip key k : Nat) (v : Core) : Core :=
  if chipOfCore k = chip then { v with handles := v.handles.filter (·.1 != key) } else v

theorem emptyCaches_empties (s : State) (chip parish obj : Nat) :
    (∀ k, (s.emptyCaches chip parish obj).node k = nodeEmptied chip parish (objKey parish chip obj) k (s.node k)) ∧
      ∀ k, (s.emptyCaches chip parish obj).core k = coreEmptied chip (objKey parish chip obj) k (s.core k) := by
  have hn : (s.emptyCaches chip parish obj).nodes =
      s.nodes.map fun e => (e.1, nodeEmptied chip parish (objKey parish chip obj) e.1 e.2) := by
    refine List.map_congr_left fun e _ => ?_
    unfold nodeEmptied
    split <;> rfl
  have hc : (s.emptyCaches chip parish obj).cores = s.cores.map fun e => (e.1, coreEmptied chip (objKey parish chip obj) e.1 e.2) := by
    refine List.map_congr_left fun e _ => ?_
    unfold coreEmptied
    split <;> rfl
  refine ⟨fun k => ?_, fun k => ?_⟩
  · rw [State.node, hn]
    refine get_map_keys (fun k => ?_) k
    unfold nodeEmptied
    split <;> rfl
  · rw [State.core, hc]
    refine get_map_keys (fun k => ?_) k
    unfold coreEmptied
    split <;> rfl

theorem clearSectors_objs (s : State) (chip parish obj : Nat) : (s.clearSectors chip parish obj).objs = s.objs := by
  unfold State.clearSectors
  exact List.foldlRecOn (motive := fun t : State => t.objs = s.objs) _ _ rfl fun _ h _ _ => h

/-- An entry that takes a change, in a chip's replica. -/
def newEntry (old e : ObjEntry) : ObjEntry :=
  if e.state = 0 ∧ old.state ≠ 0 then { e with w0 := packObj (old.gen + 1) 0 e.isParcel e.length } else e

theorem setEntry_objs (s : State) (chip parish obj : Nat) (e : ObjEntry) : (s.setEntry chip parish obj e).objs =
    if obj = 1 then s.objs
    else AMap.set {} s.objs (objKey parish chip obj) (newEntry (s.obj chip parish obj) e) := by
  unfold State.setEntry
  dsimp only
  split
  · rfl
  · unfold newEntry
    generalize (if e.state = 0 ∧ (s.obj chip parish obj).state ≠ 0 then
      { e with w0 := packObj ((s.obj chip parish obj).gen + 1) 0 e.isParcel e.length } else e) = e'
    split
    · refine (clearSectors_objs _ _ _ _).trans ?_
      rw [clearSectors_objs]
    · rfl

/-- What the last step of a change of a table makes due. -/
theorem changeDue (s : State) (chip chg : Nat) (l : List Nat) (r : List Nat) :
    OnlyDue s ((match r with
      | n :: _ => (l.foldl (fun (s : State) t => s.event (.movingExtentRecheck t)) s).event (.tableChange chip n)
      | [] => l.foldl (fun (s : State) t => s.event (.movingExtentRecheck t)) s).event (.tableChangeAcknowledge chip chg)) := by
  have h := OnlyDue.foldl (f := fun (s : State) t => s.event (.movingExtentRecheck t)) (fun _ _ => State.event_due _ _) l s
  refine .trans ?_ (State.event_due _ _)
  split
  · exact h.trans (State.event_due _ _)
  · exact h

end Sys2Proof.Machine
end

section
/-! Proofs. Changes of the object table, moving extents and code lines (02 R41 to R49; 07 R449; O52). -/

namespace Sys2Proof.Machine

section
variable {s : State} {chip chg pk acc : Nat}

/-! ### A change is applied -/

/-- The state in which a change has been applied and its caches emptied. -/
def changeApplied (s : State) (chip chg : Nat) (r : List Nat) (u : State) : State :=
  let v : ChangeState := AMap.get {} s.changes chg
  { ((u.modChip chip fun c => { c with changes := r }).applyChange chip v.parish v.change).emptyCaches chip v.parish v.change.obj with
    changes := AMap.set {} (((u.modChip chip fun c => { c with changes := r }).applyChange chip v.parish v.change).emptyCaches chip v.parish v.change.obj).changes chg { v with applied := NSet.insert v.applied chip, waitFor := v.waitFor ++ u.admittedOn chip v.parish v.change.obj, held := v.held ++ u.heldOn chip v.change } }

theorem tableChange_applies (h : s.changePacket chip chg = some (pk, acc)) (hr : s.changeRefused chip acc = none) {r : List Nat}
    (hc : (s.chip chip).changes = chg :: r) : ∃ t, exec (.tableChange chip chg) s = .next t ∧
      OnlyDue (changeApplied s chip chg r (s.takeChange chip pk acc)) t ∧ Due.event (.tableChangeAcknowledge chip chg) ∈ t.pending := by
  refine ⟨_, ?_, changeDue _ chip chg ((changeApplied s chip chg r (s.takeChange chip pk acc)).movingThreads chip) r, due_event _ _⟩
  rw [show exec (.tableChange chip chg) s = execTableChange chip chg s from rfl, execTableChange, h]
  dsimp only
  rw [hr, hc]
  dsimp only
  rw [if_neg (not_not.2 rfl)]
  rfl

theorem clearSectors_keeps (s : State) (chip parish obj : Nat) :
    (s.clearSectors chip parish obj).chips = s.chips ∧ (s.clearSectors chip parish obj).packets = s.packets := by
  unfold State.clearSectors
  exact List.foldlRecOn (motive := fun t : State => t.chips = s.chips ∧ t.packets = s.packets) _ _ ⟨rfl, rfl⟩ fun _ h _ _ => h

theorem setEntry_keeps (s : State) (chip parish obj : Nat) (e : ObjEntry) :
    (s.setEntry chip parish obj e).chips = s.chips ∧ (s.setEntry chip parish obj e).packets = s.packets := by
  unfold State.setEntry
  dsimp only
  split
  · exact ⟨rfl, rfl⟩
  · generalize (if e.state = 0 ∧ (s.obj chip parish obj).state ≠ 0 then
      { e with w0 := packObj ((s.obj chip parish obj).gen + 1) 0 e.isParcel e.length } else e) = e'
    split
    · obtain ⟨h1, h2⟩ := clearSectors_keeps s chip parish obj
      obtain ⟨h3, h4⟩ := clearSectors_keeps { s.clearSectors chip parish obj with
        objs := AMap.set {} (s.clearSectors chip parish obj).objs (objKey parish chip obj) e' } chip parish obj
      exact ⟨h3.trans h1, h4.trans h2⟩
    · exact ⟨rfl, rfl⟩

/-- A change of a table changes no chip and no packet. -/
theorem applyChange_keeps (s : State) (chip parish : Nat) (c : Change) :
    (s.applyChange chip parish c).chips = s.chips ∧ (s.applyChange chip parish c).packets = s.packets := by
  unfold State.applyChange
  split
  · exact setEntry_keeps _ _ _ _ _
  · exact ⟨rfl, rfl⟩
  · next o e owner frames =>
    have h := setEntry_keeps s chip parish o e
    refine ⟨(clearSectors_keeps _ _ _ _).1.trans ?_, (clearSectors_keeps _ _ _ _).2.trans ?_⟩
    · exact List.foldlRecOn (motive := fun t : State => t.chips = s.chips) _ _ h.1 fun _ h _ _ => h
    · exact List.foldlRecOn (motive := fun t : State => t.packets = s.packets) _ _ h.2 fun _ h _ _ => h

/-- What holds of a state in which a change has been applied. -/
theorem changeApplied_holds {r : List Nat} {u : State} (ho : u.objs = s.objs) (hp : u.packet? pk = none) :
    let v : ChangeState := AMap.get {} s.changes chg
    let t := changeApplied s chip chg r u
    (t.chip chip).changes = r ∧ chip ∈ (AMap.get {} t.changes chg).applied ∧
    (∀ k ∈ u.heldOn chip v.change, k ∈ (AMap.get {} t.changes chg).held) ∧ t.packet? pk = none ∧
    (∀ o e, v.change = .entry o e → t.objs = if o = 1 then s.objs
      else AMap.set {} s.objs (objKey v.parish chip o) (newEntry (s.obj chip v.parish o) e)) ∧
    (∀ k, chipOfNode k = chip → (∀ e, Cached.object (objKey v.parish chip v.change.obj) e ∉ (t.node k).cache) ∧
      ∀ x ∈ (t.node k).codeCache, x.1 ≠ objKey v.parish chip v.change.obj) ∧
    (∀ k, chipOfCore k = chip → ∀ x ∈ (t.core k).handles, x.1 ≠ objKey v.parish chip v.change.obj) := by
  dsimp only
  obtain ⟨v, hv⟩ : ∃ v : ChangeState, v = AMap.get {} s.changes chg := ⟨_, rfl⟩
  rw [← hv]
  obtain ⟨w, hw⟩ : ∃ w, w = (u.modChip chip fun c => { c with changes := r }).applyChange chip v.parish v.change := ⟨_, rfl⟩
  have hwk := applyChange_keeps (u.modChip chip fun c => { c with changes := r }) chip v.parish v.change
  rw [← hw] at hwk
  obtain ⟨hwc, hwp⟩ := hwk
  obtain ⟨he, hc⟩ := emptyCaches_empties w chip v.parish v.change.obj
  have ht : changeApplied s chip chg r u = { w.emptyCaches chip v.parish v.change.obj with
      changes := AMap.set {} (w.emptyCaches chip v.parish v.change.obj).changes chg { v with applied := NSet.insert v.applied chip, waitFor := v.waitFor ++ u.admittedOn chip v.parish v.change.obj, held := v.held ++ u.heldOn chip v.change } } := by
    rw [hw, hv]
    rfl
  rw [ht]
  refine ⟨?_, ?_, fun k hk => ?_, ?_, fun o e hoe => ?_, fun k hk => ⟨fun e hm => ?_, fun x hx => ?_⟩, fun k hk x hx => ?_⟩
  · have h1 := State.chip_modChip_self u chip fun c => { c with changes := r }
    refine (congrArg (fun l => (AMap.get ({} : Chip) l chip).changes) hwc).trans ?_
    exact (congrArg Chip.changes h1 :)
  · dsimp only
    rw [AMap.get_set_self]
    exact NSet.mem_insert.2 (.inl rfl)
  · dsimp only
    rw [AMap.get_set_self]
    exact List.mem_append_right _ hk
  · refine (congrArg (fun l => find? l pk) hwp).trans hp
  · refine Eq.trans (b := w.objs) rfl ?_
    rw [hw, hoe]
    refine (setEntry_objs _ _ _ _ _).trans ?_
    have h1 : (u.modChip chip fun c => { c with changes := r }).objs = s.objs := ho
    rw [State.obj, h1]
    rfl
  · have hm' : Cached.object (objKey v.parish chip v.change.obj) e ∈ ((w.emptyCaches chip v.parish v.change.obj).node k).cache := hm
    rw [he, nodeEmptied, if_pos hk] at hm'
    simpa using (List.mem_filter.1 hm').2
  · have hx' : x ∈ ((w.emptyCaches chip v.parish v.change.obj).node k).codeCache := hx
    rw [he, nodeEmptied, if_pos hk] at hx'
    simpa using (List.mem_filter.1 hx').2
  · have hx' : x ∈ ((w.emptyCaches chip v.parish v.change.obj).core k).handles := hx
    rw [hc, coreEmptied, if_pos hk] at hx'
    simpa using (List.mem_filter.1 hx').2

end

/-! ### An acknowledgement -/

section
variable {s : State} {chip chg : Nat}

theorem acknowledge_open (h : ∃ id a, id ∈ (AMap.get {} s.changes chg : ChangeState).waitFor ∧ s.access? id = some a ∧
    chipOfNode a.src = chip) : exec (.tableChangeAcknowledge chip chg) s = .next s := by
  obtain ⟨id, a, hid, hx, hc⟩ := h
  rw [exec_tableChangeAcknowledge, execTableChangeAcknowledge]
  refine next_congr (if_pos ?_)
  have : ((AMap.get {} s.changes chg : ChangeState).waitFor.any fun id => match s.access? id with
      | some a => chipOfNode a.src == chip
      | none => false) = true := List.any_eq_true.2 ⟨id, hid, by rw [hx]; simp [hc]⟩
  rw [Bool.or_eq_true]
  exact .inr this

theorem acknowledge_closed (ha : chip ∈ (AMap.get {} s.changes chg : ChangeState).applied)
    (hn : chip ∉ (AMap.get {} s.changes chg : ChangeState).acknowledged) (h : ∀ id ∈ (AMap.get {} s.changes chg : ChangeState).waitFor, s.access? id = none) :
    exec (.tableChangeAcknowledge chip chg) s = .next (
      let v : ChangeState := AMap.get {} s.changes chg
      if (v.held.any fun t => chipOfThread t == chip && (s.slot t).state.movingOn? == some v.change.obj) then
        s.timer (chip * 24576 * 16) 4000 (.event (.tableChangeAcknowledge chip chg))
      else if v.chips.all fun c => (NSet.insert v.acknowledged chip).contains c then
        ({ s with changes := AMap.set {} s.changes chg {} } : State).changeComplete
          { v with acknowledged := NSet.insert v.acknowledged chip }
      else { s with changes := AMap.set {} s.changes chg { v with acknowledged := NSet.insert v.acknowledged chip } }) := by
  rw [exec_tableChangeAcknowledge, execTableChangeAcknowledge]
  generalize (AMap.get {} s.changes chg : ChangeState) = v at *
  refine next_congr (if_neg ?_)
  have : (v.waitFor.any fun id => match s.access? id with
      | some a => chipOfNode a.src == chip
      | none => false) = false := List.any_eq_false.2 fun id hid => by rw [h id hid]; simp
  simp only [Bool.or_eq_true, not_or]
  refine ⟨⟨by simp [ha], by simp [hn]⟩, ?_⟩
  exact fun hc => Bool.false_ne_true (this.symm.trans hc)

end

theorem changeComplete_none {s : State} {v : ChangeState} (h : ∀ e ∈ s.transits, e.1 ≠ v.transit) : s.changeComplete v = s := by
  have hg : ∀ l : List (Nat × Transit), (∀ e ∈ l, e.1 ≠ v.transit) →
      AMap.get none (l.map fun e => (e.1, some e.2)) v.transit = none := by
    intro l hl
    induction l with
    | nil => rfl
    | cons e l ih =>
      rw [List.map_cons, AMap.get, if_neg (hl e List.mem_cons_self)]
      exact ih fun x hx => hl x (List.mem_cons_of_mem _ hx)
  unfold State.changeComplete
  rw [hg _ h]

end Sys2Proof.Machine
end

section
/-! Proofs. What waits on moving extents and code lines (02 R41, R45; 07 R449; O52). -/

namespace Sys2Proof.Machine

/-! ### Rechecks -/

theorem recheck_due (thread : Nat) (s : State) (l : List (Nat × Packet)) : OnlyDue s (l.foldl (fun s e =>
    match e.2.payload, e.2.loc with
    | .request id, .waitingExtent =>
        if ((s.access? id).map (·.thread)) = some thread then s.event (.reeveOperation e.1 false) else s
    | _, _ => s) s) := by
  refine OnlyDue.foldl (fun s e => ?_) _ _
  split
  · split
    · exact State.event_due _ _
    · exact .refl s
  · exact .refl s

/-- A request that waits at its home for an extent is looked at again with its thread. -/
theorem recheck_request (thread : Nat) {pk id : Nat} {p : Packet} {a : Access} (hp : p.payload = .request id)
    (hl : p.loc = .waitingExtent) (ht : a.thread = thread) (l : List (Nat × Packet)) (hm : (pk, p) ∈ l) (s : State)
    (ha : s.access? id = some a) : Due.event (.reeveOperation pk false) ∈ (l.foldl (fun s e =>
    match e.2.payload, e.2.loc with
    | .request id, .waitingExtent =>
        if ((s.access? id).map (·.thread)) = some thread then s.event (.reeveOperation e.1 false) else s
    | _, _ => s) s).pending := by
  induction l generalizing s with
  | nil => simp at hm
  | cons e l ih =>
    rw [List.foldl_cons]
    rcases List.mem_cons.1 hm with rfl | hm
    · refine (recheck_due thread _ l).mem ?_
      dsimp only
      rw [hp, hl]
      dsimp only
      rw [ha, Option.map_some, ht, if_pos rfl]
      exact due_event _ _
    · refine ih hm _ ?_
      have h := recheck_due thread s [e]
      rw [List.foldl_cons, List.foldl_nil] at h
      rw [h.rest]
      exact ha

theorem movingExtentRecheck_rechecks (s : State) (thread : Nat) : ∃ t, exec (.movingExtentRecheck thread) s = .next t ∧
    t.mem = s.mem ∧ ((s.slot thread).state.movingOn?.isSome = true ∨ (s.slot thread).state.reading?.isSome = true →
      Due.again thread ∈ t.pending) ∧
    ((s.slot thread).state = .parked .code → Due.event (.codeCacheFill thread) ∈ t.pending) ∧
    ∀ pk p id a, (pk, p) ∈ s.packets → p.payload = .request id → p.loc = .waitingExtent → s.access? id = some a →
      a.thread = thread → Due.event (.reeveOperation pk false) ∈ t.pending := by
  rw [exec_movingExtentRecheck, execMovingExtentRecheck]
  dsimp only
  obtain ⟨u, hu⟩ : ∃ u, u = if (s.slot thread).state.movingOn?.isSome || (s.slot thread).state.reading?.isSome then
    s.push (.again thread) else s := ⟨_, rfl⟩
  have h1 : OnlyDue s u := by
    rw [hu]
    split
    · exact State.push_due _ _
    · exact .refl s
  rw [← hu]
  obtain ⟨w, hw⟩ : ∃ w, w = if parkedOn .code (u.slot thread) then u.event (.codeCacheFill thread) else u := ⟨_, rfl⟩
  have h2 : OnlyDue u w := by
    rw [hw]
    split
    · exact State.event_due _ _
    · exact .refl u
  rw [← hw]
  have h3 := recheck_due thread w w.packets
  have hs := h1.trans h2
  refine ⟨_, rfl, (hs.trans h3).same_mem, fun h => (h2.trans h3).mem ?_, fun h => h3.mem ?_, fun pk p id a hm hp hl ha ht =>
    recheck_request thread hp hl ht w.packets ?_ w ?_⟩
  · rw [hu, if_pos (by simpa using h)]
    exact List.mem_append_right _ (List.mem_singleton.2 rfl)
  · have hp : parkedOn .code (u.slot thread) = true := by
      rw [show u.slot thread = s.slot thread by rw [h1.rest]; rfl, parkedOn, h]
      exact decide_eq_true rfl
    rw [hw, if_pos hp]
    exact due_event _ _
  · rw [hs.rest]
    exact hm
  · rw [hs.rest]
    exact ha

/-! ### Caches -/

theorem last_mem_drop {α : Type} (l : List α) (a : α) (k : Nat) (hk : 0 < k) : a ∈ (l ++ [a]).drop (l.length + 1 - k) := by
  rw [List.drop_append_of_le_length (by omega)]
  exact List.mem_append_right _ (List.mem_singleton.2 rfl)

theorem nodeCacheFetch_serves {s : State} {node k : Nat} (h : k ∈ (s.node node).fetching) :
    ∃ t, exec (.nodeCacheFetch node k) s = .next t ∧
      (if k % 2 = 0 then Cached.object (k / 2) (AMap.get {} s.objs (k / 2)) else .extent (k / 2) (AMap.get 0 s.exts (k / 2))) ∈
        (t.node node).cache ∧ k ∉ (t.node node).fetching := by
  rw [exec_nodeCacheFetch, execNodeCacheFetch, if_pos (by simpa using h)]
  refine ⟨_, rfl, ?_⟩
  dsimp only
  rw [State.node_modNode_self]
  dsimp only
  exact ⟨last_mem_drop _ _ 512 (by omega), fun hm => (NSet.mem_erase.1 hm).2 rfl⟩

/-! ### Code lines -/

section
variable {s : State} {thread : Nat} (hc : (s.slot thread).state = .parked .code)
include hc

theorem parkedOn_code : parkedOn .code (s.slot thread) = true := by
  rw [parkedOn, hc]
  exact decide_eq_true rfl

theorem codeCacheFill_fetches : exec (.codeCacheFill thread) s = .next (match s.fetch thread with
      | .word _ => s.modSlot thread fun c => { c with state := .ready }
      | .trap k => s.trapIn thread k (s.slot thread).pc
      | .moving => s
      | .miss => s.askCode thread) := by
  rw [exec_codeCacheFill, execCodeCacheFill, if_pos (parkedOn_code hc)] <;> rfl

end

theorem retireAccess_fills {s : State} {id : Nat} {a : Access} (h : s.access? id = some a)
    (hc : (s.slot a.thread).state = .parked .code) : Due.event (.codeCacheFill a.thread) ∈ (s.retireAccess id).pending := by
  unfold State.retireAccess
  simp only [h]
  generalize hr : ({ s with accesses := dropRec s.accesses id } : State).dropRetry id = s0
  have h0 : s0.slots = s.slots := by rw [← hr]; rfl
  generalize hb : (if (s0.core (coreOfThread a.thread)).buffer.any (·.acc == id)
    then s0.modCore (coreOfThread a.thread) fun c => { c with buffer := c.buffer.filter (·.acc != id) }
    else s0) = s1
  have h1 : s1.slots = s.slots := by
    rw [← h0, ← hb]; split <;> rfl
  obtain ⟨-, h2⟩ := s1.forgetEarly_frame id s1.slots
  generalize s1.slots.foldl (fun s e => if e.2.early.contains id then
      s.modSlot e.1 fun c => { c with early := c.early.filter (· != id) } else s) s1 = s2 at *
  obtain ⟨l, hl⟩ := h2 a.thread
  have h3 : (s2.slot a.thread).state = .parked .code := by
    rw [hl]
    exact (congrArg (fun m : AMap Slot => (AMap.get ({} : Slot) m a.thread).state) h1).trans hc
  have h4 := s2.resumePasses_due id
  generalize s2.resumePasses id = s3 at *
  obtain ⟨c, p, h5⟩ := s3.resumeChanges_frame id
  rw [h5]
  generalize hs4 : ({ s3 with changes := c, pending := s3.pending ++ p } : State) = s4
  have h6 := (s4.pokeTask_due a.task).moved.trans (State.pokeTurns_moved _ id)
  generalize (s4.pokeTask a.task).pokeTurns id = s5 at *
  have h7 : (s5.slot a.thread).state = .parked .code := by
    rw [h6.rest, ← hs4, h4.rest]
    exact h3
  rw [if_pos (parkedOn_code h7)]
  have h8 := (s5.event (.codeCacheFill a.thread)).resumeOps_wake id a.thread
  obtain ⟨o, m, hw⟩ := h8 _
  rw [hw]
  exact List.mem_append_left _ (due_event _ _)

end Sys2Proof.Machine
end

section
/-! Proofs. Table changes and caches (02 R41 to R49; O52). -/

namespace Sys2Proof.Machine

/-- Settles O52. -/
theorem tableSteps : Obligations.TableSteps := by
  unfold Obligations.TableSteps
  intro s chip chg node key thread
  dsimp only
  refine ⟨fun h => ?_, fun pk acc a h hr => ?_, fun pk acc h hr hk => ⟨fun hd r hc hn hm => ?_, fun r hc => ?_⟩, fun ha hn =>
    ⟨acknowledge_open, fun hw hh => ?_, fun hw hh => ⟨fun hk => ?_, fun hk ht => ?_⟩⟩, movingExtentRecheck_rechecks s thread,
    fun k e hk => ⟨fun h2 he => ?_, fun h2 => ?_⟩, fun hc => ⟨fun w hf => ?_, fun k hf => ?_, fun hf hn => ⟨fun ho target ht => ?_, fun ho => ?_⟩⟩,
    fun pk p id a hd ha hr ht hn hc => ?_⟩
  · rw [exec_tableChange, execTableChange, h]
  · rw [exec_tableChange, execTableChange, h]
    dsimp only
    rw [hr]
  · rw [exec_tableChange, execTableChange, h]
    dsimp only
    rw [hr, hc]
    dsimp only
    rw [if_pos hn, if_pos (by simpa using hm)]
  · obtain ⟨t, he, hd, hdue⟩ := tableChange_applies h hr hc
    obtain ⟨ho, hp⟩ := takeChange_takes s chip acc hk
    obtain ⟨h1, h2, h3, h4, h5, h6, h7⟩ := changeApplied_holds (chg := chg) (chip := chip) (r := r) ho hp
    have hobjs : t.objs = (changeApplied s chip chg r (s.takeChange chip pk acc)).objs := by rw [hd.rest]
    have hcore (k : Nat) : t.core k = (changeApplied s chip chg r (s.takeChange chip pk acc)).core k := by rw [hd.rest]; rfl
    have hchip : t.chip chip = (changeApplied s chip chg r (s.takeChange chip pk acc)).chip chip := by rw [hd.rest]; rfl
    have hchg : t.changes = (changeApplied s chip chg r (s.takeChange chip pk acc)).changes := by rw [hd.rest]
    refine ⟨t, he, by rw [hchip, h1], by rw [hchg]; exact h2, fun k hk => by rw [hchg]; exact h3 k hk, hdue, by rw [hd.packet?]; exact h4,
      fun e hv hne => ⟨fun hs => ?_, fun h0 hs => ?_⟩, fun e hv => ?_, fun k hk => by rw [hd.node]; exact h6 k hk,
      fun k hk => by rw [hcore]; exact h7 k hk⟩
    · rw [State.obj, hobjs, h5 _ _ hv, if_neg hne, AMap.get_set_self, newEntry, if_neg]
      rintro ⟨a, b⟩
      exact hs.elim (fun h => h a) fun h => b h
    · rw [State.obj, hobjs, h5 _ _ hv, if_neg hne, AMap.get_set_self, newEntry, if_pos ⟨h0, hs⟩]
    · rw [hobjs, h5 _ _ hv, if_pos rfl]
  · obtain ⟨k, h1, h2, h3⟩ := hh
    rw [acknowledge_closed ha hn hw]
    exact next_congr (if_pos (List.any_eq_true.2 ⟨k, h1, by simp [h2, h3]⟩))
  · obtain ⟨k, h1, h2, h3⟩ := hk
    rw [acknowledge_closed ha hn hw]
    refine next_congr ((if_neg ?_).trans (if_neg ?_))
    · rw [Bool.not_eq_true, List.any_eq_false]
      intro k hk
      by_cases hkc : chipOfThread k = chip
      · simpa [hkc] using hh k hk hkc
      · simp [hkc]
    · rw [List.all_eq_true]
      intro hall
      have := hall k h1
      rw [List.contains_eq_mem, decide_eq_true_eq, NSet.mem_insert] at this
      exact this.elim h2 h3
  · rw [acknowledge_closed ha hn hw]
    refine next_congr ((if_neg ?_).trans ((if_pos ?_).trans (changeComplete_none ht)))
    · rw [Bool.not_eq_true, List.any_eq_false]
      intro k hk
      by_cases hkc : chipOfThread k = chip
      · simpa [hkc] using hh k hk hkc
      · simp [hkc]
    · rw [List.all_eq_true]
      intro k h1
      rw [List.contains_eq_mem, decide_eq_true_eq, NSet.mem_insert]
      exact hk k h1
  · obtain ⟨t, ht, hm, hf⟩ := nodeCacheFetch_serves hk
    subst h2
    rw [if_pos (by omega), show 2 * key / 2 = key by omega, he] at hm
    exact ⟨t, ht, hm, hf⟩
  · obtain ⟨t, ht, hm, hf⟩ := nodeCacheFetch_serves hk
    subst h2
    rw [if_neg (by omega), show (2 * key + 1) / 2 = key by omega] at hm
    exact ⟨t, ht, hm, hf⟩
  · rw [codeCacheFill_fetches hc, hf]
  · rw [codeCacheFill_fetches hc, hf]
  · rw [codeCacheFill_fetches hc, hf]
    dsimp only
    rw [State.askCode]
    dsimp only
    rw [if_neg, if_neg (by omega), ht]
    · exact ⟨_, rfl, State.request_requested (Touched.refl _) _⟩
    · rw [Bool.not_eq_true, List.any_eq_false]
      intro e he
      simp [hn e he]
  · rw [codeCacheFill_fetches hc, hf]
    dsimp only
    rw [State.askCode]
    dsimp only
    rw [if_neg, if_pos ho]
    rw [Bool.not_eq_true, List.any_eq_false]
    intro e he
    simp [hn e he]
  · subst ht
    have hret := State.retireAccess_retired (s := s.dropPacket pk) ha
    have hdue := retireAccess_fills (s := s.dropPacket pk) ha hc
    obtain ⟨l, hl⟩ := hret.slots a.thread
    have hne : ((((s.dropPacket pk).retireAccess id).sendFreed id a p.src).slot a.thread).state ≠ .parked (.reply id) := by
      rw [show (((s.dropPacket pk).retireAccess id).sendFreed id a p.src).slot a.thread =
        ((s.dropPacket pk).retireAccess id).slot a.thread from rfl, hl]
      exact fun h => SlotState.noConfusion (hc.symm.trans h) fun h => Wait.noConfusion h
    refine ⟨(((s.dropPacket pk).retireAccess id).sendFreed id a p.src).keepLine a.thread
      (objKey a.parish (chipOfThread a.thread) (handleObj a.addr)) (handleOff a.addr / 128) a.value, ?_, ?_, ?_, ?_⟩
    · rw [show exec (.replyLands pk) s = execReplyLands pk s from rfl, execReplyLands, hd.packet]
      dsimp only
      rw [hd.carries, hd.here]
      dsimp only
      rw [show (s.dropPacket pk).access? id = some a from ha]
      dsimp only
      rw [if_neg hne, State.landLine, hr, hn]
    · rw [State.keepLine, State.node_modNode_self]
      dsimp only
      exact last_mem_drop _ _ 512 (by omega)
    · exact List.mem_append_left _ hdue
    · exact hret.mem

end Sys2Proof.Machine
end

section
/-! Proofs. A completion flag that is no place (05 R132; O53). -/

namespace Sys2Proof.Machine

/-- A member that has halted. -/
def haltedMember : Member :=
  { node := 0, core := 0, slot := none, index := [], state := .halted, triggered := true, wbase := 0, blocks := [], thread := 0 }

/-- Task 1 has halted, and its completion flag is the word 8: bit 63 is clear, so it is a handle, of an object that does not
exist. -/
def handleFlag : State :=
  { State.reset with tasks := [(1, { live := true, members := [haltedMember], flag := 8 })] }

/-- The accesses under way after a step. -/
def accessesAfter (o : Out) : AMap Access :=
  match o with
  | .next t => t.accesses
  | _ => []

theorem accessesAfter_handleFlag : accessesAfter (exec (.taskRetirement 1) handleFlag) = [] := by decide +kernel

/-- Refutes O53: the retirement of a task whose completion flag is no place, but has bit 62 clear, sends no increment, as the
handle fails its checks. -/
theorem not_taskSteps : ¬ Obligations.TaskSteps := by
  unfold Obligations.TaskSteps
  intro h
  obtain ⟨-, -, -, -, -, -, -, -, -, h, -⟩ := h handleFlag 0 0 1 0 0
  obtain ⟨u, e, -, -, -, hf⟩ := h (by decide +kernel) (by decide +kernel) (by decide +kernel) (by decide +kernel) (by decide +kernel)
    (by decide +kernel)
  obtain ⟨a, ha, -⟩ := hf (by decide +kernel) (by decide +kernel) (by decide +kernel)
  have hu : accessesAfter (exec (.taskRetirement 1) handleFlag) = u.accesses := by rw [e]; rfl
  rw [accessesAfter_handleFlag] at hu
  rw [← hu] at ha
  exact absurd ha List.not_mem_nil

end Sys2Proof.Machine
end

section
/-! Proofs. A staging flag that is no place (15 R389; O55). -/

namespace Sys2Proof.Machine

/-- A line of a page on its way to subscription 0; its flag is the word 8, a handle of an object that does not exist. -/
def strayLine : Access :=
  { req := .page 0 0, target := .byte 0, addr := 0, thread := 0, parish := 0, src := 0, dst := 0, channel := false, seq := 0,
    posted := false, found := true, flag := some 8 }

/-- The packet that brings the line, delivered. -/
def strayPacket : Packet :=
  { payload := .page [0] 0 [], cls := .multicast, parish := 0, epoch := 0, src := 0, dst := 0, channel := false, loc := .delivered }

def noSnapshot : PassSnapshot :=
  { parish := 0, elem := 0, hd := 0, tokens := 0, npages := 0, kbase := 0, vbase := 0, stride := 0, sflag := 0, stage := 0,
    stamp := {}, thread := 0, user := false, fence := [] }

/-- The packet has come to its node. -/
def strayPage : State := { State.reset with nextId := 2, packets := [(1, strayPacket)], accesses := [(0, strayLine)] }

/-- An access counts a flag. -/
def countsFlag (e : Nat × Access) : Bool := decide (e.2.req = .flagAdd 1)

theorem accessesAfter_strayPage : (accessesAfter (exec (.stagingDelivery 1) strayPage)).any countsFlag = false := by decide +kernel

/-- Refutes O55: the last line of a page whose staging flag is no place, but has bit 62 clear, sends no increment, as the handle
fails its checks. -/
theorem not_passSteps : ¬ Obligations.PassSteps := by
  unfold Obligations.PassSteps
  intro h
  obtain ⟨-, -, -, -, h, -⟩ := h strayPage 0 0 0 1 0 ⟨noSnapshot, 0, false, []⟩ noSnapshot
  obtain ⟨-, -, h, -⟩ := h strayPacket 0 [] 0 [] strayLine 0 ⟨by decide +kernel, rfl, rfl⟩ (by decide +kernel) rfl
  obtain ⟨t, e, -, -, -, -, hf⟩ := h rfl (by decide +kernel) (.inl rfl) fun _ _ _ pa hpa => absurd hpa List.not_mem_nil
  obtain ⟨z, hz, hr, -⟩ := hf 8 (by decide) rfl (by decide +kernel) (by decide) (by decide +kernel)
  have ht : accessesAfter (exec (.stagingDelivery 1) strayPage) = t.accesses := by rw [e]; rfl
  have hn := accessesAfter_strayPage
  rw [ht, List.any_eq_false] at hn
  exact hn z hz (decide_eq_true hr)

end Sys2Proof.Machine
end

section
/-! Proofs. What writes to memory leave as it was: rings and records (11 R300; 14 R369). -/

namespace Sys2Proof.Machine

/-- From `s` to `t` bytes have been written, and nothing but memory, its stamps and its errors differs. -/
structure OnlyWrites (s t : State) : Prop where
  rest : t = { s with mem := t.mem, stamps := t.stamps, errors := t.errors }
  ok : s.MemOk → t.MemOk

theorem OnlyWrites.refl (s : State) : OnlyWrites s s := ⟨rfl, id⟩

theorem OnlyWrites.trans {s t u : State} (h : OnlyWrites s t) (h' : OnlyWrites t u) : OnlyWrites s u :=
  ⟨by rw [h'.rest, h.rest], fun hs => h'.ok (h.ok hs)⟩

theorem OnlyWrites.foldl {α : Type} {f : State → α → State} (h : ∀ s a, OnlyWrites s (f s a)) (l : List α) (s : State) :
    OnlyWrites s (l.foldl f s) := by
  induction l generalizing s with
  | nil => exact .refl s
  | cons a l ih => exact (h s a).trans (ih _)

theorem write_writes (s : State) (l : List (Nat × Byte)) : OnlyWrites s (s.write l) := by
  refine ⟨?_, State.write_memOk l⟩
  unfold State.write State.refreshed State.dropStamps
  split <;> split <;> rfl

theorem OnlyWrites.slot {s t : State} (h : OnlyWrites s t) (k : Nat) : t.slot k = s.slot k := by rw [h.rest]; rfl

theorem deqRing_writes {s t : State} {chip parish off : Nat} {v : Word} (h : s.deqRing chip parish off = some (v, t)) :
    OnlyWrites s t := by
  unfold State.deqRing at h
  split at h
  · exact nomatch h
  · split at h
    · split at h
      · exact nomatch h
      · rw [← (Prod.mk.inj (Option.some.inj h)).2]
        exact write_writes _ _
    · exact nomatch h

theorem enqRing_writes {s t : State} {chip parish off : Nat} {v : Word} (h : s.enqRing chip parish off v = some t) :
    OnlyWrites s t := by
  unfold State.enqRing at h
  split at h
  · exact nomatch h
  · split at h
    · split at h
      · exact nomatch h
      · rw [← Option.some.inj h]
        exact (write_writes _ _).trans (write_writes _ _)
    · exact nomatch h

theorem giveBack_writes (s : State) (chip parish off : Nat) (v : Word) : OnlyWrites s (s.giveBack chip parish off v) := by
  unfold State.giveBack
  cases h : s.enqRing chip parish off v with
  | none => exact .refl s
  | some t => exact enqRing_writes h

/-! ### Words of a record -/

theorem recordWords_length (ws : List (Nat × Word)) : (recordWords ws).length = 144 := by simp [recordWords]

theorem flatMap_littleEndian_length (l : List Word) : (l.flatMap fun w => littleEndian w 8).length = 8 * l.length := by
  induction l with
  | nil => rfl
  | cons w l ih => rw [List.flatMap_cons, List.length_append, ih, littleEndian_length, List.length_cons]; omega

/-- The bytes of word `i` of a list of words. -/
theorem drop_take_flatMap_littleEndian (l : List Word) (i : Nat) (h : i < l.length) :
    ((l.flatMap fun w => littleEndian w 8).drop (8 * i)).take 8 = littleEndian l[i] 8 := by
  induction l generalizing i with
  | nil => simp at h
  | cons w l ih =>
    cases i with
    | zero =>
      rw [List.flatMap_cons, List.drop_zero, List.take_append_of_le_length (by rw [littleEndian_length])]
      exact List.take_of_length_le (by rw [littleEndian_length])
    | succ i =>
      rw [List.flatMap_cons, List.drop_append, List.drop_of_length_le (by rw [littleEndian_length]; omega), littleEndian_length,
        show 8 * (i + 1) - 8 = 8 * i by omega, List.nil_append, List.getElem_cons_succ]
      exact ih i (by simpa using h)

theorem consecutive_drop_take (pa n i m : Nat) (h : i + m ≤ n) : ((consecutive pa n).drop i).take m = consecutive (pa + i) m := by
  refine List.ext_getElem (by simp; omega) fun j h1 h2 => ?_
  simp [consecutive, Nat.add_assoc]

/-- A word of a list of words that has been written reads back. -/
theorem loadLE_write_words (s : State) (pa : Nat) (l : List Word) (i : Nat) (h : i < l.length) :
    (s.write ((consecutive pa (8 * l.length)).zip (l.flatMap fun w => littleEndian w 8))).loadLE (pa + 8 * i) 8 = l[i] := by
  have hb := bytes_setBytes_zip s (nodup_consecutive pa (8 * l.length)) (bs := l.flatMap fun w => littleEndian w 8)
    (by rw [flatMap_littleEndian_length, length_consecutive])
  rw [loadLE_congr (State.write_mem _ _)]
  generalize s.setBytes _ = t at hb ⊢
  have := congrArg (fun b => (b.drop (8 * i)).take 8) hb
  rw [drop_take_flatMap_littleEndian l i h, State.bytes, ← List.map_drop, ← List.map_take, consecutive_drop_take _ _ _ _ (by omega)] at this
  rw [State.loadLE, State.bytes, this, wordOfBytes, ofLittleEndian_littleEndian]
  have := l[i].isLt
  refine BitVec.eq_of_toNat_eq ?_
  rw [BitVec.toNat_ofNat]
  omega

end Sys2Proof.Machine
end

section
/-! Proofs. Saving a context (07 R182; 14 R369; O54). -/

namespace Sys2Proof.Machine

/-- From `s` to `t` memory, the thread slots and the saved contexts are as they were. -/
structure KeepsContexts (s t : State) : Prop where
  mem : t.mem = s.mem
  slots : t.slots = s.slots
  saved : t.saved = s.saved

theorem KeepsContexts.refl (s : State) : KeepsContexts s s := ⟨rfl, rfl, rfl⟩

theorem KeepsContexts.trans {s t u : State} (h : KeepsContexts s t) (h' : KeepsContexts t u) : KeepsContexts s u :=
  ⟨h'.mem.trans h.mem, h'.slots.trans h.slots, h'.saved.trans h.saved⟩

theorem KeepsContexts.foldl {α : Type} {f : State → α → State} (h : ∀ s a, KeepsContexts s (f s a)) (l : List α) (s : State) :
    KeepsContexts s (l.foldl f s) := by
  induction l generalizing s with
  | nil => exact .refl s
  | cons a l ih => exact (h s a).trans (ih _)

theorem OnlyDue.keepsContexts {s t : State} (h : OnlyDue s t) : KeepsContexts s t := by
  rw [h.rest]
  exact ⟨rfl, rfl, rfl⟩

theorem keepsContexts_markTake (s : State) (id : Nat) : KeepsContexts s (s.markTake id) := by
  unfold State.markTake
  split
  · exact .refl s
  · split
    · split
      · split
        · exact ⟨rfl, rfl, rfl⟩
        · exact .refl s
      · exact .refl s
    · exact .refl s

theorem keepsContexts_kick (s : State) (core : Nat) (e : Engine) : KeepsContexts s (s.kick core e) := by
  unfold State.kick
  have h0 : KeepsContexts s (if e = .granary then ((s.core core).queue e).foldl State.markTake s else s) := by
    split
    · exact .foldl keepsContexts_markTake _ s
    · exact .refl s
  dsimp only
  generalize (if e = .granary then ((s.core core).queue e).foldl State.markTake s else s) = t at h0 ⊢
  split
  · exact h0
  · split
    · exact h0.trans ⟨rfl, rfl, rfl⟩
    · exact h0.trans (.trans (t := t.modOp _ _) ⟨rfl, rfl, rfl⟩ (State.pushOnce_due _ _).keepsContexts)

theorem keepsContexts_enqueue (s : State) (id : Nat) : KeepsContexts s (s.enqueue id) := by
  unfold State.enqueue
  split
  · exact .refl s
  · exact .trans (t := s.modCore _ _) ⟨rfl, rfl, rfl⟩ (keepsContexts_kick _ _ _)

theorem keepsContexts_leaveQueue (s : State) (id : Nat) (o : EngOp) : KeepsContexts s (s.leaveQueue id o) := by
  unfold State.leaveQueue
  dsimp only
  generalize hs1 : (s.modCore o.core fun c => c.setQueue o.engine ((c.queue o.engine).filter (· != id))) = s1
  have h1 : KeepsContexts s s1 := by rw [← hs1]; exact ⟨rfl, rfl, rfl⟩
  have h2 : KeepsContexts s1 (if o.engine = .loom then s1.loomIdle o.core else s1) := by
    split <;> exact ⟨rfl, rfl, rfl⟩
  generalize (if o.engine = .loom then s1.loomIdle o.core else s1) = s2 at h2 ⊢
  have h3 (p : Nat → Slot → Bool) : KeepsContexts s (s2.wakeIf p) := (h1.trans h2).trans (State.wakeIf_due _ _).keepsContexts
  split
  · exact (h3 _).trans (keepsContexts_enqueue _ _)
  · exact (h3 _).trans (keepsContexts_kick _ _ _)

theorem keepsContexts_dropTollWait (s : State) (kept : Option Wait) : KeepsContexts s (s.dropTollWait kept) := by
  unfold State.dropTollWait
  split
  · split
    · split
      · exact keepsContexts_leaveQueue _ _ _
      · exact .refl s
    · exact .refl s
  · exact .refl s

theorem keepsContexts_reportReserved (s : State) (t : Nat) : KeepsContexts s (s.reportReserved t) := by
  unfold State.reportReserved
  split
  · split
    · exact ⟨rfl, rfl, rfl⟩
    · exact .refl s
  · exact .refl s

theorem freeSlot_saved (s : State) (t : Nat) : (s.freeSlot t).saved = s.saved := (freeSlot_due s t).keepsContexts.saved

/-- The slot lent to a thread is freed. -/
def lentFreed (s : State) (t : Nat) (c : Slot) : State :=
  match c.lent with
  | some i => s.freeSlot (coreOfThread t * 8 + i)
  | none => s

/-- The arrival place of a wayfarer is freed. -/
def arrivalFreed (s : State) (t : Nat) (c : Slot) : State :=
  if c.wf then
    (s.modCore (coreOfThread t) fun k =>
      { k with arrivals := k.arrivals.filter fun a => decide (a ≠ Arrival.running (slotOfThread t)) }).wakeIf
      fun _ c => parkedOn .arrival c
  else s

/-- What becomes of a slot, once its context is kept: the slot lent to it is freed, a wayfarer's place too, and then it. -/
def vacated (s : State) (t : Nat) (c : Slot) : State := (arrivalFreed (lentFreed s t c) t c).freeSlot t

theorem lentFreed_mem_saved (s : State) (t : Nat) (c : Slot) :
    (lentFreed s t c).mem = s.mem ∧ (lentFreed s t c).saved = s.saved := by
  unfold lentFreed
  split
  · exact ⟨(freeSlot_storage _ _).mem, freeSlot_saved _ _⟩
  · exact ⟨rfl, rfl⟩

theorem keepsContexts_arrivalFreed (s : State) (t : Nat) (c : Slot) : KeepsContexts s (arrivalFreed s t c) := by
  unfold arrivalFreed
  split
  · exact .trans (t := s.modCore _ _) ⟨rfl, rfl, rfl⟩ (State.wakeIf_due _ _).keepsContexts
  · exact .refl s

theorem vacated_mem_saved (s : State) (t : Nat) (c : Slot) : (vacated s t c).mem = s.mem ∧ (vacated s t c).saved = s.saved := by
  obtain ⟨hm, hs⟩ := lentFreed_mem_saved s t c
  have hw := keepsContexts_arrivalFreed (lentFreed s t c) t c
  exact ⟨(freeSlot_storage _ _).mem.trans (hw.mem.trans hm), (freeSlot_saved _ _).trans (hw.saved.trans hs)⟩

theorem vacated_free (s : State) (t : Nat) (c : Slot) : ((vacated s t c).slot t).state = .free :=
  congrArg Slot.state (freeSlot_slot_self _ t)

/-- A context as it is kept. -/
def heldContext (c : Slot) (t : Nat) (h pc : Word) (kept : Option Wait) : Slot :=
  { c with state := .held, pc := pc, preempt := none, trap := none, savedIn := kept, savedFrom := t, record := h, fork := none }

/-- The context of a slot is kept, with record `pa`. -/
def keptContext (s : State) (t : Nat) (c : Slot) (pa : Nat) (h pc : Word) (kept : Option Wait) : State :=
  { s with
    saved := AMap.set {} s.saved pa (heldContext c t h pc kept)
    ops := s.ops.map fun e => if e.2.thread = t ∧ e.2.saved = 0 then (e.1, { e.2 with saved := pa }) else e
    accesses := s.accesses.map fun e =>
      if e.2.thread = t ∧ e.2.saved = 0 ∧ e.2.opId ≠ 0 then (e.1, { e.2 with saved := pa }) else e }

theorem keptContext_saved (s : State) (t : Nat) (c : Slot) (pa : Nat) (h pc : Word) (kept : Option Wait) :
    (keptContext s t c pa h pc kept).saved = AMap.set {} s.saved pa (heldContext c t h pc kept) := rfl

/-- A context that its notice ring takes is kept, and its slot vacated. -/
theorem saveNow_saved {s s' : State} {t pa : Nat} {h : Word} (hr : s.takeRecord (chipOfThread t) (s.slot t).parish = some (h, pa, s'))
    (r : Nat) (pc : Word) (kept : Option Wait) :
    s.saveNow t r pc kept = vacated (keptContext (((s'.writeRecord pa (s'.contextWords t r pc kept)).reportReserved t).dropTollWait
      kept) t (s.slot t) pa h pc kept) t (s.slot t) := by
  unfold State.saveNow State.writeContext
  dsimp only
  rw [hr]
  rfl

theorem saveNow_refused {s : State} {t : Nat} (hr : s.takeRecord (chipOfThread t) (s.slot t).parish = none) (r : Nat) (pc : Word)
    (kept : Option Wait) : s.saveNow t r pc kept =
      (s.modSlot t fun c => { c with state := .saving r, pc := pc, preempt := none, savedIn := kept }).timer (coreOfThread t) 4000
        (.event (.saveRingRetry t)) := by
  unfold State.saveNow State.writeContext
  dsimp only
  rw [hr]

theorem contextWords_pc (s : State) (t r : Nat) (pc : Word) (kept : Option Wait) :
    (recordWords (s.contextWords t r pc kept))[2]? = some pc := by
  unfold State.contextWords
  simp [recordWords]

/-- The record of a context holds its pc. -/
theorem recWord_writeRecord (s : State) (t r pa : Nat) (pc : Word) (kept : Option Wait) (s' : State)
    (h : s'.mem = (s.writeRecord pa (s.contextWords t r pc kept)).mem) : s'.recWord pa 0x010 = pc := by
  have hl := recordWords_length (s.contextWords t r pc kept)
  have hp := contextWords_pc s t r pc kept
  generalize hw : recordWords (s.contextWords t r pc kept) = l at hl hp
  obtain ⟨hi, e⟩ := List.getElem?_eq_some_iff.1 hp
  have hd := loadLE_write_words s pa l 2 hi
  rw [e, hl] at hd
  rw [State.recWord, loadLE_congr h, State.writeRecord, hw]
  exact hd

theorem saveNow_saves {s s' : State} {t pa : Nat} {h : Word} (hr : s.takeRecord (chipOfThread t) (s.slot t).parish = some (h, pa, s'))
    (r : Nat) (pc : Word) (kept : Option Wait) : ∃ k, ((s.saveNow t r pc kept).slot t).state = .free ∧
      AMap.get {} (s.saveNow t r pc kept).saved pa = k ∧ k.state = .held ∧ k.pc = pc ∧ k.savedIn = kept ∧ k.savedFrom = t ∧
      k.record = h ∧ k.x = (s.slot t).x ∧ (s.saveNow t r pc kept).recWord pa 0x010 = pc := by
  rw [saveNow_saved hr]
  have hk := (keepsContexts_reportReserved (s'.writeRecord pa (s'.contextWords t r pc kept)) t).trans
    (keepsContexts_dropTollWait _ kept)
  generalize ((s'.writeRecord pa (s'.contextWords t r pc kept)).reportReserved t).dropTollWait kept = u at hk ⊢
  obtain ⟨hm, hs⟩ := vacated_mem_saved (keptContext u t (s.slot t) pa h pc kept) t (s.slot t)
  have hv : AMap.get {} (vacated (keptContext u t (s.slot t) pa h pc kept) t (s.slot t)).saved pa = heldContext (s.slot t) t h pc kept := by
    rw [hs, keptContext_saved]
    exact AMap.get_set_self _ _ _ _
  refine ⟨heldContext (s.slot t) t h pc kept, vacated_free _ _ _, hv, rfl, rfl, rfl, rfl, rfl, rfl,
    recWord_writeRecord s' t r pa pc kept _ (hm.trans hk.mem)⟩

/-- What saving slot `t` comes to: it waits for its accesses, or its context is kept or refused. -/
theorem exec_saves {s : State} {i : Instr} {t r : Nat} {pc : Word} {kept : Option Wait}
    (h : exec i s = .next (if s.released t then s.saveNow t r pc kept else s.saveLater t 4)) :
    (s.released t = false → exec i s = .next (s.timer (coreOfThread t) 4 (.event (.contextSave t)))) ∧
    (s.released t = true →
      (∀ h pa s', s.takeRecord (chipOfThread t) (s.slot t).parish = some (h, pa, s') → ∃ u k, exec i s = .next u ∧
        (u.slot t).state = .free ∧ AMap.get {} u.saved pa = k ∧ k.state = .held ∧ k.pc = pc ∧ k.savedIn = kept ∧
        k.savedFrom = t ∧ k.record = h ∧ k.x = (s.slot t).x ∧ u.recWord pa 0x010 = pc) ∧
      (s.takeRecord (chipOfThread t) (s.slot t).parish = none → exec i s = .next ((s.modSlot t fun c =>
        { c with state := .saving r, pc := pc, preempt := none, savedIn := kept }).timer (coreOfThread t) 4000
          (.event (.saveRingRetry t))))) := by
  refine ⟨fun hn => ?_, fun hy => ⟨fun a pa s' hr => ?_, fun hr => ?_⟩⟩
  · rw [h, if_neg (by simp [hn])]
    rfl
  · rw [if_pos hy] at h
    obtain ⟨k, hk⟩ := saveNow_saves hr r pc kept
    exact ⟨_, k, h, hk⟩
  · rw [h, if_pos hy, saveNow_refused hr]

end Sys2Proof.Machine
end

section
/-! Proofs. Resuming and disposing of contexts (07 R183; 14 R372; O54). -/

namespace Sys2Proof.Machine

/-! ### Resumption -/

section
variable {s : State} {pa i : Nat} {k : Slot} (hc : s.recWord pa 0x3C8 = 0) (hl : (s.recWord pa 0).getLsbD 27 = false) (hw : k.wf = false)
  (hi : k.savedIn = none) (hs : s.sharedLost (coreOfThread k.savedFrom) k = [])
  (hf : (s.looseSlots (coreOfThread k.savedFrom) 1).head? = some i)

/-- The slot in which a context goes on. -/
def resumedSlot (s : State) (pa : Nat) (k : Slot) : Slot :=
  { (s.retakeShared (coreOfThread k.savedFrom) k).restored pa k with state := .ready, wait := k.wait, lent := none, savedFrom := 0 }

/-- A context of a thread at home that is parked in nothing goes on in slot `i` of its core. -/
def resumedIn (s : State) (pa : Nat) (k : Slot) (i : Nat) : State :=
  let core := coreOfThread k.savedFrom
  let t := core * 8 + i
  let s := ((s.retakeShared core k).setSlot t (resumedSlot s pa k)).modTask k.task fun j =>
    match j.members[k.member]? with
    | some m => { j with members := listSet j.members k.member { m with thread := t } }
    | none => j
  { s with
    saved := AMap.drop s.saved pa
    ops := s.ops.map fun e => if e.2.saved = pa then (e.1, { e.2 with saved := 0, thread := t }) else e
    accesses := s.accesses.map fun e =>
      if e.2.saved = pa then (e.1, { e.2 with saved := 0, thread := if e.2.posted then t else e.2.thread }) else e }

include hl hw hf in
theorem resumeSlots_one : s.resumeSlots pa k = some (i, none) := by
  unfold State.resumeSlots
  rw [hl, hw]
  simp [hf]

include hc hs in
theorem storageThere_own : s.storageThere pa (coreOfThread k.savedFrom) k = true := by
  simp [State.storageThere, hc, hs]

include hc hs in
theorem makeWay_own (n : Nat) : s.makeWay pa (coreOfThread k.savedFrom) k n = s := by
  cases n with
  | zero => rfl
  | succ n => rw [State.makeWay, if_pos (storageThere_own hc hs)]

include hc hl hw hi hs hf in
theorem resumeContext_resumes : s.resumeContext pa k =
    (resumedIn s pa k i).giveBack (chipOfCore (coreOfThread k.savedFrom)) k.parish freeRecordRing k.record := by
  unfold State.resumeContext
  dsimp only
  rw [resumeSlots_one hl hw hf]
  dsimp only
  rw [makeWay_own hc hs, storageThere_own hc hs]
  simp only [hc, hw, Bool.not_true, bne_self_eq_false, Bool.false_eq_true, if_false]
  rw [State.rejoinWait, hi]
  rfl

end

theorem resumedIn_slot (s : State) (pa : Nat) (k : Slot) (i : Nat) :
    (resumedIn s pa k i).slot (coreOfThread k.savedFrom * 8 + i) = resumedSlot s pa k :=
  State.slot_setSlot_self (s.retakeShared (coreOfThread k.savedFrom) k) (coreOfThread k.savedFrom * 8 + i) (resumedSlot s pa k)

/-- Register `r` of a slot that is not a wayfarer's. -/
theorem regOf_of_slot {t : State} {u : Nat} {c : Slot} (h : t.slot u = c) (hw : c.wf = false) {r : Field4} (h1 : 1 ≤ r.toNat)
    (h2 : r.toNat ≤ 14) : t.regOf u r = c.x.toList.getD r.toNat 0 := by
  rw [State.regOf, if_neg, if_neg, h, hw, Bool.false_and, if_neg Bool.false_ne_true]
  · rintro rfl
    exact absurd h2 (by decide)
  · rintro rfl
    exact absurd h1 (by decide)

theorem resumedSlot_fields (s : State) (pa : Nat) (k : Slot) : (resumedSlot s pa k).state = .ready ∧
    (resumedSlot s pa k).pc = s.recWord pa 0x010 ∧ (resumedSlot s pa k).fmode = fmodeWord (s.recWord pa 0x0C0) ∧
    (resumedSlot s pa k).wf = k.wf := by
  have hr (o : Nat) : (s.retakeShared (coreOfThread k.savedFrom) k).recWord pa o = s.recWord pa o := loadLE_congr rfl _ _
  unfold resumedSlot State.restored
  exact ⟨rfl, hr _, congrArg fmodeWord (hr _), rfl⟩

theorem resumedSlot_x (s : State) (pa : Nat) (k : Slot) {n : Nat} (h1 : 1 ≤ n) (h2 : n ≤ 14) :
    (resumedSlot s pa k).x.toList.getD n 0 = s.recWord pa (0x010 + 8 * n) := by
  have hx : (resumedSlot s pa k).x = Vector.ofFn fun i : Fin 15 => if i.val = 0 then 0 else s.recWord pa (0x010 + 8 * i.val) := rfl
  rw [hx, List.getD_eq_getElem?_getD, List.getElem?_eq_getElem (by simpa using by omega)]
  simp
  omega

/-- A context resumes with the registers of its record. -/
theorem resumption_resumes {s : State} {pa i node record : Nat} {k : Slot} (hk : s.saved = [(pa, k)]) (hr : k.resuming = true)
    (hn : nodeOfThread k.savedFrom = node) (hp : record = 0 ∨ record = pa)
    (hc : s.recWord pa 0x3C8 = 0) (hl : (s.recWord pa 0).getLsbD 27 = false) (hw : k.wf = false)
    (hi : k.savedIn = none) (hs : s.sharedLost (coreOfThread k.savedFrom) k = [])
    (hf : (s.looseSlots (coreOfThread k.savedFrom) 1).head? = some i) : ∃ t, exec (.resumption node record) s = .next t ∧
      t.slot (coreOfThread k.savedFrom * 8 + i) = resumedSlot s pa k ∧ t.saved = [] := by
  have hg := giveBack_writes (resumedIn s pa k i) (chipOfCore (coreOfThread k.savedFrom)) k.parish freeRecordRing k.record
  refine ⟨_, ?_, (hg.slot _).trans (resumedIn_slot s pa k i), ?_⟩
  · have hfil : (s.saved.filter fun e => e.2.resuming && nodeOfThread e.2.savedFrom == node && (record == 0 || e.1 == record)) =
        [(pa, k)] := by
      rw [hk, List.filter_singleton]
      have : (record == 0 || pa == record) = true := by
        rcases hp with h | h
        · simp [h]
        · simp [h]
      simp [hr, hn, this]
    rw [show exec (.resumption node record) s = execResumption node record s from rfl, execResumption, hfil, List.foldl_cons, List.foldl_nil]
    exact next_congr (resumeContext_resumes hc hl hw hi hs hf)
  · rw [hg.rest]
    show AMap.drop s.saved pa = []
    rw [hk, AMap.drop, if_pos rfl]
    rfl

/-! ### Dispositions -/

/-- A member that ends is ended, and the others are as they were. -/
theorem setMember_members (s : State) (task member : Nat) (st : MemberState) :
    (((s.setMember task member st).task task).members[member]?).map (·.state) = ((s.task task).members[member]?).map fun _ => st := by
  rw [State.setMember, task_modTask]
  cases h : (s.task task).members[member]? with
  | none => simp [h]
  | some m =>
    dsimp only
    rw [getElem?_listSet (List.getElem?_eq_some_iff.1 h).1]
    rfl

/-- The home slot of a wayfarer whose context ends is freed. -/
def homeFreed (s : State) (k : Slot) : State :=
  match k.home with
  | some h => s.freeBoth h
  | none => s

theorem homeFreed_task (s : State) (k : Slot) (j : Nat) : (homeFreed s k).task j = s.task j := by
  unfold homeFreed
  split
  · exact congrArg (fun m : AMap Task => AMap.get ({} : Task) m j) (freeBoth_frees s _).2.1
  · rfl

/-- A task takes the cause of the first of its members that ends. -/
def tookCause (cause : Nat) (t : Task) : Task := if t.firstCause = 0 then { t with firstCause := cause } else t

theorem tookCause_members (cause : Nat) (t : Task) : (tookCause cause t).members = t.members := by unfold tookCause; split <;> rfl

/-- A context is dropped. -/
def contextDropped (s : State) (pa : Nat) : State := { s with saved := AMap.drop s.saved pa }

theorem endContext_eq (s : State) (pa : Nat) (k : Slot) : s.endContext pa k = (contextDropped ((((homeFreed (s.leaveOps k fun o => o.saved == pa)
    k).setMember k.task k.member .ended)).modTask k.task (tookCause (s.recWord pa 0x3B0).toNat)) pa).pokeTask k.task := rfl

theorem endContext_ends (s : State) (pa : Nat) (k : Slot) : AMap.get {} (s.endContext pa k).saved pa = {} ∧
    (((s.endContext pa k).task k.task).members[k.member]?).map (·.state) =
      ((s.task k.task).members[k.member]?).map fun _ => MemberState.ended := by
  rw [endContext_eq]
  have h1 := (leaveOps_keeps s k fun o => o.saved == pa).members k.task
  generalize (s.leaveOps k fun o => o.saved == pa) = s1 at h1 ⊢
  have h3 := setMember_members (homeFreed s1 k) k.task k.member .ended
  rw [homeFreed_task, h1] at h3
  generalize (homeFreed s1 k).setMember k.task k.member .ended = s3 at h3 ⊢
  have h4 := (keepsMembers_modTask s3 k.task (tookCause_members (s.recWord pa 0x3B0).toNat)).members k.task
  generalize s3.modTask k.task _ = s4 at h4 ⊢
  rw [(State.pokeTask_due (contextDropped s4 pa) k.task).rest]
  refine ⟨AMap.get_drop_self _ _ _, ?_⟩
  rw [← h3, ← h4]
  rfl

/-- A context that is disposed of with another code than 1 ends. -/
theorem disposition_ends {s s1 : State} {chip parish pa q : Nat} {h : Word} {k : Slot}
    (hd : s.deqRing chip parish resumeRing = some (h, s1)) (hr : s1.resolve chip parish h = some pa)
    (hn : s1.notices.find? (·.1 == pa) = none) (hs : s1.saved.find? (·.1 == pa) = some (q, k)) :
    let code := ((s1.recWord pa 0x3D0).extractLsb' 0 8).toNat
    (code = 1 → exec (.disposition chip parish) s = .next
      (({ s1 with saved := AMap.set {} s1.saved pa { k with resuming := true } }).event (.resumption (nodeOfThread k.savedFrom) pa))) ∧
    (code = 2 → exec (.disposition chip parish) s = .next ((s1.endContext pa k).giveBack chip parish freeRecordRing h)) ∧
    (code ≠ 1 → code ≠ 2 → exec (.disposition chip parish) s = .next s1) := by
  intro code
  have e : exec (.disposition chip parish) s = .next (if !dispositionOk none code then s1
      else if code = 1 then
        ({ s1 with saved := AMap.set {} s1.saved pa { k with resuming := true } }).event (.resumption (nodeOfThread k.savedFrom) pa)
      else (s1.endContext pa k).giveBack chip parish freeRecordRing h) := by
    rw [show exec (.disposition chip parish) s = execDisposition chip parish s from rfl, execDisposition, hd]
    dsimp only
    rw [hr]
    dsimp only
    rw [hn, hs]
    rfl
  rw [e]
  refine ⟨fun h1 => ?_, fun h2 => ?_, fun h1 h2 => ?_⟩
  · rw [if_neg (by simp [dispositionOk, h1]), if_pos h1]
  · rw [if_neg (by simp [dispositionOk, h2]), if_neg (by omega)]
  · rw [if_pos (by simp [dispositionOk, h1, h2])]

end Sys2Proof.Machine
end

section
/-! Proofs. Pre-emption (07 R181; O54). -/

namespace Sys2Proof.Machine

section
variable {s : State} {node : Nat} (hf : ∀ e ∈ s.ranked node (s.admissible node), s.fitsClaimed node e = false)
include hf

theorem preEmption_unfit : exec (.preEmption node) s = .next
    (match (s.ranked node (s.admissible node)).findSome? fun e => s.victimsFor e.2.1 e.2.2 with
    | some ts => ts.foldl (fun s t => (s.modSlot t fun c => { c with preempt := some 0 }).event (.contextSave t)) s
    | none => s) := by
  rw [exec_preEmption, execPreEmption]
  refine next_congr ((if_neg ?_).trans ?_)
  · rw [Bool.not_eq_true, List.any_eq_false]
    exact fun e he => by simp [hf e he]
  · rfl

theorem preEmption_none (h : ∀ e ∈ s.ranked node (s.admissible node), s.victimsFor e.2.1 e.2.2 = none) :
    exec (.preEmption node) s = .next s := by
  rw [preEmption_unfit hf, List.findSome?_eq_none_iff.2 h]

theorem preEmption_some {ts : List Nat}
    (h : ((s.ranked node (s.admissible node)).findSome? fun e => s.victimsFor e.2.1 e.2.2) = some ts) :
    exec (.preEmption node) s = .next
      (ts.foldl (fun s t => (s.modSlot t fun c => { c with preempt := some 0 }).event (.contextSave t)) s) := by
  rw [preEmption_unfit hf, h]

end

/-! ### The slots that go on one core -/

section
variable {s : State} {t : Task} {h : Share} {node core vid : Nat} {tv : Task} {hv : Share}

/-- The core is short of slots, of blocks or of room for a share's windows. -/
def shortOf (s : State) (t : Task) (node core : Nat) : Prop :=
  s.slotsFit core (t.members.filter (·.core == core)) = false ∨
    (s.freeBlocks core).length < t.perCore node * t.ownNames.length + t.sharedNames.length ∨
    s.basesFor [core] t.span (t.perCore node) = none

/-- A slot that may go for a share. -/
def mayGo (s : State) (t : Task) (core j : Nat) : Prop :=
  (s.slot (core * 8 + j)).preemptible = true ∧ (s.slotsFit core (t.members.filter (·.core == core)) = true ∨
    (t.members.filter (·.core == core)).filterMap (·.slot) = [] ∨ j ∈ (t.members.filter (·.core == core)).filterMap (·.slot))

/-- A core that has room for the windows and blocks of a share on it alone is not short. -/
theorem shortCores_one (hc : t.coresOn node = [core]) : s.shortCores t node =
    if decide ((s.freeBlocks core).length < t.perCore node * t.ownNames.length + t.sharedNames.length) ||
      (s.basesFor [core] t.span (t.perCore node)).isNone then [core] else [] := by
  unfold State.shortCores
  rw [hc]
  dsimp only
  rw [List.filter_singleton]
  generalize decide ((s.freeBlocks core).length < t.perCore node * t.ownNames.length + t.sharedNames.length) = b
  generalize hn : (s.basesFor [core] t.span (t.perCore node)).isNone = n
  rw [Task.span] at hn
  rw [hn]
  cases b
  · cases n <;> rfl
  · rfl

theorem shortOf_iff : shortOf s t node core ↔ s.slotsFit core (t.members.filter (·.core == core)) = false ∨
    (decide ((s.freeBlocks core).length < t.perCore node * t.ownNames.length + t.sharedNames.length) ||
      (s.basesFor [core] t.span (t.perCore node)).isNone) = true := by
  rw [shortOf, Bool.or_eq_true, decide_eq_true_iff, Option.isNone_iff_eq_none]

theorem preemptCores_one (hc : t.coresOn node = [core]) (v : Nat → Option Nat) :
    (shortOf s t node core → s.preemptCores t node v = [core]) ∧ (¬ shortOf s t node core → s.preemptCores t node v = []) := by
  rw [shortOf_iff]
  unfold State.preemptCores
  rw [shortCores_one hc, hc]
  dsimp only
  cases hf : s.slotsFit core (t.members.filter (·.core == core))
  · exact ⟨fun _ => by simp [hf], fun h => absurd (.inl rfl) h⟩
  · cases hb : (decide ((s.freeBlocks core).length < t.perCore node * t.ownNames.length + t.sharedNames.length) ||
      (s.basesFor [core] t.span (t.perCore node)).isNone)
    · exact ⟨fun h => by simp at h, fun _ => by simp [hf]⟩
    · refine ⟨fun _ => ?_, fun h => absurd (.inr rfl) h⟩
      have hb' : (s.freeBlocks core).length < t.perCore node * t.ownNames.length + t.sharedNames.length ∨
          s.basesFor [core] t.span (t.perCore node) = none := by simpa using hb
      simp only [List.filter_cons, List.filter_nil, hf]
      simp only [hb, if_true, List.filter_cons, List.filter_nil]
      simp

theorem victimsFor_one (hc : t.coresOn node = [core]) (hs : s.claimFor t h.node 128 = s) (hn : h.node = node) :
    (¬ shortOf s t node core → s.victimsFor t h = none) ∧
    (shortOf s t node core → s.victimsFor t h = if s.saving core then some [] else
      ((s.victimSlot t node core (s.effective t h)).map fun i => core * 8 + i).map fun i => [i]) := by
  unfold State.victimsFor
  rw [hs]
  dsimp only
  rw [hn]
  obtain ⟨h1, h2⟩ := preemptCores_one (s := s) hc fun core => (s.victimSlot t node core (s.effective t h)).map fun i => core * 8 + i
  refine ⟨fun hx => ?_, fun hx => ?_⟩
  · rw [h2 hx]
    rfl
  · rw [h1 hx]
    cases hv : s.saving core
    · cases hw : s.victimSlot t node core (s.effective t h) <;> simp [hv, hw]
    · simp [hv]

/-- A slot may go for a share: `mayGo`, as the board tests it. -/
def goes (s : State) (t : Task) (core j : Nat) : Bool :=
  (s.slot (core * 8 + j)).preemptible &&
    (s.slotsFit core (t.members.filter (·.core == core)) || ((t.members.filter (·.core == core)).filterMap (·.slot)).isEmpty ||
      ((t.members.filter (·.core == core)).filterMap (·.slot)).contains j)

theorem mayGo_iff (j : Nat) : mayGo s t core j ↔ goes s t core j = true := by
  simp [mayGo, goes, or_assoc]

/-- The slot that goes for a share is one of the only running task, where that has lower priority. -/
theorem victimSlot_one (hr : s.sharesOf node (fun h => decide (h.state = .running)) = [(vid, tv, hv)]) (p : Nat) :
    (p ≤ tv.prio → s.victimSlot t node core p = none) ∧
    (tv.prio < p → ∀ i < 8, mayGo s t core i → (s.slot (core * 8 + i)).task = vid →
      (∀ j < i, mayGo s t core j → (s.slot (core * 8 + j)).task ≠ vid) → s.victimSlot t node core p = some i) := by
  have e : s.victimSlot t node core p =
      match bestOf (fun a b => decide (a.2.1.prio < b.2.1.prio) || (a.2.1.prio == b.2.1.prio && decide (b.2.2.order < a.2.2.order)))
        ([(vid, tv, hv)].filter fun e => decide (e.2.1.prio < p) &&
          ((List.range 8).filter (goes s t core)).any fun i => (s.slot (core * 8 + i)).task == e.1) with
      | some (v, _, _) => ((List.range 8).filter (goes s t core)).find? fun i => (s.slot (core * 8 + i)).task == v
      | none => none := by
    rw [← hr]
    rfl
  rw [e, List.filter_singleton]
  simp only [mayGo_iff]
  refine ⟨fun hp => ?_, fun hp i hi hg hv hj => ?_⟩
  · rw [decide_eq_false (by omega), Bool.false_and]
    rfl
  · have hmem : i ∈ (List.range 8).filter (goes s t core) := List.mem_filter.2 ⟨List.mem_range.2 hi, hg⟩
    have hany : ((List.range 8).filter (goes s t core)).any (fun i => (s.slot (core * 8 + i)).task == vid) = true :=
      List.any_eq_true.2 ⟨i, hmem, by simpa using hv⟩
    rw [decide_eq_true hp, hany]
    show List.find? (fun i => (s.slot (core * 8 + i)).task == vid) ((List.range 8).filter (goes s t core)) = some i
    rw [List.find?_filter, List.find?_range_eq_some]
    refine ⟨?_, List.mem_range.2 hi, fun j h1 => ?_⟩
    · simp [hg, hv]
    · cases hgj : goes s t core j
      · simp
      · simpa [hgj] using hj j h1 hgj

end

end Sys2Proof.Machine
end

section
/-! Proofs. Tolls (07 R184 to R186; O54). -/

namespace Sys2Proof.Machine

/-! ### The first of what has befallen the tolls -/

/-- The earlier of two events, the older where they come together. -/
def earlier {α : Type} (acc : Option (Nat × α)) (e : Nat × α) : Option (Nat × α) :=
  match acc with
  | some a => if e.1 < a.1 then some e else acc
  | none => some e

theorem foldl_earlier_of_least {α : Type} {x : Nat × α} {l : List (Nat × α)} (hx : x ∈ l) (h : ∀ y ∈ l, y = x ∨ x.1 < y.1)
    (acc : Option (Nat × α)) (ha : ∀ a, acc = some a → a = x ∨ x.1 < a.1) : l.foldl earlier acc = some x := by
  have keep (l : List (Nat × α)) (h : ∀ y ∈ l, y = x ∨ x.1 < y.1) : l.foldl earlier (some x) = some x := by
    induction l with
    | nil => rfl
    | cons y l ih =>
      have hy : earlier (some x) y = some x := by
        rw [earlier]
        rcases h y (by simp) with rfl | h
        · exact if_neg (Nat.lt_irrefl _)
        · exact if_neg (by omega)
      rw [List.foldl_cons, hy]
      exact ih fun z hz => h z (List.mem_cons_of_mem _ hz)
  induction l generalizing acc with
  | nil => simp at hx
  | cons y l ih =>
    have hl : ∀ z ∈ l, z = x ∨ x.1 < z.1 := fun z hz => h z (List.mem_cons_of_mem _ hz)
    rw [List.foldl_cons]
    rcases List.mem_cons.1 hx with rfl | hm
    · have hy : earlier acc x = some x := by
        cases acc with
        | none => rfl
        | some a =>
          rw [earlier]
          rcases ha a rfl with rfl | h
          · exact if_neg (Nat.lt_irrefl _)
          · exact if_pos h
      rw [hy]
      exact keep l hl
    · refine ih hm hl _ fun a he => ?_
      cases acc with
      | none =>
        cases he
        exact h _ (by simp)
      | some b =>
        rw [earlier] at he
        split at he
        · cases he
          exact h _ (by simp)
        · exact ha a he

section
variable {s : State} {d : Nat} {p : Nat × Nat}

/-- When a free toll of a die meets a waiting node. -/
def meetsAt (s : State) (d : Nat) (p : Nat × Nat) (k : Nat) : Nat :=
  tollMeets p (k % 3072) ((s.node k).toll.waits.getD (s.dieTime d))

/-- The only free toll of a die meets the nodes that wait, and the station where there are more tolls than the count. -/
theorem nextToll_one (h : (s.die d).free = [p]) : s.nextToll d =
    ((((s.tollWaiters d).map fun k => (meetsAt s d p k, p, some k)) ++
      (if (s.die d).tollCount < s.tollsHeld d + 1 then [(tollMeets p 0 (s.die d).countFrom, p, none)] else [])).filter fun (e : Nat × (Nat × Nat) × Option Nat) =>
        decide (e.1 ≤ s.dieTime d)).foldl earlier none := by
  unfold State.nextToll
  dsimp only
  rw [h, List.flatMap_singleton, List.map_map, List.length_singleton]
  simp only [decide_eq_true_eq]
  refine congrFun (congrFun (congrArg List.foldl (funext fun acc => funext fun e => ?_)) none) _
  cases acc <;> rfl

theorem settled_empty (h : (s.die d).free = []) : s.settled d = s := by
  rw [State.settled, h]
  rfl

theorem settled_one (h : (s.die d).free = [p]) : s.settled d = match s.nextToll d with
    | none => s
    | some (_, p, some n) => s.takeToll n p
    | some (_, p, none) => s.modDie d fun v => { v with free := dropOne v.free p } := by
  rw [State.settled, h]
  rfl

/-- The toll goes to the waiting node that it reaches first. -/
theorem settled_taken (h : (s.die d).free = [p]) (hc : s.tollsHeld d < (s.die d).tollCount) {n : Nat} (hn : n ∈ s.tollWaiters d)
    (ht : meetsAt s d p n ≤ s.dieTime d) (hk : ∀ k ∈ s.tollWaiters d, k ≠ n → meetsAt s d p n < meetsAt s d p k) :
    s.settled d = s.takeToll n p := by
  have hx : s.nextToll d = some (meetsAt s d p n, p, some n) := by
    rw [nextToll_one h, if_neg (by omega), List.append_nil]
    refine foldl_earlier_of_least (List.mem_filter.2 ⟨List.mem_map.2 ⟨n, hn, rfl⟩, by simpa using ht⟩) (fun y hy => ?_) none
      fun a ha => nomatch ha
    obtain ⟨k, hkm, rfl⟩ := List.mem_map.1 (List.mem_filter.1 hy).1
    by_cases hkn : k = n
    · exact .inl (by rw [hkn])
    · exact .inr (hk k hkm hkn)
  rw [settled_one h, hx]

theorem settled_waits (h : (s.die d).free = [p]) (hc : s.tollsHeld d < (s.die d).tollCount)
    (hk : ∀ k ∈ s.tollWaiters d, s.dieTime d < meetsAt s d p k) : s.settled d = s := by
  have hx : s.nextToll d = none := by
    rw [nextToll_one h, if_neg (by omega), List.append_nil, List.filter_eq_nil_iff.2]
    · rfl
    · intro y hy
      obtain ⟨k, hkm, rfl⟩ := List.mem_map.1 hy
      simpa using hk k hkm
  rw [settled_one h, hx]

theorem settled_withdrawn (h : (s.die d).free = [p]) (hc : (s.die d).tollCount ≤ s.tollsHeld d) (hw : s.tollWaiters d = [])
    (ht : tollMeets p 0 (s.die d).countFrom ≤ s.dieTime d) :
    s.settled d = s.modDie d fun v => { v with free := dropOne v.free p } := by
  have hx : s.nextToll d = some (tollMeets p 0 (s.die d).countFrom, p, none) := by
    rw [nextToll_one h, hw, if_pos (by omega), List.map_nil, List.nil_append, List.filter_singleton, decide_eq_true ht]
    rfl
  rw [settled_one h, hx]

end

/-! ### A node takes a toll, and gives it back -/

theorem die_modNode (s : State) (n d : Nat) (f : Node → Node) : (s.modNode n f).die d = s.die d := rfl

theorem node_modDie (s : State) (n d : Nat) (f : Die → Die) : (s.modDie d f).node n = s.node n := rfl

/-- Node `n` holds a toll, and die `d` has none that is free. -/
def HoldsToll (n d : Nat) (s : State) : Prop := (s.node n).toll.held = true ∧ (s.die d).free = []

theorem HoldsToll.modNode {n d : Nat} {s : State} (h : HoldsToll n d s) (k : Nat) {f : Node → Node}
    (hf : ∀ v, (f v).toll.held = v.toll.held) : HoldsToll n d (s.modNode k f) := by
  refine ⟨?_, h.2⟩
  by_cases hn : n = k
  · subst hn
    rw [State.node_modNode_self, hf]
    exact h.1
  · rw [State.node, State.modNode, AMap.get_set_ne _ _ _ hn]
    exact h.1

theorem HoldsToll.modDie {n d : Nat} {s : State} (h : HoldsToll n d s) (k : Nat) {f : Die → Die}
    (hf : ∀ v, (f v).free = v.free) : HoldsToll n d (s.modDie k f) := by
  refine ⟨h.1, ?_⟩
  by_cases hd : d = k
  · subst hd
    rw [State.die_modDie_self, hf]
    exact h.2
  · rw [State.die, State.modDie, AMap.get_set_ne _ _ _ hd]
    exact h.2

theorem HoldsToll.due {n d : Nat} {s t : State} (h : HoldsToll n d s) (hd : OnlyDue s t) : HoldsToll n d t := by
  rw [hd.rest]
  exact h

theorem HoldsToll.timer {n d : Nat} {s : State} (h : HoldsToll n d s) (c k : Nat) (e : Due) : HoldsToll n d (s.timer c k e) := h

theorem HoldsToll.stillAsked {n d : Nat} {s : State} (h : HoldsToll n d s) (k : Nat) : HoldsToll n d (stillAsked s k) := by
  unfold Machine.stillAsked
  split
  · exact h.modDie _ fun _ => rfl
  · exact h

theorem holdsToll_kick {n d : Nat} {s : State} (h : HoldsToll n d s) (core : Nat) : HoldsToll n d (s.kick core .loom) := by
  unfold State.kick
  rw [if_neg (by decide)]
  dsimp only
  split
  · exact h
  · split
    · refine .due ?_ (State.event_due _ _)
      exact (h.modDie (dieOfNode (nodeOfCore core)) (f := fun d => { d with demand := true }) fun _ => rfl).modNode _ fun _ => rfl
    · exact .due (s := s.modOp _ fun o => { o with state := .running }) h (State.pushOnce_due _ _)

theorem takeToll_holds {s : State} {n : Nat} {p : Nat × Nat} (h : (s.die (dieOfNode n)).free = [p]) :
    HoldsToll n (dieOfNode n) (s.takeToll n p) := by
  have h0 : HoldsToll n (dieOfNode n) ((s.modDie (dieOfNode n) fun d => { d with free := dropOne d.free p }).modNode n fun v =>
      { v with toll := { held := true, since := s.nodeTime n, idleFrom := s.nodeTime n } }) := by
    refine ⟨by rw [State.node_modNode_self], ?_⟩
    rw [die_modNode, State.die_modDie_self]
    dsimp only
    rw [h, dropOne, if_pos rfl]
  have h1 : HoldsToll n (dieOfNode n) (tollTaken s n p) := by
    unfold tollTaken
    exact List.foldlRecOn (motive := HoldsToll n (dieOfNode n)) _ _ h0 fun b hb i _ => holdsToll_kick hb (n * 16 + i)
  rw [takeToll_eq]
  exact (h1.stillAsked (dieOfNode n)).timer _ _ _

theorem giveToll_gives (s : State) (n : Nat) : ((s.giveToll n).node n).toll.held = false ∧
    ((s.giveToll n).die (dieOfNode n)).free = ((s.settled (dieOfNode n)).die (dieOfNode n)).free ++
      [(n % 3072 + 1, (s.settled (dieOfNode n)).dieTime (dieOfNode n))] := by
  unfold State.giveToll
  dsimp only
  generalize s.settled (dieOfNode n) = u
  have hp (t : State) := pokeTolls_due t (dieOfNode n)
  refine ⟨?_, ?_⟩
  · rw [(hp _).node]
    rw [node_modDie, State.node_modNode_self]
  · rw [show ∀ t : State, ((t.pokeTolls (dieOfNode n)).die (dieOfNode n)).free = (t.die (dieOfNode n)).free from
      fun t => by rw [(hp t).rest]; rfl, State.die_modDie_self]
    rfl

theorem setTolls_tolls (s : State) (d n : Nat) : ((s.setTolls d n).die d).tollCount = Nat.max 64 (Nat.min 3072 n) ∧
    ((s.setTolls d n).die d).countFrom = (s.settled d).dieTime d ∧
    ((s.setTolls d n).die d).free.length =
      Nat.max ((s.settled d).die d).free.length (Nat.max 64 (Nat.min 3072 n) - (s.settled d).tollsHeld d) := by
  unfold State.setTolls
  dsimp only
  generalize s.settled d = u
  generalize Nat.max 64 (Nat.min 3072 n) = m
  have hp (t : State) : (t.pokeTolls d).die d = t.die d := by rw [(pokeTolls_due t d).rest]; rfl
  rw [hp, State.die_modDie_self]
  refine ⟨rfl, rfl, ?_⟩
  dsimp only
  rw [List.length_append, List.length_replicate]
  show _ = max _ _
  omega

end Sys2Proof.Machine
end

section
/-! Proofs. Saving, resuming and pre-empting contexts, and tolls (07 R181 to R186; O54). -/

namespace Sys2Proof.Machine

section
variable {s : State} {th r : Nat}

theorem contextSave_of_saving (h : (s.slot th).state = .saving r) : exec (.contextSave th) s = .next
    (if s.released th then s.saveNow th r (s.slot th).pc (s.slot th).savedIn else s.saveLater th 4) := by
  rw [exec_contextSave, execContextSave]
  dsimp only
  rw [h]

theorem saveRingRetry_of_saving (h : (s.slot th).state = .saving r) : exec (.saveRingRetry th) s = .next
    (if s.released th then s.saveNow th r (s.slot th).pc (s.slot th).savedIn else s.saveLater th 4) := by
  rw [exec_saveRingRetry, execSaveRingRetry]
  dsimp only
  rw [h]

theorem contextSave_of_ready (h : (s.slot th).state = .ready) (hp : (s.slot th).preempt = some r) : exec (.contextSave th) s = .next
    (if s.released th then s.saveNow th r (s.slot th).pc none else s.saveLater th 4) := by
  rw [exec_contextSave, execContextSave]
  dsimp only
  rw [h, hp]

/-- A parked thread is saved as the rule of its wait says. -/
theorem contextSave_of_parked {w : Wait} (h : (s.slot th).state = .parked w) (hp : (s.slot th).preempt = some r) :
    exec (.contextSave th) s = .next (match s.saveRuleOf w with
      | .later => s.saveLater th 4
      | .again => if s.released th then (s.withdraw th w).saveNow th r (s.slot th).pc none else s.saveLater th 4
      | .next => if s.released th then s.saveNow th r ((s.slot th).pc + 4) none else s.saveLater th 4
      | .as w => if s.released th then s.saveNow th r (s.slot th).pc (some w) else s.saveLater th 4) := by
  rw [exec_contextSave, execContextSave]
  dsimp only
  rw [h, hp] <;> rfl

end

/-- Settles O54. -/
theorem saveAndTollSteps : Obligations.SaveAndTollSteps := by
  unfold Obligations.SaveAndTollSteps
  intro s th node chip parish record die count
  dsimp only
  refine ⟨fun r h => ⟨exec_saves (contextSave_of_saving h), exec_saves (saveRingRetry_of_saving h)⟩,
    fun r h hp => exec_saves (contextSave_of_ready h hp), fun r l h hp => exec_saves (contextSave_of_parked h hp),
    fun r op h hp => exec_saves (contextSave_of_parked h hp), fun r op o h hp ho hx => ?_,
    fun r h hp => exec_saves (contextSave_of_parked h hp), fun r h hp => ?_,
    fun r h hp => exec_saves (contextSave_of_parked h hp), fun r h hp => exec_saves (contextSave_of_parked h hp),
    fun pa k i hk hr hn hp hc hl hw hi hs hf => ?_, fun h => ?_, fun h s1 pa q k hd hr hn hs => ?_, ⟨?_, ?_⟩, ?_, ?_, fun hf => ?_,
    fun p hp => ⟨fun hc => ⟨fun hn ht hk => ?_, fun hk => ?_⟩, fun hc hw ht => ?_⟩, fun h => ?_, fun h hb => ⟨fun ht => ?_, fun ht ho => ?_⟩,
    fun h ho => ⟨fun hl => ?_, fun hl => ?_⟩⟩
  · have hr : s.saveRuleOf (.queue op) = .as (.queue op) := by
      rw [State.saveRuleOf]
      simp [ho, hx]
    refine exec_saves ?_
    rw [contextSave_of_parked h hp, hr]
  · rcases h with h | h <;> exact contextSave_of_parked h hp
  · obtain ⟨t, he, ht, hv⟩ := resumption_resumes hk hr hn hp hc hl hw hi hs hf
    obtain ⟨h1, h2, h3, h4⟩ := resumedSlot_fields s pa k
    refine ⟨t, he, by rw [ht, h1], by rw [ht, h2], by rw [ht, h3], fun r hr1 hr2 => ?_, hv⟩
    rw [regOf_of_slot ht (h4.trans hw) hr1 hr2, resumedSlot_x s pa k hr1 hr2]
  · rw [exec_disposition, execDisposition, h]
  · obtain ⟨h1, h2, h3⟩ := disposition_ends hd hr hn hs
    refine ⟨h1, fun hcode => ⟨_, h2 hcode, ?_⟩, h3⟩
    have hg := giveBack_writes (s1.endContext pa k) chip parish freeRecordRing h
    have he := endContext_ends s1 pa k
    rw [hg.rest]
    exact he
  · rintro ⟨e, he, hf⟩
    rw [exec_preEmption, execPreEmption]
    exact next_congr (if_pos (List.any_eq_true.2 ⟨e, he, hf⟩))
  · refine fun hf => ⟨fun hn => preEmption_none hf hn, fun a e b ts hl ha he => ?_, fun id t h vid tv hv core hl hs hn hr hc => ?_⟩
    · refine preEmption_some hf ?_
      rw [hl, List.findSome?_append, List.findSome?_eq_none_iff.2 ha, List.findSome?_cons, he]
      rfl
    · obtain ⟨h1, h2⟩ := victimsFor_one hc hs hn
      obtain ⟨h3, h4⟩ := victimSlot_one (s := s) (t := t) (core := core) hr (s.effective t h)
      have only (x : Nat × Task × Share) (hx : x ∈ s.ranked node (s.admissible node)) : x = (id, t, h) := by
        rw [hl] at hx
        exact List.mem_singleton.1 hx
      have none_ (hv : s.victimsFor t h = none) : exec (.preEmption node) s = .next s :=
        preEmption_none hf fun x hx => by rw [only x hx]; exact hv
      have some_ {ts : List Nat} (hv : s.victimsFor t h = some ts) := preEmption_some hf (ts := ts) <| by
        rw [hl, List.findSome?_cons, hv]
      refine ⟨fun hx => ?_, fun i hi hsh hsv hp hw hv hj => ?_⟩
      · by_cases hsh : shortOf s t node core
        · rcases hx with hx | hx | hx
          · exact absurd hsh hx
          · rw [some_ ((h2 hsh).trans (if_pos hx))]
            rfl
          · cases hsv : s.saving core
            · refine none_ ((h2 hsh).trans ?_)
              rw [hsv, h3 hx]
              rfl
            · rw [some_ ((h2 hsh).trans (if_pos hsv))]
              rfl
        · exact none_ (h1 hsh)
      · have := h4 hp i hi hw hv hj
        rw [some_ ((h2 hsh).trans ((if_neg (by simp [hsv])).trans (by rw [this]; rfl)))]
        rfl
  · exact ⟨_, rfl, setTolls_tolls s die count⟩
  · exact ⟨_, rfl, setTolls_tolls s die 64⟩
  · rw [exec_tollArrival, execTollArrival, settled_empty hf]
    refine next_congr ?_
    dsimp only
    split
    · rw [State.awaitToll, hf]
      rfl
    · rfl
  · rw [exec_tollArrival, execTollArrival, settled_taken hp hc hn ht hk]
    obtain ⟨hh, hd⟩ := takeToll_holds (s := s) (n := node) hp
    refine ⟨_, next_congr (if_neg ?_), hh, hd⟩
    rw [State.wantsToll, hh]
    simp
  · rw [exec_tollArrival, execTollArrival, settled_waits hp hc hk]
  · rw [exec_tollArrival, execTollArrival, settled_withdrawn hp hc hw ht]
    have hd : ((s.modDie (dieOfNode node) fun v => { v with free := dropOne v.free p }).die (dieOfNode node)).free = [] := by
      rw [State.die_modDie_self]
      dsimp only
      rw [hp, dropOne, if_pos rfl]
    refine ⟨_, rfl, ?_⟩
    dsimp only
    split
    · rw [State.awaitToll, hd]
      exact ⟨hd, rfl⟩
    · exact ⟨hd, rfl⟩
  · rw [exec_tollReturn, execTollReturn]
    dsimp only
    rw [h]
    rfl
  · have e : exec (.tollReturn node) s = .next (s.giveToll node) := by
      rw [exec_tollReturn, execTollReturn]
      dsimp only
      rw [h, hb, if_pos ht]
      simp
    exact ⟨_, e, giveToll_gives s node⟩
  · rw [exec_tollReturn, execTollReturn]
    dsimp only
    rw [h, hb, ho, if_neg (by omega : ¬ (s.node node).toll.idleFrom + 256 ≤ s.nodeTime node)]
    simp
  · rw [exec_tollHoldLimit, execTollHoldLimit, h, ho, hl]
    exact ⟨_, rfl, giveToll_gives s node⟩
  · rw [exec_tollHoldLimit, execTollHoldLimit, h, ho, hl]
    rfl

end Sys2Proof.Machine
end

section
/-! Proofs. A parcel's transit, its messages and its acknowledged changes (17 R420 to R422; O57). -/

namespace Sys2Proof.Machine

/-! ### Transits -/

theorem get_of_transit? {s : State} {id : Nat} {t : Transit} (h : s.transit? id = some t) : AMap.get {} s.transits id = t := by
  unfold State.transit? at h
  generalize s.transits = m at h ⊢
  induction m with
  | nil => simp at h
  | cons e r ih =>
    obtain ⟨j, v⟩ := e
    by_cases hj : j = id
    · subst hj
      rw [AMap.get, if_pos rfl]
      simpa using h
    · rw [AMap.get, if_neg hj]
      exact ih (by simpa [hj] using h)

theorem transit?_congr {s t : State} (h : t.transits = s.transits) (id : Nat) : t.transit? id = s.transit? id := by
  rw [State.transit?, State.transit?, h]

theorem transit?_of_get {s : State} {id : Nat} {x : Transit} (h : AMap.get {} s.transits id = x) (hx : x ≠ {}) :
    s.transit? id = some x := by
  rw [State.transit?, find?_of_get h hx]

/-- A transit that has been changed, but not to what an absent one reads. -/
theorem transit?_modTransit {s : State} {id : Nat} {t : Transit} (h : AMap.get {} s.transits id = t) {f : Transit → Transit}
    (hf : f t ≠ {}) : (s.modTransit id f).transit? id = some (f t) := by
  refine transit?_of_get ?_ hf
  rw [State.modTransit, ← h]
  exact AMap.get_set_self _ _ _ _

theorem get_modTransit {s : State} {id : Nat} {t : Transit} (h : AMap.get {} s.transits id = t) (f : Transit → Transit) :
    AMap.get {} (s.modTransit id f).transits id = f t := by
  rw [State.modTransit, ← h]
  exact AMap.get_set_self _ _ _ _

/-- A transit that is forgotten is no more. -/
theorem transit?_forgotten (s : State) (id : Nat) : ({ s with transits := AMap.set {} s.transits id {} } : State).transit? id = none := by
  rw [State.transit?, AMap.set, if_pos rfl]
  have : (AMap.drop s.transits id).find? (·.1 == id) = none := List.find?_eq_none.2 fun e he => by simpa using AMap.drop_ne he
  dsimp only
  rw [this]
  rfl

theorem stage_ne_default {t : Transit} (h : t.stage ≠ .sealing) : t ≠ {} := fun e => h (by rw [e])

/-! ### Messages -/

theorem newEntry_keeps (s : State) (b : EntryBody) (c : Class) (src dst n : Nat) :
    (s.newEntry b c src dst n).transits = s.transits ∧ (s.newEntry b c src dst n).mem = s.mem ∧
      (s.newEntry b c src dst n).slots = s.slots ∧ (s.newEntry b c src dst n).accesses = s.accesses := ⟨rfl, rfl, rfl, rfl⟩

/-- A message leaves memory, threads, accesses and transits; its step is due, or its entry goes. -/
theorem parcelMessage_sends (s : State) (b : EntryBody) (c : Class) (src dst n : Nat) (i : Instr) :
    ((s.parcelMessage b c src dst n i).transits = s.transits ∧ (s.parcelMessage b c src dst n i).mem = s.mem ∧
      (s.parcelMessage b c src dst n i).slots = s.slots ∧ (s.parcelMessage b c src dst n i).accesses = s.accesses) ∧
    (src = dst → Due.event i ∈ (s.parcelMessage b c src dst n i).pending) ∧
    (src ≠ dst → ∃ e ∈ (s.parcelMessage b c src dst n i).entries, e.2.body = b ∧ e.2.src = src ∧ e.2.dst = dst) := by
  unfold State.parcelMessage
  split
  · next h =>
    have hd := State.event_due s i
    refine ⟨⟨by rw [hd.rest], by rw [hd.rest], by rw [hd.rest], by rw [hd.rest]⟩, fun _ => due_event _ _, fun hn => absurd h hn⟩
  · next h =>
    exact ⟨newEntry_keeps s b c src dst _, fun he => absurd he h,
      fun _ => ⟨_, List.mem_append_right _ (List.mem_singleton.2 rfl), rfl, rfl, rfl⟩⟩

theorem takeMessage_takes {s s1 : State} {t : Transit} {b : EntryBody} {dst : Nat} (h : s.takeMessage t b dst = some s1) :
    ∃ l, s1 = { s with entries := l } := by
  unfold State.takeMessage at h
  split at h
  · exact ⟨s.entries, (Option.some.inj h).symm⟩
  · split at h
    · exact ⟨_, (Option.some.inj h).symm⟩
    · exact nomatch h

/-! ### Table changes -/

theorem request_sends (s : State) (a : Access) : OnlySends s (s.request a).2 := by
  unfold State.request
  split
  next id u hu =>
  have hs : OnlySends s u := by
    rw [← show (s.addAccess a).2 = u from congrArg Prod.snd hu]
    exact addAccess_sends s a
  split
  next d ch _ =>
  exact hs.trans (.trans (t := u.send (.request id) .request a.parish a.src d ch) ⟨rfl, rfl, rfl, rfl, rfl, rfl, rfl, rfl⟩
    (armRetry_sends _ _ _ _))

/-- A predicate of the state of a pair, said of the pair as a whole. -/
structure PairHas (P : State → Prop) (b : List (Nat × Nat) × State) : Prop where
  has : P b.2

/-- What the steps of an issued change keep, the change keeps. -/
theorem issueChange_induct {P : State → Prop} (hnew : ∀ (s : State) n l, P s → P { s with nextId := n, changes := l })
    (hchip : ∀ (s : State) k id, P s → P (s.modChip k fun c => { c with changes := c.changes ++ [id] }))
    (hadd : ∀ (s : State) a, P s → P (s.addAccess a).2) (harm : ∀ (s : State) id a d, P s → P (s.armRetry id a d))
    (hsend : ∀ (s : State) pl p n ds, P s → P (s.sendMulticast pl p n ds)) {s : State} (h : P s) (parish : Nat) (c : Change)
    (tr : Nat) : P (s.issueChange parish c tr) := by
  unfold State.issueChange
  split
  next id u hu =>
  have hf (l : AMap ChangeState) : P { u with changes := l } := by
    cases hu
    exact hnew s (s.nextId + 1) l h
  lift_lets
  intro p chips v u1 n u2
  have h1 : P u1 := hf _
  clear_value u1 n
  have h2 : P u2 := List.foldlRecOn (motive := P) _ _ h1 fun b h k _ => hchip _ _ _ h
  clear_value u2 chips
  split
  next ds w hw =>
  refine hsend _ _ _ _ _ ?_
  refine (PairHas.has (P := P) (b := (ds, w)) ?_ :)
  rw [← hw]
  refine List.foldlRecOn (motive := PairHas P) _ _ ⟨h2⟩ fun b h k _ => ?_
  lift_lets
  intro m a
  split
  next q t hq =>
  have ha := hadd b.2 a h.has
  rw [show (b.2.addAccess a).2 = t from congrArg Prod.snd hq] at ha
  exact ⟨harm t q a m ha⟩

/-- The machine checks of every chip are as they were. -/
def SameChecks (s t : State) : Prop := ∀ k, (t.chip k).checks = (s.chip k).checks

theorem sameChecks_modChip (s : State) (j : Nat) {f : Chip → Chip} (hf : ∀ c, (f c).checks = c.checks) : SameChecks s (s.modChip j f) := by
  intro k
  by_cases hk : k = j
  · subst hk
    rw [State.chip_modChip_self, hf]
  · rw [State.chip, State.modChip, AMap.get_set_ne _ _ _ hk]
    rfl

theorem sameChecks_of_chips {s t : State} (h : t.chips = s.chips) : SameChecks s t := fun k => by rw [State.chip, h]; rfl

theorem SameChecks.trans {s t u : State} (h : SameChecks s t) (h' : SameChecks t u) : SameChecks s u := fun k => (h' k).trans (h k)

theorem addAccess_chips (s : State) (a : Access) : (s.addAccess a).2.chips = s.chips := rfl

theorem issueChange_checks (s : State) (parish : Nat) (c : Change) (tr : Nat) : SameChecks s (s.issueChange parish c tr) :=
  issueChange_induct (P := SameChecks s) (fun _ _ _ h => h.trans (sameChecks_of_chips rfl))
    (fun u k _ h => h.trans (sameChecks_modChip u k fun _ => rfl))
    (fun u a h => h.trans (sameChecks_of_chips (addAccess_chips u a))) (fun _ _ _ _ h => h.trans (sameChecks_of_chips rfl))
    (fun _ _ _ _ _ h => h.trans (sameChecks_of_chips rfl)) (sameChecks_of_chips rfl) parish c tr

/-! ### A change of a parcel's entry that every chip has acknowledged -/

theorem changeComplete_transit {s : State} {v : ChangeState} {t : Transit} (h : s.transit? v.transit = some t) :
    s.changeComplete v = match t.stage with
      | .sealing => s.sealDone v.transit t
      | .installing => s.installDone v.transit t
      | _ => s := by
  have hg : AMap.get none (s.transits.map fun e => (e.1, some e.2)) v.transit = some t := by
    unfold State.transit? at h
    generalize s.transits = m at h ⊢
    induction m with
    | nil => simp at h
    | cons e r ih =>
      obtain ⟨j, x⟩ := e
      by_cases hj : j = v.transit
      · rw [List.map_cons, AMap.get, if_pos hj]
        simpa [hj] using h
      · rw [List.map_cons, AMap.get, if_neg hj]
        exact ih (by simpa [hj] using h)
  rw [State.changeComplete, hg] <;> rfl

section
variable {s : State} {id : Nat} {t : Transit} (ht : s.transit? id = some t)
include ht

/-- A sealed parcel is offered, and its thread goes on. -/
theorem sealDone_offers : ∃ x, (s.sealDone id t).transit? id = some x ∧ x.stage = .offered ∧
    ((s.slot t.thread).state = .parked .seal → ((s.sealDone id t).slot t.thread).state = .ready ∧
      ((s.sealDone id t).slot t.thread).pc = (s.slot t.thread).pc + 4) ∧
    (t.chip = t.destChip → Due.event (.parcelOffer id) ∈ (s.sealDone id t).pending) ∧
    (t.chip ≠ t.destChip → ∃ e ∈ (s.sealDone id t).entries, e.2.body = .parcelOffer id ∧ e.2.src = t.chip ∧ e.2.dst = t.destChip) := by
  unfold State.sealDone
  dsimp only
  have hs := issueChange_sends s t.parish (.entry t.obj ((s.obj t.chip t.parish t.obj).withState 3)) 0
  generalize s.issueChange t.parish (.entry t.obj ((s.obj t.chip t.parish t.obj).withState 3)) 0 = s1 at hs ⊢
  have hg : AMap.get {} s1.transits id = t := by rw [hs.transits]; exact get_of_transit? ht
  have hm := transit?_modTransit hg (f := fun t' => { t' with stage := .offered, extents := (List.range (extentCount t.length)).map fun i => s.descriptor t.chip t.parish t.obj (i * 2 ^ 21) })
    (stage_ne_default TransitStage.noConfusion)
  generalize hs2 : s1.modTransit id _ = s2 at hm ⊢
  have hslot : s2.slot t.thread = s.slot t.thread := by
    rw [← hs2]
    show AMap.get {} s1.slots _ = _
    rw [hs.slots]
    rfl
  obtain ⟨⟨h1, -, h3, -⟩, hd, he⟩ := parcelMessage_sends
    (if parkedOn .seal (s2.slot t.thread) = true then s2.finishOf t.thread else s2) (.parcelOffer id) .request t.chip t.destChip 64
    (.parcelOffer id)
  refine ⟨_, ((transit?_congr h1 id).trans ?_).trans hm, rfl, fun hp => ?_, hd, he⟩
  · split <;> rfl
  · have hsl : parkedOn .seal (s2.slot t.thread) = true := by rw [hslot, parkedOn, hp]; exact decide_eq_true rfl
    have : (State.parcelMessage (if parkedOn .seal (s2.slot t.thread) = true then s2.finishOf t.thread else s2) (.parcelOffer id)
        .request t.chip t.destChip 64 (.parcelOffer id)).slot t.thread = { s2.slot t.thread with pc := (s2.slot t.thread).pc + 4, state := .ready } := by
      rw [State.slot, h3, if_pos hsl]
      exact State.slot_setSlot_self s2 t.thread _
    rw [this, hslot]
    exact ⟨rfl, rfl⟩

/-- An installed parcel is announced by a counted write of its handle. -/
theorem installDone_announces : ∃ x a, (s.installDone id t).transit? id = some x ∧ x.stage = .arrived ∧
    a ∈ (s.installDone id t).accesses ∧
    a.2.req = .store ((List.range 8).zip (littleEndian (BitVec.ofNat 64 (t.destObj * 2 ^ 40)) 8)) ∧
    a.2.target = .byte (placeByte t.chip t.arrival) ∧
    a.2.flag = some (placeOf t.destCore (placeOffset t.arrival) + 8) ∧ a.2.info.stamp = t.stamp := by
  unfold State.installDone
  dsimp only
  generalize ha : ({ req := .store ((List.range 8).zip (littleEndian (BitVec.ofNat 64 (t.destObj * 2 ^ 40)) 8)), target := .byte (placeByte t.chip t.arrival), addr := placeOf t.destCore (placeOffset t.arrival), thread := 128 * vestryNode t.destChip, parish := t.destParish, src := vestryNode t.destChip, dst := 0, channel := false, seq := 0, posted := false, takesPlace := false, flag := some (placeOf t.destCore (placeOffset t.arrival) + 8), info := { stamp := t.stamp } } : Access) = a
  have hr := State.request_requested (Touched.refl s) a
  have htr : (s.request a).2.transits = s.transits := (request_sends s a).transits
  generalize (s.request a).2 = s1 at hr htr ⊢
  have hm := transit?_modTransit (s := s1) (id := id) (t := t) (by rw [htr]; exact get_of_transit? ht) (f := fun t => { t with stage := .arrived })
    (stage_ne_default TransitStage.noConfusion)
  obtain ⟨⟨h1, -, -, h4⟩, -⟩ := parcelMessage_sends (s1.modTransit id fun t => { t with stage := .arrived }) (.parcelAck id) .control t.destChip t.chip 0
    (.installationAcknowledgement id)
  refine ⟨_, (s.nextId, sentAs s a), (transit?_congr h1 id).trans hm, rfl, ?_, ?_⟩
  · rw [h4]
    show _ ∈ s1.accesses
    rw [hr.access]
    exact List.mem_append_right _ (List.mem_singleton.2 rfl)
  · rw [← ha]
    exact ⟨rfl, rfl, rfl, rfl⟩

end

end Sys2Proof.Machine
end

section
/-! Proofs. Offers, data and failures of parcels (17 R420 to R422; O57). -/

namespace Sys2Proof.Machine

/-! ### Offers -/

theorem takeFrames_writes {s t : State} {chip parish n : Nat} {l fs : List Nat} (h : s.takeFrames chip parish n l = some (fs, t)) :
    OnlyWrites s t := by
  induction n generalizing s l with
  | zero =>
    rw [State.takeFrames] at h
    rw [← (Prod.mk.inj (Option.some.inj h)).2]
    exact .refl s
  | succ n ih =>
    rw [State.takeFrames] at h
    split at h
    · next hd => exact (deqRing_writes hd).trans (ih h)
    · exact nomatch h

section
variable {s s0 : State} {id order : Nat} {t : Transit} (ht : s.transit? id = some t) (hs : t.stage = .offered)
  (hf : (if t.offer ≠ 0 then some s else s.takeMessage t (.parcelOffer id) t.destChip) = some s)
  (ho : (if t.offer ≠ 0 then (t.offer, s) else s.fresh) = (order, s0))
include ht hs hf

theorem parcelOffer_refused (h : s.parishOf t.destCore = none) : exec (.parcelOffer id) s =
    .next ((s.modTransit id fun t => { t with refused := true }).event (.parcelTransitFailure id)) := by
  rw [exec_parcelOffer, execParcelOffer, ht]
  dsimp only
  rw [hf, decide_eq_true hs]
  dsimp only
  rw [h]

include ho

/-- An offer that no other stands before takes an object number and frames, or waits. -/
theorem parcelOffer_takes {p : Nat} (h : s.parishOf t.destCore = some p)
    (hn : ∀ e ∈ s.transits, e.1 ≠ id → e.2.stage ≠ .offered ∨ e.2.destParish ≠ p) (h0 : s0.transits = s.transits) :
    exec (.parcelOffer id) s = .next (
      let s1 := s0.modTransit id fun t => { t with offer := order, destParish := p }
      let retry (s : State) : State := s.timer t.destCore 4000 (.event (.parcelOffer id))
      match s1.deqRing t.destChip p freeObjectRing with
      | none => retry s1
      | some (o, s') =>
        match s'.takeFrames t.destChip p t.backed.length [] with
        | none => retry s1
        | some (fs, s') =>
          let s := s'.modTransit id fun t => { t with stage := .accepted, destObj := o.toNat % 2 ^ 23, frames := fs }
          s.parcelMessage (.parcelAccept id) .control t.destChip t.chip 0 (.parcelAcceptance id)) := by
  have hany : ((s0.modTransit id fun t => { t with offer := order, destParish := p }).transits.any fun e =>
      decide (e.2.stage = .offered) && e.2.destChip == t.destChip && e.2.destParish == p && e.2.offer != 0 &&
        decide (e.2.offer < order)) = false := by
    rw [List.any_eq_false]
    intro e he
    have hset : e ∈ AMap.set {} s0.transits id _ := he
    rcases mem_set hset with rfl | ⟨hm, hk⟩
    · simp
    · rw [h0] at hm
      rcases hn e hm hk with h | h
      · simp [h]
      · simp [h]
  rw [exec_parcelOffer, execParcelOffer, ht]
  dsimp only
  rw [hf, decide_eq_true hs]
  dsimp only
  rw [h]
  dsimp only
  rw [ho]
  dsimp only
  rw [hany]
  rfl

end

/-! ### Data -/

/-- Installing a parcel leaves memory, and its transit installing. -/
theorem install_keeps {s : State} {id : Nat} {t' : Transit} (h : AMap.get {} s.transits id = t') (t0 : Transit) :
    (s.install id t0).mem = s.mem ∧ (s.install id t0).transit? id = some { t' with stage := .installing } := by
  unfold State.install
  dsimp only
  have hm := transit?_modTransit h (f := fun t => { t with stage := .installing }) (stage_ne_default TransitStage.noConfusion)
  generalize hs : s.modTransit id _ = s1 at hm ⊢
  have hi := fun c => issueChange_sends s1 t0.destParish c id
  refine ⟨(hi _).mem.trans ?_, (transit?_congr (hi _).transits id).trans hm⟩
  rw [← hs]
  rfl

theorem newEntries_keep (s : State) (b : EntryBody) (c : Class) (src dst n k : Nat) :
    ((List.range k).foldl (fun s _ => s.newEntry b c src dst n) s).transits = s.transits ∧
    ((List.range k).foldl (fun s _ => s.newEntry b c src dst n) s).entries.length = s.entries.length + k := by
  suffices h : ∀ l : List Nat, (l.foldl (fun s _ => s.newEntry b c src dst n) s).transits = s.transits ∧
      (l.foldl (fun s _ => s.newEntry b c src dst n) s).entries.length = s.entries.length + l.length by
    have := h (List.range k)
    rwa [List.length_range] at this
  intro l
  induction l generalizing s with
  | nil => exact ⟨rfl, rfl⟩
  | cons a l ih =>
    obtain ⟨h1, h2⟩ := ih (s.newEntry b c src dst n)
    refine ⟨h1, h2.trans ?_⟩
    have : (s.newEntry b c src dst n).entries.length = s.entries.length + 1 := List.length_append
    rw [this, List.length_cons]
    omega

/-- An accepted parcel is installed, where no extent of it is backed, or its data go. -/
theorem parcelAcceptance_moves {s s1 : State} {id : Nat} {t : Transit} (ht : s.transit? id = some t) (hs : t.stage = .accepted)
    (hm : s.takeMessage t (.parcelAccept id) t.chip = some s1) :
    exec (.parcelAcceptance id) s = .next (
      let s := s1.modTransit id fun t => { t with stage := .moving }
      if chunksPerExtent * t.backed.length = 0 then s.install id t
      else if t.chip = t.destChip then s.event (.parcelData id)
      else (List.range (chunksPerExtent * t.backed.length)).foldl
        (fun s _ => s.newEntry (.parcelData id) .request t.chip t.destChip (framesOf 16384)) s) := by
  rw [exec_parcelAcceptance, execParcelAcceptance, ht]
  dsimp only
  rw [hm, decide_eq_true hs]

/-- From `s` to `t` neither memory nor a transit has changed. -/
structure KeepsTransits (s t : State) : Prop where
  mem : t.mem = s.mem
  transits : t.transits = s.transits

theorem KeepsTransits.refl (s : State) : KeepsTransits s s := ⟨rfl, rfl⟩

theorem KeepsTransits.trans {s t u : State} (h : KeepsTransits s t) (h' : KeepsTransits t u) : KeepsTransits s u :=
  ⟨h'.mem.trans h.mem, h'.transits.trans h.transits⟩

theorem KeepsTransits.foldl {α : Type} {f : State → α → State} (h : ∀ s a, KeepsTransits s (f s a)) (l : List α) (s : State) :
    KeepsTransits s (l.foldl f s) := by
  induction l generalizing s with
  | nil => exact .refl s
  | cons a l ih => exact (h s a).trans (ih _)

theorem countExtent_keeps (s : State) (chip parish obj off : Nat) : KeepsTransits s (s.countExtent chip parish obj off) := by
  unfold State.countExtent
  dsimp only
  split <;> exact ⟨rfl, rfl⟩

theorem correct_keeps (s : State) (pa n : Nat) : KeepsTransits s (s.correct pa n) := by
  unfold State.correct
  split
  · exact .refl s
  · refine .foldl (fun s w => ?_) _ _
    split <;> exact ⟨rfl, rfl⟩

theorem findError_keeps (s : State) (pas : List Nat) : KeepsTransits s (s.findError pas).1 := by
  unfold State.findError
  split
  · exact .refl s
  · split
    · exact ⟨rfl, rfl⟩
    · exact .foldl (fun s pa => correct_keeps s pa 1) _ _

section
variable {s s1 : State} {id x f src : Nat} {t : Transit} (ht : s.transit? id = some t) (hs : t.stage = .moving)
  (hx : t.backed[t.moved / 128]? = some x) (hf : t.frames[t.moved / 128]? = some f)
  (hr : s.resolve t.chip t.parish (BitVec.ofNat 64 (t.obj * 2 ^ 40 + (x * 2 ^ 21 + t.moved % 128 * 16384))) = some src)
  (hm : s.takeMessage t (.parcelData id) t.destChip = some s1)

/-- The lines of an entry of a parcel are counted as it is read. -/
def linesCounted (s : State) (t : Transit) (off : Nat) : State :=
  (List.range 128).foldl (fun s i => s.countExtent t.chip t.parish t.obj (off + 128 * i)) s

include ht hs hx hf hr hm

theorem parcelData_fails {u : State}
    (he : (linesCounted s1 t (x * 2 ^ 21 + t.moved % 128 * 16384)).findError (consecutive src 16384) = (u, true)) :
    exec (.parcelData id) s = .next ((u.modTransit id fun t => { t with refused := true }).event (.parcelTransitFailure id)) := by
  unfold linesCounted at he
  rw [exec_parcelData, execParcelData, ht]
  -- kept opaque: the kernel would evaluate them on the 16,384 addresses of an entry
  obtain ⟨resolve, hres⟩ : ∃ r, r = State.resolve := ⟨_, rfl⟩
  obtain ⟨find, hfind⟩ : ∃ r, r = State.findError := ⟨_, rfl⟩
  rw [← hres] at hr ⊢
  rw [← hfind] at he ⊢
  dsimp only [chunksPerExtent]
  rw [hx, hf, decide_eq_true hs]
  dsimp only
  rw [hr]
  dsimp only
  rw [hm]
  dsimp only
  rw [he]

theorem parcelData_writes {u : State}
    (he : (linesCounted s1 t (x * 2 ^ 21 + t.moved % 128 * 16384)).findError (consecutive src 16384) = (u, false)) :
    exec (.parcelData id) s = .next (
      let s := (u.write ((consecutive (hbmByte t.destChip (f * 2 ^ 21 + t.moved % 128 * 16384)) 16384).zip
        (u.bytes (consecutive src 16384)))).modTransit id fun t => { t with moved := t.moved + 1 }
      if t.moved + 1 = 128 * t.backed.length then s.install id t
      else if t.chip = t.destChip then s.event (.parcelData id)
      else s) := by
  unfold linesCounted at he
  rw [exec_parcelData, execParcelData, ht]
  -- kept opaque: the kernel would evaluate them on the 16,384 addresses of an entry
  obtain ⟨resolve, hres⟩ : ∃ r, r = State.resolve := ⟨_, rfl⟩
  obtain ⟨find, hfind⟩ : ∃ r, r = State.findError := ⟨_, rfl⟩
  rw [← hres] at hr ⊢
  rw [← hfind] at he ⊢
  dsimp only [chunksPerExtent]
  rw [hx, hf, decide_eq_true hs]
  dsimp only
  rw [hr]
  dsimp only
  rw [hm]
  dsimp only
  rw [he]
  rfl

end

end Sys2Proof.Machine
end

section
/-! Proofs. A parcel's transfer (11 R304; 17 R420 to R422; O57). -/

namespace Sys2Proof.Machine

/-- A change that the last chip acknowledges is complete. -/
theorem acknowledge_completes {s : State} {chip chg : Nat} {v : ChangeState} (hv : AMap.get {} s.changes chg = v)
    (ha : chip ∈ v.applied) (hn : chip ∉ v.acknowledged) (hw : ∀ i ∈ v.waitFor, s.access? i = none)
    (hh : ∀ k ∈ v.held, chipOfThread k = chip → (s.slot k).state.movingOn? ≠ some v.change.obj)
    (hc : ∀ c ∈ v.chips, c = chip ∨ c ∈ v.acknowledged) : exec (.tableChangeAcknowledge chip chg) s = .next
      (({ s with changes := AMap.set {} s.changes chg {} } : State).changeComplete
        { v with acknowledged := NSet.insert v.acknowledged chip }) := by
  subst hv
  rw [acknowledge_closed ha hn hw]
  refine next_congr ((if_neg ?_).trans (if_pos ?_))
  · rw [Bool.not_eq_true, List.any_eq_false]
    intro k hk
    by_cases hkc : chipOfThread k = chip
    · simpa [hkc] using hh k hk hkc
    · simp [hkc]
  · rw [List.all_eq_true]
    intro k hk
    rw [List.contains_eq_mem, decide_eq_true_eq, NSet.mem_insert]
    exact hc k hk

theorem transit?_changes (s : State) (l : AMap ChangeState) (id : Nat) : ({ s with changes := l } : State).transit? id = s.transit? id := rfl

theorem returnFrames_writes (s : State) (t : Transit) : OnlyWrites s (s.returnFrames t) := by
  unfold State.returnFrames
  refine .foldl (fun s e => ?_) _ _
  split
  · exact giveBack_writes _ _ _ _ _
  · dsimp only
    split
    · exact giveBack_writes _ _ _ _ _
    · exact .refl s
  · exact .refl s

theorem pair_of_snd {α β : Type} {x : α × β} {b : β} (h : x.2 = b) : x = (x.1, b) := by rw [← h]

theorem bytes_congr {s t : State} (h : t.mem = s.mem) (pas : List Nat) : t.bytes pas = s.bytes pas :=
  List.map_congr_left fun a _ => byte_congr h a

/-- The data of an entry stand in its frames, and it is counted; the last of them installs the parcel. -/
theorem data_lands {u : State} {id : Nat} {t : Transit} (hg : AMap.get {} u.transits id = t) (hs : t.stage = .moving)
    {pas : List Nat} {bs : List Byte} (hn : pas.Nodup) (hl : bs.length = pas.length) :
    let w := (u.write (pas.zip bs)).modTransit id fun t => { t with moved := t.moved + 1 }
    let r := if t.moved + 1 = 128 * t.backed.length then w.install id t
      else if t.chip = t.destChip then w.event (.parcelData id) else w
    r.bytes pas = bs ∧ ∃ y, r.transit? id = some y ∧ y.moved = t.moved + 1 ∧ (y.stage = .installing ↔ t.moved + 1 = 128 * t.backed.length) := by
  have hg1 : AMap.get {} (u.write (pas.zip bs)).transits id = t := by rw [(write_writes u _).rest]; exact hg
  have hgw := get_modTransit hg1 fun t => { t with moved := t.moved + 1 }
  have hw := transit?_modTransit hg1 (f := fun t => { t with moved := t.moved + 1 }) (stage_ne_default (by rw [hs]; exact TransitStage.noConfusion))
  have hb : ((u.write (pas.zip bs)).modTransit id fun t => { t with moved := t.moved + 1 }).bytes pas = bs :=
    (bytes_congr (State.write_mem u (pas.zip bs)) pas).trans (bytes_setBytes_zip u hn hl)
  generalize (u.write (pas.zip bs)).modTransit id _ = w at hgw hw hb
  intro w r
  by_cases h : t.moved + 1 = 128 * t.backed.length
  · obtain ⟨h1, h2⟩ := install_keeps hgw t
    rw [show r = w.install id t from if_pos h]
    exact ⟨(bytes_congr h1 pas).trans hb, _, h2, rfl, iff_of_true rfl h⟩
  · have hr : KeepsTransits w r := by
      rw [show r = _ from if_neg h]
      split
      · exact ⟨by rw [(State.event_due _ _).rest], by rw [(State.event_due _ _).rest]⟩
      · exact .refl w
    exact ⟨(bytes_congr hr.mem pas).trans hb, _, (transit?_congr hr.transits id).trans hw, rfl,
      iff_of_false (by rw [hs]; exact TransitStage.noConfusion) h⟩

/-- A chip whose ports hold none of the entries of `gone`. -/
def portsWithout (gone : List Nat) (c : Chip) : Chip :=
  { c with
    ports := c.ports.map fun q =>
      (q.1, { q.2 with queue := q.2.queue.filter fun x => !gone.contains x.2.2, frames := q.2.frames.filter fun x => !gone.contains x.entry }) }

theorem dropMessages_checks (s : State) (id : Nat) : SameChecks s (s.dropMessages id) := by
  intro k
  unfold State.dropMessages
  extract_lets mine gone s1
  show (AMap.get ({} : Chip) (s1.chips.map fun e => (e.1, portsWithout gone e.2)) k).checks = _
  rw [get_map_keys (g := fun _ => portsWithout gone) fun _ => rfl]
  rfl

theorem chipOfNode_first (c : Nat) : chipOfNode (c * 24576) = c := Nat.mul_div_cancel c (by norm_num)

/-- A transit that fails as its offer stands is forgotten, with a record that names the handle. -/
theorem refusal_reports {s : State} {id : Nat} {t : Transit} (ht : s.transit? id = some t) (hs : t.stage = .offered)
    (hr : t.refused = true) : ∃ u, exec (.parcelTransitFailure id) s = .next u ∧ u.transit? id = none ∧
      (u.chip t.chip).checks = (s.chip t.chip).checks ++ [⟨t.chip * 24576, 5, BitVec.ofNat 64 (t.obj * 2 ^ 40)⟩] := by
  have hd := dropMessages_checks s id
  generalize hw : s.dropMessages id = w at hd
  have hi := issueChange_checks w t.parish (.entry t.obj ((w.obj t.chip t.parish t.obj).withState 1)) 0
  generalize hv : w.issueChange t.parish (.entry t.obj ((w.obj t.chip t.parish t.obj).withState 1)) 0 = v at hi
  have hc := checks_machineCheck { v with transits := AMap.set {} v.transits id {} } (t.chip * 24576) 5 (BitVec.ofNat 64 (t.obj * 2 ^ 40))
  rw [chipOfNode_first] at hc
  refine ⟨({ v with transits := AMap.set {} v.transits id {} } : State).machineCheck (t.chip * 24576) 5 (BitVec.ofNat 64 (t.obj * 2 ^ 40)), ?_,
    transit?_forgotten v id, hc.trans (congrArg (· ++ _) ((hd.trans hi) t.chip))⟩
  rw [exec_parcelTransitFailure, execParcelTransitFailure, ht]
  dsimp only
  rw [hr, hs, hw, decide_eq_false TransitStage.noConfusion, if_neg (fun h => by simp at h), if_neg (by decide), if_neg (by decide), hv]

/-- Settles O57. -/
theorem parcelSteps : Obligations.ParcelSteps := by
  unfold Obligations.ParcelSteps
  intro s id t ht
  dsimp only
  have hg := get_of_transit? ht
  refine ⟨?_, ?_, ?_, ?_, ?_, ?_, ?_⟩
  · rintro chip chg ⟨hid, ha, hn, hw, hh, hc⟩
    have e := acknowledge_completes rfl ha hn hw hh hc
    have ht' : ({ s with changes := AMap.set {} s.changes chg {} } : State).transit? (AMap.get {} s.changes chg : ChangeState).transit = some t := by
      rw [hid, transit?_changes]
      exact ht
    rw [changeComplete_transit (by exact ht')] at e
    dsimp only at e
    rw [hid] at e
    refine ⟨fun hs => ?_, fun hs => ?_⟩
    · rw [hs] at e
      obtain ⟨x, h⟩ := sealDone_offers (s := { s with changes := AMap.set {} s.changes chg {} }) ht
      exact ⟨_, x, e, h⟩
    · rw [hs] at e
      obtain ⟨x, a, h⟩ := installDone_announces (s := { s with changes := AMap.set {} s.changes chg {} }) ht
      exact ⟨_, x, a, e, h⟩
  · intro order s0 hs h
    have hf : (if t.offer ≠ 0 then some s else s.takeMessage t (.parcelOffer id) t.destChip) = some s := by
      rcases h with ⟨h, -⟩ | ⟨h, hc, -⟩
      · exact if_pos h
      · rw [if_neg (not_not.2 h), State.takeMessage, if_pos hc]
    have ho : (if t.offer ≠ 0 then (t.offer, s) else s.fresh) = (order, s0) := by
      rcases h with ⟨h, rfl, rfl⟩ | ⟨h, hc, rfl, rfl⟩
      · exact if_pos h
      · exact if_neg (not_not.2 h)
    have h0 : s0.transits = s.transits := by
      rcases h with ⟨-, -, rfl⟩ | ⟨-, -, -, rfl⟩ <;> rfl
    refine ⟨parcelOffer_refused ht hs hf, fun p hp hn => ?_⟩
    have e := parcelOffer_takes ht hs hf ho hp hn h0
    dsimp only at e
    refine ⟨fun hd => ?_, fun o s2 hd => ⟨fun hk => ?_, fun fs s3 hk => ?_⟩⟩
    · rw [e, hd]
    · rw [e, hd]
      dsimp only
      rw [hk]
    · rw [hd] at e
      dsimp only at e
      rw [hk] at e
      have hw := (deqRing_writes hd).trans (takeFrames_writes hk)
      have hg1 := get_modTransit (s := s0) (t := t) (by rw [h0]; exact hg) fun t => { t with offer := order, destParish := p }
      have hg3 : AMap.get {} s3.transits id = { t with offer := order, destParish := p } := by rw [hw.rest]; exact hg1
      have hm := transit?_modTransit hg3 (f := fun t => { t with stage := .accepted, destObj := o.toNat % 2 ^ 23, frames := fs })
        (stage_ne_default TransitStage.noConfusion)
      obtain ⟨⟨h1, h2, -⟩, -⟩ := parcelMessage_sends (s3.modTransit id fun t => { t with stage := .accepted, destObj := o.toNat % 2 ^ 23, frames := fs })
        (.parcelAccept id) .control t.destChip t.chip 0 (.parcelAcceptance id)
      exact ⟨_, _, e, (transit?_congr h1 id).trans hm, rfl, rfl, rfl, rfl, h2⟩
  · intro s1 hs hm
    have e := parcelAcceptance_moves ht hs hm
    obtain ⟨l, hl⟩ := takeMessage_takes hm
    have hg1 : AMap.get {} s1.transits id = t := by rw [hl]; exact hg
    have hx := transit?_modTransit hg1 (f := fun t => { t with stage := .moving }) (stage_ne_default TransitStage.noConfusion)
    have hgm := get_modTransit hg1 fun t => { t with stage := .moving }
    dsimp only at e
    refine ⟨fun hb => ?_, fun hb => ?_⟩
    · rw [hb, if_pos (by rfl)] at e
      exact ⟨_, _, e, (install_keeps hgm t).2, rfl⟩
    · have hn : 0 < t.backed.length := List.length_pos_of_ne_nil hb
      rw [if_neg (by unfold chunksPerExtent; omega)] at e
      by_cases hc : t.chip = t.destChip
      · rw [if_pos hc] at e
        refine ⟨_, _, e, (transit?_congr (by rw [(State.event_due _ _).rest]) id).trans hx, rfl, fun _ => due_event _ _, fun h => absurd hc h⟩
      · rw [if_neg hc] at e
        obtain ⟨h1, h2⟩ := newEntries_keep (s1.modTransit id fun t => { t with stage := .moving }) (.parcelData id) .request t.chip t.destChip
          (framesOf 16384) (chunksPerExtent * t.backed.length)
        exact ⟨_, _, e, (transit?_congr h1 id).trans hx, rfl, fun h => absurd h hc, fun _ => h2⟩
  · intro x f src s1 hs hx hf hr hm
    obtain ⟨l, hl⟩ := takeMessage_takes hm
    have hk : KeepsTransits s1 (linesCounted s1 t (x * 2 ^ 21 + t.moved % 128 * 16384)) :=
      .foldl (f := fun s i => s.countExtent t.chip t.parish t.obj (x * 2 ^ 21 + t.moved % 128 * 16384 + 128 * i))
        (fun s i => countExtent_keeps s _ _ _ _) _ _
    refine ⟨fun he => ?_, fun he => parcelData_fails ht hs hx hf hr hm (pair_of_snd he)⟩
    have hu := hk.trans (findError_keeps (linesCounted s1 t (x * 2 ^ 21 + t.moved % 128 * 16384)) (consecutive src 16384))
    have e := parcelData_writes ht hs hx hf hr hm (pair_of_snd he)
    generalize (State.findError _ (consecutive src 16384)).1 = u at hu e
    have hg1 : AMap.get {} u.transits id = t := by rw [hu.transits, hl]; exact hg
    have hb : u.bytes (consecutive src 16384) = s.bytes (consecutive src 16384) := bytes_congr (by rw [hu.mem, hl]) _
    rw [hb] at e
    obtain ⟨h1, y, h2⟩ := data_lands hg1 hs (nodup_consecutive (hbmByte t.destChip (f * 2 ^ 21 + t.moved % 128 * 16384)) 16384)
      (show (s.bytes (consecutive src 16384)).length = _ by rw [State.bytes, List.length_map, length_consecutive, length_consecutive])
    exact ⟨_, y, e, h1, h2⟩
  · intro s1 hs hm
    refine ⟨?_, transit?_forgotten _ _⟩
    obtain ⟨l, hl⟩ := takeMessage_takes hm
    have ho : (s1.returnFrames t).obj t.chip t.parish t.obj = s.obj t.chip t.parish t.obj := by
      rw [(returnFrames_writes s1 t).rest, hl]
      rfl
    rw [exec_installationAcknowledgement, execInstallationAcknowledgement, ht]
    dsimp only
    rw [hm, decide_eq_true hs]
    dsimp only
    rw [ho]
  · exact refusal_reports ht
  · intro hr h1 h2
    rw [exec_parcelTransitFailure, execParcelTransitFailure, ht]
    dsimp only
    rw [hr, h1, h2]
    simp

end Sys2Proof.Machine
end

section
/-! Proofs. Command rings: entries, marks and completions (21 R432, R433, R435; O58). -/

namespace Sys2Proof.Machine

/-! ### A parish's record -/

theorem decideCommand_parish (s : State) (n seq status : Nat) (detail : Word) : (s.decideCommand n seq status detail).parish n =
    { s.parish n with commands := (s.parish n).commands.map fun c => if c.seq = seq then { c with outcome := some (status, detail), waiting := false } else c } :=
  State.parish_modParish_self s n fun p =>
    { p with commands := p.commands.map fun c => if c.seq = seq then { c with outcome := some (status, detail), waiting := false } else c }

theorem decideCommand_due (s : State) (n seq status : Nat) (detail : Word) :
    Due.event (.commandCompletion n seq) ∈ (s.decideCommand n seq status detail).pending := due_event _ _

theorem writeJournal_def : State.writeJournal = fun s n seq k ws =>
    match s.journalByte n seq with
    | some pa => s.write ((consecutive (pa + 8 * k) (8 * ws.length)).zip (ws.flatMap fun w => littleEndian w 8))
    | none => s := rfl

/-- By `congrFun`: unfolded at its arguments, the kernel would evaluate the address of the journal. -/
theorem writeJournal_eq (s : State) (n seq k : Nat) (ws : List Word) : s.writeJournal n seq k ws =
    match s.journalByte n seq with
    | some pa => s.write ((consecutive (pa + 8 * k) (8 * ws.length)).zip (ws.flatMap fun w => littleEndian w 8))
    | none => s :=
  congrFun (congrFun (congrFun (congrFun (congrFun writeJournal_def s) n) seq) k) ws

theorem writeJournal_writes (s : State) (n seq k : Nat) (ws : List Word) : OnlyWrites s (s.writeJournal n seq k ws) := by
  obtain ⟨j, hj⟩ : ∃ j, j = s.journalByte n seq := ⟨_, rfl⟩
  rw [writeJournal_eq, ← hj]
  cases j with
  | some pa => exact write_writes _ _
  | none => exact .refl s

/-- A word written to a journal record is read back. -/
theorem loadLE_writeJournal {s : State} {n seq pa : Nat} (h : s.journalByte n seq = some pa) (ws : List Word) (i : Nat) (hi : i < ws.length) :
    (s.writeJournal n seq 0 ws).loadLE (pa + 8 * i) 8 = ws[i] := by
  rw [writeJournal_eq, h]
  dsimp only
  rw [Nat.mul_zero, Nat.add_zero]
  exact loadLE_write_words s pa ws i hi

theorem OnlyWrites.parish {s t : State} (h : OnlyWrites s t) (n : Nat) : t.parish n = s.parish n := by rw [h.rest]; rfl

theorem OnlyWrites.chip {s t : State} (h : OnlyWrites s t) (n : Nat) : t.chip n = s.chip n := by rw [h.rest]; rfl

theorem capture_off {s : State} {n : Nat} (h : (s.parish n).captureOn = false) (c : Captured) : s.capture n c = s := by
  rw [State.capture]
  exact if_pos (by rw [h]; rfl)

theorem capture_parish (s : State) (n : Nat) (c : Captured) : ∃ at', (s.capture n c).parish n =
    if (s.parish n).captureOn then { s.parish n with captured := (s.parish n).captured ++ [c], captureAt := at' } else s.parish n := by
  unfold State.capture
  dsimp only
  cases h : (s.parish n).captureOn with
  | false => exact ⟨0, rfl⟩
  | true =>
    rw [if_neg (by decide)]
    refine ⟨(s.parish n).captureAt + (c.bytes.take (captureSize - (s.parish n).captureAt)).length, ?_⟩
    rw [if_pos rfl, State.parish_modParish_self, (write_writes s _).parish, h]

/-! ### Host memory -/

theorem hostByte_injective {a b : Nat} (h : hostByte a = hostByte b) : a % 2 ^ 64 = b % 2 ^ 64 := Nat.add_left_cancel h

theorem nodup_hostBytes (a : Nat) {n : Nat} (hn : n ≤ 2 ^ 64) : ((List.range n).map fun i => hostByte (a + i)).Nodup := by
  refine (List.nodup_map_iff_inj_on List.nodup_range).2 fun i hi j hj h => ?_
  rw [List.mem_range] at hi hj
  have := Nat.ModEq.add_left_cancel' a (hostByte_injective h)
  exact this.eq_of_lt_of_lt (hi.trans_le hn) (hj.trans_le hn)

/-- Bytes of host memory read as they were written. -/
theorem hostBytes_writeHost (s : State) (a : Nat) {bs : List Byte} (hn : bs.length ≤ 2 ^ 64) : (s.writeHost a bs).hostBytes a bs.length = bs := by
  rw [State.hostBytes, State.writeHost]
  refine (bytes_congr (State.write_mem _ _) _).trans (bytes_setBytes_zip s (nodup_hostBytes a hn) ?_)
  rw [List.length_map, List.length_range]

/-- A word of host memory stays as the next one is written. -/
theorem hostWord_writeHost_next (s : State) (a : Nat) {bs : List Byte} (hn : bs.length = 8) :
    (s.writeHost (a + 8) bs).hostWord a = s.hostWord a := by
  refine congrArg wordOfBytes (List.map_congr_left fun p hp => State.byte_write_of_not_mem s fun e he => ?_)
  obtain ⟨i, hi, rfl⟩ := List.mem_map.1 hp
  have hm := List.of_mem_zip (show (e.1, e.2) ∈ _ from he)
  obtain ⟨j, hj, hej⟩ := List.mem_map.1 hm.1
  rw [← hej]
  intro h
  rw [List.mem_range] at hi hj
  have hmod : a + (8 + j) ≡ a + i [MOD 2 ^ 64] := by
    rw [← Nat.add_assoc]
    exact hostByte_injective h
  have := (Nat.ModEq.add_left_cancel' a hmod).eq_of_lt_of_lt (by omega) (by omega)
  omega

theorem hostWord_writeHost (s : State) (a : Nat) (w : Word) : (s.writeHost a (littleEndian w 8)).hostWord a = w := by
  have h := hostBytes_writeHost s a (bs := littleEndian w 8) (by rw [littleEndian_length]; decide)
  rw [littleEndian_length] at h
  rw [State.hostWord, h, wordOfBytes, ofLittleEndian_littleEndian]
  apply BitVec.eq_of_toNat_eq
  have := w.isLt
  rw [BitVec.toNat_ofNat]
  omega

theorem writeHost_writes (s : State) (a : Nat) (bs : List Byte) : OnlyWrites s (s.writeHost a bs) := write_writes _ _

/-! ### The next entry of a ring -/

section
variable (s : State) (n : Nat)

/-- First byte of the next entry of a parish's ring. -/
def entryAt : Nat := (s.parish n).qbase.toNat + 64 * ((s.parish n).qhead.toNat % (s.parish n).ringSize)

def ringWord (i : Nat) : Word := s.hostWord (entryAt s n + 8 * i)

/-- The command that the next entry holds. -/
def entryCommand : HostCommand :=
  { seq := (s.parish n).jtail.toNat, tag := field (ringWord s n 0) 16 48, version := field (ringWord s n 0) 8 8,
    opcode := field (ringWord s n 0) 0 8, arg0 := ringWord s n 1, arg1 := ringWord s n 2, arg2 := ringWord s n 3, moved := 0,
    waiting := false, outcome := none, complete := false }

/-- The state in which the next entry has been journalled and taken. -/
def entryTaken : State :=
  (((s.writeJournal n (s.parish n).jtail.toNat 0 [BitVec.ofNat 64 (s.parish n).jtail.toNat, ringWord s n 0, 1, 0]).modParish n fun p =>
      { p with jtail := p.jtail + 1, qhead := p.qhead + 1, commands := p.commands ++ [entryCommand s n] }).capture n
    (.command (s.parish n).jtail.toNat (s.hostBytes (entryAt s n) 64))).event (.commandEntry n)

variable {s n}

theorem commandEntry_takes (hp : (s.parish n).present = true) (hq : (s.parish n).qhead < (s.parish n).qtail) (hr : (s.parish n).room = true) :
    exec (.commandEntry n) s = .next (
      if (entryCommand s n).version ≠ 1 then (entryTaken s n).decideCommand n (s.parish n).jtail.toNat 0x40 0
      else if (List.range 4).any (fun i => ringWord s n (4 + i) != 0) && decide (1 ≤ (entryCommand s n).opcode.toNat ∧ (entryCommand s n).opcode.toNat ≤ 4) then
        (entryTaken s n).decideCommand n (s.parish n).jtail.toNat 0x41 0
      else
        match (entryCommand s n).opcode.toNat with
        | 1 => (entryTaken s n).event (.launchCommand n (s.parish n).jtail.toNat)
        | 2 => (entryTaken s n).event (.copyin n (s.parish n).jtail.toNat)
        | 3 => (entryTaken s n).event (.copyout n (s.parish n).jtail.toNat)
        | 4 => (entryTaken s n).event (.mark n (s.parish n).jtail.toNat)
        | _ => (entryTaken s n).decideCommand n (s.parish n).jtail.toNat 0x40 0) := by
  rw [exec_commandEntry, execCommandEntry]
  extract_lets p a w seq c s1 s2 s3
  rw [if_neg (by simp [p, hp, hq, hr])]
  -- opaque, so that the kernel does not evaluate the opcode read from host memory
  obtain ⟨c', hc⟩ : ∃ c', c' = c := ⟨_, rfl⟩
  obtain ⟨w', hw⟩ : ∃ w', w' = w := ⟨_, rfl⟩
  obtain ⟨t, ht⟩ : ∃ t, t = s3 := ⟨_, rfl⟩
  have hc' : entryCommand s n = c' := hc.symm
  have hw' : ringWord s n = w' := hw.symm
  have ht' : entryTaken s n = t := ht.symm
  rw [← hc, ← hw, ← ht, hc', hw', ht'] <;> rfl

/-- A ring without an entry to take, or a journal without room, is left as it is. -/
theorem commandEntry_waits (h : (s.parish n).present = false ∨ (s.parish n).qtail ≤ (s.parish n).qhead ∨ (s.parish n).room = false) :
    exec (.commandEntry n) s = .next s := by
  rw [exec_commandEntry, execCommandEntry]
  dsimp only
  rw [if_pos]
  rcases h with h | h | h
  · simp [h]
  · simp [show ¬ (s.parish n).qhead < (s.parish n).qtail from BitVec.not_lt.2 h]
  · simp [h]

variable (s n) in
/-- In `t` the next entry of the ring of parish `n` has been taken from `s`. -/
structure EntryTaken (t : State) : Prop where
  jtail : (t.parish n).jtail = (s.parish n).jtail + 1
  qhead : (t.parish n).qhead = (s.parish n).qhead + 1
  seqs : (t.parish n).commands.map (·.seq) = (s.parish n).commands.map (·.seq) ++ [(s.parish n).jtail.toNat]
  captured : (s.parish n).captureOn = true → (t.parish n).captured = (s.parish n).captured ++
    [.command (s.parish n).jtail.toNat (s.hostBytes (entryAt s n) 64)]
  journal : ∀ pa, (s.parish n).captureOn = false → s.journalByte n (s.parish n).jtail.toNat = some pa →
    t.loadLE pa 8 = BitVec.ofNat 64 (s.parish n).jtail.toNat ∧ t.loadLE (pa + 8) 8 = ringWord s n 0

theorem EntryTaken.event {t : State} (h : EntryTaken s n t) (i : Instr) : EntryTaken s n (t.event i) :=
  ⟨h.jtail, h.qhead, h.seqs, h.captured, h.journal⟩

theorem EntryTaken.decide {t : State} (h : EntryTaken s n t) (seq status : Nat) (d : Word) : EntryTaken s n (t.decideCommand n seq status d) := by
  have e := decideCommand_parish t n seq status d
  refine ⟨?_, ?_, ?_, ?_, h.journal⟩
  · rw [e]; exact h.jtail
  · rw [e]; exact h.qhead
  · rw [e, ← h.seqs, List.map_map]
    refine List.map_congr_left fun c _ => ?_
    dsimp only [Function.comp]
    split <;> rfl
  · rw [e]; exact h.captured

/-- The entry is taken once `w` has it journalled. -/
theorem taken_of_written {w : State} (hwr : OnlyWrites s w) (hj : ∀ pa, s.journalByte n (s.parish n).jtail.toNat = some pa →
      w.loadLE pa 8 = BitVec.ofNat 64 (s.parish n).jtail.toNat ∧ w.loadLE (pa + 8) 8 = ringWord s n 0) :
    EntryTaken s n (((w.modParish n fun p =>
      { p with jtail := p.jtail + 1, qhead := p.qhead + 1, commands := p.commands ++ [entryCommand s n] }).capture n
        (.command (s.parish n).jtail.toNat (s.hostBytes (entryAt s n) 64))).event (.commandEntry n)) := by
  refine .event ?_ _
  have hp := State.parish_modParish_self w n fun p => { p with jtail := p.jtail + 1, qhead := p.qhead + 1, commands := p.commands ++ [entryCommand s n] }
  have hm : (w.modParish n fun p => { p with jtail := p.jtail + 1, qhead := p.qhead + 1, commands := p.commands ++ [entryCommand s n] }).mem = w.mem := rfl
  generalize w.modParish n _ = v at hp hm
  rw [hwr.parish] at hp
  obtain ⟨a, ha⟩ := capture_parish v n (.command (s.parish n).jtail.toNat (s.hostBytes (entryAt s n) 64))
  have hon : (v.parish n).captureOn = (s.parish n).captureOn := by rw [hp]
  refine ⟨?_, ?_, ?_, fun h => ?_, fun pa h hja => ?_⟩
  · rw [ha]; split <;> rw [hp]
  · rw [ha]; split <;> rw [hp]
  · rw [ha]; split <;> rw [hp] <;> exact List.map_append
  · rw [ha, if_pos (hon.trans h), hp]
  · rw [capture_off (hon.trans h), loadLE_congr hm, loadLE_congr hm]
    exact hj pa hja

theorem entryTaken_takes : EntryTaken s n (entryTaken s n) :=
  taken_of_written (writeJournal_writes _ _ _ _ _) fun _ hj =>
    ⟨loadLE_writeJournal hj [BitVec.ofNat 64 (s.parish n).jtail.toNat, ringWord s n 0, 1, 0] 0 (by decide : 0 < 4),
      loadLE_writeJournal hj [BitVec.ofNat 64 (s.parish n).jtail.toNat, ringWord s n 0, 1, 0] 1 (by decide : 1 < 4)⟩

variable (s n) in
/-- The next entry is taken, and `due` becomes due. -/
def TakesEntry (due : Instr) : Prop := ∃ t, exec (.commandEntry n) s = .next t ∧ Due.event due ∈ t.pending ∧ EntryTaken s n t

section
variable (hp : (s.parish n).present = true) (hq : (s.parish n).qhead < (s.parish n).qtail) (hr : (s.parish n).room = true)
include hp hq hr

theorem commandEntry_decides (h : (field (ringWord s n 0) 8 8).toNat ≠ 1 ∨ (field (ringWord s n 0) 0 8).toNat = 0 ∨
    4 < (field (ringWord s n 0) 0 8).toNat ∨ ∃ i < 4, ringWord s n (4 + i) ≠ 0) : TakesEntry s n (.commandCompletion n (s.parish n).jtail.toNat) := by
  have e := commandEntry_takes hp hq hr
  by_cases hv : (entryCommand s n).version ≠ 1
  · rw [if_pos hv] at e
    exact ⟨_, e, decideCommand_due _ _ _ _ _, entryTaken_takes.decide _ _ _⟩
  rw [if_neg hv] at e
  split at e
  · exact ⟨_, e, decideCommand_due _ _ _ _ _, entryTaken_takes.decide _ _ _⟩
  next hres =>
  have hop : (entryCommand s n).opcode.toNat = 0 ∨ 4 < (entryCommand s n).opcode.toNat := by
    rcases h with h | h | h | ⟨i, hi, h⟩
    · exact absurd (congrArg BitVec.toNat (not_not.1 hv)) h
    · exact .inl h
    · exact .inr h
    · by_contra hc
      refine hres ?_
      rw [Bool.and_eq_true, List.any_eq_true, decide_eq_true_eq]
      exact ⟨⟨i, List.mem_range.2 hi, by simpa using h⟩, by omega⟩
  split at e
  · next h1 => omega
  · next h1 => omega
  · next h1 => omega
  · next h1 => omega
  · exact ⟨_, e, decideCommand_due _ _ _ _ _, entryTaken_takes.decide _ _ _⟩

theorem commandEntry_performs (hv : (field (ringWord s n 0) 8 8).toNat = 1) (hw : ∀ i < 4, ringWord s n (4 + i) = 0) :
    ((field (ringWord s n 0) 0 8).toNat = 1 → TakesEntry s n (.launchCommand n (s.parish n).jtail.toNat)) ∧
    ((field (ringWord s n 0) 0 8).toNat = 2 → TakesEntry s n (.copyin n (s.parish n).jtail.toNat)) ∧
    ((field (ringWord s n 0) 0 8).toNat = 3 → TakesEntry s n (.copyout n (s.parish n).jtail.toNat)) ∧
    ((field (ringWord s n 0) 0 8).toNat = 4 → TakesEntry s n (.mark n (s.parish n).jtail.toNat)) := by
  have e := commandEntry_takes hp hq hr
  have hver : (entryCommand s n).version = 1 := BitVec.eq_of_toNat_eq hv
  have hany : (List.range 4).any (fun i => ringWord s n (4 + i) != 0) = false := by
    rw [List.any_eq_false]
    intro i hi
    rw [hw i (List.mem_range.1 hi)]
    decide
  rw [if_neg (not_not.2 hver), hany, if_neg (by simp)] at e
  refine ⟨fun h => ?_, fun h => ?_, fun h => ?_, fun h => ?_⟩
  all_goals
    replace h : (entryCommand s n).opcode.toNat = _ := h
    rw [h] at e
    exact ⟨_, e, due_event _ _, entryTaken_takes.event _⟩

end
end

/-! ### Marks and completions -/

theorem mark_completes {s : State} {n seq : Nat} {c : HostCommand} (h : s.command? n seq = some c) (ho : c.opcode = 4) (hc : c.outcome = none)
    (hall : ∀ d ∈ (s.parish n).commands, seq ≤ d.seq) : exec (.mark n seq) s = .next (s.decideCommand n seq 0 0) := by
  rw [exec_mark, execMark, h]
  exact next_congr (if_pos ⟨ho, hc, List.all_eq_true.2 fun d hd => decide_eq_true (hall d hd)⟩)

theorem mark_waits {s : State} {n seq : Nat} {c : HostCommand} (h : s.command? n seq = some c)
    (hex : ∃ d ∈ (s.parish n).commands, d.seq < seq) : exec (.mark n seq) s = .next s := by
  obtain ⟨d, hd, hlt⟩ := hex
  rw [exec_mark, execMark, h]
  refine next_congr (if_neg fun hc => ?_)
  exact absurd (of_decide_eq_true (List.all_eq_true.1 hc.2.2 d hd)) (by omega)

theorem marks_due (n : Nat) (l : List HostCommand) (s : State) :
    OnlyDue s (l.foldl (fun s d => if d.opcode = 4 then s.event (.mark n d.seq) else s) s) := by
  refine .foldl (fun s d => ?_) _ _
  split
  · exact State.event_due _ _
  · exact .refl s

/-- The completion entry of a command, where its parish has a completion ring. -/
def completionWritten (s : State) (p : Parish) (c : HostCommand) (seq status : Nat) : State :=
  if p.cbase = 0 then s else
    let a := p.cbase.toNat + 16 * ((seq - 1) % p.ringSize)
    let w1 : Word := BitVec.ofNat 64 (c.tag.toNat * 2 ^ 16 + status % 256 * 2 ^ 8 + (seq - 1) / p.ringSize % 2)
    (s.writeHost a (littleEndian (BitVec.ofNat 64 seq) 8)).writeHost (a + 8) (littleEndian w1 8)

theorem completionWritten_writes (s : State) (p : Parish) (c : HostCommand) (seq status : Nat) : OnlyWrites s (completionWritten s p c seq status) := by
  unfold completionWritten
  split
  · exact .refl s
  · exact (writeHost_writes _ _ _).trans (writeHost_writes _ _ _)

theorem completionWritten_entry (s : State) {p : Parish} (c : HostCommand) (seq status : Nat) (h : p.cbase ≠ 0) :
    (completionWritten s p c seq status).hostWord (p.cbase.toNat + 16 * ((seq - 1) % p.ringSize)) = BitVec.ofNat 64 seq := by
  unfold completionWritten
  rw [if_neg h]
  dsimp only
  rw [hostWord_writeHost_next _ _ (littleEndian_length _ _), hostWord_writeHost]

theorem hostWord_congr {s t : State} (h : t.mem = s.mem) (a : Nat) : t.hostWord a = s.hostWord a := congrArg wordOfBytes (bytes_congr h _)

/-- The vector of a command has been raised; it has left its queue, and the marks of the queue are looked at. -/
def commandEnded (u : State) (p : Parish) (n seq : Nat) : State :=
  let s := u.modChip p.hostChip fun k => { k with msix := k.msix ++ [n] }
  let s := s.modParish n fun p => { p with commands := p.commands.filter (·.seq != seq) }
  (s.parish n).commands.foldl (fun s d => if d.opcode = 4 then s.event (.mark n d.seq) else s) s

theorem commandEnded_ends {s u : State} (h : OnlyWrites s u) (p : Parish) (n seq : Nat) :
    ((commandEnded u p n seq).parish n).commands = (s.parish n).commands.filter (·.seq != seq) ∧
    ((commandEnded u p n seq).chip p.hostChip).msix = (s.chip p.hostChip).msix ++ [n] ∧ (commandEnded u p n seq).mem = u.mem := by
  unfold commandEnded
  extract_lets v x
  rw [(marks_due n (x.parish n).commands x).rest]
  refine ⟨?_, ?_, rfl⟩
  · show (x.parish n).commands = _
    rw [State.parish_modParish_self]
    show (u.parish n).commands.filter _ = _
    rw [h.parish]
  · show (v.chip p.hostChip).msix = _
    rw [State.chip_modChip_self, h.chip]

/-- A decided command leaves its queue with its completion entry and vector. -/
theorem commandCompletion_completes {s : State} {n seq status : Nat} {detail : Word} {c : HostCommand} (h : s.command? n seq = some c)
    (ho : c.outcome = some (status, detail)) : ∃ t, exec (.commandCompletion n seq) s = .next t ∧
      (t.parish n).commands = (s.parish n).commands.filter (·.seq != seq) ∧
      (t.chip (s.parish n).hostChip).msix = (s.chip (s.parish n).hostChip).msix ++ [n] ∧
      ((s.parish n).cbase ≠ 0 → t.hostWord ((s.parish n).cbase.toNat + 16 * ((seq - 1) % (s.parish n).ringSize)) = BitVec.ofNat 64 seq) := by
  have hw := (writeJournal_writes s n seq 2 [BitVec.ofNat 64 (2 + status % 256 * 2 ^ 8), detail]).trans
    (completionWritten_writes _ (s.parish n) c seq status)
  obtain ⟨h1, h2, h3⟩ := commandEnded_ends hw (s.parish n) n seq
  refine ⟨_, ?_, h1, h2, fun hc => (hostWord_congr h3 _).trans (completionWritten_entry _ c seq status hc)⟩
  rw [exec_commandCompletion, execCommandCompletion, h]
  dsimp -zeta only
  rw [ho]
  rfl

end Sys2Proof.Machine
end

section
/-! Proofs. Copies of the host's commands (21 R447; O58). -/

namespace Sys2Proof.Machine

/-! ### The next line of a copy -/

section
variable {s : State} {n seq right : Nat} {i : Instr} {c : HostCommand} {bytes : List Byte} {req : Req}

variable (c) in
/-- Address of the next line of a copy. -/
def copyAddr : Word := c.arg1 + BitVec.ofNat 64 c.moved

variable (s n c) in
/-- What meets a copy at its next line. -/
def copyFound : Check := s.checkResidency (s.parish n).replica n (handleObj (copyAddr c)) (handleOff (copyAddr c)) (copyAddr c) false

variable (s n c right) in
/-- The check that refuses the next line of a copy. -/
def lineRefused : Option Nat :=
  checkEntry (s.obj (s.parish n).replica n (handleObj (copyAddr c))) (handleObj (copyAddr c)) (handleOff (copyAddr c)) c.lineSize right false

theorem askLine_refused (h : (lineRefused s n right c).isSome = true) :
    s.askLine n seq right i c bytes req = s.decideCommand n seq 0x21 (BitVec.ofNat 64 c.moved) := by
  unfold State.askLine
  extract_lets chip a o stop
  exact if_pos h

variable (s n seq i c bytes req) in
/-- What becomes of the next line, by what meets it. -/
def lineGoes : Check → State
  | .trap 0x09 _ => s.holdCommand n seq (copyAddr c)
  | .trap _ _ | .drop => s.decideCommand n seq 0x21 (BitVec.ofNat 64 c.moved)
  | .moving => s.laterCommand n i
  | .ok t =>
      (((s.countExtent (s.parish n).replica n (handleObj (copyAddr c)) (handleOff (copyAddr c))).modCommand n seq fun c => { c with line := bytes }).request
        { req := req, target := t, addr := copyAddr c, thread := 128 * vestryNode (s.parish n).replica, parish := n,
          src := vestryNode (s.parish n).replica, dst := 0, channel := false, seq := 0, posted := false, takesPlace := false,
          reader := .host n seq }).2

theorem lineGoes_trap {k : Nat} (x : Word) (h : k ≠ 0x09) :
    lineGoes s n seq i c bytes req (.trap k x) = s.decideCommand n seq 0x21 (BitVec.ofNat 64 c.moved) := by
  unfold lineGoes
  split
  · next heq => exact absurd (Check.trap.inj heq).1 h
  · rfl
  · rfl
  · next heq => exact nomatch heq
  · next heq => exact nomatch heq

theorem askLine_goes (h : lineRefused s n right c = none) : s.askLine n seq right i c bytes req = lineGoes s n seq i c bytes req (copyFound s n c) := by
  unfold State.askLine
  extract_lets chip a o stop v
  rw [if_neg (by rw [show checkEntry (s.obj chip n o) o (handleOff a) c.lineSize right false = none from h]; decide)]
  obtain ⟨f, hf⟩ : ∃ f, f = copyFound s n c := ⟨_, rfl⟩
  rw [← hf, show s.checkResidency chip n o (handleOff a) a false = f from hf.symm]
  rfl

/-- A line that nothing refuses is asked for. -/
theorem lineGoes_asks (g : Target) : ∃ x ∈ (lineGoes s n seq i c bytes req (.ok g)).accesses,
    x.2.reader = .host n seq ∧ x.2.req = req ∧ x.2.addr = copyAddr c ∧ x.2.target = g := by
  unfold lineGoes
  dsimp only
  generalize ha : ({ req := req, target := g, addr := copyAddr c, thread := 128 * vestryNode (s.parish n).replica, parish := n, src := vestryNode (s.parish n).replica, dst := 0, channel := false, seq := 0, posted := false, takesPlace := false, reader := .host n seq } : Access) = a
  generalize (s.countExtent _ _ _ _).modCommand n seq _ = u
  have hr := State.request_requested (Touched.refl u) a
  refine ⟨(u.nextId, sentAs u a), ?_, ?_⟩
  · rw [hr.access]
    exact List.mem_append_right _ (List.mem_singleton.2 rfl)
  · rw [← ha]
    exact ⟨rfl, rfl, rfl, rfl⟩

end

/-! ### The steps of a copy -/

section
variable {s : State} {n seq right : Nat} {i : Instr} {c : HostCommand} {req : State → HostCommand → List Byte × Req}
  {took : State → HostCommand → List Byte → State}
  (h : s.command? n seq = some c) (hw : c.waiting = false) (ho : c.outcome = none)

variable (s n seq) in
/-- A line of the copy has been asked for, and has not come. -/
def copyAsked : Prop := ∃ x ∈ s.accesses, x.2.reader = .host n seq

include h in
theorem copyStep_asked (ha : copyAsked s n seq) : s.copyStep n seq right i req took = s := by
  obtain ⟨x, hx, hr⟩ := ha
  rw [State.copyStep, h]
  refine if_pos ?_
  rw [Bool.or_eq_true]
  exact .inr (List.any_eq_true.2 ⟨x, hx, decide_eq_true hr⟩)

include h hw ho

theorem copyStep_goes (ha : ¬ copyAsked s n seq) : s.copyStep n seq right i req took =
    match (if c.moved = 0 ∧ c.reads = [] then s.copyRefused n c right else none) with
    | some k => s.decideCommand n seq 0x22 (BitVec.ofNat 64 k)
    | none =>
      match c.reads with
      | [] => s.askLine n seq right i c (req s c).1 (req s c).2
      | l :: _ =>
        let s := s.modCommand n seq fun c => { c with reads := [] }
        match l.trap with
        | some (0x09, _) => s.holdCommand n seq (c.arg1 + BitVec.ofNat 64 c.moved)
        | some _ => s.decideCommand n seq 0x21 (BitVec.ofNat 64 c.moved)
        | none =>
          let s := (took s c l.bytes).modCommand n seq fun d => { d with moved := c.moved + c.lineSize }
          if c.moved + c.lineSize = c.arg2.toNat then s.decideCommand n seq 0 0 else s.event i := by
  have hany : s.accesses.any (fun e => decide (e.2.reader = .host n seq)) = false := by
    rw [List.any_eq_false]
    intro x hx
    rw [decide_eq_true_eq]
    exact fun hr => ha ⟨x, hx, hr⟩
  obtain ⟨f, hf⟩ : ∃ f, f = s.copyRefused n c right := ⟨_, rfl⟩
  rw [State.copyStep, h]
  dsimp -zeta only
  rw [hw, ho, hany, if_neg (by decide), ← hf] <;> rfl

theorem copyStep_refused (ha : ¬ copyAsked s n seq) (hr : c.reads = []) (hm : c.moved = 0) {k : Nat} (hk : s.copyRefused n c right = some k) :
    s.copyStep n seq right i req took = s.decideCommand n seq 0x22 (BitVec.ofNat 64 k) := by
  rw [copyStep_goes h hw ho ha, if_pos ⟨hm, hr⟩, hk]

theorem copyStep_asks (ha : ¬ copyAsked s n seq) (hr : c.reads = []) (hm : c.moved ≠ 0 ∨ s.copyRefused n c right = none) :
    s.copyStep n seq right i req took = s.askLine n seq right i c (req s c).1 (req s c).2 := by
  have hif : (if c.moved = 0 ∧ c.reads = [] then s.copyRefused n c right else none) = none := by
    split
    · next hc => exact hm.resolve_left (not_not.2 hc.1)
    · rfl
  rw [copyStep_goes h hw ho ha, hif, hr]

/-- A line has come. -/
theorem copyStep_takes (ha : ¬ copyAsked s n seq) {l : LineRead} {m : List LineRead} (hr : c.reads = l :: m) :
    s.copyStep n seq right i req took =
      let s := s.modCommand n seq fun c => { c with reads := [] }
      match l.trap with
      | some (0x09, _) => s.holdCommand n seq (c.arg1 + BitVec.ofNat 64 c.moved)
      | some _ => s.decideCommand n seq 0x21 (BitVec.ofNat 64 c.moved)
      | none =>
        let s := (took s c l.bytes).modCommand n seq fun d => { d with moved := c.moved + c.lineSize }
        if c.moved + c.lineSize = c.arg2.toNat then s.decideCommand n seq 0 0 else s.event i := by
  rw [copyStep_goes h hw ho ha, if_neg (fun hc => by rw [hr] at hc; exact nomatch hc.2), hr]

end

/-! ### Copies as the host asks for them -/

/-- The steps of a copy through the handle of `c`: `req` asks for a line, and `took` is what is done with what has come. -/
def CopySteps (s : State) (n seq : Nat) (c : HostCommand) (i : Instr) (right : Nat) (req : Req) (took : List Byte → State) : Prop :=
  (copyAsked s n seq → exec i s = .next s) ∧
  (¬ copyAsked s n seq → c.reads = [] →
    (∀ k, c.moved = 0 → s.copyRefused n c right = some k → exec i s = .next (s.decideCommand n seq 0x22 (BitVec.ofNat 64 k))) ∧
    (c.moved ≠ 0 ∨ s.copyRefused n c right = none →
      ((lineRefused s n right c).isSome = true → exec i s = .next (s.decideCommand n seq 0x21 (BitVec.ofNat 64 c.moved))) ∧
      (lineRefused s n right c = none →
        (∀ x, copyFound s n c = .trap 0x09 x → exec i s = .next (s.holdCommand n seq (copyAddr c))) ∧
        (∀ k x, k ≠ 0x09 → copyFound s n c = .trap k x → exec i s = .next (s.decideCommand n seq 0x21 (BitVec.ofNat 64 c.moved))) ∧
        (copyFound s n c = .drop → exec i s = .next (s.decideCommand n seq 0x21 (BitVec.ofNat 64 c.moved))) ∧
        (copyFound s n c = .moving → exec i s = .next (s.laterCommand n i)) ∧
        (∀ g, copyFound s n c = .ok g → ∃ t, exec i s = .next t ∧ ∃ x ∈ t.accesses, x.2.reader = .host n seq ∧ x.2.req = req ∧
          x.2.addr = copyAddr c ∧ x.2.target = g)))) ∧
  (∀ l m, ¬ copyAsked s n seq → c.reads = l :: m →
    (∀ x, l.trap = some (0x09, x) →
      exec i s = .next ((s.modCommand n seq fun c => { c with reads := [] }).holdCommand n seq (copyAddr c))) ∧
    (∀ k x, k ≠ 0x09 → l.trap = some (k, x) →
      exec i s = .next ((s.modCommand n seq fun c => { c with reads := [] }).decideCommand n seq 0x21 (BitVec.ofNat 64 c.moved))) ∧
    (l.trap = none →
      let u := (took l.bytes).modCommand n seq fun d => { d with moved := c.moved + c.lineSize }
      exec i s = .next (if c.moved + c.lineSize = c.arg2.toNat then u.decideCommand n seq 0 0 else u.event i)))

theorem copy_steps {s : State} {n seq right : Nat} {i : Instr} {c : HostCommand} {req : State → HostCommand → List Byte × Req}
    {took : State → HostCommand → List Byte → State} (h : s.command? n seq = some c) (hw : c.waiting = false) (ho : c.outcome = none)
    (he : exec i s = .next (s.copyStep n seq right i req took)) :
    CopySteps s n seq c i right (req s c).2 (took (s.modCommand n seq fun c => { c with reads := [] }) c) := by
  refine ⟨fun ha => he.trans (next_congr (copyStep_asked h ha)), fun ha hr => ⟨fun k hm hk => ?_, fun hm => ?_⟩, fun l m ha hr => ?_⟩
  · exact he.trans (next_congr (copyStep_refused h hw ho ha hr hm hk))
  · rw [copyStep_asks h hw ho ha hr hm] at he
    refine ⟨fun hl => he.trans (next_congr (askLine_refused hl)), fun hl => ?_⟩
    rw [askLine_goes hl] at he
    refine ⟨fun x hf => ?_, fun k x hk hf => ?_, fun hf => ?_, fun hf => ?_, fun g hf => ?_⟩ <;> rw [hf] at he
    · exact he
    · exact he.trans (next_congr (lineGoes_trap x hk))
    · exact he
    · exact he
    · exact ⟨_, he, lineGoes_asks g⟩
  · rw [copyStep_takes h hw ho ha hr] at he
    refine ⟨fun x hl => ?_, fun k x hk hl => ?_, fun hl => ?_⟩
    · rw [hl] at he
      exact he
    · rw [hl] at he
      refine he.trans (next_congr ?_)
      dsimp only
      split
      · next heq => exact absurd (Prod.mk.inj (Option.some.inj heq)).1 hk
      · rfl
      · next heq => exact nomatch heq
    · rw [hl] at he
      exact he

theorem copyin_steps {s : State} {n seq : Nat} {c : HostCommand} (h : s.command? n seq = some c) (hw : c.waiting = false)
    (ho : c.outcome = none) (hop : c.opcode = 2) :
    CopySteps s n seq c (.copyin n seq) rW
      (.store ((List.range (s.hostBytes (c.arg0.toNat + c.moved) c.lineSize).length).zip (s.hostBytes (c.arg0.toNat + c.moved) c.lineSize)))
      fun _ => (s.modCommand n seq fun c => { c with reads := [] }).capture n (.copied seq c.line) := by
  refine copy_steps (req := fun s c =>
      (s.hostBytes (c.arg0.toNat + c.moved) c.lineSize, .store ((List.range (s.hostBytes (c.arg0.toNat + c.moved) c.lineSize).length).zip
        (s.hostBytes (c.arg0.toNat + c.moved) c.lineSize))))
    (took := fun s c _ => s.capture n (.copied seq c.line)) h hw ho ?_
  rw [exec_copyin, execCopyin, h]
  exact next_congr (if_neg (by simp [hop]))

theorem copyout_steps {s : State} {n seq : Nat} {c : HostCommand} (h : s.command? n seq = some c) (hw : c.waiting = false)
    (ho : c.outcome = none) (hop : c.opcode = 3) :
    CopySteps s n seq c (.copyout n seq) rR (.load c.lineSize)
      fun bs => (s.modCommand n seq fun c => { c with reads := [] }).writeHost (c.arg0.toNat + c.moved) bs := by
  refine copy_steps (req := fun _ c => ([], .load c.lineSize)) (took := fun s c bs => s.writeHost (c.arg0.toNat + c.moved) bs) h hw ho ?_
  rw [exec_copyout, execCopyout, h]
  exact next_congr (if_neg (by simp [hop]))

end Sys2Proof.Machine
end

section
/-! Proofs. LAUNCH from the host (21 R447; O58). -/

namespace Sys2Proof.Machine

theorem refuseCommand_parish (s : State) (n seq code : Nat) : ((s.refuseCommand n seq code).parish n).launchCode = code := by
  rw [State.refuseCommand, decideCommand_parish, State.parish_modParish_self]

/-- A record that could not be read has one of two codes. -/
theorem launchCode_unread (s : State) (v : Submission) (h : v.words = []) : s.launchCode v none = if s.homeOutside v then 6 else 9 := by
  unfold State.launchCode
  extract_lets ws
  exact if_pos (by rw [show ws = [] from h]; decide)

section
variable {s : State} {n seq : Nat} {c : HostCommand} (h : s.command? n seq = some c) (hw : c.waiting = false) (ho : c.outcome = none)
  (hop : c.opcode = 1) (hm : c.moved = 0)

variable (s n seq c) in
/-- What a LAUNCH of the host submits, once its record is read. -/
def hostSubmission : Submission :=
  { parish := n, record := c.arg0, home := c.arg1 &&& ~~~(0xFFFF : Word), command := some (n, seq), chip := (s.parish n).hostChip }

variable (s n c) in
/-- The record of a LAUNCH cannot be read at its address. -/
def recordBad : Bool :=
  if c.arg0.toNat % 8 ≠ 0 then true
  else if isPlace c.arg0 then (s.checkPlace (s.parish n).replica n c.arg0 512 true).isSome
  else (checkEntry (s.obj (s.parish n).replica n (handleObj c.arg0)) (handleObj c.arg0) (handleOff c.arg0) 512 rR false).isSome

/-- In `u`, the state `t` has the host's LAUNCH refused as its record could not be read. -/
def launchUnread (u : State) (v : Submission) : State := u.refuse v (u.launchCode v none)

theorem launchUnread_refuses (u : State) : let t := launchUnread u (hostSubmission s n seq c)
    (t.parish n).launchCode = (if u.homeOutside (hostSubmission s n seq c) then 6 else 9) ∧ Due.event (.commandCompletion n seq) ∈ t.pending := by
  have e : launchUnread u (hostSubmission s n seq c) = u.refuseCommand n seq (u.launchCode (hostSubmission s n seq c) none) := rfl
  dsimp only
  rw [e, refuseCommand_parish, launchCode_unread _ _ rfl]
  exact ⟨rfl, decideCommand_due _ _ _ _ _⟩

variable (s n seq c) in
/-- A LAUNCH goes on by what meets the Vestry at the ends of the record: with `r` where both can be read. -/
def launchGoes (r : State) (a b : HostReach) : State :=
  match a, b with
  | .unreachable, _ | _, .unreachable => launchUnread s (hostSubmission s n seq c)
  | .unbacked, _ => s.holdCommand n seq c.arg0
  | _, .unbacked => s.holdCommand n seq (c.arg0 + 511)
  | .moving, _ | _, .moving => s.laterCommand n (.launchCommand n seq)
  | _, _ => r

variable (n seq) in
/-- A LAUNCH goes on by what has been read of its record. -/
def launchRead (v : Submission) : State × Option (List Word) → State
  | (u, none) => launchUnread u v
  | (u, some ws) =>
    let (id, u) := (u.modCommand n seq fun c => { c with moved := 1 }).fresh
    (u.setSubmission id { v with words := ws }).event (.submission id)

variable (s n) in
/-- What meets the Vestry at byte `x` of a record at `r`. -/
def recordEnd (r x : Word) : HostReach := if isPlace r then .byte 0 else s.hostReach (s.parish n).replica n x

theorem launchGoes_unreachable (r : State) {a b : HostReach} (hab : a = .unreachable ∨ b = .unreachable) :
    launchGoes s n seq c r a b = launchUnread s (hostSubmission s n seq c) := by
  rcases hab with rfl | rfl
  · rfl
  · cases a <;> rfl

theorem launchGoes_unbacked (r : State) {b : HostReach} (hb : b ≠ .unreachable) : launchGoes s n seq c r .unbacked b = s.holdCommand n seq c.arg0 := by
  cases b with
  | unreachable => exact absurd rfl hb
  | byte => rfl
  | unbacked => rfl
  | moving => rfl

include h hw ho hop hm

theorem launchCommand_bad (hb : recordBad s n c = true) :
    exec (.launchCommand n seq) s = .next (launchUnread s (hostSubmission s n seq c)) := by
  rw [exec_launchCommand, execLaunchCommand, h]
  refine next_congr ((if_neg ?_).trans (if_pos hb))
  simp [hw, ho, hop, hm]

theorem launchCommand_empty (hb : recordBad s n c = false) (he : s.recordEmpty (s.parish n).replica c.arg0 = true) :
    exec (.launchCommand n seq) s = .next (s.laterCommand n (.launchCommand n seq)) := by
  rw [exec_launchCommand, execLaunchCommand, h]
  refine next_congr ((if_neg ?_).trans ((if_neg (Bool.eq_false_iff.1 hb)).trans (if_pos he)))
  simp [hw, ho, hop, hm]

theorem launchCommand_goes (hb : recordBad s n c = false) (he : s.recordEmpty (s.parish n).replica c.arg0 = false) :
    exec (.launchCommand n seq) s = .next (launchGoes s n seq c
      (launchRead n seq (hostSubmission s n seq c) (s.readWords (s.parish n).replica n c.arg0 64)) (recordEnd s n c.arg0 c.arg0) (recordEnd s n c.arg0 (c.arg0 + 511))) := by
  obtain ⟨a, ha⟩ : ∃ a, a = recordEnd s n c.arg0 c.arg0 := ⟨_, rfl⟩
  obtain ⟨b, hbe⟩ : ∃ b, b = recordEnd s n c.arg0 (c.arg0 + 511) := ⟨_, rfl⟩
  obtain ⟨w, hwo⟩ : ∃ w, w = s.readWords (s.parish n).replica n c.arg0 64 := ⟨_, rfl⟩
  rw [exec_launchCommand, execLaunchCommand, h]
  dsimp -zeta only
  rw [if_neg (by simp [hw, ho, hop, hm])]
  extract_lets p chip r v unread bad last
  rw [if_neg (show ¬ bad = true from Bool.eq_false_iff.1 hb), if_neg (show ¬ s.recordEmpty chip r = true from Bool.eq_false_iff.1 he)]
  rw [show (if isPlace r then HostReach.byte 0 else s.hostReach chip n r) = a from ha.symm,
    show (if isPlace r then HostReach.byte 0 else s.hostReach chip n last) = b from hbe.symm, ← ha, ← hbe]
  rw [show s.readWords chip n r 64 = w from hwo.symm]
  rfl

end

theorem launchRead_unread {n seq : Nat} {v : Submission} {w : State × Option (List Word)} (h : w.2 = none) :
    launchRead n seq v w = launchUnread w.1 v := by
  obtain ⟨u, o⟩ := w
  subst h
  rfl

/-- The words of a record that could be read are submitted. -/
theorem launchRead_submits {n seq : Nat} {v : Submission} {w : State × Option (List Word)} {ws : List Word} (h : w.2 = some ws) :
    Due.event (.submission w.1.nextId) ∈ (launchRead n seq v w).pending ∧
      (launchRead n seq v w).submission w.1.nextId = { v with words := ws } := by
  obtain ⟨u, o⟩ := w
  subst h
  exact ⟨due_event _ _, AMap.get_set_self _ _ _ _⟩

end Sys2Proof.Machine
end

section
/-! Proofs. Creating and destroying a parish, and the host's steps (21 R431, R438; O58). -/

namespace Sys2Proof.Machine

/-! ### What a host sees of a parish -/

/-- From `s` to `t` no parish has appeared, gone, changed its host port or accepted a command. -/
structure KeepsPages (s t : State) : Prop where
  present : ∀ n, (t.parish n).present = (s.parish n).present
  hostChip : ∀ n, (t.parish n).hostChip = (s.parish n).hostChip
  jtail : ∀ n, (t.parish n).jtail = (s.parish n).jtail

theorem KeepsPages.refl (s : State) : KeepsPages s s := ⟨fun _ => rfl, fun _ => rfl, fun _ => rfl⟩

theorem KeepsPages.trans {s t u : State} (h : KeepsPages s t) (h' : KeepsPages t u) : KeepsPages s u :=
  ⟨fun n => (h'.present n).trans (h.present n), fun n => (h'.hostChip n).trans (h.hostChip n), fun n => (h'.jtail n).trans (h.jtail n)⟩

theorem keepsPages_of_parishes {s t : State} (h : t.parishes = s.parishes) : KeepsPages s t := by
  have e (n : Nat) : t.parish n = s.parish n := by rw [State.parish, h]; rfl
  exact ⟨fun n => by rw [e], fun n => by rw [e], fun n => by rw [e]⟩

theorem KeepsPages.foldl {α : Type} {f : State → α → State} (h : ∀ s a, KeepsPages s (f s a)) (l : List α) (s : State) :
    KeepsPages s (l.foldl f s) := by
  induction l generalizing s with
  | nil => exact .refl s
  | cons a l ih => exact (h s a).trans (ih _)

theorem OnlyDue.pages {s t : State} (h : OnlyDue s t) : KeepsPages s t := keepsPages_of_parishes (by rw [h.rest])

theorem OnlyWrites.pages {s t : State} (h : OnlyWrites s t) : KeepsPages s t := keepsPages_of_parishes (by rw [h.rest])

theorem modParish_pages (s : State) (k : Nat) {f : Parish → Parish} (hp : ∀ p, (f p).present = p.present)
    (hc : ∀ p, (f p).hostChip = p.hostChip) (hj : ∀ p, (f p).jtail = p.jtail) : KeepsPages s (s.modParish k f) := by
  have e (n : Nat) : (s.modParish k f).parish n = if n = k then f (s.parish n) else s.parish n := by
    split
    · next h => rw [h]; exact State.parish_modParish_self s k f
    · next h => exact AMap.get_set_ne _ _ _ h
  refine ⟨fun n => ?_, fun n => ?_, fun n => ?_⟩ <;> rw [e] <;> split
  · exact hp _
  · rfl
  · exact hc _
  · rfl
  · exact hj _
  · rfl

theorem correct_pages (s : State) (pa n : Nat) : KeepsPages s (s.correct pa n) := by
  unfold State.correct
  split
  · exact .refl s
  · refine .foldl (fun s w => ?_) _ _
    split
    · exact keepsPages_of_parishes rfl
    · exact .refl s

theorem findError_pages (s : State) (pas : List Nat) : KeepsPages s (s.findError pas).1 := by
  unfold State.findError
  split
  · exact .refl s
  · split
    · exact keepsPages_of_parishes rfl
    · exact .foldl (fun s pa => correct_pages s pa 1) _ _

theorem countExtent_pages (s : State) (chip parish obj off : Nat) : KeepsPages s (s.countExtent chip parish obj off) := by
  unfold State.countExtent
  dsimp only
  split
  · exact keepsPages_of_parishes rfl
  · exact .refl s

theorem readWords_pages (s : State) (chip parish : Nat) (a : Word) (k : Nat) : KeepsPages s (s.readWords chip parish a k).1 := by
  unfold State.readWords
  obtain ⟨l, hl⟩ : ∃ l, l = s.readRange chip parish a k := ⟨_, rfl⟩
  rw [← hl]
  cases l with
  | none => exact .refl s
  | some l =>
    dsimp -zeta only
    extract_lets at'
    have hf := findError_pages s ((List.range k).flatMap at')
    obtain ⟨w, hw⟩ : ∃ w, w = s.findError ((List.range k).flatMap at') := ⟨_, rfl⟩
    rw [← hw] at hf ⊢
    obtain ⟨u, b⟩ := w
    cases b with
    | true => exact hf
    | false =>
      show KeepsPages s (List.foldl _ u _)
      refine hf.trans ?_
      apply KeepsPages.foldl
      intro v p
      extract_lets q
      split
      · exact .refl v
      · exact countExtent_pages _ _ _ _ _

theorem capture_pages (s : State) (n : Nat) (c : Captured) : KeepsPages s (s.capture n c) := by
  unfold State.capture
  extract_lets p bs places
  split
  · exact .refl s
  · exact (write_writes s _).pages.trans (modParish_pages _ _ (fun _ => rfl) (fun _ => rfl) fun _ => rfl)

theorem pokeBoards_due (s : State) (node : Nat) : OnlyDue s (s.pokeBoards node) := by
  refine (OnlyDue.foldl (fun s e => ?_) _ _).trans (State.event_due _ _)
  split
  · exact State.event_due _ _
  · exact .refl s

theorem replayed_pages (s : State) (n node : Nat) (r : Word) : KeepsPages s (s.replayed n node r) := by
  unfold State.replayed
  split
  · exact .refl s
  · exact .trans (t := s.modParish n fun p => { p with replay := p.replay.erase (node, r) })
      (modParish_pages s n (fun _ => rfl) (fun _ => rfl) fun _ => rfl) (pokeBoards_due _ node).pages

theorem accept_pages (s : State) {v : Submission} (h : v.thread = none) (sched : List Word) : KeepsPages s (s.accept v sched) := by
  unfold State.accept
  rw [h]
  refine .trans ?_ ((capture_pages _ _ _).trans (replayed_pages _ _ _ _))
  refine .trans (t := (s.fresh.2).modTask s.fresh.1 fun _ => s.taskOf v sched) (keepsPages_of_parishes rfl) ?_
  apply KeepsPages.foldl
  intro u h
  exact keepsPages_of_parishes rfl

theorem readSchedule_pages (s : State) (v : Submission) : KeepsPages s (s.readSchedule v).1 := readWords_pages _ _ _ _ _

/-- A supervisor is launched from what is read of its record and schedule: it is accepted, or nothing else happens. -/
theorem launchSupervisor_cases (s : State) (chip n b : Nat) : ∃ c r v l, v.thread = none ∧
    ((s.launchSupervisor chip n b).1 = ((s.readWords c n r 64).1.readSchedule v).1 ∨
      (s.launchSupervisor chip n b).1 = ((s.readWords c n r 64).1.readSchedule v).1.accept v l) := by
  suffices ∀ f, f = State.launchSupervisor → ∃ c r v l, v.thread = none ∧ ((f s chip n b).1 = ((s.readWords c n r 64).1.readSchedule v).1 ∨
      (f s chip n b).1 = ((s.readWords c n r 64).1.readSchedule v).1.accept v l) from this _ rfl
  intro f hf
  delta State.launchSupervisor at hf
  subst hf
  beta_reduce
  -- opaque, so that the kernel does not evaluate what is read
  obtain ⟨words, hwords⟩ : ∃ f, f = State.readWords := ⟨_, rfl⟩
  obtain ⟨schedule, hsched⟩ : ∃ f, f = State.readSchedule := ⟨_, rfl⟩
  obtain ⟨code, hcode⟩ : ∃ f, f = State.launchCode := ⟨_, rfl⟩
  rw [← hwords, ← hsched, ← hcode]
  extract_lets h x r
  refine ⟨(s.parish n).replica, r, ?_⟩
  generalize words s (s.parish n).replica n r 64 = w
  obtain ⟨u, ws⟩ := w
  dsimp -zeta only
  extract_lets v
  refine ⟨v, ?_⟩
  generalize schedule u v = w
  obtain ⟨u', sched⟩ := w
  dsimp -zeta only
  refine ⟨sched.getD [], rfl, ?_⟩
  generalize code u' v sched = k
  cases k with
  | succ k => exact .inl rfl
  | zero =>
    show (ite _ (u', 6) (u'.accept v (sched.getD []), 0)).1 = u' ∨ (ite _ (u', 6) (u'.accept v (sched.getD []), 0)).1 = _
    split
    · exact .inl rfl
    · exact .inr rfl

/-- A supervisor's record leaves the page of every parish. -/
theorem launchSupervisor_pages (s : State) (chip n b : Nat) : KeepsPages s (s.launchSupervisor chip n b).1 := by
  obtain ⟨c, r, v, l, hv, h⟩ := launchSupervisor_cases s chip n b
  have hr := (readWords_pages s c n r 64).trans (readSchedule_pages (s.readWords c n r 64).1 v)
  rcases h with h | h
  · rw [h]
    exact hr
  · rw [h]
    exact hr.trans (accept_pages _ hv l)

/-! ### Creation -/

theorem some_of_ite {α : Type} {p : Prop} [Decidable p] {x : Option α} {y : α} (h : (if p then none else x) = some y) : x = some y := by
  split at h
  · exact nomatch h
  · exact h

/-- The page of a parish that has just been built. -/
theorem built_page (s : State) (n : Nat) (p : Parish) (c : Captured) : (((s.modParish n fun _ => p).capture n c).parish n).present = p.present ∧
    (((s.modParish n fun _ => p).capture n c).parish n).hostChip = p.hostChip ∧
    (((s.modParish n fun _ => p).capture n c).parish n).jtail = p.jtail := by
  have h := capture_pages (s.modParish n fun _ => p) n c
  refine ⟨(h.present n).trans ?_, (h.hostChip n).trans ?_, (h.jtail n).trans ?_⟩ <;> rw [State.parish_modParish_self]

theorem buildParish_page {s s1 : State} {chip n b : Nat} (h : s.buildParish chip n b = some s1) :
    (s1.parish n).present = true ∧ (s1.parish n).hostChip = chip ∧ (s1.parish n).jtail = 1 := by
  obtain ⟨free, hfree⟩ : ∃ f, f = State.freeRolls := ⟨_, rfl⟩
  unfold State.buildParish at h
  rw [← hfree] at h
  extract_lets at h
  replace h := some_of_ite h
  split at h
  · exact nomatch h
  · rw [← Option.some.inj h]
    exact built_page _ n _ _

theorem modParish_congr {s : State} {n : Nat} {f g : Parish → Parish} (h : f (s.parish n) = g (s.parish n)) : s.modParish n f = s.modParish n g := by
  rw [State.modParish, State.modParish, h]

section
variable {s : State} {chip n : Nat}

theorem parishCreate_outside (h : 128 ≤ n ∨ (s.chip chip).stage ≠ 7) : exec (.parishCreate chip n) s = .next s := by
  rw [exec_parishCreate, execParishCreate, State.createParish]
  exact next_congr (if_pos h)

section
variable (hn : n < 128) (hs : (s.chip chip).stage = 7)
include hn hs

theorem parishCreate_exists (hp : (s.parish n).present = true) :
    exec (.parishCreate chip n) s = .next (s.modParish n fun p => { p with createCode := 5 }) := by
  rw [exec_parishCreate, execParishCreate, State.createParish]
  refine next_congr ((if_neg (by simp [hn, hs])).trans ((if_pos hp).trans ?_))
  exact modParish_congr (if_pos hp)

variable (s chip n) in
/-- A creation that has failed: the codes stand in pstat. -/
def creationFailed (code launch : Nat) : State :=
  s.modParish n fun p =>
    if p.present then { p with createCode := code } else { p with createCode := code, launchCode := launch, hostChip := chip }

omit hn hs in
theorem creationFailed_parish (hp : (s.parish n).present = false) (code launch : Nat) :
    (creationFailed s chip n code launch).parish n = { s.parish n with createCode := code, launchCode := launch, hostChip := chip } := by
  rw [creationFailed, State.parish_modParish_self]
  exact if_neg (by rw [hp]; decide)

variable (hp : (s.parish n).present = false)
include hp

theorem parishCreate_goes : exec (.parishCreate chip n) s = .next (
    match s.imageCode chip (s.chip chip).pimg.toNat with
    | some c => creationFailed s chip n c 0
    | none =>
      match s.buildParish chip n (s.chip chip).pimg.toNat with
      | none => creationFailed s chip n 4 0
      | some s' =>
        match s'.launchSupervisor chip n (s.chip chip).pimg.toNat with
        | (s', 0) => s'
        | (_, c) => creationFailed s chip n 6 c) := by
  -- opaque, so that the kernel does not evaluate what the image holds
  obtain ⟨code, hcode⟩ : ∃ f, f = State.imageCode := ⟨_, rfl⟩
  obtain ⟨build, hbuild⟩ : ∃ f, f = State.buildParish := ⟨_, rfl⟩
  obtain ⟨launch, hlaunch⟩ : ∃ f, f = State.launchSupervisor := ⟨_, rfl⟩
  rw [exec_parishCreate, execParishCreate, State.createParish, ← hcode, ← hbuild, ← hlaunch]
  exact next_congr ((if_neg (by simp [hn, hs])).trans (if_neg (by simp [hp])))

theorem parishCreate_image {k : Nat} (h : s.imageCode chip (s.chip chip).pimg.toNat = some k) :
    exec (.parishCreate chip n) s = .next (creationFailed s chip n k 0) := by
  rw [parishCreate_goes hn hs hp, h]

theorem parishCreate_reserve (h : s.imageCode chip (s.chip chip).pimg.toNat = none) (hb : s.buildParish chip n (s.chip chip).pimg.toNat = none) :
    exec (.parishCreate chip n) s = .next (creationFailed s chip n 4 0) := by
  rw [parishCreate_goes hn hs hp, h, hb]

theorem parishCreate_launch (h : s.imageCode chip (s.chip chip).pimg.toNat = none) {s1 s2 : State} {k : Nat}
    (hb : s.buildParish chip n (s.chip chip).pimg.toNat = some s1) (hl : s1.launchSupervisor chip n (s.chip chip).pimg.toNat = (s2, k)) :
    exec (.parishCreate chip n) s = .next (if k = 0 then s2 else creationFailed s chip n 6 k) := by
  obtain ⟨launch, hlaunch⟩ : ∃ f, f = State.launchSupervisor := ⟨_, rfl⟩
  rw [← hlaunch] at hl
  rw [parishCreate_goes hn hs hp, h, hb, ← hlaunch]
  dsimp only
  rw [hl]
  cases k <;> rfl

end
end

/-! ### Destruction -/

theorem parishDestroy_absent {s : State} {chip n : Nat} (h : s.pageLive chip n = false) : exec (.parishDestroy chip n) s = .next s := by
  rw [exec_parishDestroy, execParishDestroy, State.destroyParish]
  exact next_congr (if_pos (by rw [h]; rfl))

theorem get_absent {α : Type} {d : α} {m : AMap α} {k : Nat} (h : ∀ e ∈ m, e.1 ≠ k) : AMap.get d m k = d := by
  induction m with
  | nil => rfl
  | cons e m ih => rw [AMap.get, if_neg (h e List.mem_cons_self), ih fun e he => h e (List.mem_cons_of_mem _ he)]

/-- A key whose entry a filter leaves out is not listed. -/
theorem get_filter_dropped {α : Type} [DecidableEq α] {d : α} {m : AMap α} (hm : AMap.wf d m = true) {p : Nat × α → Bool} {k : Nat}
    (h : p (k, AMap.get d m k) = false) : AMap.get d (m.filter p) k = d := by
  induction m with
  | nil => rfl
  | cons e m ih =>
    obtain ⟨j, v⟩ := e
    obtain ⟨-, hj, hm'⟩ := (AMap.wf_cons d j v m).1 hm
    by_cases hk : j = k
    · subst hk
      rw [AMap.get, if_pos rfl] at h
      rw [List.filter_cons_of_neg (by rw [h]; decide)]
      exact get_absent fun e he => Nat.ne_of_gt (hj e (List.mem_of_mem_filter he))
    · rw [AMap.get, if_neg hk] at h
      by_cases hp : p (j, v) = true
      · rw [List.filter_cons_of_pos hp, AMap.get, if_neg hk, ih hm' h]
      · rw [List.filter_cons_of_neg hp, ih hm' h]

/-- What a destruction leaves of a parish. -/
theorem destroyParish_leaves {s : State} {chip n : Nat} (h : s.pageLive chip n = true) (hw : AMap.wf {} s.slots = true) :
    (s.destroyParish chip n).parish n = {} ∧ (∀ e ∈ (s.destroyParish chip n).tasks, e.2.parish ≠ n) ∧
      (∀ e ∈ (s.destroyParish chip n).objs, e.1 / 2 ^ 41 ≠ n) ∧
      ∀ u, (s.slot u).parish = n → (s.parish n).firstChip ≤ chipOfThread u → chipOfThread u < (s.parish n).firstChip + (s.parish n).chips →
        ((s.destroyParish chip n).slot u).state = .free := by
  unfold State.destroyParish
  extract_lets p has ofByte s1 s2
  rw [if_neg (by rw [h]; decide)]
  have hd : OnlyDue s1 (s2.transits.foldl (fun s t => if t.2.refused then s.event (.parcelTransitFailure t.1) else s) s2) := by
    have h2 : OnlyDue s1 s2 := by
      refine .foldl (fun s e => ?_) _ _
      split
      · exact State.event_due _ _
      · exact .refl s
    refine h2.trans (.foldl (fun s e => ?_) _ _)
    split
    · exact State.event_due _ _
    · exact .refl s
  rw [hd.rest]
  refine ⟨AMap.get_drop_self _ _ _, fun e he => ?_, fun e he => ?_, fun u hu h1 h2 => ?_⟩
  · simpa using (List.mem_filter.1 (show e ∈ s.tasks.filter fun e => e.2.parish != n from he)).2
  · simpa using (List.mem_filter.1 (show e ∈ s.objs.filter fun e => e.1 / 2 ^ 41 != n from he)).2
  · have hf := get_filter_dropped hw (p := fun e : Nat × Slot => e.2.parish != n || !has (chipOfThread e.1)) (k := u) (by
      rw [show AMap.get {} s.slots u = s.slot u from rfl, hu]
      simp [has, p, h1, h2])
    exact congrArg Slot.state hf

end Sys2Proof.Machine
end

section
/-! Proofs. The host's steps, together (21 R431 to R438, R447; O58). -/

namespace Sys2Proof.Machine

theorem qtailWrite_rings {s : State} {n : Nat} (h : (s.parish n).present = true) (v : Word) :
    exec (.qtailWrite n v) s = .next ((s.modParish n fun p => { p with qtail := v }).event (.commandEntry n)) := by
  rw [exec_qtailWrite, execQtailWrite, State.writeQtail, if_pos h]

theorem jheadWrite_resumes {s : State} {n : Nat} (h : (s.parish n).present = true) (v : Word) :
    exec (.jheadWrite n v) s = .next ((s.modParish n fun p => { p with jhead := v }).event (.commandEntry n)) := by
  rw [exec_jheadWrite, execJheadWrite, State.writeJhead, if_pos h]

theorem pageWrites_dropped {s : State} {n : Nat} (h : (s.parish n).present = false) (v : Word) :
    exec (.qtailWrite n v) s = .next s ∧ exec (.jheadWrite n v) s = .next s := by
  rw [exec_qtailWrite, execQtailWrite, State.writeQtail, exec_jheadWrite, execJheadWrite, State.writeJhead]
  exact ⟨next_congr (if_neg (by rw [h]; decide)), next_congr (if_neg (by rw [h]; decide))⟩

/-- Settles O58. -/
theorem hostSteps : Obligations.HostSteps := by
  unfold Obligations.HostSteps
  intro s n seq chip v c p w j op version takes taken open' a asked clear stops copies r bad sub unread ends image fails
  have takes_of {due : Instr} (h : TakesEntry s n due) : takes due := by
    obtain ⟨t, h1, h2, h3⟩ := h
    exact ⟨t, h1, h2, h3.jtail, h3.qhead, h3.seqs, h3.captured, fun pa hc hj => h3.journal pa hc hj⟩
  refine ⟨fun hp => ⟨qtailWrite_rings hp v, jheadWrite_resumes hp v⟩, fun hp => ?_, fun h => commandEntry_waits (.inr h),
    fun ⟨hp, hq, hr⟩ => ⟨fun h => takes_of (commandEntry_decides hp hq hr h), fun hv hw => ?_⟩, fun ⟨hc, hw, ho⟩ hop hm => ?_, ?_, ?_,
    fun x bs hb => hostBytes_writeHost s x (hb.trans (by norm_num)), fun hc hop ho => ⟨mark_completes hc hop ho, mark_waits hc⟩,
    fun status detail hc ho => commandCompletion_completes hc ho, parishCreate_outside, fun hn hs => ⟨parishCreate_exists hn hs, fun hp => ?_⟩,
    parishDestroy_absent, fun hl hw => ?_⟩
  · exact ⟨(pageWrites_dropped hp v).1, (pageWrites_dropped hp v).2, commandEntry_waits (.inl hp)⟩
  · obtain ⟨h1, h2, h3, h4⟩ := commandEntry_performs hp hq hr hv hw
    exact ⟨fun h => takes_of (h1 h), fun h => takes_of (h2 h), fun h => takes_of (h3 h), fun h => takes_of (h4 h)⟩
  · have unread_of (h : exec (.launchCommand n seq) s = .next (launchUnread s (hostSubmission s n seq c))) : unread := by
      obtain ⟨h1, h2⟩ := launchUnread_refuses (s := s) (n := n) (seq := seq) (c := c) s
      exact ⟨_, h, h1, h2⟩
    refine ⟨fun hb => unread_of (launchCommand_bad hc hw ho hop hm hb), fun hb he => ?_, fun hb he => ?_⟩
    · exact ⟨_, launchCommand_empty hc hw ho hop hm hb he, by simp [State.laterCommand, State.timer], rfl⟩
    · have e := launchCommand_goes hc hw ho hop hm hb he
      refine ⟨fun h => unread_of (e.trans (next_congr (launchGoes_unreachable _ h))), fun hne h => ?_, fun pa h1 h2 => ?_, fun pa pb h1 h2 => ?_⟩
      · rw [show recordEnd s n c.arg0 c.arg0 = .unbacked from h] at e
        exact e.trans (next_congr (launchGoes_unbacked _ hne))
      · rw [show recordEnd s n c.arg0 c.arg0 = .byte pa from h1, show recordEnd s n c.arg0 (c.arg0 + 511) = .unbacked from h2] at e
        exact e
      · rw [show recordEnd s n c.arg0 c.arg0 = .byte pa from h1, show recordEnd s n c.arg0 (c.arg0 + 511) = .byte pb from h2] at e
        intro read
        refine ⟨fun hn => ?_, fun ws hn => ?_⟩
        · obtain ⟨h1, h2⟩ := launchUnread_refuses (s := s) (n := n) (seq := seq) (c := c) read.1
          exact ⟨_, e.trans (next_congr (launchRead_unread hn)), h1, h2⟩
        · obtain ⟨h1, h2⟩ := launchRead_submits (n := n) (seq := seq) (v := hostSubmission s n seq c) hn
          exact ⟨launchRead n seq (hostSubmission s n seq c) read, e.trans (next_congr rfl), h1, by rw [h2], by rw [h2]; rfl, by rw [h2]; rfl⟩
  · intro bs ⟨hc, hw, ho⟩ hop
    exact copyin_steps hc hw ho hop
  · intro ⟨hc, hw, ho⟩ hop
    exact copyout_steps hc hw ho hop
  · have fails_of {code launch : Nat} (h : exec (.parishCreate chip n) s = .next (creationFailed s chip n code launch)) : fails code launch := by
      have hf := creationFailed_parish (chip := chip) hp code launch
      exact ⟨_, h, by rw [hf]; exact hp, by rw [hf], by rw [hf], rfl, rfl⟩
    refine ⟨fun k h => fails_of (parishCreate_image hn hs hp h), fun h => ⟨fun hb => fails_of (parishCreate_reserve hn hs hp h hb),
      fun s1 s2 k hb hl => ?_⟩⟩
    have e := parishCreate_launch hn hs hp h hb hl
    refine ⟨fun hk => fails_of (e.trans (next_congr (if_neg hk))), fun hk => ⟨e.trans (next_congr (if_pos hk)), ?_⟩⟩
    have hpages := launchSupervisor_pages s1 chip n image
    rw [hl] at hpages
    obtain ⟨h1, h2, h3⟩ := buildParish_page hb
    exact ⟨(hpages.present n).trans h1, (hpages.hostChip n).trans h2, (hpages.jtail n).trans h3⟩
  · exact ⟨_, by rw [exec_parishDestroy, execParishDestroy], destroyParish_leaves hl hw⟩

end Sys2Proof.Machine
end

section
/-! Proofs. The end of an access and of an engine operation leave every chip's own state, and memory canonical (O56, O59). -/

namespace Sys2Proof.Machine

/-- From `s` to `t` memory has stayed canonical, and no chip's state has changed. -/
structure Keeps (s t : State) : Prop where
  ok : s.MemOk → t.MemOk
  chips : t.chips = s.chips

theorem Keeps.refl (s : State) : Keeps s s := ⟨id, rfl⟩

theorem Keeps.trans {s t u : State} (h : Keeps s t) (h' : Keeps t u) : Keeps s u := ⟨fun hs => h'.ok (h.ok hs), h'.chips.trans h.chips⟩

theorem Keeps.foldl {α : Type} {f : State → α → State} (h : ∀ s a, Keeps s (f s a)) (l : List α) (s : State) : Keeps s (l.foldl f s) := by
  induction l generalizing s with
  | nil => exact .refl s
  | cons a l ih => exact (h s a).trans (ih _)

theorem Keeps.chip {s t : State} (h : Keeps s t) (k : Nat) : t.chip k = s.chip k := by rw [State.chip, h.chips]; rfl

theorem keeps_of_eq {s t : State} (hm : t.mem = s.mem) (hc : t.chips = s.chips) : Keeps s t :=
  ⟨fun h => by rw [State.MemOk, hm]; exact h, hc⟩

theorem Keeps.after {s t u : State} (h : Keeps t u) (hm : t.mem = s.mem) (hc : t.chips = s.chips) : Keeps s u := (keeps_of_eq hm hc).trans h

theorem OnlyDue.keeps {s t : State} (h : OnlyDue s t) : Keeps s t := keeps_of_eq (by rw [h.rest]) (by rw [h.rest])

theorem OnlyWrites.keeps {s t : State} (h : OnlyWrites s t) : Keeps s t := ⟨h.ok, by rw [h.rest]⟩

theorem write_keeps (s : State) (l : List (Nat × Byte)) : Keeps s (s.write l) := (write_writes s l).keeps

theorem writeWindow_keeps (s : State) (t x : Nat) (ws : List Word) : Keeps s (s.writeWindow t x ws) := write_keeps _ _

theorem modSlot_keeps (s : State) (t : Nat) (f : Slot → Slot) : Keeps s (s.modSlot t f) := keeps_of_eq rfl rfl

theorem trapIn_keeps (s : State) (t c : Nat) (v : Word) : Keeps s (s.trapIn t c v) := by
  unfold State.trapIn
  dsimp only
  split <;> exact keeps_of_eq rfl rfl

/-! ### Engine operations -/

theorem kick_keeps (s : State) (core : Nat) (e : Engine) : Keeps s (s.kick core e) :=
  keeps_of_eq (keepsContexts_kick s core e).mem (keepsCounts_kick s core e).chips

theorem enqueue_keeps (s : State) (id : Nat) : Keeps s (s.enqueue id) := by
  unfold State.enqueue
  split
  · exact .refl s
  · exact (kick_keeps _ _ _).after rfl rfl

theorem loomIdle_keeps (s : State) (core : Nat) : Keeps s (s.loomIdle core) := keeps_of_eq rfl rfl

theorem leaveQueue_keeps (s : State) (id : Nat) (o : EngOp) : Keeps s (s.leaveQueue id o) := by
  unfold State.leaveQueue
  extract_lets s1 s2 s3 waiting
  have h2 : Keeps s s2 := by
    refine .trans (t := s1) (keeps_of_eq rfl rfl) ?_
    unfold s2
    split
    · exact loomIdle_keeps _ _
    · exact .refl s1
  have h3 : Keeps s s3 := h2.trans (State.wakeIf_due _ _).keeps
  cases waiting with
  | some w => exact h3.trans (enqueue_keeps _ _)
  | none => exact h3.trans (kick_keeps _ _ _)

theorem surfaceTx_keeps (s : State) (id : Nat) (o : EngOp) : Keeps s (s.surfaceTx id o) := by
  unfold State.surfaceTx
  split
  · exact (writeWindow_keeps _ _ _ _).trans (trapIn_keeps _ _ _ _)
  · exact .refl s

theorem surface_keeps (s : State) (id : Nat) : Keeps s (s.surface id) := by
  unfold State.surface
  split
  · exact .refl s
  · split
    · exact surfaceTx_keeps _ _ _
    · exact (State.wakeIf_due _ _).keeps
    · exact .refl s

theorem faultOp_keeps (s : State) (id cause : Nat) (tval : Word) (resume : Nat) (resumes : Bool) :
    Keeps s (s.faultOp id cause tval resume resumes) := by
  unfold State.faultOp
  split
  · exact .refl s
  next o _ =>
  extract_lets s1 s2 joinable s3
  have h2 : Keeps s s2 := .trans (t := s1) (keeps_of_eq rfl rfl) (leaveQueue_keeps _ _ _)
  have h3 : Keeps s s3 := by
    unfold s3
    split
    · exact h2.trans (surface_keeps _ _)
    · exact h2
  split
  · exact .trans h3 (keeps_of_eq rfl rfl)
  · exact h3

/-! ### Accesses -/

theorem resumeChanges_keeps (s : State) (id : Nat) : Keeps s (s.resumeChanges id) := by
  obtain ⟨c, p, h⟩ := s.resumeChanges_frame id
  rw [h]
  exact keeps_of_eq rfl rfl

theorem Moved.keeps {s t : State} (h : Moved s t) : Keeps s t := keeps_of_eq (by rw [h.rest]) (by rw [h.rest])

theorem retireAccess_keeps (s : State) (id : Nat) : Keeps s (s.retireAccess id) := by
  unfold State.retireAccess
  split
  · exact .refl s
  next a _ =>
  extract_lets s1 s2 s3 s4 s5
  have h2 : Keeps s s2 := by
    unfold s2
    split <;> exact keeps_of_eq rfl rfl
  have h3 : Keeps s s3 := by
    refine h2.trans (.foldl (fun s e => ?_) _ _)
    split
    · exact modSlot_keeps _ _ _
    · exact .refl s
  have h4 : Keeps s s4 := ((((h3.trans (State.resumePasses_due _ _).keeps).trans (resumeChanges_keeps _ _)).trans
    (State.pokeTask_due _ _).keeps).trans (State.pokeTurns_moved _ _).keeps)
  have h5 : Keeps s s5 := by
    unfold s5
    split
    · exact h4.trans (State.event_due _ _).keeps
    · exact h4
  obtain ⟨o, l, h⟩ := s5.resumeOps_wake id a.thread _
  rw [h]
  exact h5.trans (keeps_of_eq rfl rfl)

theorem failGroup_keeps (s : State) (g : Nat) : Keeps s (s.failGroup g) := by
  unfold State.failGroup
  split
  · exact .refl s
  · exact keeps_of_eq rfl rfl

theorem markDropped_keeps (s : State) (t : Nat) (a : Word) : Keeps s (s.markDropped t a) := keeps_of_eq rfl rfl

theorem markLost_keeps (s : State) (t r : Nat) (a : Word) : Keeps s (s.markLost t r a) := by
  unfold State.markLost
  split
  · exact markDropped_keeps _ _ _
  split
  · exact .refl s
  · refine .trans (.trans ?_ (write_keeps _ _)) (write_keeps _ _)
    unfold State.modContext
    split <;> exact keeps_of_eq rfl rfl

theorem keepLine_keeps (s : State) (thread key l : Nat) (bs : List Byte) : Keeps s (s.keepLine thread key l bs) := keeps_of_eq rfl rfl

theorem landLine_keeps (s : State) (a : Access) : Keeps s (s.landLine a) := by
  unfold State.landLine
  extract_lets r
  split
  · exact .refl s
  · exact (State.pushOnce_due _ _).keeps.after rfl rfl
  · exact keeps_of_eq rfl rfl
  · split
    · split
      · exact trapIn_keeps _ _ _ _
      · exact .refl s
    · exact keepLine_keeps _ _ _ _ _
  · exact keeps_of_eq rfl rfl
  · extract_lets took s1
    split <;> exact .trans (t := s1) (keeps_of_eq rfl rfl) (State.event_due _ _).keeps

theorem modContext_keeps (s : State) (t r : Nat) (f : Slot → Slot) : Keeps s (s.modContext t r f) := by
  unfold State.modContext
  split <;> exact keeps_of_eq rfl rfl

theorem failWait_keeps {s t : State} {id cause : Nat} {v : RegWait → Word} (h : s.failWait id cause v = some t) : Keeps s t := by
  unfold State.failWait at h
  extract_lets is at h
  split at h
  · rw [← Option.some.inj h]
    exact (trapIn_keeps _ _ _ _).after rfl rfl
  · obtain ⟨e, -, rfl⟩ := Option.map_eq_some_iff.1 h
    exact .trans ((write_keeps _ _).trans ((write_keeps _ _).trans (write_keeps _ _))) (keeps_of_eq rfl rfl)

theorem endAccess_keeps (s : State) (id : Nat) (a : Access) (cause : Nat) : Keeps s (s.endAccess id a cause) := by
  unfold State.endAccess
  extract_lets packets s1 s2 s3
  have h2 : Keeps s s2 := by
    unfold s2
    split
    · refine .trans (t := s1) (keeps_of_eq rfl rfl) (.foldl (fun s e => ?_) _ _)
      split
      · exact markDropped_keeps _ _ _
      · exact .refl s
    · exact keeps_of_eq rfl rfl
  have h3 : Keeps s s3 := (h2.trans (retireAccess_keeps _ _)).trans (failGroup_keeps _ _)
  refine h3.trans ?_
  split
  · exact landLine_keeps _ _
  split
  · exact keeps_of_eq rfl rfl
  split
  · exact trapIn_keeps _ _ _ _
  split
  · next h => exact failWait_keeps h
  split
  · exact (faultOp_keeps _ _ _ _ _ _).after rfl rfl
  split
  · exact .refl s3
  split
  · exact markLost_keeps _ _ _ _
  · exact modContext_keeps _ _ _ _

theorem unreachAccess_keeps (s : State) (id : Nat) : Keeps s (s.unreachAccess id) := by
  unfold State.unreachAccess
  split
  · exact endAccess_keeps _ _ _ _
  · exact .refl s

theorem dropPacket_keeps (s : State) (pk : Nat) : Keeps s (s.dropPacket pk) := keeps_of_eq rfl rfl

theorem unreachPacket_keeps (s : State) (pk : Nat) : Keeps s (s.unreachPacket pk) := by
  unfold State.unreachPacket
  split
  · exact .refl s
  · dsimp only
    refine (dropPacket_keeps s pk).trans ?_
    split
    · exact unreachAccess_keeps _ _
    · exact .foldl (fun s id => unreachAccess_keeps s id) _ _
    · exact .foldl (fun s id => unreachAccess_keeps s id) _ _
    · exact .refl _

theorem failRound_keeps (s : State) (id : Nat) : Keeps s (s.failRound id) := by
  unfold State.failRound
  extract_lets r clear
  split
  · exact .refl s
  · refine .trans (t := { s with rounds := AMap.set {} s.rounds id clear }) (keeps_of_eq rfl rfl) (.foldl (fun s c => ?_) _ _)
    split
    · exact .refl s
    · exact faultOp_keeps _ _ _ _ _ _

theorem loseResult_keeps (s : State) (id chip : Nat) : Keeps s (s.loseResult id chip) := by
  unfold State.loseResult
  refine .foldl (fun s c => ?_) _ _
  split
  · exact .refl s
  · exact faultOp_keeps _ _ _ _ _ _

end Sys2Proof.Machine
end

section
/-! Proofs. What the Ouvval fabric's own state keeps as entries and accesses end (17 R403, R417, R418; O56, O59). -/

namespace Sys2Proof.Machine

/-! ### Ports -/

/-- The port is the same but for its queue, its frames and its next position. -/
def SamePort (p q : Port) : Prop := ∃ l m n, q = { p with queue := l, frames := m, position := n }

theorem SamePort.refl (p : Port) : SamePort p p := ⟨_, _, _, rfl⟩

theorem SamePort.trans {p q r : Port} (h : SamePort p q) (h' : SamePort q r) : SamePort p r := by
  obtain ⟨l, m, n, rfl⟩ := h
  obtain ⟨l', m', n', rfl⟩ := h'
  exact ⟨l', m', n', rfl⟩

/-- The chip has the same tables and reports, and its ports are the same but for their queues and frames. -/
structure SameChip (c d : Chip) : Prop where
  reachable : d.reachable = c.reachable
  relays : d.relays = c.relays
  nextReach : d.nextReach = c.nextReach
  portReports : d.portReports = c.portReports
  ports : ∀ q, SamePort (AMap.get {} c.ports q) (AMap.get {} d.ports q)

theorem SameChip.refl (c : Chip) : SameChip c c := ⟨rfl, rfl, rfl, rfl, fun _ => .refl _⟩

theorem SameChip.trans {c d e : Chip} (h : SameChip c d) (h' : SameChip d e) : SameChip c e :=
  ⟨h'.reachable.trans h.reachable, h'.relays.trans h.relays, h'.nextReach.trans h.nextReach, h'.portReports.trans h.portReports,
    fun q => (h.ports q).trans (h'.ports q)⟩

/-- From `s` to `t` memory has stayed canonical, and every chip has the same tables, reports and ports. -/
structure KeepsFabric (s t : State) : Prop where
  ok : s.MemOk → t.MemOk
  chip : ∀ k, SameChip (s.chip k) (t.chip k)

theorem KeepsFabric.refl (s : State) : KeepsFabric s s := ⟨id, fun _ => .refl _⟩

theorem KeepsFabric.trans {s t u : State} (h : KeepsFabric s t) (h' : KeepsFabric t u) : KeepsFabric s u :=
  ⟨fun hs => h'.ok (h.ok hs), fun k => (h.chip k).trans (h'.chip k)⟩

theorem KeepsFabric.foldl {α : Type} {f : State → α → State} (h : ∀ s a, KeepsFabric s (f s a)) (l : List α) (s : State) :
    KeepsFabric s (l.foldl f s) := by
  induction l generalizing s with
  | nil => exact .refl s
  | cons a l ih => exact (h s a).trans (ih _)

theorem Keeps.fabric {s t : State} (h : Keeps s t) : KeepsFabric s t := ⟨h.ok, fun k => by rw [h.chip]; exact .refl _⟩

theorem OnlyDue.fabric {s t : State} (h : OnlyDue s t) : KeepsFabric s t := h.keeps.fabric

theorem chip_modChip_ne (s : State) {j k : Nat} (h : k ≠ j) (f : Chip → Chip) : (s.modChip j f).chip k = s.chip k :=
  AMap.get_set_ne _ _ _ h

theorem modChip_fabric (s : State) (j : Nat) {f : Chip → Chip} (h : ∀ c, SameChip c (f c)) : KeepsFabric s (s.modChip j f) := by
  refine ⟨id, fun k => ?_⟩
  by_cases hk : k = j
  · rw [hk, State.chip_modChip_self]
    exact h _
  · rw [chip_modChip_ne s hk]
    exact .refl _

theorem KeepsFabric.port {s t : State} (h : KeepsFabric s t) (k q : Nat) : SamePort (s.port k q) (t.port k q) := (h.chip k).ports q

theorem OnlyDue.port {s t : State} (h : OnlyDue s t) (k q : Nat) : t.port k q = s.port k q := by rw [h.rest]; rfl

theorem newEntry_fabric (s : State) (b : EntryBody) (c : Class) (src dst n : Nat) : KeepsFabric s (s.newEntry b c src dst n) :=
  Keeps.fabric (keeps_of_eq rfl rfl)

theorem returnCredit_fabric (s : State) (chip id : Nat) (e : Entry) : KeepsFabric s (s.returnCredit chip id e) := by
  unfold State.returnCredit
  split
  · exact .trans (t := s.modChip chip fun c => { c with relayPlaces := c.relayPlaces.filter (· != id) })
      (modChip_fabric s chip fun c => ⟨rfl, rfl, rfl, rfl, fun _ => .refl _⟩) (newEntry_fabric _ _ _ _ _ _)
  · exact .refl s

theorem addCredit_fabric (s : State) (chip via : Nat) : KeepsFabric s (s.addCredit chip via) :=
  modChip_fabric s chip fun _ => ⟨rfl, rfl, rfl, rfl, fun _ => .refl _⟩

/-- The queues and frames of a chip without an entry. -/
def chipWithout (id : Nat) (c : Chip) : Chip :=
  { c with
    ports := c.ports.map fun q =>
      (q.1, { q.2 with queue := q.2.queue.filter (·.2.2 != id), frames := q.2.frames.filter (·.entry != id) }) }

theorem chipWithout_same (id : Nat) (c : Chip) : SameChip c (chipWithout id c) := by
  refine ⟨rfl, rfl, rfl, rfl, fun q => ?_⟩
  rw [chipWithout, get_map_keys (d := ({} : Port))
    (g := fun _ (p : Port) => { p with queue := p.queue.filter (·.2.2 != id), frames := p.frames.filter (·.entry != id) }) fun _ => rfl]
  exact ⟨_, _, _, rfl⟩

theorem dropEntry_fabric (s : State) (id : Nat) : KeepsFabric s (s.dropEntry id) := by
  unfold State.dropEntry
  split
  · exact .refl s
  next e _ =>
  extract_lets s1 s2 s3
  have h1 : KeepsFabric s s1 := by
    unfold s1
    split
    · exact addCredit_fabric _ _ _
    · exact returnCredit_fabric _ _ _ _
  have h3 : KeepsFabric s s3 := h1.trans (.trans (t := s2) (Keeps.fabric (keeps_of_eq rfl rfl)) (modChip_fabric s2 e.at' (chipWithout_same id)))
  refine h3.trans ?_
  split
  · exact (unreachPacket_keeps _ _).fabric
  · exact .foldl (fun s pk => (unreachPacket_keeps s pk).fabric) _ _
  · exact (State.event_due _ _).fabric
  · exact (State.event_due _ _).fabric
  · exact (State.event_due _ _).fabric
  · exact (State.event_due _ _).fabric
  · exact (failRound_keeps _ _).fabric
  · exact (loseResult_keeps _ _ _).fabric
  · exact .refl s3
  · exact .refl s3
  · exact .refl s3

theorem dropUnreachable_fabric (s : State) (chip : Nat) : KeepsFabric s (s.dropUnreachable chip) := by
  unfold State.dropUnreachable
  extract_lets dead s1 lost s2 s3
  have h1 : KeepsFabric s s1 := .foldl (f := fun s (e : Nat × Entry) => s.dropEntry e.1) (fun s e => dropEntry_fabric s e.1) _ _
  have h2 : KeepsFabric s1 s2 := by
    refine .foldl (fun s a => ?_) _ _
    split
    · exact (endAccess_keeps _ _ _ _).fabric
    · exact .refl s
  have h3 : KeepsFabric s2 s3 := by
    refine .foldl (fun s r => ?_) _ _
    extract_lets cs
    split
    · exact (failRound_keeps _ _).fabric
    · exact .refl s
  refine ((h1.trans h2).trans h3).trans (.foldl (fun s t => ?_) _ _)
  split
  · exact (State.event_due _ _).fabric
  · exact .refl s

/-! ### The choice of a port, relays and slots -/

theorem pokePort_due (s : State) (chip port : Nat) : OnlyDue s (s.pokePort chip port) := by
  unfold State.pokePort
  extract_lets p
  split
  · split
    · refine .foldl (fun s k => ?_) _ _
      split
      · exact State.pushOnce_due _ _
      · exact .refl s
    · exact .refl s
  · exact .refl s

theorem relayAllowed_congr {s t : State} {chip : Nat} (h : ∀ q, SamePort (s.port chip q) (t.port chip q)) (via : Nat) :
    t.relayAllowed chip via = s.relayAllowed chip via := by
  unfold State.relayAllowed
  congr 1
  funext i
  obtain ⟨l, m, n, hp⟩ := h i
  rw [hp]
  rfl

/-- From `s` to `t` only queues, frames and positions of port `port` of `chip` have changed, and steps have been made due. -/
structure ServesPort (s t : State) (chip port : Nat) : Prop where
  mem : t.mem = s.mem
  entries : t.entries = s.entries
  due : ∀ d, d ∈ s.pending → d ∈ t.pending
  others : ∀ k, k ≠ chip → t.chip k = s.chip k
  reachable : (t.chip chip).reachable = (s.chip chip).reachable
  relays : (t.chip chip).relays = (s.chip chip).relays
  portReports : (t.chip chip).portReports = (s.chip chip).portReports
  ports : ∀ q, q ≠ port → t.port chip q = s.port chip q
  port : ∃ m n, t.port chip port = { s.port chip port with frames := m, position := n }

theorem OnlyDue.serves {s t : State} (h : OnlyDue s t) (chip port : Nat) : ServesPort s t chip port := by
  rw [h.rest]
  exact ⟨rfl, rfl, fun _ hd => h.mem hd, fun _ _ => rfl, rfl, rfl, rfl, fun _ _ => rfl, _, _, rfl⟩

theorem ServesPort.trans {s t u : State} {chip port : Nat} (h : ServesPort s t chip port) (h' : ServesPort t u chip port) :
    ServesPort s u chip port := by
  refine ⟨h'.mem.trans h.mem, h'.entries.trans h.entries, fun d hd => h'.due d (h.due d hd), fun k hk => (h'.others k hk).trans (h.others k hk),
    h'.reachable.trans h.reachable, h'.relays.trans h.relays, h'.portReports.trans h.portReports, fun q hq => (h'.ports q hq).trans (h.ports q hq), ?_⟩
  obtain ⟨m, n, e⟩ := h.port
  obtain ⟨m', n', e'⟩ := h'.port
  exact ⟨m', n', by rw [e', e]⟩

theorem modPort_chip (s : State) (chip port : Nat) (f : Port → Port) : (s.modPort chip port f).chip chip =
    { s.chip chip with ports := AMap.set {} (s.chip chip).ports port (f (s.port chip port)) } := State.chip_modChip_self _ _ _

theorem modPort_chip_ne (s : State) {chip k : Nat} (h : k ≠ chip) (port : Nat) (f : Port → Port) :
    (s.modPort chip port f).chip k = s.chip k := chip_modChip_ne s h _

theorem modPort_serves (s : State) (chip port : Nat) {f : Port → Port} (h : ∀ p, ∃ m n, f p = { p with frames := m, position := n }) :
    ServesPort s (s.modPort chip port f) chip port := by
  have hc := modPort_chip s chip port f
  refine ⟨rfl, rfl, fun _ hd => hd, fun k hk => modPort_chip_ne s hk port f, by rw [hc], by rw [hc], by rw [hc],
    fun q hq => port_modPort_ne s chip hq f, ?_⟩
  rw [port_modPort_self]
  exact h _

theorem ServesPort.other {s t : State} {chip port k q : Nat} (h : ServesPort s t chip port) (hk : (k, q) ≠ (chip, port)) :
    t.port k q = s.port k q := by
  by_cases hc : k = chip
  · subst hc
    exact h.ports q fun hq => hk (by rw [hq])
  · rw [State.port, h.others k hc]
    rfl

theorem ServesPort.same {s t : State} {chip port : Nat} (h : ServesPort s t chip port) (k q : Nat) : SamePort (s.port k q) (t.port k q) := by
  by_cases hk : (k, q) = (chip, port)
  · obtain ⟨rfl, rfl⟩ := Prod.mk.inj hk
    obtain ⟨m, n, e⟩ := h.port
    exact ⟨_, m, n, e⟩
  · rw [h.other hk]
    exact .refl _

theorem serveSlot_serves (s : State) (chip port : Nat) : ServesPort s (s.serveSlot chip port) chip port := by
  unfold State.serveSlot
  extract_lets p
  split
  · split
    · next c _ _ =>
      extract_lets n s1
      refine .trans (t := s1) (modPort_serves s chip port fun p => ⟨(p.fly true (·.peer.1 == c)).frames, p.position + n, rfl⟩)
        (OnlyDue.serves ?_ chip port)
      exact (OnlyDue.foldl (fun s _ => State.event_due _ _) _ _).trans (pokePort_due _ _ _)
    · exact (OnlyDue.refl s).serves _ _
  · exact (OnlyDue.refl s).serves _ _

end Sys2Proof.Machine
end

section
/-! Proofs. Send queues and admission (17 R405 to R409, R429; O56). -/

namespace Sys2Proof.Machine

/-! ### Joining a queue -/

theorem modPackets_only (f : Packet → Packet) (l : List Nat) (s : State) :
    ∃ m, l.foldl (fun s pk => s.modPacket pk f) s = { s with packets := m } := by
  induction l generalizing s with
  | nil => exact ⟨_, rfl⟩
  | cons a l ih =>
    obtain ⟨m, h⟩ := ih (s.modPacket a f)
    exact ⟨m, by rw [List.foldl_cons, h]; rfl⟩

/-- In `t` entry `id`, as `e`, has joined the queue of a port, and nothing has left one. -/
structure JoinsQueue (s t : State) (chip port id : Nat) (e : Entry) : Prop where
  mem : t.mem = s.mem
  entries : t.entries = modRec s.entries id fun _ => e
  due : ∀ d, d ∈ s.pending → d ∈ t.pending
  queue : (t.port chip port).queue = (s.port chip port).queue ++ [(e.hop, e.cls, id)]
  places : ∀ k, (t.chip k).relayPlaces = (s.chip k).relayPlaces
  packets : e.body.packets = [] → t.packets = s.packets
  nodes : t.nodes = s.nodes

theorem joinQueue_joins (s : State) (chip port id : Nat) (e : Entry) : JoinsQueue s (s.joinQueue chip port id e) chip port id e := by
  unfold State.joinQueue
  extract_lets s1 s2 s3
  obtain ⟨m, h⟩ := modPackets_only (fun p => { p with loc := .port chip port }) e.body.packets s2
  have hd := pokePort_due s3 chip port
  have h3 : s3 = { s2 with packets := m } := h
  have hport : s3.port chip port = s2.port chip port := by rw [h3]; rfl
  have hchip (k : Nat) : s3.chip k = s2.chip k := by rw [h3]; rfl
  have hpl (k : Nat) : (s2.chip k).relayPlaces = (s1.chip k).relayPlaces := by
    by_cases hk : k = chip
    · rw [hk]
      exact (congrArg Chip.relayPlaces (modPort_chip s1 chip port fun p => { p with queue := p.queue ++ [(e.hop, e.cls, id)] }) :)
    · exact congrArg Chip.relayPlaces (modPort_chip_ne s1 hk port fun p => { p with queue := p.queue ++ [(e.hop, e.cls, id)] })
  generalize s3.pokePort chip port = t at hd
  rw [hd.rest]
  refine ⟨(congrArg State.mem h3 :), (congrArg State.entries h3 :), fun d hdm => hd.mem (by rw [h3]; exact hdm), ?_, fun k => ?_, fun hb => ?_,
    (congrArg State.nodes h3 :)⟩
  · refine (congrArg Port.queue hport).trans ?_
    exact congrArg Port.queue (port_modPort_self s1 chip port fun p => { p with queue := p.queue ++ [(e.hop, e.cls, id)] })
  · exact (congrArg Chip.relayPlaces (hchip k)).trans (hpl k)
  · show s3.packets = s.packets
    exact (congrArg State.packets (congrArg (List.foldl (fun s pk => s.modPacket pk fun p => { p with loc := .port chip port }) s2) hb) :)

theorem dropEntry_parcelOffer {s : State} {id tr : Nat} {e : Entry} (h : s.entry? id = some e) (hb : e.body = .parcelOffer tr) :
    (s.dropEntry id).entry? id = none ∧ Due.event (.parcelTransitFailure tr) ∈ (s.dropEntry id).pending := by
  unfold State.dropEntry
  rw [h]
  dsimp -zeta only
  extract_lets s1 s2 s3
  rw [hb]
  exact ⟨find?_dropRec s1.entries id, due_event _ _⟩

section
variable {s : State} {id : Nat} {e : Entry} (he : s.entry? id = some e) (hop : e.hop ≠ e.at') (hq : ∀ q ∈ (s.chip e.at').ports, q.2.holds id = false)
include he hop hq

theorem entryEnqueue_goes : exec (.entryEnqueue id) s = .next (
    if s.comesAfter id e then s.event (.entryEnqueue id)
    else
      let e := { e with cls := queueClass e.cls }
      match s.choosePort e.at' e.hop e.cls e.frames (s.ordered e.body) with
      | some p => s.joinQueue e.at' p id e
      | none =>
        if e.cls = .relay then s.dropEntry id
        else
          match (s.chip e.at').relays.find? (·.1 == e.dst) with
          | none => s.dropEntry id
          | some (_, via) =>
            match s.choosePort e.at' via .relay e.frames (s.ordered e.body) with
            | some p => s.joinQueue e.at' p id { e with cls := .relay, hop := via }
            | none => s.dropEntry id) := by
  have hiq : s.isQueued e.at' id = false := by
    rw [State.isQueued, List.any_eq_false]
    exact fun q hm => by rw [hq q hm]; decide
  obtain ⟨choose, hch⟩ : ∃ f, f = State.choosePort := ⟨_, rfl⟩
  rw [exec_entryEnqueue, execEntryEnqueue, he, ← hch]
  dsimp only
  rw [hiq, if_neg (by simpa using hop)] <;> rfl

theorem entryEnqueue_waits (h : s.comesAfter id e = true) : exec (.entryEnqueue id) s = .next (s.event (.entryEnqueue id)) :=
  (entryEnqueue_goes he hop hq).trans (next_congr (if_pos h))

variable (hc : s.comesAfter id e = false)
include hc

theorem entryEnqueue_joins {k : Nat} (h : s.choosePort e.at' e.hop (queueClass e.cls) e.frames (s.ordered e.body) = some k) :
    exec (.entryEnqueue id) s = .next (s.joinQueue e.at' k id { e with cls := queueClass e.cls }) := by
  obtain ⟨choose, hch⟩ : ∃ f, f = State.choosePort := ⟨_, rfl⟩
  rw [← hch] at h
  rw [entryEnqueue_goes he hop hq, if_neg (by rw [hc]; decide), ← hch]
  dsimp only
  rw [h]

variable (h : s.choosePort e.at' e.hop (queueClass e.cls) e.frames (s.ordered e.body) = none) (hr : queueClass e.cls ≠ .relay)
include h hr

theorem entryEnqueue_relays {k x via : Nat} (hv : (s.chip e.at').relays.find? (·.1 == e.dst) = some (x, via))
    (hk : s.choosePort e.at' via .relay e.frames (s.ordered e.body) = some k) :
    exec (.entryEnqueue id) s = .next (s.joinQueue e.at' k id { e with cls := .relay, hop := via }) := by
  obtain ⟨choose, hch⟩ : ∃ f, f = State.choosePort := ⟨_, rfl⟩
  rw [← hch] at h hk
  rw [entryEnqueue_goes he hop hq, if_neg (by rw [hc]; decide), ← hch]
  dsimp only
  rw [h]
  dsimp only
  rw [if_neg hr, hv]
  dsimp only
  rw [hk]

theorem entryEnqueue_drops (hv : (s.chip e.at').relays.find? (·.1 == e.dst) = none) :
    exec (.entryEnqueue id) s = .next (s.dropEntry id) := by
  obtain ⟨choose, hch⟩ : ∃ f, f = State.choosePort := ⟨_, rfl⟩
  rw [← hch] at h
  rw [entryEnqueue_goes he hop hq, if_neg (by rw [hc]; decide), ← hch]
  dsimp only
  rw [h]
  dsimp only
  rw [if_neg hr, hv]

end

/-! ### Admission -/

theorem seal_only (p : Port) (id : Nat) (peer : Nat × Nat) : (p.seal id peer).queue = p.queue ∧
    (p.seal id peer).nextFrame = p.nextFrame + 1 ∧ (p.seal id peer).frames.map (·.entry) = p.frames.map (·.entry) ++ [id] := by
  unfold Port.seal
  extract_lets even f p1
  have h : p1.frames.map (·.entry) = p.frames.map (·.entry) ++ [id] := List.map_append
  split
  · exact ⟨rfl, rfl, h⟩
  · exact ⟨rfl, rfl, h⟩

/-- From `p` to `q` the frames of entry `id` have been sealed, `n` of them. -/
structure Seals (p q : Port) (id n : Nat) : Prop where
  queue : q.queue = p.queue
  nextFrame : q.nextFrame = p.nextFrame + n
  frames : q.frames.map (·.entry) = p.frames.map (·.entry) ++ List.replicate n id

theorem port_of_chips {s t : State} (h : t.chips = s.chips) (k q : Nat) : t.port k q = s.port k q := by
  rw [State.port, State.chip, h]
  rfl

theorem sealFrames_seals (s : State) (chip port id : Nat) (peer : Nat × Nat) (n : Nat) :
    Seals (s.port chip port) ((s.sealFrames chip port id peer n).port chip port) id n := by
  unfold State.sealFrames
  induction n with
  | zero => exact ⟨rfl, rfl, (List.append_nil _).symm⟩
  | succ n ih =>
    rw [List.range_succ, List.foldl_append, List.foldl_cons, List.foldl_nil]
    generalize (List.range n).foldl _ s = u at ih ⊢
    have e : ((u.modPort chip port fun p => p.seal id peer).event (.ouvvalFrame chip port true)).port chip port =
        (u.port chip port).seal id peer := port_modPort_self u chip port fun p => p.seal id peer
    obtain ⟨h1, h2, h3⟩ := seal_only (u.port chip port) id peer
    rw [e]
    refine ⟨h1.trans ih.queue, by rw [h2, ih.nextFrame]; omega, ?_⟩
    rw [h3, ih.frames, List.replicate_succ', List.append_assoc]

theorem loadKey_only (p : Port) : ∃ k0 k1 s0 s1 g k w, p.loadKey = { p with key0 := k0, key1 := k1, sealed0 := s0, sealed1 := s1, generation := g, nextKey := k, switching := w } := by
  unfold Port.loadKey
  split
  · exact ⟨_, _, _, _, _, _, _, rfl⟩
  · next key _ =>
    extract_lets b p1
    have h1 : ∃ k0 k1 s0 s1, p1 = { p with key0 := k0, key1 := k1, sealed0 := s0, sealed1 := s1 } := by
      unfold p1
      split <;> exact ⟨_, _, _, _, rfl⟩
    obtain ⟨k0, k1, s0, s1, h1⟩ := h1
    by_cases hf : (if p.version = 2 then p.frames.isEmpty else p.bankFree b) = true
    · exact ⟨k0, k1, s0, s1, _, _, _, (if_pos hf).trans (by rw [h1])⟩
    · exact ⟨_, _, _, _, _, _, _, if_neg hf⟩

/-- The port is the same but for its keys. -/
def SameSends (p q : Port) : Prop :=
  ∃ k0 k1 s0 s1 g k w, q = { p with key0 := k0, key1 := k1, sealed0 := s0, sealed1 := s1, generation := g, nextKey := k, switching := w }

theorem SameSends.refl (p : Port) : SameSends p p := ⟨_, _, _, _, _, _, _, rfl⟩

theorem SameSends.trans {p q r : Port} (h : SameSends p q) (h' : SameSends q r) : SameSends p r := by
  obtain ⟨k0, k1, s0, s1, g, k, w, rfl⟩ := h
  obtain ⟨k0', k1', s0', s1', g', k', w', rfl⟩ := h'
  exact ⟨k0', k1', s0', s1', g', k', w', rfl⟩

theorem port_modPort_other (s : State) {chip port k q : Nat} (h : (k, q) ≠ (chip, port)) (f : Port → Port) :
    (s.modPort chip port f).port k q = s.port k q := by
  by_cases hk : k = chip
  · subst hk
    exact port_modPort_ne s k (fun hq => h (by rw [hq])) f
  · rw [State.port, modPort_chip_ne s hk]
    rfl

theorem takeKey_port (s : State) (chip port : Nat) (key : BitVec 256) (k q : Nat) : SameSends (s.port k q) ((s.takeKey chip port key).port k q) := by
  unfold State.takeKey
  by_cases h : (k, q) = (chip, port)
  · obtain ⟨rfl, rfl⟩ := Prod.mk.inj h
    rw [port_modPort_self]
    split
    · exact loadKey_only { s.port k q with nextKey := some key, switching := true }
    · exact .refl _
  · rw [port_modPort_other s h]
    exact .refl _

theorem updateKeys_port (s : State) (chip port c q : Nat) (key : BitVec 256) (k r : Nat) :
    SameSends (s.port k r) ((s.updateKeys chip port c q key).port k r) := by
  unfold State.updateKeys
  refine .trans (takeKey_port s chip port (Config.linkKey key chip port) k r) (.trans (takeKey_port _ c q (Config.linkKey key c q) k r) ?_)
  exact .refl _

theorem rotateKeys_port (s : State) (chip port k q : Nat) : SameSends (s.port k q) ((s.rotateKeys chip port).port k q) := by
  unfold State.rotateKeys
  split
  · split
    · exact .refl _
    · split
      · exact updateKeys_port _ _ _ _ _ _ _ _
      · exact updateKeys_port _ _ _ _ _ _ _ _
  · exact .refl _

/-- The frames of an admitted entry stand behind those of its port, and it has left the queue. -/
theorem sendEntry_sends (s : State) (chip port id : Nat) (e : Entry) (q : Nat) :
    ((s.sendEntry chip port id e q).port chip port).frames.map (·.entry) = (s.port chip port).frames.map (·.entry) ++ List.replicate e.frames id ∧
    ((s.sendEntry chip port id e q).port chip port).queue = (s.port chip port).queue.filter (·.2.2 != id) ∧
    ((s.sendEntry chip port id e q).port chip port).nextFrame = (s.port chip port).nextFrame + e.frames := by
  unfold State.sendEntry
  extract_lets p s1 s2 s3 s4
  have h1 : (s1.port chip port).queue = p.queue.filter (·.2.2 != id) ∧ (s1.port chip port).frames = p.frames ∧ (s1.port chip port).nextFrame = p.nextFrame := by
    rw [show s1.port chip port = _ from port_modPort_self s chip port _]
    dsimp only
    split <;> exact ⟨rfl, rfl, rfl⟩
  have h2 : s2.port chip port = s1.port chip port := by
    unfold s2
    split
    · rw [State.port, State.chip_modChip_self]
      rfl
    · rfl
  have h3 : Seals (s2.port chip port) (s3.port chip port) id e.frames := sealFrames_seals _ _ _ _ _ _
  have h4 : SameSends (s3.port chip port) (s4.port chip port) := by
    unfold s4
    split
    · exact rotateKeys_port _ _ _ _ _
    · exact .refl _
  have h5 : (s4.pokePort chip port).port chip port = s4.port chip port := port_of_chips (by rw [(pokePort_due s4 chip port).rest]) _ _
  obtain ⟨k0, k1, s0, s1', g, k, w, h4⟩ := h4
  rw [h5, h4]
  refine ⟨?_, ?_, ?_⟩
  · exact h3.frames.trans (by rw [h2, h1.2.1])
  · exact h3.queue.trans (by rw [h2, h1.1])
  · exact h3.nextFrame.trans (by rw [h2, h1.2.2])

section
variable {s : State} {chip port cls position k q x id : Nat} {y : Class} {e : Entry} (hp : (s.port chip port).peer = some (k, q))
  (hs : (s.port chip port).sending = true) (hpos : (s.port chip port).nextFree k (classOf cls) ≤ position) (hcls : cls ≤ 3)
  (h0 : cls = 0 → position % 8 = 7) (hctl : 0 < cls → (s.port chip port).control ≤ position → (s.port chip port).controlWaits k = false)
  (hsw : (s.port chip port).version = 2 → (s.port chip port).switching = false) (hahead : (s.port chip port).headAhead k cls = false)
  (hclosed : (s.port chip port).closed.contains (k, classOf cls) = false)
  (hfind : ((s.port chip port).queue.find? fun v => v.1 == k && classNum v.2.1 == cls) = some (x, y, id)) (he : s.entry? id = some e)
  (hcr : e.cls ≠ .relay ∨ e.relayed = true) (hused : (s.port chip port).used + e.frames < 2 ^ 40)
include hp hs hpos hcls h0 hctl hsw hahead hclosed hfind he hcr hused

theorem entryAdmission_goes : exec (.entryAdmission chip port cls position) s = .next (
    if (s.port chip port).fits position e.frames then s.sendEntry chip port id e position
    else (s.modPort chip port fun p => { p with closed := p.closed ++ [(k, classOf cls)] }).pokePort chip port) := by
  rw [exec_entryAdmission, execEntryAdmission]
  dsimp only
  rw [hp]
  dsimp only
  have hcond : (!(s.port chip port).sending || decide (position < (s.port chip port).nextFree k (classOf cls)) || decide (3 < cls) ||
      (decide (cls = 0) && position % 8 != 7) || (decide (0 < cls ∧ (s.port chip port).control ≤ position) && (s.port chip port).controlWaits k) ||
      (s.port chip port).headAhead k cls || (s.port chip port).closed.contains (k, classOf cls) ||
      (decide ((s.port chip port).version = 2) && (s.port chip port).switching)) = false := by
    have a1 : (decide (cls = 0) && position % 8 != 7) = false := by
      by_cases h : cls = 0
      · simp [h0 h]
      · simp [h]
    have a2 : (decide (0 < cls ∧ (s.port chip port).control ≤ position) && (s.port chip port).controlWaits k) = false := by
      by_cases h : 0 < cls ∧ (s.port chip port).control ≤ position
      · rw [hctl h.1 h.2, Bool.and_false]
      · rw [decide_eq_false h, Bool.false_and]
    have a3 : (decide ((s.port chip port).version = 2) && (s.port chip port).switching) = false := by
      by_cases h : (s.port chip port).version = 2
      · rw [hsw h, Bool.and_false]
      · rw [decide_eq_false h, Bool.false_and]
    rw [a1, a2, a3, hs, hahead, hclosed, decide_eq_false (Nat.not_lt.2 hpos), decide_eq_false (Nat.not_lt.2 hcls)]
    rfl
  rw [hcond, if_neg (by decide), hfind]
  dsimp only
  rw [he]
  dsimp only
  have hcredit : (decide (e.cls ≠ .relay) || e.relayed || decide (0 < AMap.get 0 (s.chip chip).credits k)) = true := by
    rcases hcr with h | h
    · rw [decide_eq_true h]; rfl
    · rw [h, Bool.or_true]; rfl
  rw [hcredit, decide_eq_true hused, Bool.and_true, Bool.and_true]

end

end Sys2Proof.Machine
end

section
/-! Proofs. Frames of the Ouvval fabric (17 R408, R411, R414; O56). -/

namespace Sys2Proof.Machine

theorem frames_loadKey (p : Port) : p.loadKey.frames = p.frames := by
  obtain ⟨k0, k1, s0, s1, g, k, w, h⟩ := loadKey_only p
  rw [h]

theorem dropFrame_frames (s : State) (chip port number : Nat) :
    ((s.dropFrame chip port number).port chip port).frames = (s.port chip port).frames.filter (·.number != number) := by
  rw [State.dropFrame, port_modPort_self, frames_loadKey]

theorem takeAnswer_good (s : State) (chip port n : Nat) :
    ((s.takeAnswer chip port n true).port chip port).frames = (s.port chip port).frames.filter (·.number != n) := by
  have h : (s.takeAnswer chip port n true).chips = (s.dropFrame chip port n).chips := by
    rw [State.takeAnswer, if_pos rfl, (pokePort_due _ chip port).rest]
  rw [port_of_chips h, dropFrame_frames]

theorem takeAnswer_bad (s : State) (chip port n : Nat) : s.takeAnswer chip port n false = s.event (.negativeAcknowledgement chip port) := rfl

/-! ### A frame reaches its receiver -/

section
variable {s : State} {chip port : Nat} {ok : Bool} {f : Frame}

theorem ouvvalFrame_none (h : s.frameDue (s.port chip port) = none) : exec (.ouvvalFrame chip port ok) s = .next s := by
  rw [exec_ouvvalFrame, execOuvvalFrame]
  dsimp only
  rw [h]

theorem ouvvalFrame_goes (h : s.frameDue (s.port chip port) = some f) : exec (.ouvvalFrame chip port ok) s = .next (
    if ((s.port chip port).unreceived f.peer.1).any fun g => decide (g.number < f.number) && !g.flying then
      s.modPort chip port fun p => p.fly false (·.number == f.number)
    else if ok && (s.port chip port).opens f then s.takeFrame chip port f
    else if s.isMarker f then (s.dropFrame chip port f.number).dropEntryRec f.entry
    else (s.modPort chip port fun p => p.fly false (·.number == f.number)).answerFrame chip port f false) := by
  rw [exec_ouvvalFrame, execOuvvalFrame]
  dsimp only
  rw [h]

/-- A frame behind one that has failed is discarded. -/
theorem ouvvalFrame_behind (h : s.frameDue (s.port chip port) = some f)
    (hb : ∃ g ∈ (s.port chip port).unreceived f.peer.1, g.number < f.number ∧ g.flying = false) : exec (.ouvvalFrame chip port ok) s =
      .next (s.modPort chip port fun p => p.fly false (·.number == f.number)) := by
  obtain ⟨g, hg, hn, hf⟩ := hb
  refine (ouvvalFrame_goes h).trans (next_congr (if_pos (List.any_eq_true.2 ⟨g, hg, ?_⟩)))
  rw [decide_eq_true hn, hf]
  rfl

variable (h : s.frameDue (s.port chip port) = some f)
  (hb : ∀ g ∈ (s.port chip port).unreceived f.peer.1, g.number < f.number → g.flying = true)
include h hb

theorem ouvvalFrame_first : exec (.ouvvalFrame chip port ok) s = .next (
    if ok && (s.port chip port).opens f then s.takeFrame chip port f
    else if s.isMarker f then (s.dropFrame chip port f.number).dropEntryRec f.entry
    else (s.modPort chip port fun p => p.fly false (·.number == f.number)).answerFrame chip port f false) := by
  refine (ouvvalFrame_goes h).trans (next_congr (if_neg ?_))
  rw [Bool.not_eq_true, List.any_eq_false]
  intro g hg
  by_cases hn : g.number < f.number
  · rw [hb g hg hn, Bool.not_true, Bool.and_false]
    decide
  · rw [decide_eq_false hn, Bool.false_and]
    decide

/-- A frame that its receiver cannot open is answered, unless it carries the marker. -/
theorem ouvvalFrame_discards (ho : ok = false ∨ (s.port chip port).opens f = false) : exec (.ouvvalFrame chip port ok) s = .next (
    if s.isMarker f then (s.dropFrame chip port f.number).dropEntryRec f.entry
    else (s.modPort chip port fun p => p.fly false (·.number == f.number)).answerFrame chip port f false) := by
  refine (ouvvalFrame_first h hb).trans (next_congr (if_neg ?_))
  rcases ho with ho | ho <;> rw [ho] <;> simp

theorem ouvvalFrame_takes (ho : (s.port chip port).opens f = true) : exec (.ouvvalFrame chip port true) s = .next (s.takeFrame chip port f) :=
  (ouvvalFrame_first h hb).trans (next_congr (if_pos (by rw [ho]; rfl)))

end

/-! ### A frame is taken -/

section
variable {s : State} {chip port : Nat} {f : Frame} {e : Entry} (he : s.entry? f.entry = some e)
include he

theorem takeFrame_marker (hb : e.body = .drainMarker) : s.takeFrame chip port f =
    ((s.dropFrame chip port f.number).dropEntryRec f.entry).modPort f.peer.1 f.peer.2 fun v => { v with drainSeen := true } := by
  rw [State.takeFrame, he]
  dsimp only
  rw [hb]

theorem takeFrame_answer {k q m : Nat} {good : Bool} (hb : e.body = .frameAck k q m good) : s.takeFrame chip port f =
    ((s.dropFrame chip port f.number).dropEntryRec f.entry).takeAnswer k q m good := by
  rw [State.takeFrame, he]
  dsimp only
  rw [hb]

omit he in
variable (f) in
/-- A frame as it stands once frame `f` has been received. -/
def frameGot (g : Frame) : Frame := if g.number = f.number then { g with flying := false, received := true } else g

omit he in
variable (s chip port f) in
/-- The state in which frame `f` has been received. -/
def frameReceived : State := s.modPort chip port fun p => { p with frames := p.frames.map (frameGot f) }

omit he in
variable (s chip port f) in
/-- A frame of the same entry is still to be received. -/
def frameLeft : Prop := ∃ g ∈ (s.port chip port).frames, g.number ≠ f.number ∧ g.entry = f.entry ∧ g.received = false

omit he in
theorem frameLeft_iff : ((frameReceived s chip port f).port chip port).frames.any (fun g => g.entry == f.entry && !g.received) = true ↔
    frameLeft s chip port f := by
  rw [frameReceived, port_modPort_self, List.any_map, List.any_eq_true]
  refine exists_congr fun g => and_congr_right fun _ => ?_
  rw [Function.comp, frameGot]
  by_cases hn : g.number = f.number
  · rw [if_pos hn]
    simp [hn]
  · rw [if_neg hn]
    simp [hn]

theorem takeFrame_takes (h1 : e.body ≠ .drainMarker) (h2 : ∀ k q m good, e.body ≠ .frameAck k q m good) : s.takeFrame chip port f =
    (if f.received || ((frameReceived s chip port f).port chip port).frames.any (fun g => g.entry == f.entry && !g.received) then
      frameReceived s chip port f
    else ((frameReceived s chip port f).returnCredit chip f.entry e).arriveEntry f.entry e).answerFrame chip port f true := by
  rw [State.takeFrame, he]
  dsimp only
  split
  · next hb => exact absurd hb h1
  · next hb => exact absurd hb (h2 _ _ _ _)
  · rfl

theorem takeFrame_waits (h1 : e.body ≠ .drainMarker) (h2 : ∀ k q m good, e.body ≠ .frameAck k q m good)
    (h : f.received = true ∨ frameLeft s chip port f) : s.takeFrame chip port f = (frameReceived s chip port f).answerFrame chip port f true := by
  rw [takeFrame_takes he h1 h2, if_pos]
  rw [Bool.or_eq_true, frameLeft_iff]
  exact h

/-- With its last frame an entry arrives. -/
theorem takeFrame_arrives (h1 : e.body ≠ .drainMarker) (h2 : ∀ k q m good, e.body ≠ .frameAck k q m good) (h : f.received = false)
    (hl : ¬ frameLeft s chip port f) (hp : f.entry ∉ (s.chip chip).relayPlaces) :
    s.takeFrame chip port f = ((frameReceived s chip port f).arriveEntry f.entry e).answerFrame chip port f true := by
  have hpl : ((frameReceived s chip port f).chip chip).relayPlaces = (s.chip chip).relayPlaces := by rw [frameReceived, modPort_chip]
  rw [takeFrame_takes he h1 h2, if_neg, State.returnCredit, if_neg]
  · rw [hpl, List.contains_eq_mem]
    simpa using hp
  · rw [Bool.or_eq_true, frameLeft_iff, h]
    simpa using hl

end

/-! ### Answers and arrivals -/

/-- The answer to a frame joins the queue of its port; nothing else leaves one. -/
structure Answers (s t : State) (chip port n : Nat) (good : Bool) : Prop where
  due : ∀ d, d ∈ s.pending → d ∈ t.pending
  places : ∀ k, (t.chip k).relayPlaces = (s.chip k).relayPlaces
  packets : t.packets = s.packets
  entry : ∀ k, k < s.nextId → t.entry? k = s.entry? k
  answer : ∃ x ∈ t.entries, x.2.body = .frameAck chip port n good

theorem answerFrame_answers (s : State) (chip port : Nat) (f : Frame) (good : Bool) : Answers s (s.answerFrame chip port f good) chip port f.number good := by
  have hj := joinQueue_joins { s with nextId := s.nextId + 1, entries := s.entries ++ [(s.nextId, controlEntry (.frameAck chip port f.number good) f.peer.1 chip)] }
    f.peer.1 f.peer.2 s.nextId (controlEntry (.frameAck chip port f.number good) f.peer.1 chip)
  have e : s.answerFrame chip port f good = State.joinQueue { s with nextId := s.nextId + 1, entries := s.entries ++ [(s.nextId, controlEntry (.frameAck chip port f.number good) f.peer.1 chip)] }
    f.peer.1 f.peer.2 s.nextId (controlEntry (.frameAck chip port f.number good) f.peer.1 chip) := rfl
  rw [e]
  refine ⟨hj.due, hj.places, hj.packets rfl, fun k hk => ?_, ?_⟩
  · rw [State.entry?, hj.entries, find?_modRec_ne _ _ (by omega)]
    exact find?_append_ne _ _ (by omega)
  · refine ⟨(s.nextId, controlEntry (.frameAck chip port f.number good) f.peer.1 chip), ?_, rfl⟩
    rw [hj.entries, modRec]
    exact List.mem_map.2 ⟨(s.nextId, controlEntry (.frameAck chip port f.number good) f.peer.1 chip),
      List.mem_append_right _ (List.mem_singleton.2 rfl), if_pos (beq_self_eq_true s.nextId)⟩

theorem arriveEntry_relays (s : State) (id : Nat) {e : Entry} (h : e.hop ≠ e.dst) :
    id ∈ ((s.arriveEntry id e).chip e.hop).relayPlaces ∧ Due.event (.relayEntry id) ∈ (s.arriveEntry id e).pending := by
  unfold State.arriveEntry
  extract_lets s1
  rw [if_pos h]
  refine ⟨?_, due_event _ _⟩
  show id ∈ ((s1.modChip e.hop fun c => { c with relayPlaces := c.relayPlaces ++ [id] }).chip e.hop).relayPlaces
  rw [State.chip_modChip_self]
  exact List.mem_append_right _ (List.mem_singleton.2 rfl)

theorem arriveEntry_crosses {s : State} {id pk : Nat} {e : Entry} {v : Packet} (h : e.hop = e.dst) (hb : e.body = .packet pk) (hv : s.packet? pk = some v) :
    (s.arriveEntry id e).packet? pk = some { v with loc := .seam (belfryOf v.dst) 5, epoch := (s.node (belfryOf v.dst)).epoch, left := s.flits v.payload } ∧
    (s.arriveEntry id e).entry? id = none ∧ Due.event (.gatewayFrame pk true) ∈ (s.arriveEntry id e).pending ∧
    (s.arriveEntry id e).nextId = s.nextId := by
  have e1 : s.arriveEntry id e = ((s.modEntry id fun e => { e with at' := e.hop }).dropEntryRec id).enterMesh pk := by
    rw [State.arriveEntry, if_neg (not_not.2 h), hb]
    rfl
  generalize hw : (s.modEntry id fun e => { e with at' := e.hop }).dropEntryRec id = w at e1
  have hwp : w.packet? pk = some v := by rw [← hw]; exact hv
  have hn : w.node (belfryOf v.dst) = s.node (belfryOf v.dst) := by rw [← hw]; rfl
  have hent : w.entry? id = none := by rw [← hw]; exact find?_dropRec _ _
  have hid : w.nextId = s.nextId := by rw [← hw]; rfl
  have hfl : w.flits v.payload = s.flits v.payload := by rw [← hw]; rfl
  have e2 : w.enterMesh pk = (w.modPacket pk fun q => { q with epoch := (w.node (belfryOf v.dst)).epoch }).joinGateway (belfryOf v.dst) 5 pk := by
    rw [State.enterMesh, hwp]
  obtain ⟨h1, -, h3⟩ := joinGateway_joins (packet?_modPacket hwp fun q => { q with epoch := (w.node (belfryOf v.dst)).epoch }) (belfryOf v.dst) 5
  rw [e1, e2]
  refine ⟨h1.trans ?_, hent, h3, hid⟩
  rw [← hn, ← hfl]
  rfl

end Sys2Proof.Machine
end

section
/-! Proofs. Replay, slots, hellos and relocking (17 R402, R404, R411, R423; O56). -/

namespace Sys2Proof.Machine

/-! ### Replay -/

section
variable {s : State} {chip port k q : Nat} {f : Frame} {r : List Frame} (hs : (s.port chip port).sending = true)
  (hp : (s.port chip port).peer = some (k, q)) (hf : (((s.port chip port).unreceived k).filter fun g => !g.flying) = f :: r)

variable (s chip port k f) in
/-- The failed frame and every later one are on the fibre again. -/
def framesReplayed : State :=
  s.modPort chip port fun p =>
    Port.fly { p with frames := p.frames.map fun g => if g.number = f.number then { g with failures := g.failures + 1 } else g } true
      fun g => g.peer.1 == k && !g.received

include hs hp hf

theorem negativeAcknowledgement_goes : exec (.negativeAcknowledgement chip port) s = .next (
    if f.failures + 1 < 16 then
      (List.range ((s.port chip port).unreceived k).length).foldl (fun s _ => s.event (.ouvvalFrame chip port true)) (framesReplayed s chip port k f)
    else s.failPort chip port) := by
  rw [exec_negativeAcknowledgement, execNegativeAcknowledgement]
  dsimp only
  rw [hp]
  dsimp only
  rw [hs, if_neg (by decide), hf]
  rfl

theorem negativeAcknowledgement_replays (h : f.failures < 15) : ∃ t, exec (.negativeAcknowledgement chip port) s = .next t ∧
    (t.port chip port).frames = ((s.port chip port).frames.map fun g =>
      if g.number = f.number then { g with failures := g.failures + 1 } else g).map (fun g =>
        if g.peer.1 == k && !g.received then { g with flying := true } else g) ∧
    Due.event (.ouvvalFrame chip port true) ∈ t.pending := by
  have e := negativeAcknowledgement_goes hs hp hf
  rw [if_pos (by omega)] at e
  have hd := OnlyDue.foldl (f := fun (s : State) (_ : Nat) => s.event (.ouvvalFrame chip port true)) (fun s _ => State.event_due _ _)
    (List.range ((s.port chip port).unreceived k).length) (framesReplayed s chip port k f)
  refine ⟨_, e, ?_, ?_⟩
  · rw [hd.port, framesReplayed, port_modPort_self]
    rfl
  · obtain ⟨n, hn⟩ : ∃ n, ((s.port chip port).unreceived k).length = n + 1 := by
      have hm : f ∈ (s.port chip port).unreceived k := List.mem_of_mem_filter (hf ▸ List.mem_cons_self)
      exact Nat.exists_eq_add_one.2 (List.length_pos_of_mem hm)
    rw [hn, List.range_succ, List.foldl_append]
    exact due_event _ _

theorem negativeAcknowledgement_fails (h : 15 ≤ f.failures) : exec (.negativeAcknowledgement chip port) s = .next (s.failPort chip port) :=
  (negativeAcknowledgement_goes hs hp hf).trans (next_congr (if_neg (by omega)))

end

theorem failPort_fails (s : State) (chip port : Nat) : ((s.failPort chip port).port chip port).failed = true ∧
    ((s.failPort chip port).port chip port).locked = false ∧
    ((s.failPort chip port).chip chip).checks = (s.chip chip).checks ++ [⟨chip * 24576, 4, BitVec.ofNat 64 port⟩] := by
  unfold State.failPort
  have hp := port_modPort_self s chip port fun p => { p with failed := true, locked := false, lit := false }
  have hc : ((s.modPort chip port fun p => { p with failed := true, locked := false, lit := false }).chip chip).checks = (s.chip chip).checks := by
    rw [modPort_chip]
  generalize s.modPort chip port _ = u at hp hc
  have hk := checks_machineCheck u (chip * 24576) 4 (BitVec.ofNat 64 port)
  have hpm : (u.machineCheck (chip * 24576) 4 (BitVec.ofNat 64 port)).port chip port = u.port chip port := by
    have e : u.machineCheck (chip * 24576) 4 (BitVec.ofNat 64 port) = u.modChip chip fun c => { c with checks := c.checks ++ [⟨chip * 24576, 4, BitVec.ofNat 64 port⟩] } := by
      rw [State.machineCheck, chipOfNode_first]
    rw [e, State.port, State.chip_modChip_self]
    rfl
  rw [chipOfNode_first] at hk
  rw [hpm, hp, hk, hc]
  exact ⟨rfl, rfl, rfl⟩

/-! ### Slots -/

/-- A slot that opens toward a peer whose own has not begun: the hello waits on its fibre. -/
structure OpensSlot (s t : State) (chip port : Nat) : Prop where
  own : t.port chip port = { s.port chip port with listening := true }
  hello : ∀ k q, (s.port chip port).facedNow = some (k, q) → (t.port k q).fibre =
    some { chip := chip, port := port, slot := (s.port chip port).slot, rotation := BitVec.ofNat 16 (s.port chip port).rotation }
  entries : t.entries = s.entries
  portReports : (t.chip chip).portReports = (s.chip chip).portReports

theorem modPort_portReports (s : State) (chip port k : Nat) (f : Port → Port) :
    ((s.modPort chip port f).chip k).portReports = (s.chip k).portReports := by
  by_cases hk : k = chip
  · rw [hk, modPort_chip]
  · rw [modPort_chip_ne s hk]

theorem openSlot_opens {s : State} {chip port : Nat} (hf : (s.port chip port).fibre = none)
    (hl : ∀ k q, (s.port chip port).facedNow = some (k, q) → (k, q) ≠ (chip, port) ∧ (s.port k q).listening = false) :
    OpensSlot s (s.openSlot chip port) chip port := by
  unfold State.openSlot
  extract_lets p s1 s2 q
  have e2 : s2 = s1.modPort chip port fun p => { p with listening := true } := by
    unfold s2
    rw [show p.fibre = none from hf]
  have h1 : s1.port chip port = s.port chip port ∧ s1.entries = s.entries ∧ (s1.chip chip).portReports = (s.chip chip).portReports ∧
      ∀ k q, p.facedNow = some (k, q) → (s1.port k q).fibre = some { chip := chip, port := port, slot := p.slot, rotation := BitVec.ofNat 16 p.rotation } := by
    unfold s1
    cases hp : p.facedNow with
    | none => exact ⟨rfl, rfl, rfl, fun k q h => nomatch h⟩
    | some kq =>
      obtain ⟨k, q⟩ := kq
      obtain ⟨hne, hli⟩ := hl k q hp
      dsimp only
      rw [State.deliverHello, if_neg (by rw [hli]; decide)]
      refine ⟨port_modPort_other s (Ne.symm hne) _, rfl, modPort_portReports _ _ _ _ _, fun k' q' h => ?_⟩
      obtain ⟨rfl, rfl⟩ := Prod.mk.inj (Option.some.inj h)
      rw [port_modPort_self]
  obtain ⟨h1, h3, h4, h5⟩ := h1
  have hp2 : s2.port chip port = { s.port chip port with listening := true } := by rw [e2, port_modPort_self, h1]
  refine ⟨hp2, fun k q h => ?_, ?_, ?_⟩
  · have hne := (hl k q h).1
    show (s2.port k q).fibre = _
    rw [e2, port_modPort_other s1 hne]
    exact h5 k q h
  · show s2.entries = _
    rw [e2]
    exact h3
  · show (s2.chip chip).portReports = _
    rw [e2, modPort_portReports, h4]

section
variable {s : State} {chip port since : Nat}

theorem slotStart_dark (h : (s.port chip port).isDark = true) : exec (.slotStart chip port since) s = .next s := by
  rw [exec_slotStart, execSlotStart]
  exact next_congr (if_pos h)

theorem darkPeriodMissed_dark (h : (s.port chip port).isDark = true) : exec (.darkPeriodMissed chip port) s = .next s := by
  rw [exec_darkPeriodMissed, execDarkPeriodMissed]
  exact next_congr (if_pos (by rw [h]; rfl))

variable (hd : (s.port chip port).isDark = false)
include hd

theorem slotStart_leaves (hl : (s.port chip port).lastSlot = true) (hs : (s.port chip port).drainSent = false) :
    exec (.slotStart chip port since) s = .next (s.leaveTables chip port) := by
  rw [exec_slotStart, execSlotStart]
  exact next_congr ((if_neg (by rw [hd]; decide)).trans (if_pos (by rw [hl, hs]; rfl)))

theorem darkPeriodMissed_leaves (hk : (s.port chip port).locked = true) (hl : (s.port chip port).lastSlot = true)
    (hs : (s.port chip port).drainSent = false) : exec (.darkPeriodMissed chip port) s = .next (s.leaveTables chip port) := by
  rw [exec_darkPeriodMissed, execDarkPeriodMissed]
  exact next_congr ((if_neg (by rw [hd, hk]; decide)).trans (if_pos (by rw [hl, hs]; rfl)))

omit hd in
theorem not_leaving {p : Port} (h : p.lastSlot = false ∨ p.drainSent = true) : ¬ (p.lastSlot && !p.drainSent) = true := by
  rcases h with h | h <;> simp [h]

theorem slotStart_starts (hl : (s.port chip port).lastSlot = false ∨ (s.port chip port).drainSent = true) :
    exec (.slotStart chip port since) s = .next (
      let u := (s.modPort chip port fun p => { p.advance with
        goodDarks := if decide ((s.port chip port).slotLength + 25 ≤ since + 1 ∧ since ≤ (s.port chip port).slotLength + 25 + 1) then 2 else 1,
        missed := 0 }).openSlot chip port
      if (s.port chip port).locked then u.serveSlot chip port else u) := by
  rw [exec_slotStart, execSlotStart]
  exact next_congr ((if_neg (by rw [hd]; decide)).trans (if_neg (not_leaving hl)))

theorem darkPeriodMissed_goes (hk : (s.port chip port).locked = true)
    (hl : (s.port chip port).lastSlot = false ∨ (s.port chip port).drainSent = true) : exec (.darkPeriodMissed chip port) s = .next (
      let u := (s.modPort chip port fun p => { p.advance with missed := p.missed + 1 }).openSlot chip port
      if 2 ≤ (s.port chip port).missed + 1 then u.unlock chip port else u.serveSlot chip port) := by
  rw [exec_darkPeriodMissed, execDarkPeriodMissed]
  exact next_congr ((if_neg (by rw [hd, hk]; decide)).trans (if_neg (not_leaving hl)))

end

theorem unlock_unlocks (s : State) (chip port : Nat) : ((s.unlock chip port).port chip port).locked = false ∧
    ((s.unlock chip port).chip chip).portReports = (s.chip chip).portReports ++ [port] := by
  unfold State.unlock
  have hp := port_modPort_self s chip port fun p => { p with locked := false, goodDarks := 0 }
  have hr := modPort_portReports s chip port chip fun p => { p with locked := false, goodDarks := 0 }
  generalize s.modPort chip port _ = u at hp hr
  rw [State.port, State.chip_modChip_self]
  exact ⟨congrArg Port.locked hp, congrArg (· ++ [port]) hr⟩

/-- The port is the same but for its marker and what it has sealed. -/
def SameSlots (p q : Port) : Prop :=
  ∃ m fr n s0 s1, q = { p with marked := m, frames := fr, nextFrame := n, sealed0 := s0, sealed1 := s1 }

theorem SameSlots.trans {p q r : Port} (h : SameSlots p q) (h' : SameSlots q r) : SameSlots p r := by
  obtain ⟨m, fr, n, s0, s1, rfl⟩ := h
  obtain ⟨m', fr', n', s0', s1', rfl⟩ := h'
  exact ⟨m', fr', n', s0', s1', rfl⟩

theorem seal_slots (p : Port) (id : Nat) (peer : Nat × Nat) : SameSlots p (p.seal id peer) := by
  unfold Port.seal
  extract_lets even f p1
  split <;> exact ⟨_, _, _, _, _, rfl⟩

/-- The marker that ends the tables of a port has gone: it is an entry of its own. -/
structure MarkerSent (s t : State) (chip port : Nat) : Prop where
  own : SameSlots (s.port chip port) (t.port chip port)
  others : ∀ k q, (k, q) ≠ (chip, port) → t.port k q = s.port k q
  portReports : (t.chip chip).portReports = (s.chip chip).portReports
  entry : (s.port chip port).marked = false → (s.port chip port).peer ≠ none → ∃ x ∈ t.entries, x.2.body = .drainMarker

theorem sealFrames_one (s : State) (chip port id : Nat) (peer : Nat × Nat) : s.sealFrames chip port id peer 1 =
    (s.modPort chip port fun p => p.seal id peer).event (.ouvvalFrame chip port true) := rfl

theorem sendMarker_sends (s : State) (chip port : Nat) : MarkerSent s (s.sendMarker chip port) chip port := by
  unfold State.sendMarker
  extract_lets p s1
  have h1 : s1.port chip port = { p with marked := true } := port_modPort_self s chip port fun p => { p with marked := true }
  have h2 (k q : Nat) (h : (k, q) ≠ (chip, port)) : s1.port k q = s.port k q := port_modPort_other s h fun p => { p with marked := true }
  have h3 : (s1.chip chip).portReports = (s.chip chip).portReports := modPort_portReports s chip port chip fun p => { p with marked := true }
  clear_value s1
  have hm : SameSlots p { p with marked := true } := ⟨_, _, _, _, _, rfl⟩
  split
  · next hk => exact ⟨⟨_, _, _, _, _, rfl⟩, fun _ _ _ => rfl, rfl, fun h => absurd (h.symm.trans hk) (by decide)⟩
  · split
    · next c _ =>
      dsimp only [State.fresh]
      refine ⟨?_, fun k q hk => ?_, ?_, fun _ _ => ?_⟩
      · refine (show SameSlots p (s1.port chip port) from h1 ▸ hm).trans ?_
        rw [sealFrames_one, (State.event_due _ _).port, port_modPort_self]
        exact seal_slots (s1.port chip port) _ _
      · rw [sealFrames_one, (State.event_due _ _).port, port_modPort_other _ hk]
        exact h2 k q hk
      · rw [sealFrames_one]
        exact (modPort_portReports _ chip port chip fun p => p.seal s1.nextId c).trans h3
      · exact ⟨_, List.mem_append_right _ (List.mem_singleton.2 rfl), rfl⟩
    · next hp =>
      exact ⟨by rw [h1]; exact hm, h2, h3, fun _ h => absurd hp h⟩

/-- The port as it leaves its tables. -/
def leaving (p : Port) : Port := { p.advance with locked := false, drainSent := true, goodDarks := 2, missed := 0 }

/-- The old tables have ended: the port waits to relock, and its hello has gone. -/
theorem leaveTables_leaves {s : State} {chip port : Nat} (hf : (s.port chip port).fibre = none)
    (hl : ∀ k q, (leaving (s.port chip port)).facedNow = some (k, q) → (k, q) ≠ (chip, port) ∧ (s.port k q).listening = false) :
    let t := s.leaveTables chip port
    (t.port chip port).locked = false ∧ (t.port chip port).drainSent = true ∧ (t.port chip port).slot = (s.port chip port).advance.slot ∧
      ((s.port chip port).locked = true → (s.port chip port).marked = false → (s.port chip port).peer ≠ none → ∃ x ∈ t.entries, x.2.body = .drainMarker) ∧
      ∀ k q, (leaving (s.port chip port)).facedNow = some (k, q) → (t.port k q).fibre =
        some { chip := chip, port := port, slot := (s.port chip port).advance.slot, rotation := BitVec.ofNat 16 (s.port chip port).advance.rotation } := by
  intro t
  have h1 : SameSlots (s.port chip port) ((if (s.port chip port).locked then s.sendMarker chip port else s).port chip port) ∧
      (∀ k q, (k, q) ≠ (chip, port) → (if (s.port chip port).locked then s.sendMarker chip port else s).port k q = s.port k q) ∧
      ((s.port chip port).locked = true → (s.port chip port).marked = false → (s.port chip port).peer ≠ none →
        ∃ x ∈ (if (s.port chip port).locked then s.sendMarker chip port else s).entries, x.2.body = .drainMarker) := by
    split
    · obtain ⟨a, b, -, d⟩ := sendMarker_sends s chip port
      exact ⟨a, b, fun _ => d⟩
    · next hk => exact ⟨⟨_, _, _, _, _, rfl⟩, fun _ _ _ => rfl, fun h => absurd h hk⟩
  have et : t = State.openSlot ((if (s.port chip port).locked then s.sendMarker chip port else s).modPort chip port leaving) chip port := rfl
  generalize (if (s.port chip port).locked then s.sendMarker chip port else s) = u at h1 et
  obtain ⟨⟨m, fr, n, s0, s1, h1⟩, h2, h3⟩ := h1
  have hp := port_modPort_self u chip port leaving
  rw [h1] at hp
  have ho := openSlot_opens (s := u.modPort chip port leaving) (chip := chip) (port := port) (by rw [hp]; exact hf) (fun k q h => by
    rw [hp] at h
    obtain ⟨a, b⟩ := hl k q h
    exact ⟨a, by rw [port_modPort_other u a, h2 k q a]; exact b⟩)
  rw [et]
  have hown := ho.own
  rw [hp] at hown
  refine ⟨by rw [hown]; rfl, by rw [hown]; rfl, by rw [hown]; rfl, fun a b c => ?_, fun k q h => ?_⟩
  · rw [ho.entries]
    exact h3 a b c
  · rw [ho.hello k q (by rw [hp]; exact h), hp]
    rfl

/-! ### Hellos -/

section
variable {s : State} {chip port : Nat} {h : Hello}

theorem checkHello_dark (hd : (s.port chip port).isDark = true) : s.checkHello chip port h = s := if_pos hd

variable (hd : (s.port chip port).isDark = false)
include hd

theorem checkHello_relocks (hr : (s.port chip port).relocks h = true) : s.checkHello chip port h =
    (s.modPort chip port fun p => { p with slot := h.slot, drainSent := true }).relock chip port :=
  (if_neg (by rw [hd]; decide)).trans (if_pos hr)

variable (hr : (s.port chip port).relocks h = false)
include hr

theorem checkHello_between (hb : (s.port chip port).between = true) : s.checkHello chip port h = s :=
  (if_neg (by rw [hd]; decide)).trans ((if_neg (by rw [hr]; decide)).trans (if_pos hb))

variable (hb : (s.port chip port).between = false)
include hb

theorem checkHello_checks : s.checkHello chip port h =
    if (s.port chip port).agrees (s.port chip port).bank (s.port chip port).slots h &&
        (!(s.port chip port).locked || (h.slot == (s.port chip port).slot && h.rotation.toNat == (s.port chip port).rotation)) then
      if (s.port chip port).locked then s
      else if (s.port chip port).goodDarks < 2 then s
      else
        (s.modPort chip port fun p => { p with locked := true, slot := h.slot, rotation := h.rotation.toNat, missed := 0 }).serveSlot chip port
    else s.unlock chip port :=
  (if_neg (by rw [hd]; decide)).trans ((if_neg (by rw [hr]; decide)).trans (if_neg (by rw [hb]; decide)))

theorem checkHello_early (ha : (s.port chip port).agrees (s.port chip port).bank (s.port chip port).slots h = true)
    (hl : (s.port chip port).locked = false) (hg : (s.port chip port).goodDarks < 2) : s.checkHello chip port h = s := by
  rw [checkHello_checks hd hr hb, ha, hl, if_pos (by rfl), if_neg (by decide), if_pos hg]

theorem checkHello_locks (ha : (s.port chip port).agrees (s.port chip port).bank (s.port chip port).slots h = true)
    (hl : (s.port chip port).locked = false) (hg : 2 ≤ (s.port chip port).goodDarks) : s.checkHello chip port h =
      (s.modPort chip port fun p => { p with locked := true, slot := h.slot, rotation := h.rotation.toNat, missed := 0 }).serveSlot chip port := by
  rw [checkHello_checks hd hr hb, ha, hl, if_pos (by rfl), if_neg (by decide), if_neg (by omega)]

theorem checkHello_keeps (ha : (s.port chip port).agrees (s.port chip port).bank (s.port chip port).slots h = true)
    (hl : (s.port chip port).locked = true) (h1 : h.slot = (s.port chip port).slot) (h2 : h.rotation.toNat = (s.port chip port).rotation) :
    s.checkHello chip port h = s := by
  rw [checkHello_checks hd hr hb, ha, hl, if_pos (by simp [h1, h2]), if_pos rfl]

theorem checkHello_unlocks (hx : (s.port chip port).agrees (s.port chip port).bank (s.port chip port).slots h = false ∨
    (s.port chip port).locked = true ∧ (h.slot ≠ (s.port chip port).slot ∨ h.rotation.toNat ≠ (s.port chip port).rotation)) :
    s.checkHello chip port h = s.unlock chip port := by
  rw [checkHello_checks hd hr hb, if_neg]
  rcases hx with hx | ⟨hl, hx | hx⟩
  · simp [hx]
  · simp [hl, hx]
  · simp [hl, hx]

end

end Sys2Proof.Machine
end

section
/-! Proofs. Relocking, the starts and ends of slots, and relays (17 R402, R404, R409, R423; O56). -/

namespace Sys2Proof.Machine

/-! ### Bits of a configuration word -/

theorem field_bit (w : Word) (k : Nat) : (field w k 1).toNat = (w.getLsbD k).toNat := by
  rw [BitVec.getLsbD, Nat.toNat_testBit, field, BitVec.extractLsb'_toNat, Nat.shiftRight_eq_div_pow]

theorem bank_eq (p : Port) : p.bank = (p.cfg.getLsbD 46).toNat := field_bit p.cfg 46

/-- The configuration word with which a port relocks: it is not armed, and the other bank is active. -/
def relockCfg (p : Port) : Word :=
  if p.bank = 0 then p.nextCfg &&& ~~~(0x400020000000 : Word) ||| (0x400000000000 : Word) else p.nextCfg &&& ~~~(0x400020000000 : Word)

theorem relockCfg_armed (p : Port) : (relockCfg p).getLsbD 29 = false := by
  have h1 : (0x400020000000 : Word).getLsbD 29 = true := by decide
  have h2 : (0x400000000000 : Word).getLsbD 29 = false := by decide
  unfold relockCfg
  split <;> simp only [BitVec.getLsbD_or, BitVec.getLsbD_and, BitVec.getLsbD_not, h1, h2] <;> simp

theorem relockCfg_bank (p : Port) : ((relockCfg p).getLsbD 46).toNat = 1 - p.bank := by
  have h1 : (0x400020000000 : Word).getLsbD 46 = true := by decide
  have h2 : (0x400000000000 : Word).getLsbD 46 = true := by decide
  unfold relockCfg
  split
  · next h => simp only [h, BitVec.getLsbD_or, h2, Bool.or_true, Bool.toNat_true]
  · next h =>
    have hb : p.bank = 1 := by
      have := Bool.toNat_lt (p.cfg.getLsbD 46)
      rw [← bank_eq] at this
      omega
    simp only [hb, BitVec.getLsbD_and, BitVec.getLsbD_not, h1, Bool.not_true, Bool.and_false, Bool.toNat_false]

/-! ### Relocking -/

/-- The port as it relocks on its new bank. -/
def relocked (p : Port) : Port :=
  { p with cfg := relockCfg p, locked := true, marked := false, drainSent := false, drainSeen := false, rotation := p.switchAt, nextCfg := 0 }

theorem port_modChip (s : State) (chip : Nat) {f : Chip → Chip} (h : ∀ c, (f c).ports = c.ports) (k q : Nat) :
    (s.modChip chip f).port k q = s.port k q := by
  by_cases hk : k = chip
  · rw [hk, State.port, State.chip_modChip_self, h]
    rfl
  · rw [State.port, chip_modChip_ne s hk]
    rfl

theorem filterRelays_chip (s : State) (chip : Nat) : (s.filterRelays chip).chip chip =
    { s.chip chip with relays := (s.chip chip).relays.filter fun r => s.relayAllowed chip r.2 } := State.chip_modChip_self _ _ _

theorem filterRelays_port (s : State) (chip k q : Nat) : (s.filterRelays chip).port k q = s.port k q :=
  port_modChip s chip (by exact fun _ => rfl) k q

/-- What a chip has after its port relocks. -/
structure Relocks (s t : State) (chip port : Nat) : Prop where
  own : ∃ q, SamePort (relocked (s.port chip port)) q ∧ t.port chip port = q
  tables : ∀ m, (s.chip chip).nextReach = some m → (t.chip chip).reachable = m.1 ∧
    (t.chip chip).relays = m.2.filter fun r => t.relayAllowed chip r.2

/-- The chip with the reachability map and relay table of an armed change. -/
def State.takeTables (s : State) (chip : Nat) : State :=
  match (s.chip chip).nextReach with
  | some (m, rel) => s.modChip chip fun c => { c with reachable := m, relays := rel, nextReach := none }
  | none => s

theorem takeTables_port (s : State) (chip k q : Nat) : (s.takeTables chip).port k q = s.port k q := by
  unfold State.takeTables
  split
  · exact port_modChip s chip (by exact fun _ => rfl) k q
  · rfl

theorem takeTables_takes {s : State} {chip : Nat} {m : NSet × List (Nat × Nat)} (h : (s.chip chip).nextReach = some m) :
    ((s.takeTables chip).chip chip).reachable = m.1 ∧ ((s.takeTables chip).chip chip).relays = m.2 := by
  rw [State.takeTables, h]
  dsimp only
  rw [State.chip_modChip_self]
  exact ⟨rfl, rfl⟩

/-- The chip's tables have been filtered and its unreachable work dropped, and the slot is served. -/
theorem settle_keeps (s : State) (chip port : Nat) : let t := ((s.filterRelays chip).dropUnreachable chip).serveSlot chip port
    (∀ q, SamePort (s.port chip q) (t.port chip q)) ∧ (t.chip chip).reachable = (s.chip chip).reachable ∧
      (t.chip chip).relays = (s.chip chip).relays.filter fun r => t.relayAllowed chip r.2 := by
  intro t
  have hd := dropUnreachable_fabric (s.filterRelays chip) chip
  have hs : ServesPort ((s.filterRelays chip).dropUnreachable chip) t chip port := serveSlot_serves _ _ _
  have hp (q : Nat) : SamePort (s.port chip q) (t.port chip q) := by
    have h := (hd.port chip q).trans (hs.same chip q)
    rwa [filterRelays_port] at h
  have hc := filterRelays_chip s chip
  refine ⟨hp, ?_, ?_⟩
  · rw [hs.reachable, (hd.chip chip).reachable, hc]
  · rw [hs.relays, (hd.chip chip).relays, hc]
    exact List.filter_congr fun r _ => (relayAllowed_congr hp r.2).symm

theorem relock_relocks {s : State} {chip port : Nat} (hb : (s.port chip port).between = true) (hd : (s.port chip port).isDark = false) :
    Relocks s (s.relock chip port) chip port := by
  have e : s.relock chip port = ((((((if (s.port chip port).drainSeen then s else s.modChip chip fun c => { c with portReports := c.portReports ++ [port] }).modPort chip port
      fun p => { p with cfg := relockCfg (s.port chip port), locked := true, marked := false, drainSent := false, drainSeen := false, rotation := p.switchAt, nextCfg := 0 }).takeTables chip).filterRelays chip).dropUnreachable chip).serveSlot chip port) :=
    if_neg (by rw [hb, hd]; decide)
  have h1 : (if (s.port chip port).drainSeen then s else s.modChip chip fun c => { c with portReports := c.portReports ++ [port] }).port chip port = s.port chip port ∧
      ((if (s.port chip port).drainSeen then s else s.modChip chip fun c => { c with portReports := c.portReports ++ [port] }).chip chip).nextReach = (s.chip chip).nextReach := by
    split
    · exact ⟨rfl, rfl⟩
    · exact ⟨port_modChip s chip (by exact fun _ => rfl) chip port, by rw [State.chip_modChip_self]⟩
  generalize (if (s.port chip port).drainSeen then s else s.modChip chip fun c => { c with portReports := c.portReports ++ [port] }) = s1 at e h1
  have h2 := port_modPort_self s1 chip port fun p => { p with cfg := relockCfg (s.port chip port), locked := true, marked := false, drainSent := false, drainSeen := false, rotation := p.switchAt, nextCfg := 0 }
  have h3 := congrArg Chip.nextReach (modPort_chip s1 chip port fun p => { p with cfg := relockCfg (s.port chip port), locked := true, marked := false, drainSent := false, drainSeen := false, rotation := p.switchAt, nextCfg := 0 })
  generalize s1.modPort chip port _ = s2 at e h2 h3
  obtain ⟨hp, hr, hl⟩ := settle_keeps (s2.takeTables chip) chip port
  rw [← e] at hp hr hl
  refine ⟨⟨_, ?_, rfl⟩, fun m hm => ?_⟩
  · have h := hp port
    rw [takeTables_port, h2, h1.1] at h
    exact h
  · obtain ⟨ha, hb⟩ := takeTables_takes (s := s2) (chip := chip) (h3.trans (h1.2.trans hm))
    exact ⟨hr.trans ha, hl.trans (by rw [hb])⟩

/-- The port of a relock in its parts. -/
theorem Relocks.port {s t : State} {chip port : Nat} (h : Relocks s t chip port) : (t.port chip port).locked = true ∧
    (t.port chip port).slot = (s.port chip port).slot ∧ (t.port chip port).drainSent = false ∧ (t.port chip port).armed = false ∧
    (t.port chip port).bank = 1 - (s.port chip port).bank ∧ (t.port chip port).rotation = (s.port chip port).switchAt := by
  obtain ⟨q, ⟨l, m, n, e⟩, hq⟩ := h.own
  rw [hq, e]
  exact ⟨rfl, rfl, rfl, relockCfg_armed _, (field_bit _ 46).trans (relockCfg_bank _), rfl⟩

end Sys2Proof.Machine
end

section
/-! Proofs. Slots as they open and end, relays, keys and table changes (17 R402 to R404, R409, R415, R423; O56). -/

namespace Sys2Proof.Machine

/-! ### Slots as they open and end -/

/-- Port `port` of `chip`, now `p`, has opened its slot: it listens, and its hello waits on the fibre of the port it faces. -/
structure SlotOpened (s t : State) (chip port : Nat) (p : Port) : Prop where
  own : t.port chip port = { p with listening := true }
  hello : ∀ k q, p.facedNow = some (k, q) → (k, q) ≠ (chip, port) ∧
    (t.port k q).fibre = some { chip := chip, port := port, slot := p.slot, rotation := BitVec.ofNat 16 p.rotation }
  portReports : (t.chip chip).portReports = (s.chip chip).portReports

theorem modPort_openSlot_opens {s : State} {chip port : Nat} {f : Port → Port} (hf : (f (s.port chip port)).fibre = none)
    (hl : ∀ k q, (f (s.port chip port)).facedNow = some (k, q) → (k, q) ≠ (chip, port) ∧ (s.port k q).listening = false) :
    SlotOpened s ((s.modPort chip port f).openSlot chip port) chip port (f (s.port chip port)) := by
  have hp := port_modPort_self s chip port f
  have ho := openSlot_opens (s := s.modPort chip port f) (chip := chip) (port := port) (by rw [hp]; exact hf) fun k q h => by
    rw [hp] at h
    obtain ⟨a, b⟩ := hl k q h
    exact ⟨a, by rw [port_modPort_other s a]; exact b⟩
  refine ⟨by rw [ho.own, hp], fun k q h => ⟨(hl k q h).1, ?_⟩, by rw [ho.portReports, modPort_portReports]⟩
  rw [ho.hello k q (by rw [hp]; exact h), hp]

theorem SlotOpened.same {s t u : State} {chip port : Nat} {p : Port} (h : SlotOpened s t chip port p) (hs : ServesPort t u chip port) :
    (∃ m n, u.port chip port = { p with listening := true, frames := m, position := n }) ∧
    ∀ k q, p.facedNow = some (k, q) →
      (u.port k q).fibre = some { chip := chip, port := port, slot := p.slot, rotation := BitVec.ofNat 16 p.rotation } := by
  obtain ⟨m, n, e⟩ := hs.port
  refine ⟨⟨m, n, by rw [e, h.own]⟩, fun k q hk => ?_⟩
  obtain ⟨hne, hf⟩ := h.hello k q hk
  rw [hs.other hne, hf]

theorem serveSlot_if_serves (b : Bool) (s : State) (chip port : Nat) :
    ServesPort s (if b then s.serveSlot chip port else s) chip port := by
  cases b with
  | true => exact serveSlot_serves s chip port
  | false => exact (OnlyDue.refl s).serves chip port

theorem endSlot_ends {s : State} {chip port : Nat} (hl : (s.port chip port).lit = true)
    (h : (s.port chip port).locked = false ∨ (s.port chip port).lastSlot = false) :
    s.endSlot chip port (s.port chip port).slot (s.port chip port).rotation = s.modPort chip port fun p => { p with lit := false } := by
  have hn : ((s.port chip port).locked && (s.port chip port).lastSlot) = false := by
    rcases h with h | h <;> simp [h]
  rw [State.endSlot]
  dsimp only
  rw [hl, hn]
  simp

/-! ### Relays -/

theorem relayEntry_relays {s : State} {id : Nat} {e : Entry} (he : s.entry? id = some e) (ha : e.at' = e.hop) (hd : e.hop ≠ e.dst)
    (hr : e.relayed = false) : exec (.relayEntry id) s =
      .next ((s.modEntry id fun e => { e with hop := e.dst, relayed := true, cls := .relay }).event (.entryEnqueue id)) := by
  rw [exec_relayEntry, execRelayEntry, he]
  exact next_congr (if_pos ⟨ha, hd, by rw [hr]; rfl⟩)

theorem relayCredit_returns {s : State} {chip n id : Nat} {e : Entry}
    (h : (s.entries.find? fun x => decide (x.2.body = .relayCredit n) && x.2.dst == chip && x.2.at' == chip) = some (id, e)) :
    ∃ t, exec (.relayCredit chip n) s = .next t ∧ t.entries = dropRec s.entries id ∧
      AMap.get 0 (t.chip chip).credits n = AMap.get 0 (s.chip chip).credits n + 1 := by
  have e1 : exec (.relayCredit chip n) s = .next ((List.range 64).foldl (fun s p => s.pokePort chip p) ((s.dropEntryRec id).addCredit chip n)) := by
    rw [exec_relayCredit, execRelayCredit, h]
  have hd := OnlyDue.foldl (f := fun (s : State) (p : Nat) => s.pokePort chip p) (fun s p => pokePort_due s chip p) (List.range 64)
    ((s.dropEntryRec id).addCredit chip n)
  generalize (List.range 64).foldl _ _ = t at e1 hd
  refine ⟨t, e1, ?_, ?_⟩
  · rw [hd.rest]
    rfl
  · have hc : t.chip chip = ((s.dropEntryRec id).addCredit chip n).chip chip := by
      rw [hd.rest]
      rfl
    rw [hc, State.addCredit, State.chip_modChip_self]
    exact AMap.get_set_self 0 (s.chip chip).credits n (AMap.get 0 (s.chip chip).credits n + 1)

/-! ### Keys -/

/-- What a port whose bank is free takes of a new key, and what one whose bank is not. -/
theorem loadKey_loads (p : Port) (key : BitVec 256) :
    ((if p.version = 2 then p.frames = [] else p.bankFree ((p.generation + 1) % 2) = true) →
      (Port.loadKey { p with nextKey := some key, switching := true }).generation = p.generation + 1 ∧
      (Port.loadKey { p with nextKey := some key, switching := true }).nextKey = none ∧
      (if (p.generation + 1) % 2 = 0 then (Port.loadKey { p with nextKey := some key, switching := true }).key0
        else (Port.loadKey { p with nextKey := some key, switching := true }).key1) = key) ∧
    (¬ (if p.version = 2 then p.frames = [] else p.bankFree ((p.generation + 1) % 2) = true) →
      (Port.loadKey { p with nextKey := some key, switching := true }).generation = p.generation ∧
      (Port.loadKey { p with nextKey := some key, switching := true }).nextKey = some key ∧
      (Port.loadKey { p with nextKey := some key, switching := true }).switching = true) := by
  have hiff : (if p.version = 2 then p.frames.isEmpty else p.bankFree ((p.generation + 1) % 2)) = true ↔
      (if p.version = 2 then p.frames = [] else p.bankFree ((p.generation + 1) % 2) = true) := by
    split
    · exact List.isEmpty_iff
    · exact Iff.rfl
  have e : Port.loadKey { p with nextKey := some key, switching := true } =
      if (if p.version = 2 then p.frames.isEmpty else p.bankFree ((p.generation + 1) % 2)) = true then
        { (if (p.generation + 1) % 2 = 0 then { p with nextKey := some key, switching := true, key0 := key, sealed0 := 0 }
            else { p with nextKey := some key, switching := true, key1 := key, sealed1 := 0 }) with
          generation := p.generation + 1, nextKey := none, switching := false }
      else { p with nextKey := some key, switching := true } := by
    rw [Port.loadKey]
    by_cases hb : (p.generation + 1) % 2 = 0
    · simp only [hb, if_true]
      rfl
    · simp only [hb, if_false]
      rfl
  refine ⟨fun h => ?_, fun h => ?_⟩
  · rw [e, if_pos (hiff.2 h)]
    by_cases hb : (p.generation + 1) % 2 = 0
    · simp only [if_pos hb]
      exact ⟨trivial, trivial, trivial⟩
    · simp only [if_neg hb]
      exact ⟨trivial, trivial, trivial⟩
  · rw [e, if_neg fun h' => h (hiff.1 h')]
    exact ⟨rfl, rfl, rfl⟩

theorem takeKey_self {s : State} {chip port : Nat} (ht : (s.port chip port).trained = true) (hn : (s.port chip port).nextKey = none)
    (key : BitVec 256) : (s.takeKey chip port key).port chip port = Port.loadKey { s.port chip port with nextKey := some key, switching := true } := by
  rw [State.takeKey, port_modPort_self, if_pos ⟨ht, hn⟩]

theorem takeKey_other (s : State) {chip port k q : Nat} (h : (k, q) ≠ (chip, port)) (key : BitVec 256) :
    (s.takeKey chip port key).port k q = s.port k q := port_modPort_other s h _

/-- Both ports of a pair take their key. -/
theorem updateKeys_takes {s : State} {chip port k q : Nat} (hk : (k, q) ≠ (chip, port)) (key : BitVec 256) {a b : Nat}
    (hab : (a, b) = (chip, port) ∨ (a, b) = (k, q)) (ht : (s.port a b).trained = true) (hn : (s.port a b).nextKey = none) :
    (s.updateKeys chip port k q key).port a b = Port.loadKey { s.port a b with nextKey := some (Config.linkKey key a b), switching := true } := by
  show ((s.takeKey chip port (Config.linkKey key chip port)).takeKey k q (Config.linkKey key k q)).port a b = _
  rcases hab with h | h
  · obtain ⟨rfl, rfl⟩ := Prod.mk.inj h
    rw [takeKey_other _ (Ne.symm hk), takeKey_self ht hn]
  · obtain ⟨rfl, rfl⟩ := Prod.mk.inj h
    have ho := takeKey_other s hk (Config.linkKey key chip port)
    rw [takeKey_self (by rw [ho]; exact ht) (by rw [ho]; exact hn), ho]

theorem updateKeys_arms (s : State) (chip port k q : Nat) (key : BitVec 256) :
    ∃ x ∈ (s.updateKeys chip port k q key).timers, x.2.2 = .rotate chip port :=
  ⟨_, List.mem_append_right _ (List.mem_singleton.2 rfl), rfl⟩

section
variable {s : State} {chip port k q : Nat} (hp : (s.port chip port).peer = some (k, q)) (key : BitVec 256)
include hp

theorem keyUpdate_goes : exec (.keyUpdate chip port key) s = .next (if chip < k then s.updateKeys chip port k q key else s) := by
  rw [exec_keyUpdate, execKeyUpdate, hp]

theorem keyRotationTimer_goes : exec (.keyRotationTimer chip port) s = .next (if chip < k then s.rotateKeys chip port else s) := by
  rw [exec_keyRotationTimer, execKeyRotationTimer, hp]

theorem rotateKeys_goes (hk : chip < k) (h1 : (s.port chip port).trained = true) (h2 : (s.port k q).trained = true) :
    s.rotateKeys chip port = s.updateKeys chip port k q (Config.updatedKey chip port (s.port chip port).generation) := by
  rw [State.rotateKeys, hp]
  exact (if_neg (by rw [h1, h2]; decide)).trans (if_pos hk)

end

/-! ### Changes of tables -/

theorem mem_insert_set (m : NSet) (j k : Nat) : k ∈ NSet.insert m j ↔ k = j ∨ k ∈ m := by
  induction m with
  | nil => simp [NSet.insert]
  | cons a m ih =>
    rw [NSet.insert]
    split
    · simp
    · split
      · next h => simp [h]
      · rw [List.mem_cons, ih, List.mem_cons]
        tauto

theorem mem_foldl_insert (l : List Nat) (m : NSet) (k : Nat) : k ∈ l.foldl NSet.insert m ↔ k ∈ l ∨ k ∈ m := by
  induction l generalizing m with
  | nil => simp
  | cons a l ih => rw [List.foldl_cons, ih, mem_insert_set, List.mem_cons]; tauto

theorem cfgBits_armed (w : Word) : (cfgBits w).getLsbD 29 = w.getLsbD 29 := by
  have h : (0x3FFFFFF : Word).getLsbD 29 = false := by decide
  rw [cfgBits, BitVec.getLsbD_and, BitVec.getLsbD_not, h]
  simp

/-- The configuration of a port as a change is armed: the boundary and the arming bit are the new word's. -/
def armedCfg (old new : Word) : Word := (old &&& ~~~(0x3FFFE0000000 : Word)) ||| (new &&& (0x3FFFE0000000 : Word))

theorem armedCfg_armed (old new : Word) (h : new.getLsbD 29 = true) : (armedCfg old new).getLsbD 29 = true := by
  have hm : (0x3FFFE0000000 : Word).getLsbD 29 = true := by decide
  rw [armedCfg, BitVec.getLsbD_or, BitVec.getLsbD_and, BitVec.getLsbD_and, hm, h]
  simp

theorem armedCfg_bank (old new : Word) : (armedCfg old new).getLsbD 46 = old.getLsbD 46 := by
  have hm : (0x3FFFE0000000 : Word).getLsbD 46 = false := by decide
  rw [armedCfg, BitVec.getLsbD_or, BitVec.getLsbD_and, BitVec.getLsbD_and, BitVec.getLsbD_not, hm]
  simp

/-- A port as one word of a table change leaves it. -/
def changed (key : Word) (p : Port) : Port :=
  let w := cfgBits key
  if w.getLsbD 29 then
    { p.writeBank (1 - p.bank) [] with cfg := armedCfg p.cfg w, nextCfg := w, marked := false, drainSent := false, drainSeen := false }
  else { p.writeBank (field w 46 1).toNat [] with cfg := w }

theorem rotorTableChange_off {s : State} {chip : Nat} {ch : RotorChange} (h : (s.chip chip).off = true) :
    exec (.rotorTableChange chip ch) s = .next s := by
  rw [exec_rotorTableChange, execRotorTableChange]
  exact next_congr (if_pos h)

section
variable {s : State} {chip port : Nat} {key : Word} {ch : RotorChange} (ho : (s.chip chip).off = false) (hp : ch.ports = [(port, key, [])])

theorem grant_fabric (s : State) (chip via n : Nat) : KeepsFabric s (s.grant chip via n) := by
  unfold State.grant
  exact modChip_fabric s chip fun _ => ⟨rfl, rfl, rfl, rfl, fun _ => .refl _⟩

theorem grants_fabric (s : State) (chip : Nat) (l : List (Nat × Nat)) : KeepsFabric s (l.foldl (fun s e => s.grant chip e.1 e.2) s) :=
  .foldl (f := fun (s : State) (e : Nat × Nat) => s.grant chip e.1 e.2) (fun s e => grant_fabric s chip e.1 e.2) l s

include ho hp

theorem rotorTableChange_goes : exec (.rotorTableChange chip ch) s = .next (
    let u := ch.credits.foldl (fun s e => s.grant chip e.1 e.2) (s.modPort chip port (changed key))
    if key.getLsbD 29 then u.modChip chip fun v => { v with nextReach := some (ch.reachable.foldl NSet.insert [], ch.relays) }
    else ((u.modChip chip fun v => { v with reachable := ch.reachable.foldl NSet.insert [], relays := ch.relays }).filterRelays chip).dropUnreachable chip) := by
  rw [exec_rotorTableChange, execRotorTableChange, if_neg (by rw [ho]; decide), hp]
  simp only [List.any_cons, List.any_nil, Bool.or_false, List.foldl_cons, List.foldl_nil]
  rfl

theorem rotorTableChange_arms (hk : key.getLsbD 29 = true) : ∃ t, exec (.rotorTableChange chip ch) s = .next t ∧
    (t.port chip port).nextCfg = key &&& ~~~(0x3FFFFFF : Word) ∧ (t.port chip port).drainSent = false ∧ (t.port chip port).armed = true ∧
    (t.port chip port).bank = (s.port chip port).bank ∧ (t.chip chip).reachable = (s.chip chip).reachable ∧
    ∃ m, (t.chip chip).nextReach = some m ∧ m.2 = ch.relays := by
  have e := rotorTableChange_goes ho hp
  dsimp only at e
  rw [if_pos hk] at e
  have hu := grants_fabric (s.modPort chip port (changed key)) chip ch.credits
  generalize ch.credits.foldl _ _ = u at e hu
  have hpu := hu.port chip port
  rw [port_modPort_self] at hpu
  obtain ⟨l, m, n, hpu⟩ := hpu
  have hc : changed key (s.port chip port) = { (s.port chip port).writeBank (1 - (s.port chip port).bank) [] with cfg := armedCfg (s.port chip port).cfg (cfgBits key), nextCfg := cfgBits key, marked := false, drainSent := false, drainSeen := false } :=
    if_pos (by rw [cfgBits_armed, hk])
  have hr := (hu.chip chip).reachable
  rw [modPort_chip] at hr
  refine ⟨_, e, ?_⟩
  rw [port_modChip _ _ (by exact fun _ => rfl), hpu, hc, State.chip_modChip_self]
  refine ⟨rfl, rfl, armedCfg_armed _ _ (by rw [cfgBits_armed, hk]), ?_, hr, _, rfl, rfl⟩
  rw [bank_eq, bank_eq]
  exact congrArg Bool.toNat (armedCfg_bank _ _)

theorem rotorTableChange_writes (hk : key.getLsbD 29 = false) : ∃ t, exec (.rotorTableChange chip ch) s = .next t ∧
    (t.port chip port).cfg = key &&& ~~~(0x3FFFFFF : Word) ∧ ∀ k, k ∈ (t.chip chip).reachable ↔ k ∈ ch.reachable := by
  have e := rotorTableChange_goes ho hp
  dsimp only at e
  rw [if_neg (by rw [hk]; decide)] at e
  have hu := grants_fabric (s.modPort chip port (changed key)) chip ch.credits
  generalize ch.credits.foldl _ _ = u at e hu
  have hpu := hu.port chip port
  rw [port_modPort_self] at hpu
  obtain ⟨l, m, n, hpu⟩ := hpu
  have hc : changed key (s.port chip port) = { (s.port chip port).writeBank (field (cfgBits key) 46 1).toNat [] with cfg := cfgBits key } :=
    if_neg (by rw [cfgBits_armed, hk]; decide)
  refine ⟨_, e, ?_, fun k => ?_⟩
  · obtain ⟨l', m', n', hd⟩ := (dropUnreachable_fabric ((u.modChip chip fun v => { v with reachable := ch.reachable.foldl NSet.insert [], relays := ch.relays }).filterRelays chip) chip).port chip port
    rw [hd, filterRelays_port, port_modChip _ _ (by exact fun _ => rfl), hpu, hc]
    rfl
  · rw [((dropUnreachable_fabric _ _).chip chip).reachable, filterRelays_chip, State.chip_modChip_self]
    exact (mem_foldl_insert ch.reachable [] k).trans (by simp)

end

end Sys2Proof.Machine
end

section
/-! Proofs. The Ouvval fabric (17 R402 to R417, R423, R429; O56). -/

namespace Sys2Proof.Machine

/-! ### Entries -/

theorem JoinsQueue.goes {s t : State} {i : Instr} {chip port id : Nat} {e : Entry} (h : exec i s = .next t) (hj : JoinsQueue s t chip port id e) :
    ∃ t, exec i s = .next t ∧ (t.port chip port).queue = (s.port chip port).queue ++ [(e.hop, e.cls, id)] ∧ t.mem = s.mem :=
  ⟨t, h, hj.queue, hj.mem⟩

/-! ### Frames that have been taken -/

theorem takeFrame_marker_drains {s : State} {chip port : Nat} {f : Frame} {e : Entry} (he : s.entry? f.entry = some e) (hb : e.body = .drainMarker) :
    ((s.takeFrame chip port f).port f.peer.1 f.peer.2).drainSeen = true ∧
    ∀ g ∈ ((s.takeFrame chip port f).port chip port).frames, g.number ≠ f.number := by
  rw [takeFrame_marker he hb]
  refine ⟨by rw [port_modPort_self], fun g hg => ?_⟩
  have hf : (((s.dropFrame chip port f.number).dropEntryRec f.entry).port chip port).frames = (s.port chip port).frames.filter (·.number != f.number) :=
    dropFrame_frames s chip port f.number
  generalize (s.dropFrame chip port f.number).dropEntryRec f.entry = u at hf hg
  have hg' : g ∈ (u.port chip port).frames := by
    by_cases hk : (chip, port) = (f.peer.1, f.peer.2)
    · obtain ⟨h1, h2⟩ := Prod.mk.inj hk
      rw [← h1, ← h2, port_modPort_self] at hg
      exact hg
    · rwa [port_modPort_other u hk] at hg
  rw [hf, List.mem_filter] at hg'
  simpa using hg'.2

section
variable {s : State} {chip port : Nat} {f : Frame} {e : Entry}

theorem arrival_relays (h : e.hop ≠ e.dst) :
    f.entry ∈ ((((frameReceived s chip port f).arriveEntry f.entry e).answerFrame chip port f true).chip e.hop).relayPlaces ∧
    Due.event (.relayEntry f.entry) ∈ (((frameReceived s chip port f).arriveEntry f.entry e).answerFrame chip port f true).pending := by
  obtain ⟨hp, hd⟩ := arriveEntry_relays (frameReceived s chip port f) f.entry h
  have ha := answerFrame_answers ((frameReceived s chip port f).arriveEntry f.entry e) chip port f true
  exact ⟨by rw [ha.places]; exact hp, ha.due _ hd⟩

theorem arrival_crosses {pk : Nat} {v : Packet} (h : e.hop = e.dst) (hb : e.body = .packet pk) (hv : s.packet? pk = some v) (hn : f.entry < s.nextId) :
    let t := ((frameReceived s chip port f).arriveEntry f.entry e).answerFrame chip port f true
    t.packet? pk = some { v with loc := .seam (belfryOf v.dst) 5, epoch := (s.node (belfryOf v.dst)).epoch, left := s.flits v.payload } ∧
    t.entry? f.entry = none ∧ Due.event (.gatewayFrame pk true) ∈ t.pending ∧ ∃ x ∈ t.entries, x.2.body = .frameAck chip port f.number true := by
  intro t
  obtain ⟨hp, he, hd, hi⟩ := arriveEntry_crosses (s := frameReceived s chip port f) (id := f.entry) h hb hv
  have ha : Answers _ t chip port f.number true := answerFrame_answers ((frameReceived s chip port f).arriveEntry f.entry e) chip port f true
  refine ⟨?_, (ha.entry _ (by rw [hi]; exact hn)).trans he, ha.due _ hd, ha.answer⟩
  rw [State.packet?, ha.packets]
  exact hp

end

/-! ### Slots -/

theorem advance_slot (p : Port) : p.advance.slot = if p.slotsNow ≤ p.slot + 1 then 0 else p.slot + 1 := by
  simp [Port.advance]

section
variable {s : State} {chip port since : Nat} (hd : (s.port chip port).isDark = false) (hf : (s.port chip port).fibre = none)
include hd hf

theorem slotStart_opens
    (hl : ∀ k q, (s.port chip port).advance.facedNow = some (k, q) → (k, q) ≠ (chip, port) ∧ (s.port k q).listening = false)
    (h : (s.port chip port).lastSlot = false ∨ (s.port chip port).drainSent = true) : ∃ t, exec (.slotStart chip port since) s = .next t ∧
      (t.port chip port).slot = (s.port chip port).advance.slot ∧ (t.port chip port).lit = true ∧ (t.port chip port).missed = 0 ∧
      (t.port chip port).goodDarks =
        (if (s.port chip port).slotLength + 25 ≤ since + 1 ∧ since ≤ (s.port chip port).slotLength + 26 then 2 else 1) ∧
      ∀ k q, (s.port chip port).advance.facedNow = some (k, q) → (t.port k q).fibre = some
        { chip := chip, port := port, slot := (s.port chip port).advance.slot,
          rotation := BitVec.ofNat 16 (s.port chip port).advance.rotation } := by
  have ho := modPort_openSlot_opens (s := s) (chip := chip) (port := port)
    (f := fun p => { p.advance with
        goodDarks := if decide ((s.port chip port).slotLength + 25 ≤ since + 1 ∧ since ≤ (s.port chip port).slotLength + 25 + 1) then 2 else 1,
        missed := 0 }) hf hl
  obtain ⟨⟨m, n, hp⟩, hg⟩ := ho.same (serveSlot_if_serves (s.port chip port).locked _ chip port)
  refine ⟨_, slotStart_starts hd h, ?_, ?_, ?_, ?_, hg⟩
  · exact (congrArg Port.slot hp :)
  · exact (congrArg Port.lit hp :)
  · exact (congrArg Port.missed hp :)
  · exact (congrArg Port.goodDarks hp :).trans (if_congr decide_eq_true_iff rfl rfl)

theorem slotStart_drains
    (hl : ∀ k q, (leaving (s.port chip port)).facedNow = some (k, q) → (k, q) ≠ (chip, port) ∧ (s.port k q).listening = false)
    (h : (s.port chip port).lastSlot = true) (hs : (s.port chip port).drainSent = false) : ∃ t, exec (.slotStart chip port since) s = .next t ∧
      (t.port chip port).locked = false ∧ (t.port chip port).drainSent = true ∧ (t.port chip port).slot = (s.port chip port).advance.slot ∧
      ((s.port chip port).locked = true → (s.port chip port).marked = false → (s.port chip port).peer ≠ none →
        ∃ x ∈ t.entries, x.2.body = .drainMarker) ∧
      ∀ k q, (leaving (s.port chip port)).facedNow = some (k, q) → (t.port k q).fibre = some
        { chip := chip, port := port, slot := (s.port chip port).advance.slot,
          rotation := BitVec.ofNat 16 (s.port chip port).advance.rotation } :=
  ⟨_, slotStart_leaves hd h hs, leaveTables_leaves hf hl⟩

variable (hk : (s.port chip port).locked = true)
  (hl : ∀ k q, (s.port chip port).advance.facedNow = some (k, q) → (k, q) ≠ (chip, port) ∧ (s.port k q).listening = false)
  (h : (s.port chip port).lastSlot = false ∨ (s.port chip port).drainSent = true)
include hk hl h

theorem darkPeriodMissed_first (hm : (s.port chip port).missed = 0) : ∃ t, exec (.darkPeriodMissed chip port) s = .next t ∧
    (t.port chip port).slot = (s.port chip port).advance.slot ∧ (t.port chip port).missed = 1 ∧ (t.port chip port).locked = true := by
  have ho := modPort_openSlot_opens (s := s) (chip := chip) (port := port) (f := fun p => { p.advance with missed := p.missed + 1 }) hf hl
  obtain ⟨⟨m, n, hp⟩, -⟩ := ho.same (serveSlot_serves _ chip port)
  refine ⟨_, (darkPeriodMissed_goes hd hk h).trans (next_congr (if_neg (by omega))), (congrArg Port.slot hp :), ?_, ?_⟩
  · exact (congrArg Port.missed hp :).trans (congrArg (· + 1) hm)
  · exact (congrArg Port.locked hp :).trans hk

theorem darkPeriodMissed_second (hm : 1 ≤ (s.port chip port).missed) : ∃ t, exec (.darkPeriodMissed chip port) s = .next t ∧
    (t.port chip port).locked = false ∧ (t.chip chip).portReports = (s.chip chip).portReports ++ [port] := by
  have ho := modPort_openSlot_opens (s := s) (chip := chip) (port := port) (f := fun p => { p.advance with missed := p.missed + 1 }) hf hl
  obtain ⟨h1, h2⟩ := unlock_unlocks ((s.modPort chip port fun p => { p.advance with missed := p.missed + 1 }).openSlot chip port) chip port
  exact ⟨_, (darkPeriodMissed_goes hd hk h).trans (next_congr (if_pos (by omega))), h1, by rw [h2, ho.portReports]⟩

end

/-! ### Hellos -/

section
variable {s : State} {chip port : Nat} {h : Hello} (hd : (s.port chip port).isDark = false)
include hd

theorem hello_locks (hr : (s.port chip port).relocks h = false) (hb : (s.port chip port).between = false)
    (ha : (s.port chip port).agrees (s.port chip port).bank (s.port chip port).slots h = true)
    (hl : (s.port chip port).locked = false) (hg : 2 ≤ (s.port chip port).goodDarks) : ∃ t, exec (.helloFrame chip port h) s = .next t ∧
      (t.port chip port).locked = true ∧ (t.port chip port).slot = h.slot ∧ (t.port chip port).rotation = h.rotation.toNat := by
  have hs := serveSlot_serves (s.modPort chip port fun p => { p with locked := true, slot := h.slot, rotation := h.rotation.toNat, missed := 0 }) chip port
  rw [← checkHello_locks hd hr hb ha hl hg] at hs
  obtain ⟨m, n, hp⟩ := hs.port
  rw [port_modPort_self] at hp
  exact ⟨_, rfl, congrArg Port.locked hp, congrArg Port.slot hp, congrArg Port.rotation hp⟩

theorem hello_relocks (ha : (s.port chip port).armed = true) (hw : (s.port chip port).drainSent = true ∨ (s.port chip port).locked = false)
    (hg : (s.port chip port).agrees (1 - (s.port chip port).bank) ((field (s.port chip port).nextCfg 58 6).toNat + 1) h = true)
    (hr : h.rotation.toNat = (s.port chip port).switchAt) : ∃ t, exec (.helloFrame chip port h) s = .next t ∧
      (t.port chip port).locked = true ∧ (t.port chip port).slot = h.slot ∧ (t.port chip port).bank = 1 - (s.port chip port).bank := by
  have hrel : (s.port chip port).relocks h = true := by
    rw [Port.relocks, ha, hg, hr]
    rcases hw with hw | hw <;> simp [hw]
  have hp := port_modPort_self s chip port fun p => { p with slot := h.slot, drainSent := true }
  have hx := relock_relocks (s := s.modPort chip port fun p => { p with slot := h.slot, drainSent := true }) (chip := chip) (port := port)
    (by rw [hp]; exact Bool.and_eq_true_iff.2 ⟨ha, rfl⟩) (by rw [hp]; exact hd)
  rw [← checkHello_relocks hd hrel] at hx
  obtain ⟨h1, h2, -, -, h5, -⟩ := hx.port
  rw [hp] at h2 h5
  exact ⟨_, rfl, h1, h2, h5⟩

end

/-! ### Keys -/

theorem keyUpdate_takes {s : State} {chip port k q : Nat} (hp : (s.port chip port).peer = some (k, q)) (hk : chip < k) (key : BitVec 256) :
    ∃ t, exec (.keyUpdate chip port key) s = .next t ∧ (∃ x ∈ t.timers, x.2.2 = .rotate chip port) ∧
      ∀ a b, (a, b) = (chip, port) ∨ (a, b) = (k, q) → (s.port a b).trained = true → (s.port a b).nextKey = none →
        t.port a b = Port.loadKey { s.port a b with nextKey := some (Config.linkKey key a b), switching := true } := by
  refine ⟨_, (keyUpdate_goes hp key).trans (next_congr (if_pos hk)), updateKeys_arms s chip port k q key, fun a b hab ht hn => ?_⟩
  exact updateKeys_takes (fun he => absurd (congrArg Prod.fst he) (Nat.ne_of_gt hk)) key hab ht hn

theorem keyRotationTimer_updates {s : State} {chip port k q : Nat} (hp : (s.port chip port).peer = some (k, q)) (hk : chip < k)
    (h1 : (s.port chip port).trained = true) (h2 : (s.port k q).trained = true) : exec (.keyRotationTimer chip port) s =
      exec (.keyUpdate chip port (Config.updatedKey chip port (s.port chip port).generation)) s := by
  rw [keyRotationTimer_goes hp, keyUpdate_goes hp, if_pos hk, if_pos hk, rotateKeys_goes hp hk h1 h2]

/-- Settles O56: each step of the fabric in its cases, from what it does to the queue, the frames, the slot or the keys of its port. -/
theorem ouvvalSteps : Obligations.OuvvalSteps := by
  unfold Obligations.OuvvalSteps
  intro s chip port id cls position since n e h key key' ch ok p c qc joins queued mayGo keeps unlocks next lit starts greets leaves got dropped
  refine ⟨?_, ?_, ?_, ouvvalFrame_none, ?_, takeAnswer_good s chip port n, takeAnswer_bad s chip port n, ?_, ?_, ?_, ?_, ?_, ?_, rfl, ?_, ?_, ?_, ?_,
    endSlot_ends, relayEntry_relays, relayCredit_returns, ?_, rotorTableChange_off, ?_, ?_⟩
  · rintro ⟨he, hop, hq⟩ hc
    exact entryEnqueue_waits he hop hq hc
  · rintro ⟨he, hop, hq⟩ hc
    refine ⟨fun k hk => JoinsQueue.goes (entryEnqueue_joins he hop hq hc hk) (joinQueue_joins _ _ _ _ _), fun hn hr =>
      ⟨fun k x via hv hk => JoinsQueue.goes (entryEnqueue_relays he hop hq hc hn hr hv hk) (joinQueue_joins _ _ _ _ _), fun tr hv hb =>
        ⟨_, entryEnqueue_drops he hop hq hc hn hr hv, dropEntry_parcelOffer he hb⟩⟩⟩
  · rintro k q x y hp ⟨hs, hpos, hcls, h0, hctl, hsw⟩ hahead hclosed hfind he hcr hused
    have hg := entryAdmission_goes hp hs hpos hcls h0 hctl hsw hahead hclosed hfind he hcr hused
    refine ⟨fun hf => ⟨_, hg.trans (next_congr (if_pos hf)), sendEntry_sends s chip port id e position⟩, fun hf => ?_⟩
    exact hg.trans (next_congr (if_neg (by rw [hf]; decide)))
  · intro f hf
    refine ⟨ouvvalFrame_behind hf, fun hb => ⟨fun ho => ⟨fun hm => ?_, fun hm => ?_⟩, fun ho he => ?_⟩⟩
    · exact (ouvvalFrame_discards hf hb ho).trans (next_congr (if_neg (by rw [hm]; decide)))
    · exact (ouvvalFrame_discards hf hb ho).trans (next_congr (if_pos hm))
    · have ht := ouvvalFrame_takes hf hb ho
      refine ⟨fun hbody => ⟨_, ht, takeFrame_marker_drains he hbody⟩, fun k q m good hbody => ht.trans (next_congr (takeFrame_answer he hbody)), fun h1 h2 =>
        ⟨fun hw => ht.trans (next_congr (takeFrame_waits he h1 h2 hw)), fun hr hl hpl hid => ?_⟩⟩
      have ha := ht.trans (next_congr (takeFrame_arrives he h1 h2 hr hl hpl))
      exact ⟨fun hh => ⟨_, ha, arrival_relays hh⟩, fun pk v hh hbody hv => ⟨_, ha, arrival_crosses hh hbody hv hid⟩⟩
  · intro k q f r hs hp hf
    refine ⟨fun hl => ?_, fun hl => ?_, fun hl => ⟨_, negativeAcknowledgement_fails hs hp hf hl, failPort_fails s chip port⟩⟩
    · obtain ⟨t, h1, h2, -⟩ := negativeAcknowledgement_replays hs hp hf hl
      exact ⟨t, h1, h2⟩
    · obtain ⟨t, h1, -, h3⟩ := negativeAcknowledgement_replays hs hp hf hl
      exact ⟨t, h1, h3⟩
  · exact fun hd => ⟨slotStart_dark hd, next_congr (checkHello_dark hd), darkPeriodMissed_dark hd⟩
  · rintro ⟨hd, hf, hl⟩ hx
    obtain ⟨t, h1, h2, h3⟩ := slotStart_opens hd hf hl hx
    exact ⟨t, h1, h2.trans (advance_slot p), h3⟩
  · rintro ⟨hd, hf, hl⟩ hx hs
    obtain ⟨t, h1, h2, h3, h4, h5⟩ := slotStart_drains hd hf hl hx hs
    exact ⟨t, h1, h2, h3, h4.trans (advance_slot p), h5⟩
  · exact fun hd hk hx hs => (darkPeriodMissed_leaves hd hk hx hs).trans (slotStart_leaves hd hx hs).symm
  · exact fun hl => if_pos hl
  · refine fun hd hr hb => ⟨fun ha hl => ⟨fun hg => next_congr (checkHello_early hd hr hb ha hl hg), fun hg => hello_locks hd hr hb ha hl hg⟩,
      fun ha hl h1 h2 => next_congr (checkHello_keeps hd hr hb ha hl h1 h2), fun hx => ?_⟩
    exact ⟨_, next_congr (checkHello_unlocks hd hr hb hx), unlock_unlocks s chip port⟩
  · exact fun hd hr hb => next_congr (checkHello_between hd hr hb)
  · exact fun hd ha hw hg hr => hello_relocks hd ha hw hg hr
  · rintro ⟨hd, hf, hl⟩ hk hx
    refine ⟨fun hm => ?_, darkPeriodMissed_second hd hf hk hl hx⟩
    obtain ⟨t, h1, h2, h3⟩ := darkPeriodMissed_first hd hf hk hl hx hm
    exact ⟨t, h1, h2.trans (advance_slot p), h3⟩
  · refine fun k q hp => ⟨fun hk => ⟨?_, ?_⟩, fun hk => ⟨?_, keyRotationTimer_updates hp hk⟩⟩
    · exact (keyUpdate_goes hp key').trans (next_congr (if_neg (Nat.not_lt.2 hk)))
    · exact (keyRotationTimer_goes hp).trans (next_congr (if_neg (Nat.not_lt.2 hk)))
    · obtain ⟨t, h1, h2, h3⟩ := keyUpdate_takes hp hk key'
      refine ⟨t, h1, h2, fun a b hab ht hn => ?_⟩
      dsimp only
      rw [h3 a b hab ht hn]
      exact loadKey_loads (s.port a b) (Config.linkKey key' a b)
  · refine fun ho hp => ?_
    by_cases hk : key.getLsbD 29 = true
    · obtain ⟨t, h1, h2⟩ := rotorTableChange_arms ho hp hk
      exact ⟨t, h1, fun _ => h2, fun hn => absurd (hk.symm.trans hn) (by decide)⟩
    · obtain ⟨t, h1, h2⟩ := rotorTableChange_writes ho hp (Bool.not_eq_true _ ▸ hk)
      exact ⟨t, h1, fun hn => absurd hn hk, fun _ => h2⟩
  · intro ha hs hd
    have hx := relock_relocks (s := s) (chip := chip) (port := port) (Bool.and_eq_true_iff.2 ⟨ha, hs⟩) hd
    obtain ⟨h1, -, h3, h4, h5, h6⟩ := hx.port
    exact ⟨_, rfl, h1, h3, h4, h5, h6, hx.tables⟩

end Sys2Proof.Machine
end

section
/-! Proofs. Memory in its canonical form: what an outcome, a choice or a result keeps of it (95; O59). -/

namespace Sys2Proof.Machine

/-! ### Results whose states have canonical memory -/

/-- The next state, if there is one, has canonical memory. -/
inductive Out.MemOk : Out → Prop
  | next {t : State} (h : t.MemOk) : Out.MemOk (.next t)
  | fault {f : Fault} : Out.MemOk (.fault f)
  | refused {r : Refusal} : Out.MemOk (.refused r)

/-- The state that a choice runs from, or has reached, has canonical memory. -/
inductive Selected.MemOk : Selected → Prop
  | run {i : Instr} {t : State} (h : t.MemOk) : Selected.MemOk (.run i t)
  | done {t : State} (h : t.MemOk) : Selected.MemOk (.done t)

/-- The state that a request leaves at its home has canonical memory. -/
inductive Performed.MemOk : Performed → Prop
  | done {t : State} {l : List Byte} {b : Bool} {o : Option (Nat × Word)} (h : t.MemOk) : Performed.MemOk (.done t l b o)
  | waitLine {l : Nat} : Performed.MemOk (.waitLine l)
  | waitExtent {t : State} {r : Req} (h : t.MemOk) : Performed.MemOk (.waitExtent t r)
  | forward {t : State} {x : Target} {r : Req} (h : t.MemOk) : Performed.MemOk (.forward t x r)

/-- The state that the writing of chunks leads to has canonical memory. -/
inductive Sent.MemOk : Sent → Prop
  | all {t : State} (h : t.MemOk) : Sent.MemOk (.all t)
  | wait {t : State} (h : t.MemOk) : Sent.MemOk (.wait t)
  | fault {t : State} {c : Nat} {v : Word} {n : Nat} (h : t.MemOk) : Sent.MemOk (.fault t c v n)

/-- The state that a join leads to has canonical memory. -/
inductive Joined.MemOk : Joined → Prop
  | freed {t : State} (h : t.MemOk) : Joined.MemOk (.freed t)
  | resumed {t : State} (h : t.MemOk) : Joined.MemOk (.resumed t)
  | raise {t : State} (h : t.MemOk) : Joined.MemOk (.raise t)

/-- The state in a result, if there is one, has canonical memory. -/
inductive OptMemOk {α : Type} (f : α → State) : Option α → Prop
  | some {a : α} (h : (f a).MemOk) : OptMemOk f (.some a)
  | none : OptMemOk f .none

theorem Out.MemOk.of_next {o : Out} {t : State} (e : o = .next t) (h : Out.MemOk o) : t.MemOk := by
  cases h with
  | next h => exact Host.Outcome.next.inj e ▸ h
  | fault => nomatch e
  | refused => nomatch e

theorem memOk_of_mem {s t : State} (e : t.mem = s.mem) (h : s.MemOk) : t.MemOk := by rwa [State.MemOk, e]

theorem Performed.MemOk.of_done {x : Performed} {t : State} {l : List Byte} {b : Bool} {o : Option (Nat × Word)} (e : x = .done t l b o) (h : x.MemOk) : t.MemOk := by
  subst e
  cases h
  assumption

theorem Performed.MemOk.of_waitExtent {x : Performed} {t : State} {r : Req} (e : x = .waitExtent t r) (h : x.MemOk) : t.MemOk := by
  subst e
  cases h
  assumption

theorem Performed.MemOk.of_forward {x : Performed} {t : State} {y : Target} {r : Req} (e : x = .forward t y r) (h : x.MemOk) : t.MemOk := by
  subst e
  cases h
  assumption

theorem Sent.MemOk.of_all {x : Sent} {t : State} (e : x = .all t) (h : x.MemOk) : t.MemOk := by
  subst e
  cases h
  assumption

theorem Sent.MemOk.of_wait {x : Sent} {t : State} (e : x = .wait t) (h : x.MemOk) : t.MemOk := by
  subst e
  cases h
  assumption

theorem Sent.MemOk.of_fault {x : Sent} {t : State} {c : Nat} {v : Word} {n : Nat} (e : x = .fault t c v n) (h : x.MemOk) : t.MemOk := by
  subst e
  cases h
  assumption

theorem Joined.MemOk.of_freed {x : Joined} {t : State} (e : x = .freed t) (h : x.MemOk) : t.MemOk := by
  subst e
  cases h
  assumption

theorem Joined.MemOk.of_resumed {x : Joined} {t : State} (e : x = .resumed t) (h : x.MemOk) : t.MemOk := by
  subst e
  cases h
  assumption

theorem Joined.MemOk.of_raise {x : Joined} {t : State} (e : x = .raise t) (h : x.MemOk) : t.MemOk := by
  subst e
  cases h
  assumption

theorem fst_memOk {α : Type} {r : State × α} {t : State} {a : α} (e : r = (t, a)) (h : r.1.MemOk) : t.MemOk := by
  rw [e] at h
  exact h

theorem snd_memOk {α : Type} {r : α × State} {t : State} {a : α} (e : r = (a, t)) (h : r.2.MemOk) : t.MemOk := by
  rw [e] at h
  exact h

theorem some_memOk {α : Type} {f : α → State} {o : Option α} {a : α} (e : o = some a) (h : OptMemOk f o) : (f a).MemOk := by
  subst e
  cases h
  assumption

theorem foldl_memOk {α : Type} {f : State → α → State} {l : List α} {s : State} (hf : ∀ s a, s.MemOk → (f s a).MemOk) (h : s.MemOk) :
    (l.foldl f s).MemOk := by
  induction l generalizing s with
  | nil => exact h
  | cons a l ih => exact ih (hf s a h)

theorem foldl_fst_memOk {α β : Type} {f : State × β → α → State × β} {l : List α} {r : State × β}
    (hf : ∀ r a, r.1.MemOk → (f r a).1.MemOk) (h : r.1.MemOk) : (l.foldl f r).1.MemOk := by
  induction l generalizing r with
  | nil => exact h
  | cons a l ih => exact ih (hf r a h)

theorem foldl_snd_memOk {α β : Type} {f : β × State → α → β × State} {l : List α} {r : β × State}
    (hf : ∀ r a, r.2.MemOk → (f r a).2.MemOk) (h : r.2.MemOk) : (l.foldl f r).2.MemOk := by
  induction l generalizing r with
  | nil => exact h
  | cons a l ih => exact ih (hf r a h)

end Sys2Proof.Machine
end

section
/-! Proofs. Memory stays canonical: Ops, Address, Fabric, Round (95; O59). -/

namespace Sys2Proof.Machine

/-! ### Ops -/

theorem State.setSlot_memOk {s : State} {t : Nat} {v : Slot} (h : s.MemOk) : (s.setSlot t v).MemOk := memOk_of_mem (State.setSlot_mem _ _ _) h

theorem State.modSlot_memOk {s : State} {t : Nat} {f : Slot → Slot} (h : s.MemOk) : (s.modSlot t f).MemOk := memOk_of_mem (State.modSlot_mem _ _ _) h

theorem State.modCore_memOk {s : State} {c : Nat} {f : Core → Core} (h : s.MemOk) : (s.modCore c f).MemOk := memOk_of_mem (State.modCore_mem _ _ _) h

theorem State.modNode_memOk {s : State} {n : Nat} {f : Node → Node} (h : s.MemOk) : (s.modNode n f).MemOk := memOk_of_mem (State.modNode_mem _ _ _) h

theorem State.modDie_memOk {s : State} {d : Nat} {f : Die → Die} (h : s.MemOk) : (s.modDie d f).MemOk := memOk_of_mem (State.modDie_mem _ _ _) h

theorem State.modChip_memOk {s : State} {c : Nat} {f : Chip → Chip} (h : s.MemOk) : (s.modChip c f).MemOk := memOk_of_mem (modChip_sends _ _ _).mem h

theorem State.modParish_memOk {s : State} {p : Nat} {f : Parish → Parish} (h : s.MemOk) :
    (s.modParish p f).MemOk :=
  memOk_of_mem (State.modParish_mem _ _ _) h

theorem State.modTask_memOk {s : State} {t : Nat} {f : Task → Task} (h : s.MemOk) : (s.modTask t f).MemOk := memOk_of_mem (State.modTask_mem _ _ _) h

theorem State.setSubmission_memOk {s : State} {t : Nat} {v : Submission} (h : s.MemOk) :
    (s.setSubmission t v).MemOk :=
  memOk_of_mem (State.setSubmission_mem _ _ _) h

theorem State.setSubscription_memOk {s : State} {t : Nat} {v : Subscription} (h : s.MemOk) :
    (s.setSubscription t v).MemOk :=
  memOk_of_mem (State.setSubscription_mem _ _ _) h

theorem State.modRoll_memOk {s : State} {d r : Nat} {f : Roll → Roll} (h : s.MemOk) : (s.modRoll d r f).MemOk := State.modDie_memOk h

theorem State.modGranary_memOk {s : State} {n g : Nat} {f : Granary → Granary} (h : s.MemOk) : (s.modGranary n g f).MemOk := State.modNode_memOk h

theorem State.modPort_memOk {s : State} {c p : Nat} {f : Port → Port} (h : s.MemOk) : (s.modPort c p f).MemOk := State.modChip_memOk h

theorem State.modAccess_memOk {s : State} {id : Nat} {f : Access → Access} (h : s.MemOk) :
    (s.modAccess id f).MemOk :=
  memOk_of_mem (State.modAccess_mem _ _ _) h

theorem State.modPacket_memOk {s : State} {id : Nat} {f : Packet → Packet} (h : s.MemOk) :
    (s.modPacket id f).MemOk :=
  memOk_of_mem (State.modPacket_mem _ _ _) h

theorem State.dropPacket_memOk {s : State} {id : Nat} (h : s.MemOk) : (s.dropPacket id).MemOk := memOk_of_mem (State.dropPacket_mem _ _) h

theorem State.modOp_memOk {s : State} {id : Nat} {f : EngOp → EngOp} (h : s.MemOk) : (s.modOp id f).MemOk := memOk_of_mem (State.modOp_mem _ _ _) h

theorem State.push_memOk {s : State} {d : Due} (h : s.MemOk) : (s.push d).MemOk := (State.push_due _ _).keeps.ok h

theorem State.pushOnce_memOk {s : State} {d : Due} (h : s.MemOk) : (s.pushOnce d).MemOk := (State.pushOnce_due _ _).keeps.ok h

theorem State.event_memOk {s : State} {i : Instr} (h : s.MemOk) : (s.event i).MemOk := memOk_of_mem (State.event_mem _ _) h

theorem State.timer_memOk {s : State} {core n : Nat} {d : Due} (h : s.MemOk) : (s.timer core n d).MemOk := h

theorem State.machineCheck_memOk {s : State} {node storage : Nat} {addr : Word} (h : s.MemOk) :
    (s.machineCheck node storage addr).MemOk :=
  State.modChip_memOk h

theorem State.correct_memOk {s : State} {pa n : Nat} (h : s.MemOk) : (s.correct pa n).MemOk := memOk_of_mem (correct_keeps _ _ _).mem h

theorem State.findError_memOk {s : State} {pas : List Nat} (h : s.MemOk) : (s.findError pas).1.MemOk := by
  unfold State.findError
  split
  · exact h
  · split
    · exact State.machineCheck_memOk h
    · exact foldl_memOk (fun _ _ h1 => State.correct_memOk h1) h

theorem State.modHere_memOk {s : State} {f : Slot → Slot} (h : s.MemOk) : (s.modHere f).MemOk := memOk_of_mem (State.modHere_mem _ _) h

theorem State.setRegOf_memOk {s : State} {t : Nat} {n : Field4} {v : Word} (h : s.MemOk) :
    (s.setRegOf t n v).MemOk :=
  memOk_of_mem (setRegOf_mem _ _ _ _) h

theorem State.setReg_memOk {s : State} {n : Field4} {v : Word} (h : s.MemOk) : (s.setReg n v).MemOk := State.setRegOf_memOk h

theorem State.setPred_memOk {s : State} {p : Field4} {v : Bool} (h : s.MemOk) : (s.setPred p v).MemOk := State.modHere_memOk h

theorem State.finishOf_memOk {s : State} {t : Nat} (h : s.MemOk) : (s.finishOf t).MemOk := State.modSlot_memOk h

theorem State.finish_memOk {s : State} (h : s.MemOk) : s.finish.MemOk := State.finishOf_memOk h

theorem State.jump_memOk {s : State} {pc : Word} (h : s.MemOk) : (s.jump pc).MemOk := State.modHere_memOk h

theorem State.park_memOk {s : State} {w : Wait} (h : s.MemOk) : (s.park w).MemOk := State.modHere_memOk h

theorem State.trapIn_memOk {s : State} {t c : Nat} {v : Word} (h : s.MemOk) : (s.trapIn t c v).MemOk := (trapIn_keeps _ _ _ _).ok h

theorem State.trap_memOk {s : State} {c : Nat} {v : Word} (h : s.MemOk) : (s.trap c v).MemOk := State.trapIn_memOk h

theorem State.eret_memOk {s : State} (h : s.MemOk) : s.eret.MemOk := by
  unfold State.eret
  split
  · exact State.modHere_memOk h
  · exact State.trap_memOk h

theorem scalar_memOk {g : Guard} {s : State} {k : State → State} (h : s.MemOk) (hk : ∀ (a : State), a.MemOk → (k a).MemOk) :
    (scalar g s k).MemOk := by
  unfold scalar
  refine .next ?_
  split
  · exact hk _ h
  · exact State.finish_memOk h

theorem withDest_memOk {d : Field4} {s : State} {k : State → State} (h : s.MemOk) (hk : ∀ (a : State), a.MemOk → (k a).MemOk) :
    (withDest d s k).MemOk := by
  unfold withDest
  split
  · exact State.trap_memOk h
  · exact hk _ h

theorem atHome_memOk {s : State} {k : State → State} (h : s.MemOk) (hk : ∀ (a : State), a.MemOk → (k a).MemOk) : (atHome s k).MemOk := by
  unfold atHome
  split
  · exact State.trap_memOk h
  · exact hk _ h

theorem State.modContext_memOk {s : State} {t r : Nat} {f : Slot → Slot} (h : s.MemOk) : (s.modContext t r f).MemOk := (modContext_keeps _ _ _ _).ok h

theorem State.wakeIf_memOk {s : State} {p : Nat → Slot → Bool} (h : s.MemOk) : (s.wakeIf p).MemOk := (State.wakeIf_due _ _).keeps.ok h

theorem State.freeSlot_memOk {s : State} {t : Nat} (h : s.MemOk) : (s.freeSlot t).MemOk := memOk_of_mem (freeSlot_storage _ _).mem h

theorem State.pokeTask_memOk {s : State} {t : Nat} (h : s.MemOk) : (s.pokeTask t).MemOk := (State.pokeTask_due _ _).keeps.ok h

theorem State.pokeBoard_memOk {s : State} {l : Nat} (h : s.MemOk) : (s.pokeBoard l).MemOk := (State.pokeBoard_due _ _).keeps.ok h

theorem State.fillLine_memOk {s : State} {l : Nat} (h : s.MemOk) : (s.fillLine l).MemOk := by
  unfold State.fillLine
  split
  · extract_lets s1 s2 s3
    have h1 : s1.MemOk := State.pokeBoard_memOk h
    have h2 : s2.MemOk := State.wakeIf_memOk h1
    have h3 : s3.MemOk := by
      unfold s3
      refine foldl_memOk ?_ h2
      intro _ _ h3
      split
      · exact State.event_memOk h3
      · exact h3
    refine foldl_memOk ?_ h3
    intro _ _ h4
    split
    · exact State.pushOnce_memOk h4
    · exact h4
  · exact h

theorem State.pokePages_memOk {s : State} {l : Nat} (h : s.MemOk) : (s.pokePages l).MemOk := (State.pokePages_due _ _).keeps.ok h

theorem State.emptyLine_memOk {s : State} {l : Nat} (h : s.MemOk) : (s.emptyLine l).MemOk := by
  unfold State.emptyLine
  split
  · exact State.pokePages_memOk (State.pokeBoard_memOk h)
  · exact h

theorem withRelease_memOk {s : State} {k : State → State} (h : s.MemOk) (hk : ∀ (a : State), a.MemOk → (k a).MemOk) : (withRelease s k).MemOk := by
  unfold withRelease
  split
  · exact State.park_memOk h
  · split
    · exact State.trap_memOk h
    · split
      · exact State.trap_memOk (State.modHere_memOk h)
      · split
        · exact State.trap_memOk (State.modHere_memOk h)
        · exact hk _ h

theorem State.fresh_memOk {s : State} (h : s.MemOk) : s.fresh.2.MemOk := h

theorem State.free_memOk {s : State} (h : s.MemOk) : s.free.2.MemOk := h

/-! ### Address -/

theorem State.countExtent_memOk {s : State} {chip parish obj off : Nat} (h : s.MemOk) :
    (s.countExtent chip parish obj off).MemOk :=
  memOk_of_mem (adds_countExtent _ _ _ _ _).mem h

theorem State.missed_memOk {s : State} {n k : Nat} (h : s.MemOk) : (s.missed n k).MemOk := by
  unfold State.missed
  split
  · exact h
  · exact State.event_memOk (State.modNode_memOk h)

theorem State.touch_memOk {s : State} {t : Nat} {a : Word} (h : s.MemOk) : (s.touch t a).MemOk := by
  unfold State.touch
  split
  · exact h
  · extract_lets _ _ _ _ _ s1 s2
    have h1 : s1.MemOk := State.countExtent_memOk h
    have h2 : s2.MemOk := by
      unfold s2
      split
      · exact h1
      · exact State.missed_memOk (State.modCore_memOk h1)
    exact State.missed_memOk h2

/-! ### Fabric -/

theorem State.send_memOk {s : State} {pl : Payload} {cls : Class} {parish src dst : Nat} {channel : Bool} (h : s.MemOk) :
    (s.send pl cls parish src dst channel).MemOk :=
  memOk_of_mem (adds_send _ _ _ _ _ _ _).mem h

theorem State.sendMulticast_memOk {s : State} {pl : Payload} {parish src : Nat} {dsts : List (Nat × Nat)} (h : s.MemOk) :
    (s.sendMulticast pl parish src dsts).MemOk :=
  memOk_of_mem (sendMulticast_sends _ _ _ _ _).mem h

theorem State.nextSeq_memOk {s : State} {src dst : Nat} (h : s.MemOk) : (s.nextSeq src dst).2.MemOk := by
  unfold State.nextSeq
  extract_lets _
  exact State.modNode_memOk h

theorem State.addAccess_memOk {s : State} {a : Access} (h : s.MemOk) : (s.addAccess a).2.MemOk := by
  unfold State.addAccess
  split
  · split
    · next s1 e1 =>
      have h1 : s1.MemOk := snd_memOk e1 (State.nextSeq_memOk h)
      split
      · next s2 e2 =>
        have h2 : s2.MemOk := snd_memOk e2 (State.fresh_memOk h1)
        exact h2

theorem State.armRetry_memOk {s : State} {id : Nat} {a : Access} {dst : Nat} (h : s.MemOk) :
    (s.armRetry id a dst).MemOk :=
  memOk_of_mem (armRetry_sends _ _ _ _).mem h

theorem State.dropRetry_memOk {s : State} {id : Nat} (h : s.MemOk) : (s.dropRetry id).MemOk := h

theorem State.request_memOk {s : State} {a : Access} (h : s.MemOk) : (s.request a).2.MemOk := by
  unfold State.request
  split
  · next s1 e =>
    have h1 : s1.MemOk := snd_memOk e (State.addAccess_memOk h)
    split
    · exact State.armRetry_memOk (State.send_memOk h1)

theorem State.requestDirect_memOk {s : State} {a : Access} (h : s.MemOk) : (s.requestDirect a).2.MemOk := by
  unfold State.requestDirect
  split
  · next s1 e =>
    have h1 : s1.MemOk := snd_memOk e (State.addAccess_memOk h)
    split
    · next s2 e1 =>
      have h2 : s2.MemOk := snd_memOk e1 (State.fresh_memOk h1)
      extract_lets _ s3
      have h3 : s3.MemOk := h2
      exact State.event_memOk h3

theorem State.markDropped_memOk {s : State} {t : Nat} {a : Word} (h : s.MemOk) : (s.markDropped t a).MemOk := (markDropped_keeps _ _ _).ok h

theorem State.modEntry_memOk {s : State} {id : Nat} {f : Entry → Entry} (h : s.MemOk) : (s.modEntry id f).MemOk := h

theorem State.dropEntryRec_memOk {s : State} {id : Nat} (h : s.MemOk) : (s.dropEntryRec id).MemOk := h

theorem State.sealFrames_memOk {s : State} {chip port id : Nat} {peer : Nat × Nat} {n : Nat} (h : s.MemOk) :
    (s.sealFrames chip port id peer n).MemOk :=
  foldl_memOk (fun _ _ h1 => State.event_memOk (State.modPort_memOk h1)) h

theorem State.sendMarker_memOk {s : State} {chip port : Nat} (h : s.MemOk) : (s.sendMarker chip port).MemOk := by
  unfold State.sendMarker
  extract_lets _ s1
  have h1 : s1.MemOk := State.modPort_memOk h
  split
  · exact h
  · split
    · split
      · next s2 e2 =>
        have h2 : s2.MemOk := snd_memOk e2 (State.fresh_memOk h1)
        exact State.sealFrames_memOk h2
    · exact h1

theorem State.armRotation_memOk {s : State} {chip port : Nat} (h : s.MemOk) : (s.armRotation chip port).MemOk := by
  unfold State.armRotation
  extract_lets _
  exact State.timer_memOk h

theorem State.takeKey_memOk {s : State} {chip port : Nat} {key : BitVec 256} (h : s.MemOk) : (s.takeKey chip port key).MemOk := State.modPort_memOk h

theorem State.updateKeys_memOk {s : State} {chip port c q : Nat} {key : BitVec 256} (h : s.MemOk) :
    (s.updateKeys chip port c q key).MemOk :=
  State.armRotation_memOk (State.takeKey_memOk (State.takeKey_memOk h))

theorem State.rotateKeys_memOk {s : State} {chip port : Nat} (h : s.MemOk) : (s.rotateKeys chip port).MemOk := by
  unfold State.rotateKeys
  split
  · split
    · exact h
    · split
      · exact State.updateKeys_memOk h
      · exact State.updateKeys_memOk h
  · exact h

theorem State.acquire_memOk {s : State} {t : Nat} {sts : List Stamp} (h : s.MemOk) : (s.acquire t sts).MemOk := by
  unfold State.acquire
  extract_lets _
  split
  · exact h
  · split
    · exact State.setSlot_memOk h

theorem State.addStamps_memOk {s : State} {pas : List Nat} {st : Stamp} (h : s.MemOk) :
    (s.addStamps pas st).MemOk :=
  memOk_of_mem (State.addStamps_mem _ _ _) h

theorem State.capture_memOk {s : State} {n : Nat} {c : Captured} (h : s.MemOk) : (s.capture n c).MemOk := by
  unfold State.capture
  extract_lets _ _ _
  split
  · exact h
  · exact State.modParish_memOk (State.write_memOk _ h)

theorem State.clearShadow_memOk {s : State} {pa n : Nat} (h : s.MemOk) : (s.clearShadow pa n).MemOk := h

theorem State.wakeNoticeFor_memOk {s : State} {home thread acc : Nat} {overrun : Bool} {sts : List Stamp} {parish : Nat} (h : s.MemOk) :
    (s.wakeNoticeFor home thread acc overrun sts parish).MemOk :=
  State.send_memOk h

theorem State.examineFlag_memOk {s : State} {pa : Nat} {old new : Word} {parish : Nat} (h : s.MemOk) : (s.examineFlag pa old new parish).MemOk := by
  unfold State.examineFlag
  extract_lets _ _
  split
  · extract_lets s1 s2
    have h1 : s1.MemOk := State.setBytes_memOk _ h
    have h2 : s2.MemOk := State.modNode_memOk h1
    exact foldl_memOk (fun _ _ h3 => State.wakeNoticeFor_memOk h3) h2

theorem State.changeFlag_memOk {s : State} {pa : Nat} {new : Word} {st : Stamp} {parish : Nat} (h : s.MemOk) :
    (s.changeFlag pa new st parish).MemOk :=
  State.examineFlag_memOk (State.addStamps_memOk h)

theorem State.examineWritten_memOk {s s' : State} {pas : List Nat} {parish : Nat} (h : s.MemOk) (h1 : s'.MemOk) :
    (s.examineWritten s' pas parish).MemOk := by
  unfold State.examineWritten
  split
  · exact h1
  · extract_lets _
    exact foldl_memOk (fun _ _ h2 => State.examineFlag_memOk h2) h1

theorem State.logRace_memOk {s : State} {who : Accessor} {rec : List Word} (h : s.MemOk) : (s.logRace who rec).1.MemOk := by
  unfold State.logRace
  extract_lets _ _ _
  split
  · extract_lets _ s1
    have h1 : s1.MemOk := by
      unfold s1
      split
      · exact h
      · exact State.countExtent_memOk h
    split
    · exact State.request_memOk h1
    · exact h
  · exact h

theorem State.raceAccess_memOk {s : State} {who : Accessor} {pa : Nat} {addr : Word} {gen kind : Nat} {atomic : Bool} {scope : Nat}
    {writes : Bool} (h : s.MemOk) :
    (s.raceAccess who pa addr gen kind atomic scope writes).1.MemOk := by
  unfold State.raceAccess
  extract_lets _ _ _ _ mark
  have h1 : ∀ (s : State), s.MemOk → (mark s).MemOk := by
    intro _ h1
    unfold mark
    split
    · exact h1
    · exact h1
  split
  · exact h
  · split
    · split
      · next s1 _ e2 =>
        have h2 : s1.MemOk := by
          refine fst_memOk e2 ?_
          split
          · exact State.logRace_memOk h
          · exact h
        split
        · exact h2
        · split
          · exact h1 _ h2
          · exact h2
    · exact h1 _ h

theorem State.raceMark_memOk {s : State} {t pa scope : Nat} (h : s.MemOk) : (s.raceMark t pa scope).MemOk := by
  unfold State.raceMark
  split
  · exact h
  · extract_lets _
    exact h

theorem State.raceScalar_memOk {s : State} {t : Nat} {target : Target} {addr : Word} {kind : Nat} {atomic : Bool} {scope : Nat} {writes : Bool}
    (h : s.MemOk) :
    (s.raceScalar t target addr kind atomic scope writes).1.MemOk := by
  unfold State.raceScalar
  split
  · extract_lets _
    split
    · exact h
    · exact State.raceAccess_memOk h
  · exact h

theorem State.raceBytes_memOk {s : State} {t : Nat} {o : Word} {pas : List Nat} {kind : Nat} {writes : Bool} (h : s.MemOk) :
    (s.raceBytes t o pas kind writes).1.MemOk := by
  unfold State.raceBytes
  extract_lets _
  refine foldl_fst_memOk ?_ h
  intro _ _ h1
  split
  · exact h1
  · exact State.raceAccess_memOk h1

theorem State.readEarly_memOk {s : State} {t : Nat} {accs : List Nat} (h : s.MemOk) : (s.readEarly t accs).MemOk := by
  unfold State.readEarly
  split
  · exact h
  · exact State.modSlot_memOk h

theorem State.pokeTurns_memOk {s : State} {id : Nat} (h : s.MemOk) : (s.pokeTurns id).MemOk := (State.pokeTurns_moved _ _).keeps.ok h

theorem State.pokeForks_memOk {s : State} (h : s.MemOk) : s.pokeForks.MemOk := (State.pokeForks_due _).keeps.ok h

theorem State.issueChange_memOk {s : State} {parish : Nat} {c : Change} {transit : Nat} (h : s.MemOk) :
    (s.issueChange parish c transit).MemOk :=
  memOk_of_mem (issueChange_sends _ _ _ _).mem h

theorem State.retireAccess_memOk {s : State} {id : Nat} (h : s.MemOk) : (s.retireAccess id).MemOk := (retireAccess_keeps _ _).ok h

theorem State.countFlag_memOk {s : State} {from' thread parish : Nat} {flag : Word} {st : Stamp} (h : s.MemOk) :
    (s.countFlag from' thread parish flag st).MemOk :=
  memOk_of_mem (adds_countFlag _ _ _ _ _ _).mem h

/-! ### Round -/

theorem State.scrubAt_memOk {s : State} {pa n : Nat} (h : s.MemOk) : (s.scrubAt pa n).MemOk := by
  unfold State.scrubAt
  refine foldl_memOk ?_ (State.correct_memOk h)
  intro _ _ h1
  split
  · exact State.machineCheck_memOk h1
  · exact h1

theorem State.scrubChannel_memOk {s : State} {n chip channel : Nat} (h : s.MemOk) :
    (s.scrubChannel n chip channel).MemOk :=
  State.modNode_memOk (State.scrubAt_memOk h)

theorem State.tick_memOk {s : State} {core : Nat} (h : s.MemOk) : (s.tick core).MemOk := by
  unfold State.tick
  extract_lets _ s1
  have h1 : s1.MemOk := by
    unfold s1
    split
    · exact State.event_memOk h
    · exact h
  split
  · exact State.scrubChannel_memOk h1
  · exact h1

theorem State.idle_memOk {s : State} {core : Nat} (h : s.MemOk) : (s.idle core).MemOk := State.tick_memOk (State.modCore_memOk h)

theorem State.takeCycle_memOk {s : State} {core i : Nat} (h : s.MemOk) : (s.takeCycle core i).MemOk := State.tick_memOk (State.modCore_memOk h)

theorem State.decodeHere_memOk {s : State} {w : Word32} (h : s.MemOk) : (s.decodeHere w).MemOk := by
  unfold State.decodeHere
  split
  · exact .run h
  · exact .done (State.trap_memOk h)
  · exact .done (State.trap_memOk h)

theorem State.issueOn_memOk {s : State} {core : Nat} (h : s.MemOk) : (s.issueOn core).MemOk := by
  unfold State.issueOn
  split
  · exact .done h
  · split
    · exact .done (State.idle_memOk h)
    · extract_lets _ s1 _
      have h1 : s1.MemOk := h
      split
      · exact .done (State.trapIn_memOk (State.takeCycle_memOk h1))
      · exact .done (State.event_memOk (State.park_memOk (State.takeCycle_memOk h1)))
      · exact .done (State.park_memOk (State.takeCycle_memOk h1))
      · exact State.decodeHere_memOk (State.takeCycle_memOk (State.modHere_memOk h1))

theorem State.endSlot_memOk {s : State} {chip port slot rotation : Nat} (h : s.MemOk) : (s.endSlot chip port slot rotation).MemOk := by
  unfold State.endSlot
  extract_lets _ s1
  have h1 : s1.MemOk := by
    unfold s1
    split
    · exact State.sendMarker_memOk h
    · exact h
  split
  · exact State.modPort_memOk h1
  · exact h

theorem State.take_memOk {s : State} {d : Due} {notice : State → Notice → Nat → Nat → State} (h : s.MemOk)
    (hnotice : ∀ (a : State) (a_1 : Notice) (a_2 a_3 : Nat), a.MemOk → (notice a a_1 a_2 a_3).MemOk) :
    (s.take d notice).MemOk := by
  unfold State.take
  split
  · exact .run h
  · split
    · split
      · exact .run h
      · exact .done h
    · exact .done h
  · split
    · exact State.decodeHere_memOk h
    · exact .done h
  · exact .done (hnotice _ _ _ _ h)
  · exact .done (State.endSlot_memOk h)
  · exact .done (State.rotateKeys_memOk h)
  · exact .done (State.modChip_memOk h)

theorem State.preemptSlot_memOk {s : State} {t : Nat} (h : s.MemOk) : (s.preemptSlot t).MemOk := by
  unfold State.preemptSlot
  split
  · exact State.event_memOk (State.modSlot_memOk h)
  · exact State.event_memOk (State.modSlot_memOk h)
  · exact h

theorem State.boardUpset_memOk {s : State} {node : Nat} {u : Bool} (h : s.MemOk) : (s.boardUpset node u).MemOk := by
  unfold State.boardUpset
  split
  · exact State.machineCheck_memOk h
  · exact State.modCore_memOk h

theorem State.packetUpset_memOk {s : State} {pk : Nat} {u : Bool} (h : s.MemOk) : (s.packetUpset pk u).MemOk := by
  unfold State.packetUpset
  split
  · split
    · extract_lets s1
      have h1 : s1.MemOk := State.boardUpset_memOk h
      split
      · exact State.pokeForks_memOk (State.modNode_memOk (State.dropPacket_memOk h1))
      · exact h1
    · extract_lets s1
      have h1 : s1.MemOk := State.boardUpset_memOk h
      split
      · exact State.pokeForks_memOk (State.modNode_memOk (State.dropPacket_memOk h1))
      · exact h1
    · extract_lets s1
      have h1 : s1.MemOk := State.boardUpset_memOk h
      split
      · exact State.pokeForks_memOk (State.modNode_memOk (State.dropPacket_memOk h1))
      · exact h1
    · exact h
  · exact h

theorem State.select_memOk {s : State} {notice : State → Notice → Nat → Nat → State} (h : s.MemOk)
    (hnotice : ∀ (a : State) (a_1 : Notice) (a_2 a_3 : Nat), a.MemOk → (notice a a_1 a_2 a_3).MemOk) :
    (s.select notice).MemOk := by
  unfold State.select
  split
  · split
    · exact State.take_memOk h (fun _ _ _ _ h1 => hnotice _ _ _ _ h1)
    · exact State.issueOn_memOk h
  · extract_lets s1
    have h1 : s1.MemOk := h
    split
    · exact State.take_memOk h (fun _ _ _ _ h2 => hnotice _ _ _ _ h2)
    · exact .done h1
  · exact .done (State.issueChange_memOk h)
  · exact .done h
  · exact .done (State.modGranary_memOk h)
  · exact .done (State.boardUpset_memOk h)
  · exact .done (State.packetUpset_memOk h)
  · exact .done (State.preemptSlot_memOk h)
  · exact .done (State.modParish_memOk h)
  · exact .done (State.modParish_memOk h)
  · exact .done (State.modParish_memOk h)
  · split
    · exact .run h
    · exact .done h
  · split
    · exact State.take_memOk h (fun _ _ _ _ h1 => hnotice _ _ _ _ h1)
    · split
      · exact State.take_memOk h (fun _ _ _ _ h1 => hnotice _ _ _ _ h1)
      · exact State.issueOn_memOk h

end Sys2Proof.Machine
end

section
/-! Proofs. Memory stays canonical: Alu, Wayfarer, Memory, FlagLine (95; O59). -/

namespace Sys2Proof.Machine

/-! ### Alu -/

theorem aluR_memOk {g : Guard} {d a b : Field4} {f : Word → Word → Word} {s : State} (h : s.MemOk) :
    (aluR g d a b f s).MemOk :=
  scalar_memOk h (fun _ h1 => withDest_memOk h1 (fun _ h2 => State.finish_memOk (State.setReg_memOk h2)))

theorem aluU_memOk {g : Guard} {d a : Field4} {f : Word → Word} {s : State} (h : s.MemOk) :
    (aluU g d a f s).MemOk :=
  scalar_memOk h (fun _ h1 => withDest_memOk h1 (fun _ h2 => State.finish_memOk (State.setReg_memOk h2)))

theorem execAdd_memOk {g : Guard} {d a b : Field4} {s : State} (h : s.MemOk) : (execAdd g d a b s).MemOk := aluR_memOk h

theorem execSub_memOk {g : Guard} {d a b : Field4} {s : State} (h : s.MemOk) : (execSub g d a b s).MemOk := aluR_memOk h

theorem execAnd_memOk {g : Guard} {d a b : Field4} {s : State} (h : s.MemOk) : (execAnd g d a b s).MemOk := aluR_memOk h

theorem execOr_memOk {g : Guard} {d a b : Field4} {s : State} (h : s.MemOk) : (execOr g d a b s).MemOk := aluR_memOk h

theorem execXor_memOk {g : Guard} {d a b : Field4} {s : State} (h : s.MemOk) : (execXor g d a b s).MemOk := aluR_memOk h

theorem execShl_memOk {g : Guard} {d a b : Field4} {s : State} (h : s.MemOk) : (execShl g d a b s).MemOk := aluR_memOk h

theorem execShr_memOk {g : Guard} {d a b : Field4} {s : State} (h : s.MemOk) : (execShr g d a b s).MemOk := aluR_memOk h

theorem execShra_memOk {g : Guard} {d a b : Field4} {s : State} (h : s.MemOk) : (execShra g d a b s).MemOk := aluR_memOk h

theorem execRotr_memOk {g : Guard} {d a b : Field4} {s : State} (h : s.MemOk) : (execRotr g d a b s).MemOk := aluR_memOk h

theorem execMin_memOk {g : Guard} {d a b : Field4} {s : State} (h : s.MemOk) : (execMin g d a b s).MemOk := aluR_memOk h

theorem execMax_memOk {g : Guard} {d a b : Field4} {s : State} (h : s.MemOk) : (execMax g d a b s).MemOk := aluR_memOk h

theorem execMinu_memOk {g : Guard} {d a b : Field4} {s : State} (h : s.MemOk) : (execMinu g d a b s).MemOk := aluR_memOk h

theorem execMaxu_memOk {g : Guard} {d a b : Field4} {s : State} (h : s.MemOk) : (execMaxu g d a b s).MemOk := aluR_memOk h

theorem execMul_memOk {g : Guard} {d a b : Field4} {s : State} (h : s.MemOk) : (execMul g d a b s).MemOk := aluR_memOk h

theorem execMulh_memOk {g : Guard} {d a b : Field4} {s : State} (h : s.MemOk) : (execMulh g d a b s).MemOk := aluR_memOk h

theorem execMulhu_memOk {g : Guard} {d a b : Field4} {s : State} (h : s.MemOk) : (execMulhu g d a b s).MemOk := aluR_memOk h

theorem longOp_memOk {s : State} {n d : Nat} {v fl : Word} (h : s.MemOk) : (longOp s n d v fl).MemOk := by
  unfold longOp
  extract_lets s1
  have h1 : s1.MemOk := State.modHere_memOk h
  exact State.timer_memOk (State.park_memOk h1)

theorem division_memOk {g : Guard} {d a b : Field4} {f : Word → Word → Word} {s : State} (h : s.MemOk) : (division g d a b f s).MemOk := by
  unfold division
  refine scalar_memOk h ?_
  intro _ h1
  refine withDest_memOk h1 ?_
  intro _ h2
  split
  · exact State.trap_memOk h2
  · exact longOp_memOk h2

theorem execDiv_memOk {g : Guard} {d a b : Field4} {s : State} (h : s.MemOk) : (execDiv g d a b s).MemOk := division_memOk h

theorem execDivu_memOk {g : Guard} {d a b : Field4} {s : State} (h : s.MemOk) : (execDivu g d a b s).MemOk := division_memOk h

theorem execRem_memOk {g : Guard} {d a b : Field4} {s : State} (h : s.MemOk) : (execRem g d a b s).MemOk := division_memOk h

theorem execRemu_memOk {g : Guard} {d a b : Field4} {s : State} (h : s.MemOk) : (execRemu g d a b s).MemOk := division_memOk h

theorem execClz_memOk {g : Guard} {d a : Field4} {s : State} (h : s.MemOk) : (execClz g d a s).MemOk := aluU_memOk h

theorem execCtz_memOk {g : Guard} {d a : Field4} {s : State} (h : s.MemOk) : (execCtz g d a s).MemOk := aluU_memOk h

theorem execPopc_memOk {g : Guard} {d a : Field4} {s : State} (h : s.MemOk) : (execPopc g d a s).MemOk := aluU_memOk h

theorem execSextB_memOk {g : Guard} {d a : Field4} {s : State} (h : s.MemOk) : (execSextB g d a s).MemOk := aluU_memOk h

theorem execSextH_memOk {g : Guard} {d a : Field4} {s : State} (h : s.MemOk) : (execSextH g d a s).MemOk := aluU_memOk h

theorem execSextW_memOk {g : Guard} {d a : Field4} {s : State} (h : s.MemOk) : (execSextW g d a s).MemOk := aluU_memOk h

theorem execZextB_memOk {g : Guard} {d a : Field4} {s : State} (h : s.MemOk) : (execZextB g d a s).MemOk := aluU_memOk h

theorem execZextH_memOk {g : Guard} {d a : Field4} {s : State} (h : s.MemOk) : (execZextH g d a s).MemOk := aluU_memOk h

theorem execZextW_memOk {g : Guard} {d a : Field4} {s : State} (h : s.MemOk) : (execZextW g d a s).MemOk := aluU_memOk h

theorem execAddi_memOk {g : Guard} {d a : Field4} {imm : BitVec 12} {s : State} (h : s.MemOk) : (execAddi g d a imm s).MemOk := aluU_memOk h

theorem execAndi_memOk {g : Guard} {d a : Field4} {imm : BitVec 12} {s : State} (h : s.MemOk) : (execAndi g d a imm s).MemOk := aluU_memOk h

theorem execOri_memOk {g : Guard} {d a : Field4} {imm : BitVec 12} {s : State} (h : s.MemOk) : (execOri g d a imm s).MemOk := aluU_memOk h

theorem execXori_memOk {g : Guard} {d a : Field4} {imm : BitVec 12} {s : State} (h : s.MemOk) : (execXori g d a imm s).MemOk := aluU_memOk h

theorem execShli_memOk {g : Guard} {d a : Field4} {n : BitVec 6} {s : State} (h : s.MemOk) : (execShli g d a n s).MemOk := aluU_memOk h

theorem execShri_memOk {g : Guard} {d a : Field4} {n : BitVec 6} {s : State} (h : s.MemOk) : (execShri g d a n s).MemOk := aluU_memOk h

theorem execShrai_memOk {g : Guard} {d a : Field4} {n : BitVec 6} {s : State} (h : s.MemOk) : (execShrai g d a n s).MemOk := aluU_memOk h

theorem execRotri_memOk {g : Guard} {d a : Field4} {n : BitVec 6} {s : State} (h : s.MemOk) : (execRotri g d a n s).MemOk := aluU_memOk h

theorem execMovi_memOk {g : Guard} {d : Field4} {imm : BitVec 16} {s : State} (h : s.MemOk) : (execMovi g d imm s).MemOk := aluU_memOk h

theorem execMovk16_memOk {g : Guard} {d : Field4} {imm : BitVec 16} {s : State} (h : s.MemOk) : (execMovk16 g d imm s).MemOk := aluU_memOk h

theorem execMovk32_memOk {g : Guard} {d : Field4} {imm : BitVec 16} {s : State} (h : s.MemOk) : (execMovk32 g d imm s).MemOk := aluU_memOk h

theorem execMovk48_memOk {g : Guard} {d : Field4} {imm : BitVec 16} {s : State} (h : s.MemOk) : (execMovk48 g d imm s).MemOk := aluU_memOk h

theorem setsPred_memOk {g : Guard} {p : Field4} {f : State → Bool} {s : State} (h : s.MemOk) :
    (setsPred g p f s).MemOk :=
  scalar_memOk h (fun _ h1 => State.finish_memOk (State.setPred_memOk h1))

theorem execCmp_memOk {g : Guard} {p a b : Field4} {cc : BitVec 8} {s : State} (h : s.MemOk) : (execCmp g p a b cc s).MemOk := setsPred_memOk h

theorem execCmpi_memOk {g : Guard} {p a : Field4} {cc : BitVec 3} {imm : BitVec 9} {s : State} (h : s.MemOk) :
    (execCmpi g p a cc imm s).MemOk :=
  setsPred_memOk h

theorem execPand_memOk {g : Guard} {d a b : Field4} {s : State} (h : s.MemOk) : (execPand g d a b s).MemOk := setsPred_memOk h

theorem execPor_memOk {g : Guard} {d a b : Field4} {s : State} (h : s.MemOk) : (execPor g d a b s).MemOk := setsPred_memOk h

theorem execPxor_memOk {g : Guard} {d a b : Field4} {s : State} (h : s.MemOk) : (execPxor g d a b s).MemOk := setsPred_memOk h

theorem execPnot_memOk {g : Guard} {d a : Field4} {s : State} (h : s.MemOk) : (execPnot g d a s).MemOk := setsPred_memOk h

theorem execPmov_memOk {g : Guard} {d a : Field4} {s : State} (h : s.MemOk) : (execPmov g d a s).MemOk := setsPred_memOk h

theorem execMovpFromPw_memOk {g : Guard} {d : Field4} {s : State} (h : s.MemOk) : (execMovpFromPw g d s).MemOk := aluU_memOk h

theorem execMovpToPw_memOk {g : Guard} {a : Field4} {s : State} (h : s.MemOk) :
    (execMovpToPw g a s).MemOk :=
  scalar_memOk h (fun _ h1 => State.finish_memOk (State.modHere_memOk h1))

theorem execLongOpResult_memOk {thread : Nat} {s : State} (h : s.MemOk) : (execLongOpResult thread s).MemOk := by
  unfold execLongOpResult
  extract_lets _
  refine .next ?_
  split
  · exact State.finishOf_memOk (State.modSlot_memOk (State.setRegOf_memOk h))
  · exact h

/-! ### Wayfarer -/

theorem State.leaveSlot_memOk {s : State} (h : s.MemOk) : s.leaveSlot.MemOk := State.modHere_memOk h

theorem depart_memOk {dest : Nat} {access : Option (Word × Word)} {s : State} (h : s.MemOk) : (depart dest access s).MemOk := by
  unfold depart
  refine withRelease_memOk h ?_
  intro _ h1
  split
  · extract_lets s2 _
    have h2 : s2.MemOk := State.modCore_memOk h1
    exact State.send_memOk (State.leaveSlot_memOk h2)
  · exact State.park_memOk h1

theorem State.uncarry_memOk {s : State} (h : s.MemOk) : s.uncarry.MemOk := by
  unfold State.uncarry
  split
  · exact h
  · exact State.modHere_memOk h

theorem wanderAccess_memOk {a0 v0 : Word} {n : Nat} {s : State} {k : Word → Word → State → State} (h : s.MemOk)
    (hk : ∀ (a a_1 : Word) (a_2 : State), a_2.MemOk → (k a a_1 a_2).MemOk) :
    (wanderAccess a0 v0 n s k).MemOk := by
  unfold wanderAccess
  split
  · split
    · exact State.trap_memOk h
    · split
      · exact State.uncarry_memOk (State.trap_memOk h)
      · extract_lets _
        split
        · exact State.uncarry_memOk (withRelease_memOk h (fun _ h1 => hk _ _ _ h1))
        · exact depart_memOk h

theorem execWander_memOk {g : Guard} {a : Field4} {s : State} (h : s.MemOk) : (execWander g a s).MemOk := by
  unfold execWander
  refine scalar_memOk h ?_
  intro _ h1
  extract_lets _ _
  split
  · exact State.trap_memOk h1
  · split
    · exact withRelease_memOk h1 (fun _ h2 => State.finish_memOk h2)
    · exact depart_memOk h1

theorem State.freeAway_memOk {s : State} {t : Nat} (h : s.MemOk) : (s.freeAway t).MemOk := memOk_of_mem (freeAway_storage _ _).mem h

theorem execHome_memOk {g : Guard} {s : State} (h : s.MemOk) : (execHome g s).MemOk := by
  unfold execHome
  refine scalar_memOk h ?_
  intro _ h1
  split
  · exact State.finish_memOk h1
  · refine withRelease_memOk h1 ?_
    intro _ h2
    extract_lets _ _
    exact State.send_memOk (State.freeAway_memOk h2)

theorem execWayfarerArrival_memOk {pk : Nat} {s : State} (h : s.MemOk) : (execWayfarerArrival pk s).MemOk := by
  unfold execWayfarerArrival
  refine .next ?_
  split
  · exact h
  · split
    · extract_lets s1 s2 s3
      have h1 : s1.MemOk := State.dropPacket_memOk h
      have h2 : s2.MemOk := State.modSlot_memOk h1
      have h3 : s3.MemOk := State.acquire_memOk h2
      split
      · split
        · exact State.event_memOk h3
        · exact h3
      · split
        · exact h1
        · extract_lets _ s4 s5
          have h4 : s4.MemOk := State.modCore_memOk h1
          have h5 : s5.MemOk := by
            unfold s5
            split
            · exact h4
            · exact State.freeAway_memOk h4
          exact State.event_memOk h5
    · exact h

theorem execWayfarerStart_memOk {core : Nat} {s : State} (h : s.MemOk) : (execWayfarerStart core s).MemOk := by
  unfold execWayfarerStart
  refine .next ?_
  extract_lets first slot
  clear_value first slot
  split
  · extract_lets _ s1 s2 s3
    have h1 : s1.MemOk := State.setSlot_memOk h
    have h2 : s2.MemOk := State.modCore_memOk h1
    have h3 : s3.MemOk := State.wakeIf_memOk (State.acquire_memOk h2)
    split
    · exact State.push_memOk h3
    · exact h3
  · exact h

/-! ### Memory -/

theorem parkOn_memOk {p : Nat × State} (h : p.2.MemOk) : (parkOn p).MemOk := State.park_memOk h

theorem State.passHold_memOk {s : State} {t id : Nat} (h : s.MemOk) : (s.passHold t id).MemOk := h

theorem State.noteSent_memOk {s : State} {t id : Nat} {check : Option (Nat × Bool × Nat × Bool)} {held : Bool} (h : s.MemOk) :
    (s.noteSent t id check held).MemOk := by
  unfold State.noteSent
  extract_lets s1
  have h1 : s1.MemOk := by
    unfold s1
    split
    · exact h
    · exact State.modAccess_memOk h
  split
  · exact State.passHold_memOk h1
  · exact h1

theorem admitted_memOk {c : Check} {a : Word} {posted : Bool} {kind : Nat} {atomic : Bool} {scope : Nat} {writes : Bool} {s : State}
    {k : Target → State → State} (h : s.MemOk) (hk : ∀ (a : Target) (a_1 : State), a_1.MemOk → (k a a_1).MemOk) :
    (admitted c a posted kind atomic scope writes s k).MemOk := by
  unfold admitted
  split
  · exact State.trap_memOk h
  · exact State.park_memOk h
  · exact State.finish_memOk (State.markDropped_memOk h)
  · split
    · exact State.park_memOk h
    · split
      · next s1 _ e1 =>
        have h1 : s1.MemOk := fst_memOk e1 (State.raceScalar_memOk h)
        exact State.trap_memOk h1
      · next s1 e1 =>
        have h1 : s1.MemOk := fst_memOk e1 (State.raceScalar_memOk h)
        exact State.noteSent_memOk (hk _ _ (State.touch_memOk h1))

theorem plainLoad_memOk {a : Word} {n : Nat} {sx : Bool} {d : Field4} {acq : Bool} {parcel : Option (Nat × Nat)} {s : State} (h : s.MemOk) :
    (plainLoad a n sx d acq parcel s).MemOk := by
  unfold plainLoad
  extract_lets _
  split
  · exact State.park_memOk h
  · exact admitted_memOk h (fun _ _ h1 => parkOn_memOk (State.request_memOk h1))

theorem plainStore_memOk {a : Word} {n : Nat} {v : Word} {release : Bool} {flag : Option Word} {s : State} (h : s.MemOk) :
    (plainStore a n v release flag s).MemOk := by
  unfold plainStore
  refine admitted_memOk h ?_
  intro _ _ h1
  extract_lets _ _ _
  split
  · next s2 e =>
    have h2 : s2.MemOk := snd_memOk e (State.request_memOk h1)
    extract_lets _
    exact State.finish_memOk (State.modCore_memOk h2)

theorem execLd_memOk {g : Guard} {t base : Field4} {size : BitVec 2} {sx : Bool} {order : BitVec 2} {off : BitVec 7} {s : State} (h : s.MemOk) :
    (execLd g t base size sx order off s).MemOk := by
  unfold execLd
  refine scalar_memOk h ?_
  intro _ h1
  refine withDest_memOk h1 ?_
  intro _ h2
  extract_lets _ _
  split
  · exact wanderAccess_memOk h2 (fun _ _ _ h3 => plainLoad_memOk h3)
  · exact plainLoad_memOk h2

theorem execSt_memOk {g : Guard} {t base : Field4} {size order : BitVec 2} {off : BitVec 7} {s : State} (h : s.MemOk) :
    (execSt g t base size order off s).MemOk := by
  unfold execSt
  refine scalar_memOk h ?_
  intro _ h1
  extract_lets _ _
  split
  · exact wanderAccess_memOk h1 (fun _ _ _ h2 => plainStore_memOk h2)
  · split
    · split
      · exact State.trap_memOk h1
      · exact withRelease_memOk h1 (fun _ h2 => plainStore_memOk h2)
    · exact plainStore_memOk h1

theorem localAccess_memOk {o : Word} {n : Nat} {s : State} {k : State → State} (h : s.MemOk) (hk : ∀ (a : State), a.MemOk → (k a).MemOk) :
    (localAccess o n s k).MemOk := by
  unfold localAccess
  refine atHome_memOk h ?_
  intro _ h1
  split
  · exact State.trap_memOk h1
  · exact hk _ h1

theorem localLoad_memOk {pa n : Nat} {addr : Word} {s : State} {k : Word → State → State} (h : s.MemOk)
    (hk : ∀ (a : Word) (a_1 : State), a_1.MemOk → (k a a_1).MemOk) :
    (localLoad pa n addr s k).MemOk := by
  unfold localLoad
  split
  · exact State.park_memOk h
  · split
    · exact State.park_memOk h
    · split
      · next s1 _ e2 =>
        have h1 : s1.MemOk := fst_memOk e2 (State.raceAccess_memOk h)
        exact State.trap_memOk h1
      · next s1 e2 =>
        have h1 : s1.MemOk := fst_memOk e2 (State.raceAccess_memOk h)
        split
        · next s2 e3 =>
          have h2 : s2.MemOk := fst_memOk e3 (State.findError_memOk h1)
          exact State.trap_memOk h2
        · next s2 e3 =>
          have h2 : s2.MemOk := fst_memOk e3 (State.findError_memOk h1)
          split
          · exact hk _ _ (State.readEarly_memOk h2)

theorem localStore_memOk {pa n : Nat} {addr v : Word} {s : State} (h : s.MemOk) : (localStore pa n addr v s).MemOk := by
  unfold localStore
  split
  · exact State.park_memOk h
  · split
    · next s1 _ e1 =>
      have h1 : s1.MemOk := fst_memOk e1 (State.raceAccess_memOk h)
      exact State.trap_memOk h1
    · next s1 e1 =>
      have h1 : s1.MemOk := fst_memOk e1 (State.raceAccess_memOk h)
      exact State.finish_memOk (State.examineWritten_memOk h1 (State.write_memOk _ h1))

theorem execLdl_memOk {g : Guard} {t base : Field4} {size : BitVec 2} {sx : Bool} {off : BitVec 7} {s : State} (h : s.MemOk) :
    (execLdl g t base size sx off s).MemOk := by
  unfold execLdl
  refine scalar_memOk h ?_
  intro _ h1
  refine withDest_memOk h1 ?_
  intro _ h2
  extract_lets _ _
  exact localAccess_memOk h2 (fun _ h3 => localLoad_memOk h3 (fun _ _ h4 => State.finish_memOk (State.setReg_memOk h4)))

theorem execStl_memOk {g : Guard} {t base : Field4} {size : BitVec 2} {off : BitVec 7} {s : State} (h : s.MemOk) :
    (execStl g t base size off s).MemOk := by
  unfold execStl
  refine scalar_memOk h ?_
  intro _ h1
  extract_lets _ _
  exact localAccess_memOk h1 (fun _ h2 => localStore_memOk h2)

theorem execLdh_memOk {g : Guard} {t base : Field4} {off : BitVec 7} {s : State} (h : s.MemOk) : (execLdh g t base off s).MemOk := by
  unfold execLdh
  refine scalar_memOk h ?_
  intro _ h1
  refine withDest_memOk h1 ?_
  intro _ h2
  extract_lets _
  exact plainLoad_memOk h2

theorem execSth_memOk {g : Guard} {t base : Field4} {off : BitVec 7} {s : State} (h : s.MemOk) : (execSth g t base off s).MemOk := by
  unfold execSth
  refine scalar_memOk h ?_
  intro _ h1
  extract_lets _ _
  split
  · exact plainStore_memOk h1
  · split
    · exact State.trap_memOk h1
    · exact State.park_memOk h1
    · split
      · exact plainStore_memOk h1
      · exact State.trap_memOk h1

theorem execStc_memOk {g : Guard} {a b c : Field4} {size : BitVec 2} {s : State} (h : s.MemOk) : (execStc g a b c size s).MemOk := by
  unfold execStc
  refine scalar_memOk h ?_
  intro _ h1
  extract_lets _ _ _ _
  split
  · exact State.trap_memOk h1
  · split
    · exact plainStore_memOk h1
    · split
      · exact State.trap_memOk h1
      · split
        · exact State.trap_memOk h1
        · exact plainStore_memOk h1

theorem atomic_memOk {g : Guard} {d a b : Field4} {op ty scope : Nat} {s : State} (h : s.MemOk) : (atomic g d a b op ty scope s).MemOk := by
  unfold atomic
  refine scalar_memOk h ?_
  intro _ h1
  refine withDest_memOk h1 ?_
  intro _ h2
  extract_lets _ _ _
  refine admitted_memOk h2 ?_
  intro _ _ h3
  extract_lets _ _
  split
  · exact State.finish_memOk (State.request_memOk h3)
  · exact parkOn_memOk (State.request_memOk h3)

theorem execAmoAdd_memOk {g : Guard} {d a b : Field4} {ty : BitVec 2} {scope : BitVec 3} {s : State} (h : s.MemOk) :
    (execAmoAdd g d a b ty scope s).MemOk :=
  atomic_memOk h

theorem execAmoMin_memOk {g : Guard} {d a b : Field4} {ty : BitVec 2} {scope : BitVec 3} {s : State} (h : s.MemOk) :
    (execAmoMin g d a b ty scope s).MemOk :=
  atomic_memOk h

theorem execAmoMax_memOk {g : Guard} {d a b : Field4} {ty : BitVec 2} {scope : BitVec 3} {s : State} (h : s.MemOk) :
    (execAmoMax g d a b ty scope s).MemOk :=
  atomic_memOk h

theorem execAmoAnd_memOk {g : Guard} {d a b : Field4} {ty : BitVec 2} {scope : BitVec 3} {s : State} (h : s.MemOk) :
    (execAmoAnd g d a b ty scope s).MemOk :=
  atomic_memOk h

theorem execAmoOr_memOk {g : Guard} {d a b : Field4} {ty : BitVec 2} {scope : BitVec 3} {s : State} (h : s.MemOk) :
    (execAmoOr g d a b ty scope s).MemOk :=
  atomic_memOk h

theorem execAmoXor_memOk {g : Guard} {d a b : Field4} {ty : BitVec 2} {scope : BitVec 3} {s : State} (h : s.MemOk) :
    (execAmoXor g d a b ty scope s).MemOk :=
  atomic_memOk h

theorem execAmoXchg_memOk {g : Guard} {d a b : Field4} {ty : BitVec 2} {scope : BitVec 3} {s : State} (h : s.MemOk) :
    (execAmoXchg g d a b ty scope s).MemOk :=
  atomic_memOk h

theorem reeveForm_memOk {addr : Word} {n align scope : Nat} {req : Req} {f : Access → Access} {s : State} (h : s.MemOk) :
    (reeveForm addr n align scope req f s).MemOk :=
  admitted_memOk h (fun _ _ h1 => parkOn_memOk (State.request_memOk h1))

theorem execCas_memOk {g : Guard} {d a b c : Field4} {double : Bool} {scope : BitVec 3} {s : State} (h : s.MemOk) :
    (execCas g d a b c double scope s).MemOk := by
  unfold execCas
  refine scalar_memOk h ?_
  intro _ h1
  refine withDest_memOk h1 ?_
  intro _ h2
  extract_lets _
  exact reeveForm_memOk h2

theorem casBlock_memOk {m : Nat} {g : Guard} {d a b : Field4} {s : State} (h : s.MemOk) : (casBlock m g d a b s).MemOk := by
  unfold casBlock
  refine scalar_memOk h ?_
  intro _ h1
  refine withDest_memOk h1 ?_
  intro _ h2
  refine atHome_memOk h2 ?_
  intro _ h3
  extract_lets _ _ _
  split
  · exact State.trap_memOk h3
  · split
    · exact State.park_memOk h3
    · refine admitted_memOk h3 ?_
      intro _ _ h4
      split
      · next s5 _ e2 =>
        have h5 : s5.MemOk := fst_memOk e2 (State.raceBytes_memOk h4)
        exact State.trap_memOk h5
      · next s5 e2 =>
        have h5 : s5.MemOk := fst_memOk e2 (State.raceBytes_memOk h4)
        split
        · next s6 _ e3 =>
          have h6 : s6.MemOk := fst_memOk e3 (State.raceBytes_memOk h5)
          exact State.trap_memOk h6
        · next s6 e3 =>
          have h6 : s6.MemOk := fst_memOk e3 (State.raceBytes_memOk h5)
          split
          · next s7 e4 =>
            have h7 : s7.MemOk := fst_memOk e4 (State.findError_memOk h6)
            exact State.trap_memOk h7
          · next s7 e4 =>
            have h7 : s7.MemOk := fst_memOk e4 (State.findError_memOk h6)
            split
            · extract_lets _ _
              exact parkOn_memOk (State.request_memOk (State.readEarly_memOk h7))

theorem execCas2_memOk {g : Guard} {d a b : Field4} {s : State} (h : s.MemOk) : (execCas2 g d a b s).MemOk := casBlock_memOk h

theorem execCas4_memOk {g : Guard} {d a b : Field4} {s : State} (h : s.MemOk) : (execCas4 g d a b s).MemOk := casBlock_memOk h

theorem execEnq_memOk {g : Guard} {d a b : Field4} {s : State} (h : s.MemOk) :
    (execEnq g d a b s).MemOk :=
  scalar_memOk h (fun _ h1 => withDest_memOk h1 (fun _ h2 => reeveForm_memOk h2))

theorem execDeq_memOk {g : Guard} {d a b : Field4} {s : State} (h : s.MemOk) :
    (execDeq g d a b s).MemOk :=
  scalar_memOk h (fun _ h1 => withDest_memOk h1 (fun _ h2 => withDest_memOk h2 (fun _ h3 => reeveForm_memOk h3)))

theorem execChase_memOk {g : Guard} {d a b c : Field4} {s : State} (h : s.MemOk) : (execChase g d a b c s).MemOk := by
  unfold execChase
  refine scalar_memOk h ?_
  intro _ h1
  refine withDest_memOk h1 ?_
  intro _ h2
  extract_lets _ _ _
  split
  · exact State.trap_memOk h2
  · split
    · exact State.trap_memOk h2
    · exact admitted_memOk h2 (fun _ _ h3 => parkOn_memOk (State.request_memOk h3))

/-! ### FlagLine -/

theorem withFlag_memOk {a : Field4} {e : BitVec 9} {posted : Bool} {s : State} {k : Bool → Word → Check → State → State} (h : s.MemOk)
    (hk : ∀ (a : Bool) (a_1 : Word) (a_2 : Check) (a_3 : State), a_3.MemOk → (k a a_1 a_2 a_3).MemOk) :
    (withFlag a e posted s k).MemOk := by
  unfold withFlag
  extract_lets _
  split
  · exact hk _ _ _ _ h
  · refine atHome_memOk h ?_
    intro _ h1
    split
    · exact State.trap_memOk h1
    · exact hk _ _ _ _ h1

theorem State.flagRequest_memOk {s : State} {direct : Bool} {a : Access} (h : s.MemOk) : (s.flagRequest direct a).2.MemOk := by
  unfold State.flagRequest
  split
  · exact State.requestDirect_memOk h
  · exact State.request_memOk h

theorem waitFlag_memOk {subtracts : Bool} {g : Guard} {d a : Field4} {e : BitVec 9} {s : State} (h : s.MemOk) :
    (waitFlag subtracts g d a e s).MemOk := by
  unfold waitFlag
  refine scalar_memOk h ?_
  intro _ h1
  refine withFlag_memOk h1 ?_
  intro _ _ _ _ h2
  split
  · exact State.trap_memOk h2
  · split
    · exact State.trap_memOk h2
    · exact State.trap_memOk (State.modHere_memOk h2)
    · exact State.trap_memOk (State.modHere_memOk h2)
    · extract_lets _ _
      split
      · next s3 e4 =>
        have h3 : s3.MemOk := snd_memOk e4 (State.flagRequest_memOk h2)
        exact State.modHere_memOk h3
  · exact State.finish_memOk h2

theorem execCwait_memOk {g : Guard} {d a : Field4} {imm : BitVec 9} {s : State} (h : s.MemOk) : (execCwait g d a imm s).MemOk := waitFlag_memOk h

theorem execCwaitr_memOk {g : Guard} {d a : Field4} {imm : BitVec 9} {s : State} (h : s.MemOk) : (execCwaitr g d a imm s).MemOk := waitFlag_memOk h

theorem addFlag_memOk {release : Bool} {v : Word} {direct : Bool} {f : Word} {c : Check} {s : State} (h : s.MemOk) :
    (addFlag release v direct f c s).MemOk := by
  unfold addFlag
  split
  · exact State.trap_memOk h
  · split
    · exact State.park_memOk h
    · exact State.finish_memOk (State.flagRequest_memOk h)
  · exact State.finish_memOk (State.markDropped_memOk h)

theorem execCadd_memOk {g : Guard} {d a : Field4} {imm : BitVec 9} {s : State} (h : s.MemOk) :
    (execCadd g d a imm s).MemOk :=
  scalar_memOk h (fun _ h1 => withFlag_memOk h1 (fun _ _ _ _ h2 => addFlag_memOk h2))

theorem execCaddRel_memOk {g : Guard} {d a : Field4} {imm : BitVec 9} {s : State} (h : s.MemOk) : (execCaddRel g d a imm s).MemOk := by
  unfold execCaddRel
  refine scalar_memOk h ?_
  intro _ h1
  refine withFlag_memOk h1 ?_
  intro _ _ _ _ h2
  split
  · exact State.trap_memOk h2
  · exact withRelease_memOk h2 (fun _ h3 => addFlag_memOk h3)

theorem execCpeek_memOk {g : Guard} {d a : Field4} {imm : BitVec 9} {s : State} (h : s.MemOk) : (execCpeek g d a imm s).MemOk := by
  unfold execCpeek
  refine scalar_memOk h ?_
  intro _ h1
  refine withDest_memOk h1 ?_
  intro _ h2
  refine withFlag_memOk h2 ?_
  intro _ _ _ _ h3
  split
  · exact State.trap_memOk h3
  · split
    · exact State.park_memOk h3
    · exact parkOn_memOk (State.flagRequest_memOk h3)
  · exact State.finish_memOk h3

theorem State.setLines_memOk {s : State} {fill : Bool} {lines : List Nat} (h : s.MemOk) : (s.setLines fill lines).MemOk := by
  unfold State.setLines
  refine foldl_memOk ?_ h
  intro _ _ h1
  split
  · exact State.fillLine_memOk h1
  · exact State.emptyLine_memOk h1

theorem lineOp_memOk {op : Nat} {g : Guard} {a : Field4} {n : BitVec 4} {s : State} (h : s.MemOk) : (lineOp op g a n s).MemOk := by
  unfold lineOp
  refine scalar_memOk h ?_
  intro _ h1
  extract_lets _ _ _
  split
  · split
    · exact State.trap_memOk h1
    · split
      · exact State.trap_memOk h1
      · split
        · exact State.park_memOk h1
        · exact parkOn_memOk (State.request_memOk h1)
  · refine atHome_memOk h1 ?_
    intro _ h2
    split
    · exact State.trap_memOk h2
    · exact State.finish_memOk (State.setLines_memOk h2)

theorem execLempty_memOk {g : Guard} {a : Field4} {n : BitVec 4} {s : State} (h : s.MemOk) : (execLempty g a n s).MemOk := lineOp_memOk h

theorem execLfill_memOk {g : Guard} {a : Field4} {n : BitVec 4} {s : State} (h : s.MemOk) : (execLfill g a n s).MemOk := lineOp_memOk h

theorem execLstate_memOk {g : Guard} {d a : Field4} {s : State} (h : s.MemOk) : (execLstate g d a s).MemOk := by
  unfold execLstate
  refine scalar_memOk h ?_
  intro _ h1
  refine withDest_memOk h1 ?_
  intro _ h2
  extract_lets _ _
  split
  · split
    · exact State.trap_memOk h2
    · split
      · exact State.trap_memOk h2
      · split
        · exact State.park_memOk h2
        · exact parkOn_memOk (State.request_memOk h2)
  · refine atHome_memOk h2 ?_
    intro _ h3
    split
    · exact State.trap_memOk h3
    · exact State.finish_memOk (State.setReg_memOk h3)

end Sys2Proof.Machine
end

section
/-! Proofs. Memory stays canonical: Control, Reeve (95; O59). -/

namespace Sys2Proof.Machine

/-! ### Control -/

theorem execBr_memOk {g : Guard} {off : BitVec 20} {s : State} (h : s.MemOk) :
    (execBr g off s).MemOk :=
  scalar_memOk h (fun _ h1 => State.jump_memOk h1)

theorem execJal_memOk {g : Guard} {off : BitVec 20} {s : State} (h : s.MemOk) :
    (execJal g off s).MemOk :=
  scalar_memOk h (fun _ h1 => State.jump_memOk (State.setReg_memOk h1))

theorem execJalr_memOk {g : Guard} {d a : Field4} {imm : BitVec 12} {s : State} (h : s.MemOk) :
    (execJalr g d a imm s).MemOk :=
  scalar_memOk h (fun _ h1 => withDest_memOk h1 (fun _ h2 => State.jump_memOk (State.setReg_memOk h2)))

theorem execNop_memOk {g : Guard} {s : State} (h : s.MemOk) : (execNop g s).MemOk := scalar_memOk h (fun _ h1 => State.finish_memOk h1)

theorem execYield_memOk {g : Guard} {s : State} (h : s.MemOk) :
    (execYield g s).MemOk :=
  scalar_memOk h (fun _ h1 => State.timer_memOk (State.park_memOk h1))

theorem execYieldExpiry_memOk {thread : Nat} {s : State} (h : s.MemOk) : (execYieldExpiry thread s).MemOk := by
  unfold execYieldExpiry
  refine .next ?_
  split
  · exact State.finishOf_memOk h
  · exact h

theorem execTrap_memOk {g : Guard} {code : BitVec 8} {s : State} (h : s.MemOk) :
    (execTrap g code s).MemOk :=
  scalar_memOk h (fun _ h1 => State.trap_memOk h1)

theorem execBrk_memOk {g : Guard} {code : BitVec 8} {s : State} (h : s.MemOk) :
    (execBrk g code s).MemOk :=
  scalar_memOk h (fun _ h1 => State.trap_memOk h1)

theorem execEret_memOk {g : Guard} {s : State} (h : s.MemOk) : (execEret g s).MemOk := scalar_memOk h (fun _ h1 => State.eret_memOk h1)

theorem execPlc_memOk {g : Guard} {d a b : Field4} {s : State} (h : s.MemOk) :
    (execPlc g d a b s).MemOk :=
  scalar_memOk h (fun _ h1 => withDest_memOk h1 (fun _ h2 => State.finish_memOk (State.setReg_memOk h2)))

theorem execPloc_memOk {g : Guard} {d a : Field4} {s : State} (h : s.MemOk) : (execPloc g d a s).MemOk := by
  unfold execPloc
  refine scalar_memOk h ?_
  intro _ h1
  refine withDest_memOk h1 ?_
  intro _ h2
  extract_lets _
  split
  · exact State.trap_memOk h2
  · exact State.finish_memOk (State.setReg_memOk h2)

theorem execRoll_memOk {g : Guard} {d a : Field4} {s : State} (h : s.MemOk) :
    (execRoll g d a s).MemOk :=
  scalar_memOk h (fun _ h1 => withDest_memOk h1 (fun _ h2 => State.finish_memOk (State.setReg_memOk h2)))

theorem execRollF_memOk {g : Guard} {d a : Field4} {s : State} (h : s.MemOk) :
    (execRollF g d a s).MemOk :=
  scalar_memOk h (fun _ h1 => withDest_memOk h1 (fun _ h2 => State.finish_memOk (State.setReg_memOk h2)))

/-! ### Reeve -/

theorem State.raceAt_memOk {s : State} {a : Access} {pa : Nat} {addr : Word} (h : s.MemOk) : (s.raceAt a pa addr).1.MemOk := State.raceScalar_memOk h

theorem ringEntry_memOk {s : State} {a : Access} {pa e : Nat} {k : State → Performed} (h : s.MemOk) (hk : ∀ (a : State), a.MemOk → (k a).MemOk) :
    (ringEntry s a pa e k).MemOk := by
  unfold ringEntry
  split
  · exact hk _ h
  · split
    · next s1 _ e2 =>
      have h1 : s1.MemOk := fst_memOk e2 (State.raceAt_memOk h)
      exact .done h1
    · next s1 e2 =>
      have h1 : s1.MemOk := fst_memOk e2 (State.raceAt_memOk h)
      exact hk _ h1

theorem ringEnq_memOk {s : State} {a : Access} {pa : Nat} {v : Word} (h : s.MemOk) : (ringEnq s a pa v).MemOk := by
  unfold ringEnq
  split
  · exact .done h
  · split
    · exact .done h
    · extract_lets _
      refine ringEntry_memOk h ?_
      intro _ h1
      extract_lets s2 s3
      have h2 : s2.MemOk := State.storeLE_memOk _ _ _ (State.storeLE_memOk _ _ _ h1)
      have h3 : s3.MemOk := State.examineWritten_memOk h1 h2
      exact .done (State.raceMark_memOk (State.raceMark_memOk h3))

theorem ringDeq_memOk {s : State} {a : Access} {pa : Nat} (h : s.MemOk) : (ringDeq s a pa).MemOk := by
  unfold ringDeq
  split
  · exact .done h
  · split
    · exact .done h
    · extract_lets _
      refine ringEntry_memOk h ?_
      intro _ h1
      split
      · next s2 e3 =>
        have h2 : s2.MemOk := fst_memOk e3 (State.findError_memOk h1)
        exact .done h2
      · next s2 e3 =>
        have h2 : s2.MemOk := fst_memOk e3 (State.findError_memOk h1)
        exact .done (State.raceMark_memOk (State.examineWritten_memOk h2 (State.storeLE_memOk _ _ _ h2)))

theorem chaseNext_memOk {s : State} {a : Access} {home : Nat × Bool} {p : Word} {kpa : Nat} {nt : Check} {left : Nat} {k : State → Word → Performed} (h : s.MemOk)
    (hk : ∀ t n, t.MemOk → (k t n).MemOk) : (chaseNext s a home p kpa nt left k).MemOk := by
  unfold chaseNext
  split
  · exact .done h
  · split
    · exact .done h
    · next npa _ =>
      split
      · exact .done h
      · have h1' : (if lineOf npa = lineOf kpa then (s, none) else s.raceAt a npa p).1.MemOk := by
          split
          · exact h
          · exact State.raceAt_memOk h
        split
        · next s1 _ e =>
          have h1 : s1.MemOk := fst_memOk e h1'
          exact .done h1
        · next s1 e =>
          have h1 : s1.MemOk := fst_memOk e h1'
          split
          · next s2 e1 =>
            have h2 : s2.MemOk := fst_memOk e1 (State.findError_memOk h1)
            exact .done h2
          · next s2 e1 =>
            have h2 : s2.MemOk := fst_memOk e1 (State.findError_memOk h1)
            extract_lets n
            clear_value n
            split
            · exact .done h2
            · exact hk _ _ h2
  · exact .done h

theorem chaseSegment_memOk {s : State} {a : Access} {home : Nat × Bool} {key : Word} {koff noff fuel : Nat} {p : Word} {left : Nat} (h : s.MemOk) :
    (chaseSegment s a home key koff noff fuel p left).MemOk := by
  induction fuel generalizing s p left with
  | zero => exact .done h
  | succ fuel ih =>
    rw [chaseSegment]
    split
    · exact .done h
    · exact .waitExtent h
    · exact .done h
    · split
      · exact .forward h
      · next x kpa _ =>
        split
        · exact .forward h
        · have h1' : (if p = a.addr then (s, none) else s.raceAt a kpa p).1.MemOk := by
            split
            · exact h
            · exact State.raceAt_memOk h
          split
          · next s1 _ e =>
            have h1 : s1.MemOk := fst_memOk e h1'
            exact .done h1
          · next s1 e =>
            have h1 : s1.MemOk := fst_memOk e h1'
            split
            · next s2 e1 =>
              have h2 : s2.MemOk := fst_memOk e1 (State.findError_memOk h1)
              exact .done h2
            · next s2 e1 =>
              have h2 : s2.MemOk := fst_memOk e1 (State.findError_memOk h1)
              split
              · exact .done h2
              · split
                · exact .waitExtent h2
                · exact chaseNext_memOk h2 fun _ _ h3 => ih h3

theorem State.addElems_memOk {s : State} {elem pa : Nat} {items : List (Nat × Word)} {fill : Bool} (h : s.MemOk) :
    (s.addElems elem pa items fill).MemOk := by
  unfold State.addElems
  split
  · extract_lets s1
    have h1 : s1.MemOk := by
      unfold s1
      refine foldl_memOk ?_ h
      intro _ _ h1
      extract_lets _
      exact State.setBytes_memOk _ h1
    split
    · exact foldl_memOk (fun _ _ h2 => State.fillLine_memOk h2) h1
    · exact h1
  · exact h

theorem State.deliverAt_memOk {s : State} {bs : List (Nat × Byte)} (h : s.MemOk) : (s.deliverAt bs).MemOk := by
  unfold State.deliverAt
  extract_lets _
  exact foldl_memOk (fun _ _ h1 => State.fillLine_memOk h1) (State.write_memOk _ h)

theorem State.modifyAt_memOk {s : State} {a : Access} {pa n : Nat} {bs : List (Nat × Byte)} (h : s.MemOk) :
    (s.modifyAt a pa n bs).MemOk :=
  State.examineWritten_memOk h (State.setBytes_memOk _ h)

theorem performAt_memOk {s : State} {a : Access} {pa : Nat} (h : s.MemOk) : (performAt s a pa).MemOk := by
  unfold performAt
  split
  · split
    · exact .waitLine
    · exact .done (State.readEarly_memOk h)
  · extract_lets l ps s1 s2
    have h1 : s1.MemOk := memOk_of_mem (State.refreshed_mem _ _) (State.setBytes_memOk l h)
    have h2 : s2.MemOk := by
      unfold s2
      split
      · exact memOk_of_mem (State.headStamps_mem _ _ _) h1
      · exact memOk_of_mem (State.dropStamps_mem _ _) h1
    exact .done (State.examineWritten_memOk h h2)
  · exact .done (State.modifyAt_memOk h)
  · extract_lets old hit
    refine .done ?_
    split
    · exact State.raceMark_memOk (State.modifyAt_memOk h)
    · exact h
  · extract_lets old hit
    refine .done ?_
    split
    · exact State.raceMark_memOk (State.modifyAt_memOk h)
    · exact h
  · exact ringEnq_memOk h
  · exact ringDeq_memOk h
  · exact chaseSegment_memOk h
  · exact .done (State.setLines_memOk h)
  · exact .done h
  · exact .done (State.changeFlag_memOk h)
  · exact .done h
  · exact .done h
  · exact .done (State.examineWritten_memOk h (State.addElems_memOk h))
  · exact .done (State.examineWritten_memOk h (State.deliverAt_memOk h))
  · exact .done (State.examineWritten_memOk h (State.write_memOk _ h))
  · exact .done h
  · exact .done h

theorem State.respond_memOk {s : State} {id : Nat} {a : Access} {from' : Nat} (h : s.MemOk) : (s.respond id a from').MemOk := by
  unfold State.respond
  split
  · exact h
  · split
    · exact State.send_memOk h
    · split
      · exact State.send_memOk h
      · exact State.send_memOk h

theorem State.countGroup_memOk {s : State} {g : Group} {from' : Nat} (h : s.MemOk) :
    (s.countGroup g from').MemOk :=
  memOk_of_mem (adds_countGroup _ _ _).mem h

theorem State.sendBusy_memOk {s : State} {pk id : Nat} {a : Access} {from' : Nat} (h : s.MemOk) :
    (s.sendBusy pk id a from').MemOk :=
  State.send_memOk (State.dropPacket_memOk h)

theorem State.groupSettled_memOk {s : State} {gid : Nat} (h : s.MemOk) : (s.groupSettled gid).MemOk := memOk_of_mem (adds_groupSettled _ _).mem h

theorem State.groupHome_memOk {s : State} {gid home : Nat} {ch failed : Bool} (h : s.MemOk) :
    (s.groupHome gid home ch failed).MemOk :=
  memOk_of_mem (adds_groupHome _ _ _ _ _).mem h

theorem State.concludePartners_memOk {s : State} {a : Access} {home : Nat} {ch : Bool} {trap : Option (Nat × Word)} (h : s.MemOk) :
    (s.concludePartners a home ch trap).MemOk := by
  unfold State.concludePartners
  refine foldl_memOk ?_ h
  intro _ _ h1
  split
  · exact State.pokeTurns_memOk (State.modNode_memOk (State.modAccess_memOk h1))
  · exact h1

theorem State.concludeAt_memOk {s : State} {pk id : Nat} {a : Access} {home : Nat} {ch : Bool} {value : List Byte} {found : Bool}
    {trap : Option (Nat × Word)} {sts : List Stamp} (h : s.MemOk) :
    (s.concludeAt pk id a home ch value found trap sts).MemOk := by
  unfold State.concludeAt
  extract_lets s1 s2 s3 s4
  have h1 : s1.MemOk := State.dropPacket_memOk h
  have h2 : s2.MemOk := State.modAccess_memOk h1
  have h3 : s3.MemOk := State.modNode_memOk h2
  have h4 : s4.MemOk := by
    unfold s4
    split
    · exact State.countFlag_memOk h3
    · exact h3
  exact State.pokeTurns_memOk (State.respond_memOk (State.concludePartners_memOk (State.groupHome_memOk h4)))

theorem State.redirect_memOk {s : State} {pk : Nat} {p : Packet} {id : Nat} {a : Access} (h : s.MemOk) :
    OptMemOk (fun t => t) (s.redirect pk p id a) := by
  unfold State.redirect
  split
  · exact .none
  · cases s.targetByte a.target with
    | none => exact .none
    | some pa =>
      show OptMemOk _ (if _ then none else some _)
      split
      · exact .none
      · exact .some (State.send_memOk (State.modAccess_memOk (State.dropPacket_memOk h)))

theorem State.protected_memOk {s : State} {pk : Nat} {k : State → Packet → Nat → Access → State} (h : s.MemOk)
    (hk : ∀ (a : State) (a_1 : Packet) (a_2 : Nat) (a_3 : Access), a.MemOk → (k a a_1 a_2 a_3).MemOk) :
    (s.protected pk k).MemOk := by
  unfold State.protected
  split
  · exact h
  · split
    · split
      · exact State.dropPacket_memOk h
      · split
        · split
          · next s1 e4 =>
            have h1 : s1.MemOk := some_memOk e4 (State.redirect_memOk h)
            exact h1
          · split
            · split
              · exact State.respond_memOk (State.dropPacket_memOk h)
              · exact State.dropPacket_memOk h
            · split
              · exact State.dropPacket_memOk h
              · split
                · exact State.sendBusy_memOk h
                · split
                  · exact State.modPacket_memOk h
                  · exact hk _ _ _ _ h
        · exact h
    · exact h

theorem State.endAt_memOk {s : State} {pk id : Nat} {a : Access} {p : Packet} {cause : Nat} {v : Word} (h : s.MemOk) :
    (s.endAt pk id a p cause v).MemOk :=
  State.concludeAt_memOk h

theorem State.failAt_memOk {s : State} {pk id : Nat} {a : Access} {p : Packet} (h : s.MemOk) : (s.failAt pk id a p).MemOk := State.endAt_memOk h

theorem State.lateRace_memOk {s : State} {id : Nat} {a : Access} {pa : Nat} (h : s.MemOk) : (s.lateRace id a pa).1.MemOk := by
  unfold State.lateRace
  split
  · exact h
  · exact State.raceScalar_memOk (State.modAccess_memOk h)

theorem State.forwardChase_memOk {s : State} {pk id : Nat} {a : Access} {p : Packet} {t : Target} {r : Req} (h : s.MemOk) :
    (s.forwardChase pk id a p t r).MemOk := by
  unfold State.forwardChase
  extract_lets s1 s2
  have h1 : s1.MemOk := by
    unfold s1
    split
    · split
      · exact h
      · exact State.countExtent_memOk h
    · exact h
  have h2 : s2.MemOk := State.modAccess_memOk (State.dropPacket_memOk h1)
  exact State.send_memOk h2

theorem execReeveOperation_memOk {pk : Nat} {uncorrectable : Bool} {s : State} (h : s.MemOk) : (execReeveOperation pk uncorrectable s).MemOk := by
  unfold execReeveOperation
  refine .next ?_
  extract_lets s1
  have h1 : s1.MemOk := by
    unfold s1
    split
    · split
      · split
        · exact h
        · exact State.modPacket_memOk h
      · exact State.modPacket_memOk h
      · exact h
    · exact h
  refine State.protected_memOk h1 ?_
  intro _ _ _ _ h2
  split
  · exact State.failAt_memOk (State.machineCheck_memOk h2)
  · split
    · split
      · split
        · extract_lets _ s3
          have h3 : s3.MemOk := State.modAccess_memOk (State.dropPacket_memOk h2)
          exact State.send_memOk h3
        · split
          · exact State.modPacket_memOk h2
          · exact State.concludeAt_memOk h2
        · exact State.modPacket_memOk h2
      · exact h2
    · split
      · next s3 e2 =>
        have h3 : s3.MemOk := fst_memOk e2 (State.findError_memOk h2)
        exact State.failAt_memOk h3
      · next s3 e2 =>
        have h3 : s3.MemOk := fst_memOk e2 (State.findError_memOk h2)
        split
        · next s4 _ e3 =>
          have h4 : s4.MemOk := fst_memOk e3 (State.lateRace_memOk h3)
          exact State.endAt_memOk h4
        · next s4 e3 =>
          have h4 : s4.MemOk := fst_memOk e3 (State.lateRace_memOk h3)
          split
          · exact State.modPacket_memOk h4
          · next s5 _ e4 =>
            have h5 : s5.MemOk := Performed.MemOk.of_waitExtent e4 (performAt_memOk h4)
            exact State.modPacket_memOk (State.modAccess_memOk h5)
          · next s5 _ _ e4 =>
            have h5 : s5.MemOk := Performed.MemOk.of_forward e4 (performAt_memOk h4)
            exact State.forwardChase_memOk h5
          · next s5 _ _ _ e4 =>
            have h5 : s5.MemOk := Performed.MemOk.of_done e4 (performAt_memOk h4)
            exact State.concludeAt_memOk h5

theorem execFlagIncrement_memOk {pk : Nat} {s : State} (h : s.MemOk) : (execFlagIncrement pk s).MemOk := by
  unfold execFlagIncrement
  refine .next ?_
  refine State.protected_memOk h ?_
  intro _ _ _ _ h1
  split
  · split
    · next s2 e2 =>
      have h2 : s2.MemOk := fst_memOk e2 (State.findError_memOk h1)
      exact State.failAt_memOk h2
    · next s2 e2 =>
      have h2 : s2.MemOk := fst_memOk e2 (State.findError_memOk h1)
      extract_lets s3
      have h3 : s3.MemOk := State.changeFlag_memOk h2
      exact State.concludeAt_memOk h3
  · exact h1

theorem execWaitRegistration_memOk {pk : Nat} {s : State} (h : s.MemOk) : (execWaitRegistration pk s).MemOk := by
  unfold execWaitRegistration
  refine .next ?_
  refine State.protected_memOk h ?_
  intro _ _ _ _ h1
  split
  · split
    · next s2 e2 =>
      have h2 : s2.MemOk := fst_memOk e2 (State.findError_memOk h1)
      exact State.failAt_memOk h2
    · next s2 e2 =>
      have h2 : s2.MemOk := fst_memOk e2 (State.findError_memOk h1)
      extract_lets _ _ done _ s3
      have h3 : ∀ (s : State), s.MemOk → (done s).MemOk := fun _ h3 => State.concludeAt_memOk h3
      have h4 : s3.MemOk := by
        unfold s3
        split
        · exact State.changeFlag_memOk h2
        · exact h2
      split
      · exact h3 _ (State.wakeNoticeFor_memOk h4)
      · split
        · exact h3 _ (State.wakeNoticeFor_memOk h2)
        · split
          · extract_lets _
            exact h3 _ (State.modNode_memOk h2)
          · exact State.send_memOk (State.dropPacket_memOk h2)
  · exact h1

theorem State.failWait_memOk {s : State} {id cause : Nat} {v : RegWait → Word} (h : s.MemOk) : OptMemOk (fun t => t) (s.failWait id cause v) := by
  unfold State.failWait
  extract_lets is
  split
  · exact .some (State.trapIn_memOk (State.modSlot_memOk h))
  · cases s.saved.find? fun e => is e.2 with
    | none => exact .none
    | some e => exact .some (State.write_memOk _ (State.write_memOk _ (State.write_memOk _ h)))

theorem execWakeNotice_memOk {pk : Nat} {s : State} (h : s.MemOk) : (execWakeNotice pk s).MemOk := by
  unfold execWakeNotice
  refine .next ?_
  split
  · exact h
  · split
    · next acc overrun sts _ _ =>
      have hd : (s.dropPacket pk).MemOk := State.dropPacket_memOk h
      extract_lets s1
      have h1 : s1.MemOk := hd
      split
      · have hf := State.failWait_memOk (id := acc) (cause := 0x0C) (v := fun w => w.flag) h1
        cases hw : s1.failWait acc 0x0C fun w => w.flag with
        | none => exact h1
        | some t => exact (some_memOk hw hf :)
      · split
        · exact State.finishOf_memOk (State.acquire_memOk (State.modSlot_memOk h1))
        · split
          · exact h1
          · exact State.write_memOk _ h1
    · exact h

theorem State.sendFreed_memOk {s : State} {id : Nat} {a : Access} {from' : Nat} (h : s.MemOk) : (s.sendFreed id a from').MemOk := State.send_memOk h

theorem State.opProgress_memOk {s : State} {op : Nat} (h : s.MemOk) : (s.opProgress op).MemOk := by
  unfold State.opProgress
  split
  · exact h
  · extract_lets s1
    have h1 : s1.MemOk := State.modOp_memOk h
    split
    · split
      · exact State.event_memOk h1
      · exact h1
    · exact h1

theorem State.landError_memOk {s : State} {id : Nat} {a : Access} (h : s.MemOk) : (s.landError id a).MemOk := by
  unfold State.landError
  split
  · exact h
  · split
    · next s1 e1 =>
      have h1 : s1.MemOk := some_memOk e1 (State.failWait_memOk h)
      exact h1
    · split
      · exact State.modContext_memOk h
      · exact h

theorem landReply_memOk {s : State} {a : Access} (h : s.MemOk) : (landReply s a).MemOk := by
  unfold landReply
  extract_lets t d flagBit w s1
  have h1 : s1.MemOk := by
    unfold s1
    split
    · exact State.acquire_memOk h
    · exact h
  clear_value t d flagBit w s1
  cases a.trap with
  | some x => exact State.trapIn_memOk h
  | none =>
    cases a.req with
    | load n =>
      cases a.parcel with
      | none => exact State.finishOf_memOk (State.setRegOf_memOk h1)
      | some x =>
        show State.MemOk (match parcelLoad x.1 x.2 w with | some h => (s1.setRegOf t d h).finishOf t | none => s1.trapIn t 0x0B w)
        split
        · exact State.finishOf_memOk (State.setRegOf_memOk h1)
        · exact State.trapIn_memOk h1
    | amo | cas | enq | chase | peek | lineState => exact State.finishOf_memOk (State.setRegOf_memOk h)
    | casBlock => exact State.finishOf_memOk (State.write_memOk _ (State.setRegOf_memOk h))
    | deq => exact State.finishOf_memOk (State.setRegOf_memOk (State.setRegOf_memOk h))
    | _ => exact State.finishOf_memOk h

theorem State.landLine_memOk {s : State} {a : Access} (h : s.MemOk) : (s.landLine a).MemOk := (landLine_keeps _ _).ok h

theorem execReplyLands_memOk {pk : Nat} {s : State} (h : s.MemOk) : (execReplyLands pk s).MemOk := by
  unfold execReplyLands
  refine .next ?_
  split
  · exact h
  · split
    · extract_lets s1
      have h1 : s1.MemOk := State.dropPacket_memOk h
      split
      · extract_lets s2
        have h2 : s2.MemOk := State.sendFreed_memOk (State.retireAccess_memOk h1)
        split
        · exact landReply_memOk h2
        · exact State.landLine_memOk h2
      · exact h1
    · exact h

theorem State.resend_memOk {s : State} {acc : Nat} {a : Access} (h : s.MemOk) : (s.resend acc a).MemOk := by
  unfold State.resend
  split
  · exact State.sendMulticast_memOk h
  · exact State.sendMulticast_memOk h
  · exact State.send_memOk h

theorem execBusyNotice_memOk {pk : Nat} {s : State} (h : s.MemOk) : (execBusyNotice pk s).MemOk := by
  unfold execBusyNotice
  refine .next ?_
  split
  · exact h
  · split
    · extract_lets s1
      have h1 : s1.MemOk := State.dropPacket_memOk h
      split
      · exact State.timer_memOk (State.dropRetry_memOk h1)
      · exact h1
    · exact h

theorem execBusyResend_memOk {acc : Nat} {s : State} (h : s.MemOk) : (execBusyResend acc s).MemOk := by
  unfold execBusyResend
  refine .next ?_
  split
  · split
    · exact h
    · exact State.armRetry_memOk (State.resend_memOk h)
  · exact h

end Sys2Proof.Machine
end

section
/-! Proofs. Memory stays canonical: Tile, Engine (95; O59). -/

namespace Sys2Proof.Machine

/-! ### Tile -/

theorem State.modOpSlot_memOk {s : State} {o : EngOp} {f : Slot → Slot} (h : s.MemOk) : (s.modOpSlot o f).MemOk := by
  unfold State.modOpSlot
  split
  · exact State.modSlot_memOk h
  · exact h

theorem State.setLanePred_memOk {s : State} {o : EngOp} {k : Nat} {v : BitVec 64} (h : s.MemOk) : (s.setLanePred o k v).MemOk := by
  unfold State.setLanePred
  split
  · exact State.modOpSlot_memOk h
  · exact State.write_memOk _ h

theorem State.countOp_memOk {s : State} {o : EngOp} {fl : Word} (h : s.MemOk) : (s.countOp o fl).MemOk := by
  unfold State.countOp
  split
  · exact h
  · exact State.countFlag_memOk h

theorem State.countOperand_memOk {s : State} {o : EngOp} {x : Operand} {i : Nat} (h : s.MemOk) : (s.countOperand o x i).MemOk := by
  unfold State.countOperand
  split
  · exact h
  · extract_lets _
    split
    · exact h
    · exact State.countExtent_memOk h

theorem State.raceLines_memOk {s : State} {o : EngOp} {l : List (Nat × Word)} {gen : Nat} {writes : Bool} (h : s.MemOk) :
    (s.raceLines o l gen writes).1.MemOk := by
  unfold State.raceLines
  split
  · exact h
  · refine foldl_fst_memOk ?_ h
    intro _ _ h1
    split
    · exact h1
    · exact State.raceAccess_memOk h1

/-! ### Engine -/

theorem State.noteEarly_memOk {s : State} {t : Nat} {pas : List Nat} (h : s.MemOk) : (s.noteEarly t pas).MemOk := State.readEarly_memOk h

theorem State.raceCommand_memOk {s : State} {o : EngOp} {i : Instr} (h : s.MemOk) : (s.raceCommand o i).1.MemOk := by
  unfold State.raceCommand
  split
  · exact h
  · extract_lets step r _
    have h1 : ∀ (acc : State × Option Word) (l : List (Nat × Word)) (g : Nat) (w : Bool), acc.1.MemOk → (step acc l g w).1.MemOk := by
      intro _ _ _ _ h1
      unfold step
      split
      · exact h1
      · exact State.raceLines_memOk h1
    have h2 : r.1.MemOk := by
      unfold r
      refine foldl_fst_memOk ?_ h
      intro _ _ h2
      split
      · unfold step
        split
        · exact h2
        · exact State.raceLines_memOk h2
      · exact h2
    split
    · refine foldl_fst_memOk ?_ h2
      intro _ _ h3
      unfold step
      split
      · exact h3
      · exact State.raceLines_memOk h3
    · unfold step
      split
      · exact h2
      · exact State.raceLines_memOk h2
    · unfold step
      split
      · exact h2
      · exact State.raceLines_memOk h2
    · extract_lets _
      split
      · exact h2
      · unfold step
        split
        · exact h2
        · exact State.raceLines_memOk h2
    · extract_lets _ r1
      have h3 : r1.1.MemOk := by
        unfold r1
        unfold step
        split
        · exact h2
        · exact State.raceLines_memOk h2
      unfold step
      split
      · exact h3
      · exact State.raceLines_memOk h3
    · exact h2

theorem State.checkIssue_memOk {s : State} {o : EngOp} {i : Instr} (h : s.MemOk) : (s.checkIssue o i).1.MemOk := by
  unfold State.checkIssue
  split
  · exact h
  · split
    · split
      · next s1 _ e2 =>
        have h1 : s1.MemOk := fst_memOk e2 (State.raceCommand_memOk h)
        exact h1
      · next s1 e2 =>
        have h1 : s1.MemOk := fst_memOk e2 (State.raceCommand_memOk h)
        exact h1
    · exact h

theorem State.kick_memOk {s : State} {core : Nat} {e : Engine} (h : s.MemOk) : (s.kick core e).MemOk := memOk_of_mem (keepsContexts_kick _ _ _).mem h

theorem State.kickPorts_memOk {s : State} {node : Nat} (h : s.MemOk) : (s.kickPorts node).MemOk := foldl_memOk (fun _ _ h1 => State.kick_memOk h1) h

theorem State.enqueue_memOk {s : State} {id : Nat} (h : s.MemOk) : (s.enqueue id).MemOk := memOk_of_mem (keepsOrigins_enqueue _ _).mem h

theorem State.leaveQueue_memOk {s : State} {id : Nat} {o : EngOp} (h : s.MemOk) :
    (s.leaveQueue id o).MemOk :=
  memOk_of_mem (keepsOrigins_leaveQueue _ _ _).mem h

theorem State.place_memOk {s : State} {id : Nat} (h : s.MemOk) : (s.place id).MemOk := by
  unfold State.place
  split
  · split
    · exact h
    · exact State.enqueue_memOk h
  · exact h

theorem State.dropOp_memOk {s : State} {id : Nat} (h : s.MemOk) : (s.dropOp id).MemOk := h

theorem State.addOp_memOk {s : State} {o : EngOp} (h : s.MemOk) : (s.addOp o).2.MemOk := by
  unfold State.addOp
  split
  · next s1 e =>
    have h1 : s1.MemOk := snd_memOk e (State.fresh_memOk h)
    exact h1

theorem State.writeWindow_memOk {s : State} {t x : Nat} {ws : List Word} (h : s.MemOk) :
    (s.writeWindow t x ws).MemOk :=
  (writeWindow_keeps _ _ _ _).ok h

theorem State.surfaceTx_memOk {s : State} {id : Nat} {o : EngOp} (h : s.MemOk) : (s.surfaceTx id o).MemOk := (surfaceTx_keeps _ _ _).ok h

theorem State.surface_memOk {s : State} {id : Nat} (h : s.MemOk) : (s.surface id).MemOk := (surface_keeps _ _).ok h

theorem State.faultOp_memOk {s : State} {id cause : Nat} {tval : Word} {resume : Nat} {resumes : Bool} (h : s.MemOk) :
    (s.faultOp id cause tval resume resumes).MemOk :=
  (faultOp_keeps _ _ _ _ _ _).ok h

theorem State.startSeq_memOk {s : State} {o0 : EngOp} {q : SeqEntry} {i : Nat} (h : s.MemOk) : (s.startSeq o0 q i).MemOk := by
  unfold State.startSeq
  extract_lets _ _
  split
  · exact h
  · extract_lets _
    split
    · next s1 e1 =>
      have h1 : s1.MemOk := snd_memOk e1 (State.addOp_memOk h)
      extract_lets s2
      have h2 : s2.MemOk := State.modOpSlot_memOk h1
      split
      · exact State.faultOp_memOk h2
      · exact State.faultOp_memOk h2
      · split
        · next s3 _ _ e3 =>
          have h3 : s3.MemOk := fst_memOk e3 (State.checkIssue_memOk h2)
          exact State.faultOp_memOk (State.modOp_memOk h3)
        · next s3 e3 =>
          have h3 : s3.MemOk := fst_memOk e3 (State.checkIssue_memOk h2)
          exact State.place_memOk h3

theorem State.sourceError_memOk {s : State} {o : EngOp} {i : Instr} (h : s.MemOk) : (s.sourceError o i).1.MemOk := by
  unfold State.sourceError
  extract_lets _
  split
  · exact h
  · refine foldl_fst_memOk ?_ h
    intro _ _ h1
    split
    · exact h1
    · split
      · next s1 e2 =>
        have h2 : s1.MemOk := fst_memOk e2 (State.findError_memOk h1)
        exact h2
      · next s1 e2 =>
        have h2 : s1.MemOk := fst_memOk e2 (State.findError_memOk h1)
        exact h2

theorem State.startPreds_memOk {s : State} {id : Nat} {o : EngOp} (h : s.MemOk) : (s.startPreds id o).MemOk := by
  unfold State.startPreds
  split
  · exact h
  · exact State.modOp_memOk h

theorem command_memOk {s : State} {k : State → Nat → EngOp → State} (h : s.MemOk)
    (hk : ∀ (a : State) (a_1 : Nat) (a_2 : EngOp), a.MemOk → (k a a_1 a_2).MemOk) :
    (command s k).MemOk := by
  unfold command
  refine .next ?_
  extract_lets _
  split
  · exact h
  · split
    · exact h
    · extract_lets s1 _
      have h1 : s1.MemOk := State.startPreds_memOk h
      split
      · exact h1
      · split
        · next s2 _ e3 =>
          have h2 : s2.MemOk := by
            refine fst_memOk e3 ?_
            split
            · exact h1
            · split
              · exact h1
              · exact State.checkIssue_memOk h1
          split
          · exact State.faultOp_memOk h2
          · extract_lets s3
            have h3 : s3.MemOk := by
              unfold s3
              split
              · exact h2
              · exact State.modOp_memOk h2
            split
            · next s4 _ e4 =>
              have h4 : s4.MemOk := fst_memOk e4 (State.sourceError_memOk h3)
              exact State.faultOp_memOk h4
            · next s4 e4 =>
              have h4 : s4.MemOk := fst_memOk e4 (State.sourceError_memOk h3)
              split
              · exact hk _ _ _ h4
              · split
                · next s5 _ e6 =>
                  have h5 : s5.MemOk := fst_memOk e6 (State.raceCommand_memOk h4)
                  exact State.faultOp_memOk h5
                · next s5 e6 =>
                  have h5 : s5.MemOk := fst_memOk e6 (State.raceCommand_memOk h4)
                  extract_lets s6
                  have h6 : s6.MemOk := by
                    unfold s6
                    split
                    · exact h5
                    · exact State.modOp_memOk h5
                  exact hk _ _ _ h6

theorem State.finishOp_memOk {s : State} {id : Nat} (h : s.MemOk) : (s.finishOp id).MemOk := by
  unfold State.finishOp
  extract_lets s1
  have h1 : s1.MemOk := State.modOp_memOk h
  split
  · split
    · exact State.event_memOk h1
    · exact h1
  · exact h1

theorem State.noteStamp_memOk {s : State} {o : EngOp} (h : s.MemOk) : (s.noteStamp o).MemOk := by
  unfold State.noteStamp
  split
  · split
    · exact State.modOpSlot_memOk h
    · exact h
  · exact h

theorem State.joined_memOk {s : State} {t : Nat} {key : Option Nat} (h : s.MemOk) : (s.joined t key).MemOk := by
  unfold State.joined
  extract_lets _ _
  refine State.acquire_memOk ?_
  split
  · exact h
  · exact State.modSlot_memOk h

theorem State.returnTx_memOk {s : State} {id : Nat} {o : EngOp} (h : s.MemOk) : (s.returnTx id o).MemOk := by
  unfold State.returnTx
  extract_lets s1
  have h1 : s1.MemOk := State.modOpSlot_memOk (State.noteStamp_memOk h)
  split
  · exact State.finishOf_memOk (State.joined_memOk h1)
  · exact h1

theorem State.entryDone_memOk {s : State} {task idx : Nat} (h : s.MemOk) : (s.entryDone task idx).MemOk := State.modTask_memOk h

theorem execEngineCompletion_memOk {op : Nat} {s : State} (h : s.MemOk) : (execEngineCompletion op s).MemOk := by
  unfold execEngineCompletion
  refine .next ?_
  split
  · exact h
  · split
    · extract_lets s1 s2 s3 s4
      have h1 : s1.MemOk := State.modOp_memOk h
      have h2 : s2.MemOk := State.leaveQueue_memOk h1
      have h3 : s3.MemOk := State.modOpSlot_memOk (State.noteStamp_memOk h2)
      have h4 : s4.MemOk := State.wakeIf_memOk h3
      split
      · exact State.pokeTask_memOk (State.dropOp_memOk (State.returnTx_memOk h2))
      · exact State.pokeTask_memOk (State.dropOp_memOk h2)
      · exact State.pokeTask_memOk (State.dropOp_memOk (State.entryDone_memOk h2))
      · split
        · exact State.pokeTask_memOk (State.dropOp_memOk h2)
        · split
          · exact State.dropOp_memOk (State.startSeq_memOk h2)
          · exact State.pokeTask_memOk (State.dropOp_memOk h4)
    · exact h

theorem State.resumeOp_memOk {s : State} {id : Nat} (h : s.MemOk) : (s.resumeOp id).MemOk := by
  unfold State.resumeOp
  split
  · exact h
  · extract_lets _ s1 s2
    have h1 : s1.MemOk := State.modOp_memOk h
    have h2 : s2.MemOk := State.modOpSlot_memOk h1
    split
    · exact State.faultOp_memOk h2
    · exact State.faultOp_memOk h2
    · exact State.place_memOk h2

theorem State.freeOp_memOk {s : State} {id : Nat} {o : EngOp} (h : s.MemOk) : (s.freeOp id o).MemOk := by
  unfold State.freeOp
  extract_lets s1 s2 s3
  have h1 : s1.MemOk := State.modOpSlot_memOk (State.noteStamp_memOk h)
  have h2 : s2.MemOk := State.wakeIf_memOk h1
  have h3 : s3.MemOk := by
    unfold s3
    split
    · exact h2
    · exact h2
  exact State.pokeTask_memOk (State.dropOp_memOk h3)

theorem State.rejoin_memOk {s : State} {id : Nat} {o : EngOp} {x : Nat} (h : s.MemOk) : (s.rejoin id o x).MemOk := by
  unfold State.rejoin
  split
  · exact .freed (State.freeOp_memOk h)
  · extract_lets d s1
    have h1 : s1.MemOk := State.noteEarly_memOk h
    clear_value d
    split
    · exact .resumed (State.resumeOp_memOk (State.writeWindow_memOk h1))
    · exact .freed (State.freeOp_memOk h1)
    · exact .raise h1

theorem State.firstJoin_memOk {s : State} {id : Nat} {o : EngOp} {q : SeqEntry} (h : s.MemOk) :
    (s.firstJoin id o q).MemOk :=
  State.modSlot_memOk (State.writeWindow_memOk h)

theorem State.joinAt_memOk {s : State} {x fuel : Nat} (h : s.MemOk) : (s.joinAt x fuel).MemOk := by
  induction fuel generalizing s with
  | zero => exact State.park_memOk h
  | succ fuel ih =>
    rw [State.joinAt]
    split
    · exact State.finish_memOk (State.joined_memOk h)
    · split
      · exact State.park_memOk h
      · split
        · split
          · exact State.trap_memOk (State.firstJoin_memOk h)
          · split
            · next s1 e =>
              have h1 : s1.MemOk := Joined.MemOk.of_freed e (State.rejoin_memOk h)
              exact ih h1
            · next s1 e =>
              have h1 : s1.MemOk := Joined.MemOk.of_resumed e (State.rejoin_memOk h)
              exact State.park_memOk h1
            · next s1 e =>
              have h1 : s1.MemOk := Joined.MemOk.of_raise e (State.rejoin_memOk h)
              exact State.trap_memOk h1
        · exact State.finish_memOk h

theorem execRdv_memOk {g : Guard} {a : Field4} {imm : BitVec 12} {s : State} (h : s.MemOk) : (execRdv g a imm s).MemOk := by
  unfold execRdv
  refine scalar_memOk h ?_
  intro _ h1
  refine atHome_memOk h1 ?_
  intro _ h2
  extract_lets _
  split
  · exact State.trap_memOk h2
  · exact State.joinAt_memOk h2

theorem State.fetchCommands_memOk {s : State} {x n : Nat} {k : State → State} (h : s.MemOk) (hk : ∀ (a : State), a.MemOk → (k a).MemOk) :
    (s.fetchCommands x n k).MemOk := by
  unfold State.fetchCommands
  split
  · exact State.park_memOk h
  · extract_lets _
    split
    · exact State.park_memOk h
    · split
      · next s1 e2 =>
        have h1 : s1.MemOk := fst_memOk e2 (State.findError_memOk h)
        exact State.trap_memOk h1
      · next s1 e2 =>
        have h1 : s1.MemOk := fst_memOk e2 (State.findError_memOk h)
        exact hk _ (State.noteEarly_memOk h1)

theorem State.issueCommand_memOk {s : State} {x : Nat} {origin : Origin} {k : State → Nat → EngOp → State} (h : s.MemOk)
    (hk : ∀ (a : State) (a_1 : Nat) (a_2 : EngOp), a.MemOk → (k a a_1 a_2).MemOk) :
    (s.issueCommand x origin k).MemOk := by
  unfold State.issueCommand
  refine State.fetchCommands_memOk h ?_
  intro _ h1
  extract_lets _ _ _
  split
  · exact State.trap_memOk h1
  · exact State.trap_memOk h1
  · split
    · next s2 _ _ e1 =>
      have h2 : s2.MemOk := fst_memOk e1 (State.checkIssue_memOk h1)
      exact State.trap_memOk h2
    · next s2 e1 =>
      have h2 : s2.MemOk := fst_memOk e1 (State.checkIssue_memOk h1)
      split
      · next s3 e2 =>
        have h3 : s3.MemOk := snd_memOk e2 (State.addOp_memOk h2)
        exact hk _ _ _ h3

theorem State.numberSpire_memOk {s : State} {task member : Nat} {w : Command} (h : s.MemOk) : (s.numberSpire task member w).2.MemOk := by
  unfold State.numberSpire
  split
  · extract_lets _ _
    exact State.modTask_memOk h
  · exact h

theorem State.giveOp_memOk {s : State} {id : Nat} {o : EngOp} (h : s.MemOk) : (s.giveOp id o).MemOk := by
  unfold State.giveOp
  split
  · next s1 e =>
    have h1 : s1.MemOk := snd_memOk e (State.numberSpire_memOk h)
    exact State.enqueue_memOk (State.modOp_memOk h1)

theorem execTq_memOk {g : Guard} {a : Field4} {imm : BitVec 12} {s : State} (h : s.MemOk) : (execTq g a imm s).MemOk := by
  unfold execTq
  refine scalar_memOk h ?_
  intro _ h1
  refine atHome_memOk h1 ?_
  intro _ h2
  extract_lets _ give
  have h3 : ∀ (s : State) (id : Nat) (o : EngOp), s.MemOk → (give s id o).MemOk := by
    intro _ _ _ h3
    unfold give
    split
    · exact State.park_memOk h3
    · exact State.finish_memOk (State.giveOp_memOk h3)
  split
  · split
    · exact h3 _ _ _ h2
    · exact State.finish_memOk h2
  · split
    · exact State.trap_memOk h2
    · exact State.issueCommand_memOk h2 (fun _ _ _ h4 => h3 _ _ _ h4)

theorem execTx_memOk {g : Guard} {a : Field4} {imm : BitVec 12} {s : State} (h : s.MemOk) : (execTx g a imm s).MemOk := by
  unfold execTx
  refine scalar_memOk h ?_
  intro _ h1
  refine atHome_memOk h1 ?_
  intro _ h2
  extract_lets _ _ give _ _
  have h3 : ∀ (s : State) (id : Nat) (o : EngOp), s.MemOk → (give s id o).MemOk := by
    intro _ _ _ h3
    unfold give
    split
    · exact State.park_memOk h3
    · exact State.giveOp_memOk (State.park_memOk h3)
  split
  · split
    · exact h3 _ _ _ h2
    · exact State.finish_memOk h2
  · split
    · exact State.trap_memOk h2
    · split
      · split
        · next s3 e3 =>
          have h4 : s3.MemOk := Joined.MemOk.of_freed e3 (State.rejoin_memOk h2)
          exact State.finish_memOk (State.joined_memOk h4)
        · next s3 e3 =>
          have h4 : s3.MemOk := Joined.MemOk.of_resumed e3 (State.rejoin_memOk h2)
          exact State.park_memOk h4
        · next s3 e3 =>
          have h4 : s3.MemOk := Joined.MemOk.of_raise e3 (State.rejoin_memOk h2)
          exact State.trap_memOk h4
      · split
        · exact State.joinAt_memOk h2
        · exact State.issueCommand_memOk h2 (fun _ _ _ h4 => h3 _ _ _ (State.modHere_memOk h4))

theorem State.startFork_memOk {s : State} {q : SeqEntry} (h : s.MemOk) : (s.startFork q).MemOk := by
  unfold State.startFork
  split
  · next s1 e =>
    have h1 : s1.MemOk := by
      refine snd_memOk e ?_
      refine foldl_snd_memOk ?_ h
      intro _ _ h1
      split
      · next s2 e1 =>
        have h2 : s2.MemOk := snd_memOk e1 (State.numberSpire_memOk h1)
        exact h2
    extract_lets _ _
    exact State.finish_memOk (State.startSeq_memOk (State.modHere_memOk h1))

theorem State.takeEntry_memOk {s : State} {new : SeqEntry} (h : s.MemOk) : (s.takeEntry new).MemOk := by
  unfold State.takeEntry
  extract_lets wait ops
  have h1 : ∀ (s : State), s.MemOk → (wait s).MemOk := fun _ h1 => State.park_memOk (State.modHere_memOk h1)
  split
  · exact State.startFork_memOk h
  · split
    · exact h1 _ h
    · clear_value ops
      split
      · split
        · exact State.trap_memOk (State.firstJoin_memOk h)
        · split
          · next s1 e3 =>
            have h2 : s1.MemOk := Joined.MemOk.of_freed e3 (State.rejoin_memOk h)
            exact State.startFork_memOk h2
          · next s1 e3 =>
            have h2 : s1.MemOk := Joined.MemOk.of_resumed e3 (State.rejoin_memOk h)
            exact h1 _ h2
          · next s1 e3 =>
            have h2 : s1.MemOk := Joined.MemOk.of_raise e3 (State.rejoin_memOk h)
            exact State.trap_memOk h2
      · exact State.startFork_memOk h

theorem execFork_memOk {g : Guard} {n a : Field4} {imm : BitVec 12} {s : State} (h : s.MemOk) : (execFork g n a imm s).MemOk := by
  unfold execFork
  refine scalar_memOk h ?_
  intro _ h1
  refine atHome_memOk h1 ?_
  intro _ h2
  extract_lets _ _ _
  split
  · exact State.trap_memOk h2
  · split
    · exact State.takeEntry_memOk h2
    · exact State.fetchCommands_memOk h2 (fun _ h3 => State.takeEntry_memOk h3)

theorem State.endAccess_memOk {s : State} {id : Nat} {a : Access} {cause : Nat} (h : s.MemOk) :
    (s.endAccess id a cause).MemOk :=
  (endAccess_keeps _ _ _ _).ok h

theorem State.loseAccess_memOk {s : State} {id : Nat} {a : Access} (h : s.MemOk) : (s.loseAccess id a).MemOk := State.endAccess_memOk h

theorem execRetryTimeout_memOk {acc : Nat} {s : State} (h : s.MemOk) : (execRetryTimeout acc s).MemOk := by
  unfold execRetryTimeout
  refine .next ?_
  split
  · exact h
  · split
    · exact State.armRetry_memOk h
    · split
      · exact State.loseAccess_memOk h
      · exact State.armRetry_memOk (State.resend_memOk (State.modAccess_memOk h))

theorem execAcknowledgement_memOk {pk : Nat} {s : State} (h : s.MemOk) : (execAcknowledgement pk s).MemOk := by
  unfold execAcknowledgement
  refine .next ?_
  split
  · exact h
  · split
    · extract_lets s1
      have h1 : s1.MemOk := State.dropPacket_memOk h
      split
      · split
        · extract_lets s2 s3
          have h2 : s2.MemOk := by
            unfold s2
            refine foldl_memOk ?_ h1
            intro _ _ h2
            split
            · exact State.send_memOk h2
            · exact h2
          have h3 : s3.MemOk := by
            unfold s3
            split
            · exact h2
            · exact State.landLine_memOk h2
          exact State.opProgress_memOk (State.landError_memOk (State.sendFreed_memOk (State.retireAccess_memOk h3)))
        · exact h1
      · exact State.modNode_memOk h1
      · split
        · exact State.loseAccess_memOk h1
        · exact h1
      · exact h1
    · exact h

theorem execHomeReport_memOk {pk : Nat} {s : State} (h : s.MemOk) : (execHomeReport pk s).MemOk := by
  unfold execHomeReport
  refine .next ?_
  split
  · exact h
  · split
    · extract_lets s1
      have h1 : s1.MemOk := State.dropPacket_memOk h
      split
      · extract_lets s2 _ _ s3 s4 s5
        have h2 : s2.MemOk := State.sendFreed_memOk (State.retireAccess_memOk h1)
        have h3 : s3.MemOk := h2
        have h4 : s4.MemOk := h2
        have h5 : s5.MemOk := by
          unfold s5
          split
          · split
            · exact h4
            · exact State.countGroup_memOk h4
          · exact h3
        split
        · exact State.faultOp_memOk (State.modOp_memOk h5)
        · exact State.opProgress_memOk (State.landError_memOk h5)
      · exact h1
    · exact h

end Sys2Proof.Machine
end

section
/-! Proofs. Memory stays canonical: Lane, Loom, Move, Carter (95; O59). -/

namespace Sys2Proof.Machine

/-! ### Lane -/

theorem rowCommand_memOk {f : TileFields} {sources : List Field4} {all : Bool} {s : State} {elem : State → EngOp → RowCtx → Nat → Nat → Nat}
    (h : s.MemOk) :
    (rowCommand f sources all s elem).MemOk := by
  unfold rowCommand
  refine command_memOk h ?_
  intro _ _ _ h1
  extract_lets _ _ _
  split
  · exact h1
  · exact State.finishOp_memOk (State.write_memOk _ h1)

theorem arith_memOk {f : TileFields} {sources : List Field4} {s : State} {op : Bool → Val → Val → Val → Val} (h : s.MemOk) :
    (arith f sources s op).MemOk :=
  rowCommand_memOk h

theorem execRadd_memOk {f : TileFields} {s : State} (h : s.MemOk) : (execRadd f s).MemOk := arith_memOk h

theorem execRsub_memOk {f : TileFields} {s : State} (h : s.MemOk) : (execRsub f s).MemOk := arith_memOk h

theorem execRmul_memOk {f : TileFields} {s : State} (h : s.MemOk) : (execRmul f s).MemOk := arith_memOk h

theorem execRfma_memOk {f : TileFields} {s : State} (h : s.MemOk) : (execRfma f s).MemOk := arith_memOk h

theorem execRmin_memOk {f : TileFields} {s : State} (h : s.MemOk) : (execRmin f s).MemOk := arith_memOk h

theorem execRmax_memOk {f : TileFields} {s : State} (h : s.MemOk) : (execRmax f s).MemOk := arith_memOk h

theorem execRabs_memOk {f : TileFields} {s : State} (h : s.MemOk) : (execRabs f s).MemOk := arith_memOk h

theorem execRneg_memOk {f : TileFields} {s : State} (h : s.MemOk) : (execRneg f s).MemOk := arith_memOk h

theorem unary_memOk {f : TileFields} {s : State} {op : Val → Val} (h : s.MemOk) : (unary f s op).MemOk := rowCommand_memOk h

theorem execRrcp_memOk {f : TileFields} {s : State} (h : s.MemOk) : (execRrcp f s).MemOk := unary_memOk h

theorem execRrsq_memOk {f : TileFields} {s : State} (h : s.MemOk) : (execRrsq f s).MemOk := unary_memOk h

theorem execRexp2_memOk {f : TileFields} {s : State} (h : s.MemOk) : (execRexp2 f s).MemOk := unary_memOk h

theorem execRlog2_memOk {f : TileFields} {s : State} (h : s.MemOk) : (execRlog2 f s).MemOk := unary_memOk h

theorem execRcvt_memOk {f : TileFields} {s : State} (h : s.MemOk) : (execRcvt f s).MemOk := unary_memOk h

theorem bitwise_memOk {f : TileFields} {s : State} {op : Nat → Nat → Nat} (h : s.MemOk) : (bitwise f s op).MemOk := rowCommand_memOk h

theorem execRand_memOk {f : TileFields} {s : State} (h : s.MemOk) : (execRand f s).MemOk := bitwise_memOk h

theorem execRor_memOk {f : TileFields} {s : State} (h : s.MemOk) : (execRor f s).MemOk := bitwise_memOk h

theorem execRxor_memOk {f : TileFields} {s : State} (h : s.MemOk) : (execRxor f s).MemOk := bitwise_memOk h

theorem execRshl_memOk {f : TileFields} {s : State} (h : s.MemOk) : (execRshl f s).MemOk := rowCommand_memOk h

theorem execRshr_memOk {f : TileFields} {s : State} (h : s.MemOk) : (execRshr f s).MemOk := rowCommand_memOk h

theorem execRsel_memOk {f : TileFields} {s : State} (h : s.MemOk) : (execRsel f s).MemOk := rowCommand_memOk h

theorem execRbcast_memOk {f : TileFields} {s : State} (h : s.MemOk) : (execRbcast f s).MemOk := by
  unfold execRbcast
  refine command_memOk h ?_
  intro _ _ _ h1
  extract_lets _ _ _ _
  split
  · exact h1
  · split
    · extract_lets _
      exact State.finishOp_memOk (State.write_memOk _ h1)

theorem execRidx_memOk {f : TileFields} {s : State} (h : s.MemOk) : (execRidx f s).MemOk := rowCommand_memOk h

theorem execRperm_memOk {f : TileFields} {s : State} (h : s.MemOk) : (execRperm f s).MemOk := rowCommand_memOk h

theorem execRroll_memOk {f : TileFields} {s : State} (h : s.MemOk) : (execRroll f s).MemOk := rowCommand_memOk h

theorem execRcmp_memOk {f : TileFields} {s : State} (h : s.MemOk) : (execRcmp f s).MemOk := by
  unfold execRcmp
  refine command_memOk h ?_
  intro _ _ _ h1
  extract_lets _ _ _ _ _ _ _
  split
  · exact h1
  · exact State.finishOp_memOk (State.setLanePred_memOk h1)

theorem laneOp_memOk {f : TileFields} {s : State} {op : BitVec 64 → BitVec 64 → BitVec 64} (h : s.MemOk) : (laneOp f s op).MemOk := by
  unfold laneOp
  refine command_memOk h ?_
  intro _ _ _ h1
  extract_lets _ _ _ _
  exact State.finishOp_memOk (State.setLanePred_memOk h1)

theorem execKand_memOk {f : TileFields} {s : State} (h : s.MemOk) : (execKand f s).MemOk := laneOp_memOk h

theorem execKor_memOk {f : TileFields} {s : State} (h : s.MemOk) : (execKor f s).MemOk := laneOp_memOk h

theorem execKxor_memOk {f : TileFields} {s : State} (h : s.MemOk) : (execKxor f s).MemOk := laneOp_memOk h

theorem execKnot_memOk {f : TileFields} {s : State} (h : s.MemOk) : (execKnot f s).MemOk := laneOp_memOk h

theorem reduce_memOk {f : TileFields} {s : State} {op : RowCtx → List Val → Option Val} {empty : Elem → Nat} (h : s.MemOk) :
    (reduce f s op empty).MemOk := by
  unfold reduce
  refine command_memOk h ?_
  intro _ _ _ h1
  extract_lets _ _
  split
  · exact h1
  · exact State.finishOp_memOk (State.write_memOk _ h1)

theorem execRsumr_memOk {f : TileFields} {s : State} (h : s.MemOk) : (execRsumr f s).MemOk := reduce_memOk h

theorem execRmaxr_memOk {f : TileFields} {s : State} (h : s.MemOk) : (execRmaxr f s).MemOk := reduce_memOk h

theorem execRscan_memOk {f : TileFields} {s : State} (h : s.MemOk) : (execRscan f s).MemOk := by
  unfold execRscan
  refine command_memOk h ?_
  intro _ _ _ h1
  extract_lets _ _
  split
  · exact h1
  · exact State.finishOp_memOk (State.write_memOk _ h1)

theorem execRsort_memOk {f : TileFields} {s : State} (h : s.MemOk) : (execRsort f s).MemOk := by
  unfold execRsort
  refine command_memOk h ?_
  intro _ _ _ h1
  extract_lets _ _
  split
  · exact h1
  · exact State.finishOp_memOk (State.write_memOk _ h1)

/-! ### Loom -/

theorem loomCommand_memOk {f : TileFields} {masks : List Field4} {wait : State → EngOp → LoomCtx → Bool} {s : State}
    {value : State → EngOp → LoomCtx → Nat → Nat → Val → Nat} (h : s.MemOk) :
    (loomCommand f masks wait s value).MemOk := by
  unfold loomCommand
  refine command_memOk h ?_
  intro _ _ _ h1
  extract_lets _ _ _ _
  split
  · split
    · exact h1
    · exact State.finishOp_memOk (State.write_memOk _ h1)
  · split
    · exact h1
    · exact State.finishOp_memOk (State.write_memOk _ h1)

theorem execTmma_memOk {f : TileFields} {s : State} (h : s.MemOk) : (execTmma f s).MemOk := loomCommand_memOk h

theorem execTmms_memOk {f : TileFields} {s : State} (h : s.MemOk) : (execTmms f s).MemOk := by
  unfold execTmms
  split
  · split
    · exact .next (State.faultOp_memOk h)
    · exact loomCommand_memOk h
  · exact .next h

theorem execTmmd_memOk {f : TileFields} {s : State} (h : s.MemOk) : (execTmmd f s).MemOk := loomCommand_memOk h

theorem execTmmb_memOk {f : TileFields} {s : State} (h : s.MemOk) : (execTmmb f s).MemOk := loomCommand_memOk h

/-! ### Move -/

theorem State.again_memOk {s : State} {o : EngOp} {id : Nat} (h : s.MemOk) : (s.again o id).MemOk := by
  unfold State.again
  split
  · exact h
  · exact State.timer_memOk h

theorem State.landPiece_memOk {s : State} {id : Nat} {p : Piece} {bytes : List Byte} {trap : Option Fail} (h : s.MemOk) :
    (s.landPiece id p bytes trap).MemOk :=
  State.modOp_memOk h

theorem State.startPiece_memOk {s : State} {id : Nat} {o : EngOp} {x : Operand} {p : Piece} (h : s.MemOk) : (s.startPiece id o x p).1.MemOk := by
  unfold State.startPiece
  extract_lets _ fail
  have h1 : ∀ (s : State) (c : Nat) (v : Word), s.MemOk → (fail s c v).1.MemOk := fun _ _ _ h1 => State.landPiece_memOk h1
  split
  · exact State.landPiece_memOk h
  · split
    · exact State.landPiece_memOk h
    · exact State.landPiece_memOk h
    · exact State.again_memOk h
    · extract_lets _
      split
      · exact h
      · split
        · next s1 _ e3 =>
          have h2 : s1.MemOk := by
            refine fst_memOk e3 ?_
            split
            · exact State.raceLines_memOk h
            · exact h
          exact State.landPiece_memOk h2
        · next s1 e3 =>
          have h2 : s1.MemOk := by
            refine fst_memOk e3 ?_
            split
            · exact State.raceLines_memOk h
            · exact h
          split
          · next s2 e4 =>
            have h3 : s2.MemOk := fst_memOk e4 (State.findError_memOk h2)
            exact State.landPiece_memOk h3
          · next s2 e4 =>
            have h3 : s2.MemOk := fst_memOk e4 (State.findError_memOk h2)
            exact State.landPiece_memOk h3
    · split
      · exact h
      · split
        · next s1 _ e3 =>
          have h2 : s1.MemOk := by
            refine fst_memOk e3 ?_
            split
            · exact State.raceLines_memOk h
            · exact h
          split
          · exact State.landPiece_memOk h2
          · exact State.request_memOk (State.countOperand_memOk h2)

theorem State.startPieces_memOk {s : State} {id : Nat} {x : Operand} {l : List Piece} (h : s.MemOk) : (s.startPieces id x l).MemOk := by
  induction l generalizing s with
  | nil => exact h
  | cons p r ih =>
    rw [State.startPieces]
    split
    · exact h
    · split
      · exact ih h
      · split
        · next s1 e =>
          have h1 : s1.MemOk := fst_memOk e (State.startPiece_memOk h)
          exact ih h1
        · next s1 e =>
          have h1 : s1.MemOk := fst_memOk e (State.startPiece_memOk h)
          exact h1

theorem State.readStream_memOk {s : State} {id : Nat} {x : Operand} {ps : List Piece} (h : s.MemOk) : (s.readStream id x ps).1.MemOk := by
  unfold State.readStream
  extract_lets s1
  have h1 : s1.MemOk := State.startPieces_memOk h
  split
  · exact h1
  · exact h1

theorem Sent.ofMoving_memOk {s : State} {o : EngOp} {id : Nat} (h : s.MemOk) : (Sent.ofMoving s o id).MemOk := .wait (State.again_memOk h)

theorem State.groupFor_memOk {s : State} {id : Nat} {o : EngOp} {flag : Word} (h : s.MemOk) : (s.groupFor id o flag).2.MemOk := by
  unfold State.groupFor
  split
  · exact h
  · split
    · next s1 e1 =>
      have h1 : s1.MemOk := snd_memOk e1 (State.fresh_memOk h)
      exact State.modOp_memOk h1

theorem State.sendChunk_memOk {s : State} {id : Nat} {o : EngOp} {flag : Word} {counts : Bool} {req : Req} {t : Target} {a : Word} {off : Nat}
    (h : s.MemOk) :
    (s.sendChunk id o flag counts req t a off).MemOk := by
  unfold State.sendChunk
  split
  · next s1 e =>
    have h1 : s1.MemOk := snd_memOk e (State.groupFor_memOk h)
    extract_lets _ s2 _ s3
    have h2 : s2.MemOk := h1
    have h3 : s3.MemOk := State.request_memOk h2
    exact State.modOp_memOk h3

theorem State.seal_memOk {s : State} {id : Nat} {flag : Word} {sf : optParam Word 0} (h : s.MemOk) : (s.seal id flag sf).MemOk := by
  unfold State.seal
  split
  · exact h
  · extract_lets _ _ s1
    have h1 : s1.MemOk := h
    split
    · exact State.countGroup_memOk h
    · split
      · split
        · exact h1
        · exact State.countGroup_memOk h1
      · exact State.groupSettled_memOk h

theorem State.writeLocal_memOk {s : State} {o : EngOp} {b : Nat} {c : Chunk} (h : s.MemOk) : (s.writeLocal o b c).MemOk := by
  unfold State.writeLocal
  extract_lets _ written
  have h1 : ∀ (t : State) (is : List Nat), t.MemOk → (written t is).MemOk := fun _ _ h1 => State.examineWritten_memOk h h1
  split
  · exact h1 _ _ (State.write_memOk _ h)
  · exact h1 _ _ (State.deliverAt_memOk h)
  · exact h1 _ _ (foldl_memOk (fun _ _ h2 => State.addElems_memOk h2) h)
  · exact h

theorem State.writeChunks_memOk {s : State} {id : Nat} {x : Operand} {flag : Word} {counts : Bool} {l : List Chunk} (h : s.MemOk) :
    (s.writeChunks id x flag counts l).MemOk := by
  induction l generalizing s with
  | nil => exact .all h
  | cons c r ih =>
    rw [State.writeChunks]
    split
    · exact .wait h
    · next o _ =>
      split
      · next b =>
        extract_lets pa
        have h1' : (if o.racesInFlight then s.raceLines o [(pa, (Operand.here b).address c.1)] 0 true else (s, none)).1.MemOk := by
          split
          · exact State.raceLines_memOk h
          · exact h
        split
        · next s1 _ e =>
          have h1 : s1.MemOk := fst_memOk e h1'
          exact .fault h1
        · next s1 e =>
          have h1 : s1.MemOk := fst_memOk e h1'
          split
          · next s2 e1 =>
            have h2 : s2.MemOk := fst_memOk e1 (State.findError_memOk h1)
            exact .fault h2
          · next s2 e1 =>
            have h2 : s2.MemOk := fst_memOk e1 (State.findError_memOk h1)
            exact ih (State.modOp_memOk (State.writeLocal_memOk h2))
      · next y =>
        split
        · exact .wait h
        · split
          · exact .fault h
          · split
            · split
              · exact Sent.ofMoving_memOk h
              · exact .fault h
            · exact .fault h
            · exact Sent.ofMoving_memOk h
            · next t _ =>
              split
              next s1 _ e =>
              have h1 : s1.MemOk := by
                revert e
                split
                · exact fun e => fst_memOk e (State.raceLines_memOk h)
                · exact fun e => fst_memOk e h
              split
              · exact .fault h1
              · extract_lets s2
                have h2 : s2.MemOk := State.sendChunk_memOk (State.countOperand_memOk h1)
                exact ih (State.modOp_memOk h2)

theorem execTld_memOk {f : TileFields} {s : State} (h : s.MemOk) : (execTld f s).MemOk := by
  unfold execTld
  refine command_memOk h ?_
  intro _ _ _ h1
  extract_lets _ _ _
  split
  · next s2 _ e =>
    have h2 : s2.MemOk := fst_memOk e (State.readStream_memOk h1)
    extract_lets s3
    have h3 : s3.MemOk := State.write_memOk _ h2
    exact State.finishOp_memOk (State.countOp_memOk h3)
  · next s2 _ _ _ _ e =>
    have h2 : s2.MemOk := fst_memOk e (State.readStream_memOk h1)
    exact State.faultOp_memOk (State.write_memOk _ h2)
  · next s2 _ e =>
    have h2 : s2.MemOk := fst_memOk e (State.readStream_memOk h1)
    exact h2

theorem storeOut_memOk {f : TileFields} {x : Operand} {l : Spans} {chunks : List Chunk} {s : State} {id : Nat} {o : EngOp} (h : s.MemOk) :
    (storeOut f x l chunks s id o).MemOk := by
  unfold storeOut
  split
  · next s1 e =>
    have h1 : s1.MemOk := by
      refine snd_memOk e ?_
      split
      · exact h
      · exact State.modOp_memOk h
    extract_lets _
    split
    · exact State.faultOp_memOk h1
    · split
      · next s2 e2 =>
        have h2 : s2.MemOk := Sent.MemOk.of_all e2 (State.writeChunks_memOk h1)
        exact State.finishOp_memOk (State.seal_memOk h2)
      · next s2 e2 =>
        have h2 : s2.MemOk := Sent.MemOk.of_wait e2 (State.writeChunks_memOk h1)
        exact h2
      · next s2 _ _ _ e2 =>
        have h2 : s2.MemOk := Sent.MemOk.of_fault e2 (State.writeChunks_memOk h1)
        exact State.faultOp_memOk (State.modOp_memOk h2)

theorem execTst_memOk {f : TileFields} {s : State} (h : s.MemOk) : (execTst f s).MemOk := by
  unfold execTst
  refine command_memOk h ?_
  intro _ _ _ h1
  extract_lets _ _
  split
  · exact h1
  · exact storeOut_memOk h1

theorem execTsta_memOk {f : TileFields} {s : State} (h : s.MemOk) : (execTsta f s).MemOk := by
  unfold execTsta
  refine command_memOk h ?_
  intro _ _ _ h1
  extract_lets _ _ _ _ _ _
  split
  · exact h1
  · exact storeOut_memOk h1

theorem execTzero_memOk {f : TileFields} {s : State} (h : s.MemOk) : (execTzero f s).MemOk := by
  unfold execTzero
  refine command_memOk h ?_
  intro _ _ _ h1
  extract_lets _ _ _ _
  exact State.finishOp_memOk (State.write_memOk _ h1)

theorem execTcopy_memOk {f : TileFields} {s : State} (h : s.MemOk) : (execTcopy f s).MemOk := by
  unfold execTcopy
  refine command_memOk h ?_
  intro _ _ _ h1
  extract_lets _ _ _ _ _ _ _ _ _ _
  split
  · split
    · exact h1
    · exact storeOut_memOk h1
  · split
    · exact h1
    · exact State.finishOp_memOk (State.write_memOk _ h1)

theorem execTtrn_memOk {f : TileFields} {s : State} (h : s.MemOk) : (execTtrn f s).MemOk := by
  unfold execTtrn
  refine command_memOk h ?_
  intro _ _ _ h1
  extract_lets _ _ _ _
  split
  · exact h1
  · exact State.finishOp_memOk (State.write_memOk _ h1)

/-! ### Carter -/

theorem State.noteOverlap_memOk {s : State} {id : Nat} {o : EngOp} {src dst : Operand} {n i : Nat} {l : List Byte} (h : s.MemOk) :
    (s.noteOverlap id o src dst n i l).MemOk := by
  unfold State.noteOverlap
  extract_lets _
  split
  · exact h
  · extract_lets _ _
    split
    · exact h
    · exact State.modOp_memOk h

theorem State.overlapBytes_memOk {s : State} {o : EngOp} {src : Operand} {i : Nat} {l : List Byte} (h : s.MemOk) :
    (s.overlapBytes o src i l).2.MemOk := by
  unfold State.overlapBytes
  split
  · exact h
  · refine foldl_snd_memOk ?_ h
    intro _ _ h1
    extract_lets wrote
    split
    · next s1 e1 =>
      have h2 : s1.MemOk := snd_memOk e1 (State.free_memOk h1)
      clear_value wrote
      split
      · split
        · exact h2
        · exact h1
      · exact h1

theorem State.wrotePiece_memOk {s : State} {id i n : Nat} {first : Option Nat} (h : s.MemOk) :
    (s.wrotePiece id i n first).MemOk :=
  State.modOp_memOk h

theorem copyPieces_memOk {id len : Nat} {src dst : Operand} {ps : List Piece} {flag : Word} {elem : Option Nat} {s : State} {first : Option Nat}
    {l : List (Nat × Nat)} (h : s.MemOk) : (copyPieces id len src dst ps flag elem s first l).MemOk := by
  induction l generalizing s first with
  | nil =>
    rw [copyPieces]
    split
    · exact .wait h
    · exact .all h
  | cons e r ih =>
    obtain ⟨i, n⟩ := e
    rw [copyPieces]
    split
    · exact .wait h
    · extract_lets room sent
      split
      · exact ih (State.wrotePiece_memOk h)
      · split
        · exact .fault h
        · split
          · exact .wait h
          · exact ih h
        · split
          · exact .wait h
          · split
            next s1 e =>
            have h1 : s1.MemOk := snd_memOk e (State.overlapBytes_memOk h)
            extract_lets s2
            have h2 : s2.MemOk := by
              unfold s2
              split
              · exact h1
              · exact State.noteOverlap_memOk h1
            split
            · next s3 e1 =>
              have h3 : s3.MemOk := Sent.MemOk.of_all e1 (State.writeChunks_memOk (State.modOp_memOk h2))
              exact ih (State.wrotePiece_memOk (State.modOp_memOk h3))
            · next s3 e1 =>
              have h3 : s3.MemOk := Sent.MemOk.of_wait e1 (State.writeChunks_memOk (State.modOp_memOk h2))
              exact .wait (State.modOp_memOk h3)
            · next s3 _ _ _ e1 =>
              have h3 : s3.MemOk := Sent.MemOk.of_fault e1 (State.writeChunks_memOk (State.modOp_memOk h2))
              exact .fault h3

theorem runCopy_memOk {f : TileFields} {elem : EngOp → Option Nat} {s : State} (h : s.MemOk) : (runCopy f elem s).MemOk := by
  unfold runCopy
  refine command_memOk h ?_
  intro _ _ _ h1
  extract_lets _ _ _ _ _ s2
  have h2 : s2.MemOk := State.startPieces_memOk h1
  split
  · next s3 e =>
    have h3 : s3.MemOk := Sent.MemOk.of_wait e (copyPieces_memOk h2)
    exact h3
  · next s3 _ _ _ e =>
    have h3 : s3.MemOk := Sent.MemOk.of_fault e (copyPieces_memOk h2)
    exact State.faultOp_memOk (State.modOp_memOk h3)
  · next s3 e =>
    have h3 : s3.MemOk := Sent.MemOk.of_all e (copyPieces_memOk h2)
    exact State.finishOp_memOk (State.seal_memOk h3)

theorem execCpy_memOk {f : TileFields} {s : State} (h : s.MemOk) : (execCpy f s).MemOk := runCopy_memOk h

theorem execCpya_memOk {f : TileFields} {s : State} (h : s.MemOk) : (execCpya f s).MemOk := runCopy_memOk h

theorem State.releaseEntries_memOk {s : State} {task : Nat} (h : s.MemOk) : (s.releaseEntries task).MemOk := by
  unfold State.releaseEntries
  extract_lets _
  exact foldl_memOk (fun _ _ h1 => State.event_memOk (State.modTask_memOk h1)) h

theorem execCopyScheduleEntry_memOk {task idx : Nat} {s : State} (h : s.MemOk) : (execCopyScheduleEntry task idx s).MemOk := by
  unfold execCopyScheduleEntry
  refine .next ?_
  split
  · exact h
  · extract_lets _ _ _ _ _ _
    split
    · exact h
    · split
      · exact State.event_memOk h
      · split
        · next s1 e4 =>
          have h1 : s1.MemOk := snd_memOk e4 (State.addOp_memOk h)
          extract_lets s2
          have h2 : s2.MemOk := State.modTask_memOk h1
          exact State.place_memOk h2

theorem execCsched_memOk {f : TileFields} {s : State} (h : s.MemOk) : (execCsched f s).MemOk := by
  unfold execCsched
  refine command_memOk h ?_
  intro _ _ _ h1
  extract_lets _ _ _ _ s2
  have h2 : s2.MemOk := State.modTask_memOk h1
  split
  · exact h1
  · exact State.finishOp_memOk (State.releaseEntries_memOk h2)

theorem execCstage_memOk {f : TileFields} {s : State} (h : s.MemOk) : (execCstage f s).MemOk := by
  unfold execCstage
  refine command_memOk h ?_
  intro _ _ _ h1
  extract_lets _ s2 s3 s4
  have h2 : s2.MemOk := State.modTask_memOk h1
  have h3 : s3.MemOk := State.releaseEntries_memOk h2
  have h4 : s4.MemOk := by
    unfold s4
    refine foldl_memOk ?_ h3
    intro _ _ h4
    split
    · exact State.pushOnce_memOk h4
    · exact h4
  exact State.finishOp_memOk h4

end Sys2Proof.Machine
end

section
/-! Proofs. Memory stays canonical: Gleaner, Attention (95; O59). -/

namespace Sys2Proof.Machine

/-! ### Gleaner -/

theorem State.askRows_memOk {s : State} {f : TileFields} {id batch : Nat} {l : List (Nat × Nat)} (h : s.MemOk) : (s.askRows f id batch l).MemOk := by
  induction l generalizing s with
  | nil => exact h
  | cons e r ih =>
    obtain ⟨b, j⟩ := e
    rw [State.askRows]
    split
    · exact h
    · extract_lets n asked
      split
      split
      · exact h
      · split
        · exact ih h
        · split
          · exact State.landPiece_memOk h
          · split
            · exact h
            · split
              · next s1 _ e =>
                have h1 : s1.MemOk := fst_memOk e (State.raceLines_memOk h)
                exact State.landPiece_memOk h1
              · next s1 e =>
                have h1 : s1.MemOk := fst_memOk e (State.raceLines_memOk h)
                exact ih (foldl_memOk (fun _ _ h2 => State.request_memOk h2) h1)

theorem gatherRows_memOk {f : TileFields} {id : Nat} {s : State} {l : List (Nat × Nat)} (h : s.MemOk) : (gatherRows f id s l).MemOk := by
  induction l generalizing s with
  | nil => exact .all h
  | cons e r ih =>
    obtain ⟨b, j⟩ := e
    rw [gatherRows]
    split
    · exact .wait h
    · extract_lets s1 parts come dst
      have h1 : s1.MemOk := State.askRows_memOk h
      clear_value come
      split
      · exact .wait h1
      · exact .fault h1
      · split
        · next s2 _ e =>
          have h2 : s2.MemOk := fst_memOk e (State.raceLines_memOk h1)
          exact .fault h2
        · next s2 e =>
          have h2 : s2.MemOk := fst_memOk e (State.raceLines_memOk h1)
          exact ih (State.modOp_memOk (State.examineWritten_memOk h2 (State.write_memOk _ h2)))

theorem State.sendRow_memOk {s : State} {id : Nat} {o : EngOp} {flag : Word} {pa : Nat} {a : Word} {j : Nat} {bs : List Byte} (h : s.MemOk) :
    (s.sendRow id o flag pa a j bs).MemOk := by
  unfold State.sendRow
  extract_lets _ s1 _
  have h1 : s1.MemOk := foldl_memOk (fun _ _ h1 => State.sendChunk_memOk h1) h
  split
  · split
    · exact h1
    · exact h1
  · exact h1

theorem scatterRows_memOk {f : TileFields} {id : Nat} {s : State} {last : Nat} {l : List (Nat × Nat)} (h : s.MemOk) :
    (scatterRows f id s last l).MemOk := by
  induction l generalizing s last with
  | nil => exact .all h
  | cons e r ih =>
    obtain ⟨b, j⟩ := e
    rw [scatterRows]
    split
    · exact .wait h
    · split
      extract_lets n src
      split
      · exact .wait h
      · split
        · exact .fault h
        · split
          · next s1 _ e =>
            have h1 : s1.MemOk := fst_memOk e (State.raceLines_memOk h)
            exact .fault h1
          · next s1 e =>
            have h1 : s1.MemOk := fst_memOk e (State.raceLines_memOk h)
            split
            · next s2 _ e1 =>
              have h2 : s2.MemOk := fst_memOk e1 (State.raceLines_memOk h1)
              exact .fault h2
            · next s2 e1 =>
              have h2 : s2.MemOk := fst_memOk e1 (State.raceLines_memOk h1)
              split
              · next s3 e2 =>
                have h3 : s3.MemOk := fst_memOk e2 (State.findError_memOk h2)
                exact .fault h3
              · next s3 e2 =>
                have h3 : s3.MemOk := fst_memOk e2 (State.findError_memOk h2)
                exact ih (State.modOp_memOk (State.sendRow_memOk h3))

theorem State.takeList_memOk {s : State} {id : Nat} {o : EngOp} {f : TileFields} (h : s.MemOk) : (s.takeList id o f).MemOk := by
  unfold State.takeList
  split
  · exact h
  · extract_lets _
    exact State.modOp_memOk h

theorem runRows_memOk {f : TileFields} {s : State} {go : Nat → State → Nat → List (Nat × Nat) → Sent} (h : s.MemOk)
    (hgo : ∀ (a : Nat) (a_1 : State) (a_2 : Nat) (a_3 : List (Nat × Nat)), a_1.MemOk → (go a a_1 a_2 a_3).MemOk) :
    (runRows f s go).MemOk := by
  unfold runRows
  refine command_memOk h ?_
  intro _ _ _ h1
  split
  · exact h1
  · split
    · next s2 e1 =>
      have h2 : s2.MemOk := fst_memOk e1 (State.findError_memOk h1)
      exact State.faultOp_memOk h2
    · next s2 e1 =>
      have h2 : s2.MemOk := fst_memOk e1 (State.findError_memOk h1)
      extract_lets s3 _ _ _
      have h3 : s3.MemOk := State.takeList_memOk h2
      split
      · exact State.faultOp_memOk h3
      · split
        · next s4 e3 =>
          have h4 : s4.MemOk := Sent.MemOk.of_all e3 (hgo _ _ _ _ h3)
          exact State.finishOp_memOk (State.seal_memOk h4)
        · next s4 e3 =>
          have h4 : s4.MemOk := Sent.MemOk.of_wait e3 (hgo _ _ _ _ h3)
          exact h4
        · next s4 _ _ _ e3 =>
          have h4 : s4.MemOk := Sent.MemOk.of_fault e3 (hgo _ _ _ _ h3)
          exact State.faultOp_memOk (State.modOp_memOk h4)

theorem execGath_memOk {f : TileFields} {s : State} (h : s.MemOk) : (execGath f s).MemOk := runRows_memOk h (fun _ _ _ _ h1 => gatherRows_memOk h1)

theorem execScat_memOk {f : TileFields} {s : State} (h : s.MemOk) : (execScat f s).MemOk := runRows_memOk h (fun _ _ _ _ h1 => scatterRows_memOk h1)

theorem State.joinRound_memOk {s : State} {task level number : Nat} {group : List Nat} (h : s.MemOk) :
    (s.joinRound task level number group).2.MemOk := by
  unfold State.joinRound
  split
  · exact h
  · split
    · next s1 e1 =>
      have h1 : s1.MemOk := snd_memOk e1 (State.fresh_memOk h)
      extract_lets _
      exact h1

theorem State.pokeRound_memOk {s : State} {id : Nat} (h : s.MemOk) : (s.pokeRound id).MemOk := (pokeRound_due _ _).keeps.ok h

theorem execSpire_memOk {f : TileFields} {s : State} (h : s.MemOk) : (execSpire f s).MemOk := by
  unfold execSpire
  refine command_memOk h ?_
  intro _ _ _ h1
  split
  · extract_lets _ _ _
    split
    · next s2 e1 =>
      have h2 : s2.MemOk := Sent.MemOk.of_all e1 (State.writeChunks_memOk h1)
      exact State.finishOp_memOk (State.seal_memOk h2)
    · next s2 e1 =>
      have h2 : s2.MemOk := Sent.MemOk.of_wait e1 (State.writeChunks_memOk h1)
      exact h2
    · next s2 _ _ _ e1 =>
      have h2 : s2.MemOk := Sent.MemOk.of_fault e1 (State.writeChunks_memOk h1)
      exact State.faultOp_memOk (State.modOp_memOk h2)
  · split
    · exact h1
    · split
      · next s2 _ e2 =>
        have h2 : s2.MemOk := fst_memOk e2 (State.readStream_memOk h1)
        extract_lets _ _ _
        split
        · next s3 e4 =>
          have h3 : s3.MemOk := snd_memOk e4 (State.joinRound_memOk h2)
          extract_lets _ _ _ _ s4 s5 s6
          have h4 : s4.MemOk := h3
          have h5 : s5.MemOk := State.modOp_memOk h4
          have h6 : s6.MemOk := by
            unfold s6
            split
            · exact State.faultOp_memOk h5
            · exact h5
          split
          · exact State.faultOp_memOk h3
          · exact State.pokeRound_memOk h6
      · next s2 _ _ _ _ e2 =>
        have h2 : s2.MemOk := fst_memOk e2 (State.readStream_memOk h1)
        exact State.faultOp_memOk h2
      · next s2 _ e2 =>
        have h2 : s2.MemOk := fst_memOk e2 (State.readStream_memOk h1)
        exact h2

theorem State.newEntry_memOk {s : State} {body : EntryBody} {cls : Class} {src dst frames : Nat} (h : s.MemOk) :
    (s.newEntry body cls src dst frames).MemOk :=
  (newEntry_fabric _ _ _ _ _ _).ok h

theorem State.sendBytes_memOk {s : State} {body : EntryBody} {src dst n : Nat} (h : s.MemOk) :
    (s.sendBytes body src dst n).MemOk :=
  foldl_memOk (fun _ _ h1 => State.newEntry_memOk h1) h

theorem State.takeEntryOf_memOk {s : State} {id : Nat} {body : EntryBody} (h : s.MemOk) : (s.takeEntryOf id body).1.MemOk := by
  unfold State.takeEntryOf
  extract_lets s1
  have h1 : s1.MemOk := h
  exact h1

theorem State.deliverResult_memOk {s : State} {round chip : Nat} (h : s.MemOk) : (s.deliverResult round chip).MemOk := by
  unfold State.deliverResult
  extract_lets _
  refine foldl_memOk ?_ h
  intro _ _ h1
  split
  · exact h1
  · split
    · exact State.faultOp_memOk h1
    · exact State.push_memOk (State.modOp_memOk h1)

theorem execSpireRound_memOk {round : Nat} {s : State} (h : s.MemOk) : (execSpireRound round s).MemOk := by
  unfold execSpireRound
  refine .next ?_
  extract_lets _ chips _ _ s1
  have h1 : s1.MemOk := h
  split
  · exact h
  · clear_value chips
    split
    · exact h1
    · exact foldl_memOk (fun _ _ h2 => State.sendBytes_memOk h2) (State.deliverResult_memOk h1)

theorem execSpirePackageSum_memOk {round : Nat} {s : State} (h : s.MemOk) : (execSpirePackageSum round s).MemOk := by
  unfold execSpirePackageSum
  refine .next ?_
  extract_lets _ chips _ _
  clear_value chips
  split
  · exact h
  · extract_lets s1
    have h1 : s1.MemOk := by
      unfold s1
      refine foldl_memOk ?_ h
      intro _ _ h1
      split
      · extract_lets _ _
        exact h1
      · split
        · exact h1
        · exact State.sendBytes_memOk h1
    split
    · exact State.event_memOk h1
    · exact h1

/-! ### Attention -/

theorem execAtts_memOk {f : TileFields} {s : State} (h : s.MemOk) : (execAtts f s).MemOk := by
  unfold execAtts
  refine command_memOk h ?_
  intro _ _ _ h1
  extract_lets _ _ _ _ _ _
  split
  · exact h1
  · exact State.finishOp_memOk (State.write_memOk _ h1)

theorem execAttp_memOk {f : TileFields} {s : State} (h : s.MemOk) : (execAttp f s).MemOk := by
  unfold execAttp
  refine command_memOk h ?_
  intro _ _ _ h1
  extract_lets _ _ _ _ _
  split
  · exact h1
  · exact State.finishOp_memOk (State.write_memOk _ h1)

theorem State.backToPort_memOk {s : State} {id : Nat} {o : EngOp} (h : s.MemOk) : (s.backToPort id o).MemOk := State.kick_memOk (State.modOp_memOk h)

theorem withSlot_memOk {s : State} {id node : Nat} {slot : BitVec 32} {g : Granary} {k : State → Granary → State} (h : s.MemOk)
    (hk : ∀ (a : State) (a_1 : Granary), a.MemOk → (k a a_1).MemOk) :
    (withSlot s id node slot g k).MemOk := by
  unfold withSlot
  split
  · exact hk _ _ h
  · split
    · extract_lets s1
      have h1 : s1.MemOk := State.modCore_memOk h
      exact hk _ _ (State.modGranary_memOk h1)
    · exact State.faultOp_memOk (State.machineCheck_memOk h)

theorem execGmrg_memOk {f : TileFields} {s : State} (h : s.MemOk) : (execGmrg f s).MemOk := by
  unfold execGmrg
  refine command_memOk h ?_
  intro _ _ _ h1
  extract_lets _ _
  split
  · exact State.faultOp_memOk h1
  · split
    · exact h1
    · refine withSlot_memOk h1 ?_
      intro _ _ h2
      split
      · exact State.faultOp_memOk h2
      · exact State.backToPort_memOk h2
      · exact State.kickPorts_memOk (State.finishOp_memOk (State.countOp_memOk (State.modGranary_memOk h2)))

theorem takeStatus_memOk {f : TileFields} {s : State} {id : Nat} {v : Word} (h : s.MemOk) : (takeStatus f s id v).MemOk := by
  unfold takeStatus
  split
  · exact State.finishOp_memOk (State.seal_memOk h)
  · split
    · next s1 e1 =>
      have h1 : s1.MemOk := Sent.MemOk.of_all e1 (State.writeChunks_memOk h)
      exact State.finishOp_memOk (State.seal_memOk h1)
    · next s1 e1 =>
      have h1 : s1.MemOk := Sent.MemOk.of_wait e1 (State.writeChunks_memOk h)
      exact h1
    · next s1 _ _ _ e1 =>
      have h1 : s1.MemOk := Sent.MemOk.of_fault e1 (State.writeChunks_memOk h)
      exact State.faultOp_memOk h1

theorem execGtake_memOk {f : TileFields} {s : State} (h : s.MemOk) : (execGtake f s).MemOk := by
  unfold execGtake
  refine command_memOk h ?_
  intro _ _ _ h1
  split
  · exact takeStatus_memOk h1
  · extract_lets _ _ _
    split
    · exact State.faultOp_memOk h1
    · refine withSlot_memOk h1 ?_
      intro _ _ h2
      split
      · exact State.faultOp_memOk (State.modGranary_memOk h2)
      · exact takeStatus_memOk (State.modOp_memOk h2)
      · extract_lets _ s3 s4
        have h3 : s3.MemOk := State.modGranary_memOk (State.write_memOk _ h2)
        have h4 : s4.MemOk := State.modOp_memOk h3
        exact State.kickPorts_memOk (takeStatus_memOk h4)
      · exact State.backToPort_memOk (State.modGranary_memOk h2)

theorem State.landRead_memOk {s : State} {sub : Nat} {r : LineRead} (h : s.MemOk) : (s.landRead sub r).MemOk := by
  unfold State.landRead
  extract_lets _
  exact State.setSubmission_memOk h

theorem State.startLine_memOk {s : State} {sub : Nat} {base : Word} {p : Piece} (h : s.MemOk) : (s.startLine sub base p).1.MemOk := by
  unfold State.startLine
  extract_lets _ _ fail c
  have h1 : ∀ (s : State) (c : Nat) (v : Word), s.MemOk → (fail s c v).1.MemOk := fun _ _ _ h1 => State.landRead_memOk h1
  clear_value c
  split
  · exact State.landRead_memOk h
  · exact State.landRead_memOk h
  · exact h
  · split
    · exact h
    · split
      · next s1 _ e1 =>
        have h2 : s1.MemOk := fst_memOk e1 (State.raceScalar_memOk h)
        exact State.landRead_memOk h2
      · next s1 e1 =>
        have h2 : s1.MemOk := fst_memOk e1 (State.raceScalar_memOk h)
        exact State.request_memOk (State.touch_memOk h2)

theorem State.startLines_memOk {s : State} {sub : Nat} {base : Word} {l : List Piece} (h : s.MemOk) : (s.startLines sub base l).MemOk := by
  induction l generalizing s with
  | nil => exact h
  | cons p r ih =>
    rw [State.startLines]
    split
    · exact ih h
    · split
      · next s1 e =>
        have h1 : s1.MemOk := fst_memOk e (State.startLine_memOk h)
        exact ih h1
      · next s1 e =>
        have h1 : s1.MemOk := fst_memOk e (State.startLine_memOk h)
        exact h1

theorem State.endReads_memOk {s : State} {sub : Nat} (h : s.MemOk) : (s.endReads sub).MemOk := by
  unfold State.endReads
  extract_lets s1
  have h1 : s1.MemOk := State.setSubmission_memOk h
  exact h1

theorem readHeld_memOk {a : Word} {n sub : Nat} {s : State} {trap : State → Nat → Word → State} {k : List Byte → State → State} (h : s.MemOk)
    (htrap : ∀ (a : State) (a_1 : Nat) (a_2 : Word), a.MemOk → (trap a a_1 a_2).MemOk)
    (hk : ∀ (a : List Byte) (a_1 : State), a_1.MemOk → (k a a_1).MemOk) :
    (readHeld a n sub s trap k).MemOk := by
  unfold readHeld
  extract_lets _ s1
  have h1 : s1.MemOk := State.startLines_memOk h
  split
  · exact hk _ _ h1
  · exact State.park_memOk h1
  · exact htrap _ _ _ (State.endReads_memOk h1)

theorem withDescriptor_memOk {w : Word} {sub : Nat} {s : State} {trap : State → Nat → Word → State} {k : RollDesc → State → State} (h : s.MemOk)
    (htrap : ∀ (a : State) (a_1 : Nat) (a_2 : Word), a.MemOk → (trap a a_1 a_2).MemOk)
    (hk : ∀ (a : RollDesc) (a_1 : State), a_1.MemOk → (k a a_1).MemOk) :
    (withDescriptor w sub s trap k).MemOk := by
  unfold withDescriptor
  extract_lets _ bad
  clear_value bad
  split
  · exact htrap _ _ _ h
  · refine readHeld_memOk h (fun _ _ _ h1 => htrap _ _ _ h1) ?_
    intro _ _ h1
    split
    · exact hk _ _ (State.endReads_memOk h1)
    · exact htrap _ _ _ (State.endReads_memOk h1)

theorem State.granaryFreed_memOk {s : State} {node : Nat} (h : s.MemOk) : (s.granaryFreed node).MemOk := State.wakeIf_memOk h

theorem State.retryRegistrations_memOk {s : State} {die : Nat} (h : s.MemOk) :
    (s.retryRegistrations die).MemOk :=
  (retryRegistrations_due _ _).keeps.ok h

theorem State.forgetSub_memOk {s : State} {sub : Nat} (h : s.MemOk) : (s.forgetSub sub).MemOk := by
  unfold State.forgetSub
  split
  · exact State.setSubscription_memOk h
  · exact h

theorem State.faultWaiting_memOk {s : State} {node slot task : Nat} (h : s.MemOk) : (s.faultWaiting node slot task).MemOk := by
  unfold State.faultWaiting
  refine foldl_memOk ?_ h
  intro _ _ h1
  split
  · exact State.faultOp_memOk h1
  · exact h1

theorem State.unsubscribe_memOk {s : State} {node slot : Nat} (h : s.MemOk) : (s.unsubscribe node slot).MemOk := by
  unfold State.unsubscribe
  extract_lets _ _ _ s1 s2
  have h1 : s1.MemOk := State.faultWaiting_memOk (State.modGranary_memOk h)
  have h2 : s2.MemOk := State.retryRegistrations_memOk (State.forgetSub_memOk (State.setSubscription_memOk h1))
  exact State.kickPorts_memOk (State.granaryFreed_memOk h2)

theorem State.refuseSub_memOk {s : State} {sub : Nat} {v : Subscription} {cause : Nat} {tval : Word} (h : s.MemOk) :
    (s.refuseSub sub v cause tval).MemOk := by
  unfold State.refuseSub
  extract_lets s1 s2
  have h1 : s1.MemOk := State.modGranary_memOk h
  have h2 : s2.MemOk := State.setSubscription_memOk h1
  exact State.trapIn_memOk (State.granaryFreed_memOk h2)

theorem subscribeWith_memOk {rw : Word} {sub : Nat} {s : State} (h : s.MemOk) :
    (subscribeWith rw sub s).MemOk :=
  withDescriptor_memOk h (fun _ _ _ h1 => State.refuseSub_memOk h1) (fun _ _ h1 => State.event_memOk (State.park_memOk (State.setSubscription_memOk h1)))

theorem execKvsub_memOk {g : Guard} {d a b t : Field4} {s : State} (h : s.MemOk) : (execKvsub g d a b t s).MemOk := by
  unfold execKvsub
  refine scalar_memOk h ?_
  intro _ h1
  refine withDest_memOk h1 ?_
  intro _ h2
  refine atHome_memOk h2 ?_
  intro _ h3
  extract_lets _ _ _
  split
  · exact subscribeWith_memOk h3
  · split
    · exact State.trap_memOk h3
    · split
      · exact State.trap_memOk h3
      · split
        · exact State.trap_memOk h3
        · split
          · exact State.park_memOk h3
          · split
            · next s4 e5 =>
              have h4 : s4.MemOk := snd_memOk e5 (State.fresh_memOk h3)
              extract_lets s5
              have h5 : s5.MemOk := State.modGranary_memOk h4
              exact subscribeWith_memOk (State.setSubscription_memOk h5)

theorem execSubscriptionRegistration_memOk {sub : Nat} {s : State} (h : s.MemOk) : (execSubscriptionRegistration sub s).MemOk := by
  unfold execSubscriptionRegistration
  refine .next ?_
  extract_lets _ _ _ _ s1 s2
  have h2 : s1.MemOk := State.setSubscription_memOk h
  have h3 : s2.MemOk := State.modGranary_memOk h2
  split
  · exact h
  · split
    · exact State.refuseSub_memOk h
    · split
      · exact State.refuseSub_memOk h
      · split
        · exact h
        · exact State.finishOf_memOk (State.setRegOf_memOk h3)

theorem execKvunsub_memOk {g : Guard} {a : Field4} {s : State} (h : s.MemOk) : (execKvunsub g a s).MemOk := by
  unfold execKvunsub
  refine scalar_memOk h ?_
  intro _ h1
  extract_lets _ _ _
  split
  · exact State.finish_memOk (State.unsubscribe_memOk h1)
  · exact State.trap_memOk h1

theorem State.openPass_memOk {s : State} {die roll : Nat} (h : s.MemOk) : (s.openPass die roll).MemOk := by
  unfold State.openPass
  split
  · exact h
  · split
    · exact State.modRoll_memOk h
    · extract_lets _ s1 s2
      have h1 : s1.MemOk := State.modRoll_memOk h
      have h2 : s2.MemOk := by
        unfold s2
        refine foldl_memOk ?_ h1
        intro _ _ h2
        split
        · exact State.modGranary_memOk (State.setSubscription_memOk h2)
        · exact h2
      exact State.event_memOk h2

theorem State.openNext_memOk {s : State} {die roll : Nat} (h : s.MemOk) : (s.openNext die roll).MemOk := by
  unfold State.openNext
  split
  · exact h
  · exact State.openPass_memOk h

theorem execPassOpen_memOk {die roll : Nat} {s : State} (h : s.MemOk) : (execPassOpen die roll s).MemOk := .next (State.openNext_memOk h)

theorem passWith_memOk {rw : Word} {d : RollDesc} {s : State} (h : s.MemOk) : (passWith rw d s).MemOk := by
  unfold passWith
  extract_lets _ _ _ _ _ s1
  have h1 : s1.MemOk := State.openNext_memOk h
  split
  · exact State.trap_memOk h
  · exact State.trap_memOk h
  · split
    · exact State.finish_memOk h1
    · exact State.finish_memOk (State.openNext_memOk (State.modRoll_memOk h1))

theorem execPass_memOk {g : Guard} {a : Field4} {s : State} (h : s.MemOk) : (execPass g a s).MemOk := by
  unfold execPass
  refine scalar_memOk h ?_
  intro _ h1
  refine atHome_memOk h1 ?_
  intro _ h2
  extract_lets _
  split
  · exact withDescriptor_memOk h2 (fun _ _ _ h3 => State.trap_memOk h3) (fun _ _ h3 => passWith_memOk h3)
  · split
    · exact State.trap_memOk h2
    · split
      · next s3 e2 =>
        have h3 : s3.MemOk := snd_memOk e2 (State.fresh_memOk h2)
        exact withDescriptor_memOk h3 (fun _ _ _ h4 => State.trap_memOk h4) (fun _ _ h4 => passWith_memOk h4)

theorem State.landRow_memOk {s : State} {die roll key c : Nat} {v : Word} (h : s.MemOk) : (s.landRow die roll key c v).MemOk := State.modRoll_memOk h

theorem State.startRow_memOk {s : State} {die roll : Nat} {p : Pass} {a : Word} {x : Piece} (h : s.MemOk) : (s.startRow die roll p a x).1.MemOk := by
  unfold State.startRow
  extract_lets _ _ _ fail c s1
  have h1 : ∀ (s : State) (c : Nat) (v : Word), s.MemOk → (fail s c v).1.MemOk := fun _ _ _ h1 => State.landRow_memOk h1
  have h2 : s1.MemOk := by
    unfold s1
    split
    · exact h
    · exact State.countExtent_memOk h
  split
  · exact State.landRow_memOk h
  · clear_value c
    split
    · exact State.landRow_memOk h
    · exact State.landRow_memOk h
    · exact State.timer_memOk h
    · exact State.request_memOk h2

theorem State.startRows_memOk {s : State} {die roll : Nat} {p : Pass} {l : List (Word × Piece)} (h : s.MemOk) : (s.startRows die roll p l).MemOk := by
  induction l generalizing s with
  | nil => exact h
  | cons x r ih =>
    rw [State.startRows]
    split
    · exact ih h
    · split
      · next s1 e =>
        have h1 : s1.MemOk := fst_memOk e (State.startRow_memOk h)
        exact ih h1
      · next s1 e =>
        have h1 : s1.MemOk := fst_memOk e (State.startRow_memOk h)
        exact h1

theorem State.detachRows_memOk {s : State} {die roll : Nat} (h : s.MemOk) : (s.detachRows die roll).MemOk := h

theorem State.failPass_memOk {s : State} {die roll cause : Nat} {a : Word} (h : s.MemOk) : (s.failPass die roll cause a).MemOk := by
  unfold State.failPass
  extract_lets s1 s2
  have h1 : s1.MemOk := by
    unfold s1
    refine foldl_memOk ?_ h
    intro _ _ h1
    split
    · exact State.modGranary_memOk h1
    · exact h1
  have h2 : s2.MemOk := foldl_memOk (fun _ _ h2 => State.kickPorts_memOk h2) h1
  exact State.event_memOk (State.modRoll_memOk (State.detachRows_memOk h2))

theorem State.sendPart_memOk {s : State} {die : Nat} {p : PassSnapshot} {q page : Nat} {takers : List (Nat × Subscription)} {dist : Nat}
    {l : List Byte} (h : s.MemOk) :
    (s.sendPart die p q page takers dist l).MemOk := by
  unfold State.sendPart
  extract_lets _
  split
  · next s1 e =>
    have h1 : s1.MemOk := by
      refine snd_memOk e ?_
      refine foldl_snd_memOk ?_ h
      intro _ _ h1
      extract_lets _ _
      split
      · next s2 e1 =>
        have h2 : s2.MemOk := snd_memOk e1 (State.addAccess_memOk h1)
        exact State.armRetry_memOk h2
    exact State.sendMulticast_memOk h1

theorem State.sendPage_memOk {s : State} {die : Nat} {p : PassSnapshot} {q : Nat} {takers : List (Nat × Subscription)} {l : List Byte} (h : s.MemOk) :
    (s.sendPage die p q takers l).MemOk := by
  unfold State.sendPage
  split
  · next s1 e =>
    have h1 : s1.MemOk := snd_memOk e (State.fresh_memOk h)
    refine foldl_memOk ?_ h1
    intro _ _ h2
    extract_lets _
    exact State.sendPart_memOk h2

theorem execPageWalk_memOk {die roll : Nat} {s : State} (h : s.MemOk) : (execPageWalk die roll s).MemOk := by
  unfold execPageWalk
  refine .next ?_
  split
  · exact h
  · split
    · exact h
    · extract_lets next _ _ s1 _
      have h1 : ∀ (s : State), s.MemOk → (next s).MemOk := fun _ h1 => State.event_memOk (State.modRoll_memOk h1)
      have h2 : s1.MemOk := State.startRows_memOk h
      split
      · split
        · exact h
        · exact State.event_memOk (State.modRoll_memOk h)
      · split
        · exact h1 _ (State.detachRows_memOk h)
        · split
          · exact h2
          · split
            · exact State.push_memOk (State.modRoll_memOk (State.detachRows_memOk h2))
            · exact State.failPass_memOk h2
          · split
            · exact h2
            · exact h1 _ (State.sendPage_memOk h2)

theorem execStagingDelivery_memOk {pk : Nat} {s : State} (h : s.MemOk) : (execStagingDelivery pk s).MemOk := by
  unfold execStagingDelivery
  refine .next ?_
  split
  · exact h
  · split
    · split
      · exact State.pokeForks_memOk (State.dropPacket_memOk h)
      · split
        · extract_lets _ _ _ s1 _ _ s2 _
          have h1 : s1.MemOk := State.examineWritten_memOk h (State.deliverAt_memOk h)
          have h2 : s2.MemOk := h1
          split
          · exact State.pokeForks_memOk (State.respond_memOk (State.dropPacket_memOk h))
          · split
            · exact State.pokeForks_memOk (State.sendBusy_memOk h)
            · split
              · exact State.forgetSub_memOk (State.event_memOk (State.pokeForks_memOk (State.concludeAt_memOk h2)))
              · exact h
        · exact State.dropPacket_memOk h
    · exact h

end Sys2Proof.Machine
end

section
/-! Proofs. Memory stays canonical: Flags, Float, System, Tiles, Spill, Task (95; O59). -/

namespace Sys2Proof.Machine

/-! ### Flags -/

theorem State.orFlags_memOk {s : State} {fl : Word} (h : s.MemOk) : (s.orFlags fl).MemOk := State.modHere_memOk h

/-! ### Float -/

theorem fpResult_memOk {d : Field4} {r : Rounded} {s : State} (h : s.MemOk) :
    (fpResult d r s).MemOk :=
  State.finish_memOk (State.orFlags_memOk (State.setReg_memOk h))

theorem fpOp_memOk {g : Guard} {d a b : Field4} {dbl : Bool} {rm : BitVec 3} {f : Bool → Val → Val → Val × Bool} {s : State} (h : s.MemOk) :
    (fpOp g d a b dbl rm f s).MemOk := by
  unfold fpOp
  refine scalar_memOk h ?_
  intro _ h1
  refine withDest_memOk h1 ?_
  intro _ h2
  extract_lets _
  split
  · exact fpResult_memOk h2

theorem execFadd_memOk {g : Guard} {d a b : Field4} {dbl : Bool} {rm : BitVec 3} {s : State} (h : s.MemOk) :
    (execFadd g d a b dbl rm s).MemOk :=
  fpOp_memOk h

theorem execFsub_memOk {g : Guard} {d a b : Field4} {dbl : Bool} {rm : BitVec 3} {s : State} (h : s.MemOk) :
    (execFsub g d a b dbl rm s).MemOk :=
  fpOp_memOk h

theorem execFmul_memOk {g : Guard} {d a b : Field4} {dbl : Bool} {rm : BitVec 3} {s : State} (h : s.MemOk) :
    (execFmul g d a b dbl rm s).MemOk :=
  fpOp_memOk h

theorem fpLong_memOk {n : Nat} {d : Field4} {r : Rounded} {s : State} (h : s.MemOk) : (fpLong n d r s).MemOk := longOp_memOk h

theorem execFdiv_memOk {g : Guard} {d a b : Field4} {dbl : Bool} {rm : BitVec 3} {s : State} (h : s.MemOk) : (execFdiv g d a b dbl rm s).MemOk := by
  unfold execFdiv
  refine scalar_memOk h ?_
  intro _ h1
  refine withDest_memOk h1 ?_
  intro _ h2
  split
  · exact fpLong_memOk h2

theorem execFsqrt_memOk {g : Guard} {d a : Field4} {dbl : Bool} {rm : BitVec 3} {s : State} (h : s.MemOk) : (execFsqrt g d a dbl rm s).MemOk := by
  unfold execFsqrt
  refine scalar_memOk h ?_
  intro _ h1
  refine withDest_memOk h1 ?_
  intro _ h2
  split
  · exact fpLong_memOk h2

theorem fpExact_memOk {g : Guard} {d a b : Field4} {dbl : Bool} {f : Val → Val → Val} {s : State} (h : s.MemOk) :
    (fpExact g d a b dbl f s).MemOk := by
  unfold fpExact
  refine scalar_memOk h ?_
  intro _ h1
  refine withDest_memOk h1 ?_
  intro _ h2
  extract_lets _
  exact State.finish_memOk (State.setReg_memOk h2)

theorem execFmin_memOk {g : Guard} {d a b : Field4} {dbl : Bool} {s : State} (h : s.MemOk) : (execFmin g d a b dbl s).MemOk := fpExact_memOk h

theorem execFmax_memOk {g : Guard} {d a b : Field4} {dbl : Bool} {s : State} (h : s.MemOk) : (execFmax g d a b dbl s).MemOk := fpExact_memOk h

theorem execFneg_memOk {g : Guard} {d a : Field4} {dbl : Bool} {s : State} (h : s.MemOk) : (execFneg g d a dbl s).MemOk := fpExact_memOk h

theorem execFabs_memOk {g : Guard} {d a : Field4} {dbl : Bool} {s : State} (h : s.MemOk) : (execFabs g d a dbl s).MemOk := fpExact_memOk h

theorem fused_memOk {negProduct negAddend : Bool} {g : Guard} {d a b c : Field4} {dbl : Bool} {s : State} (h : s.MemOk) :
    (fused negProduct negAddend g d a b c dbl s).MemOk := by
  unfold fused
  refine scalar_memOk h ?_
  intro _ h1
  refine withDest_memOk h1 ?_
  intro _ h2
  extract_lets _
  split
  · exact fpResult_memOk h2

theorem execFma_memOk {g : Guard} {d a b c : Field4} {dbl : Bool} {s : State} (h : s.MemOk) : (execFma g d a b c dbl s).MemOk := fused_memOk h

theorem execFms_memOk {g : Guard} {d a b c : Field4} {dbl : Bool} {s : State} (h : s.MemOk) : (execFms g d a b c dbl s).MemOk := fused_memOk h

theorem execFnma_memOk {g : Guard} {d a b c : Field4} {dbl : Bool} {s : State} (h : s.MemOk) : (execFnma g d a b c dbl s).MemOk := fused_memOk h

theorem execFnms_memOk {g : Guard} {d a b c : Field4} {dbl : Bool} {s : State} (h : s.MemOk) : (execFnms g d a b c dbl s).MemOk := fused_memOk h

theorem execFcvt_memOk {g : Guard} {d a : Field4} {conv : BitVec 4} {rm : BitVec 3} {s : State} (h : s.MemOk) :
    (execFcvt g d a conv rm s).MemOk :=
  scalar_memOk h (fun _ h1 => withDest_memOk h1 (fun _ h2 => fpResult_memOk h2))

theorem execFcmp_memOk {g : Guard} {p a b : Field4} {dbl : Bool} {cc : BitVec 3} {s : State} (h : s.MemOk) : (execFcmp g p a b dbl cc s).MemOk := by
  unfold execFcmp
  refine scalar_memOk h ?_
  intro _ h1
  split
  · exact State.finish_memOk (State.orFlags_memOk (State.setPred_memOk h1))

/-! ### System -/

theorem execGets_memOk {g : Guard} {d : Field4} {n : BitVec 12} {s : State} (h : s.MemOk) : (execGets g d n s).MemOk := by
  unfold execGets
  refine scalar_memOk h ?_
  intro _ h1
  refine withDest_memOk h1 ?_
  intro _ h2
  split
  · exact State.finish_memOk (State.setReg_memOk h2)
  · exact State.trap_memOk h2

theorem execSets_memOk {g : Guard} {a : Field4} {n : BitVec 12} {s : State} (h : s.MemOk) : (execSets g a n s).MemOk := by
  unfold execSets
  refine scalar_memOk h ?_
  intro _ h1
  split
  · exact State.trap_memOk h1
  · exact State.trap_memOk h1
  · split
    · exact State.finish_memOk (State.modHere_memOk h1)
    · exact State.trap_memOk h1
  · exact State.finish_memOk (State.modHere_memOk h1)

/-! ### Tiles -/

theorem setShape_memOk {t : Field4} {w : Word} {s : State} (h : s.MemOk) : (setShape t w s).MemOk := by
  unfold setShape
  refine atHome_memOk h ?_
  intro _ h1
  split
  · exact State.trap_memOk h1
  · split
    · exact State.trap_memOk h1
    · exact State.finish_memOk (State.modHere_memOk h1)

theorem execTshape_memOk {g : Guard} {t : Field4} {elem : BitVec 5} {rows : BitVec 4} {cols : BitVec 6} {s : State} (h : s.MemOk) :
    (execTshape g t elem rows cols s).MemOk :=
  scalar_memOk h (fun _ h1 => setShape_memOk h1)

theorem execTshapeReg_memOk {g : Guard} {t a : Field4} {s : State} (h : s.MemOk) :
    (execTshapeReg g t a s).MemOk :=
  scalar_memOk h (fun _ h1 => setShape_memOk h1)

theorem withElement_memOk {t : Field4} {e : Word} {s : State} {k : Nat → Elem → State → State} (h : s.MemOk)
    (hk : ∀ (a : Nat) (a_1 : Elem) (a_2 : State), a_2.MemOk → (k a a_1 a_2).MemOk) :
    (withElement t e s k).MemOk := by
  unfold withElement
  refine atHome_memOk h ?_
  intro _ h1
  extract_lets _
  split
  · exact State.trap_memOk h1
  · split
    · exact State.trap_memOk h1
    · split
      · exact State.trap_memOk h1
      · exact hk _ _ _ h1

theorem localRead_memOk {pa n : Nat} {d : Field4} {f : Word → Word} {s : State} (h : s.MemOk) :
    (localRead pa n d f s).MemOk :=
  localLoad_memOk h (fun _ _ h1 => State.finish_memOk (State.setReg_memOk h1))

theorem localWrite_memOk {pa n : Nat} {v : Word} {s : State} (h : s.MemOk) : (localWrite pa n v s).MemOk := localStore_memOk h

theorem execTget_memOk {g : Guard} {d t b : Field4} {s : State} (h : s.MemOk) :
    (execTget g d t b s).MemOk :=
  scalar_memOk h (fun _ h1 => withDest_memOk h1 (fun _ h2 => withElement_memOk h2 (fun _ _ _ h3 => localRead_memOk h3)))

theorem execTset_memOk {g : Guard} {d t b : Field4} {s : State} (h : s.MemOk) :
    (execTset g d t b s).MemOk :=
  scalar_memOk h (fun _ h1 => withElement_memOk h1 (fun _ _ _ h2 => localWrite_memOk h2))

theorem withFreeWord_memOk {t : Field4} {w : Word} {s : State} {k : Nat → State → State} (h : s.MemOk)
    (hk : ∀ (a : Nat) (a_1 : State), a_1.MemOk → (k a a_1).MemOk) :
    (withFreeWord t w s k).MemOk := by
  unfold withFreeWord
  refine atHome_memOk h ?_
  intro _ h1
  split
  · exact State.trap_memOk h1
  · split
    · exact State.trap_memOk h1
    · exact hk _ _ h1

theorem execPark_memOk {g : Guard} {a t c : Field4} {s : State} (h : s.MemOk) :
    (execPark g a t c s).MemOk :=
  scalar_memOk h (fun _ h1 => withFreeWord_memOk h1 (fun _ _ h2 => localWrite_memOk h2))

theorem execUnpark_memOk {g : Guard} {d t c : Field4} {s : State} (h : s.MemOk) :
    (execUnpark g d t c s).MemOk :=
  scalar_memOk h (fun _ h1 => withDest_memOk h1 (fun _ h2 => withFreeWord_memOk h2 (fun _ _ h3 => localRead_memOk h3)))

theorem execBorrow_memOk {g : Guard} {s : State} (h : s.MemOk) : (execBorrow g s).MemOk := by
  unfold execBorrow
  refine scalar_memOk h ?_
  intro _ h1
  split
  · exact State.trap_memOk h1
  · split
    · exact State.trap_memOk h1
    · split
      · exact State.finish_memOk h1
      · extract_lets _ _
        split
        · exact State.park_memOk h1
        · exact State.finish_memOk (State.modHere_memOk (State.setSlot_memOk h1))

theorem execReturnLent_memOk {g : Guard} {s : State} (h : s.MemOk) : (execReturnLent g s).MemOk := by
  unfold execReturnLent
  refine scalar_memOk h ?_
  intro _ h1
  split
  · exact State.finish_memOk h1
  · exact State.finish_memOk (State.freeSlot_memOk (State.modHere_memOk h1))

theorem withLent_memOk {d n : Field4} {s : State} {k : Nat → State → State} (h : s.MemOk)
    (hk : ∀ (a : Nat) (a_1 : State), a_1.MemOk → (k a a_1).MemOk) :
    (withLent d n s k).MemOk := by
  unfold withLent
  split
  · exact State.trap_memOk h
  · refine withDest_memOk h ?_
    intro _ h1
    split
    · exact State.trap_memOk h1
    · exact hk _ _ h1

theorem execXget_memOk {g : Guard} {d n : Field4} {s : State} (h : s.MemOk) :
    (execXget g d n s).MemOk :=
  scalar_memOk h (fun _ h1 => withLent_memOk h1 (fun _ _ h2 => State.finish_memOk (State.setReg_memOk h2)))

theorem execXput_memOk {g : Guard} {n b : Field4} {s : State} (h : s.MemOk) :
    (execXput g n b s).MemOk :=
  scalar_memOk h (fun _ h1 => withLent_memOk h1 (fun _ _ h2 => State.finish_memOk (State.setRegOf_memOk h2)))

/-! ### Spill -/

theorem State.deqRing_memOk {s : State} {chip parish off : Nat} (h : s.MemOk) : OptMemOk (fun t => t.2) (s.deqRing chip parish off) := by
  unfold State.deqRing
  split
  · exact .none
  · split
    · split
      · exact .none
      · exact .some (State.write_memOk _ h)
    · exact .none

theorem State.enqRing_memOk {s : State} {chip parish off : Nat} {v : Word} (h : s.MemOk) : OptMemOk (fun t => t) (s.enqRing chip parish off v) := by
  unfold State.enqRing
  split
  · exact .none
  · split
    · split
      · exact .none
      · exact .some (State.write_memOk _ (State.write_memOk _ h))
    · exact .none

theorem State.giveBack_memOk {s : State} {chip parish off : Nat} {v : Word} (h : s.MemOk) :
    (s.giveBack chip parish off v).MemOk :=
  (giveBack_writes _ _ _ _ _).ok h

theorem State.takeRecord_memOk {s : State} {chip parish : Nat} (h : s.MemOk) : OptMemOk (fun t => t.2.2) (s.takeRecord chip parish) := by
  unfold State.takeRecord
  split
  · exact .none
  · next s1 e =>
    have h2 : s1.MemOk := some_memOk e (State.deqRing_memOk h)
    split
    · next s2 _ e2 =>
      have h3 : s2.MemOk := some_memOk e2 (State.enqRing_memOk h2)
      exact .some h3
    · exact .none

theorem State.writeRecord_memOk {s : State} {pa : Nat} {ws : List (Nat × Word)} (h : s.MemOk) : (s.writeRecord pa ws).MemOk := State.write_memOk _ h

theorem State.releaseStorage_memOk {s : State} {core task member : Nat} (h : s.MemOk) : (s.releaseStorage core task member).MemOk := by
  unfold State.releaseStorage
  extract_lets _
  exact State.modCore_memOk h

theorem State.claimOne_memOk {s : State} {core : Nat} {p : Nat × Slot → Bool} (h : s.MemOk) : OptMemOk (fun t => t) (s.claimOne core p) := by
  unfold State.claimOne
  split
  · exact .none
  · extract_lets _
    split
    · exact .none
    · next s1 e1 =>
      have h2 : s1.MemOk := some_memOk e1 (State.deqRing_memOk h)
      split
      · exact .none
      · extract_lets s2 s3
        have h3 : s2.MemOk := State.write_memOk _ h2
        have h4 : s3.MemOk := State.write_memOk _ h3
        exact .some (State.releaseStorage_memOk h4)

theorem State.claim_memOk {s : State} {core : Nat} (h : s.MemOk) : OptMemOk (fun t => t) (s.claim core) := State.claimOne_memOk h

theorem State.retakeShared_memOk {s : State} {core : Nat} {c : Slot} (h : s.MemOk) : (s.retakeShared core c).MemOk := State.modCore_memOk h

theorem State.restoreStorage_memOk {s : State} {core pa : Nat} {c : Slot} (h : s.MemOk) : (s.restoreStorage core pa c).MemOk := by
  unfold State.restoreStorage
  extract_lets _ _
  split
  · exact h
  · extract_lets _ s1 s2 s3
    have h2 : s1.MemOk := State.write_memOk _ h
    have h3 : s2.MemOk := by
      unfold s2
      refine foldl_memOk ?_ h2
      intro _ _ h3
      split
      · split
        · exact State.fillLine_memOk h3
        · exact State.emptyLine_memOk h3
      · exact h3
    have h4 : s3.MemOk := State.modCore_memOk h3
    exact State.giveBack_memOk (State.write_memOk _ h4)

theorem State.decideCommand_memOk {s : State} {parish seq status : Nat} {detail : Word} (h : s.MemOk) :
    (s.decideCommand parish seq status detail).MemOk :=
  State.event_memOk (State.modParish_memOk h)

theorem State.refuseCommand_memOk {s : State} {parish seq code : Nat} (h : s.MemOk) :
    (s.refuseCommand parish seq code).MemOk :=
  State.decideCommand_memOk (State.modParish_memOk h)

theorem State.notice_memOk {s : State} {n : Notice} {parish chip : Nat} (h : s.MemOk) : (s.notice n parish chip).MemOk := by
  unfold State.notice
  split
  · exact h
  · split
    · exact State.timer_memOk h
    · next s1 e1 =>
      have h2 : s1.MemOk := some_memOk e1 (State.takeRecord_memOk h)
      extract_lets s2 s3
      have h3 : s2.MemOk := State.writeRecord_memOk h2
      have h4 : s3.MemOk := h3
      split
      · exact State.decideCommand_memOk h4
      · exact h4

/-! ### Task -/

theorem State.readWords_memOk {s : State} {chip parish : Nat} {a : Word} {n : Nat} (h : s.MemOk) : (s.readWords chip parish a n).1.MemOk := by
  unfold State.readWords
  split
  · exact h
  · extract_lets _
    split
    · next s1 e1 =>
      have h1 : s1.MemOk := fst_memOk e1 (State.findError_memOk h)
      exact h1
    · next s1 e1 =>
      have h1 : s1.MemOk := fst_memOk e1 (State.findError_memOk h)
      refine foldl_memOk ?_ h1
      intro _ _ h2
      extract_lets _
      split
      · exact h2
      · exact State.countExtent_memOk h2

theorem State.readSchedule_memOk {s : State} {v : Submission} (h : s.MemOk) : (s.readSchedule v).1.MemOk := State.readWords_memOk h

theorem State.refuse_memOk {s : State} {v : Submission} {code : Nat} (h : s.MemOk) : (s.refuse v code).MemOk := by
  unfold State.refuse
  split
  · exact State.finishOf_memOk (State.setRegOf_memOk h)
  · exact State.refuseCommand_memOk h
  · exact State.push_memOk h
  · exact State.modParish_memOk h

theorem State.pokeBoards_memOk {s : State} {node : Nat} (h : s.MemOk) : (s.pokeBoards node).MemOk := (pokeBoards_due _ _).keeps.ok h

theorem State.replayed_memOk {s : State} {parish node : Nat} {record : Word} (h : s.MemOk) : (s.replayed parish node record).MemOk := by
  unfold State.replayed
  split
  · exact h
  · exact State.pokeBoards_memOk (State.modParish_memOk h)

theorem State.accept_memOk {s : State} {v : Submission} {sched : List Word} (h : s.MemOk) : (s.accept v sched).MemOk := by
  unfold State.accept
  extract_lets _
  split
  · next s1 e =>
    have h1 : s1.MemOk := snd_memOk e (State.fresh_memOk h)
    extract_lets s2 s3 s4
    have h2 : s2.MemOk := State.modTask_memOk h1
    have h3 : s3.MemOk := foldl_memOk (fun _ _ h3 => State.event_memOk (State.modNode_memOk h3)) h2
    have h4 : s4.MemOk := State.replayed_memOk (State.capture_memOk h3)
    split
    · exact State.finishOf_memOk (State.setRegOf_memOk h4)
    · exact h4

theorem State.submit_memOk {s : State} {v : Submission} (h : s.MemOk) : (s.submit v).1.MemOk := by
  unfold State.submit
  split
  · next s1 _ e =>
    have h1 : s1.MemOk := fst_memOk e (State.readSchedule_memOk h)
    split
    · split
      · exact h1
      · exact State.accept_memOk h1
    · exact State.refuse_memOk h1

theorem execSubmission_memOk {sub : Nat} {s : State} (h : s.MemOk) : (execSubmission sub s).MemOk := by
  unfold execSubmission
  refine .next ?_
  extract_lets _
  split
  · exact h
  · split
    · next s1 e1 =>
      have h1 : s1.MemOk := fst_memOk e1 (State.submit_memOk h)
      exact State.setSubmission_memOk h1
    · next s1 e1 =>
      have h1 : s1.MemOk := fst_memOk e1 (State.submit_memOk h)
      exact State.setSubmission_memOk h1

theorem launchWith_memOk {d : Field4} {r home : Word} {sub : Nat} {s : State} (h : s.MemOk) : (launchWith d r home sub s).MemOk := by
  unfold launchWith
  refine readHeld_memOk h (fun _ _ _ h1 => State.trap_memOk h1) ?_
  intro _ _ h1
  split
  · exact State.park_memOk h1
  · refine withRelease_memOk h1 ?_
    intro _ h2
    extract_lets _ _
    exact State.event_memOk (State.park_memOk (State.setSubmission_memOk (State.endReads_memOk h2)))

theorem execLaunch_memOk {g : Guard} {d a b : Field4} {s : State} (h : s.MemOk) : (execLaunch g d a b s).MemOk := by
  unfold execLaunch
  refine scalar_memOk h ?_
  intro _ h1
  refine withDest_memOk h1 ?_
  intro _ h2
  extract_lets _ _ _
  split
  · exact launchWith_memOk h2
  · split
    · exact State.trap_memOk h2
    · split
      · exact State.trap_memOk h2
      · split
        · exact State.trap_memOk h2
        · split
          · next s3 e4 =>
            have h4 : s3.MemOk := snd_memOk e4 (State.fresh_memOk h2)
            exact launchWith_memOk h4

theorem findSome?_memOk {α : Type} {f : α → Option State} (hf : ∀ a, OptMemOk (fun t => t) (f a)) (l : List α) :
    OptMemOk (fun t => t) (l.findSome? f) := by
  induction l with
  | nil => exact .none
  | cons a l ih =>
    have ha := hf a
    rw [List.findSome?_cons]
    split
    · next e => exact e ▸ ha
    · exact ih

theorem State.claimFor_memOk {s : State} {t : Task} {node fuel : Nat} (h : s.MemOk) : (s.claimFor t node fuel).MemOk := by
  induction fuel generalizing s with
  | zero => exact h
  | succ fuel ih =>
    rw [State.claimFor]
    split
    · exact h
    · split
      · next s1 e =>
        have h1 : s1.MemOk := some_memOk e (findSome?_memOk (fun _ => State.claim_memOk h) (s.shortCores t node))
        exact ih h1
      · exact h

theorem State.claimed_memOk {s : State} {t : Task} {node : Nat} (h : s.MemOk) : (s.claimed t node).MemOk := by
  unfold State.claimed
  extract_lets s1
  have h1 : s1.MemOk := State.claimFor_memOk h
  split
  · exact h1
  · exact h

theorem State.placeMember_memOk {s : State} {task i : Nat} {bases : List Nat} (h : s.MemOk) : (s.placeMember task i bases).MemOk := by
  unfold State.placeMember
  extract_lets _ _
  split
  · exact h
  · extract_lets _ _ s1 _ s2 _ _ _ _ _ s3 s4 s5 s6
    have h1 : s1.MemOk := by
      unfold s1
      split
      · exact State.modCore_memOk h
      · exact h
    have h2 : s2.MemOk := State.modCore_memOk h1
    have h3 : s3.MemOk := State.write_memOk _ h2
    have h4 : s4.MemOk := State.clearShadow_memOk h3
    have h5 : s5.MemOk := foldl_memOk (fun _ _ h5 => State.fillLine_memOk h5) h4
    have h6 : s6.MemOk := foldl_memOk (fun _ _ h6 => State.emptyLine_memOk h6) h5
    exact State.modTask_memOk h6

theorem State.admitShare_memOk {s : State} {task node : Nat} (h : s.MemOk) : (s.admitShare task node).MemOk := by
  unfold State.admitShare
  extract_lets _ _
  split
  · exact h
  · extract_lets s1 s2 s3
    have h1 : s1.MemOk := foldl_memOk (fun _ _ h1 => State.placeMember_memOk h1) h
    have h2 : s2.MemOk := State.modTask_memOk h1
    have h3 : s3.MemOk := by
      unfold s3
      split
      · exact State.releaseEntries_memOk h2
      · exact h2
    exact State.event_memOk h3

theorem execAdmission_memOk {node : Nat} {s : State} (h : s.MemOk) : (execAdmission node s).MemOk := by
  unfold execAdmission
  refine .next ?_
  extract_lets _ s1
  have h1 : s1.MemOk := by
    unfold s1
    refine foldl_memOk ?_ h
    intro _ _ h1
    split
    · exact h1
    · exact State.modTask_memOk h1
  split
  · extract_lets s2
    have h2 : s2.MemOk := State.event_memOk (State.admitShare_memOk (State.claimed_memOk h1))
    split
    · exact h2
    · exact State.event_memOk h2
  · split
    · exact h
    · exact State.event_memOk h1

theorem State.captureSeeds_memOk {s : State} {chip parish : Nat} (h : s.MemOk) : (s.captureSeeds chip parish).MemOk := by
  unfold State.captureSeeds
  split
  · extract_lets _ _
    split
    · exact h
    · exact State.capture_memOk h
  · exact h

theorem State.chargeSchedule_memOk {s : State} {task thread : Nat} (h : s.MemOk) : (s.chargeSchedule task thread).MemOk := h

theorem State.startMember_memOk {s : State} {task i slot : Nat} (h : s.MemOk) : (s.startMember task i slot).MemOk := by
  unfold State.startMember
  extract_lets _
  split
  · exact h
  · extract_lets _ _ s1 s2
    have h1 : s1.MemOk := State.captureSeeds_memOk h
    have h2 : s2.MemOk := by
      unfold s2
      split
      · exact State.chargeSchedule_memOk h1
      · exact h1
    exact State.modTask_memOk (State.setSlot_memOk h2)

theorem execDispatch_memOk {node : Nat} {s : State} (h : s.MemOk) : (execDispatch node s).MemOk := by
  unfold execDispatch
  refine .next ?_
  extract_lets start s1 _
  have h1 : ∀ (s : State) (id : Nat), s.MemOk → (start s id).MemOk := by
    intro _ _ h1
    unfold start
    refine foldl_memOk ?_ h1
    intro _ _ h2
    split
    · split
      · split
        · exact State.startMember_memOk h2
        · exact h2
      · exact h2
    · exact h2
  have h2 : s1.MemOk := foldl_memOk (fun _ _ h2 => h1 _ _ h2) h
  split
  · extract_lets s2
    have h3 : s2.MemOk := h1 _ _ h2
    split
    · exact h3
    · exact State.event_memOk h3
  · exact h2

theorem State.releaseDependants_memOk {s : State} {id : Nat} {atTrigger : Bool} (h : s.MemOk) : (s.releaseDependants id atTrigger).MemOk := by
  unfold State.releaseDependants
  extract_lets _
  refine foldl_memOk ?_ h
  intro _ _ h1
  split
  · next s2 e =>
    have h2 : s2.MemOk := snd_memOk e (State.fresh_memOk h1)
    extract_lets _ s3
    have h3 : s3.MemOk := State.setSubmission_memOk h2
    exact State.event_memOk (State.modNode_memOk h3)

theorem execDependantSubmission_memOk {node : Nat} {s : State} (h : s.MemOk) : (execDependantSubmission node s).MemOk := by
  unfold execDependantSubmission
  refine .next ?_
  split
  · exact h
  · extract_lets _
    split
    · exact State.timer_memOk h
    · split
      · next s1 _ e2 =>
        have h1 : s1.MemOk := fst_memOk e2 (State.readWords_memOk h)
        extract_lets _
        split
        · next s2 e3 =>
          have h2 : s2.MemOk := fst_memOk e3 (State.submit_memOk h1)
          extract_lets s3
          have h3 : s3.MemOk := State.modNode_memOk (State.setSubmission_memOk h2)
          exact State.event_memOk h3
        · next s2 e3 =>
          have h2 : s2.MemOk := fst_memOk e3 (State.submit_memOk h1)
          exact h2

theorem State.memberTriggers_memOk {s : State} {task member : Nat} {st : Stamp} (h : s.MemOk) : (s.memberTriggers task member st).MemOk := by
  unfold State.memberTriggers
  extract_lets _
  split
  · exact h
  · split
    · exact h
    · extract_lets _ _ s1
      have h1 : s1.MemOk := State.modTask_memOk h
      split
      · exact State.releaseDependants_memOk h1
      · exact h1

theorem execTrigger_memOk {g : Guard} {s : State} (h : s.MemOk) :
    (execTrigger g s).MemOk :=
  scalar_memOk h (fun _ h1 => withRelease_memOk h1 (fun _ h2 => State.finish_memOk (State.memberTriggers_memOk h2)))

theorem State.leaveOps_memOk {s : State} {c : Slot} {p : EngOp → Bool} (h : s.MemOk) : (s.leaveOps c p).MemOk := by
  unfold State.leaveOps
  extract_lets _
  split
  · exact h
  · split
    · next s1 e1 =>
      have h1 : s1.MemOk := snd_memOk e1 (State.fresh_memOk h)
      extract_lets _ s2
      have h2 : s2.MemOk := h1
      refine foldl_memOk ?_ h2
      intro _ _ h3
      split
      · exact State.push_memOk (State.modOp_memOk h3)
      · exact h3

theorem State.setMember_memOk {s : State} {task member : Nat} {st : MemberState} (h : s.MemOk) :
    (s.setMember task member st).MemOk :=
  State.modTask_memOk h

theorem State.dropUnreleased_memOk {s : State} {task : Nat} (h : s.MemOk) : (s.dropUnreleased task).MemOk := by
  unfold State.dropUnreleased
  extract_lets _
  split
  · exact State.modTask_memOk h
  · exact h

theorem State.freeBoth_memOk {s : State} {t : Nat} (h : s.MemOk) : (s.freeBoth t).MemOk := by
  unfold State.freeBoth
  split
  · exact State.freeSlot_memOk (State.freeSlot_memOk h)
  · exact State.freeSlot_memOk h

theorem execHalt_memOk {g : Guard} {s : State} (h : s.MemOk) : (execHalt g s).MemOk := by
  unfold execHalt
  refine scalar_memOk h ?_
  intro _ h1
  refine withRelease_memOk h1 ?_
  intro _ h2
  extract_lets _ _ _ s3 s4 s5 s6 s7 s8 s9
  have h3 : s3.MemOk := State.leaveOps_memOk h2
  have h4 : s4.MemOk := State.modCore_memOk h3
  have h5 : s5.MemOk := State.wakeIf_memOk h4
  have h6 : s6.MemOk := by
    unfold s6
    split
    · exact State.freeBoth_memOk (State.leaveOps_memOk h5)
    · exact h3
  have h7 : s7.MemOk := State.freeBoth_memOk h6
  have h8 : s8.MemOk := State.setMember_memOk h7
  have h9 : s9.MemOk := State.memberTriggers_memOk h8
  exact State.pokeTask_memOk (State.dropUnreleased_memOk (State.modTask_memOk h9))

theorem State.clearTask_memOk {s : State} {id : Nat} (h : s.MemOk) : (s.clearTask id).MemOk := by
  unfold State.clearTask
  extract_lets _ _ s1 s2 s3 s4 s5
  have h1 : s1.MemOk := foldl_memOk (fun _ _ h1 => State.modCore_memOk h1) h
  have h2 : s2.MemOk := by
    unfold s2
    refine foldl_memOk ?_ h1
    intro _ _ h2
    refine foldl_memOk ?_ h2
    intro _ _ h3
    extract_lets _
    split
    · exact State.unsubscribe_memOk h3
    · exact h3
  have h3 : s3.MemOk := foldl_memOk (fun _ _ h3 => State.event_memOk (State.modNode_memOk h3)) h2
  have h4 : s4.MemOk := h3
  have h5 : s5.MemOk := State.modTask_memOk h4
  exact State.pokeBoards_memOk h5

theorem execTaskRetirement_memOk {task : Nat} {s : State} (h : s.MemOk) : (execTaskRetirement task s).MemOk := by
  unfold execTaskRetirement
  refine .next ?_
  extract_lets _ s1 s2 s3
  have h1 : s1.MemOk := by
    unfold s1
    split
    · exact h
    · exact State.countFlag_memOk h
  have h2 : s2.MemOk := State.releaseDependants_memOk h1
  have h3 : s3.MemOk := by
    unfold s3
    split
    · exact State.decideCommand_memOk h2
    · exact h2
  split
  · exact State.clearTask_memOk h3
  · exact h

theorem execTaskEndFailedPartial_memOk {task : Nat} {s : State} (h : s.MemOk) : (execTaskEndFailedPartial task s).MemOk := by
  unfold execTaskEndFailedPartial
  refine .next ?_
  extract_lets _ _ _ _ _ s1
  have h1 : s1.MemOk := h
  split
  · exact State.clearTask_memOk (State.push_memOk h1)
  · exact h

theorem State.pokeTolls_memOk {s : State} {die : Nat} (h : s.MemOk) : (s.pokeTolls die).MemOk := (pokeTolls_due _ _).keeps.ok h

theorem State.takeToll_memOk {s : State} {node : Nat} {p : Nat × Nat} (h : s.MemOk) : (s.takeToll node p).MemOk := by
  unfold State.takeToll
  extract_lets _ _ s1 s2 s3 s4
  have h1 : s1.MemOk := State.modDie_memOk h
  have h2 : s2.MemOk := State.modNode_memOk h1
  have h3 : s3.MemOk := foldl_memOk (fun _ _ h3 => State.kick_memOk h3) h2
  have h4 : s4.MemOk := by
    unfold s4
    split
    · exact State.modDie_memOk h3
    · exact h3
  exact State.timer_memOk h4

theorem State.settleTolls_memOk {s : State} {die fuel : Nat} (h : s.MemOk) : (s.settleTolls die fuel).MemOk := by
  induction fuel generalizing s with
  | zero => exact h
  | succ fuel ih =>
    rw [State.settleTolls]
    split
    · exact h
    · exact ih (State.takeToll_memOk h)
    · exact ih (State.modDie_memOk h)

theorem State.settled_memOk {s : State} {die : Nat} (h : s.MemOk) : (s.settled die).MemOk := State.settleTolls_memOk h

theorem State.setTolls_memOk {s : State} {die count : Nat} (h : s.MemOk) : (s.setTolls die count).MemOk := by
  unfold State.setTolls
  extract_lets _ s1 _ _
  have h1 : s1.MemOk := State.settled_memOk h
  exact State.pokeTolls_memOk (State.modDie_memOk h1)

theorem execTollCountSet_memOk {die count : Nat} {s : State} (h : s.MemOk) : (execTollCountSet die count s).MemOk := .next (State.setTolls_memOk h)

theorem State.awaitToll_memOk {s : State} {node : Nat} (h : s.MemOk) : (s.awaitToll node).MemOk := by
  unfold State.awaitToll
  extract_lets _ _ _ next
  clear_value next
  split
  · split
    · exact h
    · exact State.timer_memOk h
  · exact h

theorem execTollArrival_memOk {node : Nat} {s : State} (h : s.MemOk) : (execTollArrival node s).MemOk := by
  unfold execTollArrival
  refine .next ?_
  extract_lets s1
  have h1 : s1.MemOk := State.settled_memOk h
  split
  · exact State.awaitToll_memOk h1
  · exact h1

theorem State.giveToll_memOk {s : State} {node : Nat} (h : s.MemOk) : (s.giveToll node).MemOk := by
  unfold State.giveToll
  extract_lets _ s1 _ s2 s3
  have h1 : s1.MemOk := State.settled_memOk h
  have h2 : s2.MemOk := State.modNode_memOk h1
  have h3 : s3.MemOk := State.modDie_memOk h2
  exact State.pokeTolls_memOk h3

theorem execTollReturn_memOk {node : Nat} {s : State} (h : s.MemOk) : (execTollReturn node s).MemOk := by
  unfold execTollReturn
  refine .next ?_
  extract_lets _
  split
  · exact h
  · split
    · exact State.giveToll_memOk h
    · split
      · exact h
      · split
        · exact State.giveToll_memOk h
        · exact State.timer_memOk h

theorem execTollHoldLimit_memOk {node : Nat} {s : State} (h : s.MemOk) : (execTollHoldLimit node s).MemOk := by
  unfold execTollHoldLimit
  refine .next ?_
  split
  · exact State.giveToll_memOk h
  · exact h

end Sys2Proof.Machine
end

section
/-! Proofs. Memory stays canonical: Save, Mesh (95; O59). -/

namespace Sys2Proof.Machine

/-! ### Save -/

theorem State.withdraw_memOk {s : State} {t : Nat} {w : Wait} (h : s.MemOk) : (s.withdraw t w).MemOk := by
  unfold State.withdraw
  split
  · exact State.setSubmission_memOk h
  · extract_lets _
    exact State.granaryFreed_memOk (State.setSubscription_memOk (State.modGranary_memOk (State.endReads_memOk h)))
  · extract_lets _
    exact State.granaryFreed_memOk (State.setSubscription_memOk (State.modGranary_memOk (State.endReads_memOk h)))
  · exact State.modSlot_memOk (State.dropOp_memOk h)
  · exact h

theorem State.dropTollWait_memOk {s : State} {kept : Option Wait} (h : s.MemOk) :
    (s.dropTollWait kept).MemOk :=
  memOk_of_mem (keepsContexts_dropTollWait _ _).mem h

theorem State.reportReserved_memOk {s : State} {t : Nat} (h : s.MemOk) :
    (s.reportReserved t).MemOk :=
  memOk_of_mem (keepsContexts_reportReserved _ _).mem h

theorem State.writeContext_memOk {s : State} {t reason : Nat} {pc : Word} {kept : Option Wait} (h : s.MemOk) :
    OptMemOk (fun t => t) (s.writeContext t reason pc kept) := by
  unfold State.writeContext
  extract_lets _
  split
  · exact .none
  · next s1 e =>
    have h2 : s1.MemOk := some_memOk e (State.takeRecord_memOk h)
    extract_lets s2 s3 _ s4 s5 s6 s7 s8
    have h3 : s2.MemOk := State.writeRecord_memOk h2
    have h4 : s3.MemOk := State.reportReserved_memOk h3
    have h5 : s4.MemOk := State.dropTollWait_memOk h4
    have h6 : s5.MemOk := h5
    have h7 : s6.MemOk := by
      unfold s6
      split
      · exact State.freeSlot_memOk h6
      · exact h6
    have h8 : s7.MemOk := State.modCore_memOk h7
    have h9 : s8.MemOk := by
      unfold s8
      split
      · exact State.wakeIf_memOk h8
      · exact h7
    exact .some (State.freeSlot_memOk h9)

theorem State.saveLater_memOk {s : State} {t n : Nat} (h : s.MemOk) : (s.saveLater t n).MemOk := State.timer_memOk h

theorem State.saveNow_memOk {s : State} {t reason : Nat} {pc : Word} {kept : Option Wait} (h : s.MemOk) : (s.saveNow t reason pc kept).MemOk := by
  unfold State.saveNow
  split
  · next s1 e =>
    have h1 : s1.MemOk := some_memOk e (State.writeContext_memOk h)
    exact h1
  · exact State.timer_memOk (State.modSlot_memOk h)

theorem execContextSave_memOk {thread : Nat} {s : State} (h : s.MemOk) : (execContextSave thread s).MemOk := by
  unfold execContextSave
  refine .next ?_
  extract_lets _ _
  split
  · split
    · exact State.saveNow_memOk h
    · exact State.saveLater_memOk h
  · split
    · exact State.saveNow_memOk h
    · exact State.saveLater_memOk h
  · split
    · exact State.saveLater_memOk h
    · split
      · exact State.saveNow_memOk (State.withdraw_memOk h)
      · exact State.saveLater_memOk h
    · split
      · exact State.saveNow_memOk h
      · exact State.saveLater_memOk h
    · split
      · exact State.saveNow_memOk h
      · exact State.saveLater_memOk h
  · exact h

theorem execSaveRingRetry_memOk {thread : Nat} {s : State} (h : s.MemOk) : (execSaveRingRetry thread s).MemOk := by
  unfold execSaveRingRetry
  refine .next ?_
  extract_lets _
  split
  · split
    · exact State.saveNow_memOk h
    · exact State.saveLater_memOk h
  · exact h

theorem State.rejoinWait_memOk {s : State} {pa t : Nat} {c : Slot} (h : s.MemOk) : (s.rejoinWait pa t c).MemOk := by
  unfold State.rejoinWait
  extract_lets parked s1 _ s2
  have h1 : ∀ (s : State) (w : Wait), s.MemOk → (parked s w).MemOk := fun _ _ h1 => State.modSlot_memOk h1
  have h2 : s1.MemOk := State.modSlot_memOk h
  have h3 : s2.MemOk := h1 _ _ h
  split
  · split
    · exact State.finishOf_memOk (State.joined_memOk h)
    · extract_lets s3
      have h4 : s3.MemOk := h1 _ _ h
      split
      · exact State.surfaceTx_memOk h4
      · split
        · split
          · exact h1 _ _ h4
          · exact State.enqueue_memOk h4
        · exact h4
  · exact State.push_memOk (h1 _ _ h)
  · split
    · exact State.push_memOk (h1 _ _ h)
    · exact h
  · split
    · exact h
    · split
      · split
        · exact State.trapIn_memOk h2
        · exact State.finishOf_memOk (State.acquire_memOk h2)
      · split
        · exact h3
        · extract_lets s3
          have h4 : s3.MemOk := State.modAccess_memOk h3
          split
          · exact h4
          · exact State.resend_memOk h4
  · exact h

theorem State.makeWay_memOk {s : State} {pa core : Nat} {c : Slot} {fuel : Nat} (h : s.MemOk) : (s.makeWay pa core c fuel).MemOk := by
  induction fuel generalizing s with
  | zero => exact h
  | succ fuel ih =>
    rw [State.makeWay]
    split
    · exact h
    · split
      · next s1 e =>
        have h1 : s1.MemOk := some_memOk e (State.claimOne_memOk h)
        exact ih h1
      · exact h

theorem State.resumeContext_memOk {s0 : State} {pa : Nat} {c : Slot} (h : s0.MemOk) : (s0.resumeContext pa c).MemOk := by
  unfold State.resumeContext
  extract_lets _ _ s s1 _
  have h1 : s.MemOk := State.makeWay_memOk h
  have h2 : s1.MemOk := by
    unfold s1
    refine State.retakeShared_memOk ?_
    split
    · exact State.restoreStorage_memOk h1
    · exact h1
  split
  · exact h
  · split
    · exact h
    · extract_lets _ s2 _ _ s3 s4 s5 s6 s7
      have h3 : s2.MemOk := State.setSlot_memOk h2
      have h4 : s3.MemOk := by
        unfold s3
        split
        · exact State.setSlot_memOk h3
        · exact h3
      have h5 : s4.MemOk := by
        unfold s4
        split
        · exact State.modCore_memOk h4
        · exact h4
      have h6 : s5.MemOk := by
        unfold s5
        split
        · exact h5
        · exact State.modTask_memOk h5
      have h7 : s6.MemOk := h6
      have h8 : s7.MemOk := State.rejoinWait_memOk h7
      exact State.giveBack_memOk h8

theorem execResumption_memOk {node record : Nat} {s : State} (h : s.MemOk) :
    (execResumption node record s).MemOk :=
  .next (foldl_memOk (fun _ _ h1 => State.resumeContext_memOk h1) h)

theorem State.endContext_memOk {s : State} {pa : Nat} {c : Slot} (h : s.MemOk) : (s.endContext pa c).MemOk := by
  unfold State.endContext
  extract_lets _ s1 s2 s3 s4
  have h1 : s1.MemOk := State.leaveOps_memOk h
  have h2 : s2.MemOk := by
    unfold s2
    split
    · exact State.freeBoth_memOk h1
    · exact h1
  have h3 : s3.MemOk := State.setMember_memOk h2
  have h4 : s4.MemOk := State.modTask_memOk h3
  exact State.pokeTask_memOk h4

theorem State.disposeOp_memOk {s : State} {id code : Nat} (h : s.MemOk) : (s.disposeOp id code).MemOk := by
  unfold State.disposeOp
  split
  · exact h
  · extract_lets s1 _ finish
    have h1 : s1.MemOk := State.modOp_memOk h
    have h2 : ∀ (s : State), s.MemOk → (finish s).MemOk := fun _ h2 => State.freeOp_memOk (State.modTask_memOk h2)
    split
    · split
      · exact h1
      · exact h2 _ h1
    · split
      · exact State.resumeOp_memOk h1
      · split
        · exact State.surface_memOk (State.modOp_memOk h1)
        · exact h2 _ h1

theorem State.disposeNotice_memOk {s : State} {n : Notice} {code : Nat} (h : s.MemOk) : (s.disposeNotice n code).MemOk := by
  unfold State.disposeNotice
  split
  · exact State.disposeOp_memOk h
  · split
    · split
      · exact State.event_memOk (State.modRoll_memOk h)
      · exact State.failPass_memOk h
    · exact h
  · split
    · split
      · extract_lets s1
        have h1 : s1.MemOk := State.modParish_memOk h
        split
        · exact State.event_memOk h1
        · split
          · exact State.event_memOk h1
          · exact State.event_memOk h1
      · split
        · exact State.refuseCommand_memOk h
        · exact State.decideCommand_memOk h
    · exact h
  · exact h

theorem execDisposition_memOk {chip parish : Nat} {s : State} (h : s.MemOk) : (execDisposition chip parish s).MemOk := by
  unfold execDisposition
  refine .next ?_
  split
  · exact h
  · next s1 e =>
    have h2 : s1.MemOk := some_memOk e (State.deqRing_memOk h)
    split
    · exact h2
    · extract_lets _ n s2
      have h3 : s2.MemOk := h2
      split
      · exact h2
      · split
        · clear_value n
          split
          · exact State.giveBack_memOk (State.disposeNotice_memOk h3)
          · exact h2
        · clear_value n
          split
          · exact State.giveBack_memOk (State.disposeNotice_memOk h3)
          · split
            · exact State.event_memOk h2
            · exact State.giveBack_memOk (State.endContext_memOk h2)

theorem execPreEmption_memOk {node : Nat} {s : State} (h : s.MemOk) : (execPreEmption node s).MemOk := by
  unfold execPreEmption
  refine .next ?_
  extract_lets _
  split
  · exact State.event_memOk h
  · split
    · exact foldl_memOk (fun _ _ h1 => State.event_memOk (State.modSlot_memOk h1)) h
    · exact h

/-! ### Mesh -/

theorem State.refuseAt_memOk {s : State} {n pk : Nat} {p : Packet} (h : s.MemOk) : (s.refuseAt n pk p).MemOk := by
  unfold State.refuseAt
  extract_lets s1 notice
  have h1 : s1.MemOk := State.dropPacket_memOk h
  have h2 : ∀ (s : State) (acc : Nat), s.MemOk → (notice s acc).MemOk := by
    intro _ _ h2
    unfold notice
    split
    · split
      · exact State.send_memOk h2
      · exact h2
    · exact h2
  split
  · exact h2 _ _ h1
  · exact foldl_memOk (fun _ _ h3 => h2 _ _ h3) h1
  · exact foldl_memOk (fun _ _ h3 => h2 _ _ h3) h1
  · exact h1

theorem State.boundary_memOk {s : State} {n m pk : Nat} {p : Packet} {k : State → State} (h : s.MemOk) (hk : ∀ (a : State), a.MemOk → (k a).MemOk) :
    (s.boundary n m pk p k).MemOk := by
  unfold State.boundary
  split
  · exact hk _ h
  · split
    · exact State.refuseAt_memOk h
    · exact State.dropPacket_memOk h

theorem State.modGateway_memOk {s : State} {n port : Nat} {f : Gateway → Gateway} (h : s.MemOk) :
    (s.modGateway n port f).MemOk :=
  State.modChip_memOk h

theorem State.joinGateway_memOk {s : State} {n port pk : Nat} (h : s.MemOk) :
    (s.joinGateway n port pk).MemOk :=
  State.event_memOk (State.modGateway_memOk (State.modPacket_memOk h))

theorem State.joinWithAdds_memOk {s : State} {n port pk : Nat} {p : Packet} (h : s.MemOk) : (s.joinWithAdds n port pk p).MemOk := by
  unfold State.joinWithAdds
  split
  · split
    · exact State.joinGateway_memOk h
    · extract_lets other
      clear_value other
      split
      · exact State.joinGateway_memOk h
      · exact State.modAccess_memOk (State.dropPacket_memOk h)
  · exact State.joinGateway_memOk h

theorem State.ackPartners_memOk {s : State} {n acc : Nat} (h : s.MemOk) :
    (s.ackPartners n acc).MemOk :=
  memOk_of_mem (ackPartners_appends _ _ _).mem h

theorem State.toBelfry_memOk {s : State} {pk : Nat} {p : Packet} {chip : Nat} (h : s.MemOk) : (s.toBelfry pk p chip).MemOk := by
  unfold State.toBelfry
  extract_lets s1 _
  have h1 : s1.MemOk := State.modPacket_memOk h
  split
  · exact State.newEntry_memOk h1
  · extract_lets _ s2
    have h2 : s2.MemOk := foldl_memOk (fun _ _ h2 => State.modPacket_memOk h2) h1
    split
    · exact h1
    · exact State.newEntry_memOk h2

theorem State.addPacket_memOk {s : State} {p : Packet} (h : s.MemOk) : (s.addPacket p).2.MemOk := by
  unfold State.addPacket
  split
  · next s1 e =>
    have h1 : s1.MemOk := snd_memOk e (State.fresh_memOk h)
    exact h1

theorem State.multicastToBelfry_memOk {s : State} {pk : Nat} {p : Packet} {chip : Nat} (h : s.MemOk) : (s.multicastToBelfry pk p chip).MemOk := by
  unfold State.multicastToBelfry
  extract_lets _
  refine foldl_memOk ?_ (State.dropPacket_memOk h)
  intro _ _ h1
  extract_lets _
  split
  · next s2 e =>
    have h2 : s2.MemOk := snd_memOk e (State.addPacket_memOk h1)
    exact State.newEntry_memOk h2

theorem State.drainReported_memOk {s : State} {node : Nat} (h : s.MemOk) : (s.drainReported node).MemOk := by
  unfold State.drainReported
  extract_lets s1 _
  have h1 : s1.MemOk := State.modNode_memOk h
  split
  · exact foldl_memOk (fun _ _ h2 => State.modNode_memOk h2) h1
  · exact h1

theorem State.atBelfry_memOk {s : State} {n pk : Nat} {p : Packet} (h : s.MemOk) : (s.atBelfry n pk p).MemOk := by
  unfold State.atBelfry
  extract_lets _
  split
  · split
    · exact State.drainReported_memOk (State.dropPacket_memOk h)
    · exact State.dropPacket_memOk h
  · split
    · exact State.multicastToBelfry_memOk h
    · split
      · exact State.joinGateway_memOk h
      · exact State.toBelfry_memOk h

theorem State.sendCopy_memOk {s : State} {n : Nat} {p : Packet} {b : Nat × List (Nat × Nat)} (h : s.MemOk) : (s.sendCopy n p b).MemOk := by
  unfold State.sendCopy
  extract_lets _
  split
  · refine foldl_memOk ?_ h
    intro _ _ h1
    split
    · next s2 e1 =>
      have h2 : s2.MemOk := snd_memOk e1 (State.addPacket_memOk h1)
      exact State.event_memOk h2
  · split
    · split
      · exact State.machineCheck_memOk h
      · split
        · next s1 e3 =>
          have h1 : s1.MemOk := snd_memOk e3 (State.addPacket_memOk h)
          exact State.joinGateway_memOk h1
    · split
      · exact State.machineCheck_memOk h
      · split
        · next s1 e3 =>
          have h1 : s1.MemOk := snd_memOk e3 (State.addPacket_memOk h)
          refine State.boundary_memOk h1 ?_
          intro _ h2
          split
          · exact State.event_memOk (State.modPacket_memOk h2)
          · exact State.joinGateway_memOk h2

theorem State.handedOver_memOk {s : State} {p : Packet} (h : s.MemOk) : (s.handedOver p).MemOk := (handedOver_due _ _).keeps.ok h

theorem State.fork_memOk {s : State} {n pk : Nat} {p : Packet} (h : s.MemOk) : OptMemOk (fun t => t) (s.fork n pk p) := by
  unfold State.fork
  extract_lets _ _ _ later out s1 s2
  have h1 : ∀ (s : State), s.MemOk → (out s).MemOk := fun _ h1 => foldl_memOk (fun _ _ h2 => State.sendCopy_memOk h2) h1
  have h2 : s1.MemOk := h1 _ (State.dropPacket_memOk (State.modNode_memOk h))
  have h3 : s2.MemOk := h1 _ (State.modPacket_memOk (State.modNode_memOk h))
  split
  · exact .none
  · clear_value later
    split
    · refine .some ?_
      split
      · exact h2
      · exact State.handedOver_memOk h2
    · split
      · split
        · exact .none
        · exact .some (h1 _ (State.modPacket_memOk h))
      · split
        · exact .none
        · refine .some ?_
          split
          · exact h3
          · exact State.handedOver_memOk h3

theorem State.multicastAt_memOk {s : State} {n pk : Nat} {p : Packet} (h : s.MemOk) : (s.multicastAt n pk p).MemOk := by
  unfold State.multicastAt
  split
  · next s1 e =>
    have h1 : s1.MemOk := some_memOk e (State.fork_memOk h)
    exact State.pokeForks_memOk h1
  · exact State.modPacket_memOk h

theorem State.portDrained_memOk {s : State} {node port : Nat} (h : s.MemOk) : (s.portDrained node port).MemOk := by
  unfold State.portDrained
  extract_lets _ _ s1
  have h1 : s1.MemOk := State.modNode_memOk h
  split
  · exact h
  · split
    · split
      · next s2 e2 =>
        have h2 : s2.MemOk := snd_memOk e2 (State.addPacket_memOk h1)
        exact State.event_memOk h2
    · exact h1

theorem State.hop_memOk {s : State} {pk n : Nat} {p : Packet} (h : s.MemOk) : (s.hop pk n p).MemOk := by
  unfold State.hop
  extract_lets _ s1
  have h1 : s1.MemOk := State.modPacket_memOk h
  split
  · split
    · exact State.refuseAt_memOk h
    · exact State.event_memOk h1
  · split
    · split
      · exact State.machineCheck_memOk (State.dropPacket_memOk h)
      · exact State.joinGateway_memOk h
    · split
      · exact State.machineCheck_memOk (State.dropPacket_memOk h)
      · refine State.boundary_memOk h ?_
        intro _ h2
        split
        · exact State.event_memOk (State.modPacket_memOk h2)
        · exact State.joinWithAdds_memOk h2

theorem execPacketRoute_memOk {pk : Nat} {s : State} (h : s.MemOk) : (execPacketRoute pk s).MemOk := by
  unfold execPacketRoute
  refine .next ?_
  split
  · exact h
  · split
    · split
      · exact State.portDrained_memOk (State.dropPacket_memOk h)
      · split
        · exact State.multicastAt_memOk h
        · split
          · exact State.event_memOk h
          · exact State.hop_memOk h
    · exact h

theorem execForkBufferSend_memOk {node pk : Nat} {s : State} (h : s.MemOk) : (execForkBufferSend node pk s).MemOk := by
  unfold execForkBufferSend
  refine .next ?_
  split
  · exact h
  · split
    · exact State.multicastAt_memOk h
    · exact h

theorem State.crossed_memOk {s : State} {n port pk : Nat} {p : Packet} (h : s.MemOk) : (s.crossed n port pk p).MemOk := by
  unfold State.crossed
  extract_lets s1
  have h1 : s1.MemOk := State.modGateway_memOk h
  split
  · exact State.atBelfry_memOk h1
  · split
    · exact h1
    · refine State.boundary_memOk h1 ?_
      intro _ h2
      extract_lets s3
      have h3 : s3.MemOk := State.event_memOk (State.modPacket_memOk h2)
      split
      · split
        · exact State.ackPartners_memOk h3
        · exact h3
      · exact h3

theorem State.flitCrosses_memOk {s : State} {n port pk : Nat} (h : s.MemOk) : (s.flitCrosses n port pk).MemOk := by
  unfold State.flitCrosses
  split
  · exact h
  · split
    · exact h
    · split
      · exact State.pokeForks_memOk (State.crossed_memOk h)
      · exact State.modPacket_memOk h

theorem State.failGateway_memOk {s : State} {n port : Nat} (h : s.MemOk) : (s.failGateway n port).MemOk := by
  unfold State.failGateway
  extract_lets _ s1 s2
  have h1 : s1.MemOk := foldl_memOk (fun _ _ h1 => State.modGateway_memOk h1) h
  have h2 : s2.MemOk := h1
  exact State.pokeForks_memOk (State.machineCheck_memOk h2)

theorem execGatewayFrame_memOk {pk : Nat} {fecOk : Bool} {s : State} (h : s.MemOk) : (execGatewayFrame pk fecOk s).MemOk := by
  unfold execGatewayFrame
  refine .next ?_
  split
  · exact h
  · split
    · extract_lets _
      split
      · exact State.dropPacket_memOk h
      · split
        · extract_lets s1 s2
          have h1 : s1.MemOk := State.modGateway_memOk h
          have h2 : s2.MemOk := by
            unfold s2
            split
            · exact State.failGateway_memOk h
            · split
              · exact State.modGateway_memOk h
              · exact foldl_memOk (fun _ _ h2 => State.flitCrosses_memOk h2) h1
          split
          · split
            · exact h2
            · exact State.event_memOk h2
          · exact h2
    · exact h

theorem execRouteTableWrite_memOk {node bank idx : Nat} {entry : Word} {s : State} (h : s.MemOk) :
    (execRouteTableWrite node bank idx entry s).MemOk := by
  unfold execRouteTableWrite
  refine .next ?_
  extract_lets _ _
  split
  · exact State.modNode_memOk h
  · exact h

theorem State.passMarker_memOk {s : State} {n port : Nat} (h : s.MemOk) : (s.passMarker n port).MemOk := by
  unfold State.passMarker
  extract_lets _
  split
  · next s1 e =>
    have h1 : s1.MemOk := snd_memOk e (State.addPacket_memOk h)
    split
    · exact State.joinGateway_memOk h1
    · split
      · exact State.joinGateway_memOk h1
      · exact State.event_memOk h1

theorem execSwapMarker_memOk {node : Nat} {s : State} (h : s.MemOk) : (execSwapMarker node s).MemOk := by
  unfold execSwapMarker
  refine .next ?_
  extract_lets _ s1
  have h1 : s1.MemOk := State.modNode_memOk h
  split
  · exact h
  · refine foldl_memOk ?_ h1
    intro _ _ h2
    extract_lets s3
    have h3 : s3.MemOk := State.event_memOk h2
    split
    · exact State.event_memOk h3
    · exact h3

theorem execDrainMarker_memOk {node port : Nat} {s : State} (h : s.MemOk) : (execDrainMarker node port s).MemOk := by
  unfold execDrainMarker
  refine .next ?_
  extract_lets _ _
  split
  · exact h
  · split
    · exact State.timer_memOk h
    · exact State.passMarker_memOk h

theorem State.endMembers_memOk {s : State} {c : Cluster} {guests : List (Nat × Nat)} (h : s.MemOk) : (s.endMembers c guests).MemOk := by
  unfold State.endMembers
  refine foldl_memOk ?_ h
  intro _ _ h1
  extract_lets _ s2 s3
  have h2 : s2.MemOk := foldl_memOk (fun _ _ h2 => State.setMember_memOk h2) h1
  have h3 : s3.MemOk := State.modTask_memOk h2
  exact State.pokeTask_memOk h3

theorem execClusterReset_memOk {c : Cluster} {s : State} (h : s.MemOk) : (execClusterReset c s).MemOk := by
  unfold execClusterReset
  refine .next ?_
  extract_lets _ s1 _ _ _ _ _ _ s2 s3 s4 s5 s6 s7 s8
  have h1 : s1.MemOk := by
    unfold s1
    refine foldl_memOk ?_ h
    intro _ _ h1
    refine foldl_memOk ?_ h1
    intro _ _ h2
    split
    · exact State.unsubscribe_memOk h2
    · exact h2
  have h2 : s2.MemOk := h1
  have h3 : s3.MemOk := AMap.wf_filter _ h2
  have h4 : s4.MemOk := foldl_memOk (fun _ _ h4 => State.freeAway_memOk h4) h3
  have h5 : s5.MemOk := foldl_memOk (fun _ _ h5 => State.freeSlot_memOk h5) h4
  have h6 : s6.MemOk := foldl_memOk (fun _ _ h6 => State.modNode_memOk h6) h5
  have h7 : s7.MemOk := foldl_memOk (fun _ _ h7 => State.loseAccess_memOk h7) h6
  have h8 : s8.MemOk := State.endMembers_memOk h7
  exact State.pokeForks_memOk (State.pokeTolls_memOk h8)

theorem execClusterRelease_memOk {c : Cluster} {s : State} (h : s.MemOk) :
    (execClusterRelease c s).MemOk :=
  .next (foldl_memOk (fun _ _ h1 => State.modNode_memOk h1) h)

theorem State.scrubFinding_memOk {s : State} {pa : Nat} {found : ScrubFinding} (h : s.MemOk) : (s.scrubFinding pa found).MemOk := by
  unfold State.scrubFinding
  split
  · exact h
  · exact State.modCore_memOk h
  · split
    · exact State.machineCheck_memOk h
    · exact h

theorem execScrub_memOk {core : Nat} {found : ScrubFinding} {s : State} (h : s.MemOk) : (execScrub core found s).MemOk := by
  unfold execScrub
  refine .next ?_
  extract_lets _ s1
  have h1 : s1.MemOk := State.scrubFinding_memOk (State.scrubAt_memOk h)
  exact State.modCore_memOk h1

theorem execChannelScrub_memOk {chip channel : Nat} {found : ScrubFinding} {s : State} (h : s.MemOk) :
    (execChannelScrub chip channel found s).MemOk := by
  unfold execChannelScrub
  refine .next ?_
  extract_lets _
  exact State.scrubFinding_memOk (State.scrubChannel_memOk h)

end Sys2Proof.Machine
end

section
/-! Proofs. Memory stays canonical: Parcel, Table, Ouvval (95; O59). -/

namespace Sys2Proof.Machine

/-! ### Parcel -/

theorem State.modTransit_memOk {s : State} {id : Nat} {f : Transit → Transit} (h : s.MemOk) : (s.modTransit id f).MemOk := h

theorem execPost_memOk {g : Guard} {a b : Field4} {s : State} (h : s.MemOk) : (execPost g a b s).MemOk := by
  unfold execPost
  refine scalar_memOk h ?_
  intro _ h1
  extract_lets _ _ _ _ _
  split
  · exact State.trap_memOk h1
  · split
    · exact State.trap_memOk h1
    · split
      · exact State.trap_memOk h1
      · split
        · exact State.trap_memOk h1
        · split
          · exact State.trap_memOk h1
          · split
            · exact State.trap_memOk h1
            · split
              · exact State.trap_memOk h1
              · split
                · exact State.trap_memOk h1
                · refine withRelease_memOk h1 ?_
                  intro _ h2
                  split
                  · next s3 e9 =>
                    have h3 : s3.MemOk := snd_memOk e9 (State.fresh_memOk h2)
                    extract_lets _ s4
                    have h4 : s4.MemOk := h3
                    exact State.park_memOk (State.issueChange_memOk h4)

theorem State.parcelMessage_memOk {s : State} {body : EntryBody} {cls : Class} {src dst n : Nat} {i : Instr} (h : s.MemOk) :
    (s.parcelMessage body cls src dst n i).MemOk := by
  unfold State.parcelMessage
  split
  · exact State.event_memOk h
  · exact State.newEntry_memOk h

theorem State.takeMessage_memOk {s : State} {t : Transit} {body : EntryBody} {dst : Nat} (h : s.MemOk) :
    OptMemOk (fun t => t) (s.takeMessage t body dst) := by
  unfold State.takeMessage
  split
  · exact .some h
  · split
    · exact .some h
    · exact .none

theorem State.sealDone_memOk {s : State} {id : Nat} {t : Transit} (h : s.MemOk) : (s.sealDone id t).MemOk := by
  unfold State.sealDone
  extract_lets _ _ s1 s2 s3
  have h1 : s1.MemOk := State.issueChange_memOk h
  have h2 : s2.MemOk := State.modTransit_memOk h1
  have h3 : s3.MemOk := by
    unfold s3
    split
    · exact State.finishOf_memOk h2
    · exact h2
  exact State.parcelMessage_memOk h3

theorem State.takeFrames_memOk {s : State} {chip parish n : Nat} {l : List Nat} (h : s.MemOk) :
    OptMemOk (fun t => t.2) (s.takeFrames chip parish n l) := by
  induction n generalizing s l with
  | zero => exact .some h
  | succ n ih =>
    rw [State.takeFrames]
    split
    · next s1 e =>
      have h1 : s1.MemOk := some_memOk e (State.deqRing_memOk h)
      exact ih h1
    · exact .none

theorem execParcelOffer_memOk {transit : Nat} {s : State} (h : s.MemOk) : (execParcelOffer transit s).MemOk := by
  unfold execParcelOffer
  refine .next ?_
  split
  · exact h
  · next t _ =>
    extract_lets first retry
    have h1 : OptMemOk (fun t => t) first := by
      unfold first
      split
      · exact .some h
      · exact State.takeMessage_memOk h
    have h2 : ∀ (s : State), s.MemOk → (retry s).MemOk := fun _ h2 => State.timer_memOk h2
    split
    · next s1 _ e2 =>
      have h3 : s1.MemOk := some_memOk e2 h1
      split
      · exact State.event_memOk (State.modTransit_memOk h3)
      · split
        · next s2 e4 =>
          have h4 : s2.MemOk := by
            refine snd_memOk e4 ?_
            split
            · exact h3
            · exact State.fresh_memOk h3
          extract_lets s3
          have h5 : s3.MemOk := State.modTransit_memOk h4
          split
          · exact h2 _ h5
          · split
            · exact h2 _ h5
            · next s4 e6 =>
              have h7 : s4.MemOk := some_memOk e6 (State.deqRing_memOk h5)
              split
              · exact h2 _ h5
              · next s5 e7 =>
                have h8 : s5.MemOk := some_memOk e7 (State.takeFrames_memOk h7)
                extract_lets s6
                have h9 : s6.MemOk := State.modTransit_memOk h8
                exact State.parcelMessage_memOk h9
    · exact h

theorem State.install_memOk {s : State} {id : Nat} {t : Transit} (h : s.MemOk) : (s.install id t).MemOk := by
  unfold State.install
  extract_lets _ _ _ _
  exact State.issueChange_memOk (State.modTransit_memOk h)

theorem execParcelAcceptance_memOk {transit : Nat} {s : State} (h : s.MemOk) : (execParcelAcceptance transit s).MemOk := by
  unfold execParcelAcceptance
  refine .next ?_
  split
  · exact h
  · split
    · next s1 _ e2 =>
      have h1 : s1.MemOk := some_memOk e2 (State.takeMessage_memOk h)
      extract_lets _ s2
      have h2 : s2.MemOk := State.modTransit_memOk h1
      split
      · exact State.install_memOk h2
      · split
        · exact State.event_memOk h2
        · exact foldl_memOk (fun _ _ h3 => State.newEntry_memOk h3) h2
    · exact h

theorem execParcelData_memOk {transit : Nat} {s : State} (h : s.MemOk) : (execParcelData transit s).MemOk := by
  obtain ⟨find, hf⟩ : ∃ f, f = State.findError := ⟨_, rfl⟩
  have hfind {u : State} {l : List Nat} (hu : u.MemOk) : (find u l).1.MemOk := by
    rw [hf]
    exact State.findError_memOk hu
  unfold execParcelData
  -- kept opaque: the kernel would evaluate them on the 16,384 addresses of an entry
  obtain ⟨resolve, hr⟩ : ∃ f, f = State.resolve := ⟨_, rfl⟩
  rw [← hf, ← hr]
  refine .next ?_
  split
  · exact h
  · split
    · extract_lets part off
      split
      · exact State.timer_memOk h
      · split
        · exact h
        · next s1 e =>
          have h1 : s1.MemOk := some_memOk e (State.takeMessage_memOk h)
          extract_lets s2
          have h2 : s2.MemOk := foldl_memOk (fun _ _ h2 => State.countExtent_memOk h2) h1
          clear_value s2
          split
          · next s3 e1 => exact State.event_memOk (State.modTransit_memOk (fst_memOk e1 (hfind h2)))
          · next s3 e1 =>
            have h3 : s3.MemOk := fst_memOk e1 (hfind h2)
            extract_lets s4 s5
            have h5 : s5.MemOk := State.modTransit_memOk (State.write_memOk _ h3)
            split
            · exact State.install_memOk h5
            · split
              · exact State.event_memOk h5
              · exact h5
    · exact h

theorem State.installDone_memOk {s : State} {id : Nat} {t : Transit} (h : s.MemOk) : (s.installDone id t).MemOk := by
  unfold State.installDone
  extract_lets _ _ s1 s2
  have h1 : s1.MemOk := State.request_memOk h
  have h2 : s2.MemOk := State.modTransit_memOk h1
  exact State.parcelMessage_memOk h2

theorem State.returnFrames_memOk {s : State} {t : Transit} (h : s.MemOk) : (s.returnFrames t).MemOk := (returnFrames_writes _ _).ok h

theorem execInstallationAcknowledgement_memOk {transit : Nat} {s : State} (h : s.MemOk) : (execInstallationAcknowledgement transit s).MemOk := by
  unfold execInstallationAcknowledgement
  refine .next ?_
  split
  · exact h
  · split
    · next s1 _ e2 =>
      have h1 : s1.MemOk := some_memOk e2 (State.takeMessage_memOk h)
      extract_lets s2 s3
      have h2 : s2.MemOk := State.returnFrames_memOk h1
      have h3 : s3.MemOk := State.issueChange_memOk h2
      exact h3
    · exact h

theorem State.dropMessages_memOk {s : State} {id : Nat} (h : s.MemOk) : (s.dropMessages id).MemOk := by
  unfold State.dropMessages
  extract_lets _ _ s1
  have h1 : s1.MemOk := h
  exact h

theorem execParcelTransitFailure_memOk {transit : Nat} {s : State} (h : s.MemOk) : (execParcelTransitFailure transit s).MemOk := by
  unfold execParcelTransitFailure
  refine .next ?_
  split
  · exact h
  · extract_lets _ s1 s2 s3 s4 s5 s6
    have h1 : s1.MemOk := State.dropMessages_memOk h
    have h2 : s2.MemOk := State.giveBack_memOk h1
    have h3 : s3.MemOk := by
      unfold s3
      split
      · exact foldl_memOk (fun _ _ h3 => State.giveBack_memOk h3) h2
      · exact h1
    have h4 : s4.MemOk := by
      unfold s4
      split
      · exact State.issueChange_memOk h3
      · exact h3
    have h5 : s5.MemOk := State.issueChange_memOk h4
    have h6 : s6.MemOk := h5
    split
    · exact h
    · exact State.machineCheck_memOk h6

/-! ### Table -/

theorem State.emptyCaches_memOk {s : State} {chip parish obj : Nat} (h : s.MemOk) : (s.emptyCaches chip parish obj).MemOk := by
  unfold State.emptyCaches
  extract_lets _
  exact h

theorem State.setDescriptor_memOk {s : State} {chip parish obj i : Nat} {d : Word} (h : s.MemOk) : (s.setDescriptor chip parish obj i d).MemOk := h

theorem State.clearSectors_memOk {s : State} {chip parish obj : Nat} (h : s.MemOk) : (s.clearSectors chip parish obj).MemOk := by
  unfold State.clearSectors
  extract_lets _ _
  exact foldl_memOk (fun _ _ h1 => State.clearShadow_memOk h1) h

theorem State.setEntry_memOk {s : State} {chip parish obj : Nat} {e : ObjEntry} (h : s.MemOk) : (s.setEntry chip parish obj e).MemOk := by
  unfold State.setEntry
  extract_lets _ _ _ s1 s2
  have h1 : s1.MemOk := by
    unfold s1
    split
    · exact State.clearSectors_memOk h
    · exact h
  have h2 : s2.MemOk := h1
  split
  · exact h
  · split
    · exact State.clearSectors_memOk h2
    · exact h2

theorem State.applyChange_memOk {s : State} {chip parish : Nat} {c : Change} (h : s.MemOk) : (s.applyChange chip parish c).MemOk := by
  unfold State.applyChange
  split
  · exact State.setEntry_memOk h
  · exact State.setDescriptor_memOk h
  · exact State.clearSectors_memOk (foldl_memOk (fun _ _ h1 => State.setDescriptor_memOk h1) (State.setEntry_memOk h))

theorem State.takeChange_memOk {s : State} {chip pk acc : Nat} (h : s.MemOk) : (s.takeChange chip pk acc).MemOk := by
  unfold State.takeChange
  split
  · exact State.pokeForks_memOk (State.dropPacket_memOk h)
  · split
    · exact State.pokeForks_memOk (State.respond_memOk (State.dropPacket_memOk h))
    · exact State.pokeForks_memOk (State.concludeAt_memOk h)

theorem execTableChange_memOk {chip chg : Nat} {s : State} (h : s.MemOk) : (execTableChange chip chg s).MemOk := by
  unfold execTableChange
  refine .next ?_
  split
  · exact h
  · extract_lets _ s1 _ _ _ _
    have h1 : s1.MemOk := State.takeChange_memOk h
    split
    · exact State.pokeForks_memOk (State.sendBusy_memOk h)
    · exact State.takeChange_memOk h
    · split
      · split
        · exact h
        · exact State.takeChange_memOk h
      · extract_lets s2 s3 s4 s5 s6
        have h3 : s2.MemOk := State.modChip_memOk h1
        have h4 : s3.MemOk := State.emptyCaches_memOk (State.applyChange_memOk h3)
        have h5 : s4.MemOk := h4
        have h6 : s5.MemOk := foldl_memOk (fun _ _ h6 => State.event_memOk h6) h5
        have h7 : s6.MemOk := by
          unfold s6
          split
          · exact State.event_memOk h6
          · exact h6
        exact State.event_memOk h7

theorem State.changeComplete_memOk {s : State} {v : ChangeState} (h : s.MemOk) : (s.changeComplete v).MemOk := by
  unfold State.changeComplete
  split
  · exact h
  · split
    · exact State.sealDone_memOk h
    · exact State.installDone_memOk h
    · exact h

theorem execTableChangeAcknowledge_memOk {chip chg : Nat} {s : State} (h : s.MemOk) : (execTableChangeAcknowledge chip chg s).MemOk := by
  unfold execTableChangeAcknowledge
  refine .next ?_
  extract_lets _ _ _ _ s1
  have h1 : s1.MemOk := h
  split
  · exact h
  · split
    · exact State.timer_memOk h
    · split
      · exact State.changeComplete_memOk h1
      · exact h

theorem execMovingExtentRecheck_memOk {thread : Nat} {s : State} (h : s.MemOk) : (execMovingExtentRecheck thread s).MemOk := by
  unfold execMovingExtentRecheck
  refine .next ?_
  extract_lets _ s1 s2
  have h1 : s1.MemOk := by
    unfold s1
    split
    · exact State.push_memOk h
    · exact h
  have h2 : s2.MemOk := by
    unfold s2
    split
    · exact State.event_memOk h1
    · exact h1
  refine foldl_memOk ?_ h2
  intro _ _ h3
  split
  · split
    · exact State.event_memOk h3
    · exact h3
  · exact h3

theorem execNodeCacheFetch_memOk {node key : Nat} {s : State} (h : s.MemOk) : (execNodeCacheFetch node key s).MemOk := by
  unfold execNodeCacheFetch
  refine .next ?_
  split
  · extract_lets _
    exact State.modNode_memOk h
  · exact h

theorem State.askCode_memOk {s : State} {thread : Nat} (h : s.MemOk) : (s.askCode thread).MemOk := by
  unfold State.askCode
  extract_lets _ _ _
  split
  · exact h
  · split
    · exact h
    · split
      · exact State.trapIn_memOk h
      · exact State.trapIn_memOk h
      · exact h
      · exact State.request_memOk (State.touch_memOk h)

theorem execCodeCacheFill_memOk {thread : Nat} {s : State} (h : s.MemOk) : (execCodeCacheFill thread s).MemOk := by
  unfold execCodeCacheFill
  refine .next ?_
  split
  · split
    · exact State.modSlot_memOk h
    · exact State.trapIn_memOk h
    · exact h
    · exact State.askCode_memOk h
  · exact h

/-! ### Ouvval -/

theorem State.returnCredit_memOk {s : State} {chip id : Nat} {e : Entry} (h : s.MemOk) :
    (s.returnCredit chip id e).MemOk :=
  (returnCredit_fabric _ _ _ _).ok h

theorem State.addCredit_memOk {s : State} {chip via : Nat} (h : s.MemOk) : (s.addCredit chip via).MemOk := (addCredit_fabric _ _ _).ok h

theorem State.dropEntry_memOk {s : State} {id : Nat} (h : s.MemOk) : (s.dropEntry id).MemOk := (dropEntry_fabric _ _).ok h

theorem State.pokePort_memOk {s : State} {chip port : Nat} (h : s.MemOk) : (s.pokePort chip port).MemOk := (pokePort_due _ _ _).keeps.ok h

theorem State.joinQueue_memOk {s : State} {chip port id : Nat} {e : Entry} (h : s.MemOk) : (s.joinQueue chip port id e).MemOk := by
  unfold State.joinQueue
  extract_lets s1 s2 s3
  have h1 : s1.MemOk := State.modEntry_memOk h
  have h2 : s2.MemOk := State.modPort_memOk h1
  have h3 : s3.MemOk := foldl_memOk (fun _ _ h3 => State.modPacket_memOk h3) h2
  exact State.pokePort_memOk h3

theorem execEntryEnqueue_memOk {entry : Nat} {s : State} (h : s.MemOk) : (execEntryEnqueue entry s).MemOk := by
  unfold execEntryEnqueue
  refine .next ?_
  split
  · exact h
  · extract_lets _ _
    split
    · exact h
    · split
      · exact State.event_memOk h
      · split
        · exact State.joinQueue_memOk h
        · split
          · exact State.dropEntry_memOk h
          · split
            · exact State.dropEntry_memOk h
            · split
              · exact State.joinQueue_memOk h
              · exact State.dropEntry_memOk h

theorem State.sendEntry_memOk {s : State} {chip port id : Nat} {e : Entry} {q : Nat} (h : s.MemOk) : (s.sendEntry chip port id e q).MemOk := by
  unfold State.sendEntry
  extract_lets _ s1 s2 s3 s4
  have h1 : s1.MemOk := State.modPort_memOk h
  have h2 : s2.MemOk := by
    unfold s2
    split
    · exact State.modChip_memOk h1
    · exact h1
  have h3 : s3.MemOk := State.sealFrames_memOk h2
  have h4 : s4.MemOk := by
    unfold s4
    split
    · exact State.rotateKeys_memOk h3
    · exact h3
  exact State.pokePort_memOk h4

theorem execEntryAdmission_memOk {chip port cls position : Nat} {s : State} (h : s.MemOk) : (execEntryAdmission chip port cls position s).MemOk := by
  unfold execEntryAdmission
  refine .next ?_
  extract_lets _
  split
  · exact h
  · split
    · exact h
    · split
      · exact h
      · split
        · exact h
        · extract_lets _
          split
          · exact State.sendEntry_memOk h
          · exact State.pokePort_memOk (State.modPort_memOk h)

theorem State.enterMesh_memOk {s : State} {pk : Nat} (h : s.MemOk) : (s.enterMesh pk).MemOk := by
  unfold State.enterMesh
  split
  · extract_lets _
    exact State.joinGateway_memOk (State.modPacket_memOk h)
  · exact h

theorem State.arriveEntry_memOk {s : State} {id : Nat} {e : Entry} (h : s.MemOk) : (s.arriveEntry id e).MemOk := by
  unfold State.arriveEntry
  extract_lets s1
  have h1 : s1.MemOk := State.modEntry_memOk h
  split
  · exact State.event_memOk (State.modChip_memOk h1)
  · split
    · exact State.event_memOk h1
    · exact State.event_memOk h1
    · exact State.event_memOk h1
    · exact State.event_memOk h1
    · exact State.event_memOk h1
    · split
      · next s2 _ e3 =>
        have h2 : s2.MemOk := fst_memOk e3 (State.takeEntryOf_memOk h1)
        split
        · extract_lets _ _
          exact State.event_memOk h2
        · exact h2
    · split
      · next s2 _ e3 =>
        have h2 : s2.MemOk := fst_memOk e3 (State.takeEntryOf_memOk h1)
        split
        · exact State.deliverResult_memOk h2
        · exact h2
    · exact foldl_memOk (fun _ _ h2 => State.enterMesh_memOk h2) (State.dropEntryRec_memOk h1)

theorem State.dropFrame_memOk {s : State} {chip port number : Nat} (h : s.MemOk) : (s.dropFrame chip port number).MemOk := State.modPort_memOk h

theorem State.answerFrame_memOk {s : State} {chip port : Nat} {f : Frame} {good : Bool} (h : s.MemOk) : (s.answerFrame chip port f good).MemOk := by
  unfold State.answerFrame
  split
  · next s1 e =>
    have h1 : s1.MemOk := snd_memOk e (State.fresh_memOk h)
    extract_lets _
    exact State.joinQueue_memOk h1

theorem State.takeAnswer_memOk {s : State} {chip port number : Nat} {good : Bool} (h : s.MemOk) : (s.takeAnswer chip port number good).MemOk := by
  unfold State.takeAnswer
  split
  · exact State.pokePort_memOk (State.dropFrame_memOk h)
  · exact State.event_memOk h

theorem State.takeFrame_memOk {s : State} {chip port : Nat} {f : Frame} (h : s.MemOk) : (s.takeFrame chip port f).MemOk := by
  unfold State.takeFrame
  split
  · split
    · exact State.modPort_memOk (State.dropEntryRec_memOk (State.dropFrame_memOk h))
    · exact State.takeAnswer_memOk (State.dropEntryRec_memOk (State.dropFrame_memOk h))
    · extract_lets _ s1 _ s2
      have h1 : s1.MemOk := State.modPort_memOk h
      have h2 : s2.MemOk := by
        unfold s2
        split
        · exact h1
        · exact State.arriveEntry_memOk (State.returnCredit_memOk h1)
      exact State.answerFrame_memOk h2
  · exact State.answerFrame_memOk (State.modPort_memOk h)

theorem execOuvvalFrame_memOk {chip port : Nat} {ok : Bool} {s : State} (h : s.MemOk) : (execOuvvalFrame chip port ok s).MemOk := by
  unfold execOuvvalFrame
  refine .next ?_
  extract_lets _
  split
  · exact h
  · split
    · exact State.modPort_memOk h
    · split
      · exact State.takeFrame_memOk h
      · split
        · exact State.dropEntryRec_memOk (State.dropFrame_memOk h)
        · exact State.answerFrame_memOk (State.modPort_memOk h)

theorem State.failPort_memOk {s : State} {chip port : Nat} (h : s.MemOk) :
    (s.failPort chip port).MemOk :=
  State.machineCheck_memOk (State.modPort_memOk h)

theorem execNegativeAcknowledgement_memOk {chip port : Nat} {s : State} (h : s.MemOk) : (execNegativeAcknowledgement chip port s).MemOk := by
  unfold execNegativeAcknowledgement
  refine .next ?_
  extract_lets _
  split
  · exact h
  · split
    · exact h
    · split
      · exact h
      · split
        · extract_lets _ _ s1
          have h1 : s1.MemOk := State.modPort_memOk h
          exact foldl_memOk (fun _ _ h2 => State.event_memOk h2) h1
        · exact State.failPort_memOk h

theorem State.serveSlot_memOk {s : State} {chip port : Nat} (h : s.MemOk) : (s.serveSlot chip port).MemOk := by
  unfold State.serveSlot
  extract_lets _
  split
  · split
    · extract_lets _ s1
      have h1 : s1.MemOk := State.modPort_memOk h
      exact State.pokePort_memOk (foldl_memOk (fun _ _ h2 => State.event_memOk h2) h1)
    · exact h
  · exact h

theorem State.unlock_memOk {s : State} {chip port : Nat} (h : s.MemOk) : (s.unlock chip port).MemOk := State.modChip_memOk (State.modPort_memOk h)

theorem State.dropUnreachable_memOk {s : State} {chip : Nat} (h : s.MemOk) : (s.dropUnreachable chip).MemOk := (dropUnreachable_fabric _ _).ok h

theorem State.filterRelays_memOk {s : State} {chip : Nat} (h : s.MemOk) : (s.filterRelays chip).MemOk := by
  unfold State.filterRelays
  extract_lets _
  exact State.modChip_memOk h

theorem State.relock_memOk {s : State} {chip port : Nat} (h : s.MemOk) : (s.relock chip port).MemOk := by
  unfold State.relock
  extract_lets _ s1 _ _ s2 s3
  have h1 : s1.MemOk := by
    unfold s1
    split
    · exact h
    · exact State.modChip_memOk h
  have h2 : s2.MemOk := State.modPort_memOk h1
  have h3 : s3.MemOk := by
    unfold s3
    split
    · exact State.modChip_memOk h2
    · exact h2
  split
  · exact h
  · exact State.serveSlot_memOk (State.dropUnreachable_memOk (State.filterRelays_memOk h3))

theorem State.checkHello_memOk {s : State} {chip port : Nat} {h : Hello} (hs : s.MemOk) : (s.checkHello chip port h).MemOk := by
  unfold State.checkHello
  extract_lets _
  split
  · exact hs
  · split
    · exact State.relock_memOk (State.modPort_memOk hs)
    · split
      · exact hs
      · split
        · split
          · exact hs
          · split
            · exact hs
            · exact State.serveSlot_memOk (State.modPort_memOk hs)
        · exact State.unlock_memOk hs

theorem execHelloFrame_memOk {chip port : Nat} {h : Hello} {s : State} (hs : s.MemOk) :
    (execHelloFrame chip port h s).MemOk :=
  .next (State.checkHello_memOk hs)

theorem State.deliverHello_memOk {s : State} {chip port : Nat} {h : Hello} (hs : s.MemOk) : (s.deliverHello chip port h).MemOk := by
  unfold State.deliverHello
  split
  · exact State.checkHello_memOk (State.modPort_memOk hs)
  · exact State.modPort_memOk hs

theorem State.openSlot_memOk {s : State} {chip port : Nat} (h : s.MemOk) : (s.openSlot chip port).MemOk := by
  unfold State.openSlot
  extract_lets _ s1 s2 _
  have h1 : s1.MemOk := by
    unfold s1
    split
    · exact State.deliverHello_memOk h
    · exact h
  have h2 : s2.MemOk := by
    unfold s2
    split
    · exact State.checkHello_memOk (State.modPort_memOk h1)
    · exact State.modPort_memOk h1
  exact State.timer_memOk h2

theorem State.leaveTables_memOk {s : State} {chip port : Nat} (h : s.MemOk) : (s.leaveTables chip port).MemOk := by
  unfold State.leaveTables
  extract_lets s1
  have h1 : s1.MemOk := by
    unfold s1
    split
    · exact State.sendMarker_memOk h
    · exact h
  exact State.openSlot_memOk (State.modPort_memOk h1)

theorem execSlotStart_memOk {chip port since10ns : Nat} {s : State} (h : s.MemOk) : (execSlotStart chip port since10ns s).MemOk := by
  unfold execSlotStart
  refine .next ?_
  extract_lets _ _ _ s1 s2
  have h1 : s1.MemOk := State.modPort_memOk h
  have h2 : s2.MemOk := State.openSlot_memOk h1
  split
  · exact h
  · split
    · exact State.leaveTables_memOk h
    · split
      · exact State.serveSlot_memOk h2
      · exact h2

theorem execDarkPeriodMissed_memOk {chip port : Nat} {s : State} (h : s.MemOk) : (execDarkPeriodMissed chip port s).MemOk := by
  unfold execDarkPeriodMissed
  refine .next ?_
  extract_lets _ s1
  have h1 : s1.MemOk := State.openSlot_memOk (State.modPort_memOk h)
  split
  · exact h
  · split
    · exact State.leaveTables_memOk h
    · split
      · exact State.unlock_memOk h1
      · exact State.serveSlot_memOk h1

theorem execRelayEntry_memOk {entry : Nat} {s : State} (h : s.MemOk) : (execRelayEntry entry s).MemOk := by
  unfold execRelayEntry
  refine .next ?_
  split
  · split
    · exact State.event_memOk (State.modEntry_memOk h)
    · exact h
  · exact h

theorem execRelayCredit_memOk {chip via : Nat} {s : State} (h : s.MemOk) : (execRelayCredit chip via s).MemOk := by
  unfold execRelayCredit
  refine .next ?_
  split
  · extract_lets s1
    have h1 : s1.MemOk := State.addCredit_memOk (State.dropEntryRec_memOk h)
    exact foldl_memOk (fun _ _ h2 => State.pokePort_memOk h2) h1
  · exact h

theorem execKeyUpdate_memOk {chip port : Nat} {key : BitVec 256} {s : State} (h : s.MemOk) : (execKeyUpdate chip port key s).MemOk := by
  unfold execKeyUpdate
  refine .next ?_
  split
  · split
    · exact State.updateKeys_memOk h
    · exact h
  · exact h

theorem execKeyRotationTimer_memOk {chip port : Nat} {s : State} (h : s.MemOk) : (execKeyRotationTimer chip port s).MemOk := by
  unfold execKeyRotationTimer
  refine .next ?_
  split
  · split
    · exact State.rotateKeys_memOk h
    · exact h
  · exact h

theorem State.portsDone_memOk {s : State} {chip : Nat} (h : s.MemOk) : (s.portsDone chip).MemOk := by
  unfold State.portsDone
  extract_lets _
  split
  · exact State.push_memOk (State.modChip_memOk h)
  · exact h

theorem execLinkTraining_memOk {chip port : Nat} {b : TrainingInput} {s : State} (h : s.MemOk) : (execLinkTraining chip port b s).MemOk := by
  unfold execLinkTraining
  refine .next ?_
  split
  · exact h
  · extract_lets _ s1 s2
    have h1 : s1.MemOk := State.modPort_memOk h
    have h2 : s2.MemOk := by
      unfold s2
      split
      · exact State.armRotation_memOk h1
      · exact h1
    split
    · exact State.portsDone_memOk (State.filterRelays_memOk h2)
    · exact State.portsDone_memOk (State.modChip_memOk (State.modPort_memOk h))

theorem State.grant_memOk {s : State} {chip via n : Nat} (h : s.MemOk) : (s.grant chip via n).MemOk := (grant_fabric _ _ _ _).ok h

theorem execRotorTableChange_memOk {chip : Nat} {c : RotorChange} {s : State} (h : s.MemOk) : (execRotorTableChange chip c s).MemOk := by
  unfold execRotorTableChange
  refine .next ?_
  split
  · exact h
  · extract_lets s1 s2 _
    have h1 : s1.MemOk := by
      unfold s1
      refine foldl_memOk ?_ h
      intro _ _ h1
      extract_lets _
      exact State.modPort_memOk h1
    have h2 : s2.MemOk := foldl_memOk (fun _ _ h2 => State.grant_memOk h2) h1
    split
    · exact State.modChip_memOk h2
    · exact State.dropUnreachable_memOk (State.filterRelays_memOk (State.modChip_memOk h2))

theorem execRotorRelock_memOk {chip port : Nat} {s : State} (h : s.MemOk) : (execRotorRelock chip port s).MemOk := .next (State.relock_memOk h)

end Sys2Proof.Machine
end

section
/-! Proofs. Memory stays canonical: Host, Dispatch (95; O59). -/

namespace Sys2Proof.Machine

/-! ### Host -/

theorem State.writeHost_memOk {s : State} {a : Nat} {bs : List Byte} (h : s.MemOk) : (s.writeHost a bs).MemOk := (writeHost_writes _ _ _).ok h

theorem State.writeQtail_memOk {s : State} {n : Nat} {v : Word} (h : s.MemOk) : (s.writeQtail n v).MemOk := by
  unfold State.writeQtail
  split
  · exact State.event_memOk (State.modParish_memOk h)
  · exact h

theorem State.writeJhead_memOk {s : State} {n : Nat} {v : Word} (h : s.MemOk) : (s.writeJhead n v).MemOk := by
  unfold State.writeJhead
  split
  · exact State.event_memOk (State.modParish_memOk h)
  · exact h

theorem execQtailWrite_memOk {parish : Nat} {v : Word} {s : State} (h : s.MemOk) :
    (execQtailWrite parish v s).MemOk :=
  .next (State.writeQtail_memOk h)

theorem execJheadWrite_memOk {parish : Nat} {v : Word} {s : State} (h : s.MemOk) :
    (execJheadWrite parish v s).MemOk :=
  .next (State.writeJhead_memOk h)

theorem State.modCommand_memOk {s : State} {n seq : Nat} {f : HostCommand → HostCommand} (h : s.MemOk) :
    (s.modCommand n seq f).MemOk :=
  State.modParish_memOk h

theorem State.writeJournal_memOk {s : State} {n seq k : Nat} {ws : List Word} (h : s.MemOk) :
    (s.writeJournal n seq k ws).MemOk :=
  (writeJournal_writes _ _ _ _ _).ok h

theorem entryTaken_memOk {s : State} {n : Nat} (h : s.MemOk) : (entryTaken s n).MemOk := by
  unfold entryTaken
  exact State.event_memOk (State.capture_memOk (State.modParish_memOk (State.writeJournal_memOk h)))

theorem execCommandEntry_memOk {parish : Nat} {s : State} (h : s.MemOk) : (execCommandEntry parish s).MemOk := by
  rw [← exec_commandEntry]
  by_cases hx : (s.parish parish).present = true ∧ (s.parish parish).qhead < (s.parish parish).qtail ∧ (s.parish parish).room = true
  · obtain ⟨hp, hq, hr⟩ := hx
    have ht := entryTaken_memOk (n := parish) h
    rw [commandEntry_takes hp hq hr]
    generalize entryTaken s parish = t at ht ⊢
    generalize entryCommand s parish = c
    refine .next ?_
    split
    · exact State.decideCommand_memOk ht
    · split
      · exact State.decideCommand_memOk ht
      · split
        · exact State.event_memOk ht
        · exact State.event_memOk ht
        · exact State.event_memOk ht
        · exact State.event_memOk ht
        · exact State.decideCommand_memOk ht
  · rw [commandEntry_waits (by simpa [imp_iff_not_or, ← BitVec.not_lt] using hx)]
    exact .next h

theorem State.holdCommand_memOk {s : State} {n seq : Nat} {a : Word} (h : s.MemOk) :
    (s.holdCommand n seq a).MemOk :=
  State.push_memOk (State.modCommand_memOk h)

theorem State.laterCommand_memOk {s : State} {n : Nat} {i : Instr} (h : s.MemOk) : (s.laterCommand n i).MemOk := State.timer_memOk h

theorem execLaunchCommand_memOk {parish seq : Nat} {s : State} (h : s.MemOk) : (execLaunchCommand parish seq s).MemOk := by
  unfold execLaunchCommand
  refine .next ?_
  split
  · exact h
  · split
    · exact h
    · extract_lets _ _ _ _ unread _ _
      have h1 : ∀ (s : State), s.MemOk → (unread s).MemOk := fun _ h1 => State.refuse_memOk h1
      split
      · exact h1 _ h
      · split
        · exact State.laterCommand_memOk h
        · split
          · exact h1 _ h
          · exact h1 _ h
          · exact State.holdCommand_memOk h
          · exact State.holdCommand_memOk h
          · exact State.laterCommand_memOk h
          · exact State.laterCommand_memOk h
          · split
            · next s1 e10 =>
              have h2 : s1.MemOk := fst_memOk e10 (State.readWords_memOk h)
              exact h1 _ h2
            · next s1 _ e10 =>
              have h2 : s1.MemOk := fst_memOk e10 (State.readWords_memOk h)
              split
              · next s2 e11 =>
                have h3 : s2.MemOk := snd_memOk e11 (State.fresh_memOk (State.modCommand_memOk h2))
                exact State.event_memOk (State.setSubmission_memOk h3)

theorem State.askLine_memOk {s : State} {n seq right : Nat} {i : Instr} {c : HostCommand} {bytes : List Byte} {req : Req} (h : s.MemOk) :
    (s.askLine n seq right i c bytes req).MemOk := by
  unfold State.askLine
  extract_lets _ _ _ stop _ s1
  have h1 : ∀ (s : State), s.MemOk → (stop s).MemOk := fun _ h1 => State.decideCommand_memOk h1
  have h2 : s1.MemOk := State.modCommand_memOk (State.countExtent_memOk h)
  split
  · exact h1 _ h
  · split
    · exact State.holdCommand_memOk h
    · exact h1 _ h
    · exact h1 _ h
    · exact State.laterCommand_memOk h
    · exact State.request_memOk h2

theorem State.copyStep_memOk {s : State} {n seq right : Nat} {i : Instr} {req : State → HostCommand → List Byte × Req}
    {took : State → HostCommand → List Byte → State} (h : s.MemOk)
    (htook : ∀ (a : State) (a_1 : HostCommand) (a_2 : List Byte), a.MemOk → (took a a_1 a_2).MemOk) :
    (s.copyStep n seq right i req took).MemOk := by
  unfold State.copyStep
  split
  · exact h
  · split
    · exact h
    · split
      · exact State.decideCommand_memOk h
      · split
        · split
          · exact State.askLine_memOk h
        · extract_lets s1 s2
          have h1 : s1.MemOk := State.modCommand_memOk h
          have h2 : s2.MemOk := State.modCommand_memOk (htook _ _ _ h1)
          split
          · exact State.holdCommand_memOk h1
          · exact State.decideCommand_memOk h1
          · split
            · exact State.decideCommand_memOk h2
            · exact State.event_memOk h2

theorem execCopyin_memOk {parish seq : Nat} {s : State} (h : s.MemOk) : (execCopyin parish seq s).MemOk := by
  unfold execCopyin
  refine .next ?_
  split
  · exact h
  · exact State.copyStep_memOk h (fun _ _ _ h1 => State.capture_memOk h1)

theorem execCopyout_memOk {parish seq : Nat} {s : State} (h : s.MemOk) : (execCopyout parish seq s).MemOk := by
  unfold execCopyout
  refine .next ?_
  split
  · exact h
  · exact State.copyStep_memOk h (fun _ _ _ h1 => State.writeHost_memOk h1)

theorem execMark_memOk {parish seq : Nat} {s : State} (h : s.MemOk) : (execMark parish seq s).MemOk := by
  unfold execMark
  refine .next ?_
  split
  · exact h
  · split
    · exact State.decideCommand_memOk h
    · exact h

theorem commandCompletion_goes {s : State} {n seq status : Nat} {detail : Word} {c : HostCommand} (h : s.command? n seq = some c)
    (ho : c.outcome = some (status, detail)) : execCommandCompletion n seq s = .next (commandEnded (completionWritten
      (s.writeJournal n seq 2 [BitVec.ofNat 64 (2 + status % 256 * 2 ^ 8), detail]) (s.parish n) c seq status) (s.parish n) n seq) := by
  rw [execCommandCompletion, h]
  dsimp -zeta only
  rw [ho]
  rfl

theorem execCommandCompletion_memOk {parish seq : Nat} {s : State} (h : s.MemOk) : (execCommandCompletion parish seq s).MemOk := by
  cases hc : s.command? parish seq with
  | none =>
    rw [execCommandCompletion, hc]
    exact .next h
  | some c =>
    cases ho : c.outcome with
    | none =>
      rw [execCommandCompletion, hc]
      dsimp -zeta only
      rw [ho]
      exact .next h
    | some x =>
      have hw := (writeJournal_writes s parish seq 2 [BitVec.ofNat 64 (2 + x.1 % 256 * 2 ^ 8), x.2]).trans
        (completionWritten_writes _ (s.parish parish) c seq x.1)
      rw [commandCompletion_goes hc ho]
      exact .next (memOk_of_mem (commandEnded_ends hw (s.parish parish) parish seq).2.2 (hw.ok h))

/-- The extent words of a new object stand on chip `c`. -/
def extentsListed (s : State) (n c owner xl f k : Nat) : State :=
  (List.range k).foldl (fun s i =>
    { s with exts := AMap.set 0 s.exts (extKey n c (xl + 8 * i)) (if c = owner then localDesc (f + i) else remoteDesc owner) }) s

theorem extentsListed_memOk {s : State} {n c owner xl f k : Nat} (h : s.MemOk) : (extentsListed s n c owner xl f k).MemOk := by
  unfold extentsListed
  generalize List.range k = l
  induction l generalizing s with
  | nil => exact h
  | cons i l ih => exact ih h

/-- The entry `e` and the extent words of a new object stand on its chips. -/
def objectEntered (s : State) (n : Nat) (chips : List Nat) (owner xl f obj k : Nat) (e : ObjEntry) : State :=
  chips.foldl (fun s c => extentsListed { s with objs := AMap.set {} s.objs (objKey n c obj) e } n c owner xl f k) s

theorem withObjs_memOk {s : State} {l : AMap ObjEntry} (h : s.MemOk) : State.MemOk { s with objs := l } := h

theorem objectEntered_memOk {s : State} {n : Nat} {chips : List Nat} {owner xl f obj k : Nat} {e : ObjEntry} (h : s.MemOk) :
    (objectEntered s n chips owner xl f obj k e).MemOk := by
  unfold objectEntered
  exact foldl_memOk (fun _ _ h1 => extentsListed_memOk (withObjs_memOk h1)) h

theorem makeObject_eq (s : State) (n : Nat) (chips : List Nat) (owner xl f : Nat) (o : NewObject) : s.makeObject n chips owner xl f o =
    let t := objectEntered s n chips owner xl f o.obj (extentCount o.length)
      { w0 := packObj 0 1 o.parcel o.length, w1 := BitVec.ofNat 64 o.rights, w2 := BitVec.ofNat 64 xl }
    (t.zeroFrames owner f (extentCount o.length)).setBytes ((consecutive (hbmByte owner (f * 2 ^ 21)) o.present).zip (t.hostBytes o.source o.present)) := rfl

theorem State.makeObject_memOk {s : State} {n : Nat} {chips : List Nat} {owner xl f : Nat} {o : NewObject} (h : s.MemOk) :
    (s.makeObject n chips owner xl f o).MemOk := by
  rw [makeObject_eq]
  exact State.setBytes_memOk _ (State.zeroFrames_memOk _ _ _ (objectEntered_memOk h))

theorem State.makeObjects_memOk {s : State} {n : Nat} {chips : List Nat} {owner x f : Nat} {l : List NewObject} (h : s.MemOk) :
    (s.makeObjects n chips owner x f l).MemOk := by
  induction l generalizing s x f with
  | nil => exact h
  | cons o r ih => exact ih (State.makeObject_memOk h)

theorem State.makeRing_memOk {s : State} {core i log : Nat} {es : List Word} (h : s.MemOk) : (s.makeRing core i log es).MemOk := by
  unfold State.makeRing
  extract_lets _
  exact State.write_memOk _ h

theorem State.makeControl_memOk {s : State} {chip core : Nat} {logs : List Nat} {ws : List (Nat × Word)} {records images : List Word} (h : s.MemOk) :
    (s.makeControl chip core logs ws records images).MemOk := by
  unfold State.makeControl
  extract_lets _ _ s1
  have h1 : s1.MemOk := foldl_memOk (fun _ _ h1 => State.write_memOk _ h1) (State.zeroFrames_memOk _ _ _ h)
  exact foldl_memOk (fun _ _ h2 => State.makeRing_memOk h2) h1

theorem State.buildParish_memOk {s : State} {chip n b : Nat} (h : s.MemOk) : OptMemOk (fun t => t) (s.buildParish chip n b) := by
  unfold State.buildParish
  extract_lets _ _ _ _ _ _ _ _ _ _ _ _ _ _ _ _ _ _ _ _ _ _ s1 s2 _
  have h2 : s1.MemOk := h
  have h3 : s2.MemOk := foldl_memOk (fun _ _ h3 => State.modChip_memOk h3) h2
  split
  · exact .none
  · split
    · exact .none
    · extract_lets _ s3 s4 s5 _
      have h4 : s3.MemOk := by
        unfold s3
        refine foldl_memOk ?_ h3
        intro _ _ h4
        extract_lets _ s7
        have h5 : s7.MemOk := h4
        exact State.makeControl_memOk h5
      have h5 : s4.MemOk := State.makeObjects_memOk h4
      have h6 : s5.MemOk := foldl_memOk (fun _ _ h6 => foldl_memOk (fun _ _ h7 => foldl_memOk (fun _ _ h8 => State.modRoll_memOk h8) h7) h6) h5
      exact .some (State.capture_memOk (State.modParish_memOk h6))

theorem State.launchSupervisor_memOk {s : State} {chip n b : Nat} (h : s.MemOk) : (s.launchSupervisor chip n b).1.MemOk := by
  obtain ⟨c, r, v, l, -, e⟩ := launchSupervisor_cases s chip n b
  have hr : ((s.readWords c n r 64).1.readSchedule v).1.MemOk := State.readSchedule_memOk (State.readWords_memOk h)
  rcases e with e | e
  · rw [e]
    exact hr
  · rw [e]
    exact State.accept_memOk hr

theorem State.createParish_memOk {s : State} {chip n : Nat} (h : s.MemOk) : (s.createParish chip n).MemOk := by
  unfold State.createParish
  -- opaque, so that the kernel does not evaluate what the image holds
  obtain ⟨code, hc⟩ : ∃ f, f = State.imageCode := ⟨_, rfl⟩
  obtain ⟨build, hb⟩ : ∃ f, f = State.buildParish := ⟨_, rfl⟩
  obtain ⟨launch, hl⟩ : ∃ f, f = State.launchSupervisor := ⟨_, rfl⟩
  have hbuild {b : Nat} : OptMemOk (fun t => t) (build s chip n b) := by
    rw [hb]
    exact State.buildParish_memOk h
  have hlaunch {u : State} {b : Nat} (hu : u.MemOk) : (launch u chip n b).1.MemOk := by
    rw [hl]
    exact State.launchSupervisor_memOk hu
  rw [← hc, ← hb, ← hl]
  extract_lets b fail
  have hf (k l : Nat) : (fail k l).MemOk := State.modParish_memOk h
  split
  · exact h
  · split
    · exact hf _ _
    · split
      · exact hf _ _
      · split
        · exact hf _ _
        · next s1 e =>
          have h1 : s1.MemOk := some_memOk e hbuild
          split
          · next s2 e1 => exact fst_memOk e1 (hlaunch h1)
          · exact hf _ _

theorem execParishCreate_memOk {chip parish : Nat} {s : State} (h : s.MemOk) :
    (execParishCreate chip parish s).MemOk :=
  .next (State.createParish_memOk h)

theorem State.destroyParish_memOk {s : State} {chip n : Nat} (h : s.MemOk) : (s.destroyParish chip n).MemOk := by
  unfold State.destroyParish
  extract_lets _ _ _ s1 s2
  have h1 : s1.MemOk := h
  have h2 : s2.MemOk := by
    unfold s2
    refine foldl_memOk ?_ h1
    intro _ _ h2
    split
    · exact State.event_memOk h2
    · exact h2
  split
  · exact h
  · refine foldl_memOk ?_ h2
    intro _ _ h3
    split
    · exact State.event_memOk h3
    · exact h3

theorem execParishDestroy_memOk {chip parish : Nat} {s : State} (h : s.MemOk) :
    (execParishDestroy chip parish s).MemOk :=
  .next (State.destroyParish_memOk h)

theorem State.writeRegister_memOk {s : State} {chip off : Nat} {v : Word} (h : s.MemOk) : (s.writeRegister chip off v).MemOk := by
  unfold State.writeRegister
  split
  · exact h
  · split
    · extract_lets _ _
      split
      · exact h
      · split
        · split
          · exact State.modParish_memOk h
          · exact h
        · split
          · exact State.modParish_memOk h
          · exact h
        · exact State.writeQtail_memOk h
        · exact State.writeJhead_memOk h
        · split
          · exact State.modParish_memOk h
          · exact h
        · exact h
    · split
      · exact State.modChip_memOk h
      · split
        · extract_lets _
          split
          · exact State.createParish_memOk h
          · split
            · exact State.destroyParish_memOk h
            · exact h
        · exact h

theorem execRegisterWrite_memOk {chip off : Nat} {v : Word} {s : State} (h : s.MemOk) :
    (execRegisterWrite chip off v s).MemOk :=
  .next (State.writeRegister_memOk h)

theorem execBootRom_memOk {chip : Nat} {b : BootInput} {s : State} (h : s.MemOk) : (execBootRom chip b s).MemOk := by
  unfold execBootRom
  refine .next ?_
  extract_lets _
  split
  · exact h
  · split
    · extract_lets s1 s2 s3
      have h1 : s1.MemOk := State.modChip_memOk h
      have h2 : s2.MemOk := by
        unfold s2
        split
        · exact foldl_memOk (fun _ _ h2 => State.modNode_memOk h2) h1
        · exact h1
      have h3 : s3.MemOk := foldl_memOk (fun _ _ h3 => State.modNode_memOk h3) h2
      split
      · exact foldl_memOk (fun _ _ h4 => State.setTolls_memOk h4) h3
      · exact h2

theorem execGatewayTraining_memOk {chip : Nat} {deadSeams : List Nat} {s : State} (h : s.MemOk) : (execGatewayTraining chip deadSeams s).MemOk := by
  unfold execGatewayTraining
  refine .next ?_
  extract_lets _
  split
  · exact h
  · split
    · exact State.portsDone_memOk (State.modChip_memOk h)
    · exact State.modChip_memOk h

theorem execHostLinkTraining_memOk {chip speed width : Nat} {s : State} (h : s.MemOk) : (execHostLinkTraining chip speed width s).MemOk := by
  unfold execHostLinkTraining
  refine .next ?_
  split
  · exact h
  · extract_lets _
    exact State.modChip_memOk h

theorem execMeasurements_memOk {chip : Nat} {r : MeasurementRequest} {s : State} (h : s.MemOk) : (execMeasurements chip r s).MemOk := by
  unfold execMeasurements
  refine .next ?_
  split
  · extract_lets _ _
    split
    · exact State.modChip_memOk h
  · exact h

theorem State.eraseChip_memOk {s : State} {chip : Nat} {off : Bool} (h : s.MemOk) : (s.eraseChip chip off).MemOk := by
  unfold State.eraseChip
  extract_lets _ _ _ s1
  have h1 : s1.MemOk := AMap.wf_filter _ h
  exact State.modChip_memOk h1

theorem execPowerOnReset_memOk {chip : Nat} {s : State} (h : s.MemOk) : (execPowerOnReset chip s).MemOk := .next (State.eraseChip_memOk h)

theorem execPowerLoss_memOk {chip : Nat} {s : State} (h : s.MemOk) : (execPowerLoss chip s).MemOk := .next (State.eraseChip_memOk h)

theorem execModuleOverTemperature_memOk {chip : Nat} {s : State} (h : s.MemOk) :
    (execModuleOverTemperature chip s).MemOk :=
  .next (State.eraseChip_memOk h)

theorem execDieOverTemperature_memOk {die : Nat} {s : State} (h : s.MemOk) : (execDieOverTemperature die s).MemOk := .next (State.setTolls_memOk h)

/-! ### Dispatch -/

theorem exec_memOk {i : Instr} {s : State} (h : s.MemOk) : Out.MemOk (exec i s) := by
  unfold exec
  split
  · exact execAdd_memOk h
  · exact execSub_memOk h
  · exact execAnd_memOk h
  · exact execOr_memOk h
  · exact execXor_memOk h
  · exact execShl_memOk h
  · exact execShr_memOk h
  · exact execShra_memOk h
  · exact execRotr_memOk h
  · exact execMin_memOk h
  · exact execMax_memOk h
  · exact execMinu_memOk h
  · exact execMaxu_memOk h
  · exact execMul_memOk h
  · exact execMulh_memOk h
  · exact execMulhu_memOk h
  · exact execDiv_memOk h
  · exact execDivu_memOk h
  · exact execRem_memOk h
  · exact execRemu_memOk h
  · exact execClz_memOk h
  · exact execCtz_memOk h
  · exact execPopc_memOk h
  · exact execSextB_memOk h
  · exact execSextH_memOk h
  · exact execSextW_memOk h
  · exact execZextB_memOk h
  · exact execZextH_memOk h
  · exact execZextW_memOk h
  · exact execAddi_memOk h
  · exact execAndi_memOk h
  · exact execOri_memOk h
  · exact execXori_memOk h
  · exact execShli_memOk h
  · exact execShri_memOk h
  · exact execShrai_memOk h
  · exact execRotri_memOk h
  · exact execMovi_memOk h
  · exact execMovk16_memOk h
  · exact execMovk32_memOk h
  · exact execMovk48_memOk h
  · exact execCmp_memOk h
  · exact execCmpi_memOk h
  · exact execPand_memOk h
  · exact execPor_memOk h
  · exact execPxor_memOk h
  · exact execPnot_memOk h
  · exact execPmov_memOk h
  · exact execMovpFromPw_memOk h
  · exact execMovpToPw_memOk h
  · exact execBr_memOk h
  · exact execJal_memOk h
  · exact execJalr_memOk h
  · exact execNop_memOk h
  · exact execHalt_memOk h
  · exact execYield_memOk h
  · exact execTrap_memOk h
  · exact execEret_memOk h
  · exact execBrk_memOk h
  · exact execGets_memOk h
  · exact execSets_memOk h
  · exact execLd_memOk h
  · exact execSt_memOk h
  · exact execLdl_memOk h
  · exact execStl_memOk h
  · exact execLdh_memOk h
  · exact execSth_memOk h
  · exact execAmoAdd_memOk h
  · exact execAmoMin_memOk h
  · exact execAmoMax_memOk h
  · exact execAmoAnd_memOk h
  · exact execAmoOr_memOk h
  · exact execAmoXor_memOk h
  · exact execAmoXchg_memOk h
  · exact execCas_memOk h
  · exact execCas2_memOk h
  · exact execCas4_memOk h
  · exact execEnq_memOk h
  · exact execDeq_memOk h
  · exact execChase_memOk h
  · exact execCwait_memOk h
  · exact execCwaitr_memOk h
  · exact execCadd_memOk h
  · exact execCaddRel_memOk h
  · exact execCpeek_memOk h
  · exact execLempty_memOk h
  · exact execLfill_memOk h
  · exact execLstate_memOk h
  · exact execWander_memOk h
  · exact execHome_memOk h
  · exact execTx_memOk h
  · exact execTq_memOk h
  · exact execFork_memOk h
  · exact execRdv_memOk h
  · exact execTshape_memOk h
  · exact execTshapeReg_memOk h
  · exact execTget_memOk h
  · exact execTset_memOk h
  · exact execPark_memOk h
  · exact execUnpark_memOk h
  · exact execBorrow_memOk h
  · exact execReturnLent_memOk h
  · exact execXget_memOk h
  · exact execXput_memOk h
  · exact execLaunch_memOk h
  · exact execTrigger_memOk h
  · exact execKvsub_memOk h
  · exact execKvunsub_memOk h
  · exact execPass_memOk h
  · exact execPost_memOk h
  · exact execFadd_memOk h
  · exact execFsub_memOk h
  · exact execFmul_memOk h
  · exact execFdiv_memOk h
  · exact execFsqrt_memOk h
  · exact execFmin_memOk h
  · exact execFmax_memOk h
  · exact execFneg_memOk h
  · exact execFabs_memOk h
  · exact execFcvt_memOk h
  · exact execFma_memOk h
  · exact execFms_memOk h
  · exact execFnma_memOk h
  · exact execFnms_memOk h
  · exact execFcmp_memOk h
  · exact execPlc_memOk h
  · exact execPloc_memOk h
  · exact execRoll_memOk h
  · exact execRollF_memOk h
  · exact execStc_memOk h
  · exact execTmma_memOk h
  · exact execTmms_memOk h
  · exact execTmmb_memOk h
  · exact execTmmd_memOk h
  · exact execRadd_memOk h
  · exact execRsub_memOk h
  · exact execRmul_memOk h
  · exact execRfma_memOk h
  · exact execRmin_memOk h
  · exact execRmax_memOk h
  · exact execRabs_memOk h
  · exact execRneg_memOk h
  · exact execRrcp_memOk h
  · exact execRrsq_memOk h
  · exact execRexp2_memOk h
  · exact execRlog2_memOk h
  · exact execRcvt_memOk h
  · exact execRand_memOk h
  · exact execRor_memOk h
  · exact execRxor_memOk h
  · exact execRshl_memOk h
  · exact execRshr_memOk h
  · exact execRcmp_memOk h
  · exact execRsel_memOk h
  · exact execRbcast_memOk h
  · exact execRsumr_memOk h
  · exact execRmaxr_memOk h
  · exact execRscan_memOk h
  · exact execRsort_memOk h
  · exact execRidx_memOk h
  · exact execRperm_memOk h
  · exact execRroll_memOk h
  · exact execKand_memOk h
  · exact execKor_memOk h
  · exact execKxor_memOk h
  · exact execKnot_memOk h
  · exact execTld_memOk h
  · exact execTst_memOk h
  · exact execTsta_memOk h
  · exact execTzero_memOk h
  · exact execTcopy_memOk h
  · exact execTtrn_memOk h
  · exact execCpy_memOk h
  · exact execCpya_memOk h
  · exact execCsched_memOk h
  · exact execCstage_memOk h
  · exact execGath_memOk h
  · exact execScat_memOk h
  · exact execAtts_memOk h
  · exact execAttp_memOk h
  · exact execGmrg_memOk h
  · exact execGtake_memOk h
  · exact execSpire_memOk h
  · exact execRetryTimeout_memOk h
  · exact execScrub_memOk h
  · exact execPacketRoute_memOk h
  · exact execDrainMarker_memOk h
  · exact execGatewayFrame_memOk h
  · exact execForkBufferSend_memOk h
  · exact execReeveOperation_memOk h
  · exact execFlagIncrement_memOk h
  · exact execWaitRegistration_memOk h
  · exact execWakeNotice_memOk h
  · exact execReplyLands_memOk h
  · exact execAcknowledgement_memOk h
  · exact execBusyNotice_memOk h
  · exact execHomeReport_memOk h
  · exact execTableChange_memOk h
  · exact execTableChangeAcknowledge_memOk h
  · exact execMovingExtentRecheck_memOk h
  · exact execNodeCacheFetch_memOk h
  · exact execCodeCacheFill_memOk h
  · exact execCopyScheduleEntry_memOk h
  · exact execSubmission_memOk h
  · exact execAdmission_memOk h
  · exact execDispatch_memOk h
  · exact execDependantSubmission_memOk h
  · exact execTaskRetirement_memOk h
  · exact execTaskEndFailedPartial_memOk h
  · exact execPreEmption_memOk h
  · exact execContextSave_memOk h
  · exact execSaveRingRetry_memOk h
  · exact execResumption_memOk h
  · exact execLongOpResult_memOk h
  · exact execYieldExpiry_memOk h
  · exact execEngineCompletion_memOk h
  · exact execWayfarerArrival_memOk h
  · exact execWayfarerStart_memOk h
  · exact execTollArrival_memOk h
  · exact execTollReturn_memOk h
  · exact execSubscriptionRegistration_memOk h
  · exact execPassOpen_memOk h
  · exact execPageWalk_memOk h
  · exact execStagingDelivery_memOk h
  · exact execSpireRound_memOk h
  · exact execSpirePackageSum_memOk h
  · exact execOuvvalFrame_memOk h
  · exact execNegativeAcknowledgement_memOk h
  · exact execEntryEnqueue_memOk h
  · exact execEntryAdmission_memOk h
  · exact execRelayEntry_memOk h
  · exact execRelayCredit_memOk h
  · exact execParcelOffer_memOk h
  · exact execParcelAcceptance_memOk h
  · exact execParcelData_memOk h
  · exact execInstallationAcknowledgement_memOk h
  · exact execParcelTransitFailure_memOk h
  · exact execCommandEntry_memOk h
  · exact execLaunchCommand_memOk h
  · exact execCopyin_memOk h
  · exact execCopyout_memOk h
  · exact execMark_memOk h
  · exact execCommandCompletion_memOk h
  · exact execBusyResend_memOk h
  · exact execRotorRelock_memOk h
  · exact execPowerOnReset_memOk h
  · exact execBootRom_memOk h
  · exact execLinkTraining_memOk h
  · exact execClusterReset_memOk h
  · exact execClusterRelease_memOk h
  · exact execRouteTableWrite_memOk h
  · exact execSwapMarker_memOk h
  · exact execChannelScrub_memOk h
  · exact execTollCountSet_memOk h
  · exact execTollHoldLimit_memOk h
  · exact execSlotStart_memOk h
  · exact execHelloFrame_memOk h
  · exact execKeyUpdate_memOk h
  · exact execKeyRotationTimer_memOk h
  · exact execRotorTableChange_memOk h
  · exact execQtailWrite_memOk h
  · exact execJheadWrite_memOk h
  · exact execRegisterWrite_memOk h
  · exact execMeasurements_memOk h
  · exact execDieOverTemperature_memOk h
  · exact execModuleOverTemperature_memOk h
  · exact execDarkPeriodMissed_memOk h
  · exact execGatewayTraining_memOk h
  · exact execHostLinkTraining_memOk h
  · exact execPowerLoss_memOk h
  · exact execDisposition_memOk h
  · exact execParishCreate_memOk h
  · exact execParishDestroy_memOk h

end Sys2Proof.Machine
end

section
/-! Proofs. Memory stays canonical: Step (95; O59). -/

namespace Sys2Proof.Machine

/-! ### Step -/

theorem perform_memOk {x : Selected} (h : x.MemOk) : Out.MemOk (perform x) := by
  cases h with
  | run h => exact exec_memOk h
  | done h => exact .next h

theorem step_memOk {s : State} (h : s.MemOk) : Out.MemOk (step s) := by
  unfold step
  split
  · exact .fault
  · exact perform_memOk (State.select_memOk h (fun _ _ _ _ h1 => State.notice_memOk h1))

/-- Settles O59: memory stays canonical in what a step selects and in every instruction that it runs. -/
theorem stepsKeepMemoryCanonical : Obligations.StepsKeepMemoryCanonical := by
  unfold Obligations.StepsKeepMemoryCanonical
  intro s t h e
  exact Out.MemOk.of_next e (step_memOk h)

end Sys2Proof.Machine
end
